-- ==== Sys2Proof/Word.lean ====
section
/-! DEFINITION. Words, bytes and the sparse map the state is made of (R2, R3). -/
namespace Sys2Proof

/-- A scalar register or device word. -/
abbrev W64 := BitVec 64

/-- One byte of storage. -/
abbrev Byte := BitVec 8

/-- A vector register, a landing slot, or one 64-byte sector: byte `k` is bits `8k+7` to `8k` (R3). -/
abbrev Vec := BitVec 512

/-- A sparse map from numbers: keys strictly rising, no entry equal to the default of its reader. -/
abbrev Map (α : Type) := List (Nat × α)

end Sys2Proof
end

