-- ==== Sys2Proof/Syntax.lean ====
section
/-! DEFINITION. The syntax: one constructor for each row of the opcode table, words (R170, R171) first, then the
events of the device (95_what_each_step_holds). A word carries its operand fields, each of its own width; CH is the
bundle's and stands in the encoder. The numbers that name an event's place (tile t, sequencer q with 0 for A and 1 for B,
context x, queue, ring, timer or record number) are the arguments of its agenda entry, in the order the docstring lists;
the cursor of the state holds them while the event runs. -/
namespace Sys2Proof

/-- Every operation of the opcode table. -/
inductive Instr where
  /-- NOP (R165): Occupies its step and does nothing. -/
  | nop
  /-- ADD (R188): Writes the sum of ga and gb at the selected width. -/
  | add (d : BitVec 5) (a : BitVec 5) (b : BitVec 5) (m : BitVec 3)
  /-- SUB (R188): Writes ga minus gb at the selected width. -/
  | sub (d : BitVec 5) (a : BitVec 5) (b : BitVec 5) (m : BitVec 3)
  /-- AND (R188): Writes the bitwise AND of ga and gb. -/
  | and (d : BitVec 5) (a : BitVec 5) (b : BitVec 5) (m : BitVec 3)
  /-- OR (R188): Writes the bitwise OR of ga and gb. -/
  | or (d : BitVec 5) (a : BitVec 5) (b : BitVec 5) (m : BitVec 3)
  /-- XOR (R188): Writes the bitwise XOR of ga and gb. -/
  | xor (d : BitVec 5) (a : BitVec 5) (b : BitVec 5) (m : BitVec 3)
  /-- ANDN (R188): Writes ga AND NOT gb. -/
  | andn (d : BitVec 5) (a : BitVec 5) (b : BitVec 5) (m : BitVec 3)
  /-- SHL (R188): Shifts ga left by gb mod w. -/
  | shl (d : BitVec 5) (a : BitVec 5) (b : BitVec 5) (m : BitVec 3)
  /-- SHR (R188): Shifts ga right logically by gb mod w. -/
  | shr (d : BitVec 5) (a : BitVec 5) (b : BitVec 5) (m : BitVec 3)
  /-- SHRA (R188): Shifts ga right arithmetically by gb mod w. -/
  | shra (d : BitVec 5) (a : BitVec 5) (b : BitVec 5) (m : BitVec 3)
  /-- ROTR (R188): Rotates ga right by gb mod w. -/
  | rotr (d : BitVec 5) (a : BitVec 5) (b : BitVec 5) (m : BitVec 3)
  /-- MUL (R188): Writes the low bits of the signed product with latency 3. -/
  | mul (d : BitVec 5) (a : BitVec 5) (b : BitVec 5) (m : BitVec 3)
  /-- MULH (R188): Writes the high half of the signed product. -/
  | mulh (d : BitVec 5) (a : BitVec 5) (b : BitVec 5) (m : BitVec 3)
  /-- MULHU (R188): Writes the high half of the unsigned product. -/
  | mulhu (d : BitVec 5) (a : BitVec 5) (b : BitVec 5) (m : BitVec 3)
  /-- DIV (R188): Writes the signed quotient truncated toward zero, with fixed results for zero and overflow. -/
  | div (d : BitVec 5) (a : BitVec 5) (b : BitVec 5) (m : BitVec 3)
  /-- DIVU (R188): Writes the unsigned quotient. -/
  | divu (d : BitVec 5) (a : BitVec 5) (b : BitVec 5) (m : BitVec 3)
  /-- REM (R188): Writes the signed remainder. -/
  | rem (d : BitVec 5) (a : BitVec 5) (b : BitVec 5) (m : BitVec 3)
  /-- REMU (R188): Writes the unsigned remainder. -/
  | remu (d : BitVec 5) (a : BitVec 5) (b : BitVec 5) (m : BitVec 3)
  /-- MIN (R188): Writes the signed minimum. -/
  | min (d : BitVec 5) (a : BitVec 5) (b : BitVec 5) (m : BitVec 3)
  /-- MAX (R188): Writes the signed maximum. -/
  | max (d : BitVec 5) (a : BitVec 5) (b : BitVec 5) (m : BitVec 3)
  /-- MINU (R188): Writes the unsigned minimum. -/
  | minu (d : BitVec 5) (a : BitVec 5) (b : BitVec 5) (m : BitVec 3)
  /-- MAXU (R188): Writes the unsigned maximum. -/
  | maxu (d : BitVec 5) (a : BitVec 5) (b : BitVec 5) (m : BitVec 3)
  /-- SLT (R188): Writes 1 if ga is less than gb, signed. -/
  | slt (d : BitVec 5) (a : BitVec 5) (b : BitVec 5) (m : BitVec 3)
  /-- SLTU (R188): Writes 1 if ga is less than gb, unsigned. -/
  | sltu (d : BitVec 5) (a : BitVec 5) (b : BitVec 5) (m : BitVec 3)
  /-- SEQ (R188): Writes 1 if ga equals gb. -/
  | seq (d : BitVec 5) (a : BitVec 5) (b : BitVec 5) (m : BitVec 3)
  /-- SNE (R188): Writes 1 if ga differs from gb. -/
  | sne (d : BitVec 5) (a : BitVec 5) (b : BitVec 5) (m : BitVec 3)
  /-- CLZ (R188): Counts leading zeros of ga within w bits. -/
  | clz (d : BitVec 5) (a : BitVec 5) (m : BitVec 3)
  /-- CTZ (R188): Counts trailing zeros of ga. -/
  | ctz (d : BitVec 5) (a : BitVec 5) (m : BitVec 3)
  /-- POPC (R188): Counts the one bits of ga. -/
  | popc (d : BitVec 5) (a : BitVec 5) (m : BitVec 3)
  /-- SEXT (R188): Sign-extends the low w bits of ga. -/
  | sext (d : BitVec 5) (a : BitVec 5) (m : BitVec 3)
  /-- ZEXT (R188): Zero-extends the low w bits of ga. -/
  | zext (d : BitVec 5) (a : BitVec 5) (m : BitVec 3)
  /-- FSHL (R188): Funnel shift left of ga above gd by gb, into gd. -/
  | fshl (d : BitVec 5) (a : BitVec 5) (b : BitVec 5) (m : BitVec 3)
  /-- FSHR (R188): Funnel shift right of ga above gd by gb, into gd. -/
  | fshr (d : BitVec 5) (a : BitVec 5) (b : BitVec 5) (m : BitVec 3)
  /-- ADDI (R189): Adds a signed 11-bit immediate to ga. -/
  | addi (d : BitVec 5) (a : BitVec 5) (i : BitVec 11)
  /-- ANDI (R189): ANDs ga with the sign-extended immediate. -/
  | andi (d : BitVec 5) (a : BitVec 5) (i : BitVec 11)
  /-- ORI (R189): ORs ga with the sign-extended immediate. -/
  | ori (d : BitVec 5) (a : BitVec 5) (i : BitVec 11)
  /-- XORI (R189): XORs ga with the sign-extended immediate. -/
  | xori (d : BitVec 5) (a : BitVec 5) (i : BitVec 11)
  /-- SHLI (R189): Shifts ga left by a 6-bit immediate. -/
  | shli (d : BitVec 5) (a : BitVec 5) (i : BitVec 6)
  /-- SHRI (R189): Shifts ga right logically by a 6-bit immediate. -/
  | shri (d : BitVec 5) (a : BitVec 5) (i : BitVec 6)
  /-- SHRAI (R189): Shifts ga right arithmetically by a 6-bit immediate. -/
  | shrai (d : BitVec 5) (a : BitVec 5) (i : BitVec 6)
  /-- SLTI (R189): Writes 1 if ga is below the immediate, signed. -/
  | slti (d : BitVec 5) (a : BitVec 5) (i : BitVec 11)
  /-- SLTUI (R189): Writes 1 if ga is below the immediate, unsigned. -/
  | sltui (d : BitVec 5) (a : BitVec 5) (i : BitVec 11)
  /-- MULI (R189): Multiplies ga by the immediate, latency 3. -/
  | muli (d : BitVec 5) (a : BitVec 5) (i : BitVec 11)
  /-- LI (R190): Loads a sign-extended 16-bit immediate into gd. -/
  | li (d : BitVec 5) (i : BitVec 16)
  /-- LIH1 (R190): Replaces bits 31:16 of gd with the immediate. -/
  | lih1 (d : BitVec 5) (i : BitVec 16)
  /-- LIH2 (R190): Replaces bits 47:32 of gd with the immediate. -/
  | lih2 (d : BitVec 5) (i : BitVec 16)
  /-- LIH3 (R190): Replaces bits 63:48 of gd with the immediate. -/
  | lih3 (d : BitVec 5) (i : BitVec 16)
  /-- LDS (R192): Loads from the own scratchpad at issue, landing 4 steps later. -/
  | lds (g : BitVec 5) (a : BitVec 5) (s : BitVec 2) (o : BitVec 9)
  /-- STS (R193): Stores to the own scratchpad, performing at issue + 2. -/
  | sts (g : BitVec 5) (a : BitVec 5) (s : BitVec 2) (o : BitVec 9)
  /-- LDM (R194): Loads from the own weight MRAM through the row map at issue, landing at issue + 12. -/
  | ldm (g : BitVec 5) (a : BitVec 5) (s : BitVec 2) (o : BitVec 9)
  /-- STX (R195): Stores to global memory at a scope into the L1 or the staging buffer. -/
  | stx (g : BitVec 5) (a : BitVec 5) (k : BitVec 3) (s : BitVec 2) (o : BitVec 6)
  /-- LDX (R196): Requests a global load into a landing slot with a declared arrival step. -/
  | ldx (l : BitVec 4) (a : BitVec 5) (t : BitVec 8) (s : BitVec 2)
  /-- GETL (R197): Reads bytes from a FULL landing slot into gd and empties the slot. -/
  | getl (d : BitVec 5) (l : BitVec 4) (s : BitVec 2) (o : BitVec 6)
  /-- GETL_PK (R197): Reads bytes from a FULL landing slot into gd and leaves it FULL. -/
  | getlPk (d : BitVec 5) (l : BitVec 4) (s : BitVec 2) (o : BitVec 6)
  /-- J (R198): Jumps PC-relative. -/
  | j (o : BitVec 21)
  /-- CALL (R198): Pushes the return address and jumps PC-relative. -/
  | call (o : BitVec 21)
  /-- JR (R198): Jumps to the address in ga. -/
  | jr (a : BitVec 5)
  /-- CALLR (R198): Pushes the return address and jumps to ga. -/
  | callr (a : BitVec 5)
  /-- RET (R198): Pops the return-address store and jumps there. -/
  | ret
  /-- BEQZ (R199): Branches if ga is zero. -/
  | beqz (a : BitVec 5) (o : BitVec 16)
  /-- BNEZ (R199): Branches if ga is non-zero. -/
  | bnez (a : BitVec 5) (o : BitVec 16)
  /-- BLTZ (R199): Branches if ga is negative. -/
  | bltz (a : BitVec 5) (o : BitVec 16)
  /-- BGEZ (R199): Branches if ga is not negative. -/
  | bgez (a : BitVec 5) (o : BitVec 16)
  /-- BPU (R200): Branches on a uniform predicate, faulting on mixed bits. -/
  | bpu (p : BitVec 3) (o : BitVec 16)
  /-- BENG (R201): Branches on an engine completion or fault flag as it stood two steps earlier. -/
  | beng (e : BitVec 4) (s : BitVec 1) (o : BitVec 16)
  /-- LOOP (R202): Decrements a loop count and branches while it exceeds 1, optionally rotating register bases. -/
  | loop (l : BitVec 2) (r : BitVec 2) (o : BitVec 16)
  /-- SKIP (R203): Skips the next n bundles if the named SKIPM bit is 1. -/
  | skip (b : BitVec 5) (n : BitVec 8)
  /-- HALT (R204): Ends issue of the task. -/
  | halt
  /-- WAITT (R205): Waits without freezing until a task step given in ga. -/
  | waitt (a : BitVec 5)
  /-- TRAP (R206): Raises USER_TRAP with a 16-bit code. -/
  | trap (i : BitVec 16)
  /-- MFC (R207): Reads a control register into g. -/
  | mfc (g : BitVec 5) (c : BitVec 8)
  /-- MTC (R207): Writes a control register from g at issue + 1. -/
  | mtc (g : BitVec 5) (c : BitVec 8)
  /-- TIME (R208): Writes GTICK into gd. -/
  | time (d : BitVec 5)
  /-- STEP (R208): Writes STEPC into gd. -/
  | step (d : BitVec 5)
  /-- PCNT (R209): Counts the one bits of a predicate into g. -/
  | pcnt (a : BitVec 3) (g : BitVec 5)
  /-- PMOV (R209): Copies a predicate. -/
  | pmov (d : BitVec 3) (a : BitVec 3)
  /-- PSETG (R209): Sets a predicate from a scalar register. -/
  | psetg (d : BitVec 3) (g : BitVec 5)
  /-- PAND (R209): ANDs two predicates. -/
  | pand (d : BitVec 3) (a : BitVec 3) (b : BitVec 3)
  /-- POR (R209): ORs two predicates. -/
  | por (d : BitVec 3) (a : BitVec 3) (b : BitVec 3)
  /-- PXOR (R209): XORs two predicates. -/
  | pxor (d : BitVec 3) (a : BitVec 3) (b : BitVec 3)
  /-- PNOT (R209): Inverts a predicate. -/
  | pnot (d : BitVec 3) (a : BitVec 3)
  /-- VADD (R214): Lane-wise integer add. -/
  | vadd (e : BitVec 2) (d : BitVec 6) (a : BitVec 6) (b : BitVec 6) (p : BitVec 3)
  /-- VSUB (R214): Lane-wise integer subtract. -/
  | vsub (e : BitVec 2) (d : BitVec 6) (a : BitVec 6) (b : BitVec 6) (p : BitVec 3)
  /-- VADDS (R214): Lane-wise saturating signed add. -/
  | vadds (e : BitVec 2) (d : BitVec 6) (a : BitVec 6) (b : BitVec 6) (p : BitVec 3)
  /-- VSUBS (R214): Lane-wise saturating signed subtract. -/
  | vsubs (e : BitVec 2) (d : BitVec 6) (a : BitVec 6) (b : BitVec 6) (p : BitVec 3)
  /-- VMUL (R214): Lane-wise multiply, low bits. -/
  | vmul (e : BitVec 2) (d : BitVec 6) (a : BitVec 6) (b : BitVec 6) (p : BitVec 3)
  /-- VMULH (R214): Lane-wise signed multiply, high bits. -/
  | vmulh (e : BitVec 2) (d : BitVec 6) (a : BitVec 6) (b : BitVec 6) (p : BitVec 3)
  /-- VMIN (R214): Lane-wise signed minimum. -/
  | vmin (e : BitVec 2) (d : BitVec 6) (a : BitVec 6) (b : BitVec 6) (p : BitVec 3)
  /-- VMAX (R214): Lane-wise signed maximum. -/
  | vmax (e : BitVec 2) (d : BitVec 6) (a : BitVec 6) (b : BitVec 6) (p : BitVec 3)
  /-- VMINU (R214): Lane-wise unsigned minimum. -/
  | vminu (e : BitVec 2) (d : BitVec 6) (a : BitVec 6) (b : BitVec 6) (p : BitVec 3)
  /-- VMAXU (R214): Lane-wise unsigned maximum. -/
  | vmaxu (e : BitVec 2) (d : BitVec 6) (a : BitVec 6) (b : BitVec 6) (p : BitVec 3)
  /-- VABSD (R214): Lane-wise unsigned absolute difference. -/
  | vabsd (e : BitVec 2) (d : BitVec 6) (a : BitVec 6) (b : BitVec 6) (p : BitVec 3)
  /-- VAND (R214): Lane-wise AND. -/
  | vand (e : BitVec 2) (d : BitVec 6) (a : BitVec 6) (b : BitVec 6) (p : BitVec 3)
  /-- VOR (R214): Lane-wise OR. -/
  | vor (e : BitVec 2) (d : BitVec 6) (a : BitVec 6) (b : BitVec 6) (p : BitVec 3)
  /-- VXOR (R214): Lane-wise XOR. -/
  | vxor (e : BitVec 2) (d : BitVec 6) (a : BitVec 6) (b : BitVec 6) (p : BitVec 3)
  /-- VANDN (R214): Lane-wise AND NOT. -/
  | vandn (e : BitVec 2) (d : BitVec 6) (a : BitVec 6) (b : BitVec 6) (p : BitVec 3)
  /-- VSHL (R214): Lane-wise shift left by register. -/
  | vshl (e : BitVec 2) (d : BitVec 6) (a : BitVec 6) (b : BitVec 6) (p : BitVec 3)
  /-- VSHR (R214): Lane-wise logical shift right by register. -/
  | vshr (e : BitVec 2) (d : BitVec 6) (a : BitVec 6) (b : BitVec 6) (p : BitVec 3)
  /-- VSHRA (R214): Lane-wise arithmetic shift right by register. -/
  | vshra (e : BitVec 2) (d : BitVec 6) (a : BitVec 6) (b : BitVec 6) (p : BitVec 3)
  /-- VSHLI (R215): Lane-wise shift left by immediate. -/
  | vshli (e : BitVec 2) (d : BitVec 6) (a : BitVec 6) (i : BitVec 6) (p : BitVec 3)
  /-- VSHRI (R215): Lane-wise logical shift right by immediate. -/
  | vshri (e : BitVec 2) (d : BitVec 6) (a : BitVec 6) (i : BitVec 6) (p : BitVec 3)
  /-- VFSHL (R216): Lane-wise funnel shift left with vd as high source. -/
  | vfshl (e : BitVec 2) (d : BitVec 6) (a : BitVec 6) (b : BitVec 6) (p : BitVec 3)
  /-- VFSHR (R216): Lane-wise funnel shift right with vd as high source. -/
  | vfshr (e : BitVec 2) (d : BitVec 6) (a : BitVec 6) (b : BitVec 6) (p : BitVec 3)
  /-- VCMPEQ (R217): Writes a predicate of lane equality. -/
  | vcmpeq (e : BitVec 2) (d : BitVec 3) (a : BitVec 6) (b : BitVec 6) (p : BitVec 3)
  /-- VCMPLT (R217): Writes a predicate of signed less-than. -/
  | vcmplt (e : BitVec 2) (d : BitVec 3) (a : BitVec 6) (b : BitVec 6) (p : BitVec 3)
  /-- VCMPLTU (R217): Writes a predicate of unsigned less-than. -/
  | vcmpltu (e : BitVec 2) (d : BitVec 3) (a : BitVec 6) (b : BitVec 6) (p : BitVec 3)
  /-- VSEL (R218): Selects lanes of va or vb by predicate. -/
  | vsel (e : BitVec 2) (d : BitVec 6) (a : BitVec 6) (b : BitVec 6) (p : BitVec 3)
  /-- VSPLAT (R219): Splats ga plus an immediate into active lanes. -/
  | vsplat (e : BitVec 2) (d : BitVec 6) (a : BitVec 5) (i : BitVec 7) (p : BitVec 3)
  /-- VPERM (R220): Permutes lanes of va by the indices in vb. -/
  | vperm (e : BitVec 2) (d : BitVec 6) (a : BitVec 6) (b : BitVec 6) (p : BitVec 3)
  /-- VSLDN (R221): Slides lanes down by k. -/
  | vsldn (e : BitVec 2) (d : BitVec 6) (a : BitVec 6) (i : BitVec 6) (p : BitVec 3)
  /-- VSLUP (R221): Slides lanes up by k. -/
  | vslup (e : BitVec 2) (d : BitVec 6) (a : BitVec 6) (i : BitVec 6) (p : BitVec 3)
  /-- VDELTA (R222): Computes running differences with a carry-in lane. -/
  | vdelta (e : BitVec 2) (d : BitVec 6) (a : BitVec 6) (b : BitVec 6) (p : BitVec 3)
  /-- VPSUM (R222): Computes running sums with a carry-in lane. -/
  | vpsum (e : BitVec 2) (d : BitVec 6) (a : BitVec 6) (b : BitVec 6) (p : BitVec 3)
  /-- VFADD (R223): Lane-wise floating add. -/
  | vfadd (e : BitVec 2) (d : BitVec 6) (a : BitVec 6) (b : BitVec 6) (p : BitVec 3)
  /-- VFSUB (R223): Lane-wise floating subtract. -/
  | vfsub (e : BitVec 2) (d : BitVec 6) (a : BitVec 6) (b : BitVec 6) (p : BitVec 3)
  /-- VFMUL (R223): Lane-wise floating multiply. -/
  | vfmul (e : BitVec 2) (d : BitVec 6) (a : BitVec 6) (b : BitVec 6) (p : BitVec 3)
  /-- VFMA (R223): Lane-wise fused multiply-add into vd. -/
  | vfma (e : BitVec 2) (d : BitVec 6) (a : BitVec 6) (b : BitVec 6) (p : BitVec 3)
  /-- VFMAX (R223): Lane-wise maximumNumber. -/
  | vfmax (e : BitVec 2) (d : BitVec 6) (a : BitVec 6) (b : BitVec 6) (p : BitVec 3)
  /-- VFMIN (R223): Lane-wise minimumNumber. -/
  | vfmin (e : BitVec 2) (d : BitVec 6) (a : BitVec 6) (b : BitVec 6) (p : BitVec 3)
  /-- VFCMPLT (R224): Signalling floating less-than into a predicate. -/
  | vfcmplt (e : BitVec 2) (d : BitVec 3) (a : BitVec 6) (b : BitVec 6) (p : BitVec 3)
  /-- VFCMPEQ (R224): Quiet floating equality into a predicate. -/
  | vfcmpeq (e : BitVec 2) (d : BitVec 3) (a : BitVec 6) (b : BitVec 6) (p : BitVec 3)
  /-- VFRCP (R225): Bit-exact reciprocal approximation. -/
  | vfrcp (e : BitVec 2) (d : BitVec 6) (a : BitVec 6) (p : BitVec 3)
  /-- VFEXP2 (R225): Bit-exact power of two. -/
  | vfexp2 (e : BitVec 2) (d : BitVec 6) (a : BitVec 6) (p : BitVec 3)
  /-- VFCVT_H (R226): Narrows two binary32 vectors into one binary16 vector. -/
  | vfcvtH (d : BitVec 6) (a : BitVec 6) (b : BitVec 6) (p : BitVec 3)
  /-- VFCVT_W (R226): Widens binary16 lanes 0 to 15 into binary32. -/
  | vfcvtW (d : BitVec 6) (a : BitVec 6) (p : BitVec 3)
  /-- VCVTIF (R227): Converts signed integer lanes to floating. -/
  | vcvtif (e : BitVec 2) (d : BitVec 6) (a : BitVec 6) (p : BitVec 3)
  /-- VCVTFI (R227): Converts floating lanes to saturated signed integers. -/
  | vcvtfi (e : BitVec 2) (d : BitVec 6) (a : BitVec 6) (p : BitVec 3)
  /-- VNARROW (R229): Narrows binary32 lanes to packed BX elements with residue feedback. -/
  | vnarrow (d : BitVec 6) (a : BitVec 6) (q : BitVec 3) (m : BitVec 3) (p : BitVec 3)
  /-- VBSCALE (R228): Derives a BS16 block scale from the largest active magnitude. -/
  | vbscale (d : BitVec 6) (a : BitVec 6) (b : BitVec 6) (p : BitVec 3)
  /-- VRMAX (R230): Signed maximum reduction into lane 0. -/
  | vrmax (e : BitVec 2) (d : BitVec 6) (a : BitVec 6) (p : BitVec 3)
  /-- VRSUM (R230): Integer sum reduction into lane 0. -/
  | vrsum (e : BitVec 2) (d : BitVec 6) (a : BitVec 6) (p : BitVec 3)
  /-- VGMAX (R231): Group maximum over groups of 2^g lanes. -/
  | vgmax (e : BitVec 2) (d : BitVec 6) (a : BitVec 6) (i : BitVec 6) (p : BitVec 3)
  /-- VCLZ (R232): Lane-wise count of leading zeros. -/
  | vclz (e : BitVec 2) (d : BitVec 6) (a : BitVec 6) (p : BitVec 3)
  /-- VFRSUM (R230): Fixed-tree floating sum into lane 0. -/
  | vfrsum (e : BitVec 2) (d : BitVec 6) (a : BitVec 6) (p : BitVec 3)
  /-- VFRMAX (R230): Fixed-tree floating maximum into lane 0. -/
  | vfrmax (e : BitVec 2) (d : BitVec 6) (a : BitVec 6) (p : BitVec 3)
  /-- VHASH (R233): Counter hash per 64-bit lane from seed and draw index. -/
  | vhash (d : BitVec 6) (a : BitVec 5) (i : BitVec 7) (p : BitVec 3)
  /-- VLD (R234): Loads 64 aligned bytes from the scratchpad. -/
  | vld (e : BitVec 2) (v : BitVec 6) (a : BitVec 5) (o : BitVec 7) (p : BitVec 3)
  /-- VST (R234): Stores the bytes of active elements, 64-aligned. -/
  | vst (e : BitVec 2) (v : BitVec 6) (a : BitVec 5) (o : BitVec 7) (p : BitVec 3)
  /-- VLDU (R234): Unaligned 64-byte scratchpad load. -/
  | vldu (e : BitVec 2) (v : BitVec 6) (a : BitVec 5) (o : BitVec 7) (p : BitVec 3)
  /-- VSTU (R234): Unaligned byte-masked scratchpad store. -/
  | vstu (e : BitVec 2) (v : BitVec 6) (a : BitVec 5) (o : BitVec 7) (p : BitVec 3)
  /-- VLDM (R234): Loads 64 bytes from weight MRAM, latency 14. -/
  | vldm (e : BitVec 2) (v : BitVec 6) (a : BitVec 5) (o : BitVec 7) (p : BitVec 3)
  /-- VLDX (R236): Requests a 64-byte global load into a landing slot. -/
  | vldx (l : BitVec 4) (a : BitVec 5) (t : BitVec 8)
  /-- VSTX (R238): Stores active bytes to global memory at a scope. -/
  | vstx (e : BitVec 2) (v : BitVec 6) (a : BitVec 5) (s : BitVec 3) (p : BitVec 3)
  /-- VGETL (R237): Moves a FULL landing slot into a vector register, emptying it unless .PK. -/
  | vgetl (d : BitVec 6) (l : BitVec 4) (k : BitVec 1)
  /-- VGATH (R235): Gathers scratchpad elements by index register. -/
  | vgath (e : BitVec 2) (v : BitVec 6) (a : BitVec 5) (o : BitVec 7) (p : BitVec 3)
  /-- VSCAT (R235): Scatters elements to the scratchpad by index register. -/
  | vscat (e : BitVec 2) (v : BitVec 6) (a : BitVec 5) (o : BitVec 7) (p : BitVec 3)
  /-- TSHAPE (R242): Writes a tile register's shape. -/
  | tshape (t : BitVec 3) (e : BitVec 3) (r : BitVec 6) (c : BitVec 8)
  /-- TLD (R243): Loads tile rows from the scratchpad row by row. -/
  | tld (t : BitVec 3) (a : BitVec 5) (b : BitVec 5)
  /-- TLDM (R244): Loads tile rows from weight MRAM row by row. -/
  | tldm (t : BitVec 3) (a : BitVec 5) (b : BitVec 5)
  /-- TST (R245): Stores tile rows to the scratchpad. -/
  | tst (t : BitVec 3) (a : BitVec 5) (b : BitVec 5)
  /-- TZERO (R246): Zeroes a tile register. -/
  | tzero (t : BitVec 3)
  /-- TTR (R247): Transposes a tile register in place. -/
  | ttr (t : BitVec 3)
  /-- MMA_44 (R249): Dense 4 x 4 block product into an accumulator. -/
  | mma44 (a : BitVec 2) (x : BitVec 3) (y : BitVec 3) (z : BitVec 1) (r : BitVec 1) (k : BitVec 1) (o : BitVec 1) (b : BitVec 3)
  /-- MMA_46 (R249): Dense 4 x 6 block product. -/
  | mma46 (a : BitVec 2) (x : BitVec 3) (y : BitVec 3) (z : BitVec 1) (r : BitVec 1) (k : BitVec 1) (o : BitVec 1) (b : BitVec 3)
  /-- MMA_48 (R249): Dense 4 x 8 block product. -/
  | mma48 (a : BitVec 2) (x : BitVec 3) (y : BitVec 3) (z : BitVec 1) (r : BitVec 1) (k : BitVec 1) (o : BitVec 1) (b : BitVec 3)
  /-- MMA_64 (R249): Dense 6 x 4 block product. -/
  | mma64 (a : BitVec 2) (x : BitVec 3) (y : BitVec 3) (z : BitVec 1) (r : BitVec 1) (k : BitVec 1) (o : BitVec 1) (b : BitVec 3)
  /-- MMA_66 (R249): Dense 6 x 6 block product. -/
  | mma66 (a : BitVec 2) (x : BitVec 3) (y : BitVec 3) (z : BitVec 1) (r : BitVec 1) (k : BitVec 1) (o : BitVec 1) (b : BitVec 3)
  /-- MMA_68 (R249): Dense 6 x 8 block product. -/
  | mma68 (a : BitVec 2) (x : BitVec 3) (y : BitVec 3) (z : BitVec 1) (r : BitVec 1) (k : BitVec 1) (o : BitVec 1) (b : BitVec 3)
  /-- MMA_84 (R249): Dense 8 x 4 block product. -/
  | mma84 (a : BitVec 2) (x : BitVec 3) (y : BitVec 3) (z : BitVec 1) (r : BitVec 1) (k : BitVec 1) (o : BitVec 1) (b : BitVec 3)
  /-- MMA_86 (R249): Dense 8 x 6 block product. -/
  | mma86 (a : BitVec 2) (x : BitVec 3) (y : BitVec 3) (z : BitVec 1) (r : BitVec 1) (k : BitVec 1) (o : BitVec 1) (b : BitVec 3)
  /-- MMA_88 (R249): Dense 8 x 8 block product. -/
  | mma88 (a : BitVec 2) (x : BitVec 3) (y : BitVec 3) (z : BitVec 1) (r : BitVec 1) (k : BitVec 1) (o : BitVec 1) (b : BitVec 3)
  /-- MMAS_44 (R251): Sparse-B 4 x 4 block product with masks. -/
  | mmas44 (a : BitVec 2) (x : BitVec 3) (y : BitVec 3) (m : BitVec 3) (z : BitVec 1) (r : BitVec 1) (k : BitVec 1) (o : BitVec 1) (b : BitVec 3)
  /-- MMAS_48 (R251): Sparse-B 4 x 8 block product. -/
  | mmas48 (a : BitVec 2) (x : BitVec 3) (y : BitVec 3) (m : BitVec 3) (z : BitVec 1) (r : BitVec 1) (k : BitVec 1) (o : BitVec 1) (b : BitVec 3)
  /-- MMAS_84 (R251): Sparse-B 8 x 4 block product. -/
  | mmas84 (a : BitVec 2) (x : BitVec 3) (y : BitVec 3) (m : BitVec 3) (z : BitVec 1) (r : BitVec 1) (k : BitVec 1) (o : BitVec 1) (b : BitVec 3)
  /-- MMAS_88 (R251): Sparse-B 8 x 8 block product. -/
  | mmas88 (a : BitVec 2) (x : BitVec 3) (y : BitVec 3) (m : BitVec 3) (z : BitVec 1) (r : BitVec 1) (k : BitVec 1) (o : BitVec 1) (b : BitVec 3)
  /-- ACCZ (R255): Zeroes an accumulator. -/
  | accz (a : BitVec 2)
  /-- ACCSCL (R256): Scales an accumulator block by BS16 scales and folds it into an output register. -/
  | accscl (a : BitVec 2) (o : BitVec 1) (x : BitVec 3) (y : BitVec 3) (b : BitVec 3)
  /-- OZERO (R257): Sets an output register to +0. -/
  | ozero (s : BitVec 1)
  /-- ORD (R258): Reads one output row into four vector registers. -/
  | ord (v : BitVec 6) (s : BitVec 1) (r : BitVec 6)
  /-- OWR (R258): Writes one output row from four vector registers. -/
  | owr (v : BitVec 6) (s : BitVec 1) (r : BitVec 6)
  /-- ACCRD (R258): Reads one accumulator row, sign-extended, into eight vector registers. -/
  | accrd (v : BitVec 6) (s : BitVec 2) (r : BitVec 6)
  /-- CPY (R263): Queues a timed copy within the scratchpad or to a cluster member. -/
  | cpy (a : BitVec 5) (b : BitVec 5) (c : BitVec 5) (f : BitVec 3)
  /-- CPYM (R263): Queues a copy from weight MRAM to the scratchpad. -/
  | cpym (a : BitVec 5) (b : BitVec 5) (c : BitVec 5) (f : BitVec 3)
  /-- CPYG (R263): Queues a copy from global memory into the scratchpad with an arrival code. -/
  | cpyg (a : BitVec 5) (b : BitVec 5) (c : BitVec 5) (s : BitVec 3) (f : BitVec 3)
  /-- CPYW (R263): Queues a copy from the scratchpad to global memory at a scope. -/
  | cpyw (a : BitVec 5) (b : BitVec 5) (c : BitVec 5) (s : BitVec 3) (f : BitVec 3)
  /-- CPYMC (R263): Queues a multicast copy into the window of every partition member of the cluster. -/
  | cpymc (a : BitVec 5) (b : BitVec 5) (c : BitVec 5) (f : BitVec 3)
  /-- CPYX (R266): Queues a copy over a Nuavo link to a package window, with acknowledgments. -/
  | cpyx (a : BitVec 5) (b : BitVec 5) (c : BitVec 5) (s : BitVec 3) (f : BitVec 3)
  /-- GATH (R265): Queues a gather of KV bytes from a slot's frames into the scratchpad. -/
  | gath (a : BitVec 5) (b : BitVec 5) (c : BitVec 5) (s : BitVec 3) (f : BitVec 3)
  /-- SCAT (R265): Queues a scatter of KV bytes into a slot's frames. -/
  | scat (a : BitVec 5) (b : BitVec 5) (c : BitVec 5) (s : BitVec 3) (f : BitVec 3)
  /-- REDC (R268): Queues a binary32 add-reduction into a destination. -/
  | redc (a : BitVec 5) (b : BitVec 5) (c : BitVec 5) (s : BitVec 3) (f : BitVec 3)
  /-- CSEED (R271): Sets the copy slot's running and expected CRC values. -/
  | cseed (x : BitVec 1) (a : BitVec 5)
  /-- CGET (R272): Deposits the slot's running or expected CRC value into a landing slot once the queue's last command completes. -/
  | cget (l : BitVec 4) (x : BitVec 1)
  /-- PHASE (R275): A phase boundary of a scope or level: holds to the signal, writes back, releases and invalidates. -/
  | phase (s : BitVec 3) (v : BitVec 1) (l : BitVec 3)
  /-- FENCE (R278): Writes back dirty L1 lines narrower than the scope and invalidates clean sectors. -/
  | fence (s : BitVec 3) (v : BitVec 1) (l : BitVec 3)
  /-- SSTEP (R277): A timetable boundary that holds to its signal without staging effects. -/
  | sstep (s : BitVec 3) (v : BitVec 1) (l : BitVec 3)
  /-- WGO (R279): Freezes until earlier copy commands of the sequencer or tile complete. -/
  | wgo (s : BitVec 3) (v : BitVec 1) (l : BitVec 3)
  /-- AADD (R280): Atomic add in the scratchpad returning the old value. -/
  | aadd (d : BitVec 5) (a : BitVec 5) (b : BitVec 5) (s : BitVec 2)
  /-- AMIN (R280): Atomic signed minimum. -/
  | amin (d : BitVec 5) (a : BitVec 5) (b : BitVec 5) (s : BitVec 2)
  /-- AMAX (R280): Atomic signed maximum. -/
  | amax (d : BitVec 5) (a : BitVec 5) (b : BitVec 5) (s : BitVec 2)
  /-- AOR (R280): Atomic OR. -/
  | aor (d : BitVec 5) (a : BitVec 5) (b : BitVec 5) (s : BitVec 2)
  /-- AAND (R280): Atomic AND. -/
  | aand (d : BitVec 5) (a : BitVec 5) (b : BitVec 5) (s : BitVec 2)
  /-- AXCHG (R280): Atomic exchange. -/
  | axchg (d : BitVec 5) (a : BitVec 5) (b : BitVec 5) (s : BitVec 2)
  /-- ACAS (R280): Atomic compare and swap against gd. -/
  | acas (d : BitVec 5) (a : BitVec 5) (b : BitVec 5) (s : BitVec 2)
  /-- RQLD (R281): Reads a record or slot field of the last publish into gd. -/
  | rqld (d : BitVec 5) (a : BitVec 5) (i : BitVec 11)
  /-- RQCOMMIT (R282): Buffers a token commit for a slot. -/
  | rqcommit (d : BitVec 5) (a : BitVec 5) (b : BitVec 5)
  /-- RQEND (R283): Marks the segment as ending an iteration. -/
  | rqend
  /-- CONDW (R284): Writes masked condition bits 0 to 31. -/
  | condw (a : BitVec 5) (b : BitVec 5)
  /-- MAPRD (R285): Reads an item of the current Sheaf record. -/
  | maprd (d : BitVec 5) (a : BitVec 5)
  /-- MAPACK (R286): Acknowledges the current Sheaf version for the context. -/
  | mapack (a : BitVec 5)
  /-- WJOPEN (R288): Opens a journal transaction reserving shadow rows. -/
  | wjopen (a : BitVec 5)
  /-- WJPUT (R289): Queues a put of scratchpad bytes into a logical MRAM row's shadow. -/
  | wjput (d : BitVec 5) (a : BitVec 5) (b : BitVec 5)
  /-- WJCOMMIT (R291): Begins committing the journal transaction by writing the new row map. -/
  | wjcommit
  /-- WJABORT (R292): Drops queued puts and frees shadow rows after the current attempt. -/
  | wjabort
  /-- WJSTAT (R293): Reads the journal status word or a row's wear word. -/
  | wjstat (d : BitVec 5) (a : BitVec 5)
  /-- PWRHINT (R295): Hints to Tiller the deepest gap state for the tile. -/
  | pwrhint (s : BitVec 2)
  /-- CROPEN (R371): Pushes a containment region with a handler address. -/
  | cropen (i : BitVec 3) (o : BitVec 16)
  /-- CRCLOSE (R372): Pops the top containment region if its id matches. -/
  | crclose (i : BitVec 3)
  /-- FRET (R373): Leaves handler mode and issues the bundle at FRESUME at step H. -/
  | fret
  /-- FRET_N (R373): Leaves handler mode and issues the bundle after the one at FRESUME. -/
  | fretN
  /-- FLTRD (R374): Reads 8 bytes of the latest fault record into gd. -/
  | fltrd (d : BitVec 5) (k : BitVec 3)
  /-- DIAGST (R375): Writes data with chosen check bits, marking it injected. -/
  | diagst (a : BitVec 5) (b : BitVec 5)
  /-- DIAGLD (R376): Reads data and check bits raw into a descriptor. -/
  | diagld (d : BitVec 5) (a : BitVec 5) (b : BitVec 5)
  /-- RQFLT (R377): Attributes a non-finite-logit fault to a slot's request. -/
  | rqflt (a : BitVec 5) (b : BitVec 5)
  /-- BUNDLE_ISSUE (R359): Fetch takes a bundle's extent and decodes it at its issue step, including text-end checks. Arguments: t q. -/
  | bundleIssue
  /-- RESULT_LANDING (R49): An in-flight result lands in its register at issue step plus latency, with FPFLAGS ORed. Arguments: t q. -/
  | resultLanding
  /-- MMA_LANDING (R252): An MMA or MMAS result is added into its accumulator and checked under .CK. Arguments: t q. -/
  | mmaLanding
  /-- ACCSCL_LANDING (R256): ACCSCL folds into the output register at issue + 20 with shadow check 0x0702. Arguments: t q. -/
  | accsclLanding
  /-- BANK_CONFLICT_SERVE (R99): A scratchpad or MRAM access that found its port taken is served a tick later with a freeze. Arguments: t. -/
  | bankConflictServe
  /-- DEFERRED_INBOUND_WRITE (R128): An inbound write deferred by another performs when the bank's inbound port is free. Arguments: t. -/
  | deferredInboundWrite
  /-- APERTURE_WRITE_PERFORM (R412): A write through the scratchpad aperture performs at the owning tile's inbound port within its bounds. Arguments: t. -/
  | apertureWritePerform
  /-- LANDING_DATA_ARRIVAL (R54): Global data lands in a landing slot, making it HELD or FULL and ending a freeze. Arguments: t q l. -/
  | landingDataArrival
  /-- LANDING_DUE (R54): The task clock reaches a PENDING slot's arrival step without data and the tile freezes. Arguments: t q l. -/
  | landingDue
  /-- FREEZE_TIMEOUT (R57): A freeze lasting 1 ms ends with 0x0108. Arguments: t. -/
  | freezeTimeout
  /-- COPY_COMMAND_START (R261): At its start step a copy command translates its pages and begins its beats. Arguments: t q c. -/
  | copyCommandStart
  /-- COPY_BEAT (R179): One beat of a copy command reads its source and performs at start + base + j. Arguments: t q c. -/
  | copyBeat
  /-- COPY_COMMAND_COMPLETE (R270): A command's last beat performs; .CMP compares and .LAST clears the CRC values. Arguments: t q c. -/
  | copyCommandComplete
  /-- CPYX_ACKNOWLEDGMENT (R266): A CPYX beat's acknowledgment returns from the target, folding the CRC. Arguments: t q c. -/
  | cpyxAcknowledgment
  /-- SEGMENT_START (R47): The front end arms a segment's tasks at segment start plus their offsets. Arguments: x. -/
  | segmentStart
  /-- TASK_START (R28): At a task's start tick the front end checks predecessors and tile readiness and loads its registers. Arguments: x k. -/
  | taskStart
  /-- SEGMENT_END (R35): At a segment's end tick unfinished tasks raise 0x010E and halted tasks' entries are released. Arguments: x. -/
  | segmentEnd
  /-- GRAPH_WALK_COND (R32): The walker takes a COND node by its condition bit. Arguments: x. -/
  | graphWalkCond
  /-- GRAPH_WALK_WHILE (R32): The walker takes a WHILE node, counting passes. Arguments: x. -/
  | graphWalkWhile
  /-- GRAPH_WALK_END (R32): The walker reaches END and the LAUNCH completes. Arguments: x. -/
  | graphWalkEnd
  /-- BOUNDARY_SIGNAL (R29): The front end raises a boundary's start signal for every party at its signal tick. Arguments: t q. -/
  | boundarySignal
  /-- PHASE_RELEASE (R132): At the first step of the new phase staging entries are released and L1 sectors invalidated. -/
  | phaseRelease
  /-- WINNOW_BOUNDARY (R78): Winnow runs its boundary after a segment that issued RQEND, ending with a publish. Arguments: x. -/
  | winnowBoundary
  /-- TILE_WAKE (R19): Tiller begins waking a declared tile at its segment's first tick minus the wake latency. Arguments: t. -/
  | tileWake
  /-- TILE_WAKE_COMPLETE (R18): A waking tile becomes ACTIVE; a tile woken from OFF has empty L1 and TLB. Arguments: t. -/
  | tileWakeComplete
  /-- TILE_ENTRY_COMPLETE (R19): A tile finishes entering IDLE, RETAIN or OFF. Arguments: t. -/
  | tileEntryComplete
  /-- SUBMIT (R70): Host packet that queues a FREE and valid request record. Arguments: q. -/
  | submit
  /-- SUBMIT_RETRY (R70): The Granary retries an unconsumed SUBMIT after an unstable read. Arguments: q. -/
  | submitRetry
  /-- CANCEL (R313): Host packet that cancels a request at the next boundary. Arguments: q. -/
  | cancel
  /-- LAUNCH (R37): Host packet that validates a launch record and arms its timetable. Arguments: q. -/
  | launch
  /-- WAIT (R313): Host packet that blocks its queue until a condition holds. Arguments: q. -/
  | wait
  /-- WAIT_CONDITION_MET (R317): A blocked WAIT's condition holds and it completes. Arguments: q. -/
  | waitConditionMet
  /-- WAIT_UNMAP_TIMEOUT (R317): A queue blocked for 1 ms is unmapped. Arguments: q. -/
  | waitUnmapTimeout
  /-- ARM_TIMER (R321): Host packet that copies a packet and arms a timer slot. Arguments: q. -/
  | armTimer
  /-- TIMER_DISARM (R321): ARM_TIMER with op 1 disarms a timer slot and discards its pending release. Arguments: q. -/
  | timerDisarm
  /-- WEIGHT_WRITE (R313): Host packet that runs a journal transaction on a tile's MRAM. Arguments: q. -/
  | weightWrite
  /-- FENCE_PACKET (R314): Host packet that completes when every earlier packet of its queue has completed. Arguments: q. -/
  | fencePacket
  /-- TAIL_WRITE (R311): A write to a queue's tail register makes packets available or signals overrun. Arguments: f q v. -/
  | tailWrite
  /-- QUEUE_ENABLE (R310): Host writes state 1 to a QCB, enabling it if checks pass. Arguments: f q. -/
  | queueEnable
  /-- QUEUE_DISABLE (R310): Host writes state 0, disabling the queue once the current packet completes. Arguments: f q. -/
  | queueDisable
  /-- QUEUE_MAP (R316): A free Granary thread maps a queue with work and looks for packets. Arguments: q. -/
  | queueMap
  /-- GRANARY_WATCHDOG_EXPIRY (R391): A thread that misses its commit point within 200 µs is restarted. Arguments: q. -/
  | granaryWatchdogExpiry
  /-- FEATURE_LOCK (R307): A write of LOCK locks the selected features or sets SELERR. -/
  | featureLock
  /-- GTREF_READ (R323): A host read of GTREF latches PTPREF, RATE and PTPSTAT of the same pair. -/
  | gtrefRead
  /-- DEVICE_REGISTER_WRITE (R9): A write to a device or descriptor register without behaviour of its own sets its RW fields. Arguments: f o v. -/
  | deviceRegisterWrite
  /-- RING_START (R325): A write setting an ingress ring RUNNING, ignored if its fields are invalid. Arguments: r. -/
  | ringStart
  /-- RING_STOP (R325): A write setting an ingress ring STOPPED. Arguments: r. -/
  | ringStop
  /-- TIMER_WHEEL_TICK (R322): At each wheel tick pending releases are created, counted as missed or delivered. -/
  | timerWheelTick
  /-- BIND_TAKE_PARTITION (R319): From its start GTICK a bind takes its partition once every tile is free and ready. Arguments: b. -/
  | bindTakePartition
  /-- BIND_END (R319): At its end GTICK a bind whose LAUNCH has not completed is halted and saved. Arguments: b. -/
  | bindEnd
  /-- PARTITION_HALT (R60): Each sequencer stops on one halt tick per tile and its in-flight work is captured. Arguments: x. -/
  | partitionHalt
  /-- CONTEXT_SWAP (R64): Tiles release staging, write back L1 and save both sequencers and the window to shadow SRAM. Arguments: x. -/
  | contextSwap
  /-- PARTITION_RESUME (R62): All tiles resume on one tick, replaying captured work at recorded steps. Arguments: x. -/
  | partitionResume
  /-- CONTEXT_RESTORE (R65): The Granary restores a saved context onto a partition of equal shape. Arguments: x. -/
  | contextRestore
  /-- SHOOTDOWN_EFFECT (R112): At the effect tick every TLB of the partition drops matching entries. Arguments: x a b. -/
  | shootdownEffect
  /-- MIGRATION_COPY_PASS (R384): The Granary recopies dirty sectors of a migrating page. Arguments: m. -/
  | migrationCopyPass
  /-- MIGRATION_WINDOW_END (R386): The last dirty sector is recopied and held writes perform in the new frame. Arguments: m. -/
  | migrationWindowEnd
  /-- SHEAF_CHANGE (R353): The Granary changes the Sheaf and raises its version by 1. Arguments: k i v. -/
  | sheafChange
  /-- MAPACK_MISSED (R354): A context that misses its acknowledgment deadline is halted with 0x0B01. Arguments: x. -/
  | mapackMissed
  /-- TILE_REPLACED (R355): The Granary maps a spare to a failed tile, copying MRAM and shadow state. Arguments: t. -/
  | tileReplaced
  /-- EXTERNAL_WRITE (R136): A host, peer or ingress write reaches the I/O die's ingress staging. Arguments: x g a bytes. -/
  | externalWrite
  /-- ETHERNET_FRAME (R327): A received frame is matched to a ring and written as slots or dropped. Arguments: port ty tm bytes. -/
  | ethernetFrame
  /-- PTP_EVENT_MESSAGE (R324): A PTP event message is consumed by the I/O die for discipline. Arguments: tm. -/
  | ptpEventMessage
  /-- PTP_REFERENCE_RENEWAL (R323): The reference pair relating GTICK to PTP time is renewed every 2^20 ticks. -/
  | ptpReferenceRenewal
  /-- RING_REPAIR (R395): The Granary repairs an ingress ring's read index and returns it to RUNNING. Arguments: r sq. -/
  | ringRepair
  /-- JOURNAL_PULSE (R290): A journal write pulse begins on a row, counting its wear. Arguments: t. -/
  | journalPulse
  /-- JOURNAL_VERIFY (R290): A verify read ends an attempt; failure retries or retires, success completes the put. Arguments: t. -/
  | journalVerify
  /-- FAULT_RECORD_WRITE (R342): The Granary writes a fault record and the write index into a context's fault ring. Arguments: x. -/
  | faultRecordWrite
  /-- TRAP_PAUSE_TIMEOUT (R340): A trap pause lasting 1 200 000 ticks ends with 0x0108 at partition level. Arguments: t. -/
  | trapPauseTimeout
  /-- SCRUB (R347): A scrub reads and corrects stored words on idle port steps. Arguments: t w. -/
  | scrub
  /-- MRAM_ROW_REWRITE (R347): A retired MRAM row's corrected content is rewritten to a free row when the journal is IDLE. Arguments: t r. -/
  | mramRowRewrite
  /-- LPDDR_CHANNEL_LOSS (R388): A failed channel is removed and the interleave rebuilt with migration. Arguments: c. -/
  | lpddrChannelLoss
  /-- LINK_RETRAIN (R393): A link needing 8 retries of one flit retrains. Arguments: l v. -/
  | linkRetrain
  /-- LINK_LOSS (R393): A link failing retraining leaves the Sheaf and its flits move to other links. Arguments: l. -/
  | linkLoss
  /-- POWER_LOSS (R399): Loss of supply latches 0x0A01 and parks the device within 80 µs. -/
  | powerLoss
  /-- SUPPLY_GOOD (R400): A supply good for 10 ms while parked causes a cold reset. -/
  | supplyGood
  /-- COLD_RESET (R334): Cold reset wipes SRAM and LPDDR-6 and keeps MRAM. -/
  | coldReset
  /-- BOOT (R333): Boot runs its steps, recording progress, GTICK load, Sheaf load and link training. -/
  | boot
  /-- BOOT_STEP_TIMEOUT (R401): A boot step still started at its time limit counts as failed. Arguments: k. -/
  | bootStepTimeout
  /-- LIFE_CYCLE_CHANGE (R334): A change of life-cycle state wipes every memory and clears owner tags. Arguments: v. -/
  | lifeCycleChange
  /-- GET_TDISP_VERSION (R330): TDISP request returning the version. Arguments: f. -/
  | getTdispVersion
  /-- GET_TDISP_CAPABILITIES (R330): TDISP request returning capabilities. Arguments: f. -/
  | getTdispCapabilities
  /-- LOCK_INTERFACE_REQUEST (R331): Freezes the function's configuration and moves the TDI to CONFIG_LOCKED. Arguments: f. -/
  | lockInterfaceRequest
  /-- GET_DEVICE_INTERFACE_REPORT (R331): Returns the interface report. Arguments: f. -/
  | getDeviceInterfaceReport
  /-- GET_DEVICE_INTERFACE_STATE (R330): Returns the TDI state. Arguments: f. -/
  | getDeviceInterfaceState
  /-- START_INTERFACE_REQUEST (R330): Moves a locked TDI to RUN. Arguments: f. -/
  | startInterfaceRequest
  /-- STOP_INTERFACE_REQUEST (R396): Ends binds, wipes context state and unlocks the TDI. Arguments: f. -/
  | stopInterfaceRequest
  /-- IDE_FAILURE (R396): An IDE failure puts the TDI in ERROR and suspends the context with 0x0C02. Arguments: f. -/
  | ideFailure
  /-- PTP_TIME_LOST (R41): PTP time is lost; GTICK holds its last frequency and PTPSTAT moves to holdover. -/
  | ptpTimeLost
  /-- STAGING_ENTRY_DRAIN (R118): A released staging entry reaches memory and frees its place in the die's staging buffer. -/
  | stagingEntryDrain
  /-- SPILL_COPY_PERFORM (R83): A victim's frame copy into a spill frame performs, freeing the pool frame and advancing the spill toward completion. Arguments: x. -/
  | spillCopyPerform
  /-- SUPPLY_COLLAPSE (R399): The hold-up supply runs out and a parked device becomes UNPOWERED, losing LPDDR-6 content. -/
  | supplyCollapse
  deriving DecidableEq, Repr

end Sys2Proof
end

