-- ==== Sys2Proof/WellFormed.lean ====
section
/-! DEFINITION. Which instructions a program may hold: the checks of R166 and R172 that a field layout alone does
not make. An event of the device is no word, so it is never well formed. -/
namespace Sys2Proof

/-- Why a word is not an instruction (R166). -/
inductive DecodeError where
  /-- Class 7, or an opcode that R170 does not assign, an element size that R168 refuses included. -/
  | unassigned
  /-- A must-be-zero field is not zero (R172). -/
  | mustBeZero
  /-- An operand field the entry refuses as an encoding. -/
  | operand
  deriving DecidableEq, Repr

/-- F-SR: m from 4 to 7 makes the word not an instruction (R171). -/
def widthOk (m : BitVec 3) : Bool := m.toNat < 4

/-- GETL: OFF is a multiple of the size (R197). -/
def offsetOk (s : BitVec 2) (o : BitVec 6) : Bool := o.toNat % 2 ^ (3 - s.toNat) == 0

/-- BENG: engine ids 7 to 15 are reserved (R201). -/
def engineOk (e : BitVec 4) : Bool := e.toNat < 7

/-- SKIP: n = 0 is not an instruction (R203). -/
def countOk (n : BitVec 8) : Bool := n.toNat != 0

/-- The floating sizes are binary16 and binary32 (R168). -/
def floatSizeOk (e : BitVec 2) : Bool := e.toNat == 1 || e.toNat == 2

/-- VNARROW: mode[1:0] = 3 is not an instruction (R158). -/
def narrowModeOk (m : BitVec 3) : Bool := m.toNat % 4 != 3

/-- TSHAPE: formats 5 to 7 make the word not an instruction (R242). -/
def formatOk (e : BitVec 3) : Bool := e.toNat < 5

/-- MMA, MMAS: CO = 1 with RG = 0 makes the word not an instruction (R250). -/
def raggedOk (r o : BitVec 1) : Bool := o.toNat == 0 || r.toNat == 1

/-- ORD, OWR: v is at most 60 (R258). -/
def rowOfFourOk (v : BitVec 6) : Bool := v.toNat < 61

/-- ACCRD: v is at most 56 (R258). -/
def rowOfEightOk (v : BitVec 6) : Bool := v.toNat < 57

/-- F-PH: with lv = 1 the scope is zero, with lv = 0 the level is zero (R171). -/
def scopeFieldOk (s : BitVec 3) (v : BitVec 1) (l : BitVec 3) : Bool :=
  if v.toNat == 1 then s.toNat == 0 else l.toNat == 0

/-- A well-formed instruction: a word that the decoder accepts. -/
def Instr.wf : Instr → Bool
  | .nop => true
  | .add _ _ _ m => widthOk m
  | .sub _ _ _ m => widthOk m
  | .and _ _ _ m => widthOk m
  | .or _ _ _ m => widthOk m
  | .xor _ _ _ m => widthOk m
  | .andn _ _ _ m => widthOk m
  | .shl _ _ _ m => widthOk m
  | .shr _ _ _ m => widthOk m
  | .shra _ _ _ m => widthOk m
  | .rotr _ _ _ m => widthOk m
  | .mul _ _ _ m => widthOk m
  | .mulh _ _ _ m => widthOk m
  | .mulhu _ _ _ m => widthOk m
  | .div _ _ _ m => widthOk m
  | .divu _ _ _ m => widthOk m
  | .rem _ _ _ m => widthOk m
  | .remu _ _ _ m => widthOk m
  | .min _ _ _ m => widthOk m
  | .max _ _ _ m => widthOk m
  | .minu _ _ _ m => widthOk m
  | .maxu _ _ _ m => widthOk m
  | .slt _ _ _ m => widthOk m
  | .sltu _ _ _ m => widthOk m
  | .seq _ _ _ m => widthOk m
  | .sne _ _ _ m => widthOk m
  | .clz _ _ m => widthOk m
  | .ctz _ _ m => widthOk m
  | .popc _ _ m => widthOk m
  | .sext _ _ m => widthOk m
  | .zext _ _ m => widthOk m
  | .fshl _ _ _ m => widthOk m
  | .fshr _ _ _ m => widthOk m
  | .addi _ _ _ => true
  | .andi _ _ _ => true
  | .ori _ _ _ => true
  | .xori _ _ _ => true
  | .shli _ _ _ => true
  | .shri _ _ _ => true
  | .shrai _ _ _ => true
  | .slti _ _ _ => true
  | .sltui _ _ _ => true
  | .muli _ _ _ => true
  | .li _ _ => true
  | .lih1 _ _ => true
  | .lih2 _ _ => true
  | .lih3 _ _ => true
  | .lds _ _ _ _ => true
  | .sts _ _ _ _ => true
  | .ldm _ _ _ _ => true
  | .stx _ _ _ _ _ => true
  | .ldx _ _ _ _ => true
  | .getl _ _ s o => offsetOk s o
  | .getlPk _ _ s o => offsetOk s o
  | .j _ => true
  | .call _ => true
  | .jr _ => true
  | .callr _ => true
  | .ret => true
  | .beqz _ _ => true
  | .bnez _ _ => true
  | .bltz _ _ => true
  | .bgez _ _ => true
  | .bpu _ _ => true
  | .beng e _ _ => engineOk e
  | .loop _ _ _ => true
  | .skip _ n => countOk n
  | .halt => true
  | .waitt _ => true
  | .trap _ => true
  | .mfc _ _ => true
  | .mtc _ _ => true
  | .time _ => true
  | .step _ => true
  | .pcnt _ _ => true
  | .pmov _ _ => true
  | .psetg _ _ => true
  | .pand _ _ _ => true
  | .por _ _ _ => true
  | .pxor _ _ _ => true
  | .pnot _ _ => true
  | .vadd _ _ _ _ _ => true
  | .vsub _ _ _ _ _ => true
  | .vadds _ _ _ _ _ => true
  | .vsubs _ _ _ _ _ => true
  | .vmul _ _ _ _ _ => true
  | .vmulh _ _ _ _ _ => true
  | .vmin _ _ _ _ _ => true
  | .vmax _ _ _ _ _ => true
  | .vminu _ _ _ _ _ => true
  | .vmaxu _ _ _ _ _ => true
  | .vabsd _ _ _ _ _ => true
  | .vand _ _ _ _ _ => true
  | .vor _ _ _ _ _ => true
  | .vxor _ _ _ _ _ => true
  | .vandn _ _ _ _ _ => true
  | .vshl _ _ _ _ _ => true
  | .vshr _ _ _ _ _ => true
  | .vshra _ _ _ _ _ => true
  | .vshli _ _ _ _ _ => true
  | .vshri _ _ _ _ _ => true
  | .vfshl _ _ _ _ _ => true
  | .vfshr _ _ _ _ _ => true
  | .vcmpeq _ _ _ _ _ => true
  | .vcmplt _ _ _ _ _ => true
  | .vcmpltu _ _ _ _ _ => true
  | .vsel _ _ _ _ _ => true
  | .vsplat _ _ _ _ _ => true
  | .vperm _ _ _ _ _ => true
  | .vsldn _ _ _ _ _ => true
  | .vslup _ _ _ _ _ => true
  | .vdelta _ _ _ _ _ => true
  | .vpsum _ _ _ _ _ => true
  | .vfadd e _ _ _ _ => floatSizeOk e
  | .vfsub e _ _ _ _ => floatSizeOk e
  | .vfmul e _ _ _ _ => floatSizeOk e
  | .vfma e _ _ _ _ => floatSizeOk e
  | .vfmax e _ _ _ _ => floatSizeOk e
  | .vfmin e _ _ _ _ => floatSizeOk e
  | .vfcmplt e _ _ _ _ => floatSizeOk e
  | .vfcmpeq e _ _ _ _ => floatSizeOk e
  | .vfrcp e _ _ _ => floatSizeOk e
  | .vfexp2 e _ _ _ => floatSizeOk e
  | .vfcvtH _ _ _ _ => true
  | .vfcvtW _ _ _ => true
  | .vcvtif e _ _ _ => floatSizeOk e
  | .vcvtfi e _ _ _ => floatSizeOk e
  | .vnarrow _ _ _ m _ => narrowModeOk m
  | .vbscale _ _ _ _ => true
  | .vrmax _ _ _ _ => true
  | .vrsum _ _ _ _ => true
  | .vgmax _ _ _ _ _ => true
  | .vclz _ _ _ _ => true
  | .vfrsum e _ _ _ => floatSizeOk e
  | .vfrmax e _ _ _ => floatSizeOk e
  | .vhash _ _ _ _ => true
  | .vld _ _ _ _ _ => true
  | .vst _ _ _ _ _ => true
  | .vldu _ _ _ _ _ => true
  | .vstu _ _ _ _ _ => true
  | .vldm _ _ _ _ _ => true
  | .vldx _ _ _ => true
  | .vstx _ _ _ _ _ => true
  | .vgetl _ _ _ => true
  | .vgath _ _ _ _ _ => true
  | .vscat _ _ _ _ _ => true
  | .tshape _ e _ _ => formatOk e
  | .tld _ _ _ => true
  | .tldm _ _ _ => true
  | .tst _ _ _ => true
  | .tzero _ => true
  | .ttr _ => true
  | .mma44 _ _ _ _ r _ o _ => raggedOk r o
  | .mma46 _ _ _ _ r _ o _ => raggedOk r o
  | .mma48 _ _ _ _ r _ o _ => raggedOk r o
  | .mma64 _ _ _ _ r _ o _ => raggedOk r o
  | .mma66 _ _ _ _ r _ o _ => raggedOk r o
  | .mma68 _ _ _ _ r _ o _ => raggedOk r o
  | .mma84 _ _ _ _ r _ o _ => raggedOk r o
  | .mma86 _ _ _ _ r _ o _ => raggedOk r o
  | .mma88 _ _ _ _ r _ o _ => raggedOk r o
  | .mmas44 _ _ _ _ _ r _ o _ => raggedOk r o
  | .mmas48 _ _ _ _ _ r _ o _ => raggedOk r o
  | .mmas84 _ _ _ _ _ r _ o _ => raggedOk r o
  | .mmas88 _ _ _ _ _ r _ o _ => raggedOk r o
  | .accz _ => true
  | .accscl _ _ _ _ _ => true
  | .ozero _ => true
  | .ord v _ _ => rowOfFourOk v
  | .owr v _ _ => rowOfFourOk v
  | .accrd v _ _ => rowOfEightOk v
  | .cpy _ _ _ _ => true
  | .cpym _ _ _ _ => true
  | .cpyg _ _ _ _ _ => true
  | .cpyw _ _ _ _ _ => true
  | .cpymc _ _ _ _ => true
  | .cpyx _ _ _ _ _ => true
  | .gath _ _ _ _ _ => true
  | .scat _ _ _ _ _ => true
  | .redc _ _ _ _ _ => true
  | .cseed _ _ => true
  | .cget _ _ => true
  | .phase s v l => scopeFieldOk s v l
  | .fence s v l => scopeFieldOk s v l
  | .sstep s v l => scopeFieldOk s v l
  | .wgo s v l => scopeFieldOk s v l
  | .aadd _ _ _ _ => true
  | .amin _ _ _ _ => true
  | .amax _ _ _ _ => true
  | .aor _ _ _ _ => true
  | .aand _ _ _ _ => true
  | .axchg _ _ _ _ => true
  | .acas _ _ _ _ => true
  | .rqld _ _ _ => true
  | .rqcommit _ _ _ => true
  | .rqend => true
  | .condw _ _ => true
  | .maprd _ _ => true
  | .mapack _ => true
  | .wjopen _ => true
  | .wjput _ _ _ => true
  | .wjcommit => true
  | .wjabort => true
  | .wjstat _ _ => true
  | .pwrhint _ => true
  | .cropen _ _ => true
  | .crclose _ => true
  | .fret => true
  | .fretN => true
  | .fltrd _ _ => true
  | .diagst _ _ => true
  | .diagld _ _ _ => true
  | .rqflt _ _ => true
  | .bundleIssue => false
  | .resultLanding => false
  | .mmaLanding => false
  | .accsclLanding => false
  | .bankConflictServe => false
  | .deferredInboundWrite => false
  | .apertureWritePerform => false
  | .landingDataArrival => false
  | .landingDue => false
  | .freezeTimeout => false
  | .copyCommandStart => false
  | .copyBeat => false
  | .copyCommandComplete => false
  | .cpyxAcknowledgment => false
  | .segmentStart => false
  | .taskStart => false
  | .segmentEnd => false
  | .graphWalkCond => false
  | .graphWalkWhile => false
  | .graphWalkEnd => false
  | .boundarySignal => false
  | .phaseRelease => false
  | .winnowBoundary => false
  | .tileWake => false
  | .tileWakeComplete => false
  | .tileEntryComplete => false
  | .submit => false
  | .submitRetry => false
  | .cancel => false
  | .launch => false
  | .wait => false
  | .waitConditionMet => false
  | .waitUnmapTimeout => false
  | .armTimer => false
  | .timerDisarm => false
  | .weightWrite => false
  | .fencePacket => false
  | .tailWrite => false
  | .queueEnable => false
  | .queueDisable => false
  | .queueMap => false
  | .granaryWatchdogExpiry => false
  | .featureLock => false
  | .gtrefRead => false
  | .deviceRegisterWrite => false
  | .ringStart => false
  | .ringStop => false
  | .timerWheelTick => false
  | .bindTakePartition => false
  | .bindEnd => false
  | .partitionHalt => false
  | .contextSwap => false
  | .partitionResume => false
  | .contextRestore => false
  | .shootdownEffect => false
  | .migrationCopyPass => false
  | .migrationWindowEnd => false
  | .sheafChange => false
  | .mapackMissed => false
  | .tileReplaced => false
  | .externalWrite => false
  | .ethernetFrame => false
  | .ptpEventMessage => false
  | .ptpReferenceRenewal => false
  | .ringRepair => false
  | .journalPulse => false
  | .journalVerify => false
  | .faultRecordWrite => false
  | .trapPauseTimeout => false
  | .scrub => false
  | .mramRowRewrite => false
  | .lpddrChannelLoss => false
  | .linkRetrain => false
  | .linkLoss => false
  | .powerLoss => false
  | .supplyGood => false
  | .coldReset => false
  | .boot => false
  | .bootStepTimeout => false
  | .lifeCycleChange => false
  | .getTdispVersion => false
  | .getTdispCapabilities => false
  | .lockInterfaceRequest => false
  | .getDeviceInterfaceReport => false
  | .getDeviceInterfaceState => false
  | .startInterfaceRequest => false
  | .stopInterfaceRequest => false
  | .ideFailure => false
  | .ptpTimeLost => false
  | .stagingEntryDrain => false
  | .spillCopyPerform => false
  | .supplyCollapse => false

end Sys2Proof
end

