-- ==== Sys2Proof/Decode.lean ====
section
/-! DEFINITION. Words and bundles: decoding (R162 to R172, R359, R360) and the encoder, both from the formats of
R171 and the opcode map of R170. -/
namespace Sys2Proof

/-- Bits `lo + len - 1` to `lo` of a word. -/
def fld (w lo len : Nat) : Nat := w / 2 ^ lo % 2 ^ len

/-- The same field as a bit vector of its width. -/
def bits (w lo len : Nat) : BitVec len := BitVec.ofNat len (w / 2 ^ lo)

/-- OPC, bits 30 to 21 (R162). -/
def opcode (w : Nat) : Nat := fld w 21 10

/-- A word whose must-be-zero fields hold (R172). -/
def zeroed (ok : Bool) (i : Instr) : Except DecodeError Instr := if ok then .ok i else .error .mustBeZero

/-- Opcodes of class 0 (R170). -/
def decodeScalar (w : Nat) : Except DecodeError Instr :=
  match opcode w with
  | 0 => zeroed (fld w 0 21 == 0) (.nop)
  | 1 => zeroed (fld w 0 3 == 0) (.add (bits w 16 5) (bits w 11 5) (bits w 6 5) (bits w 3 3))
  | 2 => zeroed (fld w 0 3 == 0) (.sub (bits w 16 5) (bits w 11 5) (bits w 6 5) (bits w 3 3))
  | 3 => zeroed (fld w 0 3 == 0) (.and (bits w 16 5) (bits w 11 5) (bits w 6 5) (bits w 3 3))
  | 4 => zeroed (fld w 0 3 == 0) (.or (bits w 16 5) (bits w 11 5) (bits w 6 5) (bits w 3 3))
  | 5 => zeroed (fld w 0 3 == 0) (.xor (bits w 16 5) (bits w 11 5) (bits w 6 5) (bits w 3 3))
  | 6 => zeroed (fld w 0 3 == 0) (.andn (bits w 16 5) (bits w 11 5) (bits w 6 5) (bits w 3 3))
  | 7 => zeroed (fld w 0 3 == 0) (.shl (bits w 16 5) (bits w 11 5) (bits w 6 5) (bits w 3 3))
  | 8 => zeroed (fld w 0 3 == 0) (.shr (bits w 16 5) (bits w 11 5) (bits w 6 5) (bits w 3 3))
  | 9 => zeroed (fld w 0 3 == 0) (.shra (bits w 16 5) (bits w 11 5) (bits w 6 5) (bits w 3 3))
  | 10 => zeroed (fld w 0 3 == 0) (.rotr (bits w 16 5) (bits w 11 5) (bits w 6 5) (bits w 3 3))
  | 11 => zeroed (fld w 0 3 == 0) (.mul (bits w 16 5) (bits w 11 5) (bits w 6 5) (bits w 3 3))
  | 12 => zeroed (fld w 0 3 == 0) (.mulh (bits w 16 5) (bits w 11 5) (bits w 6 5) (bits w 3 3))
  | 13 => zeroed (fld w 0 3 == 0) (.mulhu (bits w 16 5) (bits w 11 5) (bits w 6 5) (bits w 3 3))
  | 14 => zeroed (fld w 0 3 == 0) (.div (bits w 16 5) (bits w 11 5) (bits w 6 5) (bits w 3 3))
  | 15 => zeroed (fld w 0 3 == 0) (.divu (bits w 16 5) (bits w 11 5) (bits w 6 5) (bits w 3 3))
  | 16 => zeroed (fld w 0 3 == 0) (.rem (bits w 16 5) (bits w 11 5) (bits w 6 5) (bits w 3 3))
  | 17 => zeroed (fld w 0 3 == 0) (.remu (bits w 16 5) (bits w 11 5) (bits w 6 5) (bits w 3 3))
  | 18 => zeroed (fld w 0 3 == 0) (.min (bits w 16 5) (bits w 11 5) (bits w 6 5) (bits w 3 3))
  | 19 => zeroed (fld w 0 3 == 0) (.max (bits w 16 5) (bits w 11 5) (bits w 6 5) (bits w 3 3))
  | 20 => zeroed (fld w 0 3 == 0) (.minu (bits w 16 5) (bits w 11 5) (bits w 6 5) (bits w 3 3))
  | 21 => zeroed (fld w 0 3 == 0) (.maxu (bits w 16 5) (bits w 11 5) (bits w 6 5) (bits w 3 3))
  | 22 => zeroed (fld w 0 3 == 0) (.slt (bits w 16 5) (bits w 11 5) (bits w 6 5) (bits w 3 3))
  | 23 => zeroed (fld w 0 3 == 0) (.sltu (bits w 16 5) (bits w 11 5) (bits w 6 5) (bits w 3 3))
  | 24 => zeroed (fld w 0 3 == 0) (.seq (bits w 16 5) (bits w 11 5) (bits w 6 5) (bits w 3 3))
  | 25 => zeroed (fld w 0 3 == 0) (.sne (bits w 16 5) (bits w 11 5) (bits w 6 5) (bits w 3 3))
  | 26 => zeroed (fld w 6 5 == 0 && fld w 0 3 == 0) (.clz (bits w 16 5) (bits w 11 5) (bits w 3 3))
  | 27 => zeroed (fld w 6 5 == 0 && fld w 0 3 == 0) (.ctz (bits w 16 5) (bits w 11 5) (bits w 3 3))
  | 28 => zeroed (fld w 6 5 == 0 && fld w 0 3 == 0) (.popc (bits w 16 5) (bits w 11 5) (bits w 3 3))
  | 29 => zeroed (fld w 6 5 == 0 && fld w 0 3 == 0) (.sext (bits w 16 5) (bits w 11 5) (bits w 3 3))
  | 30 => zeroed (fld w 6 5 == 0 && fld w 0 3 == 0) (.zext (bits w 16 5) (bits w 11 5) (bits w 3 3))
  | 31 => zeroed (fld w 0 3 == 0) (.fshl (bits w 16 5) (bits w 11 5) (bits w 6 5) (bits w 3 3))
  | 32 => zeroed (fld w 0 3 == 0) (.fshr (bits w 16 5) (bits w 11 5) (bits w 6 5) (bits w 3 3))
  | 33 => .ok (.addi (bits w 16 5) (bits w 11 5) (bits w 0 11))
  | 34 => .ok (.andi (bits w 16 5) (bits w 11 5) (bits w 0 11))
  | 35 => .ok (.ori (bits w 16 5) (bits w 11 5) (bits w 0 11))
  | 36 => .ok (.xori (bits w 16 5) (bits w 11 5) (bits w 0 11))
  | 37 => zeroed (fld w 6 5 == 0) (.shli (bits w 16 5) (bits w 11 5) (bits w 0 6))
  | 38 => zeroed (fld w 6 5 == 0) (.shri (bits w 16 5) (bits w 11 5) (bits w 0 6))
  | 39 => zeroed (fld w 6 5 == 0) (.shrai (bits w 16 5) (bits w 11 5) (bits w 0 6))
  | 40 => .ok (.slti (bits w 16 5) (bits w 11 5) (bits w 0 11))
  | 41 => .ok (.sltui (bits w 16 5) (bits w 11 5) (bits w 0 11))
  | 42 => .ok (.muli (bits w 16 5) (bits w 11 5) (bits w 0 11))
  | 43 => .ok (.li (bits w 16 5) (bits w 0 16))
  | 44 => .ok (.lih1 (bits w 16 5) (bits w 0 16))
  | 45 => .ok (.lih2 (bits w 16 5) (bits w 0 16))
  | 46 => .ok (.lih3 (bits w 16 5) (bits w 0 16))
  | 47 => .ok (.lds (bits w 16 5) (bits w 11 5) (bits w 9 2) (bits w 0 9))
  | 48 => .ok (.sts (bits w 16 5) (bits w 11 5) (bits w 9 2) (bits w 0 9))
  | 49 => .ok (.ldm (bits w 16 5) (bits w 11 5) (bits w 9 2) (bits w 0 9))
  | 50 => .ok (.stx (bits w 16 5) (bits w 11 5) (bits w 8 3) (bits w 6 2) (bits w 0 6))
  | 51 => zeroed (fld w 0 2 == 0) (.ldx (bits w 17 4) (bits w 12 5) (bits w 4 8) (bits w 2 2))
  | 52 => zeroed (fld w 15 1 == 0 && fld w 8 3 == 0) (.getl (bits w 16 5) (bits w 11 4) (bits w 6 2) (bits w 0 6))
  | 53 => zeroed (fld w 15 1 == 0 && fld w 8 3 == 0) (.getlPk (bits w 16 5) (bits w 11 4) (bits w 6 2) (bits w 0 6))
  | _ => .error .unassigned

/-- Opcodes of class 1 (R170). -/
def decodeControl (w : Nat) : Except DecodeError Instr :=
  match opcode w with
  | 128 => .ok (.j (bits w 0 21))
  | 129 => .ok (.call (bits w 0 21))
  | 130 => zeroed (fld w 16 5 == 0 && fld w 0 11 == 0) (.jr (bits w 11 5))
  | 131 => zeroed (fld w 16 5 == 0 && fld w 0 11 == 0) (.callr (bits w 11 5))
  | 132 => zeroed (fld w 0 21 == 0) (.ret)
  | 133 => .ok (.beqz (bits w 16 5) (bits w 0 16))
  | 134 => .ok (.bnez (bits w 16 5) (bits w 0 16))
  | 135 => .ok (.bltz (bits w 16 5) (bits w 0 16))
  | 136 => .ok (.bgez (bits w 16 5) (bits w 0 16))
  | 137 => zeroed (fld w 16 2 == 0) (.bpu (bits w 18 3) (bits w 0 16))
  | 138 => .ok (.beng (bits w 17 4) (bits w 16 1) (bits w 0 16))
  | 139 => zeroed (fld w 18 1 == 0) (.loop (bits w 19 2) (bits w 16 2) (bits w 0 16))
  | 140 => zeroed (fld w 0 8 == 0) (.skip (bits w 16 5) (bits w 8 8))
  | 141 => zeroed (fld w 0 21 == 0) (.halt)
  | 142 => zeroed (fld w 16 5 == 0 && fld w 0 11 == 0) (.waitt (bits w 11 5))
  | 143 => zeroed (fld w 16 5 == 0) (.trap (bits w 0 16))
  | 144 => zeroed (fld w 0 8 == 0) (.mfc (bits w 16 5) (bits w 8 8))
  | 145 => zeroed (fld w 0 8 == 0) (.mtc (bits w 16 5) (bits w 8 8))
  | 146 => zeroed (fld w 0 16 == 0) (.time (bits w 16 5))
  | 147 => zeroed (fld w 0 16 == 0) (.step (bits w 16 5))
  | 148 => zeroed (fld w 18 3 == 0 && fld w 12 3 == 0 && fld w 0 7 == 0) (.pcnt (bits w 15 3) (bits w 7 5))
  | 149 => zeroed (fld w 0 15 == 0) (.pmov (bits w 18 3) (bits w 15 3))
  | 150 => zeroed (fld w 12 6 == 0 && fld w 0 7 == 0) (.psetg (bits w 18 3) (bits w 7 5))
  | 151 => zeroed (fld w 0 12 == 0) (.pand (bits w 18 3) (bits w 15 3) (bits w 12 3))
  | 152 => zeroed (fld w 0 12 == 0) (.por (bits w 18 3) (bits w 15 3) (bits w 12 3))
  | 153 => zeroed (fld w 0 12 == 0) (.pxor (bits w 18 3) (bits w 15 3) (bits w 12 3))
  | 154 => zeroed (fld w 0 15 == 0) (.pnot (bits w 18 3) (bits w 15 3))
  | _ => .error .unassigned

/-- Opcodes of class 2 (R170); their low two bits are the element size. -/
def decodeVecInt (w : Nat) : Except DecodeError Instr :=
  match opcode w / 4 with
  | 64 => .ok (.vadd (bits w 21 2) (bits w 15 6) (bits w 9 6) (bits w 3 6) (bits w 0 3))
  | 65 => .ok (.vsub (bits w 21 2) (bits w 15 6) (bits w 9 6) (bits w 3 6) (bits w 0 3))
  | 66 => .ok (.vadds (bits w 21 2) (bits w 15 6) (bits w 9 6) (bits w 3 6) (bits w 0 3))
  | 67 => .ok (.vsubs (bits w 21 2) (bits w 15 6) (bits w 9 6) (bits w 3 6) (bits w 0 3))
  | 68 => .ok (.vmul (bits w 21 2) (bits w 15 6) (bits w 9 6) (bits w 3 6) (bits w 0 3))
  | 69 => .ok (.vmulh (bits w 21 2) (bits w 15 6) (bits w 9 6) (bits w 3 6) (bits w 0 3))
  | 70 => .ok (.vmin (bits w 21 2) (bits w 15 6) (bits w 9 6) (bits w 3 6) (bits w 0 3))
  | 71 => .ok (.vmax (bits w 21 2) (bits w 15 6) (bits w 9 6) (bits w 3 6) (bits w 0 3))
  | 72 => .ok (.vminu (bits w 21 2) (bits w 15 6) (bits w 9 6) (bits w 3 6) (bits w 0 3))
  | 73 => .ok (.vmaxu (bits w 21 2) (bits w 15 6) (bits w 9 6) (bits w 3 6) (bits w 0 3))
  | 74 => .ok (.vabsd (bits w 21 2) (bits w 15 6) (bits w 9 6) (bits w 3 6) (bits w 0 3))
  | 75 => .ok (.vand (bits w 21 2) (bits w 15 6) (bits w 9 6) (bits w 3 6) (bits w 0 3))
  | 76 => .ok (.vor (bits w 21 2) (bits w 15 6) (bits w 9 6) (bits w 3 6) (bits w 0 3))
  | 77 => .ok (.vxor (bits w 21 2) (bits w 15 6) (bits w 9 6) (bits w 3 6) (bits w 0 3))
  | 78 => .ok (.vandn (bits w 21 2) (bits w 15 6) (bits w 9 6) (bits w 3 6) (bits w 0 3))
  | 79 => .ok (.vshl (bits w 21 2) (bits w 15 6) (bits w 9 6) (bits w 3 6) (bits w 0 3))
  | 80 => .ok (.vshr (bits w 21 2) (bits w 15 6) (bits w 9 6) (bits w 3 6) (bits w 0 3))
  | 81 => .ok (.vshra (bits w 21 2) (bits w 15 6) (bits w 9 6) (bits w 3 6) (bits w 0 3))
  | 82 => .ok (.vshli (bits w 21 2) (bits w 15 6) (bits w 9 6) (bits w 3 6) (bits w 0 3))
  | 83 => .ok (.vshri (bits w 21 2) (bits w 15 6) (bits w 9 6) (bits w 3 6) (bits w 0 3))
  | 84 => .ok (.vfshl (bits w 21 2) (bits w 15 6) (bits w 9 6) (bits w 3 6) (bits w 0 3))
  | 85 => .ok (.vfshr (bits w 21 2) (bits w 15 6) (bits w 9 6) (bits w 3 6) (bits w 0 3))
  | 86 => zeroed (fld w 0 3 == 0) (.vcmpeq (bits w 21 2) (bits w 18 3) (bits w 12 6) (bits w 6 6) (bits w 3 3))
  | 87 => zeroed (fld w 0 3 == 0) (.vcmplt (bits w 21 2) (bits w 18 3) (bits w 12 6) (bits w 6 6) (bits w 3 3))
  | 88 => zeroed (fld w 0 3 == 0) (.vcmpltu (bits w 21 2) (bits w 18 3) (bits w 12 6) (bits w 6 6) (bits w 3 3))
  | 89 => .ok (.vsel (bits w 21 2) (bits w 15 6) (bits w 9 6) (bits w 3 6) (bits w 0 3))
  | 90 => .ok (.vsplat (bits w 21 2) (bits w 15 6) (bits w 10 5) (bits w 3 7) (bits w 0 3))
  | 91 => .ok (.vperm (bits w 21 2) (bits w 15 6) (bits w 9 6) (bits w 3 6) (bits w 0 3))
  | 92 => .ok (.vsldn (bits w 21 2) (bits w 15 6) (bits w 9 6) (bits w 3 6) (bits w 0 3))
  | 93 => .ok (.vslup (bits w 21 2) (bits w 15 6) (bits w 9 6) (bits w 3 6) (bits w 0 3))
  | 94 => .ok (.vdelta (bits w 21 2) (bits w 15 6) (bits w 9 6) (bits w 3 6) (bits w 0 3))
  | 95 => .ok (.vpsum (bits w 21 2) (bits w 15 6) (bits w 9 6) (bits w 3 6) (bits w 0 3))
  | _ => .error .unassigned

/-- Opcodes of class 3 (R170) whose low two bits are the element size. -/
def decodeFloatSized (w : Nat) : Except DecodeError Instr :=
  match opcode w / 4 with
  | 96 => .ok (.vfadd (bits w 21 2) (bits w 15 6) (bits w 9 6) (bits w 3 6) (bits w 0 3))
  | 97 => .ok (.vfsub (bits w 21 2) (bits w 15 6) (bits w 9 6) (bits w 3 6) (bits w 0 3))
  | 98 => .ok (.vfmul (bits w 21 2) (bits w 15 6) (bits w 9 6) (bits w 3 6) (bits w 0 3))
  | 99 => .ok (.vfma (bits w 21 2) (bits w 15 6) (bits w 9 6) (bits w 3 6) (bits w 0 3))
  | 100 => .ok (.vfmax (bits w 21 2) (bits w 15 6) (bits w 9 6) (bits w 3 6) (bits w 0 3))
  | 101 => .ok (.vfmin (bits w 21 2) (bits w 15 6) (bits w 9 6) (bits w 3 6) (bits w 0 3))
  | 102 => zeroed (fld w 0 3 == 0) (.vfcmplt (bits w 21 2) (bits w 18 3) (bits w 12 6) (bits w 6 6) (bits w 3 3))
  | 103 => zeroed (fld w 0 3 == 0) (.vfcmpeq (bits w 21 2) (bits w 18 3) (bits w 12 6) (bits w 6 6) (bits w 3 3))
  | 104 => zeroed (fld w 3 6 == 0) (.vfrcp (bits w 21 2) (bits w 15 6) (bits w 9 6) (bits w 0 3))
  | 105 => zeroed (fld w 3 6 == 0) (.vfexp2 (bits w 21 2) (bits w 15 6) (bits w 9 6) (bits w 0 3))
  | 107 => zeroed (fld w 3 6 == 0) (.vcvtif (bits w 21 2) (bits w 15 6) (bits w 9 6) (bits w 0 3))
  | 108 => zeroed (fld w 3 6 == 0) (.vcvtfi (bits w 21 2) (bits w 15 6) (bits w 9 6) (bits w 0 3))
  | 111 => zeroed (fld w 3 6 == 0) (.vrmax (bits w 21 2) (bits w 15 6) (bits w 9 6) (bits w 0 3))
  | 112 => zeroed (fld w 3 6 == 0) (.vrsum (bits w 21 2) (bits w 15 6) (bits w 9 6) (bits w 0 3))
  | 113 => .ok (.vgmax (bits w 21 2) (bits w 15 6) (bits w 9 6) (bits w 3 6) (bits w 0 3))
  | 114 => zeroed (fld w 3 6 == 0) (.vclz (bits w 21 2) (bits w 15 6) (bits w 9 6) (bits w 0 3))
  | 115 => zeroed (fld w 3 6 == 0) (.vfrsum (bits w 21 2) (bits w 15 6) (bits w 9 6) (bits w 0 3))
  | 116 => zeroed (fld w 3 6 == 0) (.vfrmax (bits w 21 2) (bits w 15 6) (bits w 9 6) (bits w 0 3))
  | 118 => .ok (.vld (bits w 21 2) (bits w 15 6) (bits w 10 5) (bits w 3 7) (bits w 0 3))
  | 119 => .ok (.vst (bits w 21 2) (bits w 15 6) (bits w 10 5) (bits w 3 7) (bits w 0 3))
  | 120 => .ok (.vldu (bits w 21 2) (bits w 15 6) (bits w 10 5) (bits w 3 7) (bits w 0 3))
  | 121 => .ok (.vstu (bits w 21 2) (bits w 15 6) (bits w 10 5) (bits w 3 7) (bits w 0 3))
  | 122 => .ok (.vldm (bits w 21 2) (bits w 15 6) (bits w 10 5) (bits w 3 7) (bits w 0 3))
  | 124 => zeroed (fld w 3 4 == 0) (.vstx (bits w 21 2) (bits w 15 6) (bits w 10 5) (bits w 7 3) (bits w 0 3))
  | 126 => .ok (.vgath (bits w 21 2) (bits w 15 6) (bits w 10 5) (bits w 3 7) (bits w 0 3))
  | 127 => .ok (.vscat (bits w 21 2) (bits w 15 6) (bits w 10 5) (bits w 3 7) (bits w 0 3))
  | _ => .error .unassigned

/-- Opcodes of class 3 (R170). -/
def decodeVecFloat (w : Nat) : Except DecodeError Instr :=
  match opcode w with
  | 425 => .ok (.vfcvtH (bits w 15 6) (bits w 9 6) (bits w 3 6) (bits w 0 3))
  | 426 => zeroed (fld w 3 6 == 0) (.vfcvtW (bits w 15 6) (bits w 9 6) (bits w 0 3))
  | 438 => .ok (.vnarrow (bits w 15 6) (bits w 9 6) (bits w 6 3) (bits w 3 3) (bits w 0 3))
  | 442 => .ok (.vbscale (bits w 15 6) (bits w 9 6) (bits w 3 6) (bits w 0 3))
  | 471 => .ok (.vhash (bits w 15 6) (bits w 10 5) (bits w 3 7) (bits w 0 3))
  | 492 => zeroed (fld w 0 4 == 0) (.vldx (bits w 17 4) (bits w 12 5) (bits w 4 8))
  | 500 => zeroed (fld w 0 10 == 0) (.vgetl (bits w 15 6) (bits w 11 4) (bits w 10 1))
  | _ => decodeFloatSized w

/-- Opcodes of class 4 (R170). -/
def decodeMatrix (w : Nat) : Except DecodeError Instr :=
  match opcode w with
  | 512 => zeroed (fld w 0 1 == 0) (.tshape (bits w 18 3) (bits w 15 3) (bits w 9 6) (bits w 1 8))
  | 513 => zeroed (fld w 0 8 == 0) (.tld (bits w 18 3) (bits w 13 5) (bits w 8 5))
  | 514 => zeroed (fld w 0 8 == 0) (.tldm (bits w 18 3) (bits w 13 5) (bits w 8 5))
  | 515 => zeroed (fld w 0 8 == 0) (.tst (bits w 18 3) (bits w 13 5) (bits w 8 5))
  | 516 => zeroed (fld w 0 18 == 0) (.tzero (bits w 18 3))
  | 517 => zeroed (fld w 0 18 == 0) (.ttr (bits w 18 3))
  | 518 => zeroed (fld w 10 3 == 0 && fld w 0 3 == 0) (.mma44 (bits w 19 2) (bits w 16 3) (bits w 13 3) (bits w 9 1) (bits w 8 1) (bits w 7 1) (bits w 6 1) (bits w 3 3))
  | 519 => zeroed (fld w 10 3 == 0 && fld w 0 3 == 0) (.mma46 (bits w 19 2) (bits w 16 3) (bits w 13 3) (bits w 9 1) (bits w 8 1) (bits w 7 1) (bits w 6 1) (bits w 3 3))
  | 520 => zeroed (fld w 10 3 == 0 && fld w 0 3 == 0) (.mma48 (bits w 19 2) (bits w 16 3) (bits w 13 3) (bits w 9 1) (bits w 8 1) (bits w 7 1) (bits w 6 1) (bits w 3 3))
  | 521 => zeroed (fld w 10 3 == 0 && fld w 0 3 == 0) (.mma64 (bits w 19 2) (bits w 16 3) (bits w 13 3) (bits w 9 1) (bits w 8 1) (bits w 7 1) (bits w 6 1) (bits w 3 3))
  | 522 => zeroed (fld w 10 3 == 0 && fld w 0 3 == 0) (.mma66 (bits w 19 2) (bits w 16 3) (bits w 13 3) (bits w 9 1) (bits w 8 1) (bits w 7 1) (bits w 6 1) (bits w 3 3))
  | 523 => zeroed (fld w 10 3 == 0 && fld w 0 3 == 0) (.mma68 (bits w 19 2) (bits w 16 3) (bits w 13 3) (bits w 9 1) (bits w 8 1) (bits w 7 1) (bits w 6 1) (bits w 3 3))
  | 524 => zeroed (fld w 10 3 == 0 && fld w 0 3 == 0) (.mma84 (bits w 19 2) (bits w 16 3) (bits w 13 3) (bits w 9 1) (bits w 8 1) (bits w 7 1) (bits w 6 1) (bits w 3 3))
  | 525 => zeroed (fld w 10 3 == 0 && fld w 0 3 == 0) (.mma86 (bits w 19 2) (bits w 16 3) (bits w 13 3) (bits w 9 1) (bits w 8 1) (bits w 7 1) (bits w 6 1) (bits w 3 3))
  | 526 => zeroed (fld w 10 3 == 0 && fld w 0 3 == 0) (.mma88 (bits w 19 2) (bits w 16 3) (bits w 13 3) (bits w 9 1) (bits w 8 1) (bits w 7 1) (bits w 6 1) (bits w 3 3))
  | 527 => zeroed (fld w 0 3 == 0) (.mmas44 (bits w 19 2) (bits w 16 3) (bits w 13 3) (bits w 10 3) (bits w 9 1) (bits w 8 1) (bits w 7 1) (bits w 6 1) (bits w 3 3))
  | 528 => zeroed (fld w 0 3 == 0) (.mmas48 (bits w 19 2) (bits w 16 3) (bits w 13 3) (bits w 10 3) (bits w 9 1) (bits w 8 1) (bits w 7 1) (bits w 6 1) (bits w 3 3))
  | 529 => zeroed (fld w 0 3 == 0) (.mmas84 (bits w 19 2) (bits w 16 3) (bits w 13 3) (bits w 10 3) (bits w 9 1) (bits w 8 1) (bits w 7 1) (bits w 6 1) (bits w 3 3))
  | 530 => zeroed (fld w 0 3 == 0) (.mmas88 (bits w 19 2) (bits w 16 3) (bits w 13 3) (bits w 10 3) (bits w 9 1) (bits w 8 1) (bits w 7 1) (bits w 6 1) (bits w 3 3))
  | 531 => zeroed (fld w 0 19 == 0) (.accz (bits w 19 2))
  | 532 => zeroed (fld w 0 9 == 0) (.accscl (bits w 19 2) (bits w 18 1) (bits w 15 3) (bits w 12 3) (bits w 9 3))
  | 533 => zeroed (fld w 13 8 == 2 && fld w 0 12 == 0) (.ozero (bits w 12 1))
  | 534 => zeroed (fld w 13 2 == 2 && fld w 0 6 == 0) (.ord (bits w 15 6) (bits w 12 1) (bits w 6 6))
  | 535 => zeroed (fld w 13 2 == 2 && fld w 0 6 == 0) (.owr (bits w 15 6) (bits w 12 1) (bits w 6 6))
  | 536 => zeroed (fld w 14 1 == 0 && fld w 0 6 == 0) (.accrd (bits w 15 6) (bits w 12 2) (bits w 6 6))
  | _ => .error .unassigned

/-- Opcodes of class 5 (R170). -/
def decodeCopy (w : Nat) : Except DecodeError Instr :=
  match opcode w with
  | 640 => zeroed (fld w 3 3 == 0) (.cpy (bits w 16 5) (bits w 11 5) (bits w 6 5) (bits w 0 3))
  | 641 => zeroed (fld w 3 3 == 0) (.cpym (bits w 16 5) (bits w 11 5) (bits w 6 5) (bits w 0 3))
  | 642 => .ok (.cpyg (bits w 16 5) (bits w 11 5) (bits w 6 5) (bits w 3 3) (bits w 0 3))
  | 643 => .ok (.cpyw (bits w 16 5) (bits w 11 5) (bits w 6 5) (bits w 3 3) (bits w 0 3))
  | 644 => zeroed (fld w 3 3 == 0) (.cpymc (bits w 16 5) (bits w 11 5) (bits w 6 5) (bits w 0 3))
  | 645 => .ok (.cpyx (bits w 16 5) (bits w 11 5) (bits w 6 5) (bits w 3 3) (bits w 0 3))
  | 646 => .ok (.gath (bits w 16 5) (bits w 11 5) (bits w 6 5) (bits w 3 3) (bits w 0 3))
  | 647 => .ok (.scat (bits w 16 5) (bits w 11 5) (bits w 6 5) (bits w 3 3) (bits w 0 3))
  | 648 => .ok (.redc (bits w 16 5) (bits w 11 5) (bits w 6 5) (bits w 3 3) (bits w 0 3))
  | 649 => zeroed (fld w 0 15 == 0) (.cseed (bits w 20 1) (bits w 15 5))
  | 650 => zeroed (fld w 0 16 == 0) (.cget (bits w 17 4) (bits w 16 1))
  | _ => .error .unassigned

/-- Opcodes of class 6 (R170). -/
def decodeSync (w : Nat) : Except DecodeError Instr :=
  match opcode w with
  | 768 => zeroed (fld w 0 14 == 0) (.phase (bits w 18 3) (bits w 17 1) (bits w 14 3))
  | 769 => zeroed (fld w 0 14 == 0) (.fence (bits w 18 3) (bits w 17 1) (bits w 14 3))
  | 770 => zeroed (fld w 0 14 == 0) (.sstep (bits w 18 3) (bits w 17 1) (bits w 14 3))
  | 771 => zeroed (fld w 0 14 == 0) (.wgo (bits w 18 3) (bits w 17 1) (bits w 14 3))
  | 772 => zeroed (fld w 0 4 == 0) (.aadd (bits w 16 5) (bits w 11 5) (bits w 6 5) (bits w 4 2))
  | 773 => zeroed (fld w 0 4 == 0) (.amin (bits w 16 5) (bits w 11 5) (bits w 6 5) (bits w 4 2))
  | 774 => zeroed (fld w 0 4 == 0) (.amax (bits w 16 5) (bits w 11 5) (bits w 6 5) (bits w 4 2))
  | 775 => zeroed (fld w 0 4 == 0) (.aor (bits w 16 5) (bits w 11 5) (bits w 6 5) (bits w 4 2))
  | 776 => zeroed (fld w 0 4 == 0) (.aand (bits w 16 5) (bits w 11 5) (bits w 6 5) (bits w 4 2))
  | 777 => zeroed (fld w 0 4 == 0) (.axchg (bits w 16 5) (bits w 11 5) (bits w 6 5) (bits w 4 2))
  | 778 => zeroed (fld w 0 4 == 0) (.acas (bits w 16 5) (bits w 11 5) (bits w 6 5) (bits w 4 2))
  | 779 => .ok (.rqld (bits w 16 5) (bits w 11 5) (bits w 0 11))
  | 780 => zeroed (fld w 0 6 == 0) (.rqcommit (bits w 16 5) (bits w 11 5) (bits w 6 5))
  | 781 => zeroed (fld w 0 21 == 0) (.rqend)
  | 782 => zeroed (fld w 16 5 == 0 && fld w 0 6 == 0) (.condw (bits w 11 5) (bits w 6 5))
  | 783 => zeroed (fld w 0 11 == 0) (.maprd (bits w 16 5) (bits w 11 5))
  | 784 => zeroed (fld w 16 5 == 0 && fld w 0 11 == 0) (.mapack (bits w 11 5))
  | 785 => zeroed (fld w 16 5 == 0 && fld w 0 11 == 0) (.wjopen (bits w 11 5))
  | 786 => zeroed (fld w 0 6 == 0) (.wjput (bits w 16 5) (bits w 11 5) (bits w 6 5))
  | 787 => zeroed (fld w 0 21 == 0) (.wjcommit)
  | 788 => zeroed (fld w 0 21 == 0) (.wjabort)
  | 789 => zeroed (fld w 0 11 == 0) (.wjstat (bits w 16 5) (bits w 11 5))
  | 790 => zeroed (fld w 2 19 == 0) (.pwrhint (bits w 0 2))
  | 791 => zeroed (fld w 16 2 == 0) (.cropen (bits w 18 3) (bits w 0 16))
  | 792 => zeroed (fld w 0 18 == 0) (.crclose (bits w 18 3))
  | 793 => if fld w 3 3 == 1 then zeroed (fld w 6 15 == 0 && fld w 0 3 == 0) .fretN else zeroed (fld w 0 21 == 0) .fret
  | 794 => zeroed (fld w 3 13 == 0) (.fltrd (bits w 16 5) (bits w 0 3))
  | 795 => zeroed (fld w 16 5 == 0 && fld w 0 6 == 0) (.diagst (bits w 11 5) (bits w 6 5))
  | 796 => zeroed (fld w 0 6 == 0) (.diagld (bits w 16 5) (bits w 11 5) (bits w 6 5))
  | 797 => zeroed (fld w 16 5 == 0 && fld w 0 6 == 0) (.rqflt (bits w 11 5) (bits w 6 5))
  | _ => .error .unassigned

/-- The instruction of a word by its class, before the operand checks. -/
def decodeRaw (w : Nat) : Except DecodeError Instr :=
  match opcode w / 128 with
  | 0 => decodeScalar w
  | 1 => decodeControl w
  | 2 => decodeVecInt w
  | 3 => decodeVecFloat w
  | 4 => decodeMatrix w
  | 5 => decodeCopy w
  | 6 => decodeSync w
  | _ => .error .unassigned

/-- The instruction of a word (R166): total, each refusal by name. Bit 31 is CH and takes no part. -/
def decodeWord (w : Nat) : Except DecodeError Instr :=
  match decodeRaw w with
  | .ok i => if i.wf then .ok i else .error .operand
  | .error e => .error e

/-- The word of an instruction, CH clear (R171). An event has no word, and 0 stands for it. -/
def encode : Instr → Nat
  | .nop => 0
  | .add d a b m => 2097152 + d.toNat * 65536 + a.toNat * 2048 + b.toNat * 64 + m.toNat * 8
  | .sub d a b m => 4194304 + d.toNat * 65536 + a.toNat * 2048 + b.toNat * 64 + m.toNat * 8
  | .and d a b m => 6291456 + d.toNat * 65536 + a.toNat * 2048 + b.toNat * 64 + m.toNat * 8
  | .or d a b m => 8388608 + d.toNat * 65536 + a.toNat * 2048 + b.toNat * 64 + m.toNat * 8
  | .xor d a b m => 10485760 + d.toNat * 65536 + a.toNat * 2048 + b.toNat * 64 + m.toNat * 8
  | .andn d a b m => 12582912 + d.toNat * 65536 + a.toNat * 2048 + b.toNat * 64 + m.toNat * 8
  | .shl d a b m => 14680064 + d.toNat * 65536 + a.toNat * 2048 + b.toNat * 64 + m.toNat * 8
  | .shr d a b m => 16777216 + d.toNat * 65536 + a.toNat * 2048 + b.toNat * 64 + m.toNat * 8
  | .shra d a b m => 18874368 + d.toNat * 65536 + a.toNat * 2048 + b.toNat * 64 + m.toNat * 8
  | .rotr d a b m => 20971520 + d.toNat * 65536 + a.toNat * 2048 + b.toNat * 64 + m.toNat * 8
  | .mul d a b m => 23068672 + d.toNat * 65536 + a.toNat * 2048 + b.toNat * 64 + m.toNat * 8
  | .mulh d a b m => 25165824 + d.toNat * 65536 + a.toNat * 2048 + b.toNat * 64 + m.toNat * 8
  | .mulhu d a b m => 27262976 + d.toNat * 65536 + a.toNat * 2048 + b.toNat * 64 + m.toNat * 8
  | .div d a b m => 29360128 + d.toNat * 65536 + a.toNat * 2048 + b.toNat * 64 + m.toNat * 8
  | .divu d a b m => 31457280 + d.toNat * 65536 + a.toNat * 2048 + b.toNat * 64 + m.toNat * 8
  | .rem d a b m => 33554432 + d.toNat * 65536 + a.toNat * 2048 + b.toNat * 64 + m.toNat * 8
  | .remu d a b m => 35651584 + d.toNat * 65536 + a.toNat * 2048 + b.toNat * 64 + m.toNat * 8
  | .min d a b m => 37748736 + d.toNat * 65536 + a.toNat * 2048 + b.toNat * 64 + m.toNat * 8
  | .max d a b m => 39845888 + d.toNat * 65536 + a.toNat * 2048 + b.toNat * 64 + m.toNat * 8
  | .minu d a b m => 41943040 + d.toNat * 65536 + a.toNat * 2048 + b.toNat * 64 + m.toNat * 8
  | .maxu d a b m => 44040192 + d.toNat * 65536 + a.toNat * 2048 + b.toNat * 64 + m.toNat * 8
  | .slt d a b m => 46137344 + d.toNat * 65536 + a.toNat * 2048 + b.toNat * 64 + m.toNat * 8
  | .sltu d a b m => 48234496 + d.toNat * 65536 + a.toNat * 2048 + b.toNat * 64 + m.toNat * 8
  | .seq d a b m => 50331648 + d.toNat * 65536 + a.toNat * 2048 + b.toNat * 64 + m.toNat * 8
  | .sne d a b m => 52428800 + d.toNat * 65536 + a.toNat * 2048 + b.toNat * 64 + m.toNat * 8
  | .clz d a m => 54525952 + d.toNat * 65536 + a.toNat * 2048 + m.toNat * 8
  | .ctz d a m => 56623104 + d.toNat * 65536 + a.toNat * 2048 + m.toNat * 8
  | .popc d a m => 58720256 + d.toNat * 65536 + a.toNat * 2048 + m.toNat * 8
  | .sext d a m => 60817408 + d.toNat * 65536 + a.toNat * 2048 + m.toNat * 8
  | .zext d a m => 62914560 + d.toNat * 65536 + a.toNat * 2048 + m.toNat * 8
  | .fshl d a b m => 65011712 + d.toNat * 65536 + a.toNat * 2048 + b.toNat * 64 + m.toNat * 8
  | .fshr d a b m => 67108864 + d.toNat * 65536 + a.toNat * 2048 + b.toNat * 64 + m.toNat * 8
  | .addi d a i => 69206016 + d.toNat * 65536 + a.toNat * 2048 + i.toNat
  | .andi d a i => 71303168 + d.toNat * 65536 + a.toNat * 2048 + i.toNat
  | .ori d a i => 73400320 + d.toNat * 65536 + a.toNat * 2048 + i.toNat
  | .xori d a i => 75497472 + d.toNat * 65536 + a.toNat * 2048 + i.toNat
  | .shli d a i => 77594624 + d.toNat * 65536 + a.toNat * 2048 + i.toNat
  | .shri d a i => 79691776 + d.toNat * 65536 + a.toNat * 2048 + i.toNat
  | .shrai d a i => 81788928 + d.toNat * 65536 + a.toNat * 2048 + i.toNat
  | .slti d a i => 83886080 + d.toNat * 65536 + a.toNat * 2048 + i.toNat
  | .sltui d a i => 85983232 + d.toNat * 65536 + a.toNat * 2048 + i.toNat
  | .muli d a i => 88080384 + d.toNat * 65536 + a.toNat * 2048 + i.toNat
  | .li d i => 90177536 + d.toNat * 65536 + i.toNat
  | .lih1 d i => 92274688 + d.toNat * 65536 + i.toNat
  | .lih2 d i => 94371840 + d.toNat * 65536 + i.toNat
  | .lih3 d i => 96468992 + d.toNat * 65536 + i.toNat
  | .lds g a s o => 98566144 + g.toNat * 65536 + a.toNat * 2048 + s.toNat * 512 + o.toNat
  | .sts g a s o => 100663296 + g.toNat * 65536 + a.toNat * 2048 + s.toNat * 512 + o.toNat
  | .ldm g a s o => 102760448 + g.toNat * 65536 + a.toNat * 2048 + s.toNat * 512 + o.toNat
  | .stx g a k s o => 104857600 + g.toNat * 65536 + a.toNat * 2048 + k.toNat * 256 + s.toNat * 64 + o.toNat
  | .ldx l a t s => 106954752 + l.toNat * 131072 + a.toNat * 4096 + t.toNat * 16 + s.toNat * 4
  | .getl d l s o => 109051904 + d.toNat * 65536 + l.toNat * 2048 + s.toNat * 64 + o.toNat
  | .getlPk d l s o => 111149056 + d.toNat * 65536 + l.toNat * 2048 + s.toNat * 64 + o.toNat
  | .j o => 268435456 + o.toNat
  | .call o => 270532608 + o.toNat
  | .jr a => 272629760 + a.toNat * 2048
  | .callr a => 274726912 + a.toNat * 2048
  | .ret => 276824064
  | .beqz a o => 278921216 + a.toNat * 65536 + o.toNat
  | .bnez a o => 281018368 + a.toNat * 65536 + o.toNat
  | .bltz a o => 283115520 + a.toNat * 65536 + o.toNat
  | .bgez a o => 285212672 + a.toNat * 65536 + o.toNat
  | .bpu p o => 287309824 + p.toNat * 262144 + o.toNat
  | .beng e s o => 289406976 + e.toNat * 131072 + s.toNat * 65536 + o.toNat
  | .loop l r o => 291504128 + l.toNat * 524288 + r.toNat * 65536 + o.toNat
  | .skip b n => 293601280 + b.toNat * 65536 + n.toNat * 256
  | .halt => 295698432
  | .waitt a => 297795584 + a.toNat * 2048
  | .trap i => 299892736 + i.toNat
  | .mfc g c => 301989888 + g.toNat * 65536 + c.toNat * 256
  | .mtc g c => 304087040 + g.toNat * 65536 + c.toNat * 256
  | .time d => 306184192 + d.toNat * 65536
  | .step d => 308281344 + d.toNat * 65536
  | .pcnt a g => 310378496 + a.toNat * 32768 + g.toNat * 128
  | .pmov d a => 312475648 + d.toNat * 262144 + a.toNat * 32768
  | .psetg d g => 314572800 + d.toNat * 262144 + g.toNat * 128
  | .pand d a b => 316669952 + d.toNat * 262144 + a.toNat * 32768 + b.toNat * 4096
  | .por d a b => 318767104 + d.toNat * 262144 + a.toNat * 32768 + b.toNat * 4096
  | .pxor d a b => 320864256 + d.toNat * 262144 + a.toNat * 32768 + b.toNat * 4096
  | .pnot d a => 322961408 + d.toNat * 262144 + a.toNat * 32768
  | .vadd e d a b p => 536870912 + e.toNat * 2097152 + d.toNat * 32768 + a.toNat * 512 + b.toNat * 8 + p.toNat
  | .vsub e d a b p => 545259520 + e.toNat * 2097152 + d.toNat * 32768 + a.toNat * 512 + b.toNat * 8 + p.toNat
  | .vadds e d a b p => 553648128 + e.toNat * 2097152 + d.toNat * 32768 + a.toNat * 512 + b.toNat * 8 + p.toNat
  | .vsubs e d a b p => 562036736 + e.toNat * 2097152 + d.toNat * 32768 + a.toNat * 512 + b.toNat * 8 + p.toNat
  | .vmul e d a b p => 570425344 + e.toNat * 2097152 + d.toNat * 32768 + a.toNat * 512 + b.toNat * 8 + p.toNat
  | .vmulh e d a b p => 578813952 + e.toNat * 2097152 + d.toNat * 32768 + a.toNat * 512 + b.toNat * 8 + p.toNat
  | .vmin e d a b p => 587202560 + e.toNat * 2097152 + d.toNat * 32768 + a.toNat * 512 + b.toNat * 8 + p.toNat
  | .vmax e d a b p => 595591168 + e.toNat * 2097152 + d.toNat * 32768 + a.toNat * 512 + b.toNat * 8 + p.toNat
  | .vminu e d a b p => 603979776 + e.toNat * 2097152 + d.toNat * 32768 + a.toNat * 512 + b.toNat * 8 + p.toNat
  | .vmaxu e d a b p => 612368384 + e.toNat * 2097152 + d.toNat * 32768 + a.toNat * 512 + b.toNat * 8 + p.toNat
  | .vabsd e d a b p => 620756992 + e.toNat * 2097152 + d.toNat * 32768 + a.toNat * 512 + b.toNat * 8 + p.toNat
  | .vand e d a b p => 629145600 + e.toNat * 2097152 + d.toNat * 32768 + a.toNat * 512 + b.toNat * 8 + p.toNat
  | .vor e d a b p => 637534208 + e.toNat * 2097152 + d.toNat * 32768 + a.toNat * 512 + b.toNat * 8 + p.toNat
  | .vxor e d a b p => 645922816 + e.toNat * 2097152 + d.toNat * 32768 + a.toNat * 512 + b.toNat * 8 + p.toNat
  | .vandn e d a b p => 654311424 + e.toNat * 2097152 + d.toNat * 32768 + a.toNat * 512 + b.toNat * 8 + p.toNat
  | .vshl e d a b p => 662700032 + e.toNat * 2097152 + d.toNat * 32768 + a.toNat * 512 + b.toNat * 8 + p.toNat
  | .vshr e d a b p => 671088640 + e.toNat * 2097152 + d.toNat * 32768 + a.toNat * 512 + b.toNat * 8 + p.toNat
  | .vshra e d a b p => 679477248 + e.toNat * 2097152 + d.toNat * 32768 + a.toNat * 512 + b.toNat * 8 + p.toNat
  | .vshli e d a i p => 687865856 + e.toNat * 2097152 + d.toNat * 32768 + a.toNat * 512 + i.toNat * 8 + p.toNat
  | .vshri e d a i p => 696254464 + e.toNat * 2097152 + d.toNat * 32768 + a.toNat * 512 + i.toNat * 8 + p.toNat
  | .vfshl e d a b p => 704643072 + e.toNat * 2097152 + d.toNat * 32768 + a.toNat * 512 + b.toNat * 8 + p.toNat
  | .vfshr e d a b p => 713031680 + e.toNat * 2097152 + d.toNat * 32768 + a.toNat * 512 + b.toNat * 8 + p.toNat
  | .vcmpeq e d a b p => 721420288 + e.toNat * 2097152 + d.toNat * 262144 + a.toNat * 4096 + b.toNat * 64 + p.toNat * 8
  | .vcmplt e d a b p => 729808896 + e.toNat * 2097152 + d.toNat * 262144 + a.toNat * 4096 + b.toNat * 64 + p.toNat * 8
  | .vcmpltu e d a b p => 738197504 + e.toNat * 2097152 + d.toNat * 262144 + a.toNat * 4096 + b.toNat * 64 + p.toNat * 8
  | .vsel e d a b p => 746586112 + e.toNat * 2097152 + d.toNat * 32768 + a.toNat * 512 + b.toNat * 8 + p.toNat
  | .vsplat e d a i p => 754974720 + e.toNat * 2097152 + d.toNat * 32768 + a.toNat * 1024 + i.toNat * 8 + p.toNat
  | .vperm e d a b p => 763363328 + e.toNat * 2097152 + d.toNat * 32768 + a.toNat * 512 + b.toNat * 8 + p.toNat
  | .vsldn e d a i p => 771751936 + e.toNat * 2097152 + d.toNat * 32768 + a.toNat * 512 + i.toNat * 8 + p.toNat
  | .vslup e d a i p => 780140544 + e.toNat * 2097152 + d.toNat * 32768 + a.toNat * 512 + i.toNat * 8 + p.toNat
  | .vdelta e d a b p => 788529152 + e.toNat * 2097152 + d.toNat * 32768 + a.toNat * 512 + b.toNat * 8 + p.toNat
  | .vpsum e d a b p => 796917760 + e.toNat * 2097152 + d.toNat * 32768 + a.toNat * 512 + b.toNat * 8 + p.toNat
  | .vfadd e d a b p => 805306368 + e.toNat * 2097152 + d.toNat * 32768 + a.toNat * 512 + b.toNat * 8 + p.toNat
  | .vfsub e d a b p => 813694976 + e.toNat * 2097152 + d.toNat * 32768 + a.toNat * 512 + b.toNat * 8 + p.toNat
  | .vfmul e d a b p => 822083584 + e.toNat * 2097152 + d.toNat * 32768 + a.toNat * 512 + b.toNat * 8 + p.toNat
  | .vfma e d a b p => 830472192 + e.toNat * 2097152 + d.toNat * 32768 + a.toNat * 512 + b.toNat * 8 + p.toNat
  | .vfmax e d a b p => 838860800 + e.toNat * 2097152 + d.toNat * 32768 + a.toNat * 512 + b.toNat * 8 + p.toNat
  | .vfmin e d a b p => 847249408 + e.toNat * 2097152 + d.toNat * 32768 + a.toNat * 512 + b.toNat * 8 + p.toNat
  | .vfcmplt e d a b p => 855638016 + e.toNat * 2097152 + d.toNat * 262144 + a.toNat * 4096 + b.toNat * 64 + p.toNat * 8
  | .vfcmpeq e d a b p => 864026624 + e.toNat * 2097152 + d.toNat * 262144 + a.toNat * 4096 + b.toNat * 64 + p.toNat * 8
  | .vfrcp e d a p => 872415232 + e.toNat * 2097152 + d.toNat * 32768 + a.toNat * 512 + p.toNat
  | .vfexp2 e d a p => 880803840 + e.toNat * 2097152 + d.toNat * 32768 + a.toNat * 512 + p.toNat
  | .vfcvtH d a b p => 891289600 + d.toNat * 32768 + a.toNat * 512 + b.toNat * 8 + p.toNat
  | .vfcvtW d a p => 893386752 + d.toNat * 32768 + a.toNat * 512 + p.toNat
  | .vcvtif e d a p => 897581056 + e.toNat * 2097152 + d.toNat * 32768 + a.toNat * 512 + p.toNat
  | .vcvtfi e d a p => 905969664 + e.toNat * 2097152 + d.toNat * 32768 + a.toNat * 512 + p.toNat
  | .vnarrow d a q m p => 918552576 + d.toNat * 32768 + a.toNat * 512 + q.toNat * 64 + m.toNat * 8 + p.toNat
  | .vbscale d a b p => 926941184 + d.toNat * 32768 + a.toNat * 512 + b.toNat * 8 + p.toNat
  | .vrmax e d a p => 931135488 + e.toNat * 2097152 + d.toNat * 32768 + a.toNat * 512 + p.toNat
  | .vrsum e d a p => 939524096 + e.toNat * 2097152 + d.toNat * 32768 + a.toNat * 512 + p.toNat
  | .vgmax e d a i p => 947912704 + e.toNat * 2097152 + d.toNat * 32768 + a.toNat * 512 + i.toNat * 8 + p.toNat
  | .vclz e d a p => 956301312 + e.toNat * 2097152 + d.toNat * 32768 + a.toNat * 512 + p.toNat
  | .vfrsum e d a p => 964689920 + e.toNat * 2097152 + d.toNat * 32768 + a.toNat * 512 + p.toNat
  | .vfrmax e d a p => 973078528 + e.toNat * 2097152 + d.toNat * 32768 + a.toNat * 512 + p.toNat
  | .vhash d a i p => 987758592 + d.toNat * 32768 + a.toNat * 1024 + i.toNat * 8 + p.toNat
  | .vld e v a o p => 989855744 + e.toNat * 2097152 + v.toNat * 32768 + a.toNat * 1024 + o.toNat * 8 + p.toNat
  | .vst e v a o p => 998244352 + e.toNat * 2097152 + v.toNat * 32768 + a.toNat * 1024 + o.toNat * 8 + p.toNat
  | .vldu e v a o p => 1006632960 + e.toNat * 2097152 + v.toNat * 32768 + a.toNat * 1024 + o.toNat * 8 + p.toNat
  | .vstu e v a o p => 1015021568 + e.toNat * 2097152 + v.toNat * 32768 + a.toNat * 1024 + o.toNat * 8 + p.toNat
  | .vldm e v a o p => 1023410176 + e.toNat * 2097152 + v.toNat * 32768 + a.toNat * 1024 + o.toNat * 8 + p.toNat
  | .vldx l a t => 1031798784 + l.toNat * 131072 + a.toNat * 4096 + t.toNat * 16
  | .vstx e v a s p => 1040187392 + e.toNat * 2097152 + v.toNat * 32768 + a.toNat * 1024 + s.toNat * 128 + p.toNat
  | .vgetl d l k => 1048576000 + d.toNat * 32768 + l.toNat * 2048 + k.toNat * 1024
  | .vgath e v a o p => 1056964608 + e.toNat * 2097152 + v.toNat * 32768 + a.toNat * 1024 + o.toNat * 8 + p.toNat
  | .vscat e v a o p => 1065353216 + e.toNat * 2097152 + v.toNat * 32768 + a.toNat * 1024 + o.toNat * 8 + p.toNat
  | .tshape t e r c => 1073741824 + t.toNat * 262144 + e.toNat * 32768 + r.toNat * 512 + c.toNat * 2
  | .tld t a b => 1075838976 + t.toNat * 262144 + a.toNat * 8192 + b.toNat * 256
  | .tldm t a b => 1077936128 + t.toNat * 262144 + a.toNat * 8192 + b.toNat * 256
  | .tst t a b => 1080033280 + t.toNat * 262144 + a.toNat * 8192 + b.toNat * 256
  | .tzero t => 1082130432 + t.toNat * 262144
  | .ttr t => 1084227584 + t.toNat * 262144
  | .mma44 a x y z r k o b => 1086324736 + a.toNat * 524288 + x.toNat * 65536 + y.toNat * 8192 + z.toNat * 512 + r.toNat * 256 + k.toNat * 128 + o.toNat * 64 + b.toNat * 8
  | .mma46 a x y z r k o b => 1088421888 + a.toNat * 524288 + x.toNat * 65536 + y.toNat * 8192 + z.toNat * 512 + r.toNat * 256 + k.toNat * 128 + o.toNat * 64 + b.toNat * 8
  | .mma48 a x y z r k o b => 1090519040 + a.toNat * 524288 + x.toNat * 65536 + y.toNat * 8192 + z.toNat * 512 + r.toNat * 256 + k.toNat * 128 + o.toNat * 64 + b.toNat * 8
  | .mma64 a x y z r k o b => 1092616192 + a.toNat * 524288 + x.toNat * 65536 + y.toNat * 8192 + z.toNat * 512 + r.toNat * 256 + k.toNat * 128 + o.toNat * 64 + b.toNat * 8
  | .mma66 a x y z r k o b => 1094713344 + a.toNat * 524288 + x.toNat * 65536 + y.toNat * 8192 + z.toNat * 512 + r.toNat * 256 + k.toNat * 128 + o.toNat * 64 + b.toNat * 8
  | .mma68 a x y z r k o b => 1096810496 + a.toNat * 524288 + x.toNat * 65536 + y.toNat * 8192 + z.toNat * 512 + r.toNat * 256 + k.toNat * 128 + o.toNat * 64 + b.toNat * 8
  | .mma84 a x y z r k o b => 1098907648 + a.toNat * 524288 + x.toNat * 65536 + y.toNat * 8192 + z.toNat * 512 + r.toNat * 256 + k.toNat * 128 + o.toNat * 64 + b.toNat * 8
  | .mma86 a x y z r k o b => 1101004800 + a.toNat * 524288 + x.toNat * 65536 + y.toNat * 8192 + z.toNat * 512 + r.toNat * 256 + k.toNat * 128 + o.toNat * 64 + b.toNat * 8
  | .mma88 a x y z r k o b => 1103101952 + a.toNat * 524288 + x.toNat * 65536 + y.toNat * 8192 + z.toNat * 512 + r.toNat * 256 + k.toNat * 128 + o.toNat * 64 + b.toNat * 8
  | .mmas44 a x y m z r k o b => 1105199104 + a.toNat * 524288 + x.toNat * 65536 + y.toNat * 8192 + m.toNat * 1024 + z.toNat * 512 + r.toNat * 256 + k.toNat * 128 + o.toNat * 64 + b.toNat * 8
  | .mmas48 a x y m z r k o b => 1107296256 + a.toNat * 524288 + x.toNat * 65536 + y.toNat * 8192 + m.toNat * 1024 + z.toNat * 512 + r.toNat * 256 + k.toNat * 128 + o.toNat * 64 + b.toNat * 8
  | .mmas84 a x y m z r k o b => 1109393408 + a.toNat * 524288 + x.toNat * 65536 + y.toNat * 8192 + m.toNat * 1024 + z.toNat * 512 + r.toNat * 256 + k.toNat * 128 + o.toNat * 64 + b.toNat * 8
  | .mmas88 a x y m z r k o b => 1111490560 + a.toNat * 524288 + x.toNat * 65536 + y.toNat * 8192 + m.toNat * 1024 + z.toNat * 512 + r.toNat * 256 + k.toNat * 128 + o.toNat * 64 + b.toNat * 8
  | .accz a => 1113587712 + a.toNat * 524288
  | .accscl a o x y b => 1115684864 + a.toNat * 524288 + o.toNat * 262144 + x.toNat * 32768 + y.toNat * 4096 + b.toNat * 512
  | .ozero s => 1117798400 + s.toNat * 4096
  | .ord v s r => 1119895552 + v.toNat * 32768 + s.toNat * 4096 + r.toNat * 64
  | .owr v s r => 1121992704 + v.toNat * 32768 + s.toNat * 4096 + r.toNat * 64
  | .accrd v s r => 1124073472 + v.toNat * 32768 + s.toNat * 4096 + r.toNat * 64
  | .cpy a b c f => 1342177280 + a.toNat * 65536 + b.toNat * 2048 + c.toNat * 64 + f.toNat
  | .cpym a b c f => 1344274432 + a.toNat * 65536 + b.toNat * 2048 + c.toNat * 64 + f.toNat
  | .cpyg a b c s f => 1346371584 + a.toNat * 65536 + b.toNat * 2048 + c.toNat * 64 + s.toNat * 8 + f.toNat
  | .cpyw a b c s f => 1348468736 + a.toNat * 65536 + b.toNat * 2048 + c.toNat * 64 + s.toNat * 8 + f.toNat
  | .cpymc a b c f => 1350565888 + a.toNat * 65536 + b.toNat * 2048 + c.toNat * 64 + f.toNat
  | .cpyx a b c s f => 1352663040 + a.toNat * 65536 + b.toNat * 2048 + c.toNat * 64 + s.toNat * 8 + f.toNat
  | .gath a b c s f => 1354760192 + a.toNat * 65536 + b.toNat * 2048 + c.toNat * 64 + s.toNat * 8 + f.toNat
  | .scat a b c s f => 1356857344 + a.toNat * 65536 + b.toNat * 2048 + c.toNat * 64 + s.toNat * 8 + f.toNat
  | .redc a b c s f => 1358954496 + a.toNat * 65536 + b.toNat * 2048 + c.toNat * 64 + s.toNat * 8 + f.toNat
  | .cseed x a => 1361051648 + x.toNat * 1048576 + a.toNat * 32768
  | .cget l x => 1363148800 + l.toNat * 131072 + x.toNat * 65536
  | .phase s v l => 1610612736 + s.toNat * 262144 + v.toNat * 131072 + l.toNat * 16384
  | .fence s v l => 1612709888 + s.toNat * 262144 + v.toNat * 131072 + l.toNat * 16384
  | .sstep s v l => 1614807040 + s.toNat * 262144 + v.toNat * 131072 + l.toNat * 16384
  | .wgo s v l => 1616904192 + s.toNat * 262144 + v.toNat * 131072 + l.toNat * 16384
  | .aadd d a b s => 1619001344 + d.toNat * 65536 + a.toNat * 2048 + b.toNat * 64 + s.toNat * 16
  | .amin d a b s => 1621098496 + d.toNat * 65536 + a.toNat * 2048 + b.toNat * 64 + s.toNat * 16
  | .amax d a b s => 1623195648 + d.toNat * 65536 + a.toNat * 2048 + b.toNat * 64 + s.toNat * 16
  | .aor d a b s => 1625292800 + d.toNat * 65536 + a.toNat * 2048 + b.toNat * 64 + s.toNat * 16
  | .aand d a b s => 1627389952 + d.toNat * 65536 + a.toNat * 2048 + b.toNat * 64 + s.toNat * 16
  | .axchg d a b s => 1629487104 + d.toNat * 65536 + a.toNat * 2048 + b.toNat * 64 + s.toNat * 16
  | .acas d a b s => 1631584256 + d.toNat * 65536 + a.toNat * 2048 + b.toNat * 64 + s.toNat * 16
  | .rqld d a i => 1633681408 + d.toNat * 65536 + a.toNat * 2048 + i.toNat
  | .rqcommit d a b => 1635778560 + d.toNat * 65536 + a.toNat * 2048 + b.toNat * 64
  | .rqend => 1637875712
  | .condw a b => 1639972864 + a.toNat * 2048 + b.toNat * 64
  | .maprd d a => 1642070016 + d.toNat * 65536 + a.toNat * 2048
  | .mapack a => 1644167168 + a.toNat * 2048
  | .wjopen a => 1646264320 + a.toNat * 2048
  | .wjput d a b => 1648361472 + d.toNat * 65536 + a.toNat * 2048 + b.toNat * 64
  | .wjcommit => 1650458624
  | .wjabort => 1652555776
  | .wjstat d a => 1654652928 + d.toNat * 65536 + a.toNat * 2048
  | .pwrhint s => 1656750080 + s.toNat
  | .cropen i o => 1658847232 + i.toNat * 262144 + o.toNat
  | .crclose i => 1660944384 + i.toNat * 262144
  | .fret => 1663041536
  | .fretN => 1663041544
  | .fltrd d k => 1665138688 + d.toNat * 65536 + k.toNat
  | .diagst a b => 1667235840 + a.toNat * 2048 + b.toNat * 64
  | .diagld d a b => 1669332992 + d.toNat * 65536 + a.toNat * 2048 + b.toNat * 64
  | .rqflt a b => 1671430144 + a.toNat * 2048 + b.toNat * 64
  | .bundleIssue => 0
  | .resultLanding => 0
  | .mmaLanding => 0
  | .accsclLanding => 0
  | .bankConflictServe => 0
  | .deferredInboundWrite => 0
  | .apertureWritePerform => 0
  | .landingDataArrival => 0
  | .landingDue => 0
  | .freezeTimeout => 0
  | .copyCommandStart => 0
  | .copyBeat => 0
  | .copyCommandComplete => 0
  | .cpyxAcknowledgment => 0
  | .segmentStart => 0
  | .taskStart => 0
  | .segmentEnd => 0
  | .graphWalkCond => 0
  | .graphWalkWhile => 0
  | .graphWalkEnd => 0
  | .boundarySignal => 0
  | .phaseRelease => 0
  | .winnowBoundary => 0
  | .tileWake => 0
  | .tileWakeComplete => 0
  | .tileEntryComplete => 0
  | .submit => 0
  | .submitRetry => 0
  | .cancel => 0
  | .launch => 0
  | .wait => 0
  | .waitConditionMet => 0
  | .waitUnmapTimeout => 0
  | .armTimer => 0
  | .timerDisarm => 0
  | .weightWrite => 0
  | .fencePacket => 0
  | .tailWrite => 0
  | .queueEnable => 0
  | .queueDisable => 0
  | .queueMap => 0
  | .granaryWatchdogExpiry => 0
  | .featureLock => 0
  | .gtrefRead => 0
  | .deviceRegisterWrite => 0
  | .ringStart => 0
  | .ringStop => 0
  | .timerWheelTick => 0
  | .bindTakePartition => 0
  | .bindEnd => 0
  | .partitionHalt => 0
  | .contextSwap => 0
  | .partitionResume => 0
  | .contextRestore => 0
  | .shootdownEffect => 0
  | .migrationCopyPass => 0
  | .migrationWindowEnd => 0
  | .sheafChange => 0
  | .mapackMissed => 0
  | .tileReplaced => 0
  | .externalWrite => 0
  | .ethernetFrame => 0
  | .ptpEventMessage => 0
  | .ptpReferenceRenewal => 0
  | .ringRepair => 0
  | .journalPulse => 0
  | .journalVerify => 0
  | .faultRecordWrite => 0
  | .trapPauseTimeout => 0
  | .scrub => 0
  | .mramRowRewrite => 0
  | .lpddrChannelLoss => 0
  | .linkRetrain => 0
  | .linkLoss => 0
  | .powerLoss => 0
  | .supplyGood => 0
  | .coldReset => 0
  | .boot => 0
  | .bootStepTimeout => 0
  | .lifeCycleChange => 0
  | .getTdispVersion => 0
  | .getTdispCapabilities => 0
  | .lockInterfaceRequest => 0
  | .getDeviceInterfaceReport => 0
  | .getDeviceInterfaceState => 0
  | .startInterfaceRequest => 0
  | .stopInterfaceRequest => 0
  | .ideFailure => 0
  | .ptpTimeLost => 0
  | .stagingEntryDrain => 0
  | .spillCopyPerform => 0
  | .supplyCollapse => 0

/-- The slot of a word by its class (R164): 0 S, 1 V, 2 M, 3 C, and 4 for class 7, which has none. -/
def slotOf (w : Nat) : Nat :=
  match opcode w / 128 with
  | 0 => 0
  | 1 => 0
  | 2 => 1
  | 3 => 1
  | 4 => 2
  | 5 => 3
  | 6 => 0
  | _ => 4

/-- CH (R162): the next word belongs to the same bundle. -/
def chained (w : Nat) : Bool := fld w 31 1 == 1

/-- The extent of a bundle: up to the first word with CH = 0, or the sixth (R359). -/
def extent : List Nat → List Nat
  | ws => go 6 ws
where
  go : Nat → List Nat → List Nat
    | 0, _ => []
    | _, [] => []
    | n + 1, w :: ws => if chained w && n != 0 then w :: go n ws else [w]

/-- The units of the words of a bundle in position order, as fault records number them (R341): 0 S, 1 V0, 2 V1,
3 M, 4 C0, 5 C1; `none` where the order or the counts of R164 are broken. Words of class 7 take unit 255. -/
def placeUnits : Nat → List Nat → Option (List Nat)
  | _, [] => some []
  | last, w :: ws =>
    match slotOf w with
    | 0 => if last == 0 then (placeUnits 1 ws).map (0 :: ·) else none
    | 1 => if last ≤ 1 then (placeUnits 2 ws).map (1 :: ·)
           else if last == 2 then (placeUnits 3 ws).map (2 :: ·) else none
    | 2 => if last ≤ 3 then (placeUnits 4 ws).map (3 :: ·) else none
    | 3 => if last ≤ 4 then (placeUnits 5 ws).map (4 :: ·)
           else if last == 5 then (placeUnits 6 ws).map (5 :: ·) else none
    | _ => (placeUnits last ws).map (255 :: ·)

/-- A bundle of `n` words at word index `k` of the text crosses at most one packet boundary (R163, R166). -/
def crossesTwice (k n : Nat) : Bool := (k + n - 1) / 3 - k / 3 > 1

/-- What a decoded bundle is refused for (R360). -/
inductive BundleError where
  /-- 0x0202 BUNDLE_MALFORMED. -/
  | malformed
  /-- 0x0201 NOT_INSTRUCTION, with the unit of the word. -/
  | notInstruction (unit : Nat)
  deriving DecidableEq, Repr

/-- One word of a bundle with its unit (R341 numbers). -/
structure Placed where
  unit : Nat
  instr : Instr
  deriving DecidableEq, Repr

/-- The words of a well-placed extent, or the first that is not an instruction (R360). -/
def decodeWords : List Nat → List Nat → Except BundleError (List Placed)
  | u :: us, w :: ws =>
    match decodeWord w with
    | .error _ => .error (.notInstruction u)
    | .ok i =>
      match decodeWords us ws with
      | .ok ps => .ok (⟨u, i⟩ :: ps)
      | .error e => .error e
  | _, _ => .ok []

/-- Decoding of an extent whose first word is word `k` of the text (R360): malformed before not-an-instruction. -/
def decodeBundle (k : Nat) (ws : List Nat) : Except BundleError (List Placed) :=
  match placeUnits 0 ws with
  | none => .error .malformed
  | some us =>
    if crossesTwice k ws.length || (ws.length == 6 && chained (ws.getLastD 0)) then .error .malformed
    else decodeWords us ws

/-- What the decoder reads from an instruction given as the opcode table numbers its bits: one word, little-endian
in text, bit 31 being CH; more bits than a word's make no instruction. -/
def decodeTableWord (nbits w : Nat) : Option Instr :=
  if nbits ≤ 32 then
    match decodeWord (w % 2 ^ 32) with
    | .ok i => some i
    | .error _ => none
  else none

end Sys2Proof
end

