-- ==== Sys2Proof/Config.lean ====
section
/-! DEFINITION. What an implementation fixes, and the free values the manual leaves open. A constant without a
body is a free value: nothing in Lean can evaluate it. -/
namespace Sys2Proof.Config

/-- Ticks from a global read's issue to its data, when it misses (R113, R115: typical figures, no bounds). Log 5, DESIGN CHOICE. -/
opaque arrivalDelay : Nat → Nat

/-- Ticks from a CPYX beat's leaving to its write at the target, and from there to its acknowledgment
(R266 gives no figure). Log 5, DESIGN CHOICE. -/
opaque flightDelay : Nat → Nat

/-- The acknowledgment's share of a CPYX round trip (R266). Log 5, DESIGN CHOICE. -/
opaque ackDelay : Nat → Nat

/-- Ticks after the end tick at which Winnow publishes, reduced to at most 2400 where it is used (R77). Log 5, DESIGN CHOICE. -/
opaque publishDelay : Nat → Nat

/-- Ticks from a fault to its ring write, reduced to at most 12 000 where it is used (R342). Log 5, DESIGN CHOICE. -/
opaque recordDelay : Nat → Nat

/-- Ticks before a released staging entry drains into memory (R118). Log 5, DESIGN CHOICE. -/
opaque drainDelay : Nat → Nat

/-- Ticks of a firmware service that the manual does not bound: a restore, a repair, a copy pass. Log 5, DESIGN CHOICE. -/
opaque serviceDelay : Nat → Nat

/-- Ticks from the request to a halt, reduced to at most 180 where it is used (R60). Log 5, DESIGN CHOICE. -/
opaque haltDelay : Nat → Nat

/-- Content of scratchpad byte `a` of a tile woken from OFF, in the `n`-th such wake, until written (R18). Log 6, DESIGN CHOICE. -/
opaque offByte : Nat → Nat → Byte

/-- The number of ones of a check byte is odd. -/
def oddByte (c : BitVec 8) : Bool := (List.range 8).foldl (fun p i => Bool.xor p (c.getLsbD i)) false

/-- 64 different columns with an odd number of ones each, at least three: with the eight unit columns of the check bits no sum of two or three columns is
zero, so one wrong bit is corrected and two are detected. -/
def secdedColumns (cs : List (BitVec 8)) : Bool :=
  cs.length == 64 && decide cs.Nodup && cs.all fun c => oddByte c && c &&& (c - 1) != 0

/-- The matrix of a SEC-DED code over 64 data bits, by the check byte of each. The list that stands for the default shows only that there is one. -/
structure SecdedMatrix where
  columns : List (BitVec 8) := (((List.range 256).map (BitVec.ofNat 8)).filter fun c => oddByte c && c &&& (c - 1) != 0).take 64
  good : secdedColumns columns = true := by decide +kernel
  deriving Inhabited

/-- The matrix: R347 names the code's power and not its matrix. Log 7, DESIGN CHOICE. -/
opaque secdedMatrix : SecdedMatrix

/-- The SEC-DED check byte of eight data bytes (R347): the sum of the columns of the ones. -/
def secded (d : BitVec 64) : BitVec 8 :=
  (List.range 64).foldl (fun c i => if d.getLsbD i then c ^^^ secdedMatrix.columns.getD i 0 else c) 0

/-- The eight device-code bits of one 16-byte quarter of an LPDDR-6 sector: R347 names the code's power (one 4-bit symbol
per 16 bytes corrected, two detected) and not its symbols. Log 7, DESIGN CHOICE. -/
opaque deviceCode : BitVec 128 → BitVec 8

/-- Whether the `n`-th verify read of the journal matches its image: a property of the cells (R290). Log 8, DESIGN CHOICE. -/
opaque verifyMatches : Nat → Bool

/-- Whether boot step `k` of boot `n` passes: a property of the module (R333). Log 8, DESIGN CHOICE. -/
opaque bootStepPasses : Nat → Nat → Bool

/-- A firmware image as boot finds it: its bytes, the vendor's public key and the signature that come with it (R332). -/
structure FirmwareImage where
  bytes : List Byte
  key : BitVec 256
  signature : List Byte
  deriving Inhabited, DecidableEq, Repr

/-- The image that step `k` of boot `n` verifies. Log 60, DESIGN CHOICE: the spec says nothing of where images lie. -/
opaque firmwareImage : Nat → Nat → FirmwareImage

/-- The SHA-256 digest of the vendor's public key in the ROM (R332). Log 60, DESIGN CHOICE. -/
opaque romKeyDigest : BitVec 256

/-- SLH-DSA-SHA2-128s of FIPS 205: key, message, context string, signature (R332). Log 60, DESIGN CHOICE: the manual names the standard and does not restate it. -/
opaque slhDsaVerifies : BitVec 256 → List Byte → List Byte → List Byte → Bool

/-- The number of this package in its fabric group, that firmware sets at boot, modulo 16 where it is used (R328). Log 60, DESIGN CHOICE. -/
opaque packageNumber : Nat

/-- The Nuavo links that train in boot `n` (R333). Log 60, DESIGN CHOICE. -/
opaque linksTrained : Nat → BitVec 8

/-- SHA-256 of a byte string, which the manual uses and does not define (R331). Log 11, DESIGN CHOICE. -/
opaque sha256 : List Byte → BitVec 256

/-- Byte `i` of the `n`-th forced snapshot of Winnow's per-slot state (R94): the spec gives the block no layout. Log 58, DESIGN CHOICE. -/
opaque snapshotByte : Nat → Nat → Byte

/-- Policy (modulo 3), length (0: no end) and deadline of the `n`-th bind: the Granary's, within R318 and R320. Log 23, DESIGN CHOICE. -/
opaque bindPolicy : Nat → Nat
opaque bindSpan : Nat → Nat
opaque bindDeadline : Nat → Nat

/-- The frame a migrating page goes to: the Granary's choice (R384). Log 27, DESIGN CHOICE. -/
opaque newFrame : Nat → Nat

/-- The rate that the discipline measures at the `n`-th lock, within its band where it is used (R41). Log 28, DESIGN CHOICE. -/
opaque ptpRate : Nat → Nat

/-- What TDISP's version and capability requests answer, and an interface report's version (R330, R331). Log 11, DESIGN CHOICE. -/
opaque tdispVersion : List Byte
opaque tdispCapabilities : List Byte
opaque reportVersion : BitVec 32

/-- The attested measurement that a report's digest stands for (R334). Log 11, DESIGN CHOICE. -/
opaque measurement : BitVec 256 → Nat

/-- PTP time in nanoseconds at boot `n`, where step 2 finds a lock (R41). Log 28, DESIGN CHOICE. -/
opaque bootTime : Nat → Option Nat

/-- The engine instances that survive in the `n`-th tile without a spare: nibbles of A and B (R356). Log 33, DESIGN CHOICE. -/
opaque survivors : Nat → Nat

/-- The lowest rate that a channel trains at, in Mb/s per pin (R333). Log 28, DESIGN CHOICE. -/
opaque lowestRate : Nat

/-- A CPYX beat to a lost peer that was not acknowledged has performed there (R394; log 93, DESIGN CHOICE): free value, by physical address. -/
opaque lostBeat : Nat → Nat → Bool

/-- OFFER0 of stepping B1: features 0 to 7 (R306, R307). -/
def offer0 : W64 := 0xFF

end Sys2Proof.Config
end

