-- ==== Sys2Proof/Machine/State.lean ====
section
/-! DEFINITION. The state of a package as plain data: every piece the spec names (INVENTORY.md, State), the outcomes'
reason types, and the state after cold reset. Sparse maps list only what differs from the default that their reader
names. Fields marked MODEL are the model's own. -/
namespace Sys2Proof.Machine

/-- Why the machine stops. Every fault of the spec is taken inside the machine, so this is not a list of them. -/
inductive Fault where
  /-- Raised by `step` on a device without supply and without an input to come (R335: UNPOWERED). Safe: a device
  without supply does nothing. -/
  | unpowered
  deriving DecidableEq, Repr

/-- Why an operation has no meaning here. -/
inductive Refusal where
  /-- An operation rejected by name. Safe. -/
  | notModelled (mnemonic : String)
  deriving DecidableEq, Repr

/-- What a fault record says of the fault itself (R341). -/
structure FaultInfo where
  code : Nat := 0
  unit : Nat := 255
  step : Nat := 0
  bundle : Nat := 0
  addr : Nat := 0
  rindex : Nat := 0xFFFFFFFF
  detail : Nat := 0
  aux0 : Nat := 0
  aux1 : Nat := 0
  injected : Bool := false
  deriving DecidableEq, Repr

/-- A fault record (R341): the fault, and where and how it was taken. -/
structure FaultRecord where
  info : FaultInfo := {}
  level : Nat := 0
  escalated : Bool := false
  lost : Bool := false
  tick : Nat := 0
  tile : Nat := 0xFFFF
  seq : Nat := 0xFF
  /-- the ring index it is to be written at -/
  ring : Nat := 0
  depth : Nat := 0
  region : Nat := 0xFF
  deriving DecidableEq, Repr

/-- Poison read with data: the code of its consumption, the address, whether injected (R348, R352), and the syndrome that the code found
(R341; log 49, DEDUCED). -/
structure Poison where
  code : Nat
  addr : Nat
  injected : Bool
  syndrome : Nat := 0
  deriving DecidableEq, Repr

/-- The states of a landing slot (R53). -/
inductive SlotState where
  | empty | pending | held | full
  deriving DecidableEq, Repr

/-- A landing slot: its state, arrival step, bytes, poison, and whether its data has still to land. -/
structure Landing where
  st : SlotState := .empty
  arrival : Nat := 0
  data : Vec := 0
  poison : Option Poison := none
  /-- a CGET waits for a command of this queue to complete (R272): queue, 1 for the expected value, place of the command, from 1 -/
  awaits : Option (Nat × Nat × Nat) := none
  /-- MODEL: ticket of the request, 0 where no data comes: data of a discarded request lands nowhere, and data of a saved one where the context is -/
  ticket : Nat := 0
  /-- requested in handler mode: `arrival` counts handler steps (R344) -/
  handler : Bool := false
  /-- its wait has timed out and was given up by FRET.N (R383) -/
  given : Bool := false
  /-- the physical address its data comes from (R394) -/
  source : Nat := 0
  deriving DecidableEq, Repr

/-- MODEL. Which word the step is issuing: tile, sequencer (0 A, 1 B), unit, addresses of the word, its bundle and
the text that follows the bundle; the fault a word of the bundle raised. -/
structure Cursor where
  tile : Nat := 0
  seq : Nat := 0
  unit : Nat := 0
  word : Nat := 0
  bundle : Nat := 0
  next : Nat := 0
  /-- the arguments of the event that runs, and the bytes it brings -/
  args : List Nat := []
  bytes : List Byte := []
  /-- the landing slots as they stood before the bundle (R53) -/
  slots : Map Landing := []
  raised : Option FaultInfo := none
  /-- the words that the fetched bundle has still to issue: unit and operation -/
  words : List (Nat × Instr) := []
  deriving DecidableEq, Repr

/-- One write to a scratchpad: byte addresses with bytes, in ascending or any order. -/
structure LocalWrite where
  bytes : Map Byte
  /-- sequencer number of the writer, for the order of adds (R130) -/
  issuer : Nat := 0
  poison : Option Poison := none
  /-- DIAGST: the stored check bits that make the word injected (R375) -/
  checks : Option (BitVec 64) := none
  /-- a REDC beat adds binary32 elements instead of storing them (R268) -/
  add : Bool := false
  deriving DecidableEq, Repr

/-- A write to global memory on its way (R118, R131): physical byte addresses with bytes. -/
structure GlobalWrite where
  bytes : Map Byte
  scope : Nat := 0
  poison : Option Poison := none
  /-- a REDC beat: binary32 elements to add at release (R268) -/
  add : Bool := false
  /-- bytes of an add that a later write of its party, released before it, has settled (R118, R268) -/
  settled : List Nat := []
  /-- DIAGST on LPDDR-6: the stored device code (R375) -/
  code : Option (BitVec 32) := none
  /-- a CPYX beat to a peer: the slot and start step of its command, and its number (R394) -/
  beat : Option (Nat × Nat × Nat) := none
  deriving DecidableEq, Repr

/-- What a result in flight does when it lands or performs (R49, R177, R179). -/
inductive Act where
  /-- scalar register -/
  | g (r : Nat) (val : W64)
  /-- physical vector register, by byte mask -/
  | v (phys : Nat) (mask : BitVec 64) (val : Vec)
  /-- physical predicate register -/
  | p (phys : Nat) (val : W64)
  /-- VNARROW: vector register by bit mask and residue register by byte mask together (R229) -/
  | narrow (phys : Nat) (mask : Vec) (val : Vec) (r : Nat) (qmask : BitVec 64) (qval : Vec)
  /-- control register (MTC, LOOP, TSHAPE) -/
  | ctl (n : Nat) (val : W64)
  /-- a row of a TLD or TLDM is sampled from offset `src` of the scratchpad, or of weight MRAM through the physical row that
  the map named at issue (R105); it lands nine or fifteen steps later (R243, R244) -/
  | tileFetch (t row n src : Nat) (phys : Option Nat)
  /-- one row of a tile register (R243) -/
  | tileRow (t row : Nat) (bytes : List Byte)
  /-- a whole tile register, with its shape under TTR (R246, R247) -/
  | tileAll (t : Nat) (bytes : Map Byte) (shape : Option W64)
  /-- MMA, MMAS: the sums, the number of live rows, the right side of the checksum under .CK (R249, R252) -/
  | mma (a : Nat) (zero : Bool) (live : Nat) (sums : Map (BitVec 40)) (rhs : Option (BitVec 40))
  /-- ACCZ -/
  | accz (a : Nat)
  /-- ACCSCL: accumulator and scales as read at issue (R256) -/
  | accscl (o : Nat) (acc : Map (BitVec 40)) (sa sb : List (BitVec 16))
  /-- OZERO -/
  | ozero (o : Nat)
  /-- OWR: one row of an output register -/
  | orow (o row : Nat) (vals : List (BitVec 32))
  /-- a local store performs (R127) -/
  | store (w : LocalWrite)
  /-- DIAGST to a parity word (R375) -/
  | parity (bank word : Nat) (val : Vec) (checks : BitVec 64)
  /-- DIAGST to weight MRAM: an overlay (R375) -/
  | overlay (addr : Nat) (val : Vec) (checks : BitVec 41)
  /-- STX, VSTX: into the L1, the staging buffer or, where `aperture` says so, an aperture (R195, R238, R412) -/
  | global (w : GlobalWrite) (nc aperture : Bool)
  /-- CONDW (R284) -/
  | cond (mask val : BitVec 32)
  /-- MAPACK (R286) -/
  | mapack (version : W64)
  /-- CROPEN (R371) -/
  | regionPush (id addr : Nat)
  /-- CRCLOSE (R372) -/
  | regionPop
  /-- CSEED: queue, running value if it changes, expected value (R271) -/
  | seed (c : Nat) (run : Option (BitVec 32)) (expect : BitVec 32)
  /-- WJOPEN accepted or out of rows (R288) -/
  | wjOpen (rows : Nat)
  /-- WJCOMMIT (R291) -/
  | wjCommit
  /-- DIAGLD's descriptor, a local write (R376) -/
  | diagDesc (w : LocalWrite)
  deriving DecidableEq, Repr

/-- A result in flight (R49, R61): landing step, issue step, unit and bundle it came from, its flags (R151), poison it
carries, and an error of the hardware in it, zero where the hardware has not erred (R349, log 8, DESIGN CHOICE). -/
structure Flight where
  step : Nat
  issue : Nat
  unit : Nat
  bundle : Nat
  act : Act
  flags : BitVec 5 := 0
  poison : Option Poison := none
  upset : Vec := 0
  /-- its word read a register with a parity error (R347) -/
  parity : Bool := false
  /-- the shadowed operation with its operands (R349): operation, element size, lanes a, b, d, active bytes -/
  shadow : Option (Nat × Nat × Vec × Vec × Vec × BitVec 64) := none
  deriving DecidableEq, Repr

/-- A line of the L1 (R114). The L1 lists its lines most recently used first. -/
structure Line where
  tag : Nat
  valid : BitVec 4 := 0
  dirty : BitVec 256 := 0
  scope : Nat := 0
  data : BitVec 2048 := 0
  poison : Map Poison := []
  deriving DecidableEq, Repr

/-- A TLB entry (R111): page base, size, physical base, permissions. The TLB lists its entries most recently
used first. -/
structure TlbEntry where
  va : Nat
  size : Nat
  pa : Nat
  writable : Bool
  nc : Bool
  deriving DecidableEq, Repr

/-- The nine transfer commands (R263). -/
inductive CopyKind where
  | cpy | cpym | cpyg | cpyw | cpymc | cpyx | gath | scat | redc
  deriving DecidableEq, Repr

/-- A command of a copy queue (R261). -/
structure Command where
  kind : CopyKind
  src : Nat
  dst : Nat
  len : Nat
  start : Nat
  sc : Nat
  fold : Bool
  compare : Bool
  last : Bool
  issue : Nat
  bundle : Nat
  /-- the tick of its issue -/
  tick : Nat := 0
  /-- translated at its start step: 32 KiB page of the global side with its physical base (R261); of a CPYM the row map, logical
  row with its physical row (R264) -/
  pages : Option (Map Nat) := none
  /-- beats read so far, and beats performed -/
  read : Nat := 0
  done : Nat := 0
  /-- beats read and not yet performed: index, bytes, poison -/
  moving : List (Nat × List Byte × Option Poison) := []
  /-- ticks at which CPYX beats are acknowledged, oldest first, with the bytes as the target wrote them (R266, R270) -/
  acks : List (Nat × List Byte) := []
  acked : Nat := 0
  /-- ticks at which the data of CPYG and GATH beats arrives, oldest first (R264) -/
  arrivals : List Nat := []
  /-- beats on their way to an inbound port under .CS, with the bytes to fold when they perform (R270) -/
  unfolded : List (Nat × List Byte) := []
  deriving DecidableEq, Repr

/-- A copy queue with its CRC registers (R261, R269). -/
structure CopyQueue where
  cmds : List Command := []
  /-- the command queued last is still among them, at the end (R272) -/
  recent : Bool := false
  /-- first start step the next command may take: the last queued command's end (R261) -/
  free : Nat := 0
  run : BitVec 32 := 0
  expect : BitVec 32 := 0
  fault : Bool := false
  deriving DecidableEq, Repr

/-- A boundary of the timetable left to a task (R40, R276). -/
structure Boundary where
  kind : Nat
  /-- scope code, or level index + 128 -/
  scope : Nat
  e : Nat
  g : Nat
  deriving DecidableEq, Repr

/-- A hold at a boundary (R29, R132): its signal step and latency, its scope code, whether it is a phase boundary, the tick
and the task step of its issue, whether the signal has come. -/
structure Hold where
  g : Nat
  lat : Nat
  scope : Nat
  phase : Bool
  issued : Nat
  step : Nat := 0
  signalled : Bool := false
  deriving DecidableEq, Repr

/-- Handler mode (R343, R344): the task step H, the handler clock, the target once FRET has issued, and the
task's skip count. -/
structure Handler where
  h : Nat
  clock : Nat := 0
  ret : Option Nat := none
  /-- the bundle due at H (R368) -/
  due : Nat := 0
  /-- bundles the interrupted task had still to skip (R203) -/
  skip : Nat := 0
  /-- the engine flags of the task steps H - 1 and H - 2 (R180) -/
  flags1 : BitVec 16 := 0
  flags2 : BitVec 16 := 0
  /-- MODEL: the tick of the last fault that a handler was entered for (R340, R345) -/
  entered : Nat := 0
  deriving DecidableEq, Repr

/-- The run states of a sequencer's task (R27, R52, R339). -/
inductive RunState where
  | idle | running | halted | stopped
  deriving DecidableEq, Repr

/-- A sequencer (R15, R173). -/
structure Seq where
  run : RunState := .idle
  task : Nat := 0
  rank : Nat := 0
  pc : Nat := 0x08000000
  t0 : Nat := 0
  clock : Nat := 0
  slip : Nat := 0
  waitUntil : Nat := 0
  skipLeft : Nat := 0
  /-- MODEL: the bundle of the current tick has been taken -/
  taken : Bool := false
  g : Map W64 := []
  v : Map Vec := []
  p : Map W64 := []
  q : Map Vec := []
  l : Map Landing := []
  t : Map (Map Byte) := []
  a : Map (Map (BitVec 40)) := []
  o : Map (Map (BitVec 32)) := []
  ras : List Nat := []
  vrb : BitVec 5 := 0
  prb : BitVec 2 := 0
  lc : Map (BitVec 32) := []
  skipm : BitVec 32 := 0
  segbase : BitVec 21 := 0
  fprm : BitVec 2 := 0
  fpflags : BitVec 5 := 0
  mapver : W64 := 0
  slotmap : W64 := 0
  ts : Map W64 := []
  lvl : Map (BitVec 32) := []
  /-- open containment regions, outermost first: id and handler (R346) -/
  regions : List (Nat × Nat) := []
  handler : Option Handler := none
  /-- further faults due at H, already recorded (R345) -/
  pending : List FaultRecord := []
  /-- the record that the failure registers and FLTRD show (R370, R374) -/
  record : Option FaultRecord := none
  fstep : W64 := 0
  fresume : W64 := 0
  fscr0 : W64 := 0
  fscr1 : W64 := 0
  flights : List Flight := []
  hflights : List Flight := []
  l1 : List Line := []
  tlb : List TlbEntry := []
  c0 : CopyQueue := {}
  c1 : CopyQueue := {}
  bounds : List Boundary := []
  hold : Option Hold := none
  /-- first step at which the sequencer's share of the array accepts (R253), and the mode of the last MMA (R254) -/
  arrayFree : Nat := 0
  arrayMode : BitVec 2 := 0
  scaleFree : Nat := 0
  /-- array, scale and shadow fault flags of R201: bit 0 array, bit 1 scale unit, bit 4 journal -/
  faultFlags : BitVec 8 := 0
  /-- engine flags as they stood one and two steps ago: completion in bits 6 to 0, fault in bits 14 to 8 (R180) -/
  flags1 : BitVec 16 := 0x1F
  flags2 : BitVec 16 := 0x1F
  /-- engines whose fault falls in the current step (R201) -/
  faultNow : BitVec 8 := 0
  /-- registers with a parity error (R347): storage kind and number, both as R347's row orders them (log 50) -/
  parityErrors : List (Nat × Nat) := []
  hint : Option Nat := none
  /-- copy commands a WGO waits for: queue 0 to 3 of the tile and its count of commands (R279) -/
  waitGo : List (Nat × Nat) := []
  /-- DIAGLD reads of global sectors on their way: step at which the data is due, tick at which it is there, whether issued
  in handler mode (R376) -/
  diagWaits : List (Nat × Nat × Bool) := []
  /-- the wait that freezes the tile has timed out once (R383) -/
  timedOut : Bool := false
  deriving DecidableEq, Repr

/-- The power states of a tile (R18). -/
inductive PowerState where
  | active | idle | retain | off
  deriving DecidableEq, Repr

/-- What ends a transition of a tile's power state, and when (R19). -/
inductive PowerMove where
  | none
  | entering (target : PowerState) (until_ : Nat)
  | waking (until_ : Nat)
  deriving DecidableEq, Repr

/-- Marks of a stored 64-byte scratchpad word (R347, R348, R352). -/
structure WordMark where
  poison : Option Poison := none
  injected : Bool := false
  checks : Option (BitVec 64) := none
  /-- stored data bits that have turned by themselves (R347; log 50) -/
  wrong : Vec := 0
  deriving DecidableEq, Repr

/-- A parity word that differs from the XOR of its group: stale by one step, or injected (R100, R347). -/
structure ParityWord where
  val : Vec
  injected : Bool := false
  checks : Option (BitVec 64) := none
  /-- a read of it has found an error that its code does not correct (R347) -/
  found : Bool := false
  deriving DecidableEq, Repr

/-- An MRAM overlay (R375). -/
structure Overlay where
  /-- byte offset of the 64-byte word -/
  addr : Nat
  val : Vec
  checks : BitVec 41
  deriving DecidableEq, Repr

/-- The journal's transaction states (R287). -/
inductive JournalState where
  | idle | open_ | committing | failed
  deriving DecidableEq, Repr

/-- A put of the journal (R289). -/
structure Put where
  row : Nat
  offset : Nat
  bytes : List Byte
  /-- by 64-byte word of the put -/
  poison : Map Poison := []
  issued : Nat
  /-- the physical row it writes, once taken, the row whose content its image starts from, and attempts made -/
  target : Option Nat := none
  base : Nat := 0
  /-- the row's image, formed before its first pulse, with the poison of its 64-byte words (R289, R407) -/
  image : List Byte := []
  marks : Map Poison := []
  fresh : Bool := false
  attempts : Nat := 0
  deriving DecidableEq, Repr

/-- The weight journal of a tile (R287 to R293, R406, R407). -/
structure Journal where
  st : JournalState := .idle
  /-- the opening sequencer; 2 for the Granary -/
  owner : Nat := 0
  ctx : Nat := 0
  /-- reserved physical rows not yet taken, ascending -/
  reserved : List Nat := []
  /-- logical rows written, with their shadow rows -/
  shadows : Map Nat := []
  /-- the content of shadow rows stands in MRAM; puts still to do, the first in progress -/
  puts : List Put := []
  /-- tick at which the next attempt is to begin; an attempt in progress: tick of its pulse -/
  due : Option Nat := none
  pulse : Option Nat := none
  /-- the map image write in progress: attempts made -/
  mapWrite : Option Nat := none
  aborting : Bool := false
  code : Nat := 0
  att : Nat := 0
  rows : Nat := 0
  limit : Nat := 0
  first : Nat := 0
  /-- completion tick of the last put (R407) -/
  idleAt : Nat := 0
  /-- run by the Granary for a WEIGHT_WRITE of this queue (R313) -/
  queue : Option Nat := none
  /-- stopped by a pre-emption (R287) -/
  paused : Bool := false
  deriving DecidableEq, Repr

/-- One use of a port in the current step (R98, R99, R104, R356): ports 0 to 15 are the data banks, 16 is the MRAM read
port, 32 + n is execution instance n of the tile. -/
structure BankUse where
  port : Nat
  write : Bool
  rank : Nat
  /-- the 64-byte word read, and whether the read must be rebuilt (R347, R357) -/
  word : Nat := 0
  rebuild : Bool := false
  deriving DecidableEq, Repr

/-- A reservation of a bank by an atomic for three steps (R102). -/
structure Reservation where
  bank : Nat
  /-- device ticks are not used: `left` steps remain, the current one included -/
  left : Nat
  seq : Nat
  /-- clock of the issuing sequencer at issue -/
  issue : Nat
  /-- made by a handler, whose steps it counts (R344) -/
  handler : Bool := false
  deriving DecidableEq, Repr

/-- A write at an inbound port (R101, R128): tick from which it may perform, issuing sequencer, multicast or not. -/
structure Inbound where
  due : Nat
  issuer : Nat
  multicast : Bool
  write : LocalWrite
  /-- it found its port taken at an earlier tick -/
  deferred : Bool := false
  /-- the beat it is: queue slot and start step of its command, and its number (R261) -/
  cmd : Option (Nat × Nat × Nat) := none
  /-- it came through the scratchpad aperture, where an issuer's writes keep their order (R412) -/
  aperture : Bool := false
  /-- a CPYX beat: `due` is its arrival's tick (R266) -/
  arrival : Bool := false
  deriving DecidableEq, Repr

/-- A trap pause of a tile (R343 to R345): the sequencers still to run their handlers, the tick from which the first of them
runs, the ticks the pause has lasted. -/
structure Trap where
  order : List Nat
  since : Nat
  ticks : Nat := 0
  deriving DecidableEq, Repr

/-- The saved context in a tile's shadow SRAM (R63, R64). -/
structure Shadow where
  ctx : Nat
  a : Seq
  b : Seq
  window : Map Byte
  /-- poison of the window, by 64-byte scratchpad word (R348) -/
  windowPoison : Map Poison := []
  mxmode : BitVec 2
  haltTick : Nat
  trap : Option Trap := none
  owed : Nat := 0
  frozenFor : Nat := 0
  frozenBy : Nat := 0
  reservations : List Reservation := []
  /-- the image holds an error that its code does not correct (R347) -/
  unreadable : Bool := false
  /-- packages lost since the save to which its copy queues had unacknowledged beats (R394) -/
  lost : List Nat := []
  /-- inbound writes that an atomic in flight keeps off their bank (R102) -/
  inbound : List Inbound := []
  deriving DecidableEq, Repr

/-- A tile (the table before R15). -/
structure Tile where
  power : PowerState := .off
  move : PowerMove := .none
  /-- the context whose partition holds the tile -/
  ctx : Option Nat := none
  a : Seq := {}
  b : Seq := {}
  spad : List Host.Cell := []
  /-- scratchpad bytes undefined since the last OFF: list of [lo, hi) ranges, and which wake (R18) -/
  undef : List (Nat × Nat) := []
  /-- what contexts have left in the scratchpad with the tile: context and [lo, hi), less what has been written since (R396) -/
  left : List (Nat × Nat × Nat) := []
  wake : Nat := 0
  marks : Map WordMark := []
  parity : Map ParityWord := []
  /-- parity words due for their update in the next step, with the byte mask (R100) -/
  parityDue : Map (BitVec 64) := []
  reservations : List Reservation := []
  uses : List BankUse := []
  /-- local writes performing in the current step, by step and in the order of R98 -/
  writes : List (Nat × LocalWrite) := []
  /-- DIAGST writes to parity words performing in the current step: group, word, value, check bytes (R375) -/
  parityNow : List (Nat × Nat × Vec × BitVec 64) := []
  /-- MODEL: banks that the atomics of the current step reserve (R102) -/
  atomicNow : List Nat := []
  inbound : List Inbound := []
  mram : List Host.Cell := []
  rowMap : Map Nat := []
  wear : Map Nat := []
  retiredRows : List Nat := []
  overlays : List Overlay := []
  /-- wrong cells of weight MRAM, by physical 64-byte word (R347; log 50) -/
  cellErrors : List Overlay := []
  /-- poisoned 64-byte words by physical number, 16 per physical row (R347, R348) -/
  mramPoison : Map Poison := []
  retiredBanks : BitVec 20 := 0
  rebuilds : Map Nat := []
  corrected : Map Nat := []
  journal : Journal := {}
  mxmode : BitVec 2 := 0
  /-- freeze ticks owed (bank conflicts, FENCE write-backs), whether this tick is a freeze, and its length so far -/
  owed : Nat := 0
  frozen : Bool := false
  frozenFor : Nat := 0
  /-- the sequencer whose wait froze the tile, for 0x0108 (R57) -/
  frozenBy : Nat := 0
  /-- MODEL: the tick is frozen by a wait (R54); the tick has been decided to run, freeze or trap -/
  waiting : Bool := false
  settled : Bool := false
  /-- MODEL: the tick's writes have performed -/
  written : Bool := false
  trap : Option Trap := none
  /-- its physical tile has failed and waits for its spare (R355) -/
  failed : Bool := false
  /-- tick of the tile's last fault at partition level (R340) -/
  partTick : Option Nat := none
  halt : Option Nat := none
  shadow : Option Shadow := none
  deriving DecidableEq, Repr

/-- A staging entry (R118): one 64-byte sector's bytes of one party at one scope. -/
structure StagingEntry where
  /-- sequencer number of the party (R13) -/
  party : Nat
  /-- tick of its (latest) write -/
  tick : Nat
  write : GlobalWrite
  /-- wrong stored bits, by bit of the 64-byte word (R347; log 50) -/
  wrong : List Nat := []
  deriving DecidableEq, Repr

/-- Per-die state: the staging buffer, with entries released and not yet drained counted in, and the commit log. -/
structure Die where
  staging : List StagingEntry := []
  commitLog : Map Nat := []
  deriving DecidableEq, Repr

/-- An external write in the I/O die's ingress staging (R136, R403): target context, agent, physical bytes. -/
structure ExternalWrite where
  ctx : Nat
  agent : Nat
  arrived : Nat
  write : GlobalWrite
  deriving DecidableEq, Repr

/-- Marks of an LPDDR-6 sector (R347, R348, R352). -/
structure SectorMark where
  poison : Option Poison := none
  injected : Bool := false
  code : Option (BitVec 32) := none
  deriving DecidableEq, Repr

/-- Winnow's cached copy of a request record with its slot (R67, R69, R79). -/
structure Request where
  state : Nat := 0
  class_ : Nat := 0
  slot : Nat := 0xFFFF
  id : Nat := 0
  position : Nat := 0
  prompt : Nat := 0
  maxNew : Nat := 0
  generated : Nat := 0
  deadline : Nat := 0
  priority : Nat := 0
  rank : Nat := 0xFFFF
  fault : Nat := 0
  flags : Nat := 0
  pageList : Nat := 0
  pages : Nat := 0
  capacity : Nat := 0
  stops : List Nat := []
  mode : Nat := 0
  topK : Nat := 0
  topP : Nat := 0
  temperature : Nat := 0
  width : Nat := 0
  depth : Nat := 0
  seed : Nat := 0
  draw : Nat := 0
  ring : Nat := 0
  arrival : Nat := 0
  /-- frames held, in page-list order; those below `spilled` lie in the spill area -/
  frames : List Nat := []
  /-- frames still being copied to the spill area: pool frame and spill frame (R83) -/
  spilling : List (Nat × Nat) := []
  rows : Nat := 0
  rowStart : Nat := 0
  used : Nat := 0
  kind : Nat := 0
  entryFlags : Nat := 0
  first : Bool := false
  changed : Bool := false
  /-- tokens committed at this boundary, to be written at Publish: ring entry and token (R80, R87) -/
  tokens : List (Nat × Nat) := []
  deriving DecidableEq, Repr

/-- A buffered commit (R282). -/
structure Commit where
  slot : Nat
  token : Nat
  draft : Bool
  deriving DecidableEq, Repr

/-- A fault attributed to a slot in the iteration (R89, R380). -/
structure SlotFault where
  slot : Nat
  info : FaultInfo
  tick : Nat
  tile : Nat
  seq : Nat
  more : Nat := 0
  deriving DecidableEq, Repr

/-- Winnow of one context (R73 to R87, R95). -/
structure Winnow where
  table : Nat := 0
  entries : Nat := 1
  tpp : Nat := 1
  poolList : Nat := 0
  poolCount : Nat := 0
  spillCount : Nat := 0
  spillList : Nat := 0
  segOffset : Nat := 0
  stateBlock : Nat := 0
  reqs : Map Request := []
  /-- the frames of both lists in their order, and those free -/
  pool : List Nat := []
  spills : List Nat := []
  freePool : List Nat := []
  freeSpill : List Nat := []
  /-- records whose frames are still being copied, earliest evicted first, and the copies since the last boundary (R83) -/
  spillQueue : List Nat := []
  copied : Nat := 0
  commits : List Commit := []
  faults : List SlotFault := []
  cancels : List Nat := []
  iteration : Nat := 0
  published : Nat := 0
  publishTick : Nat := 0
  /-- records as last published, by slot, for RQLD (R281) -/
  slots : Map (Nat × Request) := []
  q0 : Nat := 0
  q1 : Nat := 0
  q2 : Nat := 0
  q3 : Nat := 0
  q4 : Nat := 0
  /-- a LAUNCH has been consumed since the last boundary (R70) -/
  recheck : Bool := false
  /-- a boundary is under way from this end tick on: its segment (R77) -/
  closing : Option Nat := none
  deriving DecidableEq, Repr

/-- The launch in progress: the record's figures (R36), where its image lies, whom to complete. -/
structure Launch where
  record : Nat
  image : Nat
  levels : List Nat
  strict : Bool
  deepest : Nat
  vregs : Nat
  tregs : Nat
  lslots : Nat
  accs : Nat
  outs : Nat
  mxmode : Nat
  first : Nat
  start : Nat
  slots : Nat
  rows : Nat
  position : Nat
  draft : Nat
  window : Nat
  windowLen : Nat
  queue : Nat
  tag : Nat
  silent : Bool
  armed : Bool := false
  deriving DecidableEq, Repr

/-- A task of the running segment: its entry index, start tick, whether started. -/
structure TaskRun where
  index : Nat
  seqNum : Nat
  start : Nat
  started : Bool := false
  deriving DecidableEq, Repr

/-- How a context's partition stands (R60 to R65, R339). -/
inductive PartState where
  | unbound | running | halting | halted | swapped | suspended
  deriving DecidableEq, Repr

/-- A serving context (R23). -/
structure Ctx where
  created : Bool := false
  root : Nat := 0
  cond : W64 := 0
  launch : Option Launch := none
  part : PartState := .unbound
  tiles : List Nat := []
  bind : Option Nat := none
  node : Nat := 0
  /-- the node that the walk came from, none at the launch record's first node (R32) -/
  prev : Option Nat := none
  passes : Map Nat := []
  seg : Option Nat := none
  /-- the segment that the walk has chosen to run next, and the tick of the next segment's start (R34) -/
  chosen : Option Nat := none
  nextStart : Nat := 0
  segStart : Nat := 0
  segEnd : Nat := 0
  tasks : List TaskRun := []
  rqend : Bool := false
  /-- start checks of the segment failed: no later start (R28) -/
  blocked : Bool := false
  /-- a task-level fault awaits its boundary, with its code; consecutive iterations with one (R340) -/
  taskFault : Option Nat := none
  taskFaults : Nat := 0
  /-- a partition- or context-level end under way: level and code -/
  ending : Option (Nat × Nat) := none
  maxPos : Nat := 2147483648
  maxDraft : Nat := 63
  ackVersion : Nat := 1
  /-- changes of the Sheaf not acknowledged: version and deadline, earliest first (R354) -/
  ackDue : List (Nat × Nat) := []
  winnow : Winnow := {}
  /-- ring index of the next record to be written, and whether it has been taken from memory (R409) -/
  ringNext : Nat := 0
  ringKnown : Bool := false
  ringLost : Nat := 0
  lostFlag : Bool := false
  records : List FaultRecord := []
  /-- per-tile deepest gap state hints in force (R295) -/
  hints : Map Nat := []
  resumeTick : Nat := 0
  deriving DecidableEq, Repr

/-- A bind record (R318). -/
structure Bind where
  valid : Bool := false
  active : Bool := false
  /-- MODEL: dispatch has acted on the record: it has taken its partition, or pre-empts for it (R319, R320) -/
  acted : Bool := false
  class_ : Nat := 0
  ctx : Nat := 0
  policy : Nat := 0
  kind : Nat := 0
  cluster : Nat := 0
  tileMask : Nat := 0
  clusterMask : Nat := 0
  record : Nat := 0
  start : Nat := 0
  end_ : Nat := 0
  deadline : Nat := 0
  deriving DecidableEq, Repr

/-- A WEIGHT_WRITE whose transaction is open (R313): its tile, its tag, whether silent, the puts not yet queued, whether the commit has
been given. -/
structure WeightWrite where
  tile : Nat
  tag : Nat
  silent : Bool
  rest : List Put
  committed : Bool := false
  deriving DecidableEq, Repr

/-- A thread's shadow image of the QCB (R391) as the last commit point left it, and the last completion record. -/
structure QcbShadow where
  base : Nat := 0
  size : Nat := 16
  head : Nat := 0
  tail : Nat := 0
  class_ : Nat := 0
  state : Nat := 0
  ctx : Nat := 0
  irq : Bool := false
  ring : Nat := 0
  completed : Nat := 0
  vector : Nat := 0
  error : Nat := 0
  record : List Byte := []
  deriving DecidableEq, Repr

/-- A hardware queue: its QCB (R309), tail register, timer lane and what its thread holds (R311, R316, R322, R391). -/
structure Queue where
  base : Nat := 0
  size : Nat := 16
  head : Nat := 0
  tail : Nat := 0
  class_ : Nat := 0
  state : Nat := 0
  ctx : Nat := 0
  irq : Bool := false
  ring : Nat := 0
  completed : Nat := 0
  vector : Nat := 0
  error : Nat := 0
  commit : Nat := 0
  tailReg : Nat := 0
  lane : Option (List Byte) := none
  mapped : Bool := false
  served : Nat := 0
  /-- the tick since which a packet blocks the queue (R317) -/
  blockedAt : Option Nat := none
  /-- the consumed packet that blocks it: WAIT of kind 0 to 2 with queue or context and value, or 3 for a FENCE (R391) -/
  wait : Option (Nat × Nat × Nat) := none
  writes : List WeightWrite := []
  /-- MODEL: the agenda holds an operation of the queue's thread -/
  busy : Bool := false
  /-- tags of packets consumed and not completed, with opcode and the NOCMPL flag, oldest first (R314) -/
  open_ : List (Nat × Nat × Bool) := []
  /-- completions pending while its function is in ERROR: tag, opcode, status, and the NOCMPL flag where the completing act knows it (R396) -/
  owed : List (Nat × Nat × Nat × Option Bool) := []
  shadow : QcbShadow := {}
  retry : Bool := false
  stopping : Bool := false
  interrupts : Nat := 0
  deriving DecidableEq, Repr

/-- A timer slot (R321, R322). -/
structure Timer where
  armed : Bool := false
  first : Nat := 0
  period : Nat := 0
  queue : Nat := 0
  packet : List Byte := []
  /-- next release number still to create -/
  n : Nat := 0
  pending : Option (Nat × Nat) := none
  deriving DecidableEq, Repr

/-- An ingress ring (R325). -/
structure Ring where
  base : Nat := 0
  count : Nat := 16
  write : Nat := 0
  readAddr : Nat := 0
  ctx : Nat := 0
  state : Nat := 0
  etherType : Nat := 0
  drops : Nat := 0
  matchOffset : Nat := 0
  matchLen : Nat := 0
  type : Nat := 1
  matchVal : Nat := 0
  deriving DecidableEq, Repr

/-- The Sheaf (R21, R285). -/
structure Sheaf where
  version : Nat := 1
  tileMap : Map Nat := []
  spares : Map Nat := []
  vregs : Map Nat := []
  tregs : Map Nat := []
  lslots : Map Nat := []
  health : Map Nat := []
  engines : Map Nat := []
  channels : BitVec 32 := 0xFFFFFFFF
  rates : Map Nat := []
  links : BitVec 8 := 0xFF
  linkSpeeds : Map Nat := []
  peers : Map Nat := []
  package : Nat := 0
  pcieLanes : Nat := 16
  pcieRate : Nat := 128
  populated : Nat := 549755813888
  deriving DecidableEq, Repr

/-- A page in migration (R384 to R386). -/
structure Migration where
  ctx : Nat
  old : Nat
  new : Nat
  size : Nat
  /-- physical address of its leaf entry -/
  leaf : Nat
  /-- 0 MIGRATING, 2 its cutover boundary has been signalled, 1 that boundary's first step has come -/
  state : Nat := 0
  /-- sectors of the old frame still to copy, by number -/
  dirty : List Nat := []
  /-- earliest first step of the cutover boundary, 0 until the leaf is rewritten; that first step once the boundary is chosen -/
  ready : Nat := 0
  /-- the last tick of the cutover window (R386) -/
  limit : Nat := 0
  deriving DecidableEq, Repr

/-- The states of a TDI (R330). -/
inductive TdiState where
  | unlocked | locked | run | error
  deriving DecidableEq, Repr

/-- A TDISP interface of a virtual function, with the last answer it gave (R330, R331). -/
structure Tdi where
  st : TdiState := .unlocked
  answer : List Byte := []
  deriving DecidableEq, Repr

/-- Device registers of PF0 (R306) with the PTP reference pair (R323). -/
structure DeviceRegs where
  sel0 : W64 := 0
  sel1 : W64 := 0
  lock : Bool := false
  selerr : Bool := false
  gtref : Nat := 0
  ptpref : Nat := 0
  rate : Nat := 0xD555555555
  ptpstat : Nat := 0
  /-- the pair in force, renewed every 2^20 ticks, and the values latched by a read of GTREF -/
  refTick : Nat := 0
  refPtp : Nat := 0
  refRate : Nat := 0xD555555555
  refStat : Nat := 0
  /-- the discipline: tick, PTP time and rate of the last lock, and whether it is locked or in holdover (R41) -/
  lockTick : Nat := 0
  lockPtp : Nat := 0
  lockRate : Nat := 0xD555555555
  lockStat : Nat := 0
  share1 : Nat := 0x64
  share2 : Nat := 0x64
  share3 : Nat := 0x64
  bootstep : Nat := 0
  lcs : Nat := 0
  deriving DecidableEq, Repr

/-- An entry of the boot progress record (R333). -/
structure BootEntry where
  outcome : Nat := 0
  attempts : Nat := 0
  tick : Nat := 0
  /-- MODEL: the boot that wrote it -/
  boot : Nat := 0
  deriving DecidableEq, Repr

/-- The power states of the package (R335). -/
inductive PackagePower where
  | run | sleep | parked | unpowered
  deriving DecidableEq, Repr

/-- A timed happening: a tick and an operation, internal or an input from outside (log 10, DESIGN CHOICE). -/
structure Timed where
  tick : Nat
  op : Instr
  args : List Nat := []
  bytes : List Byte := []
  /-- restarts of the thread on this stretch, where the operation is one that the watchdog watches (R391) -/
  restarts : Nat := 0
  deriving DecidableEq, Repr

/-- The whole package. -/
structure State where
  gtick : Nat := 0
  cur : Cursor := {}
  tiles : Map Tile := []
  dies : Map Die := []
  mem : List Host.Cell := []
  sectors : Map SectorMark := []
  /-- released staging entries not yet in memory, oldest first (R118) -/
  forward : List StagingEntry := []
  /-- aperture writes on their way: tile, bound, write (R412) -/
  aperture : List (Nat × Inbound) := []
  ingress : List ExternalWrite := []
  ctxs : Map Ctx := []
  binds : Map Bind := []
  sheaf : Sheaf := {}
  queues : Map Queue := []
  /-- per class, the queue mapped last (R316) -/
  lastMapped : Map Nat := []
  timers : Map Timer := []
  rings : Map Ring := []
  regs : DeviceRegs := {}
  tdis : Map Tdi := []
  /-- owner tag and lock of MRAM regions (R331, R334): tag, unlocked context -/
  owners : Map (Nat × Option Nat) := []
  migrations : List Migration := []
  /-- forwarding entries: old frame, new frame, size (R387) -/
  forwarding : List (Nat × Nat × Nat) := []
  boot : Map BootEntry := []
  log : List FaultRecord := []
  /-- journal discards waiting for their context's ring (R409): tile and record -/
  discards : List (Nat × FaultRecord) := []
  /-- the Ethernet ports have come up (R333) -/
  portsUp : Bool := false
  /-- tiles held by each class, from the ticks on at which that changed, oldest first, back to the beginning of the last 100 ms (R320) -/
  shares : List (Nat × Map Nat) := []
  power : PackagePower := .sleep
  powerLost : Bool := false
  /-- MODEL: boots begun, for the free outcomes of their steps -/
  boots : Nat := 0
  /-- LPDDR-6 is being rebuilt after the loss of a channel (R388) -/
  rebuilding : Bool := false
  agenda : List Timed := []
  free : Nat := 0
  deriving DecidableEq, Repr

/-- The package right after cold reset: SRAM and LPDDR-6 wiped (R334), every register at its reset value, tiles OFF and
boot (R333) still to run. Values the spec does not state are DESIGN CHOICES named in log 3, 4 and 9 and in INVENTORY.md. -/
def State.reset : State := { agenda := [{ tick := 0, op := .boot }] }

end Sys2Proof.Machine
end

