-- ==== Sys2Proof/Machine/Store.lean ====
section
/-! DEFINITION. Sparse maps and byte strings: the one place where byte order is decided (R3) and where the canonical form
of memory is kept. -/
namespace Sys2Proof.Machine

/-- The value at `k`; `d` stands for every key not listed. -/
def mget {α : Type} (d : α) : Map α → Nat → α
  | [], _ => d
  | (k', v) :: r, k => if k' = k then v else mget d r k

/-- The map without key `k`. -/
def merase {α : Type} : Map α → Nat → Map α
  | [], _ => []
  | (k', v) :: r, k => if k' = k then merase r k else (k', v) :: merase r k

/-- Write `v` at `k`, keeping keys rising and the default unlisted. -/
def mset {α : Type} [DecidableEq α] (d : α) : Map α → Nat → α → Map α
  | [], k, v => if v = d then [] else [(k, v)]
  | (k', v') :: r, k, v =>
    if k' = k then (if v = d then merase r k else (k, v) :: merase r k)
    else if k < k' then (if v = d then (k', v') :: merase r k else (k, v) :: (k', v') :: merase r k)
    else (k', v') :: mset d r k v

/-- Every key of `m` is above `k`. -/
def mabove {α : Type} (k : Nat) : Map α → Bool
  | [] => true
  | (k', _) :: r => decide (k < k') && mabove k r

/-- The canonical form: keys strictly rising, the default unlisted. -/
def mwf {α : Type} [DecidableEq α] (d : α) : Map α → Bool
  | [] => true
  | (k, v) :: r => decide (v ≠ d) && mabove k r && mwf d r

/-- The canonical form of byte memory (unlisted bytes read 0, log 3, DESIGN CHOICE). -/
abbrev Memory.wf (m : List Host.Cell) : Bool := mwf (0 : Byte) m

/-- The map of `f 0` to `f (n-1)`, canonical. -/
def mtab {α : Type} [DecidableEq α] (d : α) (n : Nat) (f : Nat → α) : Map α :=
  (List.range n).filterMap fun k => if f k = d then none else some (k, f k)

/-- The byte at address `a`. -/
def byteAt (m : List Host.Cell) (a : Nat) : Byte := mget 0 m a

/-- `n` bytes from address `a`, ascending. -/
def bytesAt (m : List Host.Cell) (a : Nat) : Nat → List Byte
  | 0 => []
  | n + 1 => byteAt m a :: bytesAt m (a + 1) n

/-- Write bytes at ascending addresses from `a`. -/
def putBytes (m : List Host.Cell) (a : Nat) : List Byte → List Host.Cell
  | [] => m
  | b :: bs => putBytes (mset 0 m a b) (a + 1) bs

/-- Write the listed bytes. -/
def putCells (m : List Host.Cell) : Map Byte → List Host.Cell
  | [] => m
  | (a, b) :: r => putCells (mset 0 m a b) r

/-- Little-endian value of a byte string (R3). -/
def leNat : List Byte → Nat
  | [] => 0
  | b :: bs => b.toNat + 256 * leNat bs

/-- The `n` little-endian bytes of a value. -/
def leBytes : Nat → Nat → List Byte
  | 0, _ => []
  | n + 1, v => BitVec.ofNat 8 v :: leBytes n (v / 256)

/-- Bytes at consecutive addresses, as cells. -/
def cellsFrom (a : Nat) : List Byte → Map Byte
  | [] => []
  | b :: bs => (a, b) :: cellsFrom (a + 1) bs

/-- The 64 bytes of a vector register or sector. -/
def vecBytes (v : Vec) : List Byte := leBytes 64 v.toNat

/-- The vector register of a byte string. -/
def bytesVec (bs : List Byte) : Vec := BitVec.ofNat 512 (leNat bs)

/-- Bits `[hi:lo]` of a number as a number, by place and length. -/
def nbits (v lo len : Nat) : Nat := v / 2 ^ lo % 2 ^ len

/-- Bit `k` of a number. -/
def nbit (v k : Nat) : Bool := v / 2 ^ k % 2 == 1

/-- Two's complement value of the low `n` bits (R161 SignExt). -/
def signExt (x n : Nat) : Int :=
  let y := x % 2 ^ n
  if 2 * y < 2 ^ n then (y : Int) else (y : Int) - 2 ^ n

/-- The low `n` bits of an integer. -/
def trunc (n : Nat) (x : Int) : Nat := (x % (2 ^ n : Int)).toNat

/-- Clamp (R161). -/
def clampI (x lo hi : Int) : Int := if x < lo then lo else if x > hi then hi else x

/-- Ceiling division. -/
def ceilDiv (a b : Nat) : Nat := (a + b - 1) / b

/-- A field of a record held as bytes: `n` bytes at offset `o` (R3). -/
def field (bs : List Byte) (o n : Nat) : Nat := leNat ((bs.drop o).take n)

/-- Insert by key, behind equal keys. -/
def insertKey {α : Type} (k : Nat) (v : α) : List (Nat × α) → List (Nat × α)
  | [] => [(k, v)]
  | e :: es => if k < e.1 then (k, v) :: e :: es else e :: insertKey k v es

/-- In ascending key order, stable. -/
def sortKey {α : Type} : List (Nat × α) → List (Nat × α) → List (Nat × α)
  | acc, [] => acc
  | acc, e :: es => sortKey (insertKey e.1 e.2 acc) es

end Sys2Proof.Machine
end

