-- ==== Sys2Proof/Machine/Flags.lean ====
section
/-! DEFINITION. Arithmetic of the formats chapter: IEEE 754 binary16 and binary32 with FPFLAGS (R149 to R156), block
scales (R142, R157, R158), the counter hash (R159) and CRC-32C (R269). Everything is computed exactly on integers and
rounded once. -/
namespace Sys2Proof.Machine

/-- Sticky flags (R151): NX, UF, OF, DZ, NV in bits 0 to 4. -/
abbrev FFlags := BitVec 5
def fNX : FFlags := 1
def fUF : FFlags := 2
def fOF : FFlags := 4
def fDZ : FFlags := 8
def fNV : FFlags := 16

/-- A binary format: stored fraction bits and exponent bits. -/
structure Fmt where
  frac : Nat
  exp : Nat
  deriving DecidableEq, Repr

def b16 : Fmt := ⟨10, 5⟩
def b32 : Fmt := ⟨23, 8⟩
/-- The format of a floating element size (R149): ES = 1 binary16, ES = 2 binary32. -/
def fmtOf (e : BitVec 2) : Fmt := if e = 1 then b16 else b32

def Fmt.width (f : Fmt) : Nat := 1 + f.exp + f.frac
def Fmt.bias (f : Fmt) : Nat := 2 ^ (f.exp - 1) - 1
/-- Exponent of the unit of a subnormal. -/
def Fmt.qmin (f : Fmt) : Int := 1 - (f.bias : Int) - f.frac
def Fmt.infBits (f : Fmt) : Nat := (2 ^ f.exp - 1) * 2 ^ f.frac
def Fmt.signBit (f : Fmt) (s : Bool) : Nat := if s then 2 ^ (f.exp + f.frac) else 0
def Fmt.inf (f : Fmt) (s : Bool) : Nat := f.infBits + f.signBit s
/-- The canonical quiet NaN (R149). -/
def Fmt.nan (f : Fmt) : Nat := f.infBits + 2 ^ (f.frac - 1)

/-- A decoded value: a finite one is `(-1)^neg * mant * 2^exp`. -/
inductive FVal where
  | nan (signalling : Bool)
  | inf (neg : Bool)
  | fin (neg : Bool) (mant : Nat) (exp : Int)
  deriving DecidableEq, Repr

def Fmt.decode (f : Fmt) (x : Nat) : FVal :=
  let neg := nbit x (f.exp + f.frac)
  let e := nbits x f.frac f.exp
  let m := nbits x 0 f.frac
  if e = 2 ^ f.exp - 1 then (if m = 0 then .inf neg else .nan (!nbit x (f.frac - 1)))
  else if e = 0 then .fin neg m f.qmin
  else .fin neg (m + 2 ^ f.frac) (f.qmin + e - 1)

def Fmt.isNan (f : Fmt) (x : Nat) : Bool := match f.decode x with | .nan _ => true | _ => false
def Fmt.isSnan (f : Fmt) (x : Nat) : Bool := match f.decode x with | .nan s => s | _ => false
def nvIf (b : Bool) : FFlags := if b then fNV else 0

/-- Rounding of `q + rem/den` to an integer (R150 modes: 0 nearest even, 1 zero, 2 up, 3 down). -/
def roundInt (rm : Nat) (neg : Bool) (q rem den : Nat) : Nat :=
  let up :=
    if rem = 0 then false
    else if rm = 0 then decide (2 * rem > den) || (decide (2 * rem = den) && q % 2 == 1)
    else if rm = 1 then false
    else if rm = 2 then !neg
    else neg
  if up then q + 1 else q

/-- `num/den * 2^e` as quotient, remainder and divisor. -/
def scaled (num den : Nat) (e : Int) : Nat × Nat × Nat :=
  let n := num * 2 ^ e.toNat
  let d := den * 2 ^ (-e).toNat
  (n / d, n % d, d)

/-- The exponent of the leading bit of `num/den * 2^e`, for `num > 0`. -/
def leadExp (num den : Nat) (e : Int) : Int :=
  let l : Int := (Nat.log2 num : Int) - Nat.log2 den
  let (q, _, _) := scaled num den (-l)
  (if q = 0 then l - 1 else l) + e

/-- Round the positive value `num/den * 2^e` with its sign into a format (R149): bits and flags; tininess is detected after
rounding, UF only with NX. -/
def Fmt.round (f : Fmt) (rm : Nat) (neg : Bool) (num den : Nat) (e : Int) : Nat × FFlags :=
  let lead := leadExp num den e
  let ovf : Nat × FFlags :=
    let toInf := rm = 0 || (rm = 2 && !neg) || (rm = 3 && neg)
    ((if toInf then f.infBits else f.infBits - 1) + f.signBit neg, fOF ||| fNX)
  if lead > (f.bias : Int) + 1 then ovf
  else
    -- a value far below the smallest subnormal rounds as any other such value
    let (num, den, e, lead) := if lead < f.qmin - 3 then (1, 1, f.qmin - 3, f.qmin - 3) else (num, den, e, lead)
    let qe := max (lead - f.frac) f.qmin
    let (q, r, d) := scaled num den (e - qe)
    let n := roundInt rm neg q r d
    let bits := (qe - f.qmin).toNat * 2 ^ f.frac + n
    if bits ≥ f.infBits then ovf
    else
      let tiny :=
        if lead ≥ f.qmin + f.frac then false
        else
          let (q', r', d') := scaled num den (e - (lead - f.frac))
          decide (lead + 1 < f.qmin + f.frac) || decide (roundInt rm neg q' r' d' < 2 ^ (f.frac + 1))
      (bits + f.signBit neg, (if r = 0 then 0 else fNX ||| (if tiny then fUF else 0)))

/-- Round an exact signed dyadic; an exact zero takes the sign given. -/
def Fmt.roundDyadic (f : Fmt) (rm : Nat) (v : Int) (e : Int) (zeroNeg : Bool) : Nat × FFlags :=
  if v = 0 then (f.signBit zeroNeg, 0) else f.round rm (decide (v < 0)) v.natAbs 1 e

/-- A finite value as a signed integer at exponent `e`, not above its own. -/
def sint (neg : Bool) (m : Nat) (me e : Int) : Int :=
  let x : Int := (m : Int) * 2 ^ (me - e).toNat
  if neg then -x else x

/-- Sum of two finite values (R149). -/
def Fmt.addFin (f : Fmt) (rm : Nat) (n1 : Bool) (m1 : Nat) (e1 : Int) (n2 : Bool) (m2 : Nat) (e2 : Int) : Nat × FFlags :=
  let e := min e1 e2
  f.roundDyadic rm (sint n1 m1 e1 e + sint n2 m2 e2 e) e
    (if m1 = 0 ∧ m2 = 0 ∧ n1 = n2 then n1 else rm == 3)

def Fmt.add (f : Fmt) (rm : Nat) (a b : Nat) : Nat × FFlags :=
  match f.decode a, f.decode b with
  | .nan s, y => (f.nan, nvIf (s || (match y with | .nan t => t | _ => false)))
  | _, .nan t => (f.nan, nvIf t)
  | .inf n, .inf k => if n = k then (f.inf n, 0) else (f.nan, fNV)
  | .inf n, _ => (f.inf n, 0)
  | _, .inf k => (f.inf k, 0)
  | .fin n1 m1 e1, .fin n2 m2 e2 => f.addFin rm n1 m1 e1 n2 m2 e2

/-- The sign of `b` turned, NaN untouched. -/
def Fmt.neg (f : Fmt) (b : Nat) : Nat :=
  if f.isNan b then b else if nbit b (f.exp + f.frac) then b - f.signBit true else b + f.signBit true

def Fmt.sub (f : Fmt) (rm : Nat) (a b : Nat) : Nat × FFlags := f.add rm a (f.neg b)

def Fmt.mul (f : Fmt) (rm : Nat) (a b : Nat) : Nat × FFlags :=
  match f.decode a, f.decode b with
  | .nan s, y => (f.nan, nvIf (s || (match y with | .nan t => t | _ => false)))
  | _, .nan t => (f.nan, nvIf t)
  | .inf n, .inf k => (f.inf (n != k), 0)
  | .inf n, .fin k m _ => if m = 0 then (f.nan, fNV) else (f.inf (n != k), 0)
  | .fin k m _, .inf n => if m = 0 then (f.nan, fNV) else (f.inf (n != k), 0)
  | .fin n1 m1 e1, .fin n2 m2 e2 =>
    f.roundDyadic rm (sint (n1 != n2) (m1 * m2) (e1 + e2) (e1 + e2)) (e1 + e2) (n1 != n2)

/-- a × b + d with one rounding; zero times infinity is invalid whatever the addend (R149). -/
def Fmt.fma (f : Fmt) (rm : Nat) (a b d : Nat) : Nat × FFlags :=
  let snan := f.isSnan a || f.isSnan b || f.isSnan d
  let zeroInf := match f.decode a, f.decode b with
    | .inf _, .fin _ m _ => m == 0
    | .fin _ m _, .inf _ => m == 0
    | _, _ => false
  if zeroInf then (f.nan, fNV)
  else if f.isNan a || f.isNan b || f.isNan d then (f.nan, nvIf snan)
  else
    let prod : FVal := match f.decode a, f.decode b with
      | .fin n1 m1 e1, .fin n2 m2 e2 => .fin (n1 != n2) (m1 * m2) (e1 + e2)
      | .inf n, .inf k => .inf (n != k)
      | .inf n, .fin k _ _ => .inf (n != k)
      | .fin k _ _, .inf n => .inf (n != k)
      | x, _ => x
    match prod, f.decode d with
    | .inf n, .inf k => if n = k then (f.inf n, 0) else (f.nan, fNV)
    | .inf n, _ => (f.inf n, 0)
    | _, .inf k => (f.inf k, 0)
    | .fin n1 m1 e1, .fin n2 m2 e2 => f.addFin rm n1 m1 e1 n2 m2 e2
    | _, _ => (f.nan, 0)

/-- A total order of non-NaN values with -0 below +0, as an integer. -/
def Fmt.key (f : Fmt) (x : Nat) : Int :=
  if nbit x (f.exp + f.frac) then -((x - f.signBit true : Nat) : Int) - 1 else (x : Int)

/-- maximumNumber (`mx`) and minimumNumber (R149). -/
def Fmt.pick (f : Fmt) (mx : Bool) (a b : Nat) : Nat × FFlags :=
  let fl := nvIf (f.isSnan a || f.isSnan b)
  if f.isNan a && f.isNan b then (f.nan, fl)
  else if f.isNan a then (b, fl)
  else if f.isNan b then (a, fl)
  else if (if mx then f.key a < f.key b else f.key b < f.key a) then (b, fl) else (a, fl)

/-- VFCMPLT: signalling (R149). -/
def Fmt.lt (f : Fmt) (a b : Nat) : Bool × FFlags :=
  if f.isNan a || f.isNan b then (false, fNV)
  else
    let z (x : Nat) : Bool := match f.decode x with | .fin _ m _ => m == 0 | _ => false
    (!(z a && z b) && decide (f.key a < f.key b), 0)

/-- VFCMPEQ: quiet (R149). -/
def Fmt.eq (f : Fmt) (a b : Nat) : Bool × FFlags :=
  if f.isNan a || f.isNan b then (false, nvIf (f.isSnan a || f.isSnan b))
  else
    let z (x : Nat) : Bool := match f.decode x with | .fin _ m _ => m == 0 | _ => false
    ((z a && z b) || a == b, 0)

/-- The integer nearest `(-1)^neg * m * 2^e`, with whether it is exact; far values are cut, since callers clamp. -/
def dyadicToInt (rm : Nat) (neg : Bool) (m : Nat) (e : Int) : Int × Bool :=
  let (m, e) := if (m = 0) then (0, (0 : Int)) else if (Nat.log2 m : Int) + e < -2 then (1, -2) else (m, e)
  let (q, r, d) := scaled m 1 e
  let n := roundInt rm neg q r d
  ((if neg then -(n : Int) else n), r == 0)

/-- VCVTFI into `w` bits (R149). -/
def Fmt.toInt (f : Fmt) (rm : Nat) (w : Nat) (a : Nat) : Nat × FFlags :=
  let lo : Int := -(2 ^ (w - 1) : Int)
  let hi : Int := 2 ^ (w - 1) - 1
  match f.decode a with
  | .nan _ => (0, fNV)
  | .inf n => (trunc w (if n then lo else hi), fNV)
  | .fin n m e =>
    let (v, exact) := dyadicToInt rm n m e
    if v < lo then (trunc w lo, fNV)
    else if v > hi then (trunc w hi, fNV)
    else (trunc w v, if exact then 0 else fNX)

/-- VCVTIF of a signed integer. -/
def Fmt.ofInt (f : Fmt) (rm : Nat) (v : Int) : Nat × FFlags := f.roundDyadic rm v 0 false

/-- Conversion between the formats (R149). -/
def Fmt.convert (g f : Fmt) (rm : Nat) (a : Nat) : Nat × FFlags :=
  match g.decode a with
  | .nan s => (f.nan, nvIf s)
  | .inf n => (f.inf n, 0)
  | .fin n m e => if m = 0 then (f.signBit n, 0) else f.round rm n m 1 e

/-- Value bits of a rounding whose flags do not count. -/
def rv (x : Nat × FFlags) : Nat := x.1

/-- Table entry j of VFRCP: 128/(129+2j) rounded (R154). -/
def rcpTable (j : Nat) : Nat := rv (b32.round 0 false 128 (129 + 2 * j) 0)

/-- The constant 1.0 and its negative in binary32. -/
def one32 : Nat := 0x3F800000
def negOne32 : Nat := 0xBF800000

/-- VFRCP on binary32 (R154). -/
def rcp32 (x : Nat) : Nat × FFlags :=
  match b32.decode x with
  | .nan s => (b32.nan, nvIf s)
  | .inf n => (b32.signBit n, 0)
  | .fin n m e =>
    if m = 0 then (b32.inf n, fDZ)
    else
      let l := Nat.log2 m
      -- m / 2^l is in [1, 2), and x is that times 2^(e + l)
      let j := (m * 64) / 2 ^ l - 64
      let t := rcpTable j
      -- d := RoundEven(m - cj) with cj = 1 + (2j+1)/128
      let d := rv (b32.roundDyadic 0 ((m : Int) * 128 - (129 + 2 * j : Nat) * 2 ^ l) (-(l : Int) - 7) false)
      let u := rv (b32.mul 0 d t)
      let a := rv (b32.sub 0 one32 u)
      let b := rv (b32.fma 0 u a negOne32)
      let c := rv (b32.fma 0 u b one32)
      let y := rv (b32.mul 0 t c)
      match b32.decode y with
      | .fin _ ym ye =>
        let (r, fl) := b32.round 0 n ym 1 (ye - (e + l))
        (r, fl ||| fNX)
      | _ => (b32.nan, fNX)

/-- Largest `n` below `2^b` with `n^64 ≤ v`, by bits from the top. -/
def root64 (v : Nat) : Nat → Nat → Nat
  | 0, n => n
  | b + 1, n => if (n + 2 ^ b) ^ 64 ≤ v then root64 v b (n + 2 ^ b) else root64 v b n

/-- Table entry j of VFEXP2: 2^(j/64) rounded to binary32 (R155). The 25-bit root decides the 24-bit rounding, since no
entry but j = 0 is exact. -/
def exp2Table (j : Nat) : Nat :=
  let r := root64 (2 ^ (24 * 64 + j)) 25 0
  one32 - 2 ^ 23 + (r + 1) / 2

/-- VFEXP2 on binary32 (R155). -/
def exp2f (x : Nat) : Nat × FFlags :=
  match b32.decode x with
  | .nan s => (b32.nan, nvIf s)
  | .inf n => (if n then 0 else b32.inf false, 0)
  | .fin n m e =>
    let (k, _) := dyadicToInt 0 n m (e + 6)
    let isInt := (dyadicToInt 0 n m e).2
    let nn := Int.fdiv k 64
    let j := (Int.fmod k 64).toNat
    let fe := min e (-6)
    let fv : Int := sint n m e fe - k * 2 ^ (-6 - fe).toNat
    let fb := rv (b32.roundDyadic 0 fv fe false)
    let p := rv (b32.fma 0 fb 0x3D635847 0x3E75FDF0)
    let p := rv (b32.fma 0 fb p 0x3F317218)
    let p := rv (b32.mul 0 fb p)
    let ej := exp2Table j
    let y := rv (b32.fma 0 ej p ej)
    match b32.decode y with
    | .fin _ ym ye =>
      let (r, fl) := b32.round 0 false ym 1 (ye + nn)
      (r, fl ||| (if isInt then 0 else fNX))
    | _ => (b32.nan, 0)

/-- A binary32 function on ES = 1 (R156): widened, applied, and rounded once more. -/
def viaB32 (g : Nat → Nat × FFlags) (x : Nat) : Nat × FFlags :=
  let (r, fl) := g (rv (b16.convert b32 0 x))
  let snan := b16.isSnan x
  let (h, fl2) := b32.convert b16 0 r
  -- the widened NaN is quiet, so NV of a signalling input is added here; OF and UF come from the last rounding alone
  (h, fl2 ||| (fl &&& (fNX ||| fDZ ||| fNV)) ||| nvIf snan)

def rcpOf (e : BitVec 2) (x : Nat) : Nat × FFlags := if e = 1 then viaB32 rcp32 x else rcp32 x
def exp2Of (e : BitVec 2) (x : Nat) : Nat × FFlags := if e = 1 then viaB32 exp2f x else exp2f x

/-! Block scales (R142). -/

/-- A BS16 value: `none` is poison; otherwise sign, mantissa (0 for zero) and exponent of its unit. -/
def bs16 (b : Nat) : Option (Bool × Nat × Int) :=
  let e := nbits b 8 7
  if e = 127 then none
  else if e = 0 then some (false, 0, 0)
  else some (nbit b 15, 256 + nbits b 0 8, (e : Int) - 71)

/-- Bs16Up of the largest magnitude, a binary32 value without sign, for `qmax` (R157). -/
def bs16Up (amax qmax : Nat) : Nat :=
  match b32.decode amax with
  | .nan _ => 0x7F00
  | .inf _ => 0x7F00
  | .fin _ m e =>
    if m = 0 then 0
    else
      let lead := leadExp m qmax e
      let (q, r, _) := scaled (m * 256) qmax (e - lead)
      let f := (if r = 0 then q else q + 1) - 256
      let (f, lead) := if f = 256 then (0, lead + 1) else (f, lead)
      let e' := lead + 63
      if e' < 1 then 0x0100 else if e' > 126 then 0x7EFF else e'.toNat * 256 + f

/-- One lane of VNARROW (R158): element, new residue, flags, from the input, the residue, the scale and the mode. -/
def narrowLane (mode : Nat) (xin q b : Nat) : Int × Nat × FFlags :=
  let (lo, hi) : Int × Int := if mode % 4 = 0 then (-128, 127) else if mode % 4 = 1 then (-32, 31) else (-8, 7)
  let x := rv (b32.add 0 xin q)
  match bs16 b, b32.decode x with
  | none, _ => (0, 0, fNV)
  | _, .nan _ => (0, 0, fNV)
  | _, .inf n => ((if n then lo else hi), 0, fNV)
  | some (sn, sm, se), .fin n m e =>
    if sm = 0 then (0, x, 0)
    else
      let (q0, r0, d0) := scaled m sm (max (min (e - se) 64) (-400))
      let mag := roundInt 0 false q0 r0 d0
      let v : Int := if n != sn then -(mag : Int) else mag
      let el := clampI v lo hi
      if el ≠ v ∧ mode ≥ 4 then (el, 0, 0)
      else
        let ce := min e se
        let diff := sint n m e ce - el * sint sn sm se ce
        (el, rv (b32.roundDyadic 0 diff ce (n && el == 0)), 0)

/-! The counter hash (R159). -/

def hashRound (seed x i : Nat) : Nat :=
  let x := Nat.xor x ((seed + i) % 2 ^ 64)
  let x := x * 0x9FB21C651E98DF25 % 2 ^ 64
  Nat.xor x (x / 2 ^ 29)

def hash64 (seed n j : Nat) : Nat :=
  [0, 1, 2, 3].foldl (hashRound seed) ((n * 65536 + j) % 2 ^ 64)

/-! CRC-32C over bytes (R269): reflected, polynomial 0x1EDC6F41. -/

def crcBit : Nat → Nat → Nat
  | 0, c => c
  | n + 1, c => crcBit n (if c % 2 = 1 then Nat.xor (c / 2) 0x82F63B78 else c / 2)

def crcByte (c : Nat) (b : Byte) : Nat := crcBit 8 (Nat.xor c b.toNat)

end Sys2Proof.Machine
end

