-- ==== Sys2Proof/Machine/Ops.lean ====
section
/-! DEFINITION. The named operations every meaning is written in: the sequencer at the cursor, results in flight, device
time, and taking a fault (R343 to R346, R339, R340) as one shared operation, with the return from it (R373). -/
namespace Sys2Proof.Machine

/-- What an instruction's meaning answers inside: a state, or the fault it raises at issue (R210). -/
abbrev Res := Except FaultInfo State

def State.tile (s : State) (t : Nat) : Tile := mget {} s.tiles t
def State.setTile (s : State) (t : Nat) (x : Tile) : State := { s with tiles := mset {} s.tiles t x }
def State.modTile (s : State) (t : Nat) (f : Tile → Tile) : State := s.setTile t (f (s.tile t))

/-- Sequencer A is 0, B is 1 (R13). -/
def Tile.seq (x : Tile) (q : Nat) : Seq := if q = 0 then x.a else x.b
def Tile.setSeq (x : Tile) (q : Nat) (y : Seq) : Tile := if q = 0 then { x with a := y } else { x with b := y }

def State.seq (s : State) (t q : Nat) : Seq := (s.tile t).seq q
def State.setSeq (s : State) (t q : Nat) (y : Seq) : State := s.modTile t (·.setSeq q y)
def State.modSeq (s : State) (t q : Nat) (f : Seq → Seq) : State := s.setSeq t q (f (s.seq t q))

/-- The sequencer the cursor names, and its tile. -/
def State.me (s : State) : Seq := s.seq s.cur.tile s.cur.seq
def State.setMe (s : State) (y : Seq) : State := s.setSeq s.cur.tile s.cur.seq y
def State.modMe (s : State) (f : Seq → Seq) : State := s.setMe (f s.me)
def State.myTile (s : State) : Tile := s.tile s.cur.tile
def State.modMyTile (s : State) (f : Tile → Tile) : State := s.modTile s.cur.tile f

def State.ctx (s : State) (x : Nat) : Ctx := mget {} s.ctxs x
def State.setCtx (s : State) (x : Nat) (c : Ctx) : State := { s with ctxs := mset {} s.ctxs x c }
def State.modCtx (s : State) (x : Nat) (f : Ctx → Ctx) : State := s.setCtx x (f (s.ctx x))
/-- The context whose partition holds the tile; 0 for a tile that holds none. -/
def State.ctxOf (s : State) (t : Nat) : Nat := ((s.tile t).ctx).getD 0
def State.myCtx (s : State) : Nat := s.ctxOf s.cur.tile

/-- The die of a tile and the sequencer number (R13). -/
def dieOf (t : Nat) : Nat := t / 96
def seqNumber (t q : Nat) : Nat := 2 * t + q
def clusterOf (t : Nat) : Nat := t / 16

def State.die (s : State) (d : Nat) : Die := mget {} s.dies d
def State.setDie (s : State) (d : Nat) (x : Die) : State := { s with dies := mset {} s.dies d x }

/-- Take a free value's argument. -/
def State.tickFree (s : State) : State := { s with free := s.free + 1 }

/-- Put a timed operation into the agenda behind those of its tick. -/
def insertTimed (e : Timed) : List Timed → List Timed
  | [] => [e]
  | x :: xs => if e.tick < x.tick then e :: x :: xs else x :: insertTimed e xs

def State.at_ (s : State) (tick : Nat) (op : Instr) (args : List Nat := []) : State :=
  { s with agenda := insertTimed { tick := tick, op := op, args := args } s.agenda }
def State.after (s : State) (d : Nat) (op : Instr) (args : List Nat := []) : State := s.at_ (s.gtick + d) op args

/-- A thread of the Granary is to do something on a queue, within the 200 µs that its watchdog allows (R391). -/
def State.thread (s : State) (q : Nat) (op : Instr) (args : List Nat) (bytes : List Byte := []) : State :=
  { s with free := s.free + 1,
           agenda := insertTimed { tick := s.gtick + 1 + Config.serviceDelay s.free % 240000, op := op, args := q :: args, bytes := bytes } s.agenda }

/-- Argument `k` of the event that runs. -/
def State.arg (s : State) (k : Nat) : Nat := s.cur.args.getD k 0

/-! Registers (R173, R174). -/

/-- g0 reads 0. -/
def Seq.readG (x : Seq) (r : Nat) : W64 := if r = 0 then 0 else mget 0 x.g r
/-- Writes to g0 are discarded. -/
def Seq.writeG (x : Seq) (r : Nat) (v : W64) : Seq := if r = 0 then x else { x with g := mset 0 x.g r v }

/-- The physical vector register of an architectural index (R174). -/
def Seq.physV (x : Seq) (i : Nat) : Nat := if i < 32 then i else 32 + (i - 32 + x.vrb.toNat) % 32
/-- The physical predicate register (R174). -/
def Seq.physP (x : Seq) (i : Nat) : Nat := if i < 4 then i else 4 + (i - 4 + x.prb.toNat) % 4

def Seq.readV (x : Seq) (i : Nat) : Vec := mget 0 x.v (x.physV i)
/-- p0 reads all ones. -/
def Seq.readP (x : Seq) (i : Nat) : W64 := if i = 0 then BitVec.allOnes 64 else mget 0 x.p (x.physP i)
def Seq.landing (x : Seq) (l : Nat) : Landing := mget {} x.l l
def Seq.setLanding (x : Seq) (l : Nat) (d : Landing) : Seq := { x with l := mset {} x.l l d }
def Seq.readT (x : Seq) (t : Nat) : Map Byte := mget [] x.t t
def Seq.queue (x : Seq) (c : Nat) : CopyQueue := if c = 0 then x.c0 else x.c1
def Seq.setQueue (x : Seq) (c : Nat) (k : CopyQueue) : Seq := if c = 0 then { x with c0 := k } else { x with c1 := k }

/-- All bits of the byte mask selected, bytes of `new`, elsewhere bytes of `old`. -/
def mergeBytes (mask : BitVec 64) (new old : Vec) : Vec :=
  bytesVec ((List.range 64).map fun k =>
    if mask.getLsbD k then (new.extractLsb' (8 * k) 8) else (old.extractLsb' (8 * k) 8))

/-! Results in flight (R49). In handler mode steps are the handler's own (R344). -/

def Seq.inHandler (x : Seq) : Bool := x.handler.isSome
/-- The clock results are counted on. -/
def Seq.now (x : Seq) : Nat :=
  match x.handler with
  | some h => h.clock
  | none => x.clock

def Seq.addFlight (x : Seq) (f : Flight) : Seq :=
  if x.inHandler then { x with hflights := x.hflights ++ [f] } else { x with flights := x.flights ++ [f] }

/-- A result of the word at the cursor, with latency `lat`. -/
def State.flight (s : State) (lat : Nat) (act : Act) : Flight :=
  { step := s.me.now + lat, issue := s.me.now, unit := s.cur.unit, bundle := s.cur.bundle, act := act }
def State.emitFlight (s : State) (f : Flight) : State := s.modMe (·.addFlight f)
def State.emit (s : State) (lat : Nat) (act : Act) : State := s.emitFlight (s.flight lat act)
def State.emitFlags (s : State) (lat : Nat) (act : Act) (fl : BitVec 5) : State :=
  s.emitFlight { s.flight lat act with flags := fl }
/-- A scalar result. -/
def State.emitG (s : State) (lat : Nat) (r : Nat) (v : W64) : State := s.emit lat (.g r v)

/-! Faults. -/

/-- Codes contained at partition level by default (R337, R369). -/
def partitionCode (c : Nat) : Bool := c == 0x0101 || c == 0x0103 || c == 0x0105 || c == 0x010A || c == 0x010E || c == 0x0508

/-- A fault of the word at the cursor (R341). -/
def State.fault (s : State) (code : Nat) (addr : Nat := 0) : FaultInfo :=
  { code := code, unit := s.cur.unit, step := s.me.clock, bundle := s.cur.bundle, addr := addr }

/-- Raise a fault unless the condition holds. -/
def check (ok : Bool) (f : FaultInfo) (k : Res) : Res := if ok then k else .error f

/-- The ring index of the next record of a context: those waiting come first (R342). -/
def State.nextRing (s : State) (x : Nat) : Nat := ((s.ctx x).ringNext + (s.ctx x).records.length) % 2 ^ 32

/-- A USER_TRAP that reports a bad slot of an ingress ring sets the Granary to work (R395). -/
def State.noteReport (s : State) (x : Nat) (f : FaultInfo) : State :=
  if f.code = 0x0305 && f.detail = 0x0911 then
    (s.after (1 + Config.serviceDelay s.free) .ringRepair [f.aux0 % 256, f.aux1 % 2 ^ 32, x]).tickFree
  else s

/-- Of two records of one tick the one of the lower-numbered sequencer is written first (R342). -/
def FaultRecord.before (r e : FaultRecord) : Bool :=
  r.tick == e.tick && r.tile != 0xFFFF && e.tile != 0xFFFF && r.seq < 2 && e.seq < 2 && seqNumber r.tile r.seq < seqNumber e.tile e.seq

/-- The waiting records of a context that a new one goes before. -/
def State.lateRecords (s : State) (x : Nat) (r : FaultRecord) : List FaultRecord :=
  (((s.ctx x).records.reverse).takeWhile r.before).reverse

/-- The ring index of a new record. -/
def State.ringFor (s : State) (x : Nat) (r : FaultRecord) : Nat :=
  match s.lateRecords x r with
  | e :: _ => e.ring
  | [] => s.nextRing x

/-- A record that one of these takes the place of has the next index. -/
def FaultRecord.moved (r : FaultRecord) (late : List FaultRecord) : FaultRecord :=
  if late.contains r then { r with ring := (r.ring + 1) % 2 ^ 32 } else r
def Seq.moveRecords (y : Seq) (late : List FaultRecord) : Seq :=
  { y with record := y.record.map fun r => r.moved late, pending := y.pending.map fun r => r.moved late }

/-- Every copy of the records that a new one goes before takes the next index. -/
def State.moveRecords (s : State) (late : List FaultRecord) : State :=
  if late.isEmpty then s
  else { s with log := s.log.map fun r => r.moved late,
                tiles := s.tiles.map fun e => (e.1, { e.2 with a := e.2.a.moveRecords late, b := e.2.b.moveRecords late }) }

/-- A record enters the persistent log (4096 records) and is on its way to the ring of its context (R342), before those of its tick that come
after it by sequencer. It is written later than in its own tick, and within 10 µs; `State.recordWrite` keeps the ones that cannot be. -/
def State.record (s0 : State) (x : Nat) (r0 : FaultRecord) : State :=
  let s := s0.noteReport x r0.info
  let c := s.ctx x
  let late := s.lateRecords x r0
  let r := { r0 with ring := s.ringFor x r0 }
  let s := s.moveRecords late
  let s := { s with log := (s.log ++ [r]).drop (s.log.length + 1 - 4096) }
  ((s.setCtx x { c with records := c.records.take (c.records.length - late.length) ++ r :: late.map fun e => e.moved late }).after
    (1 + Config.recordDelay s.free % 12000) Instr.faultRecordWrite [x]).tickFree

/-- The partition of context `x` is to halt within 180 steps (R60): pre-empted (level 0), at its bind's end (1), at context (3) or partition
level (4) (R339, R382). Until then its bound tasks start at their ticks and its segments end at theirs (R35, R59), but for what R28 keeps from
starting. The first cause decides, but for a higher level that comes before the halt. A context that is about to resume does not (`State.partitionResume`). -/
def State.endPartition (s : State) (x level code : Nat) : State :=
  let c := s.ctx x
  match c.ending with
  | some (old, _) => if old < level && c.part = .halting then s.setCtx x { c with ending := some (level, code) } else s
  | none => match c.part with
    | .running =>
      ((s.setCtx x { c with ending := some (level, code), part := .halting }).after
        (Config.haltDelay s.free % 181) Instr.partitionHalt [x]).tickFree
    | .halted => s.setCtx x { c with ending := some (level, code) }
    | _ => s

/-- A context is ended: every ring that names it is STOPPED (R325). -/
def State.stopRings (s : State) (x : Nat) : State :=
  { s with rings := s.rings.map fun e => if e.2.ctx = x then (e.1, { e.2 with state := 0 }) else e }

/-- Queued commands that have not started are dropped (R339). -/
def CopyQueue.dropUnstarted (k : CopyQueue) (clock : Nat) : CopyQueue :=
  { k with cmds := k.cmds.filter fun c => c.start < clock || c.pages.isSome }

/-- The task of a sequencer stops (R339): nothing issues from H on, started work goes on. -/
def Seq.stopTask (x : Seq) : Seq :=
  { x with run := .stopped, handler := none, hold := none, pending := [], waitGo := [],
           flights := x.flights ++ x.hflights.map fun f => { f with step := x.clock },
           hflights := [], c0 := x.c0.dropUnstarted x.clock, c1 := x.c1.dropUnstarted x.clock, bounds := [] }

/-- A sequencer joins the trap pause of its tile, A ahead of B (R345). -/
def enterTrap (p : Option Trap) (q now : Nat) : Trap :=
  match p with
  | none => { order := [q], since := now }
  | some p => if p.order.contains q then p else { p with order := if q = 0 then 0 :: p.order else p.order ++ [q] }

/-- A sequencer leaves the pause; the next one's handler runs from the next tick. -/
def leaveTrap (p : Option Trap) (q now : Nat) : Option Trap :=
  match p with
  | none => none
  | some p =>
    let o := p.order.filter (· != q)
    if o.isEmpty then none else some { p with order := o, since := if p.order.head? = some q then now + 1 else p.since }

/-- A record of a region-level fault of tile `t` at tick `n`, taken at partition level after all (R340). -/
def FaultRecord.joined (r : FaultRecord) (t n : Nat) : FaultRecord :=
  if r.tile = t && r.tick = n && r.level = 1 then { r with level := 4, escalated := true, region := 255 } else r

/-- A sequencer that has entered a handler at tick `n` stops at its H instead. -/
def Tile.stopEntered (z : Tile) (q n : Nat) : Tile :=
  match (z.seq q).handler with
  | some h => if h.entered = n then { z.setSeq q { (z.seq q).stopTask with pc := h.due } with trap := leaveTrap z.trap q n } else z
  | none => z

/-- A region-level fault of the tick goes with a partition-level fault of its tile: no handler runs (R340). -/
def State.joinRegion (s : State) (x t : Nat) : State :=
  let n := s.gtick
  let s := s.modTile t fun z => { z with partTick := some n }
  if (s.tile t).trap.isNone then s
  else
    let s := { s with log := s.log.map fun (r : FaultRecord) => r.joined t n }
    let s := s.modCtx x fun c => { c with records := c.records.map fun (r : FaultRecord) => r.joined t n }
    s.modTile t fun z => (z.stopEntered 0 n).stopEntered 1 n

/-- A fault at partition level, with its record (R337, R339). -/
def State.partitionFault (s : State) (x t q : Nat) (f : FaultInfo) (escalated : Bool := false) : State :=
  ((s.record x { info := f, level := 4, escalated := escalated, tick := s.gtick, tile := t, seq := q,
                 depth := (s.seq t q).regions.length }).joinRegion x t).endPartition x 4 f.code

/-- An engine of the sequencer faults in this step (R201). -/
def Seq.raiseFlag (y : Seq) (e : Nat) : Seq := { y with faultNow := y.faultNow ||| (1#8 <<< e) }

/-- A task-level fault of the context now is the third in consecutive iterations, which ends its partition (R340). -/
def Ctx.thirdFault (c : Ctx) : Bool := c.taskFault.isNone && 2 ≤ c.taskFaults

/-- A further fault due at H (R345): recorded now, to be taken after FRET. Where the first of them was raised in a handler, so was this one (R340). -/
def State.holdFault (s : State) (t q : Nat) (f0 : FaultInfo) : State :=
  let y := s.seq t q
  let x := s.ctxOf t
  let left := y.regions.take (y.regions.length - y.pending.length)
  let r : FaultRecord := { info := { f0 with step := (y.handler.map (·.h)).getD y.clock }, tick := s.gtick, tile := t,
                           seq := q, depth := left.length,
                           level := if left.isEmpty then 2 else 1, region := ((left.getLast?).map (·.1)).getD 255,
                           escalated := (y.record.map (·.escalated)).getD false }
  let r := if left.isEmpty && (s.ctx x).thirdFault then { r with level := 4, escalated := true } else r
  let r := { r with ring := s.ringFor x r }
  (s.record x r).modSeq t q fun y => { y with pending := y.pending ++ [r] }

/-- A record takes the level of another. -/
def FaultRecord.amended (e old r : FaultRecord) : FaultRecord :=
  if e = old then { e with level := r.level, escalated := r.escalated, region := r.region } else e

/-- A record, unless the fault has one: a held fault's takes the level at which it is taken after all (R340). -/
def State.recordOnce (s : State) (x : Nat) (r : FaultRecord) (old : Option FaultRecord) : State :=
  match old with
  | none => s.record x r
  | some o =>
    let s' : State := { s with log := s.log.map fun e => e.amended o r }
    s'.modCtx x fun c => { c with records := c.records.map fun e => e.amended o r }

/-- Take a fault at region or task level (R343 to R346, R339, R340, R370). `due` is the bundle due at H, `old` the record
of a fault that was held. -/
def State.takeLocal (s : State) (t q : Nat) (f : FaultInfo) (due : Nat) (old : Option FaultRecord := none) : State :=
  let y := s.seq t q
  let x := s.ctxOf t
  let inside := y.inHandler
  let h := (y.handler.map (·.h)).getD y.clock
  let r : FaultRecord := { info := { f with step := h }, escalated := inside || old.any (·.escalated), tick := (old.map (·.tick)).getD s.gtick, tile := t,
                           seq := q, depth := y.regions.length }
  let r := { r with ring := (old.map fun (o : FaultRecord) => o.ring).getD (s.ringFor x r) }
  if (s.tile t).partTick = some s.gtick && !y.regions.isEmpty then
    (s.recordOnce x { r with level := 4, escalated := true } old).modTile t fun z =>
      { z.setSeq q { (z.seq q).stopTask with pc := (y.handler.map (·.due)).getD due } with trap := leaveTrap z.trap q s.gtick }
  else match y.regions.getLast? with
  | some (id, handler) =>
    let r := { r with level := 1, region := id }
    let s := s.recordOnce x r old
    let due := (y.handler.map (·.due)).getD due
    let hd : Handler := match y.handler with
      | some w => { w with ret := none, entered := s.gtick }
      | none => { h := h, due := due, entered := s.gtick, skip := y.skipLeft, flags1 := y.flags1, flags2 := y.flags2 }
    let y := { y with regions := y.regions.dropLast, record := some r, fstep := BitVec.ofNat 64 h,
                      fresume := BitVec.ofNat 64 due, pc := handler, taken := y.taken && inside, skipLeft := 0,
                      handler := some hd }
    -- a handler begins in the tick of the fault, or after the freeze tick in which a wait's completion faults
    s.modTile t fun z => { z.setSeq q y with frozen := true, trap := some (enterTrap z.trap q (if z.frozen then s.gtick + 1 else s.gtick)) }
  | none =>
    -- the third consecutive iteration with a task-level fault ends the context's partition (R340)
    let third := (s.ctx x).thirdFault
    let r := { r with level := if third then 4 else 2, escalated := r.escalated || third }
    let s := s.recordOnce x r old
    let due := (y.handler.map (·.due)).getD due
    -- one taken at partition level fills no failure registers (R370)
    let y := if third then { y.stopTask with pc := due }
      else { y.stopTask with record := some r, fstep := BitVec.ofNat 64 h, fresume := BitVec.ofNat 64 due, pc := due }
    let s := s.modTile t fun z => { z.setSeq q y with trap := leaveTrap z.trap q s.gtick }
    let s := s.modCtx x fun c => { c with taskFault := c.taskFault.or (some f.code) }
    if third then (s.endPartition x 4 f.code).stopRings x else s

/-- A fault attributed to the request in a slot (R89, R380): the first of the iteration stands, later ones are counted. -/
def State.requestFault (s : State) (x slot t q : Nat) (f : FaultInfo) : State :=
  s.modCtx x fun c =>
    let w := c.winnow
    let fs := if w.faults.any (·.slot == slot) then
        w.faults.map fun e => if e.slot == slot then { e with more := min 0xFFFF (e.more + 1) } else e
      else w.faults ++ [{ slot := slot, info := f, tick := s.gtick, tile := t, seq := q }]
    { c with winnow := { w with faults := fs } }

/-- The slot whose page list or frames hold an address, with its record (R110, R381). -/
def Ctx.slotOf (c : Ctx) (va : Nat) : Option (Nat × Nat) :=
  (c.winnow.slots.find? fun e =>
    let r := e.2.2
    (r.pageList ≤ va && va < r.pageList + 8 * r.capacity) || r.frames.any fun f => f ≤ va && va < f + 32768).map
  fun e => (e.1, e.2.1)

/-- A translation fault of the word at the cursor, attributed to a request where R110 says so: then its code is 0x0801. -/
def State.translationFault (s : State) (code va : Nat) : FaultInfo :=
  match (s.ctx s.myCtx).slotOf va with
  | some (_, record) => { s.fault 0x0801 va with rindex := record }
  | none => s.fault code va

/-- Take a fault of sequencer `q` of tile `t` at its default level (R337); 0x0801 is its request's alone (R89). -/
def State.takeFault (s : State) (t q : Nat) (f : FaultInfo) (due : Nat) : State :=
  let x := s.ctxOf t
  if f.code = 0x0801 then
    match (s.ctx x).winnow.slots.find? fun e => e.2.1 == f.rindex with
    | some e => s.requestFault x e.1 t q f
    | none => s
  else if partitionCode f.code then s.partitionFault x t q f
  else if f.code = 0x0C03 then
    (s.record x { info := f, level := 3, tick := s.gtick, tile := t, seq := q, depth := (s.seq t q).regions.length }).endPartition x 3 f.code
  else s.takeLocal t q f due

/-- Take an issue fault of the word at the cursor: the bundle due at H is the bundle itself (R343, R370). -/
def State.trapIssue (s : State) (f : FaultInfo) : State :=
  let s := { s with cur := { s.cur with raised := some f } }
  s.takeFault s.cur.tile s.cur.seq f s.cur.bundle

/-- The answer of a meaning: its own state, or the trap its fault takes. -/
def State.finish (s : State) (r : Res) : Host.Outcome State Fault Refusal :=
  match r with
  | .ok s' => .next s'
  | .error f => .next (s.trapIssue f)

/-- A word that handler mode refuses (R368). -/
def State.outsideHandler (s : State) (k : Res) : Res := check (!s.me.inHandler) (s.fault 0x0311) k

/-! Leaving the handler (R373). -/

/-- FRET has read its target and every handler result has landed: from the next tick the task resumes, or the next fault
due at H is taken (R345). -/
def State.leaveHandler (s : State) (t q target : Nat) : State :=
  let y := s.seq t q
  let h := y.handler.getD { h := 0 }
  let y := { y with handler := none, pc := target, taken := false, hflights := [], skipLeft := h.skip, pending := y.pending.tail,
                    flags1 := h.flags1, flags2 := h.flags2 }
  let held := (s.seq t q).pending.head?
  let s := s.modTile t fun z => { z.setSeq q y with trap := leaveTrap z.trap q s.gtick }
  match held with
  | none => s
  | some r =>
    let s := s.takeLocal t q r.info target (some r)
    s.modTile t fun z => { z with trap := z.trap.map fun p => { p with since := s.gtick + 1 } }

end Sys2Proof.Machine
end

