-- ==== Sys2Proof/Machine/Operands.lean ====
section
/-! DEFINITION. Operand forms of the instruction words: widths, immediates, addresses, targets (R96, R187, R191, R198). -/
namespace Sys2Proof.Machine

/-- A scalar operand, read at issue. -/
def State.G (s : State) (r : BitVec 5) : W64 := s.me.readG r.toNat
/-- The same as a number. -/
def State.N (s : State) (r : BitVec 5) : Nat := (s.G r).toNat
/-- A vector operand, read at issue under rotation. -/
def State.V (s : State) (i : BitVec 6) : Vec := s.me.readV i.toNat
/-- A predicate operand, read at issue under rotation. -/
def State.P (s : State) (i : BitVec 3) : W64 := s.me.readP i.toNat

/-- Operand width of F-SR for m from 0 to 3 (R187): 64, 32, 16, 8. -/
def opWidth (m : BitVec 3) : Nat := 64 / 2 ^ m.toNat
/-- Access size in bytes of F-SM, F-SS, F-SX, F-SI and F-AT (R191): 8, 4, 2, 1. -/
def opBytes (sz : BitVec 2) : Nat := 8 / 2 ^ sz.toNat
/-- Element size in bytes of ES (R168): 1, 2, 4, 8. -/
def elemBytes (e : BitVec 2) : Nat := 2 ^ e.toNat

/-- A 64-bit value from an integer, modulo 2^64. -/
def w64 (x : Int) : W64 := BitVec.ofInt 64 x

/-- A register plus a scaled signed offset, modulo 2^64 (R191). -/
def effAddr (base : W64) (off : Int) (size : Nat) : Nat := (w64 (base.toNat + off * size)).toNat

/-- The own scratchpad offset of an access of `n` bytes at `a`, by the scratchpad range or its window alias (R96). -/
def spadOffset (a n : Nat) : Option Nat :=
  if a + n ≤ 0x200000 then some a
  else if 0x4000000 ≤ a && a + n ≤ 0x4040000 then some (a - 0x4000000 + 0x1C0000)
  else none

/-- The own weight MRAM offset of an access of `n` bytes at `a` (R96). -/
def mramOffset (a n : Nat) : Option Nat :=
  if 0x8000000 ≤ a && a + n ≤ 0x9000000 then some (a - 0x8000000) else none

/-- The parity bank and word of a 64-byte access in the diagnostic view (R96, R375). -/
def parityOffset (a : Nat) : Option (Nat × Nat) :=
  if 0x6000000 ≤ a && a + 64 ≤ 0x6080000 then some ((a - 0x6000000) / 0x20000, (a - 0x6000000) % 0x20000 / 64) else none

/-- A target of a control transfer lies in the text range and is aligned (R198). -/
def textOk (a : Nat) : Bool := a % 4 == 0 && 0x8000000 ≤ a && a ≤ 0x8FFFFFC

/-- The word at the cursor plus four times a signed offset. A target below address 0 reads as 0, which no
text range holds. -/
def State.relTarget (s : State) (off : Int) : Nat := ((s.cur.word : Int) + 4 * off).toNat

/-- A 64-byte-bank number of a scratchpad offset (R97). -/
def bankOf (a : Nat) : Nat := a / 64 % 16
/-- The 64-byte words an access touches, ascending. -/
def wordsOf (a n : Nat) : List Nat :=
  if n = 0 then [] else (List.range ((a + n - 1) / 64 - a / 64 + 1)).map (a / 64 + ·)

/-- Bits per element of a format (R140). -/
def efWidth (ef : Nat) : Nat := [4, 6, 8, 16, 24].getD ef 0
/-- Bytes of a row of `cols` elements (R141). -/
def rowBytes (ef cols : Nat) : Nat := ceilDiv (cols * efWidth ef) 8
/-- A tile shape is valid (R176): a format, at most 128 bytes a row, BX6 in groups of four. -/
def shapeOk (ef cols : Nat) : Bool := ef < 5 && rowBytes ef cols ≤ 128 && (ef != 1 || cols % 4 == 0)
/-- Fields of a TS register (R176). -/
def tsEf (v : W64) : Nat := nbits v.toNat 0 3
def tsRows (v : W64) : Nat := nbits v.toNat 3 6 + 1
def tsCols (v : W64) : Nat := nbits v.toNat 9 8 + 1

/-- The rank of a local access (R98): A before B, then the unit. -/
def State.accessRank (s : State) : Nat := 6 * s.cur.seq + s.cur.unit

end Sys2Proof.Machine
end

