-- ==== Sys2Proof/Machine/Scratch.lean ====
section
/-! DEFINITION. The scratchpad: bytes, SEC-DED and parity (R97, R100, R347, R348, R352, R357), atomic reservations
(R102), reads at issue and writes as they perform (R127, R128). -/
namespace Sys2Proof.Machine

/-! Contents. -/

/-- A byte lies in a range that OFF left undefined and nothing has written since (R18). -/
def Tile.undefAt (x : Tile) (a : Nat) : Bool := x.undef.any fun r => r.1 ≤ a && a < r.2

/-- The byte at a scratchpad offset. -/
def Tile.spadByte (x : Tile) (a : Nat) : Byte := if x.undefAt a then Config.offByte x.wake a else byteAt x.spad a

/-- `n` bytes from a scratchpad offset. -/
def Tile.spadBytes (x : Tile) (a n : Nat) : List Byte := (List.range n).map fun k => x.spadByte (a + k)

/-- The 64-byte word `k` as stored. -/
def Tile.spadWord (x : Tile) (k : Nat) : Vec := bytesVec (x.spadBytes (64 * k) 64)

def Tile.mark (x : Tile) (k : Nat) : WordMark := mget {} x.marks k

/-! SEC-DED (R347): one check byte for each eight data bytes. -/

def lane64 (v : Vec) (i : Nat) : BitVec 64 := v.extractLsb' (64 * i) 64
def checkByte (c : BitVec 64) (i : Nat) : BitVec 8 := c.extractLsb' (8 * i) 8

/-- The check bytes of a word without error. -/
def secdedWord (v : Vec) : BitVec 64 :=
  BitVec.ofNat 64 (leNat ((List.range 8).map fun i => Config.secded (lane64 v i)))

/-- The number of ones. -/
def popCount (n x : Nat) : Nat := ((List.range n).filter (nbit x)).length

/-- A lane with its check byte: the corrected lane, and whether a bit was corrected; `none` when uncorrectable. -/
def laneRead (d : BitVec 64) (c : BitVec 8) : Option (BitVec 64 × Bool) :=
  if Config.secded d = c then some (d, false)
  else
    match (List.range 64).find? fun i => Config.secded (d ^^^ (1#64 <<< i)) = c with
    | some i => some (d ^^^ (1#64 <<< i), true)
    | none => if popCount 8 (Config.secded d ^^^ c).toNat = 1 then some (d, true) else none

/-- A word under stored check bytes: corrected data, lanes corrected, lanes with a non-zero syndrome, uncorrectable or not. -/
def wordRead (v : Vec) (checks : Option (BitVec 64)) : Vec × Nat × Nat × Bool :=
  match checks with
  | none => (v, 0, 0, false)
  | some c =>
    let rs := (List.range 8).map fun i => laneRead (lane64 v i) (checkByte c i)
    let bytes := (List.range 8).flatMap fun i =>
      leBytes 8 (match laneRead (lane64 v i) (checkByte c i) with | some (d, _) => d.toNat | none => (lane64 v i).toNat)
    (bytesVec bytes, (rs.filter fun r => r.any (·.2)).length,
     (rs.filter fun r => r.all (·.2)).length, rs.any Option.isNone)

/-- A lane after a write of the bytes that `written` names, from the lane and check byte as stored: one written whole is clean; one written in part is corrected
first, and keeps its syndrome where it cannot be (log 7, DESIGN CHOICE). -/
def mergeLane (d : BitVec 64) (c : BitVec 8) (new : BitVec 64) (written : BitVec 8) : BitVec 64 × BitVec 8 :=
  let onto (old : BitVec 64) : BitVec 64 :=
    BitVec.ofNat 64 (leNat ((List.range 8).map fun k => if written.getLsbD k then new.extractLsb' (8 * k) 8 else old.extractLsb' (8 * k) 8))
  if written = BitVec.allOnes 8 then (new, Config.secded new)
  else if written = 0 then (d, c)
  else match laneRead d c with
    | some (d', _) => (onto d', Config.secded (onto d'))
    | none => (onto d, Config.secded (onto d) ^^^ Config.secded d ^^^ c)

/-- A word and its check bytes after a write of the bytes in `mask`, from both as stored (R347, R352). -/
def mergeWord (d : Vec) (checks : Option (BitVec 64)) (new : Vec) (mask : BitVec 64) : Vec × Option (BitVec 64) :=
  match checks with
  | none => (mergeBytes mask new d, none)
  | some c =>
    let ls := (List.range 8).map fun i => mergeLane (lane64 d i) (checkByte c i) (lane64 new i) (mask.extractLsb' (8 * i) 8)
    let v := bytesVec (ls.flatMap fun l => leBytes 8 l.1.toNat)
    let r := BitVec.ofNat 64 (leNat (ls.map (·.2)))
    (v, if r = secdedWord v then none else some r)

/-- The group of a 64-byte word and its parity word (R97). -/
def groupOf (k : Nat) : Nat := k % 16 / 4
def parityKey (g row : Nat) : Nat := 2048 * g + row

/-- The words of the group of `k` in its four data banks. -/
def groupWords (k : Nat) : List Nat := (List.range 4).map fun i => k / 16 * 16 + groupOf k * 4 + i

/-- A 64-byte word as its cells hold it. -/
def Tile.rawWord (x : Tile) (k : Nat) : Vec := x.spadWord k ^^^ (x.mark k).wrong

/-- The XOR of the four data banks' words as they were written (R97). -/
def Tile.groupXor (x : Tile) (g row : Nat) : Vec :=
  (List.range 4).foldl (fun acc i => acc ^^^ x.spadWord (16 * row + 4 * g + i)) 0

/-- A parity word as it stands, with its stored check bytes and injected mark. -/
def Tile.parityWord (x : Tile) (g row : Nat) : ParityWord :=
  (x.parity.lookup (parityKey g row)).getD { val := x.groupXor g row }

/-- A data bank of the group of `k`, other than its own, is retired: its cells hold nothing that a rebuild could use (R357). -/
def Tile.groupRetired (x : Tile) (k : Nat) : Bool := ((groupWords k).filter (· != k)).any fun o => x.retiredBanks.getLsbD (o % 16)

/-- The word `k` rebuilt from the rest of its group (R99, R347): `none` if the rebuild finds an error, or would need a retired bank. -/
def Tile.rebuilt (x : Tile) (k : Nat) : Option Vec :=
  let p := x.parityWord (groupOf k) (k / 16)
  -- a read that waits for a parity update of its step finds it done
  let (v, checks) := mergeWord p.val p.checks (x.groupXor (groupOf k) (k / 16)) (mget 0 x.parityDue (parityKey (groupOf k) (k / 16)))
  let (pv, _, _, pbad) := wordRead v checks
  let others := (groupWords k).filter (· != k)
  if pbad || x.groupRetired k || others.any fun o => (wordRead (x.rawWord o) (x.mark o).checks).2.2.2 then none
  else some (others.foldl (fun acc o => acc ^^^ (wordRead (x.rawWord o) (x.mark o).checks).1) pv)

/-- The lanes that a rebuild of word `k` corrects on its way, in data words and in the parity word, those of injected words left out (R347, R352). -/
def Tile.rebuildFixes (x : Tile) (k : Nat) : Nat × Nat :=
  let p := x.parityWord (groupOf k) (k / 16)
  let data := ((groupWords k).filter fun o => o != k && !(x.mark o).injected).foldl (fun n o => n + (wordRead (x.rawWord o) (x.mark o).checks).2.1) 0
  (data, if p.injected then 0 else (wordRead p.val p.checks).2.1)

/-- A word of the group of `k`, or its parity word, is marked injected (R352). -/
def Tile.groupInjected (x : Tile) (k : Nat) : Bool :=
  (x.parityWord (groupOf k) (k / 16)).injected || (groupWords k).any fun o => (x.mark o).injected

/-- The syndrome of a word as stored: its check bits as they stand against those of its data (R341; log 49, DEDUCED). -/
def wordSyndrome (v : Vec) (checks : Option (BitVec 64)) : Nat :=
  match checks with
  | some c => (secdedWord v ^^^ c).toNat
  | none => 0

/-! Reading (R192, R347, R348). -/

/-- Count corrected errors of a storage kind (0 scratchpad data, 1 MRAM, 2 LPDDR-6, 3 staging, 4 shadow SRAM, 5 scratchpad parity): a status record at each
multiple of 256 (R347). -/
def State.countCorrected (s : State) (t kind n : Nat) : State :=
  let x := s.tile t
  let c := mget 0 x.corrected kind
  let s := s.setTile t { x with corrected := mset 0 x.corrected kind (c + n) }
  if (c + n) / 256 > c / 256 then
    s.record (s.ctxOf t) { info := { code := 0x0510, unit := 255 }, level := 6, tick := s.gtick, tile := t }
  else s

/-- A rebuild for a detected error: the sixteenth retires the bank (R347). -/
def State.countRebuild (s : State) (t bank : Nat) : State :=
  let x := s.tile t
  let c := mget 0 x.rebuilds bank + 1
  let s := s.setTile t { x with rebuilds := mset 0 x.rebuilds bank c }
  if c = 16 then s.after 0 .sheafChange [1, t, bank] else s

/-- Note the use of a port. -/
def Tile.use (x : Tile) (u : BankUse) : Tile := { x with uses := x.uses ++ [u] }

/-- Poison as an access at address `a` meets it: the record of its consumption names that address (R341, R348; log 35, DEDUCED). -/
def seenAt (p : Option Poison) (a : Nat) : Option Poison := p.map fun p => { p with addr := a }

/-- What a read of word `k` delivers: bytes and poison, lanes corrected, whether the word's own code finds an error it cannot correct, and whether
the read must be rebuilt (R347, R357). -/
structure WordLook where
  val : Vec
  poison : Option Poison
  corrected : Nat
  bad : Bool
  rebuild : Bool

def Tile.lookWord (x : Tile) (k : Nat) : WordLook :=
  let m := x.mark k
  let v := x.rawWord k
  let retired := x.retiredBanks.getLsbD (k % 16)
  let (cv, corrected, _, wrong) := wordRead v m.checks
  let bad := wrong && !retired
  let rebuild := bad || retired
  if !rebuild then { val := cv, poison := m.poison, corrected := corrected, bad := bad, rebuild := rebuild }
  else match x.rebuilt k with
    | some r => { val := r, poison := m.poison, corrected := 0, bad := bad, rebuild := rebuild }
    | none =>
      let p : Poison := { code := 0x0501, addr := 64 * k, injected := x.groupInjected k, syndrome := wordSyndrome v m.checks }
      { val := v, poison := some (m.poison.getD p), corrected := 0, bad := bad, rebuild := rebuild }

/-- The rebuild has read the group's parity word: an error that its code does not correct is found (R347). -/
def Tile.findParity (x : Tile) (k : Nat) : Tile :=
  let key := parityKey (groupOf k) (k / 16)
  if x.parity.any fun e => e.1 == key && (wordRead e.2.val e.2.checks).2.2.2
  then { x with parity := x.parity.map fun e => if e.1 = key then (key, { e.2 with found := true }) else e } else x

/-- A rebuild of word `k` is made: what it corrects on its way is counted (R347). -/
def State.noteRebuild (s : State) (t k : Nat) : State :=
  let n := (s.tile t).rebuildFixes k
  let s := if (s.tile t).parity.isEmpty then s else s.modTile t fun x => x.findParity k
  let s := if n.1 = 0 then s else s.countCorrected t 0 n.1
  if n.2 = 0 then s else s.countCorrected t 5 n.2

/-- What a read of word `k` leaves behind: counts of corrections and rebuilds, none for an injected word (R352), and the word's poison. -/
def State.noteWord (s : State) (t k : Nat) (w : WordLook) : State :=
  let m := (s.tile t).mark k
  let s := if w.corrected > 0 && !m.injected then s.countCorrected t 0 w.corrected else s
  let s := if w.bad && !m.injected then s.countRebuild t (k % 16) else s
  let s := if w.rebuild then s.noteRebuild t k else s
  if w.poison = m.poison then s else s.modTile t fun z => { z with marks := mset {} z.marks k { z.mark k with poison := w.poison } }

/-- Read one 64-byte word through the local port at priority `rank`: the bytes delivered, and poison. -/
def State.readWord (s : State) (t rank k : Nat) : State × Vec × Option Poison :=
  let w := (s.tile t).lookWord k
  ((s.modTile t (·.use { port := k % 16, write := false, rank := rank, word := k, rebuild := w.rebuild })).noteWord t k w, w.val, w.poison)

/-- Read the words of an access one after another. -/
def State.readWords (s : State) (t rank : Nat) : List Nat → State × List Byte × Option Poison
  | [] => (s, [], none)
  | k :: ks =>
    let (s, v, p) := s.readWord t rank k
    let (s, bs, p') := s.readWords t rank ks
    (s, vecBytes v ++ bs, p.or p')

/-- Read `n` bytes at a scratchpad offset: what the tick's read returns (R127), the ports it uses, its poison (R348). -/
def State.readSpad (s : State) (t rank a n : Nat) : State × List Byte × Option Poison :=
  let (s, bs, p) := s.readWords t rank (wordsOf a n)
  (s, (bs.drop (a % 64)).take n, p)

/-- `n` bytes at an offset as a read through the scratchpad aperture gets them (R347). -/
def Tile.lookBytes (x : Tile) (a n : Nat) : List Byte × Option Poison :=
  let ws := (wordsOf a n).map x.lookWord
  (((ws.flatMap fun w => vecBytes w.val).drop (a % 64)).take n, ws.findSome? (·.poison))

/-- What that read leaves behind. -/
def State.noteBytes (s : State) (t a n : Nat) : State :=
  (wordsOf a n).foldl (fun (s : State) k => s.noteWord t k ((s.tile t).lookWord k)) s

/-! Atomic reservations (R102). -/

/-- A bank step `d` steps ahead falls in a reservation. Handler steps and task steps do not meet (R344). -/
def Tile.reserved (x : Tile) (handler : Bool) (bank d : Nat) : Bool :=
  x.reservations.any fun r => r.bank == bank && r.handler == handler && d < r.left

/-- No bank of the words that an access touches is reserved at its bank step. -/
def State.wordsFree (s : State) (ks : List Nat) (d : Nat) : Bool := ks.all fun k => !s.myTile.reserved s.me.inHandler (k % 16) d
def State.banksFree (s : State) (a n d : Nat) : Bool := s.wordsFree (wordsOf a n) d

/-- Steps from the sequencer's clock to the bank step of a single-step store in flight, with the banks it uses: a row of a TST is
none. DIAGLD's descriptor is one, at issue + 16 (log 75, DEDUCED). -/
def Seq.storeSteps (y : Seq) : List (Nat × List Nat) :=
  (if y.inHandler then y.hflights else y.flights).filterMap fun f =>
    match f.act with
    | .store w => if f.unit = 3 then none else some (f.step - y.now, w.bytes.map fun b => b.1 / 64 % 16)
    | .diagDesc w => some (f.step - y.now, (w.bytes.map fun b => b.1 / 64 % 16))
    | _ => none

/-- An atomic on `bank` now would meet the bank step of a single-step access already issued (R102): a store in flight
that performs within its three steps, or an access of this tick that is no row and no beat. Handler steps and task steps do not meet. -/
def State.atomicMeets (s : State) (bank : Nat) : Bool :=
  let x := s.myTile
  -- in a handler's steps the task's captured stores do not perform (R344)
  let near (y : Seq) : Bool := y.inHandler == s.me.inHandler && y.storeSteps.any fun p => p.1 < 3 && p.2.contains bank
  near x.a || near x.b || x.uses.any fun u => u.port == bank && u.rank < 12 && u.rank % 6 != 3

/-! Writing, as it performs (R100, R127, R128). -/

/-- Take the written addresses out of the undefined ranges. -/
def carve (rs : List (Nat × Nat)) (a : Nat) : List (Nat × Nat) :=
  rs.flatMap fun r =>
    if r.1 ≤ a && a < r.2 then ([(r.1, a), (a + 1, r.2)] : List (Nat × Nat)).filter fun q => q.1 < q.2 else [r]

/-- The bytes of a write that fall in word `k`, as a mask. -/
def maskIn (w : Map Byte) (k : Nat) : BitVec 64 :=
  w.foldl (fun m b => if b.1 / 64 = k then m ||| (1#64 <<< (b.1 % 64)) else m) 0

/-- The distinct words a write touches, whose ports it takes: a masked store those of its active bytes (R99, R234; log 88, DEDUCED). -/
def wordsIn (w : Map Byte) : List Nat := (w.map fun b => b.1 / 64).dedup

/-- A REDC beat's bytes: each binary32 element added to what a read finds there (R268, R347), rounded to nearest even. -/
def addCells (x : Tile) (w : Map Byte) : Map Byte :=
  w.map fun b =>
    let base := b.1 / 4 * 4
    let src := leNat ((List.range 4).map fun i => mget 0 w (base + i))
    let dst := nbits (x.lookWord (base / 64)).val.toNat (8 * (base % 64)) 32
    (b.1, BitVec.ofNat 8 (rv (b32.add 0 dst src) / 2 ^ (8 * (b.1 % 4))))

/-- The write that an add makes of a REDC beat's bytes: poison that it has read goes with it (R348). -/
def LocalWrite.added (x : Tile) (w : LocalWrite) : LocalWrite :=
  if w.add then { w with bytes := addCells x w.bytes, poison := w.poison.or ((wordsIn w.bytes).findSome? fun k => (x.lookWord k).poison) } else w

/-- Before the first data write of a step reaches a parity word, that word's old value is kept for the step in which it is
updated (R100). -/
def Tile.keepParity (x : Tile) (k : Nat) (mask : BitVec 64) : Tile :=
  let key := parityKey (groupOf k) (k / 16)
  let x := match x.parity.lookup key with
    | some _ => x
    | none => { x with parity := (key, { val := x.groupXor (groupOf k) (k / 16) }) :: x.parity }
  { x with parityDue := mset 0 x.parityDue key (mget 0 x.parityDue key ||| mask) }

/-- A word as it counts as written, after a write of the bytes in `mask`: a lane that is written in part has been corrected first, where it can be. -/
def writtenWord (old raw : Vec) (checks : Option (BitVec 64)) (new : Vec) (mask : BitVec 64) : Vec :=
  bytesVec ((List.range 8).flatMap fun i =>
    let w := mask.extractLsb' (8 * i) 8
    let base := if w = 0 then lane64 old i
      else match laneRead (lane64 raw i) (checkByte (checks.getD (secdedWord raw)) i) with
        | some (d, _) => d
        | none => lane64 old i
    (List.range 8).map fun k => if w.getLsbD k then new.extractLsb' (64 * i + 8 * k) 8 else base.extractLsb' (8 * k) 8)

/-- The mark of word `k` of a retired bank under a write, which reaches no cell of it: what its cells hold, check bits with it, stays as it was, and its bytes
stand in the parity alone (R357). -/
def Tile.retiredMark (x : Tile) (w : LocalWrite) (old : Vec) (k : Nat) : WordMark :=
  let m := x.mark k
  { m with poison := w.poison.or (if w.checks.isSome || maskIn w.bytes k = BitVec.allOnes 64 then none else m.poison),
           injected := w.checks.isSome, wrong := m.wrong ^^^ old ^^^ x.spadWord k }

/-- The mark of word `k`, and the word itself where lanes of it have been corrected, under a write to a word that stood as `old` (R348, R352). A whole word that is
stored clears its poison; one that is added to has been read. -/
def Tile.writeMark (x : Tile) (w : LocalWrite) (old : Vec) (k : Nat) : Tile :=
  let mask := maskIn w.bytes k
  let whole := mask = BitVec.allOnes 64 && !w.add
  let m := x.mark k
  let now := x.spadWord k
  let poison := w.poison.or (if whole then none else m.poison)
  if x.retiredBanks.getLsbD (k % 16) then { x with marks := mset {} x.marks k (x.retiredMark w old k) }
  else match w.checks with
  | some c =>
    let m' : WordMark := { poison := none, injected := true, checks := if c = secdedWord now then none else some c }
    { x with marks := mset {} x.marks k m' }
  | none =>
    if m.checks.isNone && m.wrong = 0 then
      let m' : WordMark := { poison := poison, injected := false }
      { x with marks := mset {} x.marks k m' }
    else
      let raw := old ^^^ m.wrong
      let (stored, checks) := mergeWord raw m.checks now mask
      let v := writtenWord old raw m.checks now mask
      let m' : WordMark := { poison := poison, injected := false, checks := checks, wrong := stored ^^^ v }
      { x with spad := if v = now then x.spad else putBytes x.spad (64 * k) (vecBytes v), marks := mset {} x.marks k m' }

/-- The written addresses no longer hold what a context has left (R396). -/
def carveLeft (rs : List (Nat × Nat × Nat)) (a : Nat) : List (Nat × Nat × Nat) :=
  rs.flatMap fun r => (carve [r.2] a).map fun p => (r.1, p)

/-- A write performs: bytes, marks, parity due in the next step. -/
def Tile.applyWrite (x : Tile) (w : LocalWrite) : Tile :=
  let w := w.added x
  let ks := wordsIn w.bytes
  let x1 := ks.foldl (fun z k => z.keepParity k (maskIn w.bytes k)) x
  let x2 := { x1 with spad := putCells x1.spad w.bytes, undef := if x1.undef.isEmpty then [] else (w.bytes.map (·.1)).foldl carve x1.undef,
                      left := if x1.left.isEmpty then [] else (w.bytes.map (·.1)).foldl carveLeft x1.left }
  ks.foldl (fun z k => z.writeMark w (x.spadWord k) k) x2

/-- A parity word after its update: the written bytes are those of the XOR of the group (R100), the others stay. -/
def Tile.updatedParity (x : Tile) (key : Nat) (mask : BitVec 64) : ParityWord :=
  let p := x.parityWord (key / 2048) (key % 2048)
  let (v, checks) := mergeWord p.val p.checks (x.groupXor (key / 2048) (key % 2048)) mask
  if mask = BitVec.allOnes 64 then { val := v } else { p with val := v, checks := checks }

/-- A parity update (R100): a word that is as its group asks, without a mark, is listed no more. -/
def Tile.updateParity (x : Tile) (key : Nat) (mask : BitVec 64) : Tile :=
  let p := x.updatedParity key mask
  let rest := x.parity.filter (·.1 != key)
  { x with parity := if p = { val := x.groupXor (key / 2048) (key % 2048) } then rest else (key, p) :: rest }

/-- A parity word in which a read has found an error that its code does not correct, and which no DIAGST has written, is recomputed in a step in which its group is
free (R347); of each group the first listed. A retired bank has nothing to recompute it from (R357). -/
def Tile.healParity (x : Tile) (free : Nat → Bool) : Tile :=
  let bad (e : Nat × ParityWord) : Bool := !e.2.injected && e.2.found && (wordRead e.2.val e.2.checks).2.2.2 && free (e.1 / 2048) &&
    !(List.range 4).any fun i => x.retiredBanks.getLsbD (4 * (e.1 / 2048) + i)
  (List.range 4).foldl (fun (z : Tile) g =>
    match z.parity.find? fun e => e.1 / 2048 == g && bad e with
    | some e => { z with parity := z.parity.filter (·.1 != e.1) }
    | none => z) x

/-- The banks a write touches. -/
def LocalWrite.banks (w : LocalWrite) : List Nat := ((wordsIn w.bytes).map (· % 16)).dedup

/-- The issuer of Winnow's writes into scratchpads, behind the 768 sequencers. -/
def winnowIssuer : Nat := 1024

/-- The tile is OFF, or on the way there (R19). -/
def Tile.goesOff (x : Tile) : Bool :=
  x.power == .off || (match x.move with | .entering p _ => p == .off | _ => false)

/-- A write of Winnow waits at the inbound port of a tile that is OFF, or is entering OFF, until the tile is awake (log 57, DEDUCED). -/
def Tile.heldInbound (x : Tile) (e : Inbound) : Bool := x.goesOff && e.issuer == winnowIssuer

/-- The writes of Winnow that a tile held while it was OFF perform as it wakes, before its first step (log 57, DEDUCED). -/
def Tile.takeHeld (x : Tile) : Tile :=
  let ws := (x.inbound.filter (·.issuer == winnowIssuer)).map (·.write)
  ws.foldl (fun (z : Tile) w => z.applyWrite w) { x with inbound := x.inbound.filter (·.issuer != winnowIssuer) }

/-- The inbound writes of a tick (R101, R102, R128): those that perform, in order, and those that wait. `ahead` are banks that multicast beats
still to come in the tick take. A write through the aperture waits behind one of its issuer that waits (R412). -/
def Tile.inboundSplit (x : Tile) (tick : Nat) (ahead : List Nat := []) : List Inbound × List Inbound :=
  let now (e : Inbound) : Bool := e.due ≤ tick && !x.heldInbound e
  let due := x.inbound.filter now
  let later := x.inbound.filter fun e => !now e
  let cast := due.filter (·.multicast)
  let uni := (sortKey [] ((due.filter fun e => !e.multicast).map fun e => (e.issuer, e))).map (·.2)
  let taken := (cast.flatMap fun e => e.write.banks) ++ ahead
  let r := uni.foldl (fun (acc : List Inbound × List Inbound × List Nat) e =>
    let bs := e.write.banks
    let behind := e.aperture && acc.2.1.any fun w => w.aperture && w.issuer == e.issuer
    if behind || bs.any fun b => acc.2.2.contains b || x.atomicNow.contains b || x.reservations.any fun r => r.bank == b && 0 < r.left
    then (acc.1, acc.2.1 ++ [{ e with due := tick + 1, deferred := true }], bs ++ acc.2.2)
    else (acc.1 ++ [e], acc.2.1, bs ++ acc.2.2)) (cast, later, taken)
  (r.1, r.2.1)

/-- A store of the word at the cursor: the flight that performs it. -/
def State.emitStore (s : State) (lat : Nat) (w : LocalWrite) : State := s.emit lat (.store w)

end Sys2Proof.Machine
end

