-- ==== Sys2Proof/Machine/Mram.lean ====
section
/-! DEFINITION. Weight MRAM: the row map, overlays and the BCH code (R103, R105, R375, R411), owner locks (R334). -/
namespace Sys2Proof.Machine

/-- The physical row of a logical row under the map in force (R103, R105). -/
def Tile.physRow (x : Tile) (row : Nat) : Nat := (x.rowMap.lookup row).getD row

/-- Stored bytes at an MRAM offset, through the row map. -/
def Tile.mramBytes (x : Tile) (off n : Nat) : List Byte :=
  (List.range n).map fun k => byteAt x.mram (1024 * x.physRow ((off + k) / 1024) + (off + k) % 1024)

/-! GF(2^10) on x^10 + x^3 + 1 (R411). -/

def gfMulStep (a : Nat) : Nat → Nat → Nat
  | 0, _ => 0
  | n + 1, b =>
    let a2 := if a ≥ 512 then Nat.xor (2 * a) 0x409 else 2 * a
    Nat.xor (if b % 2 = 1 then a else 0) (gfMulStep a2 n (b / 2))

def gfMul (a b : Nat) : Nat := gfMulStep a 10 b

/-- `a^(2^10 - 2)`, the inverse. -/
def gfInv (a : Nat) : Nat := (List.range 8).foldl (fun r _ => gfMul (gfMul r r) a) a |> fun r => gfMul r r

def gfPow (a : Nat) : Nat → Nat
  | 0 => 1
  | n + 1 => gfMul a (gfPow a n)

/-- The generator of degree 40: the product of the minimal polynomials of the first, third, fifth and seventh power of
the root (R411). -/
def bchGen : Nat := 0x182EBE91E9B

/-- Remainder modulo the generator of `x^40 * m(x)`, one bit of `m` from the top at a time. -/
def bchRem (m : Nat) : Nat → Nat → Nat
  | 0, r => r
  | n + 1, r =>
    let top := (if nbit r 39 then 1 else 0) + (if nbit m n then 1 else 0)
    let r2 := (2 * r) % 2 ^ 40
    bchRem m n (if top = 1 then Nat.xor r2 (bchGen % 2 ^ 40) else r2)

/-- The 41 check bits of a 64-byte word (R411). -/
def bchChecks (v : Vec) : BitVec 41 :=
  let c := bchRem v.toNat 512 0
  BitVec.ofNat 41 (c + (if (popCount 512 v.toNat + popCount 40 c) % 2 = 1 then 2 ^ 40 else 0))

/-- Positions of ones of a 552-bit error: check bits 0 to 39 below, data bits above. -/
def errorPositions (data checks : Nat) : List Nat :=
  ((List.range 40).filter (nbit checks)) ++ (((List.range 512).filter (nbit data)).map (· + 40))

/-- Powers of the root for positions 0 to 551. -/
def gfTable : Nat → Nat → List Nat
  | 0, _ => []
  | n + 1, a => a :: gfTable n (gfMul a 2)

/-- Syndrome `j` of an error. -/
def syndrome (pos : List Nat) (j : Nat) : Nat :=
  pos.foldl (fun acc p => Nat.xor acc (gfPow 2 (j * p % 1023))) 0

/-- Polynomials over the field as lists from the constant term. -/
def polyXor : List Nat → List Nat → List Nat
  | [], ys => ys
  | xs, [] => xs
  | x :: xs, y :: ys => Nat.xor x y :: polyXor xs ys

/-- Berlekamp-Massey on the syndromes still to come: state is the locator, its former value, its length, the gap and the
former discrepancy. -/
def massey (syn : List Nat) : Nat → Nat → List Nat → List Nat → Nat → Nat → Nat → List Nat × Nat
  | 0, _, c, _, l, _, _ => (c, l)
  | k + 1, n, c, b, l, m, d0 =>
    let d := (List.range (l + 1)).foldl (fun acc i => Nat.xor acc (gfMul (c.getD i 0) (syn.getD (n - i) 0))) 0
    if d = 0 then massey syn k (n + 1) c b l (m + 1) d0
    else
      let f := gfMul d (gfInv d0)
      let c2 := polyXor c (List.replicate m 0 ++ b.map (gfMul f))
      if 2 * l ≤ n then massey syn k (n + 1) c2 c (n + 1 - l) 1 d
      else massey syn k (n + 1) c2 b l (m + 1) d0

def polyEval (c : List Nat) (x : Nat) : Nat := c.foldr (fun a acc => Nat.xor a (gfMul x acc)) 0

/-- The correction of an error pattern (R411): up to four wrong bits among data and check bits are found, as a pattern of
data bits with their count; `none` when the pattern is found uncorrectable. -/
def bchCorrect (data : Nat) (checks : Nat) : Option (Nat × Nat) :=
  let pos := errorPositions data checks
  let odd := (pos.length + (if nbit checks 40 then 1 else 0)) % 2
  let syn := (List.range 8).map fun j => syndrome pos (j + 1)
  if syn.all (· == 0) then (if odd = 1 then some (0, 1) else some (0, 0))
  else
    let (c, l) := massey syn 8 0 [1] [1] 0 1 1
    -- a wrong bit at p makes the inverse of the root's p-th power a root of the locator
    let found := (List.range 552).filter fun p => polyEval c (gfPow 2 ((1023 - p % 1023) % 1023)) == 0
    if found.length ≠ l then none
    else
      let total := l + (if l % 2 = odd then 0 else 1)
      if total > 4 then none
      else some (found.foldl (fun acc p => if p ≥ 40 then acc + 2 ^ (p - 40) else acc) 0, total)

/-- The error that a read of 64-byte word `k` through physical row `phys` meets: the pattern of its overlay (R375) and of wrong cells (R347),
and whether an overlay brings it. -/
def Tile.mramError (x : Tile) (phys k : Nat) : Vec × BitVec 41 × Bool :=
  let o := x.overlays.find? fun o => o.addr == 64 * k
  let c := x.cellErrors.find? fun o => o.addr == 64 * (16 * phys + k % 16)
  let val (o : Option Overlay) : Vec := (o.map (·.val)).getD 0
  let chk (o : Option Overlay) : BitVec 41 := (o.map (·.checks)).getD 0
  (val o ^^^ val c, chk o ^^^ chk c, o.isSome)

/-- One 64-byte word of a read (R348, R375): bytes after correction, poison, bits corrected that no overlay brought. -/
def Tile.mramWordVia (x : Tile) (phys k : Nat) : Vec × Option Poison × Nat :=
  let v := bytesVec (bytesAt x.mram (1024 * phys + 64 * (k % 16)) 64)
  match x.mramPoison.lookup (16 * phys + k % 16) with
  | some p => (v, some p, 0)
  | none =>
    let (e, c, inj) := x.mramError phys k
    if e = 0 && c = 0 then (v, none, 0)
    else match bchCorrect e.toNat c.toNat with
      | some (fix, n) => (v ^^^ e ^^^ BitVec.ofNat 512 fix, none, if inj then 0 else n)
      | none => (v ^^^ e, some { code := 0x0502, addr := 0x8000000 + 64 * k, injected := inj, syndrome := (bchChecks e ^^^ c).toNat }, 0)
def Tile.mramWord (x : Tile) (k : Nat) : Vec × Option Poison × Nat := x.mramWordVia (x.physRow (k / 16)) k

/-- `n` bytes at an offset from the words that a read met. -/
def mramPart (off n : Nat) (ws : List (Vec × Option Poison × Nat)) : List Byte × Option Poison :=
  (((ws.flatMap fun w => vecBytes w.1).drop (off % 64)).take n, ws.findSome? (·.2.1))

/-- `n` bytes of a read or fetch, with its poison. -/
def Tile.mramRead (x : Tile) (off n : Nat) : List Byte × Option Poison := mramPart off n ((wordsOf off n).map x.mramWord)

/-- The row at an MRAM offset lies in a region that is locked for context `c` (R331, R334). -/
def State.mramLocked (s : State) (t off c : Nat) : Bool :=
  match s.owners.lookup (16 * t + off / 1048576) with
  | some (tag, who) => tag != 0 && who != some c
  | none => false

/-- A physical row is to be retired when its tile's journal is idle (R347). -/
def State.retireRow (s : State) (t off phys : Nat) : State := s.after 0 .mramRowRewrite [t, off / 1024, 0, phys + 1]

/-- A row that gave an uncorrectable read is retired; poison that a put brought is no error of the row. -/
def State.noteBadRow (s : State) (t off phys : Nat) (p : Option Poison) : State :=
  match p with
  | some { code := 0x0502, injected := false, .. } => s.retireRow t off phys
  | _ => s

/-- The words of a read: corrected bits are counted, and a word with more than two of them retires its row (R347). -/
def State.noteFixes (s : State) (t off phys : Nat) (ws : List (Vec × Option Poison × Nat)) : State :=
  let n := ws.foldl (fun n w => n + w.2.2) 0
  if n = 0 then s
  else
    let s := s.countCorrected t 1 n
    if ws.any fun w => 2 < w.2.2 then s.retireRow t off phys else s

/-- A read through the MRAM port (R104) of bytes of one row, by its physical row: one port step, the bytes, their poison. -/
def State.readMramVia (s : State) (t rank phys off n : Nat) : State × List Byte × Option Poison :=
  let ws := (wordsOf off n).map ((s.tile t).mramWordVia phys)
  let (bs, p) := mramPart off n ws
  (((s.modTile t (·.use { port := 16, write := false, rank := rank })).noteFixes t off phys ws).noteBadRow t off phys p, bs, p)
/-- The same through the row map in force (R105). -/
def State.readMram (s : State) (t rank off n : Nat) : State × List Byte × Option Poison :=
  s.readMramVia t rank ((s.tile t).physRow (off / 1024)) off n

end Sys2Proof.Machine
end

