-- ==== Sys2Proof/Machine/Translate.lean ====
section
/-! DEFINITION. Physical addresses, memory behind them, and translation (R106 to R113). -/
namespace Sys2Proof.Machine

/-- What a physical address names (R107). -/
inductive Place where
  | lpddr
  | aperture (tile offset : Nat)
  | peer (package offset : Nat)
  | host
  deriving DecidableEq, Repr

/-- The package's own map below the peer windows; the error is the code of check 7. -/
def ownPlace (populated pa : Nat) : Except Nat Place :=
  if pa < 0x8000000000 then (if pa < populated then .ok .lpddr else .error 0x0406)
  else if 0x10000000000 ≤ pa && pa < 0x10000000000 + 384 * 0x200000 then
    let o := pa - 0x10000000000
    if o % 0x200000 < 0x100000 then .ok (.aperture (o / 0x200000) (o % 0x200000)) else .error 0x0407
  else .error 0x0406

/-- Where the bytes of an own address stand (R384 to R387): until the end of its cutover window the content of a migrating page stands in its old
frame, under either address, and after it what names the old frame is forwarded to the new one. -/
def State.homeAddr (s : State) (pa : Nat) : Nat :=
  match s.migrations.find? fun m => m.new ≤ pa && pa < m.new + m.size with
  | some m => m.old + (pa - m.new)
  | none =>
    match s.forwarding.find? fun f => f.1 ≤ pa && pa < f.1 + f.2.2 with
    | some f => f.2.1 + (pa - f.1)
    | none => pa

/-- An address in the window of the package's own number is the package's own address (R107). -/
def State.ownAddr (s : State) (pa : Nat) : Nat :=
  s.homeAddr (if 0x1000000000000 ≤ pa && pa < 0x2000000000000 && (pa - 0x1000000000000) / 0x100000000000 == s.sheaf.package
  then (pa - 0x1000000000000) % 0x100000000000 else pa)

/-- Check 7 of R110 and what the address names. A peer window is checked by the same map with the peer's capacity; a package that the
Sheaf does not record in the fabric group gives 0x040B (R394, log 31, DEDUCED). -/
def State.place (s : State) (pa0 : Nat) : Except Nat Place :=
  let pa := s.ownAddr pa0
  if pa ≥ 0x10000000000000 then .error 0x0406
  else if pa ≥ 0x8000000000000 then .ok .host
  else if 0x1000000000000 ≤ pa && pa < 0x2000000000000 then
    let p := (pa - 0x1000000000000) / 0x100000000000
    let o := (pa - 0x1000000000000) % 0x100000000000
    match s.sheaf.peers.lookup p with
    | none => .error 0x040B
    | some size => match ownPlace size o with
      | .ok _ => .ok (.peer p o)
      | .error c => .error c
  else ownPlace s.sheaf.populated pa

/-! LPDDR-6 sectors (R347, R348, R352). -/

def State.sectorMark (s : State) (k : Nat) : SectorMark := mget {} s.sectors k

def quarter (v : Vec) (i : Nat) : BitVec 128 := v.extractLsb' (128 * i) 128

/-- A quarter with its code bits: the corrected quarter and whether a symbol was corrected; `none` when two are wrong. -/
def quarterRead (d : BitVec 128) (c : BitVec 8) : Option (BitVec 128 × Bool) :=
  if Config.deviceCode d = c then some (d, false)
  else
    let tries := (List.range 32).flatMap fun i => (List.range 15).map fun e => d ^^^ (BitVec.ofNat 128 (e + 1) <<< (4 * i))
    match tries.find? fun t => Config.deviceCode t = c with
    | some t => some (t, true)
    | none =>
      let x := Config.deviceCode d ^^^ c
      if x.toNat < 16 || x.toNat % 16 = 0 then some (d, true) else none

/-- The device code of a sector without error. -/
def deviceWord (v : Vec) : BitVec 32 :=
  BitVec.ofNat 32 (leNat ((List.range 4).map fun i => Config.deviceCode (quarter v i)))

/-- A sector under a stored code: corrected data, symbols corrected, uncorrectable or not. -/
def sectorDecode (v : Vec) (code : Option (BitVec 32)) : Vec × Nat × Bool :=
  match code with
  | none => (v, 0, false)
  | some c =>
    let rs := (List.range 4).map fun i => quarterRead (quarter v i) (c.extractLsb' (8 * i) 8)
    let bytes := ((List.range 4).zip rs).flatMap fun p =>
      leBytes 16 (match p.2 with | some (d, _) => d.toNat | none => (quarter v p.1).toNat)
    (bytesVec bytes, (rs.filter fun r => r.any (·.2)).length, rs.any Option.isNone)

/-- The syndrome of a sector as stored (R341; log 49, DEDUCED). -/
def sectorSyndrome (v : Vec) (code : Option (BitVec 32)) : Nat :=
  match code with
  | some c => (deviceWord v ^^^ c).toNat
  | none => 0

/-- A quarter after a write of the bytes that `written` names, from the quarter and code bits as stored: one written whole is clean; one written in part is
corrected first, and keeps its syndrome where it cannot be (log 7, DESIGN CHOICE). -/
def mergeQuarter (d : BitVec 128) (c : BitVec 8) (new : BitVec 128) (written : BitVec 16) : BitVec 128 × BitVec 8 :=
  let onto (old : BitVec 128) : BitVec 128 :=
    BitVec.ofNat 128 (leNat ((List.range 16).map fun k => if written.getLsbD k then new.extractLsb' (8 * k) 8 else old.extractLsb' (8 * k) 8))
  if written = BitVec.allOnes 16 then (new, Config.deviceCode new)
  else if written = 0 then (d, c)
  else match quarterRead d c with
    | some (d', _) => (onto d', Config.deviceCode (onto d'))
    | none => (onto d, Config.deviceCode (onto d) ^^^ Config.deviceCode d ^^^ c)

/-- A sector and its code after a write of the bytes in `mask`, from both as stored. -/
def mergeSector (d : Vec) (code : Option (BitVec 32)) (new : Vec) (mask : BitVec 64) : Vec × Option (BitVec 32) :=
  match code with
  | none => (mergeBytes mask new d, none)
  | some c =>
    let qs := (List.range 4).map fun i => mergeQuarter (quarter d i) (c.extractLsb' (8 * i) 8) (quarter new i) (mask.extractLsb' (16 * i) 16)
    let v := bytesVec (qs.flatMap fun q => leBytes 16 q.1.toNat)
    let r := BitVec.ofNat 32 (leNat (qs.map (·.2)))
    (v, if r = deviceWord v then none else some r)

/-- A write reaches sector `k` (R348, R352): its bytes and its mark. -/
def sectorWrite (k : Nat) (x : Vec × SectorMark) (w : GlobalWrite) : Vec × SectorMark :=
  if !w.bytes.any fun b => b.1 / 64 == k then x
  else
    let mask : BitVec 64 := w.bytes.foldl (fun m b => if b.1 / 64 = k then m ||| (1#64 <<< (b.1 % 64)) else m) 0
    let v := bytesVec ((List.range 64).map fun i => (w.bytes.lookup (64 * k + i)).getD (x.1.extractLsb' (8 * i) 8))
    let whole := mask = BitVec.allOnes 64
    let m := x.2
    match w.code with
    | some c => (v, { poison := w.poison, injected := true, code := if c = deviceWord v then none else some c })
    | none =>
      let (stored, code) := mergeSector x.1 m.code v mask
      (stored, { poison := w.poison.or (if whole then none else m.poison), injected := false, code := code })

/-- A sector with the released entries in front of it: bytes as stored, and mark (R118). -/
def State.rawSector (s : State) (k0 : Nat) : Vec × SectorMark :=
  let k := s.homeAddr (64 * k0) / 64
  s.forward.foldl (fun x e => sectorWrite k x e.write) (bytesVec (bytesAt s.mem (64 * k) 64), s.sectorMark k)

/-- The 64-byte sector at physical address `64*k` as a reader outside every staging buffer gets it. -/
def State.sector (s : State) (k : Nat) : Vec × Option Poison :=
  let (v, m) := s.rawSector k
  let (d, _, bad) := sectorDecode v m.code
  (d, m.poison.or (if bad then some { code := 0x0505, addr := 64 * k, injected := m.injected, syndrome := sectorSyndrome v m.code } else none))

/-- No sector stands under a code that differs from its data's. -/
def State.codesClean (s : State) : Bool := s.sectors.isEmpty && !s.forward.any fun e => e.write.code.isSome

/-- A byte of memory as a read outside every staging buffer gets it: released entries in front of it, and corrected (R118, R347). -/
def State.physByte (s : State) (a0 : Nat) : Byte :=
  let a := s.homeAddr a0
  if s.codesClean then s.forward.foldl (fun acc e => (e.write.bytes.lookup a).getD acc) (byteAt s.mem a)
  else (s.sector (a / 64)).1.extractLsb' (8 * (a % 64)) 8

def State.physBytes (s : State) (a n : Nat) : List Byte := (List.range n).map fun k => s.physByte (a + k)

/-- A read has found sector `k` uncorrectable: from now on it is poisoned (R347, R348). A diagnostic write that is released and not yet in memory holds the mark. -/
def State.poisonSector (s : State) (k : Nat) (p : Poison) : State :=
  let here (e : StagingEntry) : Bool := e.write.code.isSome && e.write.bytes.any fun b => b.1 / 64 == k
  if s.forward.any here then
    { s with forward := s.forward.map fun e => if here e then { e with write := { e.write with poison := e.write.poison.or (some p) } } else e }
  else { s with sectors := mset {} s.sectors k { s.sectorMark k with poison := some p } }

/-- The sectors a write touches. -/
def GlobalWrite.sectors (w : GlobalWrite) : List Nat := (w.bytes.map fun b => b.1 / 64).dedup

/-- A write to a page in migration sets the dirty bits of its sectors (R384). -/
def State.noteDirty (s : State) (w : GlobalWrite) : State :=
  if s.migrations.isEmpty then s
  else { s with migrations := s.migrations.map fun (m : Migration) =>
    { m with dirty := (w.sectors.foldl (fun d k =>
        if m.old ≤ 64 * k && 64 * k < m.old + m.size && !d.contains k then d ++ [k] else d) m.dirty) } }

/-- A write performs in memory: bytes and marks, and the dirty bits of a page in migration. -/
def State.memPut (s : State) (w0 : GlobalWrite) : State :=
  let w : GlobalWrite := { w0 with bytes := w0.bytes.map fun b => (s.homeAddr b.1, b.2) }
  (w.sectors.foldl (fun (s : State) k =>
    let (v, m) := sectorWrite k (bytesVec (bytesAt s.mem (64 * k) 64), s.sectorMark k) w
    { s with mem := putBytes s.mem (64 * k) (vecBytes v), sectors := mset {} s.sectors k m }) s).noteDirty w

/-! Translation (R108 to R111). -/

/-- The levels of the walk: lowest VA bit, index bits, leaf allowed, alignment of the next table. -/
def walkLevels : List (Nat × Nat × Bool × Nat) :=
  [(48, 9, false, 4096), (39, 9, false, 4096), (30, 9, true, 4096), (21, 9, true, 512), (15, 6, true, 512)]

/-- Walk from a table: page size, physical base, W and NC of the leaf, or the code of the first check that fails. -/
def State.walk (s : State) (va : Nat) : List (Nat × Nat × Bool × Nat) → Nat → Except Nat (Nat × Nat × Bool × Bool)
  | [], _ => .error 0x0404
  | (lo, len, leafOk, align) :: rest, table =>
    if s.sheaf.populated ≤ table then .error 0x0409
    else
      let e := leNat (s.physBytes (table + 8 * nbits va lo len) 8)
      let leaf := nbit e 1
      let addr := nbits e 9 43 * 512
      if !nbit e 0 then .error 0x0402
      else if nbits e 5 4 != 0 || nbits e 52 12 != 0 || (leaf && !leafOk) || (!leaf && rest.isEmpty) then .error 0x0404
      else if leaf then (if addr % 2 ^ lo = 0 then .ok (2 ^ lo, addr, nbit e 2, nbit e 3) else .error 0x0405)
      else if addr % align = 0 then s.walk va rest addr else .error 0x0405

/-- The TLB entry of an address. -/
def Seq.tlbFind (y : Seq) (va : Nat) : Option TlbEntry := y.tlb.find? fun e => e.va ≤ va && va < e.va + e.size

/-- Translate an access of sequencer `q` of tile `t` (R110): the state with its TLB, the physical address, NC. -/
def State.translate (s : State) (t q va : Nat) (write : Bool) : Except Nat (State × Nat × Bool) :=
  if va ≥ 2 ^ 57 then .error 0x0401
  else
    let y := s.seq t q
    let entry : Except Nat TlbEntry := match y.tlbFind va with
      | some e => .ok e
      | none => match s.walk va walkLevels (s.ctx (s.ctxOf t)).root with
        | .ok (size, pa, w, nc) => .ok { va := va / size * size, size := size, pa := pa, writable := w, nc := nc }
        | .error c => .error c
    match entry with
    | .error c => .error c
    | .ok e =>
      if write && !e.writable then .error 0x0403
      else
        let pa := e.pa + (va - e.va)
        match s.place pa with
        | .error c => .error c
        | .ok _ => .ok (s.setSeq t q { y with tlb := (e :: y.tlb.filter (· != e)).take 128 }, s.ownAddr pa, e.nc)

/-- Read through the tables of context `x` without a sequencer (front end, Granary, Winnow): the physical address. -/
def State.ctxAddr (s : State) (x va : Nat) : Except Nat Nat :=
  if va ≥ 2 ^ 57 then .error 0x0401
  else
    match s.walk va walkLevels (s.ctx x).root with
    | .error c => .error c
    | .ok (size, pa, _, _) =>
      match s.place (pa + va % size) with
      | .error c => .error c
      | .ok _ => .ok (s.ownAddr (pa + va % size))

/-- Bytes of a context's address space as released memory holds them; unreadable bytes read as 0. -/
def State.ctxBytes (s : State) (x va n : Nat) : List Byte :=
  (List.range n).map fun k => match s.ctxAddr x (va + k) with
    | .ok pa => s.physByte pa
    | .error _ => 0

end Sys2Proof.Machine
end

