-- ==== Sys2Proof/Machine/Global.lean ====
section
/-! DEFINITION. The L1, the staging buffers and writes through the scratchpad aperture (R114 to R119, R131 to R135,
R412). -/
namespace Sys2Proof.Machine

/-! Staging (R118). -/

/-- Sector of a global write. -/
def GlobalWrite.sector (w : GlobalWrite) : Nat := (w.bytes.head?.map (·.1)).getD 0 / 64

/-- Writes of one party to one sector at one scope share an entry; adds and diagnostic writes stand alone (R118). -/
def StagingEntry.merges (e f : StagingEntry) : Bool :=
  e.party == f.party && e.write.scope == f.write.scope && e.write.sector == f.write.sector && !e.write.add && !f.write.add &&
  e.write.code.isNone && f.write.code.isNone

/-- The number of 64-byte entries that a list of writes takes. -/
def entryCount : List StagingEntry → Nat
  | [] => 0
  | e :: es => (if es.any e.merges then 0 else 1) + entryCount es

/-- Entries of a die: unreleased ones and released ones that have not reached memory. -/
def State.stagedOn (s : State) (d : Nat) : Nat :=
  let out := s.forward.filter fun e => dieOf (e.party / 2) == d
  if (s.die d).staging.length + out.length < 65536 then 0 else entryCount (s.die d).staging + entryCount out

/-- A write of at most one sector enters the staging buffer of its issuer's die at a tick; a full buffer takes nothing and
ends the partition with 0x010A. The list keeps the writes in their order; those that share an entry count once. -/
def State.stageAt (s : State) (t q tick : Nat) (w : GlobalWrite) : State :=
  let d := dieOf t
  let die := s.die d
  let e : StagingEntry := { party := seqNumber t q, tick := tick, write := w }
  if s.stagedOn d ≥ 65536 && !die.staging.any e.merges then
    s.partitionFault (s.ctxOf t) t q { code := 0x010A, unit := 255, step := (s.seq t q).clock }
  else s.setDie d { die with staging := die.staging ++ [e] }

def State.stage (s : State) (t q : Nat) (w : GlobalWrite) : State := s.stageAt t q s.gtick w

/-- A write of every byte of a sector (R348). -/
def GlobalWrite.covers (w : GlobalWrite) (k : Nat) : Bool := (List.range 64).all fun i => (w.bytes.lookup (64 * k + i)).isSome

/-- A write cut into its sectors, ascending. -/
def GlobalWrite.split (w : GlobalWrite) : List GlobalWrite :=
  ((w.bytes.map fun b => b.1 / 64).dedup).map fun k => { w with bytes := w.bytes.filter fun b => b.1 / 64 == k }

def State.stageAll (s : State) (t q : Nat) (w : GlobalWrite) : State := w.split.foldl (fun s w => s.stage t q w) s

/-- The bytes of one sector as the party itself reads them below its L1 (R133, R134): its own entries over memory. -/
def State.partySector (s : State) (t q k : Nat) : Vec × Option Poison :=
  let (v, p) := s.sector k
  let own := (s.die (dieOf t)).staging.filter fun e => e.party == seqNumber t q && e.write.sector == k && !e.write.add
  let bs := (vecBytes v).zipIdx.map fun b =>
    own.foldl (fun acc e => (e.write.bytes.lookup (64 * k + b.2)).getD acc) b.1
  (bytesVec bs, own.foldl (fun p e => e.write.poison.or (if e.write.covers k then none else p)) p)

/-- What a read by a tile leaves behind in LPDDR-6: symbols corrected are counted, but those of an injected sector, and a sector found uncorrectable is poisoned
(R347, R348, R352). -/
def State.countSectors (s : State) (t : Nat) (ks : List Nat) : State :=
  if s.codesClean then s
  else ks.foldl (fun (s : State) k =>
    let (v, m) := s.rawSector k
    let n := (sectorDecode v m.code).2.1
    let s := if m.injected || n = 0 then s else s.countCorrected t 2 n
    match m.poison, (s.sector k).2 with
    | none, some p => s.poisonSector (s.homeAddr (64 * k) / 64) p
    | _, _ => s) s

/-! The L1 (R114 to R116). -/

def Line.sector (l : Line) (i : Nat) : Vec := l.data.extractLsb' (512 * i) 512
def Line.setByte (l : Line) (k : Nat) (b : Byte) : Line :=
  { l with data := (l.data &&& ~~~ ((0xFF : BitVec 2048) <<< (8 * k))) ||| ((b.setWidth 2048) <<< (8 * k)) }
/-- Store one byte into a line and mark it dirty. -/
def dirtyByte (l : Line) (b : Nat × Byte) : Line :=
  { l.setByte (b.1 % 256) b.2 with dirty := l.dirty ||| (1#256 <<< (b.1 % 256)) }
def Line.isDirty (l : Line) : Bool := l.dirty != 0
/-- The dirty bytes of sector `i` as a staged write. -/
def Line.writeBack (l : Line) (scope i : Nat) : Option GlobalWrite :=
  let bs := (List.range 64).filterMap fun k =>
    if l.dirty.getLsbD (64 * i + k) then some (256 * l.tag + 64 * i + k, l.data.extractLsb' (8 * (64 * i + k)) 8) else none
  if bs.isEmpty then none else some { bytes := bs, scope := scope }

/-- The dirty sectors of a line. -/
def Line.dirtySectors (l : Line) (scope : Nat) : List GlobalWrite := (List.range 4).filterMap (l.writeBack scope)

/-- An external write arrives (R136, R403): the ingress staging holds them by arrival, those of one tick as they came. -/
def insertArrival (e : ExternalWrite) : List ExternalWrite → List ExternalWrite
  | [] => [e]
  | x :: xs => if e.arrived < x.arrived then e :: x :: xs else x :: insertArrival e xs
def State.arrive (s : State) (e : ExternalWrite) : State := { s with ingress := insertArrival e s.ingress }

/-- Put a line at the front; the least recently used of a full set leaves, and is given back (R114). -/
def Seq.putLine (y : Seq) (l : Line) : Seq × Option Line :=
  let others := y.l1.filter (·.tag != l.tag)
  let set := others.filter fun x => x.tag % 32 == l.tag % 32
  if set.length < 8 then ({ y with l1 := l :: others }, none)
  else
    match set.getLast? with
    | some v => ({ y with l1 := l :: others.filter (·.tag != v.tag) }, some v)
    | none => ({ y with l1 := l :: others }, none)

/-- Put a line, writing back what it evicts at that line's scope (R116). -/
def State.putLine (s : State) (t q : Nat) (l : Line) : State :=
  let (y, out) := (s.seq t q).putLine l
  let s := s.setSeq t q y
  match out with
  | none => s
  | some v => (v.dirtySectors v.scope).foldl (fun s w => s.stage t q w) s

/-- A cached store (R116): bytes of one line, allocated without a fill. -/
def State.l1Write (s : State) (t q : Nat) (w : GlobalWrite) : State :=
  let tag := (w.bytes.head?.map (·.1)).getD 0 / 256
  let l : Line := ((s.seq t q).l1.find? (·.tag == tag)).getD { tag := tag }
  let l : Line := w.bytes.foldl dirtyByte l
  s.putLine t q { l with scope := w.scope, poison := l.poison.filter fun e => !w.covers (4 * tag + e.1) }

/-- Every byte of sector `i` of the line is dirty: nothing of it is read from below (R348). -/
def Line.wholeDirty (l : Line) (i : Nat) : Bool := (List.range 64).all fun k => l.dirty.getLsbD (64 * i + k)

/-- A load through the L1 (R115): the sector's bytes and poison, and whether its data was there. A sector counts as valid from the load that fills it on, so a
second load hits (log 77, DEDUCED). -/
def State.l1Read (s : State) (t q pa : Nat) : State × Vec × Option Poison × Bool :=
  let tag := pa / 256
  let i := pa / 64 % 4
  let l : Line := ((s.seq t q).l1.find? (·.tag == tag)).getD { tag := tag }
  if l.valid.getLsbD i then (s.putLine t q l, l.sector i, l.poison.lookup i, true)
  else
    let (v, p0) := s.partySector t q (pa / 64)
    let p := if l.wholeDirty i then none else p0
    let l := (List.range 64).foldl (fun (l : Line) k =>
      if l.dirty.getLsbD (64 * i + k) then l else l.setByte (64 * i + k) (v.extractLsb' (8 * k) 8)) l
    let rest := l.poison.filter (·.1 != i)
    let l := { l with valid := l.valid ||| (1#4 <<< i), poison := match p with | some p => (i, p) :: rest | none => rest }
    ((s.countSectors t [pa / 64]).putLine t q l, l.sector i, p, false)

/-! A party's own stores as its loads see them (R134). -/

/-- The STX and VSTX words of earlier steps that have not performed; a handler's loads follow the handler's stores (R344). -/
def Seq.issuedStores (y : Seq) : List GlobalWrite :=
  (if y.inHandler then y.hflights else y.flights).filterMap fun f => match f.act with
    | .global w _ _ => if f.issue < y.now && w.code.isNone then some w else none
    | _ => none

/-- A sector as the party's load finds it: its stores on their way over what lies below. -/
def State.overStores (s : State) (t q k : Nat) (r : Vec × Option Poison) : Vec × Option Poison :=
  let own := (s.seq t q).issuedStores.map fun w => w.bytes.map fun b => (s.homeAddr b.1, b.2)
  if own.isEmpty then r
  else
    let at0 := s.homeAddr (64 * k)
    let bs := (vecBytes r.1).zipIdx.map fun b => own.foldl (fun acc w => (w.lookup (at0 + b.2)).getD acc) b.1
    let whole := own.any fun w => (List.range 64).all fun i => (w.lookup (at0 + i)).isSome
    (bytesVec bs, if whole then none else r.2)

/-- The dirty bytes that the party's L1 holds of a sector, over it: a load of an NC page finds them too. A sector that is dirty as a whole has nothing of the
poison below (R348). -/
def Seq.overDirty (y : Seq) (k : Nat) (r : Vec × Option Poison) : Vec × Option Poison :=
  match y.l1.find? (·.tag == k / 4) with
  | none => r
  | some l =>
    (bytesVec ((vecBytes r.1).zipIdx.map fun b =>
      if l.dirty.getLsbD (64 * (k % 4) + b.2) then l.data.extractLsb' (8 * (64 * (k % 4) + b.2)) 8 else b.1),
     if l.wholeDirty (k % 4) then none else r.2)

/-- A store to an NC page that its party's L1 holds a line of through another page: the line takes the later bytes. -/
def Seq.renewLine (y : Seq) (bytes : Map Byte) : Seq :=
  { y with l1 := y.l1.map fun l => bytes.foldl (fun (l : Line) b => if b.1 / 256 = l.tag then l.setByte (b.1 % 256) b.2 else l) l }

/-- What the L1 writes back for a boundary or fence: dirty sectors of the lines that `sel` picks, at the scope `to_` gives
for the line's own (R132, R135). -/
def Seq.writeBacks (y : Seq) (sel : Line → Bool) (to_ : Nat → Nat) : List GlobalWrite :=
  y.l1.flatMap fun l => if sel l then l.dirtySectors (to_ l.scope) else []

/-- The same lines clean; their recorded scope becomes the one written. -/
def Seq.cleanLines (y : Seq) (sel : Line → Bool) (to_ : Nat → Nat) : Seq :=
  { y with l1 := y.l1.map fun l => if sel l then { l with dirty := 0, scope := to_ l.scope } else l }

/-- Clear the valid bit of every sector that `sel` picks (R132, R135). -/
def Seq.invalidate (y : Seq) (keepDirty : Bool) : Seq :=
  { y with l1 := y.l1.map fun l =>
      let v := (List.range 4).foldl (fun (m : BitVec 4) i =>
        if keepDirty && (List.range 64).any (fun k => l.dirty.getLsbD (64 * i + k)) then m ||| (1#4 <<< i) else m) 0
      { l with valid := l.valid &&& v } }

/-- The scope code a boundary or F-PH word names: itself, or the scope field of a level of the launch (R39). -/
def Ctx.scopeOf (c : Ctx) (raw : Nat) : Nat :=
  if raw < 128 then raw else ((c.launch.map fun l => l.levels.getD (raw - 128) 0).getD 0) / 256 % 256

/-- Phase latency of a scope (R124). -/
def phaseLatency (scope : Nat) : Nat := [1, 4, 40, 160, 600, 2400].getD scope 2400

/-! The scratchpad aperture (R412). -/

/-- A write leaves for the scratchpad of tile `owner`. It stands at the inbound port from the next tick on and performs in the first in which its banks are free,
behind the earlier ones of its issuer to that tile: no later tick that the device could fix is sure to come before the bound, since what takes the port then is not
known when it leaves (log 65, DESIGN CHOICE). `cmd` names the command it is a beat of. -/
def State.apertureWrite (s : State) (t q owner : Nat) (w : GlobalWrite) (cmd : Option (Nat × Nat × Nat) := none) : State :=
  let base := 0x10000000000 + owner * 0x200000
  let me := seqNumber t q
  let lw : LocalWrite := { bytes := w.bytes.map fun b => (b.1 - base, b.2), poison := w.poison, add := w.add, issuer := me }
  let e : Inbound := { due := s.gtick + 1, issuer := me, multicast := false, write := lw, cmd := cmd }
  let s' : State := { s with aperture := s.aperture ++ [(owner, e)] }
  s'.at_ (s.gtick + 1) .apertureWritePerform [owner]

/-- The tile whose scratchpad a physical address reaches through the aperture of this package (R107). -/
def State.apertureOwner (s : State) (pa : Nat) : Option Nat :=
  match s.place (s.homeAddr pa) with
  | .ok (.aperture owner _) => some owner
  | _ => none

/-- A physical address lies in the scratchpad aperture of a tile of this package (R107). -/
def State.onAperture (s : State) (pa : Nat) : Bool := (s.apertureOwner pa).isSome

/-- A global store performs (R195, R238): to an aperture, into the staging buffer, or into the L1. -/
def State.globalStore (s : State) (t q : Nat) (w0 : GlobalWrite) (nc : Bool) (cmd : Option (Nat × Nat × Nat) := none) : State :=
  let w : GlobalWrite := { w0 with bytes := w0.bytes.map fun b => (s.homeAddr b.1, b.2) }
  if w.bytes.isEmpty then s
  else match s.place ((w.bytes.head?.map (·.1)).getD 0) with
  | .ok (.aperture owner _) => s.apertureWrite t q owner w cmd
  | _ => if nc then s.stageAll t q w else s.l1Write t q w

/-- The store of an STX or VSTX word (R134, R195, R238). -/
def State.wordStore (s : State) (t q : Nat) (w : GlobalWrite) (nc : Bool) : State :=
  let s' := s.globalStore t q w nc
  if nc then s'.modSeq t q fun y => y.renewLine (w.bytes.map fun b => (s.homeAddr b.1, b.2)) else s'

end Sys2Proof.Machine
end

