-- ==== Sys2Proof/Machine/Scalar.lean ====
section
/-! DEFINITION. Class 0: scalar integer operations, immediates, and the scalar paths to scratchpad, weight MRAM and global
memory (R165, R187 to R197). -/
namespace Sys2Proof.Machine

/-! Register-register forms (R188): `w` is the width, `A` and `B` the operands, `D` the low bits of gd, all below 2^w. -/

/-- The low `w` bits of a register. -/
def low (w : Nat) (x : W64) : Nat := x.toNat % 2 ^ w

/-- gd := SignExt(r mod 2^w, w) (R187). -/
def srValue (w : Nat) (r : Int) : W64 := w64 (signExt (trunc w r) w)

/-- A register-register operation with latency `lat`. -/
def State.srOp (s : State) (d a b : BitVec 5) (m : BitVec 3) (lat : Nat) (f : Nat → Nat → Nat → Int) : State :=
  let w := opWidth m
  s.emitG lat d.toNat (srValue w (f w (low w (s.G a)) (low w (s.G b))))

/-- A unary operation. -/
def State.srUnary (s : State) (d a : BitVec 5) (m : BitVec 3) (f : Nat → Nat → Int) : State :=
  let w := opWidth m
  s.emitG 1 d.toNat (srValue w (f w (low w (s.G a))))

def boolInt (b : Bool) : Int := if b then 1 else 0

/-- DIV (R188): truncated toward zero; -1 for a zero divisor; overflow gives the most negative number by the width. -/
def divS (w A B : Nat) : Int := if B = 0 then -1 else Int.tdiv (signExt A w) (signExt B w)
/-- REM (R188). -/
def remS (w A B : Nat) : Int := if B = 0 then signExt A w else signExt A w - signExt B w * Int.tdiv (signExt A w) (signExt B w)
/-- Zero bits above the highest one within `w` bits. -/
def clzN (w A : Nat) : Nat := if A = 0 then w else w - 1 - Nat.log2 A
/-- Zero bits below the lowest one. -/
def ctzN (w A : Nat) : Nat := ((List.range w).find? (nbit A)).getD w
/-- FSHL (R188): the high `w` bits of A above D, shifted left by s. -/
def fshlN (w A D s : Nat) : Nat := if s = 0 then A else (A * 2 ^ s + D / 2 ^ (w - s)) % 2 ^ w
/-- FSHR (R188): the low `w` bits of A above D, shifted right by s. -/
def fshrN (w A D s : Nat) : Nat := if s = 0 then D else (D / 2 ^ s + A * 2 ^ (w - s)) % 2 ^ w

/-- NOP (R165): it occupies its step. -/
def execNop (s : State) : Host.Outcome State Fault Refusal := .next s

def execAdd (d a b : BitVec 5) (m : BitVec 3) (s : State) : Host.Outcome State Fault Refusal :=
  .next (s.srOp d a b m 1 fun _ A B => (A : Int) + B)
def execSub (d a b : BitVec 5) (m : BitVec 3) (s : State) : Host.Outcome State Fault Refusal :=
  .next (s.srOp d a b m 1 fun _ A B => (A : Int) - B)
def execAnd (d a b : BitVec 5) (m : BitVec 3) (s : State) : Host.Outcome State Fault Refusal :=
  .next (s.srOp d a b m 1 fun _ A B => Nat.land A B)
def execOr (d a b : BitVec 5) (m : BitVec 3) (s : State) : Host.Outcome State Fault Refusal :=
  .next (s.srOp d a b m 1 fun _ A B => Nat.lor A B)
def execXor (d a b : BitVec 5) (m : BitVec 3) (s : State) : Host.Outcome State Fault Refusal :=
  .next (s.srOp d a b m 1 fun _ A B => Nat.xor A B)
def execAndn (d a b : BitVec 5) (m : BitVec 3) (s : State) : Host.Outcome State Fault Refusal :=
  .next (s.srOp d a b m 1 fun w A B => Nat.land A (2 ^ w - 1 - B))
def execShl (d a b : BitVec 5) (m : BitVec 3) (s : State) : Host.Outcome State Fault Refusal :=
  .next (s.srOp d a b m 1 fun w A B => A * 2 ^ (B % w))
def execShr (d a b : BitVec 5) (m : BitVec 3) (s : State) : Host.Outcome State Fault Refusal :=
  .next (s.srOp d a b m 1 fun w A B => A / 2 ^ (B % w))
def execShra (d a b : BitVec 5) (m : BitVec 3) (s : State) : Host.Outcome State Fault Refusal :=
  .next (s.srOp d a b m 1 fun w A B => Int.fdiv (signExt A w) (2 ^ (B % w)))
def execRotr (d a b : BitVec 5) (m : BitVec 3) (s : State) : Host.Outcome State Fault Refusal :=
  .next (s.srOp d a b m 1 fun w A B => A / 2 ^ (B % w) + A * 2 ^ (w - B % w))
def execMul (d a b : BitVec 5) (m : BitVec 3) (s : State) : Host.Outcome State Fault Refusal :=
  .next (s.srOp d a b m 3 fun w A B => signExt A w * signExt B w)
def execMulh (d a b : BitVec 5) (m : BitVec 3) (s : State) : Host.Outcome State Fault Refusal :=
  .next (s.srOp d a b m 3 fun w A B => Int.fdiv (signExt A w * signExt B w) (2 ^ w))
def execMulhu (d a b : BitVec 5) (m : BitVec 3) (s : State) : Host.Outcome State Fault Refusal :=
  .next (s.srOp d a b m 3 fun w A B => A * B / 2 ^ w)
def execDiv (d a b : BitVec 5) (m : BitVec 3) (s : State) : Host.Outcome State Fault Refusal :=
  .next (s.srOp d a b m 18 divS)
def execDivu (d a b : BitVec 5) (m : BitVec 3) (s : State) : Host.Outcome State Fault Refusal :=
  .next (s.srOp d a b m 18 fun w A B => if B = 0 then 2 ^ w - 1 else (A / B : Nat))
def execRem (d a b : BitVec 5) (m : BitVec 3) (s : State) : Host.Outcome State Fault Refusal :=
  .next (s.srOp d a b m 18 remS)
def execRemu (d a b : BitVec 5) (m : BitVec 3) (s : State) : Host.Outcome State Fault Refusal :=
  .next (s.srOp d a b m 18 fun _ A B => (if B = 0 then A else A % B : Nat))
def execMin (d a b : BitVec 5) (m : BitVec 3) (s : State) : Host.Outcome State Fault Refusal :=
  .next (s.srOp d a b m 1 fun w A B => min (signExt A w) (signExt B w))
def execMax (d a b : BitVec 5) (m : BitVec 3) (s : State) : Host.Outcome State Fault Refusal :=
  .next (s.srOp d a b m 1 fun w A B => max (signExt A w) (signExt B w))
def execMinu (d a b : BitVec 5) (m : BitVec 3) (s : State) : Host.Outcome State Fault Refusal :=
  .next (s.srOp d a b m 1 fun _ A B => (min A B : Nat))
def execMaxu (d a b : BitVec 5) (m : BitVec 3) (s : State) : Host.Outcome State Fault Refusal :=
  .next (s.srOp d a b m 1 fun _ A B => (max A B : Nat))
def execSlt (d a b : BitVec 5) (m : BitVec 3) (s : State) : Host.Outcome State Fault Refusal :=
  .next (s.srOp d a b m 1 fun w A B => boolInt (signExt A w < signExt B w))
def execSltu (d a b : BitVec 5) (m : BitVec 3) (s : State) : Host.Outcome State Fault Refusal :=
  .next (s.srOp d a b m 1 fun _ A B => boolInt (A < B))
def execSeq (d a b : BitVec 5) (m : BitVec 3) (s : State) : Host.Outcome State Fault Refusal :=
  .next (s.srOp d a b m 1 fun _ A B => boolInt (A == B))
def execSne (d a b : BitVec 5) (m : BitVec 3) (s : State) : Host.Outcome State Fault Refusal :=
  .next (s.srOp d a b m 1 fun _ A B => boolInt (A != B))
def execClz (d a : BitVec 5) (m : BitVec 3) (s : State) : Host.Outcome State Fault Refusal :=
  .next (s.srUnary d a m fun w A => clzN w A)
def execCtz (d a : BitVec 5) (m : BitVec 3) (s : State) : Host.Outcome State Fault Refusal :=
  .next (s.srUnary d a m fun w A => ctzN w A)
def execPopc (d a : BitVec 5) (m : BitVec 3) (s : State) : Host.Outcome State Fault Refusal :=
  .next (s.srUnary d a m fun w A => popCount w A)
def execSext (d a : BitVec 5) (m : BitVec 3) (s : State) : Host.Outcome State Fault Refusal :=
  .next (s.srUnary d a m fun w A => signExt A w)
/-- ZEXT writes without sign extension. -/
def execZext (d a : BitVec 5) (m : BitVec 3) (s : State) : Host.Outcome State Fault Refusal :=
  .next (s.emitG 1 d.toNat (BitVec.ofNat 64 (low (opWidth m) (s.G a))))
def execFshl (d a b : BitVec 5) (m : BitVec 3) (s : State) : Host.Outcome State Fault Refusal :=
  .next (s.srOp d a b m 1 fun w A B => fshlN w A (low w (s.G d)) (B % w))
def execFshr (d a b : BitVec 5) (m : BitVec 3) (s : State) : Host.Outcome State Fault Refusal :=
  .next (s.srOp d a b m 1 fun w A B => fshrN w A (low w (s.G d)) (B % w))

/-! Immediate forms (R189). -/

def execAddi (d a : BitVec 5) (i : BitVec 11) (s : State) : Host.Outcome State Fault Refusal :=
  .next (s.emitG 1 d.toNat (s.G a + i.signExtend 64))
def execAndi (d a : BitVec 5) (i : BitVec 11) (s : State) : Host.Outcome State Fault Refusal :=
  .next (s.emitG 1 d.toNat (s.G a &&& i.signExtend 64))
def execOri (d a : BitVec 5) (i : BitVec 11) (s : State) : Host.Outcome State Fault Refusal :=
  .next (s.emitG 1 d.toNat (s.G a ||| i.signExtend 64))
def execXori (d a : BitVec 5) (i : BitVec 11) (s : State) : Host.Outcome State Fault Refusal :=
  .next (s.emitG 1 d.toNat (s.G a ^^^ i.signExtend 64))
def execShli (d a : BitVec 5) (i : BitVec 6) (s : State) : Host.Outcome State Fault Refusal :=
  .next (s.emitG 1 d.toNat (s.G a <<< i.toNat))
def execShri (d a : BitVec 5) (i : BitVec 6) (s : State) : Host.Outcome State Fault Refusal :=
  .next (s.emitG 1 d.toNat (s.G a >>> i.toNat))
def execShrai (d a : BitVec 5) (i : BitVec 6) (s : State) : Host.Outcome State Fault Refusal :=
  .next (s.emitG 1 d.toNat ((s.G a).sshiftRight i.toNat))
def execSlti (d a : BitVec 5) (i : BitVec 11) (s : State) : Host.Outcome State Fault Refusal :=
  .next (s.emitG 1 d.toNat (if (s.G a).toInt < i.toInt then 1 else 0))
def execSltui (d a : BitVec 5) (i : BitVec 11) (s : State) : Host.Outcome State Fault Refusal :=
  .next (s.emitG 1 d.toNat (if (s.G a).toNat < (i.signExtend 64).toNat then 1 else 0))
def execMuli (d a : BitVec 5) (i : BitVec 11) (s : State) : Host.Outcome State Fault Refusal :=
  .next (s.emitG 3 d.toNat (s.G a * i.signExtend 64))

/-! Long immediates (R190). -/

def execLi (d : BitVec 5) (i : BitVec 16) (s : State) : Host.Outcome State Fault Refusal :=
  .next (s.emitG 1 d.toNat (i.signExtend 64))
/-- gd with bits 16k+15 to 16k replaced. -/
def replaceHalf (x : W64) (k : Nat) (i : BitVec 16) : W64 :=
  (x &&& ~~~ ((0xFFFF : W64) <<< (16 * k))) ||| (i.setWidth 64 <<< (16 * k))
def execLih1 (d : BitVec 5) (i : BitVec 16) (s : State) : Host.Outcome State Fault Refusal :=
  .next (s.emitG 1 d.toNat (replaceHalf (s.G d) 1 i))
def execLih2 (d : BitVec 5) (i : BitVec 16) (s : State) : Host.Outcome State Fault Refusal :=
  .next (s.emitG 1 d.toNat (replaceHalf (s.G d) 2 i))
def execLih3 (d : BitVec 5) (i : BitVec 16) (s : State) : Host.Outcome State Fault Refusal :=
  .next (s.emitG 1 d.toNat (replaceHalf (s.G d) 3 i))

/-! Scratchpad and weight MRAM (R191 to R194). -/

/-- The value of loaded bytes, sign-extended. -/
def loaded (bs : List Byte) (n : Nat) : W64 := w64 (signExt (leNat bs) (8 * n))

def State.loadScratch (s : State) (g a : BitVec 5) (sz : BitVec 2) (o : BitVec 9) : Res :=
  let n := opBytes sz
  let addr := effAddr (s.G a) o.toInt n
  check (addr % n == 0) (s.fault 0x040A addr) <|
  match spadOffset addr n with
  | none => .error (s.fault 0x0408 addr)
  | some off =>
    check (s.banksFree off n 0) (s.fault 0x0109 addr) <|
    let (s, bs, p) := s.readSpad s.cur.tile s.accessRank off n
    .ok (s.emitFlight { s.flight 4 (.g g.toNat (loaded bs n)) with poison := seenAt p addr })
def execLds (g a : BitVec 5) (sz : BitVec 2) (o : BitVec 9) (s : State) : Host.Outcome State Fault Refusal :=
  s.finish (s.loadScratch g a sz o)

def State.storeScratch (s : State) (g a : BitVec 5) (sz : BitVec 2) (o : BitVec 9) : Res :=
  let n := opBytes sz
  let addr := effAddr (s.G a) o.toInt n
  check (addr % n == 0) (s.fault 0x040A addr) <|
  match spadOffset addr n with
  | none => .error (s.fault 0x0408 addr)
  | some off =>
    check (s.banksFree off n 2) (s.fault 0x0109 addr) <|
    .ok (s.emitStore 2 { bytes := cellsFrom off (leBytes n (s.N g)) })
def execSts (g a : BitVec 5) (sz : BitVec 2) (o : BitVec 9) (s : State) : Host.Outcome State Fault Refusal :=
  s.finish (s.storeScratch g a sz o)

def State.loadMram (s : State) (g a : BitVec 5) (sz : BitVec 2) (o : BitVec 9) : Res :=
  let n := opBytes sz
  let addr := effAddr (s.G a) o.toInt n
  check (addr % n == 0) (s.fault 0x040A addr) <|
  match mramOffset addr n with
  | none => .error (s.fault 0x0408 addr)
  | some off =>
    check (!s.mramLocked s.cur.tile off s.myCtx) (s.fault 0x0C03 addr) <|
    let (s, bs, p) := s.readMram s.cur.tile s.accessRank off n
    .ok (s.emitFlight { s.flight 12 (.g g.toNat (loaded bs n)) with poison := seenAt p addr })
def execLdm (g a : BitVec 5) (sz : BitVec 2) (o : BitVec 9) (s : State) : Host.Outcome State Fault Refusal :=
  s.finish (s.loadMram g a sz o)

/-! Global access (R195, R196). -/

def State.storeGlobal (s : State) (g a : BitVec 5) (k : BitVec 3) (sz : BitVec 2) (o : BitVec 6) : Res :=
  let n := opBytes sz
  let addr := effAddr (s.G a) o.toInt n
  check (k != 7) (s.fault 0x030A) <|
  check (addr % n == 0) (s.fault 0x040A addr) <|
  match s.translate s.cur.tile s.cur.seq addr true with
  | .error c => .error (s.translationFault c addr)
  | .ok (s, pa, nc) =>
    .ok (s.emit 2 (.global { bytes := cellsFrom pa (leBytes n (s.N g)), scope := k.toNat } nc (s.onAperture pa)))
def execStx (g a : BitVec 5) (k : BitVec 3) (sz : BitVec 2) (o : BitVec 6) (s : State) :
    Host.Outcome State Fault Refusal := s.finish (s.storeGlobal g a k sz o)

/-- A request takes a landing slot (R53, R54): PENDING until its data comes, after `ready` ticks. No two requests have one ticket. -/
def State.requestSlot (s : State) (l arrival ready : Nat) (data : Vec) (p : Option Poison) (source : Nat := 0) : State :=
  let y := s.me
  let ticket := s.free + 1
  let d : Landing := { st := .pending, arrival := arrival, data := data, poison := p, ticket := ticket, handler := y.inHandler, source := source }
  ((s.setMe (y.setLanding l d)).after ready .landingDataArrival [s.cur.tile, s.cur.seq, l, ticket]).tickFree

/-- The slot accepts a request: neither PENDING nor HELD (R53). -/
def Landing.accepts (l : Landing) : Bool := l.st = .empty || l.st = .full

/-- Only bytes `lo` to `lo + n - 1` of a sector. -/
def onlyBytes (v : Vec) (lo n : Nat) : Vec :=
  mergeBytes (BitVec.ofNat 64 ((2 ^ n - 1) * 2 ^ lo)) v 0

/-- Ticks until the data of a load that misses is there: free (log 5, DESIGN CHOICE), but never so few that an arrival with a8 below 2 is in time (R196). -/
def State.missTicks (s : State) : Nat := 5 + Config.arrivalDelay s.free

/-- The 64 bytes a global load delivers and the ticks until they are there (R115, R196, R237): 8 on a hit, else `missTicks`;
values are those at the issue (log 15, DEDUCED). A peer package's scratchpad aperture is memory of that peer like any other (log 74, DESIGN CHOICE). -/
def State.loadSector (s : State) (t q pa n : Nat) (nc hit : Bool) : State × Vec × Option Poison × Nat :=
  match s.place pa with
  | .ok (.aperture owner off) =>
    let a := off / 64 * 64
    let (bs, p) := (s.tile owner).lookBytes a 64
    ((s.noteBytes owner a 64).tickFree, bytesVec bs, p, s.missTicks)
  | _ =>
    if nc then
      let (v0, p0) := s.partySector t q (pa / 64)
      let (v, p) := s.overStores t q (pa / 64) ((s.seq t q).overDirty (s.homeAddr pa / 64) (v0, p0))
      ((s.countSectors t [pa / 64]).tickFree, onlyBytes v (pa % 64) n, p, s.missTicks)
    else
      let (s', v0, p0, valid) := s.l1Read t q pa
      let (v, p) := s.overStores t q (pa / 64) (v0, p0)
      if valid && hit then (s', v, p, 8) else (s'.tickFree, v, p, s.missTicks)

/-- A load into a landing slot from a translated address (LDX, VLDX). -/
def State.loadSlot (s : State) (l : BitVec 4) (addr n : Nat) (a8 : BitVec 8) : Res :=
  check (addr % n == 0) (s.fault 0x040A addr) <|
  let tlbHit := (s.me.tlbFind addr).isSome
  match s.translate s.cur.tile s.cur.seq addr false with
  | .error c => .error (s.translationFault c addr)
  | .ok (s, pa, nc) =>
    check (s.me.landing l.toNat).accepts (s.fault 0x0107) <|
    let (s, v, p, ready) := s.loadSector s.cur.tile s.cur.seq pa n nc tlbHit
    .ok (s.requestSlot l.toNat (s.me.now + 4 * a8.toNat) ready v (seenAt p addr) pa)

def execLdx (l : BitVec 4) (a : BitVec 5) (t : BitVec 8) (sz : BitVec 2) (s : State) : Host.Outcome State Fault Refusal :=
  s.finish (s.loadSlot l (s.N a) (opBytes sz) t)

/-! Landing reads (R53, R197). -/

/-- The slot as it stood before the bundle: every word of a bundle reads at issue (R49). -/
def State.slotAtIssue (s : State) (l : Nat) : Landing := mget {} s.cur.slots l

/-- A consuming read leaves the slot EMPTY, unless a word of the bundle has requested it anew. -/
def State.consume (s : State) (l : Nat) : State :=
  let d := s.me.landing l
  if d.st = .full then s.setMe (s.me.setLanding l { d with st := .empty }) else s

def State.readSlot (s : State) (d : BitVec 5) (l : BitVec 4) (sz : BitVec 2) (o : BitVec 6) (keep : Bool) : Res :=
  let x := s.slotAtIssue l.toNat
  check (x.st = .full) (s.fault 0x0106) <|
  let n := opBytes sz
  let s := s.emitFlight { s.flight 1 (.g d.toNat (loaded (((vecBytes x.data).drop o.toNat).take n) n)) with poison := x.poison }
  .ok (if keep then s else s.consume l.toNat)
def execGetl (d : BitVec 5) (l : BitVec 4) (sz : BitVec 2) (o : BitVec 6) (s : State) : Host.Outcome State Fault Refusal :=
  s.finish (s.readSlot d l sz o false)
def execGetlPk (d : BitVec 5) (l : BitVec 4) (sz : BitVec 2) (o : BitVec 6) (s : State) : Host.Outcome State Fault Refusal :=
  s.finish (s.readSlot d l sz o true)

end Sys2Proof.Machine
end

