-- ==== Sys2Proof/Machine/Control.lean ====
section
/-! DEFINITION. Class 1: control transfer, loops, waiting, control registers, time and predicates (R198 to R209). -/
namespace Sys2Proof.Machine

/-! Transfers (R198 to R202). -/

/-- A taken transfer (R198): the target issues at the next step. -/
def State.branch (s : State) (target : Nat) : Res :=
  check (textOk target) (s.fault 0x0303 target) (.ok (s.modMe fun y => { y with pc := target }))

/-- The return-address store takes the 24-bit offset of the following bundle (R173). -/
def State.push (s : State) : State := s.modMe fun y => { y with ras := (s.cur.next - 0x8000000) % 2 ^ 24 :: y.ras }

def State.callTo (s : State) (target : Nat) : Res :=
  check (s.me.ras.length < 16) (s.fault 0x0301) (s.push.branch target)

def State.returnTo (s : State) : Res :=
  match s.me.ras with
  | [] => .error (s.fault 0x0302)
  | r :: rs => (s.modMe fun y => { y with ras := rs }).branch (0x8000000 + r)

def execJ (o : BitVec 21) (s : State) : Host.Outcome State Fault Refusal := s.finish (s.branch (s.relTarget o.toInt))
def execCall (o : BitVec 21) (s : State) : Host.Outcome State Fault Refusal := s.finish (s.callTo (s.relTarget o.toInt))
def execJr (a : BitVec 5) (s : State) : Host.Outcome State Fault Refusal := s.finish (s.branch (s.N a))
def execCallr (a : BitVec 5) (s : State) : Host.Outcome State Fault Refusal := s.finish (s.callTo (s.N a))
def execRet (s : State) : Host.Outcome State Fault Refusal := s.finish s.returnTo

/-- A conditional branch to a relative target (R199): a branch not taken makes no check. -/
def State.branchIf (s : State) (taken : Bool) (o : BitVec 16) : Res :=
  if taken then s.branch (s.relTarget o.toInt) else .ok s

def execBeqz (a : BitVec 5) (o : BitVec 16) (s : State) : Host.Outcome State Fault Refusal :=
  s.finish (s.branchIf (s.G a = 0) o)
def execBnez (a : BitVec 5) (o : BitVec 16) (s : State) : Host.Outcome State Fault Refusal :=
  s.finish (s.branchIf (s.G a ≠ 0) o)
def execBltz (a : BitVec 5) (o : BitVec 16) (s : State) : Host.Outcome State Fault Refusal :=
  s.finish (s.branchIf ((s.G a).toInt < 0) o)
def execBgez (a : BitVec 5) (o : BitVec 16) (s : State) : Host.Outcome State Fault Refusal :=
  s.finish (s.branchIf (0 ≤ (s.G a).toInt) o)

/-- BPU (R200). -/
def State.branchUniform (s : State) (p : BitVec 3) (o : BitVec 16) : Res :=
  check (s.P p = 0 || s.P p = BitVec.allOnes 64) (s.fault 0x0304) (s.branchIf (s.P p = BitVec.allOnes 64) o)
def execBpu (p : BitVec 3) (o : BitVec 16) (s : State) : Host.Outcome State Fault Refusal :=
  s.finish (s.branchUniform p o)

/-- The engine flag `e`, completion (0) or fault (1), as it stood two steps before (R180, R201). -/
def Seq.engineFlag (y : Seq) (e s : Nat) : Bool := y.flags2.getLsbD (e + 8 * s)
def execBeng (e : BitVec 4) (f : BitVec 1) (o : BitVec 16) (s : State) : Host.Outcome State Fault Refusal :=
  s.finish (s.branchIf (s.me.engineFlag e.toNat f.toNat) o)

/-- LOOP's register updates, landing at issue + 1 (R202). -/
def State.loopUpdates (s : State) (l : BitVec 2) (r : BitVec 2) (c : Nat) : State :=
  let s := s.emit 1 (.ctl (4 + l.toNat) (BitVec.ofNat 64 (c - 1)))
  let s := if r.getLsbD 0 then s.emit 1 (.ctl 2 ((s.me.vrb - 1).setWidth 64)) else s
  if r.getLsbD 1 then s.emit 1 (.ctl 3 ((s.me.prb - 1).setWidth 64)) else s

def Seq.loopCount (y : Seq) (l : BitVec 2) : Nat := (mget 0 y.lc l.toNat).toNat

def execLoop (l : BitVec 2) (r : BitVec 2) (o : BitVec 16) (s : State) : Host.Outcome State Fault Refusal :=
  let c := s.me.loopCount l
  s.finish ((s.loopUpdates l r c).branchIf (c > 1) o)

/-- SKIP (R203). -/
def execSkip (b : BitVec 5) (n : BitVec 8) (s : State) : Host.Outcome State Fault Refusal :=
  .next (if s.me.skipm.getLsbD b.toNat then s.modMe fun y => { y with skipLeft := n.toNat } else s)

/-! Halting, waiting, trapping (R204 to R206). -/

/-- The L1 of a sequencer is written back, each dirty line at its own scope (R139, R64). -/
def State.flushL1 (s : State) (t q : Nat) : State :=
  let y := s.seq t q
  let s := s.setSeq t q (y.cleanLines (fun _ => true) id)
  (y.writeBacks (fun _ => true) id).foldl (fun s w => s.stage t q w) s

/-- HALT (R204): no further bundle issues; the L1 is written back (R139). -/
def execHalt (s : State) : Host.Outcome State Fault Refusal :=
  s.finish (s.outsideHandler (.ok ((s.modMe fun y => { y with run := .halted }).flushL1 s.cur.tile s.cur.seq)))

/-- WAITT (R205): the next bundle issues at task step max(issue + 1, ga). -/
def execWaitt (a : BitVec 5) (s : State) : Host.Outcome State Fault Refusal :=
  s.finish (s.outsideHandler (.ok (s.modMe fun y => { y with waitUntil := max (y.clock + 1) (s.N a) })))

/-- TRAP (R206): its effect is its fault, with the code in the record's detail field. -/
def execTrap (i : BitVec 16) (s : State) : Host.Outcome State Fault Refusal :=
  .next (s.trapIssue { s.fault 0x0305 with detail := i.toNat, aux0 := s.me.fscr0.toNat, aux1 := s.me.fscr1.toNat })

/-! Control registers (R175, R207, R370). -/

/-- Numbers that MFC and MTC refuse (R363). -/
def ctlAssigned (c : Nat) : Bool := (c < 0x24 && c != 0x09) || (0x40 ≤ c && c < 0x4E)

def FaultRecord.flags (r : FaultRecord) : Nat :=
  (if r.lost then 1 else 0) + (if r.info.injected then 2 else 0) + (if r.escalated then 4 else 0)

/-- A failure register other than FRESUME, FSTEP and the scratch registers, from the record last taken (R370). -/
def Seq.failureReg (y : Seq) (c : Nat) : Nat :=
  let r : FaultRecord := y.record.getD {}
  let given (v : Nat) : Nat := if y.record.isSome then v else 0
  match c with
  | 0x40 => given (r.info.code + 65536 * r.level + 2 ^ 24 * r.info.unit + 2 ^ 32 * r.flags)
  | 0x42 => given r.info.bundle
  | 0x43 => given r.info.addr
  | 0x44 => given (r.info.detail + 65536 * r.info.rindex)
  | 0x45 => given r.info.aux0
  | 0x46 => given r.info.aux1
  | 0x48 => ((y.regions.getLast?).map (·.2)).getD 0
  | 0x49 => y.regions.length + ((y.regions.zipIdx.map fun e => e.1.1 * 2 ^ (3 * e.2 + 3)).foldl (· + ·) 0)
  | 0x4A => (if y.inHandler then 1 else 0) + 2 * min 127 y.pending.length
  | 0x4B => given r.tick
  | _ => 0

/-- The whole 64-bit register as it stands; reserved bits read 0 (R207). -/
def State.readCtl (s : State) (t q c : Nat) : W64 :=
  let y := s.seq t q
  if c = 0x00 then BitVec.ofNat 64 y.t0
  else if c = 0x01 then BitVec.ofNat 64 y.clock
  else if c = 0x02 then y.vrb.setWidth 64
  else if c = 0x03 then y.prb.setWidth 64
  else if c < 0x08 then (mget 0 y.lc (c - 4)).setWidth 64
  else if c = 0x08 then y.skipm.setWidth 64
  else if c = 0x0A then (s.tile t).mxmode.setWidth 64
  else if c = 0x0B then y.segbase.setWidth 64
  else if c = 0x0C then y.fprm.setWidth 64
  else if c = 0x0D then y.fpflags.setWidth 64
  else if c = 0x0E then y.mapver
  else if c = 0x0F then y.slotmap
  else if c < 0x18 then mget 0 y.ts (c - 0x10)
  else if c < 0x20 then (mget 0 y.lvl (c - 0x18)).setWidth 64
  else if c = 0x20 then BitVec.ofNat 64 t
  else if c = 0x21 then BitVec.ofNat 64 q
  else if c = 0x22 then BitVec.ofNat 64 (s.ctxOf t)
  else if c = 0x23 then BitVec.ofNat 64 (y.slip % 2 ^ 32)
  else if c = 0x41 then y.fstep.setWidth 32 |>.setWidth 64
  else if c = 0x47 then y.fresume
  else if c = 0x4C then y.fscr0
  else if c = 0x4D then y.fscr1
  else BitVec.ofNat 64 (y.failureReg c)

def execMfc (g : BitVec 5) (c : BitVec 8) (s : State) : Host.Outcome State Fault Refusal :=
  s.finish (check (ctlAssigned c.toNat) (s.fault 0x0309)
    (.ok (s.emitG 1 g.toNat (s.readCtl s.cur.tile s.cur.seq c.toNat))))

/-- MTC (R207): the write lands at issue + 1; an invalid shape is refused (R176), FRESUME is writable in handler mode
only (R363). -/
def State.moveToCtl (s : State) (g : BitVec 5) (c : BitVec 8) : Res :=
  let n := c.toNat
  let v := s.G g
  check (ctlAssigned n && (n != 0x47 || s.me.inHandler)) (s.fault 0x0309) <|
  check (!(0x10 ≤ n && n < 0x18) || shapeOk (tsEf v) (tsCols v)) (s.fault 0x0306) <|
  .ok (s.emit 1 (.ctl n v))
def execMtc (g : BitVec 5) (c : BitVec 8) (s : State) : Host.Outcome State Fault Refusal := s.finish (s.moveToCtl g c)

/-- The landing of a control register write: RO and RSV fields ignore it (R9, R175). -/
def State.writeCtl (s : State) (t q c : Nat) (v : W64) : State :=
  if c = 0x0A then s.modTile t fun x => { x with mxmode := v.setWidth 2 }
  else
    s.modSeq t q fun y =>
      if c = 0x02 then { y with vrb := v.setWidth 5 }
      else if c = 0x03 then { y with prb := v.setWidth 2 }
      else if 0x04 ≤ c && c < 0x08 then { y with lc := mset 0 y.lc (c - 4) (v.setWidth 32) }
      else if c = 0x08 then { y with skipm := v.setWidth 32 }
      else if c = 0x0C then { y with fprm := v.setWidth 2 }
      else if c = 0x0D then { y with fpflags := v.setWidth 5 }
      else if 0x10 ≤ c && c < 0x18 then { y with ts := mset 0 y.ts (c - 0x10) (v &&& 0x1FFFF) }
      else if c = 0x47 then { y with fresume := v }
      else if c = 0x4C then { y with fscr0 := v }
      else if c = 0x4D then { y with fscr1 := v }
      else y

/-! Time (R208). -/

def execTime (d : BitVec 5) (s : State) : Host.Outcome State Fault Refusal :=
  .next (s.emitG 1 d.toNat (BitVec.ofNat 64 s.gtick))
def execStep (d : BitVec 5) (s : State) : Host.Outcome State Fault Refusal :=
  .next (s.emitG 1 d.toNat (BitVec.ofNat 64 s.me.clock))

/-! Predicates (R209). -/

/-- A predicate result lands in the register that the index names at issue; p0 takes none (R173, R174). -/
def State.emitP (s : State) (lat : Nat) (d : BitVec 3) (v : W64) : State :=
  if d = 0 then s else s.emit lat (.p (s.me.physP d.toNat) v)

def execPcnt (a : BitVec 3) (g : BitVec 5) (s : State) : Host.Outcome State Fault Refusal :=
  .next (s.emitG 1 g.toNat (BitVec.ofNat 64 (popCount 64 (s.P a).toNat)))
def execPmov (d a : BitVec 3) (s : State) : Host.Outcome State Fault Refusal := .next (s.emitP 1 d (s.P a))
def execPsetg (d : BitVec 3) (g : BitVec 5) (s : State) : Host.Outcome State Fault Refusal := .next (s.emitP 1 d (s.G g))
def execPand (d a b : BitVec 3) (s : State) : Host.Outcome State Fault Refusal := .next (s.emitP 1 d (s.P a &&& s.P b))
def execPor (d a b : BitVec 3) (s : State) : Host.Outcome State Fault Refusal := .next (s.emitP 1 d (s.P a ||| s.P b))
def execPxor (d a b : BitVec 3) (s : State) : Host.Outcome State Fault Refusal := .next (s.emitP 1 d (s.P a ^^^ s.P b))
def execPnot (d a : BitVec 3) (s : State) : Host.Outcome State Fault Refusal := .next (s.emitP 1 d (~~~ s.P a))

end Sys2Proof.Machine
end

