-- ==== Sys2Proof/Machine/VecInt.lean ====
section
/-! DEFINITION. Class 2: integer and logic operations of the vector units, with the lane and predicate rules that classes 2
and 3 share (R212 to R222). -/
namespace Sys2Proof.Machine

/-! Lanes (R212). `eb` is the element size in bytes. -/

def lanes (eb : Nat) : Nat := 64 / eb
/-- Lane `i` as an unsigned value. -/
def lane (v : Vec) (eb i : Nat) : Nat := nbits v.toNat (8 * eb * i) (8 * eb)
/-- Element `i` is active. -/
def active (p : W64) (eb i : Nat) : Bool := p.getLsbD (i * eb)
/-- A register from its lanes. -/
def packLanes (eb : Nat) (xs : List Nat) : Vec := bytesVec (xs.flatMap (leBytes eb))
/-- The byte lanes of the elements that `sel` picks. -/
def elemMask (eb : Nat) (sel : Nat → Bool) : BitVec 64 :=
  BitVec.ofNat 64 ((List.range (lanes eb)).foldl (fun m i => if sel i then m + (2 ^ eb - 1) * 2 ^ (i * eb) else m) 0)
/-- The byte lanes of the active elements. -/
def activeMask (p : W64) (eb : Nat) : BitVec 64 := elemMask eb (active p eb)

/-- A vector result for the lanes of a mask, in the register that the index names at issue (R174). -/
def State.emitV (s : State) (lat : Nat) (d : BitVec 6) (mask : BitVec 64) (v : Vec) : State :=
  s.emit lat (.v (s.me.physV d.toNat) mask v)

/-- Every lane `i` as `f i`, written where active. -/
def State.laneOp (s : State) (lat : Nat) (e : BitVec 2) (d : BitVec 6) (p : BitVec 3) (f : Nat → Nat) : State :=
  let eb := elemBytes e
  s.emitV lat d (activeMask (s.P p) eb) (packLanes eb ((List.range (lanes eb)).map f))

/-- A lane-wise integer operation on va, vb, with the element width in bits (R213, R214). -/
def State.vecOp (s : State) (e : BitVec 2) (d a b : BitVec 6) (p : BitVec 3) (lat : Nat) (f : Nat → Nat → Nat → Int) : State :=
  let eb := elemBytes e
  s.laneOp lat e d p fun i => trunc (8 * eb) (f (8 * eb) (lane (s.V a) eb i) (lane (s.V b) eb i))

/-! Integer and logic operations (R214). -/

def execVadd (e : BitVec 2) (d a b : BitVec 6) (p : BitVec 3) (s : State) : Host.Outcome State Fault Refusal :=
  .next (s.vecOp e d a b p 2 fun _ A B => (A : Int) + B)
def execVsub (e : BitVec 2) (d a b : BitVec 6) (p : BitVec 3) (s : State) : Host.Outcome State Fault Refusal :=
  .next (s.vecOp e d a b p 2 fun _ A B => (A : Int) - B)
def execVadds (e : BitVec 2) (d a b : BitVec 6) (p : BitVec 3) (s : State) : Host.Outcome State Fault Refusal :=
  .next (s.vecOp e d a b p 2 fun n A B => clampI (signExt A n + signExt B n) (-(2 ^ (n - 1))) (2 ^ (n - 1) - 1))
def execVsubs (e : BitVec 2) (d a b : BitVec 6) (p : BitVec 3) (s : State) : Host.Outcome State Fault Refusal :=
  .next (s.vecOp e d a b p 2 fun n A B => clampI (signExt A n - signExt B n) (-(2 ^ (n - 1))) (2 ^ (n - 1) - 1))
def execVmul (e : BitVec 2) (d a b : BitVec 6) (p : BitVec 3) (s : State) : Host.Outcome State Fault Refusal :=
  .next (s.vecOp e d a b p 4 fun n A B => signExt A n * signExt B n)
def execVmulh (e : BitVec 2) (d a b : BitVec 6) (p : BitVec 3) (s : State) : Host.Outcome State Fault Refusal :=
  .next (s.vecOp e d a b p 4 fun n A B => Int.fdiv (signExt A n * signExt B n) (2 ^ n))
def execVmin (e : BitVec 2) (d a b : BitVec 6) (p : BitVec 3) (s : State) : Host.Outcome State Fault Refusal :=
  .next (s.vecOp e d a b p 2 fun n A B => min (signExt A n) (signExt B n))
def execVmax (e : BitVec 2) (d a b : BitVec 6) (p : BitVec 3) (s : State) : Host.Outcome State Fault Refusal :=
  .next (s.vecOp e d a b p 2 fun n A B => max (signExt A n) (signExt B n))
def execVminu (e : BitVec 2) (d a b : BitVec 6) (p : BitVec 3) (s : State) : Host.Outcome State Fault Refusal :=
  .next (s.vecOp e d a b p 2 fun _ A B => (min A B : Nat))
def execVmaxu (e : BitVec 2) (d a b : BitVec 6) (p : BitVec 3) (s : State) : Host.Outcome State Fault Refusal :=
  .next (s.vecOp e d a b p 2 fun _ A B => (max A B : Nat))
def execVabsd (e : BitVec 2) (d a b : BitVec 6) (p : BitVec 3) (s : State) : Host.Outcome State Fault Refusal :=
  .next (s.vecOp e d a b p 2 fun _ A B => (max A B - min A B : Nat))
def execVand (e : BitVec 2) (d a b : BitVec 6) (p : BitVec 3) (s : State) : Host.Outcome State Fault Refusal :=
  .next (s.vecOp e d a b p 2 fun _ A B => Nat.land A B)
def execVor (e : BitVec 2) (d a b : BitVec 6) (p : BitVec 3) (s : State) : Host.Outcome State Fault Refusal :=
  .next (s.vecOp e d a b p 2 fun _ A B => Nat.lor A B)
def execVxor (e : BitVec 2) (d a b : BitVec 6) (p : BitVec 3) (s : State) : Host.Outcome State Fault Refusal :=
  .next (s.vecOp e d a b p 2 fun _ A B => Nat.xor A B)
def execVandn (e : BitVec 2) (d a b : BitVec 6) (p : BitVec 3) (s : State) : Host.Outcome State Fault Refusal :=
  .next (s.vecOp e d a b p 2 fun n A B => Nat.land A (2 ^ n - 1 - B))
def execVshl (e : BitVec 2) (d a b : BitVec 6) (p : BitVec 3) (s : State) : Host.Outcome State Fault Refusal :=
  .next (s.vecOp e d a b p 2 fun n A B => A * 2 ^ (B % n))
def execVshr (e : BitVec 2) (d a b : BitVec 6) (p : BitVec 3) (s : State) : Host.Outcome State Fault Refusal :=
  .next (s.vecOp e d a b p 2 fun n A B => A / 2 ^ (B % n))
def execVshra (e : BitVec 2) (d a b : BitVec 6) (p : BitVec 3) (s : State) : Host.Outcome State Fault Refusal :=
  .next (s.vecOp e d a b p 2 fun n A B => Int.fdiv (signExt A n) (2 ^ (B % n)))

/-! Shifts by an immediate (R215) and across two registers (R216). -/

def execVshli (e : BitVec 2) (d a i : BitVec 6) (p : BitVec 3) (s : State) : Host.Outcome State Fault Refusal :=
  .next (s.vecOp e d a a p 2 fun n A _ => A * 2 ^ (i.toNat % n))
def execVshri (e : BitVec 2) (d a i : BitVec 6) (p : BitVec 3) (s : State) : Host.Outcome State Fault Refusal :=
  .next (s.vecOp e d a a p 2 fun n A _ => A / 2 ^ (i.toNat % n))

/-- VFSHL and VFSHR: the destination is the high source. -/
def State.vecFunnel (s : State) (e : BitVec 2) (d a b : BitVec 6) (p : BitVec 3) (f : Nat → Nat → Nat → Nat → Nat) : State :=
  let eb := elemBytes e
  let n := 8 * eb
  s.laneOp 2 e d p fun i => f n (lane (s.V d) eb i) (lane (s.V a) eb i) (lane (s.V b) eb i % n)
def execVfshl (e : BitVec 2) (d a b : BitVec 6) (p : BitVec 3) (s : State) : Host.Outcome State Fault Refusal :=
  .next (s.vecFunnel e d a b p fun n D A k => fshlN n D A k)
def execVfshr (e : BitVec 2) (d a b : BitVec 6) (p : BitVec 3) (s : State) : Host.Outcome State Fault Refusal :=
  .next (s.vecFunnel e d a b p fun n D A k => fshrN n D A k)

/-! Compares, select, splat (R217 to R219). -/

/-- The predicate of a compare: every bit of an element's byte lanes, 0 where inactive. -/
def State.emitCompare (s : State) (e : BitVec 2) (d p : BitVec 3) (f : Nat → Bool) : State :=
  let eb := elemBytes e
  s.emitP 2 d (elemMask eb fun i => active (s.P p) eb i && f i)
def State.vecCompare (s : State) (e : BitVec 2) (d : BitVec 3) (a b : BitVec 6) (p : BitVec 3) (f : Nat → Nat → Nat → Bool) : State :=
  let eb := elemBytes e
  s.emitCompare e d p fun i => f (8 * eb) (lane (s.V a) eb i) (lane (s.V b) eb i)
def execVcmpeq (e : BitVec 2) (d : BitVec 3) (a b : BitVec 6) (p : BitVec 3) (s : State) : Host.Outcome State Fault Refusal :=
  .next (s.vecCompare e d a b p fun _ A B => A == B)
def execVcmplt (e : BitVec 2) (d : BitVec 3) (a b : BitVec 6) (p : BitVec 3) (s : State) : Host.Outcome State Fault Refusal :=
  .next (s.vecCompare e d a b p fun n A B => signExt A n < signExt B n)
def execVcmpltu (e : BitVec 2) (d : BitVec 3) (a b : BitVec 6) (p : BitVec 3) (s : State) : Host.Outcome State Fault Refusal :=
  .next (s.vecCompare e d a b p fun _ A B => A < B)

/-- VSEL writes every lane (R218). -/
def execVsel (e : BitVec 2) (d a b : BitVec 6) (p : BitVec 3) (s : State) : Host.Outcome State Fault Refusal :=
  let eb := elemBytes e
  .next (s.emitV 2 d (BitVec.allOnes 64) (mergeBytes (activeMask (s.P p) eb) (s.V a) (s.V b)))
def execVsplat (e : BitVec 2) (d : BitVec 6) (a : BitVec 5) (i : BitVec 7) (p : BitVec 3) (s : State) : Host.Outcome State Fault Refusal :=
  .next (s.laneOp 2 e d p fun _ => (s.N a + i.toNat) % 2 ^ (8 * elemBytes e))

/-! Permutes and slides (R220, R221). -/

def execVperm (e : BitVec 2) (d a b : BitVec 6) (p : BitVec 3) (s : State) : Host.Outcome State Fault Refusal :=
  let eb := elemBytes e
  .next (s.laneOp 3 e d p fun i => lane (s.V a) eb (lane (s.V b) eb i % lanes eb))
def execVsldn (e : BitVec 2) (d a i : BitVec 6) (p : BitVec 3) (s : State) : Host.Outcome State Fault Refusal :=
  let eb := elemBytes e
  .next (s.laneOp 3 e d p fun k => if k + i.toNat < lanes eb then lane (s.V a) eb (k + i.toNat) else 0)
def execVslup (e : BitVec 2) (d a i : BitVec 6) (p : BitVec 3) (s : State) : Host.Outcome State Fault Refusal :=
  let eb := elemBytes e
  .next (s.laneOp 3 e d p fun k => if i.toNat ≤ k then lane (s.V a) eb (k - i.toNat) else 0)

/-! Running differences and sums (R222). -/

/-- The carry-in: the last lane of vb. -/
def carryIn (v : Vec) (eb : Nat) : Nat := lane v eb (lanes eb - 1)
/-- The sum of the carry-in and lanes 0 to `i`. -/
def prefixSum (v : Vec) (eb c i : Nat) : Nat := (List.range (i + 1)).foldl (fun t k => t + lane v eb k) c
def execVdelta (e : BitVec 2) (d a b : BitVec 6) (p : BitVec 3) (s : State) : Host.Outcome State Fault Refusal :=
  let eb := elemBytes e
  .next (s.laneOp 3 e d p fun i =>
    trunc (8 * eb) ((lane (s.V a) eb i : Int) - (if i = 0 then carryIn (s.V b) eb else lane (s.V a) eb (i - 1))))
def execVpsum (e : BitVec 2) (d a b : BitVec 6) (p : BitVec 3) (s : State) : Host.Outcome State Fault Refusal :=
  let eb := elemBytes e
  .next (s.laneOp 3 e d p fun i => prefixSum (s.V a) eb (carryIn (s.V b) eb) i % 2 ^ (8 * eb))

end Sys2Proof.Machine
end

