-- ==== Sys2Proof/Machine/VecFloat.lean ====
section
/-! DEFINITION. Class 3 arithmetic: floating operations, functions, conversions, scales, narrowing, reductions, counts and
the counter hash (R213, R223 to R233). -/
namespace Sys2Proof.Machine

/-! Floating lanes (R213): results with their flags, flags over active lanes only. -/

/-- Rounding mode at issue (R150). -/
def State.rm (s : State) : Nat := s.me.fprm.toNat

/-- The flags of the active lanes, ORed (R151). -/
def lanesFlags (eb : Nat) (p : W64) (f : Nat → Nat × FFlags) : FFlags :=
  (List.range (lanes eb)).foldl (fun fl i => if active p eb i then fl ||| (f i).2 else fl) 0

/-- A floating result of every active lane; `op` names the shadowed operation (R349). -/
def State.fLanes (s : State) (lat : Nat) (eb : Nat) (d : BitVec 6) (p : BitVec 3)
    (op : Option (Nat × Nat × Vec × Vec × Vec)) (f : Nat → Nat × FFlags) : State :=
  let mask := activeMask (s.P p) eb
  let fl := s.flight lat (.v (s.me.physV d.toNat) mask (packLanes eb ((List.range (lanes eb)).map fun i => (f i).1)))
  s.emitFlight { fl with flags := lanesFlags eb (s.P p) f, shadow := op.map fun o => (o.1, o.2.1, o.2.2.1, o.2.2.2.1, o.2.2.2.2, mask) }

/-- A lane-wise floating operation on va, vb and vd (R223). -/
def State.fOp (s : State) (e : BitVec 2) (d a b : BitVec 6) (p : BitVec 3) (op : Option Nat)
    (f : Fmt → Nat → Nat → Nat → Nat → Nat × FFlags) : State :=
  let eb := elemBytes e
  s.fLanes 4 eb d p (op.map fun k => (k, e.toNat, s.V a, s.V b, s.V d)) fun i =>
    f (fmtOf e) s.rm (lane (s.V a) eb i) (lane (s.V b) eb i) (lane (s.V d) eb i)

def execVfadd (e : BitVec 2) (d a b : BitVec 6) (p : BitVec 3) (s : State) : Host.Outcome State Fault Refusal :=
  .next (s.fOp e d a b p (some 0) fun F r a b _ => F.add r a b)
def execVfsub (e : BitVec 2) (d a b : BitVec 6) (p : BitVec 3) (s : State) : Host.Outcome State Fault Refusal :=
  .next (s.fOp e d a b p (some 1) fun F r a b _ => F.sub r a b)
def execVfmul (e : BitVec 2) (d a b : BitVec 6) (p : BitVec 3) (s : State) : Host.Outcome State Fault Refusal :=
  .next (s.fOp e d a b p (some 2) fun F r a b _ => F.mul r a b)
def execVfma (e : BitVec 2) (d a b : BitVec 6) (p : BitVec 3) (s : State) : Host.Outcome State Fault Refusal :=
  .next (s.fOp e d a b p (some 3) fun F r a b d => F.fma r a b d)
def execVfmax (e : BitVec 2) (d a b : BitVec 6) (p : BitVec 3) (s : State) : Host.Outcome State Fault Refusal :=
  .next (s.fOp e d a b p (none) fun F _ a b _ => F.pick true a b)
def execVfmin (e : BitVec 2) (d a b : BitVec 6) (p : BitVec 3) (s : State) : Host.Outcome State Fault Refusal :=
  .next (s.fOp e d a b p (none) fun F _ a b _ => F.pick false a b)

/-- VFCMPLT, VFCMPEQ (R224): the compare's predicate, flags landing with it; p0 takes no value but the flags land. -/
def State.fCompare (s : State) (e : BitVec 2) (d : BitVec 3) (a b : BitVec 6) (p : BitVec 3)
    (f : Fmt → Nat → Nat → Bool × FFlags) : State :=
  let eb := elemBytes e
  let r (i : Nat) : Bool × FFlags := f (fmtOf e) (lane (s.V a) eb i) (lane (s.V b) eb i)
  let fl := lanesFlags eb (s.P p) fun i => (0, (r i).2)
  let v : W64 := elemMask eb fun i => active (s.P p) eb i && (r i).1
  s.emitFlags 2 (.p (if d = 0 then 0 else s.me.physP d.toNat) v) fl
def execVfcmplt (e : BitVec 2) (d : BitVec 3) (a b : BitVec 6) (p : BitVec 3) (s : State) : Host.Outcome State Fault Refusal :=
  .next (s.fCompare e d a b p Fmt.lt)
def execVfcmpeq (e : BitVec 2) (d : BitVec 3) (a b : BitVec 6) (p : BitVec 3) (s : State) : Host.Outcome State Fault Refusal :=
  .next (s.fCompare e d a b p Fmt.eq)

/-! Functions and conversions (R225 to R227). -/

def execVfrcp (e : BitVec 2) (d a : BitVec 6) (p : BitVec 3) (s : State) : Host.Outcome State Fault Refusal :=
  let eb := elemBytes e
  .next (s.fLanes 8 eb d p (some (4, e.toNat, s.V a, 0, 0)) fun i => rcpOf e (lane (s.V a) eb i))
def execVfexp2 (e : BitVec 2) (d a : BitVec 6) (p : BitVec 3) (s : State) : Host.Outcome State Fault Refusal :=
  let eb := elemBytes e
  .next (s.fLanes 8 eb d p (some (5, e.toNat, s.V a, 0, 0)) fun i => exp2Of e (lane (s.V a) eb i))
/-- VFCVT.H: va narrows into lanes 0 to 15, vb into lanes 16 to 31. -/
def execVfcvtH (d a b : BitVec 6) (p : BitVec 3) (s : State) : Host.Outcome State Fault Refusal :=
  .next (s.fLanes 4 2 d p (some (6, 1, s.V a, s.V b, 0)) fun i =>
    b32.convert b16 s.rm (if i < 16 then lane (s.V a) 4 i else lane (s.V b) 4 (i - 16)))
/-- VFCVT.W: the low sixteen lanes of va widen. -/
def execVfcvtW (d a : BitVec 6) (p : BitVec 3) (s : State) : Host.Outcome State Fault Refusal :=
  .next (s.fLanes 4 4 d p (some (7, 2, s.V a, 0, 0)) fun i => b16.convert b32 s.rm (lane (s.V a) 2 i))
def execVcvtif (e : BitVec 2) (d a : BitVec 6) (p : BitVec 3) (s : State) : Host.Outcome State Fault Refusal :=
  let eb := elemBytes e
  .next (s.fLanes 4 eb d p (some (8, e.toNat, s.V a, 0, 0)) fun i => (fmtOf e).ofInt s.rm (signExt (lane (s.V a) eb i) (8 * eb)))
def execVcvtfi (e : BitVec 2) (d a : BitVec 6) (p : BitVec 3) (s : State) : Host.Outcome State Fault Refusal :=
  let eb := elemBytes e
  .next (s.fLanes 4 eb d p none fun i => (fmtOf e).toInt s.rm (8 * eb) (lane (s.V a) eb i))

/-! Scales and narrowing (R228, R229). -/

/-- The largest magnitude among the active binary32 lanes; NaN if one of them is. -/
def maxMagnitude (p : W64) (v : Vec) : Nat :=
  let xs := ((List.range 16).filter (active p 4)).map fun i => lane v 4 i % 2 ^ 31
  if xs.any b32.isNan then b32.nan else xs.foldl (fun m x => rv (b32.pick true m x)) 0

/-- The scale of VBSCALE: the targets 127, 31 and 7 as binary32. The target is tested first, whether a lane is active or not (log 76, DEDUCED). -/
def blockScale (p : W64) (va vb : Vec) : Nat :=
  let am := maxMagnitude p va
  let q := lane vb 4 0
  if q = 0x42FE0000 then bs16Up am 127
  else if q = 0x41F80000 then bs16Up am 31
  else if q = 0x40E00000 then bs16Up am 7
  else 0x7F00
def execVbscale (d a b : BitVec 6) (p : BitVec 3) (s : State) : Host.Outcome State Fault Refusal :=
  let k := blockScale (s.P p) (s.V a) (s.V b)
  .next (s.emitFlags 6 (.v (s.me.physV d.toNat) (BitVec.allOnes 64) (packLanes 4 (List.replicate 16 k)))
    (nvIf (k = 0x7F00)))

/-- VNARROW: packed elements by bit mask, residues by byte mask (R158, R229). -/
def State.narrow (s : State) (d a : BitVec 6) (q : BitVec 3) (m : BitVec 3) (p : BitVec 3) : State :=
  let w := [8, 6, 4, 4].getD (m.toNat % 4) 4
  let va := s.V a
  let vs := s.me.readV ((a.toNat + 1) % 64)
  let vq : Vec := mget 0 s.me.q q.toNat
  let r (i : Nat) : Int × Nat × FFlags := narrowLane m.toNat (lane va 4 i) (lane vq 4 i) (lane vs 4 i % 65536)
  let on := (List.range 16).filter (active (s.P p) 4)
  let mask := on.foldl (fun t i => t + (2 ^ w - 1) * 2 ^ (w * i)) 0
  let val := on.foldl (fun t i => t + trunc w (r i).1 * 2 ^ (w * i)) 0
  let fl := on.foldl (fun f i => f ||| (r i).2.2) 0
  s.emitFlags 5 (.narrow (s.me.physV d.toNat) (BitVec.ofNat 512 mask) (BitVec.ofNat 512 val) q.toNat
    (activeMask (s.P p) 4) (packLanes 4 ((List.range 16).map fun i => (r i).2.1))) fl
def execVnarrow (d a : BitVec 6) (q : BitVec 3) (m : BitVec 3) (p : BitVec 3) (s : State) : Host.Outcome State Fault Refusal :=
  .next (s.narrow d a q m p)

/-! Reductions, group maxima, counts (R230 to R232). -/

/-- A reduction writes lane 0 and clears the others. -/
def State.emitReduced (s : State) (eb : Nat) (d : BitVec 6) (r : Nat) (fl : FFlags)
    (shadow : Option (Nat × Nat × Vec × Vec × Vec × BitVec 64)) : State :=
  s.emitFlight { s.flight 6 (.v (s.me.physV d.toNat) (BitVec.allOnes 64) (packLanes eb (r :: List.replicate (lanes eb - 1) 0)))
    with flags := fl, shadow := shadow }

/-- The active lanes of va. -/
def State.activeLanes (s : State) (eb : Nat) (a : BitVec 6) (p : BitVec 3) : List Nat :=
  ((List.range (lanes eb)).filter (active (s.P p) eb)).map (lane (s.V a) eb)

def execVrmax (e : BitVec 2) (d a : BitVec 6) (p : BitVec 3) (s : State) : Host.Outcome State Fault Refusal :=
  let eb := elemBytes e
  .next (s.emitReduced eb d (trunc (8 * eb) ((s.activeLanes eb a p).foldl (fun m A => max m (signExt A (8 * eb))) (-(2 ^ (8 * eb - 1))))) 0 none)
def execVrsum (e : BitVec 2) (d a : BitVec 6) (p : BitVec 3) (s : State) : Host.Outcome State Fault Refusal :=
  let eb := elemBytes e
  .next (s.emitReduced eb d ((s.activeLanes eb a p).foldl (· + ·) 0 % 2 ^ (8 * eb)) 0 none)

/-- Comb of R153 with `none` for NONE. -/
def comb (f : Nat → Nat → Nat × FFlags) : Option Nat → Option Nat → Option Nat × FFlags
  | none, y => (y, 0)
  | x, none => (x, 0)
  | some x, some y => (some (f x y).1, (f x y).2)

/-- One stage of the tree: the first half against the second. -/
def treeStage (f : Nat → Nat → Nat × FFlags) (ws : List (Option Nat)) (fl : FFlags) : List (Option Nat) × FFlags :=
  let h := ws.length / 2
  let rs := ((ws.take h).zip (ws.drop h)).map fun p => comb f p.1 p.2
  (rs.map (·.1), rs.foldl (fun t r => t ||| r.2) fl)

/-- `n` stages. -/
def treeReduce (f : Nat → Nat → Nat × FFlags) : Nat → List (Option Nat) → FFlags → Option Nat × FFlags
  | 0, ws, fl => (ws.headD none, fl)
  | n + 1, ws, fl => let (w, fl) := treeStage f ws fl; treeReduce f n w fl

def State.fReduce (s : State) (e : BitVec 2) (d a : BitVec 6) (p : BitVec 3) (empty : Nat) (shadowed : Bool)
    (f : Nat → Nat → Nat × FFlags) : State :=
  let eb := elemBytes e
  let ws := (List.range (lanes eb)).map fun i => if active (s.P p) eb i then some (lane (s.V a) eb i) else none
  let (r, fl) := treeReduce f (if eb = 4 then 4 else 5) ws 0
  s.emitReduced eb d (r.getD empty) fl
    (if shadowed then some (9, e.toNat, s.V a, 0, 0, activeMask (s.P p) eb) else none)
def execVfrsum (e : BitVec 2) (d a : BitVec 6) (p : BitVec 3) (s : State) : Host.Outcome State Fault Refusal :=
  .next (s.fReduce e d a p 0 true fun x y => (fmtOf e).add 0 x y)
def execVfrmax (e : BitVec 2) (d a : BitVec 6) (p : BitVec 3) (s : State) : Host.Outcome State Fault Refusal :=
  .next (s.fReduce e d a p ((fmtOf e).inf true) false fun x y => (fmtOf e).pick true x y)

/-- log2 of the number of lanes. -/
def lanesLog (eb : Nat) : Nat := Nat.log2 (lanes eb)
def execVgmax (e : BitVec 2) (d a i : BitVec 6) (p : BitVec 3) (s : State) : Host.Outcome State Fault Refusal :=
  let eb := elemBytes e
  let g := 2 ^ min i.toNat (lanesLog eb)
  .next (s.laneOp 4 e d p fun k =>
    (((List.range (lanes eb)).filter fun j => j / g == k / g && active (s.P p) eb j).map (lane (s.V a) eb)).foldl max 0)
def execVclz (e : BitVec 2) (d a : BitVec 6) (p : BitVec 3) (s : State) : Host.Outcome State Fault Refusal :=
  let eb := elemBytes e
  .next (s.laneOp 2 e d p fun i => clzN (8 * eb) (lane (s.V a) eb i))

/-! Counter hash (R233). -/

def execVhash (d : BitVec 6) (a : BitVec 5) (i : BitVec 7) (p : BitVec 3) (s : State) : Host.Outcome State Fault Refusal :=
  .next (s.laneOp 6 3 d p fun k => hash64 (s.N a) (lane (s.V d) 8 k) (8 * i.toNat + k))

end Sys2Proof.Machine
end

