-- ==== Sys2Proof/Machine/VecMem.lean ====
section
/-! DEFINITION. Class 3 memory words (R234 to R238). -/
namespace Sys2Proof.Machine

/-- The effective address of F-VM (R234). -/
def State.vecAddr (s : State) (a : BitVec 5) (o : BitVec 7) (k : Nat) : Nat := effAddr (s.G a) o.toInt k

/-- A 64-byte load from the scratchpad into the active bytes (VLD, VLDU). -/
def State.vecLoad (s : State) (e : BitVec 2) (v : BitVec 6) (addr align : Nat) (p : BitVec 3) : Res :=
  check (addr % align == 0) (s.fault 0x040A addr) <|
  match spadOffset addr 64 with
  | none => .error (s.fault 0x0408 addr)
  | some off =>
    check (s.banksFree off 64 0) (s.fault 0x0109 addr) <|
    let mask := activeMask (s.P p) (elemBytes e)
    let (s, bs, po) := s.readSpad s.cur.tile s.accessRank off 64
    .ok (s.emitFlight { s.flight 6 (.v (s.me.physV v.toNat) mask (bytesVec bs)) with poison := if mask = 0 then none else seenAt po addr })
def execVld (e : BitVec 2) (v : BitVec 6) (a : BitVec 5) (o : BitVec 7) (p : BitVec 3) (s : State) : Host.Outcome State Fault Refusal :=
  s.finish (s.vecLoad e v (s.vecAddr a o 64) 64 p)
def execVldu (e : BitVec 2) (v : BitVec 6) (a : BitVec 5) (o : BitVec 7) (p : BitVec 3) (s : State) : Host.Outcome State Fault Refusal :=
  s.finish (s.vecLoad e v (s.vecAddr a o 1) 1 p)

/-- The bytes of a register that a mask picks, as cells from `base`. -/
def maskedCells (base : Nat) (mask : BitVec 64) (v : Vec) : Map Byte :=
  ((cellsFrom base (vecBytes v)).zipIdx.filter fun c => mask.getLsbD c.2).map (·.1)

/-- A store of the active elements' bytes (VST, VSTU), which takes the ports of the banks they lie in (log 88, DEDUCED): none active, no write and no port step. -/
def State.vecStore (s : State) (e : BitVec 2) (v : BitVec 6) (addr align : Nat) (p : BitVec 3) : Res :=
  check (addr % align == 0) (s.fault 0x040A addr) <|
  match spadOffset addr 64 with
  | none => .error (s.fault 0x0408 addr)
  | some off =>
    let mask := activeMask (s.P p) (elemBytes e)
    let cells := maskedCells off mask (s.V v)
    check (s.wordsFree (wordsIn cells) 3) (s.fault 0x0109 addr) <|
    .ok (if mask = 0 then s else s.emitStore 3 { bytes := cells })
def execVst (e : BitVec 2) (v : BitVec 6) (a : BitVec 5) (o : BitVec 7) (p : BitVec 3) (s : State) : Host.Outcome State Fault Refusal :=
  s.finish (s.vecStore e v (s.vecAddr a o 64) 64 p)
def execVstu (e : BitVec 2) (v : BitVec 6) (a : BitVec 5) (o : BitVec 7) (p : BitVec 3) (s : State) : Host.Outcome State Fault Refusal :=
  s.finish (s.vecStore e v (s.vecAddr a o 1) 1 p)

/-- VLDM. -/
def State.vecLoadMram (s : State) (e : BitVec 2) (v : BitVec 6) (addr : Nat) (p : BitVec 3) : Res :=
  check (addr % 64 == 0) (s.fault 0x040A addr) <|
  match mramOffset addr 64 with
  | none => .error (s.fault 0x0408 addr)
  | some off =>
    check (!s.mramLocked s.cur.tile off s.myCtx) (s.fault 0x0C03 addr) <|
    let mask := activeMask (s.P p) (elemBytes e)
    let (s, bs, po) := s.readMram s.cur.tile s.accessRank off 64
    .ok (s.emitFlight { s.flight 14 (.v (s.me.physV v.toNat) mask (bytesVec bs)) with poison := if mask = 0 then none else seenAt po addr })
def execVldm (e : BitVec 2) (v : BitVec 6) (a : BitVec 5) (o : BitVec 7) (p : BitVec 3) (s : State) : Host.Outcome State Fault Refusal :=
  s.finish (s.vecLoadMram e v (s.vecAddr a o 64) p)

/-! Gather and scatter (R235). -/

/-- Active elements with their scratchpad offsets, or the first fault among them. -/
def State.elemOffsets (s : State) (eb ea : Nat) (index : Vec) : List Nat → Except FaultInfo (List (Nat × Nat))
  | [] => .ok []
  | i :: is =>
    let a := ea + lane index eb i
    if a % eb ≠ 0 then .error (s.fault 0x040A a)
    else
      match spadOffset a eb with
      | none => .error (s.fault 0x0408 a)
      | some off =>
        match s.elemOffsets eb ea index is with
        | .ok r => .ok ((i, off) :: r)
        | .error f => .error f

/-- The elements of a gather or scatter: the ones active, ascending. -/
def State.elems (s : State) (e : BitVec 2) (v : BitVec 6) (a : BitVec 5) (o : BitVec 7) (p : BitVec 3) :
    Except FaultInfo (List (Nat × Nat)) :=
  let eb := elemBytes e
  s.elemOffsets eb (s.vecAddr a o 64) (s.me.readV ((v.toNat + 1) % 64)) ((List.range (lanes eb)).filter (active (s.P p) eb))

def State.vecGather (s : State) (e : BitVec 2) (v : BitVec 6) (a : BitVec 5) (o : BitVec 7) (p : BitVec 3) : Res :=
  let eb := elemBytes e
  match s.elems e v a o p with
  | .error f => .error f
  | .ok xs =>
    check (xs.all fun x => s.banksFree x.2 eb 0) (s.fault 0x0109) <|
    let words := (xs.map fun x => x.2 / 64).dedup
    let (s', bs, po) := s.readWords s.cur.tile s.accessRank words
    let marked (x : Nat × Nat) : Bool := ((s'.tile s.cur.tile).mark (x.2 / 64)).poison.isSome
    let bad := ((xs.find? marked).map (·.2)).getD 0
    let at_ (k : Nat) : Byte := bs.getD (64 * (words.idxOf (k / 64)) + k % 64) 0
    let val := packLanes eb ((List.range (lanes eb)).map fun i => match xs.lookup i with
      | some off => leNat ((List.range eb).map fun j => at_ (off + j))
      | none => 0)
    .ok (s'.emitFlight { s'.flight 10 (.v (s.me.physV v.toNat) (activeMask (s.P p) eb) val) with poison := seenAt po bad })
def execVgath (e : BitVec 2) (v : BitVec 6) (a : BitVec 5) (o : BitVec 7) (p : BitVec 3) (s : State) : Host.Outcome State Fault Refusal :=
  s.finish (s.vecGather e v a o p)

def State.vecScatter (s : State) (e : BitVec 2) (v : BitVec 6) (a : BitVec 5) (o : BitVec 7) (p : BitVec 3) : Res :=
  let eb := elemBytes e
  match s.elems e v a o p with
  | .error f => .error f
  | .ok xs =>
    check (xs.all fun x => s.banksFree x.2 eb 4) (s.fault 0x0109) <|
    .ok (if xs.isEmpty then s
      else s.emitStore 4 { bytes := xs.flatMap fun x => cellsFrom x.2 (leBytes eb (lane (s.V v) eb x.1)) })
def execVscat (e : BitVec 2) (v : BitVec 6) (a : BitVec 5) (o : BitVec 7) (p : BitVec 3) (s : State) : Host.Outcome State Fault Refusal :=
  s.finish (s.vecScatter e v a o p)

/-! Global access and landing reads (R236 to R238). -/

def execVldx (l : BitVec 4) (a : BitVec 5) (t : BitVec 8) (s : State) : Host.Outcome State Fault Refusal := s.finish (s.loadSlot l (s.N a) 64 t)

def State.vecReadSlot (s : State) (d : BitVec 6) (l : BitVec 4) (keep : Bool) : Res :=
  let x := s.slotAtIssue l.toNat
  check (x.st = .full) (s.fault 0x0106) <|
  let s := s.emitFlight { s.flight 2 (.v (s.me.physV d.toNat) (BitVec.allOnes 64) x.data) with poison := x.poison }
  .ok (if keep then s else s.consume l.toNat)
def execVgetl (d : BitVec 6) (l : BitVec 4) (k : BitVec 1) (s : State) : Host.Outcome State Fault Refusal := s.finish (s.vecReadSlot d l (k = 1))

def State.vecStoreGlobal (s : State) (e : BitVec 2) (v : BitVec 6) (a : BitVec 5) (sc p : BitVec 3) : Res :=
  let addr := s.N a
  check (sc != 7) (s.fault 0x030A) <|
  check (addr % 64 == 0) (s.fault 0x040A addr) <|
  match s.translate s.cur.tile s.cur.seq addr true with
  | .error c => .error (s.translationFault c addr)
  | .ok (s', pa, nc) =>
    .ok (s'.emit 3 (.global { bytes := maskedCells pa (activeMask (s.P p) (elemBytes e)) (s.V v), scope := sc.toNat } nc (s.onAperture pa)))
def execVstx (e : BitVec 2) (v : BitVec 6) (a : BitVec 5) (sc p : BitVec 3) (s : State) : Host.Outcome State Fault Refusal :=
  s.finish (s.vecStoreGlobal e v a sc p)

end Sys2Proof.Machine
end

