-- ==== Sys2Proof/Machine/Matrix.lean ====
section
/-! DEFINITION. Class 4: tile registers, the array, the scale unit, accumulators and output registers (R241 to R258). -/
namespace Sys2Proof.Machine

/-! Tile registers (R241). -/

/-- Bytes of row `r` of a tile register. -/
def rowBytesOf (t : Map Byte) (r : Nat) : List Byte := bytesAt t (128 * r) 128
/-- Element `e` of a row, whose bytes are a little-endian number, in width `w` (R141). -/
def rowElem (row w e : Nat) : Int := signExt (nbits row (w * e) w) w

/-- Write one row: the loaded bytes, zero to byte 127 (R243). -/
def putRow (t : Map Byte) (r : Nat) (bs : List Byte) : Map Byte :=
  putBytes t (128 * r) (bs ++ List.replicate (128 - bs.length) 0)

/-- The shape register of a tile at issue. -/
def Seq.shape (y : Seq) (t : Nat) : W64 := mget 0 y.ts t

/-- TSHAPE (R242). -/
def State.tshape (s : State) (t e : BitVec 3) (r : BitVec 6) (c : BitVec 8) : Res :=
  check (shapeOk e.toNat (c.toNat + 1)) (s.fault 0x0306) <|
  .ok (s.emit 1 (.ctl (0x10 + t.toNat) (BitVec.ofNat 64 (e.toNat + 8 * r.toNat + 512 * c.toNat))))
def execTshape (t e : BitVec 3) (r : BitVec 6) (c : BitVec 8) (s : State) : Host.Outcome State Fault Refusal := s.finish (s.tshape t e r c)

/-- The addresses of the rows of a tile access. -/
def State.rowAddrs (s : State) (a b : BitVec 5) (rows : Nat) : List Nat :=
  (List.range rows).map fun r => (s.N a + r * s.N b) % 2 ^ 64

/-- All rows in one range: their offsets (R243). A range is the scratchpad, its window alias, or weight MRAM. -/
def rowOffsets (f : Nat → Nat → Option Nat) (nb : Nat) (window : Nat → Bool) : List Nat → Option (List Nat)
  | [] => some []
  | x :: xs =>
    match f x nb, rowOffsets f nb window xs with
    | some o, some os => if (xs.head?.map window).getD (window x) == window x then some (o :: os) else none
    | _, _ => none

def inWindow (a : Nat) : Bool := 0x4000000 ≤ a

/-- The address that a range fault of a tile access names: the first row outside the range of row 0 (R341). -/
def badRow (f : Nat → Nat → Option Nat) (nb : Nat) (window : Nat → Bool) (xs : List Nat) : Nat :=
  (xs.find? fun x => (f x nb).isNone || window x != window (xs.headD 0)).getD (xs.headD 0)

/-- The checks of a scratchpad tile access (R243, R259): shape, alignment, range, reservations; the rows' offsets. The record of 0x040A names ga, whichever of ga
and gb is misaligned (log 87, DESIGN CHOICE). -/
def State.tileRows (s : State) (t : BitVec 3) (a b : BitVec 5) (first : Nat) : Except FaultInfo (List Nat × Nat) :=
  let ts := s.me.shape t.toNat
  let nb := rowBytes (tsEf ts) (tsCols ts)
  if !shapeOk (tsEf ts) (tsCols ts) then .error (s.fault 0x0306)
  else if s.N a % 64 != 0 || s.N b % 64 != 0 then .error (s.fault 0x040A (s.N a))
  else
    match rowOffsets spadOffset nb inWindow (s.rowAddrs a b (tsRows ts)) with
    | none => .error (s.fault 0x0408 (badRow spadOffset nb inWindow (s.rowAddrs a b (tsRows ts))))
    | some os =>
      match os.zipIdx.find? fun o => !s.banksFree o.1 nb (first + o.2) with
      | none => .ok (os, nb)
      | some o => .error (s.fault 0x0109 ((s.rowAddrs a b (tsRows ts)).getD o.2 0))

/-- A row of a tile load that lands `lat` steps after it is sampled. -/
def State.emitRow (s : State) (lat t row : Nat) (bs : List Byte) (p : Option Poison) : State :=
  s.emitFlight { s.flight lat (.tileRow t row bs) with poison := p }

/-- TLD (R243): row 0 is sampled now, row r at issue + r. Where an atomic that issues after it on this tick reserves a bank of row 0, that row is refused, and
with it the others: its fault comes at the first step whose bundle has not issued (R102, R259; log 66, DEDUCED). -/
def State.tld (s : State) (t : BitVec 3) (a b : BitVec 5) : Res :=
  match s.tileRows t a b 0 with
  | .error f => .error f
  | .ok (os, nb) =>
    if (wordsOf (os.headD 0) nb).any fun k => s.myTile.atomicNow.contains (k % 16) then
      .ok (s.emit 1 (.tileFetch t.toNat 0 nb (os.headD 0) none))
    else
    let (s, bs, p) := s.readSpad s.cur.tile s.accessRank (os.headD 0) nb
    let s := s.emitRow 9 t.toNat 0 bs (seenAt p (s.N a))
    .ok ((os.zipIdx.drop 1).foldl (fun s o => s.emit o.2 (.tileFetch t.toNat o.2 nb o.1 none)) s)
def execTld (t : BitVec 3) (a b : BitVec 5) (s : State) : Host.Outcome State Fault Refusal := s.finish (s.tld t a b)

/-- TLDM (R244): rows through the row map of the issue step, each taking the read port at its own step. -/
def State.tldm (s : State) (t : BitVec 3) (a b : BitVec 5) : Res :=
  let ts := s.me.shape t.toNat
  let nb := rowBytes (tsEf ts) (tsCols ts)
  check (shapeOk (tsEf ts) (tsCols ts)) (s.fault 0x0306) <|
  check (s.N a % 128 == 0 && s.N b % 128 == 0) (s.fault 0x040A (s.N a)) <|
  match rowOffsets mramOffset nb (fun _ => false) (s.rowAddrs a b (tsRows ts)) with
  | none => .error (s.fault 0x0408 (badRow mramOffset nb (fun _ => false) (s.rowAddrs a b (tsRows ts))))
  | some os =>
    check (os.all fun o => !s.mramLocked s.cur.tile o s.myCtx) (s.fault 0x0C03 (s.N a)) <|
    let (s, bs, p) := s.readMram s.cur.tile s.accessRank (os.headD 0) nb
    let s := s.emitRow 15 t.toNat 0 bs (seenAt p (s.N a))
    .ok ((os.zipIdx.drop 1).foldl (fun s o => s.emit o.2 (.tileFetch t.toNat o.2 nb o.1 (some (s.myTile.physRow (o.1 / 1024))))) s)
def execTldm (t : BitVec 3) (a b : BitVec 5) (s : State) : Host.Outcome State Fault Refusal := s.finish (s.tldm t a b)

/-- TST (R245): row j, as read at issue, performs at issue + 4 + j. -/
def State.tst (s : State) (t : BitVec 3) (a b : BitVec 5) : Res :=
  match s.tileRows t a b 4 with
  | .error f => .error f
  | .ok (os, nb) =>
    let tile := s.me.readT t.toNat
    .ok (os.zipIdx.foldl (fun s o =>
      s.emitStore (4 + o.2) { bytes := cellsFrom o.1 ((rowBytesOf tile o.2).take nb) }) s)
def execTst (t : BitVec 3) (a b : BitVec 5) (s : State) : Host.Outcome State Fault Refusal := s.finish (s.tst t a b)

def execTzero (t : BitVec 3) (s : State) : Host.Outcome State Fault Refusal := .next (s.emit 2 (.tileAll t.toNat [] none))

/-- The transposed bytes of a tile (R247). -/
def transposed (tile : Map Byte) (ef rows cols : Nat) : Map Byte :=
  let w := efWidth ef
  let src := (List.range rows).map fun r => leNat (rowBytesOf tile r)
  let row (r : Nat) : Nat := src.zipIdx.foldl (fun acc x => acc + nbits x.1 (w * r) w * 2 ^ (w * x.2)) 0
  (List.range cols).foldl (fun m r => putBytes m (128 * r) (leBytes 128 (row r))) []

/-- TTR (R247). -/
def State.ttr (s : State) (t : BitVec 3) : Res :=
  let ts := s.me.shape t.toNat
  let (ef, rows, cols) := (tsEf ts, tsRows ts, tsCols ts)
  check (ef != 4 && cols ≤ 64 && shapeOk ef cols && shapeOk ef rows) (s.fault 0x0306) <|
  .ok (s.emit (8 + rows) (.tileAll t.toNat (transposed (s.me.readT t.toNat) ef rows cols)
    (some (BitVec.ofNat 64 (ef + 8 * (cols - 1) + 512 * (rows - 1))))))
def execTtr (t : BitVec 3) (s : State) : Host.Outcome State Fault Refusal := s.finish (s.ttr t)

/-! Products (R144, R145, R248 to R254). -/

/-- Products per PE and cycle, and the occupancy of a block, sparse or dense (R144). -/
def occupancy (wa wb : Nat) (sparse : Bool) : Nat :=
  48 / (16 / ((wa / 2) * (wb / 2)) * (if sparse then 2 else 1))

/-- The latency of the result under a mode, and the share's acceptance (R178). -/
def mmaLatency (mode o : Nat) : Nat := if mode < 2 then o + 72 else if mode = 2 then 2 * o + 80 else 2 * o + 88
def mmaAccept (mode o : Nat) : Nat := if mode < 2 then o else 2 * o

/-- Block `b` lies within the 128 bytes of a row: 48 elements dense, 24 slots sparse (R248). -/
def blockFits (w n b : Nat) : Bool := (b + 1) * n * w ≤ 1024

/-- The 48 elements of block `b` of row `r`. -/
def denseRow (t : Map Byte) (w b r : Nat) : List Int :=
  let row := leNat (rowBytesOf t r)
  (List.range 48).map fun k => rowElem row w (48 * b + k)

/-- The mask of column `n`, group `h` of block `b` (R248). -/
def maskOf (t : Map Byte) (b n h : Nat) : Nat := leNat (bytesAt t (384 * b + 6 * n + 3 * h) 3)

/-- The 48 values of sparse column `n` (R251). -/
def sparseRow (tb tm : Map Byte) (w b n : Nat) : List Int :=
  let row := leNat (rowBytesOf tb n)
  (List.range 48).map fun k =>
    let m := maskOf tm b n (k / 24)
    if nbit m (k % 24) then rowElem row w (24 * b + 12 * (k / 24) + popCount (k % 24) m) else 0

def dot (xs ys : List Int) : Int := ((xs.zip ys).map fun p => p.1 * p.2).foldl (· + ·) 0

/-- Sums of the live rows, modulo 2^40, by element 64 m + n. -/
def products (as_ bs : List (List Int)) (live : Nat) : Map (BitVec 40) :=
  (as_.take live).zipIdx.flatMap fun a => bs.zipIdx.filterMap fun b =>
    let v := BitVec.ofInt 40 (dot a.1 b.1)
    if v = 0 then none else some (64 * a.2 + b.2, v)

/-- The right side of the checksum (R252). -/
def checksum (as_ bs : List (List Int)) (live : Nat) : BitVec 40 :=
  let col (xs : List (List Int)) (k : Nat) : Int := (xs.map fun x => x.getD k 0).foldl (· + ·) 0
  BitVec.ofInt 40 (((List.range 48).map fun k => col (as_.take live) k * col bs k).foldl (· + ·) 0)

/-- Live rows under .RG and .CO (R250): row `m` is live when `row0 + m` is below SLOTMAP.ROWS. -/
def State.liveRows (s : State) (rg co : BitVec 1) : Nat :=
  if rg = 0 then 64
  else min 64 (nbits s.me.slotmap.toNat 16 16 - (if co = 1 then (s.me.readG 31).toNat % 65536 else 0))

/-- The array takes the word (R253, R254): its share is free, it owns the array, and no MMA of either sequencer is within
its window under another mode. -/
def State.arrayAccepts (s : State) : Bool :=
  let x := s.myTile
  let mode := x.mxmode
  let other (y : Seq) : Bool := y.arrayFree ≤ y.clock || y.arrayMode == mode
  s.me.arrayFree ≤ s.me.clock && (mode.toNat ≥ 2 || mode.toNat == s.cur.seq) && other x.a && other x.b

/-- MMA and MMAS (R249, R251): checks in the order of R253, sums from the operands at issue, landing under the mode in
force. -/
def State.mma (s : State) (a : BitVec 2) (wa wb : Nat) (x y : BitVec 3) (tm : Option (BitVec 3)) (z r k o : BitVec 1)
    (b : BitVec 3) : Res :=
  s.outsideHandler <|
  let ta := s.me.readT x.toNat
  let tb := s.me.readT y.toNat
  check (blockFits wa 48 b.toNat && blockFits wb (if tm.isSome then 24 else 48) b.toNat) (s.fault 0x0306) <|
  check (tm.all fun m => (List.range 128).all fun i =>
    let n := popCount 24 (maskOf (s.me.readT m.toNat) b.toNat (i / 2) (i % 2))
    n == 6 || n == 12) (s.fault 0x0307) <|
  check s.arrayAccepts (s.fault 0x0104) <|
  let as_ := (List.range 64).map (denseRow ta wa b.toNat)
  let bs := (List.range 64).map fun n => match tm with
    | none => denseRow tb wb b.toNat n
    | some m => sparseRow tb (s.me.readT m.toNat) wb b.toNat n
  let live := s.liveRows r o
  let mode := s.myTile.mxmode
  let occ := occupancy wa wb tm.isSome
  let rhs := if k = 1 then some (checksum as_ bs live) else none
  let s := s.emit (mmaLatency mode.toNat occ) (.mma a.toNat (z = 1) live (products as_ bs live) rhs)
  .ok (s.modMe fun q => { q with arrayFree := q.clock + mmaAccept mode.toNat occ, arrayMode := mode,
                                 faultFlags := q.faultFlags &&& ~~~ 1 })

def execMma44 (a : BitVec 2) (x y : BitVec 3) (z r k o : BitVec 1) (b : BitVec 3) (s : State) :
    Host.Outcome State Fault Refusal := s.finish (s.mma a 4 4 x y none z r k o b)
def execMma46 (a : BitVec 2) (x y : BitVec 3) (z r k o : BitVec 1) (b : BitVec 3) (s : State) :
    Host.Outcome State Fault Refusal := s.finish (s.mma a 4 6 x y none z r k o b)
def execMma48 (a : BitVec 2) (x y : BitVec 3) (z r k o : BitVec 1) (b : BitVec 3) (s : State) :
    Host.Outcome State Fault Refusal := s.finish (s.mma a 4 8 x y none z r k o b)
def execMma64 (a : BitVec 2) (x y : BitVec 3) (z r k o : BitVec 1) (b : BitVec 3) (s : State) :
    Host.Outcome State Fault Refusal := s.finish (s.mma a 6 4 x y none z r k o b)
def execMma66 (a : BitVec 2) (x y : BitVec 3) (z r k o : BitVec 1) (b : BitVec 3) (s : State) :
    Host.Outcome State Fault Refusal := s.finish (s.mma a 6 6 x y none z r k o b)
def execMma68 (a : BitVec 2) (x y : BitVec 3) (z r k o : BitVec 1) (b : BitVec 3) (s : State) :
    Host.Outcome State Fault Refusal := s.finish (s.mma a 6 8 x y none z r k o b)
def execMma84 (a : BitVec 2) (x y : BitVec 3) (z r k o : BitVec 1) (b : BitVec 3) (s : State) :
    Host.Outcome State Fault Refusal := s.finish (s.mma a 8 4 x y none z r k o b)
def execMma86 (a : BitVec 2) (x y : BitVec 3) (z r k o : BitVec 1) (b : BitVec 3) (s : State) :
    Host.Outcome State Fault Refusal := s.finish (s.mma a 8 6 x y none z r k o b)
def execMma88 (a : BitVec 2) (x y : BitVec 3) (z r k o : BitVec 1) (b : BitVec 3) (s : State) :
    Host.Outcome State Fault Refusal := s.finish (s.mma a 8 8 x y none z r k o b)
def execMmas44 (a : BitVec 2) (x y m : BitVec 3) (z r k o : BitVec 1) (b : BitVec 3) (s : State) :
    Host.Outcome State Fault Refusal := s.finish (s.mma a 4 4 x y (some m) z r k o b)
def execMmas48 (a : BitVec 2) (x y m : BitVec 3) (z r k o : BitVec 1) (b : BitVec 3) (s : State) :
    Host.Outcome State Fault Refusal := s.finish (s.mma a 4 8 x y (some m) z r k o b)
def execMmas84 (a : BitVec 2) (x y m : BitVec 3) (z r k o : BitVec 1) (b : BitVec 3) (s : State) :
    Host.Outcome State Fault Refusal := s.finish (s.mma a 8 4 x y (some m) z r k o b)
def execMmas88 (a : BitVec 2) (x y m : BitVec 3) (z r k o : BitVec 1) (b : BitVec 3) (s : State) :
    Host.Outcome State Fault Refusal := s.finish (s.mma a 8 8 x y (some m) z r k o b)

/-! Accumulators, scale unit, output registers (R255 to R258). -/

/-- ACCZ (R255), a command to the array like the products: its fault flag clears (R201; log 51, DEDUCED). -/
def execAccz (a : BitVec 2) (s : State) : Host.Outcome State Fault Refusal :=
  .next ((s.emit 2 (.accz a.toNat)).modMe fun q => { q with faultFlags := q.faultFlags &&& ~~~ 1 })

/-- ACCSCL (R256): accumulator and scales as read at issue; it folds at issue + 20. -/
def State.accscl (s : State) (a : BitVec 2) (o : BitVec 1) (x y b : BitVec 3) : Res :=
  s.outsideHandler <|
  check (s.me.scaleFree ≤ s.me.clock) (s.fault 0x010B) <|
  let ta := s.me.readT x.toNat
  let tb := s.me.readT y.toNat
  let sa := (List.range 64).map fun m => BitVec.ofNat 16 (leNat (bytesAt ta (128 * m + 2 * b.toNat) 2))
  let sb := (List.range 64).map fun n => BitVec.ofNat 16 (leNat (bytesAt tb (128 * b.toNat + 2 * n) 2))
  let s := s.emit 20 (.accscl o.toNat (mget [] s.me.a a.toNat) sa sb)
  .ok (s.modMe fun q => { q with scaleFree := q.clock + 8, faultFlags := q.faultFlags &&& ~~~ 2 })
def execAccscl (a : BitVec 2) (o : BitVec 1) (x y b : BitVec 3) (s : State) : Host.Outcome State Fault Refusal := s.finish (s.accscl a o x y b)

def execOzero (o : BitVec 1) (s : State) : Host.Outcome State Fault Refusal := .next (s.emit 2 (.ozero o.toNat))

/-- The registers v + i, each whole, landing at issue + 6 + i (R258). -/
def State.emitRows (s : State) (v n : Nat) (f : Nat → Vec) : State :=
  (List.range n).foldl (fun s i => s.emit (6 + i) (.v (s.me.physV (v + i)) (BitVec.allOnes 64) (f i))) s

def execOrd (v : BitVec 6) (o : BitVec 1) (r : BitVec 6) (s : State) : Host.Outcome State Fault Refusal :=
  let reg := mget [] s.me.o o.toNat
  .next (s.emitRows v.toNat 4 fun i =>
    packLanes 4 ((List.range 16).map fun j => (mget (0 : BitVec 32) reg (64 * r.toNat + 16 * i + j)).toNat))

def execOwr (v : BitVec 6) (o : BitVec 1) (r : BitVec 6) (s : State) : Host.Outcome State Fault Refusal :=
  .next (s.emit 4 (.orow o.toNat r.toNat ((List.range 64).map fun k =>
    BitVec.ofNat 32 (lane (s.me.readV (v.toNat + k / 16)) 4 (k % 16)))))

def execAccrd (v : BitVec 6) (a : BitVec 2) (r : BitVec 6) (s : State) : Host.Outcome State Fault Refusal :=
  let reg := mget [] s.me.a a.toNat
  .next (s.emitRows v.toNat 8 fun i =>
    packLanes 8 ((List.range 8).map fun j => ((mget (0 : BitVec 40) reg (64 * r.toNat + 8 * i + j)).signExtend 64).toNat))

end Sys2Proof.Machine
end

