-- ==== Sys2Proof/Machine/Copy.lean ====
section
/-! DEFINITION. Class 5 at issue: the checks of a transfer command and its place in the queue (R261 to R268, R274), CSEED and
CGET (R271, R272). What a queued command does is in the engine events. -/
namespace Sys2Proof.Machine

/-- The tile of cluster member `i` when it belongs to the partition of tile `t` (R96). -/
def State.memberTile (s : State) (t i : Nat) : Option Nat :=
  let m := clusterOf t * 16 + i
  if (s.tile m).ctx.isSome && (s.tile m).ctx == (s.tile t).ctx then some m else none

/-- A member-range destination of `n` bytes: the member's tile and offset (R96). -/
def State.memberRange (s : State) (t a n : Nat) : Option (Nat × Nat) :=
  if 0x1000000 ≤ a && a + n ≤ 0x3000000 && (a - 0x1000000) / 0x200000 == (a + n - 1 - 0x1000000) / 0x200000 then
    (s.memberTile t ((a - 0x1000000) / 0x200000)).map fun m => (m, (a - 0x1000000) % 0x200000)
  else none

/-- REDC's destination is tile-local when it lies in a range that REDC reaches (R263). -/
def redcLocal (a : Nat) : Bool := a < 0x200000 || (0x1000000 ≤ a && a < 0x3000000) || (0x4000000 ≤ a && a < 0x4040000)

/-- Beats of a command (R261). -/
def Command.beats (c : Command) : Nat := ceilDiv c.len 64

/-- The destination of a command is global memory. -/
def Command.isGlobal (c : Command) : Bool :=
  match c.kind with
  | .cpyw => true
  | .cpyx => true
  | .scat => true
  | .redc => !redcLocal c.dst
  | _ => false

/-- A member range is named as the destination. -/
def Command.toMember (c : Command) : Bool :=
  match c.kind with
  | .cpy => 0x1000000 ≤ c.dst && c.dst < 0x3000000
  | .redc => 0x1000000 ≤ c.dst && c.dst < 0x3000000
  | _ => false

/-- Base of the beats (R179). -/
def Command.base (c : Command) : Nat :=
  match c.kind with
  | .cpy => if c.toMember then 24 else 6
  | .cpym => 16
  | .cpymc => 30
  | .cpyg => 64 * 2 ^ c.sc
  | .gath => 64 * 2 ^ c.sc
  | .redc => if c.toMember then 24 else 6
  | .cpyw => 6
  | .cpyx => 6
  | .scat => 6

/-- Alignment of R263: the source to be a multiple of 64, where the kind asks it. -/
def Command.srcAligned (c : Command) : Bool :=
  match c.kind with
  | .cpy => true
  | .cpyg => true
  | .cpyw => true
  | .gath => c.src / 65536 % 64 == 0
  | _ => c.src % 64 == 0

/-- The same for the destination. -/
def Command.dstAligned (c : Command) : Bool :=
  match c.kind with
  | .cpy => true
  | .cpyg => true
  | .cpyw => true
  | .scat => c.dst / 65536 % 64 == 0
  | _ => c.dst % 64 == 0

/-- Length of R262 and R263: a REDC length in fours, a GATH or SCAT length in sixty-fours. -/
def Command.lenOk (c : Command) : Bool :=
  1 ≤ c.len && c.len ≤ 1048576 &&
  match c.kind with
  | .redc => c.len % 4 == 0
  | .gath => c.len % 64 == 0
  | .scat => c.len % 64 == 0
  | _ => true

/-- A tile-local source lies in its range (R263, R274). -/
def Command.srcOk (c : Command) : Bool :=
  match c.kind with
  | .cpym => (mramOffset c.src c.len).isSome
  | .cpyg => true
  | .gath => true
  | _ => (spadOffset c.src c.len).isSome

/-- A tile-local destination lies in its range (R263, R274). -/
def State.dstOk (s : State) (c : Command) : Bool :=
  let own := (spadOffset c.dst c.len).isSome
  let member := (s.memberRange s.cur.tile c.dst c.len).isSome
  match c.kind with
  | .cpy => own || member
  | .cpym => own
  | .cpyg => own
  | .gath => own
  | .cpymc => 0x4000000 ≤ c.dst && c.dst + c.len ≤ 0x4040000
  | .redc => !redcLocal c.dst || own || member
  | _ => true

/-- A scope code in sc is at most 6 where sc is a scope (R263, R366). -/
def Command.scopeOk (c : Command) : Bool := !c.isGlobal || c.sc ≤ 6

/-- The queue of the copy slot at the cursor. -/
def State.slotQueue (s : State) : Nat := s.cur.unit - 4

/-- A CPYM reads no locked region (R334); with at most 1 MiB its source meets the regions of its first and of its last byte. -/
def State.sourceLocked (s : State) (c : Command) : Bool :=
  c.kind == .cpym && (s.mramLocked s.cur.tile (c.src - 0x8000000) s.myCtx || s.mramLocked s.cur.tile (c.src + c.len - 1 - 0x8000000) s.myCtx)

/-- A transfer command at issue (R261): the checks in their order, then its place in the queue. Since a start step is at
least four steps away, no beat meets a reservation already made, which lasts two steps more (R102). -/
def State.queueCommand (s : State) (c : Command) : Res :=
  s.outsideHandler <|
  let k := s.slotQueue
  let q := s.me.queue k
  check c.lenOk (s.fault 0x0308) <|
  check c.srcAligned (s.fault 0x040A (if c.kind = .gath then c.src / 65536 else c.src)) <|
  check c.dstAligned (s.fault 0x040A (if c.kind = .scat then c.dst / 65536 else c.dst)) <|
  check c.srcOk (s.fault 0x0408 c.src) <|
  check (s.dstOk c) (s.fault 0x0408 c.dst) <|
  check c.scopeOk (s.fault 0x030A) <|
  check (!s.sourceLocked c) (s.fault 0x0C03 c.src) <|
  check (s.me.clock + 4 ≤ c.start) (s.fault 0x0102) <|
  check (q.cmds.length < 16) (s.fault 0x010C) <|
  check (q.free ≤ c.start) (s.fault 0x010D) <|
  .ok (s.modMe fun y => y.setQueue k
    { q with cmds := q.cmds ++ [c], recent := true, free := c.start + c.beats, fault := false })

/-- The command of an F-CK word (R262, R270). -/
def State.command (s : State) (kind : CopyKind) (a b c : BitVec 5) (sc : Nat) (f : BitVec 3) : Command :=
  { kind := kind, src := s.N a, dst := s.N b, len := nbits (s.N c) 0 32, start := nbits (s.N c) 32 32, sc := sc,
    fold := f.getLsbD 0, compare := f.getLsbD 1, last := f.getLsbD 2, issue := s.me.clock, bundle := s.cur.bundle,
    tick := s.gtick }

def execCpy (a b c : BitVec 5) (f : BitVec 3) (s : State) : Host.Outcome State Fault Refusal :=
  s.finish (s.queueCommand (s.command .cpy a b c 0 f))
def execCpym (a b c : BitVec 5) (f : BitVec 3) (s : State) : Host.Outcome State Fault Refusal :=
  s.finish (s.queueCommand (s.command .cpym a b c 0 f))
def execCpyg (a b c : BitVec 5) (sc f : BitVec 3) (s : State) : Host.Outcome State Fault Refusal :=
  s.finish (s.queueCommand (s.command .cpyg a b c sc.toNat f))
def execCpyw (a b c : BitVec 5) (sc f : BitVec 3) (s : State) : Host.Outcome State Fault Refusal :=
  s.finish (s.queueCommand (s.command .cpyw a b c sc.toNat f))
def execCpymc (a b c : BitVec 5) (f : BitVec 3) (s : State) : Host.Outcome State Fault Refusal :=
  s.finish (s.queueCommand (s.command .cpymc a b c 0 f))
def execCpyx (a b c : BitVec 5) (sc f : BitVec 3) (s : State) : Host.Outcome State Fault Refusal :=
  s.finish (s.queueCommand (s.command .cpyx a b c sc.toNat f))
def execGath (a b c : BitVec 5) (sc f : BitVec 3) (s : State) : Host.Outcome State Fault Refusal :=
  s.finish (s.queueCommand (s.command .gath a b c sc.toNat f))
def execScat (a b c : BitVec 5) (sc f : BitVec 3) (s : State) : Host.Outcome State Fault Refusal :=
  s.finish (s.queueCommand (s.command .scat a b c sc.toNat f))

/-- A REDC to timed memory with a non-zero sc is not an instruction (R366): only its operands tell. -/
def State.redc (s : State) (a b c : BitVec 5) (sc f : BitVec 3) : Res :=
  check (sc = 0 || !redcLocal (s.N b)) (s.fault 0x0201) (s.queueCommand (s.command .redc a b c sc.toNat f))
def execRedc (a b c : BitVec 5) (sc f : BitVec 3) (s : State) : Host.Outcome State Fault Refusal :=
  s.finish (s.redc a b c sc f)

/-- CSEED (R271): the change lands at issue + 1. It is no command to the queue that clears its fault flag (R201; log 85, DESIGN CHOICE). -/
def execCseed (x : BitVec 1) (a : BitVec 5) (s : State) : Host.Outcome State Fault Refusal :=
  let v := s.G a
  s.finish (s.outsideHandler (.ok (s.emit 1 (if x = 0
    then .seed s.slotQueue (some (v.setWidth 32)) ((v >>> 32).setWidth 32)
    else .seed s.slotQueue none ((v >>> 32).setWidth 32)))))

/-- The register of a CGET as it stands. -/
def CopyQueue.crcValue (q : CopyQueue) (which : Nat) : Vec := (if which = 0 then q.run else q.expect).setWidth 512

/-- CGET (R272): the slot becomes PENDING with arrival step issue + 4; without a command to wait for its value is that of
the issue step. It clears no fault flag either (log 85). -/
def State.cget (s : State) (l : BitVec 4) (x : BitVec 1) : Res :=
  s.outsideHandler <|
  let k := s.slotQueue
  let q := s.me.queue k
  let d := s.me.landing l.toNat
  check d.accepts (s.fault 0x0107) <|
  let n := if q.recent then q.cmds.length else 0
  .ok (s.modMe fun y => y.setLanding l.toNat
    { st := if n = 0 then .held else .pending, arrival := y.clock + 4, data := q.crcValue x.toNat, poison := none,
      awaits := if n = 0 then none else some (k, x.toNat, n), ticket := 0 })
def execCget (l : BitVec 4) (x : BitVec 1) (s : State) : Host.Outcome State Fault Refusal := s.finish (s.cget l x)

end Sys2Proof.Machine
end

