-- ==== Sys2Proof/Machine/Sync.lean ====
section
/-! DEFINITION. Class 6, boundaries, fences, waits and atomics (R275 to R280). -/
namespace Sys2Proof.Machine

/-- The scope field of F-PH as boundaries store it: the code, or the level + 128. -/
def phaseRaw (sc : BitVec 3) (lv : BitVec 1) (lvl : BitVec 3) : Nat := if lv = 1 then 128 + lvl.toNat else sc.toNat

/-- The levels of the launch. -/
def Ctx.levelCount (c : Ctx) : Nat := (c.launch.map fun l => l.levels.length).getD 0

/-- A scope field within its limit, or a level of the launch (R367). -/
def State.scopeValid (s : State) (sc : BitVec 3) (lv : BitVec 1) (lvl : BitVec 3) (most : Nat) : Bool :=
  if lv = 1 then lvl.toNat < (s.ctx s.myCtx).levelCount else sc.toNat ≤ most

/-- PHASE (kind 0) and SSTEP (kind 1) (R275 to R277): the word must match the next boundary left; the party then holds. -/
def State.boundary (s : State) (kind : Nat) (sc : BitVec 3) (lv : BitVec 1) (lvl : BitVec 3) : Res :=
  s.outsideHandler <|
  check (s.scopeValid sc lv lvl 5) (s.fault 0x030A) <|
  match s.me.bounds with
  | [] => .error (s.fault 0x030B)
  | b :: bs =>
    check (b.kind == kind && b.scope == phaseRaw sc lv lvl) (s.fault 0x030B) <|
    let code := (s.ctx s.myCtx).scopeOf b.scope
    let h : Hold := { g := b.g, lat := phaseLatency code, scope := code, phase := kind == 0, issued := s.gtick, step := s.me.clock }
    .ok (s.modMe fun y => { y with bounds := bs, hold := some h })
def execPhase (sc : BitVec 3) (lv : BitVec 1) (lvl : BitVec 3) (s : State) : Host.Outcome State Fault Refusal :=
  s.finish (s.boundary 0 sc lv lvl)
def execSstep (sc : BitVec 3) (lv : BitVec 1) (lvl : BitVec 3) (s : State) : Host.Outcome State Fault Refusal :=
  s.finish (s.boundary 1 sc lv lvl)

/-- The lines a boundary of scope `b` writes back (R132): scope at most `b`, and scope S at P or F. -/
def boundaryLine (b : Nat) (l : Line) : Bool := l.isDirty && (l.scope ≤ b || (l.scope == 6 && b ≥ 4))

/-- FENCE (R135, R278): one sector per tick from issue + 1, each a freeze tick of the tile; the lines take the fence's
scope; sectors without a dirty byte lose their valid bit. A store that has issued and not performed is in no line yet (log 84, DESIGN CHOICE). -/
def State.fence (s : State) (sc : BitVec 3) (lv : BitVec 1) (lvl : BitVec 3) : Res :=
  s.outsideHandler <|
  check (s.scopeValid sc lv lvl 6) (s.fault 0x030A) <|
  let code := (s.ctx s.myCtx).scopeOf (phaseRaw sc lv lvl)
  let sel (l : Line) : Bool := l.isDirty && (l.scope < code || (l.scope == 6 && code == 6))
  let out := s.me.writeBacks sel (fun _ => code)
  let s := s.modMe fun y => (y.cleanLines sel (fun _ => code)).invalidate true
  let s := out.zipIdx.foldl (fun s w => s.stageAt s.cur.tile s.cur.seq (s.gtick + 1 + w.2) w.1) s
  .ok (s.modMyTile fun x => { x with owed := x.owed + out.length })
def execFence (sc : BitVec 3) (lv : BitVec 1) (lvl : BitVec 3) (s : State) : Host.Outcome State Fault Refusal :=
  s.finish (s.fence sc lv lvl)

/-- The commands a WGO waits for (R279): those queued before its issue step, by queue number 2 × sequencer + slot. -/
def State.waitedOn (s : State) (whole : Bool) : List (Nat × Nat) :=
  let x := s.myTile
  let all := [(0, x.a.c0), (1, x.a.c1), (2, x.b.c0), (3, x.b.c1)]
  let mine := all.filter fun k => whole || k.1 / 2 == s.cur.seq
  (mine.map fun k => (k.1, (k.2.cmds.filter fun (c : Command) => c.tick < s.gtick).length)).filter fun k => k.2 > 0

def State.wgo (s : State) (sc : BitVec 3) (lv : BitVec 1) : Res :=
  s.outsideHandler <|
  check (lv = 0 && sc.toNat ≤ 1) (s.fault 0x030A) <|
  let w := s.waitedOn (sc = 1)
  .ok (s.modMe fun y => { y with waitGo := w })
def execWgo (sc : BitVec 3) (lv : BitVec 1) (_lvl : BitVec 3) (s : State) : Host.Outcome State Fault Refusal :=
  s.finish (s.wgo sc lv)

/-! Atomics (R102, R280). -/

/-- An atomic: `f w M B D` is the new value. -/
def State.atomic (s : State) (d a b : BitVec 5) (sz : BitVec 2) (f : Nat → Nat → Nat → Nat → Nat) : Res :=
  let n := opBytes sz
  let w := 8 * n
  let addr := s.N a
  check (addr % n == 0) (s.fault 0x040A addr) <|
  match spadOffset addr n with
  | none => .error (s.fault 0x0408 addr)
  | some off =>
    let bank := bankOf off
    check (s.banksFree off n 0 && !s.atomicMeets bank) (s.fault 0x0109 addr) <|
    let B := low w (s.G b)
    let D := low w (s.G d)
    let (s, bs, p) := s.readSpad s.cur.tile s.accessRank off n
    let M := leNat bs
    let s := s.emitStore 2 { bytes := cellsFrom off (leBytes n (f w M B D)), poison := none }
    let s := s.emitFlight { s.flight 3 (.g d.toNat (w64 (signExt M w))) with poison := seenAt p addr }
    .ok (s.modMyTile fun x => { x with reservations := x.reservations ++
      [{ bank := bank, left := 3, seq := s.cur.seq, issue := s.me.now, handler := s.me.inHandler }] })

def execAadd (d a b : BitVec 5) (sz : BitVec 2) (s : State) : Host.Outcome State Fault Refusal :=
  s.finish (s.atomic d a b sz fun w M B _ => (M + B) % 2 ^ w)
def execAmin (d a b : BitVec 5) (sz : BitVec 2) (s : State) : Host.Outcome State Fault Refusal :=
  s.finish (s.atomic d a b sz fun w M B _ => if signExt B w < signExt M w then B else M)
def execAmax (d a b : BitVec 5) (sz : BitVec 2) (s : State) : Host.Outcome State Fault Refusal :=
  s.finish (s.atomic d a b sz fun w M B _ => if signExt M w < signExt B w then B else M)
def execAor (d a b : BitVec 5) (sz : BitVec 2) (s : State) : Host.Outcome State Fault Refusal :=
  s.finish (s.atomic d a b sz fun _ M B _ => Nat.lor M B)
def execAand (d a b : BitVec 5) (sz : BitVec 2) (s : State) : Host.Outcome State Fault Refusal :=
  s.finish (s.atomic d a b sz fun _ M B _ => Nat.land M B)
def execAxchg (d a b : BitVec 5) (sz : BitVec 2) (s : State) : Host.Outcome State Fault Refusal :=
  s.finish (s.atomic d a b sz fun _ _ B _ => B)
def execAcas (d a b : BitVec 5) (sz : BitVec 2) (s : State) : Host.Outcome State Fault Refusal :=
  s.finish (s.atomic d a b sz fun _ M B D => if M = D then B else M)

end Sys2Proof.Machine
end

