-- ==== Sys2Proof/Machine/Serving.lean ====
section
/-! DEFINITION. Class 6, serving words, the Sheaf and the power hint (R281 to R286, R295, R377 to R379). -/
namespace Sys2Proof.Machine

/-- The launch's maximum slots. -/
def Ctx.maxSlots (c : Ctx) : Nat := (c.launch.map (·.slots)).getD 0

/-- Field `f` of slot `k` as last published (R281). -/
def Ctx.slotField (c : Ctx) (k f : Nat) : W64 :=
  match c.winnow.slots.lookup k with
  | none => if f = 0 then BitVec.allOnes 64 else 0
  | some (record, r) =>
    BitVec.ofNat 64 <|
      if 20 ≤ f && f ≤ 25 then r.stops.getD (f - 20) 0
      else ([record, r.id, r.state, r.class_, r.position, r.prompt, r.maxNew, r.generated, r.deadline, r.priority, r.flags,
        r.draw, r.seed, r.mode, r.topK, r.topP, r.temperature, r.width, r.depth, r.stops.length, 0, 0, 0, 0, 0, 0, r.ring,
        r.pageList, r.pages, r.rowStart, r.rows, r.kind, r.used, r.entryFlags].getD f 0)

/-- RQLD (R281). -/
def execRqld (d a : BitVec 5) (i : BitVec 11) (s : State) : Host.Outcome State Fault Refusal :=
  let c := s.ctx s.myCtx
  s.finish (check (s.N a < c.maxSlots && i.toNat < 34) (s.fault 0x0309)
    (.ok (s.emitG 4 d.toNat (c.slotField (s.N a) i.toNat))))

/-- The slot is active in the segment table of the task (R379). -/
def Ctx.slotActive (c : Ctx) (k : Nat) : Bool := k < c.maxSlots && (c.winnow.slots.lookup k).isSome

/-- Whether one more commit of a slot is permitted, by its kind and the commits it has (R378, R379). Of a verify slot's commits the last that its count permits is
the one with DRAFT = 0 (log 92, DEDUCED). -/
def Ctx.commitOk (c : Ctx) (k : Nat) (draft : Bool) : Bool :=
  match c.winnow.slots.lookup k with
  | none => false
  | some (_, r) =>
    let had := c.winnow.commits.filter (·.slot == k)
    let final := had.any fun e => !e.draft
    if r.kind = 3 then !final && had.length < (if draft then r.used else r.used + 1) && had.length < 64
    else !draft && had.isEmpty && (r.kind == 2 || (r.kind == 1 && nbit r.entryFlags 0))

/-- RQCOMMIT (R282, R379). -/
def State.rqcommit (s : State) (d a b : BitVec 5) : Res :=
  s.outsideHandler <|
  let x := s.myCtx
  let c := s.ctx x
  let k := s.N a
  check (c.slotActive k && s.N d < 2 && s.N b < 2 ^ 32 && c.commitOk k (s.N d = 1)) (s.fault 0x030C) <|
  .ok (s.modCtx x fun c => { c with winnow := { c.winnow with
    commits := c.winnow.commits ++ [{ slot := k, token := s.N b, draft := s.N d = 1 }] } })
def execRqcommit (d a b : BitVec 5) (s : State) : Host.Outcome State Fault Refusal := s.finish (s.rqcommit d a b)

/-- RQEND (R283): a second one in a segment has no effect. -/
def execRqend (s : State) : Host.Outcome State Fault Refusal :=
  s.finish (s.outsideHandler (.ok (s.modCtx s.myCtx fun c => { c with rqend := true })))

/-- CONDW (R284): the change lands at issue + 1. -/
def execCondw (a b : BitVec 5) (s : State) : Host.Outcome State Fault Refusal :=
  s.finish (s.outsideHandler (.ok (s.emit 1 (.cond ((s.G b).setWidth 32) ((s.G a).setWidth 32)))))

/-- RQFLT (R377, R379): the slot's request is faulted with 0x0802. -/
def State.rqflt (s : State) (a b : BitVec 5) : Res :=
  let x := s.myCtx
  let c := s.ctx x
  check (c.slotActive (s.N a)) (s.fault 0x030C) <|
  let record := ((c.winnow.slots.lookup (s.N a)).map (·.1)).getD 0
  .ok (s.requestFault x (s.N a) s.cur.tile s.cur.seq { s.fault 0x0802 with detail := s.N b % 65536, rindex := record })
def execRqflt (a b : BitVec 5) (s : State) : Host.Outcome State Fault Refusal := s.finish (s.rqflt a b)

/-! The Sheaf (R285, R286). -/

/-- The engine nibbles of a sequencer (R356); 0 is every slot's own instance. -/
def Sheaf.engineMap (h : Sheaf) (n : Nat) : Nat := mget 0 h.engines n
/-- A sequencer one of whose slots has no instance is unusable (R356). -/
def Sheaf.unusable (h : Sheaf) (n : Nat) : Bool := (List.range 6).any fun i => nbits (h.engineMap n) (4 * i) 4 == 15
def Sheaf.usable (h : Sheaf) (m : Map Nat) (full n : Nat) : Nat := if h.unusable n then 0 else (m.lookup n).getD full

/-- MAPRD's items of the current version, for the issuer on tile `t`, sequencer `q` (R285). -/
def State.sheafItem (s : State) (t q item idx : Nat) : Nat :=
  let h := s.sheaf
  let n := seqNumber t q
  match item with
  | 0 => h.version
  | 1 => (h.tileMap.lookup t).getD (t % 96)
  | 2 => if idx < 4 then (h.spares.lookup idx).getD 4 else 0
  | 3 => h.usable h.vregs 64 n
  | 4 => h.usable h.tregs 8 n
  | 5 => h.usable h.lslots 16 n
  | 6 => mget 0 h.health t
  | 7 => h.engineMap n
  | 8 => (s.tile t).retiredRows.length
  | 9 => (s.tile t).retiredBanks.toNat
  | 10 => h.channels.toNat
  | 11 => if idx < 32 && h.channels.getLsbD idx then (h.rates.lookup idx).getD 12800 else 0
  | 12 => h.links.toNat
  | 13 => if idx < 8 && h.links.getLsbD idx then (h.linkSpeeds.lookup idx).getD 200 else 0
  | 14 => h.pcieLanes + 256 * h.pcieRate
  | _ => 0

def execMaprd (d a : BitVec 5) (s : State) : Host.Outcome State Fault Refusal :=
  let v := s.N a
  .next (s.emitG 4 d.toNat (BitVec.ofNat 64 (s.sheafItem s.cur.tile s.cur.seq (v % 256) (v / 256 % 256))))

/-- MAPACK (R286): only the current version, acknowledged from issue + 1. -/
def execMapack (a : BitVec 5) (s : State) : Host.Outcome State Fault Refusal :=
  s.finish (s.outsideHandler (check (s.N a == s.sheaf.version) (s.fault 0x030D) (.ok (s.emit 1 (.mapack (s.G a))))))

/-- PWRHINT (R295): the shallowest hint of the segment stands. -/
def execPwrhint (h : BitVec 2) (s : State) : Host.Outcome State Fault Refusal :=
  .next (s.modMe fun y => { y with hint := some (min ((y.hint).getD 3) h.toNat) })

end Sys2Proof.Machine
end

