-- ==== Sys2Proof/Machine/Journal.lean ====
section
/-! DEFINITION. The weight journal (R287 to R294, R406 to R409): its commands, its attempts, its discard. -/
namespace Sys2Proof.Machine

/-- Ticks from a pulse's first to the tick after its verify (R290), and for forming an image (R407). -/
def attemptTicks : Nat := 2424
def formTicks : Nat := 16

/-- No logical row maps to physical row `p`, and it is not retired (R288). -/
def Tile.rowFree (x : Tile) (p : Nat) : Bool :=
  !x.retiredRows.contains p && !(p < 16384 && (x.rowMap.lookup p).isNone) && !x.rowMap.any fun e => e.2 == p

/-- Free physical rows that no transaction holds, ascending: rows below 16 384 are free only where the map moved their
logical row. -/
def Tile.freeRows (x : Tile) : List Nat :=
  let j := x.journal
  ((x.rowMap.map fun (e : Nat × Nat) => e.1) ++ (List.range 512).map (16384 + ·)).filter fun p =>
    x.rowFree p && !j.reserved.contains p && !(j.shadows.any fun e => e.2 == p) && !j.puts.any fun e => e.target == some p

def State.journal (s : State) (t : Nat) : Journal := (s.tile t).journal
def State.modJournal (s : State) (t : Nat) (f : Journal → Journal) : State :=
  s.modTile t fun x => { x with journal := f x.journal }

/-- IDLE: the shadow rows are free, the status figures stay (R292, R406). -/
def Journal.toIdle (j : Journal) : Journal := { code := j.code, att := j.att, rows := j.rows, idleAt := j.idleAt, paused := j.paused }

/-- The next attempt is to begin at `tick`. -/
def State.journalDue (s : State) (t tick : Nat) : State :=
  (s.modJournal t fun j => { j with due := some tick }).at_ tick .journalPulse [t]

/-- Begin what the journal has to do next (R407): the first attempt of the next put, or of the map write. -/
def State.journalStart (s : State) (t : Nat) : State :=
  let j := s.journal t
  if j.due.isSome || j.pulse.isSome || j.paused || s.powerLost then s
  else match j.puts with
  | p :: _ => s.journalDue t (if p.attempts = 0 then max s.gtick (max p.issued j.idleAt + formTicks) else s.gtick)
  | [] => if j.st = .committing then s.journalDue t s.gtick else s

/-- A transaction of the Granary ended: its packet goes on (R313). -/
def State.journalTell (s : State) (t : Nat) : State :=
  match (s.journal t).queue with
  | some q => s.thread q .weightWrite [1]
  | none => s

/-- WJOPEN accepted (R288, R406). -/
def State.journalOpen (s : State) (t owner ctx n : Nat) (queue : Option Nat := none) : State :=
  let rows := (s.tile t).freeRows.take n
  if rows.length < n then s.modJournal t fun j => { j with code := 0x0504 }
  else s.modJournal t fun j => { st := .open_, owner := owner, ctx := ctx, reserved := rows, limit := n, idleAt := j.idleAt,
                                 paused := j.paused, queue := queue }

/-- A put joins the queue. -/
def State.journalPut (s : State) (t : Nat) (p : Put) (addr : Nat) : State :=
  (s.modJournal t fun j => { j with puts := j.puts ++ [p], first := if j.first = 0 then addr else j.first }).journalStart t

/-- COMMITTING (R291). -/
def State.journalCommit (s : State) (t : Nat) : State :=
  if (s.journal t).st = .open_ then (s.modJournal t fun j => { j with st := .committing }).journalStart t else s

/-- Queued puts are dropped; an attempt in progress finishes first, and its put is counted until then (R292, R293). -/
def State.journalAbort (s : State) (t : Nat) : State :=
  s.modJournal t fun j => if j.pulse.isSome then { j with puts := j.puts.take 1, due := none, aborting := true } else j.toIdle

/-- The journal's fault flag of a sequencer (R201). -/
def Seq.journalFault (y : Seq) : Seq := { y.raiseFlag 4 with faultFlags := y.faultFlags ||| 16 }

/-- It is raised for the sequencer that owns the transaction, which may stand saved in the tile's shadow SRAM; no sequencer of another context gets it. -/
def Tile.journalFault (x : Tile) : Tile :=
  let j := x.journal
  if 2 ≤ j.owner then x
  else match x.shadow with
  | some h =>
    if h.ctx = j.ctx then
      { x with shadow := some (if j.owner = 0 then { h with a := h.a.journalFault } else { h with b := h.b.journalFault }) }
    else if x.ctx = some j.ctx then x.setSeq j.owner (x.seq j.owner).journalFault else x
  | none => if x.ctx = some j.ctx then x.setSeq j.owner (x.seq j.owner).journalFault else x

/-- FAILED with 0x0503 (R290, R291), with the owner's fault flag (R201). -/
def State.journalFail (s : State) (t : Nat) : State :=
  let s := s.modTile t Tile.journalFault
  (s.modJournal t fun j => { j with st := .failed, code := 0x0503, puts := [], due := none }).journalTell t

/-! Commands. -/

/-- The sequencer at the cursor, of the context that opened it, owns the transaction (R287). -/
def State.ownsJournal (s : State) : Bool :=
  let j := s.journal s.cur.tile
  j.owner == s.cur.seq && j.ctx == s.myCtx

/-- A WJOPEN of the tile has issued and not yet landed. -/
def Tile.opening (x : Tile) : Bool :=
  (x.a.flights ++ x.b.flights).any fun f => match f.act with | .wjOpen _ => true | _ => false

/-- A journal command is accepted: the sequencer's fault flag falls (R201). -/
def State.journalCommand (s : State) : State := s.modMe fun y => { y with faultFlags := y.faultFlags &&& ~~~ 16 }

def State.wjopen (s : State) (a : BitVec 5) : Res :=
  s.outsideHandler <|
  check ((s.journal s.cur.tile).st = .idle && !s.myTile.opening && 1 ≤ s.N a && s.N a ≤ 64) (s.fault 0x030E) <|
  .ok (s.journalCommand.emit 1 (.wjOpen (s.N a)))
def execWjopen (a : BitVec 5) (s : State) : Host.Outcome State Fault Refusal := s.finish (s.wjopen a)

/-- Logical rows that the transaction has written or is to write. -/
def Journal.planned (j : Journal) : List Nat := (j.shadows.map (·.1) ++ j.puts.map (·.row)).dedup

/-- WJPUT (R289): the checks in their order, then the put. A row of a region that is locked for the context is refused with 0x0C03 after them (R334; log
26, DEDUCED: a put reads the row to form its image). -/
def State.wjput (s : State) (d a b : BitVec 5) : Res :=
  s.outsideHandler <|
  let t := s.cur.tile
  let j := s.journal t
  let len := s.N d
  let addr := s.N a
  let src := s.N b
  let lenOk := 64 ≤ len && len ≤ 1024 && len % 64 == 0
  let n := if lenOk then len else 64
  check (j.st = .open_ && !j.aborting && s.ownsJournal && j.puts.length < 16) (s.fault 0x030E) <|
  check (src % 64 == 0) (s.fault 0x040A src) <|
  match spadOffset src n with
  | none => .error (s.fault 0x0408 src)
  | some off =>
    check (addr % 64 == 0) (s.fault 0x040A addr) <|
    check (0x8000000 ≤ addr && addr < 0x9000000) (s.fault 0x0408 addr) <|
    let o := addr - 0x8000000
    let row := o / 1024
    check (lenOk && (o + len - 1) / 1024 == row && (j.planned.contains row || j.planned.length < j.limit)) (s.fault 0x030E) <|
    check (!s.mramLocked t o s.myCtx) (s.fault 0x0C03 addr) <|
    check (s.banksFree off n 0) (s.fault 0x0109 src) <|
    let words := wordsOf off n
    let (s, bs, marks) := words.foldl (fun (acc : State × List Byte × Map Poison) k =>
      let (s', v, p) := acc.1.readWord t s.accessRank k
      (s', acc.2.1 ++ vecBytes v, match p with | some p => acc.2.2 ++ [(k - off / 64, p)] | none => acc.2.2)) (s, [], [])
    .ok (s.journalCommand.journalPut t { row := row, offset := o % 1024, bytes := bs, poison := marks, issued := s.gtick } addr)
def execWjput (d a b : BitVec 5) (s : State) : Host.Outcome State Fault Refusal := s.finish (s.wjput d a b)

/-- WJCOMMIT (R291). -/
def execWjcommit (s : State) : Host.Outcome State Fault Refusal :=
  s.finish <| s.outsideHandler <|
    check ((s.journal s.cur.tile).st = .open_ && !(s.journal s.cur.tile).aborting && s.ownsJournal) (s.fault 0x030E) <|
    .ok (s.journalCommand.emit 1 .wjCommit)

/-- WJABORT (R287, R292): without effect in IDLE. -/
def execWjabort (s : State) : Host.Outcome State Fault Refusal :=
  s.finish <| s.outsideHandler <|
    let j := s.journal s.cur.tile
    if j.st = .idle then .ok s
    else check (s.ownsJournal && j.st ≠ .committing) (s.fault 0x030E) (.ok (s.journalCommand.journalAbort s.cur.tile))

def Journal.stateCode (j : Journal) : Nat :=
  match j.st with
  | .idle => 0
  | .open_ => 1
  | .committing => 2
  | .failed => 3

/-- The status word for sequencer `q` of context `c` (R293). -/
def Journal.status (j : Journal) (q c : Nat) : Nat :=
  j.stateCode + (if j.st ≠ .idle && j.owner = q && j.ctx = c then 4 else 0) + 8 * j.puts.length + 256 * j.rows + 65536 * j.att +
    2 ^ 32 * j.code

/-- The wear word of a logical row (R293). -/
def Tile.wearWord (x : Tile) (row : Nat) : Nat :=
  match x.journal.shadows.lookup row with
  | some p => mget 0 x.wear p % 2 ^ 32 + 2 ^ 32 * p + 2 ^ 47
  | none => mget 0 x.wear (x.physRow row) % 2 ^ 32 + 2 ^ 32 * x.physRow row

/-- WJSTAT (R293). It is no journal command that clears the fault flag of R201 (log 85, DESIGN CHOICE). -/
def State.wjstat (s : State) (d a : BitVec 5) : Res :=
  let v := s.N a
  if v = 0 then .ok (s.emitG 4 d.toNat (BitVec.ofNat 64 ((s.journal s.cur.tile).status s.cur.seq s.myCtx)))
  else check (v % 1024 == 0 && 0x8000000 ≤ v && v < 0x9000000) (s.fault 0x0309)
    (.ok (s.emitG 4 d.toNat (BitVec.ofNat 64 (s.myTile.wearWord ((v - 0x8000000) / 1024)))))
def execWjstat (d a : BitVec 5) (s : State) : Host.Outcome State Fault Refusal := s.finish (s.wjstat d a)

/-! Attempts (R289, R290, R407). -/

/-- The put about to make its first attempt takes its row: the shadow row its logical row has, else the lowest reserved one
(R289, R406). The row counts as the logical row's once it is written (R293). -/
def Journal.takeRow (j : Journal) (mapped : Nat) (p : Put) : Journal × Put :=
  match p.target with
  | some _ => (j, p)
  | none =>
    match j.shadows.lookup p.row with
    | some r => (j, { p with target := some r, base := r })
    | none =>
      let r := j.reserved.headD 0
      ({ j with reserved := j.reserved.tail }, { p with target := some r, base := mapped })

/-- What the journal finds in the row that a put starts from: the row in force is read through the BCH code with its overlays, a shadow row without. -/
def Tile.baseWords (x : Tile) (p : Put) : List (Vec × Option Poison × Nat) :=
  let z : Tile := if p.base = x.physRow p.row then x else { x with overlays := [] }
  (List.range 16).map fun k => z.mramWordVia p.base (16 * p.row + k)

/-- A put forms its image (R289, R407): the row's content with the put's bytes, and the poison of its words (R348). -/
def Put.form (p : Put) (ws : List (Vec × Option Poison × Nat)) : Put :=
  let old := ws.flatMap fun w => vecBytes w.1
  let first := p.offset / 64
  let n := p.bytes.length / 64
  { p with image := old.take p.offset ++ p.bytes ++ old.drop (p.offset + p.bytes.length),
           marks := (List.range 16).filterMap fun k =>
             (if first ≤ k && k < first + n then p.poison.lookup (k - first) else (ws[k]?).bind (·.2.1)).map fun m => (k, m) }

/-- What that read of the row leaves behind (R347). -/
def State.noteBase (s : State) (t : Nat) (p : Put) (ws : List (Vec × Option Poison × Nat)) : State :=
  let off := 1024 * p.row
  (s.noteFixes t off p.base ws).noteBadRow t off p.base (ws.findSome? fun w => w.2.1)

/-- JOURNAL_PULSE: an attempt begins on the tile of argument 0 at the tick it was due, unless the journal is paused or without supply. It runs whatever the tile's power
state: only the wake from OFF discards a transaction (R294; log 67, DESIGN CHOICE). One that a word of that tick made due is dealt with at the beginning of the next, and its ticks count from the tick it was due (R407). -/
def State.journalPulse (s : State) (t : Nat) : State :=
  let x := s.tile t
  let j := x.journal
  let due := j.due.getD (s.gtick + 1)
  if s.gtick < due then s
  else if j.paused || s.powerLost then s.modJournal t fun j => { j with due := none }
  else match j.puts with
  | p :: ps =>
    let (j, p) := j.takeRow (x.physRow p.row) p
    -- the image is formed in the ticks before the first pulse
    let ws := x.baseWords p
    let fresh := p.attempts = 0
    let p := if fresh then p.form ws else p
    let p := { p with attempts := p.attempts + 1 }
    let r := p.target.getD 0
    let s := if fresh then s.noteBase t p ws else s
    (s.modTile t fun x =>
      { x with wear := mset 0 x.wear r (mget 0 x.wear r + 1), journal := { j with due := none, pulse := some due, att := p.attempts, puts := p :: ps } }).at_
      (due + attemptTicks) .journalVerify [t]
  | [] =>
    if j.st = .committing then
      (s.modJournal t fun j => { j with due := none, pulse := some due, mapWrite := some (j.mapWrite.getD 0 + 1) }).at_
        (due + attemptTicks - 1) .journalVerify [t]
    else s.modJournal t fun j => { j with due := none }
def execJournalPulse (s : State) : Host.Outcome State Fault Refusal := .next (s.journalPulse (s.arg 0))

/-- The image of a verified put stands in its row: cells, and the poison of its words. -/
def Tile.writeRow (x : Tile) (p : Put) : Tile :=
  let r := p.target.getD 0
  { x with mram := putBytes x.mram (1024 * r) p.image,
           mramPoison := x.mramPoison.filter (fun e => e.1 / 16 != r) ++ p.marks.map fun e => (16 * r + e.1, e.2),
           cellErrors := x.cellErrors.filter fun o => o.addr / 1024 != r }

/-- The row map switches (R291); overlays of the rows it remaps go (R375); the die's commit log notes the switch (R400). -/
def State.commitMap (s : State) (t : Nat) : State :=
  let x := s.tile t
  let sh := x.journal.shadows
  let x := { x with rowMap := sh.foldl (fun m e => mset e.1 m e.1 e.2) x.rowMap,
                    overlays := x.overlays.filter fun o => !sh.any fun e => e.1 == o.addr / 1024,
                    journal := x.journal.toIdle }
  let tell := (s.tile t).journal.queue
  let d := s.die (dieOf t)
  let s := (s.setTile t x).setDie (dieOf t) { d with commitLog := mset 0 d.commitLog t (mget 0 d.commitLog t + 1) }
  match tell with
  | some q => s.thread q .weightWrite [1]
  | none => s

/-- A verified put: its row is the newest image of its logical row (R293). -/
def Journal.written (j : Journal) (p : Put) : Journal :=
  let r := p.target.getD 0
  if j.shadows.any fun e => e.1 == p.row then { j with shadows := j.shadows.map fun e => if e.1 = p.row then (e.1, r) else e }
  else { j with shadows := j.shadows ++ [(p.row, r)], rows := j.rows + 1 }

/-- A verify matched. -/
def State.verifyPassed (s : State) (t : Nat) : State :=
  let x := s.tile t
  match x.journal.puts with
  | p :: ps =>
    ((s.setTile t { x.writeRow p with journal := { x.journal.written p with puts := ps, idleAt := s.gtick } }).journalTell t).journalStart t
  | [] => s.commitMap t

/-- A verify did not match (R290): the next attempt; after the fourth on a row the row is retired (R103, R398), and a fresh row takes its place, once. -/
def State.verifyFailed (s : State) (t : Nat) : State :=
  let x := s.tile t
  let j := x.journal
  match j.puts with
  | p :: ps =>
    if p.attempts % 4 ≠ 0 then s.journalStart t
    else
      let s := s.after 0 .sheafChange [2, t, p.target.getD 0]
      match (if p.attempts = 8 then [] else x.freeRows) with
      | [] => s.journalFail t
      | f :: _ => (s.modJournal t fun j => { j with puts := { p with target := some f, fresh := true } :: ps }).journalStart t
  | [] =>
    if j.mapWrite.getD 0 ≥ 4 then s.journalFail t
    else if j.paused || s.powerLost then s
    else s.journalDue t (s.gtick + 1)

/-- The attempt in progress has come to its end (R290): of a put on the tick after its verify, of the map write at the last tick of it (R291). -/
def Journal.attemptOver (j : Journal) (tick : Nat) : Bool :=
  j.pulse.any fun d => d + (if j.puts.isEmpty && !j.aborting then attemptTicks - 1 else attemptTicks) ≤ tick

/-- JOURNAL_VERIFY: the attempt of the tile of argument 0 ends; one that a wake has discarded has none (R294). -/
def State.journalVerify (s : State) (t : Nat) : State :=
  let j := s.journal t
  if !j.attemptOver s.gtick then s
  else
    let ok := Config.verifyMatches s.free
    let s := (s.modJournal t fun j => { j with pulse := none }).tickFree
    if j.aborting then (s.modJournal t Journal.toIdle).journalTell t
    else if ok then s.verifyPassed t
    else s.verifyFailed t
def execJournalVerify (s : State) : Host.Outcome State Fault Refusal := .next (s.journalVerify (s.arg 0))

/-! Pre-emption (R287) and discard (R294, R408, R409). -/

def State.journalPause (s : State) (t : Nat) : State := s.modJournal t fun j => { j with paused := true, due := none }
def State.journalResume (s : State) (t : Nat) : State := (s.modJournal t fun j => { j with paused := false }).journalStart t

/-- A transaction left open is discarded, with its status record (R409). -/
def State.journalDiscard (s : State) (t : Nat) : State × Option FaultRecord :=
  let j := s.journal t
  if j.st = .idle then (s.modJournal t fun j => { j with paused := false }, none)
  else
    let freed := ((j.shadows.map (·.2)) ++ j.puts.filterMap (·.target) ++ j.reserved).filter fun p => !(s.tile t).retiredRows.contains p
    let f : FaultInfo := { code := 0x0A02, unit := 8, addr := j.first, detail := j.rows, aux0 := (freed.min?).getD 0 }
    let r : FaultRecord := { info := f, level := 6, tick := s.gtick, tile := t, seq := if j.owner < 2 then j.owner else 255 }
    (s.modJournal t fun j => { code := 0x0A02, idleAt := j.idleAt }, some r)

end Sys2Proof.Machine
end

