-- ==== Sys2Proof/Machine/Recovery.lean ====
section
/-! DEFINITION. Containment, recovery and diagnostic words (R371 to R376), and the text as fetch reads it (R359). -/
namespace Sys2Proof.Machine

/-! Text (R162, R163, R359). -/

/-- The word at a text address, with the poison of its bytes. -/
def Tile.textWord (x : Tile) (a : Nat) : Nat × Option Poison :=
  let (bs, p) := x.mramRead (a - 0x8000000) 4
  (leNat bs, p)

/-- The words from an address on, at most `n`, none above the text range. -/
def Tile.textWords (x : Tile) (a : Nat) : Nat → List (Nat × Option Poison)
  | 0 => []
  | n + 1 => if a ≤ 0x8FFFFFC then x.textWord a :: x.textWords (a + 4) n else []

/-- The extent of the bundle at an address, with its poison. -/
def Tile.bundleWords (x : Tile) (a : Nat) : List Nat × Option Poison :=
  let ws := x.textWords a 6
  let e := extent (ws.map (·.1))
  (e, (ws.take e.length).findSome? (·.2))

/-- The extent runs past the end of the text (R361). -/
def textEnds (e : List Nat) : Bool := e.isEmpty || (e.length < 6 && chained (e.getLastD 0))

/-! Regions (R371, R372). -/

def State.cropen (s : State) (i : BitVec 3) (o : BitVec 16) : Res :=
  s.outsideHandler <|
  let h := s.relTarget o.toInt
  check (s.me.regions.length < 4) (s.fault 0x030F) <|
  check (textOk h) (s.fault 0x0303 h) <|
  .ok (s.emit 1 (.regionPush i.toNat h))
def execCropen (i : BitVec 3) (o : BitVec 16) (s : State) : Host.Outcome State Fault Refusal := s.finish (s.cropen i o)

def State.crclose (s : State) (i : BitVec 3) : Res :=
  s.outsideHandler <|
  check ((s.me.regions.getLast?).map (·.1) == some i.toNat) (s.fault 0x030F) (.ok (s.emit 1 .regionPop))
def execCrclose (i : BitVec 3) (s : State) : Host.Outcome State Fault Refusal := s.finish (s.crclose i)

/-! Leaving the handler (R373, R383). -/

/-- The waits that a freeze timeout showed hold the tile no longer. -/
def Seq.giveUp (y : Seq) : Seq :=
  { y with waitGo := [], timedOut := false, diagWaits := y.diagWaits.filter fun w => w.2.2 || w.1 > y.clock,
           l := y.l.map fun e => if e.2.st = .pending && e.2.arrival ≤ y.clock then (e.1, { e.2 with given := true }) else e }

/-- FRET and FRET.N (R373). Where FRESUME itself names no place of the text, no bundle stands there to go past, and FRET.N raises 0x0303 with that address as
FRET does (log 79, DESIGN CHOICE). -/
def State.fret (s : State) (next : Bool) : Res :=
  let y := s.me
  check y.inHandler (s.fault 0x0310) <|
  let at0 := y.fresume.toNat
  check (textOk at0) (s.fault 0x0303 at0) <|
  let e := (s.myTile.bundleWords at0).1
  let target := if next then at0 + 4 * e.length else at0
  check (textOk target) (s.fault 0x0303 target) <|
  .ok (s.modMe fun y =>
    let y := if next && (y.record.map fun r => r.info.code) == some 0x0108 then y.giveUp else y
    { y with handler := y.handler.map fun h => { h with ret := some target } })
def execFret (s : State) : Host.Outcome State Fault Refusal := s.finish (s.fret false)
def execFretN (s : State) : Host.Outcome State Fault Refusal := s.finish (s.fret true)

/-! Records (R341, R374). -/

/-- The 64 bytes of a fault record. -/
def FaultRecord.toBytes (r : FaultRecord) : List Byte :=
  leBytes 4 r.ring ++ leBytes 2 r.info.code ++ leBytes 1 r.level ++ leBytes 1 r.flags ++ leBytes 8 r.tick ++
  leBytes 2 r.tile ++ leBytes 1 r.seq ++ leBytes 1 r.info.unit ++ leBytes 4 r.info.step ++ leBytes 8 r.info.bundle ++
  leBytes 8 r.info.addr ++ leBytes 4 r.info.rindex ++ leBytes 1 r.depth ++ leBytes 1 r.region ++ leBytes 2 r.info.detail ++
  leBytes 8 r.info.aux0 ++ leBytes 8 r.info.aux1

def execFltrd (d : BitVec 5) (k : BitVec 3) (s : State) : Host.Outcome State Fault Refusal :=
  .next (s.emitG 4 d.toNat (BitVec.ofNat 64 ((s.me.record.map fun r => field r.toBytes (8 * k.toNat) 8).getD 0)))

/-! Diagnostics (R375, R376). -/

/-- What a diagnostic word aims at. -/
inductive DiagTarget where
  | spad (off : Nat)
  | parity (bank word : Nat)
  | mram (off : Nat)
  | lpddr (pa : Nat)

/-- The 64-aligned target, or its refusal; an address in no range of R96 is global, and is translated (log 80, DEDUCED). -/
def State.diagTarget (s : State) (a : Nat) (write : Bool) : Except FaultInfo (State × DiagTarget) :=
  if a % 64 ≠ 0 then .error (s.fault 0x040A a)
  else match spadOffset a 64, parityOffset a, mramOffset a 64 with
  | some off, _, _ => .ok (s, .spad off)
  | _, some (g, w), _ => .ok (s, .parity g w)
  | _, _, some off => .ok (s, .mram off)
  | none, none, none =>
    if 0x1000000 ≤ a && a < 0x3000000 then .error (s.fault 0x0408 a)
    else match s.translate s.cur.tile s.cur.seq a write with
    | .error c => .error (s.translationFault c a)
    | .ok (s', pa, _) => if s'.place pa matches .ok .lpddr then .ok (s', .lpddr pa) else .error (s.fault 0x0309 a)

/-- The scratchpad offset of the 128-byte descriptor. -/
def State.descOffset (s : State) (a : Nat) : Except FaultInfo Nat :=
  if a % 64 ≠ 0 then .error (s.fault 0x040A a)
  else match spadOffset a 128 with
  | some off => .ok off
  | none => .error (s.fault 0x0408 a)

/-- What DIAGST to address `a` does at issue + 4 with its data `v` and the descriptor `bs`. -/
def State.diagStore (s : State) (a : Nat) (k : DiagTarget) (v : Vec) (bs : List Byte) : Res :=
  match k with
  | .spad off =>
    check (s.banksFree off 64 4) (s.fault 0x0109 a) <|
    .ok (s.emit 4 (.store { bytes := cellsFrom off (vecBytes v), checks := some (BitVec.ofNat 64 (field bs 64 8)) }))
  | .parity g w => .ok (s.emit 4 (.parity g w v (BitVec.ofNat 64 (field bs 64 8))))
  | .mram off => .ok (s.emit 4 (.overlay off v (BitVec.ofNat 41 (field bs 64 6))))
  | .lpddr pa =>
    .ok (s.emit 4 (.global { bytes := cellsFrom pa (vecBytes v), scope := 4, code := some (BitVec.ofNat 32 (field bs 64 4)) } true false))

/-- DIAGST (R375): the descriptor is read through its banks at the issue, which an atomic may hold (log 75, DEDUCED). -/
def State.diagst (s : State) (a b : BitVec 5) : Res :=
  match s.diagTarget (s.N a) true with
  | .error f => .error f
  | .ok (s', k) =>
    match s.descOffset (s.N b) with
    | .error f => .error f
    | .ok off =>
      check (s.banksFree off 128 0) (s.fault 0x0109 (s.N b)) <|
      let (s', bs, _) := s'.readSpad s.cur.tile s.accessRank off 128
      s'.diagStore (s.N a) k (bytesVec (bs.take 64)) bs
def execDiagst (a b : BitVec 5) (s : State) : Host.Outcome State Fault Refusal := s.finish (s.diagst a b)

/-- What DIAGLD finds, raw: data, check bytes, and its value word (R376). -/
def diagWord (v : Vec) (checks : List Byte) (errs : Nat) (uncorr poison injected : Bool) : List Byte × Nat :=
  (vecBytes v ++ checks ++ List.replicate (64 - checks.length) 0,
   errs + (if uncorr then 256 else 0) + (if poison then 512 else 0) + (if injected then 1024 else 0))

def Tile.diagSpad (x : Tile) (off : Nat) : List Byte × Nat :=
  let v := x.rawWord (off / 64)
  let m := x.mark (off / 64)
  let (_, _, wrong, bad) := wordRead v m.checks
  diagWord v (leBytes 8 (m.checks.getD (secdedWord v)).toNat) wrong bad m.poison.isSome m.injected

def Tile.diagParity (x : Tile) (g w : Nat) : List Byte × Nat :=
  let p := x.parityWord g w
  let (_, _, wrong, bad) := wordRead p.val p.checks
  diagWord p.val (leBytes 8 (p.checks.getD (secdedWord p.val)).toNat) wrong bad false p.injected

def Tile.diagMram (x : Tile) (off : Nat) : List Byte × Nat :=
  let v := bytesVec (x.mramBytes off 64)
  let (e, c, inj) := x.mramError (x.physRow (off / 1024)) (off / 64)
  let fix := bchCorrect e.toNat c.toNat
  let bad := x.mramPoison.any fun e => e.1 == 16 * x.physRow (off / 1024) + off / 64 % 16
  diagWord (v ^^^ e) (leBytes 6 (bchChecks v ^^^ c).toNat) ((fix.map (·.2)).getD 0) fix.isNone bad inj

/-- The sector as LPDDR-6 itself holds it: the staging buffers and what they have released and not yet written are passed by (R376). -/
def State.diagSector (s : State) (pa : Nat) : List Byte × Nat :=
  let k := s.homeAddr (64 * (pa / 64)) / 64
  let v := bytesVec (bytesAt s.mem (64 * k) 64)
  let m := s.sectorMark k
  let (_, wrong, bad) := sectorDecode v m.code
  diagWord v (leBytes 4 (m.code.getD (deviceWord v)).toNat) wrong bad m.poison.isSome m.injected

/-- The read of DIAGLD: the place it uses at issue, and what it finds. -/
def State.diagRead (s : State) (k : DiagTarget) : State × List Byte × Nat :=
  match k with
  | .spad off => (s.modMyTile (·.use { port := bankOf off, write := false, rank := s.accessRank, word := off / 64 }), s.myTile.diagSpad off)
  | .parity g w => (s.modMyTile (·.use { port := 20 + g, write := false, rank := s.accessRank }), s.myTile.diagParity g w)
  | .mram off => (s.modMyTile (·.use { port := 16, write := false, rank := s.accessRank }), s.myTile.diagMram off)
  | .lpddr pa =>
    let r := s.diagSector pa
    let w : Nat × Nat × Bool := (s.me.now + 16, s.gtick + 1 + Config.arrivalDelay s.free, s.me.inHandler)
    ((s.modMe fun y => { y with diagWaits := y.diagWaits ++ [w] }).tickFree, r)

/-- The read is refused: a bank reserved by an atomic (R102), a row locked against the context (R334). -/
def State.diagRefused (s : State) (k : DiagTarget) : Option Nat :=
  match k with
  | .spad off => if s.banksFree off 64 0 then none else some 0x0109
  | .mram off => if s.mramLocked s.cur.tile off s.myCtx then some 0x0C03 else none
  | _ => none

def State.diagld (s : State) (d a b : BitVec 5) : Res :=
  match s.diagTarget (s.N a) false with
  | .error f => .error f
  | .ok (s', k) =>
    match s.descOffset (s.N b), s.diagRefused k with
    | .error f, _ => .error f
    | .ok _, some c => .error (s.fault c (s.N a))
    | .ok off, none =>
      let (s', bs, v) := s'.diagRead k
      .ok ((s'.emit 16 (.diagDesc { bytes := cellsFrom off bs })).emitG 16 d.toNat (BitVec.ofNat 64 v))
def execDiagld (d a b : BitVec 5) (s : State) : Host.Outcome State Fault Refusal := s.finish (s.diagld d a b)

end Sys2Proof.Machine
end

