-- ==== Sys2Proof/Machine/Shadow.lean ====
section
/-! DEFINITION. The shadow units of the vector floating units and the scale unit (R349): what they compute from the operands
they keep, and the check of a main result. A main unit that has not erred passes every check (R350). -/
namespace Sys2Proof.Machine

/-- An extended value; a zero keeps its sign. -/
inductive Ext where
  | nan
  | inf (neg : Bool)
  | fin (neg : Bool) (q : ℚ)

/-- Two to an integer power. -/
def pow2 (e : Int) : ℚ := if e < 0 then 1 / (2 ^ (-e).toNat : Nat) else (2 ^ e.toNat : Nat)

def FVal.ext : FVal → Ext
  | .nan _ => .nan
  | .inf n => .inf n
  | .fin n m e => .fin n ((if n then -1 else 1) * m * pow2 e)

/-- The first seven significant bits of a value: one and six stored. -/
def trunc7 (q : ℚ) : ℚ :=
  if q = 0 then 0
  else
    let n := q.num.natAbs
    let l := leadExp n q.den 0
    let (k, _, _) := scaled n q.den (6 - l)
    (if q < 0 then -1 else 1) * k * pow2 (l - 6)

/-- The operand as a shadow unit keeps it: sign, exponent and the top six stored mantissa bits. -/
def Fmt.kept (f : Fmt) (x : Nat) : Ext := if f.isNan x then .nan else (f.decode (x - x % 2 ^ (f.frac - 6))).ext

def Ext.keep : Ext → Ext
  | .fin n q => .fin n (trunc7 q)
  | x => x

def Ext.neg : Ext → Ext
  | .nan => .nan
  | .inf n => .inf !n
  | .fin n q => .fin (!n) (-q)

def Ext.add : Ext → Ext → Ext
  | .fin n p, .fin k q => .fin (n && k) (p + q)
  | .inf n, .inf k => if n = k then .inf n else .nan
  | .inf n, .fin _ _ => .inf n
  | .fin _ _, .inf k => .inf k
  | _, _ => .nan

def Ext.mul : Ext → Ext → Ext
  | .fin n p, .fin k q => .fin (n != k) (p * q)
  | .inf n, .inf k => .inf (n != k)
  | .inf n, .fin k q => if q = 0 then .nan else .inf (n != k)
  | .fin k q, .inf n => if q = 0 then .nan else .inf (n != k)
  | _, _ => .nan

def Ext.rcp : Ext → Ext
  | .fin n q => if q = 0 then .inf n else .fin n (1 / q)
  | .inf n => .fin n 0
  | .nan => .nan

/-- The magnitude of a finite value; 0 for the rest, where the check does not use it. -/
def Ext.mag : Ext → ℚ
  | .fin _ q => |q|
  | _ => 0
def Ext.isInf : Ext → Bool
  | .inf _ => true
  | _ => false

/-- Two to an operand: the integer part exactly and six bits of the fraction (R349, R155). -/
def Ext.exp2 : Ext → Ext
  | .nan => .nan
  | .inf n => if n then .fin false 0 else .inf false
  | .fin _ q =>
    let k := (q * 64).floor
    .fin false ((b32.decode (exp2Table (Int.fmod k 64).toNat)).ext.mag * pow2 (Int.fdiv k 64))

/-- The reference magnitude (R349), a rational number, or two to a rational power. -/
inductive Mag where
  | rat (q : ℚ)
  | exp2 (q : ℚ)

/-- Two to the fraction `f`, which has at most `n` binary places, is at least `x`, which is from 1 to below 2: the places of `f` are compared with
those of the logarithm of `x`. -/
def fracAtLeast : Nat → ℚ → ℚ → Bool
  | 0, _, x => decide (x ≤ 1)
  | n + 1, f, x =>
    let up := decide (2 ≤ x * x)
    let one := decide (1 ≤ 2 * f)
    if up == one then fracAtLeast n (if one then 2 * f - 1 else 2 * f) (if up then x * x / 2 else x * x) else one

/-- The magnitude is at least `b`, exactly. An operand of either format has fewer than 160 binary places. -/
def Mag.atLeast : Mag → ℚ → Bool
  | .rat q, b => decide (b ≤ q)
  | .exp2 a, b =>
    if b ≤ 0 then true
    else
      let y := b / pow2 a.floor
      if y ≤ 1 then true else if 2 ≤ y then false else fracAtLeast 160 (a - a.floor) y

/-- The magnitude of two to an operand. -/
def Ext.exp2Mag : Ext → Mag
  | .fin _ q => .exp2 q
  | _ => .rat 0

/-- The check of a result `r` against the shadow's `s` (R349). -/
def shadowOk (f : Fmt) (r s : Ext) (m : Mag) (infIn raisedOF : Bool) : Bool :=
  match r, s with
  | .nan, .nan => true
  | .nan, _ => false
  | _, .nan => false
  | .inf n, s =>
    let emax : Int := f.bias
    if !infIn && raisedOF then
      (match s with
        | .inf k => n == k
        | .fin k q => n == k && decide (|q| ≥ pow2 emax)
        | .nan => false) || m.atLeast (pow2 (emax + 3))
    else (match s with | .inf k => n == k | _ => false)
  | .fin _ _, .inf _ => false
  -- |r - s| ≤ (M + |r|) / 8 + τ
  | .fin _ p, .fin _ q => m.atLeast (8 * (|p - q| - pow2 (1 - f.bias)) - |p|)

/-- Operation, kept result and reference magnitude of lane `i` (R349): 0 VFADD, 1 VFSUB, 2 VFMUL, 3 VFMA, 4 VFRCP,
5 VFEXP2, 6 VFCVT.H, 7 VFCVT.W, 8 VCVTIF, 9 VFRSUM. Also whether an operand is infinite. -/
def shadowLane (op e : Nat) (va vb vd : Vec) (mask : BitVec 64) (i : Nat) : Ext × Mag × Bool :=
  let f := if e = 1 then b16 else b32
  let eb := 2 ^ e
  let (a, b, d) := (lane va eb i, lane vb eb i, lane vd eb i)
  let full (x : Nat) : Ext := (f.decode x).ext
  let anyInf (xs : List Nat) : Bool := xs.any fun x => (full x).isInf
  match op with
  | 0 => (((f.kept a).add (f.kept b)).keep, .rat ((full a).mag + (full b).mag), anyInf [a, b])
  | 1 => (((f.kept a).add (f.kept b).neg).keep, .rat ((full a).mag + (full b).mag), anyInf [a, b])
  | 2 => (((f.kept a).mul (f.kept b)).keep, .rat ((full a).mag * (full b).mag), anyInf [a, b])
  | 3 => ((((f.kept a).mul (f.kept b)).add (f.kept d)).keep, .rat ((full a).mag * (full b).mag + (full d).mag), anyInf [a, b, d])
  | 4 => ((f.kept a).rcp.keep, .rat (full a).rcp.mag, anyInf [a])
  | 5 => ((full a).exp2.keep, (full a).exp2Mag, anyInf [a])
  | 6 =>
    let x := if i < 16 then lane va 4 i else lane vb 4 (i - 16)
    ((b32.kept x).keep, .rat (b32.decode x).ext.mag, (b32.decode x).ext.isInf)
  | 7 =>
    let x := lane va 2 i
    ((b16.kept x).keep, .rat (b16.decode x).ext.mag, (b16.decode x).ext.isInf)
  | 8 =>
    let q : ℚ := signExt a (8 * eb)
    (.fin (decide (q < 0)) (trunc7 q), .rat |q|, false)
  | _ =>
    let xs := ((List.range (lanes eb)).filter fun k => mask.getLsbD (k * eb)).map (lane va eb)
    ((xs.foldl (fun (acc : Ext) x => acc.add (f.kept x)) (Ext.fin false 0)).keep, .rat ((xs.map fun x => (full x).mag).foldl (· + ·) 0), anyInf xs)

/-- The bits of a shadow value in a format, for the record's aux1 (R341). -/
def Fmt.bitsOf (f : Fmt) : Ext → Nat
  | .nan => f.nan
  | .inf n => f.inf n
  | .fin n q => if q = 0 then f.signBit n else (f.round 1 n q.num.natAbs q.den 0).1

/-- Lanes of a landing result that fail their check: lane, r bits, s bits (R349). A result without an error of the hardware
in it fails none (R350). -/
def Flight.badLanes (f : Flight) (landed : Vec) : List (Nat × Nat × Nat) :=
  match f.shadow with
  | none => []
  | some (op, e, va, vb, vd, mask) =>
    if f.upset = 0 then []
    else
      let fmt := if e = 1 then b16 else b32
      let eb := 2 ^ e
      let lanesUsed := if op = 9 then [0] else (List.range (lanes eb)).filter fun k => mask.getLsbD (k * eb)
      lanesUsed.filterMap fun i =>
        let (s, m, infIn) := shadowLane op e va vb vd mask i
        let r := lane landed eb i
        if shadowOk fmt (fmt.decode r).ext s m infIn (f.flags.getLsbD 2) then none else some (i, r, fmt.bitsOf s)

end Sys2Proof.Machine
end

