-- ==== Sys2Proof/Machine/Landing.lean ====
section
/-! DEFINITION. Results as they land or perform (R49, R50, R61, R127): every act of a flight, and the faults of landing
(R252, R259, R348, R349). -/
namespace Sys2Proof.Machine

/-! Faults of a landing (R341, R343). -/

def Flight.faultOf (f : Flight) (y : Seq) (code : Nat) : FaultInfo :=
  { code := code, unit := f.unit, step := y.clock, bundle := f.bundle }

/-- Consumption of poison (R348). -/
def Flight.poisonFaults (f : Flight) (y : Seq) : List FaultInfo :=
  match f.poison with
  | none => []
  | some p => [{ f.faultOf y p.code with addr := p.addr, injected := p.injected, aux0 := p.syndrome }]

/-- Failed shadow checks of a vector result: every failing lane raises its own fault (R349). -/
def Flight.shadowFaults (f : Flight) (y : Seq) (landed : Vec) : List FaultInfo :=
  (f.badLanes landed).map fun l => { f.faultOf y 0x0701 with detail := l.1, aux0 := l.2.1, aux1 := l.2.2 }

/-! Accumulators and output registers (R249, R252, R256). -/

/-- An error of the hardware in one element of a block result (log 8, DESIGN CHOICE): element in bits 79 to 64, bits to turn below. -/
def upsetAt (u : Vec) (i : Nat) : Nat := if nbits u.toNat 64 16 = i then nbits u.toNat 0 64 else 0

/-- Add a product block. Under .Z it replaces every element (R249, R250). -/
def addBlock (old : Map (BitVec 40)) (zero : Bool) (live : Nat) (sums : Map (BitVec 40)) : Map (BitVec 40) :=
  if zero then sums
  else mtab 0 4096 fun i => if i / 64 < live then mget 0 old i + mget 0 sums i else mget 0 old i

/-- The left side of the checksum: the live rows' elements (R252). -/
def blockSum (live : Nat) (sums : Map (BitVec 40)) : BitVec 40 := sums.foldl (fun acc e => if e.1 / 64 < live then acc + e.2 else acc) 0

/-- ACCSCL on one element (R147): the new value and its flags. -/
def scaleElem (acc : BitVec 40) (sa sb : BitVec 16) (o : BitVec 32) : Nat × FFlags :=
  match bs16 sa.toNat, bs16 sb.toNat, b32.decode o.toNat with
  | some (na, ma, ea), some (nb, mb, eb), .fin no mo eo =>
    let v := acc.toInt
    let m := v.natAbs * ma * mb
    if m = 0 then b32.addFin 0 no mo eo false 0 0
    else b32.addFin 0 no mo eo ((decide (v < 0)) != (na != nb)) m (ea + eb)
  | some _, some _, .inf n => (b32.inf n, 0)
  | none, _, .nan s => (b32.nan, fNV ||| nvIf s)
  | _, none, .nan s => (b32.nan, fNV ||| nvIf s)
  | none, _, _ => (b32.nan, fNV)
  | _, none, _ => (b32.nan, fNV)
  | _, _, .nan s => (b32.nan, nvIf s)

/-- Element `i` of ACCSCL. -/
def scaleAt (acc : Map (BitVec 40)) (sa sb : List (BitVec 16)) (o : Map (BitVec 32)) (i : Nat) : Nat × FFlags :=
  scaleElem (mget 0 acc i) (sa.getD (i / 64) 0) (sb.getD (i % 64) 0) (mget 0 o i)

/-- The shadow check of one element of ACCSCL that the hardware has erred in (R349). -/
def scaleShadowOk (acc : BitVec 40) (sa sb : BitVec 16) (o : BitVec 32) (r : Nat) (fl : FFlags) : Bool × Nat :=
  let ext (b : BitVec 16) : Ext := match bs16 b.toNat with
    | some (n, m, e) => .fin n ((if n then -1 else 1) * m * pow2 e)
    | none => .nan
  let v : Ext := .fin (decide (acc.toInt < 0)) acc.toInt
  let p := (v.mul (ext sa)).mul (ext sb)
  let sh := ((b32.kept o.toNat).add ((v.keep.mul (ext sa).keep).mul (ext sb).keep).keep).keep
  let o' := (b32.decode o.toNat).ext
  (shadowOk b32 (b32.decode r).ext sh (.rat (o'.mag + p.mag)) o'.isInf (fl.getLsbD 2), b32.bitsOf sh)

/-- ACCSCL lands: output register, flags, and the shadow's fault. -/
def Seq.landScale (y : Seq) (f : Flight) (o : Nat) (acc : Map (BitVec 40)) (sa sb : List (BitVec 16)) : Seq × List FaultInfo :=
  let old := mget [] y.o o
  let fl := (List.range 4096).foldl (fun t i => t ||| (scaleAt acc sa sb old i).2) 0
  let new := mtab (0 : BitVec 32) 4096 fun i => BitVec.ofNat 32 (Nat.xor (scaleAt acc sa sb old i).1 (upsetAt f.upset i))
  let e := nbits f.upset.toNat 64 16
  let (ok, sh) := scaleShadowOk (mget 0 acc e) (sa.getD (e / 64) 0) (sb.getD (e % 64) 0) (mget 0 old e) (mget 0 new e).toNat fl
  let bad := f.upset ≠ 0 && !ok
  let y : Seq := if bad then { y.raiseFlag 1 with faultFlags := y.faultFlags ||| 2 } else y
  ({ y with o := mset [] y.o o new, fpflags := y.fpflags ||| fl },
   if bad then [{ f.faultOf y 0x0702 with unit := 7, detail := e, aux0 := (mget 0 new e).toNat, aux1 := sh }] else [])

/-- A product block lands with its checksum (R252). -/
def Seq.landBlock (y : Seq) (f : Flight) (a : Nat) (zero : Bool) (live : Nat) (sums : Map (BitVec 40)) (rhs : Option (BitVec 40)) :
    Seq × List FaultInfo :=
  let sums := if f.upset = 0 then sums
    else mtab 0 4096 fun i => mget 0 sums i ^^^ BitVec.ofNat 40 (upsetAt f.upset i)
  let y' := { y with a := mset [] y.a a (addBlock (mget [] y.a a) zero live sums) }
  match rhs with
  | none => (y', [])
  | some r =>
    if blockSum live sums = r then (y', [])
    else ({ y'.raiseFlag 0 with faultFlags := y'.faultFlags ||| 1 },
          [{ f.faultOf y 0x0601 with unit := 6, aux0 := (blockSum live sums).toNat, aux1 := r.toNat }])

/-! Registers. -/

/-- Vector register under a byte mask. -/
def Seq.landV (y : Seq) (r : Nat) (mask : BitVec 64) (v : Vec) : Seq :=
  { y with v := mset 0 y.v r (mergeBytes mask v (mget 0 y.v r)) }

/-- VNARROW's two registers (R229). -/
def Seq.landNarrow (y : Seq) (r : Nat) (mask v : Vec) (q : Nat) (qmask : BitVec 64) (qv : Vec) : Seq :=
  { y with v := mset 0 y.v r ((v &&& mask) ||| (mget 0 y.v r &&& ~~~ mask)),
           q := mset 0 y.q q (mergeBytes qmask qv (mget 0 y.q q)) }

/-! Parity of registers (R347; log 50, DESIGN CHOICE). A part is 64 bits, or an element of an accumulator or output register, and is numbered through its
kind: 0 g, 1 p, 2 v, 3 q, 4 t, 5 a, 6 o. -/

/-- The parts that a result writes whole. -/
def Act.repairs (a : Act) (kind part : Nat) : Bool :=
  let lanes (mask : BitVec 64) (r : Nat) : Bool := part / 8 == r && (mask >>> (8 * (part % 8))).setWidth 8 == 0xFF
  match a, kind with
  | .g r _, 0 => part == r
  | .p r _, 1 => part == r
  | .v r mask _, 2 => lanes mask r
  | .narrow r mask _ _ _ _, 2 => part / 8 == r && (mask >>> (64 * (part % 8))).setWidth 64 == BitVec.allOnes 64
  | .narrow _ _ _ r qmask _, 3 => lanes qmask r
  | .tileRow t row _, 4 => part / 16 == 64 * t + row
  | .tileAll t _ _, 4 => part / 1024 == t
  | .mma a zero _ _ _, 5 => zero && part / 4096 == a
  | .accz a, 5 => part / 4096 == a
  | .ozero o, 6 => part / 4096 == o
  | .orow o row _, 6 => part / 64 == 64 * o + row
  | _, _ => false

/-- A part written whole has its parity right again. -/
def Seq.repair (y : Seq) (a : Act) : Seq :=
  if y.parityErrors.isEmpty then y else { y with parityErrors := y.parityErrors.filter fun e => !a.repairs e.1 e.2 }

/-- A result that reaches registers of the sequencer alone: its new state and the faults of its landing. CROPEN has checked at its issue that the stack of
regions has room (R371). -/
def Seq.landReg (y : Seq) (f : Flight) : Seq × List FaultInfo :=
  match f.act with
  | .g r v => (y.writeG r (v ^^^ f.upset.setWidth 64), f.poisonFaults y)
  | .v r mask v => (y.landV r mask (v ^^^ f.upset), f.poisonFaults y ++ f.shadowFaults y (v ^^^ f.upset))
  | .p r v => (if r = 0 then y else { y with p := mset 0 y.p r v }, [])
  | .narrow r mask v q qmask qv => (y.landNarrow r mask v q qmask qv, [])
  | .tileRow t row bs => ({ y with t := mset [] y.t t (putRow (y.readT t) row bs) }, f.poisonFaults y)
  | .tileAll t bs shape =>
    ({ y with t := mset [] y.t t bs, ts := match shape with | some v => mset 0 y.ts t v | none => y.ts }, [])
  | .mma a zero live sums rhs => y.landBlock f a zero live sums rhs
  | .accz a => ({ y with a := mset [] y.a a [] }, [])
  | .accscl o acc sa sb => y.landScale f o acc sa sb
  | .ozero o => ({ y with o := mset [] y.o o [] }, [])
  | .orow o row vals =>
    ({ y with o := mset [] y.o o (vals.zipIdx.foldl (fun m e => mset 0 m (64 * row + e.2) e.1) (mget [] y.o o)) }, [])
  | .regionPush id h => (if y.regions.length < 4 then { y with regions := y.regions ++ [(id, h)] } else y, [])
  | .regionPop => ({ y with regions := y.regions.dropLast }, [])
  | .seed c run expect =>
    let k := y.queue c
    (y.setQueue c { k with run := run.getD k.run, expect := expect }, [])
  | _ => (y, [])

/-! Memory. -/

/-- A row that is still to be read or written. -/
def Flight.isRow (f : Flight) : Bool :=
  match f.act with
  | .tileFetch _ _ _ _ _ => true
  | .store _ => true
  | _ => false

/-- Rows of the same instruction that are still to come (R259); a row read already lands. -/
def Flight.sibling (f g : Flight) : Bool :=
  g.isRow && g.issue == f.issue && g.unit == f.unit && g.bundle == f.bundle && decide (f.step < g.step)

def Seq.dropFlights (y : Seq) (p : Flight → Bool) : Seq :=
  if y.inHandler then { y with hflights := y.hflights.filter fun g => !p g } else { y with flights := y.flights.filter fun g => !p g }

/-- A row that meets a reservation made after its instruction issued: it and the later rows are not performed (R102, R259). -/
def State.refuseRow (s : State) (t q : Nat) (f : Flight) (addr : Nat) : State × List FaultInfo :=
  (s.modSeq t q fun y => y.dropFlights f.sibling, [{ f.faultOf (s.seq t q) 0x0109 with addr := addr }])

/-- A word's bank is reserved at this step for a row or a beat: by an atomic of an earlier step, or by one that issues in this step (R102). -/
def Tile.rowMeets (x : Tile) (handler : Bool) (ks : List Nat) : Bool :=
  ks.any fun k => x.reserved handler (k % 16) 0 || x.atomicNow.contains (k % 16)

/-- A row of a TLD or TLDM is sampled (R243, R244). -/
def State.fetchRow (s : State) (t q : Nat) (f : Flight) (r row n src : Nat) (phys : Option Nat) : State × List FaultInfo :=
  let rank := 6 * q + f.unit
  match phys with
  | none =>
    if (s.tile t).rowMeets (s.seq t q).inHandler (wordsOf src n) then s.refuseRow t q f src
    else
      let (s, bs, p) := s.readSpad t rank src n
      (s.modSeq t q fun y => y.addFlight { f with step := f.step + 9, act := .tileRow r row bs, poison := seenAt p src }, [])
  | some phys =>
    let (s, bs, p) := s.readMramVia t rank phys src n
    (s.modSeq t q fun y => y.addFlight { f with step := f.step + 15, act := .tileRow r row bs, poison := seenAt p (0x8000000 + src) }, [])

/-- The place of a write among those that perform at one tick: the later it comes after its own step the earlier it stands, then in the order of R98. A tick
is one step of each sequencer, but for the one that takes in the slip of a hold (R56; log 52, DEDUCED). Of two writes of one rank the one that performs later in
issue order stands (log 83, DESIGN CHOICE). -/
def writeKey (late rank : Nat) : Nat := 64 * (2 ^ 32 - late) + rank

/-- A local write performs in this step (R127): it stands with those of its step in the order of R98. -/
def State.performLocal (s : State) (t q : Nat) (f : Flight) (w : LocalWrite) : State × List FaultInfo :=
  let rank := 6 * q + f.unit
  let ks := wordsIn w.bytes
  if f.unit = 3 && (s.tile t).rowMeets (s.seq t q).inHandler ks then s.refuseRow t q f ((w.bytes.head?.map (·.1)).getD 0)
  else
    (s.modTile t fun x =>
      let x := ks.foldl (fun (x : Tile) k => x.use { port := k % 16, write := true, rank := rank }) x
      { x with writes := x.writes ++ [(writeKey ((s.seq t q).now - f.step) rank, { w with poison := f.poison.or w.poison })] }, [])

/-- A DIAGST to a parity word performs in this step, through its bank (R99, R375). -/
def State.performParity (s : State) (t q : Nat) (f : Flight) (g w : Nat) (v : Vec) (c : BitVec 64) : State :=
  s.modTile t fun x => { x.use { port := 20 + g, write := true, rank := 6 * q + f.unit } with parityNow := x.parityNow ++ [(g, w, v, c)] }

/-- An overlay is installed, replaced or removed (R375). -/
def Tile.putOverlay (x : Tile) (o : Overlay) : Tile :=
  let rest := x.overlays.filter fun e => e.addr != o.addr
  if o.val = 0 && o.checks = 0 then { x with overlays := rest }
  else { x with overlays := (rest ++ [o]).drop (rest.length + 1 - 4) }

/-- DIAGST writes a parity word (R375). -/
def Tile.putParity (x : Tile) (g w : Nat) (v : Vec) (checks : BitVec 64) : Tile :=
  let rest := x.parity.filter fun e => e.1 != parityKey g w
  { x with parity := (parityKey g w, { val := v, injected := true, checks := if checks = secdedWord v then none else some checks }) :: rest }

/-- MAPACK takes effect (R286): the version is acknowledged and every sequencer of the context reads it. -/
def State.mapack (s : State) (x : Nat) (v : W64) : State :=
  let c := s.ctx x
  let s := s.setCtx x { c with ackVersion := v.toNat, ackDue := c.ackDue.filter fun d => v.toNat < d.1 }
  c.tiles.foldl (fun s t => s.modTile t fun z => { z with a := { z.a with mapver := v }, b := { z.b with mapver := v } }) s

/-- CONDW lands: the bits that the mask names (R284). -/
def State.condWrite (s : State) (x : Nat) (mask val : BitVec 32) : State :=
  s.modCtx x fun c =>
    { c with cond := (c.cond &&& ~~~ (mask.setWidth 64)) ||| ((val &&& mask).setWidth 64) }

/-- One flight lands or performs: its effect, and the faults of its landing. -/
def State.landAct (s : State) (t q : Nat) (f : Flight) : State × List FaultInfo :=
  match f.act with
  | .ctl n v => (s.writeCtl t q n v, [])
  | .tileFetch r row n src phys => s.fetchRow t q f r row n src phys
  | .store w => s.performLocal t q f w
  | .diagDesc w => s.performLocal t q f w
  | .parity g w v c => (s.performParity t q f g w v c, [])
  | .overlay a v c => (s.modTile t (·.putOverlay { addr := a, val := v, checks := c }), [])
  | .global w nc _ =>
    let s := s.wordStore t q w nc
    (if (s.seq t q).run = .halted then s.flushL1 t q else s, [])
  | .cond m v => (s.condWrite (s.ctxOf t) m v, [])
  | .mapack v => (s.mapack (s.ctxOf t) v, [])
  | .wjOpen n => (s.journalOpen t q (s.ctxOf t) n, [])
  | .wjCommit => (s.journalCommit t, [])
  | _ =>
    let (y, fs) := (s.seq t q).landReg f
    (s.setSeq t q ({ y with fpflags := y.fpflags ||| f.flags }.repair f.act), fs)

/-- The sample of a row, whose result lands later. -/
def Flight.samples (f : Flight) : Bool := match f.act with | .tileFetch _ _ _ _ _ => true | _ => false

/-- The same, with the fault of a word that read a register with a parity error, once, as its result lands (R347). -/
def State.land (s : State) (t q : Nat) (f : Flight) : State × List FaultInfo :=
  let (s', fs) := s.landAct t q f
  (s', if f.parity && !f.samples then fs ++ [f.faultOf (s.seq t q) 0x0507] else fs)

/-! Landing steps of a sequencer. -/

/-- A write of FPFLAGS by MTC lands before the flags of the step are ORed in (R151). -/
def Flight.first (f : Flight) : Bool := match f.act with | .ctl 0x0D _ => true | _ => false

/-- The place of a result among those that are due: its landing step, then its issue step and its slot (R50). -/
def Flight.place (f : Flight) : Nat := ((2 * f.step + if f.first then 0 else 1) * 2 ^ 64 + f.issue) * 8 + f.unit

/-- What is due to land on the clock results are counted on, in order. -/
def Seq.dueFlights (y : Seq) : List Flight :=
  let due := (if y.inHandler then y.hflights else y.flights).filter fun f => f.step ≤ y.now
  (sortKey [] (due.map fun f => (f.place, f))).map (·.2)

/-- Take one flight out of its list. -/
def Seq.removeFlight (y : Seq) (f : Flight) : Seq :=
  if y.inHandler then { y with hflights := y.hflights.erase f } else { y with flights := y.flights.erase f }

/-- CROPEN's push or CRCLOSE's pop. -/
def Flight.region (f : Flight) : Bool :=
  match f.act with
  | .regionPush _ _ => true
  | .regionPop => true
  | _ => false

/-- A region is open from, or closed at, the step that its word names, whatever else that step brings (R371, R372): the stack is brought to the
current step. -/
def Seq.settleRegions (y : Seq) : Seq :=
  (y.dueFlights.filter (·.region)).foldl (fun y f => ((y.removeFlight f).landReg f).1) y

/-- The faults of one happening are taken: the first as a trap, any further one, and any that finds its sequencer already in a trap that begins in this
tick, after it (R345). -/
def State.takeDue (s : State) (t q : Nat) (fs : List FaultInfo) : State :=
  if fs.isEmpty then s
  else fs.foldl (fun s f =>
    let y := s.seq t q
    let now : Bool := y.handler.any fun h => h.entered == s.gtick
    if now && !partitionCode f.code && f.code ≠ 0x0801 then s.holdFault t q f else s.takeFault t q f y.pc) (s.modSeq t q (·.settleRegions))

/-- The first due flight of sequencer `q` lands. -/
def State.landNext (s : State) (t q : Nat) : State :=
  match (s.seq t q).dueFlights with
  | [] => s
  | f :: _ =>
    let s := s.modSeq t q (·.removeFlight f)
    let (s, fs) := s.land t q f
    s.takeDue t q fs

/-- RESULT_LANDING, MMA_LANDING, ACCSCL_LANDING on the tile and sequencer of arguments 0 and 1: the next due result. -/
def execResultLanding (s : State) : Host.Outcome State Fault Refusal := .next (s.landNext (s.arg 0) (s.arg 1))
def execMmaLanding (s : State) : Host.Outcome State Fault Refusal := .next (s.landNext (s.arg 0) (s.arg 1))
def execAccsclLanding (s : State) : Host.Outcome State Fault Refusal := .next (s.landNext (s.arg 0) (s.arg 1))

/-! Landing slots and freezes (R53, R54, R57). -/

/-- LANDING_DATA_ARRIVAL: the data of the request with the ticket of argument 3 is there: the slot is HELD before its arrival
step, FULL at it. -/
def Landing.arrive (d : Landing) (ticket now : Nat) : Landing :=
  if d.st = .pending && d.ticket = ticket then { d with st := if now < d.arrival then .held else .full } else d
def Seq.arrive (y : Seq) (l ticket : Nat) : Seq :=
  let now := if (y.landing l).handler then y.now else y.clock
  y.setLanding l ((y.landing l).arrive ticket now)
/-- The request is a slot's of the sequencer. -/
def Seq.requested (y : Seq) (l ticket : Nat) : Bool := (y.landing l).st == .pending && (y.landing l).ticket == ticket

/-- The sequencer may have been saved meanwhile, its slot standing in a shadow image, and may go on in another tile (R61, R65). -/
def Shadow.arrive (h : Shadow) (q l ticket : Nat) : Shadow :=
  if q = 0 then { h with a := h.a.arrive l ticket } else { h with b := h.b.arrive l ticket }

/-- The tile whose sequencer `q` has the request: the one that it was made in, unless the context goes on in another. -/
def State.requester (s : State) (t q l ticket : Nat) : Nat :=
  if (s.seq t q).requested l ticket then t
  else ((s.tiles.find? fun e => (e.2.seq q).requested l ticket).map (·.1)).getD t
def State.landingArrival (s : State) (t q l ticket : Nat) : State :=
  let s' : State := { s with tiles := s.tiles.map fun e => (e.1, { e.2 with shadow := e.2.shadow.map fun h => h.arrive q l ticket }) }
  s'.modSeq (s.requester t q l ticket) q fun y => y.arrive l ticket
def execLandingDataArrival (s : State) : Host.Outcome State Fault Refusal :=
  .next (s.landingArrival (s.arg 0) (s.arg 1) (s.arg 2) (s.arg 3))

/-- The clock a slot's arrival step is counted on. A task's slots wait while a handler runs (R344). -/
def Seq.slotReached (y : Seq) (d : Landing) : Bool :=
  if d.handler then (y.handler.map fun (h : Handler) => decide (d.arrival ≤ h.clock)).getD true else !y.inHandler && d.arrival ≤ y.clock

/-- LANDING_DUE: the slot of arguments 0 to 2 has reached its arrival step: FULL if its data is there, else the tile freezes
(R54). -/
def State.landingDue (s : State) (t q l : Nat) : State :=
  let d := (s.seq t q).landing l
  if d.st = .held then s.modSeq t q fun y => y.setLanding l { d with st := .full }
  else if d.st = .pending && !d.given then s.modTile t fun x => { x with frozen := true, waiting := true, frozenBy := q }
  else s
def execLandingDue (s : State) : Host.Outcome State Fault Refusal := .next (s.landingDue (s.arg 0) (s.arg 1) (s.arg 2))

/-- FREEZE_TIMEOUT (R57, R369, R383): the freeze of the tile of argument 0 ends with 0x0108 against the task whose wait it
is; a second timeout on one wait ends the partition. -/
def State.freezeTimeout (s : State) (t : Nat) : State :=
  let q := (s.tile t).frozenBy
  let y := s.seq t q
  let f : FaultInfo := { code := 0x0108, unit := 255, step := y.clock }
  let s := (s.modTile t fun x => { x with frozenFor := 0 }).modSeq t q (·.settleRegions)
  if y.timedOut then s.partitionFault (s.ctxOf t) t q f true
  else (s.modSeq t q fun y => { y with timedOut := true }).takeFault t q f y.pc
def execFreezeTimeout (s : State) : Host.Outcome State Fault Refusal := .next (s.freezeTimeout (s.arg 0))

end Sys2Proof.Machine
end

