-- ==== Sys2Proof/Machine/Engine.lean ====
section
/-! DEFINITION. The copy engines at work: command start, beats, completion, acknowledgments (R129, R179, R261 to R274). -/
namespace Sys2Proof.Machine

/-! Queues. -/

/-- The queues of a tile in their order: sequencer and slot. -/
def tileQueues : List (Nat × Nat) := [(0, 0), (0, 1), (1, 0), (1, 1)]

def State.queueOf (s : State) (t q c : Nat) : CopyQueue := (s.seq t q).queue c
def State.modQueue (s : State) (t q c : Nat) (f : CopyQueue → CopyQueue) : State :=
  s.modSeq t q fun y => y.setQueue c (f (y.queue c))

/-- Change the command that is `i`-th in its queue. -/
def CopyQueue.modCmd (k : CopyQueue) (i : Nat) (f : Command → Command) : CopyQueue := { k with cmds := k.cmds.modify i f }

/-- Bytes of beat `j`. -/
def Command.beatLen (c : Command) (j : Nat) : Nat := min 64 (c.len - 64 * j)

/-- What a command has due at step `n`. -/
def Command.startDue (c : Command) (n : Nat) : Bool := c.pages.isNone && c.start ≤ n
def Command.readDue (c : Command) (n : Nat) : Bool := c.pages.isSome && c.read < c.beats && c.start + c.read ≤ n
def Command.performDue (c : Command) (n tick : Nat) : Bool :=
  c.pages.isSome && c.done < c.beats && c.start + c.base + c.done ≤ n && c.arrivals.head?.all fun a => a ≤ tick
/-- The beats that a command with its data has to perform up to step `n`: several where a hold has taken in its slip (R56). -/
def Command.beatsDue (c : Command) (n : Nat) : List Nat :=
  if c.pages.isNone then [] else (List.range c.beats).filter fun j => c.done ≤ j && c.start + c.base + j ≤ n
def Command.complete (c : Command) : Bool :=
  c.pages.isSome && c.done == c.beats && (c.kind != .cpyx || c.acked == c.beats)

/-- The data of a beat that is due comes later than its perform step and freezes the tile (R264). In a freeze that has begun, the tick of
the arrival is still frozen (R54). Several beats are due where a hold has taken in its slip (R56). -/
def Command.late (c : Command) (n tick : Nat) (frozen : Bool) : Bool :=
  c.pages.isSome && c.arrivals.zipIdx.any fun a => c.start + c.base + c.done + a.2 ≤ n && (if frozen then tick ≤ a.1 else tick < a.1)

/-- An engine fault of a command (R341). -/
def Command.faultOf (k : Command) (c : Nat) (y : Seq) (code addr : Nat) : FaultInfo :=
  { code := code, unit := 4 + c, step := y.clock, bundle := k.bundle, addr := addr, detail := 2 + c }

/-- The fault flag of a queue (R201). -/
def State.flagQueue (s : State) (t q c : Nat) : State :=
  (s.modQueue t q c fun k => { k with fault := true }).modSeq t q fun y => y.raiseFlag (2 + c)

/-! Start (R261, R264 to R266). -/

/-- Bytes at a physical address as the issuing party reads them below its L1 (R264), with poison. -/
def State.engineBytes (s : State) (t q pa n : Nat) : List Byte × Option Poison :=
  match s.place pa with
  | .ok (.aperture owner off) => (s.tile owner).lookBytes off n
  | _ =>
    let ws := (wordsOf pa n).map fun k => s.partySector t q k
    (((ws.flatMap fun w => vecBytes w.1).drop (pa % 64)).take n, ws.findSome? (·.2))

/-- What that read leaves behind: corrections and rebuilds counted (R347). -/
def State.noteEngineBytes (s : State) (t pa n : Nat) : State :=
  match s.place pa with
  | .ok (.aperture owner off) => s.noteBytes owner off n
  | _ => s.countSectors t (wordsOf pa n)

/-- Translate the 32 KiB pages `ks` through `va` of each: a page's physical base by number (R261). -/
def State.translatePages (s : State) (t q : Nat) (write : Bool) : List (Nat × Nat) → Except (Nat × Nat) (State × Map Nat)
  | [] => .ok (s, [])
  | (k, va) :: ks =>
    match s.translate t q va write with
    | .error code => .error (code, va)
    | .ok (s, pa, _) =>
      match s.translatePages t q write ks with
      | .error e => .error e
      | .ok (s, m) => .ok (s, (k, pa - va % 32768) :: m)

/-- Pages of a range, each with the first address in it. -/
def pagesOf (va n : Nat) : List (Nat × Nat) :=
  (List.range ((va + n - 1) / 32768 - va / 32768 + 1)).map fun i =>
    (va / 32768 + i, if i = 0 then va else (va / 32768 + i) * 32768)

/-- The physical address behind a page table of a command. -/
def physOf (pages : Map Nat) (va : Nat) : Nat := mget 0 pages (va / 32768) + va % 32768

/-- Frames of a KV range: entry `i` of the page list, read as the party sees staged memory (R265). -/
def State.framePages (s : State) (t q list held : Nat) (write : Bool) : List Nat → Except Nat (State × Map Nat)
  | [] => .ok (s, [])
  | i :: is =>
    if held ≤ i then .error (list + 8 * i)
    else
      match s.translate t q (list + 8 * i) false with
      | .error _ => .error (list + 8 * i)
      | .ok (s, pa, _) =>
        let frame := leNat (s.engineBytes t q pa 8).1
        match s.translate t q frame write with
        | .error _ => .error frame
        | .ok (s, fpa, _) =>
          match s.framePages t q list held write is with
          | .error e => .error e
          | .ok (s, m) => .ok (s, (i, fpa) :: m)

/-- Every address, just translated, lies in a package window (R107, R266); the package's own window counts. -/
def State.inWindows (s : State) (t q : Nat) (vas : List Nat) : Bool :=
  vas.all fun va => match (s.seq t q).tlbFind va with
    | some e =>
      let pa := e.pa + (va - e.va)
      0x1000000000000 ≤ pa && pa < 0x2000000000000
    | none => false

/-- The pages of a command, or its fault: code, address, and the record index a request fault names. -/
def State.commandPages (s : State) (t q : Nat) (k : Command) : Except (Nat × Nat × Option Nat) (State × Map Nat) :=
  let x := s.ctx (s.ctxOf t)
  let plain (va : Nat) (write : Bool) : Except (Nat × Nat × Option Nat) (State × Map Nat) :=
    match s.translatePages t q write (pagesOf va k.len) with
    | .ok r => .ok r
    | .error (code, a) =>
      match x.slotOf a with
      | some (_, record) => .error (0x0801, a, some record)
      | none => .error (code, a, none)
  let frames (operand : Nat) (write : Bool) : Except (Nat × Nat × Option Nat) (State × Map Nat) :=
    let slot := x.winnow.slots.lookup (operand % 65536)
    let r := (slot.map (·.2)).getD {}
    let off := operand / 65536
    match s.framePages t q r.pageList r.pages write ((pagesOf off k.len).map (·.1)) with
    | .ok r => .ok r
    | .error a => .error (0x0801, a, slot.map (·.1))
  match k.kind with
  | .cpyg => plain k.src false
  | .cpyw => plain k.dst true
  | .cpyx =>
    match plain k.dst true with
    | .error e => .error e
    | .ok (s', m) =>
      if s'.inWindows t q ((pagesOf k.dst k.len).map (·.2)) then .ok (s', m) else .error (0x040B, k.dst, none)
  | .gath => frames k.src false
  | .scat => frames k.dst true
  | .redc => if k.isGlobal then plain k.dst true else .ok (s, [])
  | .cpym => .ok (s, (rowsOf k).map fun row => (row, (s.tile t).physRow row))
  | _ => .ok (s, [])
where
  /-- The logical MRAM rows of a CPYM. -/
  rowsOf (k : Command) : List Nat :=
    let off := k.src - 0x8000000
    (List.range ((off + k.len - 1) / 1024 - off / 1024 + 1)).map (off / 1024 + ·)

/-- The pieces of beat `j` of a CPYG or GATH, physical address and length: a beat may run from one page into the next. -/
def Command.pieces (k : Command) (pages : Map Nat) (j : Nat) : List (Nat × Nat) :=
  let va := (if k.kind = .gath then k.src / 65536 else k.src) + 64 * j
  let n := k.beatLen j
  let first := min n (32768 - va % 32768)
  (physOf pages va, first) :: if first < n then [(physOf pages (va + first), n - first)] else []

/-- The beats of a CPYG or GATH, whose bytes are those that the party reads at the start step (R264). -/
def State.startBeats (s : State) (t q : Nat) (k : Command) (pages : Map Nat) : List (Nat × List Byte × Option Poison) :=
  if k.kind = .cpyg || k.kind = .gath then
    (List.range k.beats).map fun j =>
      let ps := (k.pieces pages j).map fun p => s.engineBytes t q p.1 p.2
      (j, ps.flatMap (·.1), ps.findSome? (·.2))
  else []

/-- What those reads leave behind (R347). -/
def State.noteBeats (s : State) (t : Nat) (k : Command) (pages : Map Nat) : State :=
  if k.kind = .cpyg || k.kind = .gath then
    (List.range k.beats).foldl (fun (s : State) j => (k.pieces pages j).foldl (fun (s : State) p => s.noteEngineBytes t p.1 p.2) s) s
  else s

/-- Ticks at which the data of a CPYG or GATH arrives, in beat order (log 5, DESIGN CHOICE). -/
def arrivalTicks (now free : Nat) : Nat → List Nat
  | 0 => []
  | n + 1 => (arrivalTicks now free n) ++ [max ((arrivalTicks now free n).getLastD 0) (now + 1 + Config.arrivalDelay (free + n))]

/-- The command at place `i` of a queue completes: a CGET that waits for it receives the register's value. -/
def Seq.completeGets (y : Seq) (c i : Nat) : Seq :=
  { y with l := y.l.map fun (e : Nat × Landing) =>
      match e.2.awaits with
      | some (k, which, n) =>
        if k ≠ c then e
        else if n ≤ i then e
        else if i + 1 < n then (e.1, { e.2 with awaits := some (k, which, n - 1) })
        else (e.1, { e.2 with awaits := none, data := (y.queue c).crcValue which,
                              st := if y.clock < e.2.arrival then .held else .full })
      | none => e }

/-- The command at place `i` of a queue is over, and the queue is as `z` says: what waits for it goes on (R272, R279). -/
def State.endCommand (s : State) (t q c i : Nat) (z : CopyQueue) : State :=
  let z : CopyQueue := { z with cmds := z.cmds.eraseIdx i, recent := z.recent && i + 1 != z.cmds.length }
  let number := 2 * q + c
  let less (y : Seq) : Seq :=
    { y with waitGo := (y.waitGo.map fun w => if w.1 = number && i < w.2 then (w.1, w.2 - 1) else w).filter (·.2 > 0) }
  (s.modSeq t q fun y => (y.setQueue c z).completeGets c i).modTile t fun x => { x with a := less x.a, b := less x.b }

/-- COPY_COMMAND_START: pages are translated; a failure ends the command with its queue's fault flag (R261). -/
def State.copyStart (s : State) (t q c i : Nat) (k : Command) : State × List FaultInfo :=
  match s.commandPages t q k with
  | .error (code, addr, record) =>
    let f := k.faultOf c (s.seq t q) code addr
    ((s.endCommand t q c i { s.queueOf t q c with fault := true }).modSeq t q fun y => y.raiseFlag (2 + c),
     [{ f with rindex := record.getD 0xFFFFFFFF }])
  | .ok (s', pages) =>
    let data := s'.startBeats t q k pages
    let remote := k.kind = .cpyg || k.kind = .gath
    let arr := if remote then arrivalTicks s'.gtick s'.free k.beats else []
    let s' : State := { s' with free := s'.free + (if remote then k.beats else 0) }
    ((s'.noteBeats t k pages).modQueue t q c fun z => z.modCmd i fun k =>
      { k with pages := some pages, moving := data, arrivals := arr, read := if remote then k.beats else 0 }, [])

/-! Beats (R129, R264, R268). -/

/-- A beat is refused: its queue's fault flag is set and the command goes on (R102, R274). -/
def State.refuseBeat (s : State) (t q c : Nat) (k : Command) (off : Nat) : State × List FaultInfo :=
  (s.flagQueue t q c, [k.faultOf c (s.seq t q) 0x0109 off])

/-- The rank of the engine's local accesses (R98). -/
def engineRank (q c : Nat) : Nat := 12 + 2 * q + c

/-- The read of beat `k.read`. -/
def State.beatRead (s : State) (t q c i : Nat) (k : Command) : State × List FaultInfo :=
  let j := k.read
  let n := k.beatLen j
  let s := s.modQueue t q c fun z => z.modCmd i fun k => { k with read := j + 1 }
  let took (r : State × List Byte × Option Poison) : State × List FaultInfo :=
    (r.1.modQueue t q c fun z => z.modCmd i fun k => { k with moving := k.moving ++ [(j, r.2)] }, [])
  if k.kind = .cpym then
    let off := k.src - 0x8000000 + 64 * j
    took (s.readMramVia t (engineRank q c) (((k.pages.getD []).lookup (off / 1024)).getD (off / 1024)) off n)
  else
    let off := (spadOffset k.src k.len).getD 0 + 64 * j
    if (s.tile t).rowMeets false (wordsOf off n) then s.refuseBeat t q c k off
    else took (s.readSpad t (engineRank q c) off n)

/-- An inbound write waits at a tile's port (R101). -/
def State.inboundTo (s : State) (m issuer : Nat) (multicast : Bool) (w : LocalWrite) (cmd : Option (Nat × Nat × Nat) := none) : State :=
  s.modTile m fun x =>
    { x with inbound := x.inbound ++ [{ due := s.gtick, issuer := issuer, multicast := multicast, write := { w with issuer := issuer }, cmd := cmd }] }

/-- The name of beat `j` of a command among those of its sequencer: its slot and start step, and the beat. -/
def Command.name (k : Command) (c j : Nat) : Option (Nat × Nat × Nat) := some (c, k.start, j)

/-- Bytes of a beat to global memory: staged by sectors, or through an aperture, where all of a beat performs at one tick (R129, R265, R267, R412). -/
def State.beatStaged (s : State) (t q c : Nat) (k : Command) (j va : Nat) (bs : List Byte) (p : Option Poison) : State :=
  let pages := k.pages.getD []
  let cells := bs.zipIdx.map fun b => (physOf pages (va + b.2), b.1)
  ((cells.map fun b => s.apertureOwner b.1).dedup).foldl (fun (s' : State) o =>
    let w : GlobalWrite := { bytes := cells.filter fun b => s.apertureOwner b.1 == o, scope := k.sc, poison := p, add := k.kind = .redc }
    (if o.isSome then [w] else w.split).foldl (fun s w => s.globalStore t q w true (k.name c j)) s') s

/-- A CPYX beat reaches a scratchpad aperture at tick `at0` (R101, R266): a tile of this package, or, as tile 384 in the list of aperture
writes, a peer's, at its physical address. -/
def State.apertureArrival (s : State) (me owner at0 : Nat) (cells : Map Byte) (p : Option Poison) : State :=
  let e : Inbound := { due := at0, issuer := me, multicast := false, write := { bytes := cells, poison := p, issuer := me }, arrival := true }
  let s' : State := { s with aperture := s.aperture ++ [(owner, e)] }
  s'.at_ at0 .apertureWritePerform [owner]

/-- The arrival of the last CPYX beat of a sequencer that is on its way: they arrive in order (R136). -/
def State.lastArrival (s : State) (me : Nat) : Nat :=
  (((s.ingress.filter fun e => e.agent == 1000 + me).map (·.arrived)) ++
    ((s.aperture.filter fun e => e.2.issuer == me && e.2.arrival).map (·.2.due))).foldl max 0

/-- A CPYX beat leaves (R266, R267) with the tick of its acknowledgment: to its own package as an external write or to a scratchpad, to a peer's
memory as a staged write of its scope, to a peer's scratchpad at its arrival tick. -/
def State.beatSent (s : State) (t q c i : Nat) (k : Command) (j : Nat) (bs : List Byte) (p : Option Poison) : State :=
  let pa := physOf (k.pages.getD []) (k.dst + 64 * j)
  let at0 := max (s.lastArrival (seqNumber t q)) (s.gtick + 1 + Config.flightDelay s.free)
  let last := ((k.acks.getLast?).map (·.1)).getD 0
  let back := max last (at0 + 1 + Config.ackDelay s.free)
  let s := s.tickFree
  let w : GlobalWrite := { bytes := cellsFrom pa bs, scope := k.sc, poison := p }
  let s : State := match s.place pa with
    | .ok (.aperture owner off) => s.apertureArrival (seqNumber t q) owner at0 (cellsFrom off bs) p
    | .ok .lpddr => s.arrive { ctx := s.ctxOf t, agent := 1000 + seqNumber t q, arrived := at0, write := w }
    | .ok (.peer _ o) =>
      if o < 0x8000000000 then w.split.foldl (fun s w => s.stage t q { w with beat := k.name c j }) s
      else s.apertureArrival (seqNumber t q) 384 at0 w.bytes p
    | _ => s
  (s.modQueue t q c fun z => z.modCmd i fun k => { k with acks := k.acks ++ [(back, bs)] })

/-- Fold a beat's bytes into the running value (R269, R270). -/
def CopyQueue.foldBytes (z : CopyQueue) (k : Command) (bs : List Byte) : CopyQueue :=
  if k.fold then { z with run := BitVec.ofNat 32 (bs.foldl crcByte z.run.toNat) } else z

/-- Members of the tile's cluster in its partition (R264). -/
def State.multicastTiles (s : State) (t : Nat) : List Nat := (List.range 16).filterMap (s.memberTile t)

/-- The write of a beat at its destination. -/
def State.beatWrite (s : State) (t q c i : Nat) (k : Command) (j : Nat) (bs : List Byte) (p : Option Poison) : State :=
  let me := seqNumber t q
  let n := bs.length
  if k.kind = .cpyx then s.beatSent t q c i k j bs p
  else if k.kind = .scat then s.beatStaged t q c k j (k.dst / 65536 + 64 * j) bs p
  else if k.isGlobal then s.beatStaged t q c k j (k.dst + 64 * j) bs p
  else if k.kind = .cpymc then
    let w : LocalWrite := { bytes := cellsFrom (k.dst - 0x4000000 + 0x1C0000 + 64 * j) bs, poison := p }
    (s.multicastTiles t).foldl (fun s m => s.inboundTo m me true w (k.name c j)) s
  else if k.toMember then
    match s.memberRange t (k.dst + 64 * j) n with
    | some (m, off) => s.inboundTo m me false { bytes := cellsFrom off bs, poison := p, add := k.kind = .redc } (k.name c j)
    | none => s
  else
    let off := (spadOffset k.dst k.len).getD 0 + 64 * j
    let w : LocalWrite := { bytes := cellsFrom off bs, poison := p, add := k.kind = .redc, issuer := me }
    s.modTile t fun x =>
      let x := (wordsOf off n).foldl (fun (x : Tile) b => x.use { port := b % 16, write := true, rank := engineRank q c }) x
      { x with writes := x.writes ++ [(writeKey ((s.seq t q).clock - (k.start + k.base + j)) (engineRank q c), w)] }

/-- The destination is the own scratchpad through its local port. -/
def Command.toOwn (k : Command) : Bool := !k.isGlobal && !k.toMember && k.kind != .cpymc

/-! Beats that perform elsewhere. -/

/-- Banks that multicast beats of the tick take in tile `m` from commands of tile `t` and of those above it that have still to perform them in the tick. -/
def State.castAhead (s : State) (t m : Nat) : List Nat :=
  s.tiles.flatMap fun e =>
    let runs := t ≤ e.1 && clusterOf e.1 == clusterOf m && e.2.ctx.isSome && e.2.ctx == (s.tile m).ctx && e.2.owed == 0 && e.2.trap.isNone && !e.2.frozen
    if !runs then []
    else [(e.2.a.clock, e.2.a.c0), (e.2.a.clock, e.2.a.c1), (e.2.b.clock, e.2.b.c0), (e.2.b.clock, e.2.b.c1)].flatMap fun z =>
      z.2.cmds.flatMap fun k =>
        if k.kind = .cpymc then
          (k.beatsDue z.1).flatMap fun j => (wordsOf (k.dst - 0x4000000 + 0x1C0000 + 64 * j) (k.beatLen j)).map (· % 16)
        else []

/-- Beats of a command that have still to perform after this tick, at an inbound port or through an aperture (R128, R261, R412). -/
def State.beatsLeft (s : State) (t q c : Nat) (k : Command) : List Nat :=
  let mine (e : Inbound) : Option Nat :=
    match e.cmd with
    | some (c', start, j) => if e.issuer = seqNumber t q ∧ c' = c ∧ start = k.start then some j else none
    | none => none
  (s.aperture.filterMap fun e => mine e.2) ++
  s.tiles.flatMap fun e =>
    if e.2.inbound.any fun b => (mine b).isSome then (e.2.inboundSplit s.gtick (s.castAhead t e.1)).2.filterMap mine else []

/-- Beat `k.done` performs, unless it was refused when it was to be read. -/
def State.beatPerform (s : State) (t q c i : Nat) (k : Command) : State × List FaultInfo :=
  let j := k.done
  let s := s.modQueue t q c fun z => z.modCmd i fun k => { k with done := j + 1, moving := k.moving.filter (·.1 != j), arrivals := k.arrivals.tail }
  match k.moving.lookup j with
  | none => (s.modQueue t q c fun z => z.modCmd i fun k => { k with acked := k.acked + 1 }, [])
  | some (bs, p) =>
    let off := (spadOffset k.dst k.len).getD 0 + 64 * j
    if k.toOwn && (s.tile t).rowMeets false (wordsOf off bs.length) then s.refuseBeat t q c k off
    else
      let s := s.beatWrite t q c i k j bs p
      -- folded when it performs, and behind the earlier beats (R270)
      (if k.kind = .cpyx || !k.fold then s
       else if k.unfolded.isEmpty && !(s.beatsLeft t q c k).contains j then s.modQueue t q c fun z => z.foldBytes k bs
       else s.modQueue t q c fun z => z.modCmd i fun k => { k with unfolded := k.unfolded ++ [(j, bs)] }, [])

/-- The oldest beat of the queue's `i`-th command that has performed elsewhere is folded (R270). -/
def State.foldBeat (s : State) (t q c i : Nat) (k : Command) : State × List FaultInfo :=
  match k.unfolded with
  | [] => (s, [])
  | (_, bs) :: rest => (s.modQueue t q c fun z => (z.foldBytes k bs).modCmd i fun k => { k with unfolded := rest }, [])

/-! Completion (R270, R272). -/

/-- COPY_COMMAND_COMPLETE of the queue's `i`-th command. A CGET that waits for it has the registers as .LAST leaves them (log 78, DEDUCED). -/
def State.copyComplete (s : State) (t q c i : Nat) (k : Command) : State × List FaultInfo :=
  let z := s.queueOf t q c
  let bad := k.compare && z.run != z.expect
  let f : FaultInfo := { k.faultOf c (s.seq t q) 0x0602 0 with aux0 := z.run.toNat, aux1 := z.expect.toNat }
  let s' := s.endCommand t q c i { z with fault := z.fault || bad, run := if k.last then 0 else z.run, expect := if k.last then 0 else z.expect }
  if bad then (s'.modSeq t q fun y => y.raiseFlag (2 + c), [f]) else (s', [])

/-! What a queue has due, and the events. -/

/-- Every beat of the command has performed (R27, R261). -/
def State.beatsDone (s : State) (t q c : Nat) (k : Command) : Bool := k.pages.isSome && k.done == k.beats && (s.beatsLeft t q c k).isEmpty

/-- The command completes (R261): a CPYX with its last acknowledgment, any other with its last beat. -/
def State.commandOver (s : State) (t q c : Nat) (k : Command) : Bool := k.complete && k.unfolded.isEmpty && (s.beatsLeft t q c k).isEmpty

/-- A beat of the command that performs elsewhere has performed, or does in this tick. -/
def State.foldDue (s : State) (t q c : Nat) (k : Command) : Bool :=
  match k.unfolded with
  | [] => false
  | e :: _ => !(s.beatsLeft t q c k).contains e.1

/-- The first due happening of a queue at the step of its sequencer: 0 start, 1 read, 2 perform, 4 the fold of a beat that performs elsewhere, 3
completion, with the command's place. -/
def State.queueNext (s : State) (t q c : Nat) : Option (Nat × Nat × Command) :=
  let z := s.queueOf t q c
  let n := (s.seq t q).clock
  let of (kind : Nat) (p : Command → Bool) : Option (Nat × Nat × Command) :=
    (z.cmds.zipIdx.find? fun e => p e.1).map fun e => (kind, e.2, e.1)
  ((of 0 fun k => k.startDue n).or (of 1 fun k => k.readDue n)).or ((of 2 fun k => k.performDue n s.gtick).or ((of 4 fun k => s.foldDue t q c k).or (of 3 fun k => s.commandOver t q c k)))

/-- The first command of a queue with a beat to fold. -/
def State.foldNext (s : State) (t q c : Nat) : Option (Nat × Command) :=
  ((s.queueOf t q c).cmds.zipIdx.find? fun e => s.foldDue t q c e.1).map fun e => (e.2, e.1)

/-- The first command of a queue that has only to complete. -/
def State.overNext (s : State) (t q c : Nat) : Option (Nat × Command) :=
  ((s.queueOf t q c).cmds.zipIdx.find? fun e => s.commandOver t q c e.1).map fun e => (e.2, e.1)

/-- The next happening of a queue, with its faults. While the tile stands still a command may only go on and complete with a beat that has performed
elsewhere (R54, R261). -/
def State.engineStep (s : State) (t q c : Nat) : State × List FaultInfo :=
  if (s.tile t).frozen then
    match s.foldNext t q c, s.overNext t q c with
    | some (i, k), _ => s.foldBeat t q c i k
    | none, some (i, k) => s.copyComplete t q c i k
    | none, none => (s, [])
  else match s.queueNext t q c with
  | some (0, i, k) => s.copyStart t q c i k
  | some (1, i, k) => s.beatRead t q c i k
  | some (2, i, k) => s.beatPerform t q c i k
  | some (4, i, k) => s.foldBeat t q c i k
  | some (_, i, k) => s.copyComplete t q c i k
  | none => (s, [])

/-- The event of a queue: its next happening, and the faults it raises (R343, R345). -/
def State.engineEvent (s : State) (t q c : Nat) : State :=
  let (s, fs) := s.engineStep t q c
  s.takeDue t q fs

def execCopyCommandStart (s : State) : Host.Outcome State Fault Refusal := .next (s.engineEvent (s.arg 0) (s.arg 1) (s.arg 2))
def execCopyBeat (s : State) : Host.Outcome State Fault Refusal := .next (s.engineEvent (s.arg 0) (s.arg 1) (s.arg 2))
def execCopyCommandComplete (s : State) : Host.Outcome State Fault Refusal := .next (s.engineEvent (s.arg 0) (s.arg 1) (s.arg 2))

/-- The first command of a queue with an acknowledgment back at a tick. -/
def CopyQueue.ackDue (z : CopyQueue) (tick : Nat) : Option (Command × Nat) :=
  z.cmds.zipIdx.find? fun e => e.1.acks.head?.any fun a => a.1 ≤ tick

/-- What the target wrote for the oldest beat that is not acknowledged, where a link error changed it (R270, R394): an input. -/
def Command.targetWrote (k : Command) (bs : List Byte) : Command :=
  match k.acks with
  | (n, old) :: rest => { k with acks := (n, bs.take old.length ++ old.drop bs.length) :: rest }
  | [] => k
def CopyQueue.targetWrote (z : CopyQueue) (bs : List Byte) : CopyQueue :=
  match z.cmds.findIdx? fun k => !k.acks.isEmpty with
  | some i => z.modCmd i fun k => k.targetWrote bs
  | none => z

/-- CPYX_ACKNOWLEDGMENT of the queue of arguments 0 to 2 (R266, R270): the beat's bytes are folded, and the last one completes
the command. -/
def State.cpyxAck (s : State) (t q c : Nat) : State × List FaultInfo :=
  match (s.queueOf t q c).ackDue s.gtick with
  | none => (s, [])
  | some (k, i) =>
    let bs := (k.acks.head?.map (·.2)).getD []
    let k' := { k with acks := k.acks.tail, acked := k.acked + 1 }
    let s := s.modQueue t q c fun z => (z.foldBytes k bs).modCmd i fun _ => k'
    if k'.complete then s.copyComplete t q c i k' else (s, [])
def State.ackEvent (s : State) (t q c : Nat) : State :=
  let (s, fs) := s.cpyxAck t q c
  s.takeDue t q fs
/-- The event; as an input it brings the bytes as the target wrote them. -/
def execCpyxAcknowledgment (s : State) : Host.Outcome State Fault Refusal :=
  .next (if s.cur.bytes.isEmpty then s.ackEvent (s.arg 0) (s.arg 1) (s.arg 2)
    else s.modQueue (s.arg 0) (s.arg 1) (s.arg 2) fun z => z.targetWrote s.cur.bytes)

/-! A queue's work of a step. -/

def State.queueWork (s : State) (t q c : Nat) : Bool :=
  (s.queueNext t q c).isSome || ((s.queueOf t q c).ackDue s.gtick).isSome

/-- One happening of a queue: its own, or an acknowledgment. -/
def State.queueStep (s : State) (t q c : Nat) : State × List FaultInfo :=
  if (s.queueNext t q c).isSome then s.engineStep t q c else s.cpyxAck t q c

/-- The happenings of a queue in a step, at most `n`, with the faults of each. -/
def State.runQueue (s : State) (t q c : Nat) : Nat → State × List (List FaultInfo)
  | 0 => (s, [])
  | n + 1 =>
    if s.queueWork t q c then
      let (s1, f1) := s.queueStep t q c
      let (s2, f2) := s1.runQueue t q c n
      (s2, f1 :: f2)
    else (s, [])

/-- Enough for all that a queue can have due, after a hold that has taken in its slip too: of each command its start and end, and of each beat its read,
its write, its fold and an acknowledgment. -/
def State.queueBound (s : State) (t q c : Nat) : Nat := (s.queueOf t q c).cmds.foldl (fun n k => n + 4 * k.beats + 4) 4

/-! Engine flags (R180, R201). -/

/-- No journal command of sequencer `q` is in progress. -/
def Tile.journalDone (x : Tile) (q : Nat) : Bool :=
  let y := x.seq q
  let j := x.journal
  !((y.flights ++ y.hflights).any fun f => match f.act with | .wjOpen _ => true | .wjCommit => true | _ => false) &&
  (j.owner != q || x.ctx != some j.ctx || j.st == .idle || (j.puts.isEmpty && j.st != .committing && !j.aborting))

/-- The completion flags of a sequencer as they stand. -/
def State.completionFlags (s : State) (t q : Nat) : List Bool :=
  let x := s.tile t
  let y := x.seq q
  let fs := y.flights ++ y.hflights
  [!(fs.any fun f => match f.act with | .mma _ _ _ _ _ => true | .accz _ => true | _ => false),
   !(fs.any fun f => match f.act with | .accscl _ _ _ _ => true | _ => false),
   y.c0.cmds.isEmpty, y.c1.cmds.isEmpty, x.journalDone q,
   decide (y.mapver.toNat < s.sheaf.version),
   decide (nbits y.slotmap.toNat 32 32 < (s.ctx (s.ctxOf t)).winnow.published)]

/-- The fault flags of a sequencer. -/
def Seq.faultBits (y : Seq) : List Bool :=
  [y.faultFlags.getLsbD 0, y.faultFlags.getLsbD 1, y.c0.fault, y.c1.fault, y.faultFlags.getLsbD 4, false, false]

/-- The word of flags: when completion and fault fall in one step, completion reads 0 (R201). `now` are the engines whose fault falls in the step. -/
def flagWord (now : BitVec 8) (done bad : List Bool) : BitVec 16 :=
  BitVec.ofNat 16 ((List.range 7).foldl (fun acc e =>
    acc + (if done.getD e false && !now.getLsbD e then 2 ^ e else 0) + (if bad.getD e false then 2 ^ (e + 8) else 0)) 0)

/-- The flags of a sequencer as a step leaves them; a handler's first step is the step of its fault. -/
def State.flagsNow (s : State) (t q : Nat) (handler : Bool) : BitVec 16 :=
  let y := s.seq t q
  let past := handler && (y.handler.map fun (h : Handler) => decide (0 < h.clock)).getD false
  flagWord (if past then 0 else y.faultNow) (s.completionFlags t q) y.faultBits

/-- The flags of a step are those of one step ago, and those of one step ago of two (R180). -/
def Seq.sample (y : Seq) (flags : BitVec 16) : Seq := { y with flags2 := y.flags1, flags1 := flags }

/-- What a sequencer's results and queues have done when the clock stands at step `n`, for its flags: a look ahead at a step that the clock passes over. -/
def State.passStep (s : State) (t q n : Nat) : State :=
  let s := s.modSeq t q fun y => { y with clock := n, faultNow := 0 }
  let s := ((s.seq t q).flights.filter fun f => f.step ≤ n).foldl (fun (s : State) f => ((s.modSeq t q (·.removeFlight f)).land t q f).1) s
  ([0, 1] : List Nat).foldl (fun (s : State) c => (s.runQueue t q c (s.queueBound t q c)).1) s

/-- The flags of the last steps, three at most, that the clock passes over as it takes in the slip of a hold (R56, R180). -/
def State.passedFlags (s : State) (t q : Nat) : List (BitVec 16) :=
  let y := s.seq t q
  let k := min y.slip 3
  ((List.range k).foldl (fun (a : State × List (BitVec 16)) i =>
    let z := a.1.passStep t q (y.clock + y.slip - k + i)
    (z, a.2 ++ [z.flagsNow t q false])) (s, [])).2

/-- Commands whose start steps the clock has passed over start before the tick's step, which their data may make wait (R54, R179, R264); at most `n`. -/
def State.startPassed (s : State) (t q c : Nat) : Nat → State
  | 0 => s
  | n + 1 =>
    match (s.queueOf t q c).cmds.zipIdx.find? fun e => e.1.pages.isNone && e.1.start < (s.seq t q).clock with
    | none => s
    | some (k, i) =>
      let (s', fs) := s.copyStart t q c i k
      (s'.takeDue t q fs).startPassed t q c n

/-- The clock takes in the slip of a hold (R56), and the flags of the steps it passes over are those of one and two steps ago (R180). -/
def State.absorbSlip (s : State) (t q : Nat) : State :=
  let y := s.seq t q
  let s := s.setSeq t q { (s.passedFlags t q).foldl Seq.sample y with clock := y.clock + y.slip, slip := 0 }
  ([0, 1] : List Nat).foldl (fun (s : State) c => s.startPassed t q c (s.queueOf t q c).cmds.length) s

end Sys2Proof.Machine
end

