-- ==== Sys2Proof/Machine/Ports.lean ====
section
/-! DEFINITION. The ports of a tile at the end of a tick (R98 to R101, R128, R347, R356, R412): conflicts and the freezes they cost,
writes as they perform, parity; and the ticks that freezes and pauses take (R99, R340). -/
namespace Sys2Proof.Machine

/-! Conflicts. -/

/-- The accesses at a port in the order of R98. -/
def Tile.portUses (x : Tile) (p : Nat) : List BankUse :=
  (sortKey [] ((x.uses.filter (·.port == p)).map fun u => (u.rank, u))).map (·.2)

/-- The other data banks of a bank's group (R97). -/
def otherBanks (b : Nat) : List Nat := ((List.range 4).map fun i => b / 4 * 4 + i).filter (· != b)

/-- What a step has claimed so far: banks and parity banks in use, freeze ticks, and the words whose second reads are rebuilt. -/
structure PortLook where
  banks : List Nat
  groups : List Nat
  ticks : Nat
  words : List Nat := []

/-- A rebuild of bank `b` can take place in this step (R99). -/
def PortLook.free (k : PortLook) (b : Nat) : Bool := !k.groups.contains (b / 4) && !(otherBanks b).any k.banks.contains
def PortLook.claim (k : PortLook) (b : Nat) : PortLook := { k with banks := otherBanks b ++ k.banks, groups := b / 4 :: k.groups }
def PortLook.wait (k : PortLook) (n : Nat) : PortLook := { k with ticks := max k.ticks n }

/-- Reads of bank `b` that must be rebuilt, for an error or a retired bank (R347, R357). -/
def Tile.errorRebuilds (x : Tile) (k : PortLook) (b : Nat) : PortLook :=
  let n := ((x.portUses b).filter (·.rebuild)).length
  if n = 0 then k
  else if k.free b then (k.claim b).wait (n - 1)
  else k.wait n

/-- The accesses that the port of bank `b` is to serve; a retired bank's serves none. -/
def Tile.served (x : Tile) (b : Nat) : List BankUse := (x.portUses b).filter fun u => !(x.retiredBanks.getLsbD b && u.rebuild)

/-- The second read of bank `b` in the step, which never has the port. -/
def Tile.secondRead (x : Tile) (b : Nat) : Option BankUse := ((x.served b).filter (!·.write))[1]?

/-- Accesses of bank `b` beyond the first: the second read is rebuilt where it can be; each other one costs a tick (R99; log 37, DEDUCED). -/
def Tile.bankConflict (x : Tile) (k : PortLook) (b : Nat) : PortLook :=
  let more := (x.served b).length - 1
  match x.secondRead b with
  | some u => if k.free b && (x.rebuilt u.word).isSome then { (k.claim b).wait (more - 1) with words := u.word :: k.words } else k.wait more
  | none => k.wait more

/-- The rank of that read, in the order of which groups are claimed. -/
def Tile.secondRank (x : Tile) (b : Nat) : Nat := ((x.secondRead b).map (·.rank)).getD 0

/-- What the data banks give the accesses of a step (R99). -/
def Tile.conflictLook (x : Tile) : PortLook :=
    let ports := (x.uses.map (·.port)).dedup
    let banks := (sortKey [] ((ports.filter (· < 16)).map fun b => (b, b))).map (·.2)
    let held := (x.reservations.filter (0 < ·.left)).map (·.bank)
    let parity := (ports.filter fun p => 20 ≤ p && p < 24).map (· - 20)
    let due : List Nat := x.parityDue.map (·.1 / 2048)
    let k : PortLook := { banks := banks ++ held, groups := (due ++ parity).dedup, ticks := 0 }
    let k := banks.foldl x.errorRebuilds k
    (sortKey [] (banks.map fun b => (16 * x.secondRank b + b, b))).foldl (fun k e => x.bankConflict k e.2) k

/-- The freeze ticks that the accesses of a step cost (R99, R104, R356). -/
def Tile.conflictTicks (x : Tile) : Nat :=
  if x.uses.isEmpty then 0
  else
    let ports := (x.uses.map (·.port)).dedup
    (ports.filter (16 ≤ ·)).foldl (fun t p => max t ((x.portUses p).length - 1)) x.conflictLook.ticks

/-! Writes. -/

/-- Two writes have a byte in common. -/
def LocalWrite.meets (w e : LocalWrite) : Bool := w.bytes.any fun b => (e.bytes.lookup b.1).isSome

/-- An inbound add of one element comes behind every store to its bytes, and before the adds of higher-numbered issuers to them that follow these (R130). -/
def placeAdd (ws : List LocalWrite) (e : LocalWrite) : List LocalWrite :=
  let stores := (ws.reverse.dropWhile fun w => w.add || !w.meets e).length
  let adds := ((ws.drop stores).takeWhile fun w => !(w.meets e && e.issuer < w.issuer)).length
  ws.take (stores + adds) ++ e :: ws.drop (stores + adds)

/-- The elements of an add, each an add of its own (R268). -/
def LocalWrite.elements (w : LocalWrite) : List LocalWrite :=
  ((w.bytes.map fun b => b.1 / 4).dedup).map fun k => { w with bytes := w.bytes.filter fun b => b.1 / 4 == k }

/-- An inbound write behind the local ones, which it stands over (R101); an inbound add element by element (R130). -/
def placeInbound (ws : List LocalWrite) (e : LocalWrite) : List LocalWrite :=
  if e.add then e.elements.foldl placeAdd ws else ws ++ [e]

/-- A group's four data banks and its parity bank are free in the step (R99, R347). -/
def Tile.groupFree (x : Tile) (g : Nat) : Bool :=
  !(x.uses.any fun u => (u.port < 16 && u.port / 4 == g) || u.port == 20 + g) &&
  !(x.reservations.any fun r => r.bank / 4 == g && 0 < r.left) && !(x.parityDue.any fun e => e.1 / 2048 == g)

/-- The writes of a tick perform: local ones in the order of R98, then inbound ones, which stand over them (R128). In a step
(`stepped`) the parity updates of the step before come first, and the conflicts of the step's accesses are counted. -/
def Tile.memoryTick (x : Tile) (tick : Nat) (stepped : Bool) : Tile :=
  if x.written then x
  else
    let x := if stepped then { (if x.parity.isEmpty then x else x.healParity x.groupFree) with owed := x.owed + x.conflictTicks } else x
    let x := if stepped then x.parityDue.foldl (fun (z : Tile) e => z.updateParity e.1 e.2) { x with parityDue := [] } else x
    let (now, rest) := x.inboundSplit tick
    let ws := now.foldl (fun ws e => placeInbound ws e.write) ((sortKey [] x.writes).map (·.2))
    let x := ws.foldl (fun (z : Tile) w => z.applyWrite w) { x with writes := [] }
    x.parityNow.foldl (fun (z : Tile) e => z.putParity e.1 e.2.1 e.2.2.1 e.2.2.2)
      { x with inbound := rest, uses := [], atomicNow := [], parityNow := [], written := true }

/-- Second reads that a step's conflicts have rebuilt: what their rebuilds correct is counted (R99, R347). -/
def State.noteConflicts (s : State) (t : Nat) : State :=
  let x := s.tile t
  if x.written || x.uses.isEmpty || (x.marks.isEmpty && x.parity.isEmpty) then s
  else x.conflictLook.words.foldl (fun (s : State) k => s.noteRebuild t k) s

/-! Handlers and freezes. -/

/-- The sequencer whose handler steps in this tick (R344): it is the first of the pause, the pause has begun for it, and none of
its own requests holds it. -/
def State.handlerSteps (s : State) (t : Nat) : Option Nat :=
  let x := s.tile t
  match x.trap with
  | none => none
  | some p =>
    let q := p.order.headD 0
    let y := x.seq q
    match y.handler with
    | none => none
    | some h =>
      if p.since ≤ s.gtick && !(y.l.any fun e => e.2.st == .pending && !e.2.given && e.2.handler && y.slotReached e.2) &&
        !(y.diagWaits.any fun w => w.2.2 && w.1 ≤ h.clock && s.gtick < w.2.1) then some q else none

/-- It runs its next bundle in this tick. -/
def State.handlerReady (s : State) (t q : Nat) : Bool :=
  let y := s.seq t q
  s.handlerSteps t == some q && !y.taken && (y.handler.map fun (h : Handler) => h.ret.isNone).getD false

/-- The task clocks or a handler's clock step in this tick. -/
def State.steps (s : State) (t : Nat) : Bool := !(s.tile t).frozen || (s.handlerSteps t).isSome

/-- BANK_CONFLICT_SERVE on the tile of argument 0 (R99, R104, R135, R356): a tick goes to an access that found its port taken, or to
a sector that a FENCE writes back; the tile freezes for it. -/
def State.serveConflict (s : State) (t : Nat) : State :=
  s.modTile t fun x => { x with owed := x.owed - 1, frozen := true, settled := true,
                                trap := x.trap.map fun (p : Trap) => { p with since := max p.since (s.gtick + 1) } }
def execBankConflictServe (s : State) : Host.Outcome State Fault Refusal := .next (s.serveConflict (s.arg 0))

/-- TRAP_PAUSE_TIMEOUT on the tile of argument 0 (R340): 0x0108 at partition level. -/
def State.pauseTimeout (s : State) (t : Nat) : State :=
  let q := (((s.tile t).trap.map fun (p : Trap) => p.order.headD 0)).getD 0
  let f : FaultInfo := { code := 0x0108, unit := 255, step := (s.seq t q).clock }
  let s := s.modTile t fun x => { x with trap := x.trap.map fun (p : Trap) => { p with ticks := 1 } }
  s.partitionFault (s.ctxOf t) t q f true
def execTrapPauseTimeout (s : State) : Host.Outcome State Fault Refusal := .next (s.pauseTimeout (s.arg 0))

/-- DEFERRED_INBOUND_WRITE on the tile of argument 0 (R128): the tick's writes perform, a write deferred earlier among them. -/
def execDeferredInboundWrite (s : State) : Host.Outcome State Fault Refusal :=
  .next ((s.noteConflicts (s.arg 0)).modTile (s.arg 0) fun x => x.memoryTick s.gtick (s.steps (s.arg 0)))

end Sys2Proof.Machine
end

