-- ==== Sys2Proof/Machine/Phases.lean ====
section
/-! DEFINITION. Phase boundaries (R29, R56, R118, R119, R132, R136): signals, release of staged writes, invalidation, and released
entries on their way to memory (R384, R386, R394). -/
namespace Sys2Proof.Machine

/-! Memory behind the staging buffers. -/

/-- The add of a REDC beat, from what its bytes hold (R268), with the poison that it reads there (R348); bytes that a later write has settled stay as that write
made them (R118). -/
def State.addReleased (s : State) (w : GlobalWrite) : GlobalWrite :=
  if !w.add then w
  else
    { w with add := false, settled := [], poison := w.poison.or (w.sectors.findSome? fun k => (s.sector k).2), bytes := (w.bytes.filter fun b => !w.settled.contains b.1).map fun b =>
        let base := b.1 / 4 * 4
        let src := leNat ((List.range 4).map fun i => mget 0 w.bytes (base + i))
        let dst := leNat (s.physBytes base 4)
        (b.1, BitVec.ofNat 8 (rv (b32.add 0 dst src) / 2 ^ (8 * (b.1 % 4)))) }

/-- The write names a peer package that the fabric group no longer holds, and is no beat that has left for it: what becomes of those the loss itself decides
(R394, `State.loseBeats`). -/
def State.peerLost (s : State) (w : GlobalWrite) : Bool :=
  match w.bytes.head? with
  | some (a, _) =>
    w.beat.isNone && 0x1000000000000 ≤ a && a < 0x2000000000000 && (s.sheaf.peers.lookup ((a - 0x1000000000000) / 0x100000000000)).isNone
  | none => false

/-- Wrong stored bits of an entry by lanes of 8 bytes (R347): one in a lane is corrected and counted, more are not, and the entry is released
poisoned with the syndrome of its word (R341; log 49, log 50, DESIGN CHOICE). -/
def StagingEntry.checked (e : StagingEntry) : GlobalWrite × Nat :=
  let inLane (i : Nat) : Nat := (e.wrong.filter fun b => b / 64 == i).length
  let turned (b : Nat × Byte) : Byte :=
    b.2 ^^^ BitVec.ofNat 8 (((List.range 8).filter fun i => e.wrong.contains (8 * (b.1 % 64) + i) && 2 ≤ inLane (b.1 % 64 / 8)).foldl (fun a i => a + 2 ^ i) 0)
  let w := { e.write with bytes := e.write.bytes.map fun b => (b.1, turned b) }
  let right := bytesVec ((List.range 64).map fun i => (e.write.bytes.lookup (64 * w.sector + i)).getD 0)
  let stored := e.wrong.foldl (fun (v : Vec) b => v ^^^ (1#512 <<< b)) right
  let fixed := ((List.range 8).filter fun i => inLane i = 1).length
  if (List.range 8).any fun i => 2 ≤ inLane i
  then ({ w with poison := w.poison.or (some { code := 0x0501, addr := 64 * w.sector, injected := false, syndrome := wordSyndrome stored (some (secdedWord right)) }) }, fixed)
  else (w, fixed)

/-- One entry is released (R118): from now on every read sees it, and it drains into memory later. -/
def State.releaseEntry (s : State) (e : StagingEntry) : State :=
  let (w, fixed) := if e.wrong.isEmpty then (e.write, 0) else e.checked
  let s := if fixed = 0 then s else s.countCorrected (e.party / 2) 3 fixed
  let w := s.addReleased w
  let s := s.noteDirty w
  let s' : State := { s with forward := s.forward ++ [{ e with write := w }] }
  (s'.after (1 + Config.drainDelay s.free) .stagingEntryDrain).tickFree

/-- A write of no sequencer's that is released as it is made, behind what has been released before; party 768 says so (R126, R137; log 44, DEDUCED). -/
def State.releaseNow (s : State) (w : GlobalWrite) : State :=
  s.releaseEntry { party := 768, tick := s.gtick, write := { w with bytes := w.bytes.map fun b => (s.homeAddr b.1, b.2) } }

/-- APERTURE_WRITE_PERFORM on the tile of argument 0 (R412): its aperture writes that are due stand at its inbound port. Number 384 stands for
the tiles of peers, whose scratchpads are memory behind their addresses (R266). -/
def State.aperturePerform (s : State) (t : Nat) : State :=
  let due := s.aperture.filter fun e => e.1 == t && e.2.due ≤ s.gtick
  let s' : State := { s with aperture := s.aperture.filter fun e => !(e.1 == t && e.2.due ≤ s.gtick) }
  if t = 384 then due.foldl (fun (s : State) e => s.releaseNow { bytes := e.2.write.bytes, poison := e.2.write.poison }) s'
  else s'.modTile t fun x => { x with inbound := x.inbound ++ due.map fun e => { e.2 with due := s.gtick, aperture := true } }
def execApertureWritePerform (s : State) : Host.Outcome State Fault Refusal := .next (s.aperturePerform (s.arg 0))

/-- STAGING_ENTRY_DRAIN: the oldest released entry that no cutover window holds (R386) reaches memory and frees its place. -/
def State.drainHeld (s : State) (e : StagingEntry) : Bool :=
  s.migrations.any fun m => m.state == 1 && e.write.bytes.any fun b => m.old ≤ b.1 && b.1 < m.old + m.size
def State.drain (s : State) : State :=
  match s.forward.find? fun e => !s.drainHeld e with
  | none => s
  | some e =>
    let s' : State := { s with forward := s.forward.erase e }
    s'.memPut e.write
def execStagingEntryDrain (s : State) : Host.Outcome State Fault Refusal := .next s.drain

/-! Release (R118, R119, R132, R136). -/

/-- A boundary of scope `b` releases entries of scope up to `b`, and those of scope S at P and F (R132). -/
def releases (b scope : Nat) : Bool := scope ≤ b || (scope == 6 && b ≥ 4)

/-- The bytes that a released entry leaves to its party's earlier, unreleased ones. An add keeps its elements whole and notes the bytes. -/
def StagingEntry.without (e r : StagingEntry) : StagingEntry :=
  let taken (b : Nat × Byte) : Bool := r.write.bytes.any fun c => c.1 == b.1
  if e.party = r.party && e.write.bytes.any taken then
    if e.write.add then { e with write := { e.write with settled := e.write.settled ++ (e.write.bytes.filter taken).map (·.1) } }
    else { e with write := { e.write with bytes := e.write.bytes.filter fun b => !taken b } }
  else e

/-- Nothing of an entry is left to release. -/
def StagingEntry.spent (e : StagingEntry) : Bool := e.write.bytes.all fun b => e.write.settled.contains b.1

/-- Split a die's entries in their order: those released, and those that stay, less the bytes that a later write of their party
has released (R118). -/
def splitStaging (sel : StagingEntry → Bool) : List StagingEntry → List StagingEntry × List StagingEntry
  | [] => ([], [])
  | e :: es =>
    let (out, keep) := splitStaging sel es
    if sel e then (e :: out, keep)
    else
      let e := out.foldl StagingEntry.without e
      (out, if e.spent then keep else e :: keep)

/-- The entries of one release in their order (R119): dies in order, within a die by tick and party, within a party in order; those for host memory
after the rest and by ascending address, which is the order in which they travel (R137). -/
def releaseOrder (byDie : List (List StagingEntry)) : List StagingEntry :=
  let all := byDie.flatMap fun out => (sortKey [] (out.map fun e => (e.tick * 1024 + e.party, e))).map (·.2)
  let host (e : StagingEntry) : Bool := 0x8000000000000 ≤ 64 * e.write.sector
  (all.filter fun e => !host e) ++ (sortKey [] ((all.filter host).map fun e => (e.write.sector, e))).map (·.2)

/-- A party whose writes to a lost peer are discarded takes one fault at the boundary (R394). -/
def State.discardFault (s : State) (e : StagingEntry) : State :=
  let t := e.party / 2
  let q := e.party % 2
  s.takeFault t q { code := 0x040B, unit := 255, step := (s.seq t q).clock, addr := (e.write.bytes.head?.map (·.1)).getD 0 } (s.seq t q).pc

/-- Release every entry that `sel` picks. -/
def State.releaseWhere (s : State) (sel : StagingEntry → Bool) : State :=
  let split := (List.range 4).map fun d => (d, splitStaging sel (s.die d).staging)
  let s := split.foldl (fun (s : State) d => if d.2.1.isEmpty then s else s.setDie d.1 { s.die d.1 with staging := d.2.2 }) s
  let out := releaseOrder (split.map fun d => d.2.1)
  let lost := out.filter fun e => s.peerLost e.write
  let s := (out.filter fun e => !s.peerLost e.write).foldl (fun (s : State) e => s.releaseEntry e) s
  let parties := (lost.map (·.party)).dedup
  (parties.filterMap fun p => lost.find? fun e => e.party == p).foldl (fun (s : State) e => s.discardFault e) s

/-- An external write that arrived in a page's cutover window waits (R386). -/
def State.windowHolds (s : State) (e : ExternalWrite) : Bool :=
  s.migrations.any fun m => m.state != 0 && m.limit ≤ e.arrived + 2400 && e.write.bytes.any fun b => m.old ≤ b.1 && b.1 < m.old + m.size

/-- The external writes of a context that a boundary of scope P or wider signalled at tick `sig` releases: of each agent a prefix of its order
(R136); what a cutover window holds waits, with what follows it (R386). -/
def State.releaseIngress (s : State) (x sig : Nat) : State :=
  let r := s.ingress.foldl (fun (acc : List ExternalWrite × List ExternalWrite) e =>
    let held := acc.2.any fun k => k.agent == e.agent && k.ctx == e.ctx
    let go := e.ctx == x && e.arrived < sig && !held && !s.windowHolds e
    if go then (acc.1 ++ [e], acc.2) else (acc.1, acc.2 ++ [e])) ([], [])
  let s' : State := { s with ingress := r.2 }
  r.1.foldl (fun (s : State) e => s.releaseNow e.write) s'

/-! Signals and holds (R29, R56, R125). -/

/-- The device tick of a boundary with signal step `g`. -/
def Seq.signalTick (y : Seq) (g : Nat) : Nat := y.t0 + g

/-- A boundary of the sequencer is due for its signal. -/
def Seq.signalDue (y : Seq) (tick : Nat) : Bool :=
  match y.hold with
  | some h => !h.signalled && y.signalTick h.g ≤ tick
  | none => (y.run == .running || y.run == .halted) && (y.bounds.head?.map fun b => decide (y.signalTick b.g ≤ tick)).getD false

/-- A page whose leaf has been rewritten is cut over at a boundary of scope P or F whose first step comes late enough, if few enough
sectors remain (R385). -/
def State.cutover (s : State) (x scope sig first : Nat) : State :=
  if scope < 4 then s
  else
    let ms := s.migrations
    let go (m : Migration) : Bool :=
      let staged := (((List.range 4).flatMap fun d => (s.die d).staging) ++ s.forward).filter fun e =>
        e.write.bytes.any fun b => m.old ≤ b.1 && b.1 < m.old + m.size
      m.ctx == x && m.state == 0 && m.ready != 0 && m.ready ≤ first && m.dirty.length + entryCount staged ≤ 256
    -- state 2: chosen
    { s with migrations := ms.map fun (m : Migration) => if go m then { m with state := 2, ready := first, limit := sig + 2400 } else m }

/-- One dirty sector of a holding party that its boundary writes back (R132): the first of the L1's lines. -/
def Seq.nextWriteBack (y : Seq) (b : Nat) : Option (Nat × Nat × GlobalWrite) :=
  y.l1.findSome? fun l =>
    if boundaryLine b l then (List.range 4).findSome? fun i => (l.writeBack l.scope i).map fun w => (l.tag, i, w) else none

/-- The write-back of one tick after the PHASE's, behind the stores that perform in it. -/
def State.holdWriteBack (s : State) (t q : Nat) : State :=
  let y := s.seq t q
  match y.hold with
  | some h =>
    if h.phase && !h.signalled && h.issued < s.gtick then
      match y.nextWriteBack h.scope with
      | some (tag, i, w) =>
        let mask : BitVec 256 := (0xFFFFFFFFFFFFFFFF : BitVec 256) <<< (64 * i)
        (s.setSeq t q { y with l1 := y.l1.map fun l => if l.tag = tag then { l with dirty := l.dirty &&& ~~~ mask } else l }).stage t q w
      | none => s
    else s
  | none => s

/-- A store to staged memory that its party issued before the word it holds at and that has not performed (R133): its write, and whether past the L1. A store
through an aperture is no staged write (R412), and one without an active element is none. -/
def Flight.heldStore (h : Hold) (f : Flight) : Option (GlobalWrite × Bool) :=
  match f.act with
  | .global w nc aperture => if !aperture && !w.bytes.isEmpty && f.issue < h.step && releases h.scope w.scope then some (w, nc) else none
  | _ => none

/-- BOUNDARY_SIGNAL for sequencer `q` of tile `t`: it must hold with its L1 written back, or 0x0103 ends the partition (R56, R132). A cached store
issued before the PHASE that has still to perform is a line not written back (R133; log 53, DEDUCED). -/
def State.signal (s : State) (t q : Nat) : State :=
  let s := s.holdWriteBack t q
  let y := s.seq t q
  let f : FaultInfo := { code := 0x0103, unit := 255, step := y.clock }
  match y.hold with
  | some h =>
    let late := h.phase && (y.l1.any (boundaryLine h.scope) || y.flights.any fun f => ((f.heldStore h).map fun w => !w.2).getD false)
    let s := s.setSeq t q { y with hold := some { h with signalled := true } }
    if late then s.partitionFault (s.ctxOf t) t q f
    else if h.phase then s.cutover (s.ctxOf t) h.scope (y.signalTick h.g) (y.signalTick h.g + h.lat) else s
  | none => (s.setSeq t q { y with bounds := y.bounds.tail }).partitionFault (s.ctxOf t) t q f
def execBoundarySignal (s : State) : Host.Outcome State Fault Refusal := .next (s.signal (s.arg 0) (s.arg 1))

/-- The first step of a new phase has come for the sequencer. -/
def Seq.holdOver (y : Seq) (tick : Nat) : Option Hold :=
  match y.hold with
  | some h => if h.signalled && y.signalTick h.g + h.lat ≤ tick then some h else none
  | none => none

/-- Every sequencer whose hold is over, with its hold. -/
def State.holdsOver (s : State) : List (Nat × Nat × Hold) :=
  s.tiles.flatMap fun e =>
    if e.2.halt.isSome then []
    else ((e.2.a.holdOver s.gtick).toList.map fun h => (e.1, 0, h)) ++ ((e.2.b.holdOver s.gtick).toList.map fun h => (e.1, 1, h))

/-- The hold ends (R56): the task clock takes in the slip, and at a phase boundary the L1 is invalidated (R132). -/
def State.endHold (s : State) (t q : Nat) (h : Hold) : State :=
  (s.absorbSlip t q).modSeq t q fun y =>
    let y := { y with hold := none }
    if h.phase then y.invalidate false else y

/-- An entry has bytes in `n` from physical address `a`. -/
def StagingEntry.names (e : StagingEntry) (a n : Nat) : Bool := e.write.bytes.any fun b => a ≤ b.1 && b.1 < a + n

/-- What has been released to `n` bytes from `a` reaches memory now. -/
def State.drainRange (s : State) (a n : Nat) : State :=
  let due := s.forward.filter (·.names a n)
  let s' : State := { s with forward := s.forward.filter fun e => !e.names a n }
  due.foldl (fun (s : State) e => s.memPut e.write) s'

/-- What has been released to a page up to its cutover boundary performs in the old frame (R384). -/
def State.drainPage (s : State) (m : Migration) : State := s.drainRange m.old m.size

/-- The first step of a page's cutover boundary has come (R384, R386): from now on its translation is the new frame, and its window ends within 2400 ticks
of the signal. -/
def State.openWindows (s : State) : State :=
  let due (m : Migration) : Bool := m.state == 2 && m.ready ≤ s.gtick
  let opened := s.migrations.filter due
  let s := opened.foldl (fun (s : State) m => s.drainPage m) s
  let s' : State := { s with migrations := s.migrations.map fun (m : Migration) => if due m then { m with state := 1 } else m }
  opened.foldl (fun (s : State) m => (s.at_ (min m.limit (s.gtick + Config.serviceDelay s.free)) .migrationWindowEnd [m.old]).tickFree) s'

/-- The stores past the L1 that a party issued before its PHASE and that have not performed do so before its boundary releases (R133; log 53, DEDUCED). -/
def State.performStores (s : State) (t q : Nat) (h : Hold) : State :=
  let due := (s.seq t q).flights.filter fun f => ((f.heldStore h).map (·.2)).getD false
  due.foldl (fun (s : State) f =>
    let s := s.modSeq t q fun y => { y with flights := y.flights.erase f }
    match f.heldStore h with
    | some (w, nc) => s.wordStore t q w nc
    | none => s) s

/-- PHASE_RELEASE: at the first step of new phases the entries of their parties are released, in one order for all (R119, R132), then the
external writes of each context (R136); the parties go on. -/
def State.phaseRelease (s : State) : State :=
  let ends := s.holdsOver
  let phases := ends.filter fun e => e.2.2.phase
  let s := phases.foldl (fun (s : State) e => s.performStores e.1 e.2.1 e.2.2) s
  let scopeOf (p : Nat) : Option Nat := (phases.find? fun e => seqNumber e.1 e.2.1 == p).map fun e => e.2.2.scope
  let s := s.releaseWhere fun e => match scopeOf e.party with
    | some b => releases b e.write.scope
    | none => false
  let wide := phases.filter fun e => e.2.2.scope ≥ 4
  let s := wide.foldl (fun (s : State) e => s.releaseIngress (s.ctxOf e.1) ((s.seq e.1 e.2.1).signalTick e.2.2.g)) s
  let s := ends.foldl (fun (s : State) e => s.endHold e.1 e.2.1 e.2.2) s
  s.openWindows
def execPhaseRelease (s : State) : Host.Outcome State Fault Refusal := .next s.phaseRelease

end Sys2Proof.Machine
end

