-- ==== Sys2Proof/Machine/Power.lean ====
section
/-! DEFINITION. Tiller: the power states of a tile (R18, R19, R84). -/
namespace Sys2Proof.Machine

/-- Ticks of a wake (R18). -/
def wakeTicks : PowerState → Nat
  | .active => 0
  | .idle => 60
  | .retain => 9600
  | .off => 36000

/-- Ticks of an entry (R18). -/
def entryTicks : PowerState → Nat
  | .active => 0
  | .idle => 12
  | .retain => 2400
  | .off => 4800

/-- The state of a depth code (R36): 0 ACTIVE to 3 OFF. -/
def depthState (d : Nat) : PowerState :=
  if d = 0 then .active else if d = 1 then .idle else if d = 2 then .retain else .off
def PowerState.depth : PowerState → Nat
  | .active => 0
  | .idle => 1
  | .retain => 2
  | .off => 3

/-- A request of some context holds a pool frame in the tile's scratchpad (R84). -/
def State.holdsFrame (s : State) (t : Nat) : Bool :=
  s.ctxs.any fun c => c.2.winnow.reqs.any fun r => r.2.frames.any fun va =>
    match s.ctxAddr c.1 va with
    | .ok pa => match s.place pa with
      | .ok (.aperture owner _) => owner == t
      | _ => false
    | .error _ => false

/-- The deepest state the tile may enter: no deeper than RETAIN while it holds a saved context or a frame (R19). -/
def State.depthLimit (s : State) (t : Nat) : Nat := if (s.tile t).shadow.isSome || s.holdsFrame t then 2 else 3

/-- The deepest state up to `deepest` that an unused tile can enter and leave again within a span, if any is deeper than its own. -/
def State.gapDepth (s : State) (t span deepest : Nat) : Option Nat :=
  let x := s.tile t
  ([3, 2, 1] : List Nat).find? fun d =>
    x.power.depth < d && d ≤ deepest && d ≤ s.depthLimit t && entryTicks (depthState d) + wakeTicks (depthState d) ≤ span

/-- The tile begins to enter a state (R19). -/
def State.enter (s : State) (t d : Nat) : State :=
  s.modTile t fun x => { x with move := .entering (depthState d) (s.gtick + entryTicks (depthState d)) }

/-- Tiller's decision on an unused tile. -/
def State.gapEnter (s : State) (t span deepest : Nat) : State :=
  if (s.tile t).move ≠ .none then s
  else match s.gapDepth t span deepest with
  | some d => s.enter t d
  | none => s

/-- The state a tile has or is about to have. -/
def Tile.target (x : Tile) : PowerState :=
  match x.move with
  | .entering p _ => p
  | _ => x.power

/-- The earliest tick at which the tile can be ACTIVE (R19). -/
def Tile.readyTick (x : Tile) (tick : Nat) : Nat :=
  match x.move with
  | .none => tick + wakeTicks x.power
  | .entering p u => max tick u + wakeTicks p
  | .waking u => u

/-- A tile whose sequencers run nothing is emptied of what OFF loses. -/
def Tile.lose (x : Tile) : Tile :=
  { x with spad := [], marks := [], parity := [], parityDue := [], left := [], shadow := none, overlays := [],
           a := { x.a with l1 := [], tlb := [] }, b := { x.b with l1 := [], tlb := [] } }

/-- RUN while some tile is not OFF, else SLEEP (R335). -/
def State.refreshPower (s : State) : State :=
  if s.powerLost then s else { s with power := if s.tiles.any fun e => e.2.power != .off then .run else .sleep }

/-- TILE_ENTRY_COMPLETE on the tile of argument 0. -/
def State.entryComplete (s : State) (t : Nat) : State :=
  (s.modTile t fun x => match x.move with
    | .entering p _ =>
      let x := { x with power := p, move := .none }
      if p = .off then x.lose else x
    | _ => x).refreshPower
def execTileEntryComplete (s : State) : Host.Outcome State Fault Refusal := .next (s.entryComplete (s.arg 0))

/-- Tiller begins to wake a tile; an entry in progress completes first, and one that is due on this tick is complete (R19). -/
def State.wake (s : State) (t : Nat) : State :=
  let s := match (s.tile t).move with
    | .entering _ u => if u ≤ s.gtick then s.entryComplete t else s
    | _ => s
  let x := s.tile t
  match x.move with
  | .waking _ => s
  | .entering _ u => s.at_ (max u (s.gtick + 1)) .tileWake [t, 64]
  | .none => if x.power = .active then s
    else s.modTile t fun x => { x with move := .waking (s.gtick + wakeTicks x.power) }

/-- The tiles that a segment of a context declares: those of its tasks' ranks (R19). -/
def rankTile (tiles : List Nat) (rank : Nat) : Nat := tiles.getD (rank / 2) 0

/-- A saved image comes to a tile (R64, R65). Its shadow SRAM is to hold it, so the tile goes no deeper than RETAIN (R19): one that is entering OFF enters RETAIN
instead, and one that is OFF wakes (log 68, DEDUCED). -/
def Tile.holdImage (x : Tile) (h : Option Shadow) (tick : Nat) : Tile :=
  let x := { x with shadow := h }
  if h.isNone then x
  else match x.move with
  | .entering .off u => { x with move := .entering .retain u }
  | .none => if x.power = .off then { x with move := .waking (tick + wakeTicks .off) } else x
  | _ => x

/-- TILE_WAKE on the tile of argument 0, for the context of argument 1 (64: whatever the context): the wake begins unless another context, or none, holds the
tile by now, or the segment that the walk has chosen does not declare it. While no segment is chosen yet, a running one's successor may declare it, so it begins too (R19; log 62, DEDUCED: a wake
longer than the gap begins before the walk has chosen). -/
def State.tileWake (s : State) (t x : Nat) (declared : Nat → Nat → List Nat) : State :=
  if x < 64 then
    let c := s.ctx x
    if (s.tile t).ctx ≠ some x then s
    else match c.chosen with
    | some k => if (declared x k).contains t then s.wake t else s
    | none => s.wake t
  else s.wake t

/-- A transaction that the wake finds open is discarded; its record waits for its context's next LAUNCH on the tile (R294, R408,
R409). -/
def State.discardJournal (s : State) (t : Nat) : State :=
  let (s, r) := s.journalDiscard t
  match r with
  | none => s
  | some r => { s with log := (s.log ++ [r]).drop (s.log.length + 1 - 4096), discards := s.discards ++ [(t, r)] }

/-- TILE_WAKE_COMPLETE on the tile of argument 0: ACTIVE; from OFF with an empty L1 and TLB and undefined scratchpad content (R18). An image that has come
since the wake began stays, and the words that Winnow has written since then stand (R85; log 57, DEDUCED). -/
def State.wakeComplete (s : State) (t : Nat) : State :=
  let x := s.tile t
  match x.move with
  | .waking _ =>
    let off := x.power == .off
    let x := { x with power := .active, move := .none }
    let x := if off then { x.lose with undef := [(0, 0x200000)], wake := x.wake + 1, shadow := x.shadow : Tile }.takeHeld else x
    let s := (s.setTile t x).refreshPower
    if off then s.discardJournal t else s
  | _ => s
def execTileWakeComplete (s : State) : Host.Outcome State Fault Refusal := .next (s.wakeComplete (s.arg 0))

end Sys2Proof.Machine
end

