-- ==== Sys2Proof/Machine/Complete.lean ====
section
/-! DEFINITION. Queues of the host (R309 to R317): the QCB and its commit word, host memory, completion records, a thread's look for work, and
what blocks a queue. -/
namespace Sys2Proof.Machine

def State.queue (s : State) (q : Nat) : Queue := mget {} s.queues q
def State.setQueue (s : State) (q : Nat) (x : Queue) : State := { s with queues := mset {} s.queues q x }
def State.modQ (s : State) (q : Nat) (f : Queue → Queue) : State := s.setQueue q (f (s.queue q))

/-- CRC-32C of a byte string (R269, R309). -/
def crc32c (bs : List Byte) : Nat := Nat.xor (bs.foldl crcByte 0xFFFFFFFF) 0xFFFFFFFF

/-- Bytes 0x00 to 0x3B of the QCB (R309). -/
def Queue.toBytes (x : Queue) : List Byte :=
  leBytes 8 x.base ++ leBytes 4 x.size ++ leBytes 4 x.head ++ leBytes 4 x.tail ++ leBytes 1 x.class_ ++ leBytes 1 x.state ++
  leBytes 1 x.ctx ++ leBytes 1 (if x.irq then 1 else 0) ++ leBytes 8 x.ring ++ leBytes 4 x.completed ++ leBytes 2 x.vector ++
  leBytes 2 x.error ++ leBytes 20 0

/-- The commit word that the fields give. -/
def Queue.crc (x : Queue) : Nat := crc32c x.toBytes
/-- The device rewrites the commit word with its fields (R309). -/
def Queue.seal (x : Queue) : Queue := { x with commit := x.crc }

/-! Host memory (R107, R137). -/

/-- A bus address as a physical address. -/
def busAddr (a : Nat) : Nat := 0x8000000000000 + a % 0x8000000000000
def State.busBytes (s : State) (a n : Nat) : List Byte := s.physBytes (busAddr a) n
/-- Posted writes of the device, behind what has been released before (R126, R137; log 44, DEDUCED). -/
def State.busWrite (s : State) (a : Nat) (bs : List Byte) : State := s.releaseNow { bytes := cellsFrom (busAddr a) bs }

/-- A feature has been selected and locked (R307). -/
def DeviceRegs.feature (r : DeviceRegs) (k : Nat) : Bool := r.lock && r.sel0.getLsbD k

def State.tdi (s : State) (f : Nat) : Tdi := mget {} s.tdis f
/-- The interface of a context's function, VF x + 1, is in ERROR (R304, R330). -/
def State.tdiError (s : State) (x : Nat) : Bool := (s.tdi (x + 1)).st == .error

/-- Packets of the context's queues are consumed and completed (R396, R399). -/
def State.serves (s : State) (x : Nat) : Bool := !s.powerLost && !s.tdiError x

/-! Completion (R314). -/

/-- The condition on which a blocked queue waits (R313, R317). -/
def State.waitMet (s : State) (x : Queue) : Bool :=
  match x.wait with
  | some (0, _, v) => v ≤ s.gtick
  | some (1, q, v) => v ≤ (s.queue q).completed
  | some (2, c, v) => v ≤ (s.ctx c).winnow.iteration
  | some (_, _, _) => (x.open_.head?.map (·.2.1)) == some 7
  | none => false

/-- The operation that ends a block. -/
def Queue.wakeOp (x : Queue) : Instr × List Nat :=
  match x.wait with
  | some (3, _, _) => (.fencePacket, [1])
  | _ => (.waitConditionMet, [])

/-- The block of a mapped queue ends if its condition holds. -/
def State.wakeWait (s : State) (q : Nat) : State :=
  let x := s.queue q
  if x.mapped && s.waitMet x then s.thread q x.wakeOp.1 x.wakeOp.2 else s
def State.wakeWaits (s : State) : State := s.queues.foldl (fun (s : State) e => s.wakeWait e.1) s

/-- A completion record goes to the host, then the completed field, then the interrupt. -/
def State.postRecord (s : State) (q : Nat) (bs : List Byte) : State :=
  let x := s.queue q
  let s := s.busWrite (x.ring + 16 * (x.completed % x.size)) bs
  let n := if x.irq && s.regs.feature 6 then x.interrupts + 1 else x.interrupts
  s.setQueue q { x with completed := (x.completed + 1) % 2 ^ 32, interrupts := n }.seal

/-- The shadow image of a QCB (R391). -/
def Queue.commitImage (x : Queue) (record : List Byte) : QcbShadow :=
  { base := x.base, size := x.size, head := x.head, tail := x.tail, class_ := x.class_, state := x.state, ctx := x.ctx, irq := x.irq, ring := x.ring,
    completed := x.completed, vector := x.vector, error := x.error, record := record }

/-- The commit point of a completion, the shadow image first (R391): then the record of the packet. -/
def State.completion (s : State) (q tag op status : Nat) (silent : Bool) : State :=
  let x := s.queue q
  if silent then s
  else
    let record := leBytes 4 tag ++ leBytes 2 status ++ leBytes 1 op ++ leBytes 1 0 ++ leBytes 8 s.gtick
    let image := { x with completed := (x.completed + 1) % 2 ^ 32 }.commitImage record
    (s.setQueue q { x with shadow := image }).postRecord q record

/-- A consumed packet completes: its entry leaves the list of open ones. While its function is in ERROR the completion is kept pending (R396); without
supply it is never made (R399). Of open packets with one tag and opcode it is one with the NOCMPL flag that `silent` names. -/
def State.finishPacket (s : State) (q tag op status : Nat) (silent : Option Bool := none) : State :=
  let x := s.queue q
  if s.powerLost then s
  else if s.tdiError x.ctx then s.setQueue q { x with owed := x.owed ++ [(tag, op, status, silent)] }
  else match x.open_.find? fun e => e.1 == tag && e.2.1 == op && silent.all (· == e.2.2) with
  | none => s
  | some e =>
    ((s.modQ q fun x => { x with open_ := x.open_.erase e }).completion q tag op status e.2.2).wakeWaits

/-- A LAUNCH of the context has not completed: it runs, or its completion is still to be made (R313, R391). -/
def State.launchOpen (s : State) (x : Nat) : Bool :=
  (s.ctx x).launch.isSome || s.queues.any fun e => e.2.ctx == x && e.2.open_.any fun p => p.2.1 == 3

/-! Boot steps that failed (R333). -/

def bootMandatory (k : Nat) : Bool := !(k == 5 || k == 7 || k == 8)
def State.bootEntry (s : State) (k : Nat) : BootEntry := mget {} s.boot k

/-- Three boots in a row failed at the mandatory step that BOOTSTEP holds: the device presents PF0 alone. -/
def State.pf0Alone (s : State) : Bool :=
  let k := s.regs.bootstep
  bootMandatory k && (s.bootEntry k).outcome == 3 && decide (3 ≤ (s.bootEntry k).attempts)

/-- A function reaches a queue's locations (R305): PF0 all, VF k + 1 those of context k. It counts as the function that the queue's context is assigned to where it
enables the queue, PF0 too (R310; log 91, DESIGN CHOICE). -/
def Queue.reached (x : Queue) (f : Nat) : Bool := f == 0 || x.ctx + 1 == f
/-- The function exists, and reaches the queue's locations. -/
def State.reaches (s : State) (f : Nat) (x : Queue) : Bool := x.reached f && (f == 0 || !s.pf0Alone)

/-! Work (R316). -/

/-- The queue has work for a thread. -/
def Queue.hasWork (x : Queue) : Bool :=
  x.state == 1 && (x.head != x.tailReg || x.lane.isSome || x.wait.isSome)

/-- It waits for a thread. -/
def State.wantsThread (s : State) (x : Queue) : Bool := x.hasWork && !x.mapped && s.serves x.ctx

def Queue.unmap (x : Queue) : Queue := { x with mapped := false, blockedAt := none, served := 0 }

/-- ERROR (R310): the queue consumes nothing more. -/
def State.queueError (s : State) (q code : Nat) : State :=
  s.modQ q fun x => { x.unmap with state := 2, error := code, wait := none, busy := false }.seal

/-- A packet that cannot be consumed yet stays at the head and blocks the queue, for 1 ms at most (R313, R317). -/
def State.blockQueue (s : State) (q : Nat) : State :=
  let x := s.queue q
  if x.blockedAt.isSome then s.setQueue q { x with busy := false }
  else (s.setQueue q { x with blockedAt := some s.gtick, busy := false }).after 1200000 .waitUnmapTimeout [q]

/-! Packets (R312, R313). -/

def packetOp (p : List Byte) : Nat := field p 0 1
def packetTag (p : List Byte) : Nat := field p 4 4
def packetSilent (p : List Byte) : Bool := nbit (field p 1 1) 0
/-- Bytes that a packet leaves reserved are zero. -/
def zeroFrom (p : List Byte) (rs : List (Nat × Nat)) : Bool := rs.all fun r => field p r.1 r.2 == 0

/-- Entries of the request table of a queue's context. -/
def State.tableEntries (s : State) (x : Nat) : Nat := if x < 64 && (s.ctx x).created then (s.ctx x).winnow.entries else 0

/-- The payload of a packet is as R313 gives it. -/
def State.packetOk (s : State) (x : Queue) (p : List Byte) (host : Bool) : Bool :=
  let fl := field p 1 1
  let flags := fl < 4 && (fl < 2 || packetOp p == 1) && (!host || field p 2 2 == 0)
  flags && (match packetOp p with
    | 1 => field p 0x10 4 < s.tableEntries x.ctx && zeroFrom p [(0x14, 4), (0x20, 32)]
    | 2 => field p 0x10 4 < s.tableEntries x.ctx && zeroFrom p [(0x14, 44)]
    | 3 => zeroFrom p [(0x18, 40)]
    | 4 => field p 0x10 1 ≤ 2 && zeroFrom p [(0x11, 3), (0x20, 32)] &&
        (field p 0x10 1 != 1 || field p 0x14 4 < 65536) && (field p 0x10 1 != 2 || field p 0x14 4 < 64)
    | 5 => field p 0x2C 2 < 4096 && field p 0x2E 1 ≤ 1 && field p 0x28 4 < 65536 && zeroFrom p [(0x2F, 17)]
    | 6 =>
      let len := field p 0x1C 4
      let off := field p 0x20 4
      field p 0x18 2 < 384 && 64 ≤ len && len ≤ 65536 && len % 64 == 0 && off % 64 == 0 && off + len ≤ 0x1000000 &&
        zeroFrom p [(0x1A, 2), (0x24, 28)]
    | 7 => zeroFrom p [(0x10, 48)]
    | _ => false)

/-- The operation of a packet. -/
def packetInstr (p : List Byte) : Instr :=
  match packetOp p with
  | 1 => .submit
  | 2 => .cancel
  | 3 => .launch
  | 4 => .wait
  | 5 => if field p 0x2E 1 = 1 then .timerDisarm else .armTimer
  | 6 => .weightWrite
  | _ => .fencePacket

/-- Features that a packet needs (R307): ARM_TIMER the wheel, WEIGHT_WRITE its own, work of class LEARNING that class, requests and launches of a
context with a spill area that area. -/
def State.featuresOk (s : State) (x : Queue) (p : List Byte) : Bool :=
  let need (k : Nat) (b : Bool) : Bool := !b || s.regs.feature k
  need 3 (packetOp p == 5) && need 4 (packetOp p == 6) && need 7 (x.class_ == 2) &&
    need 5 ((packetOp p == 1 || packetOp p == 3) && (s.ctx x.ctx).winnow.spillCount != 0)

/-- The packet at the head of a queue's host entries. -/
def State.headPacket (s : State) (x : Queue) : List Byte := s.busBytes (x.base + 64 * (x.head % x.size)) 64

/-- The thread takes a packet in hand, 0 for a host packet, 2 for the timer lane's; a malformed one stops the queue (R313). -/
def State.inHand (s : State) (q from_ : Nat) (p : List Byte) : State :=
  let x := s.queue q
  if s.packetOk x p (from_ == 0) then (s.setQueue q { x with busy := true }).thread q (packetInstr p) [from_] p
  else s.queueError q 0x0903

/-- A thread looks for work (R311, R316, R322, R336): a block first, then the tail register as it stands, whose overrun stops the queue with its lane kept; the
timer lane before host packets. -/
def State.look_ (s : State) (q : Nat) : State :=
  let x := s.queue q
  if x.state ≠ 1 || !s.serves x.ctx then s.setQueue q x.unmap
  else if x.busy || x.retry then s
  else if x.wait.isSome then (s.blockQueue q).wakeWait q
  else if x.size < (x.tailReg + 2 ^ 32 - x.head) % 2 ^ 32 then s.queueError q 0x0901
  else match x.lane with
  | some p => s.inHand q 2 p
  | none =>
    let y := if x.tail = x.tailReg then x else { x with tail := x.tailReg }.seal
    if x.head = x.tailReg then s.setQueue q y.unmap
    else (s.setQueue q y).inHand q 0 (s.headPacket x)

/-- A packet is consumed, at its commit point: the lane is emptied, or the head advances, in the shadow image and then in the QCB (R309, R322, R391). -/
def State.takePacket (s : State) (q from_ : Nat) : State :=
  s.modQ q fun x =>
    let x := { x with busy := false, blockedAt := none, served := x.served + 1 }
    let y := if from_ = 2 then { x with lane := none } else { x with head := (x.head + 1) % 2 ^ 32 }.seal
    { y with shadow := y.commitImage x.shadow.record }

/-- The thread goes on: after 64 packets it gives way to a waiting queue (R316); a queue that the host disables stops here (R310). -/
def State.goOn (s : State) (q : Nat) : State :=
  let x := s.queue q
  if x.stopping then s.setQueue q { x.unmap with state := 0, stopping := false }.seal
  else if 64 ≤ x.served && s.queues.any fun e => s.wantsThread e.2 then s.setQueue q x.unmap
  else s.look_ q

/-- A consumed packet that completes at once. -/
def State.answer (s : State) (q : Nat) (p : List Byte) (status : Nat) : State :=
  ((s.completion q (packetTag p) (packetOp p) status (packetSilent p)).wakeWaits).goOn q

/-- A consumed packet that completes later. -/
def State.opened (s : State) (q : Nat) (p : List Byte) : State :=
  s.modQ q fun x => { x with open_ := x.open_ ++ [(packetTag p, packetOp p, packetSilent p)] }

/-- A queue's thread may carry out what it has in hand. -/
def State.inService (s : State) (q : Nat) : Bool :=
  let x := s.queue q
  x.state == 1 && x.mapped && s.serves x.ctx

end Sys2Proof.Machine
end

