-- ==== Sys2Proof/Machine/Requests.lean ====
section
/-! DEFINITION. Request records (R67 to R72): their bytes in memory, their frames, a request's end, SUBMIT and CANCEL as they act on
Winnow (R70, R74, R79). -/
namespace Sys2Proof.Machine

/-! Memory of a context as Winnow and the Granary write it. -/

/-- Bytes at a physical address, a tile's scratchpad included. -/
def State.devBytes (s : State) (pa n : Nat) : List Byte :=
  match s.place pa with
  | .ok (.aperture t off) => (s.tile t).spadBytes off n
  | _ => s.physBytes pa n

/-- A write of the device at physical addresses: into a scratchpad through its inbound port; into staged memory as an entry that is released at once, behind
what has been released before (R87, R126; log 44, DEDUCED). -/
def State.devWrite (s : State) (w : GlobalWrite) : State :=
  match s.place ((w.bytes.head?.map (·.1)).getD 0) with
  | .ok (.aperture t _) =>
    let base := 0x10000000000 + t * 0x200000
    let e : Inbound := { due := s.gtick, issuer := winnowIssuer, multicast := false,
                         write := { bytes := w.bytes.map fun b => (b.1 - base, b.2), poison := w.poison } }
    s.modTile t fun x => { x with inbound := x.inbound ++ [e] }
  | _ => s.releaseNow w

/-- Write bytes in a context's address space; bytes whose page does not translate are dropped. -/
def State.ctxPut (s : State) (x va : Nat) (bs : List Byte) : State :=
  let cells := bs.zipIdx.filterMap fun b => match s.ctxAddr x (va + b.2) with
    | .ok pa => some (pa, b.1)
    | .error _ => none
  if cells.isEmpty then s else s.devWrite { bytes := cells }

/-! Winnow's records. -/

def State.winnow (s : State) (x : Nat) : Winnow := (s.ctx x).winnow
def State.modWinnow (s : State) (x : Nat) (f : Winnow → Winnow) : State := s.modCtx x fun c => { c with winnow := f c.winnow }
def Winnow.req (w : Winnow) (k : Nat) : Request := mget {} w.reqs k
def Winnow.setReq (w : Winnow) (k : Nat) (r : Request) : Winnow := { w with reqs := mset {} w.reqs k r }
def Winnow.recordAt (w : Winnow) (k : Nat) : Nat := w.table + 128 * k

/-- Queued or evicted; in a slot; final (R74). -/
def Request.queued (r : Request) : Bool := r.state == 1 || r.state == 5
def Request.active (r : Request) : Bool := r.state == 2 || r.state == 3
def Request.final (r : Request) : Bool := r.state == 4 || 6 ≤ r.state

/-- The prefill target (R74). -/
def Request.target (r : Request) : Nat := if r.generated > 0 then r.prompt - 1 + r.generated else r.prompt
/-- SPEC (R68). -/
def Request.spec (r : Request) : Bool := nbit r.flags 1
/-- SPILLED (R68). -/
def Request.spilled (r : Request) : Bool := nbit r.flags 12

/-- The flags field with its device half anew: END, LATE, SPILLED. -/
def Request.withFlags (r : Request) (end_ : Nat) (late spilled : Bool) : Request :=
  { r with flags := r.flags % 256 + 256 * end_ + (if late then 2048 else 0) + (if spilled then 4096 else 0) }
def Request.late (r : Request) : Bool := nbit r.flags 11
def Request.endCode (r : Request) : Nat := nbits r.flags 8 3

/-- The 128 bytes of a record as a request (R67). -/
def parseRequest (b : List Byte) : Request :=
  { state := field b 4 1, class_ := field b 5 1, id := field b 8 8, position := field b 0x10 4, prompt := field b 0x14 4,
    maxNew := field b 0x18 4, generated := field b 0x1C 4, deadline := field b 0x20 8, priority := field b 0x28 2,
    flags := field b 0x2E 1, pageList := field b 0x30 8, pages := field b 0x38 4, capacity := field b 0x3C 4,
    stops := (List.range (min 6 (field b 0x58 1))).map fun i => field b (0x40 + 4 * i) 4, mode := field b 0x59 1, topK := field b 0x5A 2,
    topP := field b 0x5C 4, temperature := field b 0x60 4, width := field b 0x64 2, depth := field b 0x66 2, seed := field b 0x68 8,
    draw := field b 0x70 8, ring := field b 0x78 8 }

/-- A FREE record is valid (R67, R68, R70). -/
def Request.valid (r : Request) (stopCount maxPos maxDraft : Nat) : Bool :=
  r.class_ ≤ 3 && 1 ≤ r.prompt && r.prompt ≤ maxPos && 1 ≤ r.maxNew && r.maxNew ≤ 2 ^ 31 && r.flags / 4 == 0 && r.pageList % 8 == 0 &&
  1 ≤ r.capacity && r.capacity ≤ 2 ^ 24 && stopCount ≤ 6 && r.mode ≤ 4 &&
  (!(r.mode == 2 || r.mode == 4) || (1 ≤ r.topK && r.topK ≤ 256)) &&
  (!(r.mode == 3 || r.mode == 4) || (0 < r.topP && r.topP ≤ 0x3F800000)) &&
  (r.mode == 0 || (0 < r.temperature && r.temperature < 0x7F800000)) &&
  r.width ≤ maxDraft && (if r.spec then 1 ≤ r.depth && r.depth ≤ r.width else r.depth == 0) && r.ring % 64 == 0 &&
  r.generated < r.maxNew && r.prompt + r.generated ≤ maxPos && r.draw == r.generated && r.spec == decide (1 ≤ r.width)

/-- The device fields of a record, with the offset of each, the state byte last (R69, R87). -/
def Request.deviceFields (r : Request) : List (Nat × List Byte) :=
  [(0x06, leBytes 2 r.slot), (0x10, leBytes 4 r.position), (0x1C, leBytes 4 r.generated), (0x2A, leBytes 2 r.rank ++ leBytes 2 r.fault),
   (0x2F, leBytes 1 (r.flags / 256)), (0x38, leBytes 4 r.pages), (0x70, leBytes 8 r.draw), (0x04, leBytes 1 r.state)]
def State.writeRecord (s : State) (x k : Nat) : State :=
  let w := s.winnow x
  (w.req k).deviceFields.foldl (fun (s : State) e => s.ctxPut x (w.recordAt k + e.1) e.2) s

/-- The ring's new tokens, then its count and completion word (R71, R87). -/
def State.writeRing (s : State) (x k : Nat) : State :=
  let r := (s.winnow x).req k
  let s := r.tokens.foldl (fun (s : State) e => s.ctxPut x (r.ring + 0x40 + 4 * e.1) (leBytes 4 e.2)) s
  let word := if r.final then r.state + 256 * r.endCode + 65536 * r.fault else 0
  (s.ctxPut x r.ring (leBytes 4 (r.prompt + r.generated))).ctxPut x (r.ring + 8) (leBytes 4 word)

/-! Frames (R82, R83). -/

/-- Frames of a list's order that are free after some more are freed. -/
def Winnow.freed (w : Winnow) (fs : List Nat) : Winnow :=
  { w with freePool := w.pool.filter fun f => w.freePool.contains f || fs.contains f,
           freeSpill := w.spills.filter fun f => w.freeSpill.contains f || fs.contains f }

/-- A request gives back all its frames, those still being copied too. -/
def Winnow.release (w : Winnow) (k : Nat) : Winnow :=
  let r := w.req k
  let w := w.freed (r.frames ++ r.spilling.map (·.1))
  { w.setReq k { r with frames := [], spilling := [] } with spillQueue := w.spillQueue.filter (· != k) }

/-- A request becomes final (R74, R80): its slot and frames are free; of its page list nothing is rewritten. -/
def Winnow.finish (w : Winnow) (k state end_ code : Nat) : Winnow :=
  let w := w.release k
  let r := (w.req k).withFlags end_ (w.req k).late false
  w.setReq k { r with state := state, slot := 0xFFFF, rank := 0xFFFF, fault := code, pages := 0, kind := 0, rows := 0, changed := true }

/-- Every request that is not final becomes INTERRUPTED with END 6, with the values of the last publish (R94). -/
def State.interruptAll (s : State) (x : Nat) : State :=
  let w := s.winnow x
  let ks := (w.reqs.filter fun e => e.2.queued || e.2.active).map (·.1)
  let w := ks.foldl (fun (w : Winnow) k => w.finish k 8 6 0) w
  let w : Winnow := { w with commits := [], faults := [], cancels := [], slots := [] }
  let s := s.modWinnow x fun _ => w
  let s := ks.foldl (fun (s : State) k => s.writeRing x k) s
  let s := ks.foldl (fun (s : State) k => s.writeRecord x k) s
  s.modWinnow x fun w => ks.foldl (fun (w : Winnow) k => w.setReq k { w.req k with changed := false, tokens := [] }) w

/-- A level-0 record for a request (R341, R380). -/
def State.requestRecord (s : State) (x k : Nat) (f : SlotFault) : State :=
  s.record x { info := { f.info with rindex := k, aux1 := f.more }, level := 0, tick := f.tick, tile := f.tile, seq := f.seq }

/-- A fault that Winnow itself finds. -/
def State.winnowFault (s : State) (x k code : Nat) : State :=
  s.requestRecord x k { slot := 0, info := { code := code, unit := 9 }, tick := s.gtick, tile := 0xFFFF, seq := 0xFF }

/-! SUBMIT and CANCEL (R70, R79, R313). -/

/-- The deadline of STAMPDL, written under the seq rule. -/
def State.stampDeadline (s : State) (x k seq deadline : Nat) : State :=
  let a := (s.winnow x).recordAt k
  ((s.ctxPut x a (leBytes 4 (seq + 1))).ctxPut x (a + 0x20) (leBytes 8 deadline)).ctxPut x a (leBytes 4 (seq + 2))

/-- A FREE record read stably becomes QUEUED, with its ring's count and a completion word of 0 (R71), or FAULTED with 0x0803. Its work takes the class of the
queue that its packet came by (R308), whatever class its record names (log 56, DEDUCED). -/
def State.admitRecord (s : State) (x k class_ : Nat) (b : List Byte) : State :=
  let c := s.ctx x
  let r0 := parseRequest b
  let r : Request := { r0 with position := 0, pages := 0, arrival := s.gtick, class_ := class_ }
  if r0.valid (field b 0x58 1) c.maxPos c.maxDraft then
    ((s.modWinnow x fun w => w.setReq k { r with state := 1 }).writeRing x k).writeRecord x k
  else
    let bad := (r.withFlags 5 false false)
    let s := s.modWinnow x fun w => w.setReq k { bad with position := r0.position, pages := r0.pages, state := 6, fault := 0x0803 }
    ((s.writeRing x k).writeRecord x k).winnowFault x k 0x0803

/-- A SUBMIT of record `k` is tried: `none` for an unstable read, else the state and the completion status. That status is 0 for a FREE record that is not
valid, too: R70 gives the record's outcome, and R315 no code for the packet (log 63, DESIGN CHOICE). -/
def State.trySubmit (s : State) (x k class_ : Nat) (stamp : Option Nat) : Option (State × Nat) :=
  let a := (s.winnow x).recordAt k
  let seq := field (s.ctxBytes x a 128) 0 4
  if seq % 2 = 1 then none
  else
    let s := match stamp with
      | some d => s.stampDeadline x k seq d
      | none => s
    let b := s.ctxBytes x a 128
    if field b 4 1 ≠ 0 then some (s, 0x0905) else some (s.admitRecord x k class_ b, 0)

end Sys2Proof.Machine
end

