-- ==== Sys2Proof/Machine/Records.lean ====
section
/-! DEFINITION. External writes (R136, R137, R387, R403) and fault rings (R342, R409). -/
namespace Sys2Proof.Machine

/-! External writes. -/

/-- The agents of the device's own external writes: the Granary, and the two Ethernet ports (R325, R342). Numbers from 0x1000 on are engines of peer packages
(log 46, DESIGN CHOICE). -/
def granaryAgent : Nat := 0x100
def portAgent (port : Nat) : Nat := 0x101 + port
def peerAgent : Nat := 0x1000

/-- An external write reaches the ingress staging (R136, R403). -/
def State.ingressWrite (s : State) (x g pa : Nat) (bs : List Byte) : State :=
  if bs.isEmpty then s else s.arrive { ctx := x, agent := g, arrived := s.gtick, write := { bytes := cellsFrom pa bs } }

/-- An external write of agent `g` for context `x` at a physical address: into LPDDR-6 by way of the ingress staging; into a scratchpad only for an engine
of a peer, whose beat is a timed write at its tile's inbound port (R101, R136). Anything else is dropped. -/
def State.stageExternal (s : State) (x g pa : Nat) (bs : List Byte) : State :=
  if s.powerLost || bs.isEmpty then s
  else match s.place pa with
  | .ok .lpddr => s.ingressWrite x g pa bs
  | .ok (.aperture t off) => if peerAgent ≤ g then s.apertureArrival g t s.gtick (cellsFrom off bs) none else s
  | _ => s

/-- A write that a peer released at one of its F boundaries is released here at once, behind what has been released before (R137). -/
def State.peerRelease (s : State) (pa : Nat) (bs : List Byte) : State :=
  if s.powerLost || bs.isEmpty then s
  else match s.place pa with
  | .ok .lpddr => s.releaseNow { bytes := cellsFrom pa bs }
  | _ => s

/-- EXTERNAL_WRITE for the context of argument 0 by the agent of argument 1 at the physical address of argument 2, with its bytes; argument 3 is 1 where a peer
released it at scope F. -/
def execExternalWrite (s : State) : Host.Outcome State Fault Refusal :=
  .next (if s.arg 3 = 1 then s.peerRelease (s.arg 2) s.cur.bytes else s.stageExternal (s.arg 0) (s.arg 1) (s.arg 2) s.cur.bytes)

/-- A write of the Granary into a context's ring page: external where the page lies in LPDDR-6, posted to the host in host memory, behind what has been released to it before (R137, R342). The loss of
supply does not keep it from arriving (R399). -/
def State.granaryWrite (s : State) (x pa : Nat) (bs : List Byte) : State :=
  match s.place pa with
  | .ok .host => s.releaseNow { bytes := cellsFrom pa bs }
  | .ok .lpddr => s.ingressWrite x granaryAgent pa bs
  | _ => s

/-! Fault rings (R342). -/

/-- The virtual address of every context's fault ring. -/
def faultRing : Nat := 0x01FFFFFFFFFF0000

/-- The Granary writes to a context's fault ring at an offset. -/
def State.ringPut (s : State) (x off : Nat) (bs : List Byte) : State :=
  match s.ctxAddr x (faultRing + off) with
  | .ok pa => s.granaryWrite x pa bs
  | .error _ => s

/-- The pages of the ring that record `i` and the header lie in are mapped to LPDDR-6 or host memory. -/
def State.ringReady (s : State) (x i : Nat) : Bool :=
  ([0, 0x40 + 64 * (i % 1023)] : List Nat).all fun off =>
    match s.ctxAddr x (faultRing + off) with
    | .ok pa => match s.place pa with
      | .ok .lpddr => true
      | .ok .host => true
      | _ => false
    | .error _ => false

/-- The ring's lost word follows the count of records lost, the ring full or too many waiting (R342). -/
def State.putLost (s : State) (x : Nat) : State :=
  let c := s.ctx x
  if c.lostFlag then s.ringPut x 8 (leBytes 4 c.ringLost) else s

/-- The write index of a context's fault ring as memory holds it (R409). -/
def State.ringIndex (s : State) (x : Nat) : Nat := leNat (s.ctxBytes x faultRing 4)

/-- The Granary takes the write index as it stands in memory when it first needs it and the ring is mapped (R409). -/
def State.takeIndex (s : State) (x : Nat) : State :=
  if (s.ctx x).ringKnown || !s.ringReady x (s.ringIndex x) then s
  else s.modCtx x fun c => { c with ringNext := s.ringIndex x, ringKnown := true }

/-- The first waiting record enters the ring, or is counted as lost where the ring is full; the rest keep their order. -/
def State.writeFaultRecord (s0 : State) (x : Nat) : State :=
  let s := s0.takeIndex x
  let c := s.ctx x
  match c.records with
  | [] => s
  | r :: rest =>
    let i := c.ringNext
    if !c.ringKnown || !s.ringReady x i then s
    else
      let read := leNat (s.ctxBytes x (faultRing + 4) 4)
      if (i + 2 ^ 32 - read) % 2 ^ 32 < 1023 then
        let s := (s.putLost x).modCtx x fun c => { c with records := rest, ringNext := (i + 1) % 2 ^ 32, lostFlag := false }
        (s.ringPut x (0x40 + 64 * (i % 1023)) { r with ring := i, lost := c.lostFlag }.toBytes).ringPut x 0 (leBytes 4 ((i + 1) % 2 ^ 32))
      else
        (s.setCtx x { c with records := rest, ringLost := (c.ringLost + 1) % 2 ^ 32, lostFlag := true }).putLost x

/-- Of the records that cannot be written the Granary holds 64; those beyond are counted as lost (R342). -/
def Ctx.holdRecords (c : Ctx) : Ctx :=
  if c.records.length ≤ 64 then c
  else { c with records := c.records.take 64, ringLost := (c.ringLost + (c.records.length - 64)) % 2 ^ 32, lostFlag := true }

/-- FAULT_RECORD_WRITE for context `x`: a record that cannot be written waits and is tried again. -/
def State.recordWrite (s0 : State) (x : Nat) : State :=
  let s := s0.takeIndex x
  let c := s.ctx x
  if c.records.isEmpty || s.power = .parked || s.power = .unpowered then s
  else if c.ringKnown && s.ringReady x c.ringNext then s.writeFaultRecord x
  else ((s.modCtx x Ctx.holdRecords).after (1 + Config.serviceDelay s.free) .faultRecordWrite [x]).tickFree
def execFaultRecordWrite (s : State) : Host.Outcome State Fault Refusal := .next (s.recordWrite (s.arg 0))

/-- Records of journal discards at a wake go to the first LAUNCH on the tile, into its ring before its first task starts: they are older than what still
waits, and are written at once where the ring can take them (R342, R409). -/
def State.discardRecords (s : State) (x : Nat) : State :=
  let ts := (s.ctx x).tiles
  let mine := (s.discards.filter fun e => ts.contains e.1).map (·.2)
  let s' : State := { s with discards := s.discards.filter fun e => !ts.contains e.1 }
  let s := s'.modCtx x fun c => { c with records := mine ++ c.records }
  mine.foldl (fun (s : State) _ => (s.writeFaultRecord x).after 0 .faultRecordWrite [x]) s

end Sys2Proof.Machine
end

