-- ==== Sys2Proof/Machine/Timetable.lean ====
section
/-! DEFINITION. Timetables (R25 to R48): the image, trims and formulas, the walk of the graph, task starts, segment ends, Tiller's decisions
at both, and the end of a LAUNCH. -/
namespace Sys2Proof.Machine

/-! The image (R31, R40, R43). -/

/-- A little-endian field of a context's image. -/
def State.imgField (s : State) (x base off n : Nat) : Nat := leNat (s.ctxBytes x (base + off) n)

/-- The image of a context's LAUNCH: its address. -/
def Ctx.image (c : Ctx) : Nat := (c.launch.map (·.image)).getD 0

/-- A field of entry `k` of a table of the image: the table's header offset, the entry size, and the field's offset and width. -/
def State.entry (s : State) (x hdr size k off n : Nat) : Nat :=
  let b := (s.ctx x).image
  s.imgField x b (s.imgField x b hdr 4 + size * k + off) n

def State.nodeField (s : State) (x k off n : Nat) : Nat := s.entry x 0x10 16 k off n
def State.segField (s : State) (x k off n : Nat) : Nat := s.entry x 0x14 32 k off n
def State.taskField (s : State) (x k off n : Nat) : Nat := s.entry x 0x18 32 k off n
def State.formField (s : State) (x k off n : Nat) : Nat := s.entry x 0x1C 80 k off n
def State.ruleField (s : State) (x k off n : Nat) : Nat := s.entry x 0x20 16 k off n
def State.boundField (s : State) (x k off n : Nat) : Nat := s.entry x 0x24 16 k off n

/-- Task `i` of segment `k` as a task table index, and the segment's tasks. -/
def State.taskIndex (s : State) (x k i : Nat) : Nat := s.segField x k 0 4 + i
def State.segTasks (s : State) (x k : Nat) : List Nat := List.range (s.segField x k 4 2)

/-! Trims and formulas (R43 to R47). -/

/-- The quantities of the batch (R44), and at the maximum shape (R45). -/
def Winnow.quantity (w : Winnow) (q : Nat) : Nat := [w.q0, w.q1, w.q2, w.q3, w.q4].getD q 0
def Launch.quantity (l : Launch) (q : Nat) : Nat :=
  [min l.slots l.rows, l.rows, l.position, l.rows, min l.draft (l.rows - 1)].getD q 0

/-- ceil((Q × a + b) / d), at least 0 and at most `top`. -/
def countValue (q a : Nat) (b : Int) (d top : Nat) : Nat :=
  (clampI (-((-((q * a : Nat) + b)) / (d : Int))) 0 top).toNat

/-- A COUNT rule's value (R45). -/
def State.countRule (s : State) (x k : Nat) : Nat :=
  let f := s.ruleField x k
  let b := signExt (f 0x0C 4) 32
  let most := ((s.ctx x).launch.map fun l => countValue (l.quantity (f 1 1)) (f 8 4) b (f 6 2) (2 ^ 32 - 1)).getD 0
  countValue ((s.winnow x).quantity (f 1 1)) (f 8 4) b (f 6 2) most

/-- "Q op c" of a SKIP or COND rule (R46). -/
def State.ruleHolds (s : State) (x k : Nat) : Bool :=
  let f := s.ruleField x k
  let q := (s.winnow x).quantity (f 1 1)
  let c := f 0x0C 4
  match f 3 1 with
  | 0 => q < c
  | 1 => q ≤ c
  | 2 => q == c
  | 3 => q != c
  | 4 => c ≤ q
  | _ => c < q

/-- LC `j` of a task (R45): 0 without a rule. The rules are those that the task's entry lists, and the first for the target counts: a rule's own task field
is not read again, and what two rules for one target mean the spec does not say (log 55, DESIGN CHOICE). -/
def State.loopCountOf (s : State) (x task j : Nat) : Nat :=
  let f := s.taskField x task
  match (List.range (f 0x10 1)).find? fun i => s.ruleField x (f 0x14 4 + i) 2 1 == j with
  | some i => s.countRule x (f 0x14 4 + i)
  | none => 0

/-- SKIPM of a task (R46). Of two rules for one bit either sets it (log 55, DESIGN CHOICE). -/
def State.skipMask (s : State) (x task : Nat) : BitVec 32 :=
  let f := s.taskField x task
  (List.range (f 0x11 1)).foldl (fun (m : BitVec 32) i =>
    let k := f 0x14 4 + f 0x10 1 + i
    if s.ruleHolds x k then m ||| (1#32 <<< s.ruleField x k 2 1) else m) 0

/-- A formula of segment `k` (R47). -/
def State.formula (s : State) (x k n : Nat) : Nat :=
  let f := s.formField x n
  (List.range (f 4 1)).foldl (fun v j =>
    v + f (0x10 + 8 * j) 4 * s.loopCountOf x (s.taskIndex x k (f (0x14 + 8 * j) 2)) (f (0x16 + 8 * j) 1)) (f 0 4)

/-- The boundaries of a task that no SKIP of its mask drops (R40, R276). -/
def State.taskBoundaries (s : State) (x k task : Nat) (mask : BitVec 32) : List Boundary :=
  let f := s.taskField x task
  (List.range (f 0x12 2)).filterMap fun i =>
    let g := s.boundField x (f 0x18 4 + i)
    if g 2 1 ≠ 0 && mask.getLsbD (g 2 1 - 1) then none
    else some { kind := g 0 1, scope := g 1 1, e := s.formula x k (g 4 4), g := s.formula x k (g 8 4) }

/-- Digit `j` of a rank (R38). -/
def Launch.digit (l : Launch) (rank j : Nat) : Nat :=
  let counts := l.levels.map fun v => v / 2 ^ 32
  if j < counts.length then rank / (counts.drop (j + 1)).foldl (· * ·) 1 % counts.getD j 1 else 0

/-- The tiles that a segment declares: those of its tasks' ranks (R19). -/
def State.declared (s : State) (x k : Nat) : List Nat :=
  ((s.segTasks x k).map fun i => rankTile (s.ctx x).tiles (s.taskField x (s.taskIndex x k i) 0 2 )).dedup

/-! Tiller (R19). -/

/-- Wakes of the sleeping tiles of a partition, for a segment that starts at `tick`. -/
def State.wakeFor (s : State) (x tick : Nat) (ts : List Nat) : State :=
  ts.foldl (fun (s : State) t =>
    let p := (s.tile t).target
    if p = .active then s else s.at_ (max s.gtick (tick - wakeTicks p)) .tileWake [t, x]) s

/-- The deepest state the launch and the segment's hints allow a tile (R295). -/
def Ctx.deepest (c : Ctx) (t : Nat) : Nat := min ((c.launch.map (·.deepest)).getD 0) ((c.hints.lookup t).getD 3)

def execTileWake (s : State) : Host.Outcome State Fault Refusal := .next (s.tileWake (s.arg 0) (s.arg 1) s.declared)

/-! The walk (R32 to R34). -/

/-- The successors of a node. -/
def State.nodeEdges (s : State) (x n : Nat) : List Nat :=
  match s.nodeField x n 0 1 with
  | 0 => [s.nodeField x n 6 2]
  | 1 => [s.nodeField x n 4 2, s.nodeField x n 6 2]
  | 2 => [s.nodeField x n 4 2, s.nodeField x n 6 2]
  | _ => []

/-- Nodes that paths from the listed ones reach without passing node `avoid`; the fuel bounds the edges followed. -/
def State.reachable (s : State) (x avoid : Nat) : Nat → List Nat → List Nat → List Nat
  | 0, _, seen => seen
  | _ + 1, [], seen => seen
  | fuel + 1, n :: ns, seen =>
    if n = avoid || seen.contains n then s.reachable x avoid fuel ns seen else s.reachable x avoid fuel (s.nodeEdges x n ++ ns) (n :: seen)

/-- The walk comes to WHILE node `n` from inside its body: from a node that no path reaches from the first one but through `n` (R32; log 61, DEDUCED: the body is the
natural loop of the node). -/
def State.fromBody (s : State) (x n : Nat) : Bool :=
  let c := s.ctx x
  match c.launch, c.prev with
  | some l, some p => !(s.reachable x n (2 * s.imgField x l.image 2 2 + 2) [l.first] []).contains p
  | _, _ => false

/-- The walk has reached a node. -/
def State.walkNode (s : State) (x : Nat) : State :=
  let n := (s.ctx x).node
  match s.nodeField x n 0 1 with
  | 0 =>
    let k := s.nodeField x n 4 2
    let first := max (s.ctx x).nextStart s.gtick
    (s.modCtx x fun c => { c with chosen := some k, nextStart := first, prev := some n, node := s.nodeField x n 6 2 }).wakeFor x first (s.declared x k)
  | 1 => s.after 8 .graphWalkCond [x]
  | 2 => s.after 8 .graphWalkWhile [x]
  | _ => s.after 8 .graphWalkEnd [x]

/-- A LAUNCH is in progress whose walk goes on. -/
def Ctx.walking (c : Ctx) : Bool := c.launch.isSome && c.chosen.isNone && c.seg.isNone

def State.walkTo (s : State) (x n : Nat) : State := (s.modCtx x fun c => { c with prev := some c.node, node := n }).walkNode x

/-- Bit of the condition word that the node names. -/
def State.nodeBit (s : State) (x n : Nat) : Bool := (s.ctx x).cond.getLsbD (s.nodeField x n 1 1)

def State.walkCond (s : State) (x : Nat) : State :=
  let n := (s.ctx x).node
  if !(s.ctx x).walking then s
  else s.walkTo x (if s.nodeBit x n then s.nodeField x n 4 2 else s.nodeField x n 6 2)
def execGraphWalkCond (s : State) : Host.Outcome State Fault Refusal := .next (s.walkCond (s.arg 0))

/-- WHILE: passes are counted from the entry from outside the body, whichever way an earlier stay in it ended. -/
def State.walkWhile (s : State) (x : Nat) : State :=
  let c := s.ctx x
  let n := c.node
  let limit := s.nodeField x n 8 4
  let passes := if s.fromBody x n then mget 0 c.passes n else 0
  if !c.walking then s
  else if s.nodeBit x n && (limit == 0 || passes < limit) then
    (s.modCtx x fun c => { c with passes := mset 0 c.passes n (passes + 1) }).walkTo x (s.nodeField x n 4 2)
  else (s.modCtx x fun c => { c with passes := mset 0 c.passes n 0 }).walkTo x (s.nodeField x n 6 2)
def execGraphWalkWhile (s : State) : Host.Outcome State Fault Refusal := .next (s.walkWhile (s.arg 0))

/-! The end of a LAUNCH (R32, R319). -/

def State.bind (s : State) (b : Nat) : Bind := mget {} s.binds b
def State.modBind (s : State) (b : Nat) (f : Bind → Bind) : State := { s with binds := mset {} s.binds b (f (s.bind b)) }

/-- The tiles of a bind record, ascending (R318). -/
def Bind.tiles (r : Bind) : List Nat :=
  if r.kind = 1 then ((List.range 16).filter fun i => nbit r.tileMask i).map fun i => 16 * r.cluster + i
  else ((List.range 24).filter fun c => nbit r.clusterMask c).flatMap fun c => (List.range 16).map fun i => 16 * c + i

/-- A bind waits for the tile. -/
def State.bindAwaits (s : State) (t : Nat) : Bool := s.binds.any fun e => e.2.valid && !e.2.active && e.2.tiles.contains t

/-- Tiller on a tile that has become free: one that a bind waits for is woken, or stays awake (R19); another enters the deepest state up to `deepest` that
it may (log 22, DESIGN CHOICE). -/
def State.tileFreed (s : State) (t deepest : Nat) : State :=
  if s.bindAwaits t then (if (s.tile t).target = .active then s else s.at_ s.gtick .tileWake [t, 64]) else s.gapEnter t (2 ^ 64) deepest

/-- A sequencer that no context runs on: it holds no command, whose acknowledgments nothing awaits. -/
def Seq.idle (y : Seq) : Seq := { y with run := .idle, c0 := { y.c0 with cmds := [] }, c1 := { y.c1 with cmds := [] } }

/-- What stands in the scratchpad when context `x` leaves the tile and no earlier one has left (R396). -/
def Tile.leftTo (z : Tile) (x : Nat) : List (Nat × Nat × Nat) :=
  let rest := z.left.foldl (fun (free : List (Nat × Nat)) r =>
    free.flatMap fun f => ([(f.1, min f.2 r.2.1), (max f.1 r.2.2, f.2)] : List (Nat × Nat)).filter fun p => p.1 < p.2) [(0, 0x200000)]
  z.left ++ rest.map fun f => (x, f.1, f.2)

/-- The tiles of a context's partition are free; an image of the context that one of them holds is of no more use. -/
def State.freeTiles (s : State) (x : Nat) : State :=
  (s.ctx x).tiles.foldl (fun (s : State) t =>
    let s := s.modTile t fun z => { z with shadow := if (z.shadow.map (·.ctx)) = some x then none else z.shadow }
    if (s.tile t).ctx = some x then
      (s.modTile t fun z => { z with ctx := none, halt := none, trap := none, frozen := false, owed := 0, frozenFor := 0, a := z.a.idle,
                                     b := z.b.idle, left := z.leftTo x }).tileFreed t 3
    else s) s

/-- The LAUNCH of a context completes: its bind ends and its packet is answered (R319, R339, R382). -/
def State.finishLaunch (s : State) (x code : Nat) : State :=
  let c := s.ctx x
  match c.launch with
  | none => s
  | some l =>
    let s := match c.bind with
      | some b => s.modBind b fun r => { r with valid := false, active := false }
      | none => s
    let s := s.freeTiles x
    let s := s.modCtx x fun c =>
      { c with launch := none, part := .unbound, tiles := [], bind := none, seg := none, chosen := none, tasks := [], passes := [], prev := none,
               rqend := false, blocked := false, taskFault := none, taskFaults := 0, ending := none, ackDue := [], hints := [],
               winnow := { c.winnow with closing := none } }
    -- its packet completes once a thread has served the event (R391)
    let s := s.thread l.queue .launch [1, l.tag, code]
    -- SUBMITs left unconsumed are tried again without waiting for a boundary (R70)
    (s.queues.filter fun e => e.2.retry && e.2.ctx == x).foldl (fun (s : State) e =>
      (s.after (1 + Config.serviceDelay s.free % 24000) .submitRetry [e.1]).tickFree) s

/-- END: a task-level fault that awaits its boundary gives its code (R340). -/
def State.walkEnd (s : State) (x : Nat) : State :=
  if (s.ctx x).walking then s.finishLaunch x ((s.ctx x).taskFault.getD 0) else s
def execGraphWalkEnd (s : State) : Host.Outcome State Fault Refusal := .next (s.walkEnd (s.arg 0))

/-! Segments (R35, R47). -/

/-- SEGMENT_START of context `x`: the chosen segment's tasks are armed at its start plus their offsets; its end follows from its length; tiles it
does not declare may enter a deeper state. -/
def State.segmentStart (s : State) (x : Nat) : State :=
  let c := s.ctx x
  match c.chosen with
  | none => s
  | some k =>
    let start := max c.nextStart s.gtick
    let tasks : List TaskRun := (s.segTasks x k).map fun i =>
      { index := i, seqNum := s.taskField x (s.taskIndex x k i) 0 2, start := start + s.formula x k (s.taskField x (s.taskIndex x k i) 8 4) }
    let end_ := start + s.formula x k (s.segField x k 0x0C 4)
    let used := s.declared x k
    let span := end_ - start + s.segField x k 0x10 4
    let next := end_ + s.segField x k 0x10 4
    let s := s.modCtx x fun c =>
      { c with chosen := none, seg := some k, segStart := start, segEnd := end_, nextStart := next, tasks := tasks, rqend := false,
               hints := c.hints.filter fun e => !used.contains e.1 }
    let idle := c.tiles.filter fun t => !used.contains t
    let s := idle.foldl (fun (s : State) t => s.gapEnter t span ((s.ctx x).deepest t)) s
    s.wakeFor x next idle
def execSegmentStart (s : State) : Host.Outcome State Fault Refusal := .next (s.segmentStart (s.arg 0))

/-- Sequencer of a rank (R25). -/
def Ctx.seqOf (c : Ctx) (rank : Nat) : Nat × Nat := (rankTile c.tiles rank, rank % 2)

/-- A sequencer's task has finished (R27): HALT issued, results landed, and of every command the last beat performed; a CPYX may still be
unacknowledged (R261). -/
def State.seqFinished (s : State) (t q : Nat) : Bool :=
  let y := s.seq t q
  (y.run == .halted || y.run == .stopped) && y.flights.isEmpty && (y.c0.cmds.all (s.beatsDone t q 0)) && y.c1.cmds.all (s.beatsDone t q 1)

/-- Task `i` of the running segment has finished: started, and its sequencer done with it. -/
def State.taskDone (s : State) (x i : Nat) : Bool :=
  let c := s.ctx x
  match c.tasks.find? fun k => k.index == i with
  | some k =>
    let (t, q) := c.seqOf k.seqNum
    k.started && ((s.seq t q).task != i || s.seqFinished t q)
  | none => false

/-- Why a task does not start, if it does not (R19, R28). -/
def State.startFault (s : State) (x : Nat) (k : TaskRun) : Option Nat :=
  let c := s.ctx x
  let task := s.taskIndex x (c.seg.getD 0) k.index
  let f := s.taskField x task
  let b := c.image
  let preds := (List.range (f 2 2)).map fun i => s.imgField x b (s.imgField x b 0x28 4 + 2 * (f 0x0C 4 + i)) 2
  if preds.any fun p => !s.taskDone x p then some 0x0101
  else
    let z := s.tile (c.seqOf k.seqNum).1
    if z.power = .active && z.move = .none then none else some 0x0105

/-- SLOTMAP of the last publish (R87). -/
def Winnow.slotMap (w : Winnow) : W64 := BitVec.ofNat 64 (w.q0 % 512 + 65536 * (w.q1 % 65536) + 2 ^ 32 * (w.iteration % 2 ^ 32))

/-- A sequencer as its task starts (R30, R47, R87, R175, R198, R346). -/
def State.startSeq (s : State) (x : Nat) (k : TaskRun) (y : Seq) : Seq :=
  let c := s.ctx x
  let seg := c.seg.getD 0
  let task := s.taskIndex x seg k.index
  let mask := s.skipMask x task
  let digit (j : Nat) : Nat := (c.launch.map fun l => l.digit k.seqNum j).getD 0
  { y with run := .running, task := k.index, rank := k.seqNum, pc := 0x8000000 + s.taskField x task 4 4, t0 := s.gtick, clock := 0, slip := 0,
           waitUntil := 0, skipLeft := 0, taken := false, ras := [], vrb := 0, prb := 0,
           lc := mtab 0 4 fun j => BitVec.ofNat 32 (s.loopCountOf x task j), skipm := mask, segbase := BitVec.ofNat 21 c.winnow.segOffset,
           slotmap := c.winnow.slotMap, lvl := mtab 0 8 fun j => BitVec.ofNat 32 (digit j), regions := [], handler := none, pending := [],
           c0 := { y.c0 with free := 0 }, c1 := { y.c1 with free := 0 }, bounds := s.taskBoundaries x seg task mask, hold := none,
           arrayFree := 0, scaleFree := 0, waitGo := [], hint := none }

/-- TASK_START of the `i`-th task entry of context `x`: every task that shares the start tick is checked, and one failure keeps all of them and all
later ones from starting (R19, R28). One record is made, for the first failure in the segment's task order (log 81, DESIGN CHOICE). -/
def State.taskStart (s : State) (x i : Nat) : State :=
  let c := s.ctx x
  match c.tasks[i]? with
  | none => s
  | some k =>
    if c.blocked || k.started then s
    else
      let same := c.tasks.filter fun j => j.start == k.start && !j.started
      match same.findSome? fun j => (s.startFault x j).map fun code => (j, code) with
      | some (j, code) =>
        let (t, q) := c.seqOf j.seqNum
        (s.modCtx x fun c => { c with blocked := true }).partitionFault x t q { code := code, unit := 255 }
      | none =>
        let (t, q) := c.seqOf k.seqNum
        let s' := s.setSeq t q (s.startSeq x k (s.seq t q))
        s'.modCtx x fun c => { c with tasks := c.tasks.modify i fun j => { j with started := true } }
def execTaskStart (s : State) : Host.Outcome State Fault Refusal := .next (s.taskStart (s.arg 0) (s.arg 1))

/-- The sequencers of a segment's tasks. -/
def Ctx.taskSeqs (c : Ctx) : List (Nat × Nat) := c.tasks.map fun k => c.seqOf k.seqNum

/-- Hints of the segment's tasks, per tile the shallower; a sequencer without a task in the segment has none (R295). -/
def State.gatherHints (s : State) (x : Nat) : Map Nat :=
  let c := s.ctx x
  (c.taskSeqs.map (·.1)).dedup.foldl (fun (h : Map Nat) t =>
    match (c.taskSeqs.filter fun e => e.1 == t).filterMap fun e => (s.seq e.1 e.2).hint with
    | [] => h
    | v :: vs => (t, vs.foldl min v) :: h) c.hints

/-- The deadline of a Sheaf change taken before the segment began is its end tick, if it contains an RQEND (R354). -/
def State.ackAtEnd (s : State) (x : Nat) : State :=
  let c := s.ctx x
  match c.ackDue with
  | d :: _ => if c.rqend && d.2 < c.segStart + 2400000 then s.after 0 .mapackMissed [x, 1] else s
  | [] => s

/-- A boundary begins (R70, R77, R83): the SUBMITs that were read unstably are tried again before its Snapshot, frames still to spill are copied, at
most 32, and Winnow publishes so that the segment tables, too, stand within 2400 ticks (log 57, DEDUCED). -/
def State.beginBoundary (s : State) (x k : Nat) : State :=
  let s := s.modWinnow x fun w => { w with closing := some k }
  let retries := (s.queues.filter fun e => e.2.retry && e.2.ctx == x).map (·.1)
  let s := retries.foldl (fun (s : State) q => s.after 0 .submitRetry [q]) s
  let n := min 32 (((s.winnow x).reqs.map fun e => e.2.spilling.length).foldl (· + ·) 0)
  let s := (List.range n).foldl (fun (s : State) _ => s.after 0 .spillCopyPerform [x]) s
  (s.after (Config.publishDelay s.free % 2380) .winnowBoundary [x]).tickFree

/-- SEGMENT_END of context `x` (R32, R35, R77, R139, R19). -/
def State.segmentEnd (s : State) (x : Nat) : State :=
  let c := s.ctx x
  match c.seg with
  | none => s
  | some k =>
    -- a task that R28 kept from starting is none that overran
    let late := c.tasks.filter fun j => !s.taskDone x j.index && (j.started || !c.blocked)
    if !late.isEmpty then
      late.foldl (fun (s : State) j =>
        let (t, q) := c.seqOf j.seqNum
        s.partitionFault x t q { code := 0x010E, unit := 255, step := (s.seq t q).clock }) s
    else
      let seqs := c.taskSeqs
      let parties := seqs.map fun e => seqNumber e.1 e.2
      let s := s.releaseWhere fun e => parties.contains e.party
      let s := s.modCtx x fun c => { c with seg := none, hints := s.gatherHints x }
      let s := seqs.foldl (fun (s : State) e => s.modSeq e.1 e.2 fun y => { y with run := .idle }) s
      let gap := s.segField x k 0x10 4
      let s := c.tiles.foldl (fun (s : State) t => s.gapEnter t gap ((s.ctx x).deepest t)) s
      let s := s.wakeFor x (s.ctx x).nextStart c.tiles
      let s := s.ackAtEnd x
      if c.rqend then s.beginBoundary x k else s.walkNode x
def execSegmentEnd (s : State) : Host.Outcome State Fault Refusal := .next (s.segmentEnd (s.arg 0))

end Sys2Proof.Machine
end

