-- ==== Sys2Proof/Machine/Winnow.lean ====
section
/-! DEFINITION. Winnow's boundary (R75 to R87, R380): snapshot, retire, takeIn, rows, pages, tables, trims, publish; and the spilling of
frames (R83). -/
namespace Sys2Proof.Machine

/-! Spilling (R83, R348). -/

/-- A 64-byte word of memory or of a scratchpad, with its poison. -/
def State.devWord (s : State) (pa : Nat) : Vec × Option Poison :=
  match s.place pa with
  | .ok (.aperture t off) => (((s.tile t).lookWord (off / 64)).val, ((s.tile t).lookWord (off / 64)).poison)
  | _ => s.sector (pa / 64)

/-- Copy `n` 64-byte words from one physical address to another, with their poison. -/
def State.copyWords (s : State) (from_ dest : Nat) (n : Nat) : State :=
  (List.range n).foldl (fun (s : State) i =>
    let (v, p) := s.devWord (from_ + 64 * i)
    s.devWrite { bytes := cellsFrom (dest + 64 * i) (vecBytes v), poison := p }) s

/-- One frame of the request evicted earliest is copied into its spill frame, and its pool frame is free. -/
def State.spillOne (s : State) (x : Nat) : State :=
  let w := s.winnow x
  match w.spillQueue with
  | [] => s
  | k :: ks =>
    let r := w.req k
    match r.spilling with
    | [] => s.modWinnow x fun w => { w with spillQueue := ks }
    | (a, b) :: rest =>
      let s := match s.ctxAddr x a, s.ctxAddr x b with
        | .ok pa, .ok pb => s.copyWords pa pb 512
        | _, _ => s
      s.modWinnow x fun w =>
        let w := (w.setReq k { w.req k with spilling := rest }).freed [a]
        { w with spillQueue := if rest.isEmpty then ks else k :: ks, copied := w.copied + 1 }
def execSpillCopyPerform (s : State) : Host.Outcome State Fault Refusal := .next (s.spillOne (s.arg 0))

/-- Entry `i` of a request's page list (R72). -/
def State.writePage (s : State) (x k i frame : Nat) : State := s.ctxPut x (((s.winnow x).req k).pageList + 8 * i) (leBytes 8 frame)
def State.writePages (s : State) (x k from_ : Nat) : State :=
  (((s.winnow x).req k).frames.zipIdx.drop from_).foldl (fun (s : State) e => s.writePage x k e.2 e.1) s

/-- Pool frames among a request's frames take spill frames in order. -/
def spillPlan (spills : List Nat) : List Nat → List Nat → List Nat × List (Nat × Nat)
  | [], _ => ([], [])
  | f :: fs, free =>
    if spills.contains f then
      let (a, b) := spillPlan spills fs free
      (f :: a, b)
    else
      let (a, b) := spillPlan spills fs free.tail
      (free.headD 0 :: a, (f, free.headD 0) :: b)

/-- EVICTED (R83): with spill frames enough, its pool frames are to be copied, up to 32 in a boundary over all victims; else its frames are freed at once. -/
def State.evict (s : State) (x k : Nat) : State :=
  let w := s.winnow x
  let r : Request := { w.req k with state := 5, slot := 0xFFFF, rank := 0xFFFF, rows := 0, kind := 0, used := 0, changed := true }
  let n := (r.frames.filter fun f => !w.spills.contains f).length
  if w.spills.isEmpty || w.freeSpill.length < n then
    s.modWinnow x fun _ =>
      let w := (w.setReq k r).release k
      w.setReq k { (w.req k).withFlags 0 r.late false with position := 0, pages := 0 }
  else
    let (frames, pairs) := spillPlan w.spills r.frames w.freeSpill
    let r := { r.withFlags 0 r.late true with frames := frames, spilling := pairs }
    let w : Winnow := { w.setReq k r with freeSpill := w.freeSpill.drop n, spillQueue := w.spillQueue ++ (if pairs.isEmpty then [] else [k]) }
    let s := (s.modWinnow x fun _ => w).writePages x k 0
    (List.range (32 - w.copied)).foldl (fun (s : State) _ => s.spillOne x) s

/-! Queues and orders (R75, R82). -/

/-- Place in an admission queue. -/
def Request.queueKey (r : Request) (k : Nat) : Nat :=
  let c := if r.class_ = 0 then (if r.deadline = 0 then 2 ^ 64 - 1 else r.deadline) else if r.class_ < 3 then 65535 - r.priority else 0
  (if r.state = 5 then 0 else 2 ^ 168) + c * 2 ^ 100 + r.arrival * 2 ^ 20 + k

/-- An admission queue in its order. -/
def Winnow.queueOf (w : Winnow) (c : Nat) : List Nat :=
  (sortKey [] ((w.reqs.filter fun e => e.2.queued && e.2.class_ == c).map fun e => (e.2.queueKey e.1, e.1))).map (·.2)

/-- The active requests by slot: slot and record. -/
def Winnow.bySlot (w : Winnow) : List (Nat × Nat) := sortKey [] ((w.reqs.filter fun e => e.2.active).map fun e => (e.2.slot, e.1))

/-- Place in the eviction order (R82). A deadline of 0 counts as the latest, as in the queues of R75 (log 73, DEDUCED). -/
def Request.evictKey (r : Request) (k : Nat) : Nat :=
  let d := if r.deadline = 0 then 2 ^ 64 - 1 else r.deadline
  (3 - r.class_) * 2 ^ 180 + (2 ^ 64 - 1 - d) * 2 ^ 112 + (2 ^ 26 - min r.frames.length (2 ^ 26)) * 2 ^ 84 + (2 ^ 64 - 1 - r.id) * 2 ^ 18 + (65535 - k)
def Winnow.evictOrder (w : Winnow) : List Nat :=
  (sortKey [] ((w.reqs.filter fun e => e.2.active).map fun e => (e.2.evictKey e.1, e.1))).map (·.2)

/-! Snapshot (R70, R79). -/

/-- The live fields of a stable read replace the cached copy's. -/
def Request.live (r : Request) (b : List Byte) : Request :=
  { r with maxNew := field b 0x18 4, deadline := field b 0x20 8, priority := field b 0x28 2,
           stops := (List.range (min 6 (field b 0x58 1))).map fun i => field b (0x40 + 4 * i) 4,
           flags := r.flags / 2 * 2 + (if nbit (field b 0x2E 1) 0 then 1 else 0) }

/-- The CANCEL packets that have come are taken, without regard to seq. -/
def Winnow.takeCancels (w : Winnow) : Winnow :=
  w.cancels.foldl (fun (w : Winnow) k =>
    let r := w.req k
    if (r.queued || r.active) && !nbit r.flags 0 then w.setReq k { r with flags := r.flags + 1 } else w) { w with cancels := [] }

/-- Snapshot: the stable reads, and the CANCEL packets. -/
def State.snapshot (s : State) (x : Nat) : State :=
  let w := s.winnow x
  let ks := w.bySlot.map (·.2) ++ (List.range 4).flatMap fun c => (w.queueOf c).take 64
  s.modWinnow x fun _ => (ks.foldl (fun (w : Winnow) k =>
    let b := s.ctxBytes x (w.recordAt k) 128
    if field b 0 4 % 2 = 1 then w else w.setReq k ((w.req k).live b)) w).takeCancels

/-- The limits of a new LAUNCH against what waits (R70). -/
def State.recheck (s : State) (x : Nat) : State :=
  let w := s.winnow x
  if !w.recheck then s
  else
    let c := s.ctx x
    let bad := (w.reqs.filter fun e => e.2.queued &&
      !(e.2.prompt ≤ c.maxPos && e.2.prompt + e.2.generated ≤ c.maxPos && e.2.width ≤ c.maxDraft)).map (·.1)
    bad.foldl (fun (s : State) k => (s.modWinnow x fun w => w.finish k 6 5 0x0803).winnowFault x k 0x0803)
      (s.modWinnow x fun w => { w with recheck := false })

/-! Retire (R80, R378). -/

/-- One commit: token into the history, then the stop conditions. The pair holds the commits applied and the END found. -/
def commitToken (maxPos : Nat) (a : Request × Nat × Nat) (token : Nat) : Request × Nat × Nat :=
  let (r, n, e) := a
  if e ≠ 0 then a
  else
    let r := { r with tokens := r.tokens ++ [(r.prompt + r.generated, token)], generated := r.generated + 1, draw := r.draw + 1 }
    let p := r.position + (if r.kind = 1 then r.rows else n + 1)
    (r, n + 1, if r.stops.contains token then 1 else if r.generated ≥ r.maxNew then 2 else if p + 1 > maxPos then 3 else 0)

/-- What an iteration advances a slot by (R87, R378). -/
def Request.advance (r : Request) (n : Nat) : Nat :=
  if r.kind = 1 then (if n = 0 && nbit r.entryFlags 0 then 0 else r.rows) else n

/-- A slot is retired, if its request ends. -/
def Winnow.retire (w : Winnow) (maxPos : Nat) (discard : Bool) (slot k : Nat) : Winnow :=
  match w.faults.find? fun f => f.slot == slot with
  | some f => w.finish k 6 5 f.info.code
  | none =>
    let tokens := if discard then [] else ((w.commits.filter fun c => c.slot == slot).map (·.token))
    let (r, n, e) := tokens.foldl (commitToken maxPos) (w.req k, 0, 0)
    let r := { r with position := r.position + (if discard then 0 else r.advance n), changed := true }
    let w := w.setReq k r
    if e ≠ 0 then w.finish k 4 e 0
    else if nbit r.flags 0 then w.finish k 7 4 0
    else if r.state = 2 && r.target ≤ r.position then w.setReq k { r with state := 3 }
    else w

def State.retire (s : State) (x : Nat) : State :=
  let c := s.ctx x
  let w := c.winnow
  let gone := (w.reqs.filter fun e => e.2.queued && nbit e.2.flags 0).map (·.1)
  let slots := w.bySlot
  let w := gone.foldl (fun (w : Winnow) k => w.finish k 7 4 0) w
  let w := slots.foldl (fun (w : Winnow) e => w.retire c.maxPos c.taskFault.isSome e.1 e.2) w
  let faulted := slots.filterMap fun e => (w.faults.find? fun f => f.slot == e.1).map fun f => (e.2, f)
  let s := s.modWinnow x fun _ => { w with commits := [], faults := [] }
  faulted.foldl (fun (s : State) e => s.requestRecord x e.1 e.2) s

/-! Admit (R76). -/

/-- The head of a queue can be admitted. -/
def Winnow.canAdmit (w : Winnow) (slots rows k : Nat) : Option Nat :=
  let r := w.req k
  let used := w.bySlot.map (·.1)
  let need := ceilDiv (r.position + 1) w.tpp - r.pages
  let frames := if r.state = 5 && r.spilled then r.spilling.isEmpty else need ≤ w.freePool.length
  if used.length < slots && used.length < rows && frames then (List.range slots).find? fun i => !used.contains i else none

/-- Admit in class order from the heads, ending at the first head that cannot be admitted. -/
def Winnow.takeIn (w : Winnow) (slots rows : Nat) : Nat → Winnow
  | 0 => w
  | n + 1 =>
    match (List.range 4).findSome? fun c => (w.queueOf c).head? with
    | none => w
    | some k =>
      match w.canAdmit slots rows k with
      | none => w
      | some i =>
        let r := w.req k
        (w.setReq k { r with slot := i, state := if r.position < r.target then 2 else 3, first := true, changed := true }).takeIn slots rows n

/-! Rows (R81). -/

def Request.rowNeed (r : Request) : Nat :=
  if r.state = 2 then min 64 (r.target - r.position) else if r.spec then r.width + 1 else 1

/-- The order of pass 2: class, then slot. -/
def Winnow.passTwo (w : Winnow) : List Nat :=
  (sortKey [] (w.bySlot.map fun e => ((w.req e.2).class_ * 65536 + e.1, e.2))).map (·.2)

def Winnow.allocateRows (w : Winnow) (rows : Nat) : Winnow :=
  let ks := w.passTwo
  (ks.foldl (fun (a : Winnow × Nat) k =>
    let r := a.1.req k
    let more := min (r.rowNeed - 1) a.2
    (a.1.setReq k { r with rows := 1 + more }, a.2 - more)) (w, rows - ks.length)).1

/-! Pages (R82). -/

/-- A request takes free pool frames, in list order. -/
def State.give (s : State) (x k n : Nat) : State :=
  let w := s.winnow x
  let r := w.req k
  let fs := w.freePool.take n
  let frames := r.frames ++ fs
  let s := s.modWinnow x fun w => { w.setReq k { r with frames := frames, pages := frames.length, changed := true } with freePool := w.freePool.drop n }
  s.writePages x k r.frames.length

/-- Pool frames that a request holds. -/
def Winnow.poolHeld (w : Winnow) (k : Nat) : Nat := ((w.req k).frames.filter fun f => !w.spills.contains f).length

/-- Victims in order until their frames cover a shortage. -/
def Winnow.victims (w : Winnow) : List Nat → Nat → List Nat
  | [], _ => []
  | k :: ks, short => if short = 0 then [] else k :: w.victims ks (short - w.poolHeld k)

/-- Frames of one request. -/
def State.allocate (s : State) (x k : Nat) : State :=
  let w := s.winnow x
  let r := w.req k
  let need := ceilDiv (r.position + r.rows) w.tpp
  if !r.active then s
  else if r.capacity < need then (s.modWinnow x fun w => w.finish k 6 5 0x0804).winnowFault x k 0x0804
  else
    let short := need - r.frames.length
    let s := s.give x k (min short w.freePool.length)
    let left := short - w.freePool.length
    if left = 0 then s
    else
      let w := s.winnow x
      let ahead := w.evictOrder.takeWhile (· != k)
      let all := (ahead.map w.poolHeld).foldl (· + ·) 0
      let held := (w.req k).frames.length
      let vs := if left ≤ all || r.position < (held + all) * w.tpp then w.victims ahead left else []
      let s := vs.foldl (fun (s : State) v => s.evict x v) s
      let s := s.give x k (min left (s.winnow x).freePool.length)
      let r := (s.winnow x).req k
      let room := r.frames.length * w.tpp - r.position
      if r.rows ≤ room then s
      else if room = 0 then s.evict x k
      else s.modWinnow x fun w => w.setReq k { r with rows := room }

/-! Tables (R85, R86). -/

/-- Row starts, kinds and flags of the active requests, in slot order (R81, R86). -/
def Winnow.assign (w : Winnow) : Winnow :=
  (w.bySlot.foldl (fun (a : Winnow × Nat) e =>
    let r := a.1.req e.2
    let kind := if r.state = 2 then 1 else if r.spec && 1 < r.rows then 3 else 2
    let sample := kind != 1 || (r.generated == 0 && r.position + r.rows == r.target)
    let r := { r with rowStart := a.2, kind := kind, used := if kind = 3 then r.rows - 1 else 0,
                      entryFlags := (if sample then 1 else 0) + (if r.first then 2 else 0), first := false, changed := true }
    (a.1.setReq e.2 r, a.2 + r.rows)) (w, 0)).1

/-- Eviction ranks (R82), LATE (R68). -/
def Winnow.mark (w : Winnow) (tick : Nat) : Winnow :=
  let w := w.evictOrder.zipIdx.foldl (fun (w : Winnow) e => w.setReq e.1 { w.req e.1 with rank := e.2 }) w
  (w.reqs.filter fun e => (e.2.queued || e.2.active) && e.2.deadline != 0 && e.2.deadline < tick && !e.2.late).foldl
    (fun (w : Winnow) e => w.setReq e.1 { (e.2.withFlags 0 true e.2.spilled) with changed := true }) w

/-- The batch descriptor (R44), the iteration, and the slots as RQLD reads them (R281). -/
def Winnow.describe (w : Winnow) (tick : Nat) : Winnow :=
  let rs := w.bySlot.map fun e => (e.1, e.2, w.req e.2)
  let sum (f : Request → Nat) : Nat := (rs.map fun e => f e.2.2).foldl (· + ·) 0
  let top (f : Request → Nat) : Nat := (rs.map fun e => f e.2.2).foldl max 0
  { w with q0 := rs.length, q1 := sum (·.rows), q2 := top (·.position), q3 := sum fun r => if r.kind = 1 then r.rows else 0, q4 := top (·.used),
           iteration := w.iteration + 1, published := w.iteration + 1, publishTick := tick, slots := rs }

/-- Entry `i` of the segment table. -/
def Winnow.tableEntry (w : Winnow) (i : Nat) : List Byte :=
  match w.slots.lookup i with
  | some (k, r) => leBytes 2 r.rowStart ++ leBytes 1 r.rows ++ leBytes 1 r.kind ++ leBytes 4 r.position ++ leBytes 4 k ++ leBytes 2 r.used ++
      leBytes 2 r.entryFlags ++ leBytes 8 r.pageList ++ leBytes 4 r.pages ++ leBytes 4 0
  | none => leBytes 8 0 ++ leBytes 4 0xFFFFFFFF ++ leBytes 20 0

/-- The segment table. -/
def Winnow.tableBytes (w : Winnow) (slots : Nat) (cond : W64) (tick : Nat) : List Byte :=
  leBytes 8 w.iteration ++ leBytes 2 w.q0 ++ leBytes 2 0 ++ leBytes 4 w.q1 ++ leBytes 4 w.q2 ++ leBytes 4 w.q3 ++ leBytes 2 w.q4 ++ leBytes 2 slots ++
  leBytes 4 0 ++ leBytes 8 cond.toNat ++ leBytes 8 tick ++ leBytes 16 0 ++ (List.range slots).flatMap w.tableEntry

/-- The condition word as the boundary publishes it: bits 32 to 63 from the COND rules of the segment that ended the iteration (R33, R46). -/
def State.newCond (s : State) (x k : Nat) : W64 :=
  let rules := (List.range (s.segField x k 6 2)).map fun i => s.segField x k 8 4 + i
  rules.foldl (fun (c : W64) n => if s.ruleHolds x n then c ||| (1#64 <<< s.ruleField x n 2 1) else c) ((s.ctx x).cond &&& 0xFFFFFFFF)

/-- Bytes of a scratchpad as writes at its inbound port, one for each 64-byte word (R101). -/
def inboundWords (issuer due off : Nat) (bs : List Byte) (p : Option Poison) : List Inbound :=
  (List.range (ceilDiv bs.length 64)).map fun i =>
    { due := due, issuer := issuer, multicast := false, write := { bytes := cellsFrom (off + 64 * i) ((bs.drop (64 * i)).take 64), poison := p } }

/-- Words of Winnow at a tile's inbound port; those for a tile that is OFF take the place of older ones it holds for the same bytes (log 57, DEDUCED). -/
def Tile.winnowWords (z : Tile) (ws : List Inbound) : Tile :=
  let bytes := ws.flatMap (·.write.bytes)
  let older (e : Inbound) : Bool := z.heldInbound e && e.write.bytes.all fun b => (bytes.lookup b.1).isSome
  { z with inbound := z.inbound.filter (fun e => !older e) ++ ws }

/-- The table into every tile of the partition (R85, R87). A tile that is OFF at the publish takes its words as it wakes (`Tile.takeHeld`; log 57,
DEDUCED). -/
def State.writeTables (s : State) (x : Nat) (bs : List Byte) : State :=
  let w := s.winnow x
  (s.ctx x).tiles.foldl (fun (s : State) t =>
    s.modTile t fun z => z.winnowWords (inboundWords winnowIssuer s.gtick w.segOffset bs none)) s

/-! Publish (R87). -/

def State.publish (s : State) (x k : Nat) : State :=
  let s := s.modWinnow x fun w => (w.assign.mark s.gtick).describe s.gtick
  let ks := ((s.winnow x).reqs.filter fun e => e.2.changed).map (·.1)
  let s := ks.foldl (fun (s : State) r => s.writeRing x r) s
  let s := ks.foldl (fun (s : State) r => s.writeRecord x r) s
  let cond := s.newCond x k
  let s := s.writeTables x ((s.winnow x).tableBytes (s.ctx x).maxSlots cond s.gtick)
  let s := s.modWinnow x fun w =>
    ks.foldl (fun (w : Winnow) r => w.setReq r { w.req r with changed := false, tokens := [] }) { w with closing := none, copied := 0 }
  s.modCtx x fun c => { c with cond := cond, taskFaults := if c.taskFault.isSome then c.taskFaults + 1 else 0, taskFault := none }

/-- The forced snapshot of a halt in mid-iteration (R66, R94, R95): what Winnow keeps of the context, its records, draws, commits and queues, is `Ctx.winnow` and
travels with the context; its bytes in the state block have no layout in the spec and are free values (log 58, DESIGN CHOICE).
A LAUNCH without slots has no per-slot state. -/
def State.forcedSnapshot (s : State) (x : Nat) : State :=
  if ((s.ctx x).launch.map (·.slots)).getD 0 = 0 then s
  else
    let n := s.free
    (s.ctxPut x (s.winnow x).stateBlock ((List.range 65536).map (Config.snapshotByte n))).tickFree

/-- WINNOW_BOUNDARY of context `x` (R78): its steps in their order, then the walk goes on. -/
def State.winnowBoundary (s : State) (x : Nat) : State :=
  let c := s.ctx x
  match c.winnow.closing, c.launch with
  | some k, some l =>
    let s := ((s.recheck x).snapshot x).retire x
    let s := s.modWinnow x fun w => (w.takeIn l.slots l.rows w.reqs.length).allocateRows l.rows
    let s := (s.winnow x).passTwo.foldl (fun (s : State) r => s.allocate x r) s
    let s := ((s.publish x k).wakeWaits).walkNode x
    -- a halt that waited for the boundary (R94)
    if (s.ctx x).part = .halting then s.after 0 .partitionHalt [x] else s
  | _, _ => s
def execWinnowBoundary (s : State) : Host.Outcome State Fault Refusal := .next (s.winnowBoundary (s.arg 0))

end Sys2Proof.Machine
end

