-- ==== Sys2Proof/Machine/Partition.lean ====
section
/-! DEFINITION. Partitions (R24, R37, R60 to R65, R318, R319, R339, R354, R382, R397): where a launch may stand, binds, halts, swaps, restores,
resumes, shootdowns. -/
namespace Sys2Proof.Machine

/-! Shape and place (R24, R25, R37, R65, R397). -/

/-- Partitions of `n` tiles, lowest-numbered first: kind, cluster, tile mask, cluster mask. -/
def shapes (n : Nat) : List Bind :=
  if n = 0 then []
  else if n < 16 then (List.range 24).flatMap fun c => (List.range (17 - n)).map fun i =>
    ({ kind := 1, cluster := c, tileMask := (2 ^ n - 1) * 2 ^ i } : Bind)
  else if n % 16 = 0 then (List.range (25 - n / 16)).map fun c => ({ clusterMask := (2 ^ (n / 16) - 1) * 2 ^ c } : Bind)
  else []

/-- The unit of a scope code (0 Q to 5 F) that holds sequencer `q` of tile `t`. -/
def unitOf (code t q : Nat) : Nat := [seqNumber t q, t, clusterOf t, dieOf t, 0, 0].getD code 0

/-- The sequencers of tiles by rank (R25). -/
def rankSeqs (ts : List Nat) : List (Nat × Nat) := ts.flatMap fun t => [(t, 0), (t, 1)]

/-- The level decomposition of R37 holds on these tiles. -/
def levelsOk (levels : List Nat) (ts : List Nat) : Bool :=
  let seqs := rankSeqs ts
  let n := seqs.length
  let r := levels.foldl (fun (a : Bool × Nat) v =>
    let p := a.2 * (v / 2 ^ 32)
    let size := if p = 0 then 0 else n / p
    let domain (e : Nat × Nat) : Nat := unitOf (5 - v % 256) e.1 e.2
    let whole := seqs.all fun e => ((seqs.filter fun f => domain f == domain e).length) % size == 0
    let within := seqs.zipIdx.all fun e =>
      let first := seqs.getD (e.2 - e.2 % size) (0, 0)
      unitOf (v / 256 % 256) e.1.1 e.1.2 == unitOf (v / 256 % 256) first.1 first.2
    (a.1 && p != 0 && n % p == 0 && whole && within, p)) (true, 1)
  r.1 && r.2 == n

/-- A tile is stretched (R356). -/
def State.stretched (s : State) (t : Nat) : Bool := s.sheaf.engineMap (2 * t) != 0 || s.sheaf.engineMap (2 * t + 1) != 0

/-- Every sequencer offers the declared counts (R397). -/
def State.offers (s : State) (l : Launch) (ts : List Nat) : Bool :=
  (rankSeqs ts).all fun e =>
    let n := seqNumber e.1 e.2
    let h := s.sheaf
    l.vregs ≤ h.usable h.vregs 64 n && l.tregs ≤ h.usable h.tregs 8 n && l.lslots ≤ h.usable h.lslots 16 n

/-- Sequencers that the levels of a launch count (R37). -/
def Launch.size (l : Launch) : Nat := (l.levels.map fun v => v / 2 ^ 32).foldl (· * ·) 1

/-- The place of a launch among some shapes: the lowest-numbered that is free, else the lowest-numbered (log 23); or the code of its refusal. -/
def State.placeLaunch (s : State) (l : Launch) (cands : List Bind) (own : Nat → Bool) : Except Nat Bind :=
  let fit := cands.filter fun r => levelsOk l.levels r.tiles
  let can := fit.filter fun r => s.offers l r.tiles
  let plain := can.filter fun r => !(l.strict && r.tiles.any s.stretched)
  let free := plain.find? fun r => r.tiles.all fun t => ((s.tile t).ctx).isNone || own t
  match free.or plain.head? with
  | some r => .ok r
  | none => .error (if fit.isEmpty then 0x0902 else if can.isEmpty then 0x0B03 else 0x0B04)

/-- The earliest start of a bind on these tiles (R19, R329), where a displaced partition gives its tiles up first. -/
def State.bindStart (s : State) (x : Nat) (ts : List Nat) : Nat :=
  let ready := ts.foldl (fun m t => max m ((s.tile t).readyTick s.gtick)) s.gtick
  let held := (ts.filterMap fun t => (s.tile t).ctx).dedup.filter (· != x)
  if held.isEmpty then ready
  else
    let most := (held.map fun y => ceilDiv (s.ctx y).tiles.length 32).foldl max 1
    max ready (s.gtick + 24000 + 600 * (most - 1))

/-- Ticks of the window of R320: 100 ms. -/
def shareWindow : Nat := 120000000

/-- The minimum share of a class, in per mille (R306). -/
def DeviceRegs.share (r : DeviceRegs) (c : Nat) : Nat := [0, r.share1, r.share2, r.share3].getD c 0

/-- What the shares leave of `n` to class DEADLINE (R306, R320). -/
def DeviceRegs.beyondShares (r : DeviceRegs) (n : Nat) : Nat := n * (1000 - (r.share1 + r.share2 + r.share3)) / 1000

/-- The length of a bind: the Granary's, and in class DEADLINE no more of the window than the shares leave (R320; log 23, DESIGN CHOICE). -/
def State.bindLength (s : State) (class_ : Nat) : Nat :=
  let span := Config.bindSpan s.free
  let most := max 1 (s.regs.beyondShares shareWindow)
  if class_ ≠ 0 then span else if span = 0 then most else min span most

/-- The Granary writes a bind record for a context, and its tiles are woken for the start. -/
def State.writeBind (s : State) (b x class_ record : Nat) (r : Bind) : State :=
  let ts := r.tiles
  let start := s.bindStart x ts
  let span := s.bindLength class_
  let r := { r with valid := true, active := false, acted := false, class_ := class_, ctx := x, policy := Config.bindPolicy s.free % 3, record := record,
                    start := start, end_ := if span = 0 then 2 ^ 64 - 1 else start + span,
                    deadline := Config.bindDeadline s.free }
  let s := ((s.modBind b fun _ => r).modCtx x fun c => { c with bind := some b, tiles := ts }).tickFree
  ts.foldl (fun (s : State) t =>
    let p := (s.tile t).target
    if p = .active then s else s.at_ (max s.gtick (start - wakeTicks p)) .tileWake [t, 64]) s

/-! Dispatch (R319). -/

/-- A tile is free for a bind: no context holds it, it has not failed, and it is ACTIVE. -/
def State.tileFree (s : State) (t : Nat) : Bool :=
  let x := s.tile t
  x.ctx.isNone && !x.failed && x.power == .active && x.move == .none

/-- A tile that no context holds and that has not failed; a bind wakes it where it sleeps (R19). -/
def State.tileOpen (s : State) (t : Nat) : Bool := (s.tile t).ctx.isNone && !(s.tile t).failed

/-- Tile-ticks of a class between two ticks, by the list of changes. -/
def tileTicks (c lo hi : Nat) : List (Nat × Map Nat) → Nat
  | [] => 0
  | [e] => mget 0 e.2 c * (hi - max lo e.1)
  | e :: f :: es => mget 0 e.2 c * (min hi f.1 - max lo e.1) + tileTicks c lo hi (f :: es)

/-- A class below DEADLINE has work queued and has had less than its share of the package's tile-ticks in the window that ends now (R320). -/
def State.shareOwed (s : State) : Bool :=
  let lo := s.gtick - shareWindow
  ([1, 2, 3] : List Nat).any fun c =>
    tileTicks c lo s.gtick s.shares * 1000 < s.regs.share c * 384 * (s.gtick - lo) &&
      s.binds.any fun e => e.2.valid && !e.2.active && e.2.class_ == c && e.2.start ≤ s.gtick

/-- Tile-ticks that a bind has still to its end. -/
def State.bindRest (s : State) (r : Bind) : Nat := (r.end_ - s.gtick) * r.tiles.length

/-- A class below DEADLINE has work, and with the tile-ticks of a new DEADLINE bind class DEADLINE could have more of some window than the shares leave it: of the
window that ends now, what its other binds have still to come, and this one (R320; log 23, DESIGN CHOICE). -/
def State.shareAtRisk (s : State) (r : Bind) : Bool :=
  let others := s.binds.filter fun e => e.2.valid && e.2.class_ == 0 && e.2.acted
  s.binds.any (fun e => e.2.valid && e.2.class_ != 0) &&
    s.regs.beyondShares (384 * shareWindow) <
      tileTicks 0 (s.gtick - shareWindow) s.gtick s.shares + others.foldl (fun n e => n + s.bindRest e.2) 0 + s.bindRest r

/-- A new DEADLINE bind is deferred while a share is owed or would be (R320), until dispatch has acted on it. -/
def State.deferred (s : State) (r : Bind) : Bool := r.class_ == 0 && !r.acted && (s.shareOwed || s.shareAtRisk r)

/-- A bind waits for its partition, from its start up to its end (R24). -/
def State.bindWaits (s : State) (r : Bind) : Bool :=
  let c := s.ctx r.ctx
  r.valid && !r.active && r.start ≤ s.gtick && s.gtick < r.end_ && c.launch.isSome && (c.part == .unbound || c.part == .swapped) && !s.powerLost &&
    !s.rebuilding && !s.deferred r

/-- Claims rank by class, then deadline in DEADLINE, then record index (R319). -/
def Bind.claim (r : Bind) (b : Nat) : Nat := r.class_ * 2 ^ 72 + (if r.class_ = 0 then r.deadline * 64 else 0) + b

/-- A waiting bind with a better claim names one of its tiles: a free tile goes to the best claim, and is kept for it while that bind waits for the rest of its
partition (R319, R329; log 23, DEDUCED). -/
def State.outranked (s : State) (r : Bind) : Bool :=
  s.binds.any fun e => e.2.claim e.1 < r.claim ((s.ctx r.ctx).bind.getD 0) && e.2.tiles.any r.tiles.contains && s.bindWaits e.2

def State.bindTakes (s : State) (r : Bind) : Bool := s.bindWaits r && r.tiles.all s.tileFree && !s.outranked r

/-- Contexts whose partition a waiting bind pre-empts (R319). -/
def State.displaced (s : State) (r : Bind) : List Nat :=
  (r.tiles.filterMap fun t => (s.tile t).ctx).dedup.filter fun y =>
    let h := ((s.ctx y).bind.map s.bind).getD {}
    y != r.ctx && h.active && h.policy != 0 && (r.class_ < h.class_ || (r.class_ == 0 && h.class_ == 0 && r.deadline < h.deadline)) &&
      (s.ctx y).part == .running

/-- The bind that dispatch acts on next: one that takes its partition, else one that displaces another. -/
def State.bindNext (s : State) : Option Nat :=
  let by_ (p : Bind → Bool) : Option Nat := ((sortKey [] ((s.binds.filter fun e => p e.2).map fun e => (e.2.claim e.1, e.1))).head?).map (·.2)
  (by_ s.bindTakes).or (by_ fun r => s.bindWaits r && !(s.displaced r).isEmpty)

/-- A LAUNCH's partition is its own: every register is zero (R173), the walk begins (R32, R42). -/
def State.beginLaunch (s : State) (x : Nat) : State :=
  let c := s.ctx x
  match c.launch with
  | none => s
  | some l =>
    let s := c.tiles.foldl (fun (s : State) t =>
      let y : Seq := { mapver := BitVec.ofNat 64 s.sheaf.version }
      s.modTile t fun z => { z with ctx := some x, a := y, b := y, mxmode := BitVec.ofNat 2 l.mxmode, halt := none, trap := none,
                                    reservations := [] }) s
    let s := s.modCtx x fun c => { c with part := .running, nextStart := max l.start s.gtick, blocked := false, ackVersion := s.sheaf.version,
                                          ackDue := [], node := l.first, prev := none }
    ((s.takeIndex x).discardRecords x).walkNode x

/-- The bound of a swap or a restore: 18 µs, and 0.5 µs for each further group of 32 tiles (R64). -/
def State.swapBound (s : State) (x : Nat) : Nat := 21600 + 600 * (ceilDiv (s.ctx x).tiles.length 32 - 1)

/-- Ticks of a restore. -/
def State.swapTicks (s : State) (x : Nat) : Nat := 1 + Config.serviceDelay s.free % s.swapBound x

/-- Ticks from the last halt to the save: it follows the last acknowledgment of the beats in flight (R329). -/
def State.saveTicks (s : State) (x : Nat) : Nat := 1261 + Config.serviceDelay s.free % (s.swapBound x - 1260)

/-- The tiles may take the context (R65, R354): their sequencers offer its declared counts, and none is stretched under STRICT. -/
def State.tilesTake (s : State) (l : Launch) (ts : List Nat) : Bool := s.offers l ts && !(l.strict && ts.any s.stretched)

/-- A context's bind ends, and the Granary is to restore the context, suspended, where it can (R354). -/
def State.toSuspended (s : State) (x : Nat) : State :=
  let s := match (s.ctx x).bind with
    | some b => s.modBind b fun r => { r with valid := false, active := false }
    | none => s
  s.modCtx x fun c => { c with part := .suspended }

/-- A saved context takes its partition again, if the tiles may take it. -/
def State.retake (s : State) (b x : Nat) (l : Launch) : State :=
  if s.tilesTake l (s.ctx x).tiles then
    let s := s.modBind b fun r => { r with active := true, acted := true }
    let s := (s.ctx x).tiles.foldl (fun (s : State) t => s.modTile t fun z => { z with ctx := some x, halt := some s.gtick }) s
    ((s.modCtx x fun c => { c with part := .halted }).after (s.swapTicks x) .partitionResume [x]).tickFree
  else (s.toSuspended x).after 0 .contextRestore [x]

/-- BIND_TAKE_PARTITION for the bind record of argument 0. -/
def State.bindTake (s : State) (b : Nat) : State :=
  let r := s.bind b
  let x := r.ctx
  let c := s.ctx x
  if s.bindTakes r then
    match c.launch with
    | some l => if c.part = .unbound then (s.modBind b fun r => { r with active := true, acted := true }).beginLaunch x else s.retake b x l
    | none => s
  else if s.bindWaits r then (s.displaced r).foldl (fun (s : State) y => s.endPartition y 0 0) (s.modBind b fun r => { r with acted := true })
  else s
def execBindTakePartition (s : State) : Host.Outcome State Fault Refusal := .next (s.bindTake (s.arg 0))

/-- A bind has come to its end with its LAUNCH in progress: it holds its partition, or has not got it (R24). -/
def State.bindOver (s : State) (r : Bind) : Bool :=
  let c := s.ctx r.ctx
  r.end_ ≤ s.gtick && c.launch.isSome && (if r.active then c.part == .running else r.valid && (c.part == .unbound || c.part == .swapped))

/-- BIND_END for the bind record of argument 0. One that has not got its partition lapses, and the Granary binds its context again. -/
def State.bindEnd (s : State) (b : Nat) : State :=
  let r := s.bind b
  if !s.bindOver r then s
  else if r.active then s.endPartition r.ctx 1 0
  else (s.modBind b fun r => { r with valid := false }).after 0 .contextRestore [r.ctx]
def execBindEnd (s : State) : Host.Outcome State Fault Refusal := .next (s.bindEnd (s.arg 0))

/-! Halts and swaps (R60 to R64, R382). -/

/-- Staged writes of some tiles' sequencers that were not released are discarded (R382). -/
def State.discardStaging (s : State) (ts : List Nat) : State :=
  (List.range 4).foldl (fun (s : State) d =>
    let z := s.die d
    if z.staging.isEmpty then s else s.setDie d { z with staging := z.staging.filter fun e => !ts.contains (e.party / 2) }) s

/-- A halt under R329: the CPYX beats in flight arrive and are acknowledged within 1.2 µs of the request, of which the halt took 180 ticks at most. -/
def State.clampBeats (s : State) (x : Nat) : State :=
  let ts := (s.ctx x).tiles
  let limit := s.gtick + 1260
  let mine (n : Nat) : Bool := ts.contains (n / 2) && n < 768
  let s := ts.foldl (fun (s : State) t => ([(0, 0), (0, 1), (1, 0), (1, 1)] : List (Nat × Nat)).foldl (fun (s : State) e =>
    if (s.queueOf t e.1 e.2).cmds.isEmpty then s
    else s.modQueue t e.1 e.2 fun z => { z with cmds := z.cmds.map fun k => { k with acks := k.acks.map fun a => (min a.1 limit, a.2) } }) s) s
  let near (e : ExternalWrite) : ExternalWrite := if 1000 ≤ e.agent && mine (e.agent - 1000) then { e with arrived := min e.arrived (limit - 1) } else e
  let beat (e : Nat × Inbound) : Bool := e.2.arrival && mine e.2.issuer
  let owners := ((s.aperture.filter beat).map (·.1)).dedup
  let s' : State :=
    { s with ingress := (s.ingress.map near).foldl (fun l e => insertArrival e l) [],
             aperture := s.aperture.map fun e => if beat e then (e.1, { e.2 with due := min e.2.due (limit - 1) }) else e }
  owners.foldl (fun (s : State) o => s.at_ (limit - 1) .apertureWritePerform [o]) s'

/-- The end at partition level: tiles free, staged writes gone, LAUNCH answered, requests INTERRUPTED (R382). -/
def State.endLaunch (s : State) (x code : Nat) : State := ((s.discardStaging ((s.ctx x).tiles.filter fun t => (s.tile t).ctx == some x)).finishLaunch x code).interruptAll x

/-- The end at device level by power loss: the tiles stand as they are, staged writes are gone, requests are INTERRUPTED, and no LAUNCH completes
(R339, R399). -/
def State.deviceEnd (s : State) (x : Nat) : State :=
  let s := (s.ctx x).tiles.foldl (fun (s : State) t => s.modTile t fun z => { z with halt := some s.gtick }) s
  ((s.discardStaging ((s.ctx x).tiles.filter fun t => (s.tile t).ctx == some x)).interruptAll x).modCtx x fun c => { c with part := .halted, winnow := { c.winnow with closing := none } }

/-- PARTITION_HALT of context `x`: every sequencer stops on one tick, what is in flight stays where it stands (R61). A boundary of Winnow in
progress is completed first (R94). -/
def State.partitionHalt (s : State) (x : Nat) : State :=
  let c := s.ctx x
  match c.ending with
  | none => s
  | some (level, code) =>
    if c.part ≠ .halting then s
    else if level = 4 then s.endLaunch x code
    else if level = 5 then s.deviceEnd x
    else if c.winnow.closing.isSome then s
    else
      let s := c.tiles.foldl (fun (s : State) t => s.modTile t fun z =>
        { z with halt := some s.gtick,
                 journal := if z.journal.owner < 2 && z.journal.ctx = x then { z.journal with paused := true, due := none } else z.journal }) s
      let s := (s.forcedSnapshot x).clampBeats x
      ((s.modCtx x fun c => { c with part := .halted }).after (s.saveTicks x) .contextSwap [x]).tickFree
def execPartitionHalt (s : State) : Host.Outcome State Fault Refusal := .next (s.partitionHalt (s.arg 0))

/-- The L1 of a sequencer is written back at the scope of each line, behind what it has staged; the staging buffer takes all of it, since an entry that finds it
full waits (R64). -/
def State.swapL1 (s : State) (t q : Nat) : State :=
  let y := s.seq t q
  let s := s.setSeq t q { y.cleanLines (fun _ => true) id with tlb := [] }
  let d := dieOf t
  let es : List StagingEntry := (y.writeBacks (fun _ => true) id).map fun w => { party := seqNumber t q, tick := s.gtick, write := w }
  if es.isEmpty then s else s.setDie d { s.die d with staging := (s.die d).staging ++ es }

/-- What a sequencer saves: the declared registers, those beyond are restored as zero, and nothing of its L1, which R63 does not list (log 59, DEDUCED). -/
def Seq.saved (y : Seq) (l : Launch) : Seq :=
  { y with v := y.v.filter fun e => e.1 < l.vregs, t := y.t.filter fun e => e.1 < l.tregs, a := y.a.filter fun e => e.1 < l.accs,
           o := y.o.filter fun e => e.1 < l.outs, l1 := [], tlb := [] }

/-- What a tile saves (R63), the window word by word as a read finds it, with its poison (R347, R348). -/
def Tile.image (z : Tile) (x : Nat) (l : Launch) : Shadow :=
  let ws := (List.range (l.windowLen / 64)).map fun i => (l.window / 64 + i, z.lookWord (l.window / 64 + i))
  { ctx := x, a := z.a.saved l, b := z.b.saved l, window := cellsFrom l.window (ws.flatMap fun w => vecBytes w.2.val),
    windowPoison := ws.filterMap fun w => w.2.poison.map fun p => (w.1, p), mxmode := z.mxmode, haltTick := z.halt.getD 0,
    trap := z.trap, owed := z.owed, frozenFor := z.frozenFor, frozenBy := z.frozenBy, reservations := z.reservations, inbound := z.inbound }

/-- What waits at the inbound ports performs before the image is taken; a write that an atomic in flight keeps off its bank goes with the image (R64, R102). -/
def Tile.flushInbound (z : Tile) : Tile :=
  let kept (e : Inbound) : Bool := e.write.banks.any fun b => z.reservations.any fun r => r.bank == b && 0 < r.left
  let ws := (z.inbound.filter fun e => !kept e).foldl (fun ws e => placeInbound ws e.write) []
  let z' := ws.foldl (fun (z : Tile) w => z.applyWrite w) z
  { z' with inbound := z.inbound.filter kept }

/-- The tile is free again. Its shadow SRAM holds one image: another context's that it still held is gone, and that context ends with 0x0508 when it is to be
restored (log 64, DESIGN CHOICE: the spec names no outcome). -/
def Tile.vacate (z : Tile) (h : Shadow) (tick : Nat) : Tile :=
  ({ z with ctx := none, a := {}, b := {}, halt := none, trap := none, frozen := false, owed := 0, frozenFor := 0, reservations := [], inbound := [],
            left := z.leftTo h.ctx } : Tile).holdImage (some h) tick

/-- CONTEXT_SWAP of context `x` (R64): L1 written back and, in one release, all staged entries released; everything saved, tiles free. A context halted at context level
is suspended, and the Granary restores it when it can (R354); one at its bind's end is bound again by the Granary; one that another bind pre-empted resumes
when its partition, or under MOVE an equal one, is free (R319). -/
def State.contextSwap (s : State) (x : Nat) : State :=
  let c := s.ctx x
  match c.ending with
  | none => s
  | some (level, code) =>
    if c.part ≠ .halted || level = 5 then s
    else
      let s := c.tiles.foldl (fun (s : State) t => (s.swapL1 t 0).swapL1 t 1) s
      let s := s.releaseWhere fun e => c.tiles.contains (e.party / 2)
      let s := match c.launch with
        | some l => c.tiles.foldl (fun (s : State) t => s.modTile t fun z => z.flushInbound.vacate (z.flushInbound.image x l) s.gtick) s
        | none => s
      let s := match c.bind with
        | some b => s.modBind b fun r => { r with active := false, valid := level == 0 }
        | none => s
      let s := s.modCtx x fun c => { c with part := if level = 3 then .suspended else .swapped, ending := none, blocked := false, ackDue := [] }
      -- a tile whose next bind waits is kept awake for it, or woken
      let s := c.tiles.foldl (fun (s : State) t => if s.bindAwaits t then s.tileFreed t 0 else s) s
      if code = 0x0C02 then s
      else (s.after (1 + Config.serviceDelay s.free) .contextRestore [x, if code = 0x0B02 then 1 else 0]).tickFree
def execContextSwap (s : State) : Host.Outcome State Fault Refusal := .next (s.contextSwap (s.arg 0))

/-! Restores and resumes (R62, R63, R65, R354, R397). -/

/-- The saved sequencer as the Granary restores it: with the Sheaf's version (R354). -/
def Seq.restored (y : Seq) (l : Launch) (version : Nat) : Seq := { y.saved l with mapver := BitVec.ofNat 64 version }

/-- A tile holds the saved image of a context, and its code finds no error in it that it does not correct (R347). -/
def State.hasImage (s : State) (x t : Nat) : Bool := (s.tile t).shadow.any fun h => h.ctx == x && !h.unreadable

/-- An image of the context is lost or cannot be read: 0x0508 ends the context (R338, R355). -/
def State.imageLost (s : State) (x : Nat) : State :=
  (((s.record x { info := { code := 0x0508, unit := 255 }, level := 4, tick := s.gtick }).modCtx x fun c => { c with ending := none }).endLaunch x 0x0508).stopRings x

/-- The images go to the tiles of a new partition, by place (R65). -/
def State.moveImages (s : State) (x : Nat) (old new : List Nat) (l : Launch) : State :=
  let hs := old.map fun t => (s.tile t).shadow
  let s := old.foldl (fun (s : State) t => s.modTile t fun z => { z with shadow := none }) s
  (new.zip hs).foldl (fun (s : State) e => s.modTile e.1 fun z =>
    z.holdImage (e.2.map fun h => { h with ctx := x, a := h.a.restored l s.sheaf.version, b := h.b.restored l s.sheaf.version }) s.gtick) s

/-- No partition can receive the context: it stays suspended, with a record, and is tried again later, on any equal partition (R354, R397). -/
def State.restoreFails (s : State) (x code : Nat) : State :=
  let c := s.ctx x
  let s := if c.ending = some (3, code) then s
    else (s.record x { info := { code := code, unit := 255 }, level := 3, tick := s.gtick }).modCtx x fun c => { c with ending := some (3, code) }
  let s := s.modCtx x fun c => { c with part := .suspended }
  (s.after (1 + Config.serviceDelay s.free) .contextRestore [x]).tickFree

/-- The context is bound anew on a partition that can take it: its images move there. -/
def State.rebind (s : State) (b x : Nat) (l : Launch) (k : Bind) : State :=
  let c := s.ctx x
  let r := s.bind b
  let s := (s.moveImages x c.tiles k.tiles l).modCtx x fun c => { c with part := .swapped, ending := none, ackVersion := s.sheaf.version, ackDue := [] }
  s.writeBind b x r.class_ r.record k

/-- Partitions that a restore may choose from, in their order: equal ones whose shadow SRAM is free for a suspended context or under MOVE; else its own alone
(R319). -/
def State.restorePlaces (s : State) (x : Nat) (r : Bind) : List Bind :=
  let c := s.ctx x
  let room (k : Bind) : Bool := k.tiles.all fun t => (s.tile t).shadow.isNone || c.tiles.contains t
  if c.part = .suspended || r.policy = 2 then (shapes c.tiles.length).filter room else [r]

/-- A restore is tried again later, with `own` on the context's own partition (R355). -/
def State.restoreLater (s : State) (x : Nat) (own : Bool) : State :=
  (s.after (1 + Config.serviceDelay s.free) .contextRestore (if own then [x, 1] else [x])).tickFree

/-- A pre-empted MOVE bind goes to the lowest-numbered equal partition that is free and may take it, and its tiles are woken; its own, when free, dispatch gives
it, and until it does the Granary looks again (R319). -/
def State.moveBind (s : State) (b x : Nat) (l : Launch) : State :=
  let c := s.ctx x
  let ks := (s.restorePlaces x (s.bind b)).filter fun k => levelsOk l.levels k.tiles && s.tilesTake l k.tiles && k.tiles.all s.tileOpen
  match ks with
  | [] => s.restoreLater x false
  | k :: _ => if ks.any fun k => k.tiles == c.tiles then s.restoreLater x false else s.rebind b x l k

/-- The Granary binds a context again whose bind has gone: on the first equal partition that may take it and is free, and as soon as there is one (R354, R397);
under NONE and SAVE at a bind's end on its own, whoever holds it (R319). -/
def State.bindAgain (s : State) (b x : Nat) (l : Launch) : State :=
  let r := s.bind b
  let places := s.restorePlaces x r
  let wide := (s.ctx x).part == .suspended || r.policy == 2
  match s.placeLaunch l places (fun _ => false) with
  | .error code => s.restoreFails x code
  | .ok k =>
    if !wide || k.tiles.all s.tileOpen then s.rebind b x l k
    else match s.placeLaunch l (places.filter fun k => k.tiles.all s.tileOpen) (fun _ => false) with
      | .ok k => s.rebind b x l k
      | .error _ => s.restoreLater x false

/-- A context whose bind has lapsed before its LAUNCH began is placed anew (R24, R397). -/
def State.placeAgain (s : State) (b x : Nat) (l : Launch) : State :=
  match s.placeLaunch l (shapes (l.size / 2)) (fun _ => false) with
  | .error code => s.finishLaunch x code
  | .ok k => s.writeBind b x (s.bind b).class_ (s.bind b).record k

/-- A context whose tile a spare takes over goes back to its own partition: once the spare stands there and its tiles are open (R355, step 5). -/
def State.restoreOwn (s : State) (b x : Nat) (l : Launch) : State :=
  if (s.ctx x).tiles.all s.tileOpen then s.rebind b x l (s.bind b) else s.restoreLater x true

/-- CONTEXT_RESTORE of context `x`: the Granary binds it again (R319, R354, R397), with `ownFirst` on its own partition, where a spare is to stand first and
where its tiles may take it (R355); a context whose image is lost or cannot be read ends with 0x0508. A pre-empted bind that is still valid waits for its
partition, or under MOVE moves. -/
def State.contextRestore (s : State) (x : Nat) (ownFirst : Bool) : State :=
  let c := s.ctx x
  match c.launch, c.bind with
  | some l, some b =>
    let r := s.bind b
    if r.active || s.powerLost || s.tdiError x then s
    else if c.part == .unbound then (if r.valid then s else s.placeAgain b x l)
    else if !(c.part == .suspended || c.part == .swapped) then s
    else if ownFirst && c.tiles.any (fun t => (s.tile t).failed) then s.restoreLater x true
    else if !c.tiles.all (s.hasImage x) then s.imageLost x
    else if r.valid then (if r.policy = 2 then s.moveBind b x l else s)
    else if ownFirst && s.tilesTake l c.tiles then s.restoreOwn b x l
    else s.bindAgain b x l
  | _, _ => s
def execContextRestore (s : State) : Host.Outcome State Fault Refusal := .next (s.contextRestore (s.arg 0) (s.arg 1 = 1))

/-- A sequencer whose pause was `n` ticks (R62). -/
def Seq.resume (y : Seq) (n : Nat) : Seq :=
  { y with t0 := y.t0 + n, hold := y.hold.map fun h => { h with issued := h.issued + n } }

/-- The window's words as they were saved, poison included (R348). -/
def Tile.restoreWindow (z : Tile) (h : Shadow) : Tile :=
  h.windowPoison.foldl (fun (z : Tile) e => { z with marks := mset {} z.marks e.1 { z.mark e.1 with poison := some e.2 } }) (z.applyWrite { bytes := h.window })

/-- A tile takes up its saved image. -/
def Tile.resume (z : Tile) (h : Shadow) (tick : Nat) : Tile :=
  let n := tick - h.haltTick
  let x : Tile := { z with a := h.a.resume n, b := h.b.resume n, mxmode := h.mxmode, halt := none, shadow := none,
                           owed := h.owed, frozenFor := h.frozenFor, frozenBy := h.frozenBy, reservations := h.reservations,
                           inbound := z.inbound ++ h.inbound,
                           trap := h.trap.map fun (p : Trap) => { p with since := p.since + n } }
  x.restoreWindow h

/-- A bound context that has not acknowledged the current Sheaf version has a deadline for it, 2 ms on (R22, R354). -/
def State.askAck (s : State) (x : Nat) : State :=
  let c := s.ctx x
  let v := s.sheaf.version
  if c.ackVersion < v && !c.ackDue.any fun e => e.1 == v then
    (s.setCtx x { c with ackDue := c.ackDue ++ [(v, s.gtick + 2400000)] }).after 2400000 .mapackMissed [x]
  else s

/-! The loss of a peer (R394). -/

/-- A physical address lies in the window of package `p`. -/
def peerWindow (p pa : Nat) : Bool := 0x1000000000000 + p * 0x100000000000 ≤ pa && pa < 0x1000000000000 + (p + 1) * 0x100000000000

/-- Beats that have been acknowledged at a tick. -/
def Command.ackedAt (k : Command) (tick : Nat) : Nat := k.acked + (k.acks.filter fun a => a.1 ≤ tick).length

/-- A CPYX command that the loss of package `p` ends: a beat of it to the package is not acknowledged. -/
def Command.ends (k : Command) (p tick : Nat) : Bool :=
  let to_ (j : Nat) : Bool :=
    peerWindow p (physOf (k.pages.getD []) (k.dst + 64 * j)) || peerWindow p (physOf (k.pages.getD []) (k.dst + 64 * j + k.beatLen j - 1))
  k.kind == .cpyx && k.pages.isSome && (List.range k.beats).any fun j => k.ackedAt tick ≤ j && to_ j

/-- The commands of a queue that the loss ends, each with 0x040B, at most `n` of them: what waits for one goes on (R272, R279). -/
def State.loseCommands (s : State) (t q c p : Nat) : Nat → State
  | 0 => s
  | n + 1 =>
    let z := s.queueOf t q c
    match z.cmds.zipIdx.find? fun e => e.1.ends p s.gtick with
    | none => s
    | some (k, i) =>
      let f := k.faultOf c (s.seq t q) 0x040B (k.dst + 64 * k.ackedAt s.gtick)
      (((s.endCommand t q c i { z with fault := true }).modSeq t q fun y => y.raiseFlag (2 + c)).takeDue t q [f]).loseCommands t q c p n

/-- Those of a tile. -/
def State.loseAll (s : State) (t p : Nat) : State :=
  tileQueues.foldl (fun (s : State) k => s.loseCommands t k.1 k.2 p (s.queueOf t k.1 k.2).cmds.length) s

/-- A saved command keeps the acknowledgments that it has had; the fault comes when the context goes on. -/
def CopyQueue.loseSaved (z : CopyQueue) (p tick : Nat) : CopyQueue :=
  { z with cmds := z.cmds.map fun k => if k.ends p tick then { k with acks := k.acks.filter fun a => a.1 ≤ tick } else k }
def Seq.loseSaved (y : Seq) (p tick : Nat) : Seq := { y with c0 := y.c0.loseSaved p tick, c1 := y.c1.loseSaved p tick }
def Shadow.loseCommands (h : Shadow) (p tick : Nat) (h' : Shadow) : Shadow :=
  if (h.a.c0.cmds ++ h.a.c1.cmds ++ h.b.c0.cmds ++ h.b.c1.cmds).any fun k => k.ends p tick
  then { h' with a := h'.a.loseSaved p tick, b := h'.b.loseSaved p tick, lost := h'.lost ++ [p] }
  else h'

/-- PARTITION_RESUME of context `x`: all tiles go on at one tick; every tick still to come of its timetable is later by the pause (R35, R62). -/
def State.partitionResume (s : State) (x : Nat) : State :=
  let c := s.ctx x
  if c.part ≠ .halted || s.powerLost then s
  else if c.ending.isSome then
    -- a halt at context level that came meanwhile: the images stay where they are
    let code := (c.ending.map (·.2)).getD 0
    let s := c.tiles.foldl (fun (s : State) t => s.modTile t fun z => { z with ctx := none, halt := none }) s
    let s := (s.toSuspended x).modCtx x fun c => { c with ending := none }
    if code = 0x0C02 then s else (s.after (1 + Config.serviceDelay s.free) .contextRestore [x, if code = 0x0B02 then 1 else 0]).tickFree
  else if !c.tiles.all (s.hasImage x) then s.imageLost x
  else
    let halt := (((c.tiles.head?.bind fun t => (s.tile t).shadow).map (·.haltTick))).getD s.gtick
    let n := s.gtick - halt
    let s := c.tiles.foldl (fun (s : State) t => match (s.tile t).shadow with
      | some h =>
        let s := h.lost.foldl (fun (s : State) p => s.loseAll t p) (s.modTile t fun z => z.resume h s.gtick)
        if (s.journal t).owner < 2 && (s.journal t).ctx = x then s.journalResume t else s
      | none => s) s
    (s.modCtx x fun c =>
      { c with part := .running, ending := none, blocked := false, segEnd := c.segEnd + n, nextStart := c.nextStart + n, resumeTick := s.gtick,
               tasks := c.tasks.map fun (k : TaskRun) => if k.started then k else { k with start := k.start + n } }).askAck x
def execPartitionResume (s : State) : Host.Outcome State Fault Refusal := .next (s.partitionResume (s.arg 0))

/-! The Sheaf's deadline (R354). -/

/-- MAPACK_MISSED of context `x`: at the deadline (argument 1: at the end of a segment with an RQEND) the earliest change not acknowledged
is due. -/
def State.mapackMissed (s : State) (x atEnd : Nat) : State :=
  let c := s.ctx x
  match c.ackDue with
  | d :: _ =>
    if c.ackVersion < s.sheaf.version && (d.2 ≤ s.gtick || atEnd = 1) && c.part == .running && c.ending.isNone then
      let s := (s.record x { info := { code := 0x0B01, unit := 255 }, level := 3, tick := s.gtick }).modCtx x fun c => { c with ackDue := [] }
      s.endPartition x 3 0x0B01
    else s
  | [] => s
def execMapackMissed (s : State) : Host.Outcome State Fault Refusal := .next (s.mapackMissed (s.arg 0) (s.arg 1))

end Sys2Proof.Machine
end

