-- ==== Sys2Proof/Machine/Packets.lean ====
section
/-! DEFINITION. Packets (R70, R307, R313, R317, R321, R391), queue states (R310, R311), mapping (R316) and the timer wheel (R321, R322, R392). -/
namespace Sys2Proof.Machine

/-- What the thread of a queue has in hand is dropped where the queue is no longer served. -/
def State.dropHand (s : State) (q : Nat) : State := s.modQ q fun x => { x with busy := false }

/-- A packet in hand, once its features are there (R307): `f` acts on it. -/
def State.onPacket (s : State) (q from_ : Nat) (p : List Byte) (f : Queue → State) : State :=
  let x := s.queue q
  if !s.inService q then s.dropHand q
  else if !s.featuresOk x p then (s.takePacket q from_).answer q p 0x0906
  else f x

/-! SUBMIT, CANCEL (R70, R79). -/

/-- A SUBMIT read unstably stays at the head until the context's next boundary, or 20 µs at most without a LAUNCH. A LAUNCH is taken to run from its consumption to
its completion (log 72, DEDUCED). -/
def State.keepSubmit (s : State) (q x : Nat) : State :=
  let s := s.modQ q fun y => { y with busy := false, retry := true }
  if (s.ctx x).launch.isSome then s
  else (s.after (1 + Config.serviceDelay s.free % 24000) .submitRetry [q]).tickFree

def State.submit (s : State) (q from_ : Nat) (p : List Byte) : State :=
  s.onPacket q from_ p fun x =>
    let k := field p 0x10 4
    let stamp := if nbit (field p 1 1) 1 then some ((field p 8 8 + field p 0x18 8) % 2 ^ 64) else none
    match s.trySubmit x.ctx k x.class_ stamp with
    | none => s.keepSubmit q x.ctx
    | some (s', status) => (s'.takePacket q from_).answer q p status
def execSubmit (s : State) : Host.Outcome State Fault Refusal := .next (s.submit (s.arg 0) (s.arg 1) s.cur.bytes)

def State.submitRetry (s : State) (q : Nat) : State :=
  let x := s.queue q
  if !x.retry then s
  else
    let s := s.modQ q fun x => { x with retry := false }
    let (from_, p) := match x.lane with
      | some p => (2, p)
      | none => (0, s.headPacket x)
    if packetOp p = 1 && s.packetOk x p (from_ == 0) then s.submit q from_ p else s.look_ q
def execSubmitRetry (s : State) : Host.Outcome State Fault Refusal := .next (s.submitRetry (s.arg 0))

def State.cancelPacket (s : State) (q from_ : Nat) (p : List Byte) : State :=
  s.onPacket q from_ p fun x =>
    ((s.modWinnow x.ctx fun w => { w with cancels := w.cancels ++ [field p 0x10 4] }).takePacket q from_).answer q p 0
def execCancel (s : State) : Host.Outcome State Fault Refusal := .next (s.cancelPacket (s.arg 0) (s.arg 1) s.cur.bytes)

/-! LAUNCH (R36, R37, R40, R63, R397). -/

/-- Every page of a range translates (R37). -/
def State.readable (s : State) (x va n : Nat) : Bool :=
  (List.range ((va + n - 1) / 32768 - va / 32768 + 1)).all fun i =>
    match s.ctxAddr x (max va ((va / 32768 + i) * 32768)) with
    | .ok _ => true
    | .error _ => false

/-- The launch record as the LAUNCH in progress keeps it. -/
def parseLaunch (b : List Byte) (record q tag : Nat) (silent : Bool) : Launch :=
  let f := field b
  let regs := f 9 1
  { record := record, image := f 0x10 8, levels := (List.range (f 2 1)).map fun k => f (0x40 + 8 * k) 8, strict := nbit (f 3 1) 0,
    deepest := f 5 1, vregs := f 6 1, tregs := f 7 1, lslots := f 8 1, accs := regs % 8, outs := nbits regs 4 2, mxmode := nbits regs 6 2,
    first := f 0x0A 2, start := f 0x18 8, slots := f 0x20 4, rows := f 0x24 4, position := f 0x28 4, draft := f 0x2C 4, window := f 0x30 4,
    windowLen := f 0x34 4, queue := q, tag := tag, silent := silent, armed := true }

/-- A saved sequencer's size (R63). -/
def Launch.savedSize (l : Launch) : Nat := 8192 + 64 * l.vregs + 8192 * l.tregs + 20480 * l.accs + 16384 * l.outs

/-- The record lies within the limits of R36, R37 and R63. A level's scope codes are 0 to 5: the record of a level that names 6, S, is refused, as the
assembler refuses the level (R185; log 55, DESIGN CHOICE: R36 and R124 leave the code open). -/
def recordOk (b : List Byte) (l : Launch) (x : Nat) : Bool :=
  let f := field b
  let n := f 2 1
  let level (k : Nat) : Bool :=
    let v := f (0x40 + 8 * k) 8
    if k < n then v % 256 ≤ 5 && v / 256 % 256 ≤ 5 && v / 65536 % 65536 == 0 && v / 2 ^ 32 != 0 else v == 0
  f 0 2 == 1 && 1 ≤ n && n ≤ 8 && f 3 1 ≤ 1 && f 4 1 == x && l.deepest ≤ 3 && 1 ≤ l.vregs && l.vregs ≤ 64 && l.tregs ≤ 8 && l.lslots ≤ 16 &&
  l.accs ≤ 4 && !nbit (f 9 1) 3 && l.outs ≤ 2 && l.image % 64 == 0 && 1 ≤ l.slots && l.slots ≤ 256 && 1 ≤ l.rows && l.rows ≤ 64 * l.slots &&
  1 ≤ l.position && l.position ≤ 2 ^ 31 && l.draft ≤ 63 && l.window % 64 == 0 && l.windowLen % 64 == 0 && l.windowLen ≤ 524288 &&
  l.window + l.windowLen ≤ 0x200000 && f 0x38 8 == 0 && f 0x80 64 == 0 && (List.range 8).all level &&
  2 * l.savedSize + l.windowLen ≤ 786432

/-- The image of a LAUNCH, by its fields (R40). `at_` reads a field at an offset of the image. -/
structure Image where
  at_ : Nat → Nat → Nat
  len : Nat

def Image.hdr (g : Image) (off n : Nat) : Nat := g.at_ off n
/-- The table whose offset stands at `h` begins in the image, and so do `k` entries of it of `size` bytes. -/
def Image.tableOk (g : Image) (h k size : Nat) : Bool := g.hdr h 4 % 8 == 0 && g.hdr h 4 + size * k ≤ g.len
def Image.field (g : Image) (h size k off n : Nat) : Nat := g.at_ (g.hdr h 4 + size * k + off) n

/-- A formula entry is within its limits, whoever names it. Of its eight term places only those of its count are held to them (log 70, DESIGN CHOICE). -/
def Image.formulaEntry (g : Image) (k : Nat) : Bool :=
  let f := g.field 0x1C 80 k
  f 4 1 ≤ 8 && f 5 11 == 0 && (List.range (f 4 1)).all fun j => f (0x16 + 8 * j) 1 ≤ 3 && f (0x17 + 8 * j) 1 == 0

/-- Index `k` names a formula, and its terms name tasks of a segment of `n` tasks. -/
def Image.formulaOk (g : Image) (k n : Nat) : Bool :=
  let f := g.field 0x1C 80 k
  k < g.hdr 0x0C 4 && (List.range (f 4 1)).all fun j => f (0x14 + 8 * j) 2 < n

/-- A trim rule of kind `kind` for a segment of `n` tasks (R43). -/
def Image.ruleOk (g : Image) (k kind n : Nat) : Bool :=
  let f := g.field 0x20 16 k
  f 0 1 == kind && f 1 1 ≤ 4 &&
  (match kind with
    | 0 => f 2 1 ≤ 3 && f 4 2 < n && 1 ≤ f 6 2
    | 1 => f 2 1 ≤ 31 && f 3 1 ≤ 5 && f 4 2 < n
    | _ => 32 ≤ f 2 1 && f 2 1 ≤ 63 && f 3 1 ≤ 5)

/-- A boundary entry for a segment of `n` tasks. A scope code is 0 to 5, the scopes of a boundary, or names a level of the launch (log 71, DESIGN CHOICE). -/
def Image.boundaryOk (g : Image) (k n levels : Nat) : Bool :=
  let f := g.field 0x24 16 k
  let sc := f 1 1
  f 0 1 ≤ 1 && (if nbit sc 7 then sc % 128 < levels else sc ≤ 5) && f 2 1 ≤ 32 && f 3 1 == 0 && f 0x0C 4 == 0 &&
  g.formulaOk (f 4 4) n && g.formulaOk (f 8 4) n

/-- A task entry is within its limits, whichever segment holds it, if any, in a partition of `seqs` sequencers. -/
def Image.taskEntry (g : Image) (k seqs : Nat) : Bool :=
  let f := g.field 0x18 32 k
  f 0 2 < seqs && f 2 2 ≤ 64 && f 4 4 % 4 == 0 && f 4 4 < 0x1000000 && f 8 4 < g.hdr 0x0C 4 && f 0x10 1 ≤ 4 && f 0x11 1 ≤ 32 && f 0x1C 4 == 0 &&
  g.tableOk 0x28 (f 0x0C 4 + f 2 2) 2 && g.tableOk 0x20 (f 0x14 4 + f 0x10 1 + f 0x11 1) 16 && g.tableOk 0x24 (f 0x18 4 + f 0x12 2) 16

/-- A task entry as one of a segment of `n` tasks. -/
def Image.taskOk (g : Image) (k n levels : Nat) : Bool :=
  let f := g.field 0x18 32 k
  g.formulaOk (f 8 4) n && ((List.range (f 2 2)).all fun i => g.field 0x28 2 (f 0x0C 4 + i) 0 2 < n) &&
  ((List.range (f 0x10 1)).all fun i => g.ruleOk (f 0x14 4 + i) 0 n) &&
  ((List.range (f 0x11 1)).all fun i => g.ruleOk (f 0x14 4 + f 0x10 1 + i) 1 n) &&
  ((List.range (f 0x12 2)).all fun i => g.boundaryOk (f 0x18 4 + i) n levels)

def Image.segmentOk (g : Image) (k levels : Nat) : Bool :=
  let f := g.field 0x14 32 k
  let n := f 4 2
  1 ≤ n && n ≤ 768 && f 0 4 + n ≤ g.hdr 8 4 && f 6 2 ≤ 32 && f 0x14 12 == 0 && g.formulaOk (f 0x0C 4) n && g.tableOk 0x20 (f 8 4 + f 6 2) 16 &&
  ((List.range (f 6 2)).all fun i => g.ruleOk (f 8 4 + i) 2 n) && ((List.range n).all fun i => g.taskOk (f 0 4 + i) n levels)

def Image.nodeOk (g : Image) (k : Nat) : Bool :=
  let f := g.field 0x10 16 k
  let n := g.hdr 2 2
  f 2 2 == 0 && f 0x0C 4 == 0 &&
  (match f 0 1 with
    | 0 => f 4 2 < g.hdr 4 2 && f 6 2 < n
    | 1 => f 1 1 ≤ 63 && f 4 2 < n && f 6 2 < n
    | 2 => f 1 1 ≤ 63 && f 4 2 < n && f 6 2 < n
    | 3 => true
    | _ => false)

/-- The image is as R40 asks: every entry of its counted tables within its limits, named or not. -/
def Image.ok (g : Image) (seqs levels : Nat) : Bool :=
  let h := g.hdr
  h 0 2 == 1 && 1 ≤ h 2 2 && h 2 2 ≤ 1024 && 1 ≤ h 4 2 && h 4 2 ≤ 4096 && h 6 2 == 0 && 1 ≤ h 8 4 && h 8 4 ≤ 2 ^ 20 && 1 ≤ h 0x0C 4 &&
  h 0x0C 4 ≤ 2 ^ 20 && h 0x30 16 == 0 && 64 ≤ g.len && g.tableOk 0x10 (h 2 2) 16 && g.tableOk 0x14 (h 4 2) 32 && g.tableOk 0x18 (h 8 4) 32 &&
  g.tableOk 0x1C (h 0x0C 4) 80 && g.tableOk 0x20 0 16 && g.tableOk 0x24 0 16 && g.tableOk 0x28 0 2 && ((List.range (h 2 2)).all g.nodeOk) &&
  ((List.range (h 0x0C 4)).all g.formulaEntry) && ((List.range (h 8 4)).all fun k => g.taskEntry k seqs) &&
  ((List.range (h 4 2)).all fun k => g.segmentOk k levels)

/-- The largest task count of a segment (R36). -/
def Image.most (g : Image) : Nat := ((List.range (g.hdr 4 2)).map fun k => g.field 0x14 32 k 4 2).foldl max 0

/-- The checks of a LAUNCH and the place of its partition: its refusal's code, or the launch with a bind record's place. -/
def State.checkLaunch (s : State) (x va q tag : Nat) (silent : Bool) : Except Nat (Launch × Bind) :=
  if !(x < 64 && (s.ctx x).created) || !s.readable x va 192 then .error 0x0902
  else
    let b := s.ctxBytes x va 192
    let l := parseLaunch b va q tag silent
    if !recordOk b l x || !s.readable x l.image 64 then .error 0x0902
    else
      let g : Image := { at_ := fun off n => s.imgField x l.image off n, len := s.imgField x l.image 0x2C 4 }
      if g.len = 0 || !s.readable x l.image g.len then .error 0x0902
      else if !(g.ok l.size l.levels.length && l.first < g.hdr 2 2 && field b 0x0C 4 == g.most) then .error 0x0902
      else match s.placeLaunch l (shapes (if l.size % 2 = 0 then l.size / 2 else 0)) fun _ => false with
        | .error code => .error code
        | .ok r => .ok (l, r)

/-- The lowest bind record that no context uses. -/
def State.freeBind (s : State) : Nat :=
  ((List.range 64).find? fun b => !(s.bind b).valid && !s.ctxs.any fun c => c.2.bind == some b).getD 63

/-- An accepted LAUNCH: its limits hold from now on (R70), iterations count from 0 (R85), the Granary binds the context. What the spec leaves open is marked in
log 55 (DESIGN CHOICE): one that is refused leaves the maximum position and draft width as they are; the condition word stays as an earlier LAUNCH of
the context left it; and until the first boundary the quantities are those last published, an earlier LAUNCH's included, or 0. -/
def State.acceptLaunch (s : State) (x q : Nat) (l : Launch) (r : Bind) : State :=
  let s := s.modCtx x fun c =>
    { c with launch := some l, part := .unbound, node := l.first, passes := [], prev := none, maxPos := l.position, maxDraft := l.draft, taskFault := none,
             taskFaults := 0, ending := none, winnow := { c.winnow with recheck := true, iteration := 0, published := 0 } }
  s.writeBind s.freeBind x (s.queue q).class_ l.record r

/-- A LAUNCH whose context has one that has not completed is not consumed (R313). -/
def State.launch (s : State) (q from_ : Nat) (p : List Byte) : State :=
  s.onPacket q from_ p fun x =>
    if s.launchOpen x.ctx then s.blockQueue q
    else match s.checkLaunch x.ctx (field p 0x10 8) q (packetTag p) (packetSilent p) with
    | .error code => (s.takePacket q from_).answer q p code
    | .ok (l, r) => (((s.takePacket q from_).opened q p).acceptLaunch x.ctx q l r).goOn q
/-- LAUNCH with argument 1 = 1 serves the event that completes the packet whose tag is argument 2, with the code of argument 3; else the packet is in hand. -/
def execLaunch (s : State) : Host.Outcome State Fault Refusal :=
  .next (if s.arg 1 = 1 then s.finishPacket (s.arg 0) (s.arg 2) 3 (s.arg 3) else s.launch (s.arg 0) (s.arg 1) s.cur.bytes)

/-! WAIT, FENCE (R313, R317, R391). -/

/-- The first open packet of an opcode completes. -/
def State.finishFirst (s : State) (q op status : Nat) : State :=
  match (s.queue q).open_.find? fun e => e.2.1 == op with
  | some e => s.finishPacket q e.1 op status e.2.2
  | none => s

/-- A consumed packet blocks its queue in hardware. -/
def State.blockOn (s : State) (q from_ : Nat) (p : List Byte) (w : Nat × Nat × Nat) : State :=
  let s := ((s.takePacket q from_).opened q p).modQ q fun x => { x with wait := some w }
  (s.blockQueue q).wakeWait q

/-- WAIT may name what its function may use: queues and the context of its own. -/
def State.waitAllowed (s : State) (x : Queue) (kind n : Nat) : Bool :=
  x.ctx == 0xFF || kind == 0 || (if kind = 1 then (s.queue n).ctx == x.ctx else n == x.ctx)

def State.waitPacket (s : State) (q from_ : Nat) (p : List Byte) : State :=
  s.onPacket q from_ p fun x =>
    let kind := field p 0x10 1
    let n := field p 0x14 4
    let v := field p 0x18 8
    if s.waitAllowed x kind n then
      let s := s.blockOn q from_ p (kind, n, v)
      if kind = 0 && s.gtick < v then s.at_ (v + Config.serviceDelay s.free % 240000) .waitConditionMet [q] |>.tickFree else s
    else (((s.takePacket q from_).completion q (packetTag p) 4 0x0903 (packetSilent p)).wakeWaits).queueError q 0x0903
def execWait (s : State) : Host.Outcome State Fault Refusal := .next (s.waitPacket (s.arg 0) (s.arg 1) s.cur.bytes)

/-- The block of a WAIT ends. -/
def State.waitEnds (s : State) (q : Nat) : State :=
  let x := s.queue q
  if s.inService q && s.waitMet x && x.wakeOp.1 == .waitConditionMet then
    (((s.modQ q fun x => { x with wait := none, blockedAt := none }).finishFirst q 4 0)).goOn q
  else s
def execWaitConditionMet (s : State) : Host.Outcome State Fault Refusal := .next (s.waitEnds (s.arg 0))

def State.waitTimeout (s : State) (q : Nat) : State :=
  let x := s.queue q
  if x.mapped && (x.blockedAt.map fun b => decide (b + 1200000 ≤ s.gtick)).getD false then s.setQueue q x.unmap else s
def execWaitUnmapTimeout (s : State) : Host.Outcome State Fault Refusal := .next (s.waitTimeout (s.arg 0))

/-- FENCE_PACKET: argument 1 is 1 when every earlier packet has completed, else the packet in hand. -/
def State.fencePacket (s : State) (q phase : Nat) (p : List Byte) : State :=
  if phase = 1 then
    let x := s.queue q
    if s.inService q && s.waitMet x && x.wakeOp.1 == .fencePacket then
      ((s.modQ q fun x => { x with wait := none, blockedAt := none }).finishFirst q 7 0).goOn q
    else s
  else s.onPacket q phase p fun _ => s.blockOn q phase p (3, 0, 0)
def execFencePacket (s : State) : Host.Outcome State Fault Refusal := .next (s.fencePacket (s.arg 0) (s.arg 1) s.cur.bytes)

/-! Timers (R321, R322, R392). -/

def State.timer (s : State) (k : Nat) : Timer := mget {} s.timers k
def State.setTimer (s : State) (k : Nat) (t : Timer) : State := { s with timers := mset {} s.timers k t }

/-- The wheel turns while some timer is armed. -/
def State.turnWheel (s : State) : State :=
  if s.agenda.any (·.op == .timerWheelTick) || !s.timers.any fun e => e.2.armed || e.2.pending.isSome then s
  else s.at_ ((s.gtick / 1024 + 1) * 1024) .timerWheelTick []

def State.armTimer (s : State) (q from_ : Nat) (p : List Byte) : State :=
  s.onPacket q from_ p fun x =>
    let packet := s.busBytes (field p 0x20 8) 64
    let target := field p 0x28 4
    let y := s.queue target
    let status := if packetOp packet = 5 then 0x0903 else if y.ctx != x.ctx || y.state != 1 then 0x0907 else 0
    let t : Timer := { armed := true, first := field p 0x10 8, period := field p 0x18 8, queue := target, packet := packet }
    let s := if status = 0 then (s.setTimer (field p 0x2C 2) t).turnWheel else s
    (s.takePacket q from_).answer q p status
def execArmTimer (s : State) : Host.Outcome State Fault Refusal := .next (s.armTimer (s.arg 0) (s.arg 1) s.cur.bytes)

/-- Disarming discards the pending release (R392). -/
def State.disarm (s : State) (q from_ : Nat) (p : List Byte) : State :=
  s.onPacket q from_ p fun _ => ((s.setTimer (field p 0x2C 2) {}).takePacket q from_).answer q p 0
def execTimerDisarm (s : State) : Host.Outcome State Fault Refusal := .next (s.disarm (s.arg 0) (s.arg 1) s.cur.bytes)

/-- The releases of a timer whose wheel tick is `w`: the first one's number and how many. -/
def Timer.due (t : Timer) (w : Nat) : Nat × Nat :=
  if !t.armed || w < t.first then (0, 0)
  else
    let lo := if w < t.first + 1024 then 0 else if t.period = 0 then 1 else (w - 1024 - t.first) / t.period + 1
    let hi := if t.period = 0 then 0 else (w - t.first) / t.period
    if hi < lo then (0, 0) else (lo, hi + 1 - lo)

/-- A timer at wheel tick `w`: a release is created or counted as missed. -/
def Timer.turn (t : Timer) (w : Nat) : Timer :=
  let (n, k) := t.due w
  if k = 0 then t
  else match t.pending with
  | none => { t with pending := some ((t.first + n * t.period) % 2 ^ 64, min 65535 (k - 1)), n := n + k }
  | some (stamp, missed) => { t with pending := some (stamp, min 65535 (missed + k)), n := n + k }

/-- A pending release enters its queue's lane. -/
def State.deliver (s : State) (k : Nat) : State :=
  let t := s.timer k
  let x := s.queue t.queue
  match t.pending with
  | none => s
  | some (stamp, missed) =>
    let bound := ((s.ctx x.ctx).bind.map fun b => (s.bind b).active).getD false
    if x.state = 1 && x.lane.isNone && bound then
      let p := t.packet.take 2 ++ leBytes 2 missed ++ (t.packet.drop 4).take 4 ++ leBytes 8 stamp ++ t.packet.drop 16
      (s.setTimer k { t with pending := none, armed := t.armed && t.period != 0 }).modQ t.queue fun x => { x with lane := some p }
    else s

/-- TIMER_WHEEL_TICK: every timer in slot order, so that of two for one queue the lower slot fills its lane (log 90, DESIGN CHOICE); a device without supply has no wheel (R399). -/
def State.wheelTick (s : State) : State :=
  if s.powerLost then s
  else
    let w := s.gtick
    let s := s.timers.foldl (fun (s : State) e => (s.setTimer e.1 (e.2.turn w)).deliver e.1) s
    s.turnWheel
def execTimerWheelTick (s : State) : Host.Outcome State Fault Refusal := .next s.wheelTick

/-! WEIGHT_WRITE (R313, R398). -/

/-- A region of MRAM may be written by a context: it has no owner tag, or the context has it unlocked. -/
def State.ownsRegion (s : State) (x k : Nat) : Bool :=
  match s.owners.lookup k with
  | none => true
  | some (_, ctx) => ctx == some x

/-- The source bytes: global addresses of the queue's context, bus addresses of the management context's queues (log 25, DEDUCED). -/
def State.sourceBytes (s : State) (x a n : Nat) : List Byte := if x < 64 then s.ctxBytes x a n else s.busBytes a n

/-- One put for each logical row touched. -/
def rowPuts (off : Nat) (bs : List Byte) (tick : Nat) : List Put :=
  (List.range ((off + bs.length - 1) / 1024 - off / 1024 + 1)).map fun i =>
    let row := off / 1024 + i
    let lo := max off (row * 1024)
    let hi := min (off + bs.length) (row * 1024 + 1024)
    { row := row, offset := lo % 1024, bytes := (bs.drop (lo - off)).take (hi - lo), issued := tick }

/-- Queue puts while the journal has room, and commit after the last. -/
def State.feedWrite (s : State) (w : WeightWrite) : State × WeightWrite :=
  let n := 16 - (s.journal w.tile).puts.length
  -- a put's issue tick is that at which it joins the queue (R407)
  let s := (w.rest.take n).foldl (fun (s : State) p => s.journalPut w.tile { p with issued := s.gtick } (0x8000000 + 1024 * p.row + p.offset)) s
  let w := { w with rest := w.rest.drop n }
  if w.rest.isEmpty && !w.committed && (s.journal w.tile).puts.isEmpty then (s.journalCommit w.tile, { w with committed := true }) else (s, w)

/-- The transaction of a WEIGHT_WRITE has ended: with 0, committed, or with its failure's code. -/
def State.writeCode (s : State) (q : Nat) (w : WeightWrite) : Option Nat :=
  let j := s.journal w.tile
  if j.queue ≠ some q then (if w.committed then some 0 else none) else if j.st = .failed then some j.code else none

/-- A WEIGHT_WRITE that has ended completes with a status, and a failed journal is IDLE again. -/
def State.endWrite (s : State) (q : Nat) (w : WeightWrite) (status : Nat) : State :=
  (if (s.journal w.tile).queue = some q then s.modJournal w.tile Journal.toIdle else s).finishPacket q w.tag 6 status w.silent

/-- A WEIGHT_WRITE in progress goes on, or completes with 0 or 0x0503. -/
def State.stepWrite (s : State) (q : Nat) (w : WeightWrite) : State × Option WeightWrite :=
  match s.writeCode q w with
  | some code => (s.endWrite q w code, none)
  | none =>
    if (s.journal w.tile).queue ≠ some q then (s, none)
    else
      let (s, w) := s.feedWrite w
      (s, some w)

/-- Every WEIGHT_WRITE of the queue takes its step. -/
def State.stepWrites (s : State) (q : Nat) : State :=
  let (s, ws) := (s.queue q).writes.foldl (fun (a : State × List WeightWrite) w =>
    let (s', w') := a.1.stepWrite q w
    (s', a.2 ++ w'.toList)) (s, [])
  s.modQ q fun x => { x with writes := ws }

/-- A WEIGHT_WRITE waits while a transaction is open on its tile, one that its own queue has not yet completed included (R313). -/
def State.writeWaits (s : State) (x : Queue) (t : Nat) : Bool :=
  decide ((s.journal t).st ≠ .idle) || (s.tile t).opening || x.writes.any fun w => w.tile == t

/-- WEIGHT_WRITE: argument 1 is 1 when a journal has news for the queue, else the packet in hand. -/
def State.weightWrite (s : State) (q phase : Nat) (p : List Byte) : State :=
  if phase = 1 then s.stepWrites q
  else s.onPacket q phase p fun x =>
    let t := field p 0x18 2
    let off := field p 0x20 4
    let bs := s.sourceBytes x.ctx (field p 0x10 8) (field p 0x1C 4)
    let puts := rowPuts off bs s.gtick
    if !(puts.all fun u => s.ownsRegion x.ctx (16 * t + u.row / 1024)) then (s.takePacket q phase).answer q p 0x0C01
    else if s.writeWaits x t then s.blockQueue q
    else
      let s := s.journalOpen t 2 x.ctx puts.length (some q)
      if (s.journal t).st = .idle then (s.takePacket q phase).answer q p 0x0504
      else
        let s := (s.takePacket q phase).opened q p
        let (s, w) := s.feedWrite { tile := t, tag := packetTag p, silent := packetSilent p, rest := puts }
        (s.modQ q fun x => { x with writes := x.writes ++ [w] }).goOn q
def execWeightWrite (s : State) : Host.Outcome State Fault Refusal := .next (s.weightWrite (s.arg 0) (s.arg 1) s.cur.bytes)

/-! Queue states (R310, R311). -/

/-- TAIL_WRITE: the register takes bits [31:0]; the thread reads it when it looks. -/
def State.tailWrite (s : State) (f q v : Nat) : State :=
  if s.reaches f (s.queue q) then s.modQ q fun x => { x with tailReg := v % 2 ^ 32 } else s
def execTailWrite (s : State) : Host.Outcome State Fault Refusal := .next (s.tailWrite (s.arg 0) (s.arg 1) (s.arg 2))

/-- A power of two from 16 to 65 536. -/
def sizeOk (n : Nat) : Bool := (List.range 13).any fun k => n == 2 ^ (k + 4)

/-- The host fields of a QCB lie within their limits. -/
def Queue.fieldsOk (x : Queue) : Bool := x.base % 64 == 0 && sizeOk x.size && x.class_ ≤ 3 && (x.ctx < 64 || x.ctx == 0xFF) && x.ring % 16 == 0

/-- QUEUE_ENABLE. -/
def State.queueEnable (s : State) (f q : Nat) : State :=
  let x := s.queue q
  if x.state ≠ 0 || !s.reaches f x then s
  else if s.regs.lock && s.regs.bootstep == 0xFF && x.commit == x.crc && x.fieldsOk then
    let y := { x with state := 1, head := x.tailReg, tail := x.tailReg, error := 0 }
    s.setQueue q { y with shadow := y.commitImage x.shadow.record }.seal
  else s.setQueue q { x with error := 0x0908 }.seal
def execQueueEnable (s : State) : Host.Outcome State Fault Refusal := .next (s.queueEnable (s.arg 0) (s.arg 1))

/-- QUEUE_DISABLE: once the packet being consumed completes. -/
def State.queueDisable (s : State) (f q : Nat) : State :=
  let x := s.queue q
  if !s.reaches f x || x.state = 0 then s
  else if x.state = 1 && (x.busy || x.wait.isSome) then s.setQueue q { x with stopping := true }
  else s.setQueue q { x.unmap with state := 0, retry := false, stopping := false }.seal
def execQueueDisable (s : State) : Host.Outcome State Fault Refusal := .next (s.queueDisable (s.arg 0) (s.arg 1))

/-! Mapping (R316). -/

def State.mappedCount (s : State) : Nat := (s.queues.filter fun e => e.2.mapped).length

/-- What a mapped queue's head packet waits for has come (R313). -/
def State.unblocked (s : State) (x : Queue) : Bool :=
  x.mapped && x.blockedAt.isSome && x.wait.isNone && !x.busy && !x.retry && x.state == 1 && s.serves x.ctx &&
    (let p := x.lane.getD (s.headPacket x)
     match packetOp p with
     | 3 => !s.launchOpen x.ctx
     | 6 => !s.writeWaits x (field p 0x18 2)
     | _ => true)

/-- The queue mapped next: class order, then round-robin from the queue mapped last in the class. -/
def State.mapNext (s : State) : Option Nat :=
  match s.queues.find? fun e => s.unblocked e.2 with
  | some e => some e.1
  | none =>
    if 128 ≤ s.mappedCount then none
    else
      let ready := s.queues.filter fun e => s.wantsThread e.2
      ((sortKey [] (ready.map fun e => (e.2.class_ * 131072 + (e.1 + 65535 - mget 65535 s.lastMapped e.2.class_) % 65536, e.1))).head?).map (·.2)

/-- QUEUE_MAP of queue `q`. -/
def State.queueMap (s : State) (q : Nat) : State :=
  let x := s.queue q
  if x.mapped then (if s.unblocked x then s.look_ q else s)
  else if s.wantsThread x && s.mappedCount < 128 then
    let s' : State := { s with lastMapped := mset 65535 s.lastMapped x.class_ q }
    (s'.setQueue q { x with mapped := true, served := 0 }).look_ q
  else s
def execQueueMap (s : State) : Host.Outcome State Fault Refusal := .next (s.queueMap (s.arg 0))

/-! The watchdog (R391). -/

/-- An agenda entry is a watched stretch of the thread of queue `q`: a packet in hand, or the event that completes one. -/
def State.ofThread (s : State) (q : Nat) (e : Timed) : Bool :=
  e.args.head? == some q &&
    (match e.op with
    | .submit => true
    | .cancel => true
    | .launch => true
    | .wait => true
    | .armTimer => true
    | .timerDisarm => true
    | .fencePacket => true
    | .waitConditionMet => true
    | .weightWrite => e.args.getD 1 0 != 1 || (s.queue q).writes.any fun w => (s.writeCode q w).isSome
    | _ => false)

/-- The QCB rewritten from the shadow image, but for the completed count. -/
def Queue.rewritten (x : Queue) : Queue :=
  let h := x.shadow
  { x with base := h.base, size := h.size, head := h.head, tail := h.tail, class_ := h.class_, state := h.state, ctx := h.ctx, irq := h.irq, ring := h.ring,
           vector := h.vector, error := h.error }

/-- A restart checks the QCB against its commit word, and writes the completion record that the shadow image has and the completed field lacks. -/
def State.recoverQcb (s : State) (q : Nat) : State :=
  let x := s.queue q
  let s := if x.commit = x.crc then s else s.setQueue q x.rewritten.seal
  if x.completed ≠ x.shadow.completed && (x.completed + 1) % 2 ^ 32 = x.shadow.completed then s.postRecord q x.shadow.record else s

/-- The packet in hand is consumed and completed with 0x0903. -/
def State.giveUpHead (s : State) (q : Nat) (e : Timed) : State :=
  (s.takePacket q (e.args.getD 1 0)).completion q (packetTag e.bytes) (packetOp e.bytes) 0x0903 (packetSilent e.bytes)

/-- The packet of a stretch that was restarted three times completes with 0x0903. -/
def State.giveUp (s : State) (q : Nat) (e : Timed) : State :=
  match e.op with
  | .waitConditionMet => s.finishFirst q 4 0x0903
  | .fencePacket => if e.args.getD 1 0 = 1 then s.finishFirst q 7 0x0903 else s.giveUpHead q e
  | .launch => if e.args.getD 1 0 = 1 then s.finishPacket q (e.args.getD 2 0) 3 0x0903 else s.giveUpHead q e
  | .weightWrite =>
    if e.args.getD 1 0 = 1 then
      let (gone, kept) := (s.queue q).writes.partition fun w => (s.writeCode q w).isSome
      (gone.foldl (fun (s : State) w => s.endWrite q w 0x0903) s).modQ q fun x => { x with writes := kept }
    else s.giveUpHead q e
  | _ => s.giveUpHead q e

/-- GRANARY_WATCHDOG_EXPIRY of the thread of queue `q`: the first stretch that it has in hand runs again, within 20 µs, or, once restarted three times on that stretch,
the packet completes with 0x0903 and the queue enters ERROR. -/
def State.watchdog (s : State) (q : Nat) : State :=
  match s.agenda.find? (s.ofThread q) with
  | none => s
  | some e =>
    let n := e.restarts + 1
    let s' := ({ s with agenda := s.agenda.erase e } : State).recoverQcb q
    if n < 3 then
      let t := s.gtick + 1 + Config.serviceDelay s.free % 24000
      ({ s' with agenda := insertTimed { e with tick := t, restarts := n } s'.agenda } : State).tickFree
    else ((s'.giveUp q e).wakeWaits).queueError q 0x0903
def execGranaryWatchdogExpiry (s : State) : Host.Outcome State Fault Refusal := .next (s.watchdog (s.arg 0))

end Sys2Proof.Machine
end

