-- ==== Sys2Proof/Machine/Ingress.lean ====
section
/-! DEFINITION. Ethernet ingress and its rings (R324 to R327, R395), and PTP time (R41, R323, R324). -/
namespace Sys2Proof.Machine

/-! PTP time (R41, R323, R324). -/

/-- PTP time at a tick, by the pair in force. -/
def DeviceRegs.ptpAt (r : DeviceRegs) (tick : Nat) : Nat := (r.refPtp + (tick - r.refTick) * r.refRate / 2 ^ 40) % 2 ^ 64

/-- PTP time at a tick, from the last lock. -/
def DeviceRegs.lockedAt (r : DeviceRegs) (tick : Nat) : Nat := (r.lockPtp + (tick - r.lockTick) * r.lockRate / 2 ^ 40) % 2 ^ 64

/-- Nanoseconds per tick of a clock within 50 ppm of 1.2 GHz, as a fraction of 2^40 (R41, R306). -/
def nominalRate : Nat := 0xD555555555
def rateWithin (r : Nat) : Nat :=
  let lo := nominalRate * 1000000 / 1000050
  let hi := nominalRate * 1000000 / 999950
  if r < lo then lo else if hi < r then hi else r

/-- PTP_EVENT_MESSAGE with the PTP time of argument 0: the discipline has its lock at this tick (log 28, DESIGN CHOICE). -/
def State.ptpEvent (s : State) (tm : Nat) : State :=
  if s.powerLost then s
  else ({ s with regs := { s.regs with lockTick := s.gtick, lockPtp := tm % 2 ^ 64, lockRate := rateWithin (Config.ptpRate s.free),
                                        lockStat := 1 } } : State).tickFree
def execPtpEventMessage (s : State) : Host.Outcome State Fault Refusal := .next (s.ptpEvent (s.arg 0))

/-- PTP_TIME_LOST: the clock holds its last frequency, and a lock becomes a holdover. -/
def State.ptpLost (s : State) : State :=
  if s.regs.lockStat = 1 then { s with regs := { s.regs with lockStat := 2 } } else s
def execPtpTimeLost (s : State) : Host.Outcome State Fault Refusal := .next s.ptpLost

/-- PTP_REFERENCE_RENEWAL: the pair takes the time of this tick; the next renewal is 2^20 ticks away. -/
def State.ptpRenew (s : State) : State :=
  if s.powerLost then s
  else
    let r := s.regs
    ({ s with regs := { r with refTick := s.gtick, refPtp := r.lockedAt s.gtick, refRate := r.lockRate, refStat := r.lockStat } } : State).after
      (2 ^ 20) .ptpReferenceRenewal
def execPtpReferenceRenewal (s : State) : Host.Outcome State Fault Refusal := .next s.ptpRenew

/-- GTREF_READ: PTPREF, RATE and PTPSTAT take the values of one pair (R323, R336). -/
def State.gtrefRead (s : State) : State :=
  let r := s.regs
  { s with regs := { r with gtref := r.refTick, ptpref := r.refPtp, rate := r.refRate, ptpstat := r.refStat } }
def execGtrefRead (s : State) : Host.Outcome State Fault Refusal := .next s.gtrefRead

/-! Rings (R325 to R327). -/

def State.ring (s : State) (r : Nat) : Ring := mget {} s.rings r
def State.setRing (s : State) (r : Nat) (x : Ring) : State := { s with rings := mset {} s.rings r x }
def State.modRing (s : State) (r : Nat) (f : Ring → Ring) : State := s.setRing r (f (s.ring r))

/-- The fields of a ring lie within their limits. -/
def State.ringOk (s : State) (x : Ring) : Bool :=
  sizeOk x.count && x.base % (64 * x.count) == 0 && x.base + 64 * x.count ≤ s.sheaf.populated && x.readAddr % 4 == 0 &&
  x.readAddr + 4 ≤ s.sheaf.populated && x.ctx < 64 && (s.ctx x.ctx).created && x.matchOffset ≤ 40 && x.matchLen ≤ 8 && 1 ≤ x.type &&
  x.type ≤ 0xEF

/-- RING_START of ring `r`: ignored unless the ring is STOPPED and its fields are valid. -/
def State.ringStart (s : State) (r : Nat) : State :=
  let x := s.ring r
  if r < 128 && x.state = 0 && s.ringOk x then s.setRing r { x with state := 1 } else s
def execRingStart (s : State) : Host.Outcome State Fault Refusal := .next (s.ringStart (s.arg 0))

/-- RING_STOP of ring `r`. -/
def State.ringStop (s : State) (r : Nat) : State := if r < 128 then s.modRing r fun x => { x with state := 0 } else s
def execRingStop (s : State) : Host.Outcome State Fault Refusal := .next (s.ringStop (s.arg 0))

/-- The filter of a ring (R325); a payload that ends before the match does matches none (log 89, DESIGN CHOICE). -/
def Ring.takes (x : Ring) (ty : Nat) (bs : List Byte) : Bool :=
  x.etherType == ty && x.matchOffset + x.matchLen ≤ bs.length && field bs x.matchOffset x.matchLen == x.matchVal % 2 ^ (8 * x.matchLen)

/-- One slot of a frame (R326): its header, and its payload filled up with zeros. -/
def slotHeader (type s k n len tm : Nat) : List Byte :=
  leBytes 1 type ++ leBytes 1 ((if k = 0 then 1 else 0) + (if k + 1 = n then 2 else 0)) ++ leBytes 2 (min 48 (len - 48 * k)) ++
  leBytes 4 s ++ leBytes 8 tm
def slotPayload (bs : List Byte) (k : Nat) : List Byte :=
  let p := (bs.drop (48 * k)).take 48
  p ++ leBytes (48 - p.length) 0

/-- Slot `k` of `n` of a frame is written, payload first, header last. -/
def State.writeSlot (s : State) (r n tm : Nat) (bs : List Byte) (k : Nat) : State :=
  let x := s.ring r
  let w := (x.write + k) % 2 ^ 32
  let a := x.base + 64 * (w % x.count)
  (s.stageExternal x.ctx (portAgent (r / 64)) (a + 16) (slotPayload bs k)).stageExternal x.ctx (portAgent (r / 64)) a
    (slotHeader x.type w k n bs.length tm)

/-- The whole frame is dropped and counted (R327). -/
def Ring.drop (x : Ring) : Ring := { x with drops := (x.drops + 1) % 2 ^ 32 }

/-- An invalid read index `i` (R327): ERROR with its record; the Granary repairs the ring. -/
def State.ringError (s : State) (r i : Nat) : State :=
  let x := s.ring r
  let s := s.setRing r { x.drop with state := 2 }
  let f : FaultInfo := { code := 0x0912, detail := r, aux0 := x.write, aux1 := i }
  ((s.record x.ctx { info := f, level := 7, tick := s.gtick }).after (1 + Config.serviceDelay s.free) .ringRepair [r]).tickFree

/-- A frame for ring `r`. -/
def State.ringFrame (s : State) (r tm : Nat) (bs : List Byte) : State :=
  let x := s.ring r
  let i := leNat (s.physBytes x.readAddr 4)
  let n := ceilDiv bs.length 48
  if x.state ≠ 1 then s.setRing r x.drop
  else if x.count < (x.write + 2 ^ 32 - i) % 2 ^ 32 then s.ringError r i
  else if x.count < (x.write + n + 2 ^ 32 - i) % 2 ^ 32 then s.setRing r x.drop
  else ((List.range n).foldl (fun (s : State) k => s.writeSlot r n tm bs k) s).setRing r { x with write := (x.write + n) % 2 ^ 32 }

/-- The ring of a port that a frame goes to: the lowest-numbered one, RUNNING or in ERROR, whose filter it matches. -/
def State.frameRing (s : State) (port ty : Nat) (bs : List Byte) : Option Nat :=
  (List.range 64).map (64 * port + ·) |>.find? fun r => (s.ring r).state != 0 && (s.ring r).takes ty bs

/-- Whether a ring drops every frame since its context's function is in ERROR (R396). -/
def State.ringBarred (s : State) (r : Nat) : Bool := s.tdiError (s.ring r).ctx

/-- ETHERNET_FRAME at a port, of an EtherType, received at time `tm`. The stamp is `tm` under a lock, else the pair's extrapolation (R323). A
device without supply drops it uncounted (R399), and ports that boot has not brought up take none (R333). -/
def State.frame (s : State) (port ty tm : Nat) (bs : List Byte) : State :=
  if s.powerLost || !s.portsUp || 2 ≤ port then s
  else match s.frameRing port ty bs with
  | none => s
  | some r =>
    if s.ringBarred r then s.modRing r Ring.drop
    else s.ringFrame r (if s.regs.refStat = 1 then tm % 2 ^ 64 else s.regs.ptpAt s.gtick) bs
def execEthernetFrame (s : State) : Host.Outcome State Fault Refusal :=
  .next (s.frame (s.arg 0) (s.arg 1) (s.arg 2) s.cur.bytes)

/-! Repair (R395). -/

/-- The read index that a reported slot leaves. -/
def Ring.repaired (x : Ring) (sq : Nat) : Nat :=
  let i := (sq + 1) % 2 ^ 32
  if (x.write + 2 ^ 32 - i) % 2 ^ 32 ≤ x.count then i else x.write

/-- RING_REPAIR of ring `r`: after an invalid read index no more arguments; after a report the slot's sequence and the reporting context, whose ring it
must be. On a report the Granary first sets the ring to ERROR; its writes and the return to RUNNING follow in a second act (`second`). A ring stopped
meanwhile stays so. -/
def State.ringRepair (s : State) (r : Nat) (report : Option (Nat × Nat)) (second : Bool) : State :=
  let x := s.ring r
  if x.state = 0 || 128 ≤ r || s.powerLost then s
  else match report with
  | none =>
    if x.state = 2 then (s.stageExternal x.ctx granaryAgent x.readAddr (leBytes 4 x.write)).setRing r { x with state := 1 } else s
  | some (sq, c) =>
    if c ≠ x.ctx then s
    else if !second then
      ((s.setRing r { x with state := 2 }).after (1 + Config.serviceDelay s.free) .ringRepair [r, sq, c, 1]).tickFree
    else
      let s := s.stageExternal x.ctx granaryAgent (x.base + 64 * (sq % x.count)) (leBytes 16 0)
      (s.stageExternal x.ctx granaryAgent x.readAddr (leBytes 4 (x.repaired sq))).setRing r { x with state := 1 }
def execRingRepair (s : State) : Host.Outcome State Fault Refusal :=
  .next (s.ringRepair (s.arg 0) (match s.cur.args with
    | _ :: sq :: c :: _ => some (sq, c)
    | _ => none) (s.arg 3 = 1))

end Sys2Proof.Machine
end

