-- ==== Sys2Proof/Machine/DeviceRegs.lean ====
section
/-! DEFINITION. BAR0 (R305 to R310, R325): feature lock, host writes, host reads; and the TDISP interfaces of the virtual functions (R330, R331,
R334, R396). -/
namespace Sys2Proof.Machine

/-! Interfaces (R330, R396). -/

def State.setTdi (s : State) (f : Nat) (x : Tdi) : State := { s with tdis := mset {} s.tdis f x }
def State.modTdi (s : State) (f : Nat) (g : Tdi → Tdi) : State := s.setTdi f (g (s.tdi f))

/-- The configuration of a context is frozen: its function, VF x + 1, is not CONFIG_UNLOCKED. -/
def State.frozenCtx (s : State) (x : Nat) : Bool := decide (x < 64) && (s.tdi (x + 1)).st != .unlocked

/-- The context in ERROR is halted at context level and saved; one whose restore is under way is left in its shadow SRAM; one that waits for its bind
waits no more (R396). -/
def State.suspend (s : State) (x : Nat) : State :=
  let c := s.ctx x
  let noBind (s : State) : State := match c.bind with
    | some b => s.modBind b fun r => { r with valid := false, active := false }
    | none => s
  match c.part with
  | .running => s.endPartition x 3 0x0C02
  | .halting => s.endPartition x 3 0x0C02
  | .halted =>
    if c.ending.isSome then s.modCtx x fun c => { c with ending := some (3, 0x0C02) }
    else
      let s := c.tiles.foldl (fun (s : State) t => s.modTile t fun z => { z with ctx := none, halt := none }) s
      (noBind s).modCtx x fun c => { c with part := .suspended }
  | .swapped => (noBind s).modCtx x fun c => { c with part := .suspended }
  | .unbound => noBind s
  | .suspended => s

/-- A locked or running interface enters ERROR, with the record of its context. -/
def State.tdiFail (s : State) (f : Nat) : State :=
  let x := f - 1
  if (s.tdi f).st = .locked || (s.tdi f).st = .run then
    let s := s.modTdi f fun t => { t with st := .error }
    (s.record x { info := { code := 0x0C02, unit := 255 }, level := 3, tick := s.gtick }).suspend x
  else s

/-- IDE_FAILURE of the stream of function `f`. -/
def execIdeFailure (s : State) : Host.Outcome State Fault Refusal := .next (s.tdiFail (s.arg 0))

/-! Feature negotiation (R307). -/

/-- FEATURE_LOCK: LOCK = 1 is written. -/
def State.featureLock (s : State) : State :=
  let r := s.regs
  if r.lock then s
  else
    let ok := r.sel0 &&& ~~~ Config.offer0 = 0 && r.sel1 = 0
    { s with regs := { r with lock := ok, selerr := !ok } }
def execFeatureLock (s : State) : Host.Outcome State Fault Refusal := .next s.featureLock

/-! Writes (R306, R309, R310, R325). -/

/-- Bytes `new` stand over a string from offset `o` on, where the host may write. -/
def overlay (old : List Byte) (o : Nat) (new : List Byte) (host : Nat → Bool) : List Byte :=
  old.zipIdx.map fun e => if o ≤ e.2 && e.2 < o + new.length && host e.2 then new.getD (e.2 - o) 0 else e.1

/-- A write reaches a byte range. -/
def touches (o n lo hi : Nat) : Bool := decide (o < hi) && decide (lo < o + n)

/-- The 64 bytes of a QCB. -/
def Queue.image (x : Queue) : List Byte := x.toBytes ++ leBytes 4 x.commit
/-- Host fields of a QCB but its state. -/
def qcbHost (k : Nat) : Bool :=
  k < 0x0C || k == 0x14 || k == 0x16 || k == 0x17 || (0x18 ≤ k && k < 0x20) || k == 0x24 || k == 0x25 || 0x3C ≤ k

/-- The host fields of a QCB image. -/
def Queue.withHost (x : Queue) (b : List Byte) : Queue :=
  { x with base := field b 0 8, size := field b 8 4, class_ := field b 0x14 1, ctx := field b 0x16 1, irq := nbit (field b 0x17 1) 0,
           ring := field b 0x18 8, vector := field b 0x24 2, commit := field b 0x3C 4 }

/-- A write to a queue's QCB: no effect but ERROR where it is frozen (all fields but state), or would give a frozen context a queue; none unless
the queue is DISABLED. -/
def State.qcbWrite (s : State) (f q o : Nat) (bs : List Byte) : State :=
  let x := s.queue q
  let y := x.withHost (overlay x.image o bs qcbHost)
  let beside := touches o bs.length 0 0x15 || touches o bs.length 0x16 0x40
  if !s.reaches f x then s
  else if beside && s.frozenCtx x.ctx then s.tdiFail (x.ctx + 1)
  else if y.ctx != x.ctx && s.frozenCtx y.ctx then s.tdiFail (y.ctx + 1)
  else if x.state ≠ 0 then s
  else s.setQueue q y

/-- The 64 bytes of a ring descriptor. -/
def Ring.image (x : Ring) : List Byte :=
  leBytes 8 x.base ++ leBytes 4 x.count ++ leBytes 4 x.write ++ leBytes 8 x.readAddr ++ leBytes 1 x.ctx ++ leBytes 1 x.state ++
  leBytes 2 x.etherType ++ leBytes 4 x.drops ++ leBytes 1 x.matchOffset ++ leBytes 1 x.matchLen ++ leBytes 1 x.type ++ leBytes 5 0 ++
  leBytes 8 x.matchVal ++ leBytes 16 0
def ringHost (k : Nat) : Bool :=
  k < 0x0C || (0x10 ≤ k && k < 0x19) || k == 0x1A || k == 0x1B || (0x20 ≤ k && k < 0x23) || (0x28 ≤ k && k < 0x30)
def Ring.withHost (x : Ring) (b : List Byte) : Ring :=
  { x with base := field b 0 8, count := field b 8 4, readAddr := field b 0x10 8, ctx := field b 0x18 1, etherType := field b 0x1A 2,
           matchOffset := field b 0x20 1, matchLen := field b 0x21 1, type := field b 0x22 1, matchVal := field b 0x28 8 }

/-- A write to a ring's descriptor: a change of a frozen assignment is ERROR (R331); else only while the ring is STOPPED. -/
def State.ringWrite (s : State) (r o : Nat) (bs : List Byte) : State :=
  let x := s.ring r
  let y := x.withHost (overlay x.image o bs ringHost)
  if y.ctx != x.ctx && s.frozenCtx x.ctx then s.tdiFail (x.ctx + 1)
  else if y.ctx != x.ctx && s.frozenCtx y.ctx then s.tdiFail (y.ctx + 1)
  else if x.state ≠ 0 then s
  else s.setRing r y

/-- The word of the shares. -/
def DeviceRegs.shares (r : DeviceRegs) : Nat := r.share1 + 65536 * r.share2 + 2 ^ 32 * r.share3

/-- A write to the device registers: SEL0 and SEL1 until LOCK holds; shares whose sum exceeds 1000 are ignored as a whole. -/
def DeviceRegs.write (r : DeviceRegs) (o : Nat) (bs : List Byte) : DeviceRegs :=
  let into (old base : Nat) : Nat := leNat ((leBytes 8 old).zipIdx.map fun e =>
    if o ≤ base + e.2 && base + e.2 < o + bs.length then bs.getD (base + e.2 - o) 0 else e.1)
  let sh := into r.shares 0x80
  let a := nbits sh 0 16
  let b := nbits sh 16 16
  let c := nbits sh 32 16
  let r := if r.lock then r
    else { r with sel0 := BitVec.ofNat 64 (into r.sel0.toNat 0x10), sel1 := BitVec.ofNat 64 (into r.sel1.toNat 0x18) }
  if a + b + c ≤ 1000 then { r with share1 := a, share2 := b, share3 := c } else r

/-- DEVICE_REGISTER_WRITE by function `f` at an offset of its BAR0, `n` bytes of a value, 1 to 8 (log 29, DEDUCED). State bytes, LOCK and the tail registers have
operations of their own. -/
def State.barWrite (s : State) (f o v n : Nat) : State :=
  let bs := leBytes (if 1 ≤ n && n ≤ 8 then n else 8) v
  if 0x400000 ≤ o && o < 0x800000 then s.qcbWrite f ((o - 0x400000) / 64) (o % 64) bs
  else if f ≠ 0 then s
  else if o < 0x1000 then { s with regs := s.regs.write o bs }
  else if 0x2000 ≤ o && o < 0x4000 then s.ringWrite ((o - 0x2000) / 64) (o % 64) bs
  else s
def execDeviceRegisterWrite (s : State) : Host.Outcome State Fault Refusal :=
  .next (s.barWrite (s.arg 0) (s.arg 1) (s.arg 2) (s.arg 3))

/-! Reads. -/

/-- A device register as the host reads it. -/
def State.regRead (s : State) (o : Nat) : Nat :=
  let r := s.regs
  match o with
  | 0x00 => Config.offer0.toNat
  | 0x10 => r.sel0.toNat
  | 0x18 => r.sel1.toNat
  | 0x20 => (if r.lock then 1 else 0) + (if r.selerr then 2 else 0)
  | 0x40 => s.gtick
  | 0x48 => r.refTick
  | 0x50 => r.ptpref
  | 0x58 => r.rate
  | 0x60 => r.ptpstat
  | 0x80 => r.shares
  | 0xC0 => r.bootstep + 256 * r.lcs
  | _ => 0

/-- The eight bytes at an aligned offset of a function's BAR0 as the host reads them. -/
def State.barRead (s : State) (f o : Nat) : Nat :=
  if 0x400000 ≤ o && o < 0x800000 then
    let x := s.queue ((o - 0x400000) / 64)
    if s.reaches f x then field x.image (o % 64) 8 else 0
  else if 0x800000 ≤ o && o < 0x880000 then
    let x := s.queue ((o - 0x800000) / 8)
    if s.reaches f x then x.tailReg else 0
  else if f ≠ 0 then 0
  else if o < 0x1000 then s.regRead o
  else if 0x2000 ≤ o && o < 0x4000 then field (s.ring ((o - 0x2000) / 64)).image (o % 64) 8
  else 0

/-! TDISP requests (R330, R331). -/

/-- The answer to a function's request. -/
def State.tell (s : State) (f : Nat) (bs : List Byte) : State := s.modTdi f fun t => { t with answer := bs }

/-- A function's request, refused in ERROR and for a function that does not exist. -/
def State.request (s : State) (f : Nat) (k : State) : State :=
  if f = 0 || 64 < f || s.pf0Alone then s else if (s.tdi f).st = .error then s.tell f [] else k

def execGetTdispVersion (s : State) : Host.Outcome State Fault Refusal :=
  .next (s.request (s.arg 0) (s.tell (s.arg 0) Config.tdispVersion))
def execGetTdispCapabilities (s : State) : Host.Outcome State Fault Refusal :=
  .next (s.request (s.arg 0) (s.tell (s.arg 0) Config.tdispCapabilities))

/-- LOCK_INTERFACE_REQUEST: the configuration is frozen from now on. -/
def State.lockInterface (s : State) (f : Nat) : State :=
  s.request f (if (s.tdi f).st = .unlocked then s.setTdi f { st := .locked, answer := leBytes 1 1 } else s.tell f [])
def execLockInterfaceRequest (s : State) : Host.Outcome State Fault Refusal := .next (s.lockInterface (s.arg 0))

/-- The state's code, in the order of R330. -/
def TdiState.code : TdiState → Nat
  | .unlocked => 0
  | .locked => 1
  | .run => 2
  | .error => 3

/-- GET_DEVICE_INTERFACE_STATE: the state's code (log 30, PRESUMED). -/
def State.interfaceState (s : State) (f : Nat) : State := s.request f (s.tell f (leBytes 1 (s.tdi f).st.code))
def execGetDeviceInterfaceState (s : State) : Host.Outcome State Fault Refusal := .next (s.interfaceState (s.arg 0))

/-- The 64 bytes of a Winnow configuration (R73). -/
def Winnow.config (w : Winnow) : List Byte :=
  leBytes 8 w.table ++ leBytes 4 w.entries ++ leBytes 2 w.tpp ++ leBytes 2 0 ++ leBytes 8 w.poolList ++ leBytes 4 w.poolCount ++
  leBytes 4 w.spillCount ++ leBytes 8 w.spillList ++ leBytes 4 w.segOffset ++ leBytes 4 0 ++ leBytes 8 w.stateBlock ++ leBytes 8 0

def State.configDigest (s : State) (x : Nat) : BitVec 256 := Config.sha256 (s.winnow x).config

/-- A list of a report: its length, then its items (log 30, PRESUMED). -/
def reportList (size : Nat) (xs : List Nat) : List Byte := leBytes 4 xs.length ++ xs.flatMap (leBytes size)

/-- Queues and rings that name a context: those never written name context 0. -/
def State.queuesOf (s : State) (x : Nat) : List Nat :=
  if x = 0 then (List.range 65536).filter fun q => (s.queue q).ctx == 0 else (s.queues.filter fun e => e.2.ctx == x).map (·.1)
def State.ringsOf (s : State) (x : Nat) : List Nat :=
  if x = 0 then (List.range 128).filter fun r => (s.ring r).ctx == 0 else (s.rings.filter fun e => e.2.ctx == x).map (·.1)

/-- MRAM regions owned by context `x`: those whose tag is its measurement. -/
def State.regionsOf (s : State) (x : Nat) : List (Nat × Nat) :=
  (s.owners.filter fun e => e.2.1 == Config.measurement (s.configDigest x)).map fun e => (e.1, e.2.1)

/-- The interface report of context `x` (R331), its parts in the order given. -/
def State.report (s : State) (x : Nat) : List Byte :=
  let qs := s.queuesOf x
  leBytes 4 Config.reportVersion.toNat ++ reportList 4 (qs.map fun q => 0x400000 + 64 * q) ++ reportList 8 [0, 0x1000000] ++
  reportList 4 qs ++ reportList 4 (s.ringsOf x) ++ reportList 8 ((s.regionsOf x).flatMap fun e => [e.1, e.2]) ++
  leBytes 32 (s.configDigest x).toNat
def execGetDeviceInterfaceReport (s : State) : Host.Outcome State Fault Refusal :=
  .next (s.request (s.arg 0) (s.tell (s.arg 0) (s.report (s.arg 0 - 1))))

/-- START_INTERFACE_REQUEST: RUN; regions whose tag is the context's measurement are unlocked for it (R334). -/
def State.startInterface (s : State) (f : Nat) : State :=
  s.request f <|
    if (s.tdi f).st = .locked then
      let m := Config.measurement (s.configDigest (f - 1))
      { s.setTdi f { st := .run, answer := leBytes 1 2 } with
        owners := s.owners.map fun e => if e.2.1 = m then (e.1, (m, some (f - 1))) else e }
    else s.tell f []
def execStartInterfaceRequest (s : State) : Host.Outcome State Fault Refusal := .next (s.startInterface (s.arg 0))

/-- Scratchpad bytes of a range are wiped, with their marks and parity. -/
def Tile.wipe (z : Tile) (lo hi : Nat) : Tile :=
  let inside (a : Nat) : Bool := lo ≤ a && a < hi
  { z with spad := z.spad.filter fun c => !inside c.1, marks := z.marks.filter fun m => !inside (64 * m.1),
           parity := z.parity.filter fun p => !inside (1024 * (p.1 % 2048)),
           undef := z.undef.flatMap fun r => ([(r.1, min r.2 lo), (max r.1 hi, r.2)] : List (Nat × Nat)).filter fun p => p.1 < p.2 }

/-- A pool frame in a scratchpad is wiped. -/
def State.wipeFrame (s : State) (x va : Nat) : State :=
  match s.ctxAddr x va with
  | .ok pa => match s.place pa with
    | .ok (.aperture t off) => s.modTile t fun z => z.wipe off (off + 32768)
    | _ => s
  | .error _ => s

/-- What the context has left in the tile's scratchpad, and its image there, are wiped (R396). -/
def Tile.wipeLeft (z : Tile) (x : Nat) : Tile :=
  let mine := z.left.filter fun r => r.1 == x
  { mine.foldl (fun (z : Tile) r => z.wipe r.2.1 r.2.2) z with
    left := z.left.filter fun r => r.1 != x, shadow := if (z.shadow.map (·.ctx)) = some x then none else z.shadow }

/-- The context's SRAM state is wiped: the tiles it holds, what it has left in others, its frames, its shadow images, its staging entries (R396). -/
def State.wipeContext (s : State) (x : Nat) : State :=
  let held := (s.ctx x).tiles.filter fun t => (s.tile t).ctx == some x
  let s := s.discardStaging held
  let s := (s.winnow x).pool.foldl (fun (s : State) va => s.wipeFrame x va) s
  let s := held.foldl (fun (s : State) t => s.modTile t fun z =>
    { z.wipe 0 0x200000 with ctx := none, a := {}, b := {}, writes := [], uses := [], halt := none, trap := none, frozen := false,
                             owed := 0, frozenFor := 0, reservations := [] }) s
  { s with tiles := s.tiles.map fun e => (e.1, e.2.wipeLeft x) }

/-- Regions unlocked for a context are locked again. -/
def State.lockRegions (s : State) (x : Nat) : State :=
  { s with owners := s.owners.map fun e => if e.2.2 = some x then (e.1, (e.2.1, none)) else e }

/-- Completions kept pending are made. -/
def State.settleOwed (s : State) (q : Nat) : State :=
  let x := s.queue q
  x.owed.foldl (fun (s : State) e => s.finishPacket q e.1 e.2.1 e.2.2.1 e.2.2.2) (s.setQueue q { x with owed := [] })

/-- STOP_INTERFACE_REQUEST from any state (R396): binds end, SRAM state is wiped, requests are INTERRUPTED, rings that name the context are STOPPED (R325), a
consumed LAUNCH completes with 0x0C02, and the interface is CONFIG_UNLOCKED. -/
def State.stopInterface (s : State) (f : Nat) : State :=
  if f = 0 || 64 < f || s.pf0Alone then s
  else
    let x := f - 1
    let s := ((s.wipeContext x).lockRegions x).setTdi f { st := .unlocked, answer := leBytes 1 0 }
    let s := ((s.finishLaunch x 0x0C02).interruptAll x).stopRings x
    ((s.queues.filter fun e => e.2.ctx == x).map (·.1)).foldl (fun (s : State) q => s.settleOwed q) s
def execStopInterfaceRequest (s : State) : Host.Outcome State Fault Refusal := .next (s.stopInterface (s.arg 0))

end Sys2Proof.Machine
end

