-- ==== Sys2Proof/Machine/SheafEvents.lean ====
section
/-! DEFINITION. The Sheaf under degradation (R21, R353 to R357), links (R393, R394), the loss of an LPDDR-6 channel (R388), scrubs and the
retirement of MRAM rows (R347). -/
namespace Sys2Proof.Machine

/-! A new version (R21, R353, R354). -/

/-- The context is bound: its bind holds a partition. -/
def State.bound (s : State) (x : Nat) : Bool :=
  let c := s.ctx x
  c.part == .running || c.part == .halting || c.part == .halted

/-- The version rises by 1, and every bound context is to acknowledge it. -/
def State.raiseSheaf (s : State) : State :=
  let s' : State := { s with sheaf := { s.sheaf with version := s.sheaf.version + 1 } }
  s'.ctxs.foldl (fun (s : State) e => if s.bound e.1 then s.askAck e.1 else s) s'

/-- The record becomes what `f` makes of it; the version rises only if that changes it. -/
def State.changeSheaf (s : State) (f : Sheaf → Sheaf) : State :=
  if f s.sheaf = s.sheaf then s else ({ s with sheaf := f s.sheaf } : State).raiseSheaf

/-! Tiles (R353, R355 to R357). -/

def State.sparesLeft (s : State) (d : Nat) : Nat := (s.sheaf.spares.lookup d).getD 4

/-- The nibbles of an engine map that R356 allows; any other value is the slot's own instance. -/
def engineNibble (slot v : Nat) : Nat :=
  if v = 15 then 15
  else if slot = 0 || slot = 3 then (if v = 2 then 2 else 0)
  else if v = 1 then 1 else 0
def engineMapOf (v : Nat) : Nat := (List.range 6).foldl (fun a i => a + engineNibble i (nbits v (4 * i) 4) * 16 ^ i) 0

/-- Bit `k` of a tile's health is set: 0 STRETCHED, 1 DEGRADED. -/
def Sheaf.mark (h : Sheaf) (t k : Nat) : Sheaf :=
  let old := mget 0 h.health t
  { h with health := mset 0 h.health t (if nbit old k then old else old + 2 ^ k) }

/-- No spare is left: the slots of both sequencers are bound anew (R356). -/
def Sheaf.stretch (h : Sheaf) (t mapA mapB : Nat) : Sheaf :=
  let h : Sheaf := { h with engines := mset 0 (mset 0 h.engines (seqNumber t 0) (engineMapOf mapA)) (seqNumber t 1) (engineMapOf mapB) }
  if engineMapOf mapA = 0 && engineMapOf mapB = 0 then h else h.mark t 0

/-- The context that holds a tile is halted at context level. -/
def State.haltHolder (s : State) (t : Nat) : State :=
  match (s.tile t).ctx with
  | some x => s.endPartition x 3 0x0B02
  | none => s

/-- A tile fails: a spare is to take it over, or with none left its slots are bound to the instances that survive, `v` naming them for A in bits 23 to 0
and for B above, in one change of the record with `also`. -/
def State.tileFails (s : State) (t v : Nat) (also : Sheaf → Sheaf := id) : State :=
  if s.sparesLeft (dieOf t) > 0 then
    if (s.tile t).failed then s
    else
      let s := s.modTile t fun z => { z with failed := true }
      let s := match (s.tile t).ctx.or ((s.tile t).shadow.map (·.ctx)) with
        | some x => s.record x { info := { code := 0x0B02, unit := 255 }, level := 6, tick := s.gtick, tile := t }
        | none => s
      ((s.haltHolder t).after (1 + Config.serviceDelay s.free) .tileReplaced [t]).tickFree
  else (s.changeSheaf fun h => (also h).stretch t (v % 2 ^ 24) (v / 2 ^ 24)).haltHolder t

/-- A bank is retired: the record lists it, and the tile is DEGRADED. The second data bank of a parity group fails the tile, too (R353, R357). The list stands
beside the Sheaf's record, with the tile. -/
def State.bankRetired (s : State) (t bank : Nat) : State :=
  let x := s.tile t
  if bank < 20 && !x.retiredBanks.getLsbD bank then
    let group := bank < 16 && (List.range 4).any fun i => x.retiredBanks.getLsbD (bank / 4 * 4 + i)
    let s := s.modTile t fun z => { z with retiredBanks := x.retiredBanks ||| (1#20 <<< bank) }
    let marked := s.sheaf.mark t 1
    let s' : State := { s with sheaf := marked }
    if group && s.sparesLeft (dieOf t) > 0 then (s'.raiseSheaf.tileFails t (Config.survivors s.free)).tickFree
    else
      if group then (({ s' with sheaf := marked.stretch t (Config.survivors s.free % 2 ^ 24) (Config.survivors s.free / 2 ^ 24) } : State).raiseSheaf.haltHolder t).tickFree
      else s'.raiseSheaf
  else s

/-- Usable counts take effect once the tile holds neither a running nor a saved context (R357, R397). -/
def State.countsChange (s : State) (n v : Nat) : State :=
  let t := n / 2
  if (s.tile t).ctx.isSome || (s.tile t).shadow.isSome then (s.after (1 + Config.serviceDelay s.free) .sheafChange [3, n, v]).tickFree
  else s.changeSheaf fun h =>
    { h with vregs := mset 64 h.vregs n (min 64 (v % 256)), tregs := mset 8 h.tregs n (min 8 (v / 256 % 256)),
             lslots := mset 16 h.lslots n (min 16 (v / 65536 % 256)) }

/-- An MRAM row is found retired, and the record lists it with the tile. -/
def State.rowRetired (s : State) (t row : Nat) : State :=
  if (s.tile t).retiredRows.contains row then s
  else (s.modTile t fun z => { z with retiredRows := row :: z.retiredRows }).raiseSheaf

/-! Errors of cells (R347; log 50, DESIGN CHOICE: the table names no event for them, so they enter as inputs of this one, and change no record). -/

/-- Bits of a word as a number: those that `bits` names from `lo` up, `n` of them. -/
def bitsFrom (bits : List Nat) (lo n : Nat) : Nat :=
  ((bits.filter fun b => lo ≤ b && b < lo + n).dedup).foldl (fun a b => a + 2 ^ (b - lo)) 0

/-- A stored word of 64 bytes and its check bits after bits of them have turned, data bits first. -/
def turnWord (v : Vec) (checks : Option (BitVec 64)) (bits : List Nat) : Vec × Option (BitVec 64) :=
  let v' := v ^^^ BitVec.ofNat 512 (bitsFrom bits 0 512)
  let c := checks.getD (secdedWord v) ^^^ BitVec.ofNat 64 (bitsFrom bits 512 64)
  (v', if c = secdedWord v' then none else some c)

/-- Bits of scratchpad word `k` turn. -/
def Tile.turnSpad (z : Tile) (k : Nat) (bits : List Nat) : Tile :=
  let m := z.mark k
  let (v, c) := turnWord (z.rawWord k) m.checks bits
  { z with marks := mset {} z.marks k { m with checks := c, wrong := v ^^^ z.spadWord k } }

/-- Bits of a parity word turn. -/
def Tile.turnParity (z : Tile) (key : Nat) (bits : List Nat) : Tile :=
  let p := z.parityWord (key / 2048) (key % 2048)
  let (v, c) := turnWord p.val p.checks bits
  { z with parity := (key, { p with val := v, checks := c }) :: z.parity.filter (·.1 != key) }

/-- Bits of a physical 64-byte word of weight MRAM turn. -/
def Tile.turnMram (z : Tile) (k : Nat) (bits : List Nat) : Tile :=
  let o := (z.cellErrors.find? fun o => o.addr == 64 * k).getD { addr := 64 * k, val := 0, checks := 0 }
  let o' : Overlay := { o with val := o.val ^^^ BitVec.ofNat 512 (bitsFrom bits 0 512), checks := o.checks ^^^ BitVec.ofNat 41 (bitsFrom bits 512 41) }
  let rest := z.cellErrors.filter fun o => o.addr != 64 * k
  { z with cellErrors := if o'.val = 0 && o'.checks = 0 then rest else o' :: rest }

/-- Bits of an LPDDR-6 sector turn, data bits first, then the device code's. -/
def State.turnSector (s : State) (k : Nat) (bits : List Nat) : State :=
  let m := s.sectorMark k
  let v := bytesVec (bytesAt s.mem (64 * k) 64)
  let v' := v ^^^ BitVec.ofNat 512 (bitsFrom bits 0 512)
  let c := m.code.getD (deviceWord v) ^^^ BitVec.ofNat 32 (bitsFrom bits 512 32)
  { s with mem := putBytes s.mem (64 * k) (vecBytes v'),
           sectors := mset {} s.sectors k { m with code := if c = deviceWord v' then none else some c } }

/-- Bits of a saved image turn: one in a lane of 8 bytes is corrected and counted; two make the image unreadable. -/
def State.turnShadow (s : State) (t : Nat) (bits : List Nat) : State :=
  let lanes := (bits.map (· / 64)).dedup
  let bad := lanes.any fun l => 2 ≤ ((bits.dedup).filter fun b => b / 64 == l).length
  if (s.tile t).shadow.isNone then s
  else if bad then s.modTile t fun z => { z with shadow := z.shadow.map fun h => { h with unreadable := true } }
  else s.countCorrected t 4 lanes.length

/-- A parity error in the byte of an L1 at physical address `pa`: a clean sector is to be refilled; a dirty byte is lost, and 0x0506 is raised at once. A clean
byte of a sector that is dirty elsewhere is refilled in place. -/
def State.turnL1 (s : State) (t q pa : Nat) : State :=
  let y := s.seq t q
  match y.l1.find? fun l => l.tag == pa / 256 with
  | none => s
  | some l =>
    let k := pa % 256
    let i := k / 64
    let drop (l : Line) : Line := if l.dirty.extractLsb' (64 * i) 64 = 0 then { l with valid := l.valid &&& ~~~ (1#4 <<< i) } else l
    let put (l' : Line) (s : State) : State :=
      s.modSeq t q fun y => { y with l1 := y.l1.map fun (m : Line) => if m.tag = l.tag then l' else m }
    if l.dirty.getLsbD k then
      (put (drop { l with dirty := l.dirty &&& ~~~ (1#256 <<< k) }) s).takeDue t q [{ code := 0x0506, unit := 255, step := y.clock, addr := pa }]
    else put (drop l) s

/-- An error of kind `k` in unit `i` at `place`, with the bits that turn: 0 scratchpad word of tile i, 1 parity word, 2 weight MRAM word, 3 LPDDR-6 sector, 4 staging
entry of die i, 5 saved image of tile i, 6 L1 byte of sequencer i, 7 register part of sequencer i, 8 its landing slot. -/
def State.cellError (s : State) (k i place : Nat) (bits : List Nat) : State :=
  match k with
  | 0 => if i < 384 && place < 32768 then s.modTile i fun z => z.turnSpad place bits else s
  | 1 => if i < 384 && place < 8192 then s.modTile i fun z => z.turnParity place bits else s
  | 2 => if i < 384 && place < 16 * 17408 then s.modTile i fun z => z.turnMram place bits else s
  | 3 => if 64 * place < s.sheaf.populated then s.turnSector place bits else s
  | 4 => if i < 4 then s.setDie i { s.die i with staging := (s.die i).staging.modify place fun e => { e with wrong := (e.wrong ++ bits).dedup } } else s
  | 5 => if i < 384 then s.turnShadow i (place :: bits) else s
  | 6 => if i < 768 then s.turnL1 (i / 2) (i % 2) place else s
  | 7 => if i < 768 then s.modSeq (i / 2) (i % 2) fun y => { y with parityErrors := (y.parityErrors ++ bits.map fun b => (place, b)).dedup } else s
  | 8 => if i < 768 && place < 16 then
      s.modSeq (i / 2) (i % 2) fun y => y.setLanding place { y.landing place with poison := some { code := 0x0507, addr := 0, injected := false } }
    else s
  | _ => s

/-! Firmware's own acts that the opcode table names no event for (log 45, DESIGN CHOICE). -/

/-- A context is created (R23, R73): its root table and its Winnow configuration, whose frame lists are read now and never
again (log 82, DESIGN CHOICE). A frozen configuration is not replaced: the attempt is
ERROR (R331, R396). -/
def State.createContext (s : State) (x root : Nat) (b : List Byte) : State :=
  if s.frozenCtx x then s.tdiFail (x + 1)
  else if 64 ≤ x || (s.ctx x).created || b.length < 64 then s
  else
    let n := field b 0x18 4
    let m := field b 0x1C 4
    let s := s.modCtx x fun _ => { created := true, root := root }
    let frames (a n : Nat) : List Nat := (List.range n).map fun i => field (s.ctxBytes x (a + 8 * i) 8) 0 8
    let pool := frames (field b 0x10 8) n
    let spills := frames (field b 0x20 8) m
    s.modWinnow x fun w =>
      { w with table := field b 0 8, entries := field b 8 4, tpp := field b 0x0C 2, poolList := field b 0x10 8, poolCount := n, spillCount := m,
               spillList := field b 0x20 8, segOffset := field b 0x28 4, stateBlock := field b 0x30 8, pool := pool, spills := spills, freePool := pool,
               freeSpill := spills }

/-- A context is ended: no LAUNCH of it has still to complete. Its requests are INTERRUPTED and its rings STOPPED (R325). What LOCK has frozen goes to ERROR
in its place (R331, R396). -/
def State.endContext (s : State) (x : Nat) : State :=
  if s.frozenCtx x then s.tdiFail (x + 1)
  else if !(s.ctx x).created || s.launchOpen x then s else ((s.interruptAll x).stopRings x).modCtx x fun _ => {}

/-- The contexts with a frozen function that regions of an owner tag belong to (R331). -/
def State.frozenOwners (s : State) (tag : Nat) : List Nat :=
  (List.range 64).filter fun x => tag != 0 && s.frozenCtx x && (s.ctx x).created && Config.measurement (s.configDigest x) == tag

/-- A region of MRAM takes an owner tag, locked until a context with that measurement reaches RUN; tag 0 clears it (R331, R334). A change that takes a region
from a frozen function or gives it one has no effect but ERROR (R331, R396). -/
def State.tagRegion (s : State) (region tag : Nat) : State :=
  let rest := s.owners.filter (·.1 != region)
  let old := ((s.owners.lookup region).map (·.1)).getD 0
  if 6144 ≤ region || old = tag then s
  else match (s.frozenOwners old ++ s.frozenOwners tag).dedup with
  | [] => { s with owners := if tag = 0 then rest else (region, (tag, none)) :: rest }
  | xs => xs.foldl (fun (s : State) x => s.tdiFail (x + 1)) s

/-- SHEAF_CHANGE of kind `k`: 0 tile `i` fails its self-test, `v` its surviving instances; 1 data bank `v` of tile `i` retired; 2 MRAM row `v` of tile `i`
retired; 3 usable counts `v` of sequencer `i`, a byte each; 4 channel `i` runs at `v` Mb/s; 5 PCIe retrained to `i` lanes of `v` GT/s; 6 the package `i` of
the fabric group has `v` bytes. Inputs that change no record: 7 an error of cells, of kind `i` in unit `v` (log 50); 8 and 9 context `i` is created, its root
table at `v`, or ended; 10 region `i` takes the owner tag `v` (log 45). -/
def State.sheafEvent (s : State) (k i v : Nat) : State :=
  match k with
  | 0 => if i < 384 then s.tileFails i v else s
  | 1 => if i < 384 then s.bankRetired i v else s
  | 2 => if i < 384 then s.rowRetired i v else s
  | 3 => if i < 768 then s.countsChange i v else s
  | 4 => if i < 32 then s.changeSheaf fun h => { h with rates := mset 12800 h.rates i v } else s
  | 5 => s.changeSheaf fun h => { h with pcieLanes := i % 256, pcieRate := v % 256 }
  | 6 => if i < 16 then s.changeSheaf fun h => { h with peers := mset 0 h.peers i v } else s
  | 7 => s.cellError i v (s.arg 3) (s.cur.args.drop 4)
  | 8 => s.createContext i v s.cur.bytes
  | 9 => s.endContext i
  | 10 => s.tagRegion i v
  | _ => s
def execSheafChange (s : State) : Host.Outcome State Fault Refusal := .next (s.sheafEvent (s.arg 0) (s.arg 1) (s.arg 2))

/-! A spare takes over (R14, R355). -/

/-- A logical row of the tile cannot be read: the code finds an error in some word of it that it cannot correct (R347). Poison that a put brought is content, and
is read with it (R348). -/
def Tile.badRow (z : Tile) (row : Nat) : Bool :=
  (List.range 16).any fun k => ((z.mramWord (16 * row + k)).2.1.map (·.code)) == some 0x0502

/-- What cannot be read of the row has been injected: without the tile's overlays it could (R352, R375). -/
def Tile.rowInjected (z : Tile) (row : Nat) : Bool := !({ z with overlays := [] } : Tile).badRow row

/-- The logical row that a physical row serves, if any. -/
def Tile.logicalRow (z : Tile) (p : Nat) : Option Nat :=
  ((z.rowMap.find? fun e => e.2 == p).map (·.1)).or (if p < 16384 && (z.rowMap.lookup p).isNone then some p else none)

/-- The rows that cannot be read, by logical number. -/
def Tile.badRows (z : Tile) : List Nat :=
  let phys := z.mramPoison.map (fun e => e.1 / 16) ++ z.cellErrors.map fun o => o.addr / 1024
  let rows := phys.filterMap z.logicalRow ++ z.overlays.map fun o => o.addr / 1024
  (rows.dedup).filter z.badRow

/-- The context that owns an MRAM row: the one its region is unlocked for, else the one on the tile. -/
def State.rowContext (s : State) (t row : Nat) : Option Nat :=
  (((s.owners.lookup (16 * t + row / 1024)).bind (·.2)).or (s.tile t).ctx).or ((s.tile t).shadow.map (·.ctx))

/-- Lost weights are reported to the context that owns them, at context level as R337 gives 0x0B05: it halts and is saved (R339). Without one the report stands
in the persistent log alone (log 32, DEDUCED). -/
def State.weightsLost (s : State) (t row : Nat) (injected : Bool := false) : State :=
  let r : FaultRecord := { info := { code := 0x0B05, unit := 255, addr := 0x8000000 + 1024 * row, injected := injected }, level := 3, tick := s.gtick, tile := t }
  match s.rowContext t row with
  | some x => (s.record x r).endPartition x 3 0x0B05
  | none => { s with log := (s.log ++ [r]).drop (s.log.length + 1 - 4096) }

/-- The spare with what is copied to it: MRAM, row map, wear and shadow image. The spec gives neither its power state nor the content of its scratchpad: a bind
is to wake it (R335), so it is OFF, or in RETAIN where it holds an image (R19), and its scratchpad is undefined as after a wake from OFF (R18; log 55, DESIGN
CHOICE). -/
def Tile.spare (z : Tile) : Tile :=
  let bad := (z.badRows.map z.physRow)
  { power := if z.shadow.isSome then .retain else .off, wake := z.wake + 1, undef := [(0, 0x200000)], mram := z.mram.filter fun c => !bad.contains (c.1 / 1024),
    mramPoison := z.mramPoison.filter fun e => !bad.contains (e.1 / 16),
    rowMap := z.rowMap, wear := z.wear, journal := z.journal, shadow := z.shadow, inbound := z.inbound, partTick := z.partTick }

/-- TILE_REPLACED of tile `t`, once no context runs on it. Which spare of the die is taken first the spec does not say: the one with the lowest number, as those
of a die are 96 to 99 (log 55, DESIGN CHOICE). -/
def State.replaceTile (s : State) (t : Nat) : State :=
  let z := s.tile t
  let d := dieOf t
  let left := s.sparesLeft d
  if !z.failed || left = 0 then s
  else if z.ctx.isSome then (s.after (1 + Config.serviceDelay s.free) .tileReplaced [t]).tickFree
  else
    let s := z.badRows.foldl (fun (s : State) row => s.weightsLost t row (z.rowInjected row)) s
    let s := ((s.setTile t z.spare).discardJournal t).refreshPower
    let drop (m : Map Nat) : Map Nat := m.filter fun e => e.1 / 2 != t
    s.changeSheaf fun h =>
      { h with tileMap := (t, 100 - left) :: h.tileMap.filter (·.1 != t), spares := (d, left - 1) :: h.spares.filter (·.1 != d),
               health := mset 0 h.health t 0, engines := drop h.engines, vregs := drop h.vregs, tregs := drop h.tregs, lslots := drop h.lslots }
def execTileReplaced (s : State) : Host.Outcome State Fault Refusal := .next (s.replaceTile (s.arg 0))

/-! MRAM rows (R347). -/

/-- The words of a physical row that `v` names are poisoned. -/
def Tile.poisonRow (z : Tile) (row v : Nat) : Tile :=
  let p := z.physRow row
  let ws := (List.range 16).filter fun k => nbit v k && (z.mramPoison.lookup (16 * p + k)).isNone
  { z with mramPoison := z.mramPoison ++ ws.map fun k => (16 * p + k, { code := 0x0502, addr := 0x8000000 + 1024 * row + 64 * k, injected := false }) }

/-- The corrected image of a logical row, with the poison that puts brought, goes to a free row, which counts its write; the map follows, and overlays of the
remapped row go (R347, R375). -/
def Tile.moveRow (z : Tile) (row f : Nat) : Tile :=
  let old := z.physRow row
  let clean : Tile := { z with overlays := [] }
  let image := (List.range 16).flatMap fun k => vecBytes (clean.mramWordVia old (16 * row + k)).1
  let marks := (z.mramPoison.filter fun e => e.1 / 16 == old).map fun e => (16 * f + e.1 % 16, e.2)
  { z with mram := putBytes z.mram (1024 * f) image, rowMap := mset row z.rowMap row f,
           mramPoison := z.mramPoison.filter (fun e => e.1 / 16 != f) ++ marks, cellErrors := z.cellErrors.filter (fun o => o.addr / 1024 != f),
           overlays := z.overlays.filter (fun o => o.addr / 1024 != row), wear := mset 0 z.wear f (mget 0 z.wear f + 1) }

/-- MRAM_ROW_REWRITE of logical row `row` of tile `t`, once the journal is IDLE: the physical row is retired, and its content moves if it can be corrected.
`v` names words that cannot be. -/
def State.rewriteRow (s : State) (t row v : Nat) : State :=
  let z := s.tile t
  if z.retiredRows.contains (z.physRow row) || 16384 ≤ row || 384 ≤ t then s
  else if z.journal.st ≠ .idle || z.opening then (s.after (1 + Config.serviceDelay s.free) .mramRowRewrite [t, row, v]).tickFree
  else
    let old := z.physRow row
    let z := z.poisonRow row v
    let bad := ({ z with overlays := [] } : Tile).badRow row
    let free := z.freeRows.filter (· != old)
    let z1 : Tile := { z with retiredRows := old :: z.retiredRows }
    let z2 := if bad then z1 else match free with
      | f :: _ => z1.moveRow row f
      | [] => z1
    let s := (s.setTile t z2).raiseSheaf
    if bad then s.weightsLost t row else s

/-- The same for a physical row in which a read has found errors, whatever it serves by then: a row that serves none is retired alone. -/
def State.rewritePhysical (s : State) (t row v phys : Nat) : State :=
  let z := s.tile t
  if z.journal.st ≠ .idle || z.opening then (s.after (1 + Config.serviceDelay s.free) .mramRowRewrite [t, row, v, phys + 1]).tickFree
  else match z.logicalRow phys with
  | some r => s.rewriteRow t r v
  | none => s.rowRetired t phys
def execMramRowRewrite (s : State) : Host.Outcome State Fault Refusal :=
  .next (if s.arg 3 = 0 then s.rewriteRow (s.arg 0) (s.arg 1) (s.arg 2) else s.rewritePhysical (s.arg 0) (s.arg 1) (s.arg 2) (s.arg 3 - 1))

/-! Scrubs (R347, R352). -/

/-- The ports that a scrub of a word of a bank needs are idle in this step. -/
def Tile.scrubIdle (z : Tile) (banks : List Nat) : Bool :=
  !banks.any fun b => (z.uses.any fun u => u.port == b) || (z.reservations.any fun r => r.bank == b) || z.parityDue.any fun e => e.1 / 2048 == b / 4

/-- A scratchpad word is read, and corrected or rebuilt; one that cannot be is poisoned. A rebuild that would read a word marked injected is not made (R352), nor
is a word of a retired bank scrubbed. -/
def State.scrubWord (s : State) (t k : Nat) : State :=
  let z := s.tile t
  let m := z.mark k
  let w := z.lookWord k
  let banks := (List.range 4).map fun i => k % 16 / 4 * 4 + i
  if m.injected || m.checks.isNone || z.retiredBanks.getLsbD (k % 16) || !z.scrubIdle banks || (w.bad && z.groupInjected k) then s
  else if w.bad && (z.rebuilt k).isNone then s.noteWord t k w
  else (s.noteWord t k w).modTile t fun z =>
    { z with spad := putBytes z.spad (64 * k) (vecBytes w.val), marks := mset {} z.marks k { z.mark k with checks := none, wrong := 0 } }

/-- A parity word is corrected, or recomputed from its four data banks, which a retired bank among them does not allow. -/
def State.scrubParity (s : State) (t key : Nat) : State :=
  let z := s.tile t
  let g := key / 2048
  match z.parity.lookup key with
  | some p =>
    if p.injected || z.groupInjected (16 * (key % 2048) + 4 * g) || !z.scrubIdle ((List.range 4).map fun i => 4 * g + i) then s
    else
      let (v, n, _, bad) := wordRead p.val p.checks
      let rest := z.parity.filter (·.1 != key)
      let fixed : ParityWord := { val := v }
      if bad then (if (List.range 4).any fun i => z.retiredBanks.getLsbD (4 * g + i) then s else s.modTile t fun z => { z with parity := rest })
      else if n = 0 then s
      else (s.countCorrected t 5 n).modTile t fun z =>
        { z with parity := if fixed = { val := z.groupXor g (key % 2048) } then rest else (key, fixed) :: rest }
  | none => s

/-- An LPDDR-6 sector is read, and corrected; one that cannot be is poisoned. -/
def State.scrubSector (s : State) (k : Nat) : State :=
  let m := s.sectorMark k
  let (v, _, bad) := sectorDecode (bytesVec (bytesAt s.mem (64 * k) 64)) m.code
  if m.injected || m.code.isNone then s
  else if bad then { s with sectors := mset {} s.sectors k { m with poison := m.poison.or (some { code := 0x0505, addr := 64 * k, injected := false, syndrome := sectorSyndrome (bytesVec (bytesAt s.mem (64 * k) 64)) m.code }) } }
  else { s with mem := putBytes s.mem (64 * k) (vecBytes v), sectors := mset {} s.sectors k { m with code := none } }

/-- SCRUB of word `w` of tile `t`: scratchpad words, then parity words; `t` = 384 names an LPDDR-6 sector. A word marked injected is neither read nor
repaired. -/
def State.scrub (s : State) (t w : Nat) : State :=
  if t < 384 then (if w < 32768 then s.scrubWord t w else s.scrubParity t (w - 32768)) else s.scrubSector w
def execScrub (s : State) : Host.Outcome State Fault Refusal := .next (s.scrub (s.arg 0) (s.arg 1))

/-! Links (R393, R394). -/

/-- LINK_RETRAIN: link `l` is retrained; a lower speed `v` enters the Sheaf, and the rest is delay. -/
def State.linkRetrain (s : State) (l v : Nat) : State :=
  if 8 ≤ l || !s.sheaf.links.getLsbD l || v = 0 || (s.sheaf.linkSpeeds.lookup l).getD 200 ≤ v then s
  else s.changeSheaf fun h => { h with linkSpeeds := mset 200 h.linkSpeeds l v }
def execLinkRetrain (s : State) : Host.Outcome State Fault Refusal := .next (s.linkRetrain (s.arg 0) (s.arg 1))

/-- Beat `j` of a CPYG or GATH is on its way from package `p` at a tick: a piece of it lies there, and its data has not arrived. -/
def Command.onItsWay (k : Command) (p tick j : Nat) : Bool :=
  (k.kind == .cpyg || k.kind == .gath) && decide (tick < k.arrivals.getD (j - k.done) 0) && (k.pieces (k.pages.getD []) j).any fun e => peerWindow p e.1

/-- Data on its way from a lost peer arrives poisoned; data that a slot already holds stays (R394). -/
def Seq.losePeer (y : Seq) (p tick : Nat) : Seq :=
  let land (d : Landing) : Landing :=
    if d.st = .pending && peerWindow p d.source then
      { d with poison := d.poison.or (some { code := 0x0505, addr := d.source, injected := false }) }
    else d
  let cmd (k : Command) : Command :=
    { k with moving := k.moving.map fun b =>
        if k.onItsWay p tick b.1 then (b.1, b.2.1, b.2.2.or (some { code := 0x0505, addr := k.src + 64 * b.1, injected := false })) else b }
  { y with l := y.l.map fun e => (e.1, land e.2), c0 := { y.c0 with cmds := y.c0.cmds.map cmd }, c1 := { y.c1 with cmds := y.c1.cmds.map cmd } }

/-- A staged beat of a CPYX command that the target has not acknowledged. -/
def State.unacked (s : State) (e : StagingEntry) : Bool :=
  match e.write.beat with
  | none => false
  | some (c, start, j) => (s.queueOf (e.party / 2) (e.party % 2) c).cmds.any fun k => k.kind == .cpyx && k.start == start && k.ackedAt s.gtick ≤ j

/-- CPYX beats on their way to a lost package: acknowledged ones stand; whether another has performed is a free value (R394; log 93, DESIGN CHOICE). -/
def State.loseBeats (s : State) (p : Nat) : State :=
  let n := s.free
  let gone (bs : Map Byte) : Bool := bs.any fun b => peerWindow p b.1 && !Config.lostBeat n b.1
  let s' : State :=
    { s with dies := s.dies.map fun d => (d.1, { d.2 with staging := d.2.staging.filter fun e => !(s.unacked e && gone e.write.bytes) }),
             aperture := s.aperture.filter fun e => !(e.1 == 384 && gone e.2.write.bytes) }
  s'.tickFree

/-- Package `p` leaves the fabric group. -/
def State.losePeer (s0 : State) (p : Nat) : State :=
  let s := s0.loseBeats p
  let now := s.gtick
  let s := s.tiles.foldl (fun (s : State) e =>
    let s := s.modTile e.1 fun z =>
      { z with a := z.a.losePeer p now, b := z.b.losePeer p now,
               shadow := z.shadow.map fun h => h.loseCommands p now { h with a := h.a.losePeer p now, b := h.b.losePeer p now } }
    s.loseAll e.1 p) s
  { s with sheaf := { s.sheaf with peers := s.sheaf.peers.filter (·.1 != p) } }

/-- LINK_LOSS: link `l` leaves the Sheaf; where it was the last to a package, argument 1 is that package's number plus 1. -/
def State.linkLoss (s : State) (l p : Nat) : State :=
  if 8 ≤ l || !s.sheaf.links.getLsbD l then s
  else
    let s := if p = 0 then s else s.losePeer (p - 1)
    s.changeSheaf fun h => { h with links := h.links &&& ~~~ (1#8 <<< l) }
def execLinkLoss (s : State) : Host.Outcome State Fault Refusal := .next (s.linkLoss (s.arg 0) (s.arg 1))

/-! The loss of an LPDDR-6 channel (R388). -/

/-- Live channels in ascending order. -/
def Sheaf.live (h : Sheaf) : List Nat := (List.range 32).filter fun k => h.channels.getLsbD k

/-- The channel that the granule of a sector lies on (R121). -/
def Sheaf.channelOf (h : Sheaf) (k : Nat) : Nat := h.live.getD (k / 4 % h.live.length) 0

/-- Every context is saved. -/
def State.allSaved (s : State) : Bool := !s.ctxs.any fun e => s.bound e.1

/-- Channel `c` goes: sectors `ks` of it that could not be read are poisoned, content above the new capacity is lost, and every context has the record. -/
def State.dropChannel (s : State) (c : Nat) (ks : List Nat) : State :=
  let h := s.sheaf
  let n := h.live.length
  let size := h.populated / n * (n - 1)
  let lost := (ks.filter fun k => h.channelOf k == c && 64 * k < size).dedup
  let s := lost.foldl (fun (s : State) k =>
    { s with sectors := mset {} s.sectors k { s.sectorMark k with poison := some { code := 0x0505, addr := 64 * k, injected := false } } }) s
  let s' : State :=
    { s with mem := s.mem.filter fun e => e.1 < size || 0x8000000000 ≤ e.1, sectors := s.sectors.filter fun e => 64 * e.1 < size || 0x8000000000 ≤ 64 * e.1,
             rebuilding := false }
  let s := s'.changeSheaf fun h => { h with channels := h.channels &&& ~~~ (1#32 <<< c), populated := size }
  s.ctxs.foldl (fun (s : State) e =>
    if e.2.created then
      s.record e.1 { info := { code := 0x0505, unit := 255, detail := c, aux0 := lost.length }, level := 6, tick := s.gtick }
    else s) s

/-- LPDDR_CHANNEL_LOSS of channel `c`; the further arguments number the sectors that cannot be read any more. Every bound context is saved first, and the
move is done within 2 s. -/
def State.channelLoss (s : State) (c : Nat) (ks : List Nat) : State :=
  if 32 ≤ c || !s.sheaf.channels.getLsbD c || s.powerLost then { s with rebuilding := false }
  else if s.allSaved then s.dropChannel c ks
  else
    let s' : State := { s with rebuilding := true }
    let s := s'.ctxs.foldl (fun (s : State) e => if e.2.part = .running then s.endPartition e.1 0 0 else s) s'
    (s.after (1 + Config.serviceDelay s.free % 2400000000) .lpddrChannelLoss (c :: ks)).tickFree
def execLpddrChannelLoss (s : State) : Host.Outcome State Fault Refusal := .next (s.channelLoss (s.arg 0) s.cur.args.tail)

end Sys2Proof.Machine
end

