-- ==== Sys2Proof/Machine/Migration.lean ====
section
/-! DEFINITION. Shootdowns (R112) and pages under migration (R384 to R387). -/
namespace Sys2Proof.Machine

/-- TLB entries that overlap a virtual range are dropped. -/
def Seq.shoot (y : Seq) (a b : Nat) : Seq := { y with tlb := y.tlb.filter fun e => !(decide (e.va < b) && decide (a < e.va + e.size)) }

/-- The leaf entry of an address: where it stands, the size of its page, its value. -/
def State.leafAt (s : State) (va : Nat) : List (Nat × Nat × Bool × Nat) → Nat → Option (Nat × Nat × Nat)
  | [], _ => none
  | (lo, len, leafOk, _) :: rest, table =>
    let at0 := table + 8 * nbits va lo len
    let e := leNat (s.physBytes at0 8)
    if !nbit e 0 then none
    else if nbit e 1 then (if leafOk then some (at0, 2 ^ lo, e) else none)
    else s.leafAt va rest (nbits e 9 43 * 512)

/-- Two ranges of physical memory meet. -/
def meets (a n b m : Nat) : Bool := decide (a < b + m) && decide (b < a + n)

/-- A frame is fit to receive a page of a size: aligned, in LPDDR-6, and no frame of a migration or of a forwarding entry. -/
def State.frameFit (s : State) (new size : Nat) : Bool :=
  new % size == 0 && new + size ≤ s.sheaf.populated && !(s.migrations.any fun m => meets new size m.old m.size || meets new size m.new m.size) &&
  !(s.forwarding.any fun f => meets new size f.1 f.2.2 || meets new size f.2.1 f.2.2)

/-- A page with MIG = 1 of 32 KiB or 2 MiB in LPDDR-6 begins to migrate, at most 16 at once (R384): every sector of it is to be copied, and what was released to
the new frame before stands there before the first copy. -/
def State.beginMigration (s : State) (x va : Nat) (new : Option Nat) : State :=
  match s.leafAt va walkLevels (s.ctx x).root with
  | none => s
  | some (leaf, size, e) =>
    let old := nbits e 9 43 * 512
    let frame := new.getD (Config.newFrame s.free / size * size)
    let s := if new.isNone then s.tickFree else s
    if nbit e 4 && (size = 32768 || size = 2097152) && old % size = 0 && old + size ≤ s.sheaf.populated && s.migrations.length < 16 && s.frameFit frame size &&
        !(s.migrations.any fun m => m.old == old) && frame ≠ old then
      let m : Migration := { ctx := x, old := old, new := frame, size := size, leaf := leaf,
                             dirty := (List.range (size / 64)).map (old / 64 + ·) }
      let s := s.drainRange frame size
      let s' : State := { s with migrations := s.migrations ++ [m] }
      (s'.after (1 + Config.serviceDelay s'.free) .migrationCopyPass [old]).tickFree
    else s

/-- The effect of a shootdown for context `x` over [a, b): the TLBs of its partition drop the matching entries, and pages marked MIG begin to migrate, the first
into the frame `new` if one is given (log 27, DESIGN CHOICE). -/
def State.shootdown (s : State) (x a b : Nat) (new : Option Nat) : State :=
  let s := (s.ctx x).tiles.foldl (fun (s : State) t =>
    if (s.tile t).ctx = some x then s.modTile t fun z => { z with a := z.a.shoot a b, b := z.b.shoot a b } else s) s
  (List.range ((b - a + 32767) / 32768)).foldl (fun (s : State) i => s.beginMigration x (a + 32768 * i) (if i = 0 then new else none)) s

/-- A shootdown sent at tick `sent` comes to the effect tick it names: one less than 2400 ticks after its sending takes effect 2400 ticks after it (R112). -/
def State.shootdownDue (s : State) (x a b sent : Nat) (new : Option Nat) : State :=
  if s.gtick < sent + 2400 then s.at_ (sent + 2400) .shootdownEffect ([x, a, b, sent] ++ new.toList) else s.shootdown x a b new

/-- SHOOTDOWN_EFFECT for the context of argument 0 over [argument 1, argument 2), sent at the tick of argument 3, where one is given; argument 4 may name a frame. -/
def execShootdownEffect (s : State) : Host.Outcome State Fault Refusal :=
  .next (match s.cur.args[3]? with
    | some sent => s.shootdownDue (s.arg 0) (s.arg 1) (s.arg 2) sent s.cur.args[4]?
    | none => s.shootdown (s.arg 0) (s.arg 1) (s.arg 2) none)

/-! Copies (R384, R385). -/

/-- A sector is copied as it is stored, with its poison. -/
def State.copySector (s : State) (m : Migration) (k : Nat) : State :=
  let k' := m.new / 64 + (k - m.old / 64)
  { s with mem := putBytes s.mem (64 * k') (bytesAt s.mem (64 * k) 64), sectors := mset {} s.sectors k' (s.sectorMark k) }

def State.migration (s : State) (old : Nat) : Option Migration := s.migrations.find? fun m => m.old == old
def State.modMigration (s : State) (old : Nat) (f : Migration → Migration) : State :=
  { s with migrations := s.migrations.map fun (m : Migration) => if m.old = old then f m else m }

/-- The sectors still to copy are copied. -/
def State.copyDirty (s : State) (m : Migration) : State :=
  (m.dirty.foldl (fun (s : State) k => s.copySector m k) s).modMigration m.old fun m => { m with dirty := [] }

/-- The leaf entry names the new frame, with MIG = 0; the write passes the staging (R126; log 44, DEDUCED). -/
def State.rewriteLeaf (s : State) (m : Migration) : State :=
  let e := leNat (s.physBytes m.leaf 8)
  s.releaseNow { bytes := cellsFrom m.leaf (leBytes 8 (m.new + nbits e 0 4)) }

/-- MIGRATION_COPY_PASS of the page whose old frame is `old`: after the first pass the leaf is rewritten; passes go on until the cutover. -/
def State.copyPass (s : State) (old : Nat) : State :=
  match s.migration old with
  | none => s
  | some m =>
    if m.state ≠ 0 || s.powerLost then s
    else
      let s := s.copyDirty m
      let s := if m.ready = 0 then (s.rewriteLeaf m).modMigration old fun m => { m with ready := s.gtick + 2400 } else s
      (s.after (1 + Config.serviceDelay s.free) .migrationCopyPass [old]).tickFree
def execMigrationCopyPass (s : State) : Host.Outcome State Fault Refusal := .next (s.copyPass (s.arg 0))

/-! The end of the window (R386, R387). -/

/-- An address of the old frame as one of the new. -/
def Migration.moved (m : Migration) (pa : Nat) : Nat := if m.old ≤ pa && pa < m.old + m.size then m.new + (pa - m.old) else pa
def GlobalWrite.moved (w : GlobalWrite) (m : Migration) : GlobalWrite := { w with bytes := w.bytes.map fun b => (m.moved b.1, b.2) }

/-- A sequencer's lines, translations and translated commands name the new frame. -/
def CopyQueue.moved (z : CopyQueue) (m : Migration) : CopyQueue :=
  { z with cmds := z.cmds.map fun (k : Command) => { k with pages := k.pages.map fun p => p.map fun e => (e.1, m.moved e.2) } }
def Seq.moved (y : Seq) (m : Migration) : Seq :=
  { y with l1 := y.l1.map fun (l : Line) => { l with tag := m.moved (256 * l.tag) / 256 },
           tlb := y.tlb.map fun (e : TlbEntry) => { e with pa := m.moved e.pa }, c0 := y.c0.moved m, c1 := y.c1.moved m }
def Tile.moved (z : Tile) (m : Migration) : Tile :=
  { z with a := z.a.moved m, b := z.b.moved m, shadow := z.shadow.map fun h => { h with a := h.a.moved m, b := h.b.moved m } }

/-- External writes that waited for the window, and what follows them of their agents, arrive now. -/
def arriveAfter (s : State) (now : Nat) : List ExternalWrite → List (Nat × Nat) → List ExternalWrite
  | [], _ => []
  | e :: es, late =>
    if s.windowHolds e || late.contains (e.ctx, e.agent) then { e with arrived := max e.arrived now } :: arriveAfter s now es ((e.ctx, e.agent) :: late)
    else e :: arriveAfter s now es late

/-- Released entries of the page have waited for their drain. -/
def State.redrain (s : State) (m : Migration) : State :=
  (s.forward.filter fun e => e.write.bytes.any fun b => m.new ≤ b.1 && b.1 < m.new + m.size).foldl (fun (s : State) _ =>
    (s.after (1 + Config.drainDelay s.free) .stagingEntryDrain).tickFree) s

/-- MIGRATION_WINDOW_END of the page whose old frame is `old`: the last sectors are copied, every held address names the new frame, and accesses to the
old one are forwarded. -/
def State.windowEnd (s : State) (old : Nat) : State :=
  match s.migration old with
  | none => s
  | some m =>
    if m.state ≠ 1 || s.powerLost then s
    else
      let s := s.copyDirty m
      let waiting := arriveAfter s s.gtick s.ingress []
      let s' : State :=
        { s with migrations := s.migrations.filter (·.old != old), ingress := waiting,
                 forwarding := (old, m.new, m.size) :: s.forwarding.map fun f => (f.1, m.moved f.2.1, f.2.2),
                 tiles := s.tiles.map fun e => (e.1, e.2.moved m),
                 forward := s.forward.map fun e => { e with write := e.write.moved m },
                 dies := s.dies.map fun e => (e.1, { e.2 with staging := e.2.staging.map fun (g : StagingEntry) => { g with write := g.write.moved m } }) }
      s'.redrain m
def execMigrationWindowEnd (s : State) : Host.Outcome State Fault Refusal := .next (s.windowEnd (s.arg 0))

end Sys2Proof.Machine
end

