-- ==== Sys2Proof/Machine/Boot.lean ====
section
/-! DEFINITION. Loss and return of supply (R399, R400), wiping (R334) and boot (R41, R333, R401). -/
namespace Sys2Proof.Machine

/-! Happenings from outside (log 10, DESIGN CHOICE). -/

/-- The operation reaches the package from outside: the host, peers, ports, the supply, or a failing part. Everything else on the agenda is the device's
own and ends with it. -/
def fromOutside (i : Instr) : Bool :=
  match i with
  | .tailWrite => true
  | .queueEnable => true
  | .queueDisable => true
  | .featureLock => true
  | .gtrefRead => true
  | .deviceRegisterWrite => true
  | .ringStart => true
  | .ringStop => true
  | .externalWrite => true
  | .ethernetFrame => true
  | .ptpEventMessage => true
  | .ptpTimeLost => true
  | .powerLoss => true
  | .supplyGood => true
  | .supplyCollapse => true
  | .coldReset => true
  | .lifeCycleChange => true
  | .getTdispVersion => true
  | .getTdispCapabilities => true
  | .lockInterfaceRequest => true
  | .getDeviceInterfaceReport => true
  | .getDeviceInterfaceState => true
  | .startInterfaceRequest => true
  | .stopInterfaceRequest => true
  | .ideFailure => true
  | .linkRetrain => true
  | .linkLoss => true
  | .sheafChange => true
  | .lpddrChannelLoss => true
  | _ => false

/-- What lies on the agenda when GTICK is loaded comes as many ticks later as before. -/
def retime (old new : Nat) (es : List Timed) : List Timed := es.map fun e => { e with tick := new + (e.tick - old) }

/-! Power loss (R339, R342, R399). -/

/-- Contexts that hold a bind or a saved state. -/
def State.holders (s : State) : List Nat :=
  (s.ctxs.filter fun e => e.2.part != .unbound || (e.2.bind.map fun b => (s.bind b).valid) == some true).map (·.1)

/-- The records 0x0A01: one for every context that holds a bind or a saved state, one in the log alone without any. -/
def State.lossRecords (s : State) : State :=
  let r : FaultRecord := { info := { code := 0x0A01, unit := 255 }, level := 5, tick := s.gtick }
  match s.holders with
  | [] => { s with log := (s.log ++ [r]).drop (s.log.length + 1 - 4096) }
  | xs => xs.foldl (fun (s : State) x => s.record x r) s

/-- Supply is lost: what runs is to halt, what has halted ends as it stands, and every other context's requests are INTERRUPTED. The records reach their rings, and
the device parks, 40 to 80 µs on (R399). -/
def State.supplyLost (s : State) : State :=
  let s' : State := { s with powerLost := true }
  let s := s'.ctxs.foldl (fun (s : State) e =>
    match (s.ctx e.1).part with
    | .running => s.endPartition e.1 5 0x0A01
    | .halting => s.endPartition e.1 5 0x0A01
    | .halted => (s.modCtx e.1 fun c => { c with ending := some (5, 0x0A01) }).deviceEnd e.1
    | _ => (s.interruptAll e.1).modCtx e.1 fun c => { c with winnow := { c.winnow with closing := none } }) s'
  (s.lossRecords.after (48001 + Config.serviceDelay s.free % 48000) .powerLoss [1]).tickFree

/-- The device is parked: staged writes that were not released are gone. -/
def State.park (s : State) : State :=
  { s with power := .parked, ingress := [], dies := s.dies.map fun e => (e.1, { e.2 with staging := [] }) }

/-- POWER_LOSS: the detection, or with argument 0 = 1 the end of the parking. -/
def State.powerLossEvent (s : State) (phase : Nat) : State :=
  if phase = 1 then (if s.powerLost && s.power != .unpowered then s.park else s)
  else if s.powerLost then s else s.supplyLost
def execPowerLoss (s : State) : Host.Outcome State Fault Refusal := .next (s.powerLossEvent (s.arg 0))

/-! Wiping (R334, R335). -/

/-- Host and peer memory are not the package's. -/
def outside (m : List Host.Cell) : List Host.Cell := m.filter fun c => 0x1000000000000 ≤ c.1

/-- What has been released to memory that is not the package's reaches it as a posted write, in order of release (R137). -/
def State.posted (s : State) : State := s.drainRange 0x1000000000000 0x1000000000000000

/-- SUPPLY_COLLAPSE of a device that has lost its supply: UNPOWERED. SRAM and LPDDR-6 are gone; MRAM and the non-volatile flip-flops keep theirs. -/
def State.collapse (s : State) : State :=
  if !s.powerLost then s
  else
    { s with power := .unpowered, mem := outside s.posted.mem, sectors := s.posted.sectors.filter fun e => 0x1000000000000 ≤ 64 * e.1,
             tiles := s.tiles.map fun e => (e.1, e.2.lose), forward := [], ingress := [], aperture := [],
             dies := s.dies.map fun e => (e.1, { e.2 with staging := [] }), agenda := s.agenda.filter fun e => fromOutside e.op }
def execSupplyCollapse (s : State) : Host.Outcome State Fault Refusal := .next s.collapse

/-- What a tile keeps across a reset: what stands in MRAM, and the journal's transaction until step 4 of boot discards it. -/
def Tile.kept (z : Tile) : Tile :=
  { mram := z.mram, rowMap := z.rowMap, wear := z.wear, retiredRows := z.retiredRows, mramPoison := z.mramPoison, retiredBanks := z.retiredBanks,
    failed := z.failed, wake := z.wake, cellErrors := z.cellErrors,
    journal := { z.journal with due := none, pulse := none, mapWrite := none, queue := none, idleAt := 0 } }

/-- COLD_RESET: every SRAM and all LPDDR-6 are wiped, MRAM is kept, its regions are locked again, GTICK is 0, and boot begins. -/
def State.coldReset (s : State) : State :=
  { (State.reset) with
      tiles := s.tiles.map fun e => (e.1, e.2.kept), dies := s.dies.map fun e => (e.1, { commitLog := e.2.commitLog }), mem := outside s.posted.mem,
      sectors := s.posted.sectors.filter fun e => 0x1000000000000 ≤ 64 * e.1, sheaf := s.sheaf, owners := s.owners.map fun e => (e.1, (e.2.1, none)),
      boot := s.boot, log := s.log, discards := s.discards, regs := { lcs := s.regs.lcs }, boots := s.boots, free := s.free,
      agenda := insertTimed { tick := 0, op := .boot } (retime s.gtick 0 (s.agenda.filter fun e => fromOutside e.op)) }
def execColdReset (s : State) : Host.Outcome State Fault Refusal := .next s.coldReset

/-- SUPPLY_GOOD: the supply has been good for 10 ms; a parked or unpowered device has its cold reset. -/
def State.supplyBack (s : State) : State := if s.power = .parked || s.power = .unpowered then s.coldReset else s
def execSupplyGood (s : State) : Host.Outcome State Fault Refusal := .next s.supplyBack

/-- A life-cycle change wipes MRAM too, but not wear, row map and retired rows. -/
def Tile.wiped (z : Tile) : Tile :=
  { rowMap := z.rowMap, wear := z.wear, retiredRows := z.retiredRows, retiredBanks := z.retiredBanks, failed := z.failed, wake := z.wake }

/-- LIFE_CYCLE_CHANGE to state `v` (log 34, DEDUCED): every memory is wiped, every owner tag cleared, and the package starts anew. -/
def State.lifeCycle (s : State) (v : Nat) : State :=
  if 3 < v || v = s.regs.lcs then s
  else
    let s := s.coldReset
    { s with tiles := s.tiles.map fun e => (e.1, e.2.wiped), owners := [], log := [], discards := [], boot := [], regs := { s.regs with lcs := v } }
def execLifeCycleChange (s : State) : Host.Outcome State Fault Refusal := .next (s.lifeCycle (s.arg 0))

/-! Boot (R41, R333, R401, R408). -/

def bootLimit (k : Nat) : Nat :=
  1200000000 * ([0, 1, 10, 2, 1, 30, 1, 5, 5, 1].getD k 0)
def State.setBoot (s : State) (k : Nat) (f : BootEntry → BootEntry) : State := { s with boot := mset {} s.boot k (f (s.bootEntry k)) }

/-- The outcome of step `k`, with its tick. -/
def State.bootOutcome (s : State) (k outcome attempts : Nat) : State :=
  s.setBoot k fun _ => { outcome := outcome, attempts := attempts, tick := s.gtick % 2 ^ 32, boot := s.boots }

/-- Step `k` begins: its entry reads started before it runs; what follows a failure in the boot before is the alternate of step 3, and the end of an
optional step before it runs. An entry of an older boot says nothing of the boot before, and its failures were not in a row with one of this boot. -/
def State.stepBegins (s : State) (k : Nat) : State :=
  let last := (s.bootEntry k).boot + 1 == s.boots
  let before := if last then (s.bootEntry k).outcome else 0
  let s' : State := { s with regs := { s.regs with bootstep := k } }
  if before = 3 && !bootMandatory k then
    let s := s'.bootOutcome k 4 (s.bootEntry k).attempts
    let s := if k = 7 then s.changeSheaf fun h => { h with links := 0 } else s
    s.after 0 .boot [k + 1]
  else
    let s := s'.bootOutcome k 1 (if last then (s.bootEntry k).attempts else 0)
    let s := ((s.after (1 + Config.serviceDelay s.free) .boot [k, 1, before, s.boots]).tickFree)
    s.after (bootLimit k) .bootStepTimeout [k, s.boots]

/-- The image of a step is the vendor's: its key has the ROM's digest, and its signature of 7856 bytes holds in the pure form, with an empty context string (R332). -/
def imageVerifies (g : Config.FirmwareImage) : Bool :=
  Config.sha256 (leBytes 32 g.key.toNat) = Config.romKeyDigest && g.signature.length == 7856 && Config.slhDsaVerifies g.key g.bytes [] g.signature

/-- Step `k` of boot `n` passes: steps 1 and 6 run only an image that verifies (R332, R333). -/
def stepPasses (n k : Nat) : Bool :=
  Config.bootStepPasses n k && (!(k == 1 || k == 6) || imageVerifies (Config.firmwareImage n k))

/-- GTICK is loaded (R41). -/
def State.loadGtick (s : State) (v : Nat) : State := { s with gtick := v, agenda := retime s.gtick v s.agenda }

/-- GTICK at the first lock: PTP time `p` as 1.2 GHz ticks; the pair starts from here. -/
def State.lockGtick (s : State) (p : Nat) : State :=
  let s := s.loadGtick (p * 6 / 5 % 2 ^ 64)
  { s with regs := { s.regs with lockTick := s.gtick, lockPtp := p % 2 ^ 64, lockStat := 1, refTick := s.gtick, refPtp := p % 2 ^ 64, refStat := 1 } }

/-- Step 2 found no lock within its limit: GTICK is 0 and PTPSTAT reads 0 until a later one (R401). -/
def State.unlockedGtick (s : State) : State :=
  let s := s.loadGtick 0
  { s with regs := { s.regs with lockTick := 0, lockPtp := 0, lockRate := nominalRate, lockStat := 0, refTick := 0, refPtp := 0, refRate := nominalRate,
                                 refStat := 0, ptpstat := 0 } }

/-- What a passed step does: step 4 loads the Sheaf with the package's number (R328), step 7 leaves the links that trained, step 8 the ports. -/
def State.bootWork (s : State) (k : Nat) (alternate : Bool) : State :=
  match k with
  | 3 => if alternate then s.changeSheaf fun h => { h with rates := h.live.foldl (fun m c => mset 12800 m c Config.lowestRate) h.rates } else s
  | 4 => ((s.tiles.map (·.1)).foldl (fun (s : State) t => s.discardJournal t) s).changeSheaf fun h => { h with package := Config.packageNumber % 16 }
  | 7 => s.changeSheaf fun h => { h with links := Config.linksTrained s.boots }
  | 8 => { s with portsUp := true }
  | _ => s

/-- The next step, or the end of boot. -/
def State.bootGoesOn (s : State) (k : Nat) : State :=
  if k < 9 then s.after 0 .boot [k + 1] else { s with regs := { s.regs with bootstep := 0xFF } }

/-- A step fails: an optional one is left, a mandatory one ends the boot; after the third boot in a row PF0 alone is presented. The boot that follows begins with
a cold reset, so that step 2 loads GTICK once after each (R41; log 69, DESIGN CHOICE: the spec does not say how the next boot comes about). -/
def State.bootFails (s : State) (k : Nat) : State :=
  let n := (s.bootEntry k).attempts + 1
  let s := s.bootOutcome k 3 n
  if !bootMandatory k then s.bootGoesOn k
  else if 3 ≤ n then s
  else (s.after (1 + Config.serviceDelay s.free) .coldReset).tickFree

/-- A step passes; `before` is its outcome in the boot before. -/
def State.bootPasses (s : State) (k before : Nat) : State :=
  let alternate := k == 3 && before == 3
  ((s.bootWork k alternate).bootOutcome k (if alternate then 5 else 2) 0).bootGoesOn k

/-- A step comes to its end. -/
def State.stepEnds (s : State) (k before n : Nat) : State :=
  if (s.bootEntry k).outcome ≠ 1 || s.boots ≠ n || s.regs.bootstep ≠ k then s
  else if !stepPasses n k then s.bootFails k
  else if k = 2 then match Config.bootTime n with
    | some p => ((s.lockGtick p).after (2 ^ 20) .ptpReferenceRenewal).bootPasses 2 before
    | none => s
  else s.bootPasses k before

/-- The mandatory step at which the boot before was cut off, if that was the third boot in a row to fail there. -/
def State.bootCut (s : State) : Option Nat :=
  (s.boot.find? fun e => e.2.outcome == 1 && bootMandatory e.1 && 2 ≤ e.2.attempts).map (·.1)

/-- A boot begins: an entry still reading started counts as failed. A third failure in a row that shows only now leaves PF0 alone, as one that shows in its own
boot does, and BOOTSTEP holds its step (log 69, DESIGN CHOICE). -/
def State.bootBegins (s0 : State) : State :=
  let s := s0.boot.foldl (fun (s : State) e =>
    if e.2.outcome = 1 then s.setBoot e.1 fun b => { b with outcome := 3, attempts := b.attempts + 1 } else s) s0
  let s' : State := { s with boots := s.boots + 1, portsUp := false }
  match s0.bootCut with
  | some k => ({ s' with regs := { s'.regs with bootstep := k } } : State).setBoot k fun b => { b with boot := s'.boots }
  | none => s'.stepBegins 1

/-- BOOT without arguments begins a boot, with a step's number that step; further arguments end it. -/
def State.bootEvent (s : State) (args : List Nat) : State :=
  if s.powerLost then s
  else match args with
  | [] => s.bootBegins
  | [k] => s.stepBegins k
  | k :: _ :: before :: n :: _ => s.stepEnds k before n
  | _ => s
def execBoot (s : State) : Host.Outcome State Fault Refusal := .next (s.bootEvent s.cur.args)

/-- BOOT_STEP_TIMEOUT of step `k` in boot `n`: a step still started counts as failed; step 2 without a lock loads GTICK with 0 and passes. -/
def State.bootTimeout (s : State) (k n : Nat) : State :=
  if (s.bootEntry k).outcome ≠ 1 || s.boots ≠ n || s.regs.bootstep ≠ k || s.powerLost then s
  else if k = 2 then (s.unlockedGtick.after (2 ^ 20) .ptpReferenceRenewal).bootPasses 2 0
  else s.bootFails k
def execBootStepTimeout (s : State) : Host.Outcome State Fault Refusal := .next (s.bootTimeout (s.arg 0) (s.arg 1))

end Sys2Proof.Machine
end

