-- ==== Sys2Proof/Machine/Fetch.lean ====
section
/-! DEFINITION. Fetch (R48, R162, R163, R166, R359 to R361): the extent of the bundle at the program counter, its decoding, and the
engine instances its words use (R356). -/
namespace Sys2Proof.Machine

/-- The cursor on the bundle that sequencer `q` of tile `t` issues. -/
def State.bundleCursor (s : State) (t q next : Nat) (ws : List (Nat × Instr)) : Cursor :=
  let y := s.seq t q
  { tile := t, seq := q, unit := 255, word := y.pc, bundle := y.pc, next := next, slots := y.l, words := ws }

/-- The bundle is taken: the sequencer goes on with the text behind it unless a word transfers (R51). -/
def State.take (s : State) (t q next : Nat) (ws : List (Nat × Instr)) : State :=
  let s' : State := { s with cur := s.bundleCursor t q next ws }
  s'.modSeq t q fun y => { y with pc := next, taken := true }

/-- The execution instance that serves a unit of a sequencer, by its nibble (R356), as a port number. -/
def instancePort (nibble q u : Nat) : Nat :=
  if nibble = 2 then 32 + 6 * (1 - q) + u
  else if nibble = 1 then 32 + 6 * q + (if u = 1 then 2 else if u = 2 then 1 else if u = 4 then 5 else if u = 5 then 4 else u)
  else 32 + 6 * q + u

/-- Each word uses the instance of its unit for the step, where an instance of the tile serves two slots. -/
def State.useUnits (s : State) (t q : Nat) (ws : List (Nat × Instr)) : State :=
  let m := s.sheaf.engineMap (seqNumber t q)
  if m = 0 && s.sheaf.engineMap (seqNumber t (1 - q)) = 0 then s
  else ws.foldl (fun s w =>
    s.modTile t (·.use { port := instancePort (nbits m (4 * w.1) 4) q w.1, write := false, rank := 6 * q + w.1 })) s

/-- The 64-byte words of MRAM that hold an extent lie in a region locked against the context (R334). -/
def State.textLocked (s : State) (t a n : Nat) : Bool :=
  (List.range n).any fun k => s.mramLocked t (a + 4 * k - 0x8000000) (s.ctxOf t)

/-- Why the bundle of an extent does not issue, or its words (R360, R361). Poison of the text is 0x0502, wherever it arose (R348). -/
def State.bundleOf (s : State) (t a : Nat) (e : List Nat) (poison : Option Poison) : Except FaultInfo (List (Nat × Instr)) :=
  if s.textLocked t a e.length then .error { code := 0x0C03, addr := a }
  else match poison with
  | some p => .error { code := 0x0502, addr := p.addr, injected := p.injected, aux0 := p.syndrome }
  | none =>
    match decodeBundle ((a - 0x8000000) / 4) e with
    | .ok ps => .ok (ps.map fun p => (p.unit, p.instr))
    | .error .malformed => .error { code := 0x0202 }
    | .error (.notInstruction u) => .error { code := 0x0201, unit := u }

/-- What the fetch of `n` words leaves behind: corrected bits are counted, and a row with an uncorrectable word, or one with more than two corrected bits, is
retired (R347). -/
def State.noteText (s : State) (t a n : Nat) : State :=
  if (s.tile t).cellErrors.isEmpty then s
  else (wordsOf (a - 0x8000000) (4 * n)).foldl (fun (s : State) k =>
    let w := (s.tile t).mramWord k
    let phys := (s.tile t).physRow (k / 16)
    (s.noteFixes t (64 * k) phys [w]).noteBadRow t (64 * k) phys w.2.1) s

/-- BUNDLE_ISSUE of the sequencer of arguments 0 and 1: the extent is taken, and, unless it is skipped (R48), decoded. The
words stand in the cursor, and the step issues them one after another. An extent that runs past the text raises 0x0203 (R361) though the bundle is to be skipped
(log 86, DESIGN CHOICE). -/
def State.fetch (s : State) (t q : Nat) : State :=
  let y := s.seq t q
  let a := y.pc
  let (e, poison) := (s.tile t).bundleWords a
  let next := a + 4 * e.length
  let here (f : FaultInfo) : FaultInfo := { f with step := y.clock, bundle := a }
  let s := s.noteText t a e.length
  let start := s.take t q next []
  if textEnds e then start.trapIssue (here { code := 0x0203 })
  else if y.skipLeft > 0 then start.modSeq t q fun y => { y with skipLeft := y.skipLeft - 1 }
  else match s.bundleOf t a e poison with
  | .error f => start.trapIssue (here f)
  | .ok ws => (s.take t q next ws).useUnits t q ws
def execBundleIssue (s : State) : Host.Outcome State Fault Refusal := .next (s.fetch (s.arg 0) (s.arg 1))

end Sys2Proof.Machine
end

