-- ==== Sys2Proof/Machine/Dispatch.lean ====
section
/-! DEFINITION. The one dispatch: each operation of the opcode table to its meaning. -/
namespace Sys2Proof.Machine

/-- One operation. -/
def exec (i : Instr) (s : State) : Host.Outcome State Fault Refusal :=
  match i with
  | .nop => Sys2Proof.Machine.execNop s
  | .add d a b m => Sys2Proof.Machine.execAdd d a b m s
  | .sub d a b m => Sys2Proof.Machine.execSub d a b m s
  | .and d a b m => Sys2Proof.Machine.execAnd d a b m s
  | .or d a b m => Sys2Proof.Machine.execOr d a b m s
  | .xor d a b m => Sys2Proof.Machine.execXor d a b m s
  | .andn d a b m => Sys2Proof.Machine.execAndn d a b m s
  | .shl d a b m => Sys2Proof.Machine.execShl d a b m s
  | .shr d a b m => Sys2Proof.Machine.execShr d a b m s
  | .shra d a b m => Sys2Proof.Machine.execShra d a b m s
  | .rotr d a b m => Sys2Proof.Machine.execRotr d a b m s
  | .mul d a b m => Sys2Proof.Machine.execMul d a b m s
  | .mulh d a b m => Sys2Proof.Machine.execMulh d a b m s
  | .mulhu d a b m => Sys2Proof.Machine.execMulhu d a b m s
  | .div d a b m => Sys2Proof.Machine.execDiv d a b m s
  | .divu d a b m => Sys2Proof.Machine.execDivu d a b m s
  | .rem d a b m => Sys2Proof.Machine.execRem d a b m s
  | .remu d a b m => Sys2Proof.Machine.execRemu d a b m s
  | .min d a b m => Sys2Proof.Machine.execMin d a b m s
  | .max d a b m => Sys2Proof.Machine.execMax d a b m s
  | .minu d a b m => Sys2Proof.Machine.execMinu d a b m s
  | .maxu d a b m => Sys2Proof.Machine.execMaxu d a b m s
  | .slt d a b m => Sys2Proof.Machine.execSlt d a b m s
  | .sltu d a b m => Sys2Proof.Machine.execSltu d a b m s
  | .seq d a b m => Sys2Proof.Machine.execSeq d a b m s
  | .sne d a b m => Sys2Proof.Machine.execSne d a b m s
  | .clz d a m => Sys2Proof.Machine.execClz d a m s
  | .ctz d a m => Sys2Proof.Machine.execCtz d a m s
  | .popc d a m => Sys2Proof.Machine.execPopc d a m s
  | .sext d a m => Sys2Proof.Machine.execSext d a m s
  | .zext d a m => Sys2Proof.Machine.execZext d a m s
  | .fshl d a b m => Sys2Proof.Machine.execFshl d a b m s
  | .fshr d a b m => Sys2Proof.Machine.execFshr d a b m s
  | .addi d a imm => Sys2Proof.Machine.execAddi d a imm s
  | .andi d a imm => Sys2Proof.Machine.execAndi d a imm s
  | .ori d a imm => Sys2Proof.Machine.execOri d a imm s
  | .xori d a imm => Sys2Proof.Machine.execXori d a imm s
  | .shli d a imm => Sys2Proof.Machine.execShli d a imm s
  | .shri d a imm => Sys2Proof.Machine.execShri d a imm s
  | .shrai d a imm => Sys2Proof.Machine.execShrai d a imm s
  | .slti d a imm => Sys2Proof.Machine.execSlti d a imm s
  | .sltui d a imm => Sys2Proof.Machine.execSltui d a imm s
  | .muli d a imm => Sys2Proof.Machine.execMuli d a imm s
  | .li d imm => Sys2Proof.Machine.execLi d imm s
  | .lih1 d imm => Sys2Proof.Machine.execLih1 d imm s
  | .lih2 d imm => Sys2Proof.Machine.execLih2 d imm s
  | .lih3 d imm => Sys2Proof.Machine.execLih3 d imm s
  | .lds g a z o => Sys2Proof.Machine.execLds g a z o s
  | .sts g a z o => Sys2Proof.Machine.execSts g a z o s
  | .ldm g a z o => Sys2Proof.Machine.execLdm g a z o s
  | .stx g a k z o => Sys2Proof.Machine.execStx g a k z o s
  | .ldx l a t z => Sys2Proof.Machine.execLdx l a t z s
  | .getl d l z o => Sys2Proof.Machine.execGetl d l z o s
  | .getlPk d l z o => Sys2Proof.Machine.execGetlPk d l z o s
  | .j o => Sys2Proof.Machine.execJ o s
  | .call o => Sys2Proof.Machine.execCall o s
  | .jr a => Sys2Proof.Machine.execJr a s
  | .callr a => Sys2Proof.Machine.execCallr a s
  | .ret => Sys2Proof.Machine.execRet s
  | .beqz a o => Sys2Proof.Machine.execBeqz a o s
  | .bnez a o => Sys2Proof.Machine.execBnez a o s
  | .bltz a o => Sys2Proof.Machine.execBltz a o s
  | .bgez a o => Sys2Proof.Machine.execBgez a o s
  | .bpu p o => Sys2Proof.Machine.execBpu p o s
  | .beng e z o => Sys2Proof.Machine.execBeng e z o s
  | .loop l r o => Sys2Proof.Machine.execLoop l r o s
  | .skip b n => Sys2Proof.Machine.execSkip b n s
  | .halt => Sys2Proof.Machine.execHalt s
  | .waitt a => Sys2Proof.Machine.execWaitt a s
  | .trap imm => Sys2Proof.Machine.execTrap imm s
  | .mfc g c => Sys2Proof.Machine.execMfc g c s
  | .mtc g c => Sys2Proof.Machine.execMtc g c s
  | .time d => Sys2Proof.Machine.execTime d s
  | .step d => Sys2Proof.Machine.execStep d s
  | .pcnt a g => Sys2Proof.Machine.execPcnt a g s
  | .pmov d a => Sys2Proof.Machine.execPmov d a s
  | .psetg d g => Sys2Proof.Machine.execPsetg d g s
  | .pand d a b => Sys2Proof.Machine.execPand d a b s
  | .por d a b => Sys2Proof.Machine.execPor d a b s
  | .pxor d a b => Sys2Proof.Machine.execPxor d a b s
  | .pnot d a => Sys2Proof.Machine.execPnot d a s
  | .vadd e d a b p => Sys2Proof.Machine.execVadd e d a b p s
  | .vsub e d a b p => Sys2Proof.Machine.execVsub e d a b p s
  | .vadds e d a b p => Sys2Proof.Machine.execVadds e d a b p s
  | .vsubs e d a b p => Sys2Proof.Machine.execVsubs e d a b p s
  | .vmul e d a b p => Sys2Proof.Machine.execVmul e d a b p s
  | .vmulh e d a b p => Sys2Proof.Machine.execVmulh e d a b p s
  | .vmin e d a b p => Sys2Proof.Machine.execVmin e d a b p s
  | .vmax e d a b p => Sys2Proof.Machine.execVmax e d a b p s
  | .vminu e d a b p => Sys2Proof.Machine.execVminu e d a b p s
  | .vmaxu e d a b p => Sys2Proof.Machine.execVmaxu e d a b p s
  | .vabsd e d a b p => Sys2Proof.Machine.execVabsd e d a b p s
  | .vand e d a b p => Sys2Proof.Machine.execVand e d a b p s
  | .vor e d a b p => Sys2Proof.Machine.execVor e d a b p s
  | .vxor e d a b p => Sys2Proof.Machine.execVxor e d a b p s
  | .vandn e d a b p => Sys2Proof.Machine.execVandn e d a b p s
  | .vshl e d a b p => Sys2Proof.Machine.execVshl e d a b p s
  | .vshr e d a b p => Sys2Proof.Machine.execVshr e d a b p s
  | .vshra e d a b p => Sys2Proof.Machine.execVshra e d a b p s
  | .vshli e d a imm p => Sys2Proof.Machine.execVshli e d a imm p s
  | .vshri e d a imm p => Sys2Proof.Machine.execVshri e d a imm p s
  | .vfshl e d a b p => Sys2Proof.Machine.execVfshl e d a b p s
  | .vfshr e d a b p => Sys2Proof.Machine.execVfshr e d a b p s
  | .vcmpeq e d a b p => Sys2Proof.Machine.execVcmpeq e d a b p s
  | .vcmplt e d a b p => Sys2Proof.Machine.execVcmplt e d a b p s
  | .vcmpltu e d a b p => Sys2Proof.Machine.execVcmpltu e d a b p s
  | .vsel e d a b p => Sys2Proof.Machine.execVsel e d a b p s
  | .vsplat e d a imm p => Sys2Proof.Machine.execVsplat e d a imm p s
  | .vperm e d a b p => Sys2Proof.Machine.execVperm e d a b p s
  | .vsldn e d a imm p => Sys2Proof.Machine.execVsldn e d a imm p s
  | .vslup e d a imm p => Sys2Proof.Machine.execVslup e d a imm p s
  | .vdelta e d a b p => Sys2Proof.Machine.execVdelta e d a b p s
  | .vpsum e d a b p => Sys2Proof.Machine.execVpsum e d a b p s
  | .vfadd e d a b p => Sys2Proof.Machine.execVfadd e d a b p s
  | .vfsub e d a b p => Sys2Proof.Machine.execVfsub e d a b p s
  | .vfmul e d a b p => Sys2Proof.Machine.execVfmul e d a b p s
  | .vfma e d a b p => Sys2Proof.Machine.execVfma e d a b p s
  | .vfmax e d a b p => Sys2Proof.Machine.execVfmax e d a b p s
  | .vfmin e d a b p => Sys2Proof.Machine.execVfmin e d a b p s
  | .vfcmplt e d a b p => Sys2Proof.Machine.execVfcmplt e d a b p s
  | .vfcmpeq e d a b p => Sys2Proof.Machine.execVfcmpeq e d a b p s
  | .vfrcp e d a p => Sys2Proof.Machine.execVfrcp e d a p s
  | .vfexp2 e d a p => Sys2Proof.Machine.execVfexp2 e d a p s
  | .vfcvtH d a b p => Sys2Proof.Machine.execVfcvtH d a b p s
  | .vfcvtW d a p => Sys2Proof.Machine.execVfcvtW d a p s
  | .vcvtif e d a p => Sys2Proof.Machine.execVcvtif e d a p s
  | .vcvtfi e d a p => Sys2Proof.Machine.execVcvtfi e d a p s
  | .vnarrow d a q m p => Sys2Proof.Machine.execVnarrow d a q m p s
  | .vbscale d a b p => Sys2Proof.Machine.execVbscale d a b p s
  | .vrmax e d a p => Sys2Proof.Machine.execVrmax e d a p s
  | .vrsum e d a p => Sys2Proof.Machine.execVrsum e d a p s
  | .vgmax e d a imm p => Sys2Proof.Machine.execVgmax e d a imm p s
  | .vclz e d a p => Sys2Proof.Machine.execVclz e d a p s
  | .vfrsum e d a p => Sys2Proof.Machine.execVfrsum e d a p s
  | .vfrmax e d a p => Sys2Proof.Machine.execVfrmax e d a p s
  | .vhash d a imm p => Sys2Proof.Machine.execVhash d a imm p s
  | .vld e v a o p => Sys2Proof.Machine.execVld e v a o p s
  | .vst e v a o p => Sys2Proof.Machine.execVst e v a o p s
  | .vldu e v a o p => Sys2Proof.Machine.execVldu e v a o p s
  | .vstu e v a o p => Sys2Proof.Machine.execVstu e v a o p s
  | .vldm e v a o p => Sys2Proof.Machine.execVldm e v a o p s
  | .vldx l a t => Sys2Proof.Machine.execVldx l a t s
  | .vstx e v a z p => Sys2Proof.Machine.execVstx e v a z p s
  | .vgetl d l k => Sys2Proof.Machine.execVgetl d l k s
  | .vgath e v a o p => Sys2Proof.Machine.execVgath e v a o p s
  | .vscat e v a o p => Sys2Proof.Machine.execVscat e v a o p s
  | .tshape t e r c => Sys2Proof.Machine.execTshape t e r c s
  | .tld t a b => Sys2Proof.Machine.execTld t a b s
  | .tldm t a b => Sys2Proof.Machine.execTldm t a b s
  | .tst t a b => Sys2Proof.Machine.execTst t a b s
  | .tzero t => Sys2Proof.Machine.execTzero t s
  | .ttr t => Sys2Proof.Machine.execTtr t s
  | .mma44 a x y z r k o b => Sys2Proof.Machine.execMma44 a x y z r k o b s
  | .mma46 a x y z r k o b => Sys2Proof.Machine.execMma46 a x y z r k o b s
  | .mma48 a x y z r k o b => Sys2Proof.Machine.execMma48 a x y z r k o b s
  | .mma64 a x y z r k o b => Sys2Proof.Machine.execMma64 a x y z r k o b s
  | .mma66 a x y z r k o b => Sys2Proof.Machine.execMma66 a x y z r k o b s
  | .mma68 a x y z r k o b => Sys2Proof.Machine.execMma68 a x y z r k o b s
  | .mma84 a x y z r k o b => Sys2Proof.Machine.execMma84 a x y z r k o b s
  | .mma86 a x y z r k o b => Sys2Proof.Machine.execMma86 a x y z r k o b s
  | .mma88 a x y z r k o b => Sys2Proof.Machine.execMma88 a x y z r k o b s
  | .mmas44 a x y m z r k o b => Sys2Proof.Machine.execMmas44 a x y m z r k o b s
  | .mmas48 a x y m z r k o b => Sys2Proof.Machine.execMmas48 a x y m z r k o b s
  | .mmas84 a x y m z r k o b => Sys2Proof.Machine.execMmas84 a x y m z r k o b s
  | .mmas88 a x y m z r k o b => Sys2Proof.Machine.execMmas88 a x y m z r k o b s
  | .accz a => Sys2Proof.Machine.execAccz a s
  | .accscl a o x y b => Sys2Proof.Machine.execAccscl a o x y b s
  | .ozero z => Sys2Proof.Machine.execOzero z s
  | .ord v z r => Sys2Proof.Machine.execOrd v z r s
  | .owr v z r => Sys2Proof.Machine.execOwr v z r s
  | .accrd v z r => Sys2Proof.Machine.execAccrd v z r s
  | .cpy a b c f => Sys2Proof.Machine.execCpy a b c f s
  | .cpym a b c f => Sys2Proof.Machine.execCpym a b c f s
  | .cpyg a b c z f => Sys2Proof.Machine.execCpyg a b c z f s
  | .cpyw a b c z f => Sys2Proof.Machine.execCpyw a b c z f s
  | .cpymc a b c f => Sys2Proof.Machine.execCpymc a b c f s
  | .cpyx a b c z f => Sys2Proof.Machine.execCpyx a b c z f s
  | .gath a b c z f => Sys2Proof.Machine.execGath a b c z f s
  | .scat a b c z f => Sys2Proof.Machine.execScat a b c z f s
  | .redc a b c z f => Sys2Proof.Machine.execRedc a b c z f s
  | .cseed x a => Sys2Proof.Machine.execCseed x a s
  | .cget l x => Sys2Proof.Machine.execCget l x s
  | .phase z v l => Sys2Proof.Machine.execPhase z v l s
  | .fence z v l => Sys2Proof.Machine.execFence z v l s
  | .sstep z v l => Sys2Proof.Machine.execSstep z v l s
  | .wgo z v l => Sys2Proof.Machine.execWgo z v l s
  | .aadd d a b z => Sys2Proof.Machine.execAadd d a b z s
  | .amin d a b z => Sys2Proof.Machine.execAmin d a b z s
  | .amax d a b z => Sys2Proof.Machine.execAmax d a b z s
  | .aor d a b z => Sys2Proof.Machine.execAor d a b z s
  | .aand d a b z => Sys2Proof.Machine.execAand d a b z s
  | .axchg d a b z => Sys2Proof.Machine.execAxchg d a b z s
  | .acas d a b z => Sys2Proof.Machine.execAcas d a b z s
  | .rqld d a imm => Sys2Proof.Machine.execRqld d a imm s
  | .rqcommit d a b => Sys2Proof.Machine.execRqcommit d a b s
  | .rqend => Sys2Proof.Machine.execRqend s
  | .condw a b => Sys2Proof.Machine.execCondw a b s
  | .maprd d a => Sys2Proof.Machine.execMaprd d a s
  | .mapack a => Sys2Proof.Machine.execMapack a s
  | .wjopen a => Sys2Proof.Machine.execWjopen a s
  | .wjput d a b => Sys2Proof.Machine.execWjput d a b s
  | .wjcommit => Sys2Proof.Machine.execWjcommit s
  | .wjabort => Sys2Proof.Machine.execWjabort s
  | .wjstat d a => Sys2Proof.Machine.execWjstat d a s
  | .pwrhint z => Sys2Proof.Machine.execPwrhint z s
  | .cropen imm o => Sys2Proof.Machine.execCropen imm o s
  | .crclose imm => Sys2Proof.Machine.execCrclose imm s
  | .fret => Sys2Proof.Machine.execFret s
  | .fretN => Sys2Proof.Machine.execFretN s
  | .fltrd d k => Sys2Proof.Machine.execFltrd d k s
  | .diagst a b => Sys2Proof.Machine.execDiagst a b s
  | .diagld d a b => Sys2Proof.Machine.execDiagld d a b s
  | .rqflt a b => Sys2Proof.Machine.execRqflt a b s
  | .bundleIssue => Sys2Proof.Machine.execBundleIssue s
  | .resultLanding => Sys2Proof.Machine.execResultLanding s
  | .mmaLanding => Sys2Proof.Machine.execMmaLanding s
  | .accsclLanding => Sys2Proof.Machine.execAccsclLanding s
  | .bankConflictServe => Sys2Proof.Machine.execBankConflictServe s
  | .deferredInboundWrite => Sys2Proof.Machine.execDeferredInboundWrite s
  | .apertureWritePerform => Sys2Proof.Machine.execApertureWritePerform s
  | .landingDataArrival => Sys2Proof.Machine.execLandingDataArrival s
  | .landingDue => Sys2Proof.Machine.execLandingDue s
  | .freezeTimeout => Sys2Proof.Machine.execFreezeTimeout s
  | .copyCommandStart => Sys2Proof.Machine.execCopyCommandStart s
  | .copyBeat => Sys2Proof.Machine.execCopyBeat s
  | .copyCommandComplete => Sys2Proof.Machine.execCopyCommandComplete s
  | .cpyxAcknowledgment => Sys2Proof.Machine.execCpyxAcknowledgment s
  | .segmentStart => Sys2Proof.Machine.execSegmentStart s
  | .taskStart => Sys2Proof.Machine.execTaskStart s
  | .segmentEnd => Sys2Proof.Machine.execSegmentEnd s
  | .graphWalkCond => Sys2Proof.Machine.execGraphWalkCond s
  | .graphWalkWhile => Sys2Proof.Machine.execGraphWalkWhile s
  | .graphWalkEnd => Sys2Proof.Machine.execGraphWalkEnd s
  | .boundarySignal => Sys2Proof.Machine.execBoundarySignal s
  | .phaseRelease => Sys2Proof.Machine.execPhaseRelease s
  | .winnowBoundary => Sys2Proof.Machine.execWinnowBoundary s
  | .tileWake => Sys2Proof.Machine.execTileWake s
  | .tileWakeComplete => Sys2Proof.Machine.execTileWakeComplete s
  | .tileEntryComplete => Sys2Proof.Machine.execTileEntryComplete s
  | .submit => Sys2Proof.Machine.execSubmit s
  | .submitRetry => Sys2Proof.Machine.execSubmitRetry s
  | .cancel => Sys2Proof.Machine.execCancel s
  | .launch => Sys2Proof.Machine.execLaunch s
  | .wait => Sys2Proof.Machine.execWait s
  | .waitConditionMet => Sys2Proof.Machine.execWaitConditionMet s
  | .waitUnmapTimeout => Sys2Proof.Machine.execWaitUnmapTimeout s
  | .armTimer => Sys2Proof.Machine.execArmTimer s
  | .timerDisarm => Sys2Proof.Machine.execTimerDisarm s
  | .weightWrite => Sys2Proof.Machine.execWeightWrite s
  | .fencePacket => Sys2Proof.Machine.execFencePacket s
  | .tailWrite => Sys2Proof.Machine.execTailWrite s
  | .queueEnable => Sys2Proof.Machine.execQueueEnable s
  | .queueDisable => Sys2Proof.Machine.execQueueDisable s
  | .queueMap => Sys2Proof.Machine.execQueueMap s
  | .granaryWatchdogExpiry => Sys2Proof.Machine.execGranaryWatchdogExpiry s
  | .featureLock => Sys2Proof.Machine.execFeatureLock s
  | .gtrefRead => Sys2Proof.Machine.execGtrefRead s
  | .deviceRegisterWrite => Sys2Proof.Machine.execDeviceRegisterWrite s
  | .ringStart => Sys2Proof.Machine.execRingStart s
  | .ringStop => Sys2Proof.Machine.execRingStop s
  | .timerWheelTick => Sys2Proof.Machine.execTimerWheelTick s
  | .bindTakePartition => Sys2Proof.Machine.execBindTakePartition s
  | .bindEnd => Sys2Proof.Machine.execBindEnd s
  | .partitionHalt => Sys2Proof.Machine.execPartitionHalt s
  | .contextSwap => Sys2Proof.Machine.execContextSwap s
  | .partitionResume => Sys2Proof.Machine.execPartitionResume s
  | .contextRestore => Sys2Proof.Machine.execContextRestore s
  | .shootdownEffect => Sys2Proof.Machine.execShootdownEffect s
  | .migrationCopyPass => Sys2Proof.Machine.execMigrationCopyPass s
  | .migrationWindowEnd => Sys2Proof.Machine.execMigrationWindowEnd s
  | .sheafChange => Sys2Proof.Machine.execSheafChange s
  | .mapackMissed => Sys2Proof.Machine.execMapackMissed s
  | .tileReplaced => Sys2Proof.Machine.execTileReplaced s
  | .externalWrite => Sys2Proof.Machine.execExternalWrite s
  | .ethernetFrame => Sys2Proof.Machine.execEthernetFrame s
  | .ptpEventMessage => Sys2Proof.Machine.execPtpEventMessage s
  | .ptpReferenceRenewal => Sys2Proof.Machine.execPtpReferenceRenewal s
  | .ringRepair => Sys2Proof.Machine.execRingRepair s
  | .journalPulse => Sys2Proof.Machine.execJournalPulse s
  | .journalVerify => Sys2Proof.Machine.execJournalVerify s
  | .faultRecordWrite => Sys2Proof.Machine.execFaultRecordWrite s
  | .trapPauseTimeout => Sys2Proof.Machine.execTrapPauseTimeout s
  | .scrub => Sys2Proof.Machine.execScrub s
  | .mramRowRewrite => Sys2Proof.Machine.execMramRowRewrite s
  | .lpddrChannelLoss => Sys2Proof.Machine.execLpddrChannelLoss s
  | .linkRetrain => Sys2Proof.Machine.execLinkRetrain s
  | .linkLoss => Sys2Proof.Machine.execLinkLoss s
  | .powerLoss => Sys2Proof.Machine.execPowerLoss s
  | .supplyGood => Sys2Proof.Machine.execSupplyGood s
  | .coldReset => Sys2Proof.Machine.execColdReset s
  | .boot => Sys2Proof.Machine.execBoot s
  | .bootStepTimeout => Sys2Proof.Machine.execBootStepTimeout s
  | .lifeCycleChange => Sys2Proof.Machine.execLifeCycleChange s
  | .getTdispVersion => Sys2Proof.Machine.execGetTdispVersion s
  | .getTdispCapabilities => Sys2Proof.Machine.execGetTdispCapabilities s
  | .lockInterfaceRequest => Sys2Proof.Machine.execLockInterfaceRequest s
  | .getDeviceInterfaceReport => Sys2Proof.Machine.execGetDeviceInterfaceReport s
  | .getDeviceInterfaceState => Sys2Proof.Machine.execGetDeviceInterfaceState s
  | .startInterfaceRequest => Sys2Proof.Machine.execStartInterfaceRequest s
  | .stopInterfaceRequest => Sys2Proof.Machine.execStopInterfaceRequest s
  | .ideFailure => Sys2Proof.Machine.execIdeFailure s
  | .ptpTimeLost => Sys2Proof.Machine.execPtpTimeLost s
  | .stagingEntryDrain => Sys2Proof.Machine.execStagingEntryDrain s
  | .spillCopyPerform => Sys2Proof.Machine.execSpillCopyPerform s
  | .supplyCollapse => Sys2Proof.Machine.execSupplyCollapse s

end Sys2Proof.Machine
end

