-- ==== Sys2Proof/Machine/Reads.lean ====
section
/-! DEFINITION. The registers that an instruction word reads, and the parity error that it meets in one (R347). -/
namespace Sys2Proof.Machine

/-- Parts of registers: storage kind, first part, number of parts, numbered as Seq.parityErrors numbers them. -/
abbrev Parts := Nat × Nat × Nat

/-- The registers that a word reads, each whole, through the rotation of its issue (R174). A row of an accumulator or output register is its 64 elements;
g0 and p0 are no storage (R173). -/
def Instr.reads (y : Seq) (i : Instr) : List Parts :=
  let gr (r : BitVec 5) : Parts := (0, r.toNat, if r = 0 then 0 else 1)
  let pr (r : BitVec 3) : Parts := (1, y.physP r.toNat, if r = 0 then 0 else 1)
  let vr (r : BitVec 6) : Parts := (2, 8 * y.physV r.toNat, 8)
  let vNext (r : BitVec 6) : Parts := vr (r + 1)
  let qr (r : BitVec 3) : Parts := (3, 8 * r.toNat, 8)
  let tr (r : BitVec 3) : Parts := (4, 1024 * r.toNat, 1024)
  let acc (r : BitVec 2) (zero : BitVec 1) : Parts := (5, 4096 * r.toNat, if zero = 1 then 0 else 4096)
  let accRow (r : BitVec 2) (row : BitVec 6) : Parts := (5, 4096 * r.toNat + 64 * row.toNat, 64)
  let out (r : BitVec 1) : Parts := (6, 4096 * r.toNat, 4096)
  -- the co-operative row offset of .CO, in g31 (R250)
  let offset (rg co : BitVec 1) : Parts := (0, 31, if rg = 1 && co = 1 then 1 else 0)
  let outRow (r : BitVec 1) (row : BitVec 6) : Parts := (6, 4096 * r.toNat + 64 * row.toNat, 64)
  match i with
  | .add _ a b _ => [gr a, gr b]
  | .sub _ a b _ => [gr a, gr b]
  | .and _ a b _ => [gr a, gr b]
  | .or _ a b _ => [gr a, gr b]
  | .xor _ a b _ => [gr a, gr b]
  | .andn _ a b _ => [gr a, gr b]
  | .shl _ a b _ => [gr a, gr b]
  | .shr _ a b _ => [gr a, gr b]
  | .shra _ a b _ => [gr a, gr b]
  | .rotr _ a b _ => [gr a, gr b]
  | .mul _ a b _ => [gr a, gr b]
  | .mulh _ a b _ => [gr a, gr b]
  | .mulhu _ a b _ => [gr a, gr b]
  | .div _ a b _ => [gr a, gr b]
  | .divu _ a b _ => [gr a, gr b]
  | .rem _ a b _ => [gr a, gr b]
  | .remu _ a b _ => [gr a, gr b]
  | .min _ a b _ => [gr a, gr b]
  | .max _ a b _ => [gr a, gr b]
  | .minu _ a b _ => [gr a, gr b]
  | .maxu _ a b _ => [gr a, gr b]
  | .slt _ a b _ => [gr a, gr b]
  | .sltu _ a b _ => [gr a, gr b]
  | .seq _ a b _ => [gr a, gr b]
  | .sne _ a b _ => [gr a, gr b]
  | .clz _ a _ => [gr a]
  | .ctz _ a _ => [gr a]
  | .popc _ a _ => [gr a]
  | .sext _ a _ => [gr a]
  | .zext _ a _ => [gr a]
  | .fshl d a b _ => [gr d, gr a, gr b]
  | .fshr d a b _ => [gr d, gr a, gr b]
  | .addi _ a _ => [gr a]
  | .andi _ a _ => [gr a]
  | .ori _ a _ => [gr a]
  | .xori _ a _ => [gr a]
  | .shli _ a _ => [gr a]
  | .shri _ a _ => [gr a]
  | .shrai _ a _ => [gr a]
  | .slti _ a _ => [gr a]
  | .sltui _ a _ => [gr a]
  | .muli _ a _ => [gr a]
  | .lih1 d _ => [gr d]
  | .lih2 d _ => [gr d]
  | .lih3 d _ => [gr d]
  | .lds _ a _ _ => [gr a]
  | .sts g a _ _ => [gr g, gr a]
  | .ldm _ a _ _ => [gr a]
  | .stx g a _ _ _ => [gr g, gr a]
  | .ldx _ a _ _ => [gr a]
  | .jr a => [gr a]
  | .callr a => [gr a]
  | .beqz a _ => [gr a]
  | .bnez a _ => [gr a]
  | .bltz a _ => [gr a]
  | .bgez a _ => [gr a]
  | .bpu p _ => [pr p]
  | .waitt a => [gr a]
  | .mtc g _ => [gr g]
  | .pcnt a _ => [pr a]
  | .pmov _ a => [pr a]
  | .psetg _ g => [gr g]
  | .pand _ a b => [pr a, pr b]
  | .por _ a b => [pr a, pr b]
  | .pxor _ a b => [pr a, pr b]
  | .pnot _ a => [pr a]
  | .vadd _ _ a b p => [vr a, vr b, pr p]
  | .vsub _ _ a b p => [vr a, vr b, pr p]
  | .vadds _ _ a b p => [vr a, vr b, pr p]
  | .vsubs _ _ a b p => [vr a, vr b, pr p]
  | .vmul _ _ a b p => [vr a, vr b, pr p]
  | .vmulh _ _ a b p => [vr a, vr b, pr p]
  | .vmin _ _ a b p => [vr a, vr b, pr p]
  | .vmax _ _ a b p => [vr a, vr b, pr p]
  | .vminu _ _ a b p => [vr a, vr b, pr p]
  | .vmaxu _ _ a b p => [vr a, vr b, pr p]
  | .vabsd _ _ a b p => [vr a, vr b, pr p]
  | .vand _ _ a b p => [vr a, vr b, pr p]
  | .vor _ _ a b p => [vr a, vr b, pr p]
  | .vxor _ _ a b p => [vr a, vr b, pr p]
  | .vandn _ _ a b p => [vr a, vr b, pr p]
  | .vshl _ _ a b p => [vr a, vr b, pr p]
  | .vshr _ _ a b p => [vr a, vr b, pr p]
  | .vshra _ _ a b p => [vr a, vr b, pr p]
  | .vshli _ _ a _ p => [vr a, pr p]
  | .vshri _ _ a _ p => [vr a, pr p]
  | .vfshl _ d a b p => [vr d, vr a, vr b, pr p]
  | .vfshr _ d a b p => [vr d, vr a, vr b, pr p]
  | .vcmpeq _ _ a b p => [vr a, vr b, pr p]
  | .vcmplt _ _ a b p => [vr a, vr b, pr p]
  | .vcmpltu _ _ a b p => [vr a, vr b, pr p]
  | .vsel _ _ a b p => [vr a, vr b, pr p]
  | .vsplat _ _ a _ p => [gr a, pr p]
  | .vperm _ _ a b p => [vr a, vr b, pr p]
  | .vsldn _ _ a _ p => [vr a, pr p]
  | .vslup _ _ a _ p => [vr a, pr p]
  | .vdelta _ _ a b p => [vr a, vr b, pr p]
  | .vpsum _ _ a b p => [vr a, vr b, pr p]
  | .vfadd _ _ a b p => [vr a, vr b, pr p]
  | .vfsub _ _ a b p => [vr a, vr b, pr p]
  | .vfmul _ _ a b p => [vr a, vr b, pr p]
  | .vfma _ d a b p => [vr d, vr a, vr b, pr p]
  | .vfmax _ _ a b p => [vr a, vr b, pr p]
  | .vfmin _ _ a b p => [vr a, vr b, pr p]
  | .vfcmplt _ _ a b p => [vr a, vr b, pr p]
  | .vfcmpeq _ _ a b p => [vr a, vr b, pr p]
  | .vfrcp _ _ a p => [vr a, pr p]
  | .vfexp2 _ _ a p => [vr a, pr p]
  | .vfcvtH _ a b p => [vr a, vr b, pr p]
  | .vfcvtW _ a p => [vr a, pr p]
  | .vcvtif _ _ a p => [vr a, pr p]
  | .vcvtfi _ _ a p => [vr a, pr p]
  | .vnarrow _ a q _ p => [vr a, vNext a, qr q, pr p]
  | .vbscale _ a b p => [vr a, vr b, pr p]
  | .vrmax _ _ a p => [vr a, pr p]
  | .vrsum _ _ a p => [vr a, pr p]
  | .vgmax _ _ a _ p => [vr a, pr p]
  | .vclz _ _ a p => [vr a, pr p]
  | .vfrsum _ _ a p => [vr a, pr p]
  | .vfrmax _ _ a p => [vr a, pr p]
  | .vhash d a _ p => [gr a, vr d, pr p]
  | .vld _ _ a _ p => [gr a, pr p]
  | .vst _ v a _ p => [vr v, gr a, pr p]
  | .vldu _ _ a _ p => [gr a, pr p]
  | .vstu _ v a _ p => [vr v, gr a, pr p]
  | .vldm _ _ a _ p => [gr a, pr p]
  | .vldx _ a _ => [gr a]
  | .vstx _ v a _ p => [vr v, gr a, pr p]
  | .vgath _ v a _ p => [vNext v, gr a, pr p]
  | .vscat _ v a _ p => [vr v, vNext v, gr a, pr p]
  | .tld _ a b => [gr a, gr b]
  | .tldm _ a b => [gr a, gr b]
  | .tst t a b => [tr t, gr a, gr b]
  | .ttr t => [tr t]
  | .mma44 a x y z r _ o _ => [tr x, tr y, acc a z, offset r o]
  | .mma46 a x y z r _ o _ => [tr x, tr y, acc a z, offset r o]
  | .mma48 a x y z r _ o _ => [tr x, tr y, acc a z, offset r o]
  | .mma64 a x y z r _ o _ => [tr x, tr y, acc a z, offset r o]
  | .mma66 a x y z r _ o _ => [tr x, tr y, acc a z, offset r o]
  | .mma68 a x y z r _ o _ => [tr x, tr y, acc a z, offset r o]
  | .mma84 a x y z r _ o _ => [tr x, tr y, acc a z, offset r o]
  | .mma86 a x y z r _ o _ => [tr x, tr y, acc a z, offset r o]
  | .mma88 a x y z r _ o _ => [tr x, tr y, acc a z, offset r o]
  | .mmas44 a x y m z r _ o _ => [tr x, tr y, tr m, acc a z, offset r o]
  | .mmas48 a x y m z r _ o _ => [tr x, tr y, tr m, acc a z, offset r o]
  | .mmas84 a x y m z r _ o _ => [tr x, tr y, tr m, acc a z, offset r o]
  | .mmas88 a x y m z r _ o _ => [tr x, tr y, tr m, acc a z, offset r o]
  | .accscl a o x y _ => [acc a 0, out o, tr x, tr y]
  | .ord _ s r => [outRow s r]
  | .owr v _ _ => [vr v, vr (v + 1), vr (v + 2), vr (v + 3)]
  | .accrd _ s r => [accRow s r]
  | .cpy a b c _ => [gr a, gr b, gr c]
  | .cpym a b c _ => [gr a, gr b, gr c]
  | .cpyg a b c _ _ => [gr a, gr b, gr c]
  | .cpyw a b c _ _ => [gr a, gr b, gr c]
  | .cpymc a b c _ => [gr a, gr b, gr c]
  | .cpyx a b c _ _ => [gr a, gr b, gr c]
  | .gath a b c _ _ => [gr a, gr b, gr c]
  | .scat a b c _ _ => [gr a, gr b, gr c]
  | .redc a b c _ _ => [gr a, gr b, gr c]
  | .cseed _ a => [gr a]
  | .aadd _ a b _ => [gr a, gr b]
  | .amin _ a b _ => [gr a, gr b]
  | .amax _ a b _ => [gr a, gr b]
  | .aor _ a b _ => [gr a, gr b]
  | .aand _ a b _ => [gr a, gr b]
  | .axchg _ a b _ => [gr a, gr b]
  | .acas d a b _ => [gr d, gr a, gr b]
  | .rqld _ a _ => [gr a]
  | .rqcommit d a b => [gr d, gr a, gr b]
  | .condw a b => [gr a, gr b]
  | .maprd _ a => [gr a]
  | .mapack a => [gr a]
  | .wjopen a => [gr a]
  | .wjput d a b => [gr d, gr a, gr b]
  | .wjstat _ a => [gr a]
  | .diagst a b => [gr a, gr b]
  | .diagld _ a b => [gr a, gr b]
  | .rqflt a b => [gr a, gr b]
  | _ => []

/-- The word reads a part whose parity is wrong. -/
def Seq.readsWrong (y : Seq) (i : Instr) : Bool :=
  !y.parityErrors.isEmpty && (Instr.reads y i).any fun r => y.parityErrors.any fun e => e.1 == r.1 && r.2.1 ≤ e.2 && e.2 < r.2.1 + r.2.2

/-- The last result of a list reports the error as it lands. -/
def markParity : List Flight → List Flight
  | [] => []
  | [f] => [{ f with parity := true }]
  | f :: fs => f :: markParity fs

/-- What a word that read a wrong part leaves (R343, R347): its result reports 0x0507 as it lands. A word without a result raises it at issue, as `none`
says (log 50, DESIGN CHOICE). -/
def State.reportParity (before after : State) : Option State :=
  let n (s : State) : Nat := s.me.flights.length + s.me.hflights.length
  if n before < n after then
    some (after.modMe fun y =>
      if y.inHandler then { y with hflights := markParity y.hflights } else { y with flights := markParity y.flights })
  else none

end Sys2Proof.Machine
end

