-- ==== Sys2Proof/Machine/Issue.lean ====
section
/-! DEFINITION. A bundle's words one after another (R49, R164, R210), and events with their arguments. -/
namespace Sys2Proof.Machine

/-- The cursor on word `k` of its bundle. -/
def State.atWord (s : State) (k : Nat) (unit : Nat) : State :=
  { s with cur := { s.cur with unit := unit, word := s.cur.bundle + 4 * k } }

/-- A word that has read a register with a parity error has its report put to its result, or faults (R347). -/
def State.afterWord (before after : State) (i : Instr) : State :=
  if after.cur.raised.isNone && before.me.readsWrong i then
    match State.reportParity before after with
    | some s => s
    | none => before.trapIssue (before.fault 0x0507)
  else after

/-- The words issue in slot order. Operands are read at issue, and no word's result lands before the next step (R49), so each
word sees what the step began with. When a word faults, nothing of the bundle performs (R210): the trap is taken on the state
`pre` before the first word. -/
def State.issueWords (pre s : State) (k : Nat) : List (Nat × Instr) → Host.Outcome State Fault Refusal
  | [] => .next s
  | w :: ws =>
    match exec w.2 (s.atWord k w.1) with
    | .next s1 =>
      let s' := (s.atWord k w.1).afterWord s1 w.2
      match s'.cur.raised with
      | none => State.issueWords pre s' (k + 1) ws
      | some f => .next (if k = 0 then s' else (pre.atWord k w.1).trapIssue f)
    | .fault f => .fault f
    | .refused r => .refused r

/-- An event with its arguments and bytes. -/
def State.event (s : State) (op : Instr) (args : List Nat) (bytes : List Byte := []) : Host.Outcome State Fault Refusal :=
  exec op { s with cur := { args := args, bytes := bytes } }

/-- BUNDLE_ISSUE and the words it has decoded: one step of the sequencer. -/
def State.issue (s : State) (t q : Nat) : Host.Outcome State Fault Refusal :=
  match s.event .bundleIssue [t, q] with
  | .next s' => State.issueWords s' s' 0 s'.cur.words
  | .fault f => .fault f
  | .refused r => .refused r

/-- The same for a look-ahead: the state after it. -/
def State.issued (s : State) (t q : Nat) : State :=
  match s.issue t q with
  | .next s' => s'
  | _ => s

end Sys2Proof.Machine
end

