-- ==== Sys2Proof/Machine/Settle.lean ====
section
/-! DEFINITION. What a tile's tick is: a step of its task clocks, a freeze tick (R54, R99, R264, R279, R376), or the first tick of a
trap pause (R343, R345). -/
namespace Sys2Proof.Machine

/-- A task runs or has still work to land, or a command of it is not yet acknowledged (R27, R261). -/
def Seq.live (y : Seq) : Bool := y.run != .idle || !(y.c0.cmds.isEmpty && y.c1.cmds.isEmpty)
/-- The tile's sequencers step: it is not halted by a pre-emption (R60). -/
def Tile.live (x : Tile) : Bool := (x.a.live || x.b.live) && x.halt.isNone

/-- The sequencer issues a bundle in a step. -/
def Seq.ready (y : Seq) : Bool :=
  y.run == .running && y.handler.isNone && y.hold.isNone && y.waitUntil ≤ y.clock && y.waitGo.isEmpty && !y.taken

/-! Engines of a step. -/

/-- All engines of a tile do the step's work. -/
def State.runQueues (s : State) (t : Nat) : State :=
  tileQueues.foldl (fun s k => (s.runQueue t k.1 k.2 (s.queueBound t k.1 k.2)).1) s

/-! Waits. -/

/-- A slot whose arrival step is reached without its data. -/
def Seq.slotWait (y : Seq) : Option Nat :=
  if y.run ≠ .running then none
  else (y.l.find? fun e => e.2.st == .pending && !e.2.given && !e.2.handler && y.slotReached e.2).map (·.1)

/-- A slot with data whose arrival step is reached. -/
def Seq.slotHeld (y : Seq) : Option Nat :=
  (y.l.find? fun e => e.2.st == .held && y.slotReached e.2).map (·.1)

/-- A diagnostic read's data is late (R376). -/
def Seq.diagLate (y : Seq) (tick : Nat) (frozen : Bool) : Bool :=
  y.run != .idle && !y.inHandler &&
    y.diagWaits.any fun w => !w.2.2 && w.1 ≤ y.clock && (if frozen then tick ≤ w.2.1 else tick < w.2.1)

/-- A beat's data is late (R264). -/
def Seq.beatLate (y : Seq) (tick : Nat) (frozen : Bool) : Bool :=
  (y.c0.cmds ++ y.c1.cmds).any fun k => k.late y.clock tick frozen

/-- A wait of the sequencer that local engine work of this step does not end. -/
def Seq.waits (y : Seq) : Bool := y.slotWait.isSome || (y.run == .running && !y.waitGo.isEmpty)

/-- The sequencer whose wait freezes the tile in this tick. In a freeze that has begun the engines stand, and what comes in
this tick ends the freeze with the next one (R54). -/
def State.frozenWait (s : State) (t : Nat) : Option Nat :=
  let x := s.tile t
  let before := x.frozenFor > 0
  let late (y : Seq) : Bool := y.diagLate s.gtick before || y.beatLate s.gtick before
  if late x.a then some 0 else if late x.b then some 1
  else if !x.a.waits && !x.b.waits then none
  else
    let x' := if before then x else (s.runQueues t).tile t
    if x'.a.waits then some 0 else if x'.b.waits then some 1 else none

/-! The look-ahead of R343 to R345: all that falls due in a step. -/

/-- A fault that a region takes. -/
def Seq.traps (y : Seq) (f : FaultInfo) : Bool :=
  !partitionCode f.code && f.code != 0x0801 && f.code != 0x0C03 && !y.regions.isEmpty

/-- All due results of a sequencer land, none of their faults being taken. -/
def State.landAll (s : State) (t q : Nat) : List Flight → State × List (Flight × List FaultInfo)
  | [] => (s, [])
  | f :: fs =>
    let (s1, e) := (s.modSeq t q (·.removeFlight f)).land t q f
    let (s2, r) := s1.landAll t q fs
    (s2, (f, e) :: r)

/-- The issue fault of a sequencer in this step, with the state after its issue. -/
def State.issueFault (s : State) (t q : Nat) : State × Option FaultInfo :=
  if (s.seq t q).ready then
    let s' := s.issued t q
    match s'.cur.raised with
    | some f => (s, some f)
    | none => (s', none)
  else (s, none)

/-- What a step brings. -/
structure StepLook where
  /-- the state with every landing and beat done -/
  after : State
  /-- and A's issue too -/
  issuedA : State
  landings : List (Nat × Flight × List FaultInfo)
  /-- sequencer, slot, faults of each happening -/
  engines : List (Nat × Nat × List (List FaultInfo))
  issues : List (Nat × FaultInfo)

def State.look (s : State) (t : Nat) : StepLook :=
  let (s1, la) := s.landAll t 0 (s.seq t 0).dueFlights
  let (s2, lb) := s1.landAll t 1 (s1.seq t 1).dueFlights
  let (s3, es) := tileQueues.foldl (fun (acc : State × List (Nat × Nat × List (List FaultInfo))) k =>
    let (s', fs) := acc.1.runQueue t k.1 k.2 (acc.1.queueBound t k.1 k.2)
    (s', acc.2 ++ [(k.1, k.2, fs)])) (s2, [])
  let (s4, fa) := s3.issueFault t 0
  let (_, fb) := s4.issueFault t 1
  { after := s3, issuedA := s4, landings := (la.map fun e => (0, e.1, e.2)) ++ (lb.map fun e => (1, e.1, e.2)), engines := es,
    issues := (fa.toList.map fun f => (0, f)) ++ (fb.toList.map fun f => (1, f)) }

/-- Faults of ranks 1 and 2 of a sequencer, in their order (R345). -/
def StepLook.early (k : StepLook) (q : Nat) : List FaultInfo :=
  ((k.landings.filter (·.1 == q)).flatMap (·.2.2)) ++ ((k.engines.filter (·.1 == q)).flatMap fun e => e.2.2.flatten)

/-- The faults of a sequencer in the step: an issue fault only where nothing of ranks 1 and 2 is due (R345). -/
def StepLook.faults (k : StepLook) (q : Nat) : List FaultInfo :=
  if (k.early q).isEmpty then (k.issues.filter (·.1 == q)).map (·.2) else k.early q

/-- The FPFLAGS bits that a due result raises; a write of a control register raises none. -/
def State.raisedFlags (s : State) (t q : Nat) (f : Flight) : BitVec 5 :=
  match f.act with
  | .ctl _ _ => 0
  | _ => (((s.modSeq t q fun y => { y.removeFlight f with fpflags := 0 }).land t q f).1.seq t q).fpflags

/-- A result that faults stands at once, and an MTC of FPFLAGS of its step waits with the rest: the flags that the result raises are ORed in after that
write too (R152, R344). -/
def State.landFaulting (s : State) (t q : Nat) (f : Flight) : State :=
  let fl := s.raisedFlags t q f
  let again : List Flight := if fl != 0 && (s.seq t q).dueFlights.any (·.first)
    then [{ step := f.step, issue := f.issue, unit := f.unit, bundle := f.bundle, act := .g 0 0, flags := fl }] else []
  ((s.modSeq t q (·.removeFlight f)).land t q f).1.modSeq t q fun y => again.foldl Seq.addFlight y

/-- The state of the tick of a trap (R343): the results and happenings that fault stand, the others wait. -/
def State.faultingOnly (s : State) (t : Nat) (k : StepLook) : State :=
  let s := k.landings.foldl (fun s e => if e.2.2.isEmpty then s else s.landFaulting t e.1 e.2.1) s
  k.engines.foldl (fun s e =>
    let n := e.2.2.length - (e.2.2.reverse.takeWhile (·.isEmpty)).length
    (s.runQueue t e.1 e.2.1 n).1) s

/-- The faults of a step are taken, A's first (R345). -/
def State.takeStep (s : State) (t : Nat) (k : StepLook) : State := (s.takeDue t 0 (k.faults 0)).takeDue t 1 (k.faults 1)

/-- What the end of the tick brings a sequencer: its signal, or the write-back of a sector for the boundary it holds at. -/
def State.tickEnd (s : State) (t q : Nat) : State := if (s.seq t q).signalDue s.gtick then s.signal t q else s.holdWriteBack t q

/-- A fault at partition level falls in this tick of the tile: among what the step brings, or at the end of the tick. -/
def State.partitionToo (s : State) (t : Nat) (k : StepLook) : Bool :=
  let is (s' : State) : Bool := (s'.tile t).partTick == some s.gtick
  (k.faults 0 ++ k.faults 1).any (fun f => partitionCode f.code) || is k.after || is (((s.faultingOnly t k).tickEnd t 0).tickEnd t 1)

/-- The tick of a step with a fault for a region: a trap, unless a fault at partition level falls in the same tick. That takes the others with it: the
sequencers that they fall to stop, and no handler runs (R340). Issue faults come with the issue. -/
def State.settleTrap (s : State) (t : Nat) (k : StepLook) : State :=
  let traps (q : Nat) (fs : List FaultInfo) : Bool := fs.any (k.after.seq t q).traps
  if !(traps 0 (k.faults 0) || traps 1 (k.faults 1)) then s
  else if s.partitionToo t k then
    let s' := k.after.modTile t fun z => { z with partTick := some s.gtick }
    let s' := [0, 1].foldl (fun (s : State) q => if (s.seq t q).signalDue s.gtick || traps q (k.early q) then s.tickEnd t q else s) s'
    (s'.takeDue t 0 (k.early 0)).takeDue t 1 (k.early 1)
  else ((s.faultingOnly t k).takeStep t k).modTile t fun z => { z with atomicNow := [] }

/-! Banks that an atomic of this step will reserve (R102). -/

/-- The bundle that a running sequencer has next holds a word of a kind. -/
def Tile.nextHolds (x : Tile) (y : Seq) (p : Instr → Bool) : Bool :=
  y.run == .running &&
    match decodeBundle ((y.pc - 0x8000000) / 4) (x.bundleWords y.pc).1 with
    | .ok ps => ps.any fun w => p w.instr
    | .error _ => false

def isAtomic (i : Instr) : Bool :=
  match i with
  | .aadd _ _ _ _ => true
  | .amin _ _ _ _ => true
  | .amax _ _ _ _ => true
  | .aor _ _ _ _ => true
  | .aand _ _ _ _ => true
  | .axchg _ _ _ _ => true
  | .acas _ _ _ _ => true
  | _ => false
def isTileLoad (i : Instr) : Bool :=
  match i with
  | .tld _ _ _ => true
  | _ => false

/-- The banks that the issue of a sequencer reserves from this step on. -/
def State.freshBanks (s : State) (t q : Nat) : List Nat :=
  let before := (s.tile t).reservations.length
  let s' := s.issued t q
  if s'.cur.raised.isSome then [] else ((s'.tile t).reservations.drop before).map (·.bank)

/-- The banks that the atomics of a step reserve: the step is looked ahead, landings and beats first, without them; a sequencer that faults before its
issue issues none, and nothing issues in the tick of a trap (R102; log 54, DEDUCED). -/
def State.atomicsOf (s : State) (t : Nat) : List Nat :=
  let x := s.tile t
  let holds (q : Nat) : Bool := x.nextHolds (x.seq q) isAtomic
  if !(holds 0 || holds 1) then []
  else
    let k := (s.setTile t { x with atomicNow := [] }).look t
    let traps (q : Nat) : Bool := (k.faults q).any (k.after.seq t q).traps
    let banks (q : Nat) (s' : State) : List Nat := if holds q && (k.early q).isEmpty && (s'.seq t q).ready then s'.freshBanks t q else []
    if traps 0 || traps 1 then []
    else (banks 0 k.after ++ banks 1 (if (k.early 0).isEmpty then k.issuedA else k.after)).dedup

/-- The same for a handler's step (R344). -/
def State.handlerAtomics (s : State) (t : Nat) : List Nat :=
  match s.handlerSteps t with
  | none => []
  | some q =>
    let y := s.seq t q
    if s.handlerReady t q && (s.tile t).nextHolds { y with run := .running } isAtomic then
      let (s', la) := s.landAll t q y.dueFlights
      if la.all fun e => e.2.isEmpty then s'.freshBanks t q else []
    else []

/-- Rows of tile accesses or copy commands may meet an atomic of this step. -/
def Seq.rowsDue (y : Seq) : Bool := (y.dueFlights.any Flight.isRow) || !y.c0.cmds.isEmpty || !y.c1.cmds.isEmpty

/-- Before a step's rows and beats are served, the banks are found that its atomics reserve. Row 0 of a TLD of A may meet an atomic of B. -/
def State.foreseeAtomics (s : State) (t : Nat) : State :=
  let x := s.tile t
  if x.a.rowsDue || x.b.rowsDue || (x.b.run == .running && x.nextHolds x.a isTileLoad) then
    let banks := s.atomicsOf t
    s.modTile t fun z => { z with atomicNow := banks }
  else s
def State.foreseeHandler (s : State) (t : Nat) : State :=
  match s.handlerSteps t with
  | none => s
  | some q =>
    if (s.seq t q).dueFlights.any Flight.isRow then
      let banks := s.handlerAtomics t
      s.modTile t fun z => { z with atomicNow := banks }
    else s

/-- The atomics of a tile whose tick is still to be decided. -/
def State.atomicsAhead (s : State) (m : Nat) : List Nat :=
  let x := s.tile m
  if x.trap.isSome then s.handlerAtomics m
  else if x.frozen || x.owed > 0 || (s.frozenWait m).isSome then []
  else s.atomicsOf m

/-- Beats of the tile that perform in tiles which come after it in the tick meet the atomics that those issue in it (R102, R261, R270). -/
def State.foreseeOthers (s : State) (t : Nat) : State :=
  let x := s.tile t
  let reach := (x.a.c0.cmds ++ x.a.c1.cmds ++ x.b.c0.cmds ++ x.b.c1.cmds).any Command.toMember
  let meets (e : Nat × Tile) : Bool :=
    t < e.1 && e.2.live && !e.2.settled && ((reach && clusterOf e.1 == clusterOf t) || e.2.inbound.any fun b => b.issuer / 2 == t)
  (s.tiles.filter meets).foldl (fun (s : State) e =>
    let banks := s.atomicsAhead e.1
    s.modTile e.1 fun z => { z with atomicNow := banks }) s

/-- No region can take a fault of this step. -/
def Seq.noRegion (y : Seq) : Bool := y.regions.isEmpty && !y.dueFlights.any Flight.region

/-- A wait freezes the tile (R54), and nothing issues. -/
def State.freezeFor (s : State) (t q : Nat) : State :=
  s.modTile t fun z => { z with frozen := true, waiting := true, frozenBy := q, atomicNow := [] }

/-- The tile's tick is decided. -/
def State.settle (s : State) (t : Nat) : State :=
  let s := s.foreseeOthers t
  let x := s.tile t
  let s :=
    if x.trap.isSome then (s.modTile t fun z => { z with frozen := true }).foreseeHandler t
    else if x.frozen then s
    else match s.frozenWait t with
    | some q => s.freezeFor t q
    | none =>
      let s' := s.foreseeAtomics t
      -- an atomic of the step may keep waiting what waits for a beat
      match s'.frozenWait t with
      | some q => s.freezeFor t q
      | none => if x.a.noRegion && x.b.noRegion then s' else s'.settleTrap t (s'.look t)
  s.modTile t fun z => { z with settled := true }

end Sys2Proof.Machine
end

