-- ==== Sys2Proof/Machine/Tick.lean ====
section
/-! DEFINITION. The end of a tick (R30, R49, R54, R127, R180, R344): writes perform, clocks step, handlers are left, the write-back of
holding parties goes on. -/
namespace Sys2Proof.Machine

/-! Clocks. -/

/-- A sequencer at the end of a tick that was a step of its tile (`run`), or a freeze tick. -/
def Seq.endTick (y : Seq) (run : Bool) (handler : Bool) (tick : Nat) (flags : BitVec 16) : Seq :=
  let y := if run then { y.sample flags with faultNow := 0 } else if handler then y.sample flags else y
  if y.run = .idle then y
  else
    let y := if run then { y with clock := y.clock + 1, timedOut := false,
                                  diagWaits := y.diagWaits.filter fun w => w.2.2 || y.clock < w.1 || tick < w.2.1 }
      else if y.run = .running then { y with slip := y.slip + 1 } else y
    let y := if handler then
        { y with handler := y.handler.map fun (h : Handler) => { h with clock := h.clock + 1 },
                 diagWaits := y.diagWaits.filter fun w => !w.2.2 || (y.handler.map fun (h : Handler) => decide (h.clock < w.1)).getD false || tick < w.2.1 }
      else y
    { y with taken := false }

/-- FRET has read its target and every handler result has landed. -/
def Seq.leaving (y : Seq) : Option Nat :=
  match y.handler with
  | some h =>
    if y.hflights.isEmpty && !(y.l.any fun e => e.2.st == .pending && e.2.handler && !e.2.given) && !(y.diagWaits.any (·.2.2))
    then h.ret else none
  | none => none

def State.leave (s : State) (t q : Nat) : State :=
  match (s.seq t q).leaving with
  | some target => s.leaveHandler t q target
  | none => s

/-- Reservations one step on (R102): a task's count its steps, a handler's its own. -/
def stepReservations (run handler : Bool) (rs : List Reservation) : List Reservation :=
  (rs.map fun r => if (if r.handler then handler else run) then { r with left := r.left - 1 } else r).filter (0 < ·.left)

/-- A tile at the end of a tick. -/
def State.endTile (s : State) (t : Nat) : State :=
  let x := s.tile t
  let run := x.live && !x.frozen
  let h := if x.live then s.handlerSteps t else none
  let s := (s.noteConflicts t).modTile t fun z => z.memoryTick s.gtick (run || h.isSome || !x.live)
  let fa := s.flagsNow t 0 (h == some 0)
  let fb := s.flagsNow t 1 (h == some 1)
  if x.halt.isSome then s.modTile t fun z => { z with written := false, settled := false }
  else if !x.live then
    s.modTile t fun z => { z with written := false, settled := false, a := { z.a.sample fa with faultNow := 0 }, b := { z.b.sample fb with faultNow := 0 },
                                  reservations := stepReservations true true z.reservations }
  else
    let s := (s.holdWriteBack t 0).holdWriteBack t 1
    let s := s.modTile t fun z =>
      { z with a := z.a.endTick run (h == some 0) s.gtick fa, b := z.b.endTick run (h == some 1) s.gtick fb,
               reservations := stepReservations run h.isSome z.reservations,
               trap := z.trap.map fun (p : Trap) => { p with ticks := p.ticks + 1 },
               frozenFor := if z.waiting then z.frozenFor + 1 else 0 }
    let s := (s.leave t 0).leave t 1
    s.modTile t fun z => { z with frozen := false, waiting := false, settled := false, written := false }

/-- The tiles that are not at rest. -/
def State.tileNumbers (s : State) : List Nat := s.tiles.map (·.1)

/-- The tiles that each class holds. -/
def State.classTiles (s : State) : Map Nat :=
  s.binds.foldl (fun m e => if e.2.active then mset 0 m e.2.class_ (mget 0 m e.2.class_ + e.2.tiles.length) else m) []

/-- The list of changes without those that the window has left behind, but for the last of them. -/
def recentShares (lo : Nat) : List (Nat × Map Nat) → List (Nat × Map Nat)
  | e :: f :: es => if f.1 ≤ lo then recentShares lo (f :: es) else e :: f :: es
  | es => es

/-- The tiles that each class holds in this tick are noted where they have changed (R320). -/
def State.countShares (s : State) : State :=
  let now := s.classTiles
  let old := recentShares (s.gtick - shareWindow) s.shares
  { s with shares := if (old.getLast?.map (·.2)) = some now then old else old ++ [(s.gtick, now)] }

/-- The tick ends and the next begins. -/
def State.endTick (s : State) : State :=
  let s' := s.tileNumbers.foldl (fun (s : State) t => s.endTile t) s.countShares
  { s' with gtick := s.gtick + 1 }

end Sys2Proof.Machine
end

