-- ==== Sys2Proof/Machine/Schedule.lean ====
section
/-! DEFINITION. What happens next (log 1, DESIGN CHOICE): within a tick, happenings that come at its beginning, then tile by tile what its step brings, then
signals, then the end of the tick. -/
namespace Sys2Proof.Machine

/-- What a step of the machine does. -/
inductive Next where
  /-- an entry of the agenda, by its place -/
  | agenda (i : Nat) (e : Timed)
  /-- a happening that the state itself shows to be due -/
  | due (op : Instr) (args : List Nat)
  /-- sequencer `q` of tile `t` issues a bundle -/
  | issue (t q : Nat)
  /-- a tile's tick is decided -/
  | settle (t : Nat)
  /-- the tick ends -/
  | tick

/-! The agenda. -/

/-- The tile that an arrival goes to. -/
def State.entryTile (s : State) (e : Timed) : Nat := s.requester (e.args.headD 0) (e.args.getD 1 0) (e.args.getD 2 0) (e.args.getD 3 0)

/-- An arrival into a tile that a wait has frozen comes after the tick has been decided to be frozen (R54). -/
def State.heldBack (s : State) (e : Timed) : Bool :=
  match e.op with
  | .landingDataArrival => (s.tile (s.entryTile e)).frozenFor > 0
  | _ => false

/-- The tiles have begun the tick. -/
def State.begun (s : State) : Bool := s.tiles.any fun e => e.2.settled

/-- An entry whose time has come. -/
def State.entryDue (s : State) (e : Timed) : Bool :=
  e.tick ≤ s.gtick &&
    (if s.begun then s.heldBack e && (s.tile (s.entryTile e)).settled else !s.heldBack e || !(s.tile (s.entryTile e)).live)

def State.agendaNext (s : State) : Option Next :=
  (s.agenda.zipIdx.find? fun e => s.entryDue e.1).map fun e => .agenda e.2 e.1

/-! What contexts and tiles have due at the beginning of a tick. -/

/-- The timetable of the context goes on: until the halt tick of a pre-emption, a bind's end or a halt at context level (R59, R60), but not once its
partition is to end (R339). -/
def Ctx.goesOn (c : Ctx) : Bool := c.part == .running || (c.part == .halting && c.ending.any fun e => e.1 < 4)

/-- A segment to start, a task to start, or a segment to end (R28, R34, R35). -/
def Ctx.next (c : Ctx) (x tick : Nat) : Option Next :=
  if !c.goesOn then none
  else if c.seg.isNone && c.chosen.isSome && c.nextStart ≤ tick then some (.due .segmentStart [x])
  else
    match c.tasks.zipIdx.find? fun k => !k.1.started && k.1.start ≤ tick && !c.blocked with
    | some k => some (.due .taskStart [x, k.2])
    | none => if c.seg.isSome && c.segEnd ≤ tick then some (.due .segmentEnd [x]) else none

/-- A power transition that ends (R19). -/
def Tile.powerNext (x : Tile) (t tick : Nat) : Option Next :=
  match x.move with
  | .none => none
  | .entering _ u => if u ≤ tick then some (.due .tileEntryComplete [t]) else none
  | .waking u => if u ≤ tick then some (.due .tileWakeComplete [t]) else none

/-- A bind that takes its partition or ends, and a queue that a thread takes up (R316, R319). -/
def State.frontNext (s : State) : Option Next :=
  ((s.binds.find? fun e => s.bindOver e.2).map fun e => .due .bindEnd [e.1]).or <|
  (s.bindNext.map fun b => .due .bindTakePartition [b]).or <|
  if s.powerLost then none else s.mapNext.map fun q => .due .queueMap [q]

def State.earlyNext (s : State) : Option Next :=
  if s.begun then none
  else
    match s.tiles.findSome? fun e => e.2.powerNext e.1 s.gtick with
    | some n => some n
    | none =>
      if !s.holdsOver.isEmpty then some (.due .phaseRelease [])
      else (s.ctxs.findSome? fun e => e.2.next e.1 s.gtick).or s.frontNext

/-! A tile's step. -/

/-- The landing of a flight. -/
def Flight.landingOp (f : Flight) : Instr :=
  match f.act with
  | .mma _ _ _ _ _ => .mmaLanding
  | .accscl _ _ _ _ => .accsclLanding
  | _ => .resultLanding

def Seq.landingNext (y : Seq) (t q : Nat) : Option Next := y.dueFlights.head?.map fun f => .due f.landingOp [t, q]

/-- The operation of a queue's next happening. -/
def queueOp (kind : Nat) : Instr :=
  match kind with
  | 0 => .copyCommandStart
  | 1 => .copyBeat
  | 2 => .copyBeat
  | 4 => .copyBeat
  | _ => .copyCommandComplete

/-- What comes back from elsewhere while the tile stands still: an acknowledgment, a beat to fold, or the end of a command. -/
def State.ackNext (s : State) (t : Nat) : Option Next :=
  tileQueues.findSome? fun k =>
    (((s.queueOf t k.1 k.2).ackDue s.gtick).map fun _ => Next.due .cpyxAcknowledgment [t, k.1, k.2]).or
      (((s.foldNext t k.1 k.2).map fun _ => Next.due .copyBeat [t, k.1, k.2]).or
        ((s.overNext t k.1 k.2).map fun _ => .due .copyCommandComplete [t, k.1, k.2]))

def State.engineNext (s : State) (t : Nat) : Option Next :=
  tileQueues.findSome? fun k =>
    match s.queueNext t k.1 k.2 with
    | some e => some (.due (queueOp e.1) [t, k.1, k.2])
    | none => ((s.queueOf t k.1 k.2).ackDue s.gtick).map fun _ => .due .cpyxAcknowledgment [t, k.1, k.2]

/-- The tick of a tile that has not been decided yet. -/
def State.settleNext (s : State) (t : Nat) : Next :=
  let x := s.tile t
  if x.trap.any fun p => p.ticks ≥ 1200000 then .due .trapPauseTimeout [t]
  else if x.owed > 0 then .due .bankConflictServe [t]
  else if x.trap.isNone && x.frozenFor ≥ 1200000 then .due .freezeTimeout [t]
  else
    match x.a.slotHeld, x.b.slotHeld with
    | some l, _ => .due .landingDue [t, 0, l]
    | none, some l => .due .landingDue [t, 1, l]
    | none, none =>
      if x.trap.isSome || x.frozen then .settle t
      else
        match s.frozenWait t with
        | none => .settle t
        | some q => match (x.seq q).slotWait with
          | some l => .due .landingDue [t, q, l]
          | none => .settle t

/-- A tile in a trap pause: its handler's landings and bundles (R344). -/
def State.handlerNext (s : State) (t : Nat) : Option Next :=
  match s.handlerSteps t with
  | none => none
  | some q =>
    match (s.seq t q).landingNext t q with
    | some n => some n
    | none => if s.handlerReady t q then some (.issue t q) else none

/-- A tile that runs: landings, engines, issues. -/
def State.runNext (s : State) (t : Nat) : Option Next :=
  (((s.seq t 0).landingNext t 0).or ((s.seq t 1).landingNext t 1)).or <|
  (s.engineNext t).or <|
  if (s.seq t 0).ready then some (.issue t 0)
  else if (s.seq t 1).ready then some (.issue t 1) else none

def State.tileNext (s : State) (t : Nat) : Option Next :=
  let x := s.tile t
  if !x.live then none
  else if !x.settled then some (s.settleNext t)
  else if x.trap.isSome then s.handlerNext t
  else if x.frozen then s.ackNext t
  else s.runNext t

/-! The end of a tick. -/

def Tile.signalNext (x : Tile) (t tick : Nat) : Option Next :=
  if !x.live then none
  else if x.a.signalDue tick then some (.due .boundarySignal [t, 0])
  else if x.b.signalDue tick then some (.due .boundarySignal [t, 1]) else none

def Tile.deferredNext (x : Tile) (t tick : Nat) : Option Next :=
  if !x.written && x.inbound.any fun e => e.deferred && e.due ≤ tick then some (.due .deferredInboundWrite [t]) else none

def State.lateNext (s : State) : Option Next :=
  (s.tiles.findSome? fun e => e.2.signalNext e.1 s.gtick).or (s.tiles.findSome? fun e => e.2.deferredNext e.1 s.gtick)

/-- What happens next. -/
def State.next (s : State) : Next :=
  (s.agendaNext.or <| s.earlyNext.or <| (s.tiles.findSome? fun e => s.tileNext e.1).or s.lateNext).getD .tick

/-- The agenda without its entry `i`. -/
def State.dropEntry (s : State) (i : Nat) : State := { s with agenda := s.agenda.eraseIdx i }

/-- Before a tile's tick goes to a conflict, the atomics are foreseen that its beats on their way meet in it, as where its tick is settled (R102, R261, R270). -/
def State.foreseen (s : State) (op : Instr) (args : List Nat) : State :=
  match op with
  | .bankConflictServe => s.foreseeOthers (args.headD 0)
  | _ => s

/-- One happening. -/
def State.perform (s : State) (n : Next) : Host.Outcome State Fault Refusal :=
  match n with
  | .agenda i e => (s.dropEntry i).event e.op e.args e.bytes
  | .due op args => (s.foreseen op args).event op args
  | .issue t q => s.issue t q
  | .settle t => .next (s.settle t)
  | .tick => .next s.endTick

/-- Nothing can happen any more: no supply, and no input to come (R335). -/
def State.dead (s : State) : Bool := s.power == .unpowered && s.agenda.isEmpty

end Sys2Proof.Machine
end

