-- ==== Sys2Proof/Machine/Step.lean ====
section
/-! DEFINITION. The machine's step, and an instruction placed where the next step runs it. -/
namespace Sys2Proof.Machine

/-- One step: the next happening of the package. -/
def step (s : State) : Host.Outcome State Fault Refusal :=
  if s.dead then .fault .unpowered else s.perform s.next

/-- Log 2, DESIGN CHOICE: the package as if booted, tile 0 ACTIVE, sequencer A at the first word of the text in a tick decided to run, and the instruction's
bytes there in weight MRAM. -/
def State.withFetchWord (s : State) (nbits w : Nat) : State :=
  let x := s.tile 0
  let y := { x.a with run := .running, pc := 0x8000000, taken := false, skipLeft := 0, hold := none, handler := none, waitGo := [],
                      waitUntil := 0 }
  let x := { x with power := .active, move := .none, a := y, halt := none, trap := none, frozen := false, owed := 0, frozenFor := 0,
                    settled := true, mram := putBytes x.mram (1024 * x.physRow 0) (leBytes (max 4 ((nbits + 7) / 8)) w) }
  { s.setTile 0 x with agenda := s.agenda.filter fun e => s.gtick < e.tick }

end Sys2Proof.Machine
end

