-- ==== Sys2Proof/Safety.lean ====
section
/-! DEFINITION. The terms that the statements are made in. -/
namespace Sys2Proof.Machine

/-- The width in bits that size field `m` of a register-register form names (R187). -/
def spanOf (m : BitVec 2) : Nat := 64 / 2 ^ m.toNat

/-- The issuing sequencer goes on at a target (R198). -/
def State.jump (s : State) (target : Nat) : State := s.modMe fun y => { y with pc := target }

/-- The 64-byte words that an access of `n` bytes at a scratchpad offset touches carry no poison and no stored check bits, and
their banks are in service (R347). -/
def Tile.plain (x : Tile) (a n : Nat) : Prop := ∀ k ∈ wordsOf a n, x.mark k = {} ∧ x.retiredBanks.getLsbD (k % 16) = false

/-- Reads of 64-byte words through their banks' ports, at the rank of the word at the cursor (R98). -/
def State.usePorts (s : State) (ks : List Nat) : State :=
  ks.foldl (fun s k => s.modMyTile fun x =>
    { x with uses := x.uses ++ [{ port := k % 16, write := false, rank := s.accessRank, word := k }] }) s

/-- Element `i` of `n` bits of a vector register (R212). -/
def elem (n : Nat) (v : Vec) (i : Nat) : BitVec n := v.extractLsb' (n * i) n

/-- Bits of an element size (R168). -/
def elemBits (e : BitVec 2) : Nat := 8 * 2 ^ e.toNat

/-- Element `i` of `n` bits is active under a predicate: the bit of its lowest byte is set (R173, R213). -/
def activeElem (p : W64) (n i : Nat) : Bool := p.getLsbD (n / 8 * i)

/-- An outcome in which a vector result is put into flight, with a latency: for register `d` as VRB names it at issue, in the byte
lanes of the active elements of `n` bits, element `i` being `f i`; and nothing else changes (R49, R213). -/
def State.answersLanes (s : State) (r : Host.Outcome State Fault Refusal) (lat : Nat) (d : BitVec 6) (p : BitVec 3) (n : Nat)
    (f : Nat → BitVec n) : Prop :=
  ∃ mask val, r = .next (s.emit lat (.v (s.me.physV d.toNat) mask val)) ∧
    (∀ k < 64, mask.getLsbD k = activeElem (s.P p) n (8 * k / n)) ∧ ∀ i < 512 / n, elem n val i = f i

/-- Flag `j` of a set of flags is raised (R151). -/
def FFlags.has (fl : FFlags) (j : Nat) : Bool := fl.getLsbD j

/-- An outcome in which a predicate result is put into flight with latency 2: every bit of an active element's byte lanes is the
element's truth, every bit of an inactive one 0; p0 takes none (R213, R217). -/
def State.answersTruths (s : State) (r : Host.Outcome State Fault Refusal) (d p : BitVec 3) (n : Nat) (f : Nat → Bool) : Prop :=
  ∃ val : W64, r = .next (if d = 0 then s else s.emit 2 (.p (s.me.physP d.toNat) val)) ∧
    ∀ k < 64, val.getLsbD k = (activeElem (s.P p) n (8 * k / n) && f (8 * k / n))

/-- The same for a floating result: element `i` is `(f i).1`, and the flags are those of the active elements, ORed (R151, R213). -/
def State.answersFloats (s : State) (r : Host.Outcome State Fault Refusal) (lat : Nat) (d : BitVec 6) (p : BitVec 3) (n : Nat)
    (f : Nat → Nat × FFlags) : Prop :=
  ∃ mask val fl sh, r = .next (s.emitFlight { s.flight lat (.v (s.me.physV d.toNat) mask val) with flags := fl, shadow := sh }) ∧
    (∀ k < 64, mask.getLsbD k = activeElem (s.P p) n (8 * k / n)) ∧ (∀ i < 512 / n, elem n val i = BitVec.ofNat n (f i).1) ∧
    ∀ j, FFlags.has fl j = (List.range (512 / n)).any fun i => activeElem (s.P p) n i && FFlags.has (f i).2 j

/-- Element `e` of `w` bits of row `r` of a tile register, as a signed value (R141, R248). -/
def tileElem (t : Map Byte) (w r e : Nat) : Int := signExt (nbits (leNat (bytesAt t (128 * r) 128)) (w * e) w) w

/-- The column values of a dense or sparse B operand (R248, R249, R251). -/
def denseB (t : Map Byte) (w b n k : Nat) : Int := tileElem t w n (48 * b + k)
def sparseB (t tm : Map Byte) (w b n k : Nat) : Int :=
  let m := leNat (bytesAt tm (384 * b + 6 * n + 3 * (k / 24)) 3)
  if m.testBit (k % 24) then
    tileElem t w n (24 * b + 12 * (k / 24) + ((List.range (k % 24)).filter m.testBit).length)
  else 0

/-- An outcome under checks made in order: the first that fails raises its fault, with its address, at issue; if all hold, the
next state is `t` (R210). -/
def State.checked (s : State) (r : Host.Outcome State Fault Refusal) (t : State) : List (Prop × Nat × Nat) → Prop
  | [] => r = .next t
  | (c, code, a) :: cs => (¬ c → r = .next (s.trapIssue (s.fault code a))) ∧ (c → s.checked r t cs)

/-- The agenda holds an operation with some arguments, for a tick from `lo` to `hi`. -/
def State.planned (u : State) (op : Instr) (args : List Nat) (lo hi : Nat) : Prop :=
  ∃ e ∈ u.agenda, e.op = op ∧ e.args = args ∧ lo ≤ e.tick ∧ e.tick ≤ hi

/-- Between a state with packet `p` of queue `q` in hand and `u` the packet has been consumed: from the timer lane (2), or the
head has advanced (R309, R322). -/
def State.consumed (s : State) (q from_ : Nat) (u : State) : Prop :=
  (u.queue q).head = (if from_ = 2 then (s.queue q).head else ((s.queue q).head + 1) % 2 ^ 32) ∧
  (u.queue q).lane = (if from_ = 2 then none else (s.queue q).lane)

/-- Between `s` and `u` bytes have been posted to host memory at a bus address (R137): released behind what was released before, nothing else (log 44, DEDUCED). -/
def State.posts (s : State) (a : Nat) (bs : List Byte) (u : State) : Prop :=
  u.mem = s.mem ∧ u.sectors = s.sectors ∧ ∃ e, u.forward = s.forward ++ [e] ∧ e.party = 768 ∧ e.write.poison = none ∧
    e.write.bytes = (cellsFrom (busAddr a) bs).map fun b => (s.homeAddr b.1, b.2)

/-- The completion record of R314, posted to the host, and the count of completions. -/
def State.completedWith (s : State) (q tag op status : Nat) (silent : Bool) (u : State) : Prop :=
  let x := s.queue q
  if silent then u.mem = s.mem ∧ u.forward = s.forward ∧ (u.queue q).completed = x.completed
  else
    s.posts (x.ring + 16 * (x.completed % x.size)) (leBytes 4 tag ++ leBytes 2 status ++ leBytes 1 op ++ leBytes 1 0 ++ leBytes 8 s.gtick) u ∧
    (u.queue q).completed = (x.completed + 1) % 2 ^ 32

/-- The packet is consumed and completes at once. -/
def State.answered (s : State) (q from_ : Nat) (p : List Byte) (status : Nat) (u : State) : Prop :=
  s.consumed q from_ u ∧ s.completedWith q (packetTag p) (packetOp p) status (packetSilent p) u

/-- What a SUBMIT in hand does (R70, R308, R313): an unstable record leaves it at the head, one that is not FREE is answered 0x0905, a
valid FREE one is QUEUED with the class of the packet's queue (log 56, DEDUCED), an invalid one FAULTED with 0x0803. -/
def State.submits (s : State) (q from_ : Nat) (p : List Byte) (u : State) : Prop :=
  let x := (s.queue q).ctx
  let k := field p 0x10 4
  let a := (s.winnow x).recordAt k
  let seq := field (s.ctxBytes x a 128) 0 4
  let s1 := if nbit (field p 1 1) 1 then s.stampDeadline x k seq ((field p 8 8 + field p 0x18 8) % 2 ^ 64) else s
  let b := s1.ctxBytes x a 128
  let r0 := parseRequest b
  let r : Request := { r0 with position := 0, pages := 0, arrival := s.gtick, class_ := (s.queue q).class_ }
  let ok := r0.valid (field b 0x58 1) (s.ctx x).maxPos (s.ctx x).maxDraft
  (seq % 2 = 1 → (u.queue q).head = (s.queue q).head ∧ (u.queue q).retry = true ∧ u.ctxs = s.ctxs ∧ u.mem = s.mem) ∧
  (seq % 2 = 0 → field b 4 1 ≠ 0 → s.consumed q from_ u ∧ s1.completedWith q (packetTag p) (packetOp p) 0x0905 (packetSilent p) u ∧
    u.ctxs = s1.ctxs) ∧
  (seq % 2 = 0 → field b 4 1 = 0 → ok = true → s.consumed q from_ u ∧ (u.winnow x).req k = { r with state := 1 }) ∧
  (seq % 2 = 0 → field b 4 1 = 0 → ok = false → s.consumed q from_ u ∧ ((u.winnow x).req k).state = 6 ∧
    ((u.winnow x).req k).fault = 0x0803 ∧ ((u.winnow x).req k).endCode = 5 ∧ ∃ f, u.log.getLast? = some f ∧ f.info.code = 0x0803 ∧
    f.level = 0 ∧ f.info.rindex = k)

/-! Exact values of binary formats and block scales, and rounding, as IEEE 754 gives them (R142, R149, R150, R161). -/

/-- The fields of a binary value. -/
def Fmt.negative (f : Fmt) (x : Nat) : Bool := x.testBit (f.exp + f.frac)
def Fmt.expField (f : Fmt) (x : Nat) : Nat := x / 2 ^ f.frac % 2 ^ f.exp
def Fmt.fracField (f : Fmt) (x : Nat) : Nat := x % 2 ^ f.frac

/-- What kind of value it is: finite, infinite, NaN, signalling NaN. -/
def Fmt.finite (f : Fmt) (x : Nat) : Prop := f.expField x ≠ 2 ^ f.exp - 1
def Fmt.infinite (f : Fmt) (x : Nat) : Prop := f.expField x = 2 ^ f.exp - 1 ∧ f.fracField x = 0
def Fmt.notNumber (f : Fmt) (x : Nat) : Prop := f.expField x = 2 ^ f.exp - 1 ∧ f.fracField x ≠ 0
def Fmt.signals (f : Fmt) (x : Nat) : Prop := f.notNumber x ∧ f.fracField x < 2 ^ (f.frac - 1)

/-- The exact value of a finite one. -/
def Fmt.value (f : Fmt) (x : Nat) : ℚ :=
  (if f.negative x then -1 else 1) *
    (if f.expField x = 0 then (f.fracField x : ℚ) / 2 ^ f.frac * 2 ^ (1 - f.bias : ℤ)
     else (1 + (f.fracField x : ℚ) / 2 ^ f.frac) * 2 ^ ((f.expField x : ℤ) - f.bias))

/-- The integer that a magnitude rounds to in a mode of R150; `neg` is the sign that goes with it. -/
def roundMag (rm : Nat) (neg : Bool) (x : ℚ) : Nat :=
  let k := ⌊x⌋₊
  let d := x - k
  if d = 0 then k
  else if rm = 0 then (if d < 1 / 2 then k else if 1 / 2 < d then k + 1 else if k % 2 = 0 then k else k + 1)
  else if rm = 1 then k
  else if rm = 2 then (if neg then k else k + 1)
  else if neg then k + 1 else k

/-- An exact value rounded to a multiple of `2 ^ q`. -/
def roundAt (rm : Nat) (v : ℚ) (q : ℤ) : ℚ :=
  (if v < 0 then -1 else 1) * (roundMag rm (decide (v < 0)) (|v| / 2 ^ q) : ℚ) * 2 ^ q

/-- An exact value rounded to a format's precision, as if its exponents had no upper end. -/
def Fmt.rounded (f : Fmt) (rm : Nat) (v : ℚ) : ℚ := roundAt rm v (max (Int.log 2 |v| - f.frac) (1 - f.bias - f.frac))

/-- Bits and flags that IEEE 754 gives for an exact result (R149, R151): `zneg` is the sign of an exact zero. -/
def Fmt.delivers (f : Fmt) (rm : Nat) (v : ℚ) (zneg : Bool) (r : Nat × FFlags) : Prop :=
  let neg := decide (v < 0)
  let y := f.rounded rm v
  if v = 0 then r = (f.signBit zneg, 0)
  else if 2 ^ (f.bias + 1) ≤ |y| then
    r = ((if rm = 0 ∨ (rm = 2 ∧ neg = false) ∨ (rm = 3 ∧ neg = true) then f.infBits else f.infBits - 1) + f.signBit neg, fOF ||| fNX)
  else r.1 < 2 ^ f.width ∧ f.finite r.1 ∧ f.negative r.1 = neg ∧ f.value r.1 = y ∧
    r.2 = if y = v then 0 else if |roundAt rm v (Int.log 2 |v| - f.frac)| < 2 ^ (1 - f.bias : ℤ) then fNX ||| fUF else fNX

/-- The exact value of a block scale that is no poison (R142). -/
def scaleValue (b : Nat) : ℚ :=
  if b / 256 % 128 = 0 then 0 else (if b.testBit 15 then -1 else 1) * (1 + (b % 256 : Nat) / 256) * 2 ^ ((b / 256 % 128 : Nat) - 63 : ℤ)
def scalePoison (b : Nat) : Prop := b / 256 % 128 = 127

/-- What a sequencer stores is no deeper than its hardware: 16 return addresses (R198), 16 commands in each copy queue (R261), four regions (R346). -/
def Seq.withinDepths (y : Seq) : Prop :=
  y.ras.length ≤ 16 ∧ y.c0.cmds.length ≤ 16 ∧ y.c1.cmds.length ≤ 16 ∧ y.regions.length ≤ 4
/-- The same of every sequencer, running or saved. -/
def State.withinDepths (s : State) : Prop :=
  ∀ t, (s.tile t).a.withinDepths ∧ (s.tile t).b.withinDepths ∧ ∀ h, (s.tile t).shadow = some h → h.a.withinDepths ∧ h.b.withinDepths

/-- The agenda stands in the order of its ticks (log 10, DESIGN CHOICE). -/
def State.agendaInOrder (s : State) : Prop := s.agenda.Pairwise fun a b => a.tick ≤ b.tick

/-- Every byte memory is in its canonical form (log 3, DESIGN CHOICE). -/
def State.memOk (s : State) : Prop :=
  Memory.wf s.mem = true ∧ ∀ t, Memory.wf (s.tile t).spad = true ∧ Memory.wf (s.tile t).mram = true

end Sys2Proof.Machine
end

