-- ==== Sys2Proof/Certificates/Slice0/Obligations.lean ====
section
/-! DEFINITION. The statements about the model, each from the rules it names. -/
open Sys2Proof Sys2Proof.Machine

/-- Words of every class, written from the field layouts of the instruction-word chapter (most of them are printed in the
manual beside the assembly that they encode), decode to their instructions; a word of class 7 and one with a must-be-
zero bit set do not. (R162, R170, R171) -/
def Obligations.WordsDecodeAsTheManualEncodes : Prop :=
  decodeWord 0x002210C0 = .ok (.add 2 2 3 0) ∧
  decodeWord 0x84231840 = .ok (.addi 3 3 64) ∧
  decodeWord 0x05640008 = .ok (.li 4 8) ∧
  decodeWord 0x05E30800 = .ok (.lds 3 1 0 0) ∧
  decodeWord 0x1160FFFD = .ok (.loop 0 0 (-3)) ∧
  decodeWord 0xA0420A30 = .ok (.vadd 2 4 5 6 0) ∧
  decodeWord 0x2F408418 = .ok (.vdelta 2 1 2 3 0) ∧
  decodeWord 0x37428830 = .ok (.vbscale 5 4 6 0) ∧
  decodeWord 0x41802200 = .ok (.mma84 0 0 1 1 0 0 0 0) ∧
  decodeWord 0x428A5200 = .ok (.accscl 1 0 4 5 1) ∧
  decodeWord 0x510110C0 = .ok (.redc 1 2 3 0 0) ∧
  decodeWord 0x60024000 = .ok (.phase 0 1 1) ∧
  decodeWord 0x61872980 = .ok (.rqcommit 7 5 6) ∧
  decodeWord 0x624410C0 = .ok (.wjput 4 2 3) ∧
  decodeWord 0x62E40006 = .ok (.cropen 1 6) ∧
  decodeWord 0x70000000 = .error .unassigned ∧
  decodeWord 0x00000001 = .error .mustBeZero

/-- For every well-formed instruction, with every operand at every value its field admits: its word has 31 bits, decodes to
it, decodes to it with CH set as well, is what the opcode table's numbering gives, and as a bundle of one word at any
place in the text it is that one instruction on the unit of its class. (R162, R164, R171, R172) -/
def Obligations.EncodedInstructionsDecodeBack : Prop :=
  ∀ i : Instr, i.wf = true →
    encode i < 2 ^ 31 ∧ decodeWord (encode i) = .ok i ∧ decodeWord (encode i + 2 ^ 31) = .ok i ∧
    decodeTableWord 32 (encode i) = some i ∧
    ∀ k, ∃ u, decodeBundle k [encode i] = .ok [⟨u, i⟩] ∧
      u = match encode i / 2 ^ 28 with | 0 => 0 | 1 => 0 | 2 => 1 | 3 => 1 | 4 => 3 | 5 => 4 | _ => 0

/-- The words 0x0000_0000 and 0x8000_0000 are NOP, of class 0 and index 0; the second has CH = 1; executing NOP changes
nothing, so that only its issue takes its step. (R165) -/
def Obligations.NopOnlyOccupiesItsStep : Prop :=
  decodeWord 0x00000000 = .ok .nop ∧ decodeWord 0x80000000 = .ok .nop ∧
  chained 0x00000000 = false ∧ chained 0x80000000 = true ∧ encode .nop = 0 ∧ Instr.nop.wf = true ∧
  slotOf 0x80000000 = 0 ∧ ∀ s : State, exec .nop s = .next s

/-- Where the next happening is the issue of sequencer q of tile t, no bundle is being skipped, the text is not locked or
poisoned, and the extent at the program counter decodes to one instruction, the step is exec of that instruction, on the
state in which the fetch's corrections are counted, the program counter stands behind the bundle, the bundle is taken,
the unit's execution instance is in use, and the cursor names the word; only a word that read a register with a parity
error has its report added. With no parity error in a register the step is exec alone, and with no cell error in the
tile's memory the fetch counts nothing. (R49, R162, R163, R347) -/
def Obligations.StepRunsTheDecodedInstruction : Prop :=
  ∀ (s : State) (t q u : Nat) (i : Instr) (e : List Nat),
    s.dead = false → s.next = .issue t q → (s.seq t q).skipLeft = 0 →
    (s.tile t).bundleWords (s.seq t q).pc = (e, none) → textEnds e = false →
    let s0 : State := ({ s with cur := { args := [t, q] } } : State).noteText t (s.seq t q).pc e.length
    s0.textLocked t (s.seq t q).pc e.length = false →
    decodeBundle (((s.seq t q).pc - 0x8000000) / 4) e = .ok [⟨u, i⟩] →
    let p := ((s0.take t q ((s.seq t q).pc + 4 * e.length) [(u, i)]).useUnits t q [(u, i)]).atWord 0 u
    (step s = match exec i p with | .next r => .next (p.afterWord r i) | o => o) ∧
    (p.me.parityErrors = [] → step s = exec i p) ∧
    ((s.tile t).cellErrors = [] → s0 = { s with cur := { args := [t, q] } })

/-- Where the next happening is an issue and the bundle decodes to any number of words: each word runs, in slot order, on
the state that the words before it left (with the report of a parity error it read); if all of them complete, the step
ends in the last one's state. If word k is the first in slot order to raise a fault, the step is that fault (R345; among
the checks of one word the first counts, log 14, DEDUCED): for the first word its own state, for a later word the fault
taken on the state before the first word, so that no word of the bundle performs. The order of the happenings within a
tick is the model's choice (log 1). Where the next happening is an entry of the agenda (log 10, DESIGN CHOICE), the step
is exec of its operation with its arguments and bytes at the cursor and the entry taken from the agenda; where it is one
that the state shows to be due, exec of that operation with its arguments; where a tile's tick is to be decided, that
decision; else the end of the tick, which advances GTICK by one. BUNDLE_ISSUE of a sequencer that skips nothing, where
the extent at the program counter is readable, lies in the text and decodes, counts the fetch's corrections and takes
the bundle: the program counter stands behind the extent, the cursor holds the decoded words, and each word uses the
engine instance of its unit; nothing else changes. (R49, R50, R210, R345, R347, R56, R359, R356) -/
def Obligations.StepRunsAWholeBundleAndHappenings : Prop :=
  (∀ (s : State) (t q : Nat) (e : List Nat) (ps : List Placed) (ss rs : Nat → State) (k : Nat),
    s.dead = false → s.next = .issue t q → (s.seq t q).skipLeft = 0 →
    (s.tile t).bundleWords (s.seq t q).pc = (e, none) → textEnds e = false →
    let s0 : State := ({ s with cur := { args := [t, q] } } : State).noteText t (s.seq t q).pc e.length
    s0.textLocked t (s.seq t q).pc e.length = false →
    decodeBundle (((s.seq t q).pc - 0x8000000) / 4) e = .ok ps →
    let ws := ps.map fun p => (p.unit, p.instr)
    let pre := (s0.take t q ((s.seq t q).pc + 4 * e.length) ws).useUnits t q ws
    let here (j : Nat) (w : Nat × Instr) : State := (ss j).atWord j w.1
    ss 0 = pre →
    (∀ j w, j < k → ws[j]? = some w →
      exec w.2 (here j w) = .next (rs j) ∧ ss (j + 1) = (here j w).afterWord (rs j) w.2 ∧ (ss (j + 1)).cur.raised = none) →
    (k = ws.length → step s = .next (ss k)) ∧
    (∀ w r f, ws[k]? = some w → exec w.2 (here k w) = .next r → ((here k w).afterWord r w.2).cur.raised = some f →
      step s = .next (if k = 0 then (here k w).afterWord r w.2 else (pre.atWord k w.1).trapIssue f))) ∧
  ((∀ s : State, s.dead = false →
    (∀ k e, s.next = .agenda k e →
      step s = exec e.op { s with agenda := s.agenda.eraseIdx k, cur := { args := e.args, bytes := e.bytes } }) ∧
    (∀ op args, s.next = .due op args → step s = exec op { s with cur := { args := args } }) ∧
    (∀ t, s.next = .settle t → step s = .next (s.settle t)) ∧
    (s.next = .tick → step s = .next s.endTick ∧ s.endTick.gtick = s.gtick + 1)) ∧
  (∀ (s : State) (e : List Nat) (ps : List Placed),
    let t := s.arg 0
    let q := s.arg 1
    let a := (s.seq t q).pc
    let ws := ps.map fun p => (p.unit, p.instr)
    let n := s.noteText t a e.length
    (s.seq t q).skipLeft = 0 → (s.tile t).bundleWords a = (e, none) → textEnds e = false →
    n.textLocked t a e.length = false → decodeBundle ((a - 0x8000000) / 4) e = .ok ps →
    exec .bundleIssue s = .next (({ n with cur := n.bundleCursor t q (a + 4 * e.length) ws }.modSeq t q fun y =>
      { y with pc := a + 4 * e.length, taken := true }).useUnits t q ws)))

/-- While bundles are left to skip, an issue whose extent lies in the text leaves the machine as it was, except that the
program counter stands behind the extent, the bundle is taken, one bundle less is left to skip, and the cursor names the
bundle; nothing of it is decoded. An issue whose extent would run past the text raises 0x0203, while bundles are skipped
too. Of an issue that skips nothing: text of a region locked against the context raises 0x0C03 with its address,
undecoded (log 26 places the check); a poisoned text word raises 0x0502 undecoded, with its address and the syndrome
beside it; a malformed bundle raises 0x0202 with unit 0xFF; else one with a word that is no instruction 0x0201 with the
unit of the first such word. The record's bundle is the extent's first word, and no word of the bundle performs. (R48,
R203, R359, R361, R166, R334, R348, R360) -/
def Obligations.SkippedAndRefusedBundles : Prop :=
  (∀ (s : State) (t q : Nat) (e : List Nat) (p : Option Poison),
    s.dead = false → s.next = .issue t q → 0 < (s.seq t q).skipLeft →
    (s.tile t).bundleWords (s.seq t q).pc = (e, p) → textEnds e = false →
    let n : State := ({ s with cur := { args := [t, q] } } : State).noteText t (s.seq t q).pc e.length
    step s = .next (({ n with cur := n.bundleCursor t q ((s.seq t q).pc + 4 * e.length) [] }.modSeq t q fun y =>
      { y with pc := (s.seq t q).pc + 4 * e.length, taken := true }).modSeq t q fun y => { y with skipLeft := y.skipLeft - 1 })) ∧
  (∀ (s : State) (t q : Nat) (e : List Nat) (p : Option Poison),
    s.dead = false → s.next = .issue t q →
    (s.tile t).bundleWords (s.seq t q).pc = (e, p) →
    let a := (s.seq t q).pc
    let n : State := ({ s with cur := { args := [t, q] } } : State).noteText t a e.length
    let at0 : State := n.take t q (a + 4 * e.length) []
    let f : FaultInfo := { step := (s.seq t q).clock, bundle := a }
    (textEnds e = true → step s = .next (at0.trapIssue { f with code := 0x0203 })) ∧
    (textEnds e = false → (s.seq t q).skipLeft = 0 → n.textLocked t a e.length = true →
      step s = .next (at0.trapIssue { f with code := 0x0C03, addr := a })) ∧
    (textEnds e = false → (s.seq t q).skipLeft = 0 → n.textLocked t a e.length = false →
      (∀ k, p = some k →
        step s = .next (at0.trapIssue { f with code := 0x0502, addr := k.addr, injected := k.injected, aux0 := k.syndrome })) ∧
      (p = none → decodeBundle ((a - 0x8000000) / 4) e = .error .malformed → step s = .next (at0.trapIssue { f with code := 0x0202 })) ∧
      (∀ u, p = none → decodeBundle ((a - 0x8000000) / 4) e = .error (.notInstruction u) →
        step s = .next (at0.trapIssue { f with code := 0x0201, unit := u }))))

/-- For every operand width, ADD, SUB, AND, OR, XOR and ANDN put into flight, with latency 1, the sum, difference or logical
result of the low w bits of ga and gb, sign-extended from bit w - 1; nothing else of the machine changes. For every
operand width w and s = B mod w: the shifts, the rotation, and the funnels, which give the high or the low w bits of the
2w-bit value with A above D shifted by s, D being the destination's low bits; sign-extended, with latency 1; nothing
else of the machine changes. For every operand width: the smaller or larger operand, signed or unsigned, sign-extended;
and 1 or 0 by the comparison of the operands; with latency 1; nothing else of the machine changes. For every operand
width w: CLZ gives the number c of zero bits above the highest 1 (bit w - 1 - c is 1 and all above it are 0, c = w for
0), CTZ those below the lowest 1, POPC the number of 1 bits; SEXT gives the operand sign-extended and ZEXT zero-
extended; with latency 1; nothing else of the machine changes. (R187, R188) -/
def Obligations.ScalarArithmeticAndCompares : Prop :=
  (∀ (d a b : BitVec 5) (m : BitVec 2) (s : State),
    let A := (s.G a).setWidth (spanOf m)
    let B := (s.G b).setWidth (spanOf m)
    exec (.add d a b (m.setWidth 3)) s = .next (s.emitG 1 d.toNat ((A + B).signExtend 64)) ∧
    exec (.sub d a b (m.setWidth 3)) s = .next (s.emitG 1 d.toNat ((A - B).signExtend 64)) ∧
    exec (.and d a b (m.setWidth 3)) s = .next (s.emitG 1 d.toNat ((A &&& B).signExtend 64)) ∧
    exec (.or d a b (m.setWidth 3)) s = .next (s.emitG 1 d.toNat ((A ||| B).signExtend 64)) ∧
    exec (.xor d a b (m.setWidth 3)) s = .next (s.emitG 1 d.toNat ((A ^^^ B).signExtend 64)) ∧
    exec (.andn d a b (m.setWidth 3)) s = .next (s.emitG 1 d.toNat ((A &&& ~~~ B).signExtend 64))) ∧
  (∀ (d a b : BitVec 5) (m : BitVec 2) (s : State),
    let w := spanOf m
    let A := (s.G a).setWidth w
    let D := (s.G d).setWidth w
    let n := ((s.G b).setWidth w).toNat % w
    exec (.shl d a b (m.setWidth 3)) s = .next (s.emitG 1 d.toNat ((A <<< n).signExtend 64)) ∧
    exec (.shr d a b (m.setWidth 3)) s = .next (s.emitG 1 d.toNat ((A >>> n).signExtend 64)) ∧
    exec (.shra d a b (m.setWidth 3)) s = .next (s.emitG 1 d.toNat ((A.sshiftRight n).signExtend 64)) ∧
    exec (.rotr d a b (m.setWidth 3)) s = .next (s.emitG 1 d.toNat ((A.rotateRight n).signExtend 64)) ∧
    exec (.fshl d a b (m.setWidth 3)) s = .next (s.emitG 1 d.toNat ((((A ++ D) <<< n).extractLsb' w w).signExtend 64)) ∧
    exec (.fshr d a b (m.setWidth 3)) s = .next (s.emitG 1 d.toNat ((((A ++ D) >>> n).extractLsb' 0 w).signExtend 64))) ∧
  (∀ (d a b : BitVec 5) (m : BitVec 2) (s : State),
    let A := (s.G a).setWidth (spanOf m)
    let B := (s.G b).setWidth (spanOf m)
    exec (.min d a b (m.setWidth 3)) s = .next (s.emitG 1 d.toNat ((if A.slt B then A else B).signExtend 64)) ∧
    exec (.max d a b (m.setWidth 3)) s = .next (s.emitG 1 d.toNat ((if A.slt B then B else A).signExtend 64)) ∧
    exec (.minu d a b (m.setWidth 3)) s = .next (s.emitG 1 d.toNat ((if A < B then A else B).signExtend 64)) ∧
    exec (.maxu d a b (m.setWidth 3)) s = .next (s.emitG 1 d.toNat ((if A < B then B else A).signExtend 64)) ∧
    exec (.slt d a b (m.setWidth 3)) s = .next (s.emitG 1 d.toNat (if A.slt B then 1 else 0)) ∧
    exec (.sltu d a b (m.setWidth 3)) s = .next (s.emitG 1 d.toNat (if A < B then 1 else 0)) ∧
    exec (.seq d a b (m.setWidth 3)) s = .next (s.emitG 1 d.toNat (if A = B then 1 else 0)) ∧
    exec (.sne d a b (m.setWidth 3)) s = .next (s.emitG 1 d.toNat (if A = B then 0 else 1))) ∧
  (∀ (d a : BitVec 5) (m : BitVec 2) (s : State),
    let w := spanOf m
    let A := (s.G a).setWidth w
    (∃ c, exec (.clz d a (m.setWidth 3)) s = .next (s.emitG 1 d.toNat (BitVec.ofNat 64 c)) ∧ c ≤ w ∧
      (∀ k, w - c ≤ k → A.getLsbD k = false) ∧ (c < w → A.getLsbD (w - 1 - c) = true)) ∧
    (∃ c, exec (.ctz d a (m.setWidth 3)) s = .next (s.emitG 1 d.toNat (BitVec.ofNat 64 c)) ∧ c ≤ w ∧
      (∀ k, k < c → A.getLsbD k = false) ∧ (c < w → A.getLsbD c = true)) ∧
    exec (.popc d a (m.setWidth 3)) s =
      .next (s.emitG 1 d.toNat (BitVec.ofNat 64 ((List.range w).filter fun k => A.getLsbD k).length)) ∧
    exec (.sext d a (m.setWidth 3)) s = .next (s.emitG 1 d.toNat (A.signExtend 64)) ∧
    exec (.zext d a (m.setWidth 3)) s = .next (s.emitG 1 d.toNat (A.setWidth 64)))

/-- For every operand width w: MUL gives the low and MULH, MULHU the high w bits of the signed or unsigned product, with
latency 3; DIV, DIVU, REM, REMU give the quotient truncated toward zero or the remainder, with latency 18; a zero
divisor gives -1, 2^w - 1 or the dividend, and the most negative number by -1 gives itself and 0; no operation faults
and nothing else of the machine changes. The immediate forms work on 64 bits with the sign-extended immediate: sums,
logic, shifts by the six-bit count, the two compares (SLTUI takes the immediate modulo 2^64 as unsigned), the product
with latency 3; LI puts the sign-extended constant into flight and LIHk the register with its halfword k replaced; with
latency 1; nothing else of the machine changes. (R187, R188, R189, R190) -/
def Obligations.ScalarProductsAndImmediateForms : Prop :=
  (∀ (d a b : BitVec 5) (m : BitVec 2) (s : State),
    let w := spanOf m
    let A := (s.G a).setWidth w
    let B := (s.G b).setWidth w
    exec (.mul d a b (m.setWidth 3)) s = .next (s.emitG 3 d.toNat ((A * B).signExtend 64)) ∧
    exec (.mulh d a b (m.setWidth 3)) s =
      .next (s.emitG 3 d.toNat (((A.signExtend (2 * w) * B.signExtend (2 * w)).extractLsb' w w).signExtend 64)) ∧
    exec (.mulhu d a b (m.setWidth 3)) s =
      .next (s.emitG 3 d.toNat (((A.setWidth (2 * w) * B.setWidth (2 * w)).extractLsb' w w).signExtend 64)) ∧
    exec (.div d a b (m.setWidth 3)) s =
      .next (s.emitG 18 d.toNat ((if B = 0#w then BitVec.allOnes w else A.sdiv B).signExtend 64)) ∧
    exec (.divu d a b (m.setWidth 3)) s =
      .next (s.emitG 18 d.toNat ((if B = 0#w then BitVec.allOnes w else A / B).signExtend 64)) ∧
    exec (.rem d a b (m.setWidth 3)) s = .next (s.emitG 18 d.toNat ((if B = 0#w then A else A.srem B).signExtend 64)) ∧
    exec (.remu d a b (m.setWidth 3)) s = .next (s.emitG 18 d.toNat ((if B = 0#w then A else A % B).signExtend 64))) ∧
  (∀ (d a : BitVec 5) (i : BitVec 11) (n : BitVec 6) (k : BitVec 16) (s : State),
    let A := s.G a
    let D := s.G d
    let I := i.signExtend 64
    exec (.addi d a i) s = .next (s.emitG 1 d.toNat (A + I)) ∧
    exec (.andi d a i) s = .next (s.emitG 1 d.toNat (A &&& I)) ∧
    exec (.ori d a i) s = .next (s.emitG 1 d.toNat (A ||| I)) ∧
    exec (.xori d a i) s = .next (s.emitG 1 d.toNat (A ^^^ I)) ∧
    exec (.shli d a n) s = .next (s.emitG 1 d.toNat (A <<< n.toNat)) ∧
    exec (.shri d a n) s = .next (s.emitG 1 d.toNat (A >>> n.toNat)) ∧
    exec (.shrai d a n) s = .next (s.emitG 1 d.toNat (A.sshiftRight n.toNat)) ∧
    exec (.slti d a i) s = .next (s.emitG 1 d.toNat (if A.slt I then 1 else 0)) ∧
    exec (.sltui d a i) s = .next (s.emitG 1 d.toNat (if A.ult I then 1 else 0)) ∧
    exec (.muli d a i) s = .next (s.emitG 3 d.toNat (A * I)) ∧
    exec (.li d k) s = .next (s.emitG 1 d.toNat (k.signExtend 64)) ∧
    exec (.lih1 d k) s = .next (s.emitG 1 d.toNat (D.extractLsb' 32 32 ++ k ++ D.extractLsb' 0 16)) ∧
    exec (.lih2 d k) s = .next (s.emitG 1 d.toNat (D.extractLsb' 48 16 ++ k ++ D.extractLsb' 0 32)) ∧
    exec (.lih3 d k) s = .next (s.emitG 1 d.toNat (k ++ D.extractLsb' 0 48)))

/-- Each active request gets one row and, by class and slot, more up to its need while the budget lasts. Frames come first
from the free frames in their order; a need beyond the list's capacity faults with 0x0804; a shortage evicts the
requests ahead in the eviction order (a deadline of 0 the latest, log 73, DEDUCED) until their frames cover it, unless
all of them would leave no row; then the rows are cut to the frames held, and without a row the requester is evicted
itself. An evicted request frees its frames, or with spill frames enough has its pool frames replaced by them in its
list, to be copied within the boundary's 32. Row starts run from 0 by slot, with kind, width used, SAMPLE and FIRST; the
batch's quantities are the sums and largest values over the slots. Publish writes the changed requests' rings (tokens,
count, completion), then their device fields, the state byte last, then the segment table into every tile of the
partition (a word waits at the inbound port; held ones of an OFF tile are replaced, log 57, DEDUCED), then condition
bits 32 to 63. A write in staged memory is read at once by every reader. A COUNT rule gives the clamped quotient; a SKIP
or COND rule compares. (R44, R45, R46, R69, R71, R81, R82, R83, R85, R86, R87) -/
def Obligations.WinnowAllocatesAndPublishes : Prop :=
  ∀ (s : State) (x : Nat) (w : Winnow),
    let unique : Prop := (w.reqs.map (·.1)).Nodup
    let active : List (Nat × Request) := w.reqs.filter fun e => e.2.state == 2 || e.2.state == 3
    let pool (v : Winnow) (r : Request) : List Nat := r.frames.filter fun f => !v.spills.contains f
    let pages (r : Request) (from_ : Nat) (fs : List Nat) (u : State) : State :=
      (fs.zipIdx from_).foldl (fun u e => u.ctxPut x (r.pageList + 8 * e.2) (leBytes 8 e.1)) u
    (unique → (∀ e ∈ active, e.2.slot < 2 ^ 16 ∧ e.2.class_ < 4) →
      (w.passTwo.Perm (active.map (·.1)) ∧ w.passTwo.Pairwise fun a b => (w.req a).class_ < (w.req b).class_ ∨
        ((w.req a).class_ = (w.req b).class_ ∧ (w.req a).slot ≤ (w.req b).slot)) ∧
      ∀ rows i k, w.passTwo[i]? = some k →
        let r := w.req k
        let got (j : Nat) : Nat := ((w.allocateRows rows).req (w.passTwo.getD j 0)).rows
        let need : Nat := if r.state = 2 then min 64 ((if 0 < r.generated then r.prompt - 1 + r.generated else r.prompt) - r.position)
          else if r.flags.testBit 1 then r.width + 1 else 1
        (w.allocateRows rows).req k = { r with rows := 1 + min (need - 1) (rows - w.passTwo.length - ((List.range i).map fun j => got j - 1).sum) }) ∧
    (unique → (∀ e ∈ active, e.2.id < 2 ^ 64 ∧ e.2.deadline < 2 ^ 64 ∧ e.1 < 2 ^ 16 ∧ e.2.class_ < 4 ∧ e.2.frames.length ≤ 2 ^ 26) →
      let due (r : Request) : Nat := if r.deadline = 0 then 2 ^ 64 - 1 else r.deadline
      w.evictOrder.Perm (active.map (·.1)) ∧ w.evictOrder.Pairwise fun a b =>
        let r := w.req a
        let q := w.req b
        q.class_ < r.class_ ∨ (r.class_ = q.class_ ∧ (due q < due r ∨ (due r = due q ∧ (q.frames.length < r.frames.length ∨
          (r.frames.length = q.frames.length ∧ (q.id < r.id ∨ (r.id = q.id ∧ b < a)))))))) ∧
    (∀ k n, let v := s.winnow x
      let r := v.req k
      s.give x k n = pages r r.frames.length (v.freePool.take n) (s.modWinnow x fun v =>
        { v.setReq k { r with frames := r.frames ++ v.freePool.take n, pages := (r.frames ++ v.freePool.take n).length, changed := true } with
            freePool := v.freePool.drop n })) ∧
    (∀ k, let v := s.winnow x
      let r := v.req k
      let n := (pool v r).length
      let u := s.evict x k
      let away := { r with state := 5, slot := 0xFFFF, rank := 0xFFFF, rows := 0, kind := 0, used := 0, changed := true }
      (v.spills = [] ∨ v.freeSpill.length < n →
        let q := (u.winnow x).req k
        { u with ctxs := s.ctxs } = s ∧ q.state = 5 ∧ q.slot = 0xFFFF ∧ q.position = 0 ∧ q.pages = 0 ∧ q.frames = [] ∧ q.flags.testBit 12 = false ∧
        (u.winnow x).freePool = v.pool.filter (fun f => decide (f ∈ v.freePool ∨ f ∈ r.frames ∨ f ∈ r.spilling.map (·.1)))) ∧
      (v.spills ≠ [] → n ≤ v.freeSpill.length → ∃ fs flags,
        u = (List.range (32 - v.copied)).foldl (fun (u : State) _ => u.spillOne x) (pages r 0 fs (s.modWinnow x fun v =>
          { v.setReq k { away with flags := flags, frames := fs, spilling := (pool v r).zip v.freeSpill } with
              freeSpill := v.freeSpill.drop n, spillQueue := v.spillQueue ++ (if n = 0 then [] else [k]) })) ∧
        flags % 256 = r.flags % 256 ∧ flags.testBit 12 = true ∧ fs.length = r.frames.length ∧
        ∀ i f, r.frames[i]? = some f → fs[i]? = if v.spills.contains f then some f
          else v.freeSpill[((r.frames.take i).filter fun g => !v.spills.contains g).length]?)) ∧
    (∀ k, let v := s.winnow x
      let r := v.req k
      let need := (r.position + r.rows + v.tpp - 1) / v.tpp
      let short := need - r.frames.length
      let left := short - v.freePool.length
      let s1 := s.give x k (min short v.freePool.length)
      let v1 := s1.winnow x
      let holds (ks : List Nat) : Nat := (ks.map fun j => (pool v1 (v1.req j)).length).sum
      let ahead := v1.evictOrder.takeWhile fun j => j != k
      let ends (u0 : State) : State :=
        let u := u0.give x k (min left (u0.winnow x).freePool.length)
        let q := (u.winnow x).req k
        let room := q.frames.length * v.tpp - q.position
        if q.rows ≤ room then u else if room = 0 then u.evict x k else u.modWinnow x fun v => v.setReq k { q with rows := room }
      let fits : Prop := left ≤ holds ahead ∨ r.position < ((v1.req k).frames.length + holds ahead) * v.tpp
      (r.state ≠ 2 → r.state ≠ 3 → s.allocate x k = s) ∧
      (r.state = 2 ∨ r.state = 3 →
        (r.capacity < need → s.allocate x k = (s.modWinnow x fun v => v.finish k 6 5 0x0804).winnowFault x k 0x0804) ∧
        (need ≤ r.capacity → left = 0 → s.allocate x k = s1) ∧
        (need ≤ r.capacity → 0 < left → ¬ fits → s.allocate x k = ends s1) ∧
        ∀ vs rest, need ≤ r.capacity → 0 < left → fits → ahead = vs ++ rest → (∀ n < vs.length, holds (vs.take n) < left) →
          (rest = [] ∨ left ≤ holds vs) → s.allocate x k = ends (vs.foldl (fun u j => u.evict x j) s1))) ∧
    (unique → (∀ e ∈ active, e.2.slot < 2 ^ 16) → (active.map (·.2.slot)).Nodup →
      let slots := w.bySlot
      slots.Perm (active.map fun e => (e.2.slot, e.1)) ∧ (slots.Pairwise fun a b => a.1 < b.1) ∧
      (∀ i e, slots[i]? = some e → let r := w.req e.2
        let kind := if r.state = 2 then 1 else if r.flags.testBit 1 = true ∧ 1 < r.rows then 3 else 2
        let target := if 0 < r.generated then r.prompt - 1 + r.generated else r.prompt
        let sample : Bool := kind != 1 || (r.generated == 0 && r.position + r.rows == target)
        (w.assign.req e.2) = { r with rowStart := ((slots.take i).map fun e => (w.req e.2).rows).sum, kind := kind,
                                      used := if kind = 3 then r.rows - 1 else 0, first := false, changed := true,
                                      entryFlags := (if sample then 1 else 0) + (if r.first then 2 else 0) }) ∧
      ∀ tick, let u := w.describe tick
        let rs := slots.map fun e => w.req e.2
        u.q0 = slots.length ∧ u.q1 = (rs.map (·.rows)).sum ∧ u.q3 = ((rs.filter fun r => r.kind == 1).map (·.rows)).sum ∧
        (∀ r ∈ rs, r.position ≤ u.q2 ∧ r.used ≤ u.q4) ∧ (rs = [] → u.q2 = 0 ∧ u.q4 = 0) ∧
        (rs ≠ [] → (∃ r ∈ rs, r.position = u.q2) ∧ ∃ r ∈ rs, r.used = u.q4) ∧ u.iteration = w.iteration + 1 ∧ u.published = w.iteration + 1 ∧
        u.publishTick = tick ∧ u.slots = slots.map fun e => (e.1, e.2, w.req e.2)) ∧
    (∀ k, let s1 := s.modWinnow x fun v => (v.assign.mark s.gtick).describe s.gtick
      let ks := ((s1.winnow x).reqs.filter fun e => e.2.changed).map (·.1)
      let s2 := ks.foldl (fun u r => u.writeRing x r) s1
      let s3 := ks.foldl (fun u r => u.writeRecord x r) s2
      let bits := s3.newCond x k
      let u := s.publish x k
      { u with ctxs := (s3.writeTables x ((s3.winnow x).tableBytes (s3.ctx x).maxSlots bits s.gtick)).ctxs } =
        s3.writeTables x ((s3.winnow x).tableBytes (s3.ctx x).maxSlots bits s.gtick) ∧ (u.ctx x).cond = bits) ∧
    (∀ k, let r := (s.winnow x).req k
      let puts (a : Nat) (es : List (Nat × List Byte)) (u : State) : State := es.foldl (fun u e => u.ctxPut x (a + e.1) e.2) u
      let word := if r.state = 4 ∨ 6 ≤ r.state then r.state + 256 * (r.flags / 256 % 8) + 65536 * r.fault else 0
      s.writeRing x k = puts r.ring ((r.tokens.map fun e => (0x40 + 4 * e.1, leBytes 4 e.2)) ++
        [(0, leBytes 4 (r.prompt + r.generated)), (8, leBytes 4 word)]) s ∧
      s.writeRecord x k = puts ((s.winnow x).table + 128 * k) [(0x06, leBytes 2 r.slot), (0x10, leBytes 4 r.position), (0x1C, leBytes 4 r.generated),
        (0x2A, leBytes 2 r.rank ++ leBytes 2 r.fault), (0x2F, leBytes 1 (r.flags / 256)), (0x38, leBytes 4 r.pages), (0x70, leBytes 8 r.draw),
        (0x04, leBytes 1 r.state)] s) ∧
    (∀ va pa bs, bs ≠ [] → (∀ j < bs.length, s.ctxAddr x (va + j) = .ok (pa + j)) → s.migrations = [] → s.forwarding = [] → s.codesClean = true →
      (s.place pa = .ok .lpddr ∨ s.place pa = .ok .host) → ∀ k, (s.ctxPut x va bs).physByte k =
        if pa ≤ k ∧ k < pa + bs.length then bs.getD (k - pa) 0 else s.physByte k) ∧
    (∀ n bits tick, let b := w.tableBytes n bits tick
      b.length = 64 + 32 * n ∧ field b 0 8 = w.iteration % 2 ^ 64 ∧ field b 8 2 = w.q0 % 2 ^ 16 ∧ field b 0x0A 2 = 0 ∧ field b 0x0C 4 = w.q1 % 2 ^ 32 ∧
      field b 0x10 4 = w.q2 % 2 ^ 32 ∧ field b 0x14 4 = w.q3 % 2 ^ 32 ∧ field b 0x18 2 = w.q4 % 2 ^ 16 ∧ field b 0x1A 2 = n % 2 ^ 16 ∧
      field b 0x1C 4 = 0 ∧ field b 0x20 8 = bits.toNat ∧ field b 0x28 8 = tick % 2 ^ 64 ∧ field b 0x30 16 = 0 ∧
      ∀ i < n, let e := 64 + 32 * i
        (w.slots.lookup i = none → field b e 8 = 0 ∧ field b (e + 8) 4 = 0xFFFFFFFF ∧ field b (e + 12) 20 = 0) ∧
        ∀ k r, w.slots.lookup i = some (k, r) → field b e 2 = r.rowStart % 2 ^ 16 ∧ field b (e + 2) 1 = r.rows % 2 ^ 8 ∧ field b (e + 3) 1 = r.kind % 2 ^ 8 ∧
          field b (e + 4) 4 = r.position % 2 ^ 32 ∧ field b (e + 8) 4 = k % 2 ^ 32 ∧ field b (e + 0x0C) 2 = r.used % 2 ^ 16 ∧
          field b (e + 0x0E) 2 = r.entryFlags % 2 ^ 16 ∧ field b (e + 0x10) 8 = r.pageList % 2 ^ 64 ∧ field b (e + 0x18) 4 = r.pages % 2 ^ 32 ∧
          field b (e + 0x1C) 4 = 0) ∧
    (∀ bs, (s.ctx x).tiles.Nodup → let u := s.writeTables x bs
      u.mem = s.mem ∧ u.ctxs = s.ctxs ∧ (∀ t, t ∉ (s.ctx x).tiles → u.tile t = s.tile t) ∧
      ∀ t ∈ (s.ctx x).tiles, ∃ ws, u.tile t = { s.tile t with inbound := ((s.tile t).inbound.filter fun e =>
          !((s.tile t).heldInbound e && e.write.bytes.all fun b => decide ((s.winnow x).segOffset ≤ b.1 ∧ b.1 < (s.winnow x).segOffset + bs.length))) ++ ws } ∧
        (ws.flatMap (·.write.bytes)) = cellsFrom (s.winnow x).segOffset bs ∧
        ∀ e ∈ ws, e.due = s.gtick ∧ e.issuer = winnowIssuer ∧ e.write.add = false ∧ e.write.poison = none ∧ e.write.checks = none) ∧
    (∀ k b, b < 64 → (s.newCond x k).getLsbD b = ((decide (b < 32) && (s.ctx x).cond.getLsbD b) ||
      (List.range (s.segField x k 6 2)).any fun i => s.ruleHolds x (s.segField x k 8 4 + i) && s.ruleField x (s.segField x k 8 4 + i) 2 1 == b)) ∧
    (∀ k l, (s.ctx x).launch = some l →
      let f := s.ruleField x k
      let Q := [(s.winnow x).q0, (s.winnow x).q1, (s.winnow x).q2, (s.winnow x).q3, (s.winnow x).q4].getD (f 1 1) 0
      let M := [min l.slots l.rows, l.rows, l.position, l.rows, min l.draft (l.rows - 1)].getD (f 1 1) 0
      let value (q : Nat) (top : Int) : Int := max 0 (min top ⌈(((q * f 8 4 : Nat) : ℚ) + (signExt (f 0x0C 4) 32 : ℤ)) / (f 6 2 : ℚ)⌉)
      (0 < f 6 2 → (s.countRule x k : Int) = value Q (value M (2 ^ 32 - 1))) ∧
      (s.ruleHolds x k = true ↔ [Q < f 0x0C 4, Q ≤ f 0x0C 4, Q = f 0x0C 4, Q ≠ f 0x0C 4, f 0x0C 4 ≤ Q].getD (f 3 1) (f 0x0C 4 < Q)))

/-- Of the results in flight those are due whose landing step has come; they land in the order of that step, a write of
FPFLAGS before the rest, then of the issue steps, then of the slots; and none is due when a sequencer issues a bundle.
Putting a result into flight (what every word with a latency does at issue) adds it to the issuing sequencer's flights,
or, in handler mode, to its handler's; every register, control register and failure register of that sequencer, every
other sequencer, every byte of every scratchpad, weight MRAM and global memory, every context and the time stay as they
were; its landing step is the sequencer's clock plus the latency. RESULT_LANDING of a scalar result without error or
poison, first of those due (by landing step, issue step and slot): its flight is gone, gr reads the value unless r is 0,
g0 reads 0, every other scalar register reads as before, the flags it carries are ORed into FPFLAGS, the register
written has its parity right again, and nothing else of the machine changes. RESULT_LANDING of a vector result without
error, poison or shadow check: each byte lane of the physical register that the mask names takes the result's byte,
every other byte lane and vector register stays; of a predicate result: the physical predicate register takes the value,
p0 reads all ones; flags are ORed into FPFLAGS, the parts written whole have their parity right again; nothing else of
the machine changes. (R50, R152, R49, R53, R344, R173, R174, R213) -/
def Obligations.ResultsFlyAndLand : Prop :=
  ((∀ y : Seq, let fs := if y.inHandler then y.hflights else y.flights
    y.dueFlights.Perm (fs.filter fun f => decide (f.step ≤ y.now)) ∧
    ((∀ f ∈ fs, f.issue < 2 ^ 64 ∧ f.unit < 8) → y.dueFlights.Pairwise fun f g => f.step < g.step ∨ (f.step = g.step ∧
      ((f.first = true ∧ g.first = false) ∨ (f.first = g.first ∧ (f.issue < g.issue ∨ (f.issue = g.issue ∧ f.unit ≤ g.unit))))))) ∧
  (∀ (s : State) (t q : Nat), s.next = .issue t q → (s.seq t q).dueFlights = [])) ∧
  (∀ (s : State) (lat : Nat) (act : Act),
    let f : Flight := { step := s.me.now + lat, issue := s.me.now, unit := s.cur.unit, bundle := s.cur.bundle, act := act }
    let t := s.emit lat act
    t.me = (if s.me.inHandler then { s.me with hflights := s.me.hflights ++ [f] } else { s.me with flights := s.me.flights ++ [f] }) ∧
    (∀ x q, ¬ (x = s.cur.tile ∧ (q = 0 ↔ s.cur.seq = 0)) → t.seq x q = s.seq x q) ∧
    (∀ x, { t.tile x with a := (s.tile x).a, b := (s.tile x).b } = s.tile x) ∧
    { t with tiles := s.tiles } = s) ∧
  (∀ (s : State) (f : Flight) (rest : List Flight) (r : Nat) (v : W64),
    let t := s.arg 0
    let q := s.arg 1
    let y := s.seq t q
    y.dueFlights = f :: rest → f.act = .g r v → f.upset = 0 → f.poison = none → f.parity = false →
    ∃ z, exec .resultLanding s = .next ((s.setSeq t q (y.removeFlight f)).setSeq t q z) ∧
      (∀ k, z.readG k = if k = 0 then 0 else if k = r then v else y.readG k) ∧
      z.fpflags = y.fpflags ||| f.flags ∧
      z.parityErrors = y.parityErrors.filter (fun e => !f.act.repairs e.1 e.2) ∧
      { z with g := y.g, fpflags := y.fpflags, parityErrors := y.parityErrors } = y.removeFlight f) ∧
  (∀ (s : State) (f : Flight) (rest : List Flight),
    let t := s.arg 0
    let q := s.arg 1
    let y := s.seq t q
    y.dueFlights = f :: rest → f.upset = 0 → f.poison = none → f.shadow = none → f.parity = false →
    (∀ r mask v, f.act = .v r mask v →
      ∃ z, exec .resultLanding s = .next ((s.setSeq t q (y.removeFlight f)).setSeq t q z) ∧
        (∀ k < 64, (mget 0 z.v r).extractLsb' (8 * k) 8 = if mask.getLsbD k then v.extractLsb' (8 * k) 8 else (mget 0 y.v r).extractLsb' (8 * k) 8) ∧
        (∀ k, k ≠ r → mget 0 z.v k = mget 0 y.v k) ∧
        z.fpflags = y.fpflags ||| f.flags ∧ z.parityErrors = y.parityErrors.filter (fun e => !f.act.repairs e.1 e.2) ∧
        { z with v := y.v, fpflags := y.fpflags, parityErrors := y.parityErrors } = y.removeFlight f) ∧
    (∀ r v, f.act = .p r v →
      ∃ z, exec .resultLanding s = .next ((s.setSeq t q (y.removeFlight f)).setSeq t q z) ∧
        (∀ k, k ≠ 0 → mget 0 z.p k = if k = r then v else mget 0 y.p k) ∧ z.readP 0 = BitVec.allOnes 64 ∧
        z.fpflags = y.fpflags ||| f.flags ∧ z.parityErrors = y.parityErrors.filter (fun e => !f.act.repairs e.1 e.2) ∧
        { z with p := y.p, fpflags := y.fpflags, parityErrors := y.parityErrors } = y.removeFlight f))

/-- J and CALL go to the word's address plus four times the signed offset, JR and CALLR to ga, RET to the popped address; a
call pushes the address behind the bundle less 0x0800_0000, as 24 bits; a seventeenth push raises 0x0301, a pop of the
empty store 0x0302, a target that is misaligned or outside the text 0x0303, of a call or a return too: the return-
address store is then as before the word, so that nothing is pushed or popped. Nothing else of the machine changes. A
conditional branch is taken when ga is zero, not zero, negative or not negative as a signed value, BPU when its
predicate is all ones, BENG when the flag that e and s name read 1 two steps before; taken, it goes to the word's
address plus four times the signed offset, which must be an aligned text address, else 0x0303; not taken, it changes
nothing and checks nothing. BPU of a mixed predicate raises 0x0304. (R173, R198, R210, R199, R200, R201) -/
def Obligations.JumpsAndConditionalBranches : Prop :=
  (∀ (o : BitVec 21) (a : BitVec 5) (s : State),
    let rel := s.relTarget o.toInt
    let reg := s.N a
    let pushed := s.modMe fun y => { y with ras := (s.cur.next - 0x8000000) % 2 ^ 24 :: y.ras }
    let bad (target : Nat) : State := s.trapIssue (s.fault 0x0303 target)
    exec (.j o) s = .next (if textOk rel then s.jump rel else bad rel) ∧
    exec (.jr a) s = .next (if textOk reg then s.jump reg else bad reg) ∧
    (s.me.ras.length < 16 →
      exec (.call o) s = .next (if textOk rel then pushed.jump rel else bad rel) ∧
      exec (.callr a) s = .next (if textOk reg then pushed.jump reg else bad reg)) ∧
    (16 ≤ s.me.ras.length →
      exec (.call o) s = .next (s.trapIssue (s.fault 0x0301)) ∧ exec (.callr a) s = .next (s.trapIssue (s.fault 0x0301))) ∧
    (s.me.ras = [] → exec .ret s = .next (s.trapIssue (s.fault 0x0302))) ∧
    (∀ r rs, s.me.ras = r :: rs →
      exec .ret s = .next (if textOk (0x8000000 + r) then (s.modMe fun y => { y with ras := rs }).jump (0x8000000 + r)
        else bad (0x8000000 + r)))) ∧
  (∀ (a : BitVec 5) (p : BitVec 3) (e : BitVec 4) (f : BitVec 1) (o : BitVec 16) (s : State),
    let target := s.relTarget o.toInt
    let taken := if textOk target then s.jump target else s.trapIssue (s.fault 0x0303 target)
    exec (.beqz a o) s = .next (if s.G a = 0 then taken else s) ∧
    exec (.bnez a o) s = .next (if s.G a = 0 then s else taken) ∧
    exec (.bltz a o) s = .next (if (s.G a).msb then taken else s) ∧
    exec (.bgez a o) s = .next (if (s.G a).msb then s else taken) ∧
    exec (.bpu p o) s = .next (if s.P p = BitVec.allOnes 64 then taken else if s.P p = 0 then s else s.trapIssue (s.fault 0x0304)) ∧
    exec (.beng e f o) s = .next (if s.me.flags2.getLsbD (e.toNat + 8 * f.toNat) then taken else s))

/-- LOOP puts into flight, with latency 1, the count less one (0 when it was 0) for LCk, the vector rotation base less one
modulo 32 where rot[0] is set and the predicate base less one modulo 4 where rot[1] is set; when the count read at issue
is above 1 it goes to its target; otherwise it goes on. A taken LOOP whose target is misaligned or outside the text
raises 0x0303 and leaves its registers as they were. Nothing else of the machine changes. SKIP sets the count of bundles
to skip when its SKIPM bit is 1 and does nothing else; HALT ends the task's issue and writes its L1 back; WAITT holds
the next bundle to task step max(issue + 1, ga); both are refused with 0x0311 in handler mode; TRAP takes fault 0x0305
with its code in the record's detail and the scratch registers beside it. Each has latency 1; PCNT counts the 1 bits of
its predicate; the others put the copy, the scalar, or the bitwise result into flight to the physical register that the
index names under PRB at issue; a write to p0 is discarded, so that the instruction then changes nothing. (R202, R174,
R203, R204, R205, R206, R368, R173, R209) -/
def Obligations.LoopsSkipsHaltsAndPredicates : Prop :=
  (∀ (l r : BitVec 2) (o : BitVec 16) (s : State),
    let c := (mget 0 s.me.lc l.toNat).toNat
    let s1 := s.emit 1 (.ctl (4 + l.toNat) (BitVec.ofNat 64 (c - 1)))
    let s2 := if r.getLsbD 0 then s1.emit 1 (.ctl 2 ((s.me.vrb - 1).setWidth 64)) else s1
    let s3 := if r.getLsbD 1 then s2.emit 1 (.ctl 3 ((s.me.prb - 1).setWidth 64)) else s2
    (c ≤ 1 → exec (.loop l r o) s = .next s3) ∧
    (1 < c → exec (.loop l r o) s = .next (if textOk (s.relTarget o.toInt) then s3.jump (s.relTarget o.toInt)
      else s.trapIssue (s.fault 0x0303 (s.relTarget o.toInt))))) ∧
  (∀ (b : BitVec 5) (n : BitVec 8) (a : BitVec 5) (i : BitVec 16) (s : State),
    exec (.skip b n) s = .next (if s.me.skipm.getLsbD b.toNat then s.modMe fun y => { y with skipLeft := n.toNat } else s) ∧
    (s.me.inHandler = false →
      exec .halt s = .next ((s.modMe fun y => { y with run := .halted }).flushL1 s.cur.tile s.cur.seq) ∧
      exec (.waitt a) s = .next (s.modMe fun y => { y with waitUntil := max (y.clock + 1) (s.N a) })) ∧
    (s.me.inHandler = true →
      exec .halt s = .next (s.trapIssue (s.fault 0x0311)) ∧ exec (.waitt a) s = .next (s.trapIssue (s.fault 0x0311))) ∧
    exec (.trap i) s =
      .next (s.trapIssue { s.fault 0x0305 with detail := i.toNat, aux0 := s.me.fscr0.toNat, aux1 := s.me.fscr1.toNat })) ∧
  (∀ (d a b : BitVec 3) (g : BitVec 5) (s : State),
    let phys (i : BitVec 3) : Nat := if i.toNat < 4 then i.toNat else 4 + (i.toNat - 4 + s.me.prb.toNat) % 4
    let P (i : BitVec 3) : W64 := if i.toNat = 0 then BitVec.allOnes 64 else mget 0 s.me.p (phys i)
    let put (v : W64) : State := if d = 0 then s else s.emit 1 (.p (phys d) v)
    exec (.pcnt a g) s = .next (s.emitG 1 g.toNat (BitVec.ofNat 64 ((List.range 64).filter fun k => (P a).getLsbD k).length)) ∧
    exec (.pmov d a) s = .next (put (P a)) ∧
    exec (.psetg d g) s = .next (put (s.G g)) ∧
    exec (.pand d a b) s = .next (put (P a &&& P b)) ∧
    exec (.por d a b) s = .next (put (P a ||| P b)) ∧
    exec (.pxor d a b) s = .next (put (P a ^^^ P b)) ∧
    exec (.pnot d a) s = .next (put (~~~ P a)))

/-- MFC puts into flight, with latency 1, the named register as it stands, for every assigned number, here for TASKT0,
STEPC, VRB, PRB, LC0 to LC3, SKIPM, MXMODE, SEGBASE, FPRM, FPFLAGS, MAPVER, SLOTMAP, TS0 to TS7, LVL0 to LVL7, TILEID,
SEQID, CTXID, SLIP, and the failure registers: FCAUSE, FBUNDLE, FADDR, FDETAIL, FAUX0, FAUX1 and FTICK of the record
last taken (0 before the first), FSTEP, FRESUME, FHANDLER (the innermost region's handler or 0), CRDEPTH (how many
regions are open, and their ids from bit 3 on, the outermost first), FSTAT (bit 0 in handler mode, above it how many
faults wait, at most 127) and the scratch registers; TIME puts GTICK and STEP the task clock into flight; a number that
is not assigned raises 0x0309. MTC of an assigned number puts the write into flight with latency 1; an unassigned
number, and FRESUME outside handler mode, raise 0x0309; an invalid shape for a TS register raises 0x0306. When the write
lands, a read of the register gives the value's bits that the register holds, and a write of a read-only register
changes nothing. (R175, R207, R208, R363, R370, R9, R176) -/
def Obligations.ControlRegistersReadAndWrite : Prop :=
  (∀ (g : BitVec 5) (c : BitVec 8) (s : State),
    let y := s.me
    let reads (n : Nat) (v : W64) : Prop := exec (.mfc g (BitVec.ofNat 8 n)) s = .next (s.emitG 1 g.toNat v)
    reads 0x00 (BitVec.ofNat 64 y.t0) ∧ reads 0x01 (BitVec.ofNat 64 y.clock) ∧ reads 0x02 (y.vrb.setWidth 64) ∧
    reads 0x03 (y.prb.setWidth 64) ∧ (∀ k < 4, reads (0x04 + k) ((mget 0 y.lc k).setWidth 64)) ∧
    reads 0x08 (y.skipm.setWidth 64) ∧ reads 0x0A (s.myTile.mxmode.setWidth 64) ∧ reads 0x0B (y.segbase.setWidth 64) ∧
    reads 0x0C (y.fprm.setWidth 64) ∧ reads 0x0D (y.fpflags.setWidth 64) ∧ reads 0x0E y.mapver ∧ reads 0x0F y.slotmap ∧
    (∀ k < 8, reads (0x10 + k) (mget 0 y.ts k)) ∧ (∀ k < 8, reads (0x18 + k) ((mget 0 y.lvl k).setWidth 64)) ∧
    reads 0x20 (BitVec.ofNat 64 s.cur.tile) ∧ reads 0x21 (BitVec.ofNat 64 s.cur.seq) ∧ reads 0x22 (BitVec.ofNat 64 s.myCtx) ∧
    reads 0x23 (BitVec.ofNat 64 (y.slip % 2 ^ 32)) ∧
    (∀ r : FaultRecord, y.record = some r →
      reads 0x40 (BitVec.ofNat 64 (r.info.code + 65536 * r.level + 2 ^ 24 * r.info.unit + 2 ^ 32 *
        ((if r.lost then 1 else 0) + (if r.info.injected then 2 else 0) + (if r.escalated then 4 else 0)))) ∧
      reads 0x42 (BitVec.ofNat 64 r.info.bundle) ∧ reads 0x43 (BitVec.ofNat 64 r.info.addr) ∧
      reads 0x44 (BitVec.ofNat 64 (r.info.detail + 65536 * r.info.rindex)) ∧ reads 0x45 (BitVec.ofNat 64 r.info.aux0) ∧
      reads 0x46 (BitVec.ofNat 64 r.info.aux1) ∧ reads 0x4B (BitVec.ofNat 64 r.tick)) ∧
    (y.record = none → ∀ n ∈ [0x40, 0x42, 0x43, 0x44, 0x45, 0x46, 0x4B], reads n 0) ∧
    reads 0x48 (BitVec.ofNat 64 (((y.regions.getLast?).map (·.2)).getD 0)) ∧
    (∀ f0 f1 f2 f3 : Nat × Nat,
      (y.regions = [] → reads 0x49 0) ∧ (y.regions = [f0] → reads 0x49 (BitVec.ofNat 64 (1 + 8 * f0.1))) ∧
      (y.regions = [f0, f1] → reads 0x49 (BitVec.ofNat 64 (2 + 8 * f0.1 + 64 * f1.1))) ∧
      (y.regions = [f0, f1, f2] → reads 0x49 (BitVec.ofNat 64 (3 + 8 * f0.1 + 64 * f1.1 + 512 * f2.1))) ∧
      (y.regions = [f0, f1, f2, f3] → reads 0x49 (BitVec.ofNat 64 (4 + 8 * f0.1 + 64 * f1.1 + 512 * f2.1 + 4096 * f3.1)))) ∧
    reads 0x4A (BitVec.ofNat 64 ((if y.inHandler then 1 else 0) + 2 * min 127 y.pending.length)) ∧ reads 0x41 ((y.fstep.setWidth 32).setWidth 64) ∧ reads 0x47 y.fresume ∧
    reads 0x4C y.fscr0 ∧ reads 0x4D y.fscr1 ∧
    (c.toNat = 0x09 ∨ 0x24 ≤ c.toNat ∧ c.toNat < 0x40 ∨ 0x4E ≤ c.toNat → exec (.mfc g c) s = .next (s.trapIssue (s.fault 0x0309))) ∧
    exec (.time g) s = .next (s.emitG 1 g.toNat (BitVec.ofNat 64 s.gtick)) ∧
    exec (.step g) s = .next (s.emitG 1 g.toNat (BitVec.ofNat 64 y.clock))) ∧
  (∀ (g : BitVec 5) (c : BitVec 8) (s : State),
    let n := c.toNat
    let v := s.G g
    let held (m : W64) (k : Nat) : Prop := ∀ (t q : Nat) (x : W64), q < 2 → (s.writeCtl t q k x).readCtl t q k = x &&& m
    (ctlAssigned n = true → (n = 0x47 → s.me.inHandler = true) →
      (0x10 ≤ n → n < 0x18 → shapeOk (tsEf v) (tsCols v) = true) → exec (.mtc g c) s = .next (s.emit 1 (.ctl n v))) ∧
    (ctlAssigned n = false ∨ n = 0x47 ∧ s.me.inHandler = false → exec (.mtc g c) s = .next (s.trapIssue (s.fault 0x0309))) ∧
    (0x10 ≤ n → n < 0x18 → shapeOk (tsEf v) (tsCols v) = false → exec (.mtc g c) s = .next (s.trapIssue (s.fault 0x0306))) ∧
    held 31 0x02 ∧ held 3 0x03 ∧ (∀ k < 4, held 0xFFFFFFFF (0x04 + k)) ∧ held 0xFFFFFFFF 0x08 ∧ held 3 0x0A ∧ held 3 0x0C ∧
    held 31 0x0D ∧ (∀ k < 8, held 0x1FFFF (0x10 + k)) ∧ held (BitVec.allOnes 64) 0x47 ∧ held (BitVec.allOnes 64) 0x4C ∧
    held (BitVec.allOnes 64) 0x4D ∧
    (∀ (t q k : Nat) (x : W64),
      k ∈ [0x00, 0x01, 0x0B, 0x0E, 0x0F, 0x20, 0x21, 0x22, 0x23, 0x40, 0x41, 0x42, 0x43, 0x44, 0x45, 0x46, 0x48, 0x49, 0x4A, 0x4B] ∨
        0x18 ≤ k ∧ k < 0x20 →
      (s.writeCtl t q k x).readCtl t q k = s.readCtl t q k))

/-- WINNOW_BOUNDARY takes its steps in the order snapshot, retire, admit, rows, frames, publish, and the walk goes on; a
halt that waited for it follows. An admission queue holds the QUEUED and EVICTED requests of its class, evicted ones
first, then by deadline (0 the latest) or falling priority, then by arrival and record. The snapshot takes the live
fields of each active request and of the first 64 of each queue whose seq is even, leaves every other request's cached
copy, and the CANCEL packets whatever seq is. A request that ends leaves its slot, its frames go back to their places in
the lists, with its END and code. A slot with a fault is FAULTED and none of its commits stands; else its commits are
applied in order up to the first that stops it (a stop token, the most new tokens, the maximum position after the
advance): each adds its token to the history, one to G and to the draw index; then the position advances, and the
request is DONE, CANCELLED, RUNNING from its prefill target on, or as it was; in an iteration with a task-level fault no
commit stands and nothing advances. Admission takes the head of the first class that has one, while a slot, a row and
its frames are there, into the lowest free slot, and ends at the first head that it cannot take. (R74, R75, R76, R78,
R79, R80, R87) -/
def Obligations.WinnowSnapshotsRetiresAndAdmits : Prop :=
  ∀ (s : State) (x : Nat) (w : Winnow),
    let unique (v : Winnow) : Prop := (v.reqs.map (·.1)).Nodup
    let small (v : Winnow) : Prop := ∀ e ∈ v.reqs, e.1 < 2 ^ 16 ∧ e.2.deadline < 2 ^ 64 ∧ e.2.priority < 2 ^ 16 ∧ e.2.arrival < 2 ^ 64
    let filtered (list free back : List Nat) : List Nat := list.filter fun f => decide (f ∈ free ∨ f ∈ back)
    (∀ k l, s.arg 0 = x → (s.winnow x).closing = some k → (s.ctx x).launch = some l →
      let s1 := ((s.recheck x).snapshot x).retire x
      let s2 := s1.modWinnow x fun v => (v.takeIn l.slots l.rows v.reqs.length).allocateRows l.rows
      let s3 := (s2.winnow x).passTwo.foldl (fun u r => u.allocate x r) s2
      let u := ((s3.publish x k).wakeWaits).walkNode x
      exec .winnowBoundary s = .next (if (u.ctx x).part = .halting then u.after 0 .partitionHalt [x] else u)) ∧
    (unique w → small w → ∀ c < 4,
      let place (r : Request) : Nat := if c = 0 then (if r.deadline = 0 then 2 ^ 64 - 1 else r.deadline) else if c = 3 then 0 else 2 ^ 16 - 1 - r.priority
      (w.queueOf c).Perm ((w.reqs.filter fun e => (e.2.state == 1 || e.2.state == 5) && e.2.class_ == c).map (·.1)) ∧
      (w.queueOf c).Pairwise fun a b =>
        let r := w.req a
        let q := w.req b
        (r.state = 5 ∧ q.state ≠ 5) ∨ ((r.state = 5 ↔ q.state = 5) ∧ (place r < place q ∨ (place r = place q ∧
          (r.arrival < q.arrival ∨ (r.arrival = q.arrival ∧ a < b)))))) ∧
    (∀ k, unique (s.winnow x) →
      let v := s.winnow x
      let r := v.req k
      let u := s.snapshot x
      let picked : Prop := r.state = 2 ∨ r.state = 3 ∨ ∃ c < 4, k ∈ (v.queueOf c).take 64
      let b := s.ctxBytes x (v.table + 128 * k) 128
      let taken := { r with maxNew := field b 0x18 4, deadline := field b 0x20 8, priority := field b 0x28 2,
                            stops := (List.range (min 6 (field b 0x58 1))).map fun i => field b (0x40 + 4 * i) 4,
                            flags := r.flags / 2 * 2 + field b 0x2E 1 % 2 }
      (u.winnow x).cancels = [] ∧ { u with ctxs := s.ctxs } = s ∧ (∀ y, x ≠ y → u.ctx y = s.ctx y) ∧
      (v.cancels = [] → (picked → field b 0 4 % 2 = 0 → (u.winnow x).req k = taken) ∧ (¬ picked ∨ field b 0 4 % 2 = 1 → (u.winnow x).req k = r)) ∧
      (k ∈ v.cancels → r.state = 1 ∨ r.state = 5 ∨ r.state = 2 ∨ r.state = 3 → ((u.winnow x).req k).flags % 2 = 1)) ∧
    (∀ k state end_ code, end_ < 8 →
      let r := w.req k
      let u := w.finish k state end_ code
      let q := u.req k
      q.state = state ∧ q.endCode = end_ ∧ q.fault = code ∧ q.slot = 0xFFFF ∧ q.rank = 0xFFFF ∧ q.frames = [] ∧ q.spilling = [] ∧ q.pages = 0 ∧
        q.position = r.position ∧ q.generated = r.generated ∧ q.draw = r.draw ∧ q.tokens = r.tokens ∧ q.flags % 256 = r.flags % 256 ∧
        u.freePool = filtered w.pool w.freePool (r.frames ++ r.spilling.map (·.1)) ∧
        u.freeSpill = filtered w.spills w.freeSpill (r.frames ++ r.spilling.map (·.1)) ∧ ∀ j, k ≠ j → u.req j = w.req j) ∧
    (let c := s.ctx x
     let gone := (c.winnow.reqs.filter fun e => e.2.queued && nbit e.2.flags 0).map (·.1)
     let v := gone.foldl (fun (v : Winnow) k => v.finish k 7 4 0) c.winnow
     ((s.retire x).winnow x) =
      { c.winnow.bySlot.foldl (fun (v : Winnow) e => v.retire c.maxPos c.taskFault.isSome e.1 e.2) v with commits := [], faults := [] }) ∧
    (∀ maxPos i k,
      let r := w.req k
      let ts := (w.commits.filter fun c => c.slot == i).map (·.token)
      let target (g : Nat) : Nat := if 0 < g then r.prompt - 1 + g else r.prompt
      let stopAt (j : Nat) : Nat :=
        if ts.getD j 0 ∈ r.stops then 1 else if r.maxNew ≤ r.generated + j + 1 then 2
        else if maxPos < (r.position + if r.kind = 1 then r.rows else j + 1) + 1 then 3 else 0
      (∀ d f, w.faults.find? (·.slot == i) = some f → w.retire maxPos d i k = w.finish k 6 5 f.info.code) ∧
      (∀ m d, w.faults.find? (·.slot == i) = none → m ≤ ts.length → (d = true → m = 0) → (∀ j, j + 1 < m → stopAt j = 0) →
        (d = true ∨ m = ts.length ∨ (0 < m ∧ stopAt (m - 1) ≠ 0)) →
        let p := r.position + if d then 0 else if r.kind = 1 then (if m = 0 ∧ r.entryFlags % 2 = 1 then 0 else r.rows) else m
        let e := if m = 0 then 0 else stopAt (m - 1)
        let q := { r with generated := r.generated + m, draw := r.draw + m, position := p, changed := true,
                          tokens := r.tokens ++ (List.range m).map fun j => (r.prompt + r.generated + j, ts.getD j 0) }
        w.retire maxPos d i k =
          if e ≠ 0 then (w.setReq k q).finish k 4 e 0 else if r.flags % 2 = 1 then (w.setReq k q).finish k 7 4 0
          else w.setReq k (if r.state = 2 ∧ target (r.generated + m) ≤ p then { q with state := 3 } else q))) ∧
    (∀ slots rows n,
      let used := (w.reqs.filter fun e => e.2.state == 2 || e.2.state == 3).map (·.2.slot)
      ((∀ c < 4, w.queueOf c = []) → w.takeIn slots rows n = w) ∧
      ∀ c k ks, c < 4 → (∀ b < c, w.queueOf b = []) → w.queueOf c = k :: ks →
        let r := w.req k
        let fits : Prop := used.length < slots ∧ used.length < rows ∧
          if r.state = 5 ∧ r.spilled = true then r.spilling = [] else (r.position + w.tpp) / w.tpp - r.pages ≤ w.freePool.length
        (¬ fits → w.takeIn slots rows n = w) ∧
        ∀ i, fits → i < slots → i ∉ used → (∀ j < i, j ∈ used) → w.takeIn slots rows (n + 1) =
          (w.setReq k { r with slot := i, first := true, changed := true,
                               state := if r.position < (if 0 < r.generated then r.prompt - 1 + r.generated else r.prompt) then 2 else 3 }).takeIn slots rows n)

/-- An aligned access within the scratchpad or its window, to banks that no atomic reserves: LDS of a word without marks
puts the sign-extended bytes into flight with latency 4 and uses the bank's port; STS puts into flight, for issue + 2,
the store of the low bytes of g at exactly the addressed offsets. A misaligned address raises 0x040A, one out of range
0x0408 and one in a bank that an atomic reserves at the bank step 0x0109, with the address. Nothing else of the machine
changes. An aligned load within the own weight MRAM of a tile with no overlay, wrong cell or poison in its MRAM puts the
sign-extended bytes, read through the row map of the issue step, into flight with latency 12 and takes one step of the
read port; a region locked against the context raises 0x0C03, a misaligned address 0x040A, one out of range 0x0408.
Nothing else of the machine changes. (R96, R98, R102, R127, R191, R192, R193, R103, R104, R105, R194, R334) -/
def Obligations.LocalAndMramLoads : Prop :=
  (∀ (g a : BitVec 5) (z : BitVec 2) (o : BitVec 9) (s : State),
    let n : Nat := 8 / 2 ^ z.toNat
    let addr := (s.G a + BitVec.ofInt 64 (o.toInt * n)).toNat
    (addr % n ≠ 0 →
      exec (.lds g a z o) s = .next (s.trapIssue (s.fault 0x040A addr)) ∧
      exec (.sts g a z o) s = .next (s.trapIssue (s.fault 0x040A addr))) ∧
    (addr % n = 0 → spadOffset addr n = none →
      exec (.lds g a z o) s = .next (s.trapIssue (s.fault 0x0408 addr)) ∧
      exec (.sts g a z o) s = .next (s.trapIssue (s.fault 0x0408 addr))) ∧
    ∀ off, addr % n = 0 → spadOffset addr n = some off →
      (s.banksFree off n 0 = false → exec (.lds g a z o) s = .next (s.trapIssue (s.fault 0x0109 addr))) ∧
      (s.banksFree off n 2 = false → exec (.sts g a z o) s = .next (s.trapIssue (s.fault 0x0109 addr))) ∧
      (s.banksFree off n 0 = true → s.myTile.plain off n → exec (.lds g a z o) s =
        .next ((s.usePorts (wordsOf off n)).emitG 4 g.toNat (loaded (s.myTile.spadBytes off n) n))) ∧
      (s.banksFree off n 2 = true → exec (.sts g a z o) s =
        .next (s.emit 2 (.store { bytes := cellsFrom off (leBytes n (s.G g).toNat) })))) ∧
  (∀ (g a : BitVec 5) (z : BitVec 2) (o : BitVec 9) (s : State),
    let n : Nat := 8 / 2 ^ z.toNat
    let addr := (s.G a + BitVec.ofInt 64 (o.toInt * n)).toNat
    (addr % n ≠ 0 → exec (.ldm g a z o) s = .next (s.trapIssue (s.fault 0x040A addr))) ∧
    (addr % n = 0 → mramOffset addr n = none → exec (.ldm g a z o) s = .next (s.trapIssue (s.fault 0x0408 addr))) ∧
    ∀ off, addr % n = 0 → mramOffset addr n = some off →
      (s.mramLocked s.cur.tile off s.myCtx = true → exec (.ldm g a z o) s = .next (s.trapIssue (s.fault 0x0C03 addr))) ∧
      (s.mramLocked s.cur.tile off s.myCtx = false → s.myTile.overlays = [] → s.myTile.cellErrors = [] → s.myTile.mramPoison = [] →
        exec (.ldm g a z o) s =
          .next ((s.modMyTile fun x => { x with uses := x.uses ++ [{ port := 16, write := false, rank := s.accessRank }] }).emitG 12
            g.toNat (loaded (s.myTile.mramBytes off n) n))))

/-- A landing store, or a row of a TST none of whose banks an atomic reserves in the step, joins the writes of its tick,
those late after their own step first and then in the order of its unit, and changes nothing else but the ports in use
and its own flight; a row that meets an atomic, one that issues in this very step too (log 54, DEDUCED), raises 0x0109
with the offset of its first byte, and it and the later rows of its word leave the flights unperformed; when the step's
writes perform, an address within the store's bytes reads the last byte written there, and every other address of the
scratchpad reads as before, unless its word holds wrong bits, of which a write to part of a lane corrects what its code
can. With an aligned address that translates for writing, STX puts into flight for issue + 2 the write of exactly the
low bytes of g, and VSTX for issue + 3 that of exactly the active elements' bytes of v, at the physical address with the
word's scope, marked where that lies in a scratchpad aperture; the TLB may take the page, and nothing else of the
machine changes. Scope code 7 raises 0x030A, a misaligned address 0x040A, a failed translation its code. (R102, R127,
R128, R193, R259, R110, R116, R195, R238, R363, R364) -/
def Obligations.StoresLocalAndGlobal : Prop :=
  ((∀ (s : State) (f : Flight) (rest : List Flight) (w : LocalWrite),
    let t := s.arg 0
    let q := s.arg 1
    (s.seq t q).dueFlights = f :: rest → f.act = .store w → f.poison = none → f.parity = false →
    (f.unit ≠ 3 ∨ (s.tile t).rowMeets (s.seq t q).inHandler (wordsIn w.bytes) = false → ∃ us, exec .resultLanding s = .next ((s.modSeq t q (·.removeFlight f)).modTile t fun x =>
      { x with uses := us, writes := x.writes ++ [(writeKey ((s.seq t q).now - f.step) (6 * q + f.unit), w)] })) ∧
    (f.unit = 3 → (s.tile t).rowMeets (s.seq t q).inHandler (wordsIn w.bytes) = true →
      exec .resultLanding s = .next (((s.modSeq t q (·.removeFlight f)).modSeq t q fun y => y.dropFlights f.sibling).takeDue t q
        [{ f.faultOf ((s.seq t q).removeFlight f) 0x0109 with addr := (w.bytes.head?.map (·.1)).getD 0 }]))) ∧
  (∀ (x : Tile) (w : LocalWrite) (a : Nat), w.add = false →
    ((∀ b, (a, b) ∉ w.bytes) → (x.mark (a / 64)).checks = none → (x.mark (a / 64)).wrong = 0 →
      (x.applyWrite w).spadByte a = x.spadByte a) ∧
    (∀ b pre post, w.bytes = pre ++ (a, b) :: post → (∀ c, (a, c) ∉ post) → (x.applyWrite w).spadByte a = b))) ∧
  (∀ (g a : BitVec 5) (k p : BitVec 3) (e z : BitVec 2) (o v : BitVec 6) (s : State),
    let n : Nat := 8 / 2 ^ z.toNat
    let addr := (s.G a + BitVec.ofInt 64 (o.toInt * n)).toNat
    (k = 7 → exec (.stx g a k z o) s = .next (s.trapIssue (s.fault 0x030A)) ∧
      exec (.vstx e v a k p) s = .next (s.trapIssue (s.fault 0x030A))) ∧
    (k ≠ 7 → addr % n ≠ 0 → exec (.stx g a k z o) s = .next (s.trapIssue (s.fault 0x040A addr))) ∧
    (k ≠ 7 → s.N a % 64 ≠ 0 → exec (.vstx e v a k p) s = .next (s.trapIssue (s.fault 0x040A (s.N a)))) ∧
    (k ≠ 7 → addr % n = 0 → ∀ u pa nc, s.translate s.cur.tile s.cur.seq addr true = .ok (u, pa, nc) →
      exec (.stx g a k z o) s =
        .next (u.emit 2 (.global { bytes := cellsFrom pa (leBytes n (s.G g).toNat), scope := k.toNat } nc (u.onAperture pa)))) ∧
    (∀ c, k ≠ 7 → addr % n = 0 → s.translate s.cur.tile s.cur.seq addr true = .error c →
      exec (.stx g a k z o) s = .next (s.trapIssue (s.translationFault c addr))) ∧
    (∀ c, k ≠ 7 → s.N a % 64 = 0 → s.translate s.cur.tile s.cur.seq (s.N a) true = .error c →
      exec (.vstx e v a k p) s = .next (s.trapIssue (s.translationFault c (s.N a)))) ∧
    (k ≠ 7 → s.N a % 64 = 0 → ∀ u pa nc, s.translate s.cur.tile s.cur.seq (s.N a) true = .ok (u, pa, nc) →
      exec (.vstx e v a k p) s =
        .next (u.emit 3 (.global { bytes := maskedCells pa (activeMask (s.P p) (elemBytes e)) (s.V v), scope := k.toNat } nc (s.onAperture pa)))))

/-- With an aligned address that translates and a slot that is EMPTY or FULL, LDX and VLDX make it PENDING with arrival step
issue + 4 x a8, holding the sector that a load through the L1, the aperture or an NC page gives at the issue (log 15,
DEDUCED: R196 says only at the read), and its data is scheduled; a slot that is PENDING or HELD raises 0x0107, a
misaligned address 0x040A, a failed translation its code, and the slot is unchanged. On a slot that is FULL at issue, as
it stood before the bundle (log 12, DEDUCED), and carries no poison: GETL and GETL.PK put the sign-extended bytes at
their offset into flight with latency 1, VGETL the 64 bytes with latency 2; the forms that keep change nothing else, the
others leave the slot EMPTY; on a slot in any other state the read raises 0x0106. (R110, R115, R53, R196, R236, R54,
R197, R237) -/
def Obligations.GlobalLoadsAndTheirSlots : Prop :=
  (∀ (l : BitVec 4) (a : BitVec 5) (t : BitVec 8) (z : BitVec 2) (s : State),
    let addr := s.N a
    let hit := (s.me.tlbFind addr).isSome
    let holds (i : Instr) (n : Nat) : Prop :=
      (addr % n ≠ 0 → exec i s = .next (s.trapIssue (s.fault 0x040A addr))) ∧
      (∀ c, addr % n = 0 → s.translate s.cur.tile s.cur.seq addr false = .error c →
        exec i s = .next (s.trapIssue (s.translationFault c addr))) ∧
      ∀ u pa nc, addr % n = 0 → s.translate s.cur.tile s.cur.seq addr false = .ok (u, pa, nc) →
        ((u.me.landing l.toNat).accepts = false → exec i s = .next (s.trapIssue (s.fault 0x0107))) ∧
        ∀ w d p m, (u.me.landing l.toNat).accepts = true → u.loadSector s.cur.tile s.cur.seq pa n nc hit = (w, d, p, m) →
          ∃ x, exec i s = .next x ∧ x = w.requestSlot l.toNat (w.me.now + 4 * t.toNat) m d (seenAt p addr) pa ∧
            (x.me.landing l.toNat).st = .pending ∧ (x.me.landing l.toNat).data = d ∧
            (x.me.landing l.toNat).arrival = w.me.now + 4 * t.toNat
    holds (.ldx l a t z) (8 / 2 ^ z.toNat) ∧ holds (.vldx l a t) 64) ∧
  (∀ (d : BitVec 5) (v : BitVec 6) (l : BitVec 4) (z : BitVec 2) (o : BitVec 6) (s : State),
    let x := mget {} s.cur.slots l.toNat
    let n : Nat := 8 / 2 ^ z.toNat
    let val := loaded (((vecBytes x.data).drop o.toNat).take n) n
    (x.st ≠ .full →
      exec (.getl d l z o) s = .next (s.trapIssue (s.fault 0x0106)) ∧ exec (.getlPk d l z o) s = .next (s.trapIssue (s.fault 0x0106)) ∧
      ∀ k, exec (.vgetl v l k) s = .next (s.trapIssue (s.fault 0x0106))) ∧
    (x.st = .full → x.poison = none → s.me.landing l.toNat = x →
      exec (.getlPk d l z o) s = .next (s.emitG 1 d.toNat val) ∧
      exec (.getl d l z o) s =
        .next ((s.emitG 1 d.toNat val).modMe fun y => y.setLanding l.toNat { y.landing l.toNat with st := .empty }) ∧
      exec (.vgetl v l 1) s = .next (s.emit 2 (.v (s.me.physV v.toNat) (BitVec.allOnes 64) x.data)) ∧
      exec (.vgetl v l 0) s = .next ((s.emit 2 (.v (s.me.physV v.toNat) (BitVec.allOnes 64) x.data)).modMe fun y =>
        y.setLanding l.toNat { y.landing l.toNat with st := .empty })))

/-- For every element size, each active element of the destination takes the sum or difference modulo 2^es, the signed sum
or difference clamped to the element's range, the low or the high es bits of the signed product; inactive elements keep
their bytes; latency 2, of the products 4; no flag is raised and nothing else of the machine changes. For every element
size, each active element takes the smaller or larger operand, signed or unsigned, the absolute difference of the
unsigned values, the bitwise result, the operand shifted by B or the immediate modulo es, or the funnel of D and A, D
being the destination's old element and the high source; latency 2; nothing else of the machine changes. (R173, R212,
R213, R214, R215, R216) -/
def Obligations.VectorIntegerLanes : Prop :=
  (∀ (e : BitVec 2) (d a b : BitVec 6) (p : BitVec 3) (s : State),
    let n := elemBits e
    let A := elem n (s.V a)
    let B := elem n (s.V b)
    let clamp (x : Int) : BitVec n := BitVec.ofInt n (max (-(2 ^ (n - 1))) (min x (2 ^ (n - 1) - 1)))
    s.answersLanes (exec (.vadd e d a b p) s) 2 d p n (fun i => A i + B i) ∧
    s.answersLanes (exec (.vsub e d a b p) s) 2 d p n (fun i => A i - B i) ∧
    s.answersLanes (exec (.vadds e d a b p) s) 2 d p n (fun i => clamp ((A i).toInt + (B i).toInt)) ∧
    s.answersLanes (exec (.vsubs e d a b p) s) 2 d p n (fun i => clamp ((A i).toInt - (B i).toInt)) ∧
    s.answersLanes (exec (.vmul e d a b p) s) 4 d p n (fun i => A i * B i) ∧
    s.answersLanes (exec (.vmulh e d a b p) s) 4 d p n
      (fun i => ((A i).signExtend (2 * n) * (B i).signExtend (2 * n)).extractLsb' n n)) ∧
  (∀ (e : BitVec 2) (d a b i6 : BitVec 6) (p : BitVec 3) (s : State),
    let n := elemBits e
    let A := elem n (s.V a)
    let B := elem n (s.V b)
    let D := elem n (s.V d)
    let sh (i : Nat) : Nat := (B i).toNat % n
    s.answersLanes (exec (.vmin e d a b p) s) 2 d p n (fun i => if (A i).slt (B i) then A i else B i) ∧
    s.answersLanes (exec (.vmax e d a b p) s) 2 d p n (fun i => if (A i).slt (B i) then B i else A i) ∧
    s.answersLanes (exec (.vminu e d a b p) s) 2 d p n (fun i => if A i < B i then A i else B i) ∧
    s.answersLanes (exec (.vmaxu e d a b p) s) 2 d p n (fun i => if A i < B i then B i else A i) ∧
    s.answersLanes (exec (.vabsd e d a b p) s) 2 d p n (fun i => if A i < B i then B i - A i else A i - B i) ∧
    s.answersLanes (exec (.vand e d a b p) s) 2 d p n (fun i => A i &&& B i) ∧
    s.answersLanes (exec (.vor e d a b p) s) 2 d p n (fun i => A i ||| B i) ∧
    s.answersLanes (exec (.vxor e d a b p) s) 2 d p n (fun i => A i ^^^ B i) ∧
    s.answersLanes (exec (.vandn e d a b p) s) 2 d p n (fun i => A i &&& ~~~ B i) ∧
    s.answersLanes (exec (.vshl e d a b p) s) 2 d p n (fun i => A i <<< sh i) ∧
    s.answersLanes (exec (.vshr e d a b p) s) 2 d p n (fun i => A i >>> sh i) ∧
    s.answersLanes (exec (.vshra e d a b p) s) 2 d p n (fun i => (A i).sshiftRight (sh i)) ∧
    s.answersLanes (exec (.vshli e d a i6 p) s) 2 d p n (fun i => A i <<< (i6.toNat % n)) ∧
    s.answersLanes (exec (.vshri e d a i6 p) s) 2 d p n (fun i => A i >>> (i6.toNat % n)) ∧
    s.answersLanes (exec (.vfshl e d a b p) s) 2 d p n (fun i => ((D i ++ A i) <<< sh i).extractLsb' n n) ∧
    s.answersLanes (exec (.vfshr e d a b p) s) 2 d p n (fun i => ((D i ++ A i) >>> sh i).extractLsb' 0 n))

/-- The compares write every bit of the predicate, an active element's bits by its comparison and all others 0, and p0 takes
none; VSEL writes every element, of va where active and of vb elsewhere; the others write the active elements: the splat
ga + i7 modulo 2^es, the element of va that vb names modulo n, the element k above or below or 0 beyond the ends, the
difference to the element below (the first to the last element of vb), and the running sum from the last element of vb;
latency 2, of the moves and sums 3; nothing else changes. (R173, R213, R217, R218, R219, R220, R221, R222) -/
def Obligations.VectorComparesSelectsAndMoves : Prop :=
  ∀ (e : BitVec 2) (d a b k : BitVec 6) (pd p : BitVec 3) (g : BitVec 5) (i7 : BitVec 7) (s : State),
    let n := elemBits e
    let m := 512 / n
    let A := elem n (s.V a)
    let B := elem n (s.V b)
    s.answersTruths (exec (.vcmpeq e pd a b p) s) pd p n (fun i => A i == B i) ∧
    s.answersTruths (exec (.vcmplt e pd a b p) s) pd p n (fun i => (A i).slt (B i)) ∧
    s.answersTruths (exec (.vcmpltu e pd a b p) s) pd p n (fun i => (A i).ult (B i)) ∧
    (∃ val, exec (.vsel e d a b p) s = .next (s.emit 2 (.v (s.me.physV d.toNat) (BitVec.allOnes 64) val)) ∧
      ∀ i < m, elem n val i = if activeElem (s.P p) n i then A i else B i) ∧
    s.answersLanes (exec (.vsplat e d g i7 p) s) 2 d p n (fun _ => (s.G g + i7.setWidth 64).setWidth n) ∧
    s.answersLanes (exec (.vperm e d a b p) s) 3 d p n (fun i => A ((B i).toNat % m)) ∧
    s.answersLanes (exec (.vsldn e d a k p) s) 3 d p n (fun i => if i + k.toNat < m then A (i + k.toNat) else 0) ∧
    s.answersLanes (exec (.vslup e d a k p) s) 3 d p n (fun i => if k.toNat ≤ i then A (i - k.toNat) else 0) ∧
    s.answersLanes (exec (.vdelta e d a b p) s) 3 d p n (fun i => A i - (if i = 0 then B (m - 1) else A (i - 1))) ∧
    s.answersLanes (exec (.vpsum e d a b p) s) 3 d p n
      (fun i => (List.range (i + 1)).foldl (fun t j => t + A j) (B (m - 1)))

/-- For binary16 and binary32: each active element takes the rounded sum, difference, product or fused product under FPRM
read at issue, the larger or smaller number, the reciprocal, the power of two, or the converted value, as the formats
chapter computes it; the flags of the active elements are ORed and land with the result; the compares write their
predicate and flags; inactive elements keep their bytes; latency 4, of the functions 8, of the compares 2; nothing else
of the machine changes. (R149, R150, R151, R213, R223, R224, R225, R226, R227) -/
def Obligations.VectorFloatOperations : Prop :=
  ∀ (e : BitVec 2) (d a b : BitVec 6) (pd p : BitVec 3) (s : State),
    let n := elemBits e
    let F := if e = 1 then b16 else b32
    let rm := s.me.fprm.toNat
    let A (i : Nat) : Nat := (elem n (s.V a) i).toNat
    let B (i : Nat) : Nat := (elem n (s.V b) i).toNat
    let D (i : Nat) : Nat := (elem n (s.V d) i).toNat
    let compares (i : Instr) (f : Nat → Bool × FFlags) : Prop :=
      ∃ val : W64, ∃ fl : FFlags, exec i s = .next (s.emitFlags 2 (.p (if pd = 0 then 0 else s.me.physP pd.toNat) val) fl) ∧
        (∀ k < 64, val.getLsbD k = (activeElem (s.P p) n (8 * k / n) && (f (8 * k / n)).1)) ∧
        ∀ j, FFlags.has fl j = (List.range (512 / n)).any fun i => activeElem (s.P p) n i && FFlags.has (f i).2 j
    s.answersFloats (exec (.vfadd e d a b p) s) 4 d p n (fun i => F.add rm (A i) (B i)) ∧
    s.answersFloats (exec (.vfsub e d a b p) s) 4 d p n (fun i => F.sub rm (A i) (B i)) ∧
    s.answersFloats (exec (.vfmul e d a b p) s) 4 d p n (fun i => F.mul rm (A i) (B i)) ∧
    s.answersFloats (exec (.vfma e d a b p) s) 4 d p n (fun i => F.fma rm (A i) (B i) (D i)) ∧
    s.answersFloats (exec (.vfmax e d a b p) s) 4 d p n (fun i => F.pick true (A i) (B i)) ∧
    s.answersFloats (exec (.vfmin e d a b p) s) 4 d p n (fun i => F.pick false (A i) (B i)) ∧
    compares (.vfcmplt e pd a b p) (fun i => F.lt (A i) (B i)) ∧ compares (.vfcmpeq e pd a b p) (fun i => F.eq (A i) (B i)) ∧
    s.answersFloats (exec (.vfrcp e d a p) s) 8 d p n (fun i => rcpOf e (A i)) ∧
    s.answersFloats (exec (.vfexp2 e d a p) s) 8 d p n (fun i => exp2Of e (A i)) ∧
    s.answersFloats (exec (.vfcvtH d a b p) s) 4 d p 16 (fun i =>
      b32.convert b16 rm (if i < 16 then (elem 32 (s.V a) i).toNat else (elem 32 (s.V b) (i - 16)).toNat)) ∧
    s.answersFloats (exec (.vfcvtW d a p) s) 4 d p 32 (fun i => b16.convert b32 rm (elem 16 (s.V a) i).toNat) ∧
    s.answersFloats (exec (.vcvtif e d a p) s) 4 d p n (fun i => F.ofInt rm (elem n (s.V a) i).toInt) ∧
    s.answersFloats (exec (.vcvtfi e d a p) s) 4 d p n (fun i => F.toInt rm n (A i))

/-- VRMAX and VRSUM write the largest signed or the sum modulo 2^es of the active elements (the most negative number or 0 of
none) into element 0 and 0 into every other; the floating reductions write the tree result of the active elements (+0 or
minus infinity of none), with its flags, likewise; latency 6. Each active element takes under VGMAX the largest unsigned
active element of its group of 2^g, under VCLZ its count of leading zero bits, under VHASH the hash of ga, its own draw
index and its lane index; nothing else changes. VBSCALE writes, into each of the sixteen lanes whatever the predicate,
the smallest scale that brings the largest magnitude of the active lanes to the target in lane 0 of vb, or 0x7F00 with
NV for a NaN or another target, with latency 6; VNARROW writes, with latency 5, the packed bits and the residue of each
active lane as R158 computes them from lane, residue and scale, leaves those of inactive lanes, and raises only the
flags that R158 gives; nothing else changes. (R153, R159, R213, R230, R231, R232, R233, R142, R157, R158, R228, R229) -/
def Obligations.VectorReductionsScalesAndNarrowing : Prop :=
  (∀ (e : BitVec 2) (d a i6 : BitVec 6) (p : BitVec 3) (g : BitVec 5) (i7 : BitVec 7) (s : State),
    let n := elemBits e
    let m := 512 / n
    let F := if e = 1 then b16 else b32
    let A := elem n (s.V a)
    let act := (List.range m).filter fun i => activeElem (s.P p) n i
    let reduces (i : Instr) (r : BitVec n) (fl : FFlags) : Prop :=
      ∃ val sh, exec i s = .next (s.emitFlight { s.flight 6 (.v (s.me.physV d.toNat) (BitVec.allOnes 64) val) with flags := fl, shadow := sh }) ∧
        elem n val 0 = r ∧ ∀ i, 0 < i → i < m → elem n val i = 0
    let tree (op : Nat → Nat → Nat × FFlags) : Option Nat × FFlags :=
      treeReduce op (if e = 2 then 4 else 5)
        ((List.range m).map fun i => if activeElem (s.P p) n i then some (A i).toNat else none) 0
    reduces (.vrmax e d a p) (BitVec.ofInt n (act.foldl (fun x i => max x (A i).toInt) (-(2 ^ (n - 1))))) 0 ∧
    reduces (.vrsum e d a p) (act.foldl (fun x i => x + A i) 0) 0 ∧
    (e = 1 ∨ e = 2 →
      reduces (.vfrsum e d a p) (BitVec.ofNat n ((tree (F.add 0)).1.getD 0)) (tree (F.add 0)).2 ∧
      reduces (.vfrmax e d a p) (BitVec.ofNat n ((tree (F.pick true)).1.getD (F.inf true))) (tree (F.pick true)).2) ∧
    s.answersLanes (exec (.vgmax e d a i6 p) s) 4 d p n (fun i =>
      (act.filter fun j => j / 2 ^ min i6.toNat (Nat.log2 m) == i / 2 ^ min i6.toNat (Nat.log2 m)).foldl
        (fun x j => if x < A j then A j else x) 0) ∧
    (∃ c : Nat → Nat, s.answersLanes (exec (.vclz e d a p) s) 2 d p n (fun i => BitVec.ofNat n (c i)) ∧
      ∀ i, c i ≤ n ∧ (∀ k, n - c i ≤ k → (A i).getLsbD k = false) ∧ (c i < n → (A i).getLsbD (n - 1 - c i) = true)) ∧
    s.answersLanes (exec (.vhash d g i7 p) s) 6 d p 64 (fun i =>
      BitVec.ofNat 64 (hash64 (s.G g).toNat (elem 64 (s.V d) i).toNat (8 * i7.toNat + i)))) ∧
  (∀ (d a b : BitVec 6) (q m p : BitVec 3) (s : State), m.toNat % 4 ≠ 3 →
    let k := blockScale (s.P p) (s.V a) (s.V b)
    let w : Nat := if m.toNat % 4 = 0 then 8 else if m.toNat % 4 = 1 then 6 else 4
    let vs := s.me.readV ((a.toNat + 1) % 64)
    let R (i : Nat) : Int × Nat × FFlags :=
      narrowLane m.toNat (elem 32 (s.V a) i).toNat (elem 32 (mget 0 s.me.q q.toNat) i).toNat ((elem 32 vs i).toNat % 65536)
    (∃ val, exec (.vbscale d a b p) s =
        .next (s.emitFlags 6 (.v (s.me.physV d.toNat) (BitVec.allOnes 64) val) (if k = 0x7F00 then 16 else 0)) ∧
      ∀ i < 16, elem 32 val i = BitVec.ofNat 32 k) ∧
    (∃ mask val qmask qval fl, exec (.vnarrow d a q m p) s =
        .next (s.emitFlags 5 (.narrow (s.me.physV d.toNat) mask val q.toNat qmask qval) fl) ∧
      (∀ j < 512, mask.getLsbD j = (decide (j < 16 * w) && activeElem (s.P p) 32 (j / w))) ∧
      (∀ i < 16, activeElem (s.P p) 32 i = true → elem w val i = BitVec.ofInt w (R i).1) ∧
      (∀ j < 64, qmask.getLsbD j = activeElem (s.P p) 32 (j / 4)) ∧
      (∀ i < 16, elem 32 qval i = BitVec.ofNat 32 (R i).2.1) ∧
      ∀ j, FFlags.has fl j = (List.range 16).any fun i => activeElem (s.P p) 32 i && FFlags.has (R i).2.2 j))

/-- With a good address (a multiple of 64, for VLDU and VSTU any) in the scratchpad or its window, banks that no atomic
reserves and words without marks: the loads put the 64 bytes into flight for the active elements' byte lanes with
latency 6 and use their banks' ports; the stores put into flight, for issue + 3, the write of exactly the active
elements' bytes, which takes the banks of those bytes (log 88, DEDUCED), and do nothing when none is active; VLDM reads
weight MRAM with latency 14. A misaligned address raises 0x040A, one out of range 0x0408, a scratchpad access in a bank
that an atomic reserves at the bank step 0x0109, VLDM of a locked region 0x0C03, with the address. With every active
element's address aligned to the element, in the scratchpad or its window, and in banks that no atomic reserves: VGATH
of words without marks puts each active element's bytes into flight with latency 10 and reads each word once; VSCAT puts
into flight for issue + 4 the write of exactly the active elements' bytes, element by element ascending, and does
nothing when none is active. The first active element that is misaligned or out of range raises 0x040A or 0x0408 with
its address; else an active element in a bank that an atomic reserves at the bank step raises 0x0109. (R96, R98, R102,
R104, R127, R234, R128, R235) -/
def Obligations.VectorMemory : Prop :=
  (∀ (e : BitVec 2) (v : BitVec 6) (a : BitVec 5) (o : BitVec 7) (p : BitVec 3) (s : State),
    let ea := (s.G a + BitVec.ofInt 64 (o.toInt * 64)).toNat
    let eu := (s.G a + BitVec.ofInt 64 o.toInt).toNat
    let mask := activeMask (s.P p) (elemBytes e)
    let reads (i : Instr) (x : Nat) : Prop :=
      (spadOffset x 64 = none → exec i s = .next (s.trapIssue (s.fault 0x0408 x))) ∧
      ∀ off, spadOffset x 64 = some off → (s.banksFree off 64 0 = false → exec i s = .next (s.trapIssue (s.fault 0x0109 x))) ∧
       (s.banksFree off 64 0 = true → s.myTile.plain off 64 →
        exec i s = .next ((s.usePorts (wordsOf off 64)).emit 6 (.v (s.me.physV v.toNat) mask (bytesVec (s.myTile.spadBytes off 64)))))
    let writes (i : Instr) (x : Nat) : Prop :=
      (spadOffset x 64 = none → exec i s = .next (s.trapIssue (s.fault 0x0408 x))) ∧
      ∀ off, spadOffset x 64 = some off →
       (s.wordsFree (wordsIn (maskedCells off mask (s.V v))) 3 = false → exec i s = .next (s.trapIssue (s.fault 0x0109 x))) ∧
       (s.wordsFree (wordsIn (maskedCells off mask (s.V v))) 3 = true →
        exec i s = .next (if mask = 0 then s else s.emit 3 (.store { bytes := maskedCells off mask (s.V v) })))
    (ea % 64 ≠ 0 → exec (.vld e v a o p) s = .next (s.trapIssue (s.fault 0x040A ea)) ∧
      exec (.vst e v a o p) s = .next (s.trapIssue (s.fault 0x040A ea)) ∧
      exec (.vldm e v a o p) s = .next (s.trapIssue (s.fault 0x040A ea))) ∧
    (ea % 64 = 0 → reads (.vld e v a o p) ea ∧ writes (.vst e v a o p) ea ∧
      (mramOffset ea 64 = none → exec (.vldm e v a o p) s = .next (s.trapIssue (s.fault 0x0408 ea))) ∧
      (∀ off, mramOffset ea 64 = some off → s.mramLocked s.cur.tile off s.myCtx = true →
        exec (.vldm e v a o p) s = .next (s.trapIssue (s.fault 0x0C03 ea))) ∧
      ∀ off, mramOffset ea 64 = some off → s.mramLocked s.cur.tile off s.myCtx = false → s.myTile.overlays = [] →
        s.myTile.cellErrors = [] → s.myTile.mramPoison = [] → exec (.vldm e v a o p) s =
          .next ((s.modMyTile fun x => { x with uses := x.uses ++ [{ port := 16, write := false, rank := s.accessRank }] }).emit 14
            (.v (s.me.physV v.toNat) mask (bytesVec (s.myTile.mramBytes off 64))))) ∧
    reads (.vldu e v a o p) eu ∧ writes (.vstu e v a o p) eu ∧
    (∀ off (mk : BitVec 64) (x : Vec) (k : Nat), k < 64 → ∀ c, (off + k, c) ∈ maskedCells off mk x ↔ mk.getLsbD k = true ∧ c = x.extractLsb' (8 * k) 8)) ∧
  (∀ (e : BitVec 2) (v : BitVec 6) (a : BitVec 5) (o : BitVec 7) (p : BitVec 3) (s : State),
    let n := elemBytes e
    let idx := s.me.readV ((v.toNat + 1) % 64)
    let ea (i : Nat) : Nat := (s.G a + BitVec.ofInt 64 (o.toInt * 64)).toNat + (elem (8 * n) idx i).toNat
    let act := (List.range (64 / n)).filter fun i => activeElem (s.P p) (8 * n) i
    (∀ off : Nat → Nat, (∀ i ∈ act, ea i % n = 0 ∧ spadOffset (ea i) n = some (off i)) →
      ((∃ i ∈ act, s.banksFree (off i) n 0 = false) → exec (.vgath e v a o p) s = .next (s.trapIssue (s.fault 0x0109))) ∧
      ((∃ i ∈ act, s.banksFree (off i) n 4 = false) → exec (.vscat e v a o p) s = .next (s.trapIssue (s.fault 0x0109))) ∧
      ((∀ i ∈ act, s.banksFree (off i) n 0 = true ∧ s.myTile.plain (off i) n) →
        ∃ val, exec (.vgath e v a o p) s = .next ((s.usePorts ((act.map fun i => off i / 64).dedup)).emit 10
            (.v (s.me.physV v.toNat) (activeMask (s.P p) n) val)) ∧
          ∀ i ∈ act, (elem (8 * n) val i).toNat = leNat (s.myTile.spadBytes (off i) n)) ∧
      ((∀ i ∈ act, s.banksFree (off i) n 4 = true) → exec (.vscat e v a o p) s =
        .next (if act = [] then s
          else s.emit 4 (.store { bytes := act.flatMap fun i => cellsFrom (off i) (leBytes n (elem (8 * n) (s.V v) i).toNat) })))) ∧
    ∀ i pre post, act = pre ++ i :: post → (∀ j ∈ pre, ea j % n = 0 ∧ (spadOffset (ea j) n).isSome) →
      (ea i % n ≠ 0 → exec (.vgath e v a o p) s = .next (s.trapIssue (s.fault 0x040A (ea i))) ∧
        exec (.vscat e v a o p) s = .next (s.trapIssue (s.fault 0x040A (ea i)))) ∧
      (ea i % n = 0 → spadOffset (ea i) n = none → exec (.vgath e v a o p) s = .next (s.trapIssue (s.fault 0x0408 (ea i))) ∧
        exec (.vscat e v a o p) s = .next (s.trapIssue (s.fault 0x0408 (ea i)))))

/-- For binary16 and binary32 and each mode of R150: a positive value, the sum, difference, product and fused product of
finite operands, a conversion between the formats and one from an integer deliver the bits and flags of IEEE 754 for the
exact result: the value rounded once to a multiple of its last place, overflow with OF and NX, NX where it is inexact,
UF where it is inexact and tiny after rounding, an exact zero with its sign. Infinities give infinities, or the
canonical NaN with NV; a NaN operand gives the canonical NaN, with NV if one signals; zero times infinity is invalid
whatever the addend. A conversion to an integer rounds by the mode, saturates with NV, and has NX where it is inexact;
NaN gives 0 with NV. (R149, R150, R151, R161) -/
def Obligations.FloatsByTheirExactValues : Prop :=
  (b16.nan = 0x7E00 ∧ b32.nan = 0x7FC00000 ∧ b16.inf false = 0x7C00 ∧ b32.inf false = 0x7F800000) ∧
  ∀ (f g : Fmt) (rm a b d : Nat), f = b16 ∨ f = b32 → g = b16 ∨ g = b32 → rm < 4 →
    a < 2 ^ f.width → b < 2 ^ f.width → d < 2 ^ f.width →
    let va := f.value a
    let vb := f.value b
    let vd := f.value d
    let na := f.negative a
    let nb := f.negative b
    let nd := f.negative d
    let quiet (h : Fmt) (r : Nat × FFlags) (signalling : Prop) : Prop := r.1 = h.nan ∧ (signalling → r.2 = fNV) ∧ (¬ signalling → r.2 = 0)
    let invalid : Nat × FFlags := (f.nan, fNV)
    let down := decide (rm = 3)
    let zeroInf : Prop := (f.infinite a ∧ f.finite b ∧ vb = 0) ∨ (f.finite a ∧ va = 0 ∧ f.infinite b)
    let nans : Prop := f.notNumber a ∨ f.notNumber b ∨ f.notNumber d
    (∀ (neg : Bool) (num den : Nat) (e : ℤ), 0 < num → 0 < den →
      f.delivers rm ((if neg then -1 else 1) * ((num : ℚ) / den * 2 ^ e)) neg (f.round rm neg num den e)) ∧
    (f.notNumber a ∨ f.notNumber b →
      ∀ r ∈ [f.add rm a b, f.sub rm a b, f.mul rm a b], quiet f r (f.signals a ∨ f.signals b)) ∧
    (f.infinite a → f.infinite b → f.mul rm a b = (f.inf (na != nb), 0) ∧
      (na = nb → f.add rm a b = (a, 0) ∧ f.sub rm a b = invalid) ∧ (na ≠ nb → f.add rm a b = invalid ∧ f.sub rm a b = (a, 0))) ∧
    (f.infinite a → f.finite b → f.add rm a b = (a, 0) ∧ f.sub rm a b = (a, 0) ∧
      f.mul rm a b = if vb = 0 then invalid else (f.inf (na != nb), 0)) ∧
    (f.finite a → f.infinite b → f.add rm a b = (b, 0) ∧ f.sub rm a b = (f.inf !nb, 0) ∧
      f.mul rm a b = if va = 0 then invalid else (f.inf (na != nb), 0)) ∧
    (f.finite a → f.finite b →
      f.delivers rm (va + vb) (if va = 0 ∧ vb = 0 ∧ na = nb then na else down) (f.add rm a b) ∧
      f.delivers rm (va - vb) (if va = 0 ∧ vb = 0 ∧ na ≠ nb then na else down) (f.sub rm a b) ∧
      f.delivers rm (va * vb) (na != nb) (f.mul rm a b)) ∧
    (zeroInf → f.fma rm a b d = invalid) ∧
    (¬ zeroInf → nans → quiet f (f.fma rm a b d) (f.signals a ∨ f.signals b ∨ f.signals d)) ∧
    (¬ zeroInf → ¬ nans → f.infinite a ∨ f.infinite b →
      (f.infinite d → nd ≠ (na != nb) → f.fma rm a b d = invalid) ∧
      (f.finite d ∨ nd = (na != nb) → f.fma rm a b d = (f.inf (na != nb), 0))) ∧
    (f.finite a → f.finite b → f.infinite d → f.fma rm a b d = (d, 0)) ∧
    (f.finite a → f.finite b → f.finite d →
      f.delivers rm (va * vb + vd) (if va * vb = 0 ∧ vd = 0 ∧ (na != nb) = nd then nd else down) (f.fma rm a b d)) ∧
    (f.notNumber a → quiet g (f.convert g rm a) (f.signals a)) ∧
    (f.infinite a → f.convert g rm a = (g.inf na, 0)) ∧
    (f.finite a → g.delivers rm va na (f.convert g rm a)) ∧
    (∀ v : ℤ, f.delivers rm v false (f.ofInt rm v)) ∧
    (∀ w, 1 ≤ w → w ≤ 64 →
      let lo : ℤ := -2 ^ (w - 1)
      let hi : ℤ := 2 ^ (w - 1) - 1
      let n : ℤ := (if va < 0 then -1 else 1) * roundMag rm (decide (va < 0)) |va|
      let whole (v : ℤ) : Nat := (v % 2 ^ w).toNat
      (f.notNumber a → f.toInt rm w a = (0, fNV)) ∧
      (f.infinite a → f.toInt rm w a = (whole (if na then lo else hi), fNV)) ∧
      (f.finite a → f.toInt rm w a =
        if n < lo then (whole lo, fNV) else if hi < n then (whole hi, fNV) else (whole n, if (n : ℚ) = va then 0 else fNX)))

/-- On a finite binary32 value other than 0 VFRCP follows the steps of R154, VFEXP2 on any finite one those of R155, each
step the exact value rounded to nearest even, table entries by their exact values; zeros, infinities and NaN as their
tables say; on binary16 both go by binary32 and round once more (R156). The tree of R153 combines lane i with lane i +
n/2 of each stage, and ORs the flags of all. A block scale for targets 127, 31 and 7 is Bs16Up of the largest active
magnitude, 0x7F00 for any other target (with no active element too: log 76, DEDUCED). A narrowed lane and its residue
are those of R158; Hash64 of R159 in words of 64 bits; an element folded by ACCSCL is the rounded sum of R147, or NaN.
(R142, R147, R153, R154, R155, R156, R157, R158, R159, R240) -/
def Obligations.NumberFunctions : Prop :=
  let near (v : ℚ) : ℚ := b32.rounded 0 v
  let V (x : Nat) : ℚ := b32.value x
  let isNan (h : Fmt) (x : Nat) (r : Nat × FFlags) : Prop := r.1 = h.nan ∧ (h.signals x → r.2 = fNV) ∧ (¬ h.signals x → r.2 = 0)
  let scaled (v : ℚ) (neg : Bool) (extra : FFlags) (r : Nat × FFlags) : Prop := ∃ fl, b32.delivers 0 v neg (r.1, fl) ∧ r.2 = fl ||| extra
  (∀ x < 2 ^ 32, let neg := b32.negative x
    (b32.notNumber x → isNan b32 x (rcp32 x) ∧ isNan b32 x (exp2f x)) ∧
    (b32.infinite x → rcp32 x = (b32.signBit neg, 0) ∧ exp2f x = (if neg then 0 else b32.inf false, 0)) ∧
    (b32.finite x → V x = 0 → rcp32 x = (b32.inf neg, fDZ)) ∧
    (b32.finite x → V x ≠ 0 →
      let E := Int.log 2 |V x|
      let m := |V x| / 2 ^ E
      let j := ⌊(m - 1) * 64⌋
      let T := near (128 / (129 + 2 * j))
      let d := near (m - (1 + (2 * j + 1) / 128))
      let u := near (d * T)
      let a := near (1 - u)
      let b := near (u * a - 1)
      let c := near (u * b + 1)
      scaled ((if neg then -1 else 1) * near (T * c) * 2 ^ (-E)) neg fNX (rcp32 x)) ∧
    (b32.finite x → ∀ table : ℕ → ℕ,
      (∀ j < 64, (2 * table j - 1) ^ 64 < 2 ^ (24 * 64 + j) ∧ 2 ^ (24 * 64 + j) < (2 * table j + 1) ^ 64) →
      let k : ℤ := (if V x < 0 then -1 else 1) * roundMag 0 (decide (V x < 0)) |64 * V x|
      let f := V x - k / 64
      let e : ℚ := table (k % 64).toNat / 2 ^ 23
      let p := near (f * near (f * near (f * V 0x3D635847 + V 0x3E75FDF0) + V 0x3F317218))
      scaled (near (e * p + e) * 2 ^ (k / 64)) false (if (⌊V x⌋ : ℚ) = V x then 0 else fNX) (exp2f x))) ∧
  (∀ x < 2 ^ 16, ∀ w < 2 ^ 32, ∀ q : Bool, let big := if q then rcp32 w else exp2f w
    let r := if q then rcpOf 1 x else exp2Of 1 x
    let kept := big.2 &&& (fNX ||| fDZ ||| fNV)
    (b16.notNumber x → isNan b16 x r) ∧
    (¬ b16.notNumber x → (b16.infinite x ↔ b32.infinite w) → (b16.finite x ↔ b32.finite w) → b16.negative x = b32.negative w →
      (b16.finite x → b16.value x = V w) →
      (b32.infinite big.1 → r = (b16.inf (b32.negative big.1), kept)) ∧
      (b32.finite big.1 → ∃ fl, b16.delivers 0 (V big.1) (b32.negative big.1) (r.1, fl) ∧ r.2 = fl ||| kept))) ∧
  (∀ x, rcpOf 2 x = rcp32 x ∧ exp2Of 2 x = exp2f x) ∧
  (∀ (f : Nat → Nat → Nat × FFlags) (n : Nat) (ws : List (Option Nat)) (fl0 : FFlags) (w : Nat → Nat → Option Nat) (fl : Nat → Nat → FFlags),
    ws.length = 2 ^ n → (∀ i < 2 ^ n, ws[i]? = some (w 0 i)) →
    (∀ s < n, ∀ i < 2 ^ (n - 1 - s), (w (s + 1) i, fl s i) = match w s i, w s (i + 2 ^ (n - 1 - s)) with
      | none, y => (y, 0)
      | x, none => (x, 0)
      | some x, some y => (some (f x y).1, (f x y).2)) →
    (treeReduce f n ws fl0).1 = w n 0 ∧
      ∀ k, FFlags.has (treeReduce f n ws fl0).2 k = true ↔
        FFlags.has fl0 k = true ∨ ∃ s < n, ∃ i < 2 ^ (n - 1 - s), FFlags.has (fl s i) k = true) ∧
  (∀ (am q : Nat), am < 2 ^ 31 → q ∈ [127, 31, 7] →
    (¬ b32.finite am → bs16Up am q = 0x7F00) ∧ (V am = 0 → bs16Up am q = 0) ∧
    (b32.finite am → V am ≠ 0 →
      let sc := V am / q
      let E := Int.log 2 sc
      let f := ⌈(sc / 2 ^ E - 1) * 256⌉
      let e := (if f = 256 then E + 1 else E) + 63
      bs16Up am q = if e < 1 then 0x0100 else if 126 < e then 0x7EFF else (e * 256 + if f = 256 then 0 else f).toNat)) ∧
  (∀ (p : W64) (va vb : Vec), let act (i : Nat) : Prop := i < 16 ∧ activeElem p 32 i = true
    let mag (i : Nat) : Nat := (elem 32 va i).toNat % 2 ^ 31
    (∀ q k, (k, q) ∈ [(0x42FE0000, 127), (0x41F80000, 31), (0x40E00000, 7)] → (elem 32 vb 0).toNat = k →
      ((∃ i, act i ∧ b32.notNumber (mag i)) → blockScale p va vb = 0x7F00) ∧
      ((∀ i, act i → ¬ b32.notNumber (mag i)) → ∀ am, (∀ i, act i → mag i ≤ am) → (am = 0 ∨ ∃ i, act i ∧ mag i = am) →
        blockScale p va vb = bs16Up am q)) ∧
    ((elem 32 vb 0).toNat ∉ [0x42FE0000, 0x41F80000, 0x40E00000] → blockScale p va vb = 0x7F00)) ∧
  (∀ mode xin q b : Nat, mode < 8 → mode % 4 ≠ 3 → xin < 2 ^ 32 → q < 2 ^ 32 → b < 2 ^ 16 →
    let lo : ℤ := [-128, -32, -8].getD (mode % 4) 0
    let hi : ℤ := [127, 31, 7].getD (mode % 4) 0
    let x := (b32.add 0 xin q).1
    let s := scaleValue b
    (scalePoison b ∨ b32.notNumber x → narrowLane mode xin q b = (0, 0, fNV)) ∧
    (¬ scalePoison b → b32.infinite x → narrowLane mode xin q b = (if b32.negative x then lo else hi, 0, fNV)) ∧
    (¬ scalePoison b → b32.finite x → s = 0 → narrowLane mode xin q b = (0, x, 0)) ∧
    (¬ scalePoison b → b32.finite x → s ≠ 0 →
      let v : ℤ := (if V x / s < 0 then -1 else 1) * roundMag 0 (decide (V x / s < 0)) |V x / s|
      let el := max lo (min v hi)
      (el ≠ v → 4 ≤ mode → narrowLane mode xin q b = (el, 0, 0)) ∧
      (el = v ∨ mode < 4 → ∃ r fl, narrowLane mode xin q b = (el, r, 0) ∧
        b32.delivers 0 (V x - el * s) (b32.negative x && decide (el = 0)) (r, fl)))) ∧
  (∀ seed n j : Nat, let step (i : Nat) (x : W64) : W64 := let y := (x ^^^ (BitVec.ofNat 64 (seed + i))) * 0x9FB21C651E98DF25
      y ^^^ (y >>> 29)
    hash64 seed n j < 2 ^ 64 ∧ BitVec.ofNat 64 (hash64 seed n j) = step 3 (step 2 (step 1 (step 0 (BitVec.ofNat 64 (n * 65536 + j)))))) ∧
  (∀ (acc : BitVec 40) (sa sb : BitVec 16) (o : BitVec 32), let x := o.toNat
    let poison : Prop := scalePoison sa.toNat ∨ scalePoison sb.toNat
    (poison ∨ b32.signals x → scaleElem acc sa sb o = (b32.nan, fNV)) ∧
    (¬ poison → b32.notNumber x → ¬ b32.signals x → scaleElem acc sa sb o = (b32.nan, 0)) ∧
    (¬ poison → b32.infinite x → scaleElem acc sa sb o = (x, 0)) ∧
    (¬ poison → b32.finite x → b32.delivers 0 (V x + acc.toInt * scaleValue sa.toNat * scaleValue sb.toNat) false (scaleElem acc sa sb o)))

/-- TSHAPE of a valid shape puts the shape register's write into flight for issue + 1, an invalid shape raises 0x0306; TZERO
zeroes the whole tile at issue + 2; TTR, where the shape and its transpose are valid, replaces the tile at issue + 8 + R
by rows whose element e of row r is the old element r of row e, and its shape with it, else it raises 0x0306; nothing
else of the machine changes. With a valid shape, aligned ga and gb, all rows in one range and banks that no atomic
reserves or will reserve on this tick: TLD samples row 0 at issue, to land at issue + 9, and row r at issue + r; TLDM
does the same on weight MRAM, each row through the row map of the issue step, row 0 landing at issue + 15; TST puts the
write of each row's bytes, as read at issue, into flight for issue + 4 + j. An invalid shape raises 0x0306, a misaligned
address 0x040A, the first row out of the range of row 0 raises 0x0408 with its address, the first whose bank a
reservation holds at its step 0x0109 with its address, a locked TLDM row 0x0C03, and nothing is performed. Row 0 of a
TLD that a later atomic of the tick meets is left for the next step to refuse (log 66, DEDUCED). (R141, R176, R242,
R246, R247, R96, R98, R102, R104, R105, R127, R243) -/
def Obligations.TilesLoadStoreAndTranspose : Prop :=
  (∀ (t e : BitVec 3) (r : BitVec 6) (c : BitVec 8) (s : State),
    let ts := mget 0 s.me.ts t.toNat
    let ef := tsEf ts
    let R := tsRows ts
    let C := tsCols ts
    let w := efWidth ef
    let old := mget [] s.me.t t.toNat
    let good := ef ≠ 4 ∧ C ≤ 64 ∧ shapeOk ef C = true ∧ shapeOk ef R = true
    (shapeOk e.toNat (c.toNat + 1) = true →
      exec (.tshape t e r c) s = .next (s.emit 1 (.ctl (0x10 + t.toNat) (BitVec.ofNat 64 (e.toNat + 8 * r.toNat + 512 * c.toNat))))) ∧
    (shapeOk e.toNat (c.toNat + 1) = false → exec (.tshape t e r c) s = .next (s.trapIssue (s.fault 0x0306))) ∧
    exec (.tzero t) s = .next (s.emit 2 (.tileAll t.toNat [] none)) ∧
    (¬ good → exec (.ttr t) s = .next (s.trapIssue (s.fault 0x0306))) ∧
    (good → ∃ new, exec (.ttr t) s = .next (s.emit (8 + R) (.tileAll t.toNat new
        (some (BitVec.ofNat 64 (ef + 8 * (C - 1) + 512 * (R - 1)))))) ∧
      ∀ i j, i < C → j < R → nbits (leNat (bytesAt new (128 * i) 128)) (w * j) w = nbits (leNat (bytesAt old (128 * j) 128)) (w * i) w)) ∧
  (∀ (t : BitVec 3) (a b : BitVec 5) (s : State),
    let ts := mget 0 s.me.ts t.toNat
    let nb := rowBytes (tsEf ts) (tsCols ts)
    let rows := tsRows ts
    let valid := shapeOk (tsEf ts) (tsCols ts) = true
    let row (r : Nat) : Nat := (s.N a + r * s.N b) % 2 ^ 64
    (¬ valid → ∀ i ∈ [Instr.tld t a b, .tldm t a b, .tst t a b], exec i s = .next (s.trapIssue (s.fault 0x0306))) ∧
    (valid → s.N a % 64 ≠ 0 ∨ s.N b % 64 ≠ 0 → ∀ i ∈ [Instr.tld t a b, .tst t a b],
      exec i s = .next (s.trapIssue (s.fault 0x040A (s.N a)))) ∧
    (valid → s.N a % 128 ≠ 0 ∨ s.N b % 128 ≠ 0 → exec (.tldm t a b) s = .next (s.trapIssue (s.fault 0x040A (s.N a)))) ∧
    (valid → s.N a % 64 = 0 → s.N b % 64 = 0 → rowOffsets spadOffset nb inWindow ((List.range rows).map row) = none →
      ∃ r < rows, (spadOffset (row r) nb = none ∨ inWindow (row r) ≠ inWindow (row 0)) ∧
        (∀ j < r, (spadOffset (row j) nb).isSome ∧ inWindow (row j) = inWindow (row 0)) ∧
        ∀ i ∈ [Instr.tld t a b, .tst t a b], exec i s = .next (s.trapIssue (s.fault 0x0408 (row r)))) ∧
    (valid → s.N a % 128 = 0 → s.N b % 128 = 0 → rowOffsets mramOffset nb (fun _ => false) ((List.range rows).map row) = none →
      ∃ r < rows, mramOffset (row r) nb = none ∧ (∀ j < r, (mramOffset (row j) nb).isSome) ∧
        exec (.tldm t a b) s = .next (s.trapIssue (s.fault 0x0408 (row r)))) ∧
    (∀ os : List Nat, valid → s.N a % 128 = 0 → s.N b % 128 = 0 →
      rowOffsets mramOffset nb (fun _ => false) ((List.range rows).map row) = some os →
      (∃ o ∈ os, s.mramLocked s.cur.tile o s.myCtx = true) → exec (.tldm t a b) s = .next (s.trapIssue (s.fault 0x0C03 (s.N a)))) ∧
    (∀ os : List Nat, valid → s.N a % 64 = 0 → s.N b % 64 = 0 →
      rowOffsets spadOffset nb inWindow ((List.range rows).map row) = some os →
      (∀ r o, os[r]? = some o → s.banksFree o nb r = false → (∀ j o', j < r → os[j]? = some o' → s.banksFree o' nb j = true) →
        exec (.tld t a b) s = .next (s.trapIssue (s.fault 0x0109 (row r)))) ∧
      (∀ r o, os[r]? = some o → s.banksFree o nb (4 + r) = false → (∀ j o', j < r → os[j]? = some o' → s.banksFree o' nb (4 + j) = true) →
        exec (.tst t a b) s = .next (s.trapIssue (s.fault 0x0109 (row r)))) ∧
      ((∀ o r, os[r]? = some o → s.banksFree o nb r = true) → (∃ k ∈ wordsOf (os.headD 0) nb, k % 16 ∈ s.myTile.atomicNow) →
        exec (.tld t a b) s = .next (s.emit 1 (.tileFetch t.toNat 0 nb (os.headD 0) none))) ∧
      ((∀ o r, os[r]? = some o → s.banksFree o nb r = true) → (∀ k ∈ wordsOf (os.headD 0) nb, k % 16 ∉ s.myTile.atomicNow) →
        s.myTile.plain (os.headD 0) nb → exec (.tld t a b) s =
        .next ((os.zipIdx.drop 1).foldl (fun u o => u.emit o.2 (.tileFetch t.toNat o.2 nb o.1 none))
          ((s.usePorts (wordsOf (os.headD 0) nb)).emit 9 (.tileRow t.toNat 0 (s.myTile.spadBytes (os.headD 0) nb))))) ∧
      ((∀ o r, os[r]? = some o → s.banksFree o nb (4 + r) = true) → exec (.tst t a b) s =
        .next (os.zipIdx.foldl (fun u o =>
          u.emit (4 + o.2) (.store { bytes := cellsFrom o.1 ((bytesAt (mget [] s.me.t t.toNat) (128 * o.2) 128).take nb) })) s))) ∧
    (∀ os : List Nat, valid → s.N a % 128 = 0 → s.N b % 128 = 0 →
      rowOffsets mramOffset nb (fun _ => false) ((List.range rows).map row) = some os →
      (∀ o ∈ os, s.mramLocked s.cur.tile o s.myCtx = false) → s.myTile.overlays = [] → s.myTile.cellErrors = [] → s.myTile.mramPoison = [] →
      exec (.tldm t a b) s =
        .next ((os.zipIdx.drop 1).foldl (fun u o => u.emit o.2 (.tileFetch t.toNat o.2 nb o.1 (some (s.myTile.physRow (o.1 / 1024)))))
          ((s.modMyTile fun x => { x with uses := x.uses ++ [{ port := 16, write := false, rank := s.accessRank }] }).emit 15
            (.tileRow t.toNat 0 (s.myTile.mramBytes (os.headD 0) nb))))))

/-- Outside handler mode, with the block inside its rows, every mask of 6 or 12 ones, and the array accepting: each of the
thirteen words puts into flight, with the latency of its occupancy O and mode, for every live row m and every column n
the sum over k of A[m][48b + k] B[n][k] modulo 2^40 (0 for rows not live) and under .CK the right side of the checksum,
the sum over k of the column sums of the live rows of A times those of B modulo 2^40, holds the array's share for O or 2
O steps under its mode, clears the array fault flag, and changes nothing else. A block beyond its rows raises 0x0306, a
bad mask 0x0307, a busy array 0x0104, handler mode 0x0311. (R144, R178, R248, R249, R250, R251, R252, R253, R254, R365,
R368) -/
def Obligations.BlockProducts : Prop :=
  ∀ (a : BitVec 2) (x y tm : BitVec 3) (z r k o : BitVec 1) (b : BitVec 3) (s : State),
    let tA := mget [] s.me.t x.toNat
    let tB := mget [] s.me.t y.toNat
    let tM := mget [] s.me.t tm.toNat
    let rows := s.me.slotmap.toNat / 2 ^ 16 % 2 ^ 16
    let row0 := if o = 1 then (s.me.readG 31).toNat % 2 ^ 16 else 0
    let mode := s.myTile.mxmode
    let goodMask := ∀ i < 128, popCount 24 (leNat (bytesAt tM (384 * b.toNat + 6 * (i / 2) + 3 * (i % 2)) 3)) ∈ [6, 12]
    let multiplies (i : Instr) (wA O : Nat) (B : Nat → Nat → Int) : Prop :=
      s.me.inHandler = false → s.arrayAccepts = true →
      ∃ sums rhs live, exec i s = .next ((s.emit (if mode.toNat < 2 then O + 72 else if mode = 2 then 2 * O + 80 else 2 * O + 88)
          (.mma a.toNat (z = 1) live sums rhs)).modMe fun q =>
            { q with arrayFree := q.clock + (if mode.toNat < 2 then O else 2 * O), arrayMode := mode, faultFlags := q.faultFlags &&& ~~~ 1 }) ∧
        rhs = (if k = 1 then some (BitVec.ofInt 40 (((List.range 48).map fun j =>
          ((List.range 64).map fun m => if m < live then tileElem tA wA m (48 * b.toNat + j) else 0).sum *
            ((List.range 64).map fun n => B n j).sum).sum)) else none) ∧ (∀ m < 64, (m < live ↔ (r = 0 ∨ row0 + m < rows))) ∧
        ∀ m n, m < 64 → n < 64 → mget 0 sums (64 * m + n) =
          if m < live then BitVec.ofInt 40 (((List.range 48).map fun j => tileElem tA wA m (48 * b.toNat + j) * B n j).sum) else 0
    let dense (i : Instr) (wA wB O : Nat) : Prop :=
      (48 * (b.toNat + 1) * wA ≤ 1024 → 48 * (b.toNat + 1) * wB ≤ 1024 → multiplies i wA O (denseB tB wB b.toNat)) ∧
      (s.me.inHandler = false → 48 * (b.toNat + 1) * wA ≤ 1024 → 48 * (b.toNat + 1) * wB ≤ 1024 → s.arrayAccepts = false →
        exec i s = .next (s.trapIssue (s.fault 0x0104))) ∧
      (s.me.inHandler = false → 1024 < 48 * (b.toNat + 1) * wA ∨ 1024 < 48 * (b.toNat + 1) * wB →
        exec i s = .next (s.trapIssue (s.fault 0x0306))) ∧
      (s.me.inHandler = true → exec i s = .next (s.trapIssue (s.fault 0x0311)))
    let sparse (i : Instr) (wA wB O : Nat) : Prop :=
      (48 * (b.toNat + 1) * wA ≤ 1024 → 24 * (b.toNat + 1) * wB ≤ 1024 → goodMask → multiplies i wA O (sparseB tB tM wB b.toNat)) ∧
      (s.me.inHandler = false → 48 * (b.toNat + 1) * wA ≤ 1024 → 24 * (b.toNat + 1) * wB ≤ 1024 → ¬ goodMask →
        exec i s = .next (s.trapIssue (s.fault 0x0307))) ∧
      (s.me.inHandler = false → 48 * (b.toNat + 1) * wA ≤ 1024 → 24 * (b.toNat + 1) * wB ≤ 1024 → goodMask → s.arrayAccepts = false →
        exec i s = .next (s.trapIssue (s.fault 0x0104))) ∧
      (s.me.inHandler = false → 1024 < 48 * (b.toNat + 1) * wA ∨ 1024 < 24 * (b.toNat + 1) * wB →
        exec i s = .next (s.trapIssue (s.fault 0x0306))) ∧
      (s.me.inHandler = true → exec i s = .next (s.trapIssue (s.fault 0x0311)))
    dense (.mma44 a x y z r k o b) 4 4 12 ∧ dense (.mma46 a x y z r k o b) 4 6 24 ∧ dense (.mma48 a x y z r k o b) 4 8 24 ∧
    dense (.mma64 a x y z r k o b) 6 4 24 ∧ dense (.mma66 a x y z r k o b) 6 6 48 ∧ dense (.mma68 a x y z r k o b) 6 8 48 ∧
    dense (.mma84 a x y z r k o b) 8 4 24 ∧ dense (.mma86 a x y z r k o b) 8 6 48 ∧ dense (.mma88 a x y z r k o b) 8 8 48 ∧
    sparse (.mmas44 a x y tm z r k o b) 4 4 6 ∧ sparse (.mmas48 a x y tm z r k o b) 4 8 12 ∧
    sparse (.mmas84 a x y tm z r k o b) 8 4 12 ∧ sparse (.mmas88 a x y tm z r k o b) 8 8 24

/-- ACCZ and OZERO zero their register at issue + 2, and ACCZ, a command to the array, clears the array's fault flag (log
51, DEDUCED); ACCSCL, where the scale unit accepts and outside handler mode, puts the accumulator and the 64 scales of
each operand, as read at issue, into flight for issue + 20, holds the unit for 8 steps and clears its fault flag, with
the unit busy it raises 0x010B, in handler mode 0x0311; ORD and ACCRD put each vector register of the row, whole, into
flight for issue + 6 + i, in binary32 or 40 bits sign-extended; OWR puts the row into flight for issue + 4; nothing else
changes. MMA_LANDING of a block without error adds each live row's sums to its accumulator modulo 2^40 and leaves rows
not live, or under .Z replaces every element; a checksum that agrees raises nothing. ACCSCL_LANDING without error writes
into each element of its output register the rounded sum of the old element and accumulator times both scales, and ORs
all flags. A tile row lands with its bytes and zero to byte 127, other rows stay. Nothing else of the machine changes.
(R255, R256, R257, R258, R365, R368, R147, R241, R243, R249, R252) -/
def Obligations.AccumulatorAndMatrixResults : Prop :=
  (∀ (a : BitVec 2) (o : BitVec 1) (x y b : BitVec 3) (v r : BitVec 6) (s : State),
    let tA := mget [] s.me.t x.toNat
    let tB := mget [] s.me.t y.toNat
    let rowsOf (n : Nat) (f : Nat → Vec) : State :=
      (List.range n).foldl (fun u i => u.emit (6 + i) (.v (s.me.physV (v.toNat + i)) (BitVec.allOnes 64) (f i))) s
    exec (.accz a) s = .next ((s.emit 2 (.accz a.toNat)).modMe fun q => { q with faultFlags := q.faultFlags &&& ~~~ 1 }) ∧
    exec (.ozero o) s = .next (s.emit 2 (.ozero o.toNat)) ∧
    (s.me.inHandler = false → s.me.scaleFree ≤ s.me.clock → exec (.accscl a o x y b) s =
      .next ((s.emit 20 (.accscl o.toNat (mget [] s.me.a a.toNat)
        ((List.range 64).map fun m => BitVec.ofNat 16 (leNat (bytesAt tA (128 * m + 2 * b.toNat) 2)))
        ((List.range 64).map fun n => BitVec.ofNat 16 (leNat (bytesAt tB (128 * b.toNat + 2 * n) 2))))).modMe fun q =>
          { q with scaleFree := q.clock + 8, faultFlags := q.faultFlags &&& ~~~ 2 })) ∧
    (s.me.inHandler = false → s.me.clock < s.me.scaleFree → exec (.accscl a o x y b) s = .next (s.trapIssue (s.fault 0x010B))) ∧
    (s.me.inHandler = true → exec (.accscl a o x y b) s = .next (s.trapIssue (s.fault 0x0311))) ∧
    (∃ f, exec (.ord v o r) s = .next (rowsOf 4 f) ∧
      ∀ i < 4, ∀ j < 16, elem 32 (f i) j = mget 0 (mget [] s.me.o o.toNat) (64 * r.toNat + 16 * i + j)) ∧
    (∃ f, exec (.accrd v a r) s = .next (rowsOf 8 f) ∧
      ∀ i < 8, ∀ j < 8, elem 64 (f i) j = (mget (0 : BitVec 40) (mget [] s.me.a a.toNat) (64 * r.toNat + 8 * i + j)).signExtend 64) ∧
    (∃ vals, exec (.owr v o r) s = .next (s.emit 4 (.orow o.toNat r.toNat vals)) ∧ vals.length = 64 ∧
      ∀ i < 4, ∀ j < 16, vals.getD (16 * i + j) 0 = elem 32 (s.me.readV (v.toNat + i)) j)) ∧
  (∀ (s : State) (f : Flight) (rest : List Flight),
    let t := s.arg 0
    let q := s.arg 1
    let y := s.seq t q
    let w := y.removeFlight f
    y.dueFlights = f :: rest → f.upset = 0 → f.poison = none → f.flags = 0 → f.parity = false → y.parityErrors = [] →
    (∀ a zero live sums rhs, f.act = .mma a zero live sums rhs → rhs = none ∨ rhs = some (blockSum live sums) →
      ∃ acc, exec .mmaLanding s = .next ((s.setSeq t q w).setSeq t q { w with a := mset [] w.a a acc }) ∧
        ∀ m n, m < 64 → n < 64 → mget 0 acc (64 * m + n) =
          if zero then mget 0 sums (64 * m + n)
          else if m < live then mget 0 (mget [] y.a a) (64 * m + n) + mget 0 sums (64 * m + n)
          else mget 0 (mget [] y.a a) (64 * m + n)) ∧
    (∀ o acc sa sb, f.act = .accscl o acc sa sb →
      ∃ out fl, exec .accsclLanding s =
          .next ((s.setSeq t q w).setSeq t q { w with o := mset [] w.o o out, fpflags := w.fpflags ||| fl }) ∧
        (∀ m n, m < 64 → n < 64 → mget 0 out (64 * m + n) = BitVec.ofNat 32
          (scaleElem (mget 0 acc (64 * m + n)) (sa.getD m 0) (sb.getD n 0) (mget 0 (mget [] y.o o) (64 * m + n))).1) ∧
        ∀ j, FFlags.has fl j = (List.range 4096).any fun i =>
          FFlags.has (scaleElem (mget 0 acc i) (sa.getD (i / 64) 0) (sb.getD (i % 64) 0) (mget 0 (mget [] y.o o) i)).2 j) ∧
    (∀ r row bs, f.act = .tileRow r row bs → bs.length ≤ 128 →
      ∃ new, exec .resultLanding s = .next ((s.setSeq t q w).setSeq t q { w with t := mset [] w.t r new }) ∧
        (∀ k < 128, byteAt new (128 * row + k) = bs.getD k 0) ∧
        ∀ x, x / 128 ≠ row → byteAt new x = byteAt (mget [] y.t r) x))

/-- Each F-CK word reads its operands at issue; if the length is in range, its alignments hold, its tile-local ranges lie
whole in one range, the scope is at most 6 where it is a scope, no region of the MRAM read is locked away, the start
step is at least issue + 4, fewer than 16 commands stand in the queue and the start is no earlier than the last
command's start plus beats, the command joins the end of its slot's queue, the fault flag falls, and nothing else
changes. The first check that fails, in the order listed (the order among checks is the model's, log 14), raises its
code. In handler mode it raises 0x0311; REDC into timed memory with a scope raises 0x0201. Outside handler mode CSEED
puts into flight, for issue + 1, ga[31:0] for the running and ga[63:32] for the expected value, with .X the expected
value alone; CGET makes its landing slot, which must be EMPTY or FULL (else 0x0107), PENDING with arrival step issue + 4
and waiting on the commands queued before it, or, with none, due at issue + 4 with the register's value as it stands;
nothing else changes. In handler mode both raise 0x0311. (R96, R179, R210, R261, R262, R263, R265, R270, R274, R366,
R368, R271) -/
def Obligations.CopyCommandsAndRunningValues : Prop :=
  (∀ (a b c : BitVec 5) (sc f : BitVec 3) (s : State),
    let k := s.cur.unit - 4
    let q := s.me.queue k
    let src := s.N a
    let dst := s.N b
    let len := s.N c % 2 ^ 32
    let start := s.N c / 2 ^ 32
    let own (x : Nat) : Prop := (spadOffset x len).isSome = true
    let member : Prop := (s.memberRange s.cur.tile dst len).isSome = true
    let inWindow : Prop := 0x4000000 ≤ dst ∧ dst + len ≤ 0x4040000
    let local_ : Prop := dst < 0x200000 ∨ (0x1000000 ≤ dst ∧ dst < 0x3000000) ∨ (0x4000000 ≤ dst ∧ dst < 0x4040000)
    let queues (i : Instr) (kind : CopyKind) (z unit sx sAlign dx dAlign : Nat) (first srcOk dstOk scopeOk unlocked : Prop) : Prop :=
      s.checked (exec i s) (s.modMe fun y => y.setQueue k
          { q with cmds := q.cmds ++ [({ kind := kind, src := src, dst := dst, len := len, start := start, sc := z, fold := f.getLsbD 0,
                                         compare := f.getLsbD 1, last := f.getLsbD 2, issue := s.me.clock, bundle := s.cur.bundle,
                                         tick := s.gtick } : Command)],
                   recent := true, free := start + (len + 63) / 64, fault := false })
        [(first, 0x0201, 0), (s.me.inHandler = false, 0x0311, 0), (1 ≤ len ∧ len ≤ 1048576 ∧ len % unit = 0, 0x0308, 0),
         (sx % sAlign = 0, 0x040A, sx), (dx % dAlign = 0, 0x040A, dx), (srcOk, 0x0408, src), (dstOk, 0x0408, dst),
         (scopeOk, 0x030A, 0), (unlocked, 0x0C03, src), (s.me.clock + 4 ≤ start, 0x0102, 0), (q.cmds.length < 16, 0x010C, 0),
         (q.free ≤ start, 0x010D, 0)]
    queues (.cpy a b c f) .cpy 0 1 src 1 dst 1 True (own src) (own dst ∨ member) True True ∧
    queues (.cpym a b c f) .cpym 0 1 src 64 dst 64 True ((mramOffset src len).isSome = true) (own dst) True
      (∀ x ∈ [src, src + len - 1], s.mramLocked s.cur.tile (x - 0x8000000) s.myCtx = false) ∧
    queues (.cpyg a b c sc f) .cpyg sc.toNat 1 src 1 dst 1 True True (own dst) True True ∧
    queues (.cpyw a b c sc f) .cpyw sc.toNat 1 src 1 dst 1 True (own src) True (sc.toNat ≤ 6) True ∧
    queues (.cpymc a b c f) .cpymc 0 1 src 64 dst 64 True (own src) inWindow True True ∧
    queues (.cpyx a b c sc f) .cpyx sc.toNat 1 src 64 dst 64 True (own src) True (sc.toNat ≤ 6) True ∧
    queues (.gath a b c sc f) .gath sc.toNat 64 (src / 65536) 64 dst 64 True True (own dst) True True ∧
    queues (.scat a b c sc f) .scat sc.toNat 64 src 64 (dst / 65536) 64 True (own src) True (sc.toNat ≤ 6) True ∧
    queues (.redc a b c sc f) .redc sc.toNat 4 src 64 dst 64 (sc = 0 ∨ ¬ local_) (own src) (local_ → own dst ∨ member)
      (local_ ∨ sc.toNat ≤ 6) True) ∧
  (∀ (a : BitVec 5) (x : BitVec 1) (l : BitVec 4) (s : State),
    let k := s.cur.unit - 4
    let q := s.me.queue k
    let d := s.me.landing l.toNat
    let n := if q.recent then q.cmds.length else 0
    let val : Vec := BitVec.ofNat 512 (if x = 0 then q.run else q.expect).toNat
    (s.me.inHandler = true → ∀ i ∈ [Instr.cseed x a, .cget l x], exec i s = .next (s.trapIssue (s.fault 0x0311))) ∧
    (s.me.inHandler = false →
      exec (.cseed x a) s = .next (s.emit 1 (.seed k (if x = 0 then some (BitVec.ofNat 32 (s.N a)) else none) (BitVec.ofNat 32 (s.N a / 2 ^ 32)))) ∧
      s.checked (exec (.cget l x) s) (s.modMe fun y => y.setLanding l.toNat
          { st := if n = 0 then .held else .pending, arrival := y.clock + 4, data := val, poison := none,
            awaits := if n = 0 then none else some (k, x.toNat, n), ticket := 0 })
        [(d.st = .empty ∨ d.st = .full, 0x0107, 0)]))

/-- Outside handler mode, with a scope of at most 5 or a level of the launch, a PHASE or SSTEP that matches the first
boundary left takes it from the list and leaves its party holding for that boundary's signal step, with the phase
latency of its scope, 1, 4, 40, 160, 600 or 2400 steps; nothing else changes. Another scope raises 0x030A; a word that
matches no boundary, or finds none left, raises 0x030B. (R29, R39, R124, R275, R276, R277, R367, R368) -/
def Obligations.BoundariesHold : Prop :=
  ∀ (sc : BitVec 3) (lv : BitVec 1) (lvl : BitVec 3) (s : State),
    let c := s.ctx s.myCtx
    let named := if lv = 1 then 128 + lvl.toNat else sc.toNat
    let scopeOk : Prop := if lv = 1 then ∃ l, c.launch = some l ∧ lvl.toNat < l.levels.length else sc.toNat ≤ 5
    ∀ (i : Instr) (kind : Nat), (i, kind) ∈ [(Instr.phase sc lv lvl, 0), (.sstep sc lv lvl, 1)] →
      (s.me.inHandler = true → exec i s = .next (s.trapIssue (s.fault 0x0311))) ∧
      (s.me.inHandler = false → ¬ scopeOk → exec i s = .next (s.trapIssue (s.fault 0x030A))) ∧
      (s.me.inHandler = false → scopeOk → s.me.bounds = [] → exec i s = .next (s.trapIssue (s.fault 0x030B))) ∧
      (s.me.inHandler = false → scopeOk → ∀ b bs, s.me.bounds = b :: bs → b.kind ≠ kind ∨ b.scope ≠ named →
        exec i s = .next (s.trapIssue (s.fault 0x030B))) ∧
      (s.me.inHandler = false → scopeOk → ∀ b bs, s.me.bounds = b :: bs → b.kind = kind → b.scope = named → ∃ h : Hold,
        exec i s = .next (s.modMe fun y => { y with bounds := bs, hold := some h }) ∧ h.g = b.g ∧ h.phase = decide (kind = 0) ∧
        h.issued = s.gtick ∧ h.step = s.me.clock ∧ h.scope = c.scopeOf named ∧
        ∀ z < 6, c.scopeOf named = z → h.lat = [1, 4, 40, 160, 600, 2400].getD z 0)

/-- Outside handler mode, with a scope of at most 6 or a level of the launch, FENCE answers a next state: with room in the
die's staging buffer it stages each dirty sector of the issuer's lines of narrower scope, one per tick from issue + 1,
each with a freeze tick of the tile; afterwards no such line is dirty, those lines have the fence's scope, a sector is
valid only if it was and still holds a dirty byte, all data stand, and no other tile changes. With no dirty line it
costs no tick and stages nothing. WGO.Q (and WGO.T) answers a next state in which nothing has changed but the commands
its sequencer waits on, those of the issuer's two queues (the tile's four) queued before its issue step; with none, it
waits on nothing. A wrong scope raises 0x030A, handler mode 0x0311. (R54, R131, R135, R278, R279, R367, R368) -/
def Obligations.FencesWriteBackAndWaits : Prop :=
  ∀ (sc : BitVec 3) (lv : BitVec 1) (lvl : BitVec 3) (s : State),
    let c := s.ctx s.myCtx
    let code := c.scopeOf (if lv = 1 then 128 + lvl.toNat else sc.toNat)
    let scopeOk : Prop := if lv = 1 then ∃ l, c.launch = some l ∧ lvl.toNat < l.levels.length else sc.toNat ≤ 6
    let picked (l : Line) : Prop := l.dirty ≠ 0 ∧ (l.scope < code ∨ (l.scope = 6 ∧ code = 6))
    let d := dieOf s.cur.tile
    let room : Prop := (s.die d).staging.length + s.forward.length + 4 * s.me.l1.length < 65536
    let out := (s.me.l1.filter fun l => decide (picked l)).flatMap fun l => l.dirtySectors code
    let queues (k : Nat) : CopyQueue := (if k < 2 then s.myTile.a else s.myTile.b).queue (k % 2)
    let earlier (k : Nat) : Nat := ((queues k).cmds.filter fun (c : Command) => c.tick < s.gtick).length
    let waits (k : Nat) : Prop := sc = 1 ∨ k / 2 = s.cur.seq
    (s.me.inHandler = true → ∀ i ∈ [Instr.fence sc lv lvl, .wgo sc lv lvl], exec i s = .next (s.trapIssue (s.fault 0x0311))) ∧
    (s.me.inHandler = false → ¬ scopeOk → exec (.fence sc lv lvl) s = .next (s.trapIssue (s.fault 0x030A))) ∧
    (s.me.inHandler = false → scopeOk → ∃ t, exec (.fence sc lv lvl) s = .next t) ∧
    (s.me.inHandler = false → scopeOk → (∀ l ∈ s.me.l1, ¬ picked l) → exec (.fence sc lv lvl) s =
      .next ((s.modMe (·.invalidate true)).modMyTile id)) ∧
    (s.me.inHandler = false → scopeOk → room → ∃ u, exec (.fence sc lv lvl) s =
        .next ((out.zipIdx.foldl (fun (v : State) w => v.setDie d { v.die d with staging := (v.die d).staging ++
          [{ party := seqNumber s.cur.tile s.cur.seq, tick := s.gtick + 1 + w.2, write := w.1 }] }) (s.modMe fun _ => u)).modMyTile
            fun x => { x with owed := x.owed + out.length }) ∧
      { u with l1 := s.me.l1 } = s.me ∧ u.l1.length = s.me.l1.length ∧
      ∀ (k : Nat) (l l' : Line), s.me.l1[k]? = some l → u.l1[k]? = some l' →
        l'.tag = l.tag ∧ l'.data = l.data ∧ (picked l → l'.dirty = 0 ∧ l'.scope = code) ∧
        (¬ picked l → l'.dirty = l.dirty ∧ l'.scope = l.scope) ∧
        ∀ i < 4, l'.valid.getLsbD i = (l.valid.getLsbD i && (List.range 64).any fun b => l'.dirty.getLsbD (64 * i + b))) ∧
    (s.me.inHandler = false → lv = 1 ∨ 1 < sc.toNat → exec (.wgo sc lv lvl) s = .next (s.trapIssue (s.fault 0x030A))) ∧
    (s.me.inHandler = false → lv = 0 → sc.toNat ≤ 1 →
      ((∀ k < 4, waits k → earlier k = 0) → exec (.wgo sc lv lvl) s = .next (s.modMe fun y => { y with waitGo := [] })) ∧
      ∃ w, exec (.wgo sc lv lvl) s = .next (s.modMe fun y => { y with waitGo := w }) ∧
        ∀ k n, (k, n) ∈ w ↔ k < 4 ∧ n = earlier k ∧ 0 < n ∧ waits k)

/-- On an aligned scratchpad or window address whose words are sound, whose bank no reservation holds and no single-step
access meets, each atomic reads M through the bank's port at issue, puts into flight the store of its new value for
issue + 2 and SignExt(M) for gd at issue + 3, and reserves the bank from issue to issue + 2; nothing else changes. A
misaligned address raises 0x040A, one outside the ranges 0x0408, a bank held or met 0x0109. (R96, R98, R102, R127, R128,
R210, R280) -/
def Obligations.AtomicsReadModifyWrite : Prop :=
  ∀ (d a b : BitVec 5) (sz : BitVec 2) (s : State),
    let w := spanOf sz
    let n := w / 8
    let addr := s.N a
    let B := s.N b % 2 ^ w
    let D := s.N d % 2 ^ w
    let runs (i : Instr) (new : Nat → Nat) : Prop :=
      (addr % n ≠ 0 → exec i s = .next (s.trapIssue (s.fault 0x040A addr))) ∧
      (addr % n = 0 → spadOffset addr n = none → exec i s = .next (s.trapIssue (s.fault 0x0408 addr))) ∧
      ∀ off, addr % n = 0 → spadOffset addr n = some off →
        (s.banksFree off n 0 = false ∨ s.atomicMeets (off / 64 % 16) = true → exec i s = .next (s.trapIssue (s.fault 0x0109 addr))) ∧
        (s.banksFree off n 0 = true → s.atomicMeets (off / 64 % 16) = false → s.myTile.plain off n →
          let M := leNat (s.myTile.spadBytes off n)
          exec i s = .next ((((s.usePorts (wordsOf off n)).emit 2 (.store { bytes := cellsFrom off (leBytes n (new M)) })).emit 3
              (.g d.toNat ((BitVec.ofNat w M).signExtend 64))).modMyTile fun x => { x with reservations := x.reservations ++
                [{ bank := off / 64 % 16, left := 3, seq := s.cur.seq, issue := s.me.now, handler := s.me.inHandler }] }))
    runs (.aadd d a b sz) (fun M => (M + B) % 2 ^ w) ∧
    runs (.amin d a b sz) (fun M => if (BitVec.ofNat w B).slt (BitVec.ofNat w M) then B else M) ∧
    runs (.amax d a b sz) (fun M => if (BitVec.ofNat w M).slt (BitVec.ofNat w B) then B else M) ∧
    runs (.aor d a b sz) (fun M => M ||| B) ∧ runs (.aand d a b sz) (fun M => M &&& B) ∧
    runs (.axchg d a b sz) (fun _ => B) ∧ runs (.acas d a b sz) (fun M => if M = D then B else M)

/-- RQLD puts the published field of its slot into flight for issue + 4, all ones or 0 for an inactive slot, and raises
0x0309 outside the slots or above field 33; RQCOMMIT appends its commit to the buffer if slot, kind, count and reserved
bits permit, else raises 0x030C; RQEND marks the segment; CONDW puts its bits into flight for issue + 1; MAPACK of the
current version for issue + 1, else 0x030D; MAPRD reads an item of the current Sheaf record for issue + 4; RQFLT
attributes 0x0802 to an active slot, else 0x030C; PWRHINT keeps the shallowest hint. RQCOMMIT, RQEND, CONDW and MAPACK
raise 0x0311 in handler mode. Nothing else changes. RESULT_LANDING of a CONDW makes each condition bit 0 to 31 that its
mask names the value's bit and changes nothing else; of a MAPACK makes the version the context's acknowledged one, ends
the acknowledgment windows of the changes up to it, and leaves every tile outside the partition as it was, every
sequencer of the partition's tiles reading the version. (R89, R281, R282, R283, R284, R285, R286, R295, R368, R377,
R379, R22) -/
def Obligations.ServingAndTheirLandings : Prop :=
  (∀ (d a b : BitVec 5) (i : BitVec 11) (h : BitVec 2) (s : State),
    let x := s.myCtx
    let c := s.ctx x
    let k := s.N a
    let slots := (c.launch.map (·.slots)).getD 0
    let slot := c.winnow.slots.lookup k
    let value (record : Nat) (r : Request) : Nat :=
      ([record, r.id, r.state, r.class_, r.position, r.prompt, r.maxNew, r.generated, r.deadline, r.priority, r.flags, r.draw, r.seed,
        r.mode, r.topK, r.topP, r.temperature, r.width, r.depth, r.stops.length] ++ (List.range 6).map (fun j => r.stops.getD j 0) ++
        [r.ring, r.pageList, r.pages, r.rowStart, r.rows, r.kind, r.used, r.entryFlags]).getD i.toNat 0
    let had := c.winnow.commits.filter fun e => e.slot == k
    let permitted : Prop := k < slots ∧ s.N d < 2 ∧ s.N b < 2 ^ 32 ∧ ∃ record r, slot = some (record, r) ∧
      if r.kind = 3 then (∀ e ∈ had, e.draft = true) ∧ had.length < 64 ∧ had.length < (if s.N d = 1 then r.used else r.used + 1)
      else s.N d = 0 ∧ had = [] ∧ (r.kind = 2 ∨ (r.kind = 1 ∧ r.entryFlags % 2 = 1))
    s.checked (exec (.rqld d a i) s) (s.emit 4 (.g d.toNat (match slot with
        | none => if i = 0 then BitVec.allOnes 64 else 0
        | some (record, r) => BitVec.ofNat 64 (value record r)))) [(k < slots ∧ i.toNat ≤ 33, 0x0309, 0)] ∧
    s.checked (exec (.rqcommit d a b) s) (s.modCtx x fun c => { c with winnow := { c.winnow with
        commits := c.winnow.commits ++ [{ slot := k, token := s.N b, draft := decide (s.N d = 1) }] } })
      [(s.me.inHandler = false, 0x0311, 0), (permitted, 0x030C, 0)] ∧
    s.checked (exec .rqend s) (s.modCtx x fun c => { c with rqend := true }) [(s.me.inHandler = false, 0x0311, 0)] ∧
    s.checked (exec (.condw a b) s) (s.emit 1 (.cond (BitVec.ofNat 32 (s.N b)) (BitVec.ofNat 32 (s.N a)))) [(s.me.inHandler = false, 0x0311, 0)] ∧
    exec (.maprd d a) s = .next (s.emit 4 (.g d.toNat (BitVec.ofNat 64 (s.sheafItem s.cur.tile s.cur.seq (k % 256) (k / 256 % 256))))) ∧
    s.checked (exec (.mapack a) s) (s.emit 1 (.mapack (s.G a)))
      [(s.me.inHandler = false, 0x0311, 0), (k = s.sheaf.version, 0x030D, 0)] ∧
    (¬ (k < slots ∧ slot.isSome = true) → exec (.rqflt a b) s = .next (s.trapIssue (s.fault 0x030C))) ∧
    (∀ record r, k < slots → slot = some (record, r) → ∃ w, exec (.rqflt a b) s = .next (s.modCtx x fun c => { c with winnow := w }) ∧
      (∀ e ∈ c.winnow.faults, e.slot ≠ k → e ∈ w.faults) ∧ { w with faults := c.winnow.faults } = c.winnow ∧
      ((∀ e ∈ c.winnow.faults, e.slot ≠ k) → ∃ e, w.faults = c.winnow.faults ++ [e] ∧ e.slot = k ∧ e.info.code = 0x0802 ∧
        e.info.detail = s.N b % 65536 ∧ e.info.rindex = record)) ∧
    exec (.pwrhint h) s = .next (s.modMe fun y => { y with hint := some (min (y.hint.getD 3) h.toNat) })) ∧
  (∀ (s : State) (f : Flight) (rest : List Flight),
    let t := s.arg 0
    let q := s.arg 1
    let w := s.setSeq t q ((s.seq t q).removeFlight f)
    let x := w.ctxOf t
    (s.seq t q).dueFlights = f :: rest → f.parity = false →
    (∀ m v, f.act = .cond m v → ∃ n : W64, exec .resultLanding s = .next (w.modCtx x fun c => { c with cond := n }) ∧
      ∀ i < 64, n.getLsbD i = if m.getLsbD i then v.getLsbD i else (w.ctx x).cond.getLsbD i) ∧
    (∀ v, f.act = .mapack v → ∃ u, exec .resultLanding s = .next u ∧
      u.ctx x = { w.ctx x with ackVersion := v.toNat, ackDue := (w.ctx x).ackDue.filter fun d => v.toNat < d.1 } ∧
      (∀ j, x ≠ j → u.ctx j = w.ctx j) ∧ (∀ j, j ∉ (w.ctx x).tiles → u.tile j = w.tile j) ∧
      (∀ j p, j ∈ (w.ctx x).tiles → u.seq j p = { w.seq j p with mapver := v }) ∧
      { u with tiles := s.tiles, ctxs := s.ctxs } = s))

/-- Outside handler mode: WJOPEN of 1 to 64 rows, with the tile's journal IDLE and no opening in flight, puts the opening
into flight for issue + 1; WJCOMMIT by the owner of an OPEN transaction the commit; WJABORT has no effect in IDLE, and
by the owner, a sequencer and its context, of an OPEN or FAILED one drops it, at once or after the attempt in progress,
whose put alone stays counted; each accepted command clears the journal's fault flag; else 0x030E. WJPUT with its checks
passed, in their order, a row locked against the context (0x0C03, log 26) last, adds one put with the bytes read at
issue to the end of the queue; WJSTAT puts the status word, or the wear word of an aligned MRAM row, into flight for
issue + 4, else raises 0x0309. An opening that lands takes the lowest free rows, as many as it names, for an OPEN
transaction of its sequencer and context, or with too few leaves CODE 0x0504 and no transaction; a commit that lands
makes an OPEN one COMMITTING. A pulse that is due begins, counted from the tick it was due, the attempt of the put in
front: it takes the row of its shadow, else the lowest reserved one, the row's wear counts it, the first forms its image
(with no wrong cell, the shadow row's content or that of the row in force, with the put's bytes), and the verify comes 2
424 ticks later; with no put left and a commit given, the map write begins, verified after 2 423. A verify before that,
or without an attempt, changes nothing. A verify that matches writes the image and drops the put, and makes its row the
newest image of its logical row, or ends the commit: the row map switches, and the journal is idle. A mismatch tries
again; the fourth has its row retired and takes a fresh one, the eighth, or the fourth without a free row, has it
retired and fails the transaction with 0x0503 and the fault flag of the owner, in the tile or its saved image, and of no
sequencer of another context. An aborted transaction ends idle; a paused journal begins nothing. (R98, R201, R287, R288,
R289, R291, R292, R293, R368, R290, R406, R407) -/
def Obligations.JournalWordsAndAttempts : Prop :=
  (∀ (d a b : BitVec 5) (s : State),
    let t := s.cur.tile
    let j := s.journal t
    let mine : Prop := j.owner = s.cur.seq ∧ j.ctx = s.myCtx
    let accepted := s.modMe fun y => { y with faultFlags := y.faultFlags &&& ~~~ 16 }
    let v := s.N a
    let len := s.N d
    let src := s.N b
    let row := (v - 0x8000000) / 1024
    let lenOk : Prop := 64 ≤ len ∧ len ≤ 1024 ∧ len % 64 = 0
    let n := if 64 ≤ len ∧ len ≤ 1024 ∧ len % 64 = 0 then len else 64
    let code (q : JournalState) : Nat := match q with | .idle => 0 | .open_ => 1 | .committing => 2 | .failed => 3
    (s.me.inHandler = true → ∀ i ∈ [Instr.wjopen a, .wjput d a b, .wjcommit, .wjabort], exec i s = .next (s.trapIssue (s.fault 0x0311))) ∧
    (s.me.inHandler = false →
      s.checked (exec (.wjopen a) s) (accepted.emit 1 (.wjOpen v))
        [(j.st = .idle ∧ s.myTile.opening = false ∧ 1 ≤ v ∧ v ≤ 64, 0x030E, 0)] ∧
      s.checked (exec .wjcommit s) (accepted.emit 1 .wjCommit) [(j.st = .open_ ∧ j.aborting = false ∧ mine, 0x030E, 0)] ∧
      (j.st = .idle → exec .wjabort s = .next s) ∧
      (j.st = .open_ ∨ j.st = .failed → mine → ∃ k : Journal, exec .wjabort s = .next (accepted.modTile t fun z => { z with journal := k }) ∧
        k.pulse = j.pulse ∧ (j.pulse = none → k.st = .idle ∧ k.puts = [] ∧ k.shadows = [] ∧ k.reserved = []) ∧
        (j.pulse ≠ none → k = { j with puts := j.puts.take 1, due := none, aborting := true })) ∧
      (j.st = .committing ∨ (j.st ≠ .idle ∧ ¬ mine) → exec .wjabort s = .next (s.trapIssue (s.fault 0x030E))) ∧
      (¬ (j.st = .open_ ∧ j.aborting = false ∧ mine ∧ j.puts.length < 16) → exec (.wjput d a b) s = .next (s.trapIssue (s.fault 0x030E))) ∧
      (j.st = .open_ → j.aborting = false → mine → j.puts.length < 16 →
        (src % 64 ≠ 0 → exec (.wjput d a b) s = .next (s.trapIssue (s.fault 0x040A src))) ∧
        (src % 64 = 0 → spadOffset src n = none → exec (.wjput d a b) s = .next (s.trapIssue (s.fault 0x0408 src))) ∧
        (∀ off, src % 64 = 0 → spadOffset src n = some off →
          (v % 64 ≠ 0 → exec (.wjput d a b) s = .next (s.trapIssue (s.fault 0x040A v))) ∧
          (v % 64 = 0 → ¬ (0x8000000 ≤ v ∧ v < 0x9000000) → exec (.wjput d a b) s = .next (s.trapIssue (s.fault 0x0408 v))) ∧
          (v % 64 = 0 → 0x8000000 ≤ v → v < 0x9000000 → ¬ (lenOk ∧ (v - 0x8000000 + len - 1) / 1024 = row ∧
              (row ∈ j.planned ∨ j.planned.length < j.limit)) → exec (.wjput d a b) s = .next (s.trapIssue (s.fault 0x030E))) ∧
          (v % 64 = 0 → 0x8000000 ≤ v → v < 0x9000000 → lenOk → (v - 0x8000000 + len - 1) / 1024 = row →
            (row ∈ j.planned ∨ j.planned.length < j.limit) → s.mramLocked t (v - 0x8000000) s.myCtx = true →
            exec (.wjput d a b) s = .next (s.trapIssue (s.fault 0x0C03 v))) ∧
          (v % 64 = 0 → 0x8000000 ≤ v → v < 0x9000000 → lenOk → (v - 0x8000000 + len - 1) / 1024 = row →
            (row ∈ j.planned ∨ j.planned.length < j.limit) → s.mramLocked t (v - 0x8000000) s.myCtx = false → s.banksFree off len 0 = true → s.myTile.plain off len →
            ∃ u, exec (.wjput d a b) s = .next u ∧ (u.journal t).puts = j.puts ++
                [{ row := row, offset := (v - 0x8000000) % 1024, bytes := s.myTile.spadBytes off len, issued := s.gtick }] ∧ (u.journal t).st = .open_ ∧
              u.me.faultFlags = s.me.faultFlags &&& ~~~ 16 ∧ u.me.g = s.me.g ∧ u.mem = s.mem ∧
              u.myTile.mram = s.myTile.mram ∧ u.myTile.spad = s.myTile.spad ∧ ∀ k, t ≠ k → u.tile k = s.tile k)))) ∧
    (v = 0 → exec (.wjstat d a) s = .next (s.emit 4 (.g d.toNat (BitVec.ofNat 64 (code j.st +
      (if j.st ≠ .idle ∧ mine then 4 else 0) + 8 * j.puts.length + 256 * j.rows + 65536 * j.att + 2 ^ 32 * j.code))))) ∧
    (v ≠ 0 → s.checked (exec (.wjstat d a) s) (s.emit 4 (.g d.toNat (BitVec.ofNat 64 (
        let p := (j.shadows.lookup row).getD (s.myTile.physRow row)
        mget 0 s.myTile.wear p % 2 ^ 32 + 2 ^ 32 * p + if (j.shadows.lookup row).isSome then 2 ^ 47 else 0))))
      [(v % 1024 = 0 ∧ 0x8000000 ≤ v ∧ v < 0x9000000, 0x0309, 0)]) ∧
    (∀ (t q : Nat) (f : Flight) (rest : List Flight), s.arg 0 = t → s.arg 1 = q → (s.seq t q).dueFlights = f :: rest → f.parity = false →
      let w := s.setSeq t q ((s.seq t q).removeFlight f)
      let j := w.journal t
      let rows (n : Nat) := (w.tile t).freeRows.take n
      let lands (k : Journal) : Prop := exec .resultLanding s = .next (w.modTile t fun z => { z with journal := k })
      (∀ n, f.act = .wjOpen n → (rows n).length = n →
        lands { st := .open_, owner := q, ctx := w.ctxOf t, reserved := rows n, limit := n, idleAt := j.idleAt, paused := j.paused }) ∧
      (∀ n, f.act = .wjOpen n → (rows n).length < n → lands { j with code := 0x0504 }) ∧
      (f.act = .wjCommit → j.st ≠ .open_ → exec .resultLanding s = .next w) ∧
      (f.act = .wjCommit → j.st = .open_ → ∃ u, exec .resultLanding s = .next u ∧ (u.journal t).st = .committing ∧ (u.journal t).puts = j.puts ∧
        (j.due = none → j.pulse = none → j.paused = false → s.powerLost = false → j.puts = [] →
          (u.journal t).due = some s.gtick ∧ u.planned .journalPulse [t] s.gtick s.gtick) ∧
        (∀ p, u.seq t p = w.seq t p) ∧ (u.tile t).mram = (s.tile t).mram ∧ u.mem = s.mem))) ∧
  (∀ (s : State),
    let t := s.arg 0
    let z := s.tile t
    let j := z.journal
    let ok := Config.verifyMatches s.free
    (s.gtick < j.due.getD (s.gtick + 1) → exec .journalPulse s = .next s) ∧
    (∀ n, j.due = some n → n ≤ s.gtick → j.paused = true ∨ s.powerLost = true →
      exec .journalPulse s = .next (s.setTile t { z with journal := { j with due := none } })) ∧
    (∀ n p ps, j.due = some n → n ≤ s.gtick → j.paused = false → s.powerLost = false → j.puts = p :: ps →
      let r := p.target.getD ((j.shadows.lookup p.row).getD (j.reserved.headD 0))
      ∃ u p', exec .journalPulse s = .next u ∧ (u.tile t).journal.pulse = some n ∧ (u.tile t).journal.due = none ∧
        mget 0 (u.tile t).wear r = mget 0 z.wear r + 1 ∧ (u.tile t).journal.puts = p' :: ps ∧ p'.target = some r ∧
        p'.attempts = p.attempts + 1 ∧ p'.bytes = p.bytes ∧ (p.attempts ≠ 0 → p'.image = p.image) ∧
        (p.attempts = 0 → p.target = none → z.overlays = [] → z.cellErrors = [] → z.mramPoison = [] →
          let old := bytesAt z.mram (1024 * (j.shadows.lookup p.row).getD (z.physRow p.row)) 1024
          p'.image = old.take p.offset ++ p.bytes ++ old.drop (p.offset + p.bytes.length)) ∧ (u.tile t).journal.att = p.attempts + 1 ∧ (u.tile t).mram = z.mram ∧
        u.planned .journalVerify [t] (n + 2424) (n + 2424) ∧ (u.tile t).journal.shadows = j.shadows ∧ (u.tile t).journal.rows = j.rows ∧
        (p.target = none → j.shadows.lookup p.row = none → (u.tile t).journal.reserved = j.reserved.tail)) ∧
    (∀ n, j.due = some n → n ≤ s.gtick → j.paused = false → s.powerLost = false → j.puts = [] → j.st = .committing → ∃ u, exec .journalPulse s = .next u ∧
      (u.tile t).journal.pulse = some n ∧ (u.tile t).journal.mapWrite = some (j.mapWrite.getD 0 + 1) ∧
      u.planned .journalVerify [t] (n + 2423) (n + 2423)) ∧
    (j.pulse = none → exec .journalVerify s = .next s) ∧
    let ticks := if j.puts = [] ∧ j.aborting = false then 2423 else 2424
    (∀ n, j.pulse = some n → s.gtick < n + ticks → exec .journalVerify s = .next s) ∧
    (∀ n, j.pulse = some n → n + ticks ≤ s.gtick → ∃ u, exec .journalVerify s = .next u ∧
      (j.aborting = true → (u.tile t).journal.st = .idle ∧ (u.tile t).mram = z.mram ∧ (u.tile t).rowMap = z.rowMap) ∧
      (∀ p ps, j.aborting = false → ok = true → j.puts = p :: ps → (u.tile t).journal.puts = ps ∧ (u.tile t).journal.idleAt = s.gtick ∧
        (u.tile t).journal.shadows = (j.written p).shadows ∧ (u.tile t).journal.rows = (j.written p).rows ∧
        (∀ k, byteAt (u.tile t).mram k = if 1024 * p.target.getD 0 ≤ k ∧ k < 1024 * p.target.getD 0 + p.image.length then
          p.image.getD (k - 1024 * p.target.getD 0) 0 else byteAt z.mram k) ∧ (u.tile t).rowMap = z.rowMap) ∧
      (j.aborting = false → ok = true → j.puts = [] → (u.tile t).journal.st = .idle ∧ (u.tile t).mram = z.mram ∧
        (u.tile t).rowMap = j.shadows.foldl (fun m e => mset e.1 m e.1 e.2) z.rowMap ∧
        mget 0 (u.die (dieOf t)).commitLog t = mget 0 (s.die (dieOf t)).commitLog t + 1) ∧
      (∀ p ps, j.aborting = false → ok = false → j.puts = p :: ps →
        (p.attempts % 4 ≠ 0 → (u.tile t).journal.puts = j.puts ∧ (u.tile t).mram = z.mram ∧ (u.tile t).retiredRows = z.retiredRows) ∧
        (∀ f fs, p.attempts = 4 → z.freeRows = f :: fs → u.planned .sheafChange [2, t, p.target.getD 0] s.gtick s.gtick ∧
          (u.tile t).journal.puts = { p with target := some f, fresh := true } :: ps) ∧
        (p.attempts = 8 ∨ (p.attempts = 4 ∧ z.freeRows = []) → u.planned .sheafChange [2, t, p.target.getD 0] s.gtick s.gtick ∧ (u.tile t).journal.st = .failed ∧ (u.tile t).journal.code = 0x0503 ∧ (u.tile t).journal.puts = [] ∧
          let flagged (y y' : Seq) : Prop := y'.faultFlags = y.faultFlags ||| 16 ∧ y'.faultNow = y.faultNow ||| (1#8 <<< 4) ∧ y'.g = y.g
          (j.owner < 2 → z.ctx = some j.ctx → z.shadow.map (·.ctx) ≠ some j.ctx → flagged (s.seq t j.owner) (u.seq t j.owner)) ∧
          (∀ h, j.owner < 2 → z.shadow = some h → h.ctx = j.ctx → ∃ h', (u.tile t).shadow = some h' ∧
            (j.owner = 0 → flagged h.a h'.a) ∧ (j.owner = 1 → flagged h.b h'.b)) ∧
          (z.ctx ≠ some j.ctx → ∀ q, u.seq t q = s.seq t q)))))

/-- Outside handler mode CROPEN, below depth 4 and with its handler aligned in the text range, puts the push of the region
into flight for issue + 1, and CRCLOSE the pop where its id is the innermost region's; else 0x030F and 0x0303; in a
handler both raise 0x0311. FRET and FRET.N raise 0x0310 outside handler mode and 0x0303 for a target outside the text
range (FRET.N with FRESUME outside it, whatever the bundle after it: log 79, DESIGN CHOICE); in it they set the
handler's target, the FRESUME bundle or the one after it, and where no freeze timeout is recorded nothing else changes.
FLTRD puts eight bytes of the last record, or 0, into flight for issue + 4. A push that lands on fewer than four regions
adds the region, a pop removes the innermost, and nothing else changes. (R359, R368, R370, R371, R372, R373, R374) -/
def Obligations.RegionsReturnsAndRecords : Prop :=
  ∀ (i k : BitVec 3) (o : BitVec 16) (d : BitVec 5) (s : State),
    let handler := s.relTarget o.toInt
    let text (a : Nat) : Prop := a % 4 = 0 ∧ 0x8000000 ≤ a ∧ a ≤ 0x8FFFFFC
    let here := s.me.fresume.toNat
    let after := here + 4 * (s.myTile.bundleWords here).1.length
    s.checked (exec (.cropen i o) s) (s.emit 1 (.regionPush i.toNat handler))
      [(s.me.inHandler = false, 0x0311, 0), (s.me.regions.length < 4, 0x030F, 0), (text handler, 0x0303, handler)] ∧
    s.checked (exec (.crclose i) s) (s.emit 1 .regionPop)
      [(s.me.inHandler = false, 0x0311, 0), (∃ rs h, s.me.regions = rs ++ [(i.toNat, h)], 0x030F, 0)] ∧
    (∀ w, s.me.handler = some w → text here →
      exec .fret s = .next (s.modMe fun y => { y with handler := some { w with ret := some here } }) ∧
      (¬ text after → exec .fretN s = .next (s.trapIssue (s.fault 0x0303 after))) ∧
      (text after → (∀ r, s.me.record = some r → r.info.code ≠ 0x0108) →
        exec .fretN s = .next (s.modMe fun y => { y with handler := some { w with ret := some after } })) ∧
      (text after → ∃ y' : Seq, exec .fretN s = .next (s.modMe fun _ => { y' with handler := some { w with ret := some after } }) ∧
        y'.g = s.me.g ∧ y'.v = s.me.v ∧ y'.fresume = s.me.fresume)) ∧
    (∀ w, s.me.handler = some w → ¬ text here → ∀ j ∈ [Instr.fret, .fretN], exec j s = .next (s.trapIssue (s.fault 0x0303 here))) ∧
    (s.me.handler = none → ∀ j ∈ [Instr.fret, .fretN], exec j s = .next (s.trapIssue (s.fault 0x0310))) ∧
    exec (.fltrd d k) s = .next (s.emit 4 (.g d.toNat (match s.me.record with
      | none => 0
      | some r => BitVec.ofNat 64 (leNat ((r.toBytes.drop (8 * k.toNat)).take 8))))) ∧
    (∀ (t q : Nat) (f : Flight) (rest : List Flight), s.arg 0 = t → s.arg 1 = q → (s.seq t q).dueFlights = f :: rest → f.parity = false →
      f.flags = 0 → (s.seq t q).parityErrors = [] →
      let w := (s.seq t q).removeFlight f
      (∀ id h, f.act = .regionPush id h → w.regions.length < 4 →
        exec .resultLanding s = .next ((s.setSeq t q w).setSeq t q { w with regions := w.regions ++ [(id, h)] })) ∧
      (f.act = .regionPop → exec .resultLanding s = .next ((s.setSeq t q w).setSeq t q { w with regions := w.regions.dropLast })))

/-- With an aligned descriptor in the scratchpad: DIAGST on the scratchpad or its multicast-window alias, the parity view,
the weight MRAM or LPDDR-6 puts, for issue + 4, the descriptor's 64 data bytes and check bytes into flight: a local
write with its stored check bits, a parity write, an overlay, a write of scope P past the L1 with its device code.
DIAGLD there puts, for issue + 16, the 64 bytes as stored, their check bytes and zeros as a write of the descriptor, and
for gd the word of errors, uncorrectable, poison and injected marks; it uses the target's port, and from LPDDR-6 it
reads memory below the staging buffers and may freeze the tile until its data is there (its arrival tick is free, log
5). Misaligned targets and descriptors raise 0x040A, members' ranges and descriptors outside the scratchpad 0x0408,
global targets (in no range of R96: log 80, DEDUCED) outside LPDDR-6 0x0309, reserved banks 0x0109, DIAGLD of locked
MRAM 0x0C03; the bank of the descriptor is held to 0x0109 at the issue as well (log 75, DEDUCED). (R96, R98, R102, R110,
R334, R347, R352, R375, R376) -/
def Obligations.DiagnosticWords : Prop :=
  ∀ (d a b : BitVec 5) (s : State),
    let x := s.N a
    let e := s.N b
    let both (f : FaultInfo) : Prop := exec (.diagst a b) s = .next (s.trapIssue f) ∧ exec (.diagld d a b) s = .next (s.trapIssue f)
    let local_ : Prop := (spadOffset x 64).isSome = true ∨ (0x6000000 ≤ x ∧ x < 0x6080000) ∨ (0x8000000 ≤ x ∧ x < 0x9000000)
    let member : Prop := 0x1000000 ≤ x ∧ x < 0x3000000
    let uses (p word : Nat) : State :=
      s.modMyTile fun z => { z with uses := z.uses ++ [{ port := p, write := false, rank := s.accessRank, word := word }] }
    let loads (off : Nat) (rd : State) (out : List Byte) (errs : Nat) (unc poi inj : Bool) : Prop :=
      exec (.diagld d a b) s = .next ((rd.emit 16 (.diagDesc { bytes := cellsFrom off (out ++ List.replicate (128 - out.length) 0) })).emit 16
        (.g d.toNat (BitVec.ofNat 64 (errs + (if unc then 256 else 0) + (if poi then 512 else 0) + (if inj then 1024 else 0)))))
    let coded (off : Nat) (rd : State) (v : Vec) (stored : Option (BitVec 64)) (poi inj : Bool) : Prop :=
      let lanes := (List.range 8).map fun i => v.extractLsb' (64 * i) 64
      let checks := match stored with
        | some c => (List.range 8).map fun i => c.extractLsb' (8 * i) 8
        | none => lanes.map Config.secded
      loads off rd (vecBytes v ++ checks) ((List.range 8).filter fun i => Config.secded (lanes.getD i 0) ≠ checks.getD i 0).length
        ((List.range 8).any fun i => (laneRead (lanes.getD i 0) (checks.getD i 0)).isNone) poi inj
    (x % 64 ≠ 0 → both (s.fault 0x040A x)) ∧
    (x % 64 = 0 → member → both (s.fault 0x0408 x)) ∧
    (x % 64 = 0 → ¬ local_ → ¬ member →
      (∀ c, s.translate s.cur.tile s.cur.seq x true = .error c → exec (.diagst a b) s = .next (s.trapIssue (s.translationFault c x))) ∧
      (∀ c, s.translate s.cur.tile s.cur.seq x false = .error c → exec (.diagld d a b) s = .next (s.trapIssue (s.translationFault c x))) ∧
      (∀ u pa nc, s.translate s.cur.tile s.cur.seq x true = .ok (u, pa, nc) → u.place pa ≠ .ok .lpddr →
        exec (.diagst a b) s = .next (s.trapIssue (s.fault 0x0309 x))) ∧
      (∀ u pa nc, s.translate s.cur.tile s.cur.seq x false = .ok (u, pa, nc) → u.place pa ≠ .ok .lpddr →
        exec (.diagld d a b) s = .next (s.trapIssue (s.fault 0x0309 x)))) ∧
    (x % 64 = 0 → local_ → (e % 64 ≠ 0 → both (s.fault 0x040A e)) ∧ (e % 64 = 0 → spadOffset e 128 = none → both (s.fault 0x0408 e))) ∧
    (0x4000000 ≤ x → x + 64 ≤ 0x4040000 → spadOffset x 64 = some (x - 0x4000000 + 0x1C0000)) ∧
    (∀ off, x % 64 = 0 → e % 64 = 0 → spadOffset e 128 = some off →
      (local_ → s.banksFree off 128 0 = false → exec (.diagst a b) s = .next (s.trapIssue (s.fault 0x0109 e))) ∧
      (s.banksFree off 128 0 = true → s.myTile.plain off 128 →
        let bs := s.myTile.spadBytes off 128
        let value := bytesVec (bs.take 64)
        let bits (n : Nat) : Nat := leNat ((bs.drop 64).take n)
        let read := s.usePorts (wordsOf off 128)
        (∀ p, spadOffset x 64 = some p → s.banksFree p 64 4 = false → exec (.diagst a b) s = .next (s.trapIssue (s.fault 0x0109 x))) ∧
        (∀ p, spadOffset x 64 = some p → s.banksFree p 64 4 = true → exec (.diagst a b) s =
          .next (read.emit 4 (.store { bytes := cellsFrom p (bs.take 64), checks := some (BitVec.ofNat 64 (bits 8)) }))) ∧
        (∀ g < 4, ∀ w < 2048, x = 0x6000000 + 0x20000 * g + 64 * w →
          exec (.diagst a b) s = .next (read.emit 4 (.parity g w value (BitVec.ofNat 64 (bits 8))))) ∧
        (0x8000000 ≤ x → x < 0x9000000 →
          exec (.diagst a b) s = .next (read.emit 4 (.overlay (x - 0x8000000) value (BitVec.ofNat 41 (bits 6))))) ∧
        (∀ u pa nc, ¬ local_ → ¬ member → s.translate s.cur.tile s.cur.seq x true = .ok (u, pa, nc) → u.place pa = .ok .lpddr →
          exec (.diagst a b) s = .next ((u.usePorts (wordsOf off 128)).emit 4
            (.global { bytes := cellsFrom pa (bs.take 64), scope := 4, code := some (BitVec.ofNat 32 (bits 4)) } true false)))) ∧
      (∀ p, spadOffset x 64 = some p →
        (s.banksFree p 64 0 = false → exec (.diagld d a b) s = .next (s.trapIssue (s.fault 0x0109 x))) ∧
        (s.banksFree p 64 0 = true → coded off (uses (p / 64 % 16) (p / 64)) (s.myTile.rawWord (p / 64)) (s.myTile.mark (p / 64)).checks
          (s.myTile.mark (p / 64)).poison.isSome (s.myTile.mark (p / 64)).injected)) ∧
      (∀ g < 4, ∀ w < 2048, x = 0x6000000 + 0x20000 * g + 64 * w →
        coded off (uses (20 + g) 0) (s.myTile.parityWord g w).val (s.myTile.parityWord g w).checks false (s.myTile.parityWord g w).injected) ∧
      (0x8000000 ≤ x → x < 0x9000000 →
        let o := x - 0x8000000
        let stored := bytesVec (s.myTile.mramBytes o 64)
        let wrong := s.myTile.mramError (s.myTile.physRow (o / 1024)) (o / 64)
        let fix := bchCorrect wrong.1.toNat wrong.2.1.toNat
        (s.mramLocked s.cur.tile o s.myCtx = true → exec (.diagld d a b) s = .next (s.trapIssue (s.fault 0x0C03 x))) ∧
        (s.mramLocked s.cur.tile o s.myCtx = false →
          loads off (uses 16 0) (vecBytes (stored ^^^ wrong.1) ++ leBytes 6 (bchChecks stored ^^^ wrong.2.1).toNat) ((fix.map (·.2)).getD 0) fix.isNone
            (s.myTile.mramPoison.any fun m => m.1 == 16 * s.myTile.physRow (o / 1024) + o / 64 % 16) wrong.2.2)) ∧
      (∀ u pa nc, ¬ local_ → ¬ member → s.translate s.cur.tile s.cur.seq x false = .ok (u, pa, nc) → u.place pa = .ok .lpddr →
        let k := u.homeAddr (64 * (pa / 64)) / 64
        let v := bytesVec (bytesAt u.mem (64 * k) 64)
        let m := u.sectorMark k
        loads off ((u.modMe fun y => { y with diagWaits := y.diagWaits ++ [(u.me.now + 16, u.gtick + 1 + Config.arrivalDelay u.free, u.me.inHandler)] }).tickFree)
          (vecBytes v ++ leBytes 4 (m.code.getD (deviceWord v)).toNat) (sectorDecode v m.code).2.1 (sectorDecode v m.code).2.2 m.poison.isSome m.injected))

/-- The words of TRAP with gd zero decode to TRAP and its 16-bit code, and with another gd to nothing. TRAP records fault
0x0305 with the code in the record's detail. Where a region is open and no partition-level fault of the tile came in the
same tick, the innermost region's handler runs next on the sequencer, in handler mode, with the region popped and the
record taken; where none is open, the task stops, faulted. (R206) -/
def Obligations.TrapIsTakenByTheInnermostRegion : Prop :=
  ∀ (i : BitVec 16) (s : State),
    (∀ gd < 32, decodeTableWord 32 (0x11E00000 + 2 ^ 16 * gd + i.toNat) = if gd = 0 then some (.trap i) else none) ∧
    ∃ u r, exec (.trap i) s = .next u ∧ u.log.getLast? = some r ∧ r.info.code = 0x0305 ∧ r.info.detail = i.toNat ∧
      r.tile = s.cur.tile ∧ r.seq = s.cur.seq ∧ r.tick = s.gtick ∧
      (s.myTile.partTick ≠ some s.gtick →
        (∀ rs id h, s.me.regions = rs ++ [(id, h)] →
          u.me.pc = h ∧ u.me.inHandler = true ∧ u.me.regions = rs ∧ u.me.record = some r ∧ r.level = 1 ∧ r.region = id) ∧
        (s.me.regions = [] → u.me.run = .stopped ∧ u.me.inHandler = false ∧ (u.ctx s.myCtx).taskFault.isSome = true))

/-- An issue fault of a region- or task-level code: with a region open, the record stands in the log and the failure
registers, FSTEP is H, FRESUME the bundle due at H, the count of bundles to skip and the engine flags of the two steps
before H are kept for the return, the innermost region is popped, the sequencer goes on at its handler in handler mode,
and the tile freezes; with none open, and no third consecutive iteration faulted, the task stops with the registers
filled. No result, register or memory byte of a word changes, no other tile does, and no other sequencer of the tile,
but that the record goes before those of the tick that came from later sequencers, whose ring indices move by one. The
count of bundles to skip is kept by log 13 (DEDUCED). The return takes the sequencer out of handler mode and puts its
next bundle at the target, drops the handler's results, restores the count of bundles to skip (log 13, DEDUCED) and the
engine flags of the steps before H, keeps the failure registers, and ends the tile's pause unless the other sequencer is
in it; with no further fault due at H nothing else changes. With one, it is taken as a trap at H: with a region open,
its handler runs next, and the record that stands for it is that region's, at region level. (R210, R339, R340, R341,
R343, R344, R346, R370, R345, R373) -/
def Obligations.FaultsTakenAndHandlersLeft : Prop :=
  (∀ (s : State) (f : FaultInfo),
    let t := s.cur.tile
    let q := s.cur.seq
    let y := s.me
    let x := s.myCtx
    let H := (y.handler.map (·.h)).getD y.clock
    let due := (y.handler.map (·.due)).getD s.cur.bundle
    let r0 : FaultRecord := { info := { f with step := H }, escalated := y.inHandler, tick := s.gtick, tile := t, seq := q, depth := y.regions.length }
    let late := s.lateRecords x r0
    partitionCode f.code = false → f.code ≠ 0x0801 → f.code ≠ 0x0C03 → s.myTile.partTick ≠ some s.gtick →
    (∀ rs id h, y.regions = rs ++ [(id, h)] → ∃ r hd,
      let u := s.trapIssue f
      u.me = { y with regions := rs, record := some r, fstep := BitVec.ofNat 64 H, fresume := BitVec.ofNat 64 due, pc := h,
                      taken := y.taken && y.inHandler, skipLeft := 0, handler := some hd } ∧
      r = { info := { f with step := H }, level := 1, escalated := y.inHandler, lost := false, tick := s.gtick, tile := t, seq := q,
            ring := s.ringFor x r0, depth := rs.length + 1, region := id } ∧
      hd.h = H ∧ hd.due = due ∧ hd.ret = none ∧ hd.entered = s.gtick ∧ (y.handler = none → hd.clock = 0 ∧ hd.skip = y.skipLeft ∧ hd.flags1 = y.flags1 ∧ hd.flags2 = y.flags2) ∧
      u.log.getLast? = some r ∧ u.myTile.frozen = true ∧ (u.myTile.trap.map fun p => p.order.contains q) = some true ∧
      u.mem = s.mem ∧ u.dies = s.dies ∧ u.gtick = s.gtick ∧ u.myTile.spad = s.myTile.spad ∧
      (∀ j, t ≠ j → u.tile j = { s.tile j with a := (s.tile j).a.moveRecords late, b := (s.tile j).b.moveRecords late }) ∧
      (∀ p, ¬ (q = 0 ↔ p = 0) → u.seq t p = (s.seq t p).moveRecords late)) ∧
    (y.regions = [] → ¬ ((s.ctx x).taskFault = none ∧ 2 ≤ (s.ctx x).taskFaults) → ∃ r,
      let u := s.trapIssue f
      u.me = { y.stopTask with record := some r, fstep := BitVec.ofNat 64 H, fresume := BitVec.ofNat 64 due, pc := due } ∧
      r = { info := { f with step := H }, level := 2, escalated := y.inHandler, lost := false, tick := s.gtick, tile := t, seq := q,
            ring := s.ringFor x r0, depth := 0, region := 255 } ∧
      u.log.getLast? = some r ∧ (u.ctx x).taskFault.isSome = true ∧ u.mem = s.mem ∧ u.dies = s.dies ∧
      (∀ j, t ≠ j → u.tile j = { s.tile j with a := (s.tile j).a.moveRecords late, b := (s.tile j).b.moveRecords late }) ∧
      u.myTile.spad = s.myTile.spad ∧ (∀ p, ¬ (q = 0 ↔ p = 0) → u.seq t p = (s.seq t p).moveRecords late))) ∧
  (∀ (s : State) (t q target : Nat),
    let y := s.seq t q
    let back : Seq := { y with handler := none, pc := target, taken := false, hflights := [],
                               skipLeft := (y.handler.map (·.skip)).getD 0, pending := y.pending.tail,
                               flags1 := (y.handler.map (·.flags1)).getD 0, flags2 := (y.handler.map (·.flags2)).getD 0 }
    let u := s.leaveHandler t q target
    (y.pending = [] → u.seq t q = back ∧ (∀ p, ¬ (q = 0 ↔ p = 0) → u.seq t p = s.seq t p) ∧ (∀ j, t ≠ j → u.tile j = s.tile j) ∧
      (∀ p, (s.tile t).trap = some p → p.order = [q] → (u.tile t).trap = none) ∧
      (u.tile t).frozen = (s.tile t).frozen ∧ { u with tiles := s.tiles } = s) ∧
    (∀ r rest rs id h, y.pending = r :: rest → y.regions = rs ++ [(id, h)] → (s.tile t).partTick ≠ some s.gtick →
      (u.seq t q).inHandler = true ∧ (u.seq t q).pc = h ∧ (u.seq t q).regions = rs ∧ (u.seq t q).pending = rest ∧
      (u.seq t q).fresume = BitVec.ofNat 64 target ∧ ∃ r', (u.seq t q).record = some r' ∧ r'.info.code = r.info.code ∧ r'.level = 1 ∧
      u.log = s.log.map fun e => if e = r then { r with level := 1, region := id } else e))

/-- After cold reset every control register reads 0 on every sequencer, but TILEID and SEQID, which read the tile and
sequencer numbers; the failure registers read 0; no result is in flight, no landing slot holds data, no handler runs;
the device registers hold the values of their table (SEL0, SEL1, LOCK, SELERR, GTREF, PTPREF, PTPSTAT and BOOTSTEP 0,
RATE 0xD5_5555_5555, the three shares 0x64); no byte of LPDDR-6 or of a scratchpad is listed. Zero general registers and
bytes that are not listed reading 0 are the model's choices (logs 3 and 4). (R150, R151, R175, R176, R306, R307, R334,
R370) -/
def Obligations.ResetState : Prop :=
  (∀ t < 384, ∀ q < 2, ∀ c < 256, ctlAssigned c = true →
    State.reset.readCtl t q c = if c = 0x20 then BitVec.ofNat 64 t else if c = 0x21 then BitVec.ofNat 64 q else 0) ∧
  (∀ t q r, (State.reset.seq t q).readG r = 0 ∧ (State.reset.seq t q).flights = [] ∧ (State.reset.seq t q).handler = none ∧
    ((State.reset.seq t q).landing r).st = .empty) ∧
  (State.reset.regs.sel0 = 0 ∧ State.reset.regs.sel1 = 0 ∧ State.reset.regs.lock = false ∧ State.reset.regs.selerr = false ∧
    State.reset.regs.gtref = 0 ∧ State.reset.regs.ptpref = 0 ∧ State.reset.regs.rate = 0xD555555555 ∧ State.reset.regs.ptpstat = 0 ∧
    State.reset.regs.share1 = 0x64 ∧ State.reset.regs.share2 = 0x64 ∧ State.reset.regs.share3 = 0x64 ∧ State.reset.regs.bootstep = 0) ∧
  State.reset.mem = [] ∧ (∀ t, (State.reset.tile t).spad = [] ∧ (State.reset.tile t).mxmode = 0) ∧ State.reset.dead = false

/-- While the tile steps: COPY_COMMAND_START of a local command lets its beats begin, of a CPYM with the physical row of
every row it reads; of a command with a global side it first translates the pages of that side (of GATH and SCAT those
of the frames that the page list of the slot names), and then lets the beats begin, CPYG and GATH with the bytes of
every beat as the party reads them and a tick at which each arrives (free, in order, log 5); a page that does not
translate ends the command with the queue's fault flag and the translation's code, or as its request's fault 0x0801
where the address is the request's, a CPYX outside the package windows with 0x040B; COPY_BEAT reads a beat's bytes from
sound scratchpad words that no atomic holds or reserves in the step, or lets a beat into the own scratchpad perform as
one write of the step at the engine's rank, folding its bytes into the running value under .CS, a beat that performs
elsewhere being folded when it has performed, in order; COPY_COMMAND_COMPLETE of a command whose beats have all
performed takes it out of its queue, clears both values under .LAST, and under .CMP with a difference records 0x0602 and
sets the queue's fault flag; CPYX_ACKNOWLEDGMENT of a beat that is not the last counts it and folds its bytes; as an
input it brings the bytes as the target wrote them, where a link error changed them. (R89, R127, R129, R179, R201, R261,
R264, R265, R266, R268, R269, R270) -/
def Obligations.CopiesStartMoveAndComplete : Prop :=
  ∀ (s : State) (i : Nat) (k : Command),
    let t := s.arg 0
    let q := s.arg 1
    let c := s.arg 2
    let z := s.queueOf t q c
    let x := s.tile t
    let others (u : State) : Prop := (∀ j, t ≠ j → u.tile j = s.tile j) ∧ u.mem = s.mem ∧ (u.tile t).spad = x.spad ∧ (u.seq t q).g = (s.seq t q).g
    let begins (u : State) (ps : Map Nat) (moving : List (Nat × List Byte × Option Poison)) (arr : List Nat) (read : Nat) : State :=
      u.modQueue t q c fun z => z.modCmd i fun k => { k with pages := some ps, moving := moving, arrivals := arr, read := read }
    let starts (u : State) (ps : Map Nat) : Prop := exec .copyCommandStart s = .next (begins u ps [] [] 0)
    let brings (u : State) (ps : Map Nat) : Prop := ∃ (w : State) (arr : List Nat), w.mem = s.mem ∧ arr.length = k.beats ∧
      arr.Pairwise (· ≤ ·) ∧ (∀ n ∈ arr, s.gtick < n) ∧ exec .copyCommandStart s = .next (begins w ps
        ((List.range k.beats).map fun j => (j, (k.pieces ps j).flatMap fun (p : Nat × Nat) => (u.engineBytes t q p.1 p.2).1,
          (k.pieces ps j).findSome? fun (p : Nat × Nat) => (u.engineBytes t q p.1 p.2).2)) arr k.beats)
    let fails (code addr : Nat) (record : Option Nat) : Prop := exec .copyCommandStart s =
      .next (((s.endCommand t q c i { z with fault := true }).modSeq t q fun y => y.raiseFlag (2 + c)).takeDue t q
        [{ k.faultOf c (s.seq t q) code addr with rindex := record.getD 0xFFFFFFFF }])
    let ctx := s.ctx (s.ctxOf t)
    let slot (operand : Nat) : Option (Nat × Request) := ctx.winnow.slots.lookup (operand % 65536)
    let named (operand : Nat) : Request := match slot operand with | some e => e.2 | none => {}
    let frames (operand : Nat) (write : Bool) : Except Nat (State × Map Nat) :=
      s.framePages t q (named operand).pageList (named operand).pages write
        ((pagesOf (operand / 65536) k.len).map (·.1))
    let storing : Prop := k.kind = .cpyw ∨ k.kind = .cpyx ∨ (k.kind = .redc ∧ redcLocal k.dst = false)
    (x.frozen = false → s.queueNext t q c = some (0, i, k) →
      (k.kind = .cpy ∨ k.kind = .cpymc ∨ (k.kind = .redc ∧ redcLocal k.dst = true) → starts s []) ∧
      (k.kind = .cpym → ∃ ps, starts s ps ∧ ∀ row, (k.src - 0x8000000) / 1024 ≤ row → row ≤ (k.src - 0x8000000 + k.len - 1) / 1024 →
        ps.lookup row = some (x.physRow row)) ∧
      (∀ u ps, storing → s.translatePages t q true (pagesOf k.dst k.len) = .ok (u, ps) →
        (k.kind ≠ .cpyx ∨ u.inWindows t q ((pagesOf k.dst k.len).map (·.2)) = true → starts u ps) ∧
        (k.kind = .cpyx → u.inWindows t q ((pagesOf k.dst k.len).map (·.2)) = false → fails 0x040B k.dst none)) ∧
      (∀ u ps, k.kind = .cpyg → s.translatePages t q false (pagesOf k.src k.len) = .ok (u, ps) → brings u ps) ∧
      (∀ code a, (storing ∧ s.translatePages t q true (pagesOf k.dst k.len) = .error (code, a)) ∨
          (k.kind = .cpyg ∧ s.translatePages t q false (pagesOf k.src k.len) = .error (code, a)) →
        match ctx.slotOf a with
        | some (_, record) => fails 0x0801 a (some record)
        | none => fails code a none) ∧
      (∀ u ps, k.kind = .gath → frames k.src false = .ok (u, ps) → brings u ps) ∧
      (∀ u ps, k.kind = .scat → frames k.dst true = .ok (u, ps) → starts u ps) ∧
      (∀ a, k.kind = .gath → frames k.src false = .error a → fails 0x0801 a ((slot k.src).map (·.1))) ∧
      (∀ a, k.kind = .scat → frames k.dst true = .error a → fails 0x0801 a ((slot k.dst).map (·.1)))) ∧
    (x.frozen = false → s.queueNext t q c = some (1, i, k) → k.kind ≠ .cpym →
      let off := (spadOffset k.src k.len).getD 0 + 64 * k.read
      let m := min 64 (k.len - 64 * k.read)
      x.plain off m → x.rowMeets false (wordsOf off m) = false → ∃ u, exec .copyBeat s = .next u ∧ others u ∧
        u.queueOf t q c = { z with cmds := z.cmds.modify i fun k' =>
          { k' with read := k.read + 1, moving := k'.moving ++ [(k.read, x.spadBytes off m, none)] } }) ∧
    (∀ bs, x.frozen = false → s.queueNext t q c = some (2, i, k) → k.kind = .cpy ∨ k.kind = .cpym ∨ k.kind = .cpyg ∨ k.kind = .gath ∨ k.kind = .redc →
      k.dst < 0x200000 → k.moving.lookup k.done = some (bs, none) →
      let off := (spadOffset k.dst k.len).getD 0 + 64 * k.done
      x.rowMeets false (wordsOf off bs.length) = false → k.unfolded = [] →
      (∀ e ∈ s.aperture, e.2.issuer = seqNumber t q → e.2.cmd ≠ k.name c k.done) →
      (∀ e ∈ s.tiles, ∀ b ∈ e.2.inbound, b.issuer = seqNumber t q → b.cmd ≠ k.name c k.done) → ∃ u, exec .copyBeat s = .next u ∧ others u ∧
        (u.tile t).writes = x.writes ++ [(writeKey ((s.seq t q).clock - (k.start + k.base + k.done)) (12 + 2 * q + c),
          { bytes := cellsFrom off bs, add := decide (k.kind = .redc), issuer := seqNumber t q })] ∧
        u.queueOf t q c = { z with
          cmds := z.cmds.modify i fun k' =>
            { k' with done := k.done + 1, moving := k'.moving.filter (fun b => b.1 != k.done), arrivals := k'.arrivals.tail },
          run := if k.fold then BitVec.ofNat 32 (bs.foldl crcByte z.run.toNat) else z.run }) ∧
    (∀ j bs rest, x.frozen = false → s.queueNext t q c = some (4, i, k) → k.unfolded = (j, bs) :: rest → k.fold = true → exec .copyBeat s =
      .next (s.modQueue t q c fun z => { z with run := BitVec.ofNat 32 (bs.foldl crcByte z.run.toNat),
                                                cmds := z.cmds.modify i fun k => { k with unfolded := rest } })) ∧
    (x.frozen = false → s.queueNext t q c = some (3, i, k) → k.compare = false ∨ z.run = z.expect → ∃ u, exec .copyCommandComplete s = .next u ∧ others u ∧
      u.queueOf t q c = { z with cmds := z.cmds.eraseIdx i, recent := z.recent && i + 1 != z.cmds.length,
                                 run := if k.last then 0 else z.run, expect := if k.last then 0 else z.expect }) ∧
    (x.frozen = false → s.queueNext t q c = some (3, i, k) → k.compare = true → z.run ≠ z.expect → (s.seq t q).handler = none → ∃ u r,
      exec .copyCommandComplete s = .next u ∧ (u.queueOf t q c).fault = true ∧ u.log.getLast? = some r ∧ r.info.code = 0x0602 ∧
      r.info.aux0 = z.run.toNat ∧ r.info.aux1 = z.expect.toNat) ∧
    (∀ back bs rest, s.cur.bytes = [] → z.ackDue s.gtick = some (k, i) → k.kind = .cpyx → k.acks = (back, bs) :: rest → k.acked + 1 < k.beats →
      exec .cpyxAcknowledgment s = .next (s.modQueue t q c fun z => { z with
        cmds := z.cmds.modify i fun _ => { k with acks := rest, acked := k.acked + 1 },
        run := if k.fold then BitVec.ofNat 32 (bs.foldl crcByte z.run.toNat) else z.run })) ∧
    (∀ pre post back bs rest, s.cur.bytes ≠ [] → s.cur.bytes.length = bs.length → z.cmds = pre ++ k :: post →
      (∀ j ∈ pre, j.acks = []) → k.acks = (back, bs) :: rest → exec .cpyxAcknowledgment s = .next (s.modQueue t q c fun z =>
        { z with cmds := pre ++ { k with acks := (back, s.cur.bytes) :: rest } :: post }))

/-- BANK_CONFLICT_SERVE freezes its tile for a tick and pays one of the ticks owed; APERTURE_WRITE_PERFORM moves the tile's
due aperture writes to its inbound port (number 384 stands for peers' tiles: a write for one is released behind what has
been released before, log 44, DEDUCED, so that its addresses read its bytes and every other as before; memory itself is
unchanged); DEFERRED_INBOUND_WRITE, on a tile that is not OFF and not on its way there, performs a due inbound write
whose banks no atomic holds and whose words hold no wrong bit, byte by byte; LANDING_DATA_ARRIVAL makes the PENDING slot
of its ticket HELD before its arrival step, FULL after, in the tile of the request or, where its context has moved, in
the tile that it runs on now; LANDING_DUE makes a HELD slot FULL and freezes the tile for a PENDING one; FREEZE_TIMEOUT
records 0x0108, the second time on one wait at partition level; TRAP_PAUSE_TIMEOUT records it at partition level. (R53,
R54, R57, R99, R101, R102, R127, R128, R266, R340, R369, R412) -/
def Obligations.TileHappenings : Prop :=
  ∀ (s : State),
    let t := s.arg 0
    let q := s.arg 1
    let l := s.arg 2
    let x := s.tile t
    let d := (s.seq t q).landing l
    let requested (y : Seq) : Prop := (y.landing l).st = .pending ∧ (y.landing l).ticket = s.arg 3
    let r := s.requester t q l (s.arg 3)
    let dr := (s.seq r q).landing l
    let frame (u : State) : Prop := (∀ j, t ≠ j → u.tile j = s.tile j) ∧ u.mem = s.mem
    (∃ u, exec .bankConflictServe s = .next u ∧ frame u ∧ (u.tile t).frozen = true ∧ (u.tile t).owed = x.owed - 1 ∧
      (u.tile t).a = x.a ∧ (u.tile t).b = x.b ∧ (u.tile t).spad = x.spad) ∧
    (∃ u, exec .apertureWritePerform s = .next u ∧ (∀ j, t ≠ j → u.tile j = s.tile j) ∧ u.mem = s.mem ∧ (∀ e, e ∈ u.aperture ↔ e ∈ s.aperture ∧ ¬ (e.1 = t ∧ e.2.due ≤ s.gtick)) ∧
      (t ≠ 384 → (u.tile t).inbound.map (·.write) = x.inbound.map (·.write) ++
        (s.aperture.filter fun e => e.1 == t && e.2.due ≤ s.gtick).map fun e => e.2.write) ∧
      (∀ e a bs, t = 384 → (s.aperture.filter fun e => e.1 == t && e.2.due ≤ s.gtick) = [(384, e)] → e.write.bytes = cellsFrom a bs →
        s.migrations = [] → s.forwarding = [] → s.codesClean = true →
        ∀ k, u.physByte k = if a ≤ k ∧ k < a + bs.length then bs.getD (k - a) 0 else s.physByte k)) ∧
    (∀ e off bs, x.goesOff = false → x.written = false → x.uses = [] → x.atomicNow = [] → x.writes = [] → x.inbound = [e] → e.due ≤ s.gtick → e.write.add = false →
      e.write.bytes = cellsFrom off bs → (∀ r ∈ x.reservations, r.left = 0) →
      (∀ k ∈ wordsIn e.write.bytes, (x.mark k).checks = none ∧ (x.mark k).wrong = 0) → ∃ u, exec .deferredInboundWrite s = .next u ∧ frame u ∧
        (u.tile t).inbound = [] ∧
        ∀ a, (u.tile t).spadByte a = if off ≤ a ∧ a < off + bs.length then bs.getD (a - off) 0 else x.spadByte a) ∧
    (∃ u, exec .landingDataArrival s = .next u ∧ u.mem = s.mem ∧
      (∀ j p, ¬ (r = j ∧ (q = 0 ↔ p = 0)) → u.seq j p = s.seq j p) ∧ (u.seq r q).g = (s.seq r q).g ∧
      (¬ requested (s.seq r q) → (u.seq r q).landing l = dr) ∧
      (requested (s.seq r q) → (u.seq r q).landing l =
        { dr with st := if (if dr.handler then (s.seq r q).now else (s.seq r q).clock) < dr.arrival then .held else .full })) ∧
    (requested (s.seq t q) → r = t) ∧
    (∀ j, ¬ requested (s.seq t q) → (∃ e ∈ s.tiles, requested (e.2.seq q)) → (∀ e ∈ s.tiles, requested (e.2.seq q) → e.1 = j) → r = j) ∧
    (d.st = .held → exec .landingDue s = .next (s.modSeq t q fun y => y.setLanding l { d with st := .full })) ∧
    (d.st = .pending → d.given = false →
      exec .landingDue s = .next (s.modTile t fun x => { x with frozen := true, waiting := true, frozenBy := q })) ∧
    (∃ u r, exec .freezeTimeout s = .next u ∧ (u.tile t).frozenFor = 0 ∧ u.log.getLast? = some r ∧ r.info.code = 0x0108 ∧ r.tile = t ∧
      r.seq = x.frozenBy ∧ (u.seq t x.frozenBy).timedOut = true ∧
      ((s.seq t x.frozenBy).timedOut = true → r.level = 4 ∧
        ((s.ctx (s.ctxOf t)).part = .running → (u.ctx (s.ctxOf t)).ending.isSome = true))) ∧
    (∃ u r, exec .trapPauseTimeout s = .next u ∧ u.log.getLast? = some r ∧ r.info.code = 0x0108 ∧ r.level = 4 ∧ r.escalated = true ∧
      r.tile = t ∧ ((s.ctx (s.ctxOf t)).part = .running → (u.ctx (s.ctxOf t)).ending.isSome = true))

/-- GRAPH_WALK_COND goes to the node that its condition bit chooses, GRAPH_WALK_WHILE into its body while the bit is 1 and
its passes since it was entered from outside the body (log 61, DEDUCED: which nodes are the body) are below the limit,
GRAPH_WALK_END frees the tiles and ends the LAUNCH; a segment node is chosen for the next start. SEGMENT_START begins
the chosen segment with its tasks, its end by its length formula. TASK_START starts a task whose checks, and those of
every task of its tick, pass, with its pc and its clocks, rotation and regions at 0; a failing one, its sequencer in no
handler, keeps them all from starting, with 0x0101 or 0x0105. SEGMENT_END with every task done ends the segment, and
with RQEND begins Winnow's boundary; with a task not done, which R28 has not kept from starting, it records 0x010E.
(R19, R27, R28, R30, R32, R33, R34, R35, R47, R340) -/
def Obligations.TheWalkAndItsSegments : Prop :=
  ∀ (s : State) (l : Launch),
    let x := s.arg 0
    let c := s.ctx x
    let n := c.node
    let goes (u : State) (m : Nat) : Prop :=
      (s.nodeField x m 0 1 ≠ 0 → (u.ctx x).node = m ∧ (u.ctx x).chosen = c.chosen) ∧
      (s.nodeField x m 0 1 = 0 → (u.ctx x).node = s.nodeField x m 6 2 ∧ (u.ctx x).chosen = some (s.nodeField x m 4 2))
    let failed (u : State) (codes : List Nat) : Prop := ∃ r, u.log.getLast? = some r ∧ r.info.code ∈ codes ∧ r.level = 4
    (c.launch = some l → c.chosen = none → c.seg = none →
      (∃ u, exec .graphWalkCond s = .next u ∧
        goes u (if c.cond.getLsbD (s.nodeField x n 1 1) then s.nodeField x n 4 2 else s.nodeField x n 6 2)) ∧
      (∃ u, exec .graphWalkWhile s = .next u ∧ let limit := s.nodeField x n 8 4
        let passes := if s.fromBody x n then mget 0 c.passes n else 0
        if c.cond.getLsbD (s.nodeField x n 1 1) = true ∧ (limit = 0 ∨ passes < limit) then
          goes u (s.nodeField x n 4 2) ∧ mget 0 (u.ctx x).passes n = passes + 1
        else goes u (s.nodeField x n 6 2) ∧ mget 0 (u.ctx x).passes n = 0) ∧
      (∃ u, exec .graphWalkEnd s = .next u ∧ (u.ctx x).launch = none ∧ (u.ctx x).part = .unbound ∧ (u.ctx x).tiles = [] ∧
        ∀ t ∈ c.tiles, (s.tile t).ctx = some x → (u.tile t).ctx = none)) ∧
    (∀ k, c.chosen = some k → ∃ u, exec .segmentStart s = .next u ∧ (u.ctx x).seg = some k ∧ (u.ctx x).chosen = none ∧
      (u.ctx x).segStart = max c.nextStart s.gtick ∧ (u.ctx x).rqend = false ∧
      (u.ctx x).segEnd = max c.nextStart s.gtick + s.formula x k (s.segField x k 0x0C 4) ∧
      (u.ctx x).tasks.length = s.segField x k 4 2) ∧
    (∀ k, c.tasks[s.arg 1]? = some k → c.blocked = false → k.started = false →
      let same := c.tasks.filter fun j => j.start == k.start && !j.started
      let t := (c.seqOf k.seqNum).1
      let q := (c.seqOf k.seqNum).2
      ((∀ j ∈ same, s.startFault x j = none) → ∃ u y, exec .taskStart s = .next u ∧ u.seq t q = y ∧ y.run = .running ∧ y.clock = 0 ∧
        y.t0 = s.gtick ∧ y.slip = 0 ∧ y.pc = 0x8000000 + s.taskField x (s.taskIndex x (c.seg.getD 0) k.index) 4 4 ∧ y.vrb = 0 ∧ y.prb = 0 ∧
        y.regions = [] ∧ y.handler = none ∧ y.g = (s.seq t q).g ∧ y.v = (s.seq t q).v ∧
        (u.ctx x).tasks = c.tasks.modify (s.arg 1) fun j => { j with started := true }) ∧
      ((∃ j ∈ same, s.startFault x j ≠ none) → (s.seq t q).handler = none → ∃ u, exec .taskStart s = .next u ∧ (u.ctx x).blocked = true ∧
        failed u [0x0101, 0x0105] ∧ (u.seq t q).run = (s.seq t q).run)) ∧
    (∀ k, c.seg = some k →
      ((∃ j ∈ c.tasks, s.taskDone x j.index = false ∧ (j.started = true ∨ c.blocked = false)) → ∃ u, exec .segmentEnd s = .next u ∧ failed u [0x010E] ∧ (u.ctx x).seg = some k) ∧
      ((∀ j ∈ c.tasks, s.taskDone x j.index = true) → ∃ u, exec .segmentEnd s = .next u ∧ (u.ctx x).seg = none ∧
        (∀ j ∈ c.tasks, (u.seq (c.seqOf j.seqNum).1 (c.seqOf j.seqNum).2).run = .idle) ∧
        (c.rqend = true → (u.ctx x).winnow.closing = some k) ∧
        (c.rqend = false → (∀ d < 4, (s.die d).staging = []) → goes u n)))

/-- BOUNDARY_SIGNAL marks a hold whose lines are clean, with no cached store still to perform, as signalled; without a hold
it records 0x0103 at partition level. With no external write waiting and no page migrating, and no store of a holding
party still to perform, PHASE_RELEASE ends the holds that are over, each clock taking in its slip; where that passes
over the start of no copy command, a staged entry of a phase's party is released, and so seen by all, where its scope is
within the boundary's, and stays otherwise. WINNOW_BOUNDARY publishes the next iteration: commits and faults of the old
one are gone, the iteration number rises by 1, and the task-level fault of the iteration is counted (what becomes of the
requests and of the batch: WinnowSnapshotsRetiresAndAdmits and WinnowAllocatesAndPublishes). (R29, R56, R77, R85, R87,
R118, R119, R132, R340) -/
def Obligations.BoundariesReleaseAndPublish : Prop :=
  ∀ (s : State),
    let t := s.arg 0
    let q := s.arg 1
    let y := s.seq t q
    (∀ h, y.hold = some h →
      h.phase = false ∨ (h.scope < 4 ∧ (∀ l ∈ y.l1, l.dirty = 0) ∧ ∀ f ∈ y.flights, ∀ w b, f.act ≠ .global w false b) →
      exec .boundarySignal s = .next (s.setSeq t q { y with hold := some { h with signalled := true } })) ∧
    (y.hold = none → ∃ u r, exec .boundarySignal s = .next u ∧ u.log.getLast? = some r ∧ r.info.code = 0x0103 ∧ r.level = 4 ∧
      r.tile = t ∧ r.seq = q ∧ ((s.ctx (s.ctxOf t)).part = .running → (u.ctx (s.ctxOf t)).ending.isSome = true)) ∧
    ((∀ d < 4, (s.die d).staging = []) → s.ingress = [] → s.migrations = [] →
      (∀ e ∈ s.holdsOver, ∀ f ∈ (s.seq e.1 e.2.1).flights, f.heldStore e.2.2 = none) →
      exec .phaseRelease s = .next (s.holdsOver.foldl (fun u e => u.endHold e.1 e.2.1 e.2.2) s)) ∧
    (∀ t q h d e, s.holdsOver = [(t, q, h)] → h.phase = true → d < 4 → (s.die d).staging = [e] →
      (∀ j < 4, j ≠ d → (s.die j).staging = []) → e.party = 2 * t + q → e.write.add = false → s.peerLost e.write = false →
      e.wrong = [] → e.write.settled = [] → (∀ f ∈ (s.seq t q).flights, f.heldStore h = none) → (∀ c < 2, ∀ k ∈ (s.queueOf t q c).cmds, k.pages = none →
      (s.seq t q).clock + (s.seq t q).slip ≤ k.start) → e.write.bytes ≠ [] → s.ingress = [] → s.migrations = [] → ∃ u, exec .phaseRelease s = .next u ∧ u.mem = s.mem ∧
        (u.seq t q).hold = none ∧ (u.seq t q).clock = (s.seq t q).clock + (s.seq t q).slip ∧ (u.seq t q).slip = 0 ∧
        (∀ l ∈ (u.seq t q).l1, l.valid = 0) ∧
        if e.write.scope ≤ h.scope ∨ (e.write.scope = 6 ∧ 4 ≤ h.scope) then u.forward = s.forward ++ [e] ∧ (u.die d).staging = []
        else u.forward = s.forward ∧ (u.die d).staging = [e]) ∧
    (∀ x k l, x = s.arg 0 → (s.ctx x).winnow.closing = some k → (s.ctx x).launch = some l → ∃ u, exec .winnowBoundary s = .next u ∧
      let w := (u.ctx x).winnow
      w.iteration = (s.ctx x).winnow.iteration + 1 ∧ w.published = (s.ctx x).winnow.iteration + 1 ∧ w.publishTick = s.gtick ∧
      w.closing = none ∧ w.commits = [] ∧ w.faults = [] ∧ w.cancels = [] ∧ (u.ctx x).taskFault = none ∧
      (u.ctx x).taskFaults = if (s.ctx x).taskFault.isSome then (s.ctx x).taskFaults + 1 else 0)

/-- A bind takes its partition from its start up to its end, with every tile free, ACTIVE and not failed, and no waiting
bind of a higher class or earlier deadline on one of them; it becomes active. For a new LAUNCH each tile holds the
context with both sequencers' registers zero, L1 and TLB empty (log 43, DEDUCED) and MAPVER the Sheaf's version, the
partition runs and its first segment starts at the launch's start at the earliest; for a saved context whose declared
counts its tiles offer, none of them stretched under STRICT, its tiles are held, halted, until a resume later; else its
bind ends and it is suspended, to be restored elsewhere. A bind that waits with tiles held by partitions it may displace
ends those at level 0: each halts within 180 ticks. A bind that does not wait changes nothing. At its end an active
bind's partition is to halt within 180 ticks; one that has not got its partition lapses, and the Granary looks for a
place again; before it nothing changes. A bind's tiles are distinct. (R19, R24, R32, R60, R62, R173, R318, R319) -/
def Obligations.BindsTakeAndEnd : Prop :=
  ∀ (s : State),
    let b := s.arg 0
    let r := s.bind b
    let x := r.ctx
    let halting (u : State) (y level : Nat) : Prop := (u.ctx y).part = .halting ∧ (u.ctx y).ending = some (level, 0) ∧
      u.planned .partitionHalt [y] s.gtick (s.gtick + 180)
    r.tiles.Nodup ∧
    (s.bindTakes r = true → r.valid = true ∧ r.active = false ∧ r.start ≤ s.gtick ∧ s.gtick < r.end_ ∧
      ∀ t ∈ r.tiles, (s.tile t).ctx = none ∧ (s.tile t).failed = false ∧ (s.tile t).power = .active ∧ (s.tile t).move = .none) ∧
    (s.bindTakes r = true → (s.ctx x).bind = some b → ∀ e ∈ s.binds, s.bindWaits e.2 = true → (∃ t ∈ r.tiles, t ∈ e.2.tiles) →
      e.1 < 64 → b < 64 → e.2.deadline < 2 ^ 64 → r.deadline < 2 ^ 64 →
      r.class_ ≤ e.2.class_ ∧ (r.class_ = 0 → e.2.class_ = 0 → r.deadline ≤ e.2.deadline)) ∧
    (s.bindTakes r = true → (s.ctx x).part = .unbound → ∃ u l, exec .bindTakePartition s = .next u ∧ (s.ctx x).launch = some l ∧
      (u.bind b).active = true ∧ (u.ctx x).part = .running ∧ (u.ctx x).launch = some l ∧ (u.ctx x).nextStart = max l.start s.gtick ∧
      (u.ctx x).ackVersion = s.sheaf.version ∧ ∀ t ∈ (s.ctx x).tiles, (u.tile t).ctx = some x ∧ (u.tile t).halt = none ∧
        (u.tile t).mxmode = BitVec.ofNat 2 l.mxmode ∧ (u.tile t).spad = (s.tile t).spad ∧
        ∀ q, u.seq t q = { mapver := BitVec.ofNat 64 s.sheaf.version }) ∧
    (∀ l, s.bindTakes r = true → (s.ctx x).part = .swapped → (s.ctx x).launch = some l → s.tilesTake l (s.ctx x).tiles = false →
      (s.ctx x).bind = some b → ∃ u, exec .bindTakePartition s = .next u ∧ (u.bind b).active = false ∧ (u.bind b).valid = false ∧
        (u.ctx x).part = .suspended ∧ u.tiles = s.tiles ∧ u.planned .contextRestore [x] s.gtick s.gtick) ∧
    (∀ l, s.bindTakes r = true → (s.ctx x).part = .swapped → (s.ctx x).launch = some l → s.tilesTake l (s.ctx x).tiles = true → ∃ u, exec .bindTakePartition s = .next u ∧ (u.bind b).active = true ∧
      (u.ctx x).part = .halted ∧ u.planned .partitionResume [x] (s.gtick + 1) (s.gtick + s.swapTicks x) ∧
      ∀ t ∈ (s.ctx x).tiles, (u.tile t).ctx = some x ∧ (u.tile t).halt = some s.gtick ∧ (u.tile t).shadow = (s.tile t).shadow) ∧
    (s.bindTakes r = false → s.bindWaits r = true → ∃ u, exec .bindTakePartition s = .next u ∧ u.tiles = s.tiles ∧ u.bind b = { r with acted := true } ∧
      (∀ k, b ≠ k → u.bind k = s.bind k) ∧
      ∀ y ∈ s.displaced r, (s.ctx y).ending = none → halting u y 0) ∧
    (s.bindWaits r = false → exec .bindTakePartition s = .next s) ∧
    (r.end_ ≤ s.gtick → (s.ctx x).launch.isSome = true → r.active = true → (s.ctx x).part = .running → s.bindOver r = true) ∧
    (r.end_ ≤ s.gtick → (s.ctx x).launch.isSome = true → r.active = false → r.valid = true → (s.ctx x).part = .unbound ∨ (s.ctx x).part = .swapped →
      s.bindOver r = true) ∧
    (s.gtick < r.end_ → s.bindOver r = false) ∧
    (s.bindOver r = true → r.active = true → (s.ctx x).ending = none → ∃ u, exec .bindEnd s = .next u ∧ u.tiles = s.tiles ∧ halting u x 1) ∧
    (s.bindOver r = true → r.active = false → ∃ u, exec .bindEnd s = .next u ∧ u.tiles = s.tiles ∧ u.ctxs = s.ctxs ∧
      u.bind b = { r with valid := false } ∧ u.planned .contextRestore [x] s.gtick s.gtick) ∧
    (s.bindOver r = false → exec .bindEnd s = .next s)

/-- PARTITION_HALT stops every tile on one tick (log 24, DEDUCED) with its sequencers as they stand; with slots, one write
is released, to bytes of the context's 64 KiB state block alone (free values: log 58, DESIGN CHOICE, by which a LAUNCH
without slots writes none); memory is else unchanged; a beat in flight arrives and is acknowledged within 1260 ticks,
and the swap follows those, within 18 µs and 0.5 µs for each further group of 32 tiles; at level 4 it ends the LAUNCH,
frees its tiles and discards their staged writes. CONTEXT_SWAP, with no write for a lost peer, releases every staged
entry and dirty sector of the tiles, saves both sequencers (the declared vector, tile, accumulator and output registers;
no L1: log 59, DEDUCED), the window, the trap and MXMODE of each tile in its shadow and frees it. PARTITION_RESUME puts
the saved sequencers back, t0 later by the pause, as the timetable's coming ticks are. CONTEXT_RESTORE binds a saved
context again on the lowest partition that takes it (log 23, DESIGN CHOICE), one that is free where it may move, its
images moved place by place; after a spare, on its own, once that stands and is free; with none free it is tried again;
with none that takes it, it is suspended with a record; with an image lost or unreadable (log 64, DESIGN CHOICE) it ends
with 0x0508. A context not yet begun is placed anew. MAPACK_MISSED records 0x0B01 and halts the context. (R61, R62, R63,
R64, R65, R94, R139, R319, R329, R354, R355, R382) -/
def Obligations.PartitionsHaltSwapAndResume : Prop :=
  ∀ (s : State),
    let x := s.arg 0
    let c := s.ctx x
    let again (args : List Nat) (u : State) : Prop := u.tiles = s.tiles ∧ u.ctxs = s.ctxs ∧ ∃ e ∈ u.agenda, e.op = .contextRestore ∧ e.args = args ∧ s.gtick < e.tick
    let lost (k : Nat) (u : State) (level : Nat) : Prop := ∃ f, u.log.getLast? = some f ∧ f.info.code = k ∧ f.level = level
    (∀ level code, c.part = .halting → c.ending = some (level, code) →
      (level ≠ 4 → level ≠ 5 → c.winnow.closing = none → ∃ u, exec .partitionHalt s = .next u ∧ (u.ctx x).part = .halted ∧
        (u.ctx x).winnow = c.winnow ∧ u.mem = s.mem ∧
        (∃ es, u.forward = s.forward ++ es ∧ es.length ≤ 1 ∧ (∀ l, c.launch = some l → l.slots = 0 → es = []) ∧
          ∀ e ∈ es, ∀ b ∈ e.write.bytes, ∃ i < 65536, ∃ pa, s.ctxAddr x (c.winnow.stateBlock + i) = .ok pa ∧ b.1 = s.homeAddr pa) ∧
        (∀ e ∈ u.aperture, e.2.arrival = true → e.2.issuer < 768 → e.2.issuer / 2 ∈ c.tiles → e.2.due ≤ s.gtick + 1259) ∧
        u.planned .contextSwap [x] (s.gtick + 1261) (s.gtick + 21600 + 600 * ((c.tiles.length + 31) / 32 - 1)) ∧
        ∀ t ∈ c.tiles, (u.tile t).halt = some s.gtick ∧ (u.tile t).spad = (s.tile t).spad ∧ ∀ q,
          { u.seq t q with c0 := (s.seq t q).c0, c1 := (s.seq t q).c1 } = s.seq t q ∧
          ∀ c < 2, (u.queueOf t q c).cmds.length = (s.queueOf t q c).cmds.length ∧
            ∀ k ∈ (u.queueOf t q c).cmds, ∀ a ∈ k.acks, a.1 ≤ s.gtick + 1260) ∧
      (∀ l, level = 4 → c.launch = some l → ∃ u, exec .partitionHalt s = .next u ∧ (u.ctx x).launch = none ∧
        (u.ctx x).part = .unbound ∧ (∀ t ∈ c.tiles, (s.tile t).ctx = some x → (u.tile t).ctx = none) ∧
        ∀ d < 4, ∀ e ∈ (u.die d).staging, ∀ t ∈ c.tiles, (s.tile t).ctx = some x → e.party / 2 ≠ t)) ∧
    (∀ level code l, c.part = .halted → c.ending = some (level, code) → level ≠ 5 → c.launch = some l →
      (∀ d < 4, ∀ e ∈ (s.die d).staging, e.party / 2 ∈ c.tiles → s.peerLost e.write = false) →
      (∀ t ∈ c.tiles, ∀ q < 2, ∀ w ∈ (s.seq t q).writeBacks (fun _ => true) id, s.peerLost w = false) →
      ∃ u, exec .contextSwap s = .next u ∧ (u.ctx x).part = (if level = 3 then .suspended else .swapped) ∧ (u.ctx x).ending = none ∧ u.mem = s.mem ∧
        (∀ d < 4, ∀ e ∈ (u.die d).staging, e.party / 2 ∉ c.tiles) ∧ (∀ e ∈ s.forward, e ∈ u.forward) ∧
        (∀ d < 4, ∀ e ∈ (s.die d).staging, e.party / 2 ∈ c.tiles → e.wrong = [] → e.write.add = false → e ∈ u.forward) ∧
        (∀ t ∈ c.tiles, t < 384 → ∀ q < 2, ∀ w ∈ (s.seq t q).writeBacks (fun _ => true) id, ∃ e ∈ u.forward, e.party = seqNumber t q ∧ e.write = w) ∧
        (code ≠ 0x0C02 → ∃ e ∈ u.agenda, e.op = .contextRestore ∧ e.args = [x, if code = 0x0B02 then 1 else 0] ∧ s.gtick < e.tick) ∧
        ∀ t, c.tiles.count t = 1 → (u.tile t).ctx = none ∧ (u.tile t).halt = none ∧ ∃ h, (u.tile t).shadow = some h ∧ h.ctx = x ∧
          h.haltTick = (s.tile t).halt.getD 0 ∧ h.trap = (s.tile t).trap ∧ h.mxmode = (s.tile t).mxmode ∧
          let kept (y : Seq) : Seq := { y with v := y.v.filter (fun e => e.1 < l.vregs), t := y.t.filter (fun e => e.1 < l.tregs),
                                               a := y.a.filter (fun e => e.1 < l.accs), o := y.o.filter (fun e => e.1 < l.outs),
                                               l1 := [], tlb := [] }
          h.a = kept (s.seq t 0) ∧ h.b = kept (s.seq t 1) ∧ h.reservations = (s.tile t).reservations ∧
          ((s.tile t).inbound = [] → l.window % 64 = 0 → l.windowLen % 64 = 0 → (s.tile t).plain l.window l.windowLen →
            ∀ i < l.windowLen, h.window.lookup (l.window + i) = some ((s.tile t).spadByte (l.window + i)))) ∧
    (c.part = .halted → s.powerLost = false → c.ending = none → (∀ t ∈ c.tiles, s.hasImage x t = true) →
      (∀ t ∈ c.tiles, ∀ h, (s.tile t).shadow = some h → h.lost = []) →
      ∃ u, exec .partitionResume s = .next u ∧ (u.ctx x).part = .running ∧ (u.ctx x).ending = none ∧ (u.ctx x).resumeTick = s.gtick ∧
        (∀ t h, c.tiles.head? = some t → (s.tile t).shadow = some h → (u.ctx x).segEnd = c.segEnd + (s.gtick - h.haltTick)) ∧
        ∀ t h, c.tiles.count t = 1 → (s.tile t).shadow = some h → (u.tile t).shadow = none ∧ (u.tile t).halt = none ∧
          (u.tile t).mxmode = h.mxmode ∧ u.seq t 0 = h.a.resume (s.gtick - h.haltTick) ∧ u.seq t 1 = h.b.resume (s.gtick - h.haltTick) ∧
          (u.seq t 0).t0 = h.a.t0 + (s.gtick - h.haltTick) ∧ (u.seq t 0).g = h.a.g) ∧
    (∀ l b, c.launch = some l → c.bind = some b → c.part = .swapped ∨ c.part = .suspended → (s.bind b).active = false →
      s.powerLost = false → s.tdiError x = false →
      let places := s.restorePlaces x (s.bind b)
      let own : Prop := s.arg 1 = 1
      let ready : Prop := ¬ own ∨ ∀ t ∈ c.tiles, (s.tile t).failed = false
      let wide := c.part = .suspended ∨ (s.bind b).policy = 2
      let open_ (k : Bind) : Bool := k.tiles.all s.tileOpen
      let moved (k : Bind) : Prop := ∃ u, exec .contextRestore s = .next u ∧
        (u.ctx x).part = .swapped ∧ (u.ctx x).tiles = k.tiles ∧ (u.bind b).valid = true ∧ (u.bind b).active = false ∧
        (u.bind b).ctx = x ∧ ∀ (i t t' : Nat) (h : Shadow), c.tiles[i]? = some t → k.tiles[i]? = some t' → (s.tile t).shadow = some h →
          (u.tile t').shadow = some { h with ctx := x, a := h.a.restored l s.sheaf.version, b := h.b.restored l s.sheaf.version }
      (¬ ready → ∃ u, exec .contextRestore s = .next u ∧ again [x, 1] u) ∧
      (ready → (∃ t ∈ c.tiles, s.hasImage x t = false) → ∃ u, exec .contextRestore s = .next u ∧ (u.ctx x).launch = none ∧ lost 0x0508 u 4) ∧
      (ready → (∀ t ∈ c.tiles, s.hasImage x t = true) → (s.bind b).valid = true → (s.bind b).policy ≠ 2 → exec .contextRestore s = .next s) ∧
      (ready → (∀ t ∈ c.tiles, s.hasImage x t = true) → (s.bind b).valid = true → (s.bind b).policy = 2 →
        let ks := places.filter fun k => levelsOk l.levels k.tiles && s.tilesTake l k.tiles && open_ k
        (ks = [] ∨ (∃ k ∈ ks, k.tiles = c.tiles) → ∃ u, exec .contextRestore s = .next u ∧ again [x] u) ∧
        (∀ k, ks.head? = some k → (∀ k ∈ ks, k.tiles ≠ c.tiles) → moved k)) ∧
      (ready → own → (∀ t ∈ c.tiles, s.hasImage x t = true) → (s.bind b).valid = false → s.tilesTake l c.tiles = true →
        ((∀ t ∈ c.tiles, s.tileOpen t = true) → moved (s.bind b)) ∧
        ((∃ t ∈ c.tiles, s.tileOpen t = false) → ∃ u, exec .contextRestore s = .next u ∧ again [x, 1] u)) ∧
      (ready → (¬ own ∨ s.tilesTake l c.tiles = false) → (∀ t ∈ c.tiles, s.hasImage x t = true) → (s.bind b).valid = false →
        (∀ k : Bind, s.placeLaunch l places (fun _ => false) = .ok k →
          (¬ wide ∨ open_ k = true → moved k) ∧
          (wide → open_ k = false →
            (∀ j : Bind, s.placeLaunch l (places.filter open_) (fun _ => false) = .ok j → moved j) ∧
            (∀ code, s.placeLaunch l (places.filter open_) (fun _ => false) = .error code →
              ∃ u, exec .contextRestore s = .next u ∧ again [x] u))) ∧
        (∀ code, s.placeLaunch l places (fun _ => false) = .error code → c.ending ≠ some (3, code) →
          ∃ u, exec .contextRestore s = .next u ∧ (u.ctx x).part = .suspended ∧ (u.ctx x).ending = some (3, code) ∧ lost code u 3))) ∧
    (∀ l b, c.launch = some l → c.bind = some b → c.part = .unbound → (s.bind b).active = false → s.powerLost = false → s.tdiError x = false →
      ((s.bind b).valid = true → exec .contextRestore s = .next s) ∧
      ((s.bind b).valid = false →
        (∀ k : Bind, s.placeLaunch l (shapes (l.size / 2)) (fun _ => false) = .ok k → ∃ u, exec .contextRestore s = .next u ∧
          (u.ctx x).launch = some l ∧ (u.ctx x).part = .unbound ∧ (u.ctx x).tiles = k.tiles ∧ (u.bind b).valid = true ∧
          (u.bind b).active = false ∧ (u.bind b).ctx = x ∧ (u.bind b).tiles = k.tiles) ∧
        (∀ code, s.placeLaunch l (shapes (l.size / 2)) (fun _ => false) = .error code → ∃ u, exec .contextRestore s = .next u ∧
          (u.ctx x).launch = none))) ∧
    (∀ d ds, c.ackDue = d :: ds → c.ackVersion < s.sheaf.version → (d.2 ≤ s.gtick ∨ s.arg 1 = 1) → c.part = .running → c.ending = none →
      ∃ u, exec .mapackMissed s = .next u ∧ lost 0x0B01 u 3 ∧ (u.ctx x).ending = some (3, 0x0B01) ∧ (u.ctx x).part = .halting ∧
        (u.ctx x).ackDue = []) ∧
    (c.ackDue = [] → exec .mapackMissed s = .next s)

/-- A tile in IDLE wakes in 60 ticks, in RETAIN in 9 600, in OFF in 36 000; an ACTIVE tile is left alone. A wake for a
context is none unless the context holds the tile and its chosen segment, if one is chosen, declares it (log 62,
DEDUCED). A wake ends ACTIVE; from OFF with an empty scratchpad that is undefined but for the words that Winnow has
written since (they stand: log 57, DEDUCED), empty L1s and TLBs, an image that has come since (log 68, DEDUCED) and an
idle journal, else with its content. An entry ends in its state; OFF loses scratchpad, L1s, TLBs, saved context and
overlays, the others lose nothing. A failed tile that no context holds is replaced by its die's lowest spare (in OFF, or
RETAIN with an image, its scratchpad undefined: log 55, DESIGN CHOICE) with MRAM's row map, wear and saved context, and
the Sheaf's version rises by 1; with a context on it, it waits. (R14, R18, R19, R294, R355) -/
def Obligations.TilesChangePower : Prop :=
  ∀ (s : State),
    let t := s.arg 0
    let z := s.tile t
    (wakeTicks .idle = 60 ∧ wakeTicks .retain = 9600 ∧ wakeTicks .off = 36000) ∧
    (64 ≤ s.arg 1 → z.move = .none →
      (z.power ≠ .active → exec .tileWake s = .next (s.setTile t { z with move := .waking (s.gtick + wakeTicks z.power) })) ∧
      (z.power = .active → exec .tileWake s = .next s)) ∧
    (s.arg 1 < 64 → z.move = .none → z.power ≠ .active →
      (z.ctx ≠ some (s.arg 1) → exec .tileWake s = .next s) ∧
      (z.ctx = some (s.arg 1) →
        let wakes := exec .tileWake s = .next (s.setTile t { z with move := .waking (s.gtick + wakeTicks z.power) })
        ((s.ctx (s.arg 1)).chosen = none → wakes) ∧
        ∀ k, (s.ctx (s.arg 1)).chosen = some k →
          (t ∈ s.declared (s.arg 1) k → wakes) ∧ (t ∉ s.declared (s.arg 1) k → exec .tileWake s = .next s))) ∧
    (∀ n, z.move = .waking n → ∃ u, exec .tileWakeComplete s = .next u ∧ (u.tile t).power = .active ∧ (u.tile t).move = .none ∧
      (∀ j, j ≠ t → u.tile j = s.tile j) ∧ u.mem = s.mem ∧
      (z.power ≠ .off → u.tile t = { z with power := .active, move := .none }) ∧
      (z.power = .off → let held := (z.inbound.filter fun e => e.issuer == winnowIssuer).map (·.write)
        (u.tile t).inbound = z.inbound.filter (fun e => e.issuer != winnowIssuer) ∧
        (held = [] → (u.tile t).spad = [] ∧ (u.tile t).undef = [(0, 0x200000)]) ∧
        ((∀ w ∈ held, w.add = false ∧ w.checks = none ∧ (w.bytes.map (·.1)).Nodup) → ∀ a,
          byteAt (u.tile t).spad a = held.foldl (fun b w => (w.bytes.lookup a).getD b) 0 ∧
          (a < 0x200000 → ((∃ r ∈ (u.tile t).undef, r.1 ≤ a ∧ a < r.2) ↔ ∀ w ∈ held, w.bytes.lookup a = none))) ∧
        (u.tile t).wake = z.wake + 1 ∧ (u.tile t).shadow = z.shadow ∧
        (u.tile t).overlays = [] ∧ (u.seq t 0).l1 = [] ∧ (u.seq t 0).tlb = [] ∧ (u.seq t 1).l1 = [] ∧ (u.seq t 1).tlb = [] ∧
        (u.tile t).journal.st = .idle ∧ (u.tile t).mram = z.mram ∧ (u.tile t).rowMap = z.rowMap)) ∧
    (∀ p n, z.move = .entering p n → ∃ u, exec .tileEntryComplete s = .next u ∧ (∀ j, j ≠ t → u.tile j = s.tile j) ∧ u.mem = s.mem ∧
      (p ≠ .off → u.tile t = { z with power := p, move := .none }) ∧
      (p = .off → u.tile t = { z with power := .off, move := .none, spad := [], marks := [], parity := [], parityDue := [], left := [],
                                      shadow := none, overlays := [], a := { z.a with l1 := [], tlb := [] },
                                      b := { z.b with l1 := [], tlb := [] } })) ∧
    (z.failed = true → 0 < s.sparesLeft (dieOf t) →
      (z.ctx = none → ∃ u, exec .tileReplaced s = .next u ∧ (u.tile t).failed = false ∧ (u.tile t).power = (if z.shadow.isSome then .retain else .off) ∧ (u.tile t).undef = [(0, 0x200000)] ∧
        (u.tile t).rowMap = z.rowMap ∧ (u.tile t).wear = z.wear ∧ (u.tile t).shadow = z.shadow ∧ (u.tile t).spad = [] ∧
        u.sheaf.version = s.sheaf.version + 1 ∧ u.sparesLeft (dieOf t) = s.sparesLeft (dieOf t) - 1 ∧
        u.sheaf.tileMap.lookup t = some (100 - s.sparesLeft (dieOf t))) ∧
      (z.ctx ≠ none → ∃ u, exec .tileReplaced s = .next u ∧ u.tiles = s.tiles ∧ u.sheaf = s.sheaf)) ∧
    (z.failed = false → exec .tileReplaced s = .next s)

/-- A packet in hand of a queue no longer served is put down. One that needs a feature not locked is consumed and answered
0x0906. SUBMIT queues a FREE and valid record, faults an invalid one, answers 0x0905 for one that is not FREE, and
leaves an unstable one at the head to be tried again; the request takes the queue's class (log 56). A retry does the
same with the packet then at the head. A queue of class 2 needs its feature. CANCEL is consumed and answered 0, and the
record is cancelled at the next boundary. What is consumed advances the head or empties the lane; the completion record
goes into the host's ring. (R67, R70, R307, R309, R313, R314, R322) -/
def Obligations.RequestPackets : Prop :=
  ∀ (s : State),
    let q := s.arg 0
    let from_ := s.arg 1
    let p := s.cur.bytes
    let x := s.queue q
    (∀ op ∈ ([.submit, .cancel, .wait, .armTimer, .timerDisarm] ++ if from_ = 1 then [] else [.launch, .weightWrite, .fencePacket] : List Instr),
      (s.inService q = false → exec op s = .next (s.setQueue q { x with busy := false })) ∧
      (s.inService q = true → s.featuresOk x p = false → ∃ u, exec op s = .next u ∧ s.answered q from_ p 0x0906 u ∧ u.ctxs = s.ctxs)) ∧
    (s.inService q = true → s.featuresOk x p = true →
      (∃ u, exec .submit s = .next u ∧ s.submits q from_ p u) ∧
      ∃ u, exec .cancel s = .next u ∧ s.answered q from_ p 0 u ∧
        (u.winnow x.ctx).cancels = (s.winnow x.ctx).cancels ++ [field p 0x10 4]) ∧
    (x.class_ = 2 → s.regs.feature 7 = false → s.featuresOk x p = false) ∧
    (x.retry = false → exec .submitRetry s = .next s) ∧
    (x.retry = true → s.inService q = true → let p := x.lane.getD (s.headPacket x)
      packetOp p = 1 → s.packetOk x p x.lane.isNone = true → s.featuresOk x p = true →
      ∃ u, exec .submitRetry s = .next u ∧ s.submits q (if x.lane.isSome then 2 else 0) p u)

/-- A LAUNCH whose context has one that has not completed stays at the head and blocks the queue; one refused is consumed
and answered with its code, 0x0902 for a context not created; one accepted is consumed, is the context's launch, and a
bind record holds its place. A WAIT and a FENCE are consumed when their block begins, and hold their queue (log 40,
DEDUCED; R391 gives the commit point); a WAIT for what its function may not use puts the queue in ERROR with 0x0903.
When an accepted LAUNCH has ended, its packet completes with its code. When the condition of a WAIT holds, or every
packet before a FENCE has completed, the packet completes and the block ends; else nothing changes. A queue that has
been blocked for 1 200 000 ticks is unmapped. (R36, R37, R313, R314, R317, R318, R319, R391) -/
def Obligations.LaunchAndWaitPackets : Prop :=
  ∀ (s : State),
    let q := s.arg 0
    let from_ := s.arg 1
    let p := s.cur.bytes
    let x := s.queue q
    let opened : List (Nat × Nat × Bool) := x.open_ ++ [(packetTag p, packetOp p, packetSilent p)]
    let kind := field p 0x10 1
    let n := field p 0x14 4
    let v := field p 0x18 8
    let blocks (u : State) (w : Nat × Nat × Nat) : Prop := s.consumed q from_ u ∧ (u.queue q).wait = some w ∧
      (u.queue q).blockedAt = some s.gtick ∧ (u.queue q).open_ = opened ∧ u.mem = s.mem ∧ u.ctxs = s.ctxs ∧
      u.planned .waitUnmapTimeout [q] (s.gtick + 1200000) (s.gtick + 1200000)
    let ends (u : State) (op tag : Nat) (rest : List (Nat × Nat × Bool)) : Prop := (u.queue q).wait = none ∧ (u.queue q).open_ = rest ∧
      s.completedWith q tag op 0 false u
    (s.inService q = true → s.featuresOk x p = true →
      (from_ ≠ 1 → s.launchOpen x.ctx = true → ∃ u, exec .launch s = .next u ∧ (u.queue q).head = x.head ∧ (u.queue q).lane = x.lane ∧
        (u.queue q).blockedAt = some (x.blockedAt.getD s.gtick) ∧ u.ctxs = s.ctxs ∧ u.mem = s.mem) ∧
      (from_ ≠ 1 → s.launchOpen x.ctx = false → let r := s.checkLaunch x.ctx (field p 0x10 8) q (packetTag p) (packetSilent p)
        ((s.ctx x.ctx).created = false → r = .error 0x0902) ∧
        (∀ code, r = .error code → ∃ u, exec .launch s = .next u ∧ s.answered q from_ p code u ∧ u.ctxs = s.ctxs) ∧
        (∀ l k, r = .ok (l, k) → ∃ u b, exec .launch s = .next u ∧ s.consumed q from_ u ∧ (u.queue q).open_ = opened ∧ u.mem = s.mem ∧
          (u.ctx x.ctx).launch = some l ∧ (u.ctx x.ctx).node = l.first ∧ (u.ctx x.ctx).part = .unbound ∧ (u.ctx x.ctx).tiles = k.tiles ∧
          (u.ctx x.ctx).bind = some b ∧ (u.bind b).valid = true ∧ (u.bind b).active = false ∧ (u.bind b).ctx = x.ctx ∧
          (u.bind b).tiles = k.tiles ∧ (u.bind b).class_ = x.class_ ∧ s.gtick ≤ (u.bind b).start)) ∧
      (s.waitAllowed x kind n = true → ∃ u, exec .wait s = .next u ∧ blocks u (kind, n, v)) ∧
      (s.waitAllowed x kind n = false → ∃ u, exec .wait s = .next u ∧ s.consumed q from_ u ∧ (u.queue q).state = 2 ∧
        (u.queue q).error = 0x0903 ∧ s.completedWith q (packetTag p) 4 0x0903 (packetSilent p) u) ∧
      (from_ ≠ 1 → ∃ u, exec .fencePacket s = .next u ∧ blocks u (3, 0, 0))) ∧
    (∀ tag silent rest, s.powerLost = false → s.tdiError x.ctx = false → from_ = 1 → s.arg 2 = tag → x.open_ = (tag, 3, silent) :: rest →
      ∃ u, exec .launch s = .next u ∧ (u.queue q).open_ = rest ∧ s.completedWith q tag 3 (s.arg 3) silent u ∧ u.ctxs = s.ctxs) ∧
    (∀ k m w tag rest, s.inService q = true → x.wait = some (k, m, w) → k < 3 → x.open_ = (tag, 4, false) :: rest →
      let met := match k with
        | 0 => w ≤ s.gtick
        | 1 => w ≤ (s.queue m).completed
        | _ => w ≤ (s.ctx m).winnow.iteration
      (met → ∃ u, exec .waitConditionMet s = .next u ∧ ends u 4 tag rest) ∧ (¬ met → exec .waitConditionMet s = .next s)) ∧
    (∀ a b op tag rest, s.inService q = true → from_ = 1 → x.wait = some (3, a, b) → x.open_ = (tag, op, false) :: rest →
      (op = 7 → ∃ u, exec .fencePacket s = .next u ∧ ends u 7 tag rest) ∧ (op ≠ 7 → exec .fencePacket s = .next s)) ∧
    (∀ b, x.mapped = true → x.blockedAt = some b → exec .waitUnmapTimeout s =
      .next (if b + 1200000 ≤ s.gtick then s.setQueue q { x with mapped := false, blockedAt := none, served := 0 } else s))

/-- ARM_TIMER copies the packet and arms the slot, or is answered 0x0903 for a packet that arms a timer or 0x0907 for a
queue it may not use; with op 1 it empties the slot. At a wheel tick the releases of a timer that fell since the tick
before become one pending release, stamped with the time of the first, the others, and all that come while one is
pending, counted as missed; it enters the lane of its queue where that is free, the queue ENABLED and its context bound,
and a one-shot timer is then disarmed (a timer that shares its queue with none: log 90 is the choice between two).
WEIGHT_WRITE, its source in the context's addresses or for the management function's queues in bus addresses (log 25,
DEDUCED), needs its rows unlocked (0x0C01), an idle journal (an earlier WEIGHT_WRITE completed), and free rows (0x0504);
then a transaction of the Granary is open with the first 16 puts; one that has committed completes with 0, one that
failed with its code, and leaves the journal idle. A thread that misses its commit point starts again from the queue
block, rewritten from its shadow image where its commit word is wrong, the rest of the agenda as it was; the third time,
of that stretch, the packet completes and the queue enters ERROR with 0x0903. (R287, R288, R313, R321, R322, R334, R391,
R392, R398) -/
def Obligations.TimersWeightsAndWatchdog : Prop :=
  ∀ (s : State),
    let q := s.arg 0
    let from_ := s.arg 1
    let p := s.cur.bytes
    let x := s.queue q
    let k := field p 0x2C 2
    (s.inService q = true → s.featuresOk x p = true →
      (let packet := s.busBytes (field p 0x20 8) 64
       let n := field p 0x28 4
       let bad := (s.queue n).ctx ≠ x.ctx ∨ (s.queue n).state ≠ 1
       (packetOp packet = 5 → ∃ u, exec .armTimer s = .next u ∧ s.answered q from_ p 0x0903 u ∧ u.timers = s.timers) ∧
       (packetOp packet ≠ 5 → bad → ∃ u, exec .armTimer s = .next u ∧ s.answered q from_ p 0x0907 u ∧ u.timers = s.timers) ∧
       (packetOp packet ≠ 5 → ¬ bad → ∃ u, exec .armTimer s = .next u ∧ s.answered q from_ p 0 u ∧ (∀ j, j ≠ k → u.timer j = s.timer j) ∧
         u.timer k = { armed := true, first := field p 0x10 8, period := field p 0x18 8, queue := n, packet := packet })) ∧
      (∃ u, exec .timerDisarm s = .next u ∧ s.answered q from_ p 0 u ∧ u.timer k = {} ∧ ∀ j, j ≠ k → u.timer j = s.timer j) ∧
      (from_ ≠ 1 → let t := field p 0x18 2
        let puts := rowPuts (field p 0x20 4) (s.sourceBytes x.ctx (field p 0x10 8) (field p 0x1C 4)) s.gtick
        let owned := ∀ m ∈ puts, s.ownsRegion x.ctx (16 * t + m.row / 1024) = true
        (¬ owned → ∃ u, exec .weightWrite s = .next u ∧ s.answered q from_ p 0x0C01 u ∧ u.tiles = s.tiles) ∧
        (owned → s.writeWaits x t = true → ∃ u, exec .weightWrite s = .next u ∧
          (u.queue q).head = x.head ∧ (u.queue q).blockedAt = some (x.blockedAt.getD s.gtick) ∧ u.tiles = s.tiles ∧ u.mem = s.mem) ∧
        (owned → s.writeWaits x t = false →
          ((s.tile t).freeRows.length < puts.length → ∃ u, exec .weightWrite s = .next u ∧ s.answered q from_ p 0x0504 u ∧
            (u.tile t).journal.st = .idle ∧ (u.tile t).journal.code = 0x0504) ∧
          (puts.length ≤ (s.tile t).freeRows.length → ∃ u, exec .weightWrite s = .next u ∧ s.consumed q from_ u ∧ u.mem = s.mem ∧
            (u.queue q).open_ = x.open_ ++ [(packetTag p, packetOp p, packetSilent p)] ∧ (u.tile t).journal.st = .open_ ∧
            (u.tile t).journal.owner = 2 ∧ (u.tile t).journal.queue = some q ∧ (u.tile t).journal.limit = puts.length ∧
            (u.tile t).journal.reserved = (s.tile t).freeRows.take puts.length ∧ (u.tile t).journal.puts = puts.take 16)))) ∧
    (∀ w rest, from_ = 1 → s.powerLost = false → s.tdiError x.ctx = false → x.writes = [w] → x.open_ = (w.tag, 6, w.silent) :: rest →
      let j := (s.tile w.tile).journal
      (j.queue = some q → j.st = .failed → ∃ u, exec .weightWrite s = .next u ∧
        s.completedWith q w.tag 6 j.code w.silent u ∧ (u.queue q).writes = [] ∧ (u.queue q).open_ = rest ∧ (u.tile w.tile).journal.st = .idle) ∧
      (j.queue ≠ some q → w.committed = true → ∃ u, exec .weightWrite s = .next u ∧
        s.completedWith q w.tag 6 0 w.silent u ∧ (u.queue q).writes = [] ∧ (u.queue q).open_ = rest ∧ u.tiles = s.tiles)) ∧
    (∀ j t, s.powerLost = false → (s.timers.map (·.1)).Nodup → (j, t) ∈ s.timers → t.armed = true →
      (∀ e ∈ s.timers, e.1 ≠ j → e.2.queue ≠ t.queue) → ∃ u, exec .timerWheelTick s = .next u ∧
      let now (i : Nat) : Prop := (i = 0 ∨ 0 < t.period) ∧ t.first + i * t.period ≤ s.gtick ∧ s.gtick < t.first + i * t.period + 1024
      let y := s.queue t.queue
      let takes : Prop := y.state = 1 ∧ y.lane = none ∧ ∃ b, (s.ctx y.ctx).bind = some b ∧ (s.bind b).active = true
      let after (stamp missed : Nat) : Prop :=
        (¬ takes → (u.timer j).pending = some (stamp, missed) ∧ (u.queue t.queue).lane = y.lane) ∧
        (takes → (u.timer j).pending = none ∧ (u.timer j).armed = decide (t.period ≠ 0) ∧ (u.queue t.queue).lane = some
          (t.packet.take 2 ++ leBytes 2 missed ++ (t.packet.drop 4).take 4 ++ leBytes 8 stamp ++ t.packet.drop 16))
      ((∀ i, ¬ now i) → t.pending = none → u.timer j = t ∧ (u.queue t.queue).lane = y.lane) ∧
      (∀ n m, 0 < m → (∀ i, now i ↔ n ≤ i ∧ i < n + m) →
        (t.pending = none → after ((t.first + n * t.period) % 2 ^ 64) (min 65535 (m - 1))) ∧
        (∀ d k, t.pending = some (d, k) → after d (min 65535 (k + m))))) ∧
    ((∀ e ∈ s.agenda, s.ofThread q e = false) → exec .granaryWatchdogExpiry s = .next s) ∧
    (∀ e, s.agenda.find? (s.ofThread q) = some e →
      (e.restarts + 1 < 3 → ∃ u, exec .granaryWatchdogExpiry s = .next u ∧
        (let y := if x.commit = x.crc then x else x.rewritten
         (u.queue q).head = (if x.commit = x.crc then x.head else x.shadow.head) ∧
         if x.completed ≠ x.shadow.completed ∧ (x.completed + 1) % 2 ^ 32 = x.shadow.completed
         then s.posts (y.ring + 16 * (x.completed % y.size)) x.shadow.record u ∧ (u.queue q).completed = x.shadow.completed
         else u.mem = s.mem ∧ u.forward = s.forward ∧ (u.queue q).completed = x.completed) ∧
        ∃ e' ∈ u.agenda, e'.op = e.op ∧ e'.args = e.args ∧ e'.bytes = e.bytes ∧ e'.restarts = e.restarts + 1 ∧ s.gtick < e'.tick ∧
          e'.tick ≤ s.gtick + 24000 ∧ (∀ o ∈ s.agenda, o ≠ e → o ∈ u.agenda)) ∧
      (3 ≤ e.restarts + 1 → ∃ u, exec .granaryWatchdogExpiry s = .next u ∧ (u.queue q).state = 2 ∧ (u.queue q).error = 0x0903 ∧
        (u.queue q).busy = false ∧ (u.queue q).mapped = false ∧ (∀ o ∈ s.agenda, o ≠ e → o ∈ u.agenda) ∧
        (e.op = .submit ∨ e.op = .cancel → x.commit = x.crc → x.completed = x.shadow.completed →
          s.answered q (e.args.getD 1 0) e.bytes 0x0903 u)))

/-- A function that reaches a queue writes its tail register, enables it when DISABLED, with features locked, boot complete,
the commit word right (taken with the state byte as it stands: log 41, DEDUCED) and every field in its limits (else
error 0x0908), and disables it at once or once the packet in consumption completes; a function that does not reach it
changes nothing. A free thread maps a queue with work; the queue is then consumed from, or is unmapped if it is empty,
or in ERROR with 0x0901 if its tail overruns. A write of 1 to 8 bytes to a control block changes the host bytes that it
names (log 29, DEDUCED) while the queue is DISABLED; none of its device fields, and nothing while it is enabled and not
frozen. (R305, R307, R309, R310, R311, R316, R396) -/
def Obligations.QueuesAreEnabledMappedAndDisabled : Prop :=
  ∀ (s : State),
    let f := s.arg 0
    let q := s.arg 1
    let x := s.queue q
    (exec .tailWrite s = .next (if s.reaches f x then s.setQueue q { x with tailReg := s.arg 2 % 2 ^ 32 } else s)) ∧
    (x.state ≠ 0 ∨ s.reaches f x = false → exec .queueEnable s = .next s) ∧
    (x.state = 0 → s.reaches f x = true → ∃ u, exec .queueEnable s = .next u ∧ (∀ j, j ≠ q → u.queue j = s.queue j) ∧
      (u.queue q).commit = (u.queue q).crc ∧
      if s.regs.lock = true ∧ s.regs.bootstep = 0xFF ∧ x.commit = x.crc ∧ x.fieldsOk = true then
        (u.queue q).state = 1 ∧ (u.queue q).shadow.state = 1 ∧ (u.queue q).shadow.head = x.tailReg ∧ (u.queue q).head = x.tailReg ∧ (u.queue q).tail = x.tailReg ∧ (u.queue q).error = 0
      else (u.queue q).state = 0 ∧ (u.queue q).error = 0x0908 ∧ (u.queue q).head = x.head) ∧
    (s.reaches f x = false ∨ x.state = 0 → exec .queueDisable s = .next s) ∧
    (s.reaches f x = true → x.state ≠ 0 → ∃ u, exec .queueDisable s = .next u ∧
      if x.state = 1 ∧ (x.busy = true ∨ x.wait.isSome = true) then u = s.setQueue q { x with stopping := true }
      else (u.queue q).state = 0 ∧ (u.queue q).mapped = false ∧ (u.queue q).head = x.head) ∧
    (let m := s.arg 0
     let y := s.queue m
     y.mapped = false → s.mappedCount < 128 → y.state = 1 → s.serves y.ctx = true → y.busy = false → y.retry = false → y.wait = none →
       y.lane = none → y.head ≠ y.tailReg → ∃ u, exec .queueMap s = .next u ∧ (u.queue m).head = y.head ∧ u.mem = s.mem ∧
       mget 65535 u.lastMapped y.class_ = m ∧
       if y.size < (y.tailReg + 2 ^ 32 - y.head) % 2 ^ 32 then (u.queue m).state = 2 ∧ (u.queue m).error = 0x0901 ∧ (u.queue m).mapped = false
       else (u.queue m).tail = y.tailReg ∧
         if s.packetOk y (s.headPacket y) true then (u.queue m).mapped = true ∧ (u.queue m).busy = true ∧ ∃ e ∈ u.agenda,
           e.op = packetInstr (s.headPacket y) ∧ e.args = [m, 0] ∧ e.bytes = s.headPacket y ∧ s.gtick < e.tick ∧ e.tick ≤ s.gtick + 240000
         else (u.queue m).state = 2 ∧ (u.queue m).error = 0x0903) ∧
    (∀ k, let o := s.arg 1
      let y := s.queue k
      o / 64 = 0x10000 + k → k < 65536 → s.reaches f y = true → y.ctx < 256 →
      s.frozenCtx y.ctx = false → 1 ≤ s.arg 3 → o % 64 + s.arg 3 ≤ 8 →
      (y.state = 0 → ∃ u, exec .deviceRegisterWrite s = .next u ∧ (u.queue k).head = y.head ∧ (u.queue k).state = 0 ∧
        (∀ j, j ≠ k → u.queue j = s.queue j) ∧ (u.queue k).base = leNat ((leBytes 8 y.base).zipIdx.map fun e =>
          if o % 64 ≤ e.2 ∧ e.2 < o % 64 + s.arg 3 then BitVec.ofNat 8 (s.arg 2 / 256 ^ (e.2 - o % 64)) else e.1)) ∧
      (y.state ≠ 0 → exec .deviceRegisterWrite s = .next s))

/-- FEATURE_LOCK locks a selection that is offered and sets SELERR otherwise; a second one does nothing. GTREF_READ latches
GTREF, PTPREF, RATE and PTPSTAT from one pair. PF0 writes SEL0 and SEL1 until LOCK holds, and the three shares if their
sum is at most 1 000; another function writes no device register. RING_START runs a STOPPED ring whose fields are valid;
RING_STOP stops a ring from any state (log 46, DESIGN CHOICE). One PTP event message locks the discipline, at a rate
within 50 ppm of nominal (log 28, DESIGN CHOICE); the loss of PTP time makes a lock a holdover; the renewal takes the
pair from the discipline every 2^20 ticks. (R306, R307, R323, R325, R331, R336) -/
def Obligations.DeviceRegistersAndRings : Prop :=
  ∀ (s : State),
    let r := s.regs
    let f := s.arg 0
    let o := s.arg 1
    (exec .featureLock s = .next (if r.lock then s else { s with regs := { r with
      lock := decide (r.sel0 &&& ~~~ Config.offer0 = 0 ∧ r.sel1 = 0), selerr := decide ¬ (r.sel0 &&& ~~~ Config.offer0 = 0 ∧ r.sel1 = 0) } })) ∧
    (exec .gtrefRead s =
      .next { s with regs := { r with gtref := r.refTick, ptpref := r.refPtp, rate := r.refRate, ptpstat := r.refStat } }) ∧
    (s.arg 3 = 8 → ∃ u, exec .deviceRegisterWrite s = .next u ∧
      (f ≠ 0 → o < 0x400000 → u = s) ∧
      (f = 0 → o = 0x10 → u.regs.sel0 = (if r.lock then r.sel0 else BitVec.ofNat 64 (s.arg 2)) ∧ u.regs.sel1 = r.sel1 ∧ u.regs.lock = r.lock) ∧
      (f = 0 → o = 0x18 → u.regs.sel1 = (if r.lock then r.sel1 else BitVec.ofNat 64 (s.arg 2)) ∧ u.regs.sel0 = r.sel0) ∧
      (f = 0 → o = 0x80 → let a := s.arg 2 % 65536
        let b := s.arg 2 / 65536 % 65536
        let c := s.arg 2 / 2 ^ 32 % 65536
        u.regs.sel0 = r.sel0 ∧ if a + b + c ≤ 1000 then u.regs.share1 = a ∧ u.regs.share2 = b ∧ u.regs.share3 = c
          else u.regs.share1 = r.share1 ∧ u.regs.share2 = r.share2 ∧ u.regs.share3 = r.share3)) ∧
    (let x := s.ring f
     (f < 128 → x.state = 0 → s.ringOk x = true → exec .ringStart s = .next (s.setRing f { x with state := 1 })) ∧
     (128 ≤ f ∨ x.state ≠ 0 ∨ s.ringOk x = false → exec .ringStart s = .next s) ∧
     (f < 128 → exec .ringStop s = .next (s.setRing f { x with state := 0 }))) ∧
    (s.powerLost = false →
      (∃ u, exec .ptpEventMessage s = .next u ∧ u.regs.lockTick = s.gtick ∧ u.regs.lockPtp = s.arg 0 % 2 ^ 64 ∧ u.regs.lockStat = 1 ∧
        nominalRate * 1000000 / 1000050 ≤ u.regs.lockRate ∧ u.regs.lockRate ≤ nominalRate * 1000000 / 999950 ∧
        u.regs.refTick = r.refTick ∧ u.regs.refPtp = r.refPtp) ∧
      (∃ u, exec .ptpReferenceRenewal s = .next u ∧ u.regs.refTick = s.gtick ∧ u.regs.refRate = r.lockRate ∧ u.regs.refStat = r.lockStat ∧
        u.regs.refPtp = (r.lockPtp + (s.gtick - r.lockTick) * r.lockRate / 2 ^ 40) % 2 ^ 64 ∧ u.regs.gtref = r.gtref ∧
        u.planned .ptpReferenceRenewal [] (s.gtick + 2 ^ 20) (s.gtick + 2 ^ 20))) ∧
    (exec .ptpTimeLost s = .next (if r.lockStat = 1 then { s with regs := { r with lockStat := 2 } } else s))

/-- An external write to LPDDR-6 of a device with supply joins the ingress staging at its arrival; one of a peer's engine
(told by its agent's number: log 46, DESIGN CHOICE) to a scratchpad comes to the inbound port; one to anything else is
dropped; one that a peer released at F is released behind what has been. A frame that matches no ring is dropped; for a
ring it is written as slots, payload before header, and the write index rises by their number, or, where the slots do
not fit, dropped whole and counted; a read index out of range puts the ring in ERROR with record 0x0912. RING_REPAIR
writes the read index and runs the ring; after a report on a slot it first puts it in ERROR. FAULT_RECORD_WRITE writes
the first waiting record and the index, which it first takes from memory, counts it as lost where the ring is full, and
waits where the ring is not mapped, where only the 64 oldest of those that wait are kept and the rest are counted as
lost. The Granary's writes in LPDDR-6, those of a ring page and of a repair, are external writes (log 44, DEDUCED).
(R136, R137, R266, R324, R325, R326, R327, R342, R395, R399) -/
def Obligations.OutsideWritesFramesAndRecords : Prop :=
  ∀ (s : State),
    let x := s.arg 0
    let bs := s.cur.bytes
    let r := s.ring x
    let staged (c g pa : Nat) (bs : List Byte) : ExternalWrite := { ctx := c, agent := g, arrived := s.gtick, write := { bytes := cellsFrom pa bs } }
    let lpddr (pa : Nat) : Prop := s.place pa = .ok .lpddr
    let joins (ws : List ExternalWrite) (l : List ExternalWrite) : Prop := ∀ a b, s.ingress = a ++ b → (∀ e ∈ a, e.arrived ≤ s.gtick) →
      (∀ e ∈ b.head?, s.gtick < e.arrived) → l = a ++ ws ++ b
    (s.powerLost = true → exec .externalWrite s = .next s) ∧
    (bs ≠ [] → s.powerLost = false → lpddr (s.arg 2) →
      (s.arg 3 ≠ 1 → ∃ l, exec .externalWrite s = .next { s with ingress := l } ∧ joins [staged x (s.arg 1) (s.arg 2) bs] l) ∧
      (s.arg 3 = 1 → ∃ u, exec .externalWrite s = .next u ∧ u.mem = s.mem ∧ u.ingress = s.ingress ∧ u.tiles = s.tiles ∧
        u.forward = s.forward ++ [{ party := 768, tick := s.gtick, write := { bytes := (cellsFrom (s.arg 2) bs).map fun b => (s.homeAddr b.1, b.2) } }] ∧
        ∃ e ∈ u.agenda, e.op = .stagingEntryDrain ∧ s.gtick < e.tick)) ∧
    (¬ lpddr (s.arg 2) → (s.arg 3 = 1 ∨ ∀ t off, s.place (s.arg 2) = .ok (.aperture t off) → s.arg 1 < peerAgent) →
      exec .externalWrite s = .next s) ∧
    (∀ t off, bs ≠ [] → s.powerLost = false → s.arg 3 ≠ 1 → s.place (s.arg 2) = .ok (.aperture t off) → peerAgent ≤ s.arg 1 →
      ∃ u, exec .externalWrite s = .next u ∧ u.mem = s.mem ∧ u.ingress = s.ingress ∧ u.aperture = s.aperture ++ [(t,
        { due := s.gtick, issuer := s.arg 1, multicast := false, write := { bytes := cellsFrom off bs, issuer := s.arg 1 }, arrival := true })] ∧
        u.planned .apertureWritePerform [t] s.gtick s.gtick) ∧
    (s.powerLost = true ∨ s.portsUp = false ∨ 2 ≤ x ∨ s.frameRing x (s.arg 1) bs = none → exec .ethernetFrame s = .next s) ∧
    (∀ k, s.powerLost = false → s.portsUp = true → x < 2 → s.frameRing x (s.arg 1) bs = some k → let y := s.ring k
      let i := leNat (s.physBytes y.readAddr 4)
      let n := ceilDiv bs.length 48
      let room (m : Nat) : Prop := (y.write + m + 2 ^ 32 - i) % 2 ^ 32 ≤ y.count
      (s.tdiError y.ctx = true ∨ y.state ≠ 1 ∨ (room 0 ∧ ¬ room n) →
        exec .ethernetFrame s = .next (s.setRing k { y with drops := (y.drops + 1) % 2 ^ 32 })) ∧
      (s.tdiError y.ctx = false → y.state = 1 → ¬ room 0 → ∃ u f, exec .ethernetFrame s = .next u ∧ (u.ring k).state = 2 ∧
        (u.ring k).drops = (y.drops + 1) % 2 ^ 32 ∧ u.log.getLast? = some f ∧ f.info.code = 0x0912 ∧ f.info.detail = k ∧ f.info.aux1 = i) ∧
      (s.tdiError y.ctx = false → y.state = 1 → room 0 → room n → ∃ u, exec .ethernetFrame s = .next u ∧
        (u.ring k).write = (y.write + n) % 2 ^ 32 ∧ (u.ring k).drops = y.drops ∧ u.mem = s.mem ∧
        let a := y.base + 64 * (y.write % 2 ^ 32 % y.count)
        let tm := if s.regs.refStat = 1 then s.arg 2 % 2 ^ 64 else s.regs.ptpAt s.gtick
        (n = 1 → lpddr (a + 16) → lpddr a → joins [staged y.ctx (portAgent (k / 64)) (a + 16) (slotPayload bs 0),
          staged y.ctx (portAgent (k / 64)) a (slotHeader y.type (y.write % 2 ^ 32) 0 1 bs.length tm)] u.ingress))) ∧
    (s.powerLost = false → x < 128 → lpddr r.readAddr →
      (s.cur.args = [x] → r.state = 2 → ∃ l, exec .ringRepair s =
        .next (({ s with ingress := l } : State).setRing x { r with state := 1 }) ∧ joins [staged r.ctx granaryAgent r.readAddr (leBytes 4 r.write)] l) ∧
      (∀ m, s.cur.args = [x, m, r.ctx] → r.state ≠ 0 → ∃ u, exec .ringRepair s = .next u ∧ u.ring x = { r with state := 2 } ∧
        u.ingress = s.ingress ∧ ∃ e ∈ u.agenda, e.op = .ringRepair ∧ e.args = [x, m, r.ctx, 1] ∧ s.gtick < e.tick) ∧
      (∀ m k, s.cur.args = [x, m, k] ∨ s.cur.args = [x, m, k, 1] → k ≠ r.ctx → exec .ringRepair s = .next s) ∧
      (∀ m, s.cur.args = [x, m, r.ctx, 1] → r.state ≠ 0 → lpddr (r.base + 64 * (m % r.count)) → ∃ u i, exec .ringRepair s = .next u ∧
        (u.ring x).state = 1 ∧ i = (if (r.write + 2 ^ 32 - (m + 1) % 2 ^ 32) % 2 ^ 32 ≤ r.count then (m + 1) % 2 ^ 32 else r.write) ∧
        joins [staged r.ctx granaryAgent (r.base + 64 * (m % r.count)) (leBytes 16 0),
          staged r.ctx granaryAgent r.readAddr (leBytes 4 i)] u.ingress)) ∧
    (r.state = 0 → exec .ringRepair s = .next s) ∧
    (let c := s.ctx x
     let i := if c.ringKnown then c.ringNext else s.ringIndex x
     (c.records = [] → ∃ u, exec .faultRecordWrite s = .next u ∧ u.mem = s.mem ∧ u.ingress = s.ingress ∧ (u.ctx x).records = []) ∧
     (c.records ≠ [] → s.power ≠ .parked → s.power ≠ .unpowered → s.ringReady x i = false → ∃ u, exec .faultRecordWrite s = .next u ∧
       (∀ y, y ≠ x → u.ctx y = s.ctx y) ∧ u.mem = s.mem ∧ u.ingress = s.ingress ∧ (c.records.length ≤ 64 → u.ctx x = c) ∧
       (64 < c.records.length → u.ctx x = { c with records := c.records.take 64, ringLost := (c.ringLost + (c.records.length - 64)) % 2 ^ 32, lostFlag := true }) ∧
       ∃ e ∈ u.agenda, e.op = .faultRecordWrite ∧ e.args = [x] ∧ s.gtick < e.tick) ∧
     (∀ f fs, c.records = f :: fs → s.power ≠ .parked → s.power ≠ .unpowered → s.ringReady x i = true →
       let read := leNat (s.ctxBytes x (faultRing + 4) 4)
       let full : Prop := 1023 ≤ (i + 2 ^ 32 - read) % 2 ^ 32
       (full → ∃ u, exec .faultRecordWrite s = .next u ∧ (u.ctx x).records = fs ∧ (u.ctx x).ringNext = i ∧ (u.ctx x).ringKnown = true ∧
         (u.ctx x).ringLost = (c.ringLost + 1) % 2 ^ 32 ∧ (u.ctx x).lostFlag = true ∧
         ∀ h, s.ctxAddr x (faultRing + 8) = .ok h → lpddr h → staged x granaryAgent h (leBytes 4 ((c.ringLost + 1) % 2 ^ 32)) ∈ u.ingress) ∧
       (¬ full → ∃ u, exec .faultRecordWrite s = .next u ∧ (u.ctx x).records = fs ∧ (u.ctx x).ringNext = (i + 1) % 2 ^ 32 ∧
         (u.ctx x).lostFlag = false ∧ ∀ pa h, s.ctxAddr x (faultRing + (0x40 + 64 * (i % 1023))) = .ok pa →
           s.ctxAddr x (faultRing + 8) = .ok h → lpddr pa → lpddr h → staged x granaryAgent pa ({ f with ring := i, lost := c.lostFlag } : FaultRecord).toBytes ∈ u.ingress)))

/-- The oldest released entry reaches memory and leaves; with none, nothing changes. A spill copy writes one frame of the
victim evicted first into its spill frame, as words that are released (log 44, DEDUCED), so that the spill frame reads
as the frame did, and frees the pool frame. A shootdown whose effect tick lies less than 2 400 ticks after its sending
takes effect 2 400 after it. From its effect on no TLB of the context's partition holds an entry of the range, and a
page marked MIG in it begins to migrate, into the frame that the event names (log 27, DESIGN CHOICE), with every sector
to copy. A copy pass copies the list of the sectors still to copy, as they are stored and with their marks, and nothing
else of memory changes; the first releases the leaf's new value, the new frame with MIG = 0, as a write (logs 38 and
44); the end of the window leaves a forwarding entry, and lines, translations and staged writes name the new frame.
(R83, R110, R112, R118, R384, R385, R386, R387) -/
def Obligations.MemoryDrainsSpillsAndMigrates : Prop :=
  ∀ (s : State),
    let x := s.arg 0
    let c := s.ctx x
    let apart (a b n : Nat) : Prop := a + n ≤ b ∨ b + n ≤ a
    let fits (m : Migration) : Prop := m.old % 64 = 0 ∧ m.new % 64 = 0 ∧ m.size % 64 = 0 ∧ apart m.old m.new m.size ∧
      ∀ k ∈ m.dirty, m.old ≤ 64 * k ∧ 64 * k < m.old + m.size
    let copied (m : Migration) (u : State) : Prop := u.mem = (s.copyDirty m).mem ∧ (fits m →
      (∀ a, byteAt u.mem a = if m.new ≤ a ∧ a < m.new + m.size ∧ (m.old + (a - m.new)) / 64 ∈ m.dirty then byteAt s.mem (m.old + (a - m.new))
        else byteAt s.mem a) ∧ ∀ k ∈ m.dirty, u.sectorMark (m.new / 64 + (k - m.old / 64)) = s.sectorMark k)
    (s.forward = [] → exec .stagingEntryDrain s = .next s) ∧
    (∀ e es, s.forward = e :: es → s.migrations = [] → ∃ u, exec .stagingEntryDrain s = .next u ∧ u.forward = es ∧
      u.mem = (s.memPut e.write).mem ∧ u.sectors = (s.memPut e.write).sectors ∧ u.tiles = s.tiles) ∧
    (c.winnow.spillQueue = [] → exec .spillCopyPerform s = .next s) ∧
    (∀ k ks a b rest pa pb, c.winnow.spillQueue = k :: ks → (c.winnow.req k).spilling = (a, b) :: rest → s.ctxAddr x a = .ok pa →
      s.ctxAddr x b = .ok pb → ∃ u, exec .spillCopyPerform s = .next u ∧ u.mem = s.mem ∧
        u.forward = (s.copyWords pa pb 512).forward ∧ u.tiles = (s.copyWords pa pb 512).tiles ∧
        (s.codesClean = true → s.migrations = [] → s.forwarding = [] → pa % 64 = 0 → pb % 64 = 0 → apart pa pb 32768 →
          (∀ j < 32768, s.place (pa + j) = .ok .lpddr ∧ s.place (pb + j) = .ok .lpddr) → ∀ j < 32768, u.physByte (pb + j) = s.physByte (pa + j)) ∧
        ((u.winnow x).req k).spilling = rest ∧ (u.winnow x).copied = c.winnow.copied + 1 ∧
        (u.winnow x).spillQueue = (if rest.isEmpty then ks else k :: ks) ∧ (a ∈ c.winnow.pool → a ∈ (u.winnow x).freePool)) ∧
    (let a := s.arg 1
     let b := s.arg 2
     let sent := s.cur.args[3]?
     (∀ n, sent = some n → s.gtick < n + 2400 → ∃ u, exec .shootdownEffect s = .next u ∧ u.tiles = s.tiles ∧ u.mem = s.mem ∧ u.migrations = s.migrations ∧
       u.planned .shootdownEffect ([x, a, b, n] ++ s.cur.args[4]?.toList) (n + 2400) (n + 2400)) ∧
     ((∀ n, sent = some n → n + 2400 ≤ s.gtick) → ∃ u, exec .shootdownEffect s = .next u ∧ (s.forward = [] → u.mem = s.mem) ∧
       (∀ t ∈ c.tiles, (s.tile t).ctx = some x → ∀ q, u.seq t q = { s.seq t q with
         tlb := (s.seq t q).tlb.filter fun e => !(decide (e.va < b) && decide (a < e.va + e.size)) }) ∧
       ∀ leaf size e n new, s.cur.args = [x, a, b, n, new] → a < b → b ≤ a + 32768 → s.leafAt a walkLevels c.root = some (leaf, size, e) →
         nbit e 4 = true → size = 32768 → nbits e 9 43 * 512 % size = 0 → nbits e 9 43 * 512 + size ≤ s.sheaf.populated →
         s.migrations = [] → s.frameFit new size = true → new ≠ nbits e 9 43 * 512 →
         u.forward = s.forward.filter (fun g => !g.names new size) ∧ ((∀ g ∈ s.forward, g.names new size = false) → u.mem = s.mem) ∧
         u.migrations = [{ ctx := x, old := nbits e 9 43 * 512, new := new, size := size, leaf := leaf,
                           dirty := (List.range 512).map (nbits e 9 43 * 512 / 64 + ·) }] ∧
         ∃ t ∈ u.agenda, t.op = .migrationCopyPass ∧ t.args = [nbits e 9 43 * 512] ∧ s.gtick < t.tick)) ∧
    (∀ m, s.migration x = some m → m.state = 0 → s.powerLost = false → ∃ u, exec .migrationCopyPass s = .next u ∧
      (s.copyDirty m).migrations = (s.migrations.map fun (n : Migration) => if n.old = x then { n with dirty := [] } else n) ∧
      copied m u ∧ (m.ready ≠ 0 → u.migrations = (s.copyDirty m).migrations ∧ u.forward = s.forward) ∧
      (m.ready = 0 → u.migrations = (((s.copyDirty m).rewriteLeaf m).migrations.map fun (n : Migration) => if n.old = x then { n with ready := s.gtick + 2400 } else n) ∧
        (fits m → s.codesClean = true → s.migrations = [m] → s.forwarding = [] → m.leaf + 8 ≤ m.new ∨ m.new + m.size ≤ m.leaf →
          ∃ g, u.forward = s.forward ++ [g] ∧ g.write.poison = none ∧
            g.write.bytes = cellsFrom m.leaf (leBytes 8 (m.new + nbits (leNat (s.physBytes m.leaf 8)) 0 4)))) ∧
      ∃ t ∈ u.agenda, t.op = .migrationCopyPass ∧ t.args = [x] ∧ s.gtick < t.tick) ∧
    (∀ m, s.migration x = some m → m.state = 1 → s.powerLost = false → ∃ u, exec .migrationWindowEnd s = .next u ∧
      u.migrations = s.migrations.filter (·.old != x) ∧ u.forwarding.head? = some (x, m.new, m.size) ∧ copied m u ∧
      (∀ t, u.tile t = (s.tile t).moved m) ∧ (∀ t q, (u.seq t q).g = (s.seq t q).g ∧ (u.seq t q).v = (s.seq t q).v)) ∧
    (s.migration x = none → exec .migrationCopyPass s = .next s ∧ exec .migrationWindowEnd s = .next s)

/-- Every change of the Sheaf's record raises its version by 1 and asks each bound context for that version's acknowledgment
within 2 400 000 ticks: a channel's rate, PCIe's width and rate, a bank retired, with DEGRADED, a link retrained to a
lower speed or lost, a channel lost once every context is saved; where the record stays the same the version does. A
tile fails onto a spare while its die has one, as it does with the second data bank of a parity group. A scrub leaves a
word without error or marked injected alone, and corrects or rebuilds one that can be. A retired row that can be
corrected moves to a free row, which counts its write; one that serves no logical row is retired alone. (R21, R22, R347,
R353, R354, R355, R356, R357, R388, R393, R394) -/
def Obligations.TheSheafChanges : Prop :=
  ∀ (s : State),
    let k := s.arg 0
    let i := s.arg 1
    let v := s.arg 2
    let h := s.sheaf
    let raised (u : State) : Prop := u.sheaf.version = h.version + 1 ∧ ∀ x, s.bound x = true → (s.ctx x).ackVersion ≤ h.version →
      ((s.ctx x).ackDue.any fun e => e.1 == h.version + 1) = false →
      (u.ctx x).ackDue = (s.ctx x).ackDue ++ [(h.version + 1, s.gtick + 2400000)] ∧ u.planned .mapackMissed [x] (s.gtick + 2400000) (s.gtick + 2400000)
    let becomes (h' : Sheaf) : Prop := (h' = h → exec .sheafChange s = .next s) ∧
      (h' ≠ h → ∃ u, exec .sheafChange s = .next u ∧ raised u ∧ u.sheaf = { h' with version := h.version + 1 } ∧ u.tiles = s.tiles ∧ u.mem = s.mem)
    (k = 4 → i < 32 → becomes { h with rates := mset 12800 h.rates i v }) ∧
    (k = 5 → becomes { h with pcieLanes := i % 256, pcieRate := v % 256 }) ∧
    (k = 1 → i < 384 → v < 20 → (s.tile i).retiredBanks.getLsbD v = false → ∃ u, exec .sheafChange s = .next u ∧ raised u ∧
      (u.tile i).retiredBanks = (s.tile i).retiredBanks ||| (1#20 <<< v) ∧ nbit (mget 0 u.sheaf.health i) 1 = true ∧
      (v < 16 → (∃ j < 4, (s.tile i).retiredBanks.getLsbD (v / 4 * 4 + j) = true) → 0 < s.sparesLeft (dieOf i) → (s.tile i).failed = false →
        (u.tile i).failed = true ∧ ∃ e ∈ u.agenda, e.op = .tileReplaced ∧ e.args = [i] ∧ s.gtick < e.tick)) ∧
    (k = 0 → i < 384 → 0 < s.sparesLeft (dieOf i) → (s.tile i).failed = false → ∃ u, exec .sheafChange s = .next u ∧ u.sheaf = h ∧
      (u.tile i).failed = true ∧ (∃ e ∈ u.agenda, e.op = .tileReplaced ∧ e.args = [i] ∧ s.gtick < e.tick) ∧
      ∀ x, (s.tile i).ctx = some x → (s.ctx x).ending = none → (s.ctx x).part = .running →
        (u.ctx x).ending = some (3, 0x0B02) ∧ (u.ctx x).part = .halting) ∧
    (k = 0 → i < 384 → s.sparesLeft (dieOf i) = 0 → ∃ u, exec .sheafChange s = .next u ∧
      (h.stretch i (v % 2 ^ 24) (v / 2 ^ 24) ≠ h → raised u) ∧ u.sheaf.engineMap (2 * i) = engineMapOf (v % 2 ^ 24) ∧ u.sheaf.engineMap (2 * i + 1) = engineMapOf (v / 2 ^ 24)) ∧
    (k < 8 → h.links.getLsbD k = true →
      (0 < i → i < (h.linkSpeeds.lookup k).getD 200 → ∃ u, exec .linkRetrain s = .next u ∧ raised u ∧
        u.sheaf = { h with version := h.version + 1, linkSpeeds := mset 200 h.linkSpeeds k i }) ∧
      (i = 0 → exec .linkRetrain s = .next s ∧ ∃ u, exec .linkLoss s = .next u ∧ raised u ∧
        u.sheaf = { h with version := h.version + 1, links := h.links &&& ~~~ (1#8 <<< k) }) ∧
      (0 < i → ∃ u, exec .linkLoss s = .next u ∧ u.sheaf = { h with version := h.version + 1, links := h.links &&& ~~~ (1#8 <<< k),
                                                                     peers := h.peers.filter (·.1 != i - 1) })) ∧
    (8 ≤ k ∨ h.links.getLsbD k = false → exec .linkRetrain s = .next s ∧ exec .linkLoss s = .next s) ∧
    (k < 32 → h.channels.getLsbD k = true → s.powerLost = false → ∃ u, exec .lpddrChannelLoss s = .next u ∧
      (s.allSaved = true → u.sheaf.version = h.version + 1 ∧ u.sheaf.channels = h.channels &&& ~~~ (1#32 <<< k) ∧ u.rebuilding = false ∧
        u.sheaf.populated = h.populated / h.live.length * (h.live.length - 1)) ∧
      (s.allSaved = false → u.rebuilding = true ∧ u.sheaf = h ∧ u.mem = s.mem ∧ ∀ x, (s.ctx x).part = .running → (s.ctx x).ending = none →
        (u.ctx x).ending = some (0, 0) ∧ (u.ctx x).part = .halting)) ∧
    (let m := (s.tile k).mark i
     let w := (s.tile k).lookWord i
     k < 384 → i < 32768 →
     (m.checks = none ∨ m.injected = true → exec .scrub s = .next s) ∧
     (m.checks ≠ none → m.injected = false → (s.tile k).retiredBanks.getLsbD (i % 16) = false → (s.tile k).uses = [] → (s.tile k).reservations = [] → (s.tile k).parityDue = [] →
       w.bad = false ∨ ((s.tile k).groupInjected i = false ∧ ((s.tile k).rebuilt i).isSome = true) →
       ∃ u, exec .scrub s = .next u ∧ ((u.tile k).mark i).checks = none ∧ ((u.tile k).mark i).wrong = 0 ∧ ((u.tile k).mark i).poison = m.poison ∧
         ∀ j < 64, byteAt (u.tile k).spad (64 * i + j) = (vecBytes w.val).getD j 0)) ∧
    (let z := s.tile k
     k < 384 → z.journal.st = .idle → z.opening = false →
     (∀ p, s.arg 3 = p + 1 → z.logicalRow p = none → p ∉ z.retiredRows → ∃ u, exec .mramRowRewrite s = .next u ∧ raised u ∧
       u.tile k = { z with retiredRows := p :: z.retiredRows }) ∧
     ∀ r, (s.arg 3 = 0 ∧ r = i) ∨ (∃ p, s.arg 3 = p + 1 ∧ z.logicalRow p = some r) → let old := z.physRow r
     r < 16384 → old ∉ z.retiredRows → v = 0 → ({ z with overlays := [] } : Tile).badRow r = false →
     ∃ u, exec .mramRowRewrite s = .next u ∧ raised u ∧ old ∈ (u.tile k).retiredRows ∧
       ∀ f fs, z.freeRows.filter (· != old) = f :: fs → (u.tile k).physRow r = f ∧ mget 0 (u.tile k).wear f = mget 0 z.wear f + 1 ∧
         (z.cellErrors = [] → ∀ j < 1024, byteAt (u.tile k).mram (1024 * f + j) = byteAt z.mram (1024 * old + j)))

/-- At a loss of supply every running partition is to halt at device level within 180 ticks and 0x0A01 is recorded; the
parking ends 48 001 to 96 000 ticks on: then the device is PARKED with its staged writes gone; when the hold-up
collapses it is UNPOWERED, with LPDDR-6 and SRAM gone and MRAM kept; what had been released to the host or a peer
reaches it all the same. Supply that is good for 10 ms resets a parked or unpowered device, and no other. Cold reset
wipes scratchpads and LPDDR-6, keeps MRAM, row maps, wear and the log, locks every region, sets GTICK to 0 and begins
boot. A life-cycle change acts as a cold reset and wipes MRAM, owner tags and the log as well (log 34, DEDUCED). (R94,
R137, R306, R333, R334, R335, R339, R342, R399, R400, R401) -/
def Obligations.SupplyIsLostAndReturns : Prop :=
  ∀ (s : State),
    let outside (u : State) : Prop := (∀ c ∈ u.mem, 0x1000000000000 ≤ c.1) ∧ (s.forward = [] → ∀ c ∈ u.mem, c ∈ s.mem) ∧
      (s.codesClean = true → s.migrations = [] → s.forwarding = [] → ∀ a, 0x1000000000000 ≤ a → a < 2 ^ 60 → byteAt u.mem a = s.physByte a)
    let wiped (u : State) : Prop := u.gtick = 0 ∧ outside u ∧ u.powerLost = false ∧
      u.forward = [] ∧ u.ingress = [] ∧ (∀ d, (u.die d).staging = []) ∧ u.ctxs = [] ∧ u.queues = [] ∧ u.regs.lock = false ∧
      u.planned .boot [] 0 0 ∧ ∀ t, (u.tile t).spad = [] ∧ (u.tile t).power = .off ∧ (u.tile t).ctx = none ∧ (u.tile t).shadow = none ∧
        (u.tile t).rowMap = (s.tile t).rowMap ∧ (u.tile t).wear = (s.tile t).wear ∧ (u.tile t).retiredRows = (s.tile t).retiredRows ∧
        ∀ q, u.seq t q = {}
    let coldReset (u : State) : Prop := wiped u ∧ u.log = s.log ∧ u.sheaf = s.sheaf ∧ u.boot = s.boot ∧ u.regs.lcs = s.regs.lcs ∧
      (∀ e ∈ u.owners, e.2.2 = none) ∧ ∀ t, (u.tile t).mram = (s.tile t).mram
    (s.arg 0 ≠ 1 → s.powerLost = false → ∃ u f, exec .powerLoss s = .next u ∧ u.powerLost = true ∧ u.log.getLast? = some f ∧
      f.info.code = 0x0A01 ∧ f.level = 5 ∧ (∃ e ∈ u.agenda, e.op = .powerLoss ∧ e.args = [1] ∧ s.gtick + 48000 < e.tick ∧ e.tick ≤ s.gtick + 96000) ∧
      ∀ x, (s.ctx x).part = .running → (s.ctx x).ending = none → (u.ctx x).ending = some (5, 0x0A01) ∧
        u.planned .partitionHalt [x] s.gtick (s.gtick + 180)) ∧
    (s.arg 0 ≠ 1 → s.powerLost = true → exec .powerLoss s = .next s) ∧
    (s.arg 0 = 1 → s.powerLost = true → s.power ≠ .unpowered → ∃ u, exec .powerLoss s = .next u ∧ u.power = .parked ∧ u.ingress = [] ∧
      (∀ d, (u.die d).staging = []) ∧ u.mem = s.mem ∧ u.tiles = s.tiles) ∧
    (s.arg 0 = 1 → s.powerLost = false ∨ s.power = .unpowered → exec .powerLoss s = .next s) ∧
    (s.powerLost = false → exec .supplyCollapse s = .next s) ∧
    (s.powerLost = true → ∃ u, exec .supplyCollapse s = .next u ∧ u.power = .unpowered ∧ outside u ∧
      u.log = s.log ∧ ∀ t, (u.tile t).spad = [] ∧ (u.tile t).shadow = none ∧ (u.tile t).mram = (s.tile t).mram) ∧
    (s.power = .parked ∨ s.power = .unpowered → ∃ u, exec .supplyGood s = .next u ∧ coldReset u) ∧
    (s.power = .run ∨ s.power = .sleep → exec .supplyGood s = .next s) ∧
    (∃ u, exec .coldReset s = .next u ∧ coldReset u) ∧
    (s.arg 0 ≤ 3 → s.arg 0 ≠ s.regs.lcs → ∃ u, exec .lifeCycleChange s = .next u ∧ wiped u ∧ u.regs.lcs = s.arg 0 ∧ u.owners = [] ∧
      u.log = [] ∧ ∀ t, (u.tile t).mram = []) ∧
    (3 < s.arg 0 ∨ s.arg 0 = s.regs.lcs → exec .lifeCycleChange s = .next s)

/-- A boot begins at step 1, entries that still read started counting as failed; where that is the third failure in a row of
a mandatory step, it goes no further (log 69, DESIGN CHOICE). A step that begins reads started until it ends, its limit
running; one that passes, steps 1 and 6 only with an image that verifies, does its work and lets the next begin, step 9
ends boot with BOOTSTEP 0xFF; an optional step that failed in the boot right before is left out, and an outcome of an
older boot says nothing and counts no failure in a row. After a mandatory step that fails a cold reset begins the next
boot (log 69, DESIGN CHOICE), but after the third in a row nothing follows. At its limit a step still started fails, but
step 2 loads GTICK with 0 and passes. Nothing happens without supply, and nothing by the end of a step that is over.
(R41, R306, R333, R401) -/
def Obligations.BootRunsItsSteps : Prop :=
  ∀ (s : State),
    let k := s.arg 0
    let entry (u : State) (k : Nat) : BootEntry := u.bootEntry k
    let next (u : State) (k : Nat) : Prop := if k < 9 then u.planned .boot [k + 1] u.gtick u.gtick else u.regs.bootstep = 0xFF
    let fails (u : State) : Prop := (entry u k).outcome = 3 ∧ (entry u k).attempts = (entry s k).attempts + 1 ∧
      (bootMandatory k = false → next u k) ∧
      (bootMandatory k = true → (entry s k).attempts + 1 < 3 → ∃ e ∈ u.agenda, e.op = .coldReset ∧ e.args = [] ∧ u.gtick < e.tick) ∧
      (bootMandatory k = true → 3 ≤ (entry s k).attempts + 1 → u.agenda = s.agenda ∧ u.regs = s.regs)
    let last (u : State) (k : Nat) : Prop := (entry s k).boot + 1 = u.boots
    let starts (u : State) (k : Nat) : Prop := u.regs.bootstep = k ∧ (entry u k).outcome = 1 ∧ (entry u k).boot = u.boots ∧
      (last u k → (entry u k).attempts = (entry s k).attempts) ∧ (¬ last u k → (entry u k).attempts = 0) ∧
      u.planned .bootStepTimeout [k, u.boots] (s.gtick + bootLimit k) (s.gtick + bootLimit k) ∧
      ∃ e ∈ u.agenda, e.op = .boot ∧ e.args = [k, 1, if (entry s k).boot + 1 = u.boots then (entry s k).outcome else 0, u.boots] ∧ s.gtick < e.tick
    (s.powerLost = true → exec .boot s = .next s ∧ exec .bootStepTimeout s = .next s) ∧
    (s.powerLost = false →
      (s.cur.args = [] → (s.boot.map (·.1)).Nodup → (∀ e ∈ s.boot, e.2.outcome = 1 → e.1 = k) → (entry s k).outcome = 1 → bootMandatory k = true →
        2 ≤ (entry s k).attempts → ∃ u, exec .boot s = .next u ∧ u.boots = s.boots + 1 ∧ u.portsUp = false ∧ u.regs.bootstep = k ∧
          (entry u k).outcome = 3 ∧ (entry u k).attempts = (entry s k).attempts + 1 ∧ u.agenda = s.agenda) ∧
      (s.cur.args = [] → (∀ e ∈ s.boot, e.2.outcome = 1 → bootMandatory e.1 = true → e.2.attempts < 2) → ∃ u, exec .boot s = .next u ∧
        u.boots = s.boots + 1 ∧ u.portsUp = false ∧ u.regs.bootstep = 1 ∧ (entry u 1).outcome = 1 ∧
        (∀ j, j ≠ 1 → (entry s j).outcome = 1 → (entry u j).outcome = 3) ∧ ((∀ e ∈ s.boot, e.2.outcome ≠ 1) → starts u 1)) ∧
      (s.cur.args = [k] → ¬ last s k ∨ (entry s k).outcome ≠ 3 ∨ bootMandatory k = true → ∃ u, exec .boot s = .next u ∧ starts u k ∧ u.boots = s.boots) ∧
      (s.cur.args = [k] → last s k → (entry s k).outcome = 3 → bootMandatory k = false → ∃ u, exec .boot s = .next u ∧ (entry u k).outcome = 4 ∧
        u.regs.bootstep = k ∧ u.planned .boot [k + 1] u.gtick u.gtick ∧ (k = 7 → u.sheaf.links = 0)) ∧
      (∀ before n, s.cur.args = [k, 1, before, n] →
        ((entry s k).outcome ≠ 1 ∨ s.boots ≠ n ∨ s.regs.bootstep ≠ k → exec .boot s = .next s) ∧
        ((entry s k).outcome = 1 → s.boots = n → s.regs.bootstep = k →
          (stepPasses n k = true → k = 1 ∨ k = 6 → imageVerifies (Config.firmwareImage n k) = true) ∧
          (stepPasses n k = true → k = 2 → Config.bootTime n = none → exec .boot s = .next s) ∧
          (stepPasses n k = false → ∃ u, exec .boot s = .next u ∧ fails u) ∧
          (stepPasses n k = true → k ≠ 2 → ∃ u, exec .boot s = .next u ∧ (entry u k).attempts = 0 ∧ u.gtick = s.gtick ∧
            (entry u k).outcome = (if k = 3 ∧ before = 3 then 5 else 2) ∧ next u k ∧
            (k = 4 → u.sheaf.package = Config.packageNumber % 16) ∧ (k = 7 → u.sheaf.links = Config.linksTrained n) ∧ (k = 8 → u.portsUp = true)) ∧
          (∀ p, stepPasses n k = true → k = 2 → Config.bootTime n = some p → ∃ u, exec .boot s = .next u ∧
            u.gtick = p * 6 / 5 % 2 ^ 64 ∧ (entry u 2).outcome = 2 ∧ u.regs.refPtp = p % 2 ^ 64 ∧ u.regs.refStat = 1 ∧ next u 2))) ∧
      ((entry s k).outcome = 1 → s.boots = s.arg 1 → s.regs.bootstep = k →
        (k ≠ 2 → ∃ u, exec .bootStepTimeout s = .next u ∧ fails u) ∧
        (k = 2 → ∃ u, exec .bootStepTimeout s = .next u ∧ u.gtick = 0 ∧ (entry u 2).outcome = 2 ∧ u.regs.ptpstat = 0 ∧ u.regs.refStat = 0 ∧ u.regs.lockStat = 0 ∧ next u 2)) ∧
      ((entry s k).outcome ≠ 1 ∨ s.boots ≠ s.arg 1 ∨ s.regs.bootstep ≠ k → exec .bootStepTimeout s = .next s))

/-- A request to a function that does not exist, or of a device that presents PF0 alone, changes nothing. In ERROR every
request but STOP is refused, with an empty answer. VERSION, CAPABILITIES, REPORT and STATE answer and change no state
(the codes and answers: log 30, PRESUMED). LOCK takes an unlocked interface to LOCKED; START takes a locked one to RUN
and unlocks the MRAM regions whose tag is the context's measurement; in another state both are refused. STOP, in one
step (log 47, DEDUCED), unlocks the interface from any state, wipes the tiles that the context holds and, of any other,
what it has left there and its saved image alone, stops its rings, locks its regions again and ends its LAUNCH. An IDE
failure takes a locked or running interface to ERROR, with record 0x0C02, and halts its running context. (R304, R305,
R330, R331, R334, R396) -/
def Obligations.InterfacesAnswerAndChange : Prop :=
  ∀ (s : State),
    let f := s.arg 0
    let x := f - 1
    let d := s.tdi f
    let tells (op : Instr) (bs : List Byte) : Prop := exec op s = .next (s.setTdi f { d with answer := bs })
    (f = 0 ∨ 64 < f ∨ s.pf0Alone = true → ∀ op ∈ ([.getTdispVersion, .getTdispCapabilities, .lockInterfaceRequest, .getDeviceInterfaceReport,
      .getDeviceInterfaceState, .startInterfaceRequest, .stopInterfaceRequest] : List Instr), exec op s = .next s) ∧
    (1 ≤ f → f ≤ 64 → s.pf0Alone = false →
      (d.st = .error → ∀ op ∈ ([.getTdispVersion, .getTdispCapabilities, .lockInterfaceRequest, .getDeviceInterfaceReport,
        .getDeviceInterfaceState, .startInterfaceRequest] : List Instr), tells op []) ∧
      (d.st ≠ .error → tells .getTdispVersion Config.tdispVersion ∧ tells .getTdispCapabilities Config.tdispCapabilities ∧
        tells .getDeviceInterfaceReport (s.report x) ∧
        (d.st = .unlocked → exec .lockInterfaceRequest s = .next (s.setTdi f { st := .locked, answer := [1] }) ∧ tells .startInterfaceRequest []) ∧
        (d.st ≠ .unlocked → tells .lockInterfaceRequest []) ∧ (d.st = .run → tells .startInterfaceRequest []) ∧ tells .getDeviceInterfaceState [BitVec.ofNat 8 d.st.code]) ∧
      (d.st = .locked → ∃ u, exec .startInterfaceRequest s = .next u ∧ u.tdi f = { st := .run, answer := [2] } ∧ u.mem = s.mem ∧
        u.owners = s.owners.map fun e => if e.2.1 = Config.measurement (s.configDigest x) then (e.1, (e.2.1, some x)) else e) ∧
      (∃ u, exec .stopInterfaceRequest s = .next u ∧ u.tdi f = { st := .unlocked, answer := [0] } ∧ (∀ e ∈ u.owners, e.2.2 ≠ some x) ∧
        (u.ctx x).launch = none ∧ (∀ t, (u.tile t).shadow.map (·.ctx) ≠ some x) ∧
        (∀ r, (u.ring r).ctx = x → (u.ring r).state = 0) ∧
        (∀ t ∈ (s.ctx x).tiles, (s.tile t).ctx = some x → (u.tile t).ctx = none ∧
          (∀ a < 0x200000, byteAt (u.tile t).spad a = 0) ∧ (u.seq t 0).g = [] ∧ (u.seq t 1).g = []) ∧
        (∀ t, (s.winnow x).pool = [] → t ∉ (s.ctx x).tiles ∨ (s.tile t).ctx ≠ some x → (u.tile t).ctx = (s.tile t).ctx ∧
          (∀ q, u.seq t q = s.seq t q) ∧ (u.tile t).left = (s.tile t).left.filter (fun r => r.1 != x) ∧
          ∀ a, byteAt (u.tile t).spad a =
            if (s.tile t).left.any fun r => r.1 == x && decide (r.2.1 ≤ a) && decide (a < r.2.2) then 0 else byteAt (s.tile t).spad a) ∧
        ∀ k r, (u.winnow x).reqs.lookup k = some r → r.final = true ∨ r.state = 0)) ∧
    (d.st = .locked ∨ d.st = .run → ∃ u r, exec .ideFailure s = .next u ∧ (u.tdi f).st = .error ∧ u.log.getLast? = some r ∧
      r.info.code = 0x0C02 ∧ r.level = 3 ∧
      ((s.ctx x).part = .running → (s.ctx x).ending = none → (u.ctx x).part = .halting ∧ (u.ctx x).ending = some (3, 0x0C02))) ∧
    (d.st = .unlocked ∨ d.st = .error → exec .ideFailure s = .next s)

/-- If the cells of LPDDR-6 and of every tile's scratchpad and weight MRAM rise strictly in address and none holds the byte
that an unlisted address reads as, then so they do after any step that goes on: equal memories are equal data. (The
canonical form is the model's own, log 3; the spec gives the address spaces.) (R96, R103, R107) -/
def Obligations.MemoryKeepsItsForm : Prop :=
  ∀ s u : State, s.memOk → step s = .next u → u.memOk

/-- If what lies before the machine on its agenda stands in the order of its ticks, then so it does after any step that goes
on: what comes first is done first, also when GTICK is loaded anew, when a thread starts again and when a reset leaves
only what comes from outside. (The agenda is the model's own, log 10, DESIGN CHOICE; the spec gives the ticks.) (R35,
R56, R62, R391) -/
def Obligations.AgendaKeepsItsOrder : Prop :=
  ∀ s u : State, s.agendaInOrder → step s = .next u → u.agendaInOrder

/-- If no sequencer, running or saved in a shadow image, holds more than 16 commands in a copy queue, 16 return addresses or
four open regions, then none does after any step that goes on: a word that would exceed them raises its fault, and
neither a save, a restore nor a halt adds to them. (R198, R210, R261, R346, R366, R371) -/
def Obligations.StoresKeepTheirDepth : Prop :=
  ∀ s u : State, s.withinDepths → step s = .next u → u.withinDepths

/-- After reset LPDDR-6 and every tile's scratchpad and weight MRAM are in canonical form, the agenda stands in order and no
sequencer's store is too deep. (The form is the model's own, log 3; the agenda log 10.) (R96, R103, R107, R198, R261,
R346) -/
def Obligations.ResetMemoryHasItsForm : Prop :=
  State.reset.memOk ∧ State.reset.agendaInOrder ∧ State.reset.withinDepths
end

