-- ==== Sys2Proof/Laws/PerInstr.lean ====
section
/-! SUPPORT. Every well-formed instruction decodes from its own word: one lemma for each constructor, over one lemma for each
format of R171. -/
namespace Sys2Proof.Laws.RoundTrip

set_option Elab.async false

/-- A well-formed instruction is what the decoder reads from its word. An event of the device has no word and is never well
formed. -/
def Statement (i : Instr) : Prop := i.wf = true → decodeWord (encode i) = .ok i

theorem bits_eq {w lo len : Nat} {x : BitVec len} (h : w / 2 ^ lo % 2 ^ len = x.toNat) : bits w lo len = x :=
  BitVec.eq_of_toNat_eq (by simp [bits, h])

theorem of_raw {x : Nat} {i : Instr} (r : decodeRaw x = .ok i) (h : i.wf = true) : decodeWord x = .ok i := by
  simp [decodeWord, r, h]

/-! The class of a word by its opcode (R170). -/

theorem decodeScalar_of {x c : Nat} (o : opcode x = c) (hc : c / 128 = 0) : decodeRaw x = decodeScalar x := by
  simp [decodeRaw, o, hc]

theorem decodeControl_of {x c : Nat} (o : opcode x = c) (hc : c / 128 = 1) : decodeRaw x = decodeControl x := by
  simp [decodeRaw, o, hc]

theorem decodeVecInt_of {x c : Nat} (o : opcode x / 4 = c) (hc : c / 32 = 2) : decodeRaw x = decodeVecInt x := by
  simp [decodeRaw, show opcode x / 128 = 2 by omega]

theorem decodeVecFloat_of {x c : Nat} (o : opcode x = c) (hc : c / 128 = 3) : decodeRaw x = decodeVecFloat x := by
  simp [decodeRaw, o, hc]

theorem decodeMatrix_of {x c : Nat} (o : opcode x = c) (hc : c / 128 = 4) : decodeRaw x = decodeMatrix x := by
  simp [decodeRaw, o, hc]

theorem decodeCopy_of {x c : Nat} (o : opcode x = c) (hc : c / 128 = 5) : decodeRaw x = decodeCopy x := by
  simp [decodeRaw, o, hc]

theorem decodeSync_of {x c : Nat} (o : opcode x = c) (hc : c / 128 = 6) : decodeRaw x = decodeSync x := by
  simp [decodeRaw, o, hc]

theorem decodeFloatSized_of {x c : Nat} (o : opcode x / 4 = c)
    (hc : c / 32 = 3 ∧ c ≠ 106 ∧ c ≠ 109 ∧ c ≠ 110 ∧ c ≠ 117 ∧ c ≠ 123 ∧ c ≠ 125) : decodeRaw x = decodeFloatSized x := by
  have : decodeRaw x = decodeVecFloat x := by simp [decodeRaw, show opcode x / 128 = 3 by omega]
  rw [this]
  unfold decodeVecFloat
  split <;> first | rfl | omega

/-! The fields of a word by its format (R171). -/

theorem fields0 {w : Nat} (c : Nat) (hc : c < 1024) 
    (h : w = c * 2097152) :
    opcode w = c ∧ fld w 0 21 = 0 := by
  refine ⟨?_, ?_⟩ <;> (try simp only [opcode, fld]) <;> omega

theorem fields1 {w : Nat} (c : Nat) (hc : c < 1024) (x0 : BitVec 5) (x1 : BitVec 5) (x2 : BitVec 5) (x3 : BitVec 3)
    (h : w = c * 2097152 + x0.toNat * 65536 + x1.toNat * 2048 + x2.toNat * 64 + x3.toNat * 8) :
    opcode w = c ∧ fld w 0 3 = 0 ∧ bits w 16 5 = x0 ∧ bits w 11 5 = x1 ∧ bits w 6 5 = x2 ∧ bits w 3 3 = x3 := by
  have := x0.isLt
  have := x1.isLt
  have := x2.isLt
  have := x3.isLt
  refine ⟨?_, ?_, bits_eq ?_, bits_eq ?_, bits_eq ?_, bits_eq ?_⟩ <;> (try simp only [opcode, fld]) <;> omega

theorem fields2 {w : Nat} (c : Nat) (hc : c < 1024) (x0 : BitVec 5) (x1 : BitVec 5) (x2 : BitVec 3)
    (h : w = c * 2097152 + x0.toNat * 65536 + x1.toNat * 2048 + x2.toNat * 8) :
    opcode w = c ∧ fld w 6 5 = 0 ∧ fld w 0 3 = 0 ∧ bits w 16 5 = x0 ∧ bits w 11 5 = x1 ∧ bits w 3 3 = x2 := by
  have := x0.isLt
  have := x1.isLt
  have := x2.isLt
  refine ⟨?_, ?_, ?_, bits_eq ?_, bits_eq ?_, bits_eq ?_⟩ <;> (try simp only [opcode, fld]) <;> omega

theorem fields3 {w : Nat} (c : Nat) (hc : c < 1024) (x0 : BitVec 5) (x1 : BitVec 5) (x2 : BitVec 11)
    (h : w = c * 2097152 + x0.toNat * 65536 + x1.toNat * 2048 + x2.toNat) :
    opcode w = c ∧ bits w 16 5 = x0 ∧ bits w 11 5 = x1 ∧ bits w 0 11 = x2 := by
  have := x0.isLt
  have := x1.isLt
  have := x2.isLt
  refine ⟨?_, bits_eq ?_, bits_eq ?_, bits_eq ?_⟩ <;> (try simp only [opcode, fld]) <;> omega

theorem fields4 {w : Nat} (c : Nat) (hc : c < 1024) (x0 : BitVec 5) (x1 : BitVec 5) (x2 : BitVec 6)
    (h : w = c * 2097152 + x0.toNat * 65536 + x1.toNat * 2048 + x2.toNat) :
    opcode w = c ∧ fld w 6 5 = 0 ∧ bits w 16 5 = x0 ∧ bits w 11 5 = x1 ∧ bits w 0 6 = x2 := by
  have := x0.isLt
  have := x1.isLt
  have := x2.isLt
  refine ⟨?_, ?_, bits_eq ?_, bits_eq ?_, bits_eq ?_⟩ <;> (try simp only [opcode, fld]) <;> omega

theorem fields5 {w : Nat} (c : Nat) (hc : c < 1024) (x0 : BitVec 5) (x1 : BitVec 16)
    (h : w = c * 2097152 + x0.toNat * 65536 + x1.toNat) :
    opcode w = c ∧ bits w 16 5 = x0 ∧ bits w 0 16 = x1 := by
  have := x0.isLt
  have := x1.isLt
  refine ⟨?_, bits_eq ?_, bits_eq ?_⟩ <;> (try simp only [opcode, fld]) <;> omega

theorem fields6 {w : Nat} (c : Nat) (hc : c < 1024) (x0 : BitVec 5) (x1 : BitVec 5) (x2 : BitVec 2) (x3 : BitVec 9)
    (h : w = c * 2097152 + x0.toNat * 65536 + x1.toNat * 2048 + x2.toNat * 512 + x3.toNat) :
    opcode w = c ∧ bits w 16 5 = x0 ∧ bits w 11 5 = x1 ∧ bits w 9 2 = x2 ∧ bits w 0 9 = x3 := by
  have := x0.isLt
  have := x1.isLt
  have := x2.isLt
  have := x3.isLt
  refine ⟨?_, bits_eq ?_, bits_eq ?_, bits_eq ?_, bits_eq ?_⟩ <;> (try simp only [opcode, fld]) <;> omega

theorem fields7 {w : Nat} (c : Nat) (hc : c < 1024) (x0 : BitVec 5) (x1 : BitVec 5) (x2 : BitVec 3) (x3 : BitVec 2) (x4 : BitVec 6)
    (h : w = c * 2097152 + x0.toNat * 65536 + x1.toNat * 2048 + x2.toNat * 256 + x3.toNat * 64 + x4.toNat) :
    opcode w = c ∧ bits w 16 5 = x0 ∧ bits w 11 5 = x1 ∧ bits w 8 3 = x2 ∧ bits w 6 2 = x3 ∧ bits w 0 6 = x4 := by
  have := x0.isLt
  have := x1.isLt
  have := x2.isLt
  have := x3.isLt
  have := x4.isLt
  refine ⟨?_, bits_eq ?_, bits_eq ?_, bits_eq ?_, bits_eq ?_, bits_eq ?_⟩ <;> (try simp only [opcode, fld]) <;> omega

theorem fields8 {w : Nat} (c : Nat) (hc : c < 1024) (x0 : BitVec 4) (x1 : BitVec 5) (x2 : BitVec 8) (x3 : BitVec 2)
    (h : w = c * 2097152 + x0.toNat * 131072 + x1.toNat * 4096 + x2.toNat * 16 + x3.toNat * 4) :
    opcode w = c ∧ fld w 0 2 = 0 ∧ bits w 17 4 = x0 ∧ bits w 12 5 = x1 ∧ bits w 4 8 = x2 ∧ bits w 2 2 = x3 := by
  have := x0.isLt
  have := x1.isLt
  have := x2.isLt
  have := x3.isLt
  refine ⟨?_, ?_, bits_eq ?_, bits_eq ?_, bits_eq ?_, bits_eq ?_⟩ <;> (try simp only [opcode, fld]) <;> omega

theorem fields9 {w : Nat} (c : Nat) (hc : c < 1024) (x0 : BitVec 5) (x1 : BitVec 4) (x2 : BitVec 2) (x3 : BitVec 6)
    (h : w = c * 2097152 + x0.toNat * 65536 + x1.toNat * 2048 + x2.toNat * 64 + x3.toNat) :
    opcode w = c ∧ fld w 15 1 = 0 ∧ fld w 8 3 = 0 ∧ bits w 16 5 = x0 ∧ bits w 11 4 = x1 ∧ bits w 6 2 = x2 ∧ bits w 0 6 = x3 := by
  have := x0.isLt
  have := x1.isLt
  have := x2.isLt
  have := x3.isLt
  refine ⟨?_, ?_, ?_, bits_eq ?_, bits_eq ?_, bits_eq ?_, bits_eq ?_⟩ <;> (try simp only [opcode, fld]) <;> omega

theorem fields10 {w : Nat} (c : Nat) (hc : c < 1024) (x0 : BitVec 21)
    (h : w = c * 2097152 + x0.toNat) :
    opcode w = c ∧ bits w 0 21 = x0 := by
  have := x0.isLt
  refine ⟨?_, bits_eq ?_⟩ <;> (try simp only [opcode, fld]) <;> omega

theorem fields11 {w : Nat} (c : Nat) (hc : c < 1024) (x0 : BitVec 5)
    (h : w = c * 2097152 + x0.toNat * 2048) :
    opcode w = c ∧ fld w 16 5 = 0 ∧ fld w 0 11 = 0 ∧ bits w 11 5 = x0 := by
  have := x0.isLt
  refine ⟨?_, ?_, ?_, bits_eq ?_⟩ <;> (try simp only [opcode, fld]) <;> omega

theorem fields12 {w : Nat} (c : Nat) (hc : c < 1024) (x0 : BitVec 3) (x1 : BitVec 16)
    (h : w = c * 2097152 + x0.toNat * 262144 + x1.toNat) :
    opcode w = c ∧ fld w 16 2 = 0 ∧ bits w 18 3 = x0 ∧ bits w 0 16 = x1 := by
  have := x0.isLt
  have := x1.isLt
  refine ⟨?_, ?_, bits_eq ?_, bits_eq ?_⟩ <;> (try simp only [opcode, fld]) <;> omega

theorem fields13 {w : Nat} (c : Nat) (hc : c < 1024) (x0 : BitVec 4) (x1 : BitVec 1) (x2 : BitVec 16)
    (h : w = c * 2097152 + x0.toNat * 131072 + x1.toNat * 65536 + x2.toNat) :
    opcode w = c ∧ bits w 17 4 = x0 ∧ bits w 16 1 = x1 ∧ bits w 0 16 = x2 := by
  have := x0.isLt
  have := x1.isLt
  have := x2.isLt
  refine ⟨?_, bits_eq ?_, bits_eq ?_, bits_eq ?_⟩ <;> (try simp only [opcode, fld]) <;> omega

theorem fields14 {w : Nat} (c : Nat) (hc : c < 1024) (x0 : BitVec 2) (x1 : BitVec 2) (x2 : BitVec 16)
    (h : w = c * 2097152 + x0.toNat * 524288 + x1.toNat * 65536 + x2.toNat) :
    opcode w = c ∧ fld w 18 1 = 0 ∧ bits w 19 2 = x0 ∧ bits w 16 2 = x1 ∧ bits w 0 16 = x2 := by
  have := x0.isLt
  have := x1.isLt
  have := x2.isLt
  refine ⟨?_, ?_, bits_eq ?_, bits_eq ?_, bits_eq ?_⟩ <;> (try simp only [opcode, fld]) <;> omega

theorem fields15 {w : Nat} (c : Nat) (hc : c < 1024) (x0 : BitVec 5) (x1 : BitVec 8)
    (h : w = c * 2097152 + x0.toNat * 65536 + x1.toNat * 256) :
    opcode w = c ∧ fld w 0 8 = 0 ∧ bits w 16 5 = x0 ∧ bits w 8 8 = x1 := by
  have := x0.isLt
  have := x1.isLt
  refine ⟨?_, ?_, bits_eq ?_, bits_eq ?_⟩ <;> (try simp only [opcode, fld]) <;> omega

theorem fields16 {w : Nat} (c : Nat) (hc : c < 1024) (x0 : BitVec 16)
    (h : w = c * 2097152 + x0.toNat) :
    opcode w = c ∧ fld w 16 5 = 0 ∧ bits w 0 16 = x0 := by
  have := x0.isLt
  refine ⟨?_, ?_, bits_eq ?_⟩ <;> (try simp only [opcode, fld]) <;> omega

theorem fields17 {w : Nat} (c : Nat) (hc : c < 1024) (x0 : BitVec 5)
    (h : w = c * 2097152 + x0.toNat * 65536) :
    opcode w = c ∧ fld w 0 16 = 0 ∧ bits w 16 5 = x0 := by
  have := x0.isLt
  refine ⟨?_, ?_, bits_eq ?_⟩ <;> (try simp only [opcode, fld]) <;> omega

theorem fields18 {w : Nat} (c : Nat) (hc : c < 1024) (x0 : BitVec 3) (x1 : BitVec 5)
    (h : w = c * 2097152 + x0.toNat * 32768 + x1.toNat * 128) :
    opcode w = c ∧ fld w 18 3 = 0 ∧ fld w 12 3 = 0 ∧ fld w 0 7 = 0 ∧ bits w 15 3 = x0 ∧ bits w 7 5 = x1 := by
  have := x0.isLt
  have := x1.isLt
  refine ⟨?_, ?_, ?_, ?_, bits_eq ?_, bits_eq ?_⟩ <;> (try simp only [opcode, fld]) <;> omega

theorem fields19 {w : Nat} (c : Nat) (hc : c < 1024) (x0 : BitVec 3) (x1 : BitVec 3)
    (h : w = c * 2097152 + x0.toNat * 262144 + x1.toNat * 32768) :
    opcode w = c ∧ fld w 0 15 = 0 ∧ bits w 18 3 = x0 ∧ bits w 15 3 = x1 := by
  have := x0.isLt
  have := x1.isLt
  refine ⟨?_, ?_, bits_eq ?_, bits_eq ?_⟩ <;> (try simp only [opcode, fld]) <;> omega

theorem fields20 {w : Nat} (c : Nat) (hc : c < 1024) (x0 : BitVec 3) (x1 : BitVec 5)
    (h : w = c * 2097152 + x0.toNat * 262144 + x1.toNat * 128) :
    opcode w = c ∧ fld w 12 6 = 0 ∧ fld w 0 7 = 0 ∧ bits w 18 3 = x0 ∧ bits w 7 5 = x1 := by
  have := x0.isLt
  have := x1.isLt
  refine ⟨?_, ?_, ?_, bits_eq ?_, bits_eq ?_⟩ <;> (try simp only [opcode, fld]) <;> omega

theorem fields21 {w : Nat} (c : Nat) (hc : c < 1024) (x0 : BitVec 3) (x1 : BitVec 3) (x2 : BitVec 3)
    (h : w = c * 2097152 + x0.toNat * 262144 + x1.toNat * 32768 + x2.toNat * 4096) :
    opcode w = c ∧ fld w 0 12 = 0 ∧ bits w 18 3 = x0 ∧ bits w 15 3 = x1 ∧ bits w 12 3 = x2 := by
  have := x0.isLt
  have := x1.isLt
  have := x2.isLt
  refine ⟨?_, ?_, bits_eq ?_, bits_eq ?_, bits_eq ?_⟩ <;> (try simp only [opcode, fld]) <;> omega

theorem fields22 {w : Nat} (c : Nat) (hc : c < 256) (x0 : BitVec 2) (x1 : BitVec 6) (x2 : BitVec 6) (x3 : BitVec 6) (x4 : BitVec 3)
    (h : w = c * 8388608 + x0.toNat * 2097152 + x1.toNat * 32768 + x2.toNat * 512 + x3.toNat * 8 + x4.toNat) :
    opcode w / 4 = c ∧ bits w 21 2 = x0 ∧ bits w 15 6 = x1 ∧ bits w 9 6 = x2 ∧ bits w 3 6 = x3 ∧ bits w 0 3 = x4 := by
  have := x0.isLt
  have := x1.isLt
  have := x2.isLt
  have := x3.isLt
  have := x4.isLt
  refine ⟨?_, bits_eq ?_, bits_eq ?_, bits_eq ?_, bits_eq ?_, bits_eq ?_⟩ <;> (try simp only [opcode, fld]) <;> omega

theorem fields23 {w : Nat} (c : Nat) (hc : c < 256) (x0 : BitVec 2) (x1 : BitVec 3) (x2 : BitVec 6) (x3 : BitVec 6) (x4 : BitVec 3)
    (h : w = c * 8388608 + x0.toNat * 2097152 + x1.toNat * 262144 + x2.toNat * 4096 + x3.toNat * 64 + x4.toNat * 8) :
    opcode w / 4 = c ∧ fld w 0 3 = 0 ∧ bits w 21 2 = x0 ∧ bits w 18 3 = x1 ∧ bits w 12 6 = x2 ∧ bits w 6 6 = x3 ∧ bits w 3 3 = x4 := by
  have := x0.isLt
  have := x1.isLt
  have := x2.isLt
  have := x3.isLt
  have := x4.isLt
  refine ⟨?_, ?_, bits_eq ?_, bits_eq ?_, bits_eq ?_, bits_eq ?_, bits_eq ?_⟩ <;> (try simp only [opcode, fld]) <;> omega

theorem fields24 {w : Nat} (c : Nat) (hc : c < 256) (x0 : BitVec 2) (x1 : BitVec 6) (x2 : BitVec 5) (x3 : BitVec 7) (x4 : BitVec 3)
    (h : w = c * 8388608 + x0.toNat * 2097152 + x1.toNat * 32768 + x2.toNat * 1024 + x3.toNat * 8 + x4.toNat) :
    opcode w / 4 = c ∧ bits w 21 2 = x0 ∧ bits w 15 6 = x1 ∧ bits w 10 5 = x2 ∧ bits w 3 7 = x3 ∧ bits w 0 3 = x4 := by
  have := x0.isLt
  have := x1.isLt
  have := x2.isLt
  have := x3.isLt
  have := x4.isLt
  refine ⟨?_, bits_eq ?_, bits_eq ?_, bits_eq ?_, bits_eq ?_, bits_eq ?_⟩ <;> (try simp only [opcode, fld]) <;> omega

theorem fields25 {w : Nat} (c : Nat) (hc : c < 256) (x0 : BitVec 2) (x1 : BitVec 6) (x2 : BitVec 6) (x3 : BitVec 3)
    (h : w = c * 8388608 + x0.toNat * 2097152 + x1.toNat * 32768 + x2.toNat * 512 + x3.toNat) :
    opcode w / 4 = c ∧ fld w 3 6 = 0 ∧ bits w 21 2 = x0 ∧ bits w 15 6 = x1 ∧ bits w 9 6 = x2 ∧ bits w 0 3 = x3 := by
  have := x0.isLt
  have := x1.isLt
  have := x2.isLt
  have := x3.isLt
  refine ⟨?_, ?_, bits_eq ?_, bits_eq ?_, bits_eq ?_, bits_eq ?_⟩ <;> (try simp only [opcode, fld]) <;> omega

theorem fields26 {w : Nat} (c : Nat) (hc : c < 1024) (x0 : BitVec 6) (x1 : BitVec 6) (x2 : BitVec 6) (x3 : BitVec 3)
    (h : w = c * 2097152 + x0.toNat * 32768 + x1.toNat * 512 + x2.toNat * 8 + x3.toNat) :
    opcode w = c ∧ bits w 15 6 = x0 ∧ bits w 9 6 = x1 ∧ bits w 3 6 = x2 ∧ bits w 0 3 = x3 := by
  have := x0.isLt
  have := x1.isLt
  have := x2.isLt
  have := x3.isLt
  refine ⟨?_, bits_eq ?_, bits_eq ?_, bits_eq ?_, bits_eq ?_⟩ <;> (try simp only [opcode, fld]) <;> omega

theorem fields27 {w : Nat} (c : Nat) (hc : c < 1024) (x0 : BitVec 6) (x1 : BitVec 6) (x2 : BitVec 3)
    (h : w = c * 2097152 + x0.toNat * 32768 + x1.toNat * 512 + x2.toNat) :
    opcode w = c ∧ fld w 3 6 = 0 ∧ bits w 15 6 = x0 ∧ bits w 9 6 = x1 ∧ bits w 0 3 = x2 := by
  have := x0.isLt
  have := x1.isLt
  have := x2.isLt
  refine ⟨?_, ?_, bits_eq ?_, bits_eq ?_, bits_eq ?_⟩ <;> (try simp only [opcode, fld]) <;> omega

theorem fields28 {w : Nat} (c : Nat) (hc : c < 1024) (x0 : BitVec 6) (x1 : BitVec 6) (x2 : BitVec 3) (x3 : BitVec 3) (x4 : BitVec 3)
    (h : w = c * 2097152 + x0.toNat * 32768 + x1.toNat * 512 + x2.toNat * 64 + x3.toNat * 8 + x4.toNat) :
    opcode w = c ∧ bits w 15 6 = x0 ∧ bits w 9 6 = x1 ∧ bits w 6 3 = x2 ∧ bits w 3 3 = x3 ∧ bits w 0 3 = x4 := by
  have := x0.isLt
  have := x1.isLt
  have := x2.isLt
  have := x3.isLt
  have := x4.isLt
  refine ⟨?_, bits_eq ?_, bits_eq ?_, bits_eq ?_, bits_eq ?_, bits_eq ?_⟩ <;> (try simp only [opcode, fld]) <;> omega

theorem fields29 {w : Nat} (c : Nat) (hc : c < 1024) (x0 : BitVec 6) (x1 : BitVec 5) (x2 : BitVec 7) (x3 : BitVec 3)
    (h : w = c * 2097152 + x0.toNat * 32768 + x1.toNat * 1024 + x2.toNat * 8 + x3.toNat) :
    opcode w = c ∧ bits w 15 6 = x0 ∧ bits w 10 5 = x1 ∧ bits w 3 7 = x2 ∧ bits w 0 3 = x3 := by
  have := x0.isLt
  have := x1.isLt
  have := x2.isLt
  have := x3.isLt
  refine ⟨?_, bits_eq ?_, bits_eq ?_, bits_eq ?_, bits_eq ?_⟩ <;> (try simp only [opcode, fld]) <;> omega

theorem fields30 {w : Nat} (c : Nat) (hc : c < 1024) (x0 : BitVec 4) (x1 : BitVec 5) (x2 : BitVec 8)
    (h : w = c * 2097152 + x0.toNat * 131072 + x1.toNat * 4096 + x2.toNat * 16) :
    opcode w = c ∧ fld w 0 4 = 0 ∧ bits w 17 4 = x0 ∧ bits w 12 5 = x1 ∧ bits w 4 8 = x2 := by
  have := x0.isLt
  have := x1.isLt
  have := x2.isLt
  refine ⟨?_, ?_, bits_eq ?_, bits_eq ?_, bits_eq ?_⟩ <;> (try simp only [opcode, fld]) <;> omega

theorem fields31 {w : Nat} (c : Nat) (hc : c < 256) (x0 : BitVec 2) (x1 : BitVec 6) (x2 : BitVec 5) (x3 : BitVec 3) (x4 : BitVec 3)
    (h : w = c * 8388608 + x0.toNat * 2097152 + x1.toNat * 32768 + x2.toNat * 1024 + x3.toNat * 128 + x4.toNat) :
    opcode w / 4 = c ∧ fld w 3 4 = 0 ∧ bits w 21 2 = x0 ∧ bits w 15 6 = x1 ∧ bits w 10 5 = x2 ∧ bits w 7 3 = x3 ∧ bits w 0 3 = x4 := by
  have := x0.isLt
  have := x1.isLt
  have := x2.isLt
  have := x3.isLt
  have := x4.isLt
  refine ⟨?_, ?_, bits_eq ?_, bits_eq ?_, bits_eq ?_, bits_eq ?_, bits_eq ?_⟩ <;> (try simp only [opcode, fld]) <;> omega

theorem fields32 {w : Nat} (c : Nat) (hc : c < 1024) (x0 : BitVec 6) (x1 : BitVec 4) (x2 : BitVec 1)
    (h : w = c * 2097152 + x0.toNat * 32768 + x1.toNat * 2048 + x2.toNat * 1024) :
    opcode w = c ∧ fld w 0 10 = 0 ∧ bits w 15 6 = x0 ∧ bits w 11 4 = x1 ∧ bits w 10 1 = x2 := by
  have := x0.isLt
  have := x1.isLt
  have := x2.isLt
  refine ⟨?_, ?_, bits_eq ?_, bits_eq ?_, bits_eq ?_⟩ <;> (try simp only [opcode, fld]) <;> omega

theorem fields33 {w : Nat} (c : Nat) (hc : c < 1024) (x0 : BitVec 3) (x1 : BitVec 3) (x2 : BitVec 6) (x3 : BitVec 8)
    (h : w = c * 2097152 + x0.toNat * 262144 + x1.toNat * 32768 + x2.toNat * 512 + x3.toNat * 2) :
    opcode w = c ∧ fld w 0 1 = 0 ∧ bits w 18 3 = x0 ∧ bits w 15 3 = x1 ∧ bits w 9 6 = x2 ∧ bits w 1 8 = x3 := by
  have := x0.isLt
  have := x1.isLt
  have := x2.isLt
  have := x3.isLt
  refine ⟨?_, ?_, bits_eq ?_, bits_eq ?_, bits_eq ?_, bits_eq ?_⟩ <;> (try simp only [opcode, fld]) <;> omega

theorem fields34 {w : Nat} (c : Nat) (hc : c < 1024) (x0 : BitVec 3) (x1 : BitVec 5) (x2 : BitVec 5)
    (h : w = c * 2097152 + x0.toNat * 262144 + x1.toNat * 8192 + x2.toNat * 256) :
    opcode w = c ∧ fld w 0 8 = 0 ∧ bits w 18 3 = x0 ∧ bits w 13 5 = x1 ∧ bits w 8 5 = x2 := by
  have := x0.isLt
  have := x1.isLt
  have := x2.isLt
  refine ⟨?_, ?_, bits_eq ?_, bits_eq ?_, bits_eq ?_⟩ <;> (try simp only [opcode, fld]) <;> omega

theorem fields35 {w : Nat} (c : Nat) (hc : c < 1024) (x0 : BitVec 3)
    (h : w = c * 2097152 + x0.toNat * 262144) :
    opcode w = c ∧ fld w 0 18 = 0 ∧ bits w 18 3 = x0 := by
  have := x0.isLt
  refine ⟨?_, ?_, bits_eq ?_⟩ <;> (try simp only [opcode, fld]) <;> omega

theorem fields36 {w : Nat} (c : Nat) (hc : c < 1024) (x0 : BitVec 2) (x1 : BitVec 3) (x2 : BitVec 3) (x3 : BitVec 1) (x4 : BitVec 1) (x5 : BitVec 1) (x6 : BitVec 1) (x7 : BitVec 3)
    (h : w = c * 2097152 + x0.toNat * 524288 + x1.toNat * 65536 + x2.toNat * 8192 + x3.toNat * 512 + x4.toNat * 256 + x5.toNat * 128 + x6.toNat * 64 + x7.toNat * 8) :
    opcode w = c ∧ fld w 10 3 = 0 ∧ fld w 0 3 = 0 ∧ bits w 19 2 = x0 ∧ bits w 16 3 = x1 ∧ bits w 13 3 = x2 ∧ bits w 9 1 = x3 ∧ bits w 8 1 = x4 ∧ bits w 7 1 = x5 ∧ bits w 6 1 = x6 ∧ bits w 3 3 = x7 := by
  have := x0.isLt
  have := x1.isLt
  have := x2.isLt
  have := x3.isLt
  have := x4.isLt
  have := x5.isLt
  have := x6.isLt
  have := x7.isLt
  refine ⟨?_, ?_, ?_, bits_eq ?_, bits_eq ?_, bits_eq ?_, bits_eq ?_, bits_eq ?_, bits_eq ?_, bits_eq ?_, bits_eq ?_⟩ <;> (try simp only [opcode, fld]) <;> omega

theorem fields37 {w : Nat} (c : Nat) (hc : c < 1024) (x0 : BitVec 2) (x1 : BitVec 3) (x2 : BitVec 3) (x3 : BitVec 3) (x4 : BitVec 1) (x5 : BitVec 1) (x6 : BitVec 1) (x7 : BitVec 1) (x8 : BitVec 3)
    (h : w = c * 2097152 + x0.toNat * 524288 + x1.toNat * 65536 + x2.toNat * 8192 + x3.toNat * 1024 + x4.toNat * 512 + x5.toNat * 256 + x6.toNat * 128 + x7.toNat * 64 + x8.toNat * 8) :
    opcode w = c ∧ fld w 0 3 = 0 ∧ bits w 19 2 = x0 ∧ bits w 16 3 = x1 ∧ bits w 13 3 = x2 ∧ bits w 10 3 = x3 ∧ bits w 9 1 = x4 ∧ bits w 8 1 = x5 ∧ bits w 7 1 = x6 ∧ bits w 6 1 = x7 ∧ bits w 3 3 = x8 := by
  have := x0.isLt
  have := x1.isLt
  have := x2.isLt
  have := x3.isLt
  have := x4.isLt
  have := x5.isLt
  have := x6.isLt
  have := x7.isLt
  have := x8.isLt
  refine ⟨?_, ?_, bits_eq ?_, bits_eq ?_, bits_eq ?_, bits_eq ?_, bits_eq ?_, bits_eq ?_, bits_eq ?_, bits_eq ?_, bits_eq ?_⟩ <;> (try simp only [opcode, fld]) <;> omega

theorem fields38 {w : Nat} (c : Nat) (hc : c < 1024) (x0 : BitVec 2)
    (h : w = c * 2097152 + x0.toNat * 524288) :
    opcode w = c ∧ fld w 0 19 = 0 ∧ bits w 19 2 = x0 := by
  have := x0.isLt
  refine ⟨?_, ?_, bits_eq ?_⟩ <;> (try simp only [opcode, fld]) <;> omega

theorem fields39 {w : Nat} (c : Nat) (hc : c < 1024) (x0 : BitVec 2) (x1 : BitVec 1) (x2 : BitVec 3) (x3 : BitVec 3) (x4 : BitVec 3)
    (h : w = c * 2097152 + x0.toNat * 524288 + x1.toNat * 262144 + x2.toNat * 32768 + x3.toNat * 4096 + x4.toNat * 512) :
    opcode w = c ∧ fld w 0 9 = 0 ∧ bits w 19 2 = x0 ∧ bits w 18 1 = x1 ∧ bits w 15 3 = x2 ∧ bits w 12 3 = x3 ∧ bits w 9 3 = x4 := by
  have := x0.isLt
  have := x1.isLt
  have := x2.isLt
  have := x3.isLt
  have := x4.isLt
  refine ⟨?_, ?_, bits_eq ?_, bits_eq ?_, bits_eq ?_, bits_eq ?_, bits_eq ?_⟩ <;> (try simp only [opcode, fld]) <;> omega

theorem fields40 {w : Nat} (c : Nat) (hc : c < 1024) (x0 : BitVec 1)
    (h : w = c * 2097152 + 16384 + x0.toNat * 4096) :
    opcode w = c ∧ fld w 13 8 = 2 ∧ fld w 0 12 = 0 ∧ bits w 12 1 = x0 := by
  have := x0.isLt
  refine ⟨?_, ?_, ?_, bits_eq ?_⟩ <;> (try simp only [opcode, fld]) <;> omega

theorem fields41 {w : Nat} (c : Nat) (hc : c < 1024) (x0 : BitVec 6) (x1 : BitVec 1) (x2 : BitVec 6)
    (h : w = c * 2097152 + 16384 + x0.toNat * 32768 + x1.toNat * 4096 + x2.toNat * 64) :
    opcode w = c ∧ fld w 13 2 = 2 ∧ fld w 0 6 = 0 ∧ bits w 15 6 = x0 ∧ bits w 12 1 = x1 ∧ bits w 6 6 = x2 := by
  have := x0.isLt
  have := x1.isLt
  have := x2.isLt
  refine ⟨?_, ?_, ?_, bits_eq ?_, bits_eq ?_, bits_eq ?_⟩ <;> (try simp only [opcode, fld]) <;> omega

theorem fields42 {w : Nat} (c : Nat) (hc : c < 1024) (x0 : BitVec 6) (x1 : BitVec 2) (x2 : BitVec 6)
    (h : w = c * 2097152 + x0.toNat * 32768 + x1.toNat * 4096 + x2.toNat * 64) :
    opcode w = c ∧ fld w 14 1 = 0 ∧ fld w 0 6 = 0 ∧ bits w 15 6 = x0 ∧ bits w 12 2 = x1 ∧ bits w 6 6 = x2 := by
  have := x0.isLt
  have := x1.isLt
  have := x2.isLt
  refine ⟨?_, ?_, ?_, bits_eq ?_, bits_eq ?_, bits_eq ?_⟩ <;> (try simp only [opcode, fld]) <;> omega

theorem fields43 {w : Nat} (c : Nat) (hc : c < 1024) (x0 : BitVec 5) (x1 : BitVec 5) (x2 : BitVec 5) (x3 : BitVec 3)
    (h : w = c * 2097152 + x0.toNat * 65536 + x1.toNat * 2048 + x2.toNat * 64 + x3.toNat) :
    opcode w = c ∧ fld w 3 3 = 0 ∧ bits w 16 5 = x0 ∧ bits w 11 5 = x1 ∧ bits w 6 5 = x2 ∧ bits w 0 3 = x3 := by
  have := x0.isLt
  have := x1.isLt
  have := x2.isLt
  have := x3.isLt
  refine ⟨?_, ?_, bits_eq ?_, bits_eq ?_, bits_eq ?_, bits_eq ?_⟩ <;> (try simp only [opcode, fld]) <;> omega

theorem fields44 {w : Nat} (c : Nat) (hc : c < 1024) (x0 : BitVec 5) (x1 : BitVec 5) (x2 : BitVec 5) (x3 : BitVec 3) (x4 : BitVec 3)
    (h : w = c * 2097152 + x0.toNat * 65536 + x1.toNat * 2048 + x2.toNat * 64 + x3.toNat * 8 + x4.toNat) :
    opcode w = c ∧ bits w 16 5 = x0 ∧ bits w 11 5 = x1 ∧ bits w 6 5 = x2 ∧ bits w 3 3 = x3 ∧ bits w 0 3 = x4 := by
  have := x0.isLt
  have := x1.isLt
  have := x2.isLt
  have := x3.isLt
  have := x4.isLt
  refine ⟨?_, bits_eq ?_, bits_eq ?_, bits_eq ?_, bits_eq ?_, bits_eq ?_⟩ <;> (try simp only [opcode, fld]) <;> omega

theorem fields45 {w : Nat} (c : Nat) (hc : c < 1024) (x0 : BitVec 1) (x1 : BitVec 5)
    (h : w = c * 2097152 + x0.toNat * 1048576 + x1.toNat * 32768) :
    opcode w = c ∧ fld w 0 15 = 0 ∧ bits w 20 1 = x0 ∧ bits w 15 5 = x1 := by
  have := x0.isLt
  have := x1.isLt
  refine ⟨?_, ?_, bits_eq ?_, bits_eq ?_⟩ <;> (try simp only [opcode, fld]) <;> omega

theorem fields46 {w : Nat} (c : Nat) (hc : c < 1024) (x0 : BitVec 4) (x1 : BitVec 1)
    (h : w = c * 2097152 + x0.toNat * 131072 + x1.toNat * 65536) :
    opcode w = c ∧ fld w 0 16 = 0 ∧ bits w 17 4 = x0 ∧ bits w 16 1 = x1 := by
  have := x0.isLt
  have := x1.isLt
  refine ⟨?_, ?_, bits_eq ?_, bits_eq ?_⟩ <;> (try simp only [opcode, fld]) <;> omega

theorem fields47 {w : Nat} (c : Nat) (hc : c < 1024) (x0 : BitVec 3) (x1 : BitVec 1) (x2 : BitVec 3)
    (h : w = c * 2097152 + x0.toNat * 262144 + x1.toNat * 131072 + x2.toNat * 16384) :
    opcode w = c ∧ fld w 0 14 = 0 ∧ bits w 18 3 = x0 ∧ bits w 17 1 = x1 ∧ bits w 14 3 = x2 := by
  have := x0.isLt
  have := x1.isLt
  have := x2.isLt
  refine ⟨?_, ?_, bits_eq ?_, bits_eq ?_, bits_eq ?_⟩ <;> (try simp only [opcode, fld]) <;> omega

theorem fields48 {w : Nat} (c : Nat) (hc : c < 1024) (x0 : BitVec 5) (x1 : BitVec 5) (x2 : BitVec 5) (x3 : BitVec 2)
    (h : w = c * 2097152 + x0.toNat * 65536 + x1.toNat * 2048 + x2.toNat * 64 + x3.toNat * 16) :
    opcode w = c ∧ fld w 0 4 = 0 ∧ bits w 16 5 = x0 ∧ bits w 11 5 = x1 ∧ bits w 6 5 = x2 ∧ bits w 4 2 = x3 := by
  have := x0.isLt
  have := x1.isLt
  have := x2.isLt
  have := x3.isLt
  refine ⟨?_, ?_, bits_eq ?_, bits_eq ?_, bits_eq ?_, bits_eq ?_⟩ <;> (try simp only [opcode, fld]) <;> omega

theorem fields49 {w : Nat} (c : Nat) (hc : c < 1024) (x0 : BitVec 5) (x1 : BitVec 5) (x2 : BitVec 5)
    (h : w = c * 2097152 + x0.toNat * 65536 + x1.toNat * 2048 + x2.toNat * 64) :
    opcode w = c ∧ fld w 0 6 = 0 ∧ bits w 16 5 = x0 ∧ bits w 11 5 = x1 ∧ bits w 6 5 = x2 := by
  have := x0.isLt
  have := x1.isLt
  have := x2.isLt
  refine ⟨?_, ?_, bits_eq ?_, bits_eq ?_, bits_eq ?_⟩ <;> (try simp only [opcode, fld]) <;> omega

theorem fields50 {w : Nat} (c : Nat) (hc : c < 1024) (x0 : BitVec 5) (x1 : BitVec 5)
    (h : w = c * 2097152 + x0.toNat * 2048 + x1.toNat * 64) :
    opcode w = c ∧ fld w 16 5 = 0 ∧ fld w 0 6 = 0 ∧ bits w 11 5 = x0 ∧ bits w 6 5 = x1 := by
  have := x0.isLt
  have := x1.isLt
  refine ⟨?_, ?_, ?_, bits_eq ?_, bits_eq ?_⟩ <;> (try simp only [opcode, fld]) <;> omega

theorem fields51 {w : Nat} (c : Nat) (hc : c < 1024) (x0 : BitVec 5) (x1 : BitVec 5)
    (h : w = c * 2097152 + x0.toNat * 65536 + x1.toNat * 2048) :
    opcode w = c ∧ fld w 0 11 = 0 ∧ bits w 16 5 = x0 ∧ bits w 11 5 = x1 := by
  have := x0.isLt
  have := x1.isLt
  refine ⟨?_, ?_, bits_eq ?_, bits_eq ?_⟩ <;> (try simp only [opcode, fld]) <;> omega

theorem fields52 {w : Nat} (c : Nat) (hc : c < 1024) (x0 : BitVec 2)
    (h : w = c * 2097152 + x0.toNat) :
    opcode w = c ∧ fld w 2 19 = 0 ∧ bits w 0 2 = x0 := by
  have := x0.isLt
  refine ⟨?_, ?_, bits_eq ?_⟩ <;> (try simp only [opcode, fld]) <;> omega

theorem fields53 {w : Nat} (c : Nat) (hc : c < 1024) (x0 : BitVec 5) (x1 : BitVec 3)
    (h : w = c * 2097152 + x0.toNat * 65536 + x1.toNat) :
    opcode w = c ∧ fld w 3 13 = 0 ∧ bits w 16 5 = x0 ∧ bits w 0 3 = x1 := by
  have := x0.isLt
  have := x1.isLt
  refine ⟨?_, ?_, bits_eq ?_, bits_eq ?_⟩ <;> (try simp only [opcode, fld]) <;> omega

/-! The constructors. -/

theorem nop : Statement (.nop) := by
  intro h
  have hx : encode (.nop) = 0 := rfl
  generalize encode (.nop) = wd at hx ⊢
  obtain ⟨op, z0⟩ := fields0 0 (by omega) (by omega)
  have r : decodeScalar wd = zeroed (fld wd 0 21 == 0) (.nop) := by simp only [decodeScalar, op]
  rw [z0] at r
  exact of_raw ((decodeScalar_of op (by decide)).trans r) h

theorem add (d a b m) : Statement (.add d a b m) := by
  intro h
  have hx : encode (.add d a b m) = 2097152 + d.toNat * 65536 + a.toNat * 2048 + b.toNat * 64 + m.toNat * 8 := rfl
  generalize encode (.add d a b m) = wd at hx ⊢
  obtain ⟨op, z0, f0, f1, f2, f3⟩ := fields1 1 (by omega) d a b m (by omega)
  have r : decodeScalar wd = zeroed (fld wd 0 3 == 0) (.add (bits wd 16 5) (bits wd 11 5) (bits wd 6 5) (bits wd 3 3)) := by simp only [decodeScalar, op]
  rw [z0, f0, f1, f2, f3] at r
  exact of_raw ((decodeScalar_of op (by decide)).trans r) h

theorem sub (d a b m) : Statement (.sub d a b m) := by
  intro h
  have hx : encode (.sub d a b m) = 4194304 + d.toNat * 65536 + a.toNat * 2048 + b.toNat * 64 + m.toNat * 8 := rfl
  generalize encode (.sub d a b m) = wd at hx ⊢
  obtain ⟨op, z0, f0, f1, f2, f3⟩ := fields1 2 (by omega) d a b m (by omega)
  have r : decodeScalar wd = zeroed (fld wd 0 3 == 0) (.sub (bits wd 16 5) (bits wd 11 5) (bits wd 6 5) (bits wd 3 3)) := by simp only [decodeScalar, op]
  rw [z0, f0, f1, f2, f3] at r
  exact of_raw ((decodeScalar_of op (by decide)).trans r) h

theorem and (d a b m) : Statement (.and d a b m) := by
  intro h
  have hx : encode (.and d a b m) = 6291456 + d.toNat * 65536 + a.toNat * 2048 + b.toNat * 64 + m.toNat * 8 := rfl
  generalize encode (.and d a b m) = wd at hx ⊢
  obtain ⟨op, z0, f0, f1, f2, f3⟩ := fields1 3 (by omega) d a b m (by omega)
  have r : decodeScalar wd = zeroed (fld wd 0 3 == 0) (.and (bits wd 16 5) (bits wd 11 5) (bits wd 6 5) (bits wd 3 3)) := by simp only [decodeScalar, op]
  rw [z0, f0, f1, f2, f3] at r
  exact of_raw ((decodeScalar_of op (by decide)).trans r) h

theorem or (d a b m) : Statement (.or d a b m) := by
  intro h
  have hx : encode (.or d a b m) = 8388608 + d.toNat * 65536 + a.toNat * 2048 + b.toNat * 64 + m.toNat * 8 := rfl
  generalize encode (.or d a b m) = wd at hx ⊢
  obtain ⟨op, z0, f0, f1, f2, f3⟩ := fields1 4 (by omega) d a b m (by omega)
  have r : decodeScalar wd = zeroed (fld wd 0 3 == 0) (.or (bits wd 16 5) (bits wd 11 5) (bits wd 6 5) (bits wd 3 3)) := by simp only [decodeScalar, op]
  rw [z0, f0, f1, f2, f3] at r
  exact of_raw ((decodeScalar_of op (by decide)).trans r) h

theorem xor (d a b m) : Statement (.xor d a b m) := by
  intro h
  have hx : encode (.xor d a b m) = 10485760 + d.toNat * 65536 + a.toNat * 2048 + b.toNat * 64 + m.toNat * 8 := rfl
  generalize encode (.xor d a b m) = wd at hx ⊢
  obtain ⟨op, z0, f0, f1, f2, f3⟩ := fields1 5 (by omega) d a b m (by omega)
  have r : decodeScalar wd = zeroed (fld wd 0 3 == 0) (.xor (bits wd 16 5) (bits wd 11 5) (bits wd 6 5) (bits wd 3 3)) := by simp only [decodeScalar, op]
  rw [z0, f0, f1, f2, f3] at r
  exact of_raw ((decodeScalar_of op (by decide)).trans r) h

theorem andn (d a b m) : Statement (.andn d a b m) := by
  intro h
  have hx : encode (.andn d a b m) = 12582912 + d.toNat * 65536 + a.toNat * 2048 + b.toNat * 64 + m.toNat * 8 := rfl
  generalize encode (.andn d a b m) = wd at hx ⊢
  obtain ⟨op, z0, f0, f1, f2, f3⟩ := fields1 6 (by omega) d a b m (by omega)
  have r : decodeScalar wd = zeroed (fld wd 0 3 == 0) (.andn (bits wd 16 5) (bits wd 11 5) (bits wd 6 5) (bits wd 3 3)) := by simp only [decodeScalar, op]
  rw [z0, f0, f1, f2, f3] at r
  exact of_raw ((decodeScalar_of op (by decide)).trans r) h

theorem shl (d a b m) : Statement (.shl d a b m) := by
  intro h
  have hx : encode (.shl d a b m) = 14680064 + d.toNat * 65536 + a.toNat * 2048 + b.toNat * 64 + m.toNat * 8 := rfl
  generalize encode (.shl d a b m) = wd at hx ⊢
  obtain ⟨op, z0, f0, f1, f2, f3⟩ := fields1 7 (by omega) d a b m (by omega)
  have r : decodeScalar wd = zeroed (fld wd 0 3 == 0) (.shl (bits wd 16 5) (bits wd 11 5) (bits wd 6 5) (bits wd 3 3)) := by simp only [decodeScalar, op]
  rw [z0, f0, f1, f2, f3] at r
  exact of_raw ((decodeScalar_of op (by decide)).trans r) h

theorem shr (d a b m) : Statement (.shr d a b m) := by
  intro h
  have hx : encode (.shr d a b m) = 16777216 + d.toNat * 65536 + a.toNat * 2048 + b.toNat * 64 + m.toNat * 8 := rfl
  generalize encode (.shr d a b m) = wd at hx ⊢
  obtain ⟨op, z0, f0, f1, f2, f3⟩ := fields1 8 (by omega) d a b m (by omega)
  have r : decodeScalar wd = zeroed (fld wd 0 3 == 0) (.shr (bits wd 16 5) (bits wd 11 5) (bits wd 6 5) (bits wd 3 3)) := by simp only [decodeScalar, op]
  rw [z0, f0, f1, f2, f3] at r
  exact of_raw ((decodeScalar_of op (by decide)).trans r) h

theorem shra (d a b m) : Statement (.shra d a b m) := by
  intro h
  have hx : encode (.shra d a b m) = 18874368 + d.toNat * 65536 + a.toNat * 2048 + b.toNat * 64 + m.toNat * 8 := rfl
  generalize encode (.shra d a b m) = wd at hx ⊢
  obtain ⟨op, z0, f0, f1, f2, f3⟩ := fields1 9 (by omega) d a b m (by omega)
  have r : decodeScalar wd = zeroed (fld wd 0 3 == 0) (.shra (bits wd 16 5) (bits wd 11 5) (bits wd 6 5) (bits wd 3 3)) := by simp only [decodeScalar, op]
  rw [z0, f0, f1, f2, f3] at r
  exact of_raw ((decodeScalar_of op (by decide)).trans r) h

theorem rotr (d a b m) : Statement (.rotr d a b m) := by
  intro h
  have hx : encode (.rotr d a b m) = 20971520 + d.toNat * 65536 + a.toNat * 2048 + b.toNat * 64 + m.toNat * 8 := rfl
  generalize encode (.rotr d a b m) = wd at hx ⊢
  obtain ⟨op, z0, f0, f1, f2, f3⟩ := fields1 10 (by omega) d a b m (by omega)
  have r : decodeScalar wd = zeroed (fld wd 0 3 == 0) (.rotr (bits wd 16 5) (bits wd 11 5) (bits wd 6 5) (bits wd 3 3)) := by simp only [decodeScalar, op]
  rw [z0, f0, f1, f2, f3] at r
  exact of_raw ((decodeScalar_of op (by decide)).trans r) h

theorem mul (d a b m) : Statement (.mul d a b m) := by
  intro h
  have hx : encode (.mul d a b m) = 23068672 + d.toNat * 65536 + a.toNat * 2048 + b.toNat * 64 + m.toNat * 8 := rfl
  generalize encode (.mul d a b m) = wd at hx ⊢
  obtain ⟨op, z0, f0, f1, f2, f3⟩ := fields1 11 (by omega) d a b m (by omega)
  have r : decodeScalar wd = zeroed (fld wd 0 3 == 0) (.mul (bits wd 16 5) (bits wd 11 5) (bits wd 6 5) (bits wd 3 3)) := by simp only [decodeScalar, op]
  rw [z0, f0, f1, f2, f3] at r
  exact of_raw ((decodeScalar_of op (by decide)).trans r) h

theorem mulh (d a b m) : Statement (.mulh d a b m) := by
  intro h
  have hx : encode (.mulh d a b m) = 25165824 + d.toNat * 65536 + a.toNat * 2048 + b.toNat * 64 + m.toNat * 8 := rfl
  generalize encode (.mulh d a b m) = wd at hx ⊢
  obtain ⟨op, z0, f0, f1, f2, f3⟩ := fields1 12 (by omega) d a b m (by omega)
  have r : decodeScalar wd = zeroed (fld wd 0 3 == 0) (.mulh (bits wd 16 5) (bits wd 11 5) (bits wd 6 5) (bits wd 3 3)) := by simp only [decodeScalar, op]
  rw [z0, f0, f1, f2, f3] at r
  exact of_raw ((decodeScalar_of op (by decide)).trans r) h

theorem mulhu (d a b m) : Statement (.mulhu d a b m) := by
  intro h
  have hx : encode (.mulhu d a b m) = 27262976 + d.toNat * 65536 + a.toNat * 2048 + b.toNat * 64 + m.toNat * 8 := rfl
  generalize encode (.mulhu d a b m) = wd at hx ⊢
  obtain ⟨op, z0, f0, f1, f2, f3⟩ := fields1 13 (by omega) d a b m (by omega)
  have r : decodeScalar wd = zeroed (fld wd 0 3 == 0) (.mulhu (bits wd 16 5) (bits wd 11 5) (bits wd 6 5) (bits wd 3 3)) := by simp only [decodeScalar, op]
  rw [z0, f0, f1, f2, f3] at r
  exact of_raw ((decodeScalar_of op (by decide)).trans r) h

theorem div (d a b m) : Statement (.div d a b m) := by
  intro h
  have hx : encode (.div d a b m) = 29360128 + d.toNat * 65536 + a.toNat * 2048 + b.toNat * 64 + m.toNat * 8 := rfl
  generalize encode (.div d a b m) = wd at hx ⊢
  obtain ⟨op, z0, f0, f1, f2, f3⟩ := fields1 14 (by omega) d a b m (by omega)
  have r : decodeScalar wd = zeroed (fld wd 0 3 == 0) (.div (bits wd 16 5) (bits wd 11 5) (bits wd 6 5) (bits wd 3 3)) := by simp only [decodeScalar, op]
  rw [z0, f0, f1, f2, f3] at r
  exact of_raw ((decodeScalar_of op (by decide)).trans r) h

theorem divu (d a b m) : Statement (.divu d a b m) := by
  intro h
  have hx : encode (.divu d a b m) = 31457280 + d.toNat * 65536 + a.toNat * 2048 + b.toNat * 64 + m.toNat * 8 := rfl
  generalize encode (.divu d a b m) = wd at hx ⊢
  obtain ⟨op, z0, f0, f1, f2, f3⟩ := fields1 15 (by omega) d a b m (by omega)
  have r : decodeScalar wd = zeroed (fld wd 0 3 == 0) (.divu (bits wd 16 5) (bits wd 11 5) (bits wd 6 5) (bits wd 3 3)) := by simp only [decodeScalar, op]
  rw [z0, f0, f1, f2, f3] at r
  exact of_raw ((decodeScalar_of op (by decide)).trans r) h

theorem rem (d a b m) : Statement (.rem d a b m) := by
  intro h
  have hx : encode (.rem d a b m) = 33554432 + d.toNat * 65536 + a.toNat * 2048 + b.toNat * 64 + m.toNat * 8 := rfl
  generalize encode (.rem d a b m) = wd at hx ⊢
  obtain ⟨op, z0, f0, f1, f2, f3⟩ := fields1 16 (by omega) d a b m (by omega)
  have r : decodeScalar wd = zeroed (fld wd 0 3 == 0) (.rem (bits wd 16 5) (bits wd 11 5) (bits wd 6 5) (bits wd 3 3)) := by simp only [decodeScalar, op]
  rw [z0, f0, f1, f2, f3] at r
  exact of_raw ((decodeScalar_of op (by decide)).trans r) h

theorem remu (d a b m) : Statement (.remu d a b m) := by
  intro h
  have hx : encode (.remu d a b m) = 35651584 + d.toNat * 65536 + a.toNat * 2048 + b.toNat * 64 + m.toNat * 8 := rfl
  generalize encode (.remu d a b m) = wd at hx ⊢
  obtain ⟨op, z0, f0, f1, f2, f3⟩ := fields1 17 (by omega) d a b m (by omega)
  have r : decodeScalar wd = zeroed (fld wd 0 3 == 0) (.remu (bits wd 16 5) (bits wd 11 5) (bits wd 6 5) (bits wd 3 3)) := by simp only [decodeScalar, op]
  rw [z0, f0, f1, f2, f3] at r
  exact of_raw ((decodeScalar_of op (by decide)).trans r) h

theorem min (d a b m) : Statement (.min d a b m) := by
  intro h
  have hx : encode (.min d a b m) = 37748736 + d.toNat * 65536 + a.toNat * 2048 + b.toNat * 64 + m.toNat * 8 := rfl
  generalize encode (.min d a b m) = wd at hx ⊢
  obtain ⟨op, z0, f0, f1, f2, f3⟩ := fields1 18 (by omega) d a b m (by omega)
  have r : decodeScalar wd = zeroed (fld wd 0 3 == 0) (.min (bits wd 16 5) (bits wd 11 5) (bits wd 6 5) (bits wd 3 3)) := by simp only [decodeScalar, op]
  rw [z0, f0, f1, f2, f3] at r
  exact of_raw ((decodeScalar_of op (by decide)).trans r) h

theorem max (d a b m) : Statement (.max d a b m) := by
  intro h
  have hx : encode (.max d a b m) = 39845888 + d.toNat * 65536 + a.toNat * 2048 + b.toNat * 64 + m.toNat * 8 := rfl
  generalize encode (.max d a b m) = wd at hx ⊢
  obtain ⟨op, z0, f0, f1, f2, f3⟩ := fields1 19 (by omega) d a b m (by omega)
  have r : decodeScalar wd = zeroed (fld wd 0 3 == 0) (.max (bits wd 16 5) (bits wd 11 5) (bits wd 6 5) (bits wd 3 3)) := by simp only [decodeScalar, op]
  rw [z0, f0, f1, f2, f3] at r
  exact of_raw ((decodeScalar_of op (by decide)).trans r) h

theorem minu (d a b m) : Statement (.minu d a b m) := by
  intro h
  have hx : encode (.minu d a b m) = 41943040 + d.toNat * 65536 + a.toNat * 2048 + b.toNat * 64 + m.toNat * 8 := rfl
  generalize encode (.minu d a b m) = wd at hx ⊢
  obtain ⟨op, z0, f0, f1, f2, f3⟩ := fields1 20 (by omega) d a b m (by omega)
  have r : decodeScalar wd = zeroed (fld wd 0 3 == 0) (.minu (bits wd 16 5) (bits wd 11 5) (bits wd 6 5) (bits wd 3 3)) := by simp only [decodeScalar, op]
  rw [z0, f0, f1, f2, f3] at r
  exact of_raw ((decodeScalar_of op (by decide)).trans r) h

theorem maxu (d a b m) : Statement (.maxu d a b m) := by
  intro h
  have hx : encode (.maxu d a b m) = 44040192 + d.toNat * 65536 + a.toNat * 2048 + b.toNat * 64 + m.toNat * 8 := rfl
  generalize encode (.maxu d a b m) = wd at hx ⊢
  obtain ⟨op, z0, f0, f1, f2, f3⟩ := fields1 21 (by omega) d a b m (by omega)
  have r : decodeScalar wd = zeroed (fld wd 0 3 == 0) (.maxu (bits wd 16 5) (bits wd 11 5) (bits wd 6 5) (bits wd 3 3)) := by simp only [decodeScalar, op]
  rw [z0, f0, f1, f2, f3] at r
  exact of_raw ((decodeScalar_of op (by decide)).trans r) h

theorem slt (d a b m) : Statement (.slt d a b m) := by
  intro h
  have hx : encode (.slt d a b m) = 46137344 + d.toNat * 65536 + a.toNat * 2048 + b.toNat * 64 + m.toNat * 8 := rfl
  generalize encode (.slt d a b m) = wd at hx ⊢
  obtain ⟨op, z0, f0, f1, f2, f3⟩ := fields1 22 (by omega) d a b m (by omega)
  have r : decodeScalar wd = zeroed (fld wd 0 3 == 0) (.slt (bits wd 16 5) (bits wd 11 5) (bits wd 6 5) (bits wd 3 3)) := by simp only [decodeScalar, op]
  rw [z0, f0, f1, f2, f3] at r
  exact of_raw ((decodeScalar_of op (by decide)).trans r) h

theorem sltu (d a b m) : Statement (.sltu d a b m) := by
  intro h
  have hx : encode (.sltu d a b m) = 48234496 + d.toNat * 65536 + a.toNat * 2048 + b.toNat * 64 + m.toNat * 8 := rfl
  generalize encode (.sltu d a b m) = wd at hx ⊢
  obtain ⟨op, z0, f0, f1, f2, f3⟩ := fields1 23 (by omega) d a b m (by omega)
  have r : decodeScalar wd = zeroed (fld wd 0 3 == 0) (.sltu (bits wd 16 5) (bits wd 11 5) (bits wd 6 5) (bits wd 3 3)) := by simp only [decodeScalar, op]
  rw [z0, f0, f1, f2, f3] at r
  exact of_raw ((decodeScalar_of op (by decide)).trans r) h

theorem seq (d a b m) : Statement (.seq d a b m) := by
  intro h
  have hx : encode (.seq d a b m) = 50331648 + d.toNat * 65536 + a.toNat * 2048 + b.toNat * 64 + m.toNat * 8 := rfl
  generalize encode (.seq d a b m) = wd at hx ⊢
  obtain ⟨op, z0, f0, f1, f2, f3⟩ := fields1 24 (by omega) d a b m (by omega)
  have r : decodeScalar wd = zeroed (fld wd 0 3 == 0) (.seq (bits wd 16 5) (bits wd 11 5) (bits wd 6 5) (bits wd 3 3)) := by simp only [decodeScalar, op]
  rw [z0, f0, f1, f2, f3] at r
  exact of_raw ((decodeScalar_of op (by decide)).trans r) h

theorem sne (d a b m) : Statement (.sne d a b m) := by
  intro h
  have hx : encode (.sne d a b m) = 52428800 + d.toNat * 65536 + a.toNat * 2048 + b.toNat * 64 + m.toNat * 8 := rfl
  generalize encode (.sne d a b m) = wd at hx ⊢
  obtain ⟨op, z0, f0, f1, f2, f3⟩ := fields1 25 (by omega) d a b m (by omega)
  have r : decodeScalar wd = zeroed (fld wd 0 3 == 0) (.sne (bits wd 16 5) (bits wd 11 5) (bits wd 6 5) (bits wd 3 3)) := by simp only [decodeScalar, op]
  rw [z0, f0, f1, f2, f3] at r
  exact of_raw ((decodeScalar_of op (by decide)).trans r) h

theorem clz (d a m) : Statement (.clz d a m) := by
  intro h
  have hx : encode (.clz d a m) = 54525952 + d.toNat * 65536 + a.toNat * 2048 + m.toNat * 8 := rfl
  generalize encode (.clz d a m) = wd at hx ⊢
  obtain ⟨op, z0, z1, f0, f1, f2⟩ := fields2 26 (by omega) d a m (by omega)
  have r : decodeScalar wd = zeroed (fld wd 6 5 == 0 && fld wd 0 3 == 0) (.clz (bits wd 16 5) (bits wd 11 5) (bits wd 3 3)) := by simp only [decodeScalar, op]
  rw [z0, z1, f0, f1, f2] at r
  exact of_raw ((decodeScalar_of op (by decide)).trans r) h

theorem ctz (d a m) : Statement (.ctz d a m) := by
  intro h
  have hx : encode (.ctz d a m) = 56623104 + d.toNat * 65536 + a.toNat * 2048 + m.toNat * 8 := rfl
  generalize encode (.ctz d a m) = wd at hx ⊢
  obtain ⟨op, z0, z1, f0, f1, f2⟩ := fields2 27 (by omega) d a m (by omega)
  have r : decodeScalar wd = zeroed (fld wd 6 5 == 0 && fld wd 0 3 == 0) (.ctz (bits wd 16 5) (bits wd 11 5) (bits wd 3 3)) := by simp only [decodeScalar, op]
  rw [z0, z1, f0, f1, f2] at r
  exact of_raw ((decodeScalar_of op (by decide)).trans r) h

theorem popc (d a m) : Statement (.popc d a m) := by
  intro h
  have hx : encode (.popc d a m) = 58720256 + d.toNat * 65536 + a.toNat * 2048 + m.toNat * 8 := rfl
  generalize encode (.popc d a m) = wd at hx ⊢
  obtain ⟨op, z0, z1, f0, f1, f2⟩ := fields2 28 (by omega) d a m (by omega)
  have r : decodeScalar wd = zeroed (fld wd 6 5 == 0 && fld wd 0 3 == 0) (.popc (bits wd 16 5) (bits wd 11 5) (bits wd 3 3)) := by simp only [decodeScalar, op]
  rw [z0, z1, f0, f1, f2] at r
  exact of_raw ((decodeScalar_of op (by decide)).trans r) h

theorem sext (d a m) : Statement (.sext d a m) := by
  intro h
  have hx : encode (.sext d a m) = 60817408 + d.toNat * 65536 + a.toNat * 2048 + m.toNat * 8 := rfl
  generalize encode (.sext d a m) = wd at hx ⊢
  obtain ⟨op, z0, z1, f0, f1, f2⟩ := fields2 29 (by omega) d a m (by omega)
  have r : decodeScalar wd = zeroed (fld wd 6 5 == 0 && fld wd 0 3 == 0) (.sext (bits wd 16 5) (bits wd 11 5) (bits wd 3 3)) := by simp only [decodeScalar, op]
  rw [z0, z1, f0, f1, f2] at r
  exact of_raw ((decodeScalar_of op (by decide)).trans r) h

theorem zext (d a m) : Statement (.zext d a m) := by
  intro h
  have hx : encode (.zext d a m) = 62914560 + d.toNat * 65536 + a.toNat * 2048 + m.toNat * 8 := rfl
  generalize encode (.zext d a m) = wd at hx ⊢
  obtain ⟨op, z0, z1, f0, f1, f2⟩ := fields2 30 (by omega) d a m (by omega)
  have r : decodeScalar wd = zeroed (fld wd 6 5 == 0 && fld wd 0 3 == 0) (.zext (bits wd 16 5) (bits wd 11 5) (bits wd 3 3)) := by simp only [decodeScalar, op]
  rw [z0, z1, f0, f1, f2] at r
  exact of_raw ((decodeScalar_of op (by decide)).trans r) h

theorem fshl (d a b m) : Statement (.fshl d a b m) := by
  intro h
  have hx : encode (.fshl d a b m) = 65011712 + d.toNat * 65536 + a.toNat * 2048 + b.toNat * 64 + m.toNat * 8 := rfl
  generalize encode (.fshl d a b m) = wd at hx ⊢
  obtain ⟨op, z0, f0, f1, f2, f3⟩ := fields1 31 (by omega) d a b m (by omega)
  have r : decodeScalar wd = zeroed (fld wd 0 3 == 0) (.fshl (bits wd 16 5) (bits wd 11 5) (bits wd 6 5) (bits wd 3 3)) := by simp only [decodeScalar, op]
  rw [z0, f0, f1, f2, f3] at r
  exact of_raw ((decodeScalar_of op (by decide)).trans r) h

theorem fshr (d a b m) : Statement (.fshr d a b m) := by
  intro h
  have hx : encode (.fshr d a b m) = 67108864 + d.toNat * 65536 + a.toNat * 2048 + b.toNat * 64 + m.toNat * 8 := rfl
  generalize encode (.fshr d a b m) = wd at hx ⊢
  obtain ⟨op, z0, f0, f1, f2, f3⟩ := fields1 32 (by omega) d a b m (by omega)
  have r : decodeScalar wd = zeroed (fld wd 0 3 == 0) (.fshr (bits wd 16 5) (bits wd 11 5) (bits wd 6 5) (bits wd 3 3)) := by simp only [decodeScalar, op]
  rw [z0, f0, f1, f2, f3] at r
  exact of_raw ((decodeScalar_of op (by decide)).trans r) h

theorem addi (d a i) : Statement (.addi d a i) := by
  intro h
  have hx : encode (.addi d a i) = 69206016 + d.toNat * 65536 + a.toNat * 2048 + i.toNat := rfl
  generalize encode (.addi d a i) = wd at hx ⊢
  obtain ⟨op, f0, f1, f2⟩ := fields3 33 (by omega) d a i (by omega)
  have r : decodeScalar wd = (Except.ok (.addi (bits wd 16 5) (bits wd 11 5) (bits wd 0 11)) : Except DecodeError Instr) := by simp only [decodeScalar, op]
  rw [f0, f1, f2] at r
  exact of_raw ((decodeScalar_of op (by decide)).trans r) h

theorem andi (d a i) : Statement (.andi d a i) := by
  intro h
  have hx : encode (.andi d a i) = 71303168 + d.toNat * 65536 + a.toNat * 2048 + i.toNat := rfl
  generalize encode (.andi d a i) = wd at hx ⊢
  obtain ⟨op, f0, f1, f2⟩ := fields3 34 (by omega) d a i (by omega)
  have r : decodeScalar wd = (Except.ok (.andi (bits wd 16 5) (bits wd 11 5) (bits wd 0 11)) : Except DecodeError Instr) := by simp only [decodeScalar, op]
  rw [f0, f1, f2] at r
  exact of_raw ((decodeScalar_of op (by decide)).trans r) h

theorem ori (d a i) : Statement (.ori d a i) := by
  intro h
  have hx : encode (.ori d a i) = 73400320 + d.toNat * 65536 + a.toNat * 2048 + i.toNat := rfl
  generalize encode (.ori d a i) = wd at hx ⊢
  obtain ⟨op, f0, f1, f2⟩ := fields3 35 (by omega) d a i (by omega)
  have r : decodeScalar wd = (Except.ok (.ori (bits wd 16 5) (bits wd 11 5) (bits wd 0 11)) : Except DecodeError Instr) := by simp only [decodeScalar, op]
  rw [f0, f1, f2] at r
  exact of_raw ((decodeScalar_of op (by decide)).trans r) h

theorem xori (d a i) : Statement (.xori d a i) := by
  intro h
  have hx : encode (.xori d a i) = 75497472 + d.toNat * 65536 + a.toNat * 2048 + i.toNat := rfl
  generalize encode (.xori d a i) = wd at hx ⊢
  obtain ⟨op, f0, f1, f2⟩ := fields3 36 (by omega) d a i (by omega)
  have r : decodeScalar wd = (Except.ok (.xori (bits wd 16 5) (bits wd 11 5) (bits wd 0 11)) : Except DecodeError Instr) := by simp only [decodeScalar, op]
  rw [f0, f1, f2] at r
  exact of_raw ((decodeScalar_of op (by decide)).trans r) h

theorem shli (d a i) : Statement (.shli d a i) := by
  intro h
  have hx : encode (.shli d a i) = 77594624 + d.toNat * 65536 + a.toNat * 2048 + i.toNat := rfl
  generalize encode (.shli d a i) = wd at hx ⊢
  obtain ⟨op, z0, f0, f1, f2⟩ := fields4 37 (by omega) d a i (by omega)
  have r : decodeScalar wd = zeroed (fld wd 6 5 == 0) (.shli (bits wd 16 5) (bits wd 11 5) (bits wd 0 6)) := by simp only [decodeScalar, op]
  rw [z0, f0, f1, f2] at r
  exact of_raw ((decodeScalar_of op (by decide)).trans r) h

theorem shri (d a i) : Statement (.shri d a i) := by
  intro h
  have hx : encode (.shri d a i) = 79691776 + d.toNat * 65536 + a.toNat * 2048 + i.toNat := rfl
  generalize encode (.shri d a i) = wd at hx ⊢
  obtain ⟨op, z0, f0, f1, f2⟩ := fields4 38 (by omega) d a i (by omega)
  have r : decodeScalar wd = zeroed (fld wd 6 5 == 0) (.shri (bits wd 16 5) (bits wd 11 5) (bits wd 0 6)) := by simp only [decodeScalar, op]
  rw [z0, f0, f1, f2] at r
  exact of_raw ((decodeScalar_of op (by decide)).trans r) h

theorem shrai (d a i) : Statement (.shrai d a i) := by
  intro h
  have hx : encode (.shrai d a i) = 81788928 + d.toNat * 65536 + a.toNat * 2048 + i.toNat := rfl
  generalize encode (.shrai d a i) = wd at hx ⊢
  obtain ⟨op, z0, f0, f1, f2⟩ := fields4 39 (by omega) d a i (by omega)
  have r : decodeScalar wd = zeroed (fld wd 6 5 == 0) (.shrai (bits wd 16 5) (bits wd 11 5) (bits wd 0 6)) := by simp only [decodeScalar, op]
  rw [z0, f0, f1, f2] at r
  exact of_raw ((decodeScalar_of op (by decide)).trans r) h

theorem slti (d a i) : Statement (.slti d a i) := by
  intro h
  have hx : encode (.slti d a i) = 83886080 + d.toNat * 65536 + a.toNat * 2048 + i.toNat := rfl
  generalize encode (.slti d a i) = wd at hx ⊢
  obtain ⟨op, f0, f1, f2⟩ := fields3 40 (by omega) d a i (by omega)
  have r : decodeScalar wd = (Except.ok (.slti (bits wd 16 5) (bits wd 11 5) (bits wd 0 11)) : Except DecodeError Instr) := by simp only [decodeScalar, op]
  rw [f0, f1, f2] at r
  exact of_raw ((decodeScalar_of op (by decide)).trans r) h

theorem sltui (d a i) : Statement (.sltui d a i) := by
  intro h
  have hx : encode (.sltui d a i) = 85983232 + d.toNat * 65536 + a.toNat * 2048 + i.toNat := rfl
  generalize encode (.sltui d a i) = wd at hx ⊢
  obtain ⟨op, f0, f1, f2⟩ := fields3 41 (by omega) d a i (by omega)
  have r : decodeScalar wd = (Except.ok (.sltui (bits wd 16 5) (bits wd 11 5) (bits wd 0 11)) : Except DecodeError Instr) := by simp only [decodeScalar, op]
  rw [f0, f1, f2] at r
  exact of_raw ((decodeScalar_of op (by decide)).trans r) h

theorem muli (d a i) : Statement (.muli d a i) := by
  intro h
  have hx : encode (.muli d a i) = 88080384 + d.toNat * 65536 + a.toNat * 2048 + i.toNat := rfl
  generalize encode (.muli d a i) = wd at hx ⊢
  obtain ⟨op, f0, f1, f2⟩ := fields3 42 (by omega) d a i (by omega)
  have r : decodeScalar wd = (Except.ok (.muli (bits wd 16 5) (bits wd 11 5) (bits wd 0 11)) : Except DecodeError Instr) := by simp only [decodeScalar, op]
  rw [f0, f1, f2] at r
  exact of_raw ((decodeScalar_of op (by decide)).trans r) h

theorem li (d i) : Statement (.li d i) := by
  intro h
  have hx : encode (.li d i) = 90177536 + d.toNat * 65536 + i.toNat := rfl
  generalize encode (.li d i) = wd at hx ⊢
  obtain ⟨op, f0, f1⟩ := fields5 43 (by omega) d i (by omega)
  have r : decodeScalar wd = (Except.ok (.li (bits wd 16 5) (bits wd 0 16)) : Except DecodeError Instr) := by simp only [decodeScalar, op]
  rw [f0, f1] at r
  exact of_raw ((decodeScalar_of op (by decide)).trans r) h

theorem lih1 (d i) : Statement (.lih1 d i) := by
  intro h
  have hx : encode (.lih1 d i) = 92274688 + d.toNat * 65536 + i.toNat := rfl
  generalize encode (.lih1 d i) = wd at hx ⊢
  obtain ⟨op, f0, f1⟩ := fields5 44 (by omega) d i (by omega)
  have r : decodeScalar wd = (Except.ok (.lih1 (bits wd 16 5) (bits wd 0 16)) : Except DecodeError Instr) := by simp only [decodeScalar, op]
  rw [f0, f1] at r
  exact of_raw ((decodeScalar_of op (by decide)).trans r) h

theorem lih2 (d i) : Statement (.lih2 d i) := by
  intro h
  have hx : encode (.lih2 d i) = 94371840 + d.toNat * 65536 + i.toNat := rfl
  generalize encode (.lih2 d i) = wd at hx ⊢
  obtain ⟨op, f0, f1⟩ := fields5 45 (by omega) d i (by omega)
  have r : decodeScalar wd = (Except.ok (.lih2 (bits wd 16 5) (bits wd 0 16)) : Except DecodeError Instr) := by simp only [decodeScalar, op]
  rw [f0, f1] at r
  exact of_raw ((decodeScalar_of op (by decide)).trans r) h

theorem lih3 (d i) : Statement (.lih3 d i) := by
  intro h
  have hx : encode (.lih3 d i) = 96468992 + d.toNat * 65536 + i.toNat := rfl
  generalize encode (.lih3 d i) = wd at hx ⊢
  obtain ⟨op, f0, f1⟩ := fields5 46 (by omega) d i (by omega)
  have r : decodeScalar wd = (Except.ok (.lih3 (bits wd 16 5) (bits wd 0 16)) : Except DecodeError Instr) := by simp only [decodeScalar, op]
  rw [f0, f1] at r
  exact of_raw ((decodeScalar_of op (by decide)).trans r) h

theorem lds (g a s o) : Statement (.lds g a s o) := by
  intro h
  have hx : encode (.lds g a s o) = 98566144 + g.toNat * 65536 + a.toNat * 2048 + s.toNat * 512 + o.toNat := rfl
  generalize encode (.lds g a s o) = wd at hx ⊢
  obtain ⟨op, f0, f1, f2, f3⟩ := fields6 47 (by omega) g a s o (by omega)
  have r : decodeScalar wd = (Except.ok (.lds (bits wd 16 5) (bits wd 11 5) (bits wd 9 2) (bits wd 0 9)) : Except DecodeError Instr) := by simp only [decodeScalar, op]
  rw [f0, f1, f2, f3] at r
  exact of_raw ((decodeScalar_of op (by decide)).trans r) h

theorem sts (g a s o) : Statement (.sts g a s o) := by
  intro h
  have hx : encode (.sts g a s o) = 100663296 + g.toNat * 65536 + a.toNat * 2048 + s.toNat * 512 + o.toNat := rfl
  generalize encode (.sts g a s o) = wd at hx ⊢
  obtain ⟨op, f0, f1, f2, f3⟩ := fields6 48 (by omega) g a s o (by omega)
  have r : decodeScalar wd = (Except.ok (.sts (bits wd 16 5) (bits wd 11 5) (bits wd 9 2) (bits wd 0 9)) : Except DecodeError Instr) := by simp only [decodeScalar, op]
  rw [f0, f1, f2, f3] at r
  exact of_raw ((decodeScalar_of op (by decide)).trans r) h

theorem ldm (g a s o) : Statement (.ldm g a s o) := by
  intro h
  have hx : encode (.ldm g a s o) = 102760448 + g.toNat * 65536 + a.toNat * 2048 + s.toNat * 512 + o.toNat := rfl
  generalize encode (.ldm g a s o) = wd at hx ⊢
  obtain ⟨op, f0, f1, f2, f3⟩ := fields6 49 (by omega) g a s o (by omega)
  have r : decodeScalar wd = (Except.ok (.ldm (bits wd 16 5) (bits wd 11 5) (bits wd 9 2) (bits wd 0 9)) : Except DecodeError Instr) := by simp only [decodeScalar, op]
  rw [f0, f1, f2, f3] at r
  exact of_raw ((decodeScalar_of op (by decide)).trans r) h

theorem stx (g a k s o) : Statement (.stx g a k s o) := by
  intro h
  have hx : encode (.stx g a k s o) = 104857600 + g.toNat * 65536 + a.toNat * 2048 + k.toNat * 256 + s.toNat * 64 + o.toNat := rfl
  generalize encode (.stx g a k s o) = wd at hx ⊢
  obtain ⟨op, f0, f1, f2, f3, f4⟩ := fields7 50 (by omega) g a k s o (by omega)
  have r : decodeScalar wd = (Except.ok (.stx (bits wd 16 5) (bits wd 11 5) (bits wd 8 3) (bits wd 6 2) (bits wd 0 6)) : Except DecodeError Instr) := by simp only [decodeScalar, op]
  rw [f0, f1, f2, f3, f4] at r
  exact of_raw ((decodeScalar_of op (by decide)).trans r) h

theorem ldx (l a t s) : Statement (.ldx l a t s) := by
  intro h
  have hx : encode (.ldx l a t s) = 106954752 + l.toNat * 131072 + a.toNat * 4096 + t.toNat * 16 + s.toNat * 4 := rfl
  generalize encode (.ldx l a t s) = wd at hx ⊢
  obtain ⟨op, z0, f0, f1, f2, f3⟩ := fields8 51 (by omega) l a t s (by omega)
  have r : decodeScalar wd = zeroed (fld wd 0 2 == 0) (.ldx (bits wd 17 4) (bits wd 12 5) (bits wd 4 8) (bits wd 2 2)) := by simp only [decodeScalar, op]
  rw [z0, f0, f1, f2, f3] at r
  exact of_raw ((decodeScalar_of op (by decide)).trans r) h

theorem getl (d l s o) : Statement (.getl d l s o) := by
  intro h
  have hx : encode (.getl d l s o) = 109051904 + d.toNat * 65536 + l.toNat * 2048 + s.toNat * 64 + o.toNat := rfl
  generalize encode (.getl d l s o) = wd at hx ⊢
  obtain ⟨op, z0, z1, f0, f1, f2, f3⟩ := fields9 52 (by omega) d l s o (by omega)
  have r : decodeScalar wd = zeroed (fld wd 15 1 == 0 && fld wd 8 3 == 0) (.getl (bits wd 16 5) (bits wd 11 4) (bits wd 6 2) (bits wd 0 6)) := by simp only [decodeScalar, op]
  rw [z0, z1, f0, f1, f2, f3] at r
  exact of_raw ((decodeScalar_of op (by decide)).trans r) h

theorem getlPk (d l s o) : Statement (.getlPk d l s o) := by
  intro h
  have hx : encode (.getlPk d l s o) = 111149056 + d.toNat * 65536 + l.toNat * 2048 + s.toNat * 64 + o.toNat := rfl
  generalize encode (.getlPk d l s o) = wd at hx ⊢
  obtain ⟨op, z0, z1, f0, f1, f2, f3⟩ := fields9 53 (by omega) d l s o (by omega)
  have r : decodeScalar wd = zeroed (fld wd 15 1 == 0 && fld wd 8 3 == 0) (.getlPk (bits wd 16 5) (bits wd 11 4) (bits wd 6 2) (bits wd 0 6)) := by simp only [decodeScalar, op]
  rw [z0, z1, f0, f1, f2, f3] at r
  exact of_raw ((decodeScalar_of op (by decide)).trans r) h

theorem j (o) : Statement (.j o) := by
  intro h
  have hx : encode (.j o) = 268435456 + o.toNat := rfl
  generalize encode (.j o) = wd at hx ⊢
  obtain ⟨op, f0⟩ := fields10 128 (by omega) o (by omega)
  have r : decodeControl wd = (Except.ok (.j (bits wd 0 21)) : Except DecodeError Instr) := by simp only [decodeControl, op]
  rw [f0] at r
  exact of_raw ((decodeControl_of op (by decide)).trans r) h

theorem call (o) : Statement (.call o) := by
  intro h
  have hx : encode (.call o) = 270532608 + o.toNat := rfl
  generalize encode (.call o) = wd at hx ⊢
  obtain ⟨op, f0⟩ := fields10 129 (by omega) o (by omega)
  have r : decodeControl wd = (Except.ok (.call (bits wd 0 21)) : Except DecodeError Instr) := by simp only [decodeControl, op]
  rw [f0] at r
  exact of_raw ((decodeControl_of op (by decide)).trans r) h

theorem jr (a) : Statement (.jr a) := by
  intro h
  have hx : encode (.jr a) = 272629760 + a.toNat * 2048 := rfl
  generalize encode (.jr a) = wd at hx ⊢
  obtain ⟨op, z0, z1, f0⟩ := fields11 130 (by omega) a (by omega)
  have r : decodeControl wd = zeroed (fld wd 16 5 == 0 && fld wd 0 11 == 0) (.jr (bits wd 11 5)) := by simp only [decodeControl, op]
  rw [z0, z1, f0] at r
  exact of_raw ((decodeControl_of op (by decide)).trans r) h

theorem callr (a) : Statement (.callr a) := by
  intro h
  have hx : encode (.callr a) = 274726912 + a.toNat * 2048 := rfl
  generalize encode (.callr a) = wd at hx ⊢
  obtain ⟨op, z0, z1, f0⟩ := fields11 131 (by omega) a (by omega)
  have r : decodeControl wd = zeroed (fld wd 16 5 == 0 && fld wd 0 11 == 0) (.callr (bits wd 11 5)) := by simp only [decodeControl, op]
  rw [z0, z1, f0] at r
  exact of_raw ((decodeControl_of op (by decide)).trans r) h

theorem ret : Statement (.ret) := by
  intro h
  have hx : encode (.ret) = 276824064 := rfl
  generalize encode (.ret) = wd at hx ⊢
  obtain ⟨op, z0⟩ := fields0 132 (by omega) (by omega)
  have r : decodeControl wd = zeroed (fld wd 0 21 == 0) (.ret) := by simp only [decodeControl, op]
  rw [z0] at r
  exact of_raw ((decodeControl_of op (by decide)).trans r) h

theorem beqz (a o) : Statement (.beqz a o) := by
  intro h
  have hx : encode (.beqz a o) = 278921216 + a.toNat * 65536 + o.toNat := rfl
  generalize encode (.beqz a o) = wd at hx ⊢
  obtain ⟨op, f0, f1⟩ := fields5 133 (by omega) a o (by omega)
  have r : decodeControl wd = (Except.ok (.beqz (bits wd 16 5) (bits wd 0 16)) : Except DecodeError Instr) := by simp only [decodeControl, op]
  rw [f0, f1] at r
  exact of_raw ((decodeControl_of op (by decide)).trans r) h

theorem bnez (a o) : Statement (.bnez a o) := by
  intro h
  have hx : encode (.bnez a o) = 281018368 + a.toNat * 65536 + o.toNat := rfl
  generalize encode (.bnez a o) = wd at hx ⊢
  obtain ⟨op, f0, f1⟩ := fields5 134 (by omega) a o (by omega)
  have r : decodeControl wd = (Except.ok (.bnez (bits wd 16 5) (bits wd 0 16)) : Except DecodeError Instr) := by simp only [decodeControl, op]
  rw [f0, f1] at r
  exact of_raw ((decodeControl_of op (by decide)).trans r) h

theorem bltz (a o) : Statement (.bltz a o) := by
  intro h
  have hx : encode (.bltz a o) = 283115520 + a.toNat * 65536 + o.toNat := rfl
  generalize encode (.bltz a o) = wd at hx ⊢
  obtain ⟨op, f0, f1⟩ := fields5 135 (by omega) a o (by omega)
  have r : decodeControl wd = (Except.ok (.bltz (bits wd 16 5) (bits wd 0 16)) : Except DecodeError Instr) := by simp only [decodeControl, op]
  rw [f0, f1] at r
  exact of_raw ((decodeControl_of op (by decide)).trans r) h

theorem bgez (a o) : Statement (.bgez a o) := by
  intro h
  have hx : encode (.bgez a o) = 285212672 + a.toNat * 65536 + o.toNat := rfl
  generalize encode (.bgez a o) = wd at hx ⊢
  obtain ⟨op, f0, f1⟩ := fields5 136 (by omega) a o (by omega)
  have r : decodeControl wd = (Except.ok (.bgez (bits wd 16 5) (bits wd 0 16)) : Except DecodeError Instr) := by simp only [decodeControl, op]
  rw [f0, f1] at r
  exact of_raw ((decodeControl_of op (by decide)).trans r) h

theorem bpu (p o) : Statement (.bpu p o) := by
  intro h
  have hx : encode (.bpu p o) = 287309824 + p.toNat * 262144 + o.toNat := rfl
  generalize encode (.bpu p o) = wd at hx ⊢
  obtain ⟨op, z0, f0, f1⟩ := fields12 137 (by omega) p o (by omega)
  have r : decodeControl wd = zeroed (fld wd 16 2 == 0) (.bpu (bits wd 18 3) (bits wd 0 16)) := by simp only [decodeControl, op]
  rw [z0, f0, f1] at r
  exact of_raw ((decodeControl_of op (by decide)).trans r) h

theorem beng (e s o) : Statement (.beng e s o) := by
  intro h
  have hx : encode (.beng e s o) = 289406976 + e.toNat * 131072 + s.toNat * 65536 + o.toNat := rfl
  generalize encode (.beng e s o) = wd at hx ⊢
  obtain ⟨op, f0, f1, f2⟩ := fields13 138 (by omega) e s o (by omega)
  have r : decodeControl wd = (Except.ok (.beng (bits wd 17 4) (bits wd 16 1) (bits wd 0 16)) : Except DecodeError Instr) := by simp only [decodeControl, op]
  rw [f0, f1, f2] at r
  exact of_raw ((decodeControl_of op (by decide)).trans r) h

theorem loop (l r o) : Statement (.loop l r o) := by
  intro h
  have hx : encode (.loop l r o) = 291504128 + l.toNat * 524288 + r.toNat * 65536 + o.toNat := rfl
  generalize encode (.loop l r o) = wd at hx ⊢
  obtain ⟨op, z0, f0, f1, f2⟩ := fields14 139 (by omega) l r o (by omega)
  have r : decodeControl wd = zeroed (fld wd 18 1 == 0) (.loop (bits wd 19 2) (bits wd 16 2) (bits wd 0 16)) := by simp only [decodeControl, op]
  rw [z0, f0, f1, f2] at r
  exact of_raw ((decodeControl_of op (by decide)).trans r) h

theorem skip (b n) : Statement (.skip b n) := by
  intro h
  have hx : encode (.skip b n) = 293601280 + b.toNat * 65536 + n.toNat * 256 := rfl
  generalize encode (.skip b n) = wd at hx ⊢
  obtain ⟨op, z0, f0, f1⟩ := fields15 140 (by omega) b n (by omega)
  have r : decodeControl wd = zeroed (fld wd 0 8 == 0) (.skip (bits wd 16 5) (bits wd 8 8)) := by simp only [decodeControl, op]
  rw [z0, f0, f1] at r
  exact of_raw ((decodeControl_of op (by decide)).trans r) h

theorem halt : Statement (.halt) := by
  intro h
  have hx : encode (.halt) = 295698432 := rfl
  generalize encode (.halt) = wd at hx ⊢
  obtain ⟨op, z0⟩ := fields0 141 (by omega) (by omega)
  have r : decodeControl wd = zeroed (fld wd 0 21 == 0) (.halt) := by simp only [decodeControl, op]
  rw [z0] at r
  exact of_raw ((decodeControl_of op (by decide)).trans r) h

theorem waitt (a) : Statement (.waitt a) := by
  intro h
  have hx : encode (.waitt a) = 297795584 + a.toNat * 2048 := rfl
  generalize encode (.waitt a) = wd at hx ⊢
  obtain ⟨op, z0, z1, f0⟩ := fields11 142 (by omega) a (by omega)
  have r : decodeControl wd = zeroed (fld wd 16 5 == 0 && fld wd 0 11 == 0) (.waitt (bits wd 11 5)) := by simp only [decodeControl, op]
  rw [z0, z1, f0] at r
  exact of_raw ((decodeControl_of op (by decide)).trans r) h

theorem trap (i) : Statement (.trap i) := by
  intro h
  have hx : encode (.trap i) = 299892736 + i.toNat := rfl
  generalize encode (.trap i) = wd at hx ⊢
  obtain ⟨op, z0, f0⟩ := fields16 143 (by omega) i (by omega)
  have r : decodeControl wd = zeroed (fld wd 16 5 == 0) (.trap (bits wd 0 16)) := by simp only [decodeControl, op]
  rw [z0, f0] at r
  exact of_raw ((decodeControl_of op (by decide)).trans r) h

theorem mfc (g c) : Statement (.mfc g c) := by
  intro h
  have hx : encode (.mfc g c) = 301989888 + g.toNat * 65536 + c.toNat * 256 := rfl
  generalize encode (.mfc g c) = wd at hx ⊢
  obtain ⟨op, z0, f0, f1⟩ := fields15 144 (by omega) g c (by omega)
  have r : decodeControl wd = zeroed (fld wd 0 8 == 0) (.mfc (bits wd 16 5) (bits wd 8 8)) := by simp only [decodeControl, op]
  rw [z0, f0, f1] at r
  exact of_raw ((decodeControl_of op (by decide)).trans r) h

theorem mtc (g c) : Statement (.mtc g c) := by
  intro h
  have hx : encode (.mtc g c) = 304087040 + g.toNat * 65536 + c.toNat * 256 := rfl
  generalize encode (.mtc g c) = wd at hx ⊢
  obtain ⟨op, z0, f0, f1⟩ := fields15 145 (by omega) g c (by omega)
  have r : decodeControl wd = zeroed (fld wd 0 8 == 0) (.mtc (bits wd 16 5) (bits wd 8 8)) := by simp only [decodeControl, op]
  rw [z0, f0, f1] at r
  exact of_raw ((decodeControl_of op (by decide)).trans r) h

theorem time (d) : Statement (.time d) := by
  intro h
  have hx : encode (.time d) = 306184192 + d.toNat * 65536 := rfl
  generalize encode (.time d) = wd at hx ⊢
  obtain ⟨op, z0, f0⟩ := fields17 146 (by omega) d (by omega)
  have r : decodeControl wd = zeroed (fld wd 0 16 == 0) (.time (bits wd 16 5)) := by simp only [decodeControl, op]
  rw [z0, f0] at r
  exact of_raw ((decodeControl_of op (by decide)).trans r) h

theorem step (d) : Statement (.step d) := by
  intro h
  have hx : encode (.step d) = 308281344 + d.toNat * 65536 := rfl
  generalize encode (.step d) = wd at hx ⊢
  obtain ⟨op, z0, f0⟩ := fields17 147 (by omega) d (by omega)
  have r : decodeControl wd = zeroed (fld wd 0 16 == 0) (.step (bits wd 16 5)) := by simp only [decodeControl, op]
  rw [z0, f0] at r
  exact of_raw ((decodeControl_of op (by decide)).trans r) h

theorem pcnt (a g) : Statement (.pcnt a g) := by
  intro h
  have hx : encode (.pcnt a g) = 310378496 + a.toNat * 32768 + g.toNat * 128 := rfl
  generalize encode (.pcnt a g) = wd at hx ⊢
  obtain ⟨op, z0, z1, z2, f0, f1⟩ := fields18 148 (by omega) a g (by omega)
  have r : decodeControl wd = zeroed (fld wd 18 3 == 0 && fld wd 12 3 == 0 && fld wd 0 7 == 0) (.pcnt (bits wd 15 3) (bits wd 7 5)) := by simp only [decodeControl, op]
  rw [z0, z1, z2, f0, f1] at r
  exact of_raw ((decodeControl_of op (by decide)).trans r) h

theorem pmov (d a) : Statement (.pmov d a) := by
  intro h
  have hx : encode (.pmov d a) = 312475648 + d.toNat * 262144 + a.toNat * 32768 := rfl
  generalize encode (.pmov d a) = wd at hx ⊢
  obtain ⟨op, z0, f0, f1⟩ := fields19 149 (by omega) d a (by omega)
  have r : decodeControl wd = zeroed (fld wd 0 15 == 0) (.pmov (bits wd 18 3) (bits wd 15 3)) := by simp only [decodeControl, op]
  rw [z0, f0, f1] at r
  exact of_raw ((decodeControl_of op (by decide)).trans r) h

theorem psetg (d g) : Statement (.psetg d g) := by
  intro h
  have hx : encode (.psetg d g) = 314572800 + d.toNat * 262144 + g.toNat * 128 := rfl
  generalize encode (.psetg d g) = wd at hx ⊢
  obtain ⟨op, z0, z1, f0, f1⟩ := fields20 150 (by omega) d g (by omega)
  have r : decodeControl wd = zeroed (fld wd 12 6 == 0 && fld wd 0 7 == 0) (.psetg (bits wd 18 3) (bits wd 7 5)) := by simp only [decodeControl, op]
  rw [z0, z1, f0, f1] at r
  exact of_raw ((decodeControl_of op (by decide)).trans r) h

theorem pand (d a b) : Statement (.pand d a b) := by
  intro h
  have hx : encode (.pand d a b) = 316669952 + d.toNat * 262144 + a.toNat * 32768 + b.toNat * 4096 := rfl
  generalize encode (.pand d a b) = wd at hx ⊢
  obtain ⟨op, z0, f0, f1, f2⟩ := fields21 151 (by omega) d a b (by omega)
  have r : decodeControl wd = zeroed (fld wd 0 12 == 0) (.pand (bits wd 18 3) (bits wd 15 3) (bits wd 12 3)) := by simp only [decodeControl, op]
  rw [z0, f0, f1, f2] at r
  exact of_raw ((decodeControl_of op (by decide)).trans r) h

theorem por (d a b) : Statement (.por d a b) := by
  intro h
  have hx : encode (.por d a b) = 318767104 + d.toNat * 262144 + a.toNat * 32768 + b.toNat * 4096 := rfl
  generalize encode (.por d a b) = wd at hx ⊢
  obtain ⟨op, z0, f0, f1, f2⟩ := fields21 152 (by omega) d a b (by omega)
  have r : decodeControl wd = zeroed (fld wd 0 12 == 0) (.por (bits wd 18 3) (bits wd 15 3) (bits wd 12 3)) := by simp only [decodeControl, op]
  rw [z0, f0, f1, f2] at r
  exact of_raw ((decodeControl_of op (by decide)).trans r) h

theorem pxor (d a b) : Statement (.pxor d a b) := by
  intro h
  have hx : encode (.pxor d a b) = 320864256 + d.toNat * 262144 + a.toNat * 32768 + b.toNat * 4096 := rfl
  generalize encode (.pxor d a b) = wd at hx ⊢
  obtain ⟨op, z0, f0, f1, f2⟩ := fields21 153 (by omega) d a b (by omega)
  have r : decodeControl wd = zeroed (fld wd 0 12 == 0) (.pxor (bits wd 18 3) (bits wd 15 3) (bits wd 12 3)) := by simp only [decodeControl, op]
  rw [z0, f0, f1, f2] at r
  exact of_raw ((decodeControl_of op (by decide)).trans r) h

theorem pnot (d a) : Statement (.pnot d a) := by
  intro h
  have hx : encode (.pnot d a) = 322961408 + d.toNat * 262144 + a.toNat * 32768 := rfl
  generalize encode (.pnot d a) = wd at hx ⊢
  obtain ⟨op, z0, f0, f1⟩ := fields19 154 (by omega) d a (by omega)
  have r : decodeControl wd = zeroed (fld wd 0 15 == 0) (.pnot (bits wd 18 3) (bits wd 15 3)) := by simp only [decodeControl, op]
  rw [z0, f0, f1] at r
  exact of_raw ((decodeControl_of op (by decide)).trans r) h

theorem vadd (e d a b p) : Statement (.vadd e d a b p) := by
  intro h
  have hx : encode (.vadd e d a b p) = 536870912 + e.toNat * 2097152 + d.toNat * 32768 + a.toNat * 512 + b.toNat * 8 + p.toNat := rfl
  generalize encode (.vadd e d a b p) = wd at hx ⊢
  obtain ⟨op, f0, f1, f2, f3, f4⟩ := fields22 64 (by omega) e d a b p (by omega)
  have r : decodeVecInt wd = (Except.ok (.vadd (bits wd 21 2) (bits wd 15 6) (bits wd 9 6) (bits wd 3 6) (bits wd 0 3)) : Except DecodeError Instr) := by simp only [decodeVecInt, op]
  rw [f0, f1, f2, f3, f4] at r
  exact of_raw ((decodeVecInt_of op (by decide)).trans r) h

theorem vsub (e d a b p) : Statement (.vsub e d a b p) := by
  intro h
  have hx : encode (.vsub e d a b p) = 545259520 + e.toNat * 2097152 + d.toNat * 32768 + a.toNat * 512 + b.toNat * 8 + p.toNat := rfl
  generalize encode (.vsub e d a b p) = wd at hx ⊢
  obtain ⟨op, f0, f1, f2, f3, f4⟩ := fields22 65 (by omega) e d a b p (by omega)
  have r : decodeVecInt wd = (Except.ok (.vsub (bits wd 21 2) (bits wd 15 6) (bits wd 9 6) (bits wd 3 6) (bits wd 0 3)) : Except DecodeError Instr) := by simp only [decodeVecInt, op]
  rw [f0, f1, f2, f3, f4] at r
  exact of_raw ((decodeVecInt_of op (by decide)).trans r) h

theorem vadds (e d a b p) : Statement (.vadds e d a b p) := by
  intro h
  have hx : encode (.vadds e d a b p) = 553648128 + e.toNat * 2097152 + d.toNat * 32768 + a.toNat * 512 + b.toNat * 8 + p.toNat := rfl
  generalize encode (.vadds e d a b p) = wd at hx ⊢
  obtain ⟨op, f0, f1, f2, f3, f4⟩ := fields22 66 (by omega) e d a b p (by omega)
  have r : decodeVecInt wd = (Except.ok (.vadds (bits wd 21 2) (bits wd 15 6) (bits wd 9 6) (bits wd 3 6) (bits wd 0 3)) : Except DecodeError Instr) := by simp only [decodeVecInt, op]
  rw [f0, f1, f2, f3, f4] at r
  exact of_raw ((decodeVecInt_of op (by decide)).trans r) h

theorem vsubs (e d a b p) : Statement (.vsubs e d a b p) := by
  intro h
  have hx : encode (.vsubs e d a b p) = 562036736 + e.toNat * 2097152 + d.toNat * 32768 + a.toNat * 512 + b.toNat * 8 + p.toNat := rfl
  generalize encode (.vsubs e d a b p) = wd at hx ⊢
  obtain ⟨op, f0, f1, f2, f3, f4⟩ := fields22 67 (by omega) e d a b p (by omega)
  have r : decodeVecInt wd = (Except.ok (.vsubs (bits wd 21 2) (bits wd 15 6) (bits wd 9 6) (bits wd 3 6) (bits wd 0 3)) : Except DecodeError Instr) := by simp only [decodeVecInt, op]
  rw [f0, f1, f2, f3, f4] at r
  exact of_raw ((decodeVecInt_of op (by decide)).trans r) h

theorem vmul (e d a b p) : Statement (.vmul e d a b p) := by
  intro h
  have hx : encode (.vmul e d a b p) = 570425344 + e.toNat * 2097152 + d.toNat * 32768 + a.toNat * 512 + b.toNat * 8 + p.toNat := rfl
  generalize encode (.vmul e d a b p) = wd at hx ⊢
  obtain ⟨op, f0, f1, f2, f3, f4⟩ := fields22 68 (by omega) e d a b p (by omega)
  have r : decodeVecInt wd = (Except.ok (.vmul (bits wd 21 2) (bits wd 15 6) (bits wd 9 6) (bits wd 3 6) (bits wd 0 3)) : Except DecodeError Instr) := by simp only [decodeVecInt, op]
  rw [f0, f1, f2, f3, f4] at r
  exact of_raw ((decodeVecInt_of op (by decide)).trans r) h

theorem vmulh (e d a b p) : Statement (.vmulh e d a b p) := by
  intro h
  have hx : encode (.vmulh e d a b p) = 578813952 + e.toNat * 2097152 + d.toNat * 32768 + a.toNat * 512 + b.toNat * 8 + p.toNat := rfl
  generalize encode (.vmulh e d a b p) = wd at hx ⊢
  obtain ⟨op, f0, f1, f2, f3, f4⟩ := fields22 69 (by omega) e d a b p (by omega)
  have r : decodeVecInt wd = (Except.ok (.vmulh (bits wd 21 2) (bits wd 15 6) (bits wd 9 6) (bits wd 3 6) (bits wd 0 3)) : Except DecodeError Instr) := by simp only [decodeVecInt, op]
  rw [f0, f1, f2, f3, f4] at r
  exact of_raw ((decodeVecInt_of op (by decide)).trans r) h

theorem vmin (e d a b p) : Statement (.vmin e d a b p) := by
  intro h
  have hx : encode (.vmin e d a b p) = 587202560 + e.toNat * 2097152 + d.toNat * 32768 + a.toNat * 512 + b.toNat * 8 + p.toNat := rfl
  generalize encode (.vmin e d a b p) = wd at hx ⊢
  obtain ⟨op, f0, f1, f2, f3, f4⟩ := fields22 70 (by omega) e d a b p (by omega)
  have r : decodeVecInt wd = (Except.ok (.vmin (bits wd 21 2) (bits wd 15 6) (bits wd 9 6) (bits wd 3 6) (bits wd 0 3)) : Except DecodeError Instr) := by simp only [decodeVecInt, op]
  rw [f0, f1, f2, f3, f4] at r
  exact of_raw ((decodeVecInt_of op (by decide)).trans r) h

theorem vmax (e d a b p) : Statement (.vmax e d a b p) := by
  intro h
  have hx : encode (.vmax e d a b p) = 595591168 + e.toNat * 2097152 + d.toNat * 32768 + a.toNat * 512 + b.toNat * 8 + p.toNat := rfl
  generalize encode (.vmax e d a b p) = wd at hx ⊢
  obtain ⟨op, f0, f1, f2, f3, f4⟩ := fields22 71 (by omega) e d a b p (by omega)
  have r : decodeVecInt wd = (Except.ok (.vmax (bits wd 21 2) (bits wd 15 6) (bits wd 9 6) (bits wd 3 6) (bits wd 0 3)) : Except DecodeError Instr) := by simp only [decodeVecInt, op]
  rw [f0, f1, f2, f3, f4] at r
  exact of_raw ((decodeVecInt_of op (by decide)).trans r) h

theorem vminu (e d a b p) : Statement (.vminu e d a b p) := by
  intro h
  have hx : encode (.vminu e d a b p) = 603979776 + e.toNat * 2097152 + d.toNat * 32768 + a.toNat * 512 + b.toNat * 8 + p.toNat := rfl
  generalize encode (.vminu e d a b p) = wd at hx ⊢
  obtain ⟨op, f0, f1, f2, f3, f4⟩ := fields22 72 (by omega) e d a b p (by omega)
  have r : decodeVecInt wd = (Except.ok (.vminu (bits wd 21 2) (bits wd 15 6) (bits wd 9 6) (bits wd 3 6) (bits wd 0 3)) : Except DecodeError Instr) := by simp only [decodeVecInt, op]
  rw [f0, f1, f2, f3, f4] at r
  exact of_raw ((decodeVecInt_of op (by decide)).trans r) h

theorem vmaxu (e d a b p) : Statement (.vmaxu e d a b p) := by
  intro h
  have hx : encode (.vmaxu e d a b p) = 612368384 + e.toNat * 2097152 + d.toNat * 32768 + a.toNat * 512 + b.toNat * 8 + p.toNat := rfl
  generalize encode (.vmaxu e d a b p) = wd at hx ⊢
  obtain ⟨op, f0, f1, f2, f3, f4⟩ := fields22 73 (by omega) e d a b p (by omega)
  have r : decodeVecInt wd = (Except.ok (.vmaxu (bits wd 21 2) (bits wd 15 6) (bits wd 9 6) (bits wd 3 6) (bits wd 0 3)) : Except DecodeError Instr) := by simp only [decodeVecInt, op]
  rw [f0, f1, f2, f3, f4] at r
  exact of_raw ((decodeVecInt_of op (by decide)).trans r) h

theorem vabsd (e d a b p) : Statement (.vabsd e d a b p) := by
  intro h
  have hx : encode (.vabsd e d a b p) = 620756992 + e.toNat * 2097152 + d.toNat * 32768 + a.toNat * 512 + b.toNat * 8 + p.toNat := rfl
  generalize encode (.vabsd e d a b p) = wd at hx ⊢
  obtain ⟨op, f0, f1, f2, f3, f4⟩ := fields22 74 (by omega) e d a b p (by omega)
  have r : decodeVecInt wd = (Except.ok (.vabsd (bits wd 21 2) (bits wd 15 6) (bits wd 9 6) (bits wd 3 6) (bits wd 0 3)) : Except DecodeError Instr) := by simp only [decodeVecInt, op]
  rw [f0, f1, f2, f3, f4] at r
  exact of_raw ((decodeVecInt_of op (by decide)).trans r) h

theorem vand (e d a b p) : Statement (.vand e d a b p) := by
  intro h
  have hx : encode (.vand e d a b p) = 629145600 + e.toNat * 2097152 + d.toNat * 32768 + a.toNat * 512 + b.toNat * 8 + p.toNat := rfl
  generalize encode (.vand e d a b p) = wd at hx ⊢
  obtain ⟨op, f0, f1, f2, f3, f4⟩ := fields22 75 (by omega) e d a b p (by omega)
  have r : decodeVecInt wd = (Except.ok (.vand (bits wd 21 2) (bits wd 15 6) (bits wd 9 6) (bits wd 3 6) (bits wd 0 3)) : Except DecodeError Instr) := by simp only [decodeVecInt, op]
  rw [f0, f1, f2, f3, f4] at r
  exact of_raw ((decodeVecInt_of op (by decide)).trans r) h

theorem vor (e d a b p) : Statement (.vor e d a b p) := by
  intro h
  have hx : encode (.vor e d a b p) = 637534208 + e.toNat * 2097152 + d.toNat * 32768 + a.toNat * 512 + b.toNat * 8 + p.toNat := rfl
  generalize encode (.vor e d a b p) = wd at hx ⊢
  obtain ⟨op, f0, f1, f2, f3, f4⟩ := fields22 76 (by omega) e d a b p (by omega)
  have r : decodeVecInt wd = (Except.ok (.vor (bits wd 21 2) (bits wd 15 6) (bits wd 9 6) (bits wd 3 6) (bits wd 0 3)) : Except DecodeError Instr) := by simp only [decodeVecInt, op]
  rw [f0, f1, f2, f3, f4] at r
  exact of_raw ((decodeVecInt_of op (by decide)).trans r) h

theorem vxor (e d a b p) : Statement (.vxor e d a b p) := by
  intro h
  have hx : encode (.vxor e d a b p) = 645922816 + e.toNat * 2097152 + d.toNat * 32768 + a.toNat * 512 + b.toNat * 8 + p.toNat := rfl
  generalize encode (.vxor e d a b p) = wd at hx ⊢
  obtain ⟨op, f0, f1, f2, f3, f4⟩ := fields22 77 (by omega) e d a b p (by omega)
  have r : decodeVecInt wd = (Except.ok (.vxor (bits wd 21 2) (bits wd 15 6) (bits wd 9 6) (bits wd 3 6) (bits wd 0 3)) : Except DecodeError Instr) := by simp only [decodeVecInt, op]
  rw [f0, f1, f2, f3, f4] at r
  exact of_raw ((decodeVecInt_of op (by decide)).trans r) h

theorem vandn (e d a b p) : Statement (.vandn e d a b p) := by
  intro h
  have hx : encode (.vandn e d a b p) = 654311424 + e.toNat * 2097152 + d.toNat * 32768 + a.toNat * 512 + b.toNat * 8 + p.toNat := rfl
  generalize encode (.vandn e d a b p) = wd at hx ⊢
  obtain ⟨op, f0, f1, f2, f3, f4⟩ := fields22 78 (by omega) e d a b p (by omega)
  have r : decodeVecInt wd = (Except.ok (.vandn (bits wd 21 2) (bits wd 15 6) (bits wd 9 6) (bits wd 3 6) (bits wd 0 3)) : Except DecodeError Instr) := by simp only [decodeVecInt, op]
  rw [f0, f1, f2, f3, f4] at r
  exact of_raw ((decodeVecInt_of op (by decide)).trans r) h

theorem vshl (e d a b p) : Statement (.vshl e d a b p) := by
  intro h
  have hx : encode (.vshl e d a b p) = 662700032 + e.toNat * 2097152 + d.toNat * 32768 + a.toNat * 512 + b.toNat * 8 + p.toNat := rfl
  generalize encode (.vshl e d a b p) = wd at hx ⊢
  obtain ⟨op, f0, f1, f2, f3, f4⟩ := fields22 79 (by omega) e d a b p (by omega)
  have r : decodeVecInt wd = (Except.ok (.vshl (bits wd 21 2) (bits wd 15 6) (bits wd 9 6) (bits wd 3 6) (bits wd 0 3)) : Except DecodeError Instr) := by simp only [decodeVecInt, op]
  rw [f0, f1, f2, f3, f4] at r
  exact of_raw ((decodeVecInt_of op (by decide)).trans r) h

theorem vshr (e d a b p) : Statement (.vshr e d a b p) := by
  intro h
  have hx : encode (.vshr e d a b p) = 671088640 + e.toNat * 2097152 + d.toNat * 32768 + a.toNat * 512 + b.toNat * 8 + p.toNat := rfl
  generalize encode (.vshr e d a b p) = wd at hx ⊢
  obtain ⟨op, f0, f1, f2, f3, f4⟩ := fields22 80 (by omega) e d a b p (by omega)
  have r : decodeVecInt wd = (Except.ok (.vshr (bits wd 21 2) (bits wd 15 6) (bits wd 9 6) (bits wd 3 6) (bits wd 0 3)) : Except DecodeError Instr) := by simp only [decodeVecInt, op]
  rw [f0, f1, f2, f3, f4] at r
  exact of_raw ((decodeVecInt_of op (by decide)).trans r) h

theorem vshra (e d a b p) : Statement (.vshra e d a b p) := by
  intro h
  have hx : encode (.vshra e d a b p) = 679477248 + e.toNat * 2097152 + d.toNat * 32768 + a.toNat * 512 + b.toNat * 8 + p.toNat := rfl
  generalize encode (.vshra e d a b p) = wd at hx ⊢
  obtain ⟨op, f0, f1, f2, f3, f4⟩ := fields22 81 (by omega) e d a b p (by omega)
  have r : decodeVecInt wd = (Except.ok (.vshra (bits wd 21 2) (bits wd 15 6) (bits wd 9 6) (bits wd 3 6) (bits wd 0 3)) : Except DecodeError Instr) := by simp only [decodeVecInt, op]
  rw [f0, f1, f2, f3, f4] at r
  exact of_raw ((decodeVecInt_of op (by decide)).trans r) h

theorem vshli (e d a i p) : Statement (.vshli e d a i p) := by
  intro h
  have hx : encode (.vshli e d a i p) = 687865856 + e.toNat * 2097152 + d.toNat * 32768 + a.toNat * 512 + i.toNat * 8 + p.toNat := rfl
  generalize encode (.vshli e d a i p) = wd at hx ⊢
  obtain ⟨op, f0, f1, f2, f3, f4⟩ := fields22 82 (by omega) e d a i p (by omega)
  have r : decodeVecInt wd = (Except.ok (.vshli (bits wd 21 2) (bits wd 15 6) (bits wd 9 6) (bits wd 3 6) (bits wd 0 3)) : Except DecodeError Instr) := by simp only [decodeVecInt, op]
  rw [f0, f1, f2, f3, f4] at r
  exact of_raw ((decodeVecInt_of op (by decide)).trans r) h

theorem vshri (e d a i p) : Statement (.vshri e d a i p) := by
  intro h
  have hx : encode (.vshri e d a i p) = 696254464 + e.toNat * 2097152 + d.toNat * 32768 + a.toNat * 512 + i.toNat * 8 + p.toNat := rfl
  generalize encode (.vshri e d a i p) = wd at hx ⊢
  obtain ⟨op, f0, f1, f2, f3, f4⟩ := fields22 83 (by omega) e d a i p (by omega)
  have r : decodeVecInt wd = (Except.ok (.vshri (bits wd 21 2) (bits wd 15 6) (bits wd 9 6) (bits wd 3 6) (bits wd 0 3)) : Except DecodeError Instr) := by simp only [decodeVecInt, op]
  rw [f0, f1, f2, f3, f4] at r
  exact of_raw ((decodeVecInt_of op (by decide)).trans r) h

theorem vfshl (e d a b p) : Statement (.vfshl e d a b p) := by
  intro h
  have hx : encode (.vfshl e d a b p) = 704643072 + e.toNat * 2097152 + d.toNat * 32768 + a.toNat * 512 + b.toNat * 8 + p.toNat := rfl
  generalize encode (.vfshl e d a b p) = wd at hx ⊢
  obtain ⟨op, f0, f1, f2, f3, f4⟩ := fields22 84 (by omega) e d a b p (by omega)
  have r : decodeVecInt wd = (Except.ok (.vfshl (bits wd 21 2) (bits wd 15 6) (bits wd 9 6) (bits wd 3 6) (bits wd 0 3)) : Except DecodeError Instr) := by simp only [decodeVecInt, op]
  rw [f0, f1, f2, f3, f4] at r
  exact of_raw ((decodeVecInt_of op (by decide)).trans r) h

theorem vfshr (e d a b p) : Statement (.vfshr e d a b p) := by
  intro h
  have hx : encode (.vfshr e d a b p) = 713031680 + e.toNat * 2097152 + d.toNat * 32768 + a.toNat * 512 + b.toNat * 8 + p.toNat := rfl
  generalize encode (.vfshr e d a b p) = wd at hx ⊢
  obtain ⟨op, f0, f1, f2, f3, f4⟩ := fields22 85 (by omega) e d a b p (by omega)
  have r : decodeVecInt wd = (Except.ok (.vfshr (bits wd 21 2) (bits wd 15 6) (bits wd 9 6) (bits wd 3 6) (bits wd 0 3)) : Except DecodeError Instr) := by simp only [decodeVecInt, op]
  rw [f0, f1, f2, f3, f4] at r
  exact of_raw ((decodeVecInt_of op (by decide)).trans r) h

theorem vcmpeq (e d a b p) : Statement (.vcmpeq e d a b p) := by
  intro h
  have hx : encode (.vcmpeq e d a b p) = 721420288 + e.toNat * 2097152 + d.toNat * 262144 + a.toNat * 4096 + b.toNat * 64 + p.toNat * 8 := rfl
  generalize encode (.vcmpeq e d a b p) = wd at hx ⊢
  obtain ⟨op, z0, f0, f1, f2, f3, f4⟩ := fields23 86 (by omega) e d a b p (by omega)
  have r : decodeVecInt wd = zeroed (fld wd 0 3 == 0) (.vcmpeq (bits wd 21 2) (bits wd 18 3) (bits wd 12 6) (bits wd 6 6) (bits wd 3 3)) := by simp only [decodeVecInt, op]
  rw [z0, f0, f1, f2, f3, f4] at r
  exact of_raw ((decodeVecInt_of op (by decide)).trans r) h

theorem vcmplt (e d a b p) : Statement (.vcmplt e d a b p) := by
  intro h
  have hx : encode (.vcmplt e d a b p) = 729808896 + e.toNat * 2097152 + d.toNat * 262144 + a.toNat * 4096 + b.toNat * 64 + p.toNat * 8 := rfl
  generalize encode (.vcmplt e d a b p) = wd at hx ⊢
  obtain ⟨op, z0, f0, f1, f2, f3, f4⟩ := fields23 87 (by omega) e d a b p (by omega)
  have r : decodeVecInt wd = zeroed (fld wd 0 3 == 0) (.vcmplt (bits wd 21 2) (bits wd 18 3) (bits wd 12 6) (bits wd 6 6) (bits wd 3 3)) := by simp only [decodeVecInt, op]
  rw [z0, f0, f1, f2, f3, f4] at r
  exact of_raw ((decodeVecInt_of op (by decide)).trans r) h

theorem vcmpltu (e d a b p) : Statement (.vcmpltu e d a b p) := by
  intro h
  have hx : encode (.vcmpltu e d a b p) = 738197504 + e.toNat * 2097152 + d.toNat * 262144 + a.toNat * 4096 + b.toNat * 64 + p.toNat * 8 := rfl
  generalize encode (.vcmpltu e d a b p) = wd at hx ⊢
  obtain ⟨op, z0, f0, f1, f2, f3, f4⟩ := fields23 88 (by omega) e d a b p (by omega)
  have r : decodeVecInt wd = zeroed (fld wd 0 3 == 0) (.vcmpltu (bits wd 21 2) (bits wd 18 3) (bits wd 12 6) (bits wd 6 6) (bits wd 3 3)) := by simp only [decodeVecInt, op]
  rw [z0, f0, f1, f2, f3, f4] at r
  exact of_raw ((decodeVecInt_of op (by decide)).trans r) h

theorem vsel (e d a b p) : Statement (.vsel e d a b p) := by
  intro h
  have hx : encode (.vsel e d a b p) = 746586112 + e.toNat * 2097152 + d.toNat * 32768 + a.toNat * 512 + b.toNat * 8 + p.toNat := rfl
  generalize encode (.vsel e d a b p) = wd at hx ⊢
  obtain ⟨op, f0, f1, f2, f3, f4⟩ := fields22 89 (by omega) e d a b p (by omega)
  have r : decodeVecInt wd = (Except.ok (.vsel (bits wd 21 2) (bits wd 15 6) (bits wd 9 6) (bits wd 3 6) (bits wd 0 3)) : Except DecodeError Instr) := by simp only [decodeVecInt, op]
  rw [f0, f1, f2, f3, f4] at r
  exact of_raw ((decodeVecInt_of op (by decide)).trans r) h

theorem vsplat (e d a i p) : Statement (.vsplat e d a i p) := by
  intro h
  have hx : encode (.vsplat e d a i p) = 754974720 + e.toNat * 2097152 + d.toNat * 32768 + a.toNat * 1024 + i.toNat * 8 + p.toNat := rfl
  generalize encode (.vsplat e d a i p) = wd at hx ⊢
  obtain ⟨op, f0, f1, f2, f3, f4⟩ := fields24 90 (by omega) e d a i p (by omega)
  have r : decodeVecInt wd = (Except.ok (.vsplat (bits wd 21 2) (bits wd 15 6) (bits wd 10 5) (bits wd 3 7) (bits wd 0 3)) : Except DecodeError Instr) := by simp only [decodeVecInt, op]
  rw [f0, f1, f2, f3, f4] at r
  exact of_raw ((decodeVecInt_of op (by decide)).trans r) h

theorem vperm (e d a b p) : Statement (.vperm e d a b p) := by
  intro h
  have hx : encode (.vperm e d a b p) = 763363328 + e.toNat * 2097152 + d.toNat * 32768 + a.toNat * 512 + b.toNat * 8 + p.toNat := rfl
  generalize encode (.vperm e d a b p) = wd at hx ⊢
  obtain ⟨op, f0, f1, f2, f3, f4⟩ := fields22 91 (by omega) e d a b p (by omega)
  have r : decodeVecInt wd = (Except.ok (.vperm (bits wd 21 2) (bits wd 15 6) (bits wd 9 6) (bits wd 3 6) (bits wd 0 3)) : Except DecodeError Instr) := by simp only [decodeVecInt, op]
  rw [f0, f1, f2, f3, f4] at r
  exact of_raw ((decodeVecInt_of op (by decide)).trans r) h

theorem vsldn (e d a i p) : Statement (.vsldn e d a i p) := by
  intro h
  have hx : encode (.vsldn e d a i p) = 771751936 + e.toNat * 2097152 + d.toNat * 32768 + a.toNat * 512 + i.toNat * 8 + p.toNat := rfl
  generalize encode (.vsldn e d a i p) = wd at hx ⊢
  obtain ⟨op, f0, f1, f2, f3, f4⟩ := fields22 92 (by omega) e d a i p (by omega)
  have r : decodeVecInt wd = (Except.ok (.vsldn (bits wd 21 2) (bits wd 15 6) (bits wd 9 6) (bits wd 3 6) (bits wd 0 3)) : Except DecodeError Instr) := by simp only [decodeVecInt, op]
  rw [f0, f1, f2, f3, f4] at r
  exact of_raw ((decodeVecInt_of op (by decide)).trans r) h

theorem vslup (e d a i p) : Statement (.vslup e d a i p) := by
  intro h
  have hx : encode (.vslup e d a i p) = 780140544 + e.toNat * 2097152 + d.toNat * 32768 + a.toNat * 512 + i.toNat * 8 + p.toNat := rfl
  generalize encode (.vslup e d a i p) = wd at hx ⊢
  obtain ⟨op, f0, f1, f2, f3, f4⟩ := fields22 93 (by omega) e d a i p (by omega)
  have r : decodeVecInt wd = (Except.ok (.vslup (bits wd 21 2) (bits wd 15 6) (bits wd 9 6) (bits wd 3 6) (bits wd 0 3)) : Except DecodeError Instr) := by simp only [decodeVecInt, op]
  rw [f0, f1, f2, f3, f4] at r
  exact of_raw ((decodeVecInt_of op (by decide)).trans r) h

theorem vdelta (e d a b p) : Statement (.vdelta e d a b p) := by
  intro h
  have hx : encode (.vdelta e d a b p) = 788529152 + e.toNat * 2097152 + d.toNat * 32768 + a.toNat * 512 + b.toNat * 8 + p.toNat := rfl
  generalize encode (.vdelta e d a b p) = wd at hx ⊢
  obtain ⟨op, f0, f1, f2, f3, f4⟩ := fields22 94 (by omega) e d a b p (by omega)
  have r : decodeVecInt wd = (Except.ok (.vdelta (bits wd 21 2) (bits wd 15 6) (bits wd 9 6) (bits wd 3 6) (bits wd 0 3)) : Except DecodeError Instr) := by simp only [decodeVecInt, op]
  rw [f0, f1, f2, f3, f4] at r
  exact of_raw ((decodeVecInt_of op (by decide)).trans r) h

theorem vpsum (e d a b p) : Statement (.vpsum e d a b p) := by
  intro h
  have hx : encode (.vpsum e d a b p) = 796917760 + e.toNat * 2097152 + d.toNat * 32768 + a.toNat * 512 + b.toNat * 8 + p.toNat := rfl
  generalize encode (.vpsum e d a b p) = wd at hx ⊢
  obtain ⟨op, f0, f1, f2, f3, f4⟩ := fields22 95 (by omega) e d a b p (by omega)
  have r : decodeVecInt wd = (Except.ok (.vpsum (bits wd 21 2) (bits wd 15 6) (bits wd 9 6) (bits wd 3 6) (bits wd 0 3)) : Except DecodeError Instr) := by simp only [decodeVecInt, op]
  rw [f0, f1, f2, f3, f4] at r
  exact of_raw ((decodeVecInt_of op (by decide)).trans r) h

theorem vfadd (e d a b p) : Statement (.vfadd e d a b p) := by
  intro h
  have hx : encode (.vfadd e d a b p) = 805306368 + e.toNat * 2097152 + d.toNat * 32768 + a.toNat * 512 + b.toNat * 8 + p.toNat := rfl
  generalize encode (.vfadd e d a b p) = wd at hx ⊢
  obtain ⟨op, f0, f1, f2, f3, f4⟩ := fields22 96 (by omega) e d a b p (by omega)
  have r : decodeFloatSized wd = (Except.ok (.vfadd (bits wd 21 2) (bits wd 15 6) (bits wd 9 6) (bits wd 3 6) (bits wd 0 3)) : Except DecodeError Instr) := by simp only [decodeFloatSized, op]
  rw [f0, f1, f2, f3, f4] at r
  exact of_raw ((decodeFloatSized_of op (by decide)).trans r) h

theorem vfsub (e d a b p) : Statement (.vfsub e d a b p) := by
  intro h
  have hx : encode (.vfsub e d a b p) = 813694976 + e.toNat * 2097152 + d.toNat * 32768 + a.toNat * 512 + b.toNat * 8 + p.toNat := rfl
  generalize encode (.vfsub e d a b p) = wd at hx ⊢
  obtain ⟨op, f0, f1, f2, f3, f4⟩ := fields22 97 (by omega) e d a b p (by omega)
  have r : decodeFloatSized wd = (Except.ok (.vfsub (bits wd 21 2) (bits wd 15 6) (bits wd 9 6) (bits wd 3 6) (bits wd 0 3)) : Except DecodeError Instr) := by simp only [decodeFloatSized, op]
  rw [f0, f1, f2, f3, f4] at r
  exact of_raw ((decodeFloatSized_of op (by decide)).trans r) h

theorem vfmul (e d a b p) : Statement (.vfmul e d a b p) := by
  intro h
  have hx : encode (.vfmul e d a b p) = 822083584 + e.toNat * 2097152 + d.toNat * 32768 + a.toNat * 512 + b.toNat * 8 + p.toNat := rfl
  generalize encode (.vfmul e d a b p) = wd at hx ⊢
  obtain ⟨op, f0, f1, f2, f3, f4⟩ := fields22 98 (by omega) e d a b p (by omega)
  have r : decodeFloatSized wd = (Except.ok (.vfmul (bits wd 21 2) (bits wd 15 6) (bits wd 9 6) (bits wd 3 6) (bits wd 0 3)) : Except DecodeError Instr) := by simp only [decodeFloatSized, op]
  rw [f0, f1, f2, f3, f4] at r
  exact of_raw ((decodeFloatSized_of op (by decide)).trans r) h

theorem vfma (e d a b p) : Statement (.vfma e d a b p) := by
  intro h
  have hx : encode (.vfma e d a b p) = 830472192 + e.toNat * 2097152 + d.toNat * 32768 + a.toNat * 512 + b.toNat * 8 + p.toNat := rfl
  generalize encode (.vfma e d a b p) = wd at hx ⊢
  obtain ⟨op, f0, f1, f2, f3, f4⟩ := fields22 99 (by omega) e d a b p (by omega)
  have r : decodeFloatSized wd = (Except.ok (.vfma (bits wd 21 2) (bits wd 15 6) (bits wd 9 6) (bits wd 3 6) (bits wd 0 3)) : Except DecodeError Instr) := by simp only [decodeFloatSized, op]
  rw [f0, f1, f2, f3, f4] at r
  exact of_raw ((decodeFloatSized_of op (by decide)).trans r) h

theorem vfmax (e d a b p) : Statement (.vfmax e d a b p) := by
  intro h
  have hx : encode (.vfmax e d a b p) = 838860800 + e.toNat * 2097152 + d.toNat * 32768 + a.toNat * 512 + b.toNat * 8 + p.toNat := rfl
  generalize encode (.vfmax e d a b p) = wd at hx ⊢
  obtain ⟨op, f0, f1, f2, f3, f4⟩ := fields22 100 (by omega) e d a b p (by omega)
  have r : decodeFloatSized wd = (Except.ok (.vfmax (bits wd 21 2) (bits wd 15 6) (bits wd 9 6) (bits wd 3 6) (bits wd 0 3)) : Except DecodeError Instr) := by simp only [decodeFloatSized, op]
  rw [f0, f1, f2, f3, f4] at r
  exact of_raw ((decodeFloatSized_of op (by decide)).trans r) h

theorem vfmin (e d a b p) : Statement (.vfmin e d a b p) := by
  intro h
  have hx : encode (.vfmin e d a b p) = 847249408 + e.toNat * 2097152 + d.toNat * 32768 + a.toNat * 512 + b.toNat * 8 + p.toNat := rfl
  generalize encode (.vfmin e d a b p) = wd at hx ⊢
  obtain ⟨op, f0, f1, f2, f3, f4⟩ := fields22 101 (by omega) e d a b p (by omega)
  have r : decodeFloatSized wd = (Except.ok (.vfmin (bits wd 21 2) (bits wd 15 6) (bits wd 9 6) (bits wd 3 6) (bits wd 0 3)) : Except DecodeError Instr) := by simp only [decodeFloatSized, op]
  rw [f0, f1, f2, f3, f4] at r
  exact of_raw ((decodeFloatSized_of op (by decide)).trans r) h

theorem vfcmplt (e d a b p) : Statement (.vfcmplt e d a b p) := by
  intro h
  have hx : encode (.vfcmplt e d a b p) = 855638016 + e.toNat * 2097152 + d.toNat * 262144 + a.toNat * 4096 + b.toNat * 64 + p.toNat * 8 := rfl
  generalize encode (.vfcmplt e d a b p) = wd at hx ⊢
  obtain ⟨op, z0, f0, f1, f2, f3, f4⟩ := fields23 102 (by omega) e d a b p (by omega)
  have r : decodeFloatSized wd = zeroed (fld wd 0 3 == 0) (.vfcmplt (bits wd 21 2) (bits wd 18 3) (bits wd 12 6) (bits wd 6 6) (bits wd 3 3)) := by simp only [decodeFloatSized, op]
  rw [z0, f0, f1, f2, f3, f4] at r
  exact of_raw ((decodeFloatSized_of op (by decide)).trans r) h

theorem vfcmpeq (e d a b p) : Statement (.vfcmpeq e d a b p) := by
  intro h
  have hx : encode (.vfcmpeq e d a b p) = 864026624 + e.toNat * 2097152 + d.toNat * 262144 + a.toNat * 4096 + b.toNat * 64 + p.toNat * 8 := rfl
  generalize encode (.vfcmpeq e d a b p) = wd at hx ⊢
  obtain ⟨op, z0, f0, f1, f2, f3, f4⟩ := fields23 103 (by omega) e d a b p (by omega)
  have r : decodeFloatSized wd = zeroed (fld wd 0 3 == 0) (.vfcmpeq (bits wd 21 2) (bits wd 18 3) (bits wd 12 6) (bits wd 6 6) (bits wd 3 3)) := by simp only [decodeFloatSized, op]
  rw [z0, f0, f1, f2, f3, f4] at r
  exact of_raw ((decodeFloatSized_of op (by decide)).trans r) h

theorem vfrcp (e d a p) : Statement (.vfrcp e d a p) := by
  intro h
  have hx : encode (.vfrcp e d a p) = 872415232 + e.toNat * 2097152 + d.toNat * 32768 + a.toNat * 512 + p.toNat := rfl
  generalize encode (.vfrcp e d a p) = wd at hx ⊢
  obtain ⟨op, z0, f0, f1, f2, f3⟩ := fields25 104 (by omega) e d a p (by omega)
  have r : decodeFloatSized wd = zeroed (fld wd 3 6 == 0) (.vfrcp (bits wd 21 2) (bits wd 15 6) (bits wd 9 6) (bits wd 0 3)) := by simp only [decodeFloatSized, op]
  rw [z0, f0, f1, f2, f3] at r
  exact of_raw ((decodeFloatSized_of op (by decide)).trans r) h

theorem vfexp2 (e d a p) : Statement (.vfexp2 e d a p) := by
  intro h
  have hx : encode (.vfexp2 e d a p) = 880803840 + e.toNat * 2097152 + d.toNat * 32768 + a.toNat * 512 + p.toNat := rfl
  generalize encode (.vfexp2 e d a p) = wd at hx ⊢
  obtain ⟨op, z0, f0, f1, f2, f3⟩ := fields25 105 (by omega) e d a p (by omega)
  have r : decodeFloatSized wd = zeroed (fld wd 3 6 == 0) (.vfexp2 (bits wd 21 2) (bits wd 15 6) (bits wd 9 6) (bits wd 0 3)) := by simp only [decodeFloatSized, op]
  rw [z0, f0, f1, f2, f3] at r
  exact of_raw ((decodeFloatSized_of op (by decide)).trans r) h

theorem vfcvtH (d a b p) : Statement (.vfcvtH d a b p) := by
  intro h
  have hx : encode (.vfcvtH d a b p) = 891289600 + d.toNat * 32768 + a.toNat * 512 + b.toNat * 8 + p.toNat := rfl
  generalize encode (.vfcvtH d a b p) = wd at hx ⊢
  obtain ⟨op, f0, f1, f2, f3⟩ := fields26 425 (by omega) d a b p (by omega)
  have r : decodeVecFloat wd = (Except.ok (.vfcvtH (bits wd 15 6) (bits wd 9 6) (bits wd 3 6) (bits wd 0 3)) : Except DecodeError Instr) := by simp only [decodeVecFloat, op]
  rw [f0, f1, f2, f3] at r
  exact of_raw ((decodeVecFloat_of op (by decide)).trans r) h

theorem vfcvtW (d a p) : Statement (.vfcvtW d a p) := by
  intro h
  have hx : encode (.vfcvtW d a p) = 893386752 + d.toNat * 32768 + a.toNat * 512 + p.toNat := rfl
  generalize encode (.vfcvtW d a p) = wd at hx ⊢
  obtain ⟨op, z0, f0, f1, f2⟩ := fields27 426 (by omega) d a p (by omega)
  have r : decodeVecFloat wd = zeroed (fld wd 3 6 == 0) (.vfcvtW (bits wd 15 6) (bits wd 9 6) (bits wd 0 3)) := by simp only [decodeVecFloat, op]
  rw [z0, f0, f1, f2] at r
  exact of_raw ((decodeVecFloat_of op (by decide)).trans r) h

theorem vcvtif (e d a p) : Statement (.vcvtif e d a p) := by
  intro h
  have hx : encode (.vcvtif e d a p) = 897581056 + e.toNat * 2097152 + d.toNat * 32768 + a.toNat * 512 + p.toNat := rfl
  generalize encode (.vcvtif e d a p) = wd at hx ⊢
  obtain ⟨op, z0, f0, f1, f2, f3⟩ := fields25 107 (by omega) e d a p (by omega)
  have r : decodeFloatSized wd = zeroed (fld wd 3 6 == 0) (.vcvtif (bits wd 21 2) (bits wd 15 6) (bits wd 9 6) (bits wd 0 3)) := by simp only [decodeFloatSized, op]
  rw [z0, f0, f1, f2, f3] at r
  exact of_raw ((decodeFloatSized_of op (by decide)).trans r) h

theorem vcvtfi (e d a p) : Statement (.vcvtfi e d a p) := by
  intro h
  have hx : encode (.vcvtfi e d a p) = 905969664 + e.toNat * 2097152 + d.toNat * 32768 + a.toNat * 512 + p.toNat := rfl
  generalize encode (.vcvtfi e d a p) = wd at hx ⊢
  obtain ⟨op, z0, f0, f1, f2, f3⟩ := fields25 108 (by omega) e d a p (by omega)
  have r : decodeFloatSized wd = zeroed (fld wd 3 6 == 0) (.vcvtfi (bits wd 21 2) (bits wd 15 6) (bits wd 9 6) (bits wd 0 3)) := by simp only [decodeFloatSized, op]
  rw [z0, f0, f1, f2, f3] at r
  exact of_raw ((decodeFloatSized_of op (by decide)).trans r) h

theorem vnarrow (d a q m p) : Statement (.vnarrow d a q m p) := by
  intro h
  have hx : encode (.vnarrow d a q m p) = 918552576 + d.toNat * 32768 + a.toNat * 512 + q.toNat * 64 + m.toNat * 8 + p.toNat := rfl
  generalize encode (.vnarrow d a q m p) = wd at hx ⊢
  obtain ⟨op, f0, f1, f2, f3, f4⟩ := fields28 438 (by omega) d a q m p (by omega)
  have r : decodeVecFloat wd = (Except.ok (.vnarrow (bits wd 15 6) (bits wd 9 6) (bits wd 6 3) (bits wd 3 3) (bits wd 0 3)) : Except DecodeError Instr) := by simp only [decodeVecFloat, op]
  rw [f0, f1, f2, f3, f4] at r
  exact of_raw ((decodeVecFloat_of op (by decide)).trans r) h

theorem vbscale (d a b p) : Statement (.vbscale d a b p) := by
  intro h
  have hx : encode (.vbscale d a b p) = 926941184 + d.toNat * 32768 + a.toNat * 512 + b.toNat * 8 + p.toNat := rfl
  generalize encode (.vbscale d a b p) = wd at hx ⊢
  obtain ⟨op, f0, f1, f2, f3⟩ := fields26 442 (by omega) d a b p (by omega)
  have r : decodeVecFloat wd = (Except.ok (.vbscale (bits wd 15 6) (bits wd 9 6) (bits wd 3 6) (bits wd 0 3)) : Except DecodeError Instr) := by simp only [decodeVecFloat, op]
  rw [f0, f1, f2, f3] at r
  exact of_raw ((decodeVecFloat_of op (by decide)).trans r) h

theorem vrmax (e d a p) : Statement (.vrmax e d a p) := by
  intro h
  have hx : encode (.vrmax e d a p) = 931135488 + e.toNat * 2097152 + d.toNat * 32768 + a.toNat * 512 + p.toNat := rfl
  generalize encode (.vrmax e d a p) = wd at hx ⊢
  obtain ⟨op, z0, f0, f1, f2, f3⟩ := fields25 111 (by omega) e d a p (by omega)
  have r : decodeFloatSized wd = zeroed (fld wd 3 6 == 0) (.vrmax (bits wd 21 2) (bits wd 15 6) (bits wd 9 6) (bits wd 0 3)) := by simp only [decodeFloatSized, op]
  rw [z0, f0, f1, f2, f3] at r
  exact of_raw ((decodeFloatSized_of op (by decide)).trans r) h

theorem vrsum (e d a p) : Statement (.vrsum e d a p) := by
  intro h
  have hx : encode (.vrsum e d a p) = 939524096 + e.toNat * 2097152 + d.toNat * 32768 + a.toNat * 512 + p.toNat := rfl
  generalize encode (.vrsum e d a p) = wd at hx ⊢
  obtain ⟨op, z0, f0, f1, f2, f3⟩ := fields25 112 (by omega) e d a p (by omega)
  have r : decodeFloatSized wd = zeroed (fld wd 3 6 == 0) (.vrsum (bits wd 21 2) (bits wd 15 6) (bits wd 9 6) (bits wd 0 3)) := by simp only [decodeFloatSized, op]
  rw [z0, f0, f1, f2, f3] at r
  exact of_raw ((decodeFloatSized_of op (by decide)).trans r) h

theorem vgmax (e d a i p) : Statement (.vgmax e d a i p) := by
  intro h
  have hx : encode (.vgmax e d a i p) = 947912704 + e.toNat * 2097152 + d.toNat * 32768 + a.toNat * 512 + i.toNat * 8 + p.toNat := rfl
  generalize encode (.vgmax e d a i p) = wd at hx ⊢
  obtain ⟨op, f0, f1, f2, f3, f4⟩ := fields22 113 (by omega) e d a i p (by omega)
  have r : decodeFloatSized wd = (Except.ok (.vgmax (bits wd 21 2) (bits wd 15 6) (bits wd 9 6) (bits wd 3 6) (bits wd 0 3)) : Except DecodeError Instr) := by simp only [decodeFloatSized, op]
  rw [f0, f1, f2, f3, f4] at r
  exact of_raw ((decodeFloatSized_of op (by decide)).trans r) h

theorem vclz (e d a p) : Statement (.vclz e d a p) := by
  intro h
  have hx : encode (.vclz e d a p) = 956301312 + e.toNat * 2097152 + d.toNat * 32768 + a.toNat * 512 + p.toNat := rfl
  generalize encode (.vclz e d a p) = wd at hx ⊢
  obtain ⟨op, z0, f0, f1, f2, f3⟩ := fields25 114 (by omega) e d a p (by omega)
  have r : decodeFloatSized wd = zeroed (fld wd 3 6 == 0) (.vclz (bits wd 21 2) (bits wd 15 6) (bits wd 9 6) (bits wd 0 3)) := by simp only [decodeFloatSized, op]
  rw [z0, f0, f1, f2, f3] at r
  exact of_raw ((decodeFloatSized_of op (by decide)).trans r) h

theorem vfrsum (e d a p) : Statement (.vfrsum e d a p) := by
  intro h
  have hx : encode (.vfrsum e d a p) = 964689920 + e.toNat * 2097152 + d.toNat * 32768 + a.toNat * 512 + p.toNat := rfl
  generalize encode (.vfrsum e d a p) = wd at hx ⊢
  obtain ⟨op, z0, f0, f1, f2, f3⟩ := fields25 115 (by omega) e d a p (by omega)
  have r : decodeFloatSized wd = zeroed (fld wd 3 6 == 0) (.vfrsum (bits wd 21 2) (bits wd 15 6) (bits wd 9 6) (bits wd 0 3)) := by simp only [decodeFloatSized, op]
  rw [z0, f0, f1, f2, f3] at r
  exact of_raw ((decodeFloatSized_of op (by decide)).trans r) h

theorem vfrmax (e d a p) : Statement (.vfrmax e d a p) := by
  intro h
  have hx : encode (.vfrmax e d a p) = 973078528 + e.toNat * 2097152 + d.toNat * 32768 + a.toNat * 512 + p.toNat := rfl
  generalize encode (.vfrmax e d a p) = wd at hx ⊢
  obtain ⟨op, z0, f0, f1, f2, f3⟩ := fields25 116 (by omega) e d a p (by omega)
  have r : decodeFloatSized wd = zeroed (fld wd 3 6 == 0) (.vfrmax (bits wd 21 2) (bits wd 15 6) (bits wd 9 6) (bits wd 0 3)) := by simp only [decodeFloatSized, op]
  rw [z0, f0, f1, f2, f3] at r
  exact of_raw ((decodeFloatSized_of op (by decide)).trans r) h

theorem vhash (d a i p) : Statement (.vhash d a i p) := by
  intro h
  have hx : encode (.vhash d a i p) = 987758592 + d.toNat * 32768 + a.toNat * 1024 + i.toNat * 8 + p.toNat := rfl
  generalize encode (.vhash d a i p) = wd at hx ⊢
  obtain ⟨op, f0, f1, f2, f3⟩ := fields29 471 (by omega) d a i p (by omega)
  have r : decodeVecFloat wd = (Except.ok (.vhash (bits wd 15 6) (bits wd 10 5) (bits wd 3 7) (bits wd 0 3)) : Except DecodeError Instr) := by simp only [decodeVecFloat, op]
  rw [f0, f1, f2, f3] at r
  exact of_raw ((decodeVecFloat_of op (by decide)).trans r) h

theorem vld (e v a o p) : Statement (.vld e v a o p) := by
  intro h
  have hx : encode (.vld e v a o p) = 989855744 + e.toNat * 2097152 + v.toNat * 32768 + a.toNat * 1024 + o.toNat * 8 + p.toNat := rfl
  generalize encode (.vld e v a o p) = wd at hx ⊢
  obtain ⟨op, f0, f1, f2, f3, f4⟩ := fields24 118 (by omega) e v a o p (by omega)
  have r : decodeFloatSized wd = (Except.ok (.vld (bits wd 21 2) (bits wd 15 6) (bits wd 10 5) (bits wd 3 7) (bits wd 0 3)) : Except DecodeError Instr) := by simp only [decodeFloatSized, op]
  rw [f0, f1, f2, f3, f4] at r
  exact of_raw ((decodeFloatSized_of op (by decide)).trans r) h

theorem vst (e v a o p) : Statement (.vst e v a o p) := by
  intro h
  have hx : encode (.vst e v a o p) = 998244352 + e.toNat * 2097152 + v.toNat * 32768 + a.toNat * 1024 + o.toNat * 8 + p.toNat := rfl
  generalize encode (.vst e v a o p) = wd at hx ⊢
  obtain ⟨op, f0, f1, f2, f3, f4⟩ := fields24 119 (by omega) e v a o p (by omega)
  have r : decodeFloatSized wd = (Except.ok (.vst (bits wd 21 2) (bits wd 15 6) (bits wd 10 5) (bits wd 3 7) (bits wd 0 3)) : Except DecodeError Instr) := by simp only [decodeFloatSized, op]
  rw [f0, f1, f2, f3, f4] at r
  exact of_raw ((decodeFloatSized_of op (by decide)).trans r) h

theorem vldu (e v a o p) : Statement (.vldu e v a o p) := by
  intro h
  have hx : encode (.vldu e v a o p) = 1006632960 + e.toNat * 2097152 + v.toNat * 32768 + a.toNat * 1024 + o.toNat * 8 + p.toNat := rfl
  generalize encode (.vldu e v a o p) = wd at hx ⊢
  obtain ⟨op, f0, f1, f2, f3, f4⟩ := fields24 120 (by omega) e v a o p (by omega)
  have r : decodeFloatSized wd = (Except.ok (.vldu (bits wd 21 2) (bits wd 15 6) (bits wd 10 5) (bits wd 3 7) (bits wd 0 3)) : Except DecodeError Instr) := by simp only [decodeFloatSized, op]
  rw [f0, f1, f2, f3, f4] at r
  exact of_raw ((decodeFloatSized_of op (by decide)).trans r) h

theorem vstu (e v a o p) : Statement (.vstu e v a o p) := by
  intro h
  have hx : encode (.vstu e v a o p) = 1015021568 + e.toNat * 2097152 + v.toNat * 32768 + a.toNat * 1024 + o.toNat * 8 + p.toNat := rfl
  generalize encode (.vstu e v a o p) = wd at hx ⊢
  obtain ⟨op, f0, f1, f2, f3, f4⟩ := fields24 121 (by omega) e v a o p (by omega)
  have r : decodeFloatSized wd = (Except.ok (.vstu (bits wd 21 2) (bits wd 15 6) (bits wd 10 5) (bits wd 3 7) (bits wd 0 3)) : Except DecodeError Instr) := by simp only [decodeFloatSized, op]
  rw [f0, f1, f2, f3, f4] at r
  exact of_raw ((decodeFloatSized_of op (by decide)).trans r) h

theorem vldm (e v a o p) : Statement (.vldm e v a o p) := by
  intro h
  have hx : encode (.vldm e v a o p) = 1023410176 + e.toNat * 2097152 + v.toNat * 32768 + a.toNat * 1024 + o.toNat * 8 + p.toNat := rfl
  generalize encode (.vldm e v a o p) = wd at hx ⊢
  obtain ⟨op, f0, f1, f2, f3, f4⟩ := fields24 122 (by omega) e v a o p (by omega)
  have r : decodeFloatSized wd = (Except.ok (.vldm (bits wd 21 2) (bits wd 15 6) (bits wd 10 5) (bits wd 3 7) (bits wd 0 3)) : Except DecodeError Instr) := by simp only [decodeFloatSized, op]
  rw [f0, f1, f2, f3, f4] at r
  exact of_raw ((decodeFloatSized_of op (by decide)).trans r) h

theorem vldx (l a t) : Statement (.vldx l a t) := by
  intro h
  have hx : encode (.vldx l a t) = 1031798784 + l.toNat * 131072 + a.toNat * 4096 + t.toNat * 16 := rfl
  generalize encode (.vldx l a t) = wd at hx ⊢
  obtain ⟨op, z0, f0, f1, f2⟩ := fields30 492 (by omega) l a t (by omega)
  have r : decodeVecFloat wd = zeroed (fld wd 0 4 == 0) (.vldx (bits wd 17 4) (bits wd 12 5) (bits wd 4 8)) := by simp only [decodeVecFloat, op]
  rw [z0, f0, f1, f2] at r
  exact of_raw ((decodeVecFloat_of op (by decide)).trans r) h

theorem vstx (e v a s p) : Statement (.vstx e v a s p) := by
  intro h
  have hx : encode (.vstx e v a s p) = 1040187392 + e.toNat * 2097152 + v.toNat * 32768 + a.toNat * 1024 + s.toNat * 128 + p.toNat := rfl
  generalize encode (.vstx e v a s p) = wd at hx ⊢
  obtain ⟨op, z0, f0, f1, f2, f3, f4⟩ := fields31 124 (by omega) e v a s p (by omega)
  have r : decodeFloatSized wd = zeroed (fld wd 3 4 == 0) (.vstx (bits wd 21 2) (bits wd 15 6) (bits wd 10 5) (bits wd 7 3) (bits wd 0 3)) := by simp only [decodeFloatSized, op]
  rw [z0, f0, f1, f2, f3, f4] at r
  exact of_raw ((decodeFloatSized_of op (by decide)).trans r) h

theorem vgetl (d l k) : Statement (.vgetl d l k) := by
  intro h
  have hx : encode (.vgetl d l k) = 1048576000 + d.toNat * 32768 + l.toNat * 2048 + k.toNat * 1024 := rfl
  generalize encode (.vgetl d l k) = wd at hx ⊢
  obtain ⟨op, z0, f0, f1, f2⟩ := fields32 500 (by omega) d l k (by omega)
  have r : decodeVecFloat wd = zeroed (fld wd 0 10 == 0) (.vgetl (bits wd 15 6) (bits wd 11 4) (bits wd 10 1)) := by simp only [decodeVecFloat, op]
  rw [z0, f0, f1, f2] at r
  exact of_raw ((decodeVecFloat_of op (by decide)).trans r) h

theorem vgath (e v a o p) : Statement (.vgath e v a o p) := by
  intro h
  have hx : encode (.vgath e v a o p) = 1056964608 + e.toNat * 2097152 + v.toNat * 32768 + a.toNat * 1024 + o.toNat * 8 + p.toNat := rfl
  generalize encode (.vgath e v a o p) = wd at hx ⊢
  obtain ⟨op, f0, f1, f2, f3, f4⟩ := fields24 126 (by omega) e v a o p (by omega)
  have r : decodeFloatSized wd = (Except.ok (.vgath (bits wd 21 2) (bits wd 15 6) (bits wd 10 5) (bits wd 3 7) (bits wd 0 3)) : Except DecodeError Instr) := by simp only [decodeFloatSized, op]
  rw [f0, f1, f2, f3, f4] at r
  exact of_raw ((decodeFloatSized_of op (by decide)).trans r) h

theorem vscat (e v a o p) : Statement (.vscat e v a o p) := by
  intro h
  have hx : encode (.vscat e v a o p) = 1065353216 + e.toNat * 2097152 + v.toNat * 32768 + a.toNat * 1024 + o.toNat * 8 + p.toNat := rfl
  generalize encode (.vscat e v a o p) = wd at hx ⊢
  obtain ⟨op, f0, f1, f2, f3, f4⟩ := fields24 127 (by omega) e v a o p (by omega)
  have r : decodeFloatSized wd = (Except.ok (.vscat (bits wd 21 2) (bits wd 15 6) (bits wd 10 5) (bits wd 3 7) (bits wd 0 3)) : Except DecodeError Instr) := by simp only [decodeFloatSized, op]
  rw [f0, f1, f2, f3, f4] at r
  exact of_raw ((decodeFloatSized_of op (by decide)).trans r) h

theorem tshape (t e r c) : Statement (.tshape t e r c) := by
  intro h
  have hx : encode (.tshape t e r c) = 1073741824 + t.toNat * 262144 + e.toNat * 32768 + r.toNat * 512 + c.toNat * 2 := rfl
  generalize encode (.tshape t e r c) = wd at hx ⊢
  obtain ⟨op, z0, f0, f1, f2, f3⟩ := fields33 512 (by omega) t e r c (by omega)
  have r : decodeMatrix wd = zeroed (fld wd 0 1 == 0) (.tshape (bits wd 18 3) (bits wd 15 3) (bits wd 9 6) (bits wd 1 8)) := by simp only [decodeMatrix, op]
  rw [z0, f0, f1, f2, f3] at r
  exact of_raw ((decodeMatrix_of op (by decide)).trans r) h

theorem tld (t a b) : Statement (.tld t a b) := by
  intro h
  have hx : encode (.tld t a b) = 1075838976 + t.toNat * 262144 + a.toNat * 8192 + b.toNat * 256 := rfl
  generalize encode (.tld t a b) = wd at hx ⊢
  obtain ⟨op, z0, f0, f1, f2⟩ := fields34 513 (by omega) t a b (by omega)
  have r : decodeMatrix wd = zeroed (fld wd 0 8 == 0) (.tld (bits wd 18 3) (bits wd 13 5) (bits wd 8 5)) := by simp only [decodeMatrix, op]
  rw [z0, f0, f1, f2] at r
  exact of_raw ((decodeMatrix_of op (by decide)).trans r) h

theorem tldm (t a b) : Statement (.tldm t a b) := by
  intro h
  have hx : encode (.tldm t a b) = 1077936128 + t.toNat * 262144 + a.toNat * 8192 + b.toNat * 256 := rfl
  generalize encode (.tldm t a b) = wd at hx ⊢
  obtain ⟨op, z0, f0, f1, f2⟩ := fields34 514 (by omega) t a b (by omega)
  have r : decodeMatrix wd = zeroed (fld wd 0 8 == 0) (.tldm (bits wd 18 3) (bits wd 13 5) (bits wd 8 5)) := by simp only [decodeMatrix, op]
  rw [z0, f0, f1, f2] at r
  exact of_raw ((decodeMatrix_of op (by decide)).trans r) h

theorem tst (t a b) : Statement (.tst t a b) := by
  intro h
  have hx : encode (.tst t a b) = 1080033280 + t.toNat * 262144 + a.toNat * 8192 + b.toNat * 256 := rfl
  generalize encode (.tst t a b) = wd at hx ⊢
  obtain ⟨op, z0, f0, f1, f2⟩ := fields34 515 (by omega) t a b (by omega)
  have r : decodeMatrix wd = zeroed (fld wd 0 8 == 0) (.tst (bits wd 18 3) (bits wd 13 5) (bits wd 8 5)) := by simp only [decodeMatrix, op]
  rw [z0, f0, f1, f2] at r
  exact of_raw ((decodeMatrix_of op (by decide)).trans r) h

theorem tzero (t) : Statement (.tzero t) := by
  intro h
  have hx : encode (.tzero t) = 1082130432 + t.toNat * 262144 := rfl
  generalize encode (.tzero t) = wd at hx ⊢
  obtain ⟨op, z0, f0⟩ := fields35 516 (by omega) t (by omega)
  have r : decodeMatrix wd = zeroed (fld wd 0 18 == 0) (.tzero (bits wd 18 3)) := by simp only [decodeMatrix, op]
  rw [z0, f0] at r
  exact of_raw ((decodeMatrix_of op (by decide)).trans r) h

theorem ttr (t) : Statement (.ttr t) := by
  intro h
  have hx : encode (.ttr t) = 1084227584 + t.toNat * 262144 := rfl
  generalize encode (.ttr t) = wd at hx ⊢
  obtain ⟨op, z0, f0⟩ := fields35 517 (by omega) t (by omega)
  have r : decodeMatrix wd = zeroed (fld wd 0 18 == 0) (.ttr (bits wd 18 3)) := by simp only [decodeMatrix, op]
  rw [z0, f0] at r
  exact of_raw ((decodeMatrix_of op (by decide)).trans r) h

theorem mma44 (a x y z r k o b) : Statement (.mma44 a x y z r k o b) := by
  intro h
  have hx : encode (.mma44 a x y z r k o b) = 1086324736 + a.toNat * 524288 + x.toNat * 65536 + y.toNat * 8192 + z.toNat * 512 + r.toNat * 256 + k.toNat * 128 + o.toNat * 64 + b.toNat * 8 := by rw [encode]
  generalize encode (.mma44 a x y z r k o b) = wd at hx ⊢
  obtain ⟨op, z0, z1, f0, f1, f2, f3, f4, f5, f6, f7⟩ := fields36 518 (by omega) a x y z r k o b (by omega)
  have r : decodeMatrix wd = zeroed (fld wd 10 3 == 0 && fld wd 0 3 == 0) (.mma44 (bits wd 19 2) (bits wd 16 3) (bits wd 13 3) (bits wd 9 1) (bits wd 8 1) (bits wd 7 1) (bits wd 6 1) (bits wd 3 3)) := by simp only [decodeMatrix, op]
  rw [z0, z1, f0, f1, f2, f3, f4, f5, f6, f7] at r
  exact of_raw ((decodeMatrix_of op (by decide)).trans r) h

theorem mma46 (a x y z r k o b) : Statement (.mma46 a x y z r k o b) := by
  intro h
  have hx : encode (.mma46 a x y z r k o b) = 1088421888 + a.toNat * 524288 + x.toNat * 65536 + y.toNat * 8192 + z.toNat * 512 + r.toNat * 256 + k.toNat * 128 + o.toNat * 64 + b.toNat * 8 := by rw [encode]
  generalize encode (.mma46 a x y z r k o b) = wd at hx ⊢
  obtain ⟨op, z0, z1, f0, f1, f2, f3, f4, f5, f6, f7⟩ := fields36 519 (by omega) a x y z r k o b (by omega)
  have r : decodeMatrix wd = zeroed (fld wd 10 3 == 0 && fld wd 0 3 == 0) (.mma46 (bits wd 19 2) (bits wd 16 3) (bits wd 13 3) (bits wd 9 1) (bits wd 8 1) (bits wd 7 1) (bits wd 6 1) (bits wd 3 3)) := by simp only [decodeMatrix, op]
  rw [z0, z1, f0, f1, f2, f3, f4, f5, f6, f7] at r
  exact of_raw ((decodeMatrix_of op (by decide)).trans r) h

theorem mma48 (a x y z r k o b) : Statement (.mma48 a x y z r k o b) := by
  intro h
  have hx : encode (.mma48 a x y z r k o b) = 1090519040 + a.toNat * 524288 + x.toNat * 65536 + y.toNat * 8192 + z.toNat * 512 + r.toNat * 256 + k.toNat * 128 + o.toNat * 64 + b.toNat * 8 := by rw [encode]
  generalize encode (.mma48 a x y z r k o b) = wd at hx ⊢
  obtain ⟨op, z0, z1, f0, f1, f2, f3, f4, f5, f6, f7⟩ := fields36 520 (by omega) a x y z r k o b (by omega)
  have r : decodeMatrix wd = zeroed (fld wd 10 3 == 0 && fld wd 0 3 == 0) (.mma48 (bits wd 19 2) (bits wd 16 3) (bits wd 13 3) (bits wd 9 1) (bits wd 8 1) (bits wd 7 1) (bits wd 6 1) (bits wd 3 3)) := by simp only [decodeMatrix, op]
  rw [z0, z1, f0, f1, f2, f3, f4, f5, f6, f7] at r
  exact of_raw ((decodeMatrix_of op (by decide)).trans r) h

theorem mma64 (a x y z r k o b) : Statement (.mma64 a x y z r k o b) := by
  intro h
  have hx : encode (.mma64 a x y z r k o b) = 1092616192 + a.toNat * 524288 + x.toNat * 65536 + y.toNat * 8192 + z.toNat * 512 + r.toNat * 256 + k.toNat * 128 + o.toNat * 64 + b.toNat * 8 := by rw [encode]
  generalize encode (.mma64 a x y z r k o b) = wd at hx ⊢
  obtain ⟨op, z0, z1, f0, f1, f2, f3, f4, f5, f6, f7⟩ := fields36 521 (by omega) a x y z r k o b (by omega)
  have r : decodeMatrix wd = zeroed (fld wd 10 3 == 0 && fld wd 0 3 == 0) (.mma64 (bits wd 19 2) (bits wd 16 3) (bits wd 13 3) (bits wd 9 1) (bits wd 8 1) (bits wd 7 1) (bits wd 6 1) (bits wd 3 3)) := by simp only [decodeMatrix, op]
  rw [z0, z1, f0, f1, f2, f3, f4, f5, f6, f7] at r
  exact of_raw ((decodeMatrix_of op (by decide)).trans r) h

theorem mma66 (a x y z r k o b) : Statement (.mma66 a x y z r k o b) := by
  intro h
  have hx : encode (.mma66 a x y z r k o b) = 1094713344 + a.toNat * 524288 + x.toNat * 65536 + y.toNat * 8192 + z.toNat * 512 + r.toNat * 256 + k.toNat * 128 + o.toNat * 64 + b.toNat * 8 := by rw [encode]
  generalize encode (.mma66 a x y z r k o b) = wd at hx ⊢
  obtain ⟨op, z0, z1, f0, f1, f2, f3, f4, f5, f6, f7⟩ := fields36 522 (by omega) a x y z r k o b (by omega)
  have r : decodeMatrix wd = zeroed (fld wd 10 3 == 0 && fld wd 0 3 == 0) (.mma66 (bits wd 19 2) (bits wd 16 3) (bits wd 13 3) (bits wd 9 1) (bits wd 8 1) (bits wd 7 1) (bits wd 6 1) (bits wd 3 3)) := by simp only [decodeMatrix, op]
  rw [z0, z1, f0, f1, f2, f3, f4, f5, f6, f7] at r
  exact of_raw ((decodeMatrix_of op (by decide)).trans r) h

theorem mma68 (a x y z r k o b) : Statement (.mma68 a x y z r k o b) := by
  intro h
  have hx : encode (.mma68 a x y z r k o b) = 1096810496 + a.toNat * 524288 + x.toNat * 65536 + y.toNat * 8192 + z.toNat * 512 + r.toNat * 256 + k.toNat * 128 + o.toNat * 64 + b.toNat * 8 := by rw [encode]
  generalize encode (.mma68 a x y z r k o b) = wd at hx ⊢
  obtain ⟨op, z0, z1, f0, f1, f2, f3, f4, f5, f6, f7⟩ := fields36 523 (by omega) a x y z r k o b (by omega)
  have r : decodeMatrix wd = zeroed (fld wd 10 3 == 0 && fld wd 0 3 == 0) (.mma68 (bits wd 19 2) (bits wd 16 3) (bits wd 13 3) (bits wd 9 1) (bits wd 8 1) (bits wd 7 1) (bits wd 6 1) (bits wd 3 3)) := by simp only [decodeMatrix, op]
  rw [z0, z1, f0, f1, f2, f3, f4, f5, f6, f7] at r
  exact of_raw ((decodeMatrix_of op (by decide)).trans r) h

theorem mma84 (a x y z r k o b) : Statement (.mma84 a x y z r k o b) := by
  intro h
  have hx : encode (.mma84 a x y z r k o b) = 1098907648 + a.toNat * 524288 + x.toNat * 65536 + y.toNat * 8192 + z.toNat * 512 + r.toNat * 256 + k.toNat * 128 + o.toNat * 64 + b.toNat * 8 := by rw [encode]
  generalize encode (.mma84 a x y z r k o b) = wd at hx ⊢
  obtain ⟨op, z0, z1, f0, f1, f2, f3, f4, f5, f6, f7⟩ := fields36 524 (by omega) a x y z r k o b (by omega)
  have r : decodeMatrix wd = zeroed (fld wd 10 3 == 0 && fld wd 0 3 == 0) (.mma84 (bits wd 19 2) (bits wd 16 3) (bits wd 13 3) (bits wd 9 1) (bits wd 8 1) (bits wd 7 1) (bits wd 6 1) (bits wd 3 3)) := by simp only [decodeMatrix, op]
  rw [z0, z1, f0, f1, f2, f3, f4, f5, f6, f7] at r
  exact of_raw ((decodeMatrix_of op (by decide)).trans r) h

theorem mma86 (a x y z r k o b) : Statement (.mma86 a x y z r k o b) := by
  intro h
  have hx : encode (.mma86 a x y z r k o b) = 1101004800 + a.toNat * 524288 + x.toNat * 65536 + y.toNat * 8192 + z.toNat * 512 + r.toNat * 256 + k.toNat * 128 + o.toNat * 64 + b.toNat * 8 := by rw [encode]
  generalize encode (.mma86 a x y z r k o b) = wd at hx ⊢
  obtain ⟨op, z0, z1, f0, f1, f2, f3, f4, f5, f6, f7⟩ := fields36 525 (by omega) a x y z r k o b (by omega)
  have r : decodeMatrix wd = zeroed (fld wd 10 3 == 0 && fld wd 0 3 == 0) (.mma86 (bits wd 19 2) (bits wd 16 3) (bits wd 13 3) (bits wd 9 1) (bits wd 8 1) (bits wd 7 1) (bits wd 6 1) (bits wd 3 3)) := by simp only [decodeMatrix, op]
  rw [z0, z1, f0, f1, f2, f3, f4, f5, f6, f7] at r
  exact of_raw ((decodeMatrix_of op (by decide)).trans r) h

theorem mma88 (a x y z r k o b) : Statement (.mma88 a x y z r k o b) := by
  intro h
  have hx : encode (.mma88 a x y z r k o b) = 1103101952 + a.toNat * 524288 + x.toNat * 65536 + y.toNat * 8192 + z.toNat * 512 + r.toNat * 256 + k.toNat * 128 + o.toNat * 64 + b.toNat * 8 := by rw [encode]
  generalize encode (.mma88 a x y z r k o b) = wd at hx ⊢
  obtain ⟨op, z0, z1, f0, f1, f2, f3, f4, f5, f6, f7⟩ := fields36 526 (by omega) a x y z r k o b (by omega)
  have r : decodeMatrix wd = zeroed (fld wd 10 3 == 0 && fld wd 0 3 == 0) (.mma88 (bits wd 19 2) (bits wd 16 3) (bits wd 13 3) (bits wd 9 1) (bits wd 8 1) (bits wd 7 1) (bits wd 6 1) (bits wd 3 3)) := by simp only [decodeMatrix, op]
  rw [z0, z1, f0, f1, f2, f3, f4, f5, f6, f7] at r
  exact of_raw ((decodeMatrix_of op (by decide)).trans r) h

theorem mmas44 (a x y m z r k o b) : Statement (.mmas44 a x y m z r k o b) := by
  intro h
  have hx : encode (.mmas44 a x y m z r k o b) = 1105199104 + a.toNat * 524288 + x.toNat * 65536 + y.toNat * 8192 + m.toNat * 1024 + z.toNat * 512 + r.toNat * 256 + k.toNat * 128 + o.toNat * 64 + b.toNat * 8 := by rw [encode]
  generalize encode (.mmas44 a x y m z r k o b) = wd at hx ⊢
  obtain ⟨op, z0, f0, f1, f2, f3, f4, f5, f6, f7, f8⟩ := fields37 527 (by omega) a x y m z r k o b (by omega)
  have r : decodeMatrix wd = zeroed (fld wd 0 3 == 0) (.mmas44 (bits wd 19 2) (bits wd 16 3) (bits wd 13 3) (bits wd 10 3) (bits wd 9 1) (bits wd 8 1) (bits wd 7 1) (bits wd 6 1) (bits wd 3 3)) := by simp only [decodeMatrix, op]
  rw [z0, f0, f1, f2, f3, f4, f5, f6, f7, f8] at r
  exact of_raw ((decodeMatrix_of op (by decide)).trans r) h

theorem mmas48 (a x y m z r k o b) : Statement (.mmas48 a x y m z r k o b) := by
  intro h
  have hx : encode (.mmas48 a x y m z r k o b) = 1107296256 + a.toNat * 524288 + x.toNat * 65536 + y.toNat * 8192 + m.toNat * 1024 + z.toNat * 512 + r.toNat * 256 + k.toNat * 128 + o.toNat * 64 + b.toNat * 8 := by rw [encode]
  generalize encode (.mmas48 a x y m z r k o b) = wd at hx ⊢
  obtain ⟨op, z0, f0, f1, f2, f3, f4, f5, f6, f7, f8⟩ := fields37 528 (by omega) a x y m z r k o b (by omega)
  have r : decodeMatrix wd = zeroed (fld wd 0 3 == 0) (.mmas48 (bits wd 19 2) (bits wd 16 3) (bits wd 13 3) (bits wd 10 3) (bits wd 9 1) (bits wd 8 1) (bits wd 7 1) (bits wd 6 1) (bits wd 3 3)) := by simp only [decodeMatrix, op]
  rw [z0, f0, f1, f2, f3, f4, f5, f6, f7, f8] at r
  exact of_raw ((decodeMatrix_of op (by decide)).trans r) h

theorem mmas84 (a x y m z r k o b) : Statement (.mmas84 a x y m z r k o b) := by
  intro h
  have hx : encode (.mmas84 a x y m z r k o b) = 1109393408 + a.toNat * 524288 + x.toNat * 65536 + y.toNat * 8192 + m.toNat * 1024 + z.toNat * 512 + r.toNat * 256 + k.toNat * 128 + o.toNat * 64 + b.toNat * 8 := by rw [encode]
  generalize encode (.mmas84 a x y m z r k o b) = wd at hx ⊢
  obtain ⟨op, z0, f0, f1, f2, f3, f4, f5, f6, f7, f8⟩ := fields37 529 (by omega) a x y m z r k o b (by omega)
  have r : decodeMatrix wd = zeroed (fld wd 0 3 == 0) (.mmas84 (bits wd 19 2) (bits wd 16 3) (bits wd 13 3) (bits wd 10 3) (bits wd 9 1) (bits wd 8 1) (bits wd 7 1) (bits wd 6 1) (bits wd 3 3)) := by simp only [decodeMatrix, op]
  rw [z0, f0, f1, f2, f3, f4, f5, f6, f7, f8] at r
  exact of_raw ((decodeMatrix_of op (by decide)).trans r) h

theorem mmas88 (a x y m z r k o b) : Statement (.mmas88 a x y m z r k o b) := by
  intro h
  have hx : encode (.mmas88 a x y m z r k o b) = 1111490560 + a.toNat * 524288 + x.toNat * 65536 + y.toNat * 8192 + m.toNat * 1024 + z.toNat * 512 + r.toNat * 256 + k.toNat * 128 + o.toNat * 64 + b.toNat * 8 := by rw [encode]
  generalize encode (.mmas88 a x y m z r k o b) = wd at hx ⊢
  obtain ⟨op, z0, f0, f1, f2, f3, f4, f5, f6, f7, f8⟩ := fields37 530 (by omega) a x y m z r k o b (by omega)
  have r : decodeMatrix wd = zeroed (fld wd 0 3 == 0) (.mmas88 (bits wd 19 2) (bits wd 16 3) (bits wd 13 3) (bits wd 10 3) (bits wd 9 1) (bits wd 8 1) (bits wd 7 1) (bits wd 6 1) (bits wd 3 3)) := by simp only [decodeMatrix, op]
  rw [z0, f0, f1, f2, f3, f4, f5, f6, f7, f8] at r
  exact of_raw ((decodeMatrix_of op (by decide)).trans r) h

theorem accz (a) : Statement (.accz a) := by
  intro h
  have hx : encode (.accz a) = 1113587712 + a.toNat * 524288 := rfl
  generalize encode (.accz a) = wd at hx ⊢
  obtain ⟨op, z0, f0⟩ := fields38 531 (by omega) a (by omega)
  have r : decodeMatrix wd = zeroed (fld wd 0 19 == 0) (.accz (bits wd 19 2)) := by simp only [decodeMatrix, op]
  rw [z0, f0] at r
  exact of_raw ((decodeMatrix_of op (by decide)).trans r) h

theorem accscl (a o x y b) : Statement (.accscl a o x y b) := by
  intro h
  have hx : encode (.accscl a o x y b) = 1115684864 + a.toNat * 524288 + o.toNat * 262144 + x.toNat * 32768 + y.toNat * 4096 + b.toNat * 512 := rfl
  generalize encode (.accscl a o x y b) = wd at hx ⊢
  obtain ⟨op, z0, f0, f1, f2, f3, f4⟩ := fields39 532 (by omega) a o x y b (by omega)
  have r : decodeMatrix wd = zeroed (fld wd 0 9 == 0) (.accscl (bits wd 19 2) (bits wd 18 1) (bits wd 15 3) (bits wd 12 3) (bits wd 9 3)) := by simp only [decodeMatrix, op]
  rw [z0, f0, f1, f2, f3, f4] at r
  exact of_raw ((decodeMatrix_of op (by decide)).trans r) h

theorem ozero (s) : Statement (.ozero s) := by
  intro h
  have hx : encode (.ozero s) = 1117798400 + s.toNat * 4096 := rfl
  generalize encode (.ozero s) = wd at hx ⊢
  obtain ⟨op, z0, z1, f0⟩ := fields40 533 (by omega) s (by omega)
  have r : decodeMatrix wd = zeroed (fld wd 13 8 == 2 && fld wd 0 12 == 0) (.ozero (bits wd 12 1)) := by simp only [decodeMatrix, op]
  rw [z0, z1, f0] at r
  exact of_raw ((decodeMatrix_of op (by decide)).trans r) h

theorem ord (v s r) : Statement (.ord v s r) := by
  intro h
  have hx : encode (.ord v s r) = 1119895552 + v.toNat * 32768 + s.toNat * 4096 + r.toNat * 64 := rfl
  generalize encode (.ord v s r) = wd at hx ⊢
  obtain ⟨op, z0, z1, f0, f1, f2⟩ := fields41 534 (by omega) v s r (by omega)
  have r : decodeMatrix wd = zeroed (fld wd 13 2 == 2 && fld wd 0 6 == 0) (.ord (bits wd 15 6) (bits wd 12 1) (bits wd 6 6)) := by simp only [decodeMatrix, op]
  rw [z0, z1, f0, f1, f2] at r
  exact of_raw ((decodeMatrix_of op (by decide)).trans r) h

theorem owr (v s r) : Statement (.owr v s r) := by
  intro h
  have hx : encode (.owr v s r) = 1121992704 + v.toNat * 32768 + s.toNat * 4096 + r.toNat * 64 := rfl
  generalize encode (.owr v s r) = wd at hx ⊢
  obtain ⟨op, z0, z1, f0, f1, f2⟩ := fields41 535 (by omega) v s r (by omega)
  have r : decodeMatrix wd = zeroed (fld wd 13 2 == 2 && fld wd 0 6 == 0) (.owr (bits wd 15 6) (bits wd 12 1) (bits wd 6 6)) := by simp only [decodeMatrix, op]
  rw [z0, z1, f0, f1, f2] at r
  exact of_raw ((decodeMatrix_of op (by decide)).trans r) h

theorem accrd (v s r) : Statement (.accrd v s r) := by
  intro h
  have hx : encode (.accrd v s r) = 1124073472 + v.toNat * 32768 + s.toNat * 4096 + r.toNat * 64 := rfl
  generalize encode (.accrd v s r) = wd at hx ⊢
  obtain ⟨op, z0, z1, f0, f1, f2⟩ := fields42 536 (by omega) v s r (by omega)
  have r : decodeMatrix wd = zeroed (fld wd 14 1 == 0 && fld wd 0 6 == 0) (.accrd (bits wd 15 6) (bits wd 12 2) (bits wd 6 6)) := by simp only [decodeMatrix, op]
  rw [z0, z1, f0, f1, f2] at r
  exact of_raw ((decodeMatrix_of op (by decide)).trans r) h

theorem cpy (a b c f) : Statement (.cpy a b c f) := by
  intro h
  have hx : encode (.cpy a b c f) = 1342177280 + a.toNat * 65536 + b.toNat * 2048 + c.toNat * 64 + f.toNat := rfl
  generalize encode (.cpy a b c f) = wd at hx ⊢
  obtain ⟨op, z0, f0, f1, f2, f3⟩ := fields43 640 (by omega) a b c f (by omega)
  have r : decodeCopy wd = zeroed (fld wd 3 3 == 0) (.cpy (bits wd 16 5) (bits wd 11 5) (bits wd 6 5) (bits wd 0 3)) := by simp only [decodeCopy, op]
  rw [z0, f0, f1, f2, f3] at r
  exact of_raw ((decodeCopy_of op (by decide)).trans r) h

theorem cpym (a b c f) : Statement (.cpym a b c f) := by
  intro h
  have hx : encode (.cpym a b c f) = 1344274432 + a.toNat * 65536 + b.toNat * 2048 + c.toNat * 64 + f.toNat := rfl
  generalize encode (.cpym a b c f) = wd at hx ⊢
  obtain ⟨op, z0, f0, f1, f2, f3⟩ := fields43 641 (by omega) a b c f (by omega)
  have r : decodeCopy wd = zeroed (fld wd 3 3 == 0) (.cpym (bits wd 16 5) (bits wd 11 5) (bits wd 6 5) (bits wd 0 3)) := by simp only [decodeCopy, op]
  rw [z0, f0, f1, f2, f3] at r
  exact of_raw ((decodeCopy_of op (by decide)).trans r) h

theorem cpyg (a b c s f) : Statement (.cpyg a b c s f) := by
  intro h
  have hx : encode (.cpyg a b c s f) = 1346371584 + a.toNat * 65536 + b.toNat * 2048 + c.toNat * 64 + s.toNat * 8 + f.toNat := rfl
  generalize encode (.cpyg a b c s f) = wd at hx ⊢
  obtain ⟨op, f0, f1, f2, f3, f4⟩ := fields44 642 (by omega) a b c s f (by omega)
  have r : decodeCopy wd = (Except.ok (.cpyg (bits wd 16 5) (bits wd 11 5) (bits wd 6 5) (bits wd 3 3) (bits wd 0 3)) : Except DecodeError Instr) := by simp only [decodeCopy, op]
  rw [f0, f1, f2, f3, f4] at r
  exact of_raw ((decodeCopy_of op (by decide)).trans r) h

theorem cpyw (a b c s f) : Statement (.cpyw a b c s f) := by
  intro h
  have hx : encode (.cpyw a b c s f) = 1348468736 + a.toNat * 65536 + b.toNat * 2048 + c.toNat * 64 + s.toNat * 8 + f.toNat := rfl
  generalize encode (.cpyw a b c s f) = wd at hx ⊢
  obtain ⟨op, f0, f1, f2, f3, f4⟩ := fields44 643 (by omega) a b c s f (by omega)
  have r : decodeCopy wd = (Except.ok (.cpyw (bits wd 16 5) (bits wd 11 5) (bits wd 6 5) (bits wd 3 3) (bits wd 0 3)) : Except DecodeError Instr) := by simp only [decodeCopy, op]
  rw [f0, f1, f2, f3, f4] at r
  exact of_raw ((decodeCopy_of op (by decide)).trans r) h

theorem cpymc (a b c f) : Statement (.cpymc a b c f) := by
  intro h
  have hx : encode (.cpymc a b c f) = 1350565888 + a.toNat * 65536 + b.toNat * 2048 + c.toNat * 64 + f.toNat := rfl
  generalize encode (.cpymc a b c f) = wd at hx ⊢
  obtain ⟨op, z0, f0, f1, f2, f3⟩ := fields43 644 (by omega) a b c f (by omega)
  have r : decodeCopy wd = zeroed (fld wd 3 3 == 0) (.cpymc (bits wd 16 5) (bits wd 11 5) (bits wd 6 5) (bits wd 0 3)) := by simp only [decodeCopy, op]
  rw [z0, f0, f1, f2, f3] at r
  exact of_raw ((decodeCopy_of op (by decide)).trans r) h

theorem cpyx (a b c s f) : Statement (.cpyx a b c s f) := by
  intro h
  have hx : encode (.cpyx a b c s f) = 1352663040 + a.toNat * 65536 + b.toNat * 2048 + c.toNat * 64 + s.toNat * 8 + f.toNat := rfl
  generalize encode (.cpyx a b c s f) = wd at hx ⊢
  obtain ⟨op, f0, f1, f2, f3, f4⟩ := fields44 645 (by omega) a b c s f (by omega)
  have r : decodeCopy wd = (Except.ok (.cpyx (bits wd 16 5) (bits wd 11 5) (bits wd 6 5) (bits wd 3 3) (bits wd 0 3)) : Except DecodeError Instr) := by simp only [decodeCopy, op]
  rw [f0, f1, f2, f3, f4] at r
  exact of_raw ((decodeCopy_of op (by decide)).trans r) h

theorem gath (a b c s f) : Statement (.gath a b c s f) := by
  intro h
  have hx : encode (.gath a b c s f) = 1354760192 + a.toNat * 65536 + b.toNat * 2048 + c.toNat * 64 + s.toNat * 8 + f.toNat := rfl
  generalize encode (.gath a b c s f) = wd at hx ⊢
  obtain ⟨op, f0, f1, f2, f3, f4⟩ := fields44 646 (by omega) a b c s f (by omega)
  have r : decodeCopy wd = (Except.ok (.gath (bits wd 16 5) (bits wd 11 5) (bits wd 6 5) (bits wd 3 3) (bits wd 0 3)) : Except DecodeError Instr) := by simp only [decodeCopy, op]
  rw [f0, f1, f2, f3, f4] at r
  exact of_raw ((decodeCopy_of op (by decide)).trans r) h

theorem scat (a b c s f) : Statement (.scat a b c s f) := by
  intro h
  have hx : encode (.scat a b c s f) = 1356857344 + a.toNat * 65536 + b.toNat * 2048 + c.toNat * 64 + s.toNat * 8 + f.toNat := rfl
  generalize encode (.scat a b c s f) = wd at hx ⊢
  obtain ⟨op, f0, f1, f2, f3, f4⟩ := fields44 647 (by omega) a b c s f (by omega)
  have r : decodeCopy wd = (Except.ok (.scat (bits wd 16 5) (bits wd 11 5) (bits wd 6 5) (bits wd 3 3) (bits wd 0 3)) : Except DecodeError Instr) := by simp only [decodeCopy, op]
  rw [f0, f1, f2, f3, f4] at r
  exact of_raw ((decodeCopy_of op (by decide)).trans r) h

theorem redc (a b c s f) : Statement (.redc a b c s f) := by
  intro h
  have hx : encode (.redc a b c s f) = 1358954496 + a.toNat * 65536 + b.toNat * 2048 + c.toNat * 64 + s.toNat * 8 + f.toNat := rfl
  generalize encode (.redc a b c s f) = wd at hx ⊢
  obtain ⟨op, f0, f1, f2, f3, f4⟩ := fields44 648 (by omega) a b c s f (by omega)
  have r : decodeCopy wd = (Except.ok (.redc (bits wd 16 5) (bits wd 11 5) (bits wd 6 5) (bits wd 3 3) (bits wd 0 3)) : Except DecodeError Instr) := by simp only [decodeCopy, op]
  rw [f0, f1, f2, f3, f4] at r
  exact of_raw ((decodeCopy_of op (by decide)).trans r) h

theorem cseed (x a) : Statement (.cseed x a) := by
  intro h
  have hx : encode (.cseed x a) = 1361051648 + x.toNat * 1048576 + a.toNat * 32768 := rfl
  generalize encode (.cseed x a) = wd at hx ⊢
  obtain ⟨op, z0, f0, f1⟩ := fields45 649 (by omega) x a (by omega)
  have r : decodeCopy wd = zeroed (fld wd 0 15 == 0) (.cseed (bits wd 20 1) (bits wd 15 5)) := by simp only [decodeCopy, op]
  rw [z0, f0, f1] at r
  exact of_raw ((decodeCopy_of op (by decide)).trans r) h

theorem cget (l x) : Statement (.cget l x) := by
  intro h
  have hx : encode (.cget l x) = 1363148800 + l.toNat * 131072 + x.toNat * 65536 := rfl
  generalize encode (.cget l x) = wd at hx ⊢
  obtain ⟨op, z0, f0, f1⟩ := fields46 650 (by omega) l x (by omega)
  have r : decodeCopy wd = zeroed (fld wd 0 16 == 0) (.cget (bits wd 17 4) (bits wd 16 1)) := by simp only [decodeCopy, op]
  rw [z0, f0, f1] at r
  exact of_raw ((decodeCopy_of op (by decide)).trans r) h

theorem phase (s v l) : Statement (.phase s v l) := by
  intro h
  have hx : encode (.phase s v l) = 1610612736 + s.toNat * 262144 + v.toNat * 131072 + l.toNat * 16384 := rfl
  generalize encode (.phase s v l) = wd at hx ⊢
  obtain ⟨op, z0, f0, f1, f2⟩ := fields47 768 (by omega) s v l (by omega)
  have r : decodeSync wd = zeroed (fld wd 0 14 == 0) (.phase (bits wd 18 3) (bits wd 17 1) (bits wd 14 3)) := by simp only [decodeSync, op]
  rw [z0, f0, f1, f2] at r
  exact of_raw ((decodeSync_of op (by decide)).trans r) h

theorem fence (s v l) : Statement (.fence s v l) := by
  intro h
  have hx : encode (.fence s v l) = 1612709888 + s.toNat * 262144 + v.toNat * 131072 + l.toNat * 16384 := rfl
  generalize encode (.fence s v l) = wd at hx ⊢
  obtain ⟨op, z0, f0, f1, f2⟩ := fields47 769 (by omega) s v l (by omega)
  have r : decodeSync wd = zeroed (fld wd 0 14 == 0) (.fence (bits wd 18 3) (bits wd 17 1) (bits wd 14 3)) := by simp only [decodeSync, op]
  rw [z0, f0, f1, f2] at r
  exact of_raw ((decodeSync_of op (by decide)).trans r) h

theorem sstep (s v l) : Statement (.sstep s v l) := by
  intro h
  have hx : encode (.sstep s v l) = 1614807040 + s.toNat * 262144 + v.toNat * 131072 + l.toNat * 16384 := rfl
  generalize encode (.sstep s v l) = wd at hx ⊢
  obtain ⟨op, z0, f0, f1, f2⟩ := fields47 770 (by omega) s v l (by omega)
  have r : decodeSync wd = zeroed (fld wd 0 14 == 0) (.sstep (bits wd 18 3) (bits wd 17 1) (bits wd 14 3)) := by simp only [decodeSync, op]
  rw [z0, f0, f1, f2] at r
  exact of_raw ((decodeSync_of op (by decide)).trans r) h

theorem wgo (s v l) : Statement (.wgo s v l) := by
  intro h
  have hx : encode (.wgo s v l) = 1616904192 + s.toNat * 262144 + v.toNat * 131072 + l.toNat * 16384 := rfl
  generalize encode (.wgo s v l) = wd at hx ⊢
  obtain ⟨op, z0, f0, f1, f2⟩ := fields47 771 (by omega) s v l (by omega)
  have r : decodeSync wd = zeroed (fld wd 0 14 == 0) (.wgo (bits wd 18 3) (bits wd 17 1) (bits wd 14 3)) := by simp only [decodeSync, op]
  rw [z0, f0, f1, f2] at r
  exact of_raw ((decodeSync_of op (by decide)).trans r) h

theorem aadd (d a b s) : Statement (.aadd d a b s) := by
  intro h
  have hx : encode (.aadd d a b s) = 1619001344 + d.toNat * 65536 + a.toNat * 2048 + b.toNat * 64 + s.toNat * 16 := rfl
  generalize encode (.aadd d a b s) = wd at hx ⊢
  obtain ⟨op, z0, f0, f1, f2, f3⟩ := fields48 772 (by omega) d a b s (by omega)
  have r : decodeSync wd = zeroed (fld wd 0 4 == 0) (.aadd (bits wd 16 5) (bits wd 11 5) (bits wd 6 5) (bits wd 4 2)) := by simp only [decodeSync, op]
  rw [z0, f0, f1, f2, f3] at r
  exact of_raw ((decodeSync_of op (by decide)).trans r) h

theorem amin (d a b s) : Statement (.amin d a b s) := by
  intro h
  have hx : encode (.amin d a b s) = 1621098496 + d.toNat * 65536 + a.toNat * 2048 + b.toNat * 64 + s.toNat * 16 := rfl
  generalize encode (.amin d a b s) = wd at hx ⊢
  obtain ⟨op, z0, f0, f1, f2, f3⟩ := fields48 773 (by omega) d a b s (by omega)
  have r : decodeSync wd = zeroed (fld wd 0 4 == 0) (.amin (bits wd 16 5) (bits wd 11 5) (bits wd 6 5) (bits wd 4 2)) := by simp only [decodeSync, op]
  rw [z0, f0, f1, f2, f3] at r
  exact of_raw ((decodeSync_of op (by decide)).trans r) h

theorem amax (d a b s) : Statement (.amax d a b s) := by
  intro h
  have hx : encode (.amax d a b s) = 1623195648 + d.toNat * 65536 + a.toNat * 2048 + b.toNat * 64 + s.toNat * 16 := rfl
  generalize encode (.amax d a b s) = wd at hx ⊢
  obtain ⟨op, z0, f0, f1, f2, f3⟩ := fields48 774 (by omega) d a b s (by omega)
  have r : decodeSync wd = zeroed (fld wd 0 4 == 0) (.amax (bits wd 16 5) (bits wd 11 5) (bits wd 6 5) (bits wd 4 2)) := by simp only [decodeSync, op]
  rw [z0, f0, f1, f2, f3] at r
  exact of_raw ((decodeSync_of op (by decide)).trans r) h

theorem aor (d a b s) : Statement (.aor d a b s) := by
  intro h
  have hx : encode (.aor d a b s) = 1625292800 + d.toNat * 65536 + a.toNat * 2048 + b.toNat * 64 + s.toNat * 16 := rfl
  generalize encode (.aor d a b s) = wd at hx ⊢
  obtain ⟨op, z0, f0, f1, f2, f3⟩ := fields48 775 (by omega) d a b s (by omega)
  have r : decodeSync wd = zeroed (fld wd 0 4 == 0) (.aor (bits wd 16 5) (bits wd 11 5) (bits wd 6 5) (bits wd 4 2)) := by simp only [decodeSync, op]
  rw [z0, f0, f1, f2, f3] at r
  exact of_raw ((decodeSync_of op (by decide)).trans r) h

theorem aand (d a b s) : Statement (.aand d a b s) := by
  intro h
  have hx : encode (.aand d a b s) = 1627389952 + d.toNat * 65536 + a.toNat * 2048 + b.toNat * 64 + s.toNat * 16 := rfl
  generalize encode (.aand d a b s) = wd at hx ⊢
  obtain ⟨op, z0, f0, f1, f2, f3⟩ := fields48 776 (by omega) d a b s (by omega)
  have r : decodeSync wd = zeroed (fld wd 0 4 == 0) (.aand (bits wd 16 5) (bits wd 11 5) (bits wd 6 5) (bits wd 4 2)) := by simp only [decodeSync, op]
  rw [z0, f0, f1, f2, f3] at r
  exact of_raw ((decodeSync_of op (by decide)).trans r) h

theorem axchg (d a b s) : Statement (.axchg d a b s) := by
  intro h
  have hx : encode (.axchg d a b s) = 1629487104 + d.toNat * 65536 + a.toNat * 2048 + b.toNat * 64 + s.toNat * 16 := rfl
  generalize encode (.axchg d a b s) = wd at hx ⊢
  obtain ⟨op, z0, f0, f1, f2, f3⟩ := fields48 777 (by omega) d a b s (by omega)
  have r : decodeSync wd = zeroed (fld wd 0 4 == 0) (.axchg (bits wd 16 5) (bits wd 11 5) (bits wd 6 5) (bits wd 4 2)) := by simp only [decodeSync, op]
  rw [z0, f0, f1, f2, f3] at r
  exact of_raw ((decodeSync_of op (by decide)).trans r) h

theorem acas (d a b s) : Statement (.acas d a b s) := by
  intro h
  have hx : encode (.acas d a b s) = 1631584256 + d.toNat * 65536 + a.toNat * 2048 + b.toNat * 64 + s.toNat * 16 := rfl
  generalize encode (.acas d a b s) = wd at hx ⊢
  obtain ⟨op, z0, f0, f1, f2, f3⟩ := fields48 778 (by omega) d a b s (by omega)
  have r : decodeSync wd = zeroed (fld wd 0 4 == 0) (.acas (bits wd 16 5) (bits wd 11 5) (bits wd 6 5) (bits wd 4 2)) := by simp only [decodeSync, op]
  rw [z0, f0, f1, f2, f3] at r
  exact of_raw ((decodeSync_of op (by decide)).trans r) h

theorem rqld (d a i) : Statement (.rqld d a i) := by
  intro h
  have hx : encode (.rqld d a i) = 1633681408 + d.toNat * 65536 + a.toNat * 2048 + i.toNat := rfl
  generalize encode (.rqld d a i) = wd at hx ⊢
  obtain ⟨op, f0, f1, f2⟩ := fields3 779 (by omega) d a i (by omega)
  have r : decodeSync wd = (Except.ok (.rqld (bits wd 16 5) (bits wd 11 5) (bits wd 0 11)) : Except DecodeError Instr) := by simp only [decodeSync, op]
  rw [f0, f1, f2] at r
  exact of_raw ((decodeSync_of op (by decide)).trans r) h

theorem rqcommit (d a b) : Statement (.rqcommit d a b) := by
  intro h
  have hx : encode (.rqcommit d a b) = 1635778560 + d.toNat * 65536 + a.toNat * 2048 + b.toNat * 64 := rfl
  generalize encode (.rqcommit d a b) = wd at hx ⊢
  obtain ⟨op, z0, f0, f1, f2⟩ := fields49 780 (by omega) d a b (by omega)
  have r : decodeSync wd = zeroed (fld wd 0 6 == 0) (.rqcommit (bits wd 16 5) (bits wd 11 5) (bits wd 6 5)) := by simp only [decodeSync, op]
  rw [z0, f0, f1, f2] at r
  exact of_raw ((decodeSync_of op (by decide)).trans r) h

theorem rqend : Statement (.rqend) := by
  intro h
  have hx : encode (.rqend) = 1637875712 := rfl
  generalize encode (.rqend) = wd at hx ⊢
  obtain ⟨op, z0⟩ := fields0 781 (by omega) (by omega)
  have r : decodeSync wd = zeroed (fld wd 0 21 == 0) (.rqend) := by simp only [decodeSync, op]
  rw [z0] at r
  exact of_raw ((decodeSync_of op (by decide)).trans r) h

theorem condw (a b) : Statement (.condw a b) := by
  intro h
  have hx : encode (.condw a b) = 1639972864 + a.toNat * 2048 + b.toNat * 64 := rfl
  generalize encode (.condw a b) = wd at hx ⊢
  obtain ⟨op, z0, z1, f0, f1⟩ := fields50 782 (by omega) a b (by omega)
  have r : decodeSync wd = zeroed (fld wd 16 5 == 0 && fld wd 0 6 == 0) (.condw (bits wd 11 5) (bits wd 6 5)) := by simp only [decodeSync, op]
  rw [z0, z1, f0, f1] at r
  exact of_raw ((decodeSync_of op (by decide)).trans r) h

theorem maprd (d a) : Statement (.maprd d a) := by
  intro h
  have hx : encode (.maprd d a) = 1642070016 + d.toNat * 65536 + a.toNat * 2048 := rfl
  generalize encode (.maprd d a) = wd at hx ⊢
  obtain ⟨op, z0, f0, f1⟩ := fields51 783 (by omega) d a (by omega)
  have r : decodeSync wd = zeroed (fld wd 0 11 == 0) (.maprd (bits wd 16 5) (bits wd 11 5)) := by simp only [decodeSync, op]
  rw [z0, f0, f1] at r
  exact of_raw ((decodeSync_of op (by decide)).trans r) h

theorem mapack (a) : Statement (.mapack a) := by
  intro h
  have hx : encode (.mapack a) = 1644167168 + a.toNat * 2048 := rfl
  generalize encode (.mapack a) = wd at hx ⊢
  obtain ⟨op, z0, z1, f0⟩ := fields11 784 (by omega) a (by omega)
  have r : decodeSync wd = zeroed (fld wd 16 5 == 0 && fld wd 0 11 == 0) (.mapack (bits wd 11 5)) := by simp only [decodeSync, op]
  rw [z0, z1, f0] at r
  exact of_raw ((decodeSync_of op (by decide)).trans r) h

theorem wjopen (a) : Statement (.wjopen a) := by
  intro h
  have hx : encode (.wjopen a) = 1646264320 + a.toNat * 2048 := rfl
  generalize encode (.wjopen a) = wd at hx ⊢
  obtain ⟨op, z0, z1, f0⟩ := fields11 785 (by omega) a (by omega)
  have r : decodeSync wd = zeroed (fld wd 16 5 == 0 && fld wd 0 11 == 0) (.wjopen (bits wd 11 5)) := by simp only [decodeSync, op]
  rw [z0, z1, f0] at r
  exact of_raw ((decodeSync_of op (by decide)).trans r) h

theorem wjput (d a b) : Statement (.wjput d a b) := by
  intro h
  have hx : encode (.wjput d a b) = 1648361472 + d.toNat * 65536 + a.toNat * 2048 + b.toNat * 64 := rfl
  generalize encode (.wjput d a b) = wd at hx ⊢
  obtain ⟨op, z0, f0, f1, f2⟩ := fields49 786 (by omega) d a b (by omega)
  have r : decodeSync wd = zeroed (fld wd 0 6 == 0) (.wjput (bits wd 16 5) (bits wd 11 5) (bits wd 6 5)) := by simp only [decodeSync, op]
  rw [z0, f0, f1, f2] at r
  exact of_raw ((decodeSync_of op (by decide)).trans r) h

theorem wjcommit : Statement (.wjcommit) := by
  intro h
  have hx : encode (.wjcommit) = 1650458624 := rfl
  generalize encode (.wjcommit) = wd at hx ⊢
  obtain ⟨op, z0⟩ := fields0 787 (by omega) (by omega)
  have r : decodeSync wd = zeroed (fld wd 0 21 == 0) (.wjcommit) := by simp only [decodeSync, op]
  rw [z0] at r
  exact of_raw ((decodeSync_of op (by decide)).trans r) h

theorem wjabort : Statement (.wjabort) := by
  intro h
  have hx : encode (.wjabort) = 1652555776 := rfl
  generalize encode (.wjabort) = wd at hx ⊢
  obtain ⟨op, z0⟩ := fields0 788 (by omega) (by omega)
  have r : decodeSync wd = zeroed (fld wd 0 21 == 0) (.wjabort) := by simp only [decodeSync, op]
  rw [z0] at r
  exact of_raw ((decodeSync_of op (by decide)).trans r) h

theorem wjstat (d a) : Statement (.wjstat d a) := by
  intro h
  have hx : encode (.wjstat d a) = 1654652928 + d.toNat * 65536 + a.toNat * 2048 := rfl
  generalize encode (.wjstat d a) = wd at hx ⊢
  obtain ⟨op, z0, f0, f1⟩ := fields51 789 (by omega) d a (by omega)
  have r : decodeSync wd = zeroed (fld wd 0 11 == 0) (.wjstat (bits wd 16 5) (bits wd 11 5)) := by simp only [decodeSync, op]
  rw [z0, f0, f1] at r
  exact of_raw ((decodeSync_of op (by decide)).trans r) h

theorem pwrhint (s) : Statement (.pwrhint s) := by
  intro h
  have hx : encode (.pwrhint s) = 1656750080 + s.toNat := rfl
  generalize encode (.pwrhint s) = wd at hx ⊢
  obtain ⟨op, z0, f0⟩ := fields52 790 (by omega) s (by omega)
  have r : decodeSync wd = zeroed (fld wd 2 19 == 0) (.pwrhint (bits wd 0 2)) := by simp only [decodeSync, op]
  rw [z0, f0] at r
  exact of_raw ((decodeSync_of op (by decide)).trans r) h

theorem cropen (i o) : Statement (.cropen i o) := by
  intro h
  have hx : encode (.cropen i o) = 1658847232 + i.toNat * 262144 + o.toNat := rfl
  generalize encode (.cropen i o) = wd at hx ⊢
  obtain ⟨op, z0, f0, f1⟩ := fields12 791 (by omega) i o (by omega)
  have r : decodeSync wd = zeroed (fld wd 16 2 == 0) (.cropen (bits wd 18 3) (bits wd 0 16)) := by simp only [decodeSync, op]
  rw [z0, f0, f1] at r
  exact of_raw ((decodeSync_of op (by decide)).trans r) h

theorem crclose (i) : Statement (.crclose i) := by
  intro h
  have hx : encode (.crclose i) = 1660944384 + i.toNat * 262144 := rfl
  generalize encode (.crclose i) = wd at hx ⊢
  obtain ⟨op, z0, f0⟩ := fields35 792 (by omega) i (by omega)
  have r : decodeSync wd = zeroed (fld wd 0 18 == 0) (.crclose (bits wd 18 3)) := by simp only [decodeSync, op]
  rw [z0, f0] at r
  exact of_raw ((decodeSync_of op (by decide)).trans r) h

theorem fret : Statement .fret := fun _ => by decide

theorem fretN : Statement .fretN := fun _ => by decide

theorem fltrd (d k) : Statement (.fltrd d k) := by
  intro h
  have hx : encode (.fltrd d k) = 1665138688 + d.toNat * 65536 + k.toNat := rfl
  generalize encode (.fltrd d k) = wd at hx ⊢
  obtain ⟨op, z0, f0, f1⟩ := fields53 794 (by omega) d k (by omega)
  have r : decodeSync wd = zeroed (fld wd 3 13 == 0) (.fltrd (bits wd 16 5) (bits wd 0 3)) := by simp only [decodeSync, op]
  rw [z0, f0, f1] at r
  exact of_raw ((decodeSync_of op (by decide)).trans r) h

theorem diagst (a b) : Statement (.diagst a b) := by
  intro h
  have hx : encode (.diagst a b) = 1667235840 + a.toNat * 2048 + b.toNat * 64 := rfl
  generalize encode (.diagst a b) = wd at hx ⊢
  obtain ⟨op, z0, z1, f0, f1⟩ := fields50 795 (by omega) a b (by omega)
  have r : decodeSync wd = zeroed (fld wd 16 5 == 0 && fld wd 0 6 == 0) (.diagst (bits wd 11 5) (bits wd 6 5)) := by simp only [decodeSync, op]
  rw [z0, z1, f0, f1] at r
  exact of_raw ((decodeSync_of op (by decide)).trans r) h

theorem diagld (d a b) : Statement (.diagld d a b) := by
  intro h
  have hx : encode (.diagld d a b) = 1669332992 + d.toNat * 65536 + a.toNat * 2048 + b.toNat * 64 := rfl
  generalize encode (.diagld d a b) = wd at hx ⊢
  obtain ⟨op, z0, f0, f1, f2⟩ := fields49 796 (by omega) d a b (by omega)
  have r : decodeSync wd = zeroed (fld wd 0 6 == 0) (.diagld (bits wd 16 5) (bits wd 11 5) (bits wd 6 5)) := by simp only [decodeSync, op]
  rw [z0, f0, f1, f2] at r
  exact of_raw ((decodeSync_of op (by decide)).trans r) h

theorem rqflt (a b) : Statement (.rqflt a b) := by
  intro h
  have hx : encode (.rqflt a b) = 1671430144 + a.toNat * 2048 + b.toNat * 64 := rfl
  generalize encode (.rqflt a b) = wd at hx ⊢
  obtain ⟨op, z0, z1, f0, f1⟩ := fields50 797 (by omega) a b (by omega)
  have r : decodeSync wd = zeroed (fld wd 16 5 == 0 && fld wd 0 6 == 0) (.rqflt (bits wd 11 5) (bits wd 6 5)) := by simp only [decodeSync, op]
  rw [z0, z1, f0, f1] at r
  exact of_raw ((decodeSync_of op (by decide)).trans r) h

theorem bundleIssue : Statement .bundleIssue := fun h => Bool.noConfusion h

theorem resultLanding : Statement .resultLanding := fun h => Bool.noConfusion h

theorem mmaLanding : Statement .mmaLanding := fun h => Bool.noConfusion h

theorem accsclLanding : Statement .accsclLanding := fun h => Bool.noConfusion h

theorem bankConflictServe : Statement .bankConflictServe := fun h => Bool.noConfusion h

theorem deferredInboundWrite : Statement .deferredInboundWrite := fun h => Bool.noConfusion h

theorem apertureWritePerform : Statement .apertureWritePerform := fun h => Bool.noConfusion h

theorem landingDataArrival : Statement .landingDataArrival := fun h => Bool.noConfusion h

theorem landingDue : Statement .landingDue := fun h => Bool.noConfusion h

theorem freezeTimeout : Statement .freezeTimeout := fun h => Bool.noConfusion h

theorem copyCommandStart : Statement .copyCommandStart := fun h => Bool.noConfusion h

theorem copyBeat : Statement .copyBeat := fun h => Bool.noConfusion h

theorem copyCommandComplete : Statement .copyCommandComplete := fun h => Bool.noConfusion h

theorem cpyxAcknowledgment : Statement .cpyxAcknowledgment := fun h => Bool.noConfusion h

theorem segmentStart : Statement .segmentStart := fun h => Bool.noConfusion h

theorem taskStart : Statement .taskStart := fun h => Bool.noConfusion h

theorem segmentEnd : Statement .segmentEnd := fun h => Bool.noConfusion h

theorem graphWalkCond : Statement .graphWalkCond := fun h => Bool.noConfusion h

theorem graphWalkWhile : Statement .graphWalkWhile := fun h => Bool.noConfusion h

theorem graphWalkEnd : Statement .graphWalkEnd := fun h => Bool.noConfusion h

theorem boundarySignal : Statement .boundarySignal := fun h => Bool.noConfusion h

theorem phaseRelease : Statement .phaseRelease := fun h => Bool.noConfusion h

theorem winnowBoundary : Statement .winnowBoundary := fun h => Bool.noConfusion h

theorem tileWake : Statement .tileWake := fun h => Bool.noConfusion h

theorem tileWakeComplete : Statement .tileWakeComplete := fun h => Bool.noConfusion h

theorem tileEntryComplete : Statement .tileEntryComplete := fun h => Bool.noConfusion h

theorem submit : Statement .submit := fun h => Bool.noConfusion h

theorem submitRetry : Statement .submitRetry := fun h => Bool.noConfusion h

theorem cancel : Statement .cancel := fun h => Bool.noConfusion h

theorem launch : Statement .launch := fun h => Bool.noConfusion h

theorem wait : Statement .wait := fun h => Bool.noConfusion h

theorem waitConditionMet : Statement .waitConditionMet := fun h => Bool.noConfusion h

theorem waitUnmapTimeout : Statement .waitUnmapTimeout := fun h => Bool.noConfusion h

theorem armTimer : Statement .armTimer := fun h => Bool.noConfusion h

theorem timerDisarm : Statement .timerDisarm := fun h => Bool.noConfusion h

theorem weightWrite : Statement .weightWrite := fun h => Bool.noConfusion h

theorem fencePacket : Statement .fencePacket := fun h => Bool.noConfusion h

theorem tailWrite : Statement .tailWrite := fun h => Bool.noConfusion h

theorem queueEnable : Statement .queueEnable := fun h => Bool.noConfusion h

theorem queueDisable : Statement .queueDisable := fun h => Bool.noConfusion h

theorem queueMap : Statement .queueMap := fun h => Bool.noConfusion h

theorem granaryWatchdogExpiry : Statement .granaryWatchdogExpiry := fun h => Bool.noConfusion h

theorem featureLock : Statement .featureLock := fun h => Bool.noConfusion h

theorem gtrefRead : Statement .gtrefRead := fun h => Bool.noConfusion h

theorem deviceRegisterWrite : Statement .deviceRegisterWrite := fun h => Bool.noConfusion h

theorem ringStart : Statement .ringStart := fun h => Bool.noConfusion h

theorem ringStop : Statement .ringStop := fun h => Bool.noConfusion h

theorem timerWheelTick : Statement .timerWheelTick := fun h => Bool.noConfusion h

theorem bindTakePartition : Statement .bindTakePartition := fun h => Bool.noConfusion h

theorem bindEnd : Statement .bindEnd := fun h => Bool.noConfusion h

theorem partitionHalt : Statement .partitionHalt := fun h => Bool.noConfusion h

theorem contextSwap : Statement .contextSwap := fun h => Bool.noConfusion h

theorem partitionResume : Statement .partitionResume := fun h => Bool.noConfusion h

theorem contextRestore : Statement .contextRestore := fun h => Bool.noConfusion h

theorem shootdownEffect : Statement .shootdownEffect := fun h => Bool.noConfusion h

theorem migrationCopyPass : Statement .migrationCopyPass := fun h => Bool.noConfusion h

theorem migrationWindowEnd : Statement .migrationWindowEnd := fun h => Bool.noConfusion h

theorem sheafChange : Statement .sheafChange := fun h => Bool.noConfusion h

theorem mapackMissed : Statement .mapackMissed := fun h => Bool.noConfusion h

theorem tileReplaced : Statement .tileReplaced := fun h => Bool.noConfusion h

theorem externalWrite : Statement .externalWrite := fun h => Bool.noConfusion h

theorem ethernetFrame : Statement .ethernetFrame := fun h => Bool.noConfusion h

theorem ptpEventMessage : Statement .ptpEventMessage := fun h => Bool.noConfusion h

theorem ptpReferenceRenewal : Statement .ptpReferenceRenewal := fun h => Bool.noConfusion h

theorem ringRepair : Statement .ringRepair := fun h => Bool.noConfusion h

theorem journalPulse : Statement .journalPulse := fun h => Bool.noConfusion h

theorem journalVerify : Statement .journalVerify := fun h => Bool.noConfusion h

theorem faultRecordWrite : Statement .faultRecordWrite := fun h => Bool.noConfusion h

theorem trapPauseTimeout : Statement .trapPauseTimeout := fun h => Bool.noConfusion h

theorem scrub : Statement .scrub := fun h => Bool.noConfusion h

theorem mramRowRewrite : Statement .mramRowRewrite := fun h => Bool.noConfusion h

theorem lpddrChannelLoss : Statement .lpddrChannelLoss := fun h => Bool.noConfusion h

theorem linkRetrain : Statement .linkRetrain := fun h => Bool.noConfusion h

theorem linkLoss : Statement .linkLoss := fun h => Bool.noConfusion h

theorem powerLoss : Statement .powerLoss := fun h => Bool.noConfusion h

theorem supplyGood : Statement .supplyGood := fun h => Bool.noConfusion h

theorem coldReset : Statement .coldReset := fun h => Bool.noConfusion h

theorem boot : Statement .boot := fun h => Bool.noConfusion h

theorem bootStepTimeout : Statement .bootStepTimeout := fun h => Bool.noConfusion h

theorem lifeCycleChange : Statement .lifeCycleChange := fun h => Bool.noConfusion h

theorem getTdispVersion : Statement .getTdispVersion := fun h => Bool.noConfusion h

theorem getTdispCapabilities : Statement .getTdispCapabilities := fun h => Bool.noConfusion h

theorem lockInterfaceRequest : Statement .lockInterfaceRequest := fun h => Bool.noConfusion h

theorem getDeviceInterfaceReport : Statement .getDeviceInterfaceReport := fun h => Bool.noConfusion h

theorem getDeviceInterfaceState : Statement .getDeviceInterfaceState := fun h => Bool.noConfusion h

theorem startInterfaceRequest : Statement .startInterfaceRequest := fun h => Bool.noConfusion h

theorem stopInterfaceRequest : Statement .stopInterfaceRequest := fun h => Bool.noConfusion h

theorem ideFailure : Statement .ideFailure := fun h => Bool.noConfusion h

theorem ptpTimeLost : Statement .ptpTimeLost := fun h => Bool.noConfusion h

theorem stagingEntryDrain : Statement .stagingEntryDrain := fun h => Bool.noConfusion h

theorem spillCopyPerform : Statement .spillCopyPerform := fun h => Bool.noConfusion h

theorem supplyCollapse : Statement .supplyCollapse := fun h => Bool.noConfusion h

end Sys2Proof.Laws.RoundTrip
end

