-- ==== Sys2Proof/Laws/Decode.lean ====
section
/-! SUPPORT. Bit 31 is no part of an instruction (R162), and every instruction's word has 31 bits. -/
namespace Sys2Proof
set_option Elab.async false
set_option maxRecDepth 4000

theorem fld_hi (w lo len : Nat) (h : lo + len ≤ 31) : fld (w + 2 ^ 31) lo len = fld w lo len := by
  unfold fld
  have : (2:Nat) ^ 31 = 2 ^ lo * (2 ^ len * 2 ^ (31 - lo - len)) := by
    rw [← Nat.pow_add, ← Nat.pow_add]; congr 1; omega
  rw [this, Nat.add_mul_div_left _ _ (by positivity), Nat.add_mul_mod_self_left]

theorem bits_hi (w lo len : Nat) (h : lo + len ≤ 31) : bits (w + 2 ^ 31) lo len = bits w lo len := by
  apply BitVec.eq_of_toNat_eq
  have := fld_hi w lo len h
  simpa [bits, fld] using this

theorem decodeRaw_hi (w : Nat) : decodeRaw (w + 2 ^ 31) = decodeRaw w := by
  have o : opcode (w + 2 ^ 31) = opcode w := fld_hi w 21 10 (by omega)
  unfold decodeRaw
  have h0 : decodeScalar (w + 2 ^ 31) = decodeScalar w := by
    unfold decodeScalar
    simp (disch := omega) only [o, fld_hi, bits_hi]
  have h1 : decodeControl (w + 2 ^ 31) = decodeControl w := by
    unfold decodeControl
    simp (disch := omega) only [o, fld_hi, bits_hi]
  have h2 : decodeVecInt (w + 2 ^ 31) = decodeVecInt w := by
    unfold decodeVecInt
    simp (disch := omega) only [o, fld_hi, bits_hi]
  have h3 : decodeVecFloat (w + 2 ^ 31) = decodeVecFloat w := by
    unfold decodeVecFloat decodeFloatSized
    simp (disch := omega) only [o, fld_hi, bits_hi]
  have h4 : decodeMatrix (w + 2 ^ 31) = decodeMatrix w := by
    unfold decodeMatrix
    simp (disch := omega) only [o, fld_hi, bits_hi]
  have h5 : decodeCopy (w + 2 ^ 31) = decodeCopy w := by
    unfold decodeCopy
    simp (disch := omega) only [o, fld_hi, bits_hi]
  have h6 : decodeSync (w + 2 ^ 31) = decodeSync w := by
    unfold decodeSync
    simp (disch := omega) only [o, fld_hi, bits_hi]
  simp only [o, h0, h1, h2, h3, h4, h5, h6]

theorem encode_lt (i : Instr) : encode i < 2 ^ 31 := by
  cases i <;> simp only [encode] <;> omega

theorem decodeWord_congr {w v : Nat} (h : decodeRaw w = decodeRaw v) : decodeWord w = decodeWord v := by
  unfold decodeWord
  rw [h]

theorem decodeWord_hi (w : Nat) : decodeWord (w + 2 ^ 31) = decodeWord w := decodeWord_congr (decodeRaw_hi w)

end Sys2Proof
end

