-- ==== Sys2Proof/Laws/Maps.lean ====
section
/-! SUPPORT. The sparse maps: reading after writing, and the canonical form that every memory operation keeps. -/
namespace Sys2Proof.Machine

variable {α : Type}

@[simp] theorem mget_nil (d : α) (k : Nat) : mget d [] k = d := rfl

theorem mget_merase (d : α) (m : Map α) (j k : Nat) : mget d (merase m j) k = if j = k then d else mget d m k := by
  induction m with
  | nil => simp [merase]
  | cons e r ih =>
    obtain ⟨a, v⟩ := e
    by_cases h : a = j
    · subst h; by_cases h' : a = k <;> simp_all [merase, mget]
    · by_cases h' : a = k <;> simp_all [merase, mget]
      intro h''; exact absurd h''.symm h

theorem mget_mset [DecidableEq α] (d : α) (m : Map α) (j k : Nat) (v : α) :
    mget d (mset d m j v) k = if j = k then v else mget d m k := by
  induction m with
  | nil => by_cases hv : v = d <;> simp [mset, mget, hv]
  | cons e r ih =>
    obtain ⟨a, w⟩ := e
    by_cases haj : a = j
    · subst haj
      by_cases hv : v = d
      · simp only [mset, if_true, hv, mget_merase, mget]; split <;> simp_all
      · simp only [mset, if_true, hv, if_false, mget, mget_merase]; split <;> simp_all
    · by_cases hjk : j < a <;> by_cases hv : v = d <;> simp only [mset, haj, hjk, hv, if_true, if_false, mget, mget_merase] <;>
        (try rw [ih]) <;> (split <;> (try split) <;> (first | rfl | omega | simp_all))

@[simp] theorem mget_mset_same [DecidableEq α] (d : α) (m : Map α) (k : Nat) (v : α) : mget d (mset d m k v) k = v := by
  simp [mget_mset]

theorem mget_mset_other [DecidableEq α] (d : α) (m : Map α) {j k : Nat} (v : α) (h : j ≠ k) : mget d (mset d m j v) k = mget d m k := by
  simp [mget_mset, h]

/-! The canonical form. -/

theorem mabove_mono {j k : Nat} (h : j ≤ k) (m : Map α) (hk : mabove k m = true) : mabove j m = true := by
  induction m with
  | nil => rfl
  | cons e r ih => simp only [mabove, Bool.and_eq_true, decide_eq_true_eq] at hk ⊢; exact ⟨by omega, ih hk.2⟩

theorem mabove_merase (j k : Nat) (m : Map α) (h : mabove j m = true) : mabove j (merase m k) = true := by
  induction m with
  | nil => rfl
  | cons e r ih =>
    simp only [mabove, Bool.and_eq_true, decide_eq_true_eq] at h
    simp only [merase]; split
    · exact ih h.2
    · simp [mabove, h.1, ih h.2]

theorem mwf_merase [DecidableEq α] (d : α) (k : Nat) (m : Map α) (h : mwf d m = true) : mwf d (merase m k) = true := by
  induction m with
  | nil => rfl
  | cons e r ih =>
    simp only [mwf, Bool.and_eq_true] at h
    simp only [merase]; split
    · exact ih h.2
    · simp only [mwf, Bool.and_eq_true]; exact ⟨⟨h.1.1, mabove_merase _ _ _ h.1.2⟩, ih h.2⟩

theorem mabove_mset [DecidableEq α] (d : α) (j k : Nat) (v : α) (m : Map α) (hjk : j < k) (h : mabove j m = true) :
    mabove j (mset d m k v) = true := by
  induction m with
  | nil => simp only [mset]; split <;> simp [mabove, hjk]
  | cons e r ih =>
    simp only [mabove, Bool.and_eq_true, decide_eq_true_eq] at h
    simp only [mset]
    split
    · split
      · exact mabove_merase _ _ _ h.2
      · simp [mabove, hjk, mabove_merase _ _ _ h.2]
    · split
      · split <;> simp [mabove, hjk, h.1, mabove_merase _ _ _ h.2]
      · simp [mabove, h.1, ih h.2]

/-- A write keeps the canonical form. -/
theorem mwf_mset [DecidableEq α] (d : α) (k : Nat) (v : α) (m : Map α) (h : mwf d m = true) : mwf d (mset d m k v) = true := by
  induction m with
  | nil => simp only [mset]; split <;> simp_all [mwf, mabove]
  | cons e r ih =>
    simp only [mwf, Bool.and_eq_true, decide_eq_true_eq] at h
    simp only [mset]
    split
    · rename_i hk
      split
      · exact mwf_merase _ _ _ h.2
      · rename_i hv
        simp only [mwf, Bool.and_eq_true, decide_eq_true_eq]
        exact ⟨⟨hv, mabove_merase _ _ _ (hk ▸ h.1.2)⟩, mwf_merase _ _ _ h.2⟩
    · rename_i hne
      split
      · rename_i hlt
        have ha : mabove k (merase r k) = true := mabove_merase _ _ _ (mabove_mono (by omega) _ h.1.2)
        split
        · simp only [mwf, Bool.and_eq_true, decide_eq_true_eq]
          exact ⟨⟨h.1.1, mabove_merase _ _ _ h.1.2⟩, mwf_merase _ _ _ h.2⟩
        · rename_i hv
          simp only [mwf, mabove, Bool.and_eq_true, decide_eq_true_eq]
          exact ⟨⟨hv, hlt, ha⟩, ⟨h.1.1, mabove_merase _ _ _ h.1.2⟩, mwf_merase _ _ _ h.2⟩
      · simp only [mwf, Bool.and_eq_true, decide_eq_true_eq]
        exact ⟨⟨h.1.1, mabove_mset _ _ _ _ _ (by omega) h.1.2⟩, ih h.2⟩

/-- Canonical maps that read alike are equal. -/
theorem mwf_ext [DecidableEq α] (d : α) : ∀ (m n : Map α), mwf d m = true → mwf d n = true → (∀ k, mget d m k = mget d n k) → m = n := by
  have above : ∀ (m : Map α) (j k : Nat), mabove j m = true → k ≤ j → mget d m k = d := by
    intro m
    induction m with
    | nil => intros; rfl
    | cons e r ih =>
      intro j k h hk
      simp only [mabove, Bool.and_eq_true, decide_eq_true_eq] at h
      simp only [mget, show ¬ e.1 = k by omega, if_false]
      exact ih j k h.2 hk
  intro m
  induction m with
  | nil =>
    intro n _ hn heq
    cases n with
    | nil => rfl
    | cons e r =>
      simp only [mwf, Bool.and_eq_true, decide_eq_true_eq] at hn
      have := heq e.1; simp only [mget, if_true] at this
      exact absurd this.symm hn.1.1
  | cons e r ih =>
    intro n hm hn heq
    simp only [mwf, Bool.and_eq_true, decide_eq_true_eq] at hm
    cases n with
    | nil =>
      have := heq e.1; simp only [mget, if_true] at this
      exact absurd this hm.1.1
    | cons f t =>
      simp only [mwf, Bool.and_eq_true, decide_eq_true_eq] at hn
      have hkey : e.1 = f.1 := by
        rcases Nat.lt_trichotomy e.1 f.1 with h | h | h
        · have := heq e.1
          simp only [mget, if_true, show ¬ f.1 = e.1 by omega, if_false, above t f.1 e.1 hn.1.2 (by omega)] at this
          exact absurd this hm.1.1
        · exact h
        · have := heq f.1
          simp only [mget, if_true, show ¬ e.1 = f.1 by omega, if_false, above r e.1 f.1 hm.1.2 (by omega)] at this
          exact absurd this.symm hn.1.1
      have hval : e.2 = f.2 := by have := heq e.1; simpa [mget, hkey] using this
      have htl : r = t := by
        refine ih t hm.2 hn.2 fun k => ?_
        by_cases hk : k ≤ e.1
        · rw [above r e.1 k hm.1.2 hk, above t f.1 k hn.1.2 (by omega)]
        · have := heq k
          simpa [mget, show ¬ e.1 = k by omega, show ¬ f.1 = k by omega] using this
      rw [htl, show e = f from Prod.ext hkey hval]

/-! Byte memory. -/

theorem wf_putBytes (m : List Host.Cell) (a : Nat) (bs : List Byte) (h : Memory.wf m = true) : Memory.wf (putBytes m a bs) = true := by
  induction bs generalizing m a with
  | nil => exact h
  | cons b bs ih => exact ih _ _ (mwf_mset _ _ _ _ h)

theorem wf_putCells (m : List Host.Cell) (w : Map Byte) (h : Memory.wf m = true) : Memory.wf (putCells m w) = true := by
  induction w generalizing m with
  | nil => exact h
  | cons c w ih => exact ih _ (mwf_mset _ _ _ _ h)

theorem mabove_filter (j : Nat) (p : Nat × α → Bool) (m : Map α) (h : mabove j m = true) : mabove j (m.filter p) = true := by
  induction m with
  | nil => rfl
  | cons e r ih =>
    simp only [mabove, Bool.and_eq_true, decide_eq_true_eq] at h
    simp only [List.filter_cons]; split
    · simp [mabove, h.1, ih h.2]
    · exact ih h.2

theorem mwf_filter [DecidableEq α] (d : α) (p : Nat × α → Bool) (m : Map α) (h : mwf d m = true) : mwf d (m.filter p) = true := by
  induction m with
  | nil => rfl
  | cons e r ih =>
    simp only [mwf, Bool.and_eq_true] at h
    simp only [List.filter_cons]; split
    · simp only [mwf, Bool.and_eq_true]; exact ⟨⟨h.1.1, mabove_filter _ _ _ h.1.2⟩, ih h.2⟩
    · exact ih h.2

/-- A byte after a write of consecutive bytes: inside, the byte written; elsewhere what stood there. -/
theorem byteAt_putBytes (m : List Host.Cell) (a : Nat) (bs : List Byte) (k : Nat) :
    byteAt (putBytes m a bs) k = if a ≤ k ∧ k < a + bs.length then bs.getD (k - a) 0 else byteAt m k := by
  induction bs generalizing m a with
  | nil => simp [putBytes]
  | cons b bs ih =>
    simp only [putBytes, ih, List.length_cons]
    by_cases h : a = k
    · subst h; simp [byteAt]
    · simp only [byteAt, mget_mset_other _ _ _ h]
      by_cases h1 : a + 1 ≤ k ∧ k < a + 1 + bs.length
      · rw [if_pos h1, if_pos (by omega), show k - a = (k - (a + 1)) + 1 by omega, List.getD_cons_succ]
      · rw [if_neg h1, if_neg (by omega)]

/-- A byte that no cell of a write names stays. -/
theorem byteAt_putCells_other (m : List Host.Cell) (w : Map Byte) (k : Nat) (h : ∀ c ∈ w, c.1 ≠ k) :
    byteAt (putCells m w) k = byteAt m k := by
  induction w generalizing m with
  | nil => rfl
  | cons c w ih =>
    simp only [putCells]
    rw [ih _ fun c hc => h c (List.mem_cons_of_mem _ hc)]
    simp [byteAt, mget_mset_other _ _ _ (h c List.mem_cons_self)]

/-! Byte strings. -/

@[simp] theorem length_leBytes (n v : Nat) : (leBytes n v).length = n := by
  induction n generalizing v with
  | zero => rfl
  | succ n ih => simp [leBytes, ih]

@[simp] theorem length_bytesAt (m : List Host.Cell) (a n : Nat) : (bytesAt m a n).length = n := by
  induction n generalizing a with
  | zero => rfl
  | succ n ih => simp [bytesAt, ih]

theorem leNat_leBytes (n v : Nat) : leNat (leBytes n v) = v % 256 ^ n := by
  induction n generalizing v with
  | zero => simp [leBytes, leNat, Nat.mod_one]
  | succ n ih =>
    have h : v % 256 ^ (n + 1) = v % 256 + 256 * (v / 256 % 256 ^ n) := by
      rw [Nat.pow_succ, Nat.mul_comm (256 ^ n) 256, Nat.mod_mul]
    rw [h, ← ih]; rfl

theorem leNat_lt (bs : List Byte) : leNat bs < 256 ^ bs.length := by
  induction bs with
  | nil => simp [leNat]
  | cons b bs ih =>
    have := b.isLt
    simp only [leNat, List.length_cons, Nat.pow_succ]
    omega

theorem leNat_append (xs ys : List Byte) : leNat (xs ++ ys) = leNat xs + 256 ^ xs.length * leNat ys := by
  induction xs with
  | nil => simp [leNat]
  | cons x xs ih => simp only [List.cons_append, leNat, ih, List.length_cons, Nat.pow_succ]; ring

end Sys2Proof.Machine
end

