-- ==== Sys2Proof/Laws/State.lean ====
section
/-! SUPPORT. What each update of the state leaves alone: one lemma for each field and update, true by unfolding. -/
namespace Sys2Proof.Machine

/-! `setTile` changes `tiles` alone. -/

@[simp] theorem State.setTile_gtick (s : State) (t : Nat) (x : Tile) : (s.setTile t x).gtick = s.gtick := rfl
@[simp] theorem State.setTile_cur (s : State) (t : Nat) (x : Tile) : (s.setTile t x).cur = s.cur := rfl
@[simp] theorem State.setTile_dies (s : State) (t : Nat) (x : Tile) : (s.setTile t x).dies = s.dies := rfl
@[simp] theorem State.setTile_mem (s : State) (t : Nat) (x : Tile) : (s.setTile t x).mem = s.mem := rfl
@[simp] theorem State.setTile_sectors (s : State) (t : Nat) (x : Tile) : (s.setTile t x).sectors = s.sectors := rfl
@[simp] theorem State.setTile_forward (s : State) (t : Nat) (x : Tile) : (s.setTile t x).forward = s.forward := rfl
@[simp] theorem State.setTile_aperture (s : State) (t : Nat) (x : Tile) : (s.setTile t x).aperture = s.aperture := rfl
@[simp] theorem State.setTile_ingress (s : State) (t : Nat) (x : Tile) : (s.setTile t x).ingress = s.ingress := rfl
@[simp] theorem State.setTile_ctxs (s : State) (t : Nat) (x : Tile) : (s.setTile t x).ctxs = s.ctxs := rfl
@[simp] theorem State.setTile_binds (s : State) (t : Nat) (x : Tile) : (s.setTile t x).binds = s.binds := rfl
@[simp] theorem State.setTile_sheaf (s : State) (t : Nat) (x : Tile) : (s.setTile t x).sheaf = s.sheaf := rfl
@[simp] theorem State.setTile_queues (s : State) (t : Nat) (x : Tile) : (s.setTile t x).queues = s.queues := rfl
@[simp] theorem State.setTile_lastMapped (s : State) (t : Nat) (x : Tile) : (s.setTile t x).lastMapped = s.lastMapped := rfl
@[simp] theorem State.setTile_timers (s : State) (t : Nat) (x : Tile) : (s.setTile t x).timers = s.timers := rfl
@[simp] theorem State.setTile_rings (s : State) (t : Nat) (x : Tile) : (s.setTile t x).rings = s.rings := rfl
@[simp] theorem State.setTile_regs (s : State) (t : Nat) (x : Tile) : (s.setTile t x).regs = s.regs := rfl
@[simp] theorem State.setTile_tdis (s : State) (t : Nat) (x : Tile) : (s.setTile t x).tdis = s.tdis := rfl
@[simp] theorem State.setTile_owners (s : State) (t : Nat) (x : Tile) : (s.setTile t x).owners = s.owners := rfl
@[simp] theorem State.setTile_migrations (s : State) (t : Nat) (x : Tile) : (s.setTile t x).migrations = s.migrations := rfl
@[simp] theorem State.setTile_forwarding (s : State) (t : Nat) (x : Tile) : (s.setTile t x).forwarding = s.forwarding := rfl
@[simp] theorem State.setTile_boot (s : State) (t : Nat) (x : Tile) : (s.setTile t x).boot = s.boot := rfl
@[simp] theorem State.setTile_log (s : State) (t : Nat) (x : Tile) : (s.setTile t x).log = s.log := rfl
@[simp] theorem State.setTile_discards (s : State) (t : Nat) (x : Tile) : (s.setTile t x).discards = s.discards := rfl
@[simp] theorem State.setTile_portsUp (s : State) (t : Nat) (x : Tile) : (s.setTile t x).portsUp = s.portsUp := rfl
@[simp] theorem State.setTile_shares (s : State) (t : Nat) (x : Tile) : (s.setTile t x).shares = s.shares := rfl
@[simp] theorem State.setTile_power (s : State) (t : Nat) (x : Tile) : (s.setTile t x).power = s.power := rfl
@[simp] theorem State.setTile_powerLost (s : State) (t : Nat) (x : Tile) : (s.setTile t x).powerLost = s.powerLost := rfl
@[simp] theorem State.setTile_boots (s : State) (t : Nat) (x : Tile) : (s.setTile t x).boots = s.boots := rfl
@[simp] theorem State.setTile_rebuilding (s : State) (t : Nat) (x : Tile) : (s.setTile t x).rebuilding = s.rebuilding := rfl
@[simp] theorem State.setTile_agenda (s : State) (t : Nat) (x : Tile) : (s.setTile t x).agenda = s.agenda := rfl
@[simp] theorem State.setTile_free (s : State) (t : Nat) (x : Tile) : (s.setTile t x).free = s.free := rfl

/-! `setCtx` changes `ctxs` alone. -/

@[simp] theorem State.setCtx_gtick (s : State) (k : Nat) (x : Ctx) : (s.setCtx k x).gtick = s.gtick := rfl
@[simp] theorem State.setCtx_cur (s : State) (k : Nat) (x : Ctx) : (s.setCtx k x).cur = s.cur := rfl
@[simp] theorem State.setCtx_tiles (s : State) (k : Nat) (x : Ctx) : (s.setCtx k x).tiles = s.tiles := rfl
@[simp] theorem State.setCtx_dies (s : State) (k : Nat) (x : Ctx) : (s.setCtx k x).dies = s.dies := rfl
@[simp] theorem State.setCtx_mem (s : State) (k : Nat) (x : Ctx) : (s.setCtx k x).mem = s.mem := rfl
@[simp] theorem State.setCtx_sectors (s : State) (k : Nat) (x : Ctx) : (s.setCtx k x).sectors = s.sectors := rfl
@[simp] theorem State.setCtx_forward (s : State) (k : Nat) (x : Ctx) : (s.setCtx k x).forward = s.forward := rfl
@[simp] theorem State.setCtx_aperture (s : State) (k : Nat) (x : Ctx) : (s.setCtx k x).aperture = s.aperture := rfl
@[simp] theorem State.setCtx_ingress (s : State) (k : Nat) (x : Ctx) : (s.setCtx k x).ingress = s.ingress := rfl
@[simp] theorem State.setCtx_binds (s : State) (k : Nat) (x : Ctx) : (s.setCtx k x).binds = s.binds := rfl
@[simp] theorem State.setCtx_sheaf (s : State) (k : Nat) (x : Ctx) : (s.setCtx k x).sheaf = s.sheaf := rfl
@[simp] theorem State.setCtx_queues (s : State) (k : Nat) (x : Ctx) : (s.setCtx k x).queues = s.queues := rfl
@[simp] theorem State.setCtx_lastMapped (s : State) (k : Nat) (x : Ctx) : (s.setCtx k x).lastMapped = s.lastMapped := rfl
@[simp] theorem State.setCtx_timers (s : State) (k : Nat) (x : Ctx) : (s.setCtx k x).timers = s.timers := rfl
@[simp] theorem State.setCtx_rings (s : State) (k : Nat) (x : Ctx) : (s.setCtx k x).rings = s.rings := rfl
@[simp] theorem State.setCtx_regs (s : State) (k : Nat) (x : Ctx) : (s.setCtx k x).regs = s.regs := rfl
@[simp] theorem State.setCtx_tdis (s : State) (k : Nat) (x : Ctx) : (s.setCtx k x).tdis = s.tdis := rfl
@[simp] theorem State.setCtx_owners (s : State) (k : Nat) (x : Ctx) : (s.setCtx k x).owners = s.owners := rfl
@[simp] theorem State.setCtx_migrations (s : State) (k : Nat) (x : Ctx) : (s.setCtx k x).migrations = s.migrations := rfl
@[simp] theorem State.setCtx_forwarding (s : State) (k : Nat) (x : Ctx) : (s.setCtx k x).forwarding = s.forwarding := rfl
@[simp] theorem State.setCtx_boot (s : State) (k : Nat) (x : Ctx) : (s.setCtx k x).boot = s.boot := rfl
@[simp] theorem State.setCtx_log (s : State) (k : Nat) (x : Ctx) : (s.setCtx k x).log = s.log := rfl
@[simp] theorem State.setCtx_discards (s : State) (k : Nat) (x : Ctx) : (s.setCtx k x).discards = s.discards := rfl
@[simp] theorem State.setCtx_portsUp (s : State) (k : Nat) (x : Ctx) : (s.setCtx k x).portsUp = s.portsUp := rfl
@[simp] theorem State.setCtx_shares (s : State) (k : Nat) (x : Ctx) : (s.setCtx k x).shares = s.shares := rfl
@[simp] theorem State.setCtx_power (s : State) (k : Nat) (x : Ctx) : (s.setCtx k x).power = s.power := rfl
@[simp] theorem State.setCtx_powerLost (s : State) (k : Nat) (x : Ctx) : (s.setCtx k x).powerLost = s.powerLost := rfl
@[simp] theorem State.setCtx_boots (s : State) (k : Nat) (x : Ctx) : (s.setCtx k x).boots = s.boots := rfl
@[simp] theorem State.setCtx_rebuilding (s : State) (k : Nat) (x : Ctx) : (s.setCtx k x).rebuilding = s.rebuilding := rfl
@[simp] theorem State.setCtx_agenda (s : State) (k : Nat) (x : Ctx) : (s.setCtx k x).agenda = s.agenda := rfl
@[simp] theorem State.setCtx_free (s : State) (k : Nat) (x : Ctx) : (s.setCtx k x).free = s.free := rfl

/-! `setDie` changes `dies` alone. -/

@[simp] theorem State.setDie_gtick (s : State) (k : Nat) (x : Die) : (s.setDie k x).gtick = s.gtick := rfl
@[simp] theorem State.setDie_cur (s : State) (k : Nat) (x : Die) : (s.setDie k x).cur = s.cur := rfl
@[simp] theorem State.setDie_tiles (s : State) (k : Nat) (x : Die) : (s.setDie k x).tiles = s.tiles := rfl
@[simp] theorem State.setDie_mem (s : State) (k : Nat) (x : Die) : (s.setDie k x).mem = s.mem := rfl
@[simp] theorem State.setDie_sectors (s : State) (k : Nat) (x : Die) : (s.setDie k x).sectors = s.sectors := rfl
@[simp] theorem State.setDie_forward (s : State) (k : Nat) (x : Die) : (s.setDie k x).forward = s.forward := rfl
@[simp] theorem State.setDie_aperture (s : State) (k : Nat) (x : Die) : (s.setDie k x).aperture = s.aperture := rfl
@[simp] theorem State.setDie_ingress (s : State) (k : Nat) (x : Die) : (s.setDie k x).ingress = s.ingress := rfl
@[simp] theorem State.setDie_ctxs (s : State) (k : Nat) (x : Die) : (s.setDie k x).ctxs = s.ctxs := rfl
@[simp] theorem State.setDie_binds (s : State) (k : Nat) (x : Die) : (s.setDie k x).binds = s.binds := rfl
@[simp] theorem State.setDie_sheaf (s : State) (k : Nat) (x : Die) : (s.setDie k x).sheaf = s.sheaf := rfl
@[simp] theorem State.setDie_queues (s : State) (k : Nat) (x : Die) : (s.setDie k x).queues = s.queues := rfl
@[simp] theorem State.setDie_lastMapped (s : State) (k : Nat) (x : Die) : (s.setDie k x).lastMapped = s.lastMapped := rfl
@[simp] theorem State.setDie_timers (s : State) (k : Nat) (x : Die) : (s.setDie k x).timers = s.timers := rfl
@[simp] theorem State.setDie_rings (s : State) (k : Nat) (x : Die) : (s.setDie k x).rings = s.rings := rfl
@[simp] theorem State.setDie_regs (s : State) (k : Nat) (x : Die) : (s.setDie k x).regs = s.regs := rfl
@[simp] theorem State.setDie_tdis (s : State) (k : Nat) (x : Die) : (s.setDie k x).tdis = s.tdis := rfl
@[simp] theorem State.setDie_owners (s : State) (k : Nat) (x : Die) : (s.setDie k x).owners = s.owners := rfl
@[simp] theorem State.setDie_migrations (s : State) (k : Nat) (x : Die) : (s.setDie k x).migrations = s.migrations := rfl
@[simp] theorem State.setDie_forwarding (s : State) (k : Nat) (x : Die) : (s.setDie k x).forwarding = s.forwarding := rfl
@[simp] theorem State.setDie_boot (s : State) (k : Nat) (x : Die) : (s.setDie k x).boot = s.boot := rfl
@[simp] theorem State.setDie_log (s : State) (k : Nat) (x : Die) : (s.setDie k x).log = s.log := rfl
@[simp] theorem State.setDie_discards (s : State) (k : Nat) (x : Die) : (s.setDie k x).discards = s.discards := rfl
@[simp] theorem State.setDie_portsUp (s : State) (k : Nat) (x : Die) : (s.setDie k x).portsUp = s.portsUp := rfl
@[simp] theorem State.setDie_shares (s : State) (k : Nat) (x : Die) : (s.setDie k x).shares = s.shares := rfl
@[simp] theorem State.setDie_power (s : State) (k : Nat) (x : Die) : (s.setDie k x).power = s.power := rfl
@[simp] theorem State.setDie_powerLost (s : State) (k : Nat) (x : Die) : (s.setDie k x).powerLost = s.powerLost := rfl
@[simp] theorem State.setDie_boots (s : State) (k : Nat) (x : Die) : (s.setDie k x).boots = s.boots := rfl
@[simp] theorem State.setDie_rebuilding (s : State) (k : Nat) (x : Die) : (s.setDie k x).rebuilding = s.rebuilding := rfl
@[simp] theorem State.setDie_agenda (s : State) (k : Nat) (x : Die) : (s.setDie k x).agenda = s.agenda := rfl
@[simp] theorem State.setDie_free (s : State) (k : Nat) (x : Die) : (s.setDie k x).free = s.free := rfl

/-! `setQueue` changes `queues` alone. -/

@[simp] theorem State.setQueue_gtick (s : State) (k : Nat) (x : Queue) : (s.setQueue k x).gtick = s.gtick := rfl
@[simp] theorem State.setQueue_cur (s : State) (k : Nat) (x : Queue) : (s.setQueue k x).cur = s.cur := rfl
@[simp] theorem State.setQueue_tiles (s : State) (k : Nat) (x : Queue) : (s.setQueue k x).tiles = s.tiles := rfl
@[simp] theorem State.setQueue_dies (s : State) (k : Nat) (x : Queue) : (s.setQueue k x).dies = s.dies := rfl
@[simp] theorem State.setQueue_mem (s : State) (k : Nat) (x : Queue) : (s.setQueue k x).mem = s.mem := rfl
@[simp] theorem State.setQueue_sectors (s : State) (k : Nat) (x : Queue) : (s.setQueue k x).sectors = s.sectors := rfl
@[simp] theorem State.setQueue_forward (s : State) (k : Nat) (x : Queue) : (s.setQueue k x).forward = s.forward := rfl
@[simp] theorem State.setQueue_aperture (s : State) (k : Nat) (x : Queue) : (s.setQueue k x).aperture = s.aperture := rfl
@[simp] theorem State.setQueue_ingress (s : State) (k : Nat) (x : Queue) : (s.setQueue k x).ingress = s.ingress := rfl
@[simp] theorem State.setQueue_ctxs (s : State) (k : Nat) (x : Queue) : (s.setQueue k x).ctxs = s.ctxs := rfl
@[simp] theorem State.setQueue_binds (s : State) (k : Nat) (x : Queue) : (s.setQueue k x).binds = s.binds := rfl
@[simp] theorem State.setQueue_sheaf (s : State) (k : Nat) (x : Queue) : (s.setQueue k x).sheaf = s.sheaf := rfl
@[simp] theorem State.setQueue_lastMapped (s : State) (k : Nat) (x : Queue) : (s.setQueue k x).lastMapped = s.lastMapped := rfl
@[simp] theorem State.setQueue_timers (s : State) (k : Nat) (x : Queue) : (s.setQueue k x).timers = s.timers := rfl
@[simp] theorem State.setQueue_rings (s : State) (k : Nat) (x : Queue) : (s.setQueue k x).rings = s.rings := rfl
@[simp] theorem State.setQueue_regs (s : State) (k : Nat) (x : Queue) : (s.setQueue k x).regs = s.regs := rfl
@[simp] theorem State.setQueue_tdis (s : State) (k : Nat) (x : Queue) : (s.setQueue k x).tdis = s.tdis := rfl
@[simp] theorem State.setQueue_owners (s : State) (k : Nat) (x : Queue) : (s.setQueue k x).owners = s.owners := rfl
@[simp] theorem State.setQueue_migrations (s : State) (k : Nat) (x : Queue) : (s.setQueue k x).migrations = s.migrations := rfl
@[simp] theorem State.setQueue_forwarding (s : State) (k : Nat) (x : Queue) : (s.setQueue k x).forwarding = s.forwarding := rfl
@[simp] theorem State.setQueue_boot (s : State) (k : Nat) (x : Queue) : (s.setQueue k x).boot = s.boot := rfl
@[simp] theorem State.setQueue_log (s : State) (k : Nat) (x : Queue) : (s.setQueue k x).log = s.log := rfl
@[simp] theorem State.setQueue_discards (s : State) (k : Nat) (x : Queue) : (s.setQueue k x).discards = s.discards := rfl
@[simp] theorem State.setQueue_portsUp (s : State) (k : Nat) (x : Queue) : (s.setQueue k x).portsUp = s.portsUp := rfl
@[simp] theorem State.setQueue_shares (s : State) (k : Nat) (x : Queue) : (s.setQueue k x).shares = s.shares := rfl
@[simp] theorem State.setQueue_power (s : State) (k : Nat) (x : Queue) : (s.setQueue k x).power = s.power := rfl
@[simp] theorem State.setQueue_powerLost (s : State) (k : Nat) (x : Queue) : (s.setQueue k x).powerLost = s.powerLost := rfl
@[simp] theorem State.setQueue_boots (s : State) (k : Nat) (x : Queue) : (s.setQueue k x).boots = s.boots := rfl
@[simp] theorem State.setQueue_rebuilding (s : State) (k : Nat) (x : Queue) : (s.setQueue k x).rebuilding = s.rebuilding := rfl
@[simp] theorem State.setQueue_agenda (s : State) (k : Nat) (x : Queue) : (s.setQueue k x).agenda = s.agenda := rfl
@[simp] theorem State.setQueue_free (s : State) (k : Nat) (x : Queue) : (s.setQueue k x).free = s.free := rfl

/-! `setTdi` changes `tdis` alone. -/

@[simp] theorem State.setTdi_gtick (s : State) (k : Nat) (x : Tdi) : (s.setTdi k x).gtick = s.gtick := rfl
@[simp] theorem State.setTdi_cur (s : State) (k : Nat) (x : Tdi) : (s.setTdi k x).cur = s.cur := rfl
@[simp] theorem State.setTdi_tiles (s : State) (k : Nat) (x : Tdi) : (s.setTdi k x).tiles = s.tiles := rfl
@[simp] theorem State.setTdi_dies (s : State) (k : Nat) (x : Tdi) : (s.setTdi k x).dies = s.dies := rfl
@[simp] theorem State.setTdi_mem (s : State) (k : Nat) (x : Tdi) : (s.setTdi k x).mem = s.mem := rfl
@[simp] theorem State.setTdi_sectors (s : State) (k : Nat) (x : Tdi) : (s.setTdi k x).sectors = s.sectors := rfl
@[simp] theorem State.setTdi_forward (s : State) (k : Nat) (x : Tdi) : (s.setTdi k x).forward = s.forward := rfl
@[simp] theorem State.setTdi_aperture (s : State) (k : Nat) (x : Tdi) : (s.setTdi k x).aperture = s.aperture := rfl
@[simp] theorem State.setTdi_ingress (s : State) (k : Nat) (x : Tdi) : (s.setTdi k x).ingress = s.ingress := rfl
@[simp] theorem State.setTdi_ctxs (s : State) (k : Nat) (x : Tdi) : (s.setTdi k x).ctxs = s.ctxs := rfl
@[simp] theorem State.setTdi_binds (s : State) (k : Nat) (x : Tdi) : (s.setTdi k x).binds = s.binds := rfl
@[simp] theorem State.setTdi_sheaf (s : State) (k : Nat) (x : Tdi) : (s.setTdi k x).sheaf = s.sheaf := rfl
@[simp] theorem State.setTdi_queues (s : State) (k : Nat) (x : Tdi) : (s.setTdi k x).queues = s.queues := rfl
@[simp] theorem State.setTdi_lastMapped (s : State) (k : Nat) (x : Tdi) : (s.setTdi k x).lastMapped = s.lastMapped := rfl
@[simp] theorem State.setTdi_timers (s : State) (k : Nat) (x : Tdi) : (s.setTdi k x).timers = s.timers := rfl
@[simp] theorem State.setTdi_rings (s : State) (k : Nat) (x : Tdi) : (s.setTdi k x).rings = s.rings := rfl
@[simp] theorem State.setTdi_regs (s : State) (k : Nat) (x : Tdi) : (s.setTdi k x).regs = s.regs := rfl
@[simp] theorem State.setTdi_owners (s : State) (k : Nat) (x : Tdi) : (s.setTdi k x).owners = s.owners := rfl
@[simp] theorem State.setTdi_migrations (s : State) (k : Nat) (x : Tdi) : (s.setTdi k x).migrations = s.migrations := rfl
@[simp] theorem State.setTdi_forwarding (s : State) (k : Nat) (x : Tdi) : (s.setTdi k x).forwarding = s.forwarding := rfl
@[simp] theorem State.setTdi_boot (s : State) (k : Nat) (x : Tdi) : (s.setTdi k x).boot = s.boot := rfl
@[simp] theorem State.setTdi_log (s : State) (k : Nat) (x : Tdi) : (s.setTdi k x).log = s.log := rfl
@[simp] theorem State.setTdi_discards (s : State) (k : Nat) (x : Tdi) : (s.setTdi k x).discards = s.discards := rfl
@[simp] theorem State.setTdi_portsUp (s : State) (k : Nat) (x : Tdi) : (s.setTdi k x).portsUp = s.portsUp := rfl
@[simp] theorem State.setTdi_shares (s : State) (k : Nat) (x : Tdi) : (s.setTdi k x).shares = s.shares := rfl
@[simp] theorem State.setTdi_power (s : State) (k : Nat) (x : Tdi) : (s.setTdi k x).power = s.power := rfl
@[simp] theorem State.setTdi_powerLost (s : State) (k : Nat) (x : Tdi) : (s.setTdi k x).powerLost = s.powerLost := rfl
@[simp] theorem State.setTdi_boots (s : State) (k : Nat) (x : Tdi) : (s.setTdi k x).boots = s.boots := rfl
@[simp] theorem State.setTdi_rebuilding (s : State) (k : Nat) (x : Tdi) : (s.setTdi k x).rebuilding = s.rebuilding := rfl
@[simp] theorem State.setTdi_agenda (s : State) (k : Nat) (x : Tdi) : (s.setTdi k x).agenda = s.agenda := rfl
@[simp] theorem State.setTdi_free (s : State) (k : Nat) (x : Tdi) : (s.setTdi k x).free = s.free := rfl

/-! `setRing` changes `rings` alone. -/

@[simp] theorem State.setRing_gtick (s : State) (k : Nat) (x : Ring) : (s.setRing k x).gtick = s.gtick := rfl
@[simp] theorem State.setRing_cur (s : State) (k : Nat) (x : Ring) : (s.setRing k x).cur = s.cur := rfl
@[simp] theorem State.setRing_tiles (s : State) (k : Nat) (x : Ring) : (s.setRing k x).tiles = s.tiles := rfl
@[simp] theorem State.setRing_dies (s : State) (k : Nat) (x : Ring) : (s.setRing k x).dies = s.dies := rfl
@[simp] theorem State.setRing_mem (s : State) (k : Nat) (x : Ring) : (s.setRing k x).mem = s.mem := rfl
@[simp] theorem State.setRing_sectors (s : State) (k : Nat) (x : Ring) : (s.setRing k x).sectors = s.sectors := rfl
@[simp] theorem State.setRing_forward (s : State) (k : Nat) (x : Ring) : (s.setRing k x).forward = s.forward := rfl
@[simp] theorem State.setRing_aperture (s : State) (k : Nat) (x : Ring) : (s.setRing k x).aperture = s.aperture := rfl
@[simp] theorem State.setRing_ingress (s : State) (k : Nat) (x : Ring) : (s.setRing k x).ingress = s.ingress := rfl
@[simp] theorem State.setRing_ctxs (s : State) (k : Nat) (x : Ring) : (s.setRing k x).ctxs = s.ctxs := rfl
@[simp] theorem State.setRing_binds (s : State) (k : Nat) (x : Ring) : (s.setRing k x).binds = s.binds := rfl
@[simp] theorem State.setRing_sheaf (s : State) (k : Nat) (x : Ring) : (s.setRing k x).sheaf = s.sheaf := rfl
@[simp] theorem State.setRing_queues (s : State) (k : Nat) (x : Ring) : (s.setRing k x).queues = s.queues := rfl
@[simp] theorem State.setRing_lastMapped (s : State) (k : Nat) (x : Ring) : (s.setRing k x).lastMapped = s.lastMapped := rfl
@[simp] theorem State.setRing_timers (s : State) (k : Nat) (x : Ring) : (s.setRing k x).timers = s.timers := rfl
@[simp] theorem State.setRing_regs (s : State) (k : Nat) (x : Ring) : (s.setRing k x).regs = s.regs := rfl
@[simp] theorem State.setRing_tdis (s : State) (k : Nat) (x : Ring) : (s.setRing k x).tdis = s.tdis := rfl
@[simp] theorem State.setRing_owners (s : State) (k : Nat) (x : Ring) : (s.setRing k x).owners = s.owners := rfl
@[simp] theorem State.setRing_migrations (s : State) (k : Nat) (x : Ring) : (s.setRing k x).migrations = s.migrations := rfl
@[simp] theorem State.setRing_forwarding (s : State) (k : Nat) (x : Ring) : (s.setRing k x).forwarding = s.forwarding := rfl
@[simp] theorem State.setRing_boot (s : State) (k : Nat) (x : Ring) : (s.setRing k x).boot = s.boot := rfl
@[simp] theorem State.setRing_log (s : State) (k : Nat) (x : Ring) : (s.setRing k x).log = s.log := rfl
@[simp] theorem State.setRing_discards (s : State) (k : Nat) (x : Ring) : (s.setRing k x).discards = s.discards := rfl
@[simp] theorem State.setRing_portsUp (s : State) (k : Nat) (x : Ring) : (s.setRing k x).portsUp = s.portsUp := rfl
@[simp] theorem State.setRing_shares (s : State) (k : Nat) (x : Ring) : (s.setRing k x).shares = s.shares := rfl
@[simp] theorem State.setRing_power (s : State) (k : Nat) (x : Ring) : (s.setRing k x).power = s.power := rfl
@[simp] theorem State.setRing_powerLost (s : State) (k : Nat) (x : Ring) : (s.setRing k x).powerLost = s.powerLost := rfl
@[simp] theorem State.setRing_boots (s : State) (k : Nat) (x : Ring) : (s.setRing k x).boots = s.boots := rfl
@[simp] theorem State.setRing_rebuilding (s : State) (k : Nat) (x : Ring) : (s.setRing k x).rebuilding = s.rebuilding := rfl
@[simp] theorem State.setRing_agenda (s : State) (k : Nat) (x : Ring) : (s.setRing k x).agenda = s.agenda := rfl
@[simp] theorem State.setRing_free (s : State) (k : Nat) (x : Ring) : (s.setRing k x).free = s.free := rfl

/-! `setTimer` changes `timers` alone. -/

@[simp] theorem State.setTimer_gtick (s : State) (k : Nat) (x : Timer) : (s.setTimer k x).gtick = s.gtick := rfl
@[simp] theorem State.setTimer_cur (s : State) (k : Nat) (x : Timer) : (s.setTimer k x).cur = s.cur := rfl
@[simp] theorem State.setTimer_tiles (s : State) (k : Nat) (x : Timer) : (s.setTimer k x).tiles = s.tiles := rfl
@[simp] theorem State.setTimer_dies (s : State) (k : Nat) (x : Timer) : (s.setTimer k x).dies = s.dies := rfl
@[simp] theorem State.setTimer_mem (s : State) (k : Nat) (x : Timer) : (s.setTimer k x).mem = s.mem := rfl
@[simp] theorem State.setTimer_sectors (s : State) (k : Nat) (x : Timer) : (s.setTimer k x).sectors = s.sectors := rfl
@[simp] theorem State.setTimer_forward (s : State) (k : Nat) (x : Timer) : (s.setTimer k x).forward = s.forward := rfl
@[simp] theorem State.setTimer_aperture (s : State) (k : Nat) (x : Timer) : (s.setTimer k x).aperture = s.aperture := rfl
@[simp] theorem State.setTimer_ingress (s : State) (k : Nat) (x : Timer) : (s.setTimer k x).ingress = s.ingress := rfl
@[simp] theorem State.setTimer_ctxs (s : State) (k : Nat) (x : Timer) : (s.setTimer k x).ctxs = s.ctxs := rfl
@[simp] theorem State.setTimer_binds (s : State) (k : Nat) (x : Timer) : (s.setTimer k x).binds = s.binds := rfl
@[simp] theorem State.setTimer_sheaf (s : State) (k : Nat) (x : Timer) : (s.setTimer k x).sheaf = s.sheaf := rfl
@[simp] theorem State.setTimer_queues (s : State) (k : Nat) (x : Timer) : (s.setTimer k x).queues = s.queues := rfl
@[simp] theorem State.setTimer_lastMapped (s : State) (k : Nat) (x : Timer) : (s.setTimer k x).lastMapped = s.lastMapped := rfl
@[simp] theorem State.setTimer_rings (s : State) (k : Nat) (x : Timer) : (s.setTimer k x).rings = s.rings := rfl
@[simp] theorem State.setTimer_regs (s : State) (k : Nat) (x : Timer) : (s.setTimer k x).regs = s.regs := rfl
@[simp] theorem State.setTimer_tdis (s : State) (k : Nat) (x : Timer) : (s.setTimer k x).tdis = s.tdis := rfl
@[simp] theorem State.setTimer_owners (s : State) (k : Nat) (x : Timer) : (s.setTimer k x).owners = s.owners := rfl
@[simp] theorem State.setTimer_migrations (s : State) (k : Nat) (x : Timer) : (s.setTimer k x).migrations = s.migrations := rfl
@[simp] theorem State.setTimer_forwarding (s : State) (k : Nat) (x : Timer) : (s.setTimer k x).forwarding = s.forwarding := rfl
@[simp] theorem State.setTimer_boot (s : State) (k : Nat) (x : Timer) : (s.setTimer k x).boot = s.boot := rfl
@[simp] theorem State.setTimer_log (s : State) (k : Nat) (x : Timer) : (s.setTimer k x).log = s.log := rfl
@[simp] theorem State.setTimer_discards (s : State) (k : Nat) (x : Timer) : (s.setTimer k x).discards = s.discards := rfl
@[simp] theorem State.setTimer_portsUp (s : State) (k : Nat) (x : Timer) : (s.setTimer k x).portsUp = s.portsUp := rfl
@[simp] theorem State.setTimer_shares (s : State) (k : Nat) (x : Timer) : (s.setTimer k x).shares = s.shares := rfl
@[simp] theorem State.setTimer_power (s : State) (k : Nat) (x : Timer) : (s.setTimer k x).power = s.power := rfl
@[simp] theorem State.setTimer_powerLost (s : State) (k : Nat) (x : Timer) : (s.setTimer k x).powerLost = s.powerLost := rfl
@[simp] theorem State.setTimer_boots (s : State) (k : Nat) (x : Timer) : (s.setTimer k x).boots = s.boots := rfl
@[simp] theorem State.setTimer_rebuilding (s : State) (k : Nat) (x : Timer) : (s.setTimer k x).rebuilding = s.rebuilding := rfl
@[simp] theorem State.setTimer_agenda (s : State) (k : Nat) (x : Timer) : (s.setTimer k x).agenda = s.agenda := rfl
@[simp] theorem State.setTimer_free (s : State) (k : Nat) (x : Timer) : (s.setTimer k x).free = s.free := rfl

/-! `modBind` changes `binds` alone. -/

@[simp] theorem State.modBind_gtick (s : State) (k : Nat) (f : Bind → Bind) : (s.modBind k f).gtick = s.gtick := rfl
@[simp] theorem State.modBind_cur (s : State) (k : Nat) (f : Bind → Bind) : (s.modBind k f).cur = s.cur := rfl
@[simp] theorem State.modBind_tiles (s : State) (k : Nat) (f : Bind → Bind) : (s.modBind k f).tiles = s.tiles := rfl
@[simp] theorem State.modBind_dies (s : State) (k : Nat) (f : Bind → Bind) : (s.modBind k f).dies = s.dies := rfl
@[simp] theorem State.modBind_mem (s : State) (k : Nat) (f : Bind → Bind) : (s.modBind k f).mem = s.mem := rfl
@[simp] theorem State.modBind_sectors (s : State) (k : Nat) (f : Bind → Bind) : (s.modBind k f).sectors = s.sectors := rfl
@[simp] theorem State.modBind_forward (s : State) (k : Nat) (f : Bind → Bind) : (s.modBind k f).forward = s.forward := rfl
@[simp] theorem State.modBind_aperture (s : State) (k : Nat) (f : Bind → Bind) : (s.modBind k f).aperture = s.aperture := rfl
@[simp] theorem State.modBind_ingress (s : State) (k : Nat) (f : Bind → Bind) : (s.modBind k f).ingress = s.ingress := rfl
@[simp] theorem State.modBind_ctxs (s : State) (k : Nat) (f : Bind → Bind) : (s.modBind k f).ctxs = s.ctxs := rfl
@[simp] theorem State.modBind_sheaf (s : State) (k : Nat) (f : Bind → Bind) : (s.modBind k f).sheaf = s.sheaf := rfl
@[simp] theorem State.modBind_queues (s : State) (k : Nat) (f : Bind → Bind) : (s.modBind k f).queues = s.queues := rfl
@[simp] theorem State.modBind_lastMapped (s : State) (k : Nat) (f : Bind → Bind) : (s.modBind k f).lastMapped = s.lastMapped := rfl
@[simp] theorem State.modBind_timers (s : State) (k : Nat) (f : Bind → Bind) : (s.modBind k f).timers = s.timers := rfl
@[simp] theorem State.modBind_rings (s : State) (k : Nat) (f : Bind → Bind) : (s.modBind k f).rings = s.rings := rfl
@[simp] theorem State.modBind_regs (s : State) (k : Nat) (f : Bind → Bind) : (s.modBind k f).regs = s.regs := rfl
@[simp] theorem State.modBind_tdis (s : State) (k : Nat) (f : Bind → Bind) : (s.modBind k f).tdis = s.tdis := rfl
@[simp] theorem State.modBind_owners (s : State) (k : Nat) (f : Bind → Bind) : (s.modBind k f).owners = s.owners := rfl
@[simp] theorem State.modBind_migrations (s : State) (k : Nat) (f : Bind → Bind) : (s.modBind k f).migrations = s.migrations := rfl
@[simp] theorem State.modBind_forwarding (s : State) (k : Nat) (f : Bind → Bind) : (s.modBind k f).forwarding = s.forwarding := rfl
@[simp] theorem State.modBind_boot (s : State) (k : Nat) (f : Bind → Bind) : (s.modBind k f).boot = s.boot := rfl
@[simp] theorem State.modBind_log (s : State) (k : Nat) (f : Bind → Bind) : (s.modBind k f).log = s.log := rfl
@[simp] theorem State.modBind_discards (s : State) (k : Nat) (f : Bind → Bind) : (s.modBind k f).discards = s.discards := rfl
@[simp] theorem State.modBind_portsUp (s : State) (k : Nat) (f : Bind → Bind) : (s.modBind k f).portsUp = s.portsUp := rfl
@[simp] theorem State.modBind_shares (s : State) (k : Nat) (f : Bind → Bind) : (s.modBind k f).shares = s.shares := rfl
@[simp] theorem State.modBind_power (s : State) (k : Nat) (f : Bind → Bind) : (s.modBind k f).power = s.power := rfl
@[simp] theorem State.modBind_powerLost (s : State) (k : Nat) (f : Bind → Bind) : (s.modBind k f).powerLost = s.powerLost := rfl
@[simp] theorem State.modBind_boots (s : State) (k : Nat) (f : Bind → Bind) : (s.modBind k f).boots = s.boots := rfl
@[simp] theorem State.modBind_rebuilding (s : State) (k : Nat) (f : Bind → Bind) : (s.modBind k f).rebuilding = s.rebuilding := rfl
@[simp] theorem State.modBind_agenda (s : State) (k : Nat) (f : Bind → Bind) : (s.modBind k f).agenda = s.agenda := rfl
@[simp] theorem State.modBind_free (s : State) (k : Nat) (f : Bind → Bind) : (s.modBind k f).free = s.free := rfl

/-! `setBoot` changes `boot` alone. -/

@[simp] theorem State.setBoot_gtick (s : State) (k : Nat) (f : BootEntry → BootEntry) : (s.setBoot k f).gtick = s.gtick := rfl
@[simp] theorem State.setBoot_cur (s : State) (k : Nat) (f : BootEntry → BootEntry) : (s.setBoot k f).cur = s.cur := rfl
@[simp] theorem State.setBoot_tiles (s : State) (k : Nat) (f : BootEntry → BootEntry) : (s.setBoot k f).tiles = s.tiles := rfl
@[simp] theorem State.setBoot_dies (s : State) (k : Nat) (f : BootEntry → BootEntry) : (s.setBoot k f).dies = s.dies := rfl
@[simp] theorem State.setBoot_mem (s : State) (k : Nat) (f : BootEntry → BootEntry) : (s.setBoot k f).mem = s.mem := rfl
@[simp] theorem State.setBoot_sectors (s : State) (k : Nat) (f : BootEntry → BootEntry) : (s.setBoot k f).sectors = s.sectors := rfl
@[simp] theorem State.setBoot_forward (s : State) (k : Nat) (f : BootEntry → BootEntry) : (s.setBoot k f).forward = s.forward := rfl
@[simp] theorem State.setBoot_aperture (s : State) (k : Nat) (f : BootEntry → BootEntry) : (s.setBoot k f).aperture = s.aperture := rfl
@[simp] theorem State.setBoot_ingress (s : State) (k : Nat) (f : BootEntry → BootEntry) : (s.setBoot k f).ingress = s.ingress := rfl
@[simp] theorem State.setBoot_ctxs (s : State) (k : Nat) (f : BootEntry → BootEntry) : (s.setBoot k f).ctxs = s.ctxs := rfl
@[simp] theorem State.setBoot_binds (s : State) (k : Nat) (f : BootEntry → BootEntry) : (s.setBoot k f).binds = s.binds := rfl
@[simp] theorem State.setBoot_sheaf (s : State) (k : Nat) (f : BootEntry → BootEntry) : (s.setBoot k f).sheaf = s.sheaf := rfl
@[simp] theorem State.setBoot_queues (s : State) (k : Nat) (f : BootEntry → BootEntry) : (s.setBoot k f).queues = s.queues := rfl
@[simp] theorem State.setBoot_lastMapped (s : State) (k : Nat) (f : BootEntry → BootEntry) : (s.setBoot k f).lastMapped = s.lastMapped := rfl
@[simp] theorem State.setBoot_timers (s : State) (k : Nat) (f : BootEntry → BootEntry) : (s.setBoot k f).timers = s.timers := rfl
@[simp] theorem State.setBoot_rings (s : State) (k : Nat) (f : BootEntry → BootEntry) : (s.setBoot k f).rings = s.rings := rfl
@[simp] theorem State.setBoot_regs (s : State) (k : Nat) (f : BootEntry → BootEntry) : (s.setBoot k f).regs = s.regs := rfl
@[simp] theorem State.setBoot_tdis (s : State) (k : Nat) (f : BootEntry → BootEntry) : (s.setBoot k f).tdis = s.tdis := rfl
@[simp] theorem State.setBoot_owners (s : State) (k : Nat) (f : BootEntry → BootEntry) : (s.setBoot k f).owners = s.owners := rfl
@[simp] theorem State.setBoot_migrations (s : State) (k : Nat) (f : BootEntry → BootEntry) : (s.setBoot k f).migrations = s.migrations := rfl
@[simp] theorem State.setBoot_forwarding (s : State) (k : Nat) (f : BootEntry → BootEntry) : (s.setBoot k f).forwarding = s.forwarding := rfl
@[simp] theorem State.setBoot_log (s : State) (k : Nat) (f : BootEntry → BootEntry) : (s.setBoot k f).log = s.log := rfl
@[simp] theorem State.setBoot_discards (s : State) (k : Nat) (f : BootEntry → BootEntry) : (s.setBoot k f).discards = s.discards := rfl
@[simp] theorem State.setBoot_portsUp (s : State) (k : Nat) (f : BootEntry → BootEntry) : (s.setBoot k f).portsUp = s.portsUp := rfl
@[simp] theorem State.setBoot_shares (s : State) (k : Nat) (f : BootEntry → BootEntry) : (s.setBoot k f).shares = s.shares := rfl
@[simp] theorem State.setBoot_power (s : State) (k : Nat) (f : BootEntry → BootEntry) : (s.setBoot k f).power = s.power := rfl
@[simp] theorem State.setBoot_powerLost (s : State) (k : Nat) (f : BootEntry → BootEntry) : (s.setBoot k f).powerLost = s.powerLost := rfl
@[simp] theorem State.setBoot_boots (s : State) (k : Nat) (f : BootEntry → BootEntry) : (s.setBoot k f).boots = s.boots := rfl
@[simp] theorem State.setBoot_rebuilding (s : State) (k : Nat) (f : BootEntry → BootEntry) : (s.setBoot k f).rebuilding = s.rebuilding := rfl
@[simp] theorem State.setBoot_agenda (s : State) (k : Nat) (f : BootEntry → BootEntry) : (s.setBoot k f).agenda = s.agenda := rfl
@[simp] theorem State.setBoot_free (s : State) (k : Nat) (f : BootEntry → BootEntry) : (s.setBoot k f).free = s.free := rfl

/-! `tickFree` changes `free` alone. -/

@[simp] theorem State.tickFree_gtick (s : State) : (s.tickFree).gtick = s.gtick := rfl
@[simp] theorem State.tickFree_cur (s : State) : (s.tickFree).cur = s.cur := rfl
@[simp] theorem State.tickFree_tiles (s : State) : (s.tickFree).tiles = s.tiles := rfl
@[simp] theorem State.tickFree_dies (s : State) : (s.tickFree).dies = s.dies := rfl
@[simp] theorem State.tickFree_mem (s : State) : (s.tickFree).mem = s.mem := rfl
@[simp] theorem State.tickFree_sectors (s : State) : (s.tickFree).sectors = s.sectors := rfl
@[simp] theorem State.tickFree_forward (s : State) : (s.tickFree).forward = s.forward := rfl
@[simp] theorem State.tickFree_aperture (s : State) : (s.tickFree).aperture = s.aperture := rfl
@[simp] theorem State.tickFree_ingress (s : State) : (s.tickFree).ingress = s.ingress := rfl
@[simp] theorem State.tickFree_ctxs (s : State) : (s.tickFree).ctxs = s.ctxs := rfl
@[simp] theorem State.tickFree_binds (s : State) : (s.tickFree).binds = s.binds := rfl
@[simp] theorem State.tickFree_sheaf (s : State) : (s.tickFree).sheaf = s.sheaf := rfl
@[simp] theorem State.tickFree_queues (s : State) : (s.tickFree).queues = s.queues := rfl
@[simp] theorem State.tickFree_lastMapped (s : State) : (s.tickFree).lastMapped = s.lastMapped := rfl
@[simp] theorem State.tickFree_timers (s : State) : (s.tickFree).timers = s.timers := rfl
@[simp] theorem State.tickFree_rings (s : State) : (s.tickFree).rings = s.rings := rfl
@[simp] theorem State.tickFree_regs (s : State) : (s.tickFree).regs = s.regs := rfl
@[simp] theorem State.tickFree_tdis (s : State) : (s.tickFree).tdis = s.tdis := rfl
@[simp] theorem State.tickFree_owners (s : State) : (s.tickFree).owners = s.owners := rfl
@[simp] theorem State.tickFree_migrations (s : State) : (s.tickFree).migrations = s.migrations := rfl
@[simp] theorem State.tickFree_forwarding (s : State) : (s.tickFree).forwarding = s.forwarding := rfl
@[simp] theorem State.tickFree_boot (s : State) : (s.tickFree).boot = s.boot := rfl
@[simp] theorem State.tickFree_log (s : State) : (s.tickFree).log = s.log := rfl
@[simp] theorem State.tickFree_discards (s : State) : (s.tickFree).discards = s.discards := rfl
@[simp] theorem State.tickFree_portsUp (s : State) : (s.tickFree).portsUp = s.portsUp := rfl
@[simp] theorem State.tickFree_shares (s : State) : (s.tickFree).shares = s.shares := rfl
@[simp] theorem State.tickFree_power (s : State) : (s.tickFree).power = s.power := rfl
@[simp] theorem State.tickFree_powerLost (s : State) : (s.tickFree).powerLost = s.powerLost := rfl
@[simp] theorem State.tickFree_boots (s : State) : (s.tickFree).boots = s.boots := rfl
@[simp] theorem State.tickFree_rebuilding (s : State) : (s.tickFree).rebuilding = s.rebuilding := rfl
@[simp] theorem State.tickFree_agenda (s : State) : (s.tickFree).agenda = s.agenda := rfl

/-! `at_` changes `agenda` alone. -/

@[simp] theorem State.atTick_gtick (s : State) (n : Nat) (op : Instr) (l : List Nat) : (s.at_ n op l).gtick = s.gtick := rfl
@[simp] theorem State.atTick_cur (s : State) (n : Nat) (op : Instr) (l : List Nat) : (s.at_ n op l).cur = s.cur := rfl
@[simp] theorem State.atTick_tiles (s : State) (n : Nat) (op : Instr) (l : List Nat) : (s.at_ n op l).tiles = s.tiles := rfl
@[simp] theorem State.atTick_dies (s : State) (n : Nat) (op : Instr) (l : List Nat) : (s.at_ n op l).dies = s.dies := rfl
@[simp] theorem State.atTick_mem (s : State) (n : Nat) (op : Instr) (l : List Nat) : (s.at_ n op l).mem = s.mem := rfl
@[simp] theorem State.atTick_sectors (s : State) (n : Nat) (op : Instr) (l : List Nat) : (s.at_ n op l).sectors = s.sectors := rfl
@[simp] theorem State.atTick_forward (s : State) (n : Nat) (op : Instr) (l : List Nat) : (s.at_ n op l).forward = s.forward := rfl
@[simp] theorem State.atTick_aperture (s : State) (n : Nat) (op : Instr) (l : List Nat) : (s.at_ n op l).aperture = s.aperture := rfl
@[simp] theorem State.atTick_ingress (s : State) (n : Nat) (op : Instr) (l : List Nat) : (s.at_ n op l).ingress = s.ingress := rfl
@[simp] theorem State.atTick_ctxs (s : State) (n : Nat) (op : Instr) (l : List Nat) : (s.at_ n op l).ctxs = s.ctxs := rfl
@[simp] theorem State.atTick_binds (s : State) (n : Nat) (op : Instr) (l : List Nat) : (s.at_ n op l).binds = s.binds := rfl
@[simp] theorem State.atTick_sheaf (s : State) (n : Nat) (op : Instr) (l : List Nat) : (s.at_ n op l).sheaf = s.sheaf := rfl
@[simp] theorem State.atTick_queues (s : State) (n : Nat) (op : Instr) (l : List Nat) : (s.at_ n op l).queues = s.queues := rfl
@[simp] theorem State.atTick_lastMapped (s : State) (n : Nat) (op : Instr) (l : List Nat) : (s.at_ n op l).lastMapped = s.lastMapped := rfl
@[simp] theorem State.atTick_timers (s : State) (n : Nat) (op : Instr) (l : List Nat) : (s.at_ n op l).timers = s.timers := rfl
@[simp] theorem State.atTick_rings (s : State) (n : Nat) (op : Instr) (l : List Nat) : (s.at_ n op l).rings = s.rings := rfl
@[simp] theorem State.atTick_regs (s : State) (n : Nat) (op : Instr) (l : List Nat) : (s.at_ n op l).regs = s.regs := rfl
@[simp] theorem State.atTick_tdis (s : State) (n : Nat) (op : Instr) (l : List Nat) : (s.at_ n op l).tdis = s.tdis := rfl
@[simp] theorem State.atTick_owners (s : State) (n : Nat) (op : Instr) (l : List Nat) : (s.at_ n op l).owners = s.owners := rfl
@[simp] theorem State.atTick_migrations (s : State) (n : Nat) (op : Instr) (l : List Nat) : (s.at_ n op l).migrations = s.migrations := rfl
@[simp] theorem State.atTick_forwarding (s : State) (n : Nat) (op : Instr) (l : List Nat) : (s.at_ n op l).forwarding = s.forwarding := rfl
@[simp] theorem State.atTick_boot (s : State) (n : Nat) (op : Instr) (l : List Nat) : (s.at_ n op l).boot = s.boot := rfl
@[simp] theorem State.atTick_log (s : State) (n : Nat) (op : Instr) (l : List Nat) : (s.at_ n op l).log = s.log := rfl
@[simp] theorem State.atTick_discards (s : State) (n : Nat) (op : Instr) (l : List Nat) : (s.at_ n op l).discards = s.discards := rfl
@[simp] theorem State.atTick_portsUp (s : State) (n : Nat) (op : Instr) (l : List Nat) : (s.at_ n op l).portsUp = s.portsUp := rfl
@[simp] theorem State.atTick_shares (s : State) (n : Nat) (op : Instr) (l : List Nat) : (s.at_ n op l).shares = s.shares := rfl
@[simp] theorem State.atTick_power (s : State) (n : Nat) (op : Instr) (l : List Nat) : (s.at_ n op l).power = s.power := rfl
@[simp] theorem State.atTick_powerLost (s : State) (n : Nat) (op : Instr) (l : List Nat) : (s.at_ n op l).powerLost = s.powerLost := rfl
@[simp] theorem State.atTick_boots (s : State) (n : Nat) (op : Instr) (l : List Nat) : (s.at_ n op l).boots = s.boots := rfl
@[simp] theorem State.atTick_rebuilding (s : State) (n : Nat) (op : Instr) (l : List Nat) : (s.at_ n op l).rebuilding = s.rebuilding := rfl
@[simp] theorem State.atTick_free (s : State) (n : Nat) (op : Instr) (l : List Nat) : (s.at_ n op l).free = s.free := rfl

/-! `after` changes `agenda` alone. -/

@[simp] theorem State.after_gtick (s : State) (n : Nat) (op : Instr) (l : List Nat) : (s.after n op l).gtick = s.gtick := rfl
@[simp] theorem State.after_cur (s : State) (n : Nat) (op : Instr) (l : List Nat) : (s.after n op l).cur = s.cur := rfl
@[simp] theorem State.after_tiles (s : State) (n : Nat) (op : Instr) (l : List Nat) : (s.after n op l).tiles = s.tiles := rfl
@[simp] theorem State.after_dies (s : State) (n : Nat) (op : Instr) (l : List Nat) : (s.after n op l).dies = s.dies := rfl
@[simp] theorem State.after_mem (s : State) (n : Nat) (op : Instr) (l : List Nat) : (s.after n op l).mem = s.mem := rfl
@[simp] theorem State.after_sectors (s : State) (n : Nat) (op : Instr) (l : List Nat) : (s.after n op l).sectors = s.sectors := rfl
@[simp] theorem State.after_forward (s : State) (n : Nat) (op : Instr) (l : List Nat) : (s.after n op l).forward = s.forward := rfl
@[simp] theorem State.after_aperture (s : State) (n : Nat) (op : Instr) (l : List Nat) : (s.after n op l).aperture = s.aperture := rfl
@[simp] theorem State.after_ingress (s : State) (n : Nat) (op : Instr) (l : List Nat) : (s.after n op l).ingress = s.ingress := rfl
@[simp] theorem State.after_ctxs (s : State) (n : Nat) (op : Instr) (l : List Nat) : (s.after n op l).ctxs = s.ctxs := rfl
@[simp] theorem State.after_binds (s : State) (n : Nat) (op : Instr) (l : List Nat) : (s.after n op l).binds = s.binds := rfl
@[simp] theorem State.after_sheaf (s : State) (n : Nat) (op : Instr) (l : List Nat) : (s.after n op l).sheaf = s.sheaf := rfl
@[simp] theorem State.after_queues (s : State) (n : Nat) (op : Instr) (l : List Nat) : (s.after n op l).queues = s.queues := rfl
@[simp] theorem State.after_lastMapped (s : State) (n : Nat) (op : Instr) (l : List Nat) : (s.after n op l).lastMapped = s.lastMapped := rfl
@[simp] theorem State.after_timers (s : State) (n : Nat) (op : Instr) (l : List Nat) : (s.after n op l).timers = s.timers := rfl
@[simp] theorem State.after_rings (s : State) (n : Nat) (op : Instr) (l : List Nat) : (s.after n op l).rings = s.rings := rfl
@[simp] theorem State.after_regs (s : State) (n : Nat) (op : Instr) (l : List Nat) : (s.after n op l).regs = s.regs := rfl
@[simp] theorem State.after_tdis (s : State) (n : Nat) (op : Instr) (l : List Nat) : (s.after n op l).tdis = s.tdis := rfl
@[simp] theorem State.after_owners (s : State) (n : Nat) (op : Instr) (l : List Nat) : (s.after n op l).owners = s.owners := rfl
@[simp] theorem State.after_migrations (s : State) (n : Nat) (op : Instr) (l : List Nat) : (s.after n op l).migrations = s.migrations := rfl
@[simp] theorem State.after_forwarding (s : State) (n : Nat) (op : Instr) (l : List Nat) : (s.after n op l).forwarding = s.forwarding := rfl
@[simp] theorem State.after_boot (s : State) (n : Nat) (op : Instr) (l : List Nat) : (s.after n op l).boot = s.boot := rfl
@[simp] theorem State.after_log (s : State) (n : Nat) (op : Instr) (l : List Nat) : (s.after n op l).log = s.log := rfl
@[simp] theorem State.after_discards (s : State) (n : Nat) (op : Instr) (l : List Nat) : (s.after n op l).discards = s.discards := rfl
@[simp] theorem State.after_portsUp (s : State) (n : Nat) (op : Instr) (l : List Nat) : (s.after n op l).portsUp = s.portsUp := rfl
@[simp] theorem State.after_shares (s : State) (n : Nat) (op : Instr) (l : List Nat) : (s.after n op l).shares = s.shares := rfl
@[simp] theorem State.after_power (s : State) (n : Nat) (op : Instr) (l : List Nat) : (s.after n op l).power = s.power := rfl
@[simp] theorem State.after_powerLost (s : State) (n : Nat) (op : Instr) (l : List Nat) : (s.after n op l).powerLost = s.powerLost := rfl
@[simp] theorem State.after_boots (s : State) (n : Nat) (op : Instr) (l : List Nat) : (s.after n op l).boots = s.boots := rfl
@[simp] theorem State.after_rebuilding (s : State) (n : Nat) (op : Instr) (l : List Nat) : (s.after n op l).rebuilding = s.rebuilding := rfl
@[simp] theorem State.after_free (s : State) (n : Nat) (op : Instr) (l : List Nat) : (s.after n op l).free = s.free := rfl

/-! `modMigration` changes `migrations` alone. -/

@[simp] theorem State.modMigration_gtick (s : State) (k : Nat) (f : Migration → Migration) : (s.modMigration k f).gtick = s.gtick := rfl
@[simp] theorem State.modMigration_cur (s : State) (k : Nat) (f : Migration → Migration) : (s.modMigration k f).cur = s.cur := rfl
@[simp] theorem State.modMigration_tiles (s : State) (k : Nat) (f : Migration → Migration) : (s.modMigration k f).tiles = s.tiles := rfl
@[simp] theorem State.modMigration_dies (s : State) (k : Nat) (f : Migration → Migration) : (s.modMigration k f).dies = s.dies := rfl
@[simp] theorem State.modMigration_mem (s : State) (k : Nat) (f : Migration → Migration) : (s.modMigration k f).mem = s.mem := rfl
@[simp] theorem State.modMigration_sectors (s : State) (k : Nat) (f : Migration → Migration) : (s.modMigration k f).sectors = s.sectors := rfl
@[simp] theorem State.modMigration_forward (s : State) (k : Nat) (f : Migration → Migration) : (s.modMigration k f).forward = s.forward := rfl
@[simp] theorem State.modMigration_aperture (s : State) (k : Nat) (f : Migration → Migration) : (s.modMigration k f).aperture = s.aperture := rfl
@[simp] theorem State.modMigration_ingress (s : State) (k : Nat) (f : Migration → Migration) : (s.modMigration k f).ingress = s.ingress := rfl
@[simp] theorem State.modMigration_ctxs (s : State) (k : Nat) (f : Migration → Migration) : (s.modMigration k f).ctxs = s.ctxs := rfl
@[simp] theorem State.modMigration_binds (s : State) (k : Nat) (f : Migration → Migration) : (s.modMigration k f).binds = s.binds := rfl
@[simp] theorem State.modMigration_sheaf (s : State) (k : Nat) (f : Migration → Migration) : (s.modMigration k f).sheaf = s.sheaf := rfl
@[simp] theorem State.modMigration_queues (s : State) (k : Nat) (f : Migration → Migration) : (s.modMigration k f).queues = s.queues := rfl
@[simp] theorem State.modMigration_lastMapped (s : State) (k : Nat) (f : Migration → Migration) : (s.modMigration k f).lastMapped = s.lastMapped := rfl
@[simp] theorem State.modMigration_timers (s : State) (k : Nat) (f : Migration → Migration) : (s.modMigration k f).timers = s.timers := rfl
@[simp] theorem State.modMigration_rings (s : State) (k : Nat) (f : Migration → Migration) : (s.modMigration k f).rings = s.rings := rfl
@[simp] theorem State.modMigration_regs (s : State) (k : Nat) (f : Migration → Migration) : (s.modMigration k f).regs = s.regs := rfl
@[simp] theorem State.modMigration_tdis (s : State) (k : Nat) (f : Migration → Migration) : (s.modMigration k f).tdis = s.tdis := rfl
@[simp] theorem State.modMigration_owners (s : State) (k : Nat) (f : Migration → Migration) : (s.modMigration k f).owners = s.owners := rfl
@[simp] theorem State.modMigration_forwarding (s : State) (k : Nat) (f : Migration → Migration) : (s.modMigration k f).forwarding = s.forwarding := rfl
@[simp] theorem State.modMigration_boot (s : State) (k : Nat) (f : Migration → Migration) : (s.modMigration k f).boot = s.boot := rfl
@[simp] theorem State.modMigration_log (s : State) (k : Nat) (f : Migration → Migration) : (s.modMigration k f).log = s.log := rfl
@[simp] theorem State.modMigration_discards (s : State) (k : Nat) (f : Migration → Migration) : (s.modMigration k f).discards = s.discards := rfl
@[simp] theorem State.modMigration_portsUp (s : State) (k : Nat) (f : Migration → Migration) : (s.modMigration k f).portsUp = s.portsUp := rfl
@[simp] theorem State.modMigration_shares (s : State) (k : Nat) (f : Migration → Migration) : (s.modMigration k f).shares = s.shares := rfl
@[simp] theorem State.modMigration_power (s : State) (k : Nat) (f : Migration → Migration) : (s.modMigration k f).power = s.power := rfl
@[simp] theorem State.modMigration_powerLost (s : State) (k : Nat) (f : Migration → Migration) : (s.modMigration k f).powerLost = s.powerLost := rfl
@[simp] theorem State.modMigration_boots (s : State) (k : Nat) (f : Migration → Migration) : (s.modMigration k f).boots = s.boots := rfl
@[simp] theorem State.modMigration_rebuilding (s : State) (k : Nat) (f : Migration → Migration) : (s.modMigration k f).rebuilding = s.rebuilding := rfl
@[simp] theorem State.modMigration_agenda (s : State) (k : Nat) (f : Migration → Migration) : (s.modMigration k f).agenda = s.agenda := rfl
@[simp] theorem State.modMigration_free (s : State) (k : Nat) (f : Migration → Migration) : (s.modMigration k f).free = s.free := rfl

end Sys2Proof.Machine
end

