-- ==== Sys2Proof/Laws/Ops.lean ====
section
/-! SUPPORT. The shared operations: what is read after an update of a tile, a sequencer, a context; registers; results in flight;
lanes. -/
namespace Sys2Proof.Machine

/-! Tiles, sequencers, contexts, queues. -/

theorem State.tile_setTile (s : State) (t u : Nat) (x : Tile) : (s.setTile t x).tile u = if t = u then x else s.tile u := by
  simp [State.tile, State.setTile, mget_mset]
@[simp] theorem State.tile_setTile_same (s : State) (t : Nat) (x : Tile) : (s.setTile t x).tile t = x := by simp [tile_setTile]
@[simp] theorem State.tile_modTile_same (s : State) (t : Nat) (f : Tile → Tile) : (s.modTile t f).tile t = f (s.tile t) := by
  simp [State.modTile]
theorem State.tile_modTile_other (s : State) {t u : Nat} (f : Tile → Tile) (h : t ≠ u) : (s.modTile t f).tile u = s.tile u := by
  simp [State.modTile, tile_setTile, h]

theorem Tile.seq_setSeq (x : Tile) (q r : Nat) (y : Seq) : (x.setSeq q y).seq r = if (q = 0 ↔ r = 0) then y else x.seq r := by
  by_cases hq : q = 0 <;> by_cases hr : r = 0 <;> simp [Tile.seq, Tile.setSeq, hq, hr]
@[simp] theorem Tile.seq_setSeq_same (x : Tile) (q : Nat) (y : Seq) : (x.setSeq q y).seq q = y := by simp [Tile.seq_setSeq]

theorem State.seq_setSeq (s : State) (t q u r : Nat) (y : Seq) :
    (s.setSeq t q y).seq u r = if t = u ∧ (q = 0 ↔ r = 0) then y else s.seq u r := by
  by_cases h : t = u
  · subst h; simp only [State.seq, State.setSeq, State.tile_modTile_same, Tile.seq_setSeq, true_and]
  · simp [State.seq, State.setSeq, State.tile_modTile_other _ _ h, h]
@[simp] theorem State.seq_setSeq_same (s : State) (t q : Nat) (y : Seq) : (s.setSeq t q y).seq t q = y := by simp [State.seq_setSeq]
@[simp] theorem State.seq_modSeq_same (s : State) (t q : Nat) (f : Seq → Seq) : (s.modSeq t q f).seq t q = f (s.seq t q) := by
  simp [State.modSeq]

@[simp] theorem State.modTile_cur (s : State) (t : Nat) (f : Tile → Tile) : (s.modTile t f).cur = s.cur := rfl
@[simp] theorem State.setSeq_cur (s : State) (t q : Nat) (y : Seq) : (s.setSeq t q y).cur = s.cur := rfl
@[simp] theorem State.modSeq_cur (s : State) (t q : Nat) (f : Seq → Seq) : (s.modSeq t q f).cur = s.cur := rfl
@[simp] theorem State.setMe_cur (s : State) (y : Seq) : (s.setMe y).cur = s.cur := rfl
@[simp] theorem State.modMe_cur (s : State) (f : Seq → Seq) : (s.modMe f).cur = s.cur := rfl
@[simp] theorem State.modMe_gtick (s : State) (f : Seq → Seq) : (s.modMe f).gtick = s.gtick := rfl
@[simp] theorem State.modMe_mem (s : State) (f : Seq → Seq) : (s.modMe f).mem = s.mem := rfl
@[simp] theorem State.modMe_ctxs (s : State) (f : Seq → Seq) : (s.modMe f).ctxs = s.ctxs := rfl
@[simp] theorem State.modMe_sheaf (s : State) (f : Seq → Seq) : (s.modMe f).sheaf = s.sheaf := rfl
@[simp] theorem State.me_setMe (s : State) (y : Seq) : (s.setMe y).me = y := by simp [State.me, State.setMe]
@[simp] theorem State.me_modMe (s : State) (f : Seq → Seq) : (s.modMe f).me = f s.me := by simp [State.modMe]

/-- An update of the issuing sequencer leaves every other sequencer alone. -/
theorem State.seq_modMe_other (s : State) (f : Seq → Seq) (u r : Nat) (h : ¬ (s.cur.tile = u ∧ (s.cur.seq = 0 ↔ r = 0))) :
    (s.modMe f).seq u r = s.seq u r := by
  simp [State.modMe, State.setMe, State.seq_setSeq, h]

/-- An update of one sequencer leaves everything of its tile but that sequencer alone. -/
theorem State.tile_setSeq (s : State) (t q u : Nat) (y : Seq) :
    (s.setSeq t q y).tile u = if t = u then (s.tile u).setSeq q y else s.tile u := by
  by_cases h : t = u
  · subst h; simp [State.setSeq]
  · simp [State.setSeq, State.tile_modTile_other _ _ h, h]

theorem State.ctx_setCtx (s : State) (x k : Nat) (c : Ctx) : (s.setCtx x c).ctx k = if x = k then c else s.ctx k := by
  simp [State.ctx, State.setCtx, mget_mset]
@[simp] theorem State.ctx_modCtx_same (s : State) (x : Nat) (f : Ctx → Ctx) : (s.modCtx x f).ctx x = f (s.ctx x) := by
  simp [State.modCtx, State.ctx_setCtx]
theorem State.queue_setQueue (s : State) (q k : Nat) (x : Queue) : (s.setQueue q x).queue k = if q = k then x else s.queue k := by
  simp [State.queue, State.setQueue, mget_mset]
theorem State.die_setDie (s : State) (d k : Nat) (x : Die) : (s.setDie d x).die k = if d = k then x else s.die k := by
  simp [State.die, State.setDie, mget_mset]

/-! Registers (R173, R174). -/

@[simp] theorem Seq.readG_zero (y : Seq) : y.readG 0 = 0 := rfl
@[simp] theorem Seq.writeG_zero (y : Seq) (v : W64) : y.writeG 0 v = y := rfl
theorem Seq.readG_writeG (y : Seq) (r k : Nat) (v : W64) :
    (y.writeG r v).readG k = if k = 0 then 0 else if r = k then v else y.readG k := by
  unfold Seq.readG Seq.writeG
  by_cases hk : k = 0
  · simp [hk]
  · by_cases hr : r = 0
    · subst hr; simp [hk, Ne.symm hk]
    · simp [hk, hr, mget_mset]
@[simp] theorem Seq.readP_zero (y : Seq) : y.readP 0 = BitVec.allOnes 64 := rfl
theorem Seq.landing_setLanding (y : Seq) (l k : Nat) (d : Landing) : (y.setLanding l d).landing k = if l = k then d else y.landing k := by
  simp [Seq.landing, Seq.setLanding, mget_mset]
theorem Seq.queue_setQueue (y : Seq) (c k : Nat) (x : CopyQueue) :
    (y.setQueue c x).queue k = if (c = 0 ↔ k = 0) then x else y.queue k := by
  by_cases hc : c = 0 <;> by_cases hk : k = 0 <;> simp [Seq.queue, Seq.setQueue, hc, hk]

/-! Results in flight (R49). -/

/-- A result in flight changes the issuing sequencer's list of results alone. -/
theorem State.emitFlight_eq (s : State) (f : Flight) :
    s.emitFlight f = s.setMe (if s.me.inHandler then { s.me with hflights := s.me.hflights ++ [f] }
      else { s.me with flights := s.me.flights ++ [f] }) := rfl
@[simp] theorem State.emitFlight_cur (s : State) (f : Flight) : (s.emitFlight f).cur = s.cur := rfl
@[simp] theorem State.me_emitFlight (s : State) (f : Flight) : (s.emitFlight f).me = s.me.addFlight f := by simp [State.emitFlight]
@[simp] theorem Seq.now_addFlight (y : Seq) (f : Flight) : (y.addFlight f).now = y.now := by
  unfold Seq.addFlight; split <;> rfl
@[simp] theorem Seq.inHandler_addFlight (y : Seq) (f : Flight) : (y.addFlight f).inHandler = y.inHandler := by
  unfold Seq.addFlight; split <;> rfl
@[simp] theorem Seq.readG_addFlight (y : Seq) (f : Flight) (r : Nat) : (y.addFlight f).readG r = y.readG r := by
  unfold Seq.addFlight; split <;> rfl

@[simp] theorem State.finish_ok (s t : State) : s.finish (.ok t) = .next t := rfl
@[simp] theorem State.finish_error (s : State) (f : FaultInfo) : s.finish (.error f) = .next (s.trapIssue f) := rfl
@[simp] theorem check_true (f : FaultInfo) (k : Res) : check true f k = k := rfl
@[simp] theorem check_false (f : FaultInfo) (k : Res) : check false f k = .error f := rfl
theorem State.outsideHandler_of (s : State) (k : Res) (h : s.me.inHandler = false) : s.outsideHandler k = k := by
  simp [State.outsideHandler, h]

/-- Every meaning that is finished answers a next state. -/
theorem State.finish_next (s : State) (r : Res) : ∃ t, s.finish r = .next t := by
  cases r with
  | ok t => exact ⟨t, rfl⟩
  | error f => exact ⟨s.trapIssue f, rfl⟩

/-! Lanes (R212). -/

theorem bytesVec_toNat (bs : List Byte) (h : bs.length ≤ 64) : (bytesVec bs).toNat = leNat bs := by
  have h1 := leNat_lt bs
  have h2 : 256 ^ bs.length ≤ 256 ^ 64 := Nat.pow_le_pow_right (by decide) h
  unfold bytesVec
  rw [BitVec.toNat_ofNat]
  exact Nat.mod_eq_of_lt (lt_of_lt_of_le (lt_of_lt_of_le h1 h2) (le_of_eq (Nat.pow_mul 2 8 64).symm))

theorem leNat_flatMap (eb : Nat) (xs : List Nat) (i : Nat) (hi : i < xs.length) :
    leNat (xs.flatMap (leBytes eb)) / 256 ^ (eb * i) % 256 ^ eb = xs.getD i 0 % 256 ^ eb := by
  induction xs generalizing i with
  | nil => simp at hi
  | cons x xs ih =>
    have hpos : 0 < 256 ^ eb := Nat.pow_pos (by decide)
    simp only [List.flatMap_cons, leNat_append, length_leBytes, leNat_leBytes]
    cases i with
    | zero => simp [Nat.add_mul_mod_self_left]
    | succ i =>
      have hlt : x % 256 ^ eb < 256 ^ eb := Nat.mod_lt _ hpos
      rw [Nat.mul_succ, Nat.add_comm (eb * i) eb, Nat.pow_add, ← Nat.div_div_eq_div_mul, Nat.add_mul_div_left _ _ hpos,
        Nat.div_eq_of_lt hlt, Nat.zero_add]
      simpa using ih i (by simpa using hi)

theorem length_flatMap_leBytes (eb : Nat) (xs : List Nat) : (xs.flatMap (leBytes eb)).length = eb * xs.length := by
  induction xs with
  | nil => simp
  | cons x xs ih => simp [ih, Nat.mul_succ, Nat.add_comm]

/-- A lane of a register packed from its lanes. -/
theorem lane_packLanes (eb : Nat) (xs : List Nat) (i : Nat) (h : eb * xs.length ≤ 64) (hi : i < xs.length) :
    lane (packLanes eb xs) eb i = xs.getD i 0 % 2 ^ (8 * eb) := by
  have h256 (n : Nat) : 256 ^ n = 2 ^ (8 * n) := by rw [show (256 : Nat) = 2 ^ 8 by decide, ← Nat.pow_mul]
  unfold lane packLanes nbits
  rw [bytesVec_toNat _ (by rw [length_flatMap_leBytes]; exact h), ← h256, show 8 * eb * i = 8 * (eb * i) by ring, ← h256]
  exact leNat_flatMap eb xs i hi

theorem elemBytes_cases (e : BitVec 2) : elemBytes e = 1 ∨ elemBytes e = 2 ∨ elemBytes e = 4 ∨ elemBytes e = 8 := by
  have := e.isLt
  unfold elemBytes
  have : e.toNat = 0 ∨ e.toNat = 1 ∨ e.toNat = 2 ∨ e.toNat = 3 := by omega
  rcases this with h | h | h | h <;> simp [h]

theorem elemBytes_mul_lanes (e : BitVec 2) : elemBytes e * lanes (elemBytes e) = 64 := by
  rcases elemBytes_cases e with h | h | h | h <;> simp [lanes, h]

/-- A lane of a lane-wise result. -/
theorem lane_packLanes_map (e : BitVec 2) (f : Nat → Nat) (i : Nat) (hi : i < lanes (elemBytes e)) :
    lane (packLanes (elemBytes e) ((List.range (lanes (elemBytes e))).map f)) (elemBytes e) i = f i % 2 ^ (8 * elemBytes e) := by
  rw [lane_packLanes _ _ _ (by simp [elemBytes_mul_lanes]) (by simpa using hi)]
  simp [List.getD, hi]

/-- Bits of a mask of elements: byte `k` belongs to element `k / eb`. -/
theorem elemMask_getLsbD (eb : Nat) (sel : Nat → Bool) (k : Nat) (heb : 0 < eb) (hk : k < 64) (hd : eb * lanes eb = 64) :
    (elemMask eb sel).getLsbD k = sel (k / eb) := by
  have key : ∀ n, ((List.range n).foldl (fun m i => if sel i then m + (2 ^ eb - 1) * 2 ^ (i * eb) else m) 0) < 2 ^ (n * eb) ∧
      ∀ k, Nat.testBit ((List.range n).foldl (fun m i => if sel i then m + (2 ^ eb - 1) * 2 ^ (i * eb) else m) 0) k =
        (decide (k / eb < n) && sel (k / eb)) := by
    intro n
    induction n with
    | zero => simp
    | succ n ih =>
      obtain ⟨hlt, hbit⟩ := ih
      rw [List.range_succ, List.foldl_append]
      simp only [List.foldl_cons, List.foldl_nil]
      generalize hm : (List.range n).foldl (fun m i => if sel i then m + (2 ^ eb - 1) * 2 ^ (i * eb) else m) 0 = m at hlt hbit ⊢
      have hp : 0 < 2 ^ (n * eb) := Nat.pow_pos (by decide)
      have hp' : 1 ≤ 2 ^ eb := Nat.one_le_two_pow
      have hpow : 2 ^ ((n + 1) * eb) = 2 ^ eb * 2 ^ (n * eb) := by rw [← Nat.pow_add]; congr 1; ring
      have hdiv (k : Nat) : k / eb < n ↔ k < n * eb := Nat.div_lt_iff_lt_mul heb
      have hdiv' (k : Nat) : k / eb < n + 1 ↔ k < (n + 1) * eb := Nat.div_lt_iff_lt_mul heb
      split
      · rename_i hs
        refine ⟨?_, fun k => ?_⟩
        · rw [hpow]
          have : (2 ^ eb - 1) * 2 ^ (n * eb) + 2 ^ (n * eb) = 2 ^ eb * 2 ^ (n * eb) := by
            rw [← Nat.succ_mul]; congr 1; omega
          omega
        · rw [Nat.add_comm, Nat.mul_comm, Nat.testBit_two_pow_mul_add _ hlt]
          split
          · rename_i hk
            rw [hbit, decide_eq_true ((hdiv k).2 hk), decide_eq_true (by have := (hdiv k).2 hk; omega)]
          · rename_i hk
            rw [Nat.testBit_two_pow_sub_one]
            have h1 : ¬ k / eb < n := fun h => hk ((hdiv k).1 h)
            by_cases h2 : k / eb < n + 1
            · have hn : k / eb = n := by omega
              have hlt' := (hdiv' k).1 h2
              have : (n + 1) * eb = n * eb + eb := by ring
              simp [hn, hs]; omega
            · have hge : ¬ k < (n + 1) * eb := fun h => h2 ((hdiv' k).2 h)
              have : (n + 1) * eb = n * eb + eb := by ring
              simp [h2]; omega
      · rename_i hs
        refine ⟨?_, fun k => ?_⟩
        · rw [hpow]; exact lt_of_lt_of_le hlt (Nat.le_mul_of_pos_left _ (by omega))
        · rw [hbit]
          by_cases h1 : k / eb < n
          · simp [h1, Nat.lt_succ_of_lt h1]
          · by_cases h2 : k / eb = n
            · simp [h2, hs]
            · simp [h1, show ¬ k / eb < n + 1 by omega]
  have hk' : k / eb < lanes eb := by rw [Nat.div_lt_iff_lt_mul heb, Nat.mul_comm, hd]; exact hk
  unfold elemMask
  rw [BitVec.getLsbD_ofNat, (key (lanes eb)).2 k]
  simp [hk, hk']

end Sys2Proof.Machine
end

