-- ==== Sys2Proof/Laws/Scalar.lean ====
section
/-! SUPPORT. Class 0 in terms of bit vectors: the value of a result, and each operation on numbers as the operation on bit
vectors of the width (R187, R188). -/
namespace Sys2Proof.Machine

theorem opWidth_spanOf (m : BitVec 2) : opWidth (m.setWidth 3) = spanOf m := by
  have := m.isLt
  simp only [opWidth, spanOf, BitVec.toNat_setWidth]; congr 2; omega

theorem spanOf_cases (m : BitVec 2) : spanOf m = 64 ∨ spanOf m = 32 ∨ spanOf m = 16 ∨ spanOf m = 8 := by
  have := m.isLt
  have : m.toNat = 0 ∨ m.toNat = 1 ∨ m.toNat = 2 ∨ m.toNat = 3 := by omega
  rcases this with h | h | h | h <;> simp [spanOf, h]

theorem signExt_toInt (w x : Nat) : signExt x w = (BitVec.ofNat w x).toInt := by
  simp only [signExt, BitVec.toInt_eq_toNat_cond, BitVec.toNat_ofNat]
  norm_cast

theorem signExt_toNat {w : Nat} (A : BitVec w) : signExt A.toNat w = A.toInt := by
  rw [signExt_toInt, BitVec.ofNat_toNat, BitVec.setWidth_eq]

theorem trunc_toNat (w : Nat) (r : Int) : trunc w r = (BitVec.ofInt w r).toNat := by
  simp [trunc, BitVec.toNat_ofInt]

/-- A result is the low bits, sign-extended. -/
theorem srValue_eq (w : Nat) (r : Int) : srValue w r = (BitVec.ofInt w r).signExtend 64 := by
  rw [srValue, signExt_toInt, trunc_toNat, BitVec.ofNat_toNat, BitVec.setWidth_eq, w64, BitVec.signExtend]

theorem low_eq (w : Nat) (x : W64) : low w x = (x.setWidth w).toNat := by simp [low]

/-- A register-register form whose operation on numbers is `r` on bit vectors. -/
theorem State.srOp_eq (s : State) (d a b : BitVec 5) (m : BitVec 2) (lat : Nat) (f : Nat → Nat → Nat → Int)
    (r : {w : Nat} → BitVec w → BitVec w → BitVec w)
    (h : ∀ w, 0 < w → ∀ A B : BitVec w, BitVec.ofInt w (f w A.toNat B.toNat) = r A B) :
    s.srOp d a b (m.setWidth 3) lat f =
      s.emitG lat d.toNat ((r ((s.G a).setWidth (spanOf m)) ((s.G b).setWidth (spanOf m))).signExtend 64) := by
  have hw : 0 < spanOf m := by rcases spanOf_cases m with h | h | h | h <;> omega
  simp only [State.srOp, opWidth_spanOf, srValue_eq, low_eq, h _ hw]

/-- The same for a unary form. -/
theorem State.srUnary_eq (s : State) (d a : BitVec 5) (m : BitVec 2) (f : Nat → Nat → Int)
    (r : {w : Nat} → BitVec w → BitVec w) (h : ∀ w, 0 < w → ∀ A : BitVec w, BitVec.ofInt w (f w A.toNat) = r A) :
    s.srUnary d a (m.setWidth 3) f = s.emitG 1 d.toNat ((r ((s.G a).setWidth (spanOf m))).signExtend 64) := by
  have hw : 0 < spanOf m := by rcases spanOf_cases m with h | h | h | h <;> omega
  simp only [State.srUnary, opWidth_spanOf, srValue_eq, low_eq, h _ hw]

theorem ofInt_toNat {w : Nat} (A : BitVec w) : BitVec.ofInt w (A.toNat : Int) = A := by
  simp

theorem ofInt_nat {w n : Nat} {A : BitVec w} (h : n = A.toNat) : BitVec.ofInt w (n : Int) = A := by
  rw [h, ofInt_toNat]

theorem ofInt_nat_mod {w n : Nat} {A : BitVec w} (h : n % 2 ^ w = A.toNat) : BitVec.ofInt w (n : Int) = A :=
  BitVec.eq_of_toNat_eq (by simpa using h)

theorem ofInt_toInt_sub {w : Nat} (A B : BitVec w) : BitVec.ofInt w ((A.toNat : Int) - B.toNat) = A - B := by
  rw [Int.sub_eq_add_neg, BitVec.ofInt_add, BitVec.ofInt_neg, ofInt_toNat, ofInt_toNat, BitVec.sub_eq_add_neg]

end Sys2Proof.Machine
end

