-- ==== Sys2Proof/Laws/Memory.lean ====
section
/-! SUPPORT. What the shared memory operations and the shared trap can do: reads of sound words, and what taking a fault at issue
leaves. -/
namespace Sys2Proof.Machine
set_option Elab.async false

/-! Bytes. -/

theorem leBytes_leNat : ∀ bs : List Byte, leBytes bs.length (leNat bs) = bs
  | [] => rfl
  | b :: bs => by
    have hb := b.isLt
    have h1 : (b.toNat + 256 * leNat bs) / 256 = leNat bs := by omega
    have h2 : BitVec.ofNat 8 (b.toNat + 256 * leNat bs) = b := by
      apply BitVec.eq_of_toNat_eq; rw [BitVec.toNat_ofNat]; omega
    simp only [List.length_cons, leBytes, leNat, h1, h2, leBytes_leNat bs]

theorem vecBytes_bytesVec (bs : List Byte) (h : bs.length = 64) : vecBytes (bytesVec bs) = bs := by
  unfold vecBytes
  rw [bytesVec_toNat bs (by omega), ← h, leBytes_leNat]

theorem Tile.spadBytes_length (x : Tile) (a n : Nat) : (x.spadBytes a n).length = n := by simp [Tile.spadBytes]

theorem Tile.spadBytes_add (x : Tile) (a m n : Nat) : x.spadBytes a (m + n) = x.spadBytes a m ++ x.spadBytes (a + m) n := by
  simp only [Tile.spadBytes, List.range_add, List.map_append, List.map_map]
  congr 1; apply List.map_congr_left; intro k _; simp [Nat.add_assoc]

theorem Tile.spadBytes_slice (x : Tile) (a m d n : Nat) (h : d + n ≤ m) :
    ((x.spadBytes a m).drop d).take n = x.spadBytes (a + d) n := by
  obtain ⟨r, rfl⟩ := Nat.exists_eq_add_of_le h
  rw [Tile.spadBytes_add, Tile.spadBytes_add]
  have h1 : (x.spadBytes a d).length = d := x.spadBytes_length a d
  have h2 : (x.spadBytes (a + d) n).length = n := x.spadBytes_length _ _
  rw [List.append_assoc, List.drop_left' h1, List.take_left' h2]

theorem Tile.spadBytes_words (x : Tile) (k m : Nat) :
    ((List.range m).map (k + ·)).flatMap (fun j => x.spadBytes (64 * j) 64) = x.spadBytes (64 * k) (64 * m) := by
  induction m with
  | zero => rfl
  | succ m ih =>
    rw [List.range_succ, List.map_append, List.flatMap_append, ih, Nat.mul_succ, Tile.spadBytes_add]
    simp [Nat.mul_add]

/-! Reads (R98, R127, R347). -/

/-- A word without a mark, in a bank that is not retired, is read as it was written. -/
theorem Tile.lookWord_plain (x : Tile) (k : Nat) (h1 : x.mark k = {}) (h2 : x.retiredBanks.getLsbD (k % 16) = false) :
    x.lookWord k = { val := x.spadWord k, poison := none, corrected := 0, bad := false, rebuild := false } := by
  simp [Tile.lookWord, Tile.rawWord, h1, h2, wordRead]

theorem State.readWord_plain (s : State) (t rank k : Nat) (h1 : (s.tile t).mark k = {})
    (h2 : (s.tile t).retiredBanks.getLsbD (k % 16) = false) :
    s.readWord t rank k =
      (s.modTile t (·.use { port := k % 16, write := false, rank := rank, word := k }), (s.tile t).spadWord k, none) := by
  have h3 : (({ s.tile t with uses := (s.tile t).uses ++ [{ port := k % 16, write := false, rank := rank, word := k }] } : Tile).mark k) = {} := h1
  simp [State.readWord, Tile.lookWord_plain _ k h1 h2, State.noteWord, Tile.use, h3]

/-- The uses of the ports that reads of these words leave on a tile. -/
def State.useWords (s : State) (t rank : Nat) (ks : List Nat) : State :=
  ks.foldl (fun s k => s.modTile t (·.use { port := k % 16, write := false, rank := rank, word := k })) s

theorem State.readWords_plain (t rank : Nat) : ∀ (ks : List Nat) (s : State),
    (∀ k ∈ ks, (s.tile t).mark k = {} ∧ (s.tile t).retiredBanks.getLsbD (k % 16) = false) →
    s.readWords t rank ks = (s.useWords t rank ks, ks.flatMap (fun k => (s.tile t).spadBytes (64 * k) 64), none)
  | [], s, _ => rfl
  | k :: ks, s, h => by
    have hk := h k (by simp)
    have ih := State.readWords_plain t rank ks
      (s.modTile t (·.use { port := k % 16, write := false, rank := rank, word := k })) (by
        intro j hj; rw [State.tile_modTile_same]; exact h j (by simp [hj]))
    unfold State.readWords
    simp only [State.readWord_plain s t rank k hk.1 hk.2, ih, State.tile_modTile_same]
    rw [Tile.spadWord, vecBytes_bytesVec _ (Tile.spadBytes_length _ _ _)]
    rfl

theorem State.readSpad_plain (s : State) (t rank a n : Nat) (h : (s.tile t).plain a n) :
    s.readSpad t rank a n = (s.useWords t rank (wordsOf a n), (s.tile t).spadBytes a n, none) := by
  unfold State.readSpad
  rw [State.readWords_plain t rank _ s h]
  simp only [Prod.mk.injEq, true_and, and_true]
  unfold wordsOf
  split
  · rename_i h; subst h; simp [Tile.spadBytes]
  · rw [Tile.spadBytes_words, Tile.spadBytes_slice _ _ _ _ _ (by omega)]
    congr 1; omega

theorem State.useWords_cur (t rank : Nat) : ∀ (ks : List Nat) (s : State), (s.useWords t rank ks).cur = s.cur
  | [], _ => rfl
  | _ :: ks, s => State.useWords_cur t rank ks _

/-- Reads change nothing of any sequencer. -/
theorem State.useWords_seq (t rank : Nat) : ∀ (ks : List Nat) (s : State) (u q : Nat), (s.useWords t rank ks).seq u q = s.seq u q
  | [], _, _, _ => rfl
  | k :: ks, s, u, q => by
    show (State.useWords _ t rank ks).seq u q = _
    rw [State.useWords_seq]
    by_cases h : t = u
    · subst h; simp [State.seq, Tile.use, Tile.seq]
    · simp [State.seq, State.tile_modTile_other _ _ h]

theorem State.usePorts_eq : ∀ (ks : List Nat) (s : State), s.usePorts ks = s.useWords s.cur.tile s.accessRank ks
  | [], _ => rfl
  | k :: ks, s => by
    show State.usePorts (s.modTile s.cur.tile _) ks = _
    rw [State.usePorts_eq ks]
    rfl

theorem State.usePorts_cur (s : State) (ks : List Nat) : (s.usePorts ks).cur = s.cur := by
  rw [State.usePorts_eq, State.useWords_cur]
theorem State.usePorts_me (s : State) (ks : List Nat) : (s.usePorts ks).me = s.me := by
  rw [State.usePorts_eq]; show State.seq _ (State.cur _).tile (State.cur _).seq = _
  rw [State.useWords_cur, State.useWords_seq]; rfl

/-- A read of sound words by the word at the cursor. -/
theorem State.readSpad_mine (s : State) (a n : Nat) (h : s.myTile.plain a n) :
    s.readSpad s.cur.tile s.accessRank a n = (s.usePorts (wordsOf a n), s.myTile.spadBytes a n, none) := by
  rw [State.readSpad_plain s _ _ a n h, State.usePorts_eq]; rfl

end Sys2Proof.Machine
end

