-- ==== Sys2Proof/Laws/Secded.lean ====
section
/-! SUPPORT. What the SEC-DED code corrects and detects, whichever matrix it has (R347, R402): one wrong bit of a lane or of its check byte is corrected, two
are not. -/
namespace Sys2Proof.Config
set_option Elab.async false

/-! The check byte is linear. -/

theorem oddByte_xor (a b : BitVec 8) : oddByte (a ^^^ b) = Bool.xor (oddByte a) (oddByte b) := by
  have h (l : List Nat) : ∀ p q, l.foldl (fun p i => Bool.xor p ((a ^^^ b).getLsbD i)) (Bool.xor p q) =
      Bool.xor (l.foldl (fun p i => Bool.xor p (a.getLsbD i)) p) (l.foldl (fun p i => Bool.xor p (b.getLsbD i)) q) := by
    induction l with
    | nil => intro p q; rfl
    | cons k l ih =>
      intro p q
      have e : Bool.xor (Bool.xor p q) ((a ^^^ b).getLsbD k) = Bool.xor (Bool.xor p (a.getLsbD k)) (Bool.xor q (b.getLsbD k)) := by
        rw [BitVec.getLsbD_xor]; cases p <;> cases q <;> cases a.getLsbD k <;> cases b.getLsbD k <;> rfl
      rw [List.foldl_cons, e, ih]; rfl
  exact h (List.range 8) false false

theorem secded_xor (d m : BitVec 64) : secded (d ^^^ m) = secded d ^^^ secded m := by
  have h (f : Nat → BitVec 8) (l : List Nat) : ∀ a b : BitVec 8,
      l.foldl (fun c i => if (d ^^^ m).getLsbD i then c ^^^ f i else c) (a ^^^ b) =
      l.foldl (fun c i => if d.getLsbD i then c ^^^ f i else c) a ^^^ l.foldl (fun c i => if m.getLsbD i then c ^^^ f i else c) b := by
    induction l with
    | nil => intro a b; rfl
    | cons k l ih =>
      intro a b
      have e : (if (d ^^^ m).getLsbD k then (a ^^^ b) ^^^ f k else a ^^^ b) =
          (if d.getLsbD k then a ^^^ f k else a) ^^^ (if m.getLsbD k then b ^^^ f k else b) := by
        rw [BitVec.getLsbD_xor]
        cases d.getLsbD k <;> cases m.getLsbD k
        · rfl
        · exact BitVec.xor_assoc a b (f k)
        · show a ^^^ b ^^^ f k = a ^^^ f k ^^^ b
          rw [BitVec.xor_assoc, BitVec.xor_comm b, ← BitVec.xor_assoc]
        · show a ^^^ b = a ^^^ f k ^^^ (b ^^^ f k)
          rw [BitVec.xor_assoc a, BitVec.xor_comm b (f k), ← BitVec.xor_assoc (f k), BitVec.xor_self, BitVec.zero_xor]
      rw [List.foldl_cons, e, ih]; rfl
  exact h _ _ 0 0

/-! Its columns. -/

/-- The check byte of one data bit. -/
def column (i : Nat) : BitVec 8 := secdedMatrix.columns.getD i 0

theorem secded_bit {i : Nat} (hi : i < 64) : secded (1#64 <<< i) = column i := by
  have bit (k : Nat) (hk : k < 64) : (1#64 <<< i).getLsbD k = decide (k = i) := by
    rw [BitVec.getLsbD_shiftLeft]
    rcases Nat.lt_trichotomy k i with h | h | h
    · simp [h, Nat.ne_of_lt h]
    · subst h; simp [hk]
    · have : ¬ k < i := by omega
      have h0 : k - i ≠ 0 := by omega
      simp [hk, this, h0, Nat.ne_of_gt h]
  have h (f : Nat → BitVec 8) (l : List Nat) : ∀ c, l.Nodup → (∀ k ∈ l, k < 64) →
      l.foldl (fun c k => if (1#64 <<< i).getLsbD k then c ^^^ f k else c) c = if i ∈ l then c ^^^ f i else c := by
    induction l with
    | nil => intro c _ _; rfl
    | cons k l ih =>
      intro c hn hl
      rw [List.nodup_cons] at hn
      rw [List.foldl_cons, bit k (hl k (List.mem_cons_self ..)), ih _ hn.2 fun j hj => hl j (List.mem_cons_of_mem _ hj)]
      by_cases e : k = i
      · subst e; simp [hn.1]
      · have e' : i ≠ k := fun h => e h.symm
        simp [e, e']
  have := h column (List.range 64) 0#8 List.nodup_range fun k hk => List.mem_range.1 hk
  rw [if_pos (List.mem_range.2 hi), BitVec.zero_xor] at this
  exact this

theorem column_good : secdedMatrix.columns.length = 64 ∧ secdedMatrix.columns.Nodup ∧
    ∀ c ∈ secdedMatrix.columns, oddByte c = true ∧ c &&& (c - 1) ≠ 0 := by
  have h := secdedMatrix.good
  simp only [secdedColumns, Bool.and_eq_true, beq_iff_eq, decide_eq_true_eq, List.all_eq_true, bne_iff_ne] at h
  exact ⟨h.1.1, h.1.2, h.2⟩

theorem column_mem {i : Nat} (hi : i < 64) : column i ∈ secdedMatrix.columns := by
  have h : i < secdedMatrix.columns.length := by rw [column_good.1]; exact hi
  rw [column, List.getD_eq_getElem _ _ h]; exact List.getElem_mem h

/-- A column has an odd number of ones, and more than one. -/
theorem column_odd {i : Nat} (hi : i < 64) : oddByte (column i) = true := (column_good.2.2 _ (column_mem hi)).1
theorem column_ne_unit {i k : Nat} (hi : i < 64) (hk : k < 8) : column i ≠ 1#8 <<< k := by
  intro h
  have units : ∀ k : Fin 8, (1#8 <<< k.val) &&& (1#8 <<< k.val - 1) = 0 := by decide
  have := (column_good.2.2 _ (column_mem hi)).2
  rw [h] at this
  exact this (units ⟨k, hk⟩)

/-- Columns tell the bits apart. -/
theorem column_inj {i j : Nat} (hi : i < 64) (hj : j < 64) (h : column i = column j) : i = j := by
  have hi' : i < secdedMatrix.columns.length := by rw [column_good.1]; exact hi
  have hj' : j < secdedMatrix.columns.length := by rw [column_good.1]; exact hj
  rw [column, column, List.getD_eq_getElem _ _ hi', List.getD_eq_getElem _ _ hj'] at h
  exact (List.Nodup.getElem_inj_iff column_good.2.1).1 h

theorem unit_odd {k : Nat} (hk : k < 8) : oddByte (1#8 <<< k) = true := by
  have units : ∀ k : Fin 8, oddByte (1#8 <<< k.val) = true := by decide
  exact units ⟨k, hk⟩

end Sys2Proof.Config

namespace Sys2Proof.Machine
open Sys2Proof.Config

/-- A byte with one bit set has an odd number of ones. -/
theorem odd_of_popCount {c : BitVec 8} (h : popCount 8 c.toNat = 1) : oddByte c = true := by
  have all : ∀ c : BitVec 8, popCount 8 c.toNat = 1 → oddByte c = true := by decide +kernel
  exact all c h

theorem xor_eq_iff {a b c : BitVec 8} : a ^^^ b = c ↔ b = a ^^^ c := by
  constructor
  · intro h; rw [← h, ← BitVec.xor_assoc, BitVec.xor_self, BitVec.zero_xor]
  · intro h; rw [h, ← BitVec.xor_assoc, BitVec.xor_self, BitVec.zero_xor]

/-- A lane whose stored check byte is off by `x`. -/
theorem laneRead_off (d : BitVec 64) (x : BitVec 8) : laneRead d (secded d ^^^ x) =
    if x = 0#8 then some (d, false)
    else match (List.range 64).find? fun i => decide (column i = x) with
      | some i => some (d ^^^ (1#64 <<< i), true)
      | none => if popCount 8 x.toNat = 1 then some (d, true) else none := by
  have h0 : (secded d = secded d ^^^ x) ↔ x = 0#8 := by
    constructor
    · intro h
      have := xor_eq_iff.1 h.symm
      rwa [BitVec.xor_self] at this
    · intro h; rw [h, BitVec.xor_zero]
  have h1 : (List.range 64).find? (fun i => decide (secded (d ^^^ (1#64 <<< i)) = secded d ^^^ x)) =
      (List.range 64).find? fun i => decide (column i = x) := by
    have e (i : Nat) (hi : i ∈ List.range 64) : decide (secded (d ^^^ (1#64 <<< i)) = secded d ^^^ x) = decide (column i = x) := by
      rw [secded_xor, secded_bit (List.mem_range.1 hi)]
      have : (secded d ^^^ column i = secded d ^^^ x) ↔ column i = x := by
        rw [xor_eq_iff, ← BitVec.xor_assoc, BitVec.xor_self, BitVec.zero_xor]
      simp only [this]
    have gen : ∀ l : List Nat, (∀ i ∈ l, i ∈ List.range 64) → l.find? (fun i => decide (secded (d ^^^ (1#64 <<< i)) = secded d ^^^ x)) =
        l.find? fun i => decide (column i = x) := by
      intro l
      induction l with
      | nil => intro _; rfl
      | cons k l ih =>
        intro hl
        rw [List.find?_cons, List.find?_cons, e k (hl k (List.mem_cons_self ..)), ih fun i hi => hl i (List.mem_cons_of_mem _ hi)]
    exact gen _ fun _ h => h
  have h2 : secded d ^^^ (secded d ^^^ x) = x := by rw [← BitVec.xor_assoc, BitVec.xor_self, BitVec.zero_xor]
  unfold laneRead
  rw [h1, h2]
  by_cases hx : x = 0#8
  · rw [if_pos hx, if_pos (h0.2 hx)]
  · exact (if_neg fun h => hx (h0.1 h)).trans (if_neg hx).symm

/-- Errors of even weight are not corrected: two wrong bits, in the lane or its check byte. -/
theorem laneRead_even (d : BitVec 64) {x : BitVec 8} (h0 : x ≠ 0#8) (hx : oddByte x = false) : laneRead d (secded d ^^^ x) = none := by
  have hf : (List.range 64).find? (fun i => decide (column i = x)) = none := by
    rw [List.find?_eq_none]
    intro i hi h
    have := column_odd (List.mem_range.1 hi)
    rw [of_decide_eq_true h, hx] at this
    exact Bool.noConfusion this
  have hp : popCount 8 x.toNat ≠ 1 := fun h => by
    have := odd_of_popCount h
    rw [hx] at this
    exact Bool.noConfusion this
  rw [laneRead_off, if_neg h0, hf]
  exact if_neg hp

/-- The stored check byte of a lane in which the bits of `m` have turned. -/
theorem secded_turned (d m : BitVec 64) (x : BitVec 8) : secded d ^^^ x = secded (d ^^^ m) ^^^ (secded m ^^^ x) := by
  rw [secded_xor, BitVec.xor_assoc, ← BitVec.xor_assoc (secded m), BitVec.xor_self, BitVec.zero_xor]

/-- One wrong bit of a lane is corrected. -/
theorem laneRead_bit (d : BitVec 64) {i : Nat} (hi : i < 64) : laneRead (d ^^^ (1#64 <<< i)) (secded d) = some (d, true) := by
  have e := secded_turned d (1#64 <<< i) 0#8
  rw [BitVec.xor_zero, BitVec.xor_zero, secded_bit hi] at e
  have hne : column i ≠ 0#8 := fun h => by have := column_odd hi; rw [h] at this; exact absurd this (by decide)
  have hf : (List.range 64).find? (fun k => decide (column k = column i)) = some i := by
    rw [List.find?_eq_some_iff_append]
    refine ⟨by simp, List.range i, (List.range' (i + 1) (63 - i)), ?_, ?_⟩
    · have : 64 = i + (1 + (63 - i)) := by omega
      rw [this, List.range_add, List.range_add]
      have h : i + (1 + (63 - i)) - 1 = 63 := by omega
      simp [List.range'_eq_map_range, h, Nat.add_assoc]
    · intro k hk
      have := List.mem_range.1 hk
      simp only [Bool.not_eq_true', decide_eq_false_iff_not]
      intro h
      have := column_inj (by omega) hi h
      omega
  rw [e, laneRead_off, if_neg hne, hf]
  show some (d ^^^ 1#64 <<< i ^^^ 1#64 <<< i, true) = _
  rw [BitVec.xor_assoc, BitVec.xor_self, BitVec.xor_zero]

/-- One wrong bit of a check byte is corrected. -/
theorem laneRead_check (d : BitVec 64) {k : Nat} (hk : k < 8) : laneRead d (secded d ^^^ (1#8 <<< k)) = some (d, true) := by
  have units : ∀ k : Fin 8, 1#8 <<< k.val ≠ 0#8 ∧ popCount 8 (1#8 <<< k.val).toNat = 1 := by decide +kernel
  have hf : (List.range 64).find? (fun i => decide (column i = 1#8 <<< k)) = none := by
    rw [List.find?_eq_none]
    intro i hi h
    exact column_ne_unit (List.mem_range.1 hi) hk (of_decide_eq_true h)
  rw [laneRead_off, if_neg (units ⟨k, hk⟩).1, hf]
  exact if_pos (units ⟨k, hk⟩).2

/-- Two wrong bits of a lane are detected. -/
theorem laneRead_two (d : BitVec 64) {i j : Nat} (hi : i < 64) (hj : j < 64) (h : i ≠ j) :
    laneRead (d ^^^ (1#64 <<< i) ^^^ (1#64 <<< j)) (secded d) = none := by
  have e := secded_turned d (1#64 <<< i ^^^ 1#64 <<< j) 0#8
  rw [BitVec.xor_zero, BitVec.xor_zero, secded_xor (1#64 <<< i), secded_bit hi, secded_bit hj] at e
  rw [BitVec.xor_assoc, e]
  apply laneRead_even
  · intro h0
    have := xor_eq_iff.1 h0
    rw [BitVec.xor_zero] at this
    exact h (column_inj hi hj this.symm)
  · rw [oddByte_xor, column_odd hi, column_odd hj]; rfl

/-- A wrong bit of a lane and one of its check byte are detected. -/
theorem laneRead_bit_check (d : BitVec 64) {i k : Nat} (hi : i < 64) (hk : k < 8) :
    laneRead (d ^^^ (1#64 <<< i)) (secded d ^^^ (1#8 <<< k)) = none := by
  rw [secded_turned d (1#64 <<< i), secded_bit hi]
  apply laneRead_even
  · intro h0
    have := xor_eq_iff.1 h0
    rw [BitVec.xor_zero] at this
    exact column_ne_unit hi hk this.symm
  · rw [oddByte_xor, column_odd hi, unit_odd hk]; rfl

end Sys2Proof.Machine
end

