-- ==== Sys2Proof/Laws/Trap.lean ====
section
/-! SUPPORT. What recording and taking a fault can do. -/
namespace Sys2Proof.Machine
set_option Elab.async false

theorem State.noteReport_eq (s : State) (x : Nat) (f : FaultInfo) :
    ∃ ag fr, s.noteReport x f = { s with agenda := ag, free := fr } := by
  unfold State.noteReport
  split
  · exact ⟨_, _, rfl⟩
  · exact ⟨_, _, rfl⟩

theorem getLast?_record {α : Type} (l : List α) (a : α) : ((l ++ [a]).drop (l.length + 1 - 4096)).getLast? = some a := by
  rw [List.getLast?_drop]
  have h : ¬ (l ++ [a]).length ≤ l.length + 1 - 4096 := by rw [List.length_append, List.length_singleton]; omega
  rw [if_neg h]; simp

/-- The ring indices of waiting records move in the log and in the tiles alone. -/
theorem State.moveRecords_eq (s : State) (late : List FaultRecord) :
    ∃ l ts, s.moveRecords late = { s with log := l, tiles := ts } ∧ l.length = s.log.length := by
  unfold State.moveRecords
  split
  · exact ⟨s.log, s.tiles, rfl, rfl⟩
  · exact ⟨_, _, rfl, List.length_map ..⟩

/-- A record changes the log, which ends with it, its context, which keeps all but its waiting records, the ring indices of records
of its tick, the agenda and the count of free values, and nothing else. -/
theorem State.record_spec (s : State) (x : Nat) (r : FaultRecord) : ∃ l ts rs ag fr,
    s.record x r = { s with log := l, tiles := ts, agenda := ag, free := fr,
                            ctxs := mset {} s.ctxs x { s.ctx x with records := rs } } ∧
    l.getLast? = some { r with ring := s.ringFor x r } := by
  obtain ⟨ag, fr, h⟩ := s.noteReport_eq x r.info
  obtain ⟨l, ts, hm, hl⟩ := State.moveRecords_eq { s with agenda := ag, free := fr } (s.lateRecords x r)
  have h1 : State.lateRecords { s with agenda := ag, free := fr } x r = s.lateRecords x r := rfl
  have h2 : State.ringFor { s with agenda := ag, free := fr } x r = s.ringFor x r := rfl
  have hc : State.ctx { s with agenda := ag, free := fr } x = s.ctx x := rfl
  have hlog := getLast?_record l { r with ring := s.ringFor x r }
  unfold State.record
  simp only [h, h1, h2, hm, hc]
  dsimp only [State.setCtx, State.after, State.at_, State.tickFree]
  exact ⟨_, _, _, _, _, rfl, hlog⟩

/-- The parts of the state that a record leaves alone. -/
theorem State.record_eq (s : State) (x : Nat) (r : FaultRecord) : s.record x r =
    { s with log := (s.record x r).log, ctxs := (s.record x r).ctxs, tiles := (s.record x r).tiles,
             agenda := (s.record x r).agenda, free := (s.record x r).free } := by
  obtain ⟨l, ts, rs, ag, fr, h, -⟩ := s.record_spec x r
  rw [h]

/-- A record is the last of the log. -/
theorem State.record_last (s : State) (x : Nat) (r : FaultRecord) :
    (s.record x r).log.getLast? = some { r with ring := s.ringFor x r } := by
  obtain ⟨l, ts, rs, ag, fr, h, hl⟩ := s.record_spec x r
  rw [h]; exact hl

/-- The record's context keeps all but its waiting records. -/
theorem State.record_ctx (s : State) (x : Nat) (r : FaultRecord) : ∃ rs, (s.record x r).ctx x = { s.ctx x with records := rs } := by
  obtain ⟨l, ts, rs, ag, fr, h, -⟩ := s.record_spec x r
  exact ⟨rs, by rw [h]; dsimp only [State.ctx]; rw [mget_mset, if_pos rfl]⟩

/-- An issue fault of a region- or task-level code is taken by its sequencer. -/
theorem State.trapIssue_local (s : State) (f : FaultInfo) (h1 : partitionCode f.code = false) (h2 : f.code ≠ 0x0801)
    (h3 : f.code ≠ 0x0C03) :
    s.trapIssue f = State.takeLocal { s with cur := { s.cur with raised := some f } } s.cur.tile s.cur.seq f s.cur.bundle := by
  unfold State.trapIssue State.takeFault
  simp only [h1, if_neg h2, if_neg h3, Bool.false_eq_true, if_false]

/-- The sequencer as a region's trap leaves it (R343, R346, R370). -/
def State.trapped (s : State) (t q due : Nat) (rs : List (Nat × Nat)) (h : Nat) (r : FaultRecord) (hd : Handler) : Seq :=
  let y := s.seq t q
  { y with regions := rs, record := some r, fstep := BitVec.ofNat 64 ((y.handler.map (·.h)).getD y.clock),
           fresume := BitVec.ofNat 64 ((y.handler.map (·.due)).getD due), pc := h, taken := y.taken && y.inHandler, skipLeft := 0,
           handler := some hd }

/-- A fault that a region takes (R343, R346). -/
theorem State.takeLocal_region (s : State) (t q : Nat) (f : FaultInfo) (due : Nat) (rs : List (Nat × Nat)) (id h : Nat)
    (hp : (s.tile t).partTick ≠ some s.gtick) (hr : (s.seq t q).regions = rs ++ [(id, h)]) :
    let y := s.seq t q
    let H := (y.handler.map (·.h)).getD y.clock
    let due' := (y.handler.map (·.due)).getD due
    let r0 : FaultRecord := { info := { f with step := H }, escalated := y.inHandler, tick := s.gtick, tile := t, seq := q, depth := rs.length + 1 }
    let r : FaultRecord := { r0 with ring := s.ringFor (s.ctxOf t) r0, level := 1, region := id }
    let hd : Handler := match y.handler with
      | some w => { w with ret := none, entered := s.gtick }
      | none => { h := H, due := due', entered := s.gtick, skip := y.skipLeft, flags1 := y.flags1, flags2 := y.flags2 }
    s.takeLocal t q f due = (s.record (s.ctxOf t) r).modTile t fun z =>
      { z.setSeq q (s.trapped t q due rs h r hd) with
        frozen := true, trap := some (enterTrap z.trap q (if z.frozen then s.gtick + 1 else s.gtick)) } := by
  intro y H due' r0 r hd
  have hrec := s.record_eq (s.ctxOf t) r
  have hl : (s.seq t q).regions.getLast? = some (id, h) := by rw [hr]; simp
  have hd1 : (s.seq t q).regions.dropLast = rs := by rw [hr]; simp
  have hd2 : (s.seq t q).regions.length = rs.length + 1 := by rw [hr]; simp
  have hg : (s.record (s.ctxOf t) r).gtick = s.gtick := by rw [hrec]
  have hn : (decide ((s.tile t).partTick = some s.gtick) && !(s.seq t q).regions.isEmpty) = false := by simp [hp]
  unfold State.takeLocal
  simp only [hn, hl, State.recordOnce, Option.any_none, Bool.or_false, Bool.false_eq_true, if_false, hd1, hd2, Option.map_none, Option.getD_none]
  show (s.record (s.ctxOf t) r).modTile t _ = _
  rw [hg]
  rfl

end Sys2Proof.Machine
end

