-- ==== Sys2Proof/Laws/Vector.lean ====
section
/-! SUPPORT. Vector elements in terms of bit vectors: an element of a register as a lane, the mask of the active elements,
and what the shared operation of the integer lanes answers (R212, R214). -/
namespace Sys2Proof.Machine

theorem elemBits_eq (e : BitVec 2) : elemBits e = 8 * elemBytes e := rfl
theorem lanes_eq (e : BitVec 2) : 512 / elemBits e = lanes (elemBytes e) := by
  rcases elemBytes_cases e with h | h | h | h <;> simp [elemBits_eq, lanes, h]
theorem elemBytes_pos (e : BitVec 2) : 0 < elemBytes e := by rcases elemBytes_cases e with h | h | h | h <;> omega

/-- An element as a number is a lane. -/
theorem elem_toNat (n : Nat) (v : Vec) (i : Nat) : (elem n v i).toNat = nbits v.toNat (n * i) n := by
  simp [elem, nbits, Nat.shiftRight_eq_div_pow]
theorem lane_eq (e : BitVec 2) (v : Vec) (i : Nat) : lane v (elemBytes e) i = (elem (elemBits e) v i).toNat := by
  rw [elem_toNat, lane, elemBits_eq]

theorem active_eq (e : BitVec 2) (p : W64) (i : Nat) : active p (elemBytes e) i = activeElem p (elemBits e) i := by
  rw [active, activeElem, elemBits_eq, Nat.mul_div_cancel_left _ (by decide), Nat.mul_comm]
theorem byte_elem (e : BitVec 2) (k : Nat) : 8 * k / elemBits e = k / elemBytes e := by
  rw [elemBits_eq, Nat.mul_div_mul_left _ _ (by decide)]

theorem activeMask_getLsbD (e : BitVec 2) (p : W64) (k : Nat) (hk : k < 64) :
    (activeMask p (elemBytes e)).getLsbD k = activeElem p (elemBits e) (8 * k / elemBits e) := by
  rw [activeMask, elemMask_getLsbD _ _ _ (elemBytes_pos e) hk (elemBytes_mul_lanes e), byte_elem, active_eq]

theorem elem_packLanes (e : BitVec 2) (f : Nat → Nat) (i : Nat) (hi : i < 512 / elemBits e) :
    elem (elemBits e) (packLanes (elemBytes e) ((List.range (lanes (elemBytes e))).map f)) i = BitVec.ofNat _ (f i) := by
  apply BitVec.eq_of_toNat_eq
  rw [← lane_eq, lane_packLanes_map e f i (by rwa [← lanes_eq]), BitVec.toNat_ofNat, elemBits_eq]

theorem State.laneOp_answers (s : State) (lat : Nat) (e : BitVec 2) (d : BitVec 6) (p : BitVec 3) (f : Nat → Nat)
    (g : Nat → BitVec (elemBits e)) (h : ∀ i < 512 / elemBits e, BitVec.ofNat _ (f i) = g i) :
    s.answersLanes (.next (s.laneOp lat e d p f)) lat d p (elemBits e) g :=
  ⟨_, _, rfl, fun k hk => activeMask_getLsbD e _ k hk, fun i hi => by rw [elem_packLanes e f i hi, h i hi]⟩

theorem State.vecOp_answers (s : State) (e : BitVec 2) (d a b : BitVec 6) (p : BitVec 3) (lat : Nat) (f : Nat → Nat → Nat → Int)
    (g : Nat → BitVec (elemBits e))
    (h : ∀ i, BitVec.ofInt (elemBits e) (f (elemBits e) (elem (elemBits e) (s.V a) i).toNat (elem (elemBits e) (s.V b) i).toNat) = g i) :
    s.answersLanes (.next (s.vecOp e d a b p lat f)) lat d p (elemBits e) g := by
  refine s.laneOp_answers lat e d p _ g fun i _ => ?_
  rw [← h i, lane_eq, lane_eq, trunc_toNat]
  apply BitVec.eq_of_toNat_eq
  rw [BitVec.toNat_ofNat]
  exact Nat.mod_eq_of_lt (BitVec.isLt _)

end Sys2Proof.Machine
end

