-- ==== Sys2Proof/Tests/Slice0.lean ====
section
/-! SUPPORT. The model's own tests: terms the syntax refuses, words written out from the manual, single steps whose results are computed by hand from the
rules, and, under witness_<statement>, states and operands that meet the hypotheses of each clause of the statements. -/
namespace Sys2Proof.Tests
set_option Elab.async false
set_option maxRecDepth 20000
open Sys2Proof.Machine

/-! Terms that no word stands for: one for each check. -/

theorem test_wf_width : Instr.wf (.add 1 2 3 4) = false := by decide
theorem test_wf_offset : Instr.wf (.getl 1 2 0 4) = false := by decide
theorem test_wf_engine : Instr.wf (.beng 7 0 1) = false := by decide
theorem test_wf_count : Instr.wf (.skip 1 0) = false := by decide
theorem test_wf_floatSize : Instr.wf (.vfadd 3 1 2 3 0) = false := by decide
theorem test_wf_narrowMode : Instr.wf (.vnarrow 1 2 3 3 0) = false := by decide
theorem test_wf_format : Instr.wf (.tshape 0 5 0 0) = false := by decide
theorem test_wf_ragged : Instr.wf (.mma44 0 0 1 0 0 0 1 0) = false := by decide
theorem test_wf_rowOfFour : Instr.wf (.ord 61 0 0) = false := by decide
theorem test_wf_rowOfEight : Instr.wf (.accrd 57 0 0) = false := by decide
theorem test_wf_scopeField : Instr.wf (.phase 1 1 0) = false := by decide
theorem test_wf_event : Instr.wf .boot = false := by decide

/-! Words written out from the layouts of R171 and the opcodes of R170; most are printed in the manual beside their assembly. -/

theorem test_decode_addi : decodeWord 0x84231840 = .ok (.addi 3 3 64) := by decide
theorem test_decode_vadd : decodeWord 0xA0420A30 = .ok (.vadd 2 4 5 6 0) := by decide
theorem test_decode_mma : decodeWord 0x41802200 = .ok (.mma84 0 0 1 1 0 0 0 0) := by decide
theorem test_decode_lds : decodeWord 0x05E30800 = .ok (.lds 3 1 0 0) := by decide
theorem test_decode_add : decodeWord 0x002210C0 = .ok (.add 2 2 3 0) := by decide
theorem test_decode_loop : decodeWord 0x1160FFFD = .ok (.loop 0 0 (-3)) := by decide
theorem test_decode_vdelta : decodeWord 0x2F408418 = .ok (.vdelta 2 1 2 3 0) := by decide
theorem test_decode_vbscale : decodeWord 0x37428830 = .ok (.vbscale 5 4 6 0) := by decide
theorem test_decode_accscl : decodeWord 0x428A5200 = .ok (.accscl 1 0 4 5 1) := by decide
theorem test_decode_redc : decodeWord 0x510110C0 = .ok (.redc 1 2 3 0 0) := by decide
theorem test_decode_phase : decodeWord 0x60024000 = .ok (.phase 0 1 1) := by decide
theorem test_decode_rqcommit : decodeWord 0x61872980 = .ok (.rqcommit 7 5 6) := by decide
theorem test_decode_wjput : decodeWord 0x624410C0 = .ok (.wjput 4 2 3) := by decide
theorem test_decode_cropen : decodeWord 0x62E40006 = .ok (.cropen 1 6) := by decide
theorem test_decode_li : decodeWord 0x05640008 = .ok (.li 4 8) := by decide
theorem test_decode_vnarrow : decodeWord 0x36C40840 = .ok (.vnarrow 8 4 1 0 0) := by decide
theorem test_decode_tshape : decodeWord 0x40017EBE = .ok (.tshape 0 2 63 95) := by decide
theorem test_decode_mma88 : decodeWord 0x41CA6188 = .ok (.mma88 1 2 3 0 1 1 0 1) := by decide
theorem test_decode_aadd : decodeWord 0x60830890 = .ok (.aadd 3 1 2 1) := by decide
theorem test_decode_wgo : decodeWord 0x60600000 = .ok (.wgo 0 0 0) := by decide
theorem test_decode_diagst : decodeWord 0x63600880 = .ok (.diagst 1 2) := by decide
theorem test_decode_diagld : decodeWord 0x63840880 = .ok (.diagld 4 1 2) := by decide
theorem test_decode_crclose : decodeWord 0x63040000 = .ok (.crclose 1) := by decide
theorem test_decode_fretN : decodeWord 0x63200008 = .ok .fretN := by decide
theorem test_decode_beng : decodeWord 0x1149000D = .ok (.beng 4 1 13) := by decide
theorem test_decode_wjstat : decodeWord 0x62A60000 = .ok (.wjstat 6 0) := by decide
theorem test_decode_wjcommit : decodeWord 0x62600000 = .ok .wjcommit := by decide
theorem test_decode_cseed : decodeWord 0x51200000 = .ok (.cseed 0 0) := by decide
/-- A must-be-zero bit (log 36). -/
theorem test_decode_mustBeZero : decodeWord 0x63618980 = .error .mustBeZero := by decide
theorem test_decode_class7 : decodeWord 0x70000000 = .error .unassigned := by decide
theorem test_encode_addi : encode (.addi 3 3 64) = 0x04231840 := by decide

/-! States. -/

/-- Tile 0 alone, with a word of its sequencer A at the cursor. -/
def tileWith (x : Tile) : State :=
  { cur := { word := 0x8000000, bundle := 0x8000000, next := 0x8000004 }, tiles := [(0, x)] }
def seqWith (y : Seq) : State := tileWith { a := y }
/-- A state in which an event runs with some arguments. -/
def eventWith (s : State) (args : List Nat) (bytes : List Byte := []) : State := { s with cur := { args := args, bytes := bytes } }

/-- A placed instruction is what the first step runs (log 2). -/
theorem test_placed_runs : (match step (State.reset.withFetchWord 32 0x05640008) with
    | .next s => (s.seq 0 0).flights.map fun f => (f.step, f.act)
    | _ => []) = [(1, .g 4 8)] := by decide +kernel

/-! Witnesses: encodings, steps, bundles. -/

theorem witness_EncodedInstructionsDecodeBack : Instr.wf (.accrd 56 3 63) = true := by decide

/-- Tile 0 ready to issue, its text holding some words. -/
def ready (ws : List (Nat × Nat)) (y : Seq := {}) : State :=
  { tiles := [(0, { power := .active, settled := true, a := { y with run := .running },
                    mram := ws.foldl (fun m w => putBytes m w.1 (leBytes 4 w.2)) [] })] }

/-- A poisoned word of the text. -/
def aPoison : Poison := { code := 0x0502, addr := 0, injected := false }

def oneWord : State := ready [(0, 0x002210C0)]
theorem witness_StepRunsTheDecodedInstruction :
    oneWord.dead = false ∧ oneWord.next = .issue 0 0 ∧ (oneWord.seq 0 0).skipLeft = 0 ∧
    (oneWord.tile 0).bundleWords (oneWord.seq 0 0).pc = ([0x002210C0], none) ∧ textEnds [0x002210C0] = false ∧
    oneWord.textLocked 0 (oneWord.seq 0 0).pc 1 = false ∧
    decodeBundle (((oneWord.seq 0 0).pc - 0x8000000) / 4) [0x002210C0] = .ok [⟨0, .add 2 2 3 0⟩] := by
  and_intros <;> first | decide +kernel | rfl

/-- LI g4, 8 beside VADD.W v4, v5, v6. -/
def twoWords : State := ready [(0, 0x85640008), (4, 0x20420A30)]
/-- What the fetch of `n` words at the program counter of tile 0's A leaves (nothing to count here). -/
def fetched (s : State) (n : Nat) : State := ({ s with cur := { args := [0, 0] } } : State).noteText 0 (s.seq 0 0).pc n
theorem witness_StepRunsAWholeBundleAndHappenings_bundle :
    twoWords.dead = false ∧ twoWords.next = .issue 0 0 ∧ (twoWords.seq 0 0).skipLeft = 0 ∧
    (twoWords.tile 0).bundleWords (twoWords.seq 0 0).pc = ([0x85640008, 0x20420A30], none) ∧
    textEnds [0x85640008, 0x20420A30] = false ∧ (fetched twoWords 2).textLocked 0 (twoWords.seq 0 0).pc 2 = false ∧
    decodeBundle (((twoWords.seq 0 0).pc - 0x8000000) / 4) [0x85640008, 0x20420A30] = .ok [⟨0, .li 4 8⟩, ⟨1, .vadd 2 4 5 6 0⟩] := by
  and_intros <;> first | decide +kernel | rfl

/-- The state before the first of two words on units `u` and `v`, and that in which word `k` runs. -/
def beforeTwo (s : State) (u v : Nat) (i j : Instr) : State :=
  ((fetched s 2).take 0 0 ((s.seq 0 0).pc + 8) [(u, i), (v, j)]).useUnits 0 0 [(u, i), (v, j)]
def runsWord (s : State) (k u : Nat) : State := s.atWord k u
theorem witness_StepRunsAWholeBundleAndHappenings_complete :
    ∃ r0 r1 s1 s2, exec (.li 4 8) (runsWord (beforeTwo twoWords 0 1 (.li 4 8) (.vadd 2 4 5 6 0)) 0 0) = .next r0 ∧
      s1 = (runsWord (beforeTwo twoWords 0 1 (.li 4 8) (.vadd 2 4 5 6 0)) 0 0).afterWord r0 (.li 4 8) ∧ s1.cur.raised = none ∧
      exec (.vadd 2 4 5 6 0) (runsWord s1 1 1) = .next r1 ∧ s2 = (runsWord s1 1 1).afterWord r1 (.vadd 2 4 5 6 0) ∧ s2.cur.raised = none :=
  ⟨_, _, _, _, rfl, rfl, rfl, rfl, rfl, rfl⟩
/-- GETL of an empty slot first, and VGETL of one beside LI g4, 8. -/
theorem witness_StepRunsAWholeBundleAndHappenings_faults :
    (∃ r f, exec (.getl 1 2 0 0) (runsWord (beforeTwo twoWords 0 1 (.getl 1 2 0 0) (.vadd 2 4 5 6 0)) 0 0) = .next r ∧
      ((runsWord (beforeTwo twoWords 0 1 (.getl 1 2 0 0) (.vadd 2 4 5 6 0)) 0 0).afterWord r (.getl 1 2 0 0)).cur.raised = some f) ∧
    ∃ r0 r1 s1 f, exec (.li 4 8) (runsWord (beforeTwo twoWords 0 1 (.li 4 8) (.vgetl 1 2 0)) 0 0) = .next r0 ∧
      s1 = (runsWord (beforeTwo twoWords 0 1 (.li 4 8) (.vgetl 1 2 0)) 0 0).afterWord r0 (.li 4 8) ∧ s1.cur.raised = none ∧
      exec (.vgetl 1 2 0) (runsWord s1 1 1) = .next r1 ∧ ((runsWord s1 1 1).afterWord r1 (.vgetl 1 2 0)).cur.raised = some f :=
  ⟨⟨_, _, rfl, rfl⟩, _, _, _, _, rfl, rfl, rfl, rfl, rfl⟩
theorem witness_StepRunsAWholeBundleAndHappenings_kinds :
    (State.reset.dead = false ∧ State.reset.next = .agenda 0 { tick := 0, op := .boot }) ∧
    (({ tiles := [(0, { move := .waking 0 })] } : State).dead = false ∧
      ({ tiles := [(0, { move := .waking 0 })] } : State).next = .due .tileWakeComplete [0]) ∧
    (({ tiles := [(0, { power := .active, a := { run := .running } })] } : State).next = .settle 0) ∧
    (({} : State).dead = false ∧ ({} : State).next = .tick) := by
  and_intros <;> first | decide +kernel | rfl

theorem witness_StepRunsAWholeBundleAndHappenings_issue :
    twoWords.arg 0 = 0 ∧ twoWords.arg 1 = 0 ∧ (twoWords.seq 0 0).skipLeft = 0 ∧ textEnds [0x85640008, 0x20420A30] = false ∧
    (twoWords.noteText 0 (twoWords.seq 0 0).pc 2).textLocked 0 (twoWords.seq 0 0).pc 2 = false ∧
    (∃ s, exec .bundleIssue twoWords = .next s ∧ s.cur.raised = none ∧ s.cur.words = [(0, .li 4 8), (1, .vadd 2 4 5 6 0)] ∧
      (s.seq 0 0).pc = 0x8000008) := ⟨rfl, rfl, rfl, rfl, by decide +kernel, _, rfl, by decide +kernel, by decide +kernel, by decide +kernel⟩

/-- A state that is to skip, one at the end of the text, one with a poisoned word, one malformed, one with a word of class 7. -/
def skipping : State := ready [(0, 0x002210C0)] { skipLeft := 1 }
def atEnd : State := ready [(0xFFFFFC, 0x802210C0)] { pc := 0x8FFFFFC }
def poisoned : State := { tiles := [(0, { power := .active, settled := true, a := { run := .running }, mramPoison := [(0, aPoison)] })] }
def malformed : State := ready [(0, 0xA0420A30), (4, 0x05640008)]
def class7 : State := ready [(0, 0x70000000)]
/-- Text of a region that is locked: its owner's context has not unlocked it. -/
def lockedText : State := { oneWord with owners := [(0, (7, none))] }
/-- The end of the text, reached while a bundle is to be skipped. -/
def skippingEnd : State := ready [(0xFFFFFC, 0x802210C0)] { pc := 0x8FFFFFC, skipLeft := 1 }
theorem witness_SkippedAndRefusedBundles_locked :
    (lockedText.dead = false ∧ lockedText.next = .issue 0 0 ∧ (lockedText.seq 0 0).skipLeft = 0 ∧
      (lockedText.tile 0).bundleWords (lockedText.seq 0 0).pc = ([0x002210C0], none) ∧ textEnds [0x002210C0] = false ∧
      (fetched lockedText 1).textLocked 0 (lockedText.seq 0 0).pc 1 = true) ∧
    (skippingEnd.dead = false ∧ skippingEnd.next = .issue 0 0 ∧ 0 < (skippingEnd.seq 0 0).skipLeft ∧
      (skippingEnd.tile 0).bundleWords (skippingEnd.seq 0 0).pc = ([0x802210C0], none) ∧ textEnds [0x802210C0] = true) := by
  and_intros <;> first | decide +kernel | rfl
theorem witness_SkippedAndRefusedBundles_skipped :
    skipping.dead = false ∧ skipping.next = .issue 0 0 ∧ 0 < (skipping.seq 0 0).skipLeft ∧
    (skipping.tile 0).bundleWords (skipping.seq 0 0).pc = ([0x002210C0], none) ∧ textEnds [0x002210C0] = false := by
  and_intros <;> first | decide +kernel | rfl
theorem witness_SkippedAndRefusedBundles :
    (atEnd.dead = false ∧ atEnd.next = .issue 0 0 ∧ (atEnd.seq 0 0).skipLeft = 0 ∧
      (atEnd.tile 0).bundleWords (atEnd.seq 0 0).pc = ([0x802210C0], none) ∧ textEnds [0x802210C0] = true) ∧
    (poisoned.next = .issue 0 0 ∧ (∃ k, (poisoned.tile 0).bundleWords (poisoned.seq 0 0).pc = ([0], some k)) ∧ textEnds [0] = false ∧
      poisoned.textLocked 0 (poisoned.seq 0 0).pc 1 = false) ∧
    (malformed.next = .issue 0 0 ∧ (malformed.tile 0).bundleWords (malformed.seq 0 0).pc = ([0xA0420A30, 0x05640008], none) ∧
      textEnds [0xA0420A30, 0x05640008] = false ∧ malformed.textLocked 0 (malformed.seq 0 0).pc 2 = false ∧
      decodeBundle 0 [0xA0420A30, 0x05640008] = .error .malformed) ∧
    (class7.next = .issue 0 0 ∧ (class7.tile 0).bundleWords (class7.seq 0 0).pc = ([0x70000000], none) ∧ textEnds [0x70000000] = false ∧
      class7.textLocked 0 (class7.seq 0 0).pc 1 = false ∧ ∃ u, decodeBundle 0 [0x70000000] = .error (.notInstruction u)) := by
  refine ⟨?_, ⟨?_, ⟨aPoison, ?_⟩, ?_, ?_⟩, ?_, ⟨?_, ?_, ?_, ?_, ⟨255, ?_⟩⟩⟩ <;> and_intros <;> first | decide +kernel | rfl

/-! Witnesses: scalar words. -/

/-- A sequencer that holds one result in flight, due at its clock. -/
def landing (f : Flight) : State := eventWith (seqWith { flights := [f] }) [0, 0]
def dueOf (s : State) : List Act := (s.seq 0 0).dueFlights.map (·.act)
theorem witness_ResultsFlyAndLand_scalar :
    ∃ f, ((landing { step := 0, issue := 0, unit := 0, bundle := 0, act := .g 3 7 }).seq 0 0).dueFlights = [f] ∧ f.act = .g 3 7 ∧ f.upset = 0 ∧
      f.poison = none ∧ f.parity = false := ⟨_, rfl, rfl, rfl, rfl, rfl⟩
theorem witness_ResultsFlyAndLand_vector :
    (∃ f, ((landing { step := 0, issue := 0, unit := 1, bundle := 0, act := .v 3 1 7 }).seq 0 0).dueFlights = [f] ∧ f.act = .v 3 1 7 ∧
      f.upset = 0 ∧ f.poison = none ∧ f.shadow = none ∧ f.parity = false) ∧
    (∃ f, ((landing { step := 0, issue := 0, unit := 1, bundle := 0, act := .p 0 7 }).seq 0 0).dueFlights = [f] ∧ f.act = .p 0 7 ∧ f.upset = 0 ∧
      f.poison = none ∧ f.shadow = none ∧ f.parity = false) :=
  ⟨⟨_, rfl, rfl, rfl, rfl, rfl, rfl⟩, ⟨_, rfl, rfl, rfl, rfl, rfl, rfl⟩⟩

theorem witness_ResultsFlyAndLand_order :
    (∀ f ∈ ((landing { step := 0, issue := 0, unit := 5, bundle := 0, act := .g 3 7 }).seq 0 0).flights, f.issue < 2 ^ 64 ∧ f.unit < 8) ∧
    oneWord.next = .issue 0 0 := ⟨by decide +kernel, rfl⟩

def calls (n : Nat) : State := seqWith { ras := List.replicate n 4, g := [(1, 0x8FFFFFC)] }
theorem witness_JumpsAndConditionalBranches :
    ((calls 15).me.ras.length < 16 ∧ textOk ((calls 15).relTarget (0 : BitVec 21).toInt) = true ∧ textOk ((calls 15).N 1) = true) ∧
    16 ≤ (calls 16).me.ras.length ∧ (calls 0).me.ras = [] ∧
    ((calls 1).me.ras = 4 :: [] ∧ textOk (0x8000000 + 4) = true) ∧
    textOk ((calls 15).relTarget (-1 : BitVec 21).toInt) = false ∧ textOk ((calls 15).N 2) = false ∧
    (seqWith { ras := [0x1000000] }).me.ras = 0x1000000 :: [] ∧ textOk (0x8000000 + 0x1000000) = false := by decide +kernel

theorem witness_LoopsSkipsHaltsAndPredicates_loop :
    (mget 0 (seqWith { lc := [(2, 1)] }).me.lc 2).toNat ≤ 1 ∧
    1 < (mget 0 (seqWith { lc := [(2, 2)] }).me.lc 2).toNat ∧ textOk ((seqWith { lc := [(2, 2)] }).relTarget (1 : BitVec 16).toInt) = true ∧
    textOk ((seqWith { lc := [(2, 2)] }).relTarget (-1 : BitVec 16).toInt) = false := by
  decide +kernel

def handling : State := seqWith { handler := some { h := 5 }, fresume := 0x8000000 }
theorem witness_LoopsSkipsHaltsAndPredicates_skip : (seqWith {}).me.inHandler = false ∧ handling.me.inHandler = true := by decide +kernel

theorem witness_ControlRegistersReadAndWrite_reads :
    (∃ r, (seqWith { record := some { info := { code := 0x0101 }, level := 0, tick := 0 } }).me.record = some r) ∧ (seqWith {}).me.record = none ∧
    (seqWith {}).me.regions = [] ∧ (seqWith { regions := [(1, 2)] }).me.regions = [(1, 2)] ∧
    (seqWith { regions := [(1, 2), (7, 4)] }).me.regions = [(1, 2), (7, 4)] ∧
    (seqWith { regions := [(1, 2), (7, 4), (0, 6)] }).me.regions = [(1, 2), (7, 4), (0, 6)] ∧
    (seqWith { regions := [(1, 2), (7, 4), (0, 6), (3, 8)] }).me.regions = [(1, 2), (7, 4), (0, 6), (3, 8)] :=
  ⟨⟨_, rfl⟩, rfl, rfl, rfl, rfl, rfl, rfl⟩
theorem witness_ControlRegistersReadAndWrite_writes :
    ((0x09 : BitVec 8).toNat = 0x09 ∧ 0x24 ≤ (0x3F : BitVec 8).toNat ∧ (0x3F : BitVec 8).toNat < 0x40 ∧ 0x4E ≤ (0x4E : BitVec 8).toNat) ∧
    (ctlAssigned 0x0D = true ∧ (0x0D ≠ 0x47) ∧ ¬ (0x10 ≤ 0x0D)) ∧
    (ctlAssigned 0x47 = true ∧ handling.me.inHandler = true) ∧
    (ctlAssigned 0x17 = true ∧ shapeOk (tsEf (2 + 512 * 63)) (tsCols (2 + 512 * 63)) = true) ∧
    ctlAssigned 0x09 = false ∧ (seqWith {}).me.inHandler = false ∧
    shapeOk (tsEf 7) (tsCols 7) = false := by decide +kernel

theorem witness_LocalAndMramLoads_local :
    (1 : Nat) % 2 ≠ 0 ∧ (0x200000 % 8 = 0 ∧ spadOffset 0x200000 8 = none) ∧
    (spadOffset 0x1FFFF8 8 = some 0x1FFFF8 ∧ (seqWith {}).banksFree 0x1FFFF8 8 0 = true ∧ (seqWith {}).banksFree 0x1FFFF8 8 2 = true ∧
      ∀ k ∈ wordsOf 0x1FFFF8 8, (seqWith {}).myTile.mark k = {} ∧ (seqWith {}).myTile.retiredBanks.getLsbD (k % 16) = false) := by
  decide +kernel

/-- Bank 15 of the tile reserved by an atomic of B. -/
def reservedTile (y : Seq := {}) : State := tileWith { a := y, reservations := [{ bank := 15, left := 5, seq := 1, issue := 0 }] }
theorem witness_LocalAndMramLoads_reserved :
    0x1FFFF8 % 8 = 0 ∧ spadOffset 0x1FFFF8 8 = some 0x1FFFF8 ∧ (reservedTile).banksFree 0x1FFFF8 8 0 = false ∧
    (reservedTile).banksFree 0x1FFFF8 8 2 = false := by decide +kernel

def lockedTile : State := { seqWith {} with owners := [(0, (7, none))] }
theorem witness_LocalAndMramLoads_mram :
    (0x8000001 : Nat) % 8 ≠ 0 ∧ mramOffset 0x9000000 8 = none ∧ mramOffset 0x8FFFFF8 8 = some 0xFFFFF8 ∧
    (seqWith {}).mramLocked 0 0xFFFFF8 (seqWith {}).myCtx = false ∧ (seqWith {}).myTile.overlays = [] ∧ (seqWith {}).myTile.cellErrors = [] ∧ (seqWith {}).myTile.mramPoison = [] ∧
    lockedTile.mramLocked 0 0 lockedTile.myCtx = true := by
  decide +kernel

theorem witness_StoresLocalAndGlobal_local :
    (∃ f w, ((landing { step := 0, issue := 0, unit := 0, bundle := 0, act := .store { bytes := cellsFrom 0 [1] } }).seq 0 0).dueFlights = [f] ∧
      f.act = .store w ∧ f.unit ≠ 3 ∧ f.poison = none ∧ f.parity = false) ∧
    (({ bytes := cellsFrom 0x1FFFFF [1] } : LocalWrite).add = false ∧
      ({ bytes := cellsFrom 0x1FFFFF [1] } : LocalWrite).bytes = [] ++ (0x1FFFFF, 1) :: [] ∧ ∀ b, (0, b) ∉ cellsFrom 0x1FFFFF [(1 : Byte)]) := by
  refine ⟨⟨_, _, rfl, rfl, by decide, rfl, rfl⟩, rfl, rfl, ?_⟩
  intro b h
  simp [cellsFrom] at h

/-- A row of a TST that lands, on a tile where no atomic meets it and on one whose bank 15 one holds. -/
def tstRow (rs : List Reservation) : State :=
  eventWith (tileWith { reservations := rs, a := { flights := [{ step := 0, issue := 0, unit := 3, bundle := 0, act := .store { bytes := cellsFrom 0x1FFFC0 [1] } }] } }) [0, 0]
theorem witness_StoresLocalAndGlobal_rows :
    (∀ rs, ∃ f w, ((tstRow rs).seq 0 0).dueFlights = [f] ∧ f.act = .store w ∧ f.unit = 3 ∧ f.poison = none ∧ f.parity = false ∧
      w = { bytes := cellsFrom 0x1FFFC0 [1] }) ∧
    ((tstRow []).tile 0).rowMeets false (wordsIn (cellsFrom 0x1FFFC0 [1])) = false ∧
    ((tstRow [{ bank := 15, left := 1, seq := 1, issue := 0 }]).tile 0).rowMeets false (wordsIn (cellsFrom 0x1FFFC0 [1])) = true := by
  refine ⟨fun rs => ⟨_, _, rfl, rfl, rfl, rfl, rfl, rfl⟩, ?_, ?_⟩ <;> decide +kernel

/-- A context whose page table maps the page at 0 to LPDDR-6 by its TLB, on tile 0. -/
def mapped (y : Seq := {}) : State :=
  { seqWith { y with tlb := [⟨0, 32768, 0x8000, true, false⟩] } with ctxs := [(0, { created := true })] }

theorem witness_StoresLocalAndGlobal_global :
    (7 : BitVec 3) = 7 ∧ ((0 : BitVec 3) ≠ 7 ∧ 0x7FFF % 8 ≠ 0) ∧ 0x20 % 64 ≠ 0 ∧
    (∃ u pa nc, mapped.translate mapped.cur.tile mapped.cur.seq 0x7FF8 true = .ok (u, pa, nc)) ∧
    (∃ u pa nc, mapped.translate mapped.cur.tile mapped.cur.seq (mapped.N 0) true = .ok (u, pa, nc) ∧ mapped.N 0 % 64 = 0) := by
  refine ⟨rfl, ⟨by decide, by decide⟩, by decide, ⟨_, _, _, rfl⟩, ⟨_, _, _, rfl, rfl⟩⟩
/-- An address above every mapped page, for STX and for VSTX. -/
theorem witness_StoresLocalAndGlobal_untranslated :
    (0 : BitVec 3) ≠ 7 ∧ 2 ^ 57 % 8 = 0 ∧ mapped.translate mapped.cur.tile mapped.cur.seq (2 ^ 57) true = .error 0x0401 ∧
    (let s : State := { mapped with cur := { mapped.cur with tile := 1 } }
     s.N 0 % 64 = 0 ∧ s.translate s.cur.tile s.cur.seq (s.N 0) true = .error 0x0402) := by
  refine ⟨by decide, by decide, rfl, ?_, ?_⟩ <;> decide +kernel

/-- A sequencer whose landing slot 3 stands in some state, seen by its bundle. -/
def slotted (d : Landing) : State :=
  let s := mapped { l := [(3, d)] }
  { s with cur := { s.cur with slots := [(3, d)] } }
theorem witness_GlobalLoadsAndTheirSlots_requests :
    1 % 8 ≠ 0 ∧ mapped.translate 0 0 (2 ^ 57) false = .error 0x0401 ∧
    (∃ u pa nc, (slotted { st := .pending }).translate 0 0 ((slotted { st := .pending }).N 0) false = .ok (u, pa, nc) ∧
      (u.me.landing 3).accepts = false ∧ (slotted { st := .pending }).N 0 % 64 = 0) ∧
    (∃ u pa nc w d p m, (slotted { st := .full }).translate 0 0 ((slotted { st := .full }).N 0) false = .ok (u, pa, nc) ∧
      (u.me.landing 3).accepts = true ∧ u.loadSector 0 0 pa 64 nc true = (w, d, p, m)) := by
  refine ⟨by decide, rfl, ⟨_, _, _, rfl, rfl, rfl⟩, ⟨_, _, _, _, _, _, _, rfl, rfl, rfl⟩⟩
theorem witness_GlobalLoadsAndTheirSlots_reads :
    (mget ({} : Landing) (slotted { st := .held }).cur.slots 3).st ≠ .full ∧
    (mget ({} : Landing) (slotted { st := .full }).cur.slots 3).st = .full ∧
    (mget ({} : Landing) (slotted { st := .full }).cur.slots 3).poison = none ∧
    (slotted { st := .full }).me.landing 3 = mget {} (slotted { st := .full }).cur.slots 3 := by decide +kernel

/-! Witnesses: vectors. -/

theorem witness_VectorReductionsScalesAndNarrowing_reductions : (1 : BitVec 2) = 1 ∨ (1 : BitVec 2) = 2 := by decide
theorem witness_VectorReductionsScalesAndNarrowing_scales : (6 : BitVec 3).toNat % 4 ≠ 3 := by decide

def sound (x : Tile) (off n : Nat) : Bool := (wordsOf off n).all fun k => x.mark k == {} && !x.retiredBanks.getLsbD (k % 16)
theorem sound_plain (x : Tile) (off n : Nat) (h : sound x off n = true) : x.plain off n := by
  intro k hk
  have := (List.all_eq_true.mp h) k hk
  simpa using this

theorem witness_VectorMemory_whole :
    0x20 % 64 ≠ 0 ∧ spadOffset 0x200000 64 = none ∧ spadOffset 0x1FFFC0 64 = some 0x1FFFC0 ∧ spadOffset 0x1FFFBF 64 = some 0x1FFFBF ∧
    (seqWith {}).banksFree 0x1FFFBF 64 0 = true ∧ (seqWith {}).wordsFree (wordsIn (maskedCells 0x1FFFBF (activeMask ((seqWith {}).P 0) 4) 0)) 3 = true ∧
    sound (seqWith {}).myTile 0x1FFFBF 64 = true ∧
    mramOffset 0x8FFFFC0 64 = some 0xFFFFC0 ∧ (seqWith {}).mramLocked 0 0xFFFFC0 (seqWith {}).myCtx = false := by decide +kernel

/-- Elements of 4 bytes, the predicate's first and last active, their addresses 0 and the last word of the scratchpad. -/
def gathering : State := seqWith { p := [(1, 1 + 2 ^ 60)], v := [(1, BitVec.ofNat 512 (0x1FFFFC * 2 ^ 480))] }
def lanesOf (s : State) : List Nat := (List.range 16).filter fun i => activeElem (s.P 1) 32 i
def laneAddr (s : State) (i : Nat) : Nat := (s.G 0).toNat + (elem 32 (s.me.readV 1) i).toNat
theorem witness_VectorMemory_elements :
    lanesOf gathering = [0, 15] ∧ (lanesOf gathering).all (fun i => laneAddr gathering i % 4 == 0 &&
      (spadOffset (laneAddr gathering i) 4).any fun o => gathering.banksFree o 4 0 && gathering.banksFree o 4 4 && sound gathering.myTile o 4) = true ∧
    lanesOf (seqWith { p := [(1, 1)] }) = [] ++ 0 :: [] ∧
    laneAddr (seqWith { v := [(1, 2)] }) 0 % 4 ≠ 0 ∧
    (laneAddr (seqWith { v := [(1, 0x200000)] }) 0 % 4 = 0 ∧ spadOffset (laneAddr (seqWith { v := [(1, 0x200000)] }) 0) 4 = none) := by
  decide +kernel

/-- Loads and stores in the reserved bank 15; VLDM beyond the weight MRAM, and in a locked region. -/
theorem witness_VectorMemory_refused :
    (spadOffset 0x1FFFC0 64 = some 0x1FFFC0 ∧ (reservedTile).banksFree 0x1FFFC0 64 0 = false ∧ (reservedTile).wordsFree (wordsIn (maskedCells 0x1FFFC0 (activeMask ((reservedTile).P 0) 4) 0)) 3 = false ∧
      activeMask ((reservedTile).P 0) 4 ≠ 0 ∧ activeMask ((reservedTile).P 1) 4 = 0) ∧
    (0x9000000 % 64 = 0 ∧ mramOffset 0x9000000 64 = none) ∧
    (mramOffset 0x8000000 64 = some 0 ∧ lockedTile.mramLocked lockedTile.cur.tile 0 lockedTile.myCtx = true) := by decide +kernel
/-- A gather and a scatter whose last element lies in the reserved bank. -/
def gatherHeld : State := reservedTile { p := [(1, 1 + 2 ^ 60)], v := [(1, BitVec.ofNat 512 (0x1FFFFC * 2 ^ 480))] }
theorem witness_VectorMemory_elementHeld :
    lanesOf gatherHeld = [0, 15] ∧ (lanesOf gatherHeld).all (fun i => laneAddr gatherHeld i % 4 == 0 && (spadOffset (laneAddr gatherHeld i) 4).isSome) = true ∧
    spadOffset (laneAddr gatherHeld 15) 4 = some 0x1FFFFC ∧ gatherHeld.banksFree 0x1FFFFC 4 0 = false ∧
    gatherHeld.banksFree 0x1FFFFC 4 4 = false := by decide +kernel

/-! Witnesses: the number formats. -/

/-- 1.0, infinity, a quiet and a signalling NaN, zero of binary16 and of binary32. -/
theorem witness_FloatsByTheirExactValues :
    (∀ f ∈ [b16, b32], f.negative 0 = false ∧ f.finite 0 ∧ f.value 0 = 0 ∧ f.finite (f.bias * 2 ^ f.frac) ∧ f.infinite f.infBits ∧
      f.bias * 2 ^ f.frac < 2 ^ f.width ∧ f.infBits < 2 ^ f.width ∧ f.notNumber (f.infBits + 1) ∧ f.signals (f.infBits + 1) ∧
      f.notNumber f.nan ∧ ¬ f.signals f.nan ∧ f.nan < 2 ^ f.width ∧ f.negative (f.signBit true) = true ∧ f.infinite (f.infBits + f.signBit true)) ∧
    (0 < 3 ∧ 1 ≤ 1 ∧ 64 ≤ 64 ∧ b32.value 0x3F800000 = 1 ∧ b16.value 0x3C00 = 1) := by
  refine ⟨?_, by decide, by decide, by decide, ?_, ?_⟩
  · simp only [List.forall_mem_cons, List.not_mem_nil, false_imp_iff, implies_true, and_true]
    constructor <;> norm_num [Fmt.value, Fmt.negative, Fmt.finite, Fmt.infinite, Fmt.notNumber, Fmt.signals, Fmt.expField, Fmt.fracField, Fmt.infBits,
      Fmt.nan, Fmt.signBit, Fmt.width, b16, b32] <;> decide
  all_goals norm_num [Fmt.value, Fmt.fracField, Fmt.expField, Fmt.negative, Fmt.bias, b32, b16, (by decide : Nat.testBit 1065353216 31 = false),
    (by decide : Nat.testBit 15360 15 = false)]

/-- The values of some binary32 words: 1.0, 0, a NaN, an infinity. -/
theorem values : b32.finite 0x3F800000 ∧ b32.value 0x3F800000 = 1 ∧ b32.finite 0 ∧ b32.value 0 = 0 ∧ b32.notNumber 0x7FC00000 ∧ b32.infinite 0x7F800000 ∧
    b32.finite 0x33800000 ∧ b16.finite 0x3C00 ∧ b16.value 0x3C00 = 1 := by
  norm_num [Fmt.value, Fmt.negative, Fmt.finite, Fmt.infinite, Fmt.notNumber, Fmt.expField, Fmt.fracField, Fmt.bias, b16, b32,
    (by decide : Nat.testBit 1065353216 31 = false), (by decide : Nat.testBit 15360 15 = false)]
theorem witness_NumberFunctions_values :
    (b32.notNumber 0x7FC00000 ∧ b32.infinite 0x7F800000 ∧ (b32.finite 0 ∧ b32.value 0 = 0) ∧ b32.finite 0x3F800000 ∧ b32.value 0x3F800000 ≠ 0) ∧
    (∃ table : ℕ → ℕ, ∀ j < 64, (2 * table j - 1) ^ 64 < 2 ^ (24 * 64 + j) ∧ 2 ^ (24 * 64 + j) < (2 * table j + 1) ^ 64) ∧
    (0x3C00 < 2 ^ 16 ∧ ¬ b16.notNumber 0x3C00 ∧ b16.finite 0x3C00 ∧ b32.finite 0x3F800000 ∧ ¬ b16.infinite 0x3C00 ∧ ¬ b32.infinite 0x3F800000 ∧
      b16.negative 0x3C00 = b32.negative 0x3F800000 ∧ b16.value 0x3C00 = b32.value 0x3F800000) ∧
    (b16.notNumber 0x7E00 ∧ b32.infinite (rcp32 0).1 ∧ b32.finite (rcp32 0x3F800000).1) := by
  obtain ⟨h1, h2, h3, h4, h5, h6, _, h8, h9⟩ := values
  refine ⟨⟨h5, h6, ⟨h3, h4⟩, h1, by rw [h2]; decide⟩, ⟨fun j => exp2Table j + 2 ^ 23 - 0x3F800000, by decide +kernel⟩,
    ⟨by decide, ?_, h8, h1, ?_, ?_, by decide, by rw [h9, h2]⟩, ?_, ?_, ?_⟩
  · exact fun h => h8 h.1
  · exact fun h => h8 h.1
  · exact fun h => h1 h.1
  · norm_num [Fmt.notNumber, Fmt.expField, Fmt.fracField, b16]
  · rw [show (rcp32 0).1 = 0x7F800000 by decide +kernel]; exact h6
  · rw [show (rcp32 0x3F800000).1 = 0x3F800000 by decide +kernel]; exact h1
/-- A tree of two lanes, one of them inactive, and one of both active. -/
theorem witness_NumberFunctions_tree (x : Nat) :
    ∃ (w : Nat → Nat → Option Nat) (fl : Nat → Nat → FFlags), (∀ i < 2 ^ 1, [some x, none][i]? = some (w 0 i)) ∧
      ∀ s < 1, ∀ i < 2 ^ (1 - 1 - s), (w (s + 1) i, fl s i) = match w s i, w s (i + 2 ^ (1 - 1 - s)) with
        | none, y => (y, 0)
        | x, none => (x, 0)
        | some x, some y => (some (b32.add 0 x y).1, (b32.add 0 x y).2) := by
  refine ⟨fun _ i => [some x, none].getD i none, fun _ _ => 0, ?_, ?_⟩
  · intro i hi
    have : i = 0 ∨ i = 1 := by omega
    rcases this with rfl | rfl <;> rfl
  · intro s hs i hi
    obtain rfl : s = 0 := by omega
    obtain rfl : i = 0 := by simpa using hi
    rfl
/-- Sixteen lanes of which lane 0 is active, holding 1.0 or a NaN, under the targets 127.0 and 1.0. -/
theorem witness_NumberFunctions_scales :
    (0x7F800000 < 2 ^ 31 ∧ 127 ∈ [127, 31, 7] ∧ ¬ b32.finite 0x7F800000 ∧ b32.value 0 = 0 ∧ b32.finite 0x3F800000 ∧ b32.value 0x3F800000 ≠ 0) ∧
    (((0x42FE0000 : Nat), (127 : Nat)) ∈ [(0x42FE0000, 127), (0x41F80000, 31), (0x40E00000, 7)] ∧ (elem 32 (0x42FE0000 : Vec) 0).toNat = 0x42FE0000 ∧
      activeElem 1 32 0 = true ∧ b32.notNumber ((elem 32 (0x7FC00000 : Vec) 0).toNat % 2 ^ 31) ∧
      (∀ i < 16, activeElem 1 32 i = true → i = 0) ∧ ¬ b32.notNumber ((elem 32 (0x3F800000 : Vec) 0).toNat % 2 ^ 31)) ∧
    (elem 32 (0x3F800000 : Vec) 0).toNat ∉ [0x42FE0000, 0x41F80000, 0x40E00000] := by
  obtain ⟨h1, h2, _, h4, h5, h6, _⟩ := values
  refine ⟨⟨by decide, by decide, fun h => h h6.1, h4, h1, by rw [h2]; decide⟩, ⟨by decide, by decide +kernel, by decide +kernel, ?_, by decide +kernel, ?_⟩,
    by decide +kernel⟩
  · rw [show (elem 32 (0x7FC00000 : Vec) 0).toNat % 2 ^ 31 = 0x7FC00000 by decide +kernel]; exact h5
  · rw [show (elem 32 (0x3F800000 : Vec) 0).toNat % 2 ^ 31 = 0x3F800000 by decide +kernel]; exact fun h => h1 h.1
/-- Lanes whose sum is 1.0, infinite or a NaN; scales 0x7F00, 0 and 0x3F00 (1.0); 1.0 narrowed exactly, 2^24 clamped. -/
theorem witness_NumberFunctions_narrowing :
    (scalePoison 0x7F00 ∧ ¬ scalePoison 0x3F00 ∧ scaleValue 0 = 0 ∧ scaleValue 0x3F00 = 1) ∧
    (b32.notNumber (b32.add 0 0x7FC00000 0).1 ∧ b32.infinite (b32.add 0 0x7F800000 0).1 ∧ b32.finite (b32.add 0 0x3F800000 0).1 ∧
      b32.value (b32.add 0 0x3F800000 0).1 = 1) ∧
    (b32.finite (b32.add 0 0x4B800000 0).1 ∧ b32.value (b32.add 0 0x4B800000 0).1 = 2 ^ 24 ∧ max (-128) (min ((2 : ℤ) ^ 24) 127) ≠ 2 ^ 24 ∧
      max (-128) (min (1 : ℤ) 127) = 1) ∧
    (¬ scalePoison (0x3F00 : BitVec 16).toNat ∧ ¬ b32.signals 0x7FC00000 ∧ b32.signals 0x7F800001) := by
  obtain ⟨h1, h2, _, _, h5, h6, _⟩ := values
  rw [show (b32.add 0 0x7FC00000 0).1 = 0x7FC00000 by decide +kernel, show (b32.add 0 0x7F800000 0).1 = 0x7F800000 by decide +kernel,
    show (b32.add 0 0x3F800000 0).1 = 0x3F800000 by decide +kernel, show (b32.add 0 0x4B800000 0).1 = 0x4B800000 by decide +kernel]
  refine ⟨⟨by norm_num [scalePoison], by norm_num [scalePoison], by norm_num [scaleValue], ?_⟩, ⟨h5, h6, h1, h2⟩, ⟨?_, ?_, by decide, by decide⟩, ?_, ?_, ?_⟩
  · norm_num [scaleValue, (by decide : Nat.testBit 16128 15 = false)]
  · norm_num [Fmt.finite, Fmt.expField, b32]
  · norm_num [Fmt.value, Fmt.negative, Fmt.expField, Fmt.fracField, Fmt.bias, b32, (by decide : Nat.testBit 1266679808 31 = false)]
  · show ¬ (_ = _)
    decide
  all_goals norm_num [Fmt.signals, Fmt.notNumber, Fmt.expField, Fmt.fracField, b32]

/-! Witnesses: tiles and the array. -/

/-- Tile register 0 of format 2 (8 bits), 64 rows of 64 columns; register 1 of 96 columns, whose transpose is no shape. -/
def tiled : State := seqWith { ts := [(0, BitVec.ofNat 64 (2 + 8 * 63 + 512 * 63)), (1, BitVec.ofNat 64 (2 + 8 * 63 + 512 * 95))], g := [(2, 64), (3, 128)] }
def tsOf (k : Nat) : W64 := mget 0 tiled.me.ts k
theorem witness_TilesLoadStoreAndTranspose_words :
    shapeOk 2 128 = true ∧ shapeOk 2 129 = false ∧
    (tsEf (tsOf 0) ≠ 4 ∧ tsCols (tsOf 0) ≤ 64 ∧ shapeOk (tsEf (tsOf 0)) (tsCols (tsOf 0)) = true ∧ shapeOk (tsEf (tsOf 0)) (tsRows (tsOf 0)) = true) ∧
    ¬ (tsCols (tsOf 1) ≤ 64) := by decide +kernel
theorem witness_TilesLoadStoreAndTranspose_rows :
    (shapeOk (tsEf 7) (tsCols 7) = false) ∧ shapeOk (tsEf (tsOf 0)) (tsCols (tsOf 0)) = true ∧ (1 % 64 ≠ 0) ∧
    (tiled.N 0 % 64 = 0 ∧ tiled.N 2 % 64 = 0 ∧ rowBytes (tsEf (tsOf 0)) (tsCols (tsOf 0)) = 64 ∧
      ((rowOffsets spadOffset 64 inWindow ((List.range 64).map fun r => (tiled.N 0 + r * tiled.N 2) % 2 ^ 64)).map (·.length)) = some 64 ∧
      ((List.range 64).all fun r => tiled.banksFree (64 * r) 64 r && tiled.banksFree (64 * r) 64 (4 + r)) = true ∧
      sound tiled.myTile 0 64 = true) ∧
    (tiled.N 3 % 128 = 0 ∧ ((rowOffsets mramOffset 64 (fun _ => false) ((List.range 64).map fun r => 0x8000000 + r * tiled.N 3)).map (·.length)) = some 64 ∧
      ((List.range 64).all fun r => !tiled.mramLocked 0 (128 * r) tiled.myCtx) = true ∧ tiled.myTile.overlays = [] ∧ tiled.myTile.cellErrors = [] ∧ tiled.myTile.mramPoison = []) := by
  decide +kernel

/-- A tile of 64 columns of 8 bits in 2 rows whose second row lies beyond the scratchpad, or the weight MRAM; a bank that a reservation, or an atomic
of this tick, holds; a locked region. -/
def twoRows (a : Nat) (x : Tile := {}) : State :=
  tileWith { x with a := { ts := [(0, BitVec.ofNat 64 (2 + 8 * 1 + 512 * 63))], g := [(1, BitVec.ofNat 64 a), (2, 64), (3, 128)] } }
def rowsAt (s : State) (f : Nat → Nat → Option Nat) (w : Nat → Bool) (step : Nat) : Option (List Nat) :=
  rowOffsets f 64 w ((List.range 2).map fun r => (s.N 1 + r * step) % 2 ^ 64)
theorem witness_TilesLoadStoreAndTranspose_refused :
    (shapeOk (tsEf (mget 0 (twoRows 0x1FFFC0).me.ts 0)) (tsCols (mget 0 (twoRows 0x1FFFC0).me.ts 0)) = true ∧
      rowBytes (tsEf (mget 0 (twoRows 0x1FFFC0).me.ts 0)) (tsCols (mget 0 (twoRows 0x1FFFC0).me.ts 0)) = 64 ∧
      tsRows (mget 0 (twoRows 0x1FFFC0).me.ts 0) = 2 ∧ (twoRows 0x1FFFC0).N 1 % 64 = 0 ∧ (twoRows 0x1FFFC0).N 2 % 64 = 0) ∧
    rowsAt (twoRows 0x1FFFC0) spadOffset inWindow 64 = none ∧ rowsAt (twoRows 0x8FFFF80) mramOffset (fun _ => false) 128 = none ∧
    (rowsAt (twoRows 0x8000000) mramOffset (fun _ => false) 128 = some [0, 128] ∧
      (let s : State := { twoRows 0x8000000 with owners := [(0, (7, none))] }
       s.mramLocked s.cur.tile 128 s.myCtx = true)) ∧
    (let s := twoRows 0 { reservations := [{ bank := 1, left := 6, seq := 1, issue := 0 }] }
     rowsAt s spadOffset inWindow 64 = some [0, 64] ∧ s.banksFree 0 64 0 = true ∧ s.banksFree 64 64 1 = false ∧ s.banksFree 0 64 4 = true ∧
       s.banksFree 64 64 5 = false) ∧
    (let s := twoRows 0 { atomicNow := [0] }
     rowsAt s spadOffset inWindow 64 = some [0, 64] ∧ s.banksFree 0 64 0 = true ∧ s.banksFree 64 64 1 = true ∧ 0 ∈ wordsOf 0 64 ∧
       0 % 16 ∈ s.myTile.atomicNow) := by decide +kernel

/-- The masks of a sparse block: six ones in every half. -/
def masked : State := seqWith { t := [(2, cellsFrom 0 ((List.replicate 128 (leBytes 3 63)).flatten))] }
theorem witness_BlockProducts :
    (seqWith {}).me.inHandler = false ∧ handling.me.inHandler = true ∧ (seqWith {}).arrayAccepts = true ∧
    (seqWith { arrayFree := 1 }).arrayAccepts = false ∧
    (48 * ((0 : BitVec 3).toNat + 1) * 8 ≤ 1024 ∧ 48 * ((1 : BitVec 3).toNat + 1) * 8 ≤ 1024 ∧ 1024 < 48 * ((2 : BitVec 3).toNat + 1) * 8) ∧
    (∀ i < 128, popCount 24 (leNat (bytesAt (mget [] masked.me.t 2) (384 * 0 + 6 * (i / 2) + 3 * (i % 2)) 3)) ∈ [6, 12]) ∧
    ¬ (∀ i < 128, popCount 24 (leNat (bytesAt (mget [] (seqWith {}).me.t 2) (384 * 0 + 6 * (i / 2) + 3 * (i % 2)) 3)) ∈ [6, 12]) := by
  decide +kernel

/-- The sparse words: block 5 of 4-bit operands lies beyond the rows; block 1 fits while the array is busy, and in a handler. -/
theorem witness_BlockProducts_sparse :
    (1024 < 48 * ((5 : BitVec 3).toNat + 1) * 4 ∧ 48 * ((1 : BitVec 3).toNat + 1) * 8 ≤ 1024 ∧ 24 * ((1 : BitVec 3).toNat + 1) * 8 ≤ 1024) ∧
    (let s := seqWith { masked.me with arrayFree := 1 }
     s.me.inHandler = false ∧ s.arrayAccepts = false ∧
       ∀ i < 128, popCount 24 (leNat (bytesAt (mget [] s.me.t 2) (384 * 0 + 6 * (i / 2) + 3 * (i % 2)) 3)) ∈ [6, 12]) ∧
    handling.me.inHandler = true := by decide +kernel

theorem witness_AccumulatorAndMatrixResults :
    ((seqWith {}).me.inHandler = false ∧ (seqWith {}).me.scaleFree ≤ (seqWith {}).me.clock ∧
      (seqWith { scaleFree := 1 }).me.clock < (seqWith { scaleFree := 1 }).me.scaleFree) ∧
    (seqWith {}).me.parityErrors = [] ∧
    (∃ f, ((landing { step := 0, issue := 0, unit := 3, bundle := 0, act := .mma 0 false 64 [] (some (blockSum 64 [])) }).seq 0 0).dueFlights = [f] ∧
      f.act = .mma 0 false 64 [] (some (blockSum 64 [])) ∧ f.upset = 0 ∧ f.poison = none ∧ f.flags = 0 ∧ f.parity = false) ∧
    (∃ f, ((landing { step := 0, issue := 0, unit := 3, bundle := 0, act := .accscl 0 [] [] [] }).seq 0 0).dueFlights = [f] ∧
      f.act = .accscl 0 [] [] [] ∧ f.upset = 0 ∧ f.poison = none ∧ f.flags = 0 ∧ f.parity = false) ∧
    (∃ f, ((landing { step := 0, issue := 0, unit := 3, bundle := 0, act := .tileRow 1 63 [] }).seq 0 0).dueFlights = [f] ∧
      f.act = .tileRow 1 63 [] ∧ f.upset = 0 ∧ f.poison = none ∧ f.flags = 0 ∧ f.parity = false ∧ ([] : List Byte).length ≤ 128) :=
  ⟨by decide +kernel, rfl, ⟨_, rfl, rfl, rfl, rfl, rfl, rfl⟩, ⟨_, rfl, rfl, rfl, rfl, rfl, rfl⟩, ⟨_, rfl, rfl, rfl, rfl, rfl, rfl, by decide⟩⟩

/-- An unaligned store whose active bytes all lie in the word below takes that word's bank alone (log 88). -/
theorem test_vstu_takes_the_banks_of_its_bytes :
    wordsIn (maskedCells 0x20 (activeMask ((seqWith { p := [(1, 0xFFFFFFFF)] }).P 1) 4) 0) = [0] := by decide +kernel

/-! Witnesses: copies, boundaries, atomics. -/

/-- Source, destination, length with start 4, as the copy words of unit 4 read them from g1, g2 and g3. -/
def copying (src dst len : Nat) : State :=
  let s := seqWith { g := [(1, BitVec.ofNat 64 src), (2, BitVec.ofNat 64 dst), (3, BitVec.ofNat 64 (len + 4 * 2 ^ 32))] }
  { s with cur := { s.cur with unit := 4 } }
def common (s : State) (unit : Nat) : Prop :=
  s.me.inHandler = false ∧ 1 ≤ s.N 3 % 2 ^ 32 ∧ s.N 3 % 2 ^ 32 ≤ 1048576 ∧ s.N 3 % 2 ^ 32 % unit = 0 ∧ s.me.clock + 4 ≤ s.N 3 / 2 ^ 32 ∧
  (s.me.queue 0).cmds.length < 16 ∧ (s.me.queue 0).free ≤ s.N 3 / 2 ^ 32
theorem witness_CopyCommandsAndRunningValues_queued :
    common (copying 0 0x1000 65) 1 ∧ (spadOffset 0 65).isSome = true ∧ (spadOffset 0x1000 65).isSome = true ∧
    common (copying 0x8000000 0x1000 128) 1 ∧ (mramOffset 0x8000000 128).isSome = true ∧
    (copying 0x8000000 0x1000 128).mramLocked 0 0 (copying 0x8000000 0x1000 128).myCtx = false ∧
    common (copying 0x8000000000 0x1000 64) 64 ∧ common (copying 0 0x4000000 0x40000) 1 ∧
    (0x4000000 ≤ 0x4000000 ∧ 0x4000000 + 0x40000 ≤ 0x4040000 ∧ (spadOffset 0 0x40000).isSome = true) ∧
    common (copying 0 0x20000000 1048576) 4 ∧ ¬ (0x20000000 < 0x3000000) := by
  unfold common
  decide +kernel
theorem witness_CopyCommandsAndRunningValues_gets :
    handling.me.inHandler = true ∧ (seqWith {}).me.inHandler = false ∧ ((seqWith {}).me.landing 3).st = .empty ∧
    ((slotted { st := .pending }).me.landing 3).st ≠ .empty ∧ ((slotted { st := .pending }).me.landing 3).st ≠ .full := by decide +kernel

/-- A sequencer at a boundary of its timetable: a phase of scope 2. -/
def bounded : State := seqWith { bounds := [⟨0, 2, 100, 90⟩] }
/-- The same under a launch of one level. -/
def aLaunch : Launch := { record := 0, image := 0, levels := [2 * 2 ^ 32], strict := false, deepest := 0, vregs := 64, tregs := 8, lslots := 16, accs := 4,
                          outs := 2, mxmode := 0, first := 0, start := 0, slots := 4, rows := 64, position := 0, draft := 0, window := 0, windowLen := 0,
                          queue := 0, tag := 0, silent := false }
def leveled : State := { tileWith { ctx := some 0, a := { bounds := [⟨1, 128, 100, 90⟩] } } with ctxs := [(0, { created := true, launch := some aLaunch })] }
theorem witness_BoundariesHold :
    handling.me.inHandler = true ∧ (bounded.me.inHandler = false ∧ ¬ ((6 : BitVec 3).toNat ≤ 5)) ∧ ((seqWith {}).me.bounds = [] ∧ (5 : BitVec 3).toNat ≤ 5) ∧
    (bounded.me.bounds = [⟨0, 2, 100, 90⟩] ∧ (⟨0, 2, 100, 90⟩ : Boundary).kind = 0 ∧ (⟨0, 2, 100, 90⟩ : Boundary).scope = (2 : BitVec 3).toNat ∧
      (bounded.ctx bounded.myCtx).scopeOf 2 = 2) ∧
    (leveled.me.inHandler = false ∧ (leveled.ctx leveled.myCtx).launch = some aLaunch ∧ (0 : BitVec 3).toNat < aLaunch.levels.length ∧
      leveled.me.bounds = [⟨1, 128, 100, 90⟩]) := by decide +kernel

def dirtyLine : Line := { tag := 0, valid := 1, dirty := 1, scope := 1 }
/-- A line that a FENCE of scope 2 writes back, in a staging buffer that has room; and a command queued on tile 0 in an earlier tick. -/
def fenced : State := seqWith { l1 := [dirtyLine] }
def waitingGo : State := { seqWith { c1 := { cmds := [{ kind := .cpy, src := 0, dst := 64, len := 64, start := 9, sc := 0, fold := false, compare := false, last := false, issue := 0, bundle := 0 }] } } with gtick := 5 }
theorem witness_FencesWriteBackAndWaits :
    handling.me.inHandler = true ∧ ¬ ((7 : BitVec 3).toNat ≤ 6) ∧ (6 : BitVec 3).toNat ≤ 6 ∧ (seqWith {}).me.inHandler = false ∧
    (∀ l ∈ (seqWith {}).me.l1, ¬ (l.dirty ≠ 0)) ∧
    (fenced.me.inHandler = false ∧ fenced.me.l1[0]? = some dirtyLine ∧ dirtyLine.dirty ≠ 0 ∧
      dirtyLine.scope < (fenced.ctx fenced.myCtx).scopeOf 2 ∧
      (fenced.die 0).staging.length + fenced.forward.length + 4 * fenced.me.l1.length < 65536) ∧
    (leveled.me.inHandler = false ∧ (leveled.ctx leveled.myCtx).launch = some aLaunch ∧ (0 : BitVec 3).toNat < aLaunch.levels.length) ∧
    1 < (2 : BitVec 3).toNat ∧ (1 : BitVec 3).toNat ≤ 1 ∧
    ((seqWith {}).me.c0.cmds = [] ∧ (seqWith {}).me.c1.cmds = [] ∧ (seqWith {}).myTile.b.c0.cmds = [] ∧ (seqWith {}).myTile.b.c1.cmds = []) ∧
    (waitingGo.me.inHandler = false ∧ (waitingGo.me.c1.cmds.filter fun (c : Command) => c.tick < waitingGo.gtick).length = 1) := by decide +kernel

theorem witness_AtomicsReadModifyWrite :
    1 % 8 ≠ 0 ∧ spadOffset 0x200000 8 = none ∧ spadOffset 0x1FFFF8 8 = some 0x1FFFF8 ∧
    ((seqWith {}).banksFree 0x1FFFF8 8 0 = true ∧ (seqWith {}).atomicMeets (0x1FFFF8 / 64 % 16) = false ∧ sound (seqWith {}).myTile 0x1FFFF8 8 = true) ∧
    (tileWith { reservations := [{ bank := 15, left := 3, seq := 1, issue := 0 }] }).banksFree 0x1FFFF8 8 0 = false ∧
    (tileWith { uses := [{ port := 15, write := false, rank := 7 }] }).atomicMeets 15 = true := by decide +kernel

/-! Witnesses: serving, journal, regions, diagnostics. -/

def aRequest : Request := { state := 2, slot := 1, kind := 2, used := 0 }
def serving : State :=
  { tileWith { ctx := some 0, a := { g := [(1, 1), (2, 7)] } } with
    ctxs := [(0, { created := true, launch := some aLaunch, winnow := { slots := [(1, (5, aRequest))] } })] }
def drafting : State :=
  { tileWith { ctx := some 0, a := { g := [(1, 1), (2, 7)] } } with
    ctxs := [(0, { created := true, launch := some aLaunch, winnow := { slots := [(1, (5, { aRequest with kind := 3, used := 2 }))] } })] }
theorem witness_ServingAndTheirLandings_words :
    (1 < aLaunch.slots ∧ (33 : BitVec 11).toNat ≤ 33) ∧ ¬ (4 < aLaunch.slots) ∧ ¬ ((34 : BitVec 11).toNat ≤ 33) ∧
    (serving.me.inHandler = false ∧ serving.N 1 < aLaunch.slots ∧ serving.N 0 < 2 ∧ serving.N 2 < 2 ^ 32 ∧
      (serving.ctx serving.myCtx).winnow.slots.lookup (serving.N 1) = some (5, aRequest) ∧ (serving.ctx serving.myCtx).winnow.commits = [] ∧
      aRequest.kind = 2) ∧
    ((drafting.ctx drafting.myCtx).winnow.slots.lookup (drafting.N 1) = some (5, { aRequest with kind := 3, used := 2 }) ∧ drafting.N 1 < 2) ∧
    (seqWith { g := [(1, 1)] }).N 1 = (seqWith {}).sheaf.version ∧ (seqWith {}).N 1 ≠ (seqWith {}).sheaf.version ∧
    (serving.ctx serving.myCtx).winnow.slots.lookup 0 = none ∧ (∀ e ∈ (serving.ctx serving.myCtx).winnow.faults, e.slot ≠ 1) ∧
    handling.me.inHandler = true := by decide +kernel
theorem witness_ServingAndTheirLandings_landings :
    (∃ f, ((landing { step := 0, issue := 0, unit := 0, bundle := 0, act := .cond 1 1 }).seq 0 0).dueFlights = [f] ∧ f.act = .cond 1 1 ∧ f.parity = false) ∧
    (∃ f, ((landing { step := 0, issue := 0, unit := 0, bundle := 0, act := .mapack 1 }).seq 0 0).dueFlights = [f] ∧ f.act = .mapack 1 ∧ f.parity = false) ∧
    (1 : W64).toNat = (seqWith {}).sheaf.version ∧ (2 : W64).toNat ≠ (seqWith {}).sheaf.version := by
  refine ⟨⟨_, rfl, rfl, rfl⟩, ⟨_, rfl, rfl, rfl⟩, rfl, by decide⟩

/-- A journal in some state, a sequencer with the MRAM address 0x0800_0000, the length 64 and the source 0 in g1, g2 and g0. -/
def journaled (j : Journal) (y : Seq := {}) : State := tileWith { a := { y with g := [(1, 0x8000000), (2, 64)] }, journal := j }
theorem witness_JournalWordsAndAttempts_words :
    handling.me.inHandler = true ∧
    ((journaled {}).me.inHandler = false ∧ ((journaled {}).journal 0).st = .idle ∧ (journaled {}).myTile.opening = false ∧ 1 ≤ 64 ∧ 64 ≤ 64) ∧
    (((journaled { st := .open_ }).journal 0).st = .open_ ∧ ((journaled { st := .open_ }).journal 0).aborting = false ∧
      ((journaled { st := .open_ }).journal 0).owner = (journaled { st := .open_ }).cur.seq ∧
      ((journaled { st := .open_ }).journal 0).ctx = (journaled { st := .open_ }).myCtx) ∧
    (((journaled { st := .open_, ctx := 3 }).journal 0).st ≠ .idle ∧ ((journaled { st := .open_, ctx := 3 }).journal 0).ctx ≠ (journaled {}).myCtx) ∧
    (let s : State := { journaled { st := .open_, limit := 1 } with owners := [(0, (7, none))] }
     s.mramLocked 0 0 s.myCtx = true ∧ (journaled { st := .open_, limit := 1 }).mramLocked 0 0 (journaled {}).myCtx = false) ∧
    (((journaled { st := .failed }).journal 0).st = .failed ∧ ((journaled { st := .failed }).journal 0).pulse = none ∧
      ((journaled { st := .open_, pulse := some 3 }).journal 0).pulse ≠ none) ∧
    ((journaled { st := .committing }).journal 0).st = .committing ∧
    (((journaled { st := .open_, owner := 1 }).journal 0).st ≠ .idle ∧ ((journaled { st := .open_, owner := 1 }).journal 0).owner ≠ 0) ∧
    (((journaled { st := .open_, limit := 1 }).journal 0).puts.length < 16 ∧ 0x20 % 64 ≠ 0 ∧ spadOffset 0x200000 64 = none ∧
      spadOffset 0 64 = some 0 ∧ 0x8000001 % 64 ≠ 0 ∧ ¬ (0x9000000 < 0x9000000) ∧ ¬ (0 < 0)) ∧
    ((0x8000000 - 0x8000000 + 64 - 1) / 1024 = (0x8000000 - 0x8000000) / 1024 ∧
      ((journaled { st := .open_, limit := 1 }).journal 0).planned.length < ((journaled { st := .open_, limit := 1 }).journal 0).limit ∧
      (journaled { st := .open_, limit := 1 }).banksFree 0 64 0 = true ∧ sound (journaled { st := .open_, limit := 1 }).myTile 0 64 = true) ∧
    ¬ (0x8000040 % 1024 = 0) ∧ 0x8000400 % 1024 = 0 := by decide +kernel

def aPut : Put := { row := 0, offset := 0, bytes := List.replicate 64 1, issued := 0, attempts := 4, target := some 16384 }
theorem witness_JournalWordsAndAttempts_attempts :
    (0 < (((eventWith (journaled {}) [0]).tile 0).journal.due.getD 1) ∧ 0 < (((eventWith (journaled { due := some 7 }) [0]).tile 0).journal.due.getD 1)) ∧
    (((eventWith (journaled { due := some 0, paused := true }) [0]).tile 0).journal.due = some (journaled {}).gtick) ∧
    ((journaled { due := some 0, puts := [{ row := 0, offset := 0, bytes := [], issued := 0 }], reserved := [16384] }).journal 0).puts.head?.isSome = true ∧
    ((journaled { due := some 0, st := .committing }).journal 0).puts = [] ∧
    ((journaled {}).journal 0).pulse = none ∧ ((journaled { pulse := some 0, aborting := true }).journal 0).pulse.isSome = true ∧
    aPut.attempts = 4 ∧ (∃ f fs, ((journaled {}).tile 0).freeRows = f :: fs ∧ (journaled {}).powerLost = false) := by
  refine ⟨by decide +kernel, by decide +kernel, by decide +kernel, by decide +kernel, by decide +kernel, by decide +kernel, rfl, ?_⟩
  exact ⟨_, _, rfl, rfl⟩

/-- An opening of one row, and of more rows than are free; a commit of an open journal and of an idle one. -/
def wjLanding (act : Act) (x : Tile := {}) : State :=
  eventWith (tileWith { x with ctx := some 0, a := { flights := [{ step := 0, issue := 0, unit := 0, bundle := 0, act := act }] } }) [0, 0]
def afterLanding (s : State) (f : Flight) : State := s.setSeq 0 0 ((s.seq 0 0).removeFlight f)
def wjFlight (act : Act) : Flight := { step := 0, issue := 0, unit := 0, bundle := 0, act := act }
theorem witness_JournalWordsAndAttempts_landings :
    (∀ act x, ((wjLanding act x).seq 0 0).dueFlights = [wjFlight act] ∧ (wjFlight act).act = act ∧ (wjFlight act).parity = false) ∧
    (((afterLanding (wjLanding (.wjOpen 1)) (wjFlight (.wjOpen 1))).tile 0).freeRows.take 1).length = 1 ∧
    (((afterLanding (wjLanding (.wjOpen 600)) (wjFlight (.wjOpen 600))).tile 0).freeRows.take 600).length < 600 ∧
    ((afterLanding (wjLanding .wjCommit) (wjFlight .wjCommit)).journal 0).st ≠ .open_ ∧
    (let j := (afterLanding (wjLanding .wjCommit { journal := { st := .open_ } }) (wjFlight .wjCommit)).journal 0
     j.st = .open_ ∧ j.due = none ∧ j.pulse = none ∧ j.paused = false ∧ j.puts = []) ∧ (wjLanding .wjCommit).powerLost = false := by
  refine ⟨fun _ _ => ⟨rfl, rfl, rfl⟩, ?_, ?_, ?_, ?_, rfl⟩ <;> decide +kernel
/-- A put whose last attempt has failed, its owner in the tile, in the tile's saved image, and neither. -/
def failedPut (ctx : Option Nat) (saved : Option Nat) : State :=
  eventWith (tileWith { ctx := ctx, shadow := saved.map fun x => { ctx := x, a := {}, b := {}, window := [], mxmode := 0, haltTick := 0 },
                        journal := { st := .open_, ctx := 0, puts := [{ aPut with attempts := 8 }], pulse := some 0 } }) [0]
theorem witness_JournalWordsAndAttempts_failing :
    (∀ c d, ((failedPut c d).tile 0).journal.puts = { aPut with attempts := 8 } :: [] ∧ ((failedPut c d).tile 0).journal.aborting = false ∧
      ((failedPut c d).tile 0).journal.pulse.isSome = true ∧ ((failedPut c d).tile 0).journal.owner < 2 ∧
      ((failedPut c d).tile 0).journal.ctx = 0 ∧ ((failedPut c d).tile 0).ctx = c ∧ ((failedPut c d).tile 0).shadow.map (·.ctx) = d) ∧
    (some 0 = some 0 ∧ (none : Option Nat) ≠ some 0 ∧ (some 1 : Option Nat) ≠ some 0) ∧
    ((journaled { due := some 0, puts := [aPut] }).journal 0).puts = aPut :: [] ∧
    ((journaled { due := some 0, st := .committing }).journal 0).due = some 0 ∧ 0 ≤ (journaled {}).gtick := by
  refine ⟨fun c d => ⟨rfl, rfl, rfl, Nat.zero_lt_two, rfl, rfl, ?_⟩, ⟨rfl, by decide, by decide⟩, rfl, rfl, by decide⟩
  cases d <;> rfl

/-- A region's opening and its closing that land. -/
theorem witness_RegionsReturnsAndRecords_landings :
    (∀ act x, ((wjLanding act x).seq 0 0).dueFlights = [wjFlight act] ∧ (wjFlight act).parity = false ∧ (wjFlight act).flags = 0 ∧
      ((wjLanding act x).seq 0 0).parityErrors = []) ∧
    (wjFlight (.regionPush 3 0x8000010)).act = .regionPush 3 0x8000010 ∧ (wjFlight .regionPop).act = .regionPop ∧
    (((wjLanding .regionPop).seq 0 0).removeFlight (wjFlight .regionPop)).regions.length < 4 :=
  ⟨fun _ _ => ⟨rfl, rfl, rfl, rfl⟩, rfl, rfl, by decide +kernel⟩

theorem witness_RegionsReturnsAndRecords :
    ((seqWith {}).me.inHandler = false ∧ (seqWith {}).me.regions.length < 4 ∧
      (seqWith {}).relTarget (6 : BitVec 16).toInt % 4 = 0 ∧ 0x8000000 ≤ (seqWith {}).relTarget (6 : BitVec 16).toInt ∧
      (seqWith {}).relTarget (6 : BitVec 16).toInt ≤ 0x8FFFFFC) ∧
    ¬ ((seqWith { regions := List.replicate 4 (0, 0x8000000) }).me.regions.length < 4) ∧
    (seqWith { regions := [(3, 0x8000000)] }).me.regions = [] ++ [((3 : BitVec 3).toNat, 0x8000000)] ∧
    (handling.me.handler = some { h := 5 } ∧ handling.me.fresume.toNat % 4 = 0 ∧ 0x8000000 ≤ handling.me.fresume.toNat ∧
      handling.me.fresume.toNat + 4 * (handling.myTile.bundleWords handling.me.fresume.toNat).1.length ≤ 0x8FFFFFC ∧ handling.me.record = none) ∧
    ((seqWith { handler := some { h := 5 }, fresume := 0x8FFFFFC }).me.fresume.toNat +
      4 * ((seqWith { handler := some { h := 5 }, fresume := 0x8FFFFFC }).myTile.bundleWords 0x8FFFFFC).1.length = 0x9000000) ∧
    ¬ (0x8000000 ≤ (seqWith { handler := some { h := 5 } }).me.fresume.toNat) ∧ (seqWith {}).me.handler = none := by decide +kernel

theorem witness_DiagnosticWords :
    0x20 % 64 ≠ 0 ∧ (0x1000000 % 64 = 0 ∧ 0x2FFFFC0 < 0x3000000) ∧ spadOffset 0x1FFFC0 64 = some 0x1FFFC0 ∧ spadOffset 0x1FFFC0 128 = none ∧
    (spadOffset 0x1FFF80 128 = some 0x1FFF80 ∧ (seqWith {}).banksFree 0x1FFF80 128 0 = true ∧ (seqWith {}).banksFree 0x1FFFC0 64 4 = true ∧
      (seqWith {}).banksFree 0x1FFFC0 64 0 = true ∧ sound (seqWith {}).myTile 0x1FFF80 128 = true) ∧
    (0x607FFC0 = 0x6000000 + 0x20000 * 3 + 64 * 2047 ∨ 0x6000000 + 0x20000 * 3 + 64 * 2047 < 0x6080000) ∧ 0x8000000 ≤ 0x8FFFFC0 := by decide +kernel

/-- The words on a target at 0x2000_0000 that a translation in the TLB puts at a physical address; the descriptor at 0x40. -/
def diagnosed (pa : Nat) : State :=
  { seqWith { tlb := [⟨0x20000000, 32768, pa, true, false⟩], g := [(1, 0x20000000), (2, 0x40)] } with ctxs := [(0, { created := true })] }
theorem witness_DiagnosticWords_global :
    ((diagnosed 0x8000).N 1 % 64 = 0 ∧ (spadOffset ((diagnosed 0x8000).N 1) 64).isSome = false ∧
      ¬ (0x6000000 ≤ (diagnosed 0x8000).N 1 ∧ (diagnosed 0x8000).N 1 < 0x6080000) ∧ ¬ ((diagnosed 0x8000).N 1 < 0x9000000) ∧
      (diagnosed 0x8000).N 2 % 64 = 0 ∧ spadOffset ((diagnosed 0x8000).N 2) 128 = some 0x40) ∧
    (∀ w, ∃ u nc, (diagnosed 0x8000).translate 0 0 0x20000000 w = .ok (u, 0x8000, nc) ∧ u.place 0x8000 = .ok .lpddr) ∧
    (∀ w, ∃ u nc, (diagnosed 0x10000000000).translate 0 0 0x20000000 w = .ok (u, 0x10000000000, nc) ∧ u.place 0x10000000000 ≠ .ok .lpddr) ∧
    (∀ w, (diagnosed 0x8000).translate 0 0 (2 ^ 57) w = .error 0x0401) := by
  refine ⟨by decide +kernel, ?_, ?_, fun w => by cases w <;> rfl⟩
  · intro w
    cases w <;> exact ⟨_, _, rfl, rfl⟩
  · intro w
    cases w <;> exact ⟨_, _, rfl, by decide +kernel⟩
/-- The last word of the scratchpad by its own address and by its alias; banks that an atomic holds; a region locked. -/
theorem witness_DiagnosticWords_refused :
    (spadOffset 0x403FFC0 64 = some 0x1FFFC0 ∧ 0x403FFC0 + 64 ≤ 0x4040000 ∧ 0x403FFC0 - 0x4000000 + 0x1C0000 = 0x1FFFC0) ∧
    ((reservedTile).banksFree 0x1FFF80 128 0 = false ∧ (reservedTile).banksFree 0x1FFFC0 64 4 = false ∧ (reservedTile).banksFree 0x1FFFC0 64 0 = false) ∧
    (lockedTile.mramLocked lockedTile.cur.tile 0 lockedTile.myCtx = true ∧ (0x1000000 % 64 = 0 ∧ 0x1000000 < 0x3000000)) := by decide +kernel

/-! Witnesses: faults. -/

def regional : State := seqWith { regions := [(3, 0x8000010)] }
theorem witness_TrapIsTakenByTheInnermostRegion :
    regional.myTile.partTick ≠ some regional.gtick ∧ regional.me.regions = [] ++ [(3, 0x8000010)] ∧ (seqWith {}).me.regions = [] := by decide +kernel

def aRecord : FaultRecord := { info := { code := 0x0305 } }
def second : State := tileWith { a := { handler := some { h := 5 }, pending := [aRecord], regions := [(3, 0x8000010)] }, trap := some { order := [0], since := 0 } }
def only : State := tileWith { a := { handler := some { h := 5 } }, trap := some { order := [0], since := 0 } }
theorem witness_FaultsTakenAndHandlersLeft :
    (partitionCode 0x0305 = false ∧ (0x0305 : Nat) ≠ 0x0801 ∧ (0x0305 : Nat) ≠ 0x0C03 ∧ regional.myTile.partTick ≠ some regional.gtick ∧
      regional.me.regions = [] ++ [(3, 0x8000010)]) ∧
    ((seqWith {}).me.regions = [] ∧ ¬ (((seqWith {}).ctx (seqWith {}).myCtx).taskFault = none ∧ 2 ≤ ((seqWith {}).ctx (seqWith {}).myCtx).taskFaults)) ∧
    ((only.seq 0 0).pending = [] ∧ (only.tile 0).trap = some { order := [0], since := 0 }) ∧
    ((second.seq 0 0).pending = aRecord :: [] ∧ (second.seq 0 0).regions = [] ++ [(3, 0x8000010)] ∧ (second.tile 0).partTick ≠ some second.gtick) := by
  decide +kernel

/-! Witnesses: copies in motion and a tile's happenings. -/

/-- A state for the event of queue 0 of sequencer A of tile 0, holding one command, with the sequencer's clock at 20. -/
def queued (k : Command) (run expect : BitVec 32) : State :=
  eventWith (seqWith { clock := 20, c0 := { cmds := [k], run := run, expect := expect } }) [0, 0, 0]
/-- One beat from offset 0 to offset 0x1000. -/
def aCopy : Command := { kind := .cpy, src := 0, dst := 0x1000, len := 64, start := 4, sc := 0, fold := true, compare := true, last := true, issue := 0, bundle := 0 }
def begun : Command := { aCopy with pages := some [] }
def moved : Command := { begun with read := 1, moving := [(0, leBytes 64 7, none)] }
def ended : Command := { begun with read := 1, done := 1 }
def sent : Command := { aCopy with kind := .cpyx, len := 128, pages := some [], read := 2, done := 2, acks := [(0, leBytes 64 7), (9, [])] }
theorem witness_CopiesStartMoveAndComplete :
    (queued aCopy 0 0).queueNext 0 0 0 = some (0, 0, aCopy) ∧
    ((queued begun 0 0).queueNext 0 0 0 = some (1, 0, begun) ∧
      sound ((queued begun 0 0).tile 0) 0 64 = true ∧ ((queued begun 0 0).tile 0).frozen = false ∧ ((queued begun 0 0).tile 0).rowMeets false (wordsOf 0 64) = false) ∧
    ((queued moved 0 0).queueNext 0 0 0 = some (2, 0, moved) ∧ moved.dst < 0x200000 ∧
      moved.moving.lookup moved.done = some (leBytes 64 7, none) ∧
      ((queued moved 0 0).tile 0).rowMeets false (wordsOf 0x1000 64) = false) ∧
    ((queued ended 5 5).queueNext 0 0 0 = some (3, 0, ended) ∧
      ((queued ended 5 5).queueOf 0 0 0).run = ((queued ended 5 5).queueOf 0 0 0).expect) ∧
    (ended.compare = true ∧ ((queued ended 5 6).queueOf 0 0 0).run ≠ ((queued ended 5 6).queueOf 0 0 0).expect ∧
      ((queued ended 5 6).seq 0 0).handler = none) ∧
    (((queued sent 0 0).queueOf 0 0 0).ackDue (queued sent 0 0).gtick = some (sent, 0) ∧ sent.kind = .cpyx ∧ sent.acked + 1 < sent.beats ∧ (queued sent 0 0).cur.bytes = []) ∧
    (((queued sent 0 0).queueOf 0 0 0).cmds = [] ++ sent :: [] ∧ (leBytes 64 8).length = (leBytes 64 7).length ∧ leBytes 64 8 ≠ []) := by
  decide +kernel

/-- The same command with a global side that the TLB maps (to LPDDR-6, or to another package's window), and without a mapping. -/
def globalSide (k : Command) (pa : Nat) (slots : List (Nat × Nat × Request) := []) : State :=
  { eventWith (seqWith { clock := 20, c0 := { cmds := [k] }, tlb := [⟨0x20000000, 32768, pa, true, false⟩] }) [0, 0, 0] with
    ctxs := [(0, { created := true, winnow := { slots := slots } })], sheaf := { peers := [(1, 0x100000)] } }
def toGlobal (kind : CopyKind) (dst : Nat := 0x20000000) : Command := { aCopy with kind := kind, dst := dst, fold := false }
theorem witness_CopiesStartMoveAndComplete_kinds :
    ∀ kind ∈ [CopyKind.cpy, .cpym, .cpymc, .cpyg, .cpyw, .cpyx, .redc, .gath, .scat], ∀ dst ∈ [0x1000, 0x20000000],
      (globalSide (toGlobal kind dst) 0x8000).queueNext 0 0 0 = some (0, 0, toGlobal kind dst) ∧
      ((globalSide (toGlobal kind dst) 0x8000).tile 0).frozen = false := by decide +kernel
theorem witness_CopiesStartMoveAndComplete_translated :
    (∃ u ps, (globalSide (toGlobal .cpyw) 0x8000).translatePages 0 0 true (pagesOf 0x20000000 64) = .ok (u, ps)) ∧
    (∃ u ps, (globalSide (toGlobal .cpyx) 0x1100000000000).translatePages 0 0 true (pagesOf 0x20000000 64) = .ok (u, ps) ∧
      u.inWindows 0 0 ((pagesOf 0x20000000 64).map (·.2)) = true) ∧
    (∃ u ps, (globalSide (toGlobal .cpyx) 0x8000).translatePages 0 0 true (pagesOf 0x20000000 64) = .ok (u, ps) ∧
      u.inWindows 0 0 ((pagesOf 0x20000000 64).map (·.2)) = false) ∧
    (∃ u ps, (globalSide { toGlobal .cpyg 0x1000 with src := 0x20000000 } 0x8000).translatePages 0 0 false (pagesOf 0x20000000 64) = .ok (u, ps)) ∧
    ((globalSide (toGlobal .redc (2 ^ 57)) 0x8000).translatePages 0 0 true (pagesOf (2 ^ 57) 64) = .error (0x0401, 2 ^ 57) ∧ redcLocal (2 ^ 57) = false) ∧
    (((globalSide (toGlobal .cpyw) 0x8000).ctx 0).slotOf 0x20000000 = none ∧
      ((globalSide (toGlobal .cpyw) 0x8000 [(0, 5, { frames := [0x20000000] })]).ctx 0).slotOf 0x20000000 = some (0, 5)) := by
  refine ⟨⟨_, _, rfl⟩, ⟨_, _, rfl, ?_⟩, ⟨_, _, rfl, ?_⟩, ⟨_, _, rfl⟩, ⟨rfl, ?_⟩, ?_, ?_⟩ <;> decide +kernel
/-- Slot 0 holds a request whose page list, in the mapped page, names that page as frame 0 (and holds no frame 1). -/
def paged0 : List (Nat × Nat × Request) := [(0, 5, { pageList := 0x20000000, pages := 1 })]
def framed0 (k : Command) : State := { globalSide k 0x8000 paged0 with mem := putBytes [] 0x8000 (leBytes 8 0x20000000) }
theorem witness_CopiesStartMoveAndComplete_frames :
    (∀ w, ∃ u ps, (framed0 (toGlobal .gath)).framePages 0 0 0x20000000 1 w ((pagesOf 0 64).map (·.1)) = .ok (u, ps)) ∧
    (∀ w, (framed0 (toGlobal .scat)).framePages 0 0 0x20000000 1 w ((pagesOf 32768 64).map (·.1)) = .error (0x20000008)) ∧
    ((framed0 (toGlobal .scat)).ctx 0).winnow.slots.lookup (0 % 65536) = some (5, { pageList := 0x20000000, pages := 1 }) := by
  refine ⟨fun w => by cases w <;> exact ⟨_, _, rfl⟩, fun w => by cases w <;> rfl, rfl⟩
/-- A beat that has performed elsewhere, to be folded. -/
def folding : Command := { ended with compare := false, unfolded := [(0, [1])] }
theorem witness_CopiesStartMoveAndComplete_folds :
    (queued folding 0 0).queueNext 0 0 0 = some (4, 0, folding) ∧ folding.unfolded = (0, [1]) :: [] ∧ folding.fold = true ∧
    ((queued folding 0 0).tile 0).frozen = false ∧
    (moved.unfolded = [] ∧ (∀ e ∈ (queued moved 0 0).aperture, e.2.issuer = seqNumber 0 0 → e.2.cmd ≠ moved.name 0 moved.done) ∧
      ∀ e ∈ (queued moved 0 0).tiles, ∀ b ∈ e.2.inbound, b.issuer = seqNumber 0 0 → b.cmd ≠ moved.name 0 moved.done) := by
  decide +kernel

def inboundOne : State := eventWith (tileWith { power := .active, inbound := [{ due := 0, issuer := 0, multicast := false, write := { bytes := cellsFrom 64 [1, 2] }, deferred := true }] }) [0]
theorem witness_TileHappenings :
    ((inboundOne.tile 0).goesOff = false ∧ (inboundOne.tile 0).uses = [] ∧ (inboundOne.tile 0).atomicNow = [] ∧ (inboundOne.tile 0).written = false ∧ (inboundOne.tile 0).writes = [] ∧ (∃ e, (inboundOne.tile 0).inbound = [e] ∧ e.due ≤ inboundOne.gtick ∧
      e.write.add = false ∧ e.write.bytes = cellsFrom 64 [1, 2] ∧ ∀ k ∈ wordsIn e.write.bytes, ((inboundOne.tile 0).mark k).checks = none ∧
        ((inboundOne.tile 0).mark k).wrong = 0) ∧ (∀ r ∈ (inboundOne.tile 0).reservations, r.left = 0)) ∧
    (((eventWith (slotted { st := .pending }) [0, 0, 3, 0]).seq 0 0).landing 3).ticket = (eventWith (slotted { st := .pending }) [0, 0, 3, 0]).arg 3 ∧
    (((eventWith (slotted { st := .held }) [0, 0, 3]).seq 0 0).landing 3).st = .held ∧
    (((eventWith (slotted { st := .pending }) [0, 0, 3]).seq 0 0).landing 3).given = false ∧
    ((tileWith { a := { timedOut := true } }).seq 0 ((tileWith { a := { timedOut := true } }).tile 0).frozenBy).timedOut = true := by
  refine ⟨⟨by decide +kernel, rfl, rfl, rfl, rfl, ⟨_, rfl, by decide, rfl, rfl, by decide +kernel⟩, by decide⟩, by decide +kernel, by decide +kernel, by decide +kernel, by decide +kernel⟩

/-- The request of tile 0's slot 3 whose context now runs on tile 5; an aperture write that is due at tile 0 and one for the peers' tiles. -/
def elsewhere : State :=
  { cur := { args := [0, 0, 3, 9] }, tiles := [(0, {}), (5, { a := { l := [(3, { st := .pending, ticket := 9 })] } })] }
def requestedAt (s : State) (t : Nat) : Bool := ((s.seq t 0).landing 3).st == .pending && ((s.seq t 0).landing 3).ticket == s.arg 3
theorem witness_TileHappenings_moved :
    requestedAt elsewhere 0 = false ∧ (∃ e ∈ elsewhere.tiles, requestedAt elsewhere e.1 = true) ∧
    (∀ e ∈ elsewhere.tiles, requestedAt elsewhere e.1 = true → e.1 = 5) ∧
    ((eventWith (slotted { st := .pending, ticket := 9 }) [0, 0, 3, 9]).requester 0 0 3 9 = 0) ∧
    (let e : Inbound := { due := 0, issuer := 0, multicast := false, write := { bytes := cellsFrom 0x1008000000040 [1, 2] } }
     let s : State := { eventWith (seqWith {}) [384] with aperture := [(384, e)] }
     s.arg 0 = 384 ∧ (s.aperture.filter fun e => e.1 == 384 && e.2.due ≤ s.gtick) = [(384, e)] ∧ s.migrations = [] ∧ s.forwarding = [] ∧ s.codesClean = true) ∧
    (eventWith (seqWith {}) [0]).arg 0 ≠ 384 := by
  decide +kernel

/-! A context 0 whose table of pages maps the lowest GiB to LPDDR-6 as it lies, with an image of one segment of one task and two nodes (1: the segment), and a
launch record for a partition of one tile. -/

def cells (ws : List (Nat × Nat × Nat)) : List Host.Cell := ws.foldl (fun m w => putBytes m w.1 (leBytes w.2.1 w.2.2)) []
def tables : List (Nat × Nat × Nat) := [(0x1000, 8, 0x2001), (0x2000, 8, 0x3001), (0x3000, 8, 7)]
def image : List (Nat × Nat × Nat) :=
  [(0x20000, 2, 1), (0x20002, 2, 2), (0x20004, 2, 1), (0x20008, 4, 1), (0x2000C, 4, 1), (0x20010, 4, 64), (0x20014, 4, 96), (0x20018, 4, 128),
   (0x2001C, 4, 160), (0x2002C, 4, 240), (0x20040, 1, 3), (0x20064, 2, 1), (0x200A0, 4, 100)]
def record : List (Nat × Nat × Nat) :=
  [(0x30000, 2, 1), (0x30002, 1, 1), (0x30006, 1, 1), (0x3000C, 4, 1), (0x30010, 8, 0x20000), (0x30020, 4, 1), (0x30024, 4, 1), (0x30028, 4, 1),
   (0x30040, 8, 2 * 2 ^ 32)]
def world (c : Ctx) (x : Tile := {}) (more : List (Nat × Nat × Nat) := []) : State :=
  { tileWith { x with ctx := some 0 } with mem := cells (tables ++ image ++ record ++ more), ctxs := [(0, { c with created := true, root := 0x1000, tiles := [0] })] }

def imaged : Launch := { aLaunch with image := 0x20000, deepest := 0 }
def walking : State := eventWith (world { launch := some imaged }) [0]
def starting : State := eventWith (world { launch := some imaged, chosen := some 0 }) [0]
/-- The segment's task, to start or started. -/
def taskAt (started : Bool) (x : Tile) : State :=
  eventWith (world { launch := some imaged, seg := some 0, tasks := [{ index := 0, seqNum := 0, start := 0, started := started }], rqend := false } x) [0, 0]
theorem witness_TheWalkAndItsSegments :
    ((walking.ctx 0).launch = some imaged ∧ (walking.ctx 0).chosen = none ∧ (walking.ctx 0).seg = none ∧ walking.nodeField 0 0 0 1 = 3 ∧
      walking.nodeField 0 1 0 1 = 0) ∧
    (starting.ctx 0).chosen = some 0 ∧
    ((∃ k, ((taskAt false { power := .active }).ctx 0).tasks[(taskAt false { power := .active }).arg 1]? = some k ∧ k.started = false ∧
      (taskAt false { power := .active }).startFault 0 k = none) ∧
     (∃ k, ((taskAt false { power := .idle }).ctx 0).tasks[(taskAt false { power := .idle }).arg 1]? = some k ∧ k.started = false ∧
      (taskAt false { power := .idle }).startFault 0 k = some 0x0105 ∧ ((taskAt false { power := .idle }).seq 0 0).handler = none)) ∧
    ((taskAt false {}).taskDone 0 0 = false ∧ ((taskAt false {}).ctx 0).seg = some 0) ∧
    ((taskAt true { a := { run := .halted } }).taskDone 0 0 = true ∧ (∀ d < 4, ((taskAt true {}).die d).staging = []) ∧
      ((taskAt true {}).ctx 0).rqend = false) := by
  refine ⟨by decide +kernel, by decide +kernel, ⟨⟨_, rfl, rfl, ?_⟩, ⟨_, rfl, rfl, ?_, rfl⟩⟩, by decide +kernel, by decide +kernel⟩ <;> decide +kernel

def held (h : Hold) : State := eventWith (seqWith { hold := some h }) [0, 0]
def aHold : Hold := { g := 0, lat := 0, scope := 2, phase := true, issued := 0, signalled := true }
def anEntry : StagingEntry := { party := 0, tick := 0, write := { bytes := [(64, 1)], scope := 2 } }
def releasing : State := { held aHold with dies := [(1, { staging := [anEntry] })] }
def closing : State := eventWith (world { launch := some imaged, winnow := { closing := some 0 }, taskFault := some 0x0305 }) [0]
theorem witness_BoundariesReleaseAndPublish :
    (((held aHold).seq 0 0).hold = some aHold ∧ aHold.scope < 4 ∧ (∀ l ∈ ((held aHold).seq 0 0).l1, l.dirty = 0)) ∧
    ((eventWith (seqWith {}) [0, 0]).seq 0 0).hold = none ∧
    ((∀ d < 4, ((held aHold).die d).staging = []) ∧ (held aHold).ingress = [] ∧ (held aHold).migrations = []) ∧
    (releasing.holdsOver = [(0, 0, aHold)] ∧ (releasing.die 1).staging = [anEntry] ∧ (∀ j < 4, j ≠ 1 → (releasing.die j).staging = []) ∧
      anEntry.party = 2 * 0 + 0 ∧ anEntry.write.add = false ∧ releasing.peerLost anEntry.write = false ∧ anEntry.wrong = [] ∧ anEntry.write.settled = [] ∧
      (releasing.seq 0 0).flights = [] ∧ (∀ c < 2, (releasing.queueOf 0 0 c).cmds = []) ∧ anEntry.write.bytes ≠ [] ∧
      releasing.ingress = [] ∧ releasing.migrations = []) ∧
    ((closing.ctx 0).winnow.closing = some 0 ∧ (closing.ctx 0).launch = some imaged ∧ (closing.ctx 0).taskFault.isSome = true) := by
  decide +kernel

/-! Witnesses: binds, partitions, power. -/

/-- A bind record of tile 0 for context 0, and one of context 1 that a bind of a higher class displaces. -/
def aBind : Bind := { valid := true, class_ := 0, ctx := 0, kind := 1, cluster := 0, tileMask := 1, start := 0, end_ := 1000 }
def binding (c : Ctx) (r : Bind) (x : Tile := { power := .active }) : State :=
  { cur := { args := [0] }, tiles := [(0, x)], binds := [(0, r)], ctxs := [(0, { c with tiles := [0], bind := some 0 })] }
def fresh : State := binding { launch := some aLaunch } aBind
def saved : State := binding { launch := some aLaunch, part := .swapped } aBind
def waiting : State :=
  { binding { launch := some aLaunch } aBind { power := .active, ctx := some 1 } with
    binds := [(0, aBind), (1, { aBind with class_ := 1, ctx := 1, policy := 1, active := true })],
    ctxs := [(0, { launch := some aLaunch, tiles := [0], bind := some 0 }), (1, { launch := some aLaunch, part := .running, tiles := [0], bind := some 1 })] }
def expired : State := binding { launch := some aLaunch, part := .running } { aBind with active := true, end_ := 0 }
def lapsing : State := binding { launch := some aLaunch } { aBind with end_ := 0 }
/-- Two binds of one free tile; the one of the lower class is not taken. -/
def outranked : State :=
  { binding { launch := some aLaunch } aBind with
    binds := [(0, aBind), (1, { aBind with class_ := 1, ctx := 1 })],
    ctxs := [(0, { launch := some aLaunch, tiles := [0], bind := some 0 }), (1, { launch := some aLaunch, tiles := [0], bind := some 1 })] }
theorem witness_BindsTakeAndEnd :
    (fresh.bindTakes (fresh.bind (fresh.arg 0)) = true ∧ (fresh.ctx 0).part = .unbound ∧ (fresh.ctx (fresh.bind 0).ctx).bind = some 0 ∧
      ∀ e ∈ fresh.binds, e.1 < 64 ∧ e.2.deadline < 2 ^ 64) ∧
    (saved.bindTakes (saved.bind (saved.arg 0)) = true ∧ (saved.ctx 0).part = .swapped) ∧
    (waiting.bindTakes (waiting.bind 0) = false ∧ waiting.bindWaits (waiting.bind 0) = true ∧ waiting.displaced (waiting.bind 0) = [1] ∧
      (waiting.ctx 1).ending = none) ∧
    ({} : State).bindWaits (({} : State).bind 0) = false ∧
    (expired.bindOver (expired.bind 0) = true ∧ (expired.bind 0).active = true ∧ (expired.ctx 0).ending = none ∧ (expired.bind 0).end_ ≤ expired.gtick ∧
      (expired.ctx 0).part = .running) ∧
    (lapsing.bindOver (lapsing.bind 0) = true ∧ (lapsing.bind 0).active = false ∧ (lapsing.bind 0).end_ ≤ lapsing.gtick ∧ lapsing.bindTakes (lapsing.bind 0) = false) ∧
    (outranked.bindWaits { aBind with class_ := 1 } = true ∧ outranked.bindTakes { aBind with class_ := 1, ctx := 1 } = false) ∧ fresh.bindOver (fresh.bind 0) = false := by decide +kernel

def parting (part : PartState) (ending : Option (Nat × Nat)) (x : Tile := {}) : State :=
  binding { launch := some aLaunch, part := part, ending := ending } aBind x
def anImage : Shadow := { ctx := 0, a := {}, b := {}, window := [], mxmode := 0, haltTick := 0 }
def swappedOut (x : Tile) : State := binding { launch := some aLaunch, part := .swapped } { aBind with valid := false } x
def unanswered : State := binding { part := .running, ackVersion := 0, ackDue := [(1, 0)] } aBind
theorem witness_PartitionsHaltSwapAndResume :
    (((parting .halting (some (1, 0))).ctx 0).part = .halting ∧ ((parting .halting (some (1, 0))).ctx 0).ending = some (1, 0) ∧
      ((parting .halting (some (1, 0))).ctx 0).winnow.closing = none ∧ ((parting .halting (some (4, 0x0508))).ctx 0).launch = some aLaunch) ∧
    (((parting .halted (some (3, 0x0B02))).ctx 0).part = .halted ∧ (∀ d < 4, ((parting .halted (some (3, 0x0B02))).die d).staging = []) ∧
      ((parting .halted (some (3, 0x0B02))).ctx 0).tiles.count 0 = 1) ∧
    (((parting .halted none { shadow := some anImage }).ctx 0).part = .halted ∧ (parting .halted none { shadow := some anImage }).powerLost = false ∧
      (∀ t ∈ ((parting .halted none { shadow := some anImage }).ctx 0).tiles, (parting .halted none { shadow := some anImage }).hasImage 0 t = true) ∧
      ((parting .halted none { shadow := some anImage }).tile 0).shadow = some anImage) ∧
    (((swappedOut {}).ctx 0).bind = some 0 ∧ ((swappedOut {}).bind 0).valid = false ∧ ((swappedOut {}).bind 0).policy ≠ 2 ∧
      (swappedOut {}).tdiError 0 = false ∧ (swappedOut {}).hasImage 0 0 = false) ∧
    ((swappedOut { shadow := some anImage }).hasImage 0 0 = true ∧
      (match (swappedOut { shadow := some anImage }).placeLaunch aLaunch [(swappedOut {}).bind 0] (fun t => [0].contains t) with
        | .ok _ => true
        | .error _ => false) = true ∧
      (match (swappedOut { shadow := some anImage }).placeLaunch { aLaunch with levels := [4 * 2 ^ 32] } [(swappedOut {}).bind 0] (fun t => [0].contains t) with
        | .ok _ => 0
        | .error c => c) = 0x0902) ∧
    ((unanswered.ctx 0).ackDue = (1, 0) :: [] ∧ (unanswered.ctx 0).ackVersion < unanswered.sheaf.version ∧ 0 ≤ unanswered.gtick ∧
      (unanswered.ctx 0).part = .running ∧ (unanswered.ctx 0).ending = none) ∧ (fresh.ctx 0).ackDue = [] := by decide +kernel

/-- A launch of 32 sequencers whose context is saved in the images of cluster 0's tiles, some of them held by context 1; first tiles of clusters held. -/
def bigLaunch : Launch := { aLaunch with levels := [32 * 2 ^ 32] }
def savedBig (part : PartState) (l : Launch) (r : Bind) (heldClusters : List Nat) : State :=
  { cur := { args := [0] }, binds := [(0, { r with clusterMask := 1, kind := 0, end_ := 2 ^ 64 - 1 })],
    tiles := (List.range 16).map (fun t => (t, { ctx := if t = 0 && heldClusters.contains 0 then some 1 else none, shadow := some anImage })) ++
      (heldClusters.filter (· != 0)).map fun c => (16 * c, { ctx := some 1 }),
    ctxs := [(0, { launch := some l, part := part, tiles := List.range 16, bind := some 0 })] }
def moving (l : Launch) (heldClusters : List Nat) : State := savedBig .swapped l { valid := true, policy := 2 } heldClusters
def placesOf (s : State) (l : Launch) : List Bind :=
  (s.restorePlaces 0 (s.bind 0)).filter fun k => levelsOk l.levels k.tiles && s.tilesTake l k.tiles && k.tiles.all s.tileOpen
theorem witness_PartitionsHaltSwapAndResume_moves :
    ((placesOf (moving bigLaunch []) bigLaunch).any (fun k => k.tiles == ((moving bigLaunch []).ctx 0).tiles) = true ∧
      ((moving bigLaunch []).bind 0).valid = true ∧ ((moving bigLaunch []).bind 0).policy = 2 ∧ ((moving bigLaunch []).bind 0).active = false) ∧
    ((placesOf (moving bigLaunch [0]) bigLaunch).all (fun k => k.tiles != List.range 16) = true ∧
      ((placesOf (moving bigLaunch [0]) bigLaunch).head?.map (·.tiles)) = some (List.range' 16 16)) ∧
    placesOf (moving aLaunch []) aLaunch = [] ∧
    ((moving bigLaunch []).powerLost = false ∧ (moving bigLaunch []).tdiError 0 = false ∧
      ∀ t ∈ ((moving bigLaunch []).ctx 0).tiles, (moving bigLaunch []).hasImage 0 t = true) := by decide +kernel
def suspended (heldClusters : List Nat) : State := savedBig .suspended bigLaunch {} heldClusters
def heldPlaces (hs : List Nat) : List Bind := (suspended hs).restorePlaces 0 ((suspended hs).bind 0)
def chosenTiles (r : Except Nat Bind) : Option (List Nat) :=
  match r with
  | .ok k => some k.tiles
  | .error _ => none
theorem witness_PartitionsHaltSwapAndResume_waits :
    (chosenTiles ((suspended [0]).placeLaunch bigLaunch (heldPlaces [0]) fun _ => false) = some (List.range' 16 16) ∧
      (suspended [0]).tileOpen 16 = true ∧ (suspended [0]).tileOpen 0 = false) ∧
    (chosenTiles ((suspended (List.range 24)).placeLaunch bigLaunch (heldPlaces (List.range 24)) fun _ => false) = some (List.range 16) ∧
      (heldPlaces (List.range 24)).filter (fun k => k.tiles.all (suspended (List.range 24)).tileOpen) = []) ∧
    (((suspended []).bind 0).valid = false ∧ (suspended []).arg 1 ≠ 1 ∧ (suspended []).hasImage 0 15 = true) := by decide +kernel
/-- A halted partition whose lines hold no byte for a lost peer; an image whose landing slots all came. -/
theorem witness_PartitionsHaltSwapAndResume_whole :
    (∀ t ∈ ((parting .halted (some (3, 0x0B02))).ctx 0).tiles, ∀ q < 2,
      ∀ w ∈ ((parting .halted (some (3, 0x0B02))).seq t q).writeBacks (fun _ => true) id, (parting .halted (some (3, 0x0B02))).peerLost w = false) ∧
    anImage.lost = [] := by decide +kernel

/-- A LAUNCH not yet begun whose bind has lapsed; a saved context that is to go back to its own tile, where a spare is to come, stands, or is held. -/
def unplaced : State := binding { launch := some aLaunch } { aBind with valid := false }
def spared (x : Tile) : State :=
  { swappedOut { x with shadow := some anImage } with cur := { args := [0, 1] } }
def placeCode (r : Except Nat Bind) : Nat :=
  match r with
  | .ok _ => 0
  | .error c => c
theorem witness_PartitionsHaltSwapAndResume_own :
    ((unplaced.ctx 0).launch = some aLaunch ∧ (unplaced.ctx 0).bind = some 0 ∧ (unplaced.ctx 0).part = .unbound ∧ (unplaced.bind 0).active = false ∧
      (unplaced.bind 0).valid = false ∧ unplaced.powerLost = false ∧ unplaced.tdiError 0 = false ∧
      placeCode (unplaced.placeLaunch aLaunch (shapes (aLaunch.size / 2)) fun _ => false) = 0 ∧
      placeCode (unplaced.placeLaunch { aLaunch with levels := [4 * 2 ^ 32] } (shapes (aLaunch.size / 2)) fun _ => false) ≠ 0) ∧
    ((spared { failed := true }).arg 1 = 1 ∧ ((spared { failed := true }).tile 0).failed = true) ∧
    (((spared {}).tile 0).failed = false ∧ (spared {}).hasImage 0 0 = true ∧ ((spared {}).bind 0).valid = false ∧ (spared {}).tilesTake aLaunch [0] = true ∧
      (spared {}).tileOpen 0 = true ∧ (spared { ctx := some 1 }).tileOpen 0 = false ∧ ((spared {}).ctx 0).tiles = [0]) ∧
    (({ swappedOut { shadow := some anImage } with sheaf := { vregs := [(0, 0)] } } : State).tilesTake aLaunch [0] = false) ∧
    (∀ d < 4, ∀ e ∈ ((parting .halted (some (3, 0x0B02))).die d).staging, (parting .halted (some (3, 0x0B02))).peerLost e.write = false) ∧
    (anImage.window = [] ∧ ((parting .halted (some (3, 0x0B02))).tile 0).inbound = [] ∧ aLaunch.window % 64 = 0) := by decide +kernel

def powered (x : Tile) : State := { cur := { args := [0, 64] }, tiles := [(0, x)] }
/-- Two words of Winnow and one of a task that came while the tile was OFF. -/
def wakingHeld : Tile :=
  { move := .waking 5, inbound := [{ due := 0, issuer := winnowIssuer, multicast := false, write := { bytes := [(64, 1)] } },
      { due := 0, issuer := 3, multicast := false, write := { bytes := [(64, 2)] } },
      { due := 0, issuer := winnowIssuer, multicast := false, write := { bytes := [(64, 3), (65, 4)] } }] }
theorem witness_TilesChangePower_held :
    ((powered wakingHeld).tile 0).power = .off ∧ (∀ w ∈ (((powered wakingHeld).tile 0).inbound.filter fun e => e.issuer == winnowIssuer).map (·.write),
      w.add = false ∧ w.checks = none ∧ (w.bytes.map (·.1)).Nodup) ∧
    (((powered { move := .waking 5 }).tile 0).inbound.filter fun e => e.issuer == winnowIssuer) = [] := by decide +kernel
theorem witness_TilesChangePower :
    (64 ≤ (powered {}).arg 1 ∧ ((powered {}).tile 0).move = .none ∧ ((powered {}).tile 0).power ≠ .active ∧
      ((powered { power := .active }).tile 0).power = .active) ∧
    (((powered { move := .waking 5 }).tile 0).move = .waking 5 ∧ ((powered { move := .waking 5 }).tile 0).power = .off ∧
      ((powered { power := .idle, move := .waking 5 }).tile 0).power ≠ .off) ∧
    (((powered { move := .entering .off 5 }).tile 0).move = .entering .off 5 ∧ ((powered { move := .entering .idle 5 }).tile 0).move = .entering .idle 5) ∧
    (((powered { failed := true }).tile 0).failed = true ∧ 0 < (powered { failed := true }).sparesLeft (dieOf 0) ∧
      ((powered { failed := true }).tile 0).ctx = none ∧ ((powered { failed := true, ctx := some 0 }).tile 0).ctx ≠ none) ∧
    ((powered {}).tile 0).failed = false := by decide +kernel
/-- A wake for context 0, which holds the tile or not, with no segment chosen, one that declares the tile, and one that does not. -/
def wakeOf (c : Ctx) (ctx : Option Nat) : State :=
  { world { c with launch := some imaged } with cur := { args := [0, 0] }, tiles := [(0, { ctx := ctx })] }
theorem witness_TilesChangePower_contexts :
    ((wakeOf {} none).arg 1 < 64 ∧ ((wakeOf {} none).tile 0).move = .none ∧ ((wakeOf {} none).tile 0).power ≠ .active ∧
      ((wakeOf {} none).tile 0).ctx ≠ some ((wakeOf {} none).arg 1)) ∧
    (((wakeOf {} (some 0)).tile 0).ctx = some ((wakeOf {} (some 0)).arg 1) ∧ ((wakeOf {} (some 0)).ctx 0).chosen = none) ∧
    (((wakeOf { chosen := some 0 } (some 0)).ctx 0).chosen = some 0 ∧ 0 ∈ (wakeOf { chosen := some 0 } (some 0)).declared 0 0) ∧
    (((wakeOf { chosen := some 9 } (some 0)).ctx 0).chosen = some 9 ∧ 0 ∉ (wakeOf { chosen := some 9 } (some 0)).declared 0 9) := by decide +kernel

/-! Witnesses: packets. -/

/-- Queue 0 of context 0 in service, a packet of some fields in hand; every feature locked in. -/
def packet (ws : List (Nat × Nat × Nat)) : List Byte := leBytes 64 ((ws.map fun w => w.2.2 * 256 ^ w.1).sum)
def locked : DeviceRegs := { lock := true, sel0 := 0xFF, bootstep := 0xFF }
def serviced (c : Ctx) (q : Queue) (p : List Byte) (more : List (Nat × Nat × Nat) := []) : State :=
  { world c {} more with cur := { args := [0, 0], bytes := p }, queues := [(0, { q with state := 1, mapped := true, busy := true })], regs := locked }
/-- Request records at 0x40000. -/
def tabled : Ctx := { winnow := { table := 0x40000, entries := 4 } }
def freeRecord : List (Nat × Nat × Nat) := [(0x40014, 4, 1), (0x40018, 4, 1), (0x4003C, 4, 1)]
def submitting (more : List (Nat × Nat × Nat)) : State := serviced tabled {} (packet [(0, 1, 1)]) more
def seqOfRecord (s : State) : Nat := field (s.ctxBytes 0 0x40000 128) 0 4
def validRecord (s : State) : Bool :=
  let b := s.ctxBytes 0 0x40000 128
  ({ parseRequest b with position := 0, pages := 0, arrival := s.gtick } : Request).valid (field b 0x58 1) (s.ctx 0).maxPos (s.ctx 0).maxDraft
theorem witness_RequestPackets :
    ((submitting []).inService 0 = true ∧ ({ submitting [] with powerLost := true } : State).inService 0 = false ∧
      (submitting []).featuresOk ((submitting []).queue 0) (packet [(0, 1, 1)]) = true ∧
      ({ submitting [] with regs := {} } : State).featuresOk ((submitting []).queue 0) (packet [(0, 1, 5)]) = false) ∧
    (seqOfRecord (submitting [(0x40000, 4, 1)]) % 2 = 1) ∧
    (seqOfRecord (submitting [(0x40004, 1, 1)]) % 2 = 0 ∧ field ((submitting [(0x40004, 1, 1)]).ctxBytes 0 0x40000 128) 4 1 ≠ 0) ∧
    (seqOfRecord (submitting freeRecord) % 2 = 0 ∧ field ((submitting freeRecord).ctxBytes 0 0x40000 128) 4 1 = 0 ∧ validRecord (submitting freeRecord) = true) ∧
    (field ((submitting []).ctxBytes 0 0x40000 128) 4 1 = 0 ∧ validRecord (submitting []) = false) ∧
    ((serviced tabled { class_ := 2 } []).queue 0).class_ = 2 ∧ ({ locked with sel0 := 0x7F } : DeviceRegs).feature 7 = false ∧
    ((submitting []).queue 0).retry = false ∧
    (((serviced tabled { retry := true, lane := some (packet [(0, 1, 1)]) } [] freeRecord).queue 0).retry = true ∧
      (serviced tabled { retry := true, lane := some (packet [(0, 1, 1)]) } [] freeRecord).packetOk
        ((serviced tabled { retry := true, lane := some (packet [(0, 1, 1)]) } [] freeRecord).queue 0) (packet [(0, 1, 1)]) false = true) := by
  decide +kernel

def launching (c : Ctx) : State := serviced c {} (packet [(0, 1, 3), (0x10, 8, 0x30000)])
theorem witness_LaunchAndWaitPackets_launch :
    ((launching { launch := some imaged }).inService 0 = true ∧ (launching { launch := some imaged }).launchOpen 0 = true) ∧
    ((launching {}).launchOpen 0 = false ∧ (launching {}).arg 1 ≠ 1) ∧
    (let s : State := { serviced {} { open_ := [(9, 3, false)] } [] with cur := { args := [0, 1, 9, 0] } }
     s.powerLost = false ∧ s.tdiError 0 = false ∧ s.arg 1 = 1 ∧ s.arg 2 = 9 ∧ (s.queue 0).open_ = (9, 3, false) :: []) ∧
    (match (launching {}).checkLaunch 0 0x30000 0 0 false with
      | .ok (_, k) => k.tiles
      | .error _ => []) = [1] ∧
    (match (launching {}).checkLaunch 0 0x30001 0 0 false with
      | .ok _ => 0
      | .error c => c) = 0x0902 ∧
    ((submitting []).ctx 9).created = false := by decide +kernel
def blocked (w : Nat × Nat × Nat) (open_ : List (Nat × Nat × Bool)) (args : List Nat) : State :=
  { serviced {} { wait := some w, blockedAt := some 0, open_ := open_ } [] with cur := { args := args } }
theorem witness_LaunchAndWaitPackets_waits :
    ((launching {}).waitAllowed ((launching {}).queue 0) 1 0 = true ∧ (launching {}).waitAllowed ((launching {}).queue 0) 2 1 = false ∧
      (launching {}).arg 1 ≠ 1) ∧
    ((blocked (0, 0, 0) [(9, 4, false)] [0]).inService 0 = true ∧ ((blocked (0, 0, 0) [(9, 4, false)] [0]).queue 0).wait = some (0, 0, 0) ∧
      0 ≤ (blocked (0, 0, 0) [(9, 4, false)] [0]).gtick ∧ ((blocked (0, 0, 0) [(9, 4, false)] [0]).queue 0).open_ = (9, 4, false) :: [] ∧
      ¬ (1 ≤ (blocked (1, 0, 1) [(9, 4, false)] [0]).gtick)) ∧
    ((blocked (3, 0, 0) [(9, 7, false)] [0, 1]).arg 1 = 1 ∧ ((blocked (3, 0, 0) [(9, 7, false)] [0, 1]).queue 0).wait = some (3, 0, 0)) ∧
    (((blocked (0, 0, 9) [] [0]).queue 0).mapped = true ∧ ((blocked (0, 0, 9) [] [0]).queue 0).blockedAt = some 0) := by decide +kernel

/-- ARM_TIMER of slot 3 with a packet at host address 0x100 for queue 0; WEIGHT_WRITE of 64 bytes at tile 0. -/
def arming (op : Nat) (n : Nat) : State :=
  serviced {} {} (packet [(0, 1, 5), (0x20, 8, 0x100), (0x28, 4, n), (0x2C, 2, 3)]) [(0x8000000000100, 1, op)]
def weighing (x : Tile) : State :=
  { serviced {} {} (packet [(0, 1, 6), (0x1C, 4, 64)]) with tiles := [(0, x)] }
def putsOf (s : State) : List Put := rowPuts 0 (s.sourceBytes 0 0 64) s.gtick
def failing : State :=
  { serviced {} { writes := [{ tile := 0, tag := 9, silent := false, rest := [], committed := true }], open_ := [(9, 6, false)] } [] with
    cur := { args := [0, 1] }, tiles := [(0, { journal := { st := .failed, queue := some 0 } })] }
def timed (t : Timer) (tick : Nat) (lane : Option (List Byte)) : State :=
  { serviced { bind := some 0 } { lane := lane } [] with timers := [(3, t)], gtick := tick, binds := [(0, { aBind with active := true })] }
/-- Releases 10, 20, ... of which those from 1030 to 2040 fall at wheel tick 2048. -/
def tenTicks : Timer := { armed := true, first := 10, period := 10 }
def stuck (n : Nat) : State := { serviced {} {} [] with agenda := [{ tick := 5, op := .submit, args := [0, 0], restarts := n }] }
theorem witness_TimersWeightsAndWatchdog :
    ((arming 1 0).inService 0 = true ∧ (arming 1 0).featuresOk ((arming 1 0).queue 0) (arming 1 0).cur.bytes = true ∧
      packetOp ((arming 5 0).busBytes 0x100 64) = 5 ∧ packetOp ((arming 1 0).busBytes 0x100 64) ≠ 5 ∧ ((arming 1 7).queue 7).state ≠ 1 ∧
      ((arming 1 0).queue 0).state = 1 ∧ ((arming 1 0).queue 0).ctx = 0) ∧
    (∀ m ∈ putsOf (weighing {}), (weighing {}).ownsRegion 0 (16 * 0 + m.row / 1024) = true) ∧
    ¬ (∀ m ∈ putsOf (weighing {}), ({ weighing {} with owners := [(0, (1, none))] } : State).ownsRegion 0 (16 * 0 + m.row / 1024) = true) ∧
    ((weighing { journal := { st := .open_ } }).writeWaits ((weighing {}).queue 0) 0 = true ∧ (weighing {}).writeWaits ((weighing {}).queue 0) 0 = false) ∧
    (((weighing { retiredRows := (List.range 512).map (16384 + ·) }).tile 0).freeRows.length < (putsOf (weighing {})).length ∧
      (putsOf (weighing {})).length ≤ ((weighing {}).tile 0).freeRows.length) ∧
    (failing.arg 1 = 1 ∧ (failing.queue 0).open_ = (9, 6, false) :: [] ∧ (failing.tile 0).journal.queue = some 0 ∧ (failing.tile 0).journal.st = .failed ∧
      failing.powerLost = false ∧ failing.tdiError 0 = false ∧ (failing.queue 0).writes.map (fun w => (w.tag, w.silent, w.committed)) = [(9, false, true)] ∧
      (({ failing with tiles := [] } : State).tile 0).journal.queue ≠ some 0) ∧
    (let s := timed tenTicks 2048 none
     (s.timers.map (·.1)).Nodup ∧ (3, tenTicks) ∈ s.timers ∧ tenTicks.armed = true ∧ (∀ e ∈ s.timers, e.1 ≠ 3 → e.2.queue ≠ tenTicks.queue) ∧
       (s.queue 0).state = 1 ∧ (s.queue 0).lane = none ∧ (s.ctx (s.queue 0).ctx).bind = some 0 ∧ (s.bind 0).active = true ∧
       (timed tenTicks 2048 (some [])).powerLost = false ∧ ((timed tenTicks 2048 (some [])).queue 0).lane ≠ none) ∧
    ((∀ e ∈ (serviced {} {} []).agenda, (serviced {} {} []).ofThread 0 e = false) ∧ ((stuck 0).agenda.find? ((stuck 0).ofThread 0)).isSome = true ∧
      ((stuck 0).agenda.find? ((stuck 0).ofThread 0)).map (·.restarts) = some 0 ∧ ((stuck 2).agenda.find? ((stuck 2).ofThread 0)).map (·.restarts) = some 2 ∧ ((stuck 2).queue 0).completed = ((stuck 2).queue 0).shadow.completed) := by decide +kernel

/-- The releases of a period of 10 that fall at wheel tick 2048: numbers 102 to 203; a once-only timer has its one at the tick from its time on. -/
theorem witness_TimersWeightsAndWatchdog_releases :
    (∀ i, ((i = 0 ∨ 0 < tenTicks.period) ∧ tenTicks.first + i * tenTicks.period ≤ 2048 ∧ 2048 < tenTicks.first + i * tenTicks.period + 1024) ↔
      102 ≤ i ∧ i < 102 + 102) ∧
    (∀ i, ((i = 0 ∨ 0 < (0 : Nat)) ∧ 10 + i * 0 ≤ 1024 ∧ 1024 < 10 + i * 0 + 1024) ↔ 0 ≤ i ∧ i < 0 + 1) ∧
    ∀ i, ¬ ((i = 0 ∨ 0 < (0 : Nat)) ∧ 10 + i * 0 ≤ 0 ∧ 0 < 10 + i * 0 + 1024) := by
  refine ⟨?_, ?_, ?_⟩ <;> intro i <;> simp [tenTicks] <;> omega
def afterStep (o : Host.Outcome State Fault Refusal) : State :=
  match o with
  | .next u => u
  | _ => {}
theorem test_timer_release_is_delivered :
    ((afterStep (exec .timerWheelTick (timed { tenTicks with packet := List.replicate 64 7 } 2048 none))).queue 0).lane.map (fun p => (field p 2 2, field p 8 8)) =
      some (101, 1030) := by decide +kernel

/-! Witnesses: queues, registers, rings, records. -/

def sealed (x : Queue) : Queue := { x with commit := ({ x with commit := 0 } : Queue).crc }
def queueAt (x : Queue) (args : List Nat) : State := { cur := { args := args }, queues := [(0, x)], regs := locked }
def work (ws : List (Nat × Nat × Nat)) (tail : Nat) : State :=
  { queueAt { state := 1, ctx := 0xFF, tailReg := tail } [0] with mem := cells ws }
theorem witness_QueuesAreEnabledMappedAndDisabled :
    (((queueAt (sealed { size := 16 }) [0, 0]).queue 0).state = 0 ∧ (queueAt (sealed { size := 16 }) [0, 0]).reaches 0 ((queueAt (sealed { size := 16 }) [0, 0]).queue 0) = true ∧
      ((queueAt (sealed { size := 16 }) [0, 0]).queue 0).commit = ((queueAt (sealed { size := 16 }) [0, 0]).queue 0).crc ∧
      ((queueAt (sealed { size := 16 }) [0, 0]).queue 0).fieldsOk = true ∧ (queueAt {} [0, 0]).regs.lock = true ∧ (queueAt {} [0, 0]).regs.bootstep = 0xFF) ∧
    (((queueAt { state := 1 } [0, 0]).queue 0).state ≠ 0 ∧ (queueAt { ctx := 4 } [4, 0]).reaches 4 ((queueAt { ctx := 4 } [4, 0]).queue 0) = false ∧
      (queueAt { ctx := 4 } [5, 0]).reaches 5 ((queueAt { ctx := 4 } [5, 0]).queue 0) = true ∧
      ({ queueAt { ctx := 4 } [5, 0] with regs := { locked with bootstep := 9 }, boot := [(9, { outcome := 3, attempts := 3 })] } : State).reaches 5 ((queueAt { ctx := 4 } [5, 0]).queue 0) = false ∧
      ((queueAt { state := 1, busy := true } [0, 0]).queue 0).busy = true) ∧
    (((work [(0x8000000000000, 1, 7)] 1).queue 0).mapped = false ∧ (work [(0x8000000000000, 1, 7)] 1).mappedCount < 128 ∧
      (work [(0x8000000000000, 1, 7)] 1).serves 0xFF = true ∧ ((work [(0x8000000000000, 1, 7)] 1).queue 0).head ≠ ((work [(0x8000000000000, 1, 7)] 1).queue 0).tailReg ∧
      ¬ (16 < (1 + 2 ^ 32 - 0) % 2 ^ 32) ∧
      (work [(0x8000000000000, 1, 7)] 1).packetOk ((work [] 1).queue 0) ((work [(0x8000000000000, 1, 7)] 1).headPacket ((work [] 1).queue 0)) true = true ∧
      (work [] 1).packetOk ((work [] 1).queue 0) ((work [] 1).headPacket ((work [] 1).queue 0)) true = false) ∧
    16 < (17 + 2 ^ 32 - 0) % 2 ^ 32 ∧
    ((queueAt {} [0, 0x400000, 1, 8]).arg 1 / 64 = 0x10000 + 0 ∧ ((queueAt {} [0, 0x400000, 1, 8]).queue 0).ctx < 256 ∧
      (queueAt {} [0, 0x400000, 1, 8]).frozenCtx 0 = false ∧ (queueAt {} [0, 0x400000, 1, 8]).reaches 0 ((queueAt {} [0, 0x400000, 1, 8]).queue 0) = true ∧ 1 ≤ (queueAt {} [0, 0x400000, 1, 8]).arg 3 ∧
      (queueAt {} [0, 0x400000, 1, 8]).arg 1 % 64 + (queueAt {} [0, 0x400000, 1, 8]).arg 3 ≤ 8) := by decide +kernel

theorem witness_DeviceRegistersAndRings :
    ((queueAt {} [0, 0x10, 1, 8]).arg 3 = 8 ∧ (queueAt {} [3, 0x10, 1, 8]).arg 0 ≠ 0 ∧ (queueAt {} [3, 0x10, 1, 8]).arg 1 < 0x400000) ∧
    (({ rings := [(127, { ctx := 0 })], ctxs := [(0, { created := true })], cur := { args := [127] } } : State).ringOk
        (({ rings := [(127, { ctx := 0 })] } : State).ring 127) = true) ∧
    (({} : State).ringOk (({} : State).ring 127) = false ∧ (128 : Nat) ≤ 128) ∧ ({} : State).powerLost = false := by decide +kernel

/-- Ring 0 of port 0 takes EtherType 0x88B5; its read index stands at physical 0x8000. -/
def aRing : Ring := { base := 0x10000, count := 16, readAddr := 0x8000, state := 1, etherType := 0x88B5 }
def framed (r : Ring) (readIndex : Nat) (bytes : List Byte) : State :=
  { cur := { args := [0, 0x88B5, 5], bytes := bytes }, rings := [(0, r)], portsUp := true, mem := putBytes [] 0x8000 (leBytes 4 readIndex) }
def frameRoom (s : State) (m : Nat) : Bool := ((s.ring 0).write + m + 2 ^ 32 - leNat (s.physBytes 0x8000 4)) % 2 ^ 32 ≤ (s.ring 0).count
def ringMap : List (Nat × Nat × Nat) := [(0x1FF8, 8, 0x6001), (0x6FF8, 8, 0x7001), (0x7FF8, 8, 7)]
def reporting (root next : Nat) : State :=
  { cur := { args := [0] }, mem := cells ringMap, power := .run, ctxs := [(0, { created := true, root := root, records := [aRecord], ringNext := next, ringKnown := next != 0 })] }
/-- An external write of one byte by `agent` to `pa`, its order argument `order`, with two writes waiting. -/
def outside (agent pa order : Nat) : State :=
  { cur := { args := [0, agent, pa, order], bytes := [1] },
    ingress := [{ ctx := 0, agent := 0, arrived := 0, write := { bytes := [] } }, { ctx := 0, agent := 0, arrived := 9, write := { bytes := [] } }] }
def lands (s : State) (pa : Nat) : Option (Nat × Nat) :=
  match s.place pa with
  | .ok .lpddr => some (384, pa)
  | .ok (.aperture t off) => some (t, off)
  | _ => none
theorem witness_OutsideWritesFramesAndRecords :
    ((outside 0x1000 0x40 0).powerLost = false ∧ (outside 0x1000 0x40 0).arg 3 ≠ 1 ∧ (outside 0x1000 0x40 1).arg 3 = 1 ∧
      lands (outside 0x1000 0x40 0) 0x40 = some (384, 0x40) ∧ (∀ e ∈ (outside 0x1000 0x40 0).ingress.take 1, e.arrived ≤ (outside 0x1000 0x40 0).gtick) ∧
      (∀ e ∈ ((outside 0x1000 0x40 0).ingress.drop 1).head?, (outside 0x1000 0x40 0).gtick < e.arrived)) ∧
    (lands (outside 0x1000 0x10000000040 0) 0x10000000040 = some (0, 0x40) ∧ peerAgent ≤ (outside 0x1000 0x10000000040 0).arg 1 ∧
      (outside 0 0x10000000040 0).arg 1 < peerAgent) ∧
    (match ({} : State).place 0x7FFFFFFFC0 with
      | .ok .lpddr => true
      | _ => false) = true ∧
    (match ({} : State).place 0x8000000000 with
      | .ok .lpddr => true
      | _ => false) = false ∧
    ((framed aRing 0 [1]).frameRing 0 0x88B5 [1] = some 0 ∧ (framed { aRing with state := 0 } 0 [1]).frameRing 0 0x88B5 [1] = none ∧
      (framed { aRing with state := 2 } 0 [1]).frameRing 0 0x88B5 [1] = some 0 ∧ (framed aRing 0 [1]).tdiError 0 = false ∧ (framed aRing 0 [1]).portsUp = true ∧ ({} : State).portsUp = false ∧
      ceilDiv ([1] : List Byte).length 48 = 1) ∧
    (frameRoom (framed aRing 0 []) 0 = true ∧ frameRoom (framed aRing 0 []) 1 = true ∧ frameRoom (framed { aRing with write := 16 } 0 []) 0 = true ∧
      frameRoom (framed { aRing with write := 16 } 0 []) 1 = false ∧ frameRoom (framed aRing 1 []) 0 = false) ∧
    ((reporting 0x1000 0).ringReady 0 0 = true ∧ (reporting 0x9000 0).ringReady 0 0 = false ∧ ((reporting 0x1000 0).ctx 0).records = aRecord :: [] ∧
      ¬ (1023 ≤ (0 + 2 ^ 32 - leNat ((reporting 0x1000 0).ctxBytes 0 (faultRing + 4) 4)) % 2 ^ 32) ∧
      (reporting 0x1000 1023).ringReady 0 1023 = true ∧ ((reporting 0x1000 1023).ctx 0).ringKnown = true ∧ ((reporting 0x1000 0).ctx 0).ringKnown = false ∧
      (reporting 0x1000 0).ringIndex 0 = 0 ∧ (reporting 0x9000 0).ringIndex 0 = 0 ∧
      1023 ≤ (1023 + 2 ^ 32 - leNat ((reporting 0x1000 1023).ctxBytes 0 (faultRing + 4) 4)) % 2 ^ 32) ∧
    (match (reporting 0x1000 0).ctxAddr 0 (faultRing + 0x40) with
      | .ok pa => match (reporting 0x1000 0).place pa with
        | .ok .lpddr => true
        | _ => false
      | .error _ => false) = true ∧
    (match (reporting 0x1000 0).ctxAddr 0 (faultRing + 8) with
      | .ok pa => lands (reporting 0x1000 0) pa
      | .error _ => none).isSome = true := by decide +kernel

/-- What a peer releases at F; a ring in ERROR to be repaired, after a report on slot 0 too, and a report of another context. -/
def repairing (state : Nat) (args : List Nat) : State := { framed { aRing with state := state } 0 [] with cur := { args := args } }
theorem witness_OutsideWritesFramesAndRecords_repairs :
    ((outside 0x1000 0x40 1).migrations = [] ∧ (outside 0x1000 0x40 1).powerLost = false ∧ (outside 0x1000 0x40 1).cur.bytes ≠ []) ∧
    ((repairing 2 [0]).cur.args = [(repairing 2 [0]).arg 0] ∧ ((repairing 2 [0]).ring 0).state = 2 ∧ (repairing 2 [0]).powerLost = false ∧
      lands (repairing 2 [0]) ((repairing 2 [0]).ring 0).readAddr = some (384, 0x8000)) ∧
    ((repairing 1 [0, 0, 0]).cur.args = [0, 0, ((repairing 1 [0, 0, 0]).ring 0).ctx] ∧ ((repairing 1 [0, 0, 0]).ring 0).state ≠ 0) ∧
    ((repairing 2 [0, 0, 0, 1]).cur.args = [0, 0, ((repairing 2 [0, 0, 0, 1]).ring 0).ctx, 1] ∧
      lands (repairing 2 [0, 0, 0, 1]) (((repairing 2 [0, 0, 0, 1]).ring 0).base + 64 * (0 % ((repairing 2 [0, 0, 0, 1]).ring 0).count)) = some (384, 0x10000)) ∧
    ((repairing 2 [0, 0, 7]).cur.args = [0, 0, 7] ∧ 7 ≠ ((repairing 2 [0, 0, 7]).ring 0).ctx ∧ ((repairing 0 [0]).ring 0).state = 0) := by decide +kernel

/-- Records that cannot be written: two, and 65. -/
theorem witness_OutsideWritesFramesAndRecords_waiting :
    let s (n : Nat) : State := { cur := { args := [0] }, ctxs := [(0, { created := true, root := 0x9000, records := List.replicate n aRecord })] }
    ((s 2).ctx 0).records ≠ [] ∧ (s 2).power ≠ .parked ∧ (s 2).power ≠ .unpowered ∧ (s 2).ringReady 0 ((s 2).ringIndex 0) = false ∧
    ((s 2).ctx 0).records.length ≤ 64 ∧ 64 < ((s 65).ctx 0).records.length ∧ (s 65).ringReady 0 ((s 65).ringIndex 0) = false := by decide +kernel

/-! Witnesses: memory, the Sheaf, supply, boot, interfaces. -/

/-- A page of 32 KiB at 0x4000_0000, marked MIG, in the frame 0x10_0000, and a shootdown of it sent at tick 0. -/
def pagedAt (gtick : Nat) (args : List Nat) : State :=
  { gtick := gtick, cur := { args := args }, ctxs := [(0, { created := true, root := 0x1000 })],
    mem := cells (tables ++ [(0x3008, 8, 0x4001), (0x4000, 8, 0x5001), (0x5000, 8, 0x100000 + 23)]) }
def paged : State := pagedAt 2400 [0, 0x40000000, 0x40008000, 0, 0x200000]
def spilling : State :=
  { world { winnow := { spillQueue := [3], reqs := [(3, { spilling := [(0x50000, 0x60000)] })] } } with cur := { args := [0] } }
def aMigration : Migration := { ctx := 0, old := 0x100000, new := 0x200000, size := 32768, leaf := 0x5000 }
def migrating (m : Migration) : State := { cur := { args := [0x100000] }, migrations := [m] }
theorem witness_MemoryDrainsSpillsAndMigrates :
    (({ forward := [anEntry] } : State).forward = anEntry :: [] ∧ ({ forward := [anEntry] } : State).migrations = []) ∧
    ((spilling.ctx 0).winnow.spillQueue = 3 :: [] ∧ ((spilling.ctx 0).winnow.req 3).spilling = (0x50000, 0x60000) :: [] ∧
      (match spilling.ctxAddr 0 0x50000, spilling.ctxAddr 0 0x60000 with
        | .ok a, .ok b => (a, b)
        | _, _ => (0, 0)) = (0x50000, 0x60000)) ∧
    (paged.leafAt 0x40000000 walkLevels 0x1000 = some (0x5000, 32768, 0x100000 + 23) ∧ nbit (0x100000 + 23) 4 = true ∧
      nbits (0x100000 + 23) 9 43 * 512 = 0x100000 ∧ 0x100000 % 32768 = 0 ∧ paged.frameFit 0x200000 32768 = true ∧
      paged.cur.args[3]? = some 0 ∧ 0 + 2400 ≤ paged.gtick ∧ (pagedAt 2399 paged.cur.args).gtick < 0 + 2400 ∧ (pagedAt 0 [0, 0, 64]).cur.args[3]? = none ∧
      0x100000 + 32768 ≤ paged.sheaf.populated) ∧
    ((migrating aMigration).migration 0x100000 = some aMigration ∧ aMigration.state = 0 ∧ aMigration.ready = 0 ∧
      (migrating { aMigration with ready := 9 }).migration 0x100000 = some { aMigration with ready := 9 } ∧
      (migrating { aMigration with state := 1 }).migration 0x100000 = some { aMigration with state := 1 }) ∧
    ({ cur := { args := [0] } } : State).migration 0 = none := by decide +kernel
/-- Frames in LPDDR-6 without codes; a page with one sector still to copy, whose leaf lies in neither frame; a released entry in the new frame and one outside. -/
theorem witness_MemoryDrainsSpillsAndMigrates_contents :
    (spilling.codesClean = true ∧ spilling.migrations = [] ∧ spilling.forwarding = [] ∧ 0x50000 % 64 = 0 ∧ 0x60000 % 64 = 0 ∧ 0x50000 + 32768 ≤ 0x60000 ∧
      lands spilling 0x57FFF = some (384, 0x57FFF) ∧ lands spilling 0x60000 = some (384, 0x60000)) ∧
    (let m := { aMigration with dirty := [0x100000 / 64 + 511] }
     m.old % 64 = 0 ∧ m.new % 64 = 0 ∧ m.size % 64 = 0 ∧ m.old + m.size ≤ m.new ∧ (∀ k ∈ m.dirty, m.old ≤ 64 * k ∧ 64 * k < m.old + m.size) ∧
       (migrating m).migrations = [m] ∧ (migrating m).codesClean = true ∧ (migrating m).forwarding = [] ∧ m.leaf + 8 ≤ m.new) ∧
    (anEntry.names 0 128 = true ∧ anEntry.names 0x200000 32768 = false ∧ paged.forward = []) := by decide +kernel

/-- Check bytes that fit their word, kept beside it. -/
theorem whole_checks : ∀ c : BitVec 8, ∀ i < 8, checkByte (BitVec.ofNat 64 (leNat (List.replicate 8 c))) i = c := by decide +kernel
def checked : State := { cur := { args := [0, 0, 0] }, tiles := [(0, { marks := [(0, { checks := some (BitVec.ofNat 64 (leNat (List.replicate 8 (Config.secded 0)))) })] })] }
theorem witness_TheSheafChanges_scrub :
    ((checked.tile 0).mark 0).checks ≠ none ∧ ((checked.tile 0).mark 0).injected = false ∧ (checked.tile 0).retiredBanks.getLsbD (0 % 16) = false ∧
    ((checked.tile 0).lookWord 0).bad = false ∧ (checked.tile 0).uses = [] ∧ (checked.tile 0).reservations = [] ∧ (checked.tile 0).parityDue = [] := by
  have h0 : (checked.tile 0).rawWord 0 = 0 := by decide +kernel
  have h1 : ((checked.tile 0).mark 0).checks = some (BitVec.ofNat 64 (leNat (List.replicate 8 (Config.secded 0)))) := rfl
  have hl : ∀ i < 8, lane64 (0 : Vec) i = 0 := by decide
  refine ⟨by rw [h1]; simp, rfl, by decide +kernel, ?_, rfl, rfl, rfl⟩
  have hw : (wordRead ((checked.tile 0).rawWord 0) ((checked.tile 0).mark 0).checks).2.2.2 = false := by
    rw [h0, h1]
    simp only [wordRead, List.any_map, List.any_eq_false, List.mem_range, Function.comp]
    intro i hi
    rw [hl i hi, whole_checks _ i hi]
    simp [laneRead]
  have hb : (checked.tile 0).retiredBanks = 0 := by decide +kernel
  unfold Tile.lookWord
  simp [hw, hb]

def changing (args : List Nat) (x : Tile := {}) : State := { cur := { args := args }, tiles := [(0, x)] }
/-- A physical row in which a read has found errors: spare 16384 serves no row, then row 7, which it has replaced. -/
theorem witness_TheSheafChanges_physical :
    (let s := changing [0, 7, 0, 16385]
     s.arg 3 = 16384 + 1 ∧ (s.tile 0).logicalRow 16384 = none ∧ 16384 ∉ (s.tile 0).retiredRows) ∧
    (let s := changing [0, 7, 0, 16385] { rowMap := [(7, 16384)] }
     s.arg 3 = 16384 + 1 ∧ (s.tile 0).logicalRow 16384 = some 7 ∧ (s.tile 0).physRow 7 ∉ (s.tile 0).retiredRows ∧ s.arg 2 = 0) ∧
    (changing [0, 7, 0]).arg 3 = 0 := by decide +kernel
theorem witness_TheSheafChanges :
    ((changing [4, 31, 1]).arg 1 < 32 ∧ ((changing [1, 0, 15]).tile 0).retiredBanks = 0 ∧ (changing [1, 383, 15]).arg 1 < 384) ∧
    (({ ctxs := [(0, { part := .running, ackVersion := 1 })] } : State).bound 0 = true ∧ ({ ctxs := [(0, { part := .running })] } : State).sheaf.version = 1 ∧
      (({ ctxs := [(0, { part := .running, ackVersion := 1 })] } : State).ctx 0).ackDue.any (fun e => e.1 == 2) = false) ∧
    (mset 12800 ({} : Sheaf).rates 31 12800 = ({} : Sheaf).rates ∧ mset 12800 ({} : Sheaf).rates 31 1 ≠ ({} : Sheaf).rates) ∧
    (({ changing [1, 0, 15] { retiredBanks := 1#20 } with sheaf := { spares := [(0, 0)] } } : State).sparesLeft (dieOf 0) = 0 ∧
      ((changing [1, 0, 15] { retiredBanks := 1#20 }).tile 0).retiredBanks.getLsbD 15 = false) ∧
    (0 < (changing [0, 0]).sparesLeft (dieOf 0) ∧ ((changing [0, 0]).tile 0).failed = false ∧
      ({ changing [0, 0] with sheaf := { spares := [(0, 0)] } } : State).sparesLeft (dieOf 0) = 0) ∧
    (({} : Sheaf).links.getLsbD 7 = true ∧ 0 < 199 ∧ 199 < (({} : Sheaf).linkSpeeds.lookup 7).getD 200 ∧ ({} : Sheaf).links.getLsbD 8 = false) ∧
    (({} : Sheaf).channels.getLsbD 31 = true ∧ ({} : State).allSaved = true ∧ ({ ctxs := [(0, { part := .running })] } : State).allSaved = false) ∧
    (((changing [0, 0] { ctx := some 0 }).tile 0).ctx = some 0 ∧ (({ ctxs := [(0, { part := .running })] } : State).ctx 0).ending = none) ∧
    (((changing [0, 0]).tile 0).mark 5).checks = none ∧ ((changing [0, 0] { marks := [(5, { injected := true })] }).tile 0 |>.mark 5).injected = true ∧
    (((changing [0, 7, 0]).tile 0).physRow 7 = 7 ∧ 7 ∉ ((changing [0, 7, 0]).tile 0).retiredRows ∧ ((changing [0, 7, 0]).tile 0).journal.st = .idle ∧
      ((changing [0, 7, 0]).tile 0).opening = false ∧ ({ (changing [0, 7, 0]).tile 0 with overlays := [] } : Tile).badRow 7 = false ∧ ((changing [0, 7, 0]).tile 0).cellErrors = [] ∧
      (changing [0, 7, 0]).arg 2 = 0 ∧
      (((changing [0, 7, 0]).tile 0).freeRows.filter (· != 7)).head?.isSome = true) := by decide +kernel

/-- The second data bank of a group, on a die with spares; a parity bank, the last of the twenty. -/
theorem witness_TheSheafChanges_banks :
    ((changing [1, 0, 15] { retiredBanks := 1#20 <<< 12 }).tile 0).retiredBanks.getLsbD 15 = false ∧
    (∃ j < 4, ((changing [1, 0, 15] { retiredBanks := 1#20 <<< 12 }).tile 0).retiredBanks.getLsbD (15 / 4 * 4 + j) = true) ∧
    0 < (changing [1, 0, 15] { retiredBanks := 1#20 <<< 12 }).sparesLeft (dieOf 0) ∧
    ((changing [1, 0, 15] { retiredBanks := 1#20 <<< 12 }).tile 0).failed = false ∧
    ((changing [1, 0, 19]).arg 2 < 20 ∧ ((changing [1, 0, 19]).tile 0).retiredBanks.getLsbD 19 = false) := by decide +kernel

theorem witness_SupplyIsLostAndReturns :
    (({ cur := { args := [0] } } : State).arg 0 ≠ 1 ∧ ({} : State).powerLost = false) ∧ ({ powerLost := true } : State).powerLost = true ∧
    (({ cur := { args := [1] }, powerLost := true } : State).arg 0 = 1 ∧ ({ powerLost := true } : State).power ≠ .unpowered) ∧
    ({ power := .parked } : State).power = .parked ∧ ({ power := .run } : State).power = .run ∧
    (({ cur := { args := [3] } } : State).arg 0 ≤ 3 ∧ ({ cur := { args := [3] } } : State).arg 0 ≠ ({} : State).regs.lcs) ∧
    3 < ({ cur := { args := [4] } } : State).arg 0 ∧
    (({ ctxs := [(0, { part := .running })] } : State).ctx 0).part = .running := by decide +kernel

def booting (k : Nat) (e : BootEntry) (args : List Nat) : State := { cur := { args := args }, boot := [(k, e)], boots := 1, regs := { bootstep := k } }
theorem witness_BootRunsItsSteps :
    ((booting 3 {} []).cur.args = [] ∧ (booting 3 {} []).powerLost = false ∧ ((booting 3 { outcome := 1 } []).bootEntry 3).outcome = 1) ∧
    ((booting 5 {} [5]).cur.args = [(booting 5 {} [5]).arg 0] ∧ ((booting 5 {} [5]).bootEntry 5).outcome ≠ 3 ∧ bootMandatory 3 = true) ∧
    (((booting 7 { outcome := 3 } [7]).bootEntry 7).outcome = 3 ∧ bootMandatory 7 = false) ∧
    ((booting 3 { outcome := 1 } [3, 1, 3, 1]).cur.args = [(booting 3 { outcome := 1 } [3, 1, 3, 1]).arg 0, 1, 3, 1] ∧
      (booting 3 { outcome := 1 } [3, 1, 3, 1]).boots = 1 ∧ (booting 3 { outcome := 1 } [3, 1, 3, 1]).regs.bootstep = 3) ∧
    ((booting 9 { outcome := 1, attempts := 2 } [9, 1]).boots = (booting 9 { outcome := 1, attempts := 2 } [9, 1]).arg 1 ∧
      (booting 2 { outcome := 1 } [2, 1]).boots = (booting 2 { outcome := 1 } [2, 1]).arg 1) := by decide +kernel

/-- The third boot in a row was cut off in step 3; in the second. -/
theorem witness_BootRunsItsSteps_cut :
    (let s := booting 3 { outcome := 1, attempts := 2 } []
     (s.boot.map (·.1)).Nodup ∧ (∀ e ∈ s.boot, e.2.outcome = 1 → e.1 = 3) ∧ (s.bootEntry 3).outcome = 1 ∧ bootMandatory 3 = true ∧ 2 ≤ (s.bootEntry 3).attempts) ∧
    (∀ e ∈ (booting 3 { outcome := 1, attempts := 1 } []).boot, e.2.outcome = 1 → bootMandatory e.1 = true → e.2.attempts < 2) := by decide +kernel
/-- Words released to the host, nothing released. -/
theorem witness_SupplyIsLostAndReturns_released :
    (let s : State := { forward := [{ party := 768, tick := 0, write := { bytes := [(0x8000000000000, 1)] } }], power := .parked }
     s.codesClean = true ∧ s.migrations = [] ∧ s.forwarding = [] ∧ s.power = .parked) ∧ ({} : State).forward = [] := by decide +kernel

/-- Step 7 failed in the boot before this one, and in an older one; step 3 fails the second time and the third. -/
theorem witness_BootRunsItsSteps_rows :
    ((booting 7 { outcome := 3 } [7]).cur.args = [(booting 7 { outcome := 3 } [7]).arg 0] ∧
      ((booting 7 { outcome := 3 } [7]).bootEntry 7).boot + 1 = (booting 7 { outcome := 3 } [7]).boots) ∧
    ((booting 7 { outcome := 3, boot := 4 } [7]).bootEntry 7).boot + 1 ≠ (booting 7 { outcome := 3, boot := 4 } [7]).boots ∧
    (bootMandatory 3 = true ∧ ((booting 3 { outcome := 1, attempts := 1 } [3, 1]).bootEntry 3).attempts + 1 < 3 ∧
      3 ≤ ((booting 3 { outcome := 1, attempts := 2 } [3, 1]).bootEntry 3).attempts + 1) ∧
    (∀ e ∈ (booting 3 { outcome := 2 } []).boot, e.2.outcome ≠ 1) := by decide +kernel

/-- The third boot in a row whose step 9 fails presents PF0 alone (R333). -/
def alone : State := { regs := { bootstep := 9 }, boot := [(9, { outcome := 3, attempts := 3 })] }
def interface (st : TdiState) (f : Nat) : State := { cur := { args := [f] }, tdis := [(f, { st := st })], ctxs := [(f - 1, { part := .running, tiles := [0] })] }
theorem witness_InterfacesAnswerAndChange :
    (alone.pf0Alone = true ∧ (interface .unlocked 64).pf0Alone = false ∧
      (({ tiles := [(0, { shadow := some anImage })] } : State).tile 0).ctx = none ∧
      (({ tiles := [(0, { shadow := some anImage })] } : State).tile 0).shadow.map (·.ctx) = some 0) ∧
    (64 < (interface .unlocked 65).arg 0 ∧ 1 ≤ (interface .unlocked 64).arg 0 ∧ (interface .unlocked 64).arg 0 ≤ 64) ∧
    ((interface .unlocked 64).tdi 64).st = .unlocked ∧ ((interface .locked 1).tdi 1).st = .locked ∧ ((interface .run 1).tdi 1).st = .run ∧
    ((interface .error 1).tdi 1).st = .error ∧
    (((interface .run 1).ctx 0).part = .running ∧ ((interface .run 1).ctx 0).ending = none) := by decide +kernel

/-- What context 0 has left in tile 5, which context 1 holds. -/
def leaving : State := { interface .run 1 with tiles := [(5, { ctx := some 1, left := [(0, 0x40, 0x80)] })] }
theorem witness_InterfacesAnswerAndChange_left :
    (leaving.winnow 0).pool = [] ∧ 5 ∉ (leaving.ctx 0).tiles ∧ (leaving.tile 5).ctx ≠ some 0 ∧
    ((leaving.tile 5).left.any fun r => r.1 == 0 && decide (r.2.1 ≤ 0x7F) && decide (0x7F < r.2.2)) = true ∧
    ((leaving.tile 5).left.any fun r => r.1 == 0 && decide (r.2.1 ≤ 0x80) && decide (0x80 < r.2.2)) = false := by decide +kernel

theorem reset_tile (t : Nat) : State.reset.tile t = {} := rfl
theorem witness_MemoryKeepsItsForm : State.reset.memOk ∧ ∃ u, step State.reset = .next u := by
  refine ⟨⟨rfl, fun t => ?_⟩, ⟨_, rfl⟩⟩
  rw [reset_tile]
  exact ⟨rfl, rfl⟩
theorem witness_AgendaKeepsItsOrder : State.reset.agendaInOrder ∧ ∃ u, step State.reset = .next u :=
  ⟨List.pairwise_singleton _ _, _, rfl⟩
theorem witness_StoresKeepTheirDepth : State.reset.withinDepths ∧ ∃ u, step State.reset = .next u := by
  refine ⟨fun t => ?_, _, rfl⟩
  rw [reset_tile]
  refine ⟨by unfold Seq.withinDepths; decide, by unfold Seq.withinDepths; decide, fun h hh => ?_⟩
  cases hh

/-! Witnesses: Winnow. -/

/-- A prefill of 4 tokens in slot 0 without a frame, a decode in slot 1 with a frame, one queued and one evicted. -/
def reqA : Request := { state := 2, slot := 0, id := 1, prompt := 4, rows := 4, capacity := 8, class_ := 1 }
def reqB : Request := { state := 3, slot := 1, id := 2, prompt := 2, position := 2, generated := 1, rows := 1, capacity := 8, class_ := 2, frames := [0x10000], pages := 1, kind := 2, maxNew := 9 }
def reqC : Request := { state := 1, prompt := 3, capacity := 1, class_ := 1, arrival := 5 }
def reqD : Request := { state := 5, prompt := 3, capacity := 1, class_ := 1, arrival := 9 }
def winnowed : Winnow := { reqs := [(3, reqA), (4, reqB), (6, reqC), (7, reqD)], tpp := 4, pool := [0x10000, 0x20000], freePool := [0x20000], entries := 8 }
def winnowing (w : Winnow) : State := { cur := { args := [0] }, ctxs := [(0, { created := true, tiles := [0], winnow := w })], tiles := [(0, { ctx := some 0 })] }
theorem witness_WinnowAllocatesAndPublishes :
    ((winnowed.reqs.map (·.1)).Nodup ∧ (∀ e ∈ winnowed.reqs.filter fun e => e.2.state == 2 || e.2.state == 3, e.2.slot < 2 ^ 16 ∧ e.2.class_ < 4 ∧ e.2.id < 2 ^ 64 ∧
      e.2.deadline < 2 ^ 64 ∧ e.1 < 2 ^ 16 ∧ e.2.frames.length ≤ 2 ^ 26) ∧
      ((winnowed.reqs.filter fun e => e.2.state == 2 || e.2.state == 3).map (·.2.slot)).Nodup ∧ winnowed.passTwo = [3, 4]) ∧
    (winnowed.spills = [] ∧ ({ winnowed with spills := [0x50000], freeSpill := [0x50000] } : Winnow).spills ≠ [] ∧
      (reqB.frames.filter fun f => !([0x50000] : List Nat).contains f).length ≤ ({ winnowed with freeSpill := [0x50000] } : Winnow).freeSpill.length ∧
      ({ winnowed with spills := [0x50000], freeSpill := [] } : Winnow).freeSpill.length < 1) ∧
    ((winnowing winnowed).ctx 0).tiles.Nodup := by decide +kernel
/-- Frames for a prefill: beyond its list's capacity; covered by the free ones; covered by a victim alone; by none. -/
theorem witness_WinnowAllocatesAndPublishes_frames :
    let need (r : Request) : Nat := (r.position + r.rows + 4 - 1) / 4
    (reqA.state = 2 ∧ need reqA = 1 ∧ need reqA ≤ reqA.capacity ∧ ({ reqA with capacity := 0 } : Request).capacity < need reqA ∧
      need reqA - reqA.frames.length - winnowed.freePool.length = 0) ∧
    (let w := { winnowed with freePool := [] }
     0 < need reqA - reqA.frames.length - w.freePool.length ∧ ((((winnowing w).give 0 3 0).winnow 0).evictOrder.takeWhile fun j => j != 3) = [4] ++ [] ∧
       (((winnowing w).give 0 3 0).winnow 0).poolHeld 4 = 1) ∧
    (let w := { winnowed with freePool := [], reqs := [(3, reqA)] }
     (w.evictOrder.takeWhile fun j => j != 3) = [] ∧ reqA.position = 0) := by decide +kernel
theorem witness_WinnowAllocatesAndPublishes_writes :
    (let s := world {}
     (∀ j < 2, (match s.ctxAddr 0 (0x40000 + j) with
       | .ok pa => decide (pa = 0x40000 + j)
       | .error _ => false) = true) ∧ s.migrations = [] ∧ s.forwarding = [] ∧ s.codesClean = true ∧ lands s 0x40000 = some (384, 0x40000)) ∧
    ((closing.ctx 0).launch = some imaged ∧ 0 < 1) ∧
    (winnowed.slots.lookup 0 = none ∧ ({ winnowed with slots := [(0, 3, reqA)] } : Winnow).slots.lookup 0 = some (3, reqA)) := by decide +kernel
theorem witness_WinnowSnapshotsRetiresAndAdmits :
    (closing.arg 0 = 0 ∧ (closing.winnow 0).closing = some 0 ∧ (closing.ctx 0).launch = some imaged) ∧
    ((∀ e ∈ winnowed.reqs, e.1 < 2 ^ 16 ∧ e.2.deadline < 2 ^ 64 ∧ e.2.priority < 2 ^ 16 ∧ e.2.arrival < 2 ^ 64) ∧ winnowed.queueOf 1 = [7, 6] ∧ winnowed.queueOf 0 = []) ∧
    (6 ∈ (((winnowing winnowed).winnow 0).queueOf 1).take 64 ∧ ((winnowing winnowed).winnow 0).cancels = [] ∧
      field ((winnowing winnowed).ctxBytes 0 (128 * 6) 128) 0 4 % 2 = 0 ∧ ((winnowing winnowed).winnow 0).req 9 = {} ∧
      9 ∉ (((winnowing winnowed).winnow 0).queueOf 1).take 64 ∧ 6 ∈ ((winnowing { winnowed with cancels := [6] }).winnow 0).cancels) := by decide +kernel
/-- The decode of slot 1: a fault; no fault, a token that stops at once, one that does not, and a task-level fault. The head of class 1: it fits, and it does not. -/
theorem witness_WinnowSnapshotsRetiresAndAdmits_ends :
    ((({ winnowed with faults := [{ slot := 1, info := { code := 0x0801 }, tick := 0, tile := 0, seq := 0 }] } : Winnow).faults.find? (·.slot == 1)).isSome = true) ∧
    (let w := { winnowed with commits := [{ slot := 1, token := 7, draft := false }] }
     w.faults.find? (·.slot == 1) = none ∧ ((w.commits.filter fun c => c.slot == 1).map (·.token)) = [7] ∧ 7 ∉ reqB.stops ∧ ¬ (reqB.maxNew ≤ reqB.generated + 0 + 1) ∧
       ¬ (100 < (reqB.position + (0 + 1)) + 1) ∧ 3 < (reqB.position + (0 + 1)) + 1) ∧
    ((∀ b < 1, winnowed.queueOf b = []) ∧ winnowed.queueOf 1 = 7 :: [6] ∧ reqD.spilled = false ∧ (reqD.position + winnowed.tpp) / winnowed.tpp - reqD.pages ≤ winnowed.freePool.length ∧
      (2 < 3 ∧ 2 ∉ (winnowed.reqs.filter fun e => e.2.state == 2 || e.2.state == 3).map (·.2.slot)) ∧
      ¬ ((reqD.position + winnowed.tpp) / winnowed.tpp - reqD.pages ≤ ({ winnowed with freePool := [] } : Winnow).freePool.length)) := by decide +kernel

/-! Single steps. The results are the manual's where a docstring names its example, else computed by hand from the rule named. -/

/-- What an outcome has put into flight at sequencer A of tile 0: landing step and effect. -/
def flown (o : Host.Outcome State Fault Refusal) : List (Nat × Act) :=
  match o with
  | .next s => (s.seq 0 0).flights.map fun f => (f.step, f.act)
  | _ => []
/-- The code of the last record an outcome has made. -/
def codeOf (o : Host.Outcome State Fault Refusal) : Option Nat :=
  match o with
  | .next s => s.log.getLast?.map (·.info.code)
  | _ => none
/-- The state an outcome goes on in. -/
def stateOf (o : Host.Outcome State Fault Refusal) : State :=
  match o with
  | .next s => s
  | _ => {}
def regs (a b d : W64) : State := seqWith { g := [(1, a), (2, b), (5, d)] }
/-- A lane pattern: element 0 of 32 bits, and the fifteen others. -/
def lanes (x y : Nat) : Vec := BitVec.ofNat 512 (x + ((List.range 15).map fun i => y * 2 ^ (32 * (i + 1))).sum)
def vregs (a b : Vec) : State := seqWith { v := [(1, a), (2, b)] }
/-- Element `i` of 32 bits of the first vector result in flight. -/
def lane (o : Host.Outcome State Fault Refusal) (i : Nat) : Option Nat :=
  match flown o with
  | (_, .v _ _ val) :: _ => some (elem 32 val i).toNat
  | _ => none

/-! Scalar words. -/

theorem test_add_wraps_in_32 : flown (exec (.add 5 1 2 1) (regs 0x7FFFFFFF 1 0)) = [(1, .g 5 0xFFFFFFFF80000000)] := by decide +kernel
theorem test_sub_borrows_in_8 : flown (exec (.sub 5 1 2 3) (regs 0 1 0)) = [(1, .g 5 0xFFFFFFFFFFFFFFFF)] := by decide +kernel
theorem test_andn_keeps : flown (exec (.andn 5 1 2 0) (regs 6 3 0)) = [(1, .g 5 4)] := by decide +kernel
theorem test_shr_takes_amount_modulo_width : flown (exec (.shr 5 1 2 1) (regs 0x10 33 0)) = [(1, .g 5 8)] := by decide +kernel
theorem test_shra_of_16 : flown (exec (.shra 5 1 2 2) (regs 0x8000 15 0)) = [(1, .g 5 0xFFFFFFFFFFFFFFFF)] := by decide +kernel
/-- The example beside R188. -/
theorem test_fshr_example : flown (exec (.fshr 5 1 2 1) (regs 3 4 0x80000001)) = [(1, .g 5 0x38000000)] := by decide +kernel
theorem test_sext_example : flown (exec (.sext 5 1 3) (regs 0x80 0 0)) = [(1, .g 5 0xFFFFFFFFFFFFFF80)] := by decide +kernel
theorem test_zext_example : flown (exec (.zext 5 1 3) (regs 0x80 0 0)) = [(1, .g 5 0x80)] := by decide +kernel
theorem test_mulh_of_minus_one : flown (exec (.mulh 5 1 2 0) (regs (-1) 2 0)) = [(3, .g 5 (-1))] := by decide +kernel
theorem test_mulhu_of_all_ones : flown (exec (.mulhu 5 1 2 0) (regs (-1) 2 0)) = [(3, .g 5 1)] := by decide +kernel
theorem test_div_by_zero : flown (exec (.div 5 1 2 0) (regs 7 0 0)) = [(18, .g 5 (-1))] := by decide +kernel
theorem test_div_of_least : flown (exec (.div 5 1 2 3) (regs 0x80 0xFF 0)) = [(18, .g 5 0xFFFFFFFFFFFFFF80)] := by decide +kernel
theorem test_rem_takes_sign : flown (exec (.rem 5 1 2 0) (regs (-7) 2 0)) = [(18, .g 5 (-1))] := by decide +kernel
theorem test_rem_by_zero : flown (exec (.rem 5 1 2 0) (regs 7 0 0)) = [(18, .g 5 7)] := by decide +kernel
theorem test_slt_is_signed : flown (exec (.slt 5 1 2 0) (regs (-1) 0 0)) = [(1, .g 5 1)] := by decide +kernel
theorem test_sltu_is_unsigned : flown (exec (.sltu 5 1 2 0) (regs (-1) 0 0)) = [(1, .g 5 0)] := by decide +kernel
theorem test_clz_of_zero : flown (exec (.clz 5 1 1) (regs 0 0 0)) = [(1, .g 5 32)] := by decide +kernel
theorem test_ctz : flown (exec (.ctz 5 1 0) (regs 8 0 0)) = [(1, .g 5 3)] := by decide +kernel
theorem test_popc_of_16 : flown (exec (.popc 5 1 2) (regs 0x1FFFF 0 0)) = [(1, .g 5 16)] := by decide +kernel
theorem test_addi_extends : flown (exec (.addi 5 1 0x7FF) (regs 0 0 0)) = [(1, .g 5 (-1))] := by decide +kernel
theorem test_sltui_compares_unsigned : flown (exec (.sltui 5 1 0x7FF) (regs 5 0 0)) = [(1, .g 5 1)] := by decide +kernel
theorem test_li_extends : flown (exec (.li 5 0x8000) (regs 0 0 0)) = [(1, .g 5 0xFFFFFFFFFFFF8000)] := by decide +kernel
theorem test_lih2_replaces : flown (exec (.lih2 5 0x1234) (regs 0 0 (-1))) = [(1, .g 5 0xFFFF1234FFFFFFFF)] := by decide +kernel
theorem test_jr_misaligned : codeOf (exec (.jr 1) (regs 0x8000002 0 0)) = some 0x0303 := by decide +kernel
theorem test_call_pushes : (stateOf (exec (.call 2) (regs 0 0 0))).me.ras = [4] := by decide +kernel
theorem test_call_goes : (stateOf (exec (.call 2) (regs 0 0 0))).me.pc = 0x8000008 := by decide +kernel
theorem test_ret_of_empty : codeOf (exec .ret (regs 0 0 0)) = some 0x0302 := by decide +kernel
theorem test_bltz_taken : (stateOf (exec (.bltz 1 4) (regs (-1) 0 0))).me.pc = 0x8000010 := by decide +kernel
theorem test_bpu_mixed : codeOf (exec (.bpu 1 4) (seqWith { p := [(1, 1)] })) = some 0x0304 := by decide +kernel
theorem test_loop_last : flown (exec (.loop 0 1 (-3)) (seqWith { lc := [(0, 1)] })) = [(1, .ctl 4 0), (1, .ctl 2 31)] := by decide +kernel
theorem test_skip_sets : (stateOf (exec (.skip 3 7) (seqWith { skipm := 8 }))).me.skipLeft = 7 := by decide +kernel
theorem test_waitt_is_late : (stateOf (exec (.waitt 1) (seqWith { clock := 9, g := [(1, 4)] }))).me.waitUntil = 10 := by decide +kernel
theorem test_mfc_vrb : flown (exec (.mfc 5 2) (seqWith { vrb := 31 })) = [(1, .g 5 31)] := by decide +kernel
theorem test_mtc_bad_shape : codeOf (exec (.mtc 1 0x10) (regs 7 0 0)) = some 0x0306 := by decide +kernel
theorem test_pcnt_of_p0 : flown (exec (.pcnt 0 5) (regs 0 0 0)) = [(1, .g 5 64)] := by decide +kernel
theorem test_pnot : flown (exec (.pnot 1 2) (seqWith { p := [(2, 1)] })) = [(1, .p 1 0xFFFFFFFFFFFFFFFE)] := by decide +kernel
theorem test_pmov_to_p0 : flown (exec (.pmov 0 2) (regs 0 0 0)) = [] := by decide +kernel

/-! Local and own memory. -/

theorem test_lds_extends : flown (exec (.lds 5 1 3 1) (tileWith { spad := [(1, 0x80)] })) = [(4, .g 5 0xFFFFFFFFFFFFFF80)] := by decide +kernel
theorem test_lds_misaligned : codeOf (exec (.lds 5 1 0 0) (regs 4 0 0)) = some 0x040A := by decide +kernel
theorem test_sts_stores_low_bytes : flown (exec (.sts 2 1 2 0) (regs 0x40 0x12345 0)) = [(2, .store { bytes := [(0x40, 0x45), (0x41, 0x23)] })] := by decide +kernel
theorem test_ldm_reads_mram : flown (exec (.ldm 5 1 1 0) (tileWith { a := { g := [(1, 0x8000000)] }, mram := [(0, 7)] })) = [(12, .g 5 7)] := by decide +kernel
theorem test_getl_of_empty : codeOf (exec (.getl 5 3 0 0) (regs 0 0 0)) = some 0x0106 := by decide +kernel
theorem test_atomic_add : flown (exec (.aadd 5 1 2 1) (tileWith { a := { g := [(1, 0x40), (2, 1)] }, spad := [(0x40, 0xFF)] })) =
    [(2, .store { bytes := [(0x40, 0), (0x41, 1), (0x42, 0), (0x43, 0)] }), (3, .g 5 0xFF)] := by decide +kernel

/-! Vector words. -/

/-- The example beside R174: with VRB 31, v41 is physical v40. -/
theorem test_rotation_example : (seqWith { vrb := 31 }).me.physV 41 = 40 := by decide +kernel
theorem test_vadd_wraps : lane (exec (.vadd 2 3 1 2 0) (vregs (lanes 0xFFFFFFFF 1) (lanes 2 3))) 0 = some 1 := by decide +kernel
theorem test_vadds_clamps : lane (exec (.vadds 2 3 1 2 0) (vregs (lanes 0x7FFFFFFF 1) (lanes 2 3))) 0 = some 0x7FFFFFFF := by decide +kernel
theorem test_vmulh : lane (exec (.vmulh 2 3 1 2 0) (vregs (lanes 0x80000000 0) (lanes 2 0))) 0 = some 0xFFFFFFFF := by decide +kernel
theorem test_vabsd : lane (exec (.vabsd 2 3 1 2 0) (vregs (lanes 3 0) (lanes 5 0))) 0 = some 2 := by decide +kernel
theorem test_vslup_fills : lane (exec (.vslup 2 3 1 1 0) (vregs (lanes 3 4) 0)) 0 = some 0 := by decide +kernel
theorem test_vperm_wraps : lane (exec (.vperm 2 3 1 2 0) (vregs (lanes 3 4) (lanes 16 0))) 0 = some 3 := by decide +kernel

/-- The example of deltas and widths: lane i of v2 is 100 + 3 i, lane 15 of v3 is 97. -/
def ramp : Vec := BitVec.ofNat 512 ((List.range 16).map fun i => (100 + 3 * i) * 2 ^ (32 * i)).sum
def last97 : Vec := BitVec.ofNat 512 (97 * 2 ^ 480)
theorem test_vdelta_example : flown (exec (.vdelta 2 3 1 2 0) (vregs ramp last97)) = [(3, .v 3 (BitVec.allOnes 64) (lanes 3 3))] := by decide +kernel
theorem test_vgmax_example : flown (exec (.vgmax 2 3 1 2 0) (vregs (lanes 3 3) 0)) = [(4, .v 3 (BitVec.allOnes 64) (lanes 3 3))] := by decide +kernel
theorem test_vclz_example : flown (exec (.vclz 2 3 1 0) (vregs (lanes 3 3) 0)) = [(2, .v 3 (BitVec.allOnes 64) (lanes 30 30))] := by decide +kernel
theorem test_vpsum_example : flown (exec (.vpsum 2 3 1 2 0) (vregs (lanes 3 3) last97)) = [(3, .v 3 (BitVec.allOnes 64) ramp)] := by decide +kernel
/-- The example of one scale and one narrowing. -/
theorem test_vbscale_example : flown (exec (.vbscale 3 1 2 0) (vregs (lanes 0x43480000 0x3F800000) (lanes 0x42FE0000 0))) =
    [(6, .v 3 (BitVec.allOnes 64) (lanes 0x3F94 0x3F94))] := by decide +kernel
theorem test_vnarrow_example : (match flown (exec (.vnarrow 8 1 1 0 0) (vregs (lanes 0x43480000 0x3F800000) (lanes 0x3F94 0x3F94))) with
    | (n, .narrow _ _ val _ _ q) :: _ => (n, (elem 8 val 0).toNat, (elem 8 val 1).toNat, (elem 32 q 0).toNat, (elem 32 q 15).toNat)
    | _ => (0, 0, 0, 0, 0)) = (5, 0x7F, 1, 0xBED80000, 0xBF140000) := by decide +kernel
theorem test_vfadd_rounds_to_even : lane (exec (.vfadd 2 3 1 2 0) (vregs (lanes 0x4B800000 0) (lanes 0x3F800000 0))) 0 = some 0x4B800000 := by decide +kernel
theorem test_vfma_zero_times_infinity : lane (exec (.vfma 2 3 1 2 0) (vregs (lanes 0 0) (lanes 0x7F800000 0))) 0 = some 0x7FC00000 := by decide +kernel
theorem test_vcvtfi_clamps : lane (exec (.vcvtfi 2 3 1 0) (vregs (lanes 0x7F800000 0) 0)) 0 = some 0x7FFFFFFF := by decide +kernel
theorem test_vrsum : flown (exec (.vrsum 2 3 1 0) (vregs (lanes 1 2) 0)) = [(6, .v 3 (BitVec.allOnes 64) 31)] := by decide +kernel
theorem test_vst_misaligned : codeOf (exec (.vst 2 3 1 0 0) (regs 4 0 0)) = some 0x040A := by decide +kernel

/-! The array. -/

theorem test_tshape_example : flown (exec (.tshape 0 2 63 95) (regs 0 0 0)) = [(1, .ctl 0x10 (2 + 8 * 63 + 512 * 95))] := by decide +kernel
/-- The example of R148: 2^24 and the terms 0.5, 1.0 and 1.5. -/
theorem test_scale_below_midpoint : (scaleElem 1 0x3E00 0x3F00 0x4B800000).1 = 0x4B800000 := by decide +kernel
theorem test_scale_sum : (scaleElem 3 0x3E00 0x3F00 0x4B800000).1 = 0x4B800001 := by decide +kernel
/-- The example of one ragged block: 96 x 0.5 x 0.25. -/
theorem test_scale_example : scaleElem 96 0x3E00 0x3D00 0 = (0x41400000, 0) := by decide +kernel
theorem test_array_busy : codeOf (exec (.mma84 0 0 1 0 0 0 0 0) (seqWith { arrayFree := 26, clock := 20 })) = some 0x0104 := by decide +kernel
theorem test_accz_latency : flown (exec (.accz 2) (regs 0 0 0)) = [(2, .accz 2)] := by decide +kernel

/-! Engines, serving, regions. -/

/-- The published check value of CRC-32C, seeded and inverted as R269 says. -/
theorem test_crc_published : 0xFFFFFFFF - ([0x31, 0x32, 0x33, 0x34, 0x35, 0x36, 0x37, 0x38, 0x39] : List Byte).foldl crcByte 0xFFFFFFFF = 0xE3069283 := by
  decide +kernel
theorem test_cpy_accepted : codeOf (exec (.cpy 1 2 3 0) (copying 0 0x1000 64)) = none := by decide +kernel
theorem test_cpy_length_zero : codeOf (exec (.cpy 1 2 3 0) (copying 0 0x1000 0)) = some 0x0308 := by decide +kernel
theorem test_cseed : flown (exec (.cseed 0 1) { regs 0x100000002 0 0 with cur := { (regs 0 0 0).cur with unit := 4 } }) = [(1, .seed 0 (some 2) 1)] := by
  decide +kernel
theorem test_phase_unmatched : codeOf (exec (.phase 2 0 0) (regs 0 0 0)) = some 0x030B := by decide +kernel
theorem test_rqld_inactive : flown (exec (.rqld 5 0 0) serving) = [(4, .g 5 (-1))] := by decide +kernel
theorem test_rqcommit_buffers : ((stateOf (exec (.rqcommit 0 1 2) serving)).ctx 0).winnow.commits = [{ slot := 1, token := 7, draft := false }] := by decide +kernel
theorem test_mapack_stale : codeOf (exec (.mapack 1) (regs 9 0 0)) = some 0x030D := by decide +kernel
theorem test_wjopen_of_none : codeOf (exec (.wjopen 0) (regs 0 0 0)) = some 0x030E := by decide +kernel
theorem test_wjstat_idle : flown (exec (.wjstat 5 0) (regs 0 0 0)) = [(4, .g 5 0)] := by decide +kernel
theorem test_trap_enters_region : ((stateOf (exec (.trap 9) regional)).me.pc, (stateOf (exec (.trap 9) regional)).me.inHandler) = (0x8000010, true) := by
  decide +kernel
theorem test_trap_stops_task : (stateOf (exec (.trap 9) (regs 0 0 0))).me.run = .stopped := by decide +kernel
theorem test_fret_outside : codeOf (exec .fret (regs 0 0 0)) = some 0x0310 := by decide +kernel
theorem test_cropen_pushes : flown (exec (.cropen 2 0x25) (regs 0 0 0)) = [(1, .regionPush 2 (0x8000000 + 4 * 0x25))] := by decide +kernel

/-! Events. -/

/-- The example of R389: head 40, tail 60, sixteen entries. -/
theorem test_queue_overruns : ((stateOf (exec .queueMap (queueAt { state := 1, head := 40, tailReg := 60, ctx := 0xFF } [0]))).queue 0).error = 0x0901 := by
  decide +kernel
theorem test_feature_lock_refuses : (stateOf (exec .featureLock { regs := { sel0 := 0x100 } })).regs.selerr = true := by decide +kernel
theorem test_wake_from_retain : ((stateOf (exec .tileWake (powered { power := .retain }))).tile 0).move = .waking 9600 := by decide +kernel
theorem test_lock_interface : ((stateOf (exec .lockInterfaceRequest (interface .unlocked 1))).tdi 1).st = .locked := by decide +kernel
theorem test_cold_reset_wipes : ((stateOf (exec .coldReset (tileWith { spad := [(0, 1)], mram := [(0, 2)] }))).tile 0).mram = [(0, 2)] := by decide +kernel

end Sys2Proof.Tests
end

