-- ==== Sys2Proof/Proofs/EventLaws.lean ====
section
/-! SUPPORT. Rules for the operations that the events share: folds over parts of the state, sparse maps, the agenda, records,
the end of a partition, and what a context's image is read from. -/
namespace Sys2Proof.Machine

/-! Folds and maps. -/

/-- What no step of a fold changes, the fold does not change. -/
theorem foldl_keeps {σ α β : Type} (g : σ → β) (f : σ → α → σ) (h : ∀ s a, g (f s a) = g s) (l : List α) (s : σ) :
    g (l.foldl f s) = g s := by
  induction l generalizing s with
  | nil => rfl
  | cons a l ih => rw [List.foldl_cons, ih, h]

theorem lookup_getD_eq_mget {α : Type} (d : α) (m : Map α) (k : Nat) : (m.lookup k).getD d = mget d m k := by
  induction m with
  | nil => rfl
  | cons e m ih =>
    obtain ⟨a, v⟩ := e
    by_cases h : a = k
    · simp [mget, h]
    · simp [List.lookup_cons, mget, h, beq_false_of_ne (Ne.symm h), ih]

/-- Reading a map whose values have been changed, the default staying itself. -/
theorem mget_map {α : Type} (d : α) (f : α → α) (hd : f d = d) (m : Map α) (k : Nat) :
    mget d (m.map fun e => (e.1, f e.2)) k = f (mget d m k) := by
  induction m with
  | nil => exact hd.symm
  | cons e m ih => simp only [List.map_cons, mget, ih]; split <;> rfl

/-- A key that a map reads other than the default is listed. -/
theorem mem_keys_of_mget_ne {α : Type} (d : α) (m : Map α) (k : Nat) (h : mget d m k ≠ d) : (k, mget d m k) ∈ m := by
  induction m with
  | nil => exact absurd rfl h
  | cons e m ih =>
    obtain ⟨a, v⟩ := e
    by_cases hk : a = k
    · subst hk; simp [mget]
    · simp only [mget, if_neg hk] at h ⊢; exact List.mem_cons_of_mem _ (ih h)

/-- A tile after the same change of some tiles, one that is no further change when made again. -/
theorem State.tile_foldl_modTile (g : Tile → Tile) (hg : ∀ z, g (g z) = g z) (ts : List Nat) (s : State) (t : Nat) :
    (ts.foldl (fun s t => s.modTile t g) s).tile t = if t ∈ ts then g (s.tile t) else s.tile t := by
  induction ts generalizing s with
  | nil => simp
  | cons u ts ih =>
    rw [List.foldl_cons, ih]
    by_cases hu : u = t
    · subst hu; simp [hg]
    · simp [State.tile_modTile_other _ _ hu, Ne.symm hu]

/-! The agenda. -/

theorem mem_insertTimed (e x : Timed) (l : List Timed) : x ∈ insertTimed e l ↔ x = e ∨ x ∈ l := by
  induction l with
  | nil => simp [insertTimed]
  | cons a l ih =>
    simp only [insertTimed]
    split
    · simp
    · simp only [List.mem_cons, ih]; tauto

theorem subset_insertTimed (e : Timed) (l : List Timed) : l ⊆ insertTimed e l :=
  fun _ h => (mem_insertTimed _ _ _).2 (.inr h)

theorem State.agenda_subset_after (s : State) (n : Nat) (op : Instr) (l : List Nat) : s.agenda ⊆ (s.after n op l).agenda :=
  subset_insertTimed _ _

theorem State.planned_mono {s u : State} {op : Instr} {args : List Nat} {lo hi : Nat} (h : s.agenda ⊆ u.agenda)
    (hp : s.planned op args lo hi) : u.planned op args lo hi := by
  obtain ⟨e, he, hr⟩ := hp
  exact ⟨e, h he, hr⟩

theorem State.planned_after (s : State) (n : Nat) (op : Instr) (l : List Nat) :
    (s.after n op l).planned op l (s.gtick + n) (s.gtick + n) :=
  ⟨_, (mem_insertTimed _ _ _).2 (.inl rfl), rfl, rfl, le_rfl, le_rfl⟩

theorem State.planned_widen {u : State} {op : Instr} {args : List Nat} {lo hi lo' hi' : Nat} (hp : u.planned op args lo hi)
    (hlo : lo' ≤ lo) (hhi : hi ≤ hi') : u.planned op args lo' hi' := by
  obtain ⟨e, he, hop, hargs, h1, h2⟩ := hp
  exact ⟨e, he, hop, hargs, hlo.trans h1, h2.trans hhi⟩

/-! Updates of a context, a bind, a tile. -/

theorem State.ctx_modCtx (s : State) (x k : Nat) (f : Ctx → Ctx) : (s.modCtx x f).ctx k = if x = k then f (s.ctx x) else s.ctx k := by
  simp [State.modCtx, State.ctx_setCtx]

theorem State.tile_modTile (s : State) (t u : Nat) (f : Tile → Tile) :
    (s.modTile t f).tile u = if t = u then f (s.tile t) else s.tile u := by
  simp [State.modTile, State.tile_setTile]

theorem State.bind_modBind (s : State) (b k : Nat) (f : Bind → Bind) :
    (s.modBind b f).bind k = if b = k then f (s.bind b) else s.bind k := by
  simp [State.modBind, State.bind, mget_mset]

/-! Records (R341, R342). -/

/-- A tile after records that it holds have moved in their ring. -/
def Tile.movedRecords (z : Tile) (late : List FaultRecord) : Tile := { z with a := z.a.moveRecords late, b := z.b.moveRecords late }

theorem Tile.movedRecords_default (late : List FaultRecord) : ({} : Tile).movedRecords late = {} := rfl

theorem FaultRecord.moved_nil (r : FaultRecord) : r.moved [] = r := by simp [FaultRecord.moved]

theorem Seq.moveRecords_nil (y : Seq) : y.moveRecords [] = y := by simp [Seq.moveRecords, FaultRecord.moved_nil]

theorem State.moveRecords_tile (s : State) (late : List FaultRecord) (t : Nat) :
    (s.moveRecords late).tile t = (s.tile t).movedRecords late := by
  unfold State.moveRecords
  split
  · rename_i h
    rw [List.isEmpty_iff.1 h, Tile.movedRecords, Seq.moveRecords_nil, Seq.moveRecords_nil]
  · exact mget_map {} (fun z => z.movedRecords late) (Tile.movedRecords_default late) s.tiles t

theorem State.noteReport_agenda (s : State) (x : Nat) (f : FaultInfo) : s.agenda ⊆ (s.noteReport x f).agenda := by
  unfold State.noteReport
  split
  · exact s.agenda_subset_after _ _ _
  · exact List.Subset.refl _

theorem State.moveRecords_agenda (s : State) (late : List FaultRecord) : (s.moveRecords late).agenda = s.agenda := by
  obtain ⟨l, ts, h, -⟩ := s.moveRecords_eq late
  rw [h]

theorem State.record_agenda (s : State) (x : Nat) (r : FaultRecord) : s.agenda ⊆ (s.record x r).agenda := by
  intro e he
  have hm := (s.noteReport x r.info).moveRecords_agenda ((s.noteReport x r.info).lateRecords x r)
  exact subset_insertTimed _ _ (hm.symm ▸ s.noteReport_agenda x r.info he)

/-- A record leaves of every tile all but the ring indices of the records that its sequencers hold. -/
theorem State.record_tile (s : State) (x : Nat) (r : FaultRecord) :
    ∃ late, ∀ t, (s.record x r).tile t = (s.tile t).movedRecords late := by
  obtain ⟨ag, fr, h⟩ := s.noteReport_eq x r.info
  refine ⟨(s.noteReport x r.info).lateRecords x r, fun t => ?_⟩
  have ht : (s.record x r).tiles = ((s.noteReport x r.info).moveRecords ((s.noteReport x r.info).lateRecords x r)).tiles := by
    simp only [State.record, State.tickFree_tiles, State.after_tiles, State.setCtx_tiles]
  have hn : (s.noteReport x r.info).tile t = s.tile t := by rw [h]; rfl
  rw [State.tile, ht, ← hn]
  exact State.moveRecords_tile ..

theorem State.record_seq (s : State) (x : Nat) (r : FaultRecord) :
    ∃ late, ∀ t q, (s.record x r).seq t q = (s.seq t q).moveRecords late := by
  obtain ⟨late, h⟩ := s.record_tile x r
  refine ⟨late, fun t q => ?_⟩
  simp only [State.seq, h, Tile.seq, Tile.movedRecords]
  split <;> rfl

/-- A record leaves of every context all but its waiting records. -/
theorem State.record_ctx_any (s : State) (x : Nat) (r : FaultRecord) (y : Nat) :
    ∃ rs, (s.record x r).ctx y = { s.ctx y with records := rs } := by
  obtain ⟨l, ts, rs, ag, fr, h, -⟩ := s.record_spec x r
  rw [h]
  by_cases hy : x = y
  · exact ⟨rs, by simp [State.ctx, hy]⟩
  · exact ⟨(s.ctx y).records, by simp [State.ctx, mget_mset_other _ _ _ hy]⟩

@[simp] theorem State.record_gtick (s : State) (x : Nat) (r : FaultRecord) : (s.record x r).gtick = s.gtick := by rw [State.record_eq]
@[simp] theorem State.record_sheaf (s : State) (x : Nat) (r : FaultRecord) : (s.record x r).sheaf = s.sheaf := by rw [State.record_eq]
@[simp] theorem State.record_rebuilding (s : State) (x : Nat) (r : FaultRecord) : (s.record x r).rebuilding = s.rebuilding := by
  rw [State.record_eq]

/-! The end of a partition (R60, R339). -/

/-- It changes contexts, the agenda and the count of free values alone. -/
theorem State.endPartition_eq (s : State) (x level code : Nat) :
    ∃ cs ag fr, s.endPartition x level code = { s with ctxs := cs, agenda := ag, free := fr } ∧ s.agenda ⊆ ag := by
  unfold State.endPartition
  dsimp only
  split
  · split
    · exact ⟨_, _, _, rfl, List.Subset.refl _⟩
    · exact ⟨_, _, _, rfl, List.Subset.refl _⟩
  · split
    · exact ⟨_, _, _, rfl, State.agenda_subset_after _ _ _ _⟩
    · exact ⟨_, _, _, rfl, List.Subset.refl _⟩
    · exact ⟨_, _, _, rfl, List.Subset.refl _⟩

theorem State.endPartition_agenda (s : State) (x level code : Nat) : s.agenda ⊆ (s.endPartition x level code).agenda := by
  obtain ⟨cs, ag, fr, h, ha⟩ := s.endPartition_eq x level code
  rw [h]; exact ha

@[simp] theorem State.endPartition_gtick (s : State) (x level code : Nat) : (s.endPartition x level code).gtick = s.gtick := by
  obtain ⟨cs, ag, fr, h, -⟩ := s.endPartition_eq x level code; rw [h]
@[simp] theorem State.endPartition_tiles (s : State) (x level code : Nat) : (s.endPartition x level code).tiles = s.tiles := by
  obtain ⟨cs, ag, fr, h, -⟩ := s.endPartition_eq x level code; rw [h]
@[simp] theorem State.endPartition_sheaf (s : State) (x level code : Nat) : (s.endPartition x level code).sheaf = s.sheaf := by
  obtain ⟨cs, ag, fr, h, -⟩ := s.endPartition_eq x level code; rw [h]
@[simp] theorem State.endPartition_mem (s : State) (x level code : Nat) : (s.endPartition x level code).mem = s.mem := by
  obtain ⟨cs, ag, fr, h, -⟩ := s.endPartition_eq x level code; rw [h]
@[simp] theorem State.endPartition_log (s : State) (x level code : Nat) : (s.endPartition x level code).log = s.log := by
  obtain ⟨cs, ag, fr, h, -⟩ := s.endPartition_eq x level code; rw [h]
@[simp] theorem State.endPartition_binds (s : State) (x level code : Nat) : (s.endPartition x level code).binds = s.binds := by
  obtain ⟨cs, ag, fr, h, -⟩ := s.endPartition_eq x level code; rw [h]
@[simp] theorem State.endPartition_rebuilding (s : State) (x level code : Nat) :
    (s.endPartition x level code).rebuilding = s.rebuilding := by
  obtain ⟨cs, ag, fr, h, -⟩ := s.endPartition_eq x level code; rw [h]
@[simp] theorem State.endPartition_tile (s : State) (x level code t : Nat) : (s.endPartition x level code).tile t = s.tile t := by
  simp [State.tile]

/-- Of a context it changes the state of the partition and the end under way alone. -/
theorem State.endPartition_ctx (s : State) (x level code y : Nat) :
    ∃ p e, (s.endPartition x level code).ctx y = { s.ctx y with part := p, ending := e } := by
  by_cases hy : x = y
  · subst hy
    unfold State.endPartition
    dsimp only
    split
    · split
      · exact ⟨_, _, by rw [State.ctx_setCtx, if_pos rfl]⟩
      · exact ⟨_, _, rfl⟩
    · split
      · exact ⟨.halting, some (level, code), by
          show State.ctx (State.setCtx _ _ _) _ = _
          rw [State.ctx_setCtx, if_pos rfl]⟩
      · exact ⟨_, _, by rw [State.ctx_setCtx, if_pos rfl]⟩
      · exact ⟨_, _, rfl⟩
  · refine ⟨(s.ctx y).part, (s.ctx y).ending, ?_⟩
    unfold State.endPartition
    dsimp only
    split
    · split
      · rw [State.ctx_setCtx, if_neg hy]
      · rfl
    · split
      · show State.ctx (State.setCtx _ _ _) _ = _
        rw [State.ctx_setCtx, if_neg hy]
      · rw [State.ctx_setCtx, if_neg hy]
      · rfl

end Sys2Proof.Machine
end

