-- ==== Sys2Proof/Proofs/Image.lean ====
section
/-! SUPPORT. A context's image is read from released memory through the context's own tables (R31, R108): what changes neither
leaves every field of its timetable as it was. -/
namespace Sys2Proof.Machine

/-- The part of a state that reads of released memory go through: memory with its marks, released writes on their way, pages in
migration, and the Sheaf. -/
def State.memCore (s : State) : State :=
  { mem := s.mem, sectors := s.sectors, forward := s.forward, migrations := s.migrations, forwarding := s.forwarding, sheaf := s.sheaf }

theorem State.ownAddr_memCore (s : State) : s.memCore.ownAddr = s.ownAddr := rfl
theorem State.place_memCore (s : State) : s.memCore.place = s.place := by
  funext a
  unfold State.place
  rw [s.ownAddr_memCore]
  rfl
theorem State.physByte_memCore (s : State) : s.memCore.physByte = s.physByte := rfl

theorem State.walk_memCore (s : State) (va : Nat) (levels : List (Nat × Nat × Bool × Nat)) (table : Nat) :
    s.memCore.walk va levels table = s.walk va levels table := by
  induction levels generalizing table with
  | nil => rfl
  | cons l rest ih =>
    unfold State.walk
    rw [show s.memCore.physBytes = s.physBytes from rfl, show s.memCore.sheaf = s.sheaf from rfl]
    simp only [ih]

/-- Two states in which a context's image reads alike. -/
structure State.SameImage (s u : State) (x : Nat) : Prop where
  core : u.memCore = s.memCore
  root : (u.ctx x).root = (s.ctx x).root
  launch : (u.ctx x).launch = (s.ctx x).launch

variable {s u : State} {x : Nat}

theorem State.SameImage.refl (s : State) (x : Nat) : s.SameImage s x := ⟨rfl, rfl, rfl⟩

theorem State.SameImage.ctxAddr (h : s.SameImage u x) (va : Nat) : u.ctxAddr x va = s.ctxAddr x va := by
  unfold State.ctxAddr
  rw [← u.walk_memCore, ← u.place_memCore, ← u.ownAddr_memCore, h.core, h.root, s.walk_memCore, s.place_memCore, s.ownAddr_memCore]

theorem State.SameImage.ctxBytes (h : s.SameImage u x) (va n : Nat) : u.ctxBytes x va n = s.ctxBytes x va n := by
  unfold State.ctxBytes
  rw [← u.physByte_memCore, h.core, s.physByte_memCore]
  simp only [h.ctxAddr]

theorem State.SameImage.entry (h : s.SameImage u x) (hdr size k off n : Nat) : u.entry x hdr size k off n = s.entry x hdr size k off n := by
  simp only [State.entry, State.imgField, Ctx.image, h.ctxBytes, h.launch]

theorem State.SameImage.nodeField (h : s.SameImage u x) (k off n : Nat) : u.nodeField x k off n = s.nodeField x k off n := h.entry ..

end Sys2Proof.Machine
end

