-- ==== Sys2Proof/Proofs/Walk.lean ====
section
/-! SUPPORT. The walk of the graph, segments and tasks (R27 to R35): what the operations of the timetable change. -/
namespace Sys2Proof.Machine

/-! Wakes and gap states. -/

/-- Wakes for a segment change the agenda alone. -/
theorem State.wakeFor_eq (s : State) (x tick : Nat) (ts : List Nat) : ∃ ag, s.wakeFor x tick ts = { s with agenda := ag } := by
  refine List.foldlRecOn (motive := fun u : State => ∃ ag, u = { s with agenda := ag }) ts _ ⟨_, rfl⟩ ?_
  rintro _ ⟨ag, rfl⟩ t -
  dsimp only
  split
  · exact ⟨ag, rfl⟩
  · exact ⟨_, rfl⟩

@[simp] theorem State.wakeFor_ctxs (s : State) (x tick : Nat) (ts : List Nat) : (s.wakeFor x tick ts).ctxs = s.ctxs := by
  obtain ⟨ag, h⟩ := s.wakeFor_eq x tick ts; rw [h]
@[simp] theorem State.wakeFor_tiles (s : State) (x tick : Nat) (ts : List Nat) : (s.wakeFor x tick ts).tiles = s.tiles := by
  obtain ⟨ag, h⟩ := s.wakeFor_eq x tick ts; rw [h]
@[simp] theorem State.wakeFor_binds (s : State) (x tick : Nat) (ts : List Nat) : (s.wakeFor x tick ts).binds = s.binds := by
  obtain ⟨ag, h⟩ := s.wakeFor_eq x tick ts; rw [h]
@[simp] theorem State.wakeFor_memCore (s : State) (x tick : Nat) (ts : List Nat) : (s.wakeFor x tick ts).memCore = s.memCore := by
  obtain ⟨ag, h⟩ := s.wakeFor_eq x tick ts; rw [h]; rfl

/-- Tiller's decision on an unused tile changes its move alone. -/
theorem State.gapEnter_eq (s : State) (t span deepest : Nat) :
    s.gapEnter t span deepest = s ∨ ∃ mv, s.gapEnter t span deepest = s.modTile t fun z => { z with move := mv } := by
  unfold State.gapEnter
  split
  · exact .inl rfl
  · split
    · exact .inr ⟨_, rfl⟩
    · exact .inl rfl

@[simp] theorem State.gapEnter_ctxs (s : State) (t span deepest : Nat) : (s.gapEnter t span deepest).ctxs = s.ctxs := by
  obtain h | ⟨mv, h⟩ := s.gapEnter_eq t span deepest <;> rw [h]; rfl
@[simp] theorem State.gapEnter_memCore (s : State) (t span deepest : Nat) : (s.gapEnter t span deepest).memCore = s.memCore := by
  obtain h | ⟨mv, h⟩ := s.gapEnter_eq t span deepest <;> rw [h]; rfl

theorem State.gapEnter_tile (s : State) (t span deepest j : Nat) :
    ∃ mv, (s.gapEnter t span deepest).tile j = { s.tile j with move := mv } := by
  obtain h | ⟨mv, h⟩ := s.gapEnter_eq t span deepest
  · exact ⟨(s.tile j).move, by rw [h]⟩
  · rw [h, State.tile_modTile]
    split
    · rename_i ht; exact ⟨mv, by rw [ht]⟩
    · exact ⟨(s.tile j).move, rfl⟩

@[simp] theorem State.gapEnter_seq (s : State) (t span deepest j q : Nat) : (s.gapEnter t span deepest).seq j q = s.seq j q := by
  obtain ⟨mv, h⟩ := s.gapEnter_tile t span deepest j
  simp only [State.seq, h, Tile.seq]

/-! The walk (R32 to R34). -/

/-- The walk of context `x`, seen from `s`, is at node `m` in `u`: a segment node has chosen its segment and passed the walk on, and
any other node is where the walk stands, with the choice that there was. -/
def State.walksTo (s : State) (x : Nat) (chosen : Option Nat) (u : State) (m : Nat) : Prop :=
  (s.nodeField x m 0 1 ≠ 0 → (u.ctx x).node = m ∧ (u.ctx x).chosen = chosen) ∧
  (s.nodeField x m 0 1 = 0 → (u.ctx x).node = s.nodeField x m 6 2 ∧ (u.ctx x).chosen = some (s.nodeField x m 4 2))

/-- At a segment node the walk chooses the segment and goes on to the node behind it. -/
theorem State.walkNode_segment (s : State) (x : Nat) (h : s.nodeField x (s.ctx x).node 0 1 = 0) : (s.walkNode x).ctx x =
    { s.ctx x with chosen := some (s.nodeField x (s.ctx x).node 4 2), nextStart := max (s.ctx x).nextStart s.gtick,
                   prev := some (s.ctx x).node, node := s.nodeField x (s.ctx x).node 6 2 } := by
  unfold State.walkNode
  dsimp only
  split
  · rw [State.ctx, State.wakeFor_ctxs]
    exact State.ctx_modCtx_same ..
  · rename_i h1; exact absurd (h.symm.trans h1) (by decide)
  · rename_i h2; exact absurd (h.symm.trans h2) (by decide)
  · rename_i h0 _ _; exact absurd h h0

/-- At any other node the walk plans its next step and leaves every context as it was. -/
theorem State.walkNode_other (s : State) (x : Nat) (h : s.nodeField x (s.ctx x).node 0 1 ≠ 0) : (s.walkNode x).ctxs = s.ctxs := by
  unfold State.walkNode
  dsimp only
  split
  · rename_i h0; exact absurd h0 h
  · rfl
  · rfl
  · rfl

/-- Reaching a node changes where the walk stands, what it has chosen and the next segment's start alone. -/
theorem State.walkNode_ctx (s : State) (x : Nat) : ∃ ch ns pr nd,
    (s.walkNode x).ctx x = { s.ctx x with chosen := ch, nextStart := ns, prev := pr, node := nd } := by
  by_cases h : s.nodeField x (s.ctx x).node 0 1 = 0
  · exact ⟨_, _, _, _, s.walkNode_segment x h⟩
  · exact ⟨_, _, _, _, by rw [State.ctx, s.walkNode_other x h]; rfl⟩

@[simp] theorem State.walkNode_tiles (s : State) (x : Nat) : (s.walkNode x).tiles = s.tiles := by
  unfold State.walkNode
  dsimp only
  split
  · rw [State.wakeFor_tiles]; rfl
  · rfl
  · rfl
  · rfl

@[simp] theorem State.walkNode_binds (s : State) (x : Nat) : (s.walkNode x).binds = s.binds := by
  unfold State.walkNode
  dsimp only
  split
  · rw [State.wakeFor_binds]; rfl
  · rfl
  · rfl
  · rfl

/-- A start that is still to come stays. -/
theorem State.walkNode_nextStart (s : State) (x : Nat) (h : s.gtick ≤ (s.ctx x).nextStart) :
    ((s.walkNode x).ctx x).nextStart = (s.ctx x).nextStart := by
  by_cases h0 : s.nodeField x (s.ctx x).node 0 1 = 0
  · rw [s.walkNode_segment x h0]
    exact Nat.max_eq_left h
  · rw [State.ctx, s.walkNode_other x h0]
    rfl

theorem State.walkNode_walksTo {s u : State} {x n : Nat} {chosen : Option Nat} (h : s.SameImage u x) (hn : (u.ctx x).node = n)
    (hc : (u.ctx x).chosen = chosen) : s.walksTo x chosen (u.walkNode x) n := by
  subst hn
  refine ⟨fun h0 => ?_, fun h0 => ?_⟩ <;> rw [← h.nodeField] at h0
  · rw [State.ctx, u.walkNode_other x h0]
    exact ⟨rfl, hc⟩
  · rw [u.walkNode_segment x h0, h.nodeField, h.nodeField]
    exact ⟨rfl, rfl⟩

theorem State.walkTo_walksTo {s u : State} {x : Nat} {chosen : Option Nat} (m : Nat) (h : s.SameImage u x)
    (hc : (u.ctx x).chosen = chosen) : s.walksTo x chosen (u.walkTo x m) m := by
  have hm := u.ctx_modCtx_same x fun c => { c with prev := some c.node, node := m }
  exact State.walkNode_walksTo ⟨h.core, by rw [hm]; exact h.root, by rw [hm]; exact h.launch⟩ (by rw [hm]) (by rw [hm]; exact hc)

theorem State.walkTo_passes (u : State) (x m : Nat) : ((u.walkTo x m).ctx x).passes = (u.ctx x).passes := by
  obtain ⟨ch, ns, pr, nd, h⟩ := (u.modCtx x fun c => { c with prev := some c.node, node := m }).walkNode_ctx x
  rw [State.walkTo, h, State.ctx_modCtx_same]

theorem Ctx.walking_iff (c : Ctx) : c.walking = true ↔ c.launch ≠ none ∧ c.chosen = none ∧ c.seg = none := by
  simp [Ctx.walking, Option.isSome_iff_ne_none, and_assoc]

theorem State.walkCond_of_walking (s : State) (x : Nat) (h : (s.ctx x).walking = true) :
    s.walkCond x = s.walkTo x (if s.nodeBit x (s.ctx x).node then s.nodeField x (s.ctx x).node 4 2 else s.nodeField x (s.ctx x).node 6 2) := by
  simp [State.walkCond, h]

/-- The passes that a WHILE node counts from: those since the walk entered its body from outside (log 61). -/
def State.passesOf (s : State) (x n : Nat) : Nat := if s.fromBody x n then mget 0 (s.ctx x).passes n else 0

theorem State.walkWhile_pass (s : State) (x n : Nat) (hn : (s.ctx x).node = n) (h : (s.ctx x).walking = true)
    (hb : s.nodeBit x n = true ∧ (s.nodeField x n 8 4 = 0 ∨ s.passesOf x n < s.nodeField x n 8 4)) : s.walkWhile x =
      (s.modCtx x fun c => { c with passes := mset 0 c.passes n (s.passesOf x n + 1) }).walkTo x (s.nodeField x n 4 2) := by
  subst hn
  unfold State.passesOf at hb
  simp [State.walkWhile, State.passesOf, h, hb]

theorem State.walkWhile_leave (s : State) (x n : Nat) (hn : (s.ctx x).node = n) (h : (s.ctx x).walking = true)
    (hb : ¬ (s.nodeBit x n = true ∧ (s.nodeField x n 8 4 = 0 ∨ s.passesOf x n < s.nodeField x n 8 4))) : s.walkWhile x =
      (s.modCtx x fun c => { c with passes := mset 0 c.passes n 0 }).walkTo x (s.nodeField x n 6 2) := by
  subst hn
  unfold State.passesOf at hb
  simp [State.walkWhile, h, hb]

/-- A change of a context's count of passes moves no walk and no image. -/
theorem State.walkTo_after_passes (s : State) (x n k m : Nat) :
    let u := (s.modCtx x fun c => { c with passes := mset 0 c.passes n k }).walkTo x m
    s.walksTo x (s.ctx x).chosen u m ∧ mget 0 (u.ctx x).passes n = k := by
  intro u
  have hm := s.ctx_modCtx_same x fun c => { c with passes := mset 0 c.passes n k }
  refine ⟨State.walkTo_walksTo m ⟨rfl, by rw [hm], by rw [hm]⟩ (by rw [hm]), ?_⟩
  rw [State.walkTo_passes, hm]
  exact mget_mset_same ..

end Sys2Proof.Machine
end

