-- ==== Sys2Proof/Proofs/LaunchEnd.lean ====
section
/-! SUPPORT. The end of a LAUNCH (R32, R319): its bind goes and its tiles are free. -/
namespace Sys2Proof.Machine

/-! The end of a LAUNCH (R32, R319). -/

/-- Tiller on a freed tile changes its move alone. -/
theorem State.tileFreed_tile (s : State) (t deepest j : Nat) : ∃ mv, (s.tileFreed t deepest).tile j = { s.tile j with move := mv } := by
  unfold State.tileFreed
  split
  · split <;> exact ⟨(s.tile j).move, rfl⟩
  · exact s.gapEnter_tile ..

/-- A tile without the image of a context. -/
def Tile.withoutImage (z : Tile) (x : Nat) : Tile := { z with shadow := if (z.shadow.map (·.ctx)) = some x then none else z.shadow }

/-- A tile that a context gives back. -/
def Tile.givenBack (z : Tile) (x : Nat) : Tile :=
  { z with ctx := none, halt := none, trap := none, frozen := false, owed := 0, frozenFor := 0, a := z.a.idle, b := z.b.idle, left := z.leftTo x }

/-- What the end of a LAUNCH does to one tile of its partition. -/
def State.freeTile (s : State) (x t : Nat) : State :=
  let s := s.modTile t (·.withoutImage x)
  if (s.tile t).ctx = some x then (s.modTile t (·.givenBack x)).tileFreed t 3 else s

theorem State.freeTiles_eq (s : State) (x : Nat) : s.freeTiles x = (s.ctx x).tiles.foldl (fun s t => s.freeTile x t) s := rfl

/-- A tile that the context holds is free after it; any other keeps its holder. -/
theorem State.freeTile_ctx (s : State) (x t j : Nat) :
    ((s.freeTile x t).tile j).ctx = if t = j ∧ (s.tile j).ctx = some x then none else (s.tile j).ctx := by
  have hx (z : Tile) : (z.withoutImage x).ctx = z.ctx := rfl
  unfold State.freeTile
  simp only [State.tile_modTile_same, hx]
  split
  · rename_i h
    obtain ⟨mv, hm⟩ := ((s.modTile t (·.withoutImage x)).modTile t (·.givenBack x)).tileFreed_tile t 3 j
    rw [hm, State.tile_modTile, State.tile_modTile]
    by_cases ht : t = j
    · subst ht; simp [h, Tile.givenBack]
    · simp [ht, State.tile_modTile_other _ _ ht]
  · rename_i h
    rw [State.tile_modTile]
    by_cases ht : t = j
    · subst ht; simp [h, hx]
    · simp [ht]

theorem State.freeTiles_ctx (s : State) (x j : Nat) (hj : j ∈ (s.ctx x).tiles) (hc : (s.tile j).ctx = some x) :
    ((s.freeTiles x).tile j).ctx = none := by
  have fold (ts : List Nat) (u : State) : ((ts.foldl (fun s t => s.freeTile x t) u).tile j).ctx =
      if j ∈ ts ∧ (u.tile j).ctx = some x then none else (u.tile j).ctx := by
    induction ts generalizing u with
    | nil => simp
    | cons t ts ih =>
      rw [List.foldl_cons, ih, State.freeTile_ctx]
      by_cases ht : t = j <;> by_cases hu : (u.tile j).ctx = some x <;> simp [ht, hu, Ne.symm]
  rw [State.freeTiles_eq, fold, if_pos ⟨hj, hc⟩]

/-- The context when its LAUNCH has ended. -/
def Ctx.ended (c : Ctx) : Ctx :=
  { c with launch := none, part := .unbound, tiles := [], bind := none, seg := none, chosen := none, tasks := [], passes := [], prev := none,
           rqend := false, blocked := false, taskFault := none, taskFaults := 0, ending := none, ackDue := [], hints := [],
           winnow := { c.winnow with closing := none } }

/-- The bind of a context whose LAUNCH ends is no more. -/
def State.dropBind (s : State) (x : Nat) : State :=
  match (s.ctx x).bind with
  | some b => s.modBind b fun r => { r with valid := false, active := false }
  | none => s

/-- The end of a LAUNCH: bind and tiles go, the context is ended, and what is left is to do for the queues. -/
theorem State.finishLaunch_eq (s : State) (x code : Nat) (l : Launch) (hl : (s.ctx x).launch = some l) :
    ∃ ag fr, s.finishLaunch x code = { ((s.dropBind x).freeTiles x).modCtx x Ctx.ended with agenda := ag, free := fr } := by
  unfold State.finishLaunch
  dsimp only
  rw [hl]
  dsimp only
  refine List.foldlRecOn (motive := fun u : State => ∃ ag fr, u = { ((s.dropBind x).freeTiles x).modCtx x Ctx.ended with agenda := ag, free := fr })
    _ _ ⟨_, _, rfl⟩ ?_
  rintro _ ⟨ag, fr, rfl⟩ e -
  exact ⟨_, _, rfl⟩

/-- The end of a LAUNCH leaves its context without one, unbound and without tiles, and the tiles that it held free. -/
theorem State.finishLaunch_ends (s : State) (x code : Nat) (l : Launch) (hl : (s.ctx x).launch = some l) :
    let u := s.finishLaunch x code
    (u.ctx x).launch = none ∧ (u.ctx x).part = .unbound ∧ (u.ctx x).tiles = [] ∧
      ∀ t ∈ (s.ctx x).tiles, (s.tile t).ctx = some x → (u.tile t).ctx = none := by
  intro u
  obtain ⟨ag, fr, hu⟩ := s.finishLaunch_eq x code l hl
  have hc : u.ctx x = (((s.dropBind x).freeTiles x).ctx x).ended := by
    show State.ctx (s.finishLaunch x code) x = _
    rw [hu]
    exact State.ctx_modCtx_same ..
  have hd : (s.dropBind x).tiles = s.tiles ∧ (s.dropBind x).ctxs = s.ctxs := by
    unfold State.dropBind; split <;> exact ⟨rfl, rfl⟩
  refine ⟨by rw [hc]; rfl, by rw [hc]; rfl, by rw [hc]; rfl, fun t ht hx => ?_⟩
  show ((State.finishLaunch s x code).tile t).ctx = none
  rw [hu]
  exact (s.dropBind x).freeTiles_ctx x t (by rw [State.ctx, hd.2]; exact ht) (by rw [State.tile, hd.1]; exact hx)

end Sys2Proof.Machine
end

