-- ==== Sys2Proof/Proofs/Segments.lean ====
section
/-! SUPPORT. Faults at partition level (R337, R339, R340), and the starts of segments and tasks (R28, R30, R35, R47). -/
namespace Sys2Proof.Machine

/-! A fault at partition level (R337, R339, R340). -/

theorem State.seq_modTile (s : State) (t j q : Nat) (f : Tile → Tile) :
    (s.modTile t f).seq j q = if t = j then (f (s.tile t)).seq q else s.seq j q := by
  unfold State.seq
  rw [State.tile_modTile]
  split <;> rfl

@[simp] theorem State.ctx_modTile (s : State) (t y : Nat) (f : Tile → Tile) : (s.modTile t f).ctx y = s.ctx y := rfl

theorem Tile.seq_stopEntered (z : Tile) (p n q : Nat) (h : (z.seq q).handler = none) : (z.stopEntered p n).seq q = z.seq q := by
  unfold Tile.stopEntered
  split
  · rename_i hd hp
    split
    · show Tile.seq (Tile.setSeq z p _) q = _
      rw [Tile.seq_setSeq, if_neg]
      intro hpq
      have hz : z.seq p = z.seq q := by simp only [Tile.seq, hpq]
      simp [hz, h] at hp
    · rfl
  · rfl

/-- A region fault that joins one at partition level changes no sequencer that is in no handler. -/
theorem State.joinRegion_seq (s : State) (x t j q : Nat) (h : (s.seq j q).handler = none) : (s.joinRegion x t).seq j q = s.seq j q := by
  have hp : (s.modTile t fun z => { z with partTick := some s.gtick }).seq j q = s.seq j q := by
    rw [State.seq_modTile]
    split
    · rename_i ht; subst ht; rfl
    · rfl
  unfold State.joinRegion
  dsimp only
  split
  · exact hp
  · rw [State.seq_modTile]
    split
    · rename_i ht
      subst ht
      rw [← hp] at h
      rw [← hp]
      have h0 := Tile.seq_stopEntered _ 0 s.gtick q h
      exact (Tile.seq_stopEntered _ 1 s.gtick q (h0 ▸ h)).trans h0
    · exact hp

/-- It leaves of every context all but its waiting records. -/
theorem State.joinRegion_ctx (s : State) (x t y : Nat) : ∃ rs, (s.joinRegion x t).ctx y = { s.ctx y with records := rs } := by
  unfold State.joinRegion
  dsimp only
  split
  · exact ⟨(s.ctx y).records, rfl⟩
  · rw [State.ctx_modTile, State.ctx_modCtx]
    split
    · rename_i hx; subst hx; exact ⟨_, rfl⟩
    · exact ⟨(s.ctx y).records, rfl⟩

theorem State.joinRegion_log (s : State) (x t : Nat) :
    (s.joinRegion x t).log = s.log ∨ (s.joinRegion x t).log = s.log.map fun r => r.joined t s.gtick := by
  unfold State.joinRegion
  dsimp only
  split
  · exact .inl rfl
  · exact .inr rfl

/-- The fault's record is the last of the log, at partition level. -/
theorem State.partitionFault_last (s : State) (x t q : Nat) (f : FaultInfo) :
    ∃ r, (s.partitionFault x t q f).log.getLast? = some r ∧ r.info = f ∧ r.level = 4 := by
  unfold State.partitionFault
  rw [State.endPartition_log]
  have hl := s.record_last x { info := f, level := 4, escalated := false, tick := s.gtick, tile := t, seq := q, depth := (s.seq t q).regions.length }
  obtain h | h := State.joinRegion_log (s.record x _) x t
  · exact ⟨_, by rw [h]; exact hl, rfl, rfl⟩
  · exact ⟨_, by rw [h, List.getLast?_map, hl]; rfl, by simp [FaultRecord.joined], by simp [FaultRecord.joined]⟩

/-- It leaves of every context all but its waiting records, the state of its partition and the end under way. -/
theorem State.partitionFault_ctx (s : State) (x t q : Nat) (f : FaultInfo) (y : Nat) :
    ∃ rs p e, (s.partitionFault x t q f).ctx y = { s.ctx y with records := rs, part := p, ending := e } := by
  unfold State.partitionFault
  obtain ⟨p, e, h1⟩ := State.endPartition_ctx (State.joinRegion (s.record x _) x t) x 4 f.code y
  obtain ⟨rs, h2⟩ := State.joinRegion_ctx (s.record x _) x t y
  obtain ⟨rs', h3⟩ := s.record_ctx_any x _ y
  rw [h1, h2, h3]
  exact ⟨rs, p, e, rfl⟩

/-- A sequencer that is in no handler runs on as it did. -/
theorem State.partitionFault_run (s : State) (x t q : Nat) (f : FaultInfo) (j p : Nat) (h : (s.seq j p).handler = none) :
    ((s.partitionFault x t q f).seq j p).run = (s.seq j p).run := by
  have he (u : State) : (u.endPartition x 4 f.code).seq j p = u.seq j p := by simp [State.seq]
  have hm (y : Seq) (late : List FaultRecord) : (y.moveRecords late).run = y.run ∧ (y.moveRecords late).handler = y.handler := ⟨rfl, rfl⟩
  unfold State.partitionFault
  obtain ⟨late, hr⟩ := s.record_seq x
    { info := f, level := 4, escalated := false, tick := s.gtick, tile := t, seq := q, depth := (s.seq t q).regions.length }
  rw [he, State.joinRegion_seq _ _ _ _ _ (by rw [hr, (hm _ _).2, h]), hr, (hm _ _).1]

/-! Segments and tasks (R28, R30, R35, R47). -/

/-- A segment begins: it is the chosen one, with its tasks still to start and its end by its length formula. -/
theorem State.segmentStart_ctx (s : State) (x k : Nat) (hk : (s.ctx x).chosen = some k) :
    let c := (s.segmentStart x).ctx x
    let start := max (s.ctx x).nextStart s.gtick
    c.seg = some k ∧ c.chosen = none ∧ c.segStart = start ∧ c.rqend = false ∧
      c.segEnd = start + s.formula x k (s.segField x k 0x0C 4) ∧ c.tasks.length = s.segField x k 4 2 := by
  unfold State.segmentStart
  dsimp only
  rw [hk]
  dsimp only
  simp only [State.ctx, State.wakeFor_ctxs]
  rw [foldl_keeps State.ctxs _ fun u t => u.gapEnter_ctxs ..]
  have hm := fun f => s.ctx_modCtx_same x f
  simp only [State.ctx] at hm
  rw [hm]
  exact ⟨rfl, rfl, rfl, rfl, rfl, by simp [State.segTasks]⟩

/-- The tasks of context `x` that are to start with task `k` (R28). -/
def Ctx.startingWith (c : Ctx) (k : TaskRun) : List TaskRun := c.tasks.filter fun j => j.start == k.start && !j.started

/-- A task whose checks, and those of every task of its tick, pass starts (R28). -/
theorem State.taskStart_passes (s : State) (x i : Nat) (k : TaskRun) (hk : (s.ctx x).tasks[i]? = some k) (hb : (s.ctx x).blocked = false)
    (hs : k.started = false) (hf : ∀ j ∈ (s.ctx x).startingWith k, s.startFault x j = none) :
    let e := (s.ctx x).seqOf k.seqNum
    s.taskStart x i = (s.setSeq e.1 e.2 (s.startSeq x k (s.seq e.1 e.2))).modCtx x fun c =>
      { c with tasks := c.tasks.modify i fun j => { j with started := true } } := by
  have hn : ((s.ctx x).startingWith k).findSome? (fun j => (s.startFault x j).map fun code => (j, code)) = none := by
    rw [List.findSome?_eq_none_iff]
    intro j hj
    rw [hf j hj]
    rfl
  unfold Ctx.startingWith at hn
  simp [State.taskStart, hk, hb, hs, hn]

/-- One failing check keeps the task and every other of its tick from starting, with one record (R28, R340). -/
theorem State.taskStart_fails (s : State) (x i : Nat) (k : TaskRun) (hk : (s.ctx x).tasks[i]? = some k) (hb : (s.ctx x).blocked = false)
    (hs : k.started = false) (hf : ∃ j ∈ (s.ctx x).startingWith k, s.startFault x j ≠ none) :
    ∃ j code, s.startFault x j = some code ∧ s.taskStart x i =
      (s.modCtx x fun c => { c with blocked := true }).partitionFault x ((s.ctx x).seqOf j.seqNum).1 ((s.ctx x).seqOf j.seqNum).2
        { code := code, unit := 255 } := by
  obtain ⟨j0, hj0, hne⟩ := hf
  have hsome : (((s.ctx x).startingWith k).findSome? fun j => (s.startFault x j).map fun code => (j, code)) ≠ none := by
    rw [Ne, List.findSome?_eq_none_iff]
    intro h
    exact hne (Option.map_eq_none_iff.1 (h j0 hj0))
  obtain ⟨⟨j, code⟩, h⟩ := Option.ne_none_iff_exists'.1 hsome
  obtain ⟨j', -, hj'⟩ := List.exists_of_findSome?_eq_some h
  obtain ⟨code', hc, heq⟩ := Option.map_eq_some_iff.1 hj'
  obtain ⟨rfl, rfl⟩ := Prod.mk.inj heq
  refine ⟨j', code', hc, ?_⟩
  unfold Ctx.startingWith at h
  simp [State.taskStart, hk, hb, hs, h]

/-- A start check that fails gives 0x0101 or 0x0105 (R28). -/
theorem State.startFault_code (s : State) (x : Nat) (j : TaskRun) (code : Nat) (h : s.startFault x j = some code) : code ∈ [0x0101, 0x0105] := by
  unfold State.startFault at h
  dsimp only at h
  split at h
  · cases h; decide
  · split at h <;> cases h; decide

end Sys2Proof.Machine
end

