-- ==== Sys2Proof/Proofs/SegmentEnds.lean ====
section
/-! SUPPORT. The end of a segment (R27, R32, R35, R139): late tasks, or sequencers idle, and Winnow's boundary or the walk. -/
namespace Sys2Proof.Machine

/-- The tasks that a segment's end finds not done, those left out that R28 has kept from starting. -/
def State.lateTasks (s : State) (x : Nat) : List TaskRun :=
  (s.ctx x).tasks.filter fun j => !s.taskDone x j.index && (j.started || !(s.ctx x).blocked)

/-- The fault of a task that is not done at its segment's end (R35). -/
def State.overrun (s : State) (x : Nat) (c : Ctx) (j : TaskRun) : State :=
  s.partitionFault x (c.seqOf j.seqNum).1 (c.seqOf j.seqNum).2
    { code := 0x010E, unit := 255, step := (s.seq (c.seqOf j.seqNum).1 (c.seqOf j.seqNum).2).clock }

theorem State.segmentEnd_late (s : State) (x k : Nat) (hk : (s.ctx x).seg = some k) (hl : s.lateTasks x ≠ []) :
    s.segmentEnd x = (s.lateTasks x).foldl (fun u j => u.overrun x (s.ctx x) j) s := by
  have hne : (s.lateTasks x).isEmpty = false := by simpa using hl
  unfold State.lateTasks at hne
  unfold State.segmentEnd
  dsimp only
  rw [hk]
  dsimp only
  rw [hne]
  rfl

theorem State.overruns_seg (s : State) (x : Nat) (c : Ctx) (js : List TaskRun) :
    ((js.foldl (fun u j => u.overrun x c j) s).ctx x).seg = (s.ctx x).seg := by
  refine foldl_keeps (fun u : State => (u.ctx x).seg) _ (fun u j => ?_) js s
  obtain ⟨rs, p, e, h⟩ := u.partitionFault_ctx x (c.seqOf j.seqNum).1 (c.seqOf j.seqNum).2
    { code := 0x010E, unit := 255, step := (u.seq (c.seqOf j.seqNum).1 (c.seqOf j.seqNum).2).clock } x
  rw [State.overrun, h]

/-- The last task that is late has the last record. -/
theorem State.overruns_last (s : State) (x : Nat) (c : Ctx) (js : List TaskRun) (h : js ≠ []) :
    ∃ r, (js.foldl (fun u j => u.overrun x c j) s).log.getLast? = some r ∧ r.info.code = 0x010E ∧ r.level = 4 := by
  rw [← List.dropLast_append_getLast h, List.foldl_append]
  obtain ⟨r, hl, hi, h4⟩ := State.partitionFault_last (js.dropLast.foldl (fun u j => u.overrun x c j) s) x _ _ _
  exact ⟨r, hl, by rw [hi], h4⟩

/-- With nothing staged a release releases nothing. -/
theorem State.releaseWhere_nothing (s : State) (sel : StagingEntry → Bool) (h : ∀ d < 4, (s.die d).staging = []) : s.releaseWhere sel = s := by
  have hd : (List.range 4).map (fun d => (d, splitStaging sel (s.die d).staging)) = (List.range 4).map fun d => (d, ([], [])) :=
    List.map_congr_left fun d hd => by rw [h d (List.mem_range.1 hd)]; rfl
  unfold State.releaseWhere
  rw [hd]
  rfl

/-- Sequencers whose tasks are over are idle (R27). -/
def State.idleSeqs (s : State) (es : List (Nat × Nat)) : State :=
  es.foldl (fun (s : State) e => s.modSeq e.1 e.2 fun y => { y with run := .idle }) s

@[simp] theorem State.idleSeqs_ctxs (s : State) (es : List (Nat × Nat)) : (s.idleSeqs es).ctxs = s.ctxs :=
  foldl_keeps State.ctxs (fun (s : State) (e : Nat × Nat) => s.modSeq e.1 e.2 fun y => { y with run := .idle })
    (fun _ _ => rfl) es s
@[simp] theorem State.idleSeqs_memCore (s : State) (es : List (Nat × Nat)) : (s.idleSeqs es).memCore = s.memCore :=
  foldl_keeps State.memCore (fun (s : State) (e : Nat × Nat) => s.modSeq e.1 e.2 fun y => { y with run := .idle })
    (fun _ _ => rfl) es s

theorem State.idleSeqs_run (es : List (Nat × Nat)) (s : State) (t q : Nat) (h : (t, q) ∈ es ∨ (s.seq t q).run = .idle) :
    ((s.idleSeqs es).seq t q).run = .idle := by
  unfold State.idleSeqs
  induction es generalizing s with
  | nil => simpa using h
  | cons e es ih =>
    refine ih _ ?_
    have hs : (s.modSeq e.1 e.2 fun y => { y with run := .idle }).seq t q = if e.1 = t ∧ (e.2 = 0 ↔ q = 0) then
        { s.seq e.1 e.2 with run := .idle } else s.seq t q := s.seq_setSeq ..
    rw [hs]
    obtain h | h := h
    · obtain rfl | h := List.mem_cons.1 h
      · simp
      · exact .inl h
    · right; split <;> [rfl; exact h]

/-- Tiller's decisions on the tiles of a partition for a gap (R19). -/
def State.gapTiles (s : State) (x gap : Nat) (ts : List Nat) : State :=
  ts.foldl (fun (s : State) t => s.gapEnter t gap ((s.ctx x).deepest t)) s

@[simp] theorem State.gapTiles_ctxs (s : State) (x gap : Nat) (ts : List Nat) : (s.gapTiles x gap ts).ctxs = s.ctxs :=
  foldl_keeps State.ctxs _ (fun u _ => u.gapEnter_ctxs ..) ts s
@[simp] theorem State.gapTiles_memCore (s : State) (x gap : Nat) (ts : List Nat) : (s.gapTiles x gap ts).memCore = s.memCore :=
  foldl_keeps State.memCore _ (fun u _ => u.gapEnter_memCore ..) ts s
@[simp] theorem State.gapTiles_seq (s : State) (x gap : Nat) (ts : List Nat) (t q : Nat) : (s.gapTiles x gap ts).seq t q = s.seq t q :=
  foldl_keeps (fun u : State => u.seq t q) _ (fun u _ => u.gapEnter_seq ..) ts s

theorem State.ackAtEnd_eq (s : State) (x : Nat) : ∃ ag, s.ackAtEnd x = { s with agenda := ag } := by
  unfold State.ackAtEnd
  dsimp only
  split
  · split <;> exact ⟨_, rfl⟩
  · exact ⟨_, rfl⟩

@[simp] theorem State.ackAtEnd_ctxs (s : State) (x : Nat) : (s.ackAtEnd x).ctxs = s.ctxs := by
  obtain ⟨ag, h⟩ := s.ackAtEnd_eq x; rw [h]
@[simp] theorem State.ackAtEnd_memCore (s : State) (x : Nat) : (s.ackAtEnd x).memCore = s.memCore := by
  obtain ⟨ag, h⟩ := s.ackAtEnd_eq x; rw [h]; rfl
@[simp] theorem State.ackAtEnd_tiles (s : State) (x : Nat) : (s.ackAtEnd x).tiles = s.tiles := by
  obtain ⟨ag, h⟩ := s.ackAtEnd_eq x; rw [h]

/-- The writes of a segment's parties are released (R139). -/
def State.segmentReleased (s : State) (x : Nat) : State :=
  s.releaseWhere fun e => ((s.ctx x).taskSeqs.map fun e => seqNumber e.1 e.2).contains e.party

/-- The context runs no segment any more. -/
def State.segmentLeft (s : State) (x : Nat) : State := s.modCtx x fun c => { c with seg := none, hints := s.gatherHints x }

/-- A segment whose tasks are done, before Winnow's boundary or the walk goes on: its tasks' writes are released, the context runs no segment, its sequencers
are idle, and tiles that the next segment does not need may sleep (R19, R32, R35, R139). -/
def State.segmentClosed (s : State) (x k : Nat) : State :=
  let c := s.ctx x
  let s := (s.segmentReleased x).segmentLeft x
  let s := s.idleSeqs c.taskSeqs
  let s := s.gapTiles x (s.segField x k 0x10 4) c.tiles
  (s.wakeFor x (s.ctx x).nextStart c.tiles).ackAtEnd x

theorem State.segmentEnd_done (s : State) (x k : Nat) (hk : (s.ctx x).seg = some k) (hl : s.lateTasks x = []) :
    s.segmentEnd x = if (s.ctx x).rqend then (s.segmentClosed x k).beginBoundary x k else (s.segmentClosed x k).walkNode x := by
  unfold State.lateTasks at hl
  unfold State.segmentEnd
  dsimp only
  rw [hk]
  dsimp only
  rw [hl]
  rfl

theorem State.segmentClosed_ctxs (s : State) (x k : Nat) : (s.segmentClosed x k).ctxs = ((s.segmentReleased x).segmentLeft x).ctxs := by
  simp [State.segmentClosed]

theorem State.segmentClosed_memCore (s : State) (x k : Nat) : (s.segmentClosed x k).memCore = (s.segmentReleased x).memCore := by
  simp [State.segmentClosed]
  rfl

theorem State.segmentClosed_run (s : State) (x k : Nat) (e : Nat × Nat) (he : e ∈ (s.ctx x).taskSeqs) :
    ((s.segmentClosed x k).seq e.1 e.2).run = .idle := by
  have hi := State.idleSeqs_run (s.ctx x).taskSeqs ((s.segmentReleased x).segmentLeft x) e.1 e.2 (.inl he)
  rw [← State.gapTiles_seq _ x ((((s.segmentReleased x).segmentLeft x).idleSeqs (s.ctx x).taskSeqs).segField x k 0x10 4) (s.ctx x).tiles] at hi
  simpa [State.segmentClosed, State.seq, State.tile] using hi

theorem State.segmentClosed_ctx (s : State) (x k : Nat) : ∃ hs, (s.segmentClosed x k).ctx x =
    { (s.segmentReleased x).ctx x with seg := none, hints := hs } := by
  refine ⟨(s.segmentReleased x).gatherHints x, ?_⟩
  rw [State.ctx, State.segmentClosed_ctxs]
  exact State.ctx_modCtx_same ..

/-- Winnow's boundary begins: besides the agenda it changes the context's Winnow alone. -/
theorem State.beginBoundary_eq (s : State) (x k : Nat) :
    ∃ ag fr, s.beginBoundary x k = { s.modWinnow x fun w => { w with closing := some k } with agenda := ag, free := fr } := by
  have keeps (op : Instr) {α : Type} (args : α → List Nat) (u : State) (l : List α) :
      ∃ ag, l.foldl (fun (s : State) a => s.after 0 op (args a)) u = { u with agenda := ag } := by
    refine List.foldlRecOn (motive := fun v : State => ∃ ag, v = { u with agenda := ag }) l _ ⟨_, rfl⟩ ?_
    rintro _ ⟨ag, rfl⟩ a -
    exact ⟨_, rfl⟩
  unfold State.beginBoundary
  dsimp only
  obtain ⟨ag1, h1⟩ := keeps .submitRetry (fun q => [q]) (s.modWinnow x fun w => { w with closing := some k })
    (((s.modWinnow x fun w => { w with closing := some k }).queues.filter fun e => e.2.retry && e.2.ctx == x).map (·.1))
  rw [h1]
  generalize List.range _ = l
  obtain ⟨ag2, h2⟩ := keeps .spillCopyPerform (fun _ => [x]) { s.modWinnow x fun w => { w with closing := some k } with agenda := ag1 } l
  rw [h2]
  exact ⟨_, _, rfl⟩

theorem State.ctx_modWinnow_same (s : State) (x : Nat) (f : Winnow → Winnow) :
    (s.modWinnow x f).ctx x = { s.ctx x with winnow := f (s.ctx x).winnow } := s.ctx_modCtx_same x _

theorem State.beginBoundary_ctx (s : State) (x k : Nat) :
    (s.beginBoundary x k).ctx x = { s.ctx x with winnow := { (s.ctx x).winnow with closing := some k } } := by
  obtain ⟨ag, fr, h⟩ := s.beginBoundary_eq x k
  have hw := s.ctx_modWinnow_same x fun w => { w with closing := some k }
  rw [h, ← hw]
  rfl

theorem State.beginBoundary_seq (s : State) (x k t q : Nat) : (s.beginBoundary x k).seq t q = s.seq t q := by
  obtain ⟨ag, fr, h⟩ := s.beginBoundary_eq x k
  rw [h]
  rfl

end Sys2Proof.Machine
end

