-- ==== Sys2Proof/Proofs/WalkAndSegments.lean ====
section
/-! O41: the walk of the graph, and the starts and ends of segments and tasks. -/
namespace Sys2Proof.Machine

/-- The three walk instructions, on a context that walks. -/
theorem State.walk_goes (s : State) (x n : Nat) (l : Launch) (hx : s.arg 0 = x) (hn : (s.ctx x).node = n) (hl : (s.ctx x).launch = some l)
    (hc : (s.ctx x).chosen = none) (hs : (s.ctx x).seg = none) :
    (∃ u, exec .graphWalkCond s = .next u ∧
      s.walksTo x (s.ctx x).chosen u (if s.nodeBit x n then s.nodeField x n 4 2 else s.nodeField x n 6 2)) ∧
    (∃ u, exec .graphWalkWhile s = .next u ∧
      if s.nodeBit x n = true ∧ (s.nodeField x n 8 4 = 0 ∨ s.passesOf x n < s.nodeField x n 8 4) then
        s.walksTo x (s.ctx x).chosen u (s.nodeField x n 4 2) ∧ mget 0 (u.ctx x).passes n = s.passesOf x n + 1
      else s.walksTo x (s.ctx x).chosen u (s.nodeField x n 6 2) ∧ mget 0 (u.ctx x).passes n = 0) ∧
    (∃ u, exec .graphWalkEnd s = .next u ∧ (u.ctx x).launch = none ∧ (u.ctx x).part = .unbound ∧ (u.ctx x).tiles = [] ∧
      ∀ t ∈ (s.ctx x).tiles, (s.tile t).ctx = some x → (u.tile t).ctx = none) := by
  subst hx
  have hw : (s.ctx (s.arg 0)).walking = true := (Ctx.walking_iff _).2 ⟨by simp [hl], hc, hs⟩
  refine ⟨⟨_, rfl, ?_⟩, ⟨_, rfl, ?_⟩, ⟨_, rfl, ?_⟩⟩
  · rw [s.walkCond_of_walking _ hw, hn]
    exact State.walkTo_walksTo _ (.refl s _) rfl
  · split
    · rename_i hb
      rw [s.walkWhile_pass _ n hn hw hb]
      exact s.walkTo_after_passes ..
    · rename_i hb
      rw [s.walkWhile_leave _ n hn hw hb]
      exact s.walkTo_after_passes ..
  · rw [State.walkEnd, if_pos hw]
    exact s.finishLaunch_ends _ _ l hl

/-- A task that may start, and one that may not. -/
theorem State.taskStart_goes (s : State) (x : Nat) (k : TaskRun) (hx : s.arg 0 = x) (hk : (s.ctx x).tasks[s.arg 1]? = some k)
    (hb : (s.ctx x).blocked = false) (hs : k.started = false) :
    let t := ((s.ctx x).seqOf k.seqNum).1
    let q := ((s.ctx x).seqOf k.seqNum).2
    ((∀ j ∈ (s.ctx x).startingWith k, s.startFault x j = none) → ∃ u, exec .taskStart s = .next u ∧
      u.seq t q = s.startSeq x k (s.seq t q) ∧ (u.ctx x).tasks = (s.ctx x).tasks.modify (s.arg 1) fun j => { j with started := true }) ∧
    ((∃ j ∈ (s.ctx x).startingWith k, s.startFault x j ≠ none) → (s.seq t q).handler = none → ∃ u, exec .taskStart s = .next u ∧
      (u.ctx x).blocked = true ∧ (∃ r, u.log.getLast? = some r ∧ r.info.code ∈ [0x0101, 0x0105] ∧ r.level = 4) ∧
      (u.seq t q).run = (s.seq t q).run) := by
  subst hx
  refine ⟨fun hf => ⟨_, rfl, ?_⟩, fun hf hq => ?_⟩
  · rw [s.taskStart_passes _ _ k hk hb hs hf]
    exact ⟨State.seq_setSeq_same .., by rw [State.ctx_modCtx_same]; rfl⟩
  · obtain ⟨j, code, hj, hu⟩ := s.taskStart_fails _ _ k hk hb hs hf
    refine ⟨s.taskStart (s.arg 0) (s.arg 1), rfl, ?_⟩
    rw [hu]
    refine ⟨?_, ?_, State.partitionFault_run _ _ _ _ _ _ _ hq⟩
    · obtain ⟨rs, p, e, hc⟩ := State.partitionFault_ctx (s.modCtx (s.arg 0) fun c => { c with blocked := true }) (s.arg 0)
        ((s.ctx (s.arg 0)).seqOf j.seqNum).1 ((s.ctx (s.arg 0)).seqOf j.seqNum).2 { code := code, unit := 255 } (s.arg 0)
      rw [hc, State.ctx_modCtx_same]
    · obtain ⟨r, hr, hi, h4⟩ := State.partitionFault_last (s.modCtx (s.arg 0) fun c => { c with blocked := true }) (s.arg 0)
        ((s.ctx (s.arg 0)).seqOf j.seqNum).1 ((s.ctx (s.arg 0)).seqOf j.seqNum).2 { code := code, unit := 255 }
      exact ⟨r, hr, by rw [hi]; exact s.startFault_code _ j code hj, h4⟩

/-- A segment that ends with its tasks done: its sequencers are idle, and Winnow's boundary begins or the walk goes on. -/
theorem State.segmentEnd_done_goes (s : State) (x k : Nat) (hk : (s.ctx x).seg = some k) (hl : s.lateTasks x = []) :
    let u := s.segmentEnd x
    (u.ctx x).seg = none ∧ (∀ e ∈ (s.ctx x).taskSeqs, (u.seq e.1 e.2).run = .idle) ∧
      ((s.ctx x).rqend = true → (u.ctx x).winnow.closing = some k) ∧
      ((s.ctx x).rqend = false → (∀ d < 4, (s.die d).staging = []) → s.walksTo x (s.ctx x).chosen u (s.ctx x).node) := by
  intro u
  have hu : u = if (s.ctx x).rqend then (s.segmentClosed x k).beginBoundary x k else (s.segmentClosed x k).walkNode x := s.segmentEnd_done x k hk hl
  obtain ⟨hs, hc⟩ := s.segmentClosed_ctx x k
  have hr := s.segmentClosed_run x k
  cases hq : (s.ctx x).rqend with
  | true =>
    have hu : u = (s.segmentClosed x k).beginBoundary x k := by rw [hu, hq]; rfl
    rw [hu, State.beginBoundary_ctx]
    exact ⟨by rw [hc], fun e he => by rw [State.beginBoundary_seq]; exact hr e he, fun _ => rfl, nofun⟩
  | false =>
    have hu : u = (s.segmentClosed x k).walkNode x := by rw [hu, hq]; rfl
    obtain ⟨ch, ns, pr, nd, hw⟩ := (s.segmentClosed x k).walkNode_ctx x
    rw [hu]
    refine ⟨by rw [hw, hc], fun e he => ?_, nofun, fun _ hst => ?_⟩
    · rw [State.seq, State.tile, State.walkNode_tiles]
      exact hr e he
    · have hrel : s.segmentReleased x = s := s.releaseWhere_nothing _ hst
      have hm := s.segmentClosed_memCore x k
      rw [hrel] at hm hc
      exact State.walkNode_walksTo ⟨hm, by rw [hc], by rw [hc]⟩ (by rw [hc]) (by rw [hc])

/-- Settles O41: each clause is the rule of its operation, the walk (R32 to R34), a segment's start (R27, R30), a task's start (R28) and
a segment's end (R35, R47). -/
theorem theWalkAndItsSegments : Obligations.TheWalkAndItsSegments := by
  unfold Obligations.TheWalkAndItsSegments
  intro s l x c n goes failed
  refine ⟨fun hl hc hs => s.walk_goes x n l rfl rfl hl hc hs, fun k hk => ⟨_, rfl, s.segmentStart_ctx x k hk⟩, ?_, ?_⟩
  · intro k hk hb hs same t q
    obtain ⟨hpass, hfail⟩ := s.taskStart_goes x k rfl hk hb hs
    refine ⟨fun hf => ?_, hfail⟩
    obtain ⟨u, hu, hy, ht⟩ := hpass hf
    exact ⟨u, _, hu, hy, rfl, rfl, rfl, rfl, rfl, rfl, rfl, rfl, rfl, rfl, rfl, ht⟩
  · intro k hk
    refine ⟨fun ⟨j, hj, hd, hor⟩ => ⟨s.segmentEnd x, rfl, ?_⟩, fun hd => ⟨s.segmentEnd x, rfl, ?_⟩⟩
    · have hl : s.lateTasks x ≠ [] := by
        refine List.ne_nil_of_mem (List.mem_filter.2 ⟨hj, ?_⟩)
        simpa [hd] using hor
      rw [s.segmentEnd_late x k hk hl]
      obtain ⟨r, hr, hi, h4⟩ := State.overruns_last s x (s.ctx x) _ hl
      exact ⟨⟨r, hr, by simp [hi], h4⟩, (s.overruns_seg x (s.ctx x) _).trans hk⟩
    · have hl : s.lateTasks x = [] := List.filter_eq_nil_iff.2 fun j hj => by simp [hd j hj]
      obtain ⟨hseg, hrun, hend, hgo⟩ := s.segmentEnd_done_goes x k hk hl
      exact ⟨hseg, fun j hj => hrun _ (List.mem_map_of_mem hj), hend, hgo⟩

end Sys2Proof.Machine
end

