-- ==== Sys2Proof/Proofs/PartitionEnds.lean ====
section
/-! SUPPORT. Partitions that are to halt (R60), the tiles and claims of binds (R318, R319), and the writes of waiting fault records (R342). -/
namespace Sys2Proof.Machine

/-- A step that reads something that no step changes may as well read it before the first. -/
theorem foldl_fixed {σ α β : Type} (g : σ → β) (f : β → σ → α → σ) (h : ∀ b s a, g (f b s a) = g s) (l : List α) (s : σ) :
    l.foldl (fun s a => f (g s) s a) s = l.foldl (f (g s)) s := by
  induction l generalizing s with
  | nil => rfl
  | cons a l ih => rw [List.foldl_cons, List.foldl_cons, ih, h]

/-! Halts (R60). -/

/-- A partition is to halt: its end is under way and its halt planned within 180 ticks of a tick. -/
def State.toHalt (u : State) (y level code now : Nat) : Prop :=
  (u.ctx y).part = .halting ∧ (u.ctx y).ending = some (level, code) ∧ u.planned .partitionHalt [y] now (now + 180)

theorem State.endPartition_ctx_other (s : State) {x y : Nat} (level code : Nat) (h : x ≠ y) : (s.endPartition x level code).ctx y = s.ctx y := by
  unfold State.endPartition
  dsimp only
  split
  · split
    · rw [State.ctx_setCtx, if_neg h]
    · rfl
  · split
    · exact (s.ctx_setCtx ..).trans (if_neg h)
    · rw [State.ctx_setCtx, if_neg h]
    · rfl

theorem State.endPartition_toHalt (s : State) (y level code : Nat) (hp : (s.ctx y).part = .running) (he : (s.ctx y).ending = none) :
    (s.endPartition y level code).toHalt y level code s.gtick := by
  have hu : s.endPartition y level code = ((s.setCtx y { s.ctx y with ending := some (level, code), part := .halting }).after
      (Config.haltDelay s.free % 181) Instr.partitionHalt [y]).tickFree := by
    unfold State.endPartition
    dsimp only
    rw [he]
    dsimp only
    rw [hp]
  have hc : (s.endPartition y level code).ctx y = { s.ctx y with ending := some (level, code), part := .halting } := by
    rw [hu]
    exact (s.ctx_setCtx ..).trans (if_pos rfl)
  refine ⟨by rw [hc], by rw [hc], ?_⟩
  rw [hu]
  exact State.planned_widen (State.planned_after _ _ _ _) (Nat.le_add_right ..)
    (Nat.add_le_add_left (Nat.le_of_lt_succ (Nat.mod_lt _ (by decide))) _)

/-- The end of any partition at no higher level leaves a partition to halt as it is. -/
theorem State.toHalt.endPartition {u : State} {y level code now : Nat} (h : u.toHalt y level code now) (z : Nat) {l' : Nat} (hl : l' ≤ level)
    (c' : Nat) : (u.endPartition z l' c').toHalt y level code now := by
  obtain ⟨hp, he, ha⟩ := h
  have hc : (u.endPartition z l' c').ctx y = u.ctx y := by
    by_cases hz : z = y
    · subst hz
      unfold State.endPartition
      dsimp only
      rw [he]
      dsimp only
      rw [if_neg (by simp [Nat.not_lt.2 hl])]
    · exact u.endPartition_ctx_other l' c' hz
  exact ⟨by rw [hc, hp], by rw [hc, he], State.planned_mono (u.endPartition_agenda z l' c') ha⟩

theorem State.foldl_endPartition_toHalt (s : State) (level code : Nat) (ys : List Nat) {y : Nat} (hy : y ∈ ys) (hp : (s.ctx y).part = .running)
    (he : (s.ctx y).ending = none) : (ys.foldl (fun (u : State) z => u.endPartition z level code) s).toHalt y level code s.gtick := by
  have keeps (zs : List Nat) (u : State) (h : u.toHalt y level code s.gtick) :
      (zs.foldl (fun (u : State) z => u.endPartition z level code) u).toHalt y level code s.gtick :=
    List.foldlRecOn (motive := fun u : State => u.toHalt y level code s.gtick) zs _ h fun _ h z _ => h.endPartition z le_rfl code
  have before (zs : List Nat) (h : y ∉ zs) : (zs.foldl (fun (u : State) z => u.endPartition z level code) s).ctx y = s.ctx y ∧
      (zs.foldl (fun (u : State) z => u.endPartition z level code) s).gtick = s.gtick :=
    List.foldlRecOn (motive := fun u : State => u.ctx y = s.ctx y ∧ u.gtick = s.gtick) zs _ ⟨rfl, rfl⟩ fun u hu z hz =>
      ⟨(u.endPartition_ctx_other level code (fun e : z = y => h (e ▸ hz))).trans hu.1, (u.endPartition_gtick ..).trans hu.2⟩
  obtain ⟨as, bs, rfl, has⟩ := List.eq_append_cons_of_mem hy
  obtain ⟨hc, hg⟩ := before as has
  rw [List.foldl_append, List.foldl_cons]
  refine keeps bs _ ?_
  rw [← hg]
  exact State.endPartition_toHalt _ y level code (by rw [hc, hp]) (by rw [hc, he])

/-! Binds (R318, R319). -/

theorem Bind.tiles_nodup (r : Bind) : r.tiles.Nodup := by
  unfold Bind.tiles
  split
  · exact (List.nodup_range.filter _).map fun i j h => by simpa using h
  · refine List.nodup_flatMap.2 ⟨fun c _ => List.nodup_range.map fun i j h => by simpa using h, ?_⟩
    refine (List.nodup_range.filter _).imp fun {c d} hcd => ?_
    intro t hc hd
    obtain ⟨i, hi, rfl⟩ := List.mem_map.1 hc
    obtain ⟨j, hj, h⟩ := List.mem_map.1 hd
    rw [List.mem_range] at hi hj
    exact hcd (by omega)

theorem State.bindWaits_iff (s : State) (r : Bind) : s.bindWaits r = true ↔
    r.valid = true ∧ r.active = false ∧ r.start ≤ s.gtick ∧ s.gtick < r.end_ ∧
    (s.ctx r.ctx).launch.isSome = true ∧ ((s.ctx r.ctx).part = .unbound ∨ (s.ctx r.ctx).part = .swapped) ∧ s.powerLost = false ∧
    s.rebuilding = false ∧ s.deferred r = false := by
  simp [State.bindWaits, and_assoc]

theorem State.bindTakes_iff (s : State) (r : Bind) :
    s.bindTakes r = true ↔ s.bindWaits r = true ∧ (∀ t ∈ r.tiles, s.tileFree t = true) ∧ s.outranked r = false := by
  simp [State.bindTakes, and_assoc]

theorem State.tileFree_iff (s : State) (t : Nat) : s.tileFree t = true ↔
    (s.tile t).ctx = none ∧ (s.tile t).failed = false ∧ (s.tile t).power = .active ∧ (s.tile t).move = .none := by
  simp [State.tileFree, and_assoc]

/-- A claim that is no worse is of a class no lower, and within DEADLINE of a deadline no later. -/
theorem Bind.claim_le {r e : Bind} {b k : Nat} (h : r.claim b ≤ e.claim k) (hk : k < 64) (he : e.deadline < 2 ^ 64) :
    r.class_ ≤ e.class_ ∧ (r.class_ = 0 → e.class_ = 0 → r.deadline ≤ e.deadline) := by
  unfold Bind.claim at h
  split at h <;> split at h <;> omega

theorem State.not_outranked {s : State} {r : Bind} {b : Nat} (h : s.outranked r = false) (hb : (s.ctx r.ctx).bind = some b)
    (e : Nat × Bind) (he : e ∈ s.binds) (hw : s.bindWaits e.2 = true) (ht : ∃ t ∈ r.tiles, t ∈ e.2.tiles) : r.claim b ≤ e.2.claim e.1 := by
  obtain ⟨t, htr, hte⟩ := ht
  have ht : e.2.tiles.any r.tiles.contains = true := List.any_eq_true.2 ⟨t, hte, by simpa using htr⟩
  have h := List.any_eq_false.1 h e he
  simpa [hb, ht, hw] using h

/-- A bind is over at its end, with its LAUNCH in progress, when it has its partition running, or, still valid, has not got it. -/
theorem State.bindOver_iff (s : State) (r : Bind) : s.bindOver r = true ↔ r.end_ ≤ s.gtick ∧ (s.ctx r.ctx).launch.isSome = true ∧
    if r.active then (s.ctx r.ctx).part = .running
    else r.valid = true ∧ ((s.ctx r.ctx).part = .unbound ∨ (s.ctx r.ctx).part = .swapped) := by
  cases h : r.active <;> simp [State.bindOver, h, and_assoc]

/-! Waiting records are written (R342). -/

/-- Besides records and the state of the rings, contexts, tiles and binds are as they were. -/
structure State.RingWrites (s u : State) : Prop where
  tiles : u.tiles = s.tiles
  binds : u.binds = s.binds
  gtick : u.gtick = s.gtick
  ctx : ∀ y, ∃ rs n k l f, u.ctx y = { s.ctx y with records := rs, ringNext := n, ringKnown := k, ringLost := l, lostFlag := f }

theorem State.RingWrites.of_ctxs {s u : State} (ht : u.tiles = s.tiles) (hb : u.binds = s.binds) (hg : u.gtick = s.gtick)
    (hc : u.ctxs = s.ctxs) : s.RingWrites u := ⟨ht, hb, hg, fun _ => ⟨_, _, _, _, _, by rw [State.ctx, hc]; rfl⟩⟩

theorem State.RingWrites.refl (s : State) : s.RingWrites s := .of_ctxs rfl rfl rfl rfl

theorem State.RingWrites.trans {s u v : State} (h : s.RingWrites u) (h' : u.RingWrites v) : s.RingWrites v := by
  refine ⟨h'.tiles.trans h.tiles, h'.binds.trans h.binds, h'.gtick.trans h.gtick, fun y => ?_⟩
  obtain ⟨_, _, _, _, _, hy⟩ := h.ctx y
  obtain ⟨_, _, _, _, _, hy'⟩ := h'.ctx y
  exact ⟨_, _, _, _, _, by rw [hy', hy]⟩

/-- A change of one context's records and ring. -/
theorem State.RingWrites.setCtx (s : State) (x : Nat) (rs : List FaultRecord) (n : Nat) (k : Bool) (l : Nat) (f : Bool) :
    s.RingWrites (s.setCtx x { s.ctx x with records := rs, ringNext := n, ringKnown := k, ringLost := l, lostFlag := f }) := by
  refine ⟨rfl, rfl, rfl, fun y => ?_⟩
  rw [State.ctx_setCtx]
  split
  · rename_i h; subst h; exact ⟨_, _, _, _, _, rfl⟩
  · exact ⟨_, _, _, _, _, rfl⟩

theorem State.RingWrites.takeIndex (s : State) (x : Nat) : s.RingWrites (s.takeIndex x) := by
  unfold State.takeIndex
  split
  · exact .refl s
  · exact .setCtx s x _ _ _ _ _

theorem State.RingWrites.noteDirty (s : State) (w : GlobalWrite) : s.RingWrites (s.noteDirty w) := by
  unfold State.noteDirty
  split <;> exact .of_ctxs rfl rfl rfl rfl

theorem State.RingWrites.releaseNow (s : State) (w : GlobalWrite) : s.RingWrites (s.releaseNow w) :=
  (State.RingWrites.noteDirty s (s.addReleased { w with bytes := w.bytes.map fun b => (s.homeAddr b.1, b.2) })).trans
    (.of_ctxs rfl rfl rfl rfl)

theorem State.RingWrites.ringPut (s : State) (x off : Nat) (bs : List Byte) : s.RingWrites (s.ringPut x off bs) := by
  unfold State.ringPut
  split
  · unfold State.granaryWrite
    split
    · exact .releaseNow s _
    · unfold State.ingressWrite
      split
      · exact .refl s
      · exact .of_ctxs rfl rfl rfl rfl
    · exact .refl s
  · exact .refl s

theorem State.RingWrites.putLost (s : State) (x : Nat) : s.RingWrites (s.putLost x) := by
  unfold State.putLost
  dsimp only
  split
  · exact .ringPut s x _ _
  · exact .refl s

theorem State.RingWrites.writeFaultRecord (s : State) (x : Nat) : s.RingWrites (s.writeFaultRecord x) := by
  refine (State.RingWrites.takeIndex s x).trans ?_
  unfold State.writeFaultRecord
  dsimp only
  split
  · exact .refl _
  · split
    · exact .refl _
    · split
      · exact ((State.RingWrites.putLost _ x).trans (.setCtx _ x _ _ _ _ _)).trans ((State.RingWrites.ringPut _ x _ _).trans (.ringPut _ x _ _))
      · exact (State.RingWrites.setCtx _ x _ _ _ _ _).trans (.putLost _ x)

theorem State.RingWrites.discardRecords (s : State) (x : Nat) : s.RingWrites (s.discardRecords x) := by
  unfold State.discardRecords
  dsimp only
  refine List.foldlRecOn (motive := s.RingWrites) _ _ ?_ fun u hu r _ => ?_
  · have h : s.RingWrites { s with discards := s.discards.filter fun e => !(s.ctx x).tiles.contains e.1 } := .of_ctxs rfl rfl rfl rfl
    exact h.trans (.setCtx _ x _ _ _ _ _)
  · exact hu.trans ((State.RingWrites.writeFaultRecord u x).trans (.of_ctxs rfl rfl rfl rfl))

end Sys2Proof.Machine
end

