-- ==== Sys2Proof/Proofs/BindsTakeAndEnd.lean ====
section
/-! O43: a bind takes its partition, displaces another, and ends. -/
namespace Sys2Proof.Machine

/-! A new LAUNCH takes its tiles (R32, R42, R173). -/

/-- A tile that a new LAUNCH takes. -/
def Tile.given (z : Tile) (x : Nat) (l : Launch) (y : Seq) : Tile :=
  { z with ctx := some x, a := y, b := y, mxmode := BitVec.ofNat 2 l.mxmode, halt := none, trap := none, reservations := [] }

/-- A sequencer whose registers are zero, at a version of the Sheaf. -/
def Seq.fresh (version : Nat) : Seq := { mapver := BitVec.ofNat 64 version }

/-- The tiles of a context go to its new LAUNCH. -/
def State.giveTiles (s : State) (x : Nat) (l : Launch) : State :=
  (s.ctx x).tiles.foldl (fun s t => s.modTile t (·.given x l (Seq.fresh s.sheaf.version))) s

theorem State.giveTiles_tile (s : State) (x : Nat) (l : Launch) (t : Nat) : (s.giveTiles x l).tile t =
    if t ∈ (s.ctx x).tiles then (s.tile t).given x l (Seq.fresh s.sheaf.version) else s.tile t := by
  unfold State.giveTiles
  rw [foldl_fixed (fun u : State => u.sheaf.version) (fun v u t => u.modTile t (·.given x l (Seq.fresh v))) (fun _ _ _ => rfl)]
  exact State.tile_foldl_modTile (·.given x l (Seq.fresh s.sheaf.version)) (fun _ => rfl) _ s t

theorem State.giveTiles_eq (s : State) (x : Nat) (l : Launch) : ∃ ts, s.giveTiles x l = { s with tiles := ts } := by
  refine List.foldlRecOn (motive := fun u : State => ∃ ts, u = { s with tiles := ts }) _ _ ⟨_, rfl⟩ ?_
  rintro _ ⟨ts, rfl⟩ t -
  exact ⟨_, rfl⟩

theorem State.giveTiles_ctx (s : State) (x : Nat) (l : Launch) (y : Nat) : (s.giveTiles x l).ctx y = s.ctx y := by
  obtain ⟨ts, h⟩ := s.giveTiles_eq x l
  rw [h]
  rfl

/-- The context of a LAUNCH that begins, before its walk. -/
def Ctx.launched (c : Ctx) (l : Launch) (now version : Nat) : Ctx :=
  { c with part := .running, nextStart := max l.start now, blocked := false, ackVersion := version, ackDue := [], node := l.first, prev := none }

/-- A LAUNCH has its tiles and runs; its walk is still to begin. -/
def State.launchBegun (s : State) (x : Nat) (l : Launch) : State :=
  (s.giveTiles x l).modCtx x (·.launched l (s.giveTiles x l).gtick (s.giveTiles x l).sheaf.version)

theorem State.beginLaunch_eq (s : State) (x : Nat) (l : Launch) (hl : (s.ctx x).launch = some l) :
    s.beginLaunch x = (((s.launchBegun x l).takeIndex x).discardRecords x).walkNode x := by
  unfold State.beginLaunch
  dsimp only
  rw [hl]
  rfl

/-- A LAUNCH that begins runs on its tiles, each with its registers at zero, and starts its first segment no earlier than its own start. -/
theorem State.beginLaunch_begins (s : State) (x : Nat) (l : Launch) (hl : (s.ctx x).launch = some l) :
    let u := s.beginLaunch x
    u.binds = s.binds ∧ (u.ctx x).part = .running ∧ (u.ctx x).launch = some l ∧ (u.ctx x).nextStart = max l.start s.gtick ∧
      (u.ctx x).ackVersion = s.sheaf.version ∧ ∀ t ∈ (s.ctx x).tiles, u.tile t = (s.tile t).given x l (Seq.fresh s.sheaf.version) := by
  intro u
  obtain ⟨ts, hg⟩ := s.giveTiles_eq x l
  have hr : (s.launchBegun x l).RingWrites (((s.launchBegun x l).takeIndex x).discardRecords x) :=
    (State.RingWrites.takeIndex _ x).trans (.discardRecords _ x)
  have hu : u = (((s.launchBegun x l).takeIndex x).discardRecords x).walkNode x := s.beginLaunch_eq x l hl
  generalize ((s.launchBegun x l).takeIndex x).discardRecords x = v at hu hr
  obtain ⟨htiles, hbinds, hgtick, hctx⟩ := hr
  have hb : (s.launchBegun x l).ctx x = (s.ctx x).launched l s.gtick s.sheaf.version := by
    rw [State.launchBegun, State.ctx_modCtx_same, State.giveTiles_ctx, hg]
  have hgt : v.gtick = s.gtick := by rw [hgtick, State.launchBegun, hg]; rfl
  obtain ⟨rs, n, k, lo, f, hx⟩ := hctx x
  rw [hb] at hx
  obtain ⟨ch, ns, pr, nd, hw⟩ := v.walkNode_ctx x
  have hn := v.walkNode_nextStart x (by rw [hx, hgt]; exact Nat.le_max_right ..)
  rw [hw, hx] at hn
  rw [hu]
  refine ⟨?_, by rw [hw, hx]; rfl, by rw [hw, hx]; exact hl, by rw [hw]; exact hn, by rw [hw, hx]; rfl, fun t ht => ?_⟩
  · rw [State.walkNode_binds, hbinds, State.launchBegun, hg]; rfl
  · have h : (s.giveTiles x l).tile t = _ := s.giveTiles_tile x l t
    rw [if_pos ht] at h
    rw [← h, State.tile, State.walkNode_tiles, htiles]
    rfl

/-! A saved context takes its partition again (R62, R65, R354). -/

/-- Its tiles do not take it: its bind ends, and it is to be restored elsewhere. -/
theorem State.retake_suspends (s : State) (b x : Nat) (l : Launch) (ht : s.tilesTake l (s.ctx x).tiles = false) (hb : (s.ctx x).bind = some b) :
    s.retake b x l = ((s.modBind b fun r => { r with valid := false, active := false }).modCtx x fun c =>
      { c with part := .suspended }).after 0 .contextRestore [x] := by
  simp [State.retake, ht, State.toSuspended, hb]

/-- A tile that a saved context takes, halted. -/
def Tile.heldAt (z : Tile) (x now : Nat) : Tile := { z with ctx := some x, halt := some now }

/-- Its tiles take it: they are held, halted, until its resume. -/
theorem State.retake_holds (s : State) (b x : Nat) (l : Launch) (ht : s.tilesTake l (s.ctx x).tiles = true) :
    let u := s.retake b x l
    (u.bind b).active = true ∧ (u.ctx x).part = .halted ∧ u.planned .partitionResume [x] (s.gtick + 1) (s.gtick + s.swapTicks x) ∧
      ∀ t ∈ (s.ctx x).tiles, u.tile t = (s.tile t).heldAt x s.gtick := by
  intro u
  let v := s.modBind b fun r => { r with active := true, acted := true }
  let w := (s.ctx x).tiles.foldl (fun (s : State) t => s.modTile t (·.heldAt x s.gtick)) v
  have hu : u = ((w.modCtx x fun c => { c with part := .halted }).after (w.swapTicks x) .partitionResume [x]).tickFree := by
    show s.retake b x l = _
    rw [State.retake, if_pos ht]
    rfl
  have hw : ∃ ts, w = { v with tiles := ts } := by
    refine List.foldlRecOn (motive := fun u : State => ∃ ts, u = { v with tiles := ts }) _ _ ⟨_, rfl⟩ ?_
    rintro _ ⟨ts, rfl⟩ t -
    exact ⟨_, rfl⟩
  have htile (t : Nat) : w.tile t = if t ∈ (s.ctx x).tiles then (s.tile t).heldAt x s.gtick else s.tile t := by
    have hf := foldl_fixed State.gtick (fun (n : Nat) (u : State) t => u.modTile t (·.heldAt x n)) (fun _ _ _ => rfl) (s.ctx x).tiles v
    show State.tile (List.foldl _ v _) t = _
    rw [hf]
    exact State.tile_foldl_modTile (·.heldAt x s.gtick) (fun _ => rfl) _ v t
  obtain ⟨ts, hw⟩ := hw
  refine ⟨?_, ?_, ?_, fun t ht => ?_⟩
  · rw [hu, hw]
    show (State.bind (s.modBind b fun r => { r with active := true, acted := true }) b).active = true
    rw [State.bind_modBind, if_pos rfl]
  · have hc : u.ctx x = { w.ctx x with part := .halted } := by rw [hu]; exact w.ctx_modCtx_same x fun c => { c with part := .halted }
    rw [hc]
  · rw [hu]
    refine State.planned_widen (State.planned_after _ _ _ _) ?_ ?_ <;> rw [hw]
    · exact Nat.add_le_add_left (Nat.le_add_right 1 _) _
    · exact le_rfl
  · rw [hu]
    exact (htile t).trans (if_pos ht)

/-! The clauses. -/

theorem State.bindTake_takes (s : State) (b : Nat) (l : Launch) (ht : s.bindTakes (s.bind b) = true)
    (hl : (s.ctx (s.bind b).ctx).launch = some l) : s.bindTake b = if (s.ctx (s.bind b).ctx).part = .unbound then
      (s.modBind b fun r => { r with active := true, acted := true }).beginLaunch (s.bind b).ctx else s.retake b (s.bind b).ctx l := by
  unfold State.bindTake
  dsimp only
  rw [if_pos ht, hl]

theorem State.bindTake_unbound (s : State) (b : Nat) (ht : s.bindTakes (s.bind b) = true) (hp : (s.ctx (s.bind b).ctx).part = .unbound) :
    let x := (s.bind b).ctx
    let u := s.bindTake b
    ∃ l, (s.ctx x).launch = some l ∧ (u.bind b).active = true ∧ (u.ctx x).part = .running ∧ (u.ctx x).launch = some l ∧
      (u.ctx x).nextStart = max l.start s.gtick ∧ (u.ctx x).ackVersion = s.sheaf.version ∧
      ∀ t ∈ (s.ctx x).tiles, u.tile t = (s.tile t).given x l (Seq.fresh s.sheaf.version) := by
  intro x u
  obtain ⟨hw, -⟩ := (s.bindTakes_iff _).1 ht
  obtain ⟨-, -, -, -, hsome, -⟩ := (s.bindWaits_iff _).1 hw
  obtain ⟨l, hl⟩ := Option.isSome_iff_exists.1 hsome
  have hu : u = (s.modBind b fun r => { r with active := true, acted := true }).beginLaunch x :=
    (s.bindTake_takes b l ht hl).trans (if_pos hp)
  obtain ⟨hb, hrest⟩ := State.beginLaunch_begins (s.modBind b fun r => { r with active := true, acted := true }) x l hl
  refine ⟨l, hl, ?_, hu ▸ hrest⟩
  have hba := s.bind_modBind b b fun r => { r with active := true, acted := true }
  rw [if_pos rfl] at hba
  rw [hu, State.bind, hb, ← State.bind, hba]

theorem State.bindTake_displaces (s : State) (b : Nat) (hn : s.bindTakes (s.bind b) = false) (hw : s.bindWaits (s.bind b) = true) :
    s.bindTake b = (s.displaced (s.bind b)).foldl (fun (s : State) y => s.endPartition y 0 0)
      (s.modBind b fun r => { r with acted := true }) := by
  unfold State.bindTake
  dsimp only
  rw [if_neg (by simp [hn]), if_pos hw]

theorem State.foldl_endPartition_binds_tiles (s : State) (level code : Nat) (ys : List Nat) :
    (ys.foldl (fun (u : State) y => u.endPartition y level code) s).binds = s.binds ∧
    (ys.foldl (fun (u : State) y => u.endPartition y level code) s).tiles = s.tiles :=
  ⟨foldl_keeps State.binds _ (fun u _ => u.endPartition_binds ..) ys s, foldl_keeps State.tiles _ (fun u _ => u.endPartition_tiles ..) ys s⟩

theorem State.running_of_displaced {s : State} {r : Bind} {y : Nat} (h : y ∈ s.displaced r) : (s.ctx y).part = .running := by
  have h := (List.mem_filter.1 h).2
  simp only [Bool.and_eq_true, beq_iff_eq] at h
  exact h.2

theorem State.bindEnd_of_active (s : State) (b : Nat) (ho : s.bindOver (s.bind b) = true) (ha : (s.bind b).active = true) :
    s.bindEnd b = s.endPartition (s.bind b).ctx 1 0 := by
  simp [State.bindEnd, ho, ha]

theorem State.bindEnd_of_waiting (s : State) (b : Nat) (ho : s.bindOver (s.bind b) = true) (ha : (s.bind b).active = false) :
    s.bindEnd b = (s.modBind b fun r => { r with valid := false }).after 0 .contextRestore [(s.bind b).ctx] := by
  simp [State.bindEnd, ho, ha]

/-- Settles O43: what a bind that waits must find, what it does with a new LAUNCH, with a saved context and with the partitions that it
displaces, and its end. -/
theorem bindsTakeAndEnd : Obligations.BindsTakeAndEnd := by
  unfold Obligations.BindsTakeAndEnd
  intro s b r x halting
  refine ⟨r.tiles_nodup, fun ht => ?_, fun ht hb e he hw hshare hk _ hd _ => ?_, fun ht hp => ?_, fun l ht hp hl htake hb => ?_,
    fun l ht hp hl htake => ?_, fun hn hw => ⟨s.bindTake b, rfl, ?_⟩, fun hw => ?_, fun he hl ha hp => ?_, fun he hl ha hv hp => ?_, fun hlt => ?_,
    fun ho ha hend => ⟨s.bindEnd b, rfl, ?_⟩, fun ho ha => ⟨s.bindEnd b, rfl, ?_⟩, fun ho => ?_⟩
  · obtain ⟨hw, hfree, -⟩ := (s.bindTakes_iff r).1 ht
    obtain ⟨hv, ha, hs, he, -⟩ := (s.bindWaits_iff r).1 hw
    exact ⟨hv, ha, hs, he, fun t h => (s.tileFree_iff t).1 (hfree t h)⟩
  · obtain ⟨-, -, ho⟩ := (s.bindTakes_iff r).1 ht
    exact Bind.claim_le (State.not_outranked ho hb e he hw hshare) hk hd
  · obtain ⟨l, hl, hact, hpart, hlaunch, hstart, hack, htile⟩ := s.bindTake_unbound b ht hp
    refine ⟨s.bindTake b, l, rfl, hl, hact, hpart, hlaunch, hstart, hack, fun t h => ?_⟩
    have hseq (q : Nat) : (s.bindTake b).seq t q = Seq.fresh s.sheaf.version := by
      simp [State.seq, htile t h, Tile.seq, Tile.given]
    rw [htile t h]
    exact ⟨rfl, rfl, rfl, rfl, hseq⟩
  · refine ⟨s.bindTake b, rfl, ?_⟩
    have hu : s.bindTake b = s.retake b x l := (s.bindTake_takes b l ht hl).trans (if_neg (by rw [hp]; decide))
    have hbind := s.bind_modBind b b fun r => { r with valid := false, active := false }
    have hctx := State.ctx_modCtx_same (s.modBind b fun r => { r with valid := false, active := false }) x fun c => { c with part := .suspended }
    rw [if_pos rfl] at hbind
    rw [hu, s.retake_suspends b x l htake hb]
    exact ⟨congrArg Bind.active hbind, congrArg Bind.valid hbind, congrArg Ctx.part hctx, rfl, State.planned_after _ _ _ _⟩
  · refine ⟨s.bindTake b, rfl, ?_⟩
    have hu : s.bindTake b = s.retake b x l := (s.bindTake_takes b l ht hl).trans (if_neg (by rw [hp]; decide))
    obtain ⟨hact, hpart, hplan, htile⟩ := s.retake_holds b x l htake
    rw [hu]
    refine ⟨hact, hpart, hplan, fun t h => ?_⟩
    rw [htile t h]
    exact ⟨rfl, rfl, rfl⟩
  · rw [s.bindTake_displaces b hn hw]
    obtain ⟨hbinds, htiles⟩ := State.foldl_endPartition_binds_tiles (s.modBind b fun r => { r with acted := true }) 0 0 (s.displaced r)
    refine ⟨htiles, ?_, fun k hk => ?_, fun y hy he => ?_⟩
    · rw [State.bind, hbinds]
      exact (s.bind_modBind b b _).trans (if_pos rfl)
    · rw [State.bind, hbinds]
      exact (s.bind_modBind b k _).trans (if_neg hk)
    · exact State.foldl_endPartition_toHalt (s.modBind b fun r => { r with acted := true }) 0 0 _ hy
        (State.running_of_displaced (s := s) hy) he
  · have hn : s.bindTakes r = false := by simp [State.bindTakes, hw]
    show Host.Outcome.next (s.bindTake b) = _
    unfold State.bindTake
    dsimp only
    rw [if_neg (by rw [hn]; decide), if_neg (by rw [hw]; decide)]
  · exact (s.bindOver_iff r).2 ⟨he, hl, by rw [if_pos ha]; exact hp⟩
  · exact (s.bindOver_iff r).2 ⟨he, hl, by rw [if_neg (by rw [ha]; decide)]; exact ⟨hv, hp⟩⟩
  · exact Bool.eq_false_iff.2 fun h => absurd ((s.bindOver_iff r).1 h).1 (Nat.not_le.2 hlt)
  · obtain ⟨-, -, hp⟩ := (s.bindOver_iff r).1 ho
    rw [if_pos ha] at hp
    rw [s.bindEnd_of_active b ho ha]
    exact ⟨State.endPartition_tiles .., s.endPartition_toHalt x 1 0 hp hend⟩
  · rw [s.bindEnd_of_waiting b ho ha]
    exact ⟨rfl, rfl, (s.bind_modBind b b fun r => { r with valid := false }).trans (if_pos rfl), State.planned_after _ _ _ _⟩
  · show Host.Outcome.next (s.bindEnd b) = _
    simp [State.bindEnd, show s.bindOver (s.bind b) = false from ho]

end Sys2Proof.Machine
end

