-- ==== Sys2Proof/Proofs/SheafVersions.lean ====
section
/-! SUPPORT. Every change of the Sheaf's record raises its version and asks every bound context for its acknowledgment (R21, R354). -/
namespace Sys2Proof.Machine

/-- Context `x` has still to be asked for version `v`. -/
def Ctx.unasked (c : Ctx) (v : Nat) : Prop := c.ackVersion < v ∧ (c.ackDue.any fun e => e.1 == v) = false

/-- Context `x` has been asked for version `v` at tick `now`, behind what it owed before. -/
def State.asked (u : State) (x v now : Nat) (due : List (Nat × Nat)) : Prop :=
  (u.ctx x).ackDue = due ++ [(v, now + 2400000)] ∧ u.planned .mapackMissed [x] (now + 2400000) (now + 2400000)

theorem State.askAck_eq (s : State) (x : Nat) : ∃ cs ag, s.askAck x = { s with ctxs := cs, agenda := ag } ∧ s.agenda ⊆ ag := by
  unfold State.askAck
  dsimp only
  split
  · exact ⟨_, _, rfl, State.agenda_subset_after _ _ _ _⟩
  · exact ⟨_, _, rfl, List.Subset.refl _⟩

theorem State.askAck_unasked (s : State) (x : Nat) (h : (s.ctx x).unasked s.sheaf.version) : s.askAck x =
    (s.setCtx x { s.ctx x with ackDue := (s.ctx x).ackDue ++ [(s.sheaf.version, s.gtick + 2400000)] }).after 2400000 .mapackMissed [x] := by
  obtain ⟨hv, hd⟩ := h
  unfold State.askAck
  dsimp only
  rw [hd, decide_eq_true hv]
  rfl

theorem State.askAck_ctx_other (s : State) {x y : Nat} (h : x ≠ y) : (s.askAck x).ctx y = s.ctx y := by
  unfold State.askAck
  dsimp only
  split
  · exact (s.ctx_setCtx ..).trans (if_neg h)
  · rfl

theorem State.askAck_asks (s : State) (x : Nat) (h : (s.ctx x).unasked s.sheaf.version) :
    (s.askAck x).asked x s.sheaf.version s.gtick (s.ctx x).ackDue := by
  rw [s.askAck_unasked x h]
  refine ⟨?_, State.planned_after _ _ _ _⟩
  exact congrArg Ctx.ackDue ((s.ctx_setCtx x x _).trans (if_pos rfl))

/-- Who has been asked is not asked again. -/
theorem State.asked.askAck {u : State} {x now : Nat} {due : List (Nat × Nat)} (h : u.asked x u.sheaf.version now due) (y : Nat) :
    (u.askAck y).asked x u.sheaf.version now due := by
  obtain ⟨hd, hp⟩ := h
  obtain ⟨cs, ag, he, ha⟩ := u.askAck_eq y
  have hc : (u.askAck y).ctx x = u.ctx x := by
    by_cases hy : y = x
    · subst hy
      have hany : ((u.ctx y).ackDue.any fun e => e.1 == u.sheaf.version) = true := by simp [hd]
      simp [State.askAck, hany]
    · exact u.askAck_ctx_other hy
  exact ⟨by rw [hc, hd], State.planned_mono (by rw [he]; exact ha) hp⟩

/-- One context in the round of questions. -/
def State.askBound (s : State) (x : Nat) : State := if s.bound x then s.askAck x else s

theorem State.askBound_eq (s : State) (x : Nat) : ∃ cs ag, s.askBound x = { s with ctxs := cs, agenda := ag } ∧ s.agenda ⊆ ag := by
  unfold State.askBound
  split
  · exact s.askAck_eq x
  · exact ⟨_, _, rfl, List.Subset.refl _⟩

theorem State.raiseSheaf_eq (s : State) : ∃ cs ag,
    s.raiseSheaf = { s with sheaf := { s.sheaf with version := s.sheaf.version + 1 }, ctxs := cs, agenda := ag } ∧ s.agenda ⊆ ag := by
  let v : State := { s with sheaf := { s.sheaf with version := s.sheaf.version + 1 } }
  refine List.foldlRecOn (motive := fun u : State => ∃ cs ag, u = { v with ctxs := cs, agenda := ag } ∧ s.agenda ⊆ ag) s.ctxs _
    ⟨_, _, rfl, List.Subset.refl _⟩ ?_
  rintro _ ⟨cs, ag, rfl, ha⟩ e -
  obtain ⟨cs', ag', h, ha'⟩ := State.askBound_eq { v with ctxs := cs, agenda := ag } e.1
  exact ⟨cs', ag', h, fun _ hx => ha' (ha hx)⟩

@[simp] theorem State.raiseSheaf_sheaf (s : State) : s.raiseSheaf.sheaf = { s.sheaf with version := s.sheaf.version + 1 } := by
  obtain ⟨cs, ag, h, -⟩ := s.raiseSheaf_eq; rw [h]
@[simp] theorem State.raiseSheaf_tiles (s : State) : s.raiseSheaf.tiles = s.tiles := by
  obtain ⟨cs, ag, h, -⟩ := s.raiseSheaf_eq; rw [h]
@[simp] theorem State.raiseSheaf_tile (s : State) (t : Nat) : s.raiseSheaf.tile t = s.tile t := by simp [State.tile]
@[simp] theorem State.raiseSheaf_gtick (s : State) : s.raiseSheaf.gtick = s.gtick := by
  obtain ⟨cs, ag, h, -⟩ := s.raiseSheaf_eq; rw [h]
@[simp] theorem State.raiseSheaf_mem (s : State) : s.raiseSheaf.mem = s.mem := by
  obtain ⟨cs, ag, h, -⟩ := s.raiseSheaf_eq; rw [h]
@[simp] theorem State.raiseSheaf_rebuilding (s : State) : s.raiseSheaf.rebuilding = s.rebuilding := by
  obtain ⟨cs, ag, h, -⟩ := s.raiseSheaf_eq; rw [h]

/-- A context that a bind has bound stands in the list of contexts. -/
theorem State.mem_ctxs_of_part (s : State) (x : Nat) (h : (s.ctx x).part ≠ .unbound) : (x, s.ctx x) ∈ s.ctxs :=
  mem_keys_of_mget_ne ({} : Ctx) s.ctxs x fun h0 => h (by rw [State.ctx, h0])

theorem State.bound_iff (s : State) (x : Nat) :
    s.bound x = true ↔ (s.ctx x).part = .running ∨ (s.ctx x).part = .halting ∨ (s.ctx x).part = .halted := by
  simp [State.bound, or_assoc]

/-- One context in the round of questions, seen from another. -/
theorem State.askBound_ctx_other (s : State) {x y : Nat} (h : x ≠ y) : (s.askBound x).ctx y = s.ctx y := by
  unfold State.askBound
  split
  · exact s.askAck_ctx_other h
  · rfl

theorem State.askBound_round (s : State) (x : Nat) : (s.askBound x).sheaf = s.sheaf ∧ (s.askBound x).gtick = s.gtick := by
  obtain ⟨cs, ag, h, -⟩ := s.askBound_eq x
  rw [h]
  exact ⟨rfl, rfl⟩

theorem State.raiseSheaf_eq_foldl (s : State) : s.raiseSheaf =
    (s.ctxs.map (·.1)).foldl State.askBound { s with sheaf := { s.sheaf with version := s.sheaf.version + 1 } } := by
  rw [List.foldl_map]
  rfl

/-- Questions to other contexts leave a context as it was. -/
theorem State.foldl_askBound_before (s : State) {x : Nat} (xs : List Nat) (h : x ∉ xs) :
    (xs.foldl State.askBound s).sheaf = s.sheaf ∧ (xs.foldl State.askBound s).gtick = s.gtick ∧ (xs.foldl State.askBound s).ctx x = s.ctx x := by
  refine List.foldlRecOn (motive := fun u : State => u.sheaf = s.sheaf ∧ u.gtick = s.gtick ∧ u.ctx x = s.ctx x) xs _ ⟨rfl, rfl, rfl⟩ ?_
  rintro u ⟨hv, hg, hc⟩ y hy
  obtain ⟨h1, h2⟩ := u.askBound_round y
  exact ⟨h1.trans hv, h2.trans hg, (u.askBound_ctx_other fun e : y = x => h (e ▸ hy)).trans hc⟩

/-- Who has been asked stays asked in the rest of the round. -/
theorem State.asked.foldl_askBound {u : State} {x v now : Nat} {due : List (Nat × Nat)} (h : u.asked x v now due) (hv : u.sheaf.version = v)
    (xs : List Nat) : (xs.foldl State.askBound u).asked x v now due := by
  suffices h : (xs.foldl State.askBound u).sheaf.version = v ∧ (xs.foldl State.askBound u).asked x v now due from h.2
  refine List.foldlRecOn (motive := fun u : State => u.sheaf.version = v ∧ u.asked x v now due) xs _ ⟨hv, h⟩ ?_
  rintro u ⟨hv, h⟩ y -
  subst hv
  refine ⟨by rw [(u.askBound_round y).1], ?_⟩
  unfold State.askBound
  split
  · exact h.askAck y
  · exact h

/-- Every bound context that has still to be asked for the new version is asked. -/
theorem State.raiseSheaf_asks (s : State) (x : Nat) (hb : s.bound x = true) (hn : (s.ctx x).unasked (s.sheaf.version + 1)) :
    s.raiseSheaf.asked x (s.sheaf.version + 1) s.gtick (s.ctx x).ackDue := by
  have hmem : x ∈ s.ctxs.map (·.1) :=
    List.mem_map.2 ⟨_, s.mem_ctxs_of_part x fun h => by simp [State.bound, h] at hb, rfl⟩
  obtain ⟨as, bs, hl, has⟩ := List.eq_append_cons_of_mem hmem
  rw [s.raiseSheaf_eq_foldl, hl, List.foldl_append, List.foldl_cons]
  obtain ⟨hsheaf, hgtick, hctx⟩ := State.foldl_askBound_before { s with sheaf := { s.sheaf with version := s.sheaf.version + 1 } } as has
  generalize as.foldl State.askBound _ = u at hsheaf hgtick hctx
  have hc : u.ctx x = s.ctx x := hctx
  have hv : u.sheaf.version = s.sheaf.version + 1 := by rw [hsheaf]
  have hbu : u.bound x = true := by rw [State.bound_iff, hc, ← State.bound_iff]; exact hb
  have hu := u.askAck_asks x (by rw [hc, hv]; exact hn)
  rw [hc, hv, hgtick] at hu
  refine State.asked.foldl_askBound ?_ ((congrArg Sheaf.version (u.askBound_round x).1).trans hv) bs
  rw [State.askBound, if_pos hbu]
  exact hu

/-- The version has risen by 1 since `s`, and every bound context that had still to be asked for it has been asked. -/
def State.raisedFrom (s u : State) : Prop := u.sheaf.version = s.sheaf.version + 1 ∧ ∀ x, s.bound x = true →
  (s.ctx x).unasked (s.sheaf.version + 1) → u.asked x (s.sheaf.version + 1) s.gtick (s.ctx x).ackDue

/-- A state raised from one that differs from `s` in nothing that the questions go by. -/
theorem State.raiseSheaf_raisedFrom {s u : State} (hv : u.sheaf.version = s.sheaf.version) (hg : u.gtick = s.gtick) (hc : ∀ x, u.ctx x = s.ctx x) :
    s.raisedFrom u.raiseSheaf := by
  refine ⟨by rw [State.raiseSheaf_sheaf, hv], fun x hb hn => ?_⟩
  have h := u.raiseSheaf_asks x (by rw [State.bound_iff, hc, ← State.bound_iff]; exact hb) (by rw [hc, hv]; exact hn)
  rwa [hv, hg, hc] at h

/-- Later steps that keep the version, what contexts owe and the agenda. -/
theorem State.raisedFrom.mono {s u w : State} (h : s.raisedFrom u) (hv : w.sheaf = u.sheaf) (hc : ∀ x, (w.ctx x).ackDue = (u.ctx x).ackDue)
    (ha : u.agenda ⊆ w.agenda) : s.raisedFrom w := by
  refine ⟨by rw [hv, h.1], fun x hb hn => ?_⟩
  obtain ⟨hd, hp⟩ := h.2 x hb hn
  exact ⟨by rw [hc, hd], State.planned_mono ha hp⟩

theorem State.changeSheaf_eq (s : State) (f : Sheaf → Sheaf) (h : f s.sheaf ≠ s.sheaf) :
    s.changeSheaf f = ({ s with sheaf := f s.sheaf } : State).raiseSheaf := if_neg h

theorem State.changeSheaf_same (s : State) (f : Sheaf → Sheaf) (h : f s.sheaf = s.sheaf) : s.changeSheaf f = s := if_pos h

/-- A change that keeps the version number raises it. -/
theorem State.changeSheaf_raisedFrom (s : State) (f : Sheaf → Sheaf) (h : f s.sheaf ≠ s.sheaf) (hv : (f s.sheaf).version = s.sheaf.version) :
    s.raisedFrom (s.changeSheaf f) := by
  rw [s.changeSheaf_eq f h]
  exact State.raiseSheaf_raisedFrom hv rfl fun _ => rfl

theorem State.changeSheaf_sheaf (s : State) (f : Sheaf → Sheaf) (h : f s.sheaf ≠ s.sheaf) :
    (s.changeSheaf f).sheaf = { f s.sheaf with version := (f s.sheaf).version + 1 } := by
  rw [s.changeSheaf_eq f h, State.raiseSheaf_sheaf]

@[simp] theorem State.changeSheaf_tiles (s : State) (f : Sheaf → Sheaf) : (s.changeSheaf f).tiles = s.tiles := by
  unfold State.changeSheaf
  split
  · rfl
  · rw [State.raiseSheaf_tiles]

@[simp] theorem State.changeSheaf_mem (s : State) (f : Sheaf → Sheaf) : (s.changeSheaf f).mem = s.mem := by
  unfold State.changeSheaf
  split
  · rfl
  · rw [State.raiseSheaf_mem]

end Sys2Proof.Machine
end

