-- ==== Sys2Proof/Proofs/ScratchpadWrites.lean ====
section
/-! SUPPORT. What a write into a scratchpad makes of its bytes, of the ranges that are undefined and of the words' marks (R18, R85, R100). -/
namespace Sys2Proof.Machine

theorem lookup_eq_none_iff_notMem_keys {α : Type} (m : Map α) (a : Nat) : m.lookup a = none ↔ a ∉ m.map (·.1) := by
  rw [List.lookup_eq_none_iff]
  simp only [bne_iff_ne, List.mem_map, not_exists, not_and]
  exact forall₂_congr fun e _ => ne_comm

/-- A byte after a write that names none twice. -/
theorem byteAt_putCells (m : List Host.Cell) (w : Map Byte) (h : (w.map (·.1)).Nodup) (a : Nat) :
    byteAt (putCells m w) a = (w.lookup a).getD (byteAt m a) := by
  induction w generalizing m with
  | nil => rfl
  | cons c w ih =>
    obtain ⟨k, b⟩ := c
    obtain ⟨hk, hw⟩ := List.nodup_cons.1 h
    rw [putCells, ih _ hw, List.lookup_cons]
    by_cases hak : a = k
    · subst hak
      rw [(lookup_eq_none_iff_notMem_keys w a).2 hk, beq_self_eq_true]
      exact mget_mset_same ..
    · rw [beq_false_of_ne hak, byteAt, mget_mset_other _ _ _ (Ne.symm hak)]
      rfl

/-- An address lies in one of the ranges. -/
def covers (rs : List (Nat × Nat)) (a : Nat) : Prop := ∃ r ∈ rs, r.1 ≤ a ∧ a < r.2

theorem covers_carve (rs : List (Nat × Nat)) (b a : Nat) : covers (carve rs b) a ↔ covers rs a ∧ a ≠ b := by
  have one (r : Nat × Nat) : (∃ q ∈ (if r.1 ≤ b && b < r.2 then ([(r.1, b), (b + 1, r.2)] : List (Nat × Nat)).filter fun q => q.1 < q.2 else [r]),
      q.1 ≤ a ∧ a < q.2) ↔ (r.1 ≤ a ∧ a < r.2) ∧ a ≠ b := by
    split
    · rename_i h
      simp only [Bool.and_eq_true, decide_eq_true_eq] at h
      simp only [List.mem_filter, List.mem_cons, List.not_mem_nil, or_false, decide_eq_true_eq]
      constructor
      · rintro ⟨q, ⟨rfl | rfl, -⟩, h1, h2⟩
        · exact ⟨⟨h1, h2.trans h.2⟩, by simpa using h2.ne⟩
        · exact ⟨⟨by simp only at h1; omega, h2⟩, by simp only at h1; omega⟩
      · rintro ⟨⟨h1, h2⟩, hne⟩
        obtain hlt | hgt := Nat.lt_or_gt_of_ne hne
        · exact ⟨(r.1, b), ⟨.inl rfl, by simp only; omega⟩, h1, hlt⟩
        · exact ⟨(b + 1, r.2), ⟨.inr rfl, by simp only; omega⟩, hgt, h2⟩
    · rename_i h
      simp only [Bool.and_eq_true, decide_eq_true_eq] at h
      simp only [List.mem_singleton, exists_eq_left]
      exact ⟨fun hr => ⟨hr, fun e => h (e ▸ hr)⟩, And.left⟩
  simp only [covers, carve, List.mem_flatMap]
  constructor
  · rintro ⟨q, ⟨r, hr, hq⟩, hqa⟩
    obtain ⟨hra, hne⟩ := (one r).1 ⟨q, hq, hqa⟩
    exact ⟨⟨r, hr, hra⟩, hne⟩
  · rintro ⟨⟨r, hr, hra⟩, hne⟩
    obtain ⟨q, hq, hqa⟩ := (one r).2 ⟨hra, hne⟩
    exact ⟨q, ⟨r, hr, hq⟩, hqa⟩

theorem covers_foldl_carve (bs : List Nat) (rs : List (Nat × Nat)) (a : Nat) : covers (bs.foldl carve rs) a ↔ covers rs a ∧ a ∉ bs := by
  induction bs generalizing rs with
  | nil => simp
  | cons b bs ih => rw [List.foldl_cons, ih, covers_carve, List.mem_cons, not_or, and_assoc]

/-! The parts of a tile that a write changes. -/

/-- A tile with scratchpad bytes, undefined and left ranges, marks and parity of its own. -/
structure Tile.WroteFrom (x z : Tile) : Prop where
  rest : z = { x with spad := z.spad, undef := z.undef, left := z.left, marks := z.marks, parity := z.parity, parityDue := z.parityDue }

theorem Tile.WroteFrom.refl (x : Tile) : x.WroteFrom x := ⟨rfl⟩

theorem Tile.WroteFrom.intro (x : Tile) (sp : List Host.Cell) (un : List (Nat × Nat)) (le : List (Nat × Nat × Nat)) (ms : Map WordMark)
    (pa : Map ParityWord) (du : Map (BitVec 64)) :
    x.WroteFrom { x with spad := sp, undef := un, left := le, marks := ms, parity := pa, parityDue := du } := ⟨rfl⟩

theorem Tile.WroteFrom.trans {x y z : Tile} (h : x.WroteFrom y) (h' : y.WroteFrom z) : x.WroteFrom z := ⟨by
  have hz := h'.rest
  rw [h.rest] at hz
  exact hz⟩

/-- The copy of a parity word's old value changes the parity alone. -/
theorem Tile.keepParity_eq (x : Tile) (k : Nat) (mask : BitVec 64) : ∃ p d, x.keepParity k mask = { x with parity := p, parityDue := d } := by
  unfold Tile.keepParity
  dsimp only
  split <;> exact ⟨_, _, rfl⟩

theorem Tile.writeMark_wrote (x : Tile) (w : LocalWrite) (old : Vec) (k : Nat) : x.WroteFrom (x.writeMark w old k) := by
  unfold Tile.writeMark
  dsimp only
  split
  · exact .intro ..
  · split
    · exact .intro ..
    · split
      · exact .intro ..
      · exact .intro x _ x.undef x.left _ x.parity x.parityDue

/-- The words of a write have their parity kept. -/
def Tile.keptParity (x : Tile) (w : LocalWrite) : Tile := (wordsIn w.bytes).foldl (fun z k => z.keepParity k (maskIn w.bytes k)) x

theorem Tile.keptParity_eq (x : Tile) (w : LocalWrite) : ∃ p d, x.keptParity w = { x with parity := p, parityDue := d } := by
  refine List.foldlRecOn (motive := fun z : Tile => ∃ p d, z = { x with parity := p, parityDue := d }) _ _ ⟨_, _, rfl⟩ ?_
  rintro _ ⟨p, d, rfl⟩ k -
  obtain ⟨p', d', h⟩ := Tile.keepParity_eq { x with parity := p, parityDue := d } k (maskIn w.bytes k)
  exact ⟨p', d', h⟩

/-- The bytes of a write stand, and are neither undefined nor left by a context. -/
def Tile.putWrite (x : Tile) (w : LocalWrite) : Tile :=
  { x with spad := putCells x.spad w.bytes, undef := if x.undef.isEmpty then [] else (w.bytes.map (·.1)).foldl carve x.undef,
           left := if x.left.isEmpty then [] else (w.bytes.map (·.1)).foldl carveLeft x.left }

theorem Tile.applyWrite_eq (x : Tile) (w : LocalWrite) : x.applyWrite w =
    (wordsIn (w.added x).bytes).foldl (fun z k => z.writeMark (w.added x) (x.spadWord k) k) ((x.keptParity (w.added x)).putWrite (w.added x)) := rfl

theorem Tile.applyWrite_wrote (x : Tile) (w : LocalWrite) : x.WroteFrom (x.applyWrite w) := by
  rw [Tile.applyWrite_eq]
  refine List.foldlRecOn (motive := x.WroteFrom) _ _ ?_ fun z hz k _ => hz.trans (z.writeMark_wrote ..)
  obtain ⟨p, d, h⟩ := x.keptParity_eq (w.added x)
  rw [h]
  exact ⟨rfl⟩

/-- A sequence of writes. -/
def Tile.applyWrites (x : Tile) (ws : List LocalWrite) : Tile := ws.foldl (fun (z : Tile) w => z.applyWrite w) x

theorem Tile.applyWrites_wrote (x : Tile) (ws : List LocalWrite) : x.WroteFrom (x.applyWrites ws) :=
  List.foldlRecOn (motive := x.WroteFrom) ws _ (.refl x) fun z hz w _ => hz.trans (z.applyWrite_wrote w)

/-! Stores into words whose cells hold what was stored. -/

/-- No word outside the retired banks has a wrong cell. -/
def Tile.sound (x : Tile) : Prop := ∀ k, x.retiredBanks.getLsbD (k % 16) = false → (x.mark k).checks = none ∧ (x.mark k).wrong = 0

/-- A store that brings no check bits into such words changes marks alone, and leaves them so. -/
theorem Tile.writeMark_sound (x : Tile) (w : LocalWrite) (old : Vec) (k : Nat) (hx : x.sound) (hw : w.checks = none) :
    (x.writeMark w old k).sound ∧ (x.writeMark w old k).spad = x.spad ∧ (x.writeMark w old k).undef = x.undef := by
  unfold Tile.writeMark
  dsimp only
  split
  · rename_i hr
    refine ⟨fun j hj => ?_, rfl, rfl⟩
    have hne : k ≠ j := by
      rintro rfl
      exact absurd (hr.symm.trans hj) (by decide)
    simpa [Tile.mark, mget_mset_other _ _ _ hne] using hx j hj
  · rename_i hr
    obtain ⟨hc, hz⟩ := hx k (by simpa using hr)
    rw [hw]
    dsimp only
    rw [if_pos (by simp [hc, hz])]
    refine ⟨fun j hj => ?_, rfl, rfl⟩
    by_cases hkj : k = j
    · subst hkj; simp [Tile.mark]
    · simpa [Tile.mark, mget_mset_other _ _ _ hkj] using hx j hj

/-- A plain store: its bytes stand, and what it covers is defined. -/
theorem Tile.applyWrite_stores (x : Tile) (w : LocalWrite) (hx : x.sound) (ha : w.add = false) (hc : w.checks = none)
    (hn : (w.bytes.map (·.1)).Nodup) : (x.applyWrite w).sound ∧
    (∀ a, byteAt (x.applyWrite w).spad a = (w.bytes.lookup a).getD (byteAt x.spad a)) ∧
    ∀ a, covers (x.applyWrite w).undef a ↔ covers x.undef a ∧ w.bytes.lookup a = none := by
  have hadd : w.added x = w := by simp [LocalWrite.added, ha]
  obtain ⟨p, d, hp⟩ := x.keptParity_eq w
  rw [Tile.applyWrite_eq, hadd, hp]
  obtain ⟨hs, hspad, hundef⟩ : (_ : Tile).sound ∧ (_ : Tile).spad = putCells x.spad w.bytes ∧
      (_ : Tile).undef = if x.undef.isEmpty then [] else (w.bytes.map (·.1)).foldl carve x.undef :=
    List.foldlRecOn (motive := fun z : Tile => z.sound ∧ z.spad = putCells x.spad w.bytes ∧
      z.undef = if x.undef.isEmpty then [] else (w.bytes.map (·.1)).foldl carve x.undef) (wordsIn w.bytes)
      (fun z k => z.writeMark w (x.spadWord k) k) (b := Tile.putWrite { x with parity := p, parityDue := d } w)
      ⟨hx, rfl, rfl⟩ fun z hz k _ => by
        obtain ⟨h1, h2, h3⟩ := z.writeMark_sound w (x.spadWord k) k hz.1 hc
        exact ⟨h1, h2.trans hz.2.1, h3.trans hz.2.2⟩
  refine ⟨hs, fun a => by rw [hspad, byteAt_putCells _ _ hn], fun a => ?_⟩
  rw [hundef, lookup_eq_none_iff_notMem_keys]
  split
  · rename_i he
    simp [covers, List.isEmpty_iff.1 he]
  · exact covers_foldl_carve ..

/-- Plain stores in order: each byte is that of the last store that names it, and what no store names stays undefined. -/
theorem Tile.applyWrites_stores (ws : List LocalWrite) (x : Tile) (hx : x.sound)
    (h : ∀ w ∈ ws, w.add = false ∧ w.checks = none ∧ (w.bytes.map (·.1)).Nodup) (a : Nat) :
    byteAt (x.applyWrites ws).spad a = ws.foldl (fun b w => (w.bytes.lookup a).getD b) (byteAt x.spad a) ∧
    (covers (x.applyWrites ws).undef a ↔ covers x.undef a ∧ ∀ w ∈ ws, w.bytes.lookup a = none) := by
  induction ws generalizing x with
  | nil => simp [Tile.applyWrites]
  | cons w ws ih =>
    obtain ⟨⟨ha, hc, hn⟩, h⟩ := List.forall_mem_cons.1 h
    obtain ⟨hs, hb, hu⟩ := x.applyWrite_stores w hx ha hc hn
    obtain ⟨hb', hu'⟩ := ih (x.applyWrite w) hs h
    refine ⟨hb'.trans (by rw [hb a, List.foldl_cons]), hu'.trans ?_⟩
    rw [hu a, List.forall_mem_cons, and_assoc]

end Sys2Proof.Machine
end

