-- ==== Sys2Proof/Proofs/TilesChangePower.lean ====
section
/-! O45: wakes, entries and the replacement of a tile. -/
namespace Sys2Proof.Machine

@[simp] theorem State.refreshPower_tiles (s : State) : s.refreshPower.tiles = s.tiles := by unfold State.refreshPower; split <;> rfl
@[simp] theorem State.refreshPower_mem (s : State) : s.refreshPower.mem = s.mem := by unfold State.refreshPower; split <;> rfl
@[simp] theorem State.refreshPower_sheaf (s : State) : s.refreshPower.sheaf = s.sheaf := by unfold State.refreshPower; split <;> rfl
@[simp] theorem State.refreshPower_tile (s : State) (t : Nat) : s.refreshPower.tile t = s.tile t := by simp [State.tile]

/-! Wakes (R18, R19). -/

theorem State.wake_asleep (s : State) (t : Nat) (hm : (s.tile t).move = .none) (hp : (s.tile t).power ≠ .active) :
    s.wake t = s.setTile t { s.tile t with move := .waking (s.gtick + wakeTicks (s.tile t).power) } := by
  simp [State.wake, hm, hp, State.modTile]

theorem State.wake_awake (s : State) (t : Nat) (hm : (s.tile t).move = .none) (hp : (s.tile t).power = .active) : s.wake t = s := by
  simp [State.wake, hm, hp]

theorem State.tileWake_any (s : State) (t x : Nat) (d : Nat → Nat → List Nat) (hx : 64 ≤ x) : s.tileWake t x d = s.wake t :=
  if_neg (Nat.not_lt.2 hx)

/-- A wake for a context that does not hold the tile is none. -/
theorem State.tileWake_other (s : State) (t x : Nat) (d : Nat → Nat → List Nat) (hx : x < 64) (hc : (s.tile t).ctx ≠ some x) :
    s.tileWake t x d = s := by
  simp [State.tileWake, hx, hc]

theorem State.tileWake_unchosen (s : State) (t x : Nat) (d : Nat → Nat → List Nat) (hx : x < 64) (hc : (s.tile t).ctx = some x)
    (hk : (s.ctx x).chosen = none) : s.tileWake t x d = s.wake t := by
  simp [State.tileWake, hx, hc, hk]

theorem State.tileWake_chosen (s : State) (t x k : Nat) (d : Nat → Nat → List Nat) (hx : x < 64) (hc : (s.tile t).ctx = some x)
    (hk : (s.ctx x).chosen = some k) : s.tileWake t x d = if t ∈ d x k then s.wake t else s := by
  simp [State.tileWake, hx, hc, hk]

/-! The end of a wake (R18, R85, R294). -/

/-- A transaction that is open is discarded: besides the log and the records that wait the tile's journal changes alone, and is idle. -/
theorem State.discardJournal_eq (s : State) (t : Nat) : ∃ f lg ds, (f (s.journal t)).st = .idle ∧
    s.discardJournal t = { s.modJournal t f with log := lg, discards := ds } := by
  unfold State.discardJournal State.journalDiscard
  by_cases h : (s.journal t).st = .idle
  · exact ⟨fun j => { j with paused := false }, s.log, s.discards, h, by simp only [h, if_true]; rfl⟩
  · exact ⟨fun j => { code := 0x0A02, idleAt := j.idleAt }, _, _, rfl, by simp only [h, if_false]; rfl⟩

theorem State.discardJournal_tile (s : State) (t : Nat) : ∃ j : Journal, j.st = .idle ∧
    ∀ k, (s.discardJournal t).tile k = if t = k then { s.tile t with journal := j } else s.tile k := by
  obtain ⟨f, lg, ds, hf, h⟩ := s.discardJournal_eq t
  exact ⟨_, hf, fun k => by rw [h]; exact s.tile_modTile t k fun z => { z with journal := f z.journal }⟩

@[simp] theorem State.discardJournal_mem (s : State) (t : Nat) : (s.discardJournal t).mem = s.mem := by
  obtain ⟨f, lg, ds, -, h⟩ := s.discardJournal_eq t; rw [h]; rfl
@[simp] theorem State.discardJournal_sheaf (s : State) (t : Nat) : (s.discardJournal t).sheaf = s.sheaf := by
  obtain ⟨f, lg, ds, -, h⟩ := s.discardJournal_eq t; rw [h]; rfl

/-- A tile that has woken from OFF, before the writes that it held. -/
def Tile.fromOff (z : Tile) : Tile :=
  let x : Tile := { z with power := .active, move := .none }
  { x.lose with undef := [(0, 0x200000)], wake := z.wake + 1, shadow := z.shadow, inbound := z.inbound.filter (·.issuer != winnowIssuer) }

/-- Winnow's writes that a tile holds. -/
def Tile.held (z : Tile) : List LocalWrite := (z.inbound.filter fun e => e.issuer == winnowIssuer).map (·.write)

theorem State.wakeComplete_kept (s : State) (t n : Nat) (hm : (s.tile t).move = .waking n) (hp : (s.tile t).power ≠ .off) :
    s.wakeComplete t = (s.setTile t { s.tile t with power := .active, move := .none }).refreshPower := by
  simp [State.wakeComplete, hm, hp]

theorem State.wakeComplete_off (s : State) (t n : Nat) (hm : (s.tile t).move = .waking n) (hp : (s.tile t).power = .off) :
    s.wakeComplete t = (s.setTile t ((s.tile t).fromOff.applyWrites (s.tile t).held)).refreshPower.discardJournal t := by
  simp only [State.wakeComplete, hm, hp, beq_self_eq_true, if_true]
  rfl

/-- The tile after its wake from OFF: Winnow's writes have performed on it, and its journal is idle. -/
theorem State.wakeComplete_off_tile (s : State) (t n : Nat) (hm : (s.tile t).move = .waking n) (hp : (s.tile t).power = .off) :
    ∃ j : Journal, j.st = .idle ∧ ∀ k, (s.wakeComplete t).tile k =
      if t = k then { (s.tile t).fromOff.applyWrites (s.tile t).held with journal := j } else s.tile k := by
  obtain ⟨j, hj, h⟩ := (s.setTile t ((s.tile t).fromOff.applyWrites (s.tile t).held)).refreshPower.discardJournal_tile t
  refine ⟨j, hj, fun k => ?_⟩
  rw [s.wakeComplete_off t n hm hp, h]
  simp only [State.refreshPower_tile, State.tile_setTile]
  split <;> simp_all

theorem State.wakeComplete_others (s : State) (t n : Nat) (hm : (s.tile t).move = .waking n) :
    (∀ k, k ≠ t → (s.wakeComplete t).tile k = s.tile k) ∧ (s.wakeComplete t).mem = s.mem := by
  by_cases hp : (s.tile t).power = .off
  · obtain ⟨j, -, h⟩ := s.wakeComplete_off_tile t n hm hp
    refine ⟨fun k hk => by rw [h, if_neg hk.symm], ?_⟩
    rw [s.wakeComplete_off t n hm hp]
    simp
  · rw [s.wakeComplete_kept t n hm hp]
    exact ⟨fun k hk => by simp [State.tile_setTile, hk.symm], by simp⟩

theorem State.wakeComplete_power (s : State) (t n : Nat) (hm : (s.tile t).move = .waking n) :
    ((s.wakeComplete t).tile t).power = .active ∧ ((s.wakeComplete t).tile t).move = .none := by
  by_cases hp : (s.tile t).power = .off
  · obtain ⟨j, -, h⟩ := s.wakeComplete_off_tile t n hm hp
    rw [h, if_pos rfl, ((s.tile t).fromOff.applyWrites_wrote (s.tile t).held).rest]
    exact ⟨rfl, rfl⟩
  · rw [s.wakeComplete_kept t n hm hp]
    simp

/-- From OFF the tile wakes empty but for the words that Winnow has written since. -/
theorem State.wakeComplete_from_off (s : State) (t n : Nat) (hm : (s.tile t).move = .waking n) (hp : (s.tile t).power = .off) :
    let z := s.tile t
    let u := s.wakeComplete t
    (u.tile t).inbound = z.inbound.filter (fun e => e.issuer != winnowIssuer) ∧
    (z.held = [] → (u.tile t).spad = [] ∧ (u.tile t).undef = [(0, 0x200000)]) ∧
    ((∀ w ∈ z.held, w.add = false ∧ w.checks = none ∧ (w.bytes.map (·.1)).Nodup) → ∀ a,
      byteAt (u.tile t).spad a = z.held.foldl (fun b w => (w.bytes.lookup a).getD b) 0 ∧
      (a < 0x200000 → (covers (u.tile t).undef a ↔ ∀ w ∈ z.held, w.bytes.lookup a = none))) ∧
    (u.tile t).wake = z.wake + 1 ∧ (u.tile t).shadow = z.shadow ∧ (u.tile t).overlays = [] ∧ (u.seq t 0).l1 = [] ∧ (u.seq t 0).tlb = [] ∧
    (u.seq t 1).l1 = [] ∧ (u.seq t 1).tlb = [] ∧ (u.tile t).journal.st = .idle ∧ (u.tile t).mram = z.mram ∧ (u.tile t).rowMap = z.rowMap := by
  intro z u
  obtain ⟨j, hj, h⟩ := s.wakeComplete_off_tile t n hm hp
  have hu : u.tile t = { z.fromOff.applyWrites z.held with journal := j } := (h t).trans (if_pos rfl)
  have hw := (z.fromOff.applyWrites_wrote z.held).rest
  have hempty : z.held = [] → z.fromOff.applyWrites z.held = z.fromOff := fun he => by rw [he]; rfl
  refine ⟨by rw [hu, hw]; rfl, fun he => by rw [hu, hempty he]; exact ⟨rfl, rfl⟩, fun hst a => ?_, ?_⟩
  · have hsound : z.fromOff.sound := fun k _ => ⟨rfl, rfl⟩
    obtain ⟨hb, hc⟩ := Tile.applyWrites_stores z.held z.fromOff hsound hst a
    rw [hu]
    refine ⟨hb, fun ha => hc.trans (and_iff_right ?_)⟩
    exact ⟨(0, 0x200000), by simp [Tile.fromOff], Nat.zero_le _, ha⟩
  · have hseq (q : Nat) : u.seq t q = z.fromOff.seq q := by rw [State.seq, hu, hw]; rfl
    rw [hseq, hseq, hu, hw]
    exact ⟨rfl, rfl, rfl, rfl, rfl, rfl, rfl, hj, rfl, rfl⟩

/-! The end of an entry (R18, R19). -/

theorem State.entryComplete_tile (s : State) (t n : Nat) (p : PowerState) (hm : (s.tile t).move = .entering p n) :
    ((s.entryComplete t).tile t = if p = .off then ({ s.tile t with power := p, move := .none } : Tile).lose
      else { s.tile t with power := p, move := .none }) ∧
    (∀ k, k ≠ t → (s.entryComplete t).tile k = s.tile k) ∧ (s.entryComplete t).mem = s.mem := by
  unfold State.entryComplete
  refine ⟨?_, fun k hk => ?_, ?_⟩
  · rw [State.refreshPower_tile, State.tile_modTile_same, hm]
  · rw [State.refreshPower_tile, State.tile_modTile_other _ _ hk.symm]
  · rw [State.refreshPower_mem]; rfl

/-! A spare takes over (R14, R355). -/

/-- A report of lost weights stands beside tiles, contexts, logs and the agenda: it is no change of the Sheaf. -/
theorem State.weightsLost_sheaf (s : State) (t row : Nat) (i : Bool) : (s.weightsLost t row i).sheaf = s.sheaf := by
  unfold State.weightsLost
  dsimp only
  split
  · simp
  · rfl

/-- The record of the Sheaf when a spare has taken tile `t` over, `left` having been left on its die. -/
def Sheaf.spared (h : Sheaf) (t left : Nat) : Sheaf :=
  { h with tileMap := (t, 100 - left) :: h.tileMap.filter (·.1 != t), spares := (dieOf t, left - 1) :: h.spares.filter (·.1 != dieOf t),
           health := mset 0 h.health t 0, engines := h.engines.filter fun e => e.1 / 2 != t, vregs := h.vregs.filter fun e => e.1 / 2 != t,
           tregs := h.tregs.filter fun e => e.1 / 2 != t, lslots := h.lslots.filter fun e => e.1 / 2 != t }

/-- The rows of a failed tile that cannot be read are reported. -/
def State.rowsReported (s : State) (t : Nat) : State :=
  (s.tile t).badRows.foldl (fun (u : State) row => u.weightsLost t row ((s.tile t).rowInjected row)) s

/-- The spare stands in the failed tile's place. -/
def State.spareIn (s : State) (t : Nat) : State := (((s.rowsReported t).setTile t (s.tile t).spare).discardJournal t).refreshPower

theorem State.spareIn_sheaf (s : State) (t : Nat) : (s.spareIn t).sheaf = s.sheaf := by
  rw [State.spareIn, State.refreshPower_sheaf, State.discardJournal_sheaf]
  exact foldl_keeps State.sheaf _ (fun u _ => u.weightsLost_sheaf ..) _ s

theorem State.spareIn_tile (s : State) (t : Nat) : ∃ j : Journal, (s.spareIn t).tile t = { (s.tile t).spare with journal := j } := by
  obtain ⟨j, -, hj⟩ := ((s.rowsReported t).setTile t (s.tile t).spare).discardJournal_tile t
  refine ⟨j, ?_⟩
  rw [State.spareIn, State.refreshPower_tile, hj, if_pos rfl, State.tile_setTile, if_pos rfl]

theorem State.replaceTile_eq (s : State) (t : Nat) (hf : (s.tile t).failed = true) (hl : 0 < s.sparesLeft (dieOf t))
    (hc : (s.tile t).ctx = none) : s.replaceTile t = (s.spareIn t).changeSheaf fun h => h.spared t (s.sparesLeft (dieOf t)) := by
  simp only [State.replaceTile, hf, hc, Nat.ne_of_gt hl, Bool.not_true, Bool.false_or, decide_false, Bool.false_eq_true, if_false, Option.isSome_none]
  rfl

/-- One spare fewer is a change of the record. -/
theorem Sheaf.spared_ne (h : Sheaf) (t : Nat) (hl : 0 < (h.spares.lookup (dieOf t)).getD 4) :
    h.spared t ((h.spares.lookup (dieOf t)).getD 4) ≠ h := by
  intro he
  have hs := congrArg (fun h : Sheaf => (h.spares.lookup (dieOf t)).getD 4) he
  simp [Sheaf.spared] at hs
  omega

theorem State.replaceTile_tile (s : State) (t : Nat) (hf : (s.tile t).failed = true) (hl : 0 < s.sparesLeft (dieOf t))
    (hc : (s.tile t).ctx = none) : ∃ j : Journal, (s.replaceTile t).tile t = { (s.tile t).spare with journal := j } := by
  obtain ⟨j, hj⟩ := s.spareIn_tile t
  exact ⟨j, by rw [s.replaceTile_eq t hf hl hc, State.tile, State.changeSheaf_tiles, ← State.tile, hj]⟩

theorem State.replaceTile_sheaf (s : State) (t : Nat) (hf : (s.tile t).failed = true) (hl : 0 < s.sparesLeft (dieOf t))
    (hc : (s.tile t).ctx = none) :
    (s.replaceTile t).sheaf = { s.sheaf.spared t (s.sparesLeft (dieOf t)) with version := s.sheaf.version + 1 } := by
  have hne := s.sheaf.spared_ne t hl
  rw [← s.spareIn_sheaf t] at hne
  rw [s.replaceTile_eq t hf hl hc, State.changeSheaf_sheaf _ _ (by rw [State.spareIn_sheaf] at hne ⊢; exact hne), State.spareIn_sheaf]
  rfl

/-- While a context holds the failed tile its replacement waits. -/
theorem State.replaceTile_waits (s : State) (t : Nat) (hc : (s.tile t).ctx ≠ none) :
    (s.replaceTile t).tiles = s.tiles ∧ (s.replaceTile t).sheaf = s.sheaf := by
  unfold State.replaceTile
  dsimp only
  split
  · exact ⟨rfl, rfl⟩
  · rw [if_pos (Option.isSome_iff_ne_none.2 hc)]
    exact ⟨rfl, rfl⟩

/-- Settles O45: wakes and their ends (R18, R19, R294), entries, and the spare that takes over (R355). -/
theorem tilesChangePower : Obligations.TilesChangePower := by
  unfold Obligations.TilesChangePower
  intro s t z
  refine ⟨⟨rfl, rfl, rfl⟩, fun hx hm => ⟨fun hp => ?_, fun hp => ?_⟩,
    fun hx hm hp => ⟨fun hc => ?_, fun hc => ⟨fun hk => ?_, fun k hk => ?_⟩⟩,
    fun n hm => ⟨s.wakeComplete t, rfl, ?_⟩, fun p n hm => ⟨s.entryComplete t, rfl, ?_⟩,
    fun hf hl => ⟨fun hc => ⟨s.replaceTile t, rfl, ?_⟩, fun hc => ?_⟩, fun hf => ?_⟩
  · exact congrArg Host.Outcome.next ((s.tileWake_any t _ _ hx).trans (s.wake_asleep t hm hp))
  · exact congrArg Host.Outcome.next ((s.tileWake_any t _ _ hx).trans (s.wake_awake t hm hp))
  · exact congrArg Host.Outcome.next (s.tileWake_other t _ _ hx hc)
  · exact congrArg Host.Outcome.next ((s.tileWake_unchosen t _ _ hx hc hk).trans (s.wake_asleep t hm hp))
  · have hw := s.tileWake_chosen t _ k s.declared hx hc hk
    exact ⟨fun hd => congrArg Host.Outcome.next ((hw.trans (if_pos hd)).trans (s.wake_asleep t hm hp)),
      fun hd => congrArg Host.Outcome.next (hw.trans (if_neg hd))⟩
  · obtain ⟨hpow, hmove⟩ := s.wakeComplete_power t n hm
    obtain ⟨hother, hmem⟩ := s.wakeComplete_others t n hm
    exact ⟨hpow, hmove, hother, hmem, fun hp => by rw [s.wakeComplete_kept t n hm hp]; simp [z], s.wakeComplete_from_off t n hm⟩
  · obtain ⟨htile, hother, hmem⟩ := s.entryComplete_tile t n p hm
    refine ⟨hother, hmem, fun hp => htile.trans (if_neg hp), fun hp => htile.trans ((if_pos hp).trans ?_)⟩
    rw [hp]
    rfl
  · obtain ⟨j, ht⟩ := s.replaceTile_tile t hf hl hc
    have hs := s.replaceTile_sheaf t hf hl hc
    rw [ht, State.sparesLeft, hs]
    exact ⟨rfl, rfl, rfl, rfl, rfl, rfl, rfl, rfl, by simp [Sheaf.spared], by simp [Sheaf.spared]⟩
  · exact ⟨s.replaceTile t, rfl, s.replaceTile_waits t hc⟩
  · show Host.Outcome.next (s.replaceTile t) = _
    simp [State.replaceTile, show (s.tile t).failed = false from hf]

end Sys2Proof.Machine
end

