-- ==== Sys2Proof/Proofs/LinksAndChannels.lean ====
section
/-! SUPPORT. Links retrained and lost, and the loss of an LPDDR-6 channel (R388, R393, R394). -/
namespace Sys2Proof.Machine

/-! A fault changes nothing of the Sheaf. -/

theorem State.modTile_sheaf (s : State) (t : Nat) (f : Tile → Tile) : (s.modTile t f).sheaf = s.sheaf := rfl
theorem State.modSeq_sheaf (s : State) (t q : Nat) (f : Seq → Seq) : (s.modSeq t q f).sheaf = s.sheaf := rfl

@[simp] theorem State.joinRegion_sheaf (s : State) (x t : Nat) : (s.joinRegion x t).sheaf = s.sheaf := by
  unfold State.joinRegion
  dsimp only
  split <;> rfl

@[simp] theorem State.partitionFault_sheaf (s : State) (x t q : Nat) (f : FaultInfo) (e : Bool) : (s.partitionFault x t q f e).sheaf = s.sheaf := by
  simp [State.partitionFault]

@[simp] theorem State.recordOnce_sheaf (s : State) (x : Nat) (r : FaultRecord) (old : Option FaultRecord) :
    (s.recordOnce x r old).sheaf = s.sheaf := by
  cases old with
  | none => exact s.record_sheaf x r
  | some o => rfl

@[simp] theorem State.takeLocal_sheaf (s : State) (t q : Nat) (f : FaultInfo) (due : Nat) (old : Option FaultRecord) :
    (s.takeLocal t q f due old).sheaf = s.sheaf := by
  unfold State.takeLocal
  dsimp only
  split
  · exact State.recordOnce_sheaf ..
  · split
    · exact State.recordOnce_sheaf ..
    · split
      · exact (State.endPartition_sheaf ..).trans (State.recordOnce_sheaf ..)
      · exact State.recordOnce_sheaf ..

@[simp] theorem State.takeFault_sheaf (s : State) (t q : Nat) (f : FaultInfo) (due : Nat) : (s.takeFault t q f due).sheaf = s.sheaf := by
  unfold State.takeFault
  dsimp only
  split
  · split <;> rfl
  · split
    · exact State.partitionFault_sheaf ..
    · split <;> simp

@[simp] theorem State.holdFault_sheaf (s : State) (t q : Nat) (f : FaultInfo) : (s.holdFault t q f).sheaf = s.sheaf := by
  unfold State.holdFault
  exact (State.modSeq_sheaf ..).trans (State.record_sheaf ..)

@[simp] theorem State.takeDue_sheaf (s : State) (t q : Nat) (fs : List FaultInfo) : (s.takeDue t q fs).sheaf = s.sheaf := by
  unfold State.takeDue
  split
  · rfl
  · refine (foldl_keeps State.sheaf _ (fun u f => ?_) fs _).trans rfl
    dsimp only
    split
    · exact u.holdFault_sheaf t q f
    · exact u.takeFault_sheaf t q f _

/-! The loss of a peer (R394). -/

@[simp] theorem State.loseCommands_sheaf (n : Nat) (s : State) (t q c p : Nat) : (s.loseCommands t q c p n).sheaf = s.sheaf := by
  induction n generalizing s with
  | zero => rfl
  | succ n ih =>
    unfold State.loseCommands
    dsimp only
    split
    · rfl
    · rw [ih, State.takeDue_sheaf]; rfl

theorem State.loseAll_sheaf (s : State) (t p : Nat) : (s.loseAll t p).sheaf = s.sheaf :=
  foldl_keeps State.sheaf _ (fun u _ => u.loseCommands_sheaf ..) _ s

/-- What a tile has of a package's data and commands goes as the package leaves. -/
def State.tileLosesPeer (s : State) (p now t : Nat) : State :=
  (s.modTile t fun z =>
    { z with a := z.a.losePeer p now, b := z.b.losePeer p now,
             shadow := z.shadow.map fun h => h.loseCommands p now { h with a := h.a.losePeer p now, b := h.b.losePeer p now } }).loseAll t p

theorem State.tileLosesPeer_sheaf (s : State) (p now t : Nat) : (s.tileLosesPeer p now t).sheaf = s.sheaf := by
  unfold State.tileLosesPeer
  exact (State.loseAll_sheaf ..).trans (State.modTile_sheaf ..)

/-- Every tile loses what it has of the package, after the beats on their way to it. -/
def State.tilesLosePeer (s : State) (p : Nat) : State :=
  (s.loseBeats p).tiles.foldl (fun (u : State) e => u.tileLosesPeer p (s.loseBeats p).gtick e.1) (s.loseBeats p)

theorem State.loseBeats_sheaf (s : State) (p : Nat) : (s.loseBeats p).sheaf = s.sheaf := by
  unfold State.loseBeats
  dsimp only
  rfl

theorem State.tilesLosePeer_sheaf (s : State) (p : Nat) : (s.tilesLosePeer p).sheaf = s.sheaf := by
  unfold State.tilesLosePeer
  refine (foldl_keeps State.sheaf _ (fun u e => ?_) _ _).trans (s.loseBeats_sheaf p)
  exact u.tileLosesPeer_sheaf p _ e.1

theorem State.losePeer_eq (s : State) (p : Nat) : s.losePeer p =
    { s.tilesLosePeer p with sheaf := { (s.tilesLosePeer p).sheaf with peers := (s.tilesLosePeer p).sheaf.peers.filter (·.1 != p) } } := rfl

/-- The package leaves the group; nothing else of the Sheaf changes. -/
theorem State.losePeer_sheaf (s : State) (p : Nat) : (s.losePeer p).sheaf = { s.sheaf with peers := s.sheaf.peers.filter (·.1 != p) } := by
  rw [State.losePeer_eq, ← s.tilesLosePeer_sheaf p]

/-! Links (R393). -/

theorem State.linkRetrain_slower (s : State) (l v : Nat) (hl : l < 8) (hon : s.sheaf.links.getLsbD l = true) (h0 : 0 < v)
    (hv : v < (s.sheaf.linkSpeeds.lookup l).getD 200) :
    s.linkRetrain l v = s.changeSheaf fun h => { h with linkSpeeds := mset 200 h.linkSpeeds l v } := by
  simp [State.linkRetrain, Nat.not_le.2 hl, hon, Nat.ne_of_gt h0, Nat.not_le.2 hv]

theorem Sheaf.slower_ne (h : Sheaf) (l v : Nat) (hv : v < (h.linkSpeeds.lookup l).getD 200) :
    ({ h with linkSpeeds := mset 200 h.linkSpeeds l v } : Sheaf) ≠ h := by
  intro he
  have hs := congrArg (fun h : Sheaf => (h.linkSpeeds.lookup l).getD 200) he
  rw [lookup_getD_eq_mget] at hv
  simp only [lookup_getD_eq_mget, mget_mset_same] at hs
  omega

theorem Sheaf.withoutLink_ne (h : Sheaf) (l : Nat) (hl : l < 8) (hon : h.links.getLsbD l = true) :
    ({ h with links := h.links &&& ~~~ (1#8 <<< l) } : Sheaf) ≠ h := by
  intro he
  have hs := congrArg (fun h : Sheaf => h.links.getLsbD l) he
  rw [hon] at hs
  simp [hl] at hs

theorem State.linkLoss_last (s : State) (l : Nat) (hl : l < 8) (hon : s.sheaf.links.getLsbD l = true) :
    s.linkLoss l 0 = s.changeSheaf fun h => { h with links := h.links &&& ~~~ (1#8 <<< l) } := by
  simp [State.linkLoss, Nat.not_le.2 hl, hon]

theorem State.linkLoss_peer (s : State) (l p : Nat) (hl : l < 8) (hon : s.sheaf.links.getLsbD l = true) (hp : 0 < p) :
    s.linkLoss l p = (s.losePeer (p - 1)).changeSheaf fun h => { h with links := h.links &&& ~~~ (1#8 <<< l) } := by
  simp [State.linkLoss, Nat.not_le.2 hl, hon, Nat.ne_of_gt hp]

/-! The loss of a channel (R388). -/

/-- Sectors that cannot be read any more are poisoned. -/
def State.poisonSectors (s : State) (ks : List Nat) : State := ks.foldl (fun (s : State) k =>
  { s with sectors := mset {} s.sectors k { s.sectorMark k with poison := some { code := 0x0505, addr := 64 * k, injected := false } } }) s

/-- Content goes with a channel: unreadable sectors are poisoned, and what lies above the new capacity is lost. -/
def State.withoutChannel (s : State) (c size : Nat) (ks : List Nat) : State :=
  let s := s.poisonSectors (ks.filter fun k => s.sheaf.channelOf k == c && 64 * k < size).dedup
  { s with mem := s.mem.filter fun e => e.1 < size || 0x8000000000 ≤ e.1,
           sectors := s.sectors.filter fun e => 64 * e.1 < size || 0x8000000000 ≤ 64 * e.1, rebuilding := false }

/-- What a live channel takes away. -/
def Sheaf.remaining (h : Sheaf) : Nat := h.populated / h.live.length * (h.live.length - 1)

/-- The record without a channel. -/
def Sheaf.withoutChannel (h : Sheaf) (c size : Nat) : Sheaf := { h with channels := h.channels &&& ~~~ (1#32 <<< c), populated := size }

theorem Sheaf.withoutChannel_ne (h : Sheaf) (c size : Nat) (hc : c < 32) (hon : h.channels.getLsbD c = true) : h.withoutChannel c size ≠ h := by
  intro he
  have hs := congrArg (fun h : Sheaf => h.channels.getLsbD c) he
  rw [hon] at hs
  simp [Sheaf.withoutChannel, hc] at hs

theorem State.withoutChannel_sheaf (s : State) (c size : Nat) (ks : List Nat) : (s.withoutChannel c size ks).sheaf = s.sheaf :=
  foldl_keeps State.sheaf (fun (s : State) (k : Nat) =>
    { s with sectors := mset {} s.sectors k { s.sectorMark k with poison := some { code := 0x0505, addr := 64 * k, injected := false } } })
    (fun _ _ => rfl) (ks.filter fun k => s.sheaf.channelOf k == c && 64 * k < size).dedup s

theorem State.dropChannel_ends (s : State) (c : Nat) (ks : List Nat) (hc : c < 32) (hon : s.sheaf.channels.getLsbD c = true) :
    (s.dropChannel c ks).sheaf = { s.sheaf.withoutChannel c s.sheaf.remaining with version := s.sheaf.version + 1 } ∧
    (s.dropChannel c ks).rebuilding = false := by
  let u := (s.withoutChannel c s.sheaf.remaining ks).changeSheaf fun h => h.withoutChannel c s.sheaf.remaining
  have hs : (s.withoutChannel c s.sheaf.remaining ks).sheaf = s.sheaf := s.withoutChannel_sheaf ..
  have hne : (s.withoutChannel c s.sheaf.remaining ks).sheaf.withoutChannel c s.sheaf.remaining ≠ (s.withoutChannel c s.sheaf.remaining ks).sheaf := by
    rw [hs]; exact s.sheaf.withoutChannel_ne c _ hc hon
  have hu : u.sheaf = { s.sheaf.withoutChannel c s.sheaf.remaining with version := s.sheaf.version + 1 } := by
    show (State.changeSheaf _ _).sheaf = _
    rw [State.changeSheaf_sheaf _ _ hne, hs]; rfl
  have hr : u.rebuilding = false := by
    show (State.changeSheaf _ _).rebuilding = _
    rw [State.changeSheaf_eq _ _ hne, State.raiseSheaf_rebuilding]; rfl
  have hrec : ∃ f : State → Nat × Ctx → State, (∀ v e, (f v e).sheaf = v.sheaf ∧ (f v e).rebuilding = v.rebuilding) ∧
      s.dropChannel c ks = u.ctxs.foldl f u := by
    refine ⟨_, fun v e => ?_, rfl⟩
    split
    · exact ⟨v.record_sheaf .., v.record_rebuilding ..⟩
    · exact ⟨rfl, rfl⟩
  obtain ⟨f, hf, heq⟩ := hrec
  rw [heq]
  exact ⟨(foldl_keeps State.sheaf f (fun v e => (hf v e).1) _ u).trans hu, (foldl_keeps State.rebuilding f (fun v e => (hf v e).2) _ u).trans hr⟩

/-- Every bound context is to be saved first. -/
theorem State.channelLoss_saves (s : State) (c : Nat) (ks : List Nat) (hc : c < 32) (hon : s.sheaf.channels.getLsbD c = true)
    (hp : s.powerLost = false) (hs : s.allSaved = false) :
    s.channelLoss c ks = (((((s.ctxs.filter fun e => e.2.part = .running).map (·.1)).foldl (fun (u : State) x => u.endPartition x 0 0)
      { s with rebuilding := true }).after (1 + Config.serviceDelay ((((s.ctxs.filter fun e => e.2.part = .running).map (·.1)).foldl
        (fun (u : State) x => u.endPartition x 0 0) { s with rebuilding := true }).free) % 2400000000) .lpddrChannelLoss (c :: ks)).tickFree) := by
  rw [List.foldl_map, List.foldl_filter]
  simp [State.channelLoss, Nat.not_le.2 hc, hon, hp, hs]

end Sys2Proof.Machine
end

