-- ==== Sys2Proof/Proofs/TilesFail.lean ====
section
/-! SUPPORT. Tiles that fail and banks that are retired (R353, R355 to R357). -/
namespace Sys2Proof.Machine

/-! The health of a tile. -/

theorem nbit_add_pow (n k : Nat) (h : nbit n k = false) : nbit (n + 2 ^ k) k = true := by
  unfold nbit at h ⊢
  rw [Nat.add_div_right _ (Nat.two_pow_pos k)]
  simp only [beq_eq_false_iff_ne, beq_iff_eq] at h ⊢
  omega

theorem Sheaf.mark_version (h : Sheaf) (t k : Nat) : (h.mark t k).version = h.version := by
  unfold Sheaf.mark
  rfl

theorem State.raiseSheaf_health (s : State) : s.raiseSheaf.sheaf.health = s.sheaf.health := by rw [State.raiseSheaf_sheaf]

theorem Sheaf.mark_health (h : Sheaf) (t k : Nat) : nbit (mget 0 (h.mark t k).health t) k = true := by
  unfold Sheaf.mark
  dsimp only
  rw [mget_mset_same]
  split
  · assumption
  · rename_i hn
    exact nbit_add_pow _ _ (by simpa using hn)

/-- The slots of both sequencers of a tile are bound to the instances that survive (R356). -/
def Sheaf.bindSlots (h : Sheaf) (t a b : Nat) : Sheaf :=
  { h with engines := mset 0 (mset 0 h.engines (seqNumber t 0) (engineMapOf a)) (seqNumber t 1) (engineMapOf b) }

theorem Sheaf.stretch_cases (h : Sheaf) (t a b : Nat) : h.stretch t a b = h.bindSlots t a b ∨ h.stretch t a b = (h.bindSlots t a b).mark t 0 := by
  unfold Sheaf.stretch
  by_cases hc : (engineMapOf a = 0 && engineMapOf b = 0) = true
  · exact .inl (if_pos hc)
  · exact .inr (if_neg hc)

theorem Sheaf.mark_degraded (h : Sheaf) (t : Nat) (hd : nbit (mget 0 h.health t) 1 = true) : nbit (mget 0 (h.mark t 0).health t) 1 = true := by
  unfold Sheaf.mark
  dsimp only
  rw [mget_mset_same]
  split
  · exact hd
  · rename_i hn
    simp only [nbit, beq_iff_eq] at hd hn ⊢
    omega

/-- A tile that is bound anew stays DEGRADED. -/
theorem Sheaf.stretch_degraded (h : Sheaf) (t a b : Nat) (hd : nbit (mget 0 h.health t) 1 = true) :
    nbit (mget 0 (h.stretch t a b).health t) 1 = true := by
  obtain hs | hs := h.stretch_cases t a b <;> rw [hs]
  · exact hd
  · exact Sheaf.mark_degraded _ t hd

theorem Sheaf.stretch_version (h : Sheaf) (t a b : Nat) : (h.stretch t a b).version = h.version := by
  obtain hs | hs := h.stretch_cases t a b <;> rw [hs] <;> rfl

theorem Sheaf.stretch_engineMap (h : Sheaf) (t a b : Nat) :
    (h.stretch t a b).engineMap (2 * t) = engineMapOf a ∧ (h.stretch t a b).engineMap (2 * t + 1) = engineMapOf b := by
  have he : (h.stretch t a b).engines = (h.bindSlots t a b).engines := by
    obtain hs | hs := h.stretch_cases t a b <;> rw [hs]; rfl
  unfold Sheaf.engineMap
  rw [he, Sheaf.bindSlots]
  exact ⟨(mget_mset_other _ _ _ (by simp [seqNumber])).trans (mget_mset_same ..), mget_mset_same ..⟩

/-! The holder of a failed tile (R339, R355). -/

/-- The holder's end changes contexts and the agenda alone, and leaves what is owed to the Sheaf. -/
theorem State.haltHolder_keeps (s : State) (t : Nat) : (s.haltHolder t).sheaf = s.sheaf ∧ (s.haltHolder t).tiles = s.tiles ∧
    (s.haltHolder t).gtick = s.gtick ∧ s.agenda ⊆ (s.haltHolder t).agenda ∧ ∀ x, ((s.haltHolder t).ctx x).ackDue = (s.ctx x).ackDue := by
  unfold State.haltHolder
  split
  · rename_i y _
    refine ⟨s.endPartition_sheaf .., s.endPartition_tiles .., s.endPartition_gtick .., s.endPartition_agenda .., fun x => ?_⟩
    obtain ⟨p, e, h⟩ := s.endPartition_ctx y 3 0x0B02 x
    rw [h]
  · exact ⟨rfl, rfl, rfl, List.Subset.refl _, fun _ => rfl⟩

/-- The failure is reported to the context that holds the tile or has its image there. -/
def State.failureReported (s : State) (t : Nat) : State :=
  match (s.tile t).ctx.or ((s.tile t).shadow.map (·.ctx)) with
  | some x => s.record x { info := { code := 0x0B02, unit := 255 }, level := 6, tick := s.gtick, tile := t }
  | none => s

theorem State.failureReported_keeps (s : State) (t : Nat) : (s.failureReported t).sheaf = s.sheaf ∧ (s.failureReported t).gtick = s.gtick ∧
    s.agenda ⊆ (s.failureReported t).agenda ∧ (∀ x, ∃ rs, (s.failureReported t).ctx x = { s.ctx x with records := rs }) ∧
    ∃ late, (s.failureReported t).tile t = (s.tile t).movedRecords late ∨ (s.failureReported t).tile t = s.tile t := by
  unfold State.failureReported
  split
  · rename_i y _
    obtain ⟨late, hl⟩ := s.record_tile y { info := { code := 0x0B02, unit := 255 }, level := 6, tick := s.gtick, tile := t }
    exact ⟨s.record_sheaf .., s.record_gtick .., s.record_agenda .., fun x => s.record_ctx_any .., late, .inl (hl t)⟩
  · exact ⟨rfl, rfl, List.Subset.refl _, fun x => ⟨(s.ctx x).records, rfl⟩, [], .inr rfl⟩

/-! A spare is to take over (R355). -/

/-- A tile has failed, and this is reported. -/
def State.failedTile (s : State) (t : Nat) : State := (s.modTile t fun z => { z with failed := true }).failureReported t

/-- A failed tile, with its holder on the way to its halt. -/
def State.failing (s : State) (t : Nat) : State := (s.failedTile t).haltHolder t

theorem State.tileFails_spare (s : State) (t v : Nat) (also : Sheaf → Sheaf) (hl : 0 < s.sparesLeft (dieOf t)) (hf : (s.tile t).failed = false) :
    s.tileFails t v also = ((s.failing t).after (1 + Config.serviceDelay (s.failedTile t).free) .tileReplaced [t]).tickFree := by
  unfold State.tileFails
  rw [if_pos hl, if_neg (by simp [hf])]
  rfl

/-- A failure leaves the Sheaf; contexts have new records at most; of the tile it leaves retired banks and holder. -/
theorem State.failedTile_keeps (s : State) (t : Nat) : (s.failedTile t).sheaf = s.sheaf ∧ (s.failedTile t).gtick = s.gtick ∧
    s.agenda ⊆ (s.failedTile t).agenda ∧ (∀ x, ∃ rs, (s.failedTile t).ctx x = { s.ctx x with records := rs }) ∧
    ((s.failedTile t).tile t).failed = true ∧ ((s.failedTile t).tile t).retiredBanks = (s.tile t).retiredBanks ∧
    ((s.failedTile t).tile t).ctx = (s.tile t).ctx := by
  obtain ⟨hs, hg, ha, hc, late, ht⟩ := (s.modTile t fun z => { z with failed := true }).failureReported_keeps t
  rw [State.tile_modTile_same] at ht
  refine ⟨hs, hg, ha, hc, ?_⟩
  rw [State.failedTile]
  obtain h | h := ht <;> rw [h] <;> exact ⟨rfl, rfl, rfl⟩

theorem State.failing_keeps (s : State) (t : Nat) : (s.failing t).sheaf = s.sheaf ∧ (s.failing t).gtick = s.gtick ∧
    s.agenda ⊆ (s.failing t).agenda ∧ (∀ x, ((s.failing t).ctx x).ackDue = (s.ctx x).ackDue) ∧
    ((s.failing t).tile t).failed = true ∧ ((s.failing t).tile t).retiredBanks = (s.tile t).retiredBanks := by
  obtain ⟨hs1, hg1, ha1, hc1, hf, hb, -⟩ := s.failedTile_keeps t
  obtain ⟨hs2, ht2, hg2, ha2, hc2⟩ := (s.failedTile t).haltHolder_keeps t
  have htile : (s.failing t).tile t = (s.failedTile t).tile t := by rw [State.tile, State.failing, ht2, ← State.tile]
  refine ⟨hs2.trans hs1, hg2.trans hg1, fun _ he => ha2 (ha1 he), fun x => ?_, by rw [htile, hf], by rw [htile, hb]⟩
  obtain ⟨rs, hx⟩ := hc1 x
  exact (hc2 x).trans (by rw [hx])

/-- A running context on the failed tile is halted at context level. -/
theorem State.failing_halts (s : State) (t x : Nat) (hx : (s.tile t).ctx = some x) (he : (s.ctx x).ending = none) (hp : (s.ctx x).part = .running) :
    ((s.failing t).ctx x).ending = some (3, 0x0B02) ∧ ((s.failing t).ctx x).part = .halting := by
  obtain ⟨-, -, -, hc, -, -, htc⟩ := s.failedTile_keeps t
  obtain ⟨rs, hcx⟩ := hc x
  have hu : s.failing t = (s.failedTile t).endPartition x 3 0x0B02 := by rw [State.failing, State.haltHolder, htc, hx]
  obtain ⟨hp', he', -⟩ := (s.failedTile t).endPartition_toHalt x 3 0x0B02 (by rw [hcx]; exact hp) (by rw [hcx]; exact he)
  rw [hu]
  exact ⟨he', hp'⟩

theorem State.tileFails_keeps (s : State) (t v : Nat) (also : Sheaf → Sheaf) (hl : 0 < s.sparesLeft (dieOf t)) (hf : (s.tile t).failed = false) :
    (s.tileFails t v also).sheaf = s.sheaf ∧ s.agenda ⊆ (s.tileFails t v also).agenda ∧
    (∀ x, ((s.tileFails t v also).ctx x).ackDue = (s.ctx x).ackDue) ∧
    ((s.tileFails t v also).tile t).failed = true ∧ ((s.tileFails t v also).tile t).retiredBanks = (s.tile t).retiredBanks := by
  obtain ⟨hs, -, ha, hc, hfail, hb⟩ := s.failing_keeps t
  rw [s.tileFails_spare t v also hl hf]
  generalize s.failing t = u at hs ha hc hfail hb
  exact ⟨hs, fun _ he => subset_insertTimed _ _ (ha he), hc, hfail, hb⟩

/-- The replacement of a failed tile is planned. -/
theorem State.tileFails_plans (s : State) (t v : Nat) (also : Sheaf → Sheaf) (hl : 0 < s.sparesLeft (dieOf t)) (hf : (s.tile t).failed = false) :
    ∃ e ∈ (s.tileFails t v also).agenda, e.op = .tileReplaced ∧ e.args = [t] ∧ s.gtick < e.tick := by
  rw [s.tileFails_spare t v also hl hf]
  obtain ⟨e, he, hop, hargs, hlo, -⟩ := (s.failing t).planned_after (1 + Config.serviceDelay (s.failedTile t).free) .tileReplaced [t]
  obtain ⟨-, hg, -⟩ := s.failing_keeps t
  exact ⟨e, he, hop, hargs, by omega⟩

/-! A bank is retired (R353, R357). -/

/-- The state with another record of the Sheaf. -/
def State.withSheaf (s : State) (h : Sheaf) : State := { s with sheaf := h }

theorem State.withSheaf_sheaf (s : State) (h : Sheaf) : (s.withSheaf h).sheaf = h := rfl
theorem State.withSheaf_tile (s : State) (h : Sheaf) (t : Nat) : (s.withSheaf h).tile t = s.tile t := rfl

/-- The tile lists the bank, and the record shows it DEGRADED. -/
def State.bankListed (s : State) (t bank : Nat) : State :=
  (s.modTile t fun z => { z with retiredBanks := (s.tile t).retiredBanks ||| (1#20 <<< bank) }).withSheaf (s.sheaf.mark t 1)

/-- Another data bank of its parity group has been retired. -/
def Tile.groupLost (z : Tile) (bank : Nat) : Bool := bank < 16 && (List.range 4).any fun i => z.retiredBanks.getLsbD (bank / 4 * 4 + i)

/-- With no spare left the slots of the tile are bound anew as well. -/
def State.bankStretched (s : State) (t bank n : Nat) : State :=
  (s.bankListed t bank).withSheaf ((s.sheaf.mark t 1).stretch t (Config.survivors n % 2 ^ 24) (Config.survivors n / 2 ^ 24))

theorem State.bankRetired_spare (s : State) (t bank : Nat) (hb : bank < 20) (hn : (s.tile t).retiredBanks.getLsbD bank = false)
    (hg : (s.tile t).groupLost bank = true) (hl : 0 < s.sparesLeft (dieOf t)) :
    s.bankRetired t bank = ((s.bankListed t bank).raiseSheaf.tileFails t (Config.survivors s.free)).tickFree := by
  unfold Tile.groupLost at hg
  unfold State.bankRetired
  dsimp only
  rw [if_pos (by rw [hn, decide_eq_true hb]; rfl), hg, if_pos (by rw [Bool.true_and]; exact decide_eq_true hl)]
  rfl

theorem State.bankRetired_stretched (s : State) (t bank : Nat) (hb : bank < 20) (hn : (s.tile t).retiredBanks.getLsbD bank = false)
    (hg : (s.tile t).groupLost bank = true) (hl : s.sparesLeft (dieOf t) = 0) :
    s.bankRetired t bank = ((s.bankStretched t bank s.free).raiseSheaf.haltHolder t).tickFree := by
  unfold Tile.groupLost at hg
  unfold State.bankRetired
  dsimp only
  rw [if_pos (by rw [hn, decide_eq_true hb]; rfl), hg, if_neg (by rw [Bool.true_and, decide_eq_true_eq]; exact Nat.not_lt.2 hl.le), if_pos rfl]
  rfl

theorem State.bankRetired_alone (s : State) (t bank : Nat) (hb : bank < 20) (hn : (s.tile t).retiredBanks.getLsbD bank = false)
    (hg : (s.tile t).groupLost bank = false) : s.bankRetired t bank = (s.bankListed t bank).raiseSheaf := by
  unfold Tile.groupLost at hg
  unfold State.bankRetired
  dsimp only
  rw [if_pos (by rw [hn, decide_eq_true hb]; rfl), hg, if_neg (by simp), if_neg (by simp)]
  rfl

theorem State.bankListed_tile (s : State) (t bank : Nat) : (s.bankListed t bank).tile t =
    { s.tile t with retiredBanks := (s.tile t).retiredBanks ||| (1#20 <<< bank) } :=
  s.tile_modTile_same t fun z => { z with retiredBanks := (s.tile t).retiredBanks ||| (1#20 <<< bank) }

theorem State.bankStretched_tile (s : State) (t bank n : Nat) : (s.bankStretched t bank n).tile t = (s.bankListed t bank).tile t :=
  State.withSheaf_tile ..

theorem State.bankListed_raised (s : State) (t bank : Nat) : s.raisedFrom (s.bankListed t bank).raiseSheaf ∧
    ((s.bankListed t bank).raiseSheaf.tile t).retiredBanks = (s.tile t).retiredBanks ||| (1#20 <<< bank) ∧
    ((s.bankListed t bank).raiseSheaf.tile t).failed = (s.tile t).failed ∧
    nbit (mget 0 (s.bankListed t bank).raiseSheaf.sheaf.health t) 1 = true ∧
    (s.bankListed t bank).raiseSheaf.sheaf.spares = s.sheaf.spares := by
  have ht := s.bankListed_tile t bank
  rw [← State.raiseSheaf_tile] at ht
  refine ⟨State.raiseSheaf_raisedFrom rfl rfl fun _ => rfl, by rw [ht], by rw [ht], ?_, ?_⟩
  · rw [State.raiseSheaf_sheaf]
    exact s.sheaf.mark_health t 1
  · rw [State.raiseSheaf_sheaf]
    rfl

theorem State.bankStretched_sheaf (s : State) (t bank n : Nat) : (s.bankStretched t bank n).sheaf =
    (s.sheaf.mark t 1).stretch t (Config.survivors n % 2 ^ 24) (Config.survivors n / 2 ^ 24) :=
  State.withSheaf_sheaf ..

theorem State.bankStretched_version (s : State) (t bank n : Nat) : (s.bankStretched t bank n).sheaf.version = s.sheaf.version := by
  rw [State.bankStretched_sheaf, Sheaf.stretch_version, Sheaf.mark_version]

theorem State.bankStretched_health (s : State) (t bank n : Nat) :
    nbit (mget 0 (s.bankStretched t bank n).raiseSheaf.sheaf.health t) 1 = true := by
  rw [State.raiseSheaf_health, State.bankStretched_sheaf]
  exact Sheaf.stretch_degraded _ t _ _ (s.sheaf.mark_health t 1)

theorem State.bankStretched_raised (s : State) (t bank n : Nat) : s.raisedFrom (s.bankStretched t bank n).raiseSheaf ∧
    ((s.bankStretched t bank n).raiseSheaf.tile t).retiredBanks = (s.tile t).retiredBanks ||| (1#20 <<< bank) ∧
    nbit (mget 0 (s.bankStretched t bank n).raiseSheaf.sheaf.health t) 1 = true := by
  refine ⟨State.raiseSheaf_raisedFrom (s.bankStretched_version t bank n) rfl fun _ => rfl, ?_, s.bankStretched_health t bank n⟩
  rw [State.raiseSheaf_tile, State.bankStretched_tile, State.bankListed_tile]

/-- A retired bank raises the version; the tile lists the bank and is DEGRADED. -/
theorem State.bankRetired_raises (s : State) (t bank : Nat) (hb : bank < 20) (hn : (s.tile t).retiredBanks.getLsbD bank = false) :
    s.raisedFrom (s.bankRetired t bank) ∧ ((s.bankRetired t bank).tile t).retiredBanks = (s.tile t).retiredBanks ||| (1#20 <<< bank) ∧
    nbit (mget 0 (s.bankRetired t bank).sheaf.health t) 1 = true := by
  obtain ⟨hr, htile, hf, hh, hsp⟩ := s.bankListed_raised t bank
  cases hg : (s.tile t).groupLost bank with
  | false => rw [s.bankRetired_alone t bank hb hn hg]; exact ⟨hr, htile, hh⟩
  | true =>
    obtain hl | hl := (s.sparesLeft (dieOf t)).eq_zero_or_pos
    · rw [s.bankRetired_stretched t bank hb hn hg hl]
      obtain ⟨hr, htile, hh⟩ := s.bankStretched_raised t bank s.free
      generalize (s.bankStretched t bank s.free).raiseSheaf = u at hr htile hh
      obtain ⟨hs, ht, -, ha, hc⟩ := u.haltHolder_keeps t
      generalize u.haltHolder t = w at hs ht ha hc
      refine ⟨hr.mono hs hc ha, ?_, ?_⟩
      · rw [State.tile, State.tickFree_tiles, ht, ← State.tile, htile]
      · rw [State.tickFree_sheaf, hs, hh]
    · rw [s.bankRetired_spare t bank hb hn hg hl]
      generalize (s.bankListed t bank).raiseSheaf = u at hr htile hf hh hsp
      have hlu : 0 < u.sparesLeft (dieOf t) := by rw [State.sparesLeft, hsp]; exact hl
      cases hfu : (u.tile t).failed with
      | true =>
        have hu : u.tileFails t (Config.survivors s.free) = u := by rw [State.tileFails, if_pos hlu, if_pos hfu]
        rw [hu]
        exact ⟨hr.mono rfl (fun _ => rfl) (List.Subset.refl _), htile, hh⟩
      | false =>
        obtain ⟨hs, ha, hc, -, hb⟩ := u.tileFails_keeps t (Config.survivors s.free) id hlu hfu
        generalize u.tileFails t (Config.survivors s.free) = w at hs ha hc hb
        exact ⟨hr.mono hs hc ha, hb.trans htile, by rw [State.tickFree_sheaf, hs, hh]⟩

/-- The second data bank of a parity group fails the tile while its die has a spare. -/
theorem State.bankRetired_fails (s : State) (t bank : Nat) (hb : bank < 20) (hn : (s.tile t).retiredBanks.getLsbD bank = false)
    (hg : (s.tile t).groupLost bank = true) (hl : 0 < s.sparesLeft (dieOf t)) (hf : (s.tile t).failed = false) :
    ((s.bankRetired t bank).tile t).failed = true ∧
    ∃ e ∈ (s.bankRetired t bank).agenda, e.op = .tileReplaced ∧ e.args = [t] ∧ s.gtick < e.tick := by
  obtain ⟨-, -, hfu, -, hsp⟩ := s.bankListed_raised t bank
  have hlu : 0 < (s.bankListed t bank).raiseSheaf.sparesLeft (dieOf t) := by rw [State.sparesLeft, hsp]; exact hl
  obtain ⟨-, -, -, hfail, -⟩ := (s.bankListed t bank).raiseSheaf.tileFails_keeps t (Config.survivors s.free) id hlu (hfu.trans hf)
  have hplan := (s.bankListed t bank).raiseSheaf.tileFails_plans t (Config.survivors s.free) id hlu (hfu.trans hf)
  rw [State.raiseSheaf_gtick] at hplan
  rw [s.bankRetired_spare t bank hb hn hg hl]
  exact ⟨hfail, hplan⟩

end Sys2Proof.Machine
end

