-- ==== Sys2Proof/Proofs/ScrubsAndRows.lean ====
section
/-! SUPPORT. Scrubs of scratchpad words and the retirement of MRAM rows (R347, R352, R357). -/
namespace Sys2Proof.Machine

/-! Reads leave the marks of a tile (R347, R348). -/

theorem State.record_marks (s : State) (x t : Nat) (r : FaultRecord) : ((s.record x r).tile t).marks = (s.tile t).marks := by
  obtain ⟨late, h⟩ := s.record_tile x r
  rw [h]
  rfl

theorem State.setTile_marks (s : State) (t : Nat) (x : Tile) : ((s.setTile t x).tile t).marks = x.marks := by
  rw [State.tile_setTile, if_pos rfl]

/-- A count of corrected errors leaves the marks of its tile. -/
theorem State.countCorrected_marks (s : State) (t kind n : Nat) : ((s.countCorrected t kind n).tile t).marks = (s.tile t).marks := by
  unfold State.countCorrected
  dsimp only
  split
  · exact (State.record_marks ..).trans (State.setTile_marks ..)
  · exact State.setTile_marks ..

theorem State.countRebuild_marks (s : State) (t bank : Nat) : ((s.countRebuild t bank).tile t).marks = (s.tile t).marks := by
  unfold State.countRebuild
  dsimp only
  split <;> exact State.setTile_marks ..

theorem State.findParity_marks (s : State) (t k : Nat) : ((s.modTile t fun x => x.findParity k).tile t).marks = (s.tile t).marks := by
  rw [State.tile_modTile_same]
  unfold Tile.findParity
  dsimp only
  split <;> rfl

theorem State.noteRebuild_marks (s : State) (t k : Nat) : ((s.noteRebuild t k).tile t).marks = (s.tile t).marks := by
  unfold State.noteRebuild
  dsimp only
  split <;> split <;> split <;> simp only [State.countCorrected_marks, State.findParity_marks]

/-- A look that finds the word's own poison leaves every mark. -/
theorem State.noteWord_marks (s : State) (t k : Nat) (w : WordLook) (h : w.poison = ((s.tile t).mark k).poison) :
    ((s.noteWord t k w).tile t).marks = (s.tile t).marks := by
  unfold State.noteWord
  dsimp only
  rw [if_pos h]
  split <;> split <;> split <;> simp only [State.countCorrected_marks, State.countRebuild_marks, State.noteRebuild_marks]

/-- A word that its code or its group gives back brings no poison of its own. -/
theorem Tile.lookWord_poison (x : Tile) (k : Nat) (hr : x.retiredBanks.getLsbD (k % 16) = false)
    (h : (x.lookWord k).bad = false ∨ (x.rebuilt k).isSome = true) : (x.lookWord k).poison = (x.mark k).poison := by
  unfold Tile.lookWord at h ⊢
  dsimp only at h ⊢
  rw [hr] at h ⊢
  generalize (wordRead (x.rawWord k) (x.mark k).checks).2.2.2 = wrong at h ⊢
  cases wrong with
  | false => rfl
  | true =>
    obtain ⟨v, hv⟩ : ∃ v, x.rebuilt k = some v := by
      refine Option.isSome_iff_exists.1 (h.resolve_left ?_)
      cases x.rebuilt k <;> simp
    rw [hv]
    rfl

/-! Scrubs (R347, R352). -/

/-- A word without error, or marked injected, is left alone. -/
theorem State.scrubWord_leaves (s : State) (t k : Nat) (h : ((s.tile t).mark k).checks = none ∨ ((s.tile t).mark k).injected = true) :
    s.scrubWord t k = s := by
  unfold State.scrubWord
  dsimp only
  rw [if_pos (by obtain h | h := h <;> simp [h])]

/-- A tile whose word `k` holds a value again, without error. -/
def Tile.repaired (z : Tile) (k : Nat) (v : Vec) : Tile :=
  { z with spad := putBytes z.spad (64 * k) (vecBytes v), marks := mset {} z.marks k { z.mark k with checks := none, wrong := 0 } }

theorem Tile.repaired_mark (z : Tile) (k : Nat) (v : Vec) : (z.repaired k v).mark k = { z.mark k with checks := none, wrong := 0 } :=
  mget_mset_same ..

@[simp] theorem length_vecBytes (v : Vec) : (vecBytes v).length = 64 := length_leBytes ..

theorem Tile.repaired_byte (z : Tile) (k j : Nat) (v : Vec) (hj : j < 64) : byteAt (z.repaired k v).spad (64 * k + j) = (vecBytes v).getD j 0 := by
  rw [Tile.repaired, byteAt_putBytes, if_pos ⟨Nat.le_add_right .., by rw [length_vecBytes]; omega⟩, Nat.add_sub_cancel_left]

/-- One that can be corrected, or rebuilt without an injected word, holds its value again. -/
theorem State.scrubWord_repairs (s : State) (t k : Nat) (hc : ((s.tile t).mark k).checks ≠ none) (hi : ((s.tile t).mark k).injected = false)
    (hr : (s.tile t).retiredBanks.getLsbD (k % 16) = false) (hu : (s.tile t).uses = []) (hv : (s.tile t).reservations = [])
    (hd : (s.tile t).parityDue = [])
    (hb : ((s.tile t).lookWord k).bad = false ∨ ((s.tile t).groupInjected k = false ∧ ((s.tile t).rebuilt k).isSome = true)) :
    s.scrubWord t k = (s.noteWord t k ((s.tile t).lookWord k)).modTile t fun z => z.repaired k ((s.tile t).lookWord k).val := by
  have hidle (banks : List Nat) : (s.tile t).scrubIdle banks = true := by simp [Tile.scrubIdle, hu, hv, hd]
  have hinj : (((s.tile t).lookWord k).bad && (s.tile t).groupInjected k) = false := by obtain h | ⟨h, -⟩ := hb <;> simp [h]
  have hreb : (((s.tile t).lookWord k).bad && ((s.tile t).rebuilt k).isNone) = false := by
    obtain h | ⟨-, h⟩ := hb
    · simp [h]
    · simp [Option.isNone_eq_false_iff.2 h]
  have hne : ((s.tile t).mark k).checks.isNone = false := Option.isNone_eq_false_iff.2 (Option.isSome_iff_ne_none.2 hc)
  unfold State.scrubWord
  dsimp only
  rw [hidle, hinj, hreb, hi, hne, hr]
  rfl

theorem State.scrubWord_word (s : State) (t k : Nat) (hc : ((s.tile t).mark k).checks ≠ none) (hi : ((s.tile t).mark k).injected = false)
    (hr : (s.tile t).retiredBanks.getLsbD (k % 16) = false) (hu : (s.tile t).uses = []) (hv : (s.tile t).reservations = [])
    (hd : (s.tile t).parityDue = [])
    (hb : ((s.tile t).lookWord k).bad = false ∨ ((s.tile t).groupInjected k = false ∧ ((s.tile t).rebuilt k).isSome = true)) :
    (((s.scrubWord t k).tile t).mark k).checks = none ∧ (((s.scrubWord t k).tile t).mark k).wrong = 0 ∧
    (((s.scrubWord t k).tile t).mark k).poison = ((s.tile t).mark k).poison ∧
    ∀ j < 64, byteAt ((s.scrubWord t k).tile t).spad (64 * k + j) = (vecBytes ((s.tile t).lookWord k).val).getD j 0 := by
  have hp := (s.tile t).lookWord_poison k hr (hb.imp_right And.right)
  have hmarks := s.noteWord_marks t k _ hp
  rw [s.scrubWord_repairs t k hc hi hr hu hv hd hb, State.tile_modTile_same]
  generalize (s.noteWord t k ((s.tile t).lookWord k)).tile t = z at hmarks
  refine ⟨by rw [Tile.repaired_mark], by rw [Tile.repaired_mark], ?_, fun j hj => z.repaired_byte k j _ hj⟩
  rw [Tile.repaired_mark, Tile.mark, hmarks]
  rfl

/-! Bytes of a row. -/

theorem getD_bytesAt (m : List Host.Cell) (a n j : Nat) (h : j < n) : (bytesAt m a n).getD j 0 = byteAt m (a + j) := by
  induction n generalizing a j with
  | zero => exact absurd h (Nat.not_lt_zero j)
  | succ n ih =>
    cases j with
    | zero => rfl
    | succ j => rw [bytesAt, List.getD_cons_succ, ih _ _ (Nat.lt_of_succ_lt_succ h), Nat.add_assoc, Nat.add_comm 1]

theorem bytesAt_append (m : List Host.Cell) (a n k : Nat) : bytesAt m a n ++ bytesAt m (a + n) k = bytesAt m a (n + k) := by
  induction n generalizing a with
  | zero => simp [bytesAt]
  | succ n ih => rw [bytesAt, List.cons_append, Nat.add_right_comm n 1 k, bytesAt, ← ih (a + 1), Nat.add_assoc, Nat.add_comm 1 n]

/-- Consecutive words of 64 bytes are one string. -/
theorem flatMap_bytesAt (m : List Host.Cell) (a n : Nat) : ((List.range n).flatMap fun k => bytesAt m (a + 64 * k) 64) = bytesAt m a (64 * n) := by
  induction n with
  | zero => rfl
  | succ n ih => rw [List.range_succ, List.flatMap_append, ih, List.flatMap_singleton, bytesAt_append, Nat.mul_succ]

/-! Rows (R347). -/

/-- Without overlays and wrong cells a read of a word gives its bytes. -/
theorem Tile.mramWordVia_clean (x : Tile) (phys k : Nat) (ho : x.overlays = []) (hc : x.cellErrors = []) :
    (x.mramWordVia phys k).1 = bytesVec (bytesAt x.mram (1024 * phys + 64 * (k % 16)) 64) := by
  unfold Tile.mramWordVia
  dsimp only
  split
  · rfl
  · simp [Tile.mramError, ho, hc]

theorem Tile.moveRow_rowMap (z : Tile) (row f : Nat) : (z.moveRow row f).rowMap = mset row z.rowMap row f := rfl
theorem Tile.moveRow_wear (z : Tile) (row f : Nat) : (z.moveRow row f).wear = mset 0 z.wear f (mget 0 z.wear f + 1) := rfl
theorem Tile.moveRow_mram (z : Tile) (row f : Nat) : (z.moveRow row f).mram = putBytes z.mram (1024 * f)
    ((List.range 16).flatMap fun k => vecBytes (Tile.mramWordVia { z with overlays := [] } (z.physRow row) (16 * row + k)).1) := by
  simp only [Tile.moveRow]

/-- The logical row reads from where it has moved, which counts one write more. -/
theorem Tile.moveRow_maps (z : Tile) (row f : Nat) : (z.moveRow row f).physRow row = f ∧
    mget 0 (z.moveRow row f).wear f = mget 0 z.wear f + 1 := by
  rw [Tile.physRow, Tile.moveRow_rowMap, lookup_getD_eq_mget, Tile.moveRow_wear]
  exact ⟨mget_mset_same .., mget_mset_same ..⟩

/-- Without wrong cells the bytes move as they are. -/
theorem Tile.moveRow_bytes (z : Tile) (row f j : Nat) (hc : z.cellErrors = []) (hj : j < 1024) :
    byteAt (z.moveRow row f).mram (1024 * f + j) = byteAt z.mram (1024 * z.physRow row + j) := by
  have himage : ((List.range 16).flatMap fun k => vecBytes (Tile.mramWordVia { z with overlays := [] } (z.physRow row) (16 * row + k)).1) =
      bytesAt z.mram (1024 * z.physRow row) (64 * 16) := by
    rw [← flatMap_bytesAt]
    refine List.flatMap_congr fun k hk => ?_
    have hk : k < 16 := List.mem_range.1 hk
    rw [Tile.mramWordVia_clean { z with overlays := [] } _ _ rfl hc, vecBytes_bytesVec _ (length_bytesAt ..), show (16 * row + k) % 16 = k by omega]
  rw [Tile.moveRow_mram, himage, byteAt_putBytes, if_pos ⟨Nat.le_add_right .., by rw [length_bytesAt]; omega⟩, Nat.add_sub_cancel_left,
    getD_bytesAt _ _ _ _ hj]

/-- With no words named, none is poisoned. -/
theorem Tile.poisonRow_none (z : Tile) (row : Nat) : z.poisonRow row 0 = z := by
  simp [Tile.poisonRow, nbit]

/-- A row that can be read moves to the first free row, if there is one; either way it is retired. -/
def Tile.rowMoved (z : Tile) (row : Nat) : Tile :=
  let z1 : Tile := { z with retiredRows := z.physRow row :: z.retiredRows }
  match z.freeRows.filter (· != z.physRow row) with
  | f :: _ => z1.moveRow row f
  | [] => z1

theorem State.rewriteRow_moves (s : State) (t row : Nat) (ht : t < 384) (hrow : row < 16384) (hj : (s.tile t).journal.st = .idle)
    (ho : (s.tile t).opening = false) (hold : (s.tile t).physRow row ∉ (s.tile t).retiredRows)
    (hb : ({ s.tile t with overlays := [] } : Tile).badRow row = false) :
    s.rewriteRow t row 0 = (s.setTile t ((s.tile t).rowMoved row)).raiseSheaf := by
  unfold State.rewriteRow
  dsimp only
  rw [if_neg (by simp [hold, ht, hrow]), if_neg (by simp [hj, ho]), Tile.poisonRow_none, hb]
  rfl

theorem Tile.rowMoved_retires (z : Tile) (row : Nat) : z.physRow row ∈ (z.rowMoved row).retiredRows := by
  unfold Tile.rowMoved
  dsimp only
  split
  · exact List.mem_cons_self
  · exact List.mem_cons_self

theorem Tile.rowMoved_free (z : Tile) (row f : Nat) (fs : List Nat) (hf : z.freeRows.filter (· != z.physRow row) = f :: fs) :
    (z.rowMoved row).physRow row = f ∧ mget 0 (z.rowMoved row).wear f = mget 0 z.wear f + 1 ∧
    (z.cellErrors = [] → ∀ j < 1024, byteAt (z.rowMoved row).mram (1024 * f + j) = byteAt z.mram (1024 * z.physRow row + j)) := by
  have hz : z.rowMoved row = ({ z with retiredRows := z.physRow row :: z.retiredRows } : Tile).moveRow row f := by
    unfold Tile.rowMoved
    rw [hf]
  obtain ⟨hp, hw⟩ := Tile.moveRow_maps { z with retiredRows := z.physRow row :: z.retiredRows } row f
  rw [hz]
  exact ⟨hp, hw, fun hc j hj => Tile.moveRow_bytes { z with retiredRows := z.physRow row :: z.retiredRows } row f j hc hj⟩

theorem State.rowRetired_new (s : State) (t p : Nat) (h : p ∉ (s.tile t).retiredRows) :
    s.rowRetired t p = (s.modTile t fun z => { z with retiredRows := p :: z.retiredRows }).raiseSheaf := by
  simp [State.rowRetired, h]

theorem State.rewritePhysical_idle (s : State) (t row v p : Nat) (hj : (s.tile t).journal.st = .idle) (ho : (s.tile t).opening = false) :
    s.rewritePhysical t row v p = match (s.tile t).logicalRow p with
      | some r => s.rewriteRow t r v
      | none => s.rowRetired t p := by
  simp only [State.rewritePhysical, hj, ho]
  rfl

end Sys2Proof.Machine
end

