-- ==== Sys2Proof/Proofs/TheSheafChanges.lean ====
section
/-! O53: changes of the Sheaf, links and channels lost, scrubs and retired rows. -/
namespace Sys2Proof.Machine

/-- What every change of the record does: the version rises, and each bound context is asked for it, unless it has been. -/
theorem State.raisedFrom.asks {s u : State} (h : s.raisedFrom u) : u.sheaf.version = s.sheaf.version + 1 ∧ ∀ x, s.bound x = true →
    (s.ctx x).ackVersion ≤ s.sheaf.version → ((s.ctx x).ackDue.any fun e => e.1 == s.sheaf.version + 1) = false →
    (u.ctx x).ackDue = (s.ctx x).ackDue ++ [(s.sheaf.version + 1, s.gtick + 2400000)] ∧
    u.planned .mapackMissed [x] (s.gtick + 2400000) (s.gtick + 2400000) :=
  ⟨h.1, fun x hb hv hd => h.2 x hb ⟨Nat.lt_succ_of_le hv, hd⟩⟩

/-- A change of the record that leaves its version number to the Sheaf. -/
theorem State.changeSheaf_becomes (s : State) (f : Sheaf → Sheaf) (hv : (f s.sheaf).version = s.sheaf.version) (h : f s.sheaf ≠ s.sheaf) :
    s.raisedFrom (s.changeSheaf f) ∧ (s.changeSheaf f).sheaf = { f s.sheaf with version := s.sheaf.version + 1 } ∧
    (s.changeSheaf f).tiles = s.tiles ∧ (s.changeSheaf f).mem = s.mem :=
  ⟨s.changeSheaf_raisedFrom f h hv, by rw [s.changeSheaf_sheaf f h, hv], s.changeSheaf_tiles f, s.changeSheaf_mem f⟩

/-! Tiles (R353, R356). -/

theorem State.sheafEvent_fails (s : State) (i v : Nat) (hi : i < 384) : s.sheafEvent 0 i v = s.tileFails i v := if_pos hi
theorem State.sheafEvent_bank (s : State) (i v : Nat) (hi : i < 384) : s.sheafEvent 1 i v = s.bankRetired i v := if_pos hi
theorem State.sheafEvent_rate (s : State) (i v : Nat) (hi : i < 32) :
    s.sheafEvent 4 i v = s.changeSheaf fun h => { h with rates := mset 12800 h.rates i v } := if_pos hi

/-- With no spare left the tile's slots are bound to the instances that survive. -/
theorem State.tileFails_stretched (s : State) (t v : Nat) (hl : s.sparesLeft (dieOf t) = 0) :
    s.tileFails t v = (s.changeSheaf fun h => h.stretch t (v % 2 ^ 24) (v / 2 ^ 24)).haltHolder t := by
  unfold State.tileFails
  rw [if_neg (by simp [hl])]
  rfl

theorem State.changeSheaf_engineMap (s : State) (f : Sheaf → Sheaf) (n : Nat) : (s.changeSheaf f).sheaf.engineMap n = (f s.sheaf).engineMap n := by
  by_cases h : f s.sheaf = s.sheaf
  · rw [s.changeSheaf_same f h, h]
  · rw [s.changeSheaf_sheaf f h]
    rfl

theorem State.tileFails_binds (s : State) (t a : Nat) (hl : s.sparesLeft (dieOf t) = 0) :
    (s.sheaf.stretch t (a % 2 ^ 24) (a / 2 ^ 24) ≠ s.sheaf → s.raisedFrom (s.tileFails t a)) ∧
    (s.tileFails t a).sheaf.engineMap (2 * t) = engineMapOf (a % 2 ^ 24) ∧ (s.tileFails t a).sheaf.engineMap (2 * t + 1) = engineMapOf (a / 2 ^ 24) := by
  rw [s.tileFails_stretched t a hl]
  generalize a % 2 ^ 24 = m
  generalize a / 2 ^ 24 = n
  obtain ⟨hs, -, -, ha, hc⟩ := (s.changeSheaf fun h => h.stretch t m n).haltHolder_keeps t
  refine ⟨fun hne => (s.changeSheaf_raisedFrom (fun h => h.stretch t m n) hne (Sheaf.stretch_version ..)).mono hs hc ha, ?_⟩
  rw [hs, State.changeSheaf_engineMap, State.changeSheaf_engineMap]
  exact s.sheaf.stretch_engineMap t m n

/-! Channels (R388). -/

theorem State.channelLoss_drops (s : State) (c : Nat) (ks : List Nat) (hc : c < 32) (hon : s.sheaf.channels.getLsbD c = true)
    (hp : s.powerLost = false) (hs : s.allSaved = true) : s.channelLoss c ks = s.dropChannel c ks := by
  simp [State.channelLoss, Nat.not_le.2 hc, hon, hp, hs]

/-- The contexts that run, as the list of contexts has them. -/
def State.runningCtxs (s : State) : List Nat := (s.ctxs.filter fun e => e.2.part = .running).map (·.1)

theorem State.mem_runningCtxs (s : State) (x : Nat) (h : (s.ctx x).part = .running) : x ∈ s.runningCtxs :=
  List.mem_map.2 ⟨_, List.mem_filter.2 ⟨s.mem_ctxs_of_part x (by rw [h]; decide), by simpa using h⟩, rfl⟩

/-- While a context is bound its partition is to halt, and the loss is taken up again later. -/
theorem State.channelLoss_halts (s : State) (c : Nat) (ks : List Nat) (hc : c < 32) (hon : s.sheaf.channels.getLsbD c = true)
    (hp : s.powerLost = false) (hs : s.allSaved = false) :
    (s.channelLoss c ks).rebuilding = true ∧ (s.channelLoss c ks).sheaf = s.sheaf ∧ (s.channelLoss c ks).mem = s.mem ∧
    ∀ x, (s.ctx x).part = .running → (s.ctx x).ending = none →
      ((s.channelLoss c ks).ctx x).ending = some (0, 0) ∧ ((s.channelLoss c ks).ctx x).part = .halting := by
  rw [s.channelLoss_saves c ks hc hon hp hs]
  have keep {β : Type} (g : State → β) (hg : ∀ (u : State) x, g (u.endPartition x 0 0) = g u) :=
    foldl_keeps g (fun (u : State) x => u.endPartition x 0 0) hg s.runningCtxs { s with rebuilding := true }
  refine ⟨keep State.rebuilding fun u x => u.endPartition_rebuilding .., keep State.sheaf fun u x => u.endPartition_sheaf ..,
    keep State.mem fun u x => u.endPartition_mem .., fun x hr he => ?_⟩
  obtain ⟨hpart, hend, -⟩ := State.foldl_endPartition_toHalt { s with rebuilding := true } 0 0 _ (s.mem_runningCtxs x hr) hr he
  exact ⟨hend, hpart⟩

/-! The clauses of links and rows. -/

theorem State.linkRetrain_none (s : State) (l v : Nat) (h : 8 ≤ l ∨ s.sheaf.links.getLsbD l = false ∨ v = 0) : s.linkRetrain l v = s := by
  unfold State.linkRetrain
  rw [if_pos (by obtain h | h | h := h <;> simp [h])]

theorem State.linkLoss_none (s : State) (l v : Nat) (h : 8 ≤ l ∨ s.sheaf.links.getLsbD l = false) : s.linkLoss l v = s := by
  unfold State.linkLoss
  rw [if_pos (by obtain h | h := h <;> simp [h])]

theorem State.rewriteRow_raises (s : State) (t row : Nat) (ht : t < 384) (hrow : row < 16384) (hj : (s.tile t).journal.st = .idle)
    (ho : (s.tile t).opening = false) (hold : (s.tile t).physRow row ∉ (s.tile t).retiredRows)
    (hb : ({ s.tile t with overlays := [] } : Tile).badRow row = false) :
    s.raisedFrom (s.rewriteRow t row 0) ∧ (s.rewriteRow t row 0).tile t = (s.tile t).rowMoved row := by
  rw [s.rewriteRow_moves t row ht hrow hj ho hold hb, State.raiseSheaf_tile, State.tile_setTile, if_pos rfl]
  exact ⟨State.raiseSheaf_raisedFrom rfl rfl fun _ => rfl, rfl⟩

theorem State.rowRetired_raises (s : State) (t p : Nat) (h : p ∉ (s.tile t).retiredRows) :
    s.raisedFrom (s.rowRetired t p) ∧ (s.rowRetired t p).tile t = { s.tile t with retiredRows := p :: (s.tile t).retiredRows } := by
  rw [s.rowRetired_new t p h, State.raiseSheaf_tile, State.tile_modTile_same]
  exact ⟨State.raiseSheaf_raisedFrom rfl rfl fun _ => rfl, rfl⟩

/-- A row is rewritten by its logical number, or by the physical row that serves it. -/
theorem State.mramRowRewrite_logical (s : State) (t i r : Nat) (hj : (s.tile t).journal.st = .idle) (ho : (s.tile t).opening = false)
    (h : (s.arg 3 = 0 ∧ r = i) ∨ ∃ p, s.arg 3 = p + 1 ∧ (s.tile t).logicalRow p = some r) (v : Nat) :
    (if s.arg 3 = 0 then s.rewriteRow t i v else s.rewritePhysical t i v (s.arg 3 - 1)) = s.rewriteRow t r v := by
  obtain ⟨h0, rfl⟩ | ⟨p, hp, hl⟩ := h
  · rw [if_pos h0]
  · rw [if_neg (by omega), hp, Nat.add_sub_cancel, s.rewritePhysical_idle t i v p hj ho, hl]

/-- Settles O53: each kind of change of the record, then links, channels, scrubs and rows. -/
theorem theSheafChanges : Obligations.TheSheafChanges := by
  unfold Obligations.TheSheafChanges
  intro s k i v h raised becomes
  have hbecomes (f : Sheaf → Sheaf) (hf : (f h).version = h.version) (he : exec .sheafChange s = .next (s.changeSheaf f)) : becomes (f h) := by
    refine ⟨fun hs => he.trans (congrArg Host.Outcome.next (s.changeSheaf_same f hs)), fun hne => ⟨_, he, ?_⟩⟩
    obtain ⟨hr, hrest⟩ := s.changeSheaf_becomes f hf hne
    exact ⟨hr.asks, hrest⟩
  have hexec : exec .sheafChange s = .next (s.sheafEvent k i v) := rfl
  refine ⟨fun hk hi => ?_, fun hk => ?_, fun hk hi hv hn => ?_, fun hk hi hl hf => ?_, fun hk hi hl => ?_, fun hk hon => ⟨fun h0 hv => ?_, fun h0 => ?_,
    fun h0 => ?_⟩, fun hk => ?_, fun hk hon hp => ?_, ?_, ?_⟩
  · exact hbecomes (fun h => { h with rates := mset 12800 h.rates i v }) rfl (by rw [hexec, hk, s.sheafEvent_rate i v hi])
  · exact hbecomes (fun h => { h with pcieLanes := i % 256, pcieRate := v % 256 }) rfl (by rw [hexec, hk]; rfl)
  · rw [hk, s.sheafEvent_bank i v hi] at hexec
    obtain ⟨hr, hbanks, hhealth⟩ := s.bankRetired_raises i v hv hn
    refine ⟨_, hexec, hr.asks, hbanks, hhealth, fun h16 hany hl hf => s.bankRetired_fails i v hv hn ?_ hl hf⟩
    obtain ⟨j, hj, hb⟩ := hany
    simp only [Tile.groupLost, h16, decide_true, Bool.true_and, List.any_eq_true, List.mem_range]
    exact ⟨j, hj, hb⟩
  · rw [hk, s.sheafEvent_fails i v hi] at hexec
    obtain ⟨hs, -, -, hfail, -⟩ := s.tileFails_keeps i v id hl hf
    refine ⟨_, hexec, hs, hfail, s.tileFails_plans i v id hl hf, fun x hx he hp => ?_⟩
    rw [s.tileFails_spare i v id hl hf]
    exact s.failing_halts i x hx he hp
  · rw [hk, s.sheafEvent_fails i v hi] at hexec
    obtain ⟨hr, hmap⟩ := s.tileFails_binds i v hl
    exact ⟨_, hexec, fun hne => (hr hne).asks, hmap⟩
  · have hne := h.slower_ne k i hv
    refine ⟨s.linkRetrain k i, rfl, ?_⟩
    rw [s.linkRetrain_slower k i hk hon h0 hv]
    obtain ⟨hr, hs, -⟩ := s.changeSheaf_becomes (fun h => { h with linkSpeeds := mset 200 h.linkSpeeds k i }) rfl hne
    exact ⟨hr.asks, hs⟩
  · refine ⟨congrArg Host.Outcome.next (s.linkRetrain_none k i (.inr (.inr h0))), s.linkLoss k i, rfl, ?_⟩
    rw [h0, s.linkLoss_last k hk hon]
    obtain ⟨hr, hs, -⟩ := s.changeSheaf_becomes (fun h => { h with links := h.links &&& ~~~ (1#8 <<< k) }) rfl (h.withoutLink_ne k hk hon)
    exact ⟨hr.asks, hs⟩
  · refine ⟨s.linkLoss k i, rfl, ?_⟩
    have hs := s.losePeer_sheaf (i - 1)
    have hne := (s.losePeer (i - 1)).sheaf.withoutLink_ne k hk (by rw [hs]; exact hon)
    rw [s.linkLoss_peer k i hk hon h0, State.changeSheaf_sheaf _ _ hne, hs]
  · exact ⟨congrArg Host.Outcome.next (s.linkRetrain_none k i (hk.imp_right .inl)), congrArg Host.Outcome.next (s.linkLoss_none k i hk)⟩
  · refine ⟨s.channelLoss k s.cur.args.tail, rfl, fun hs => ?_, fun hs => s.channelLoss_halts k _ hk hon hp hs⟩
    obtain ⟨hsheaf, hreb⟩ := s.dropChannel_ends k s.cur.args.tail hk hon
    rw [s.channelLoss_drops k _ hk hon hp hs, hsheaf]
    exact ⟨rfl, rfl, hreb, rfl⟩
  · intro m w hk hi
    have hexec : exec .scrub s = .next (s.scrubWord k i) := by
      show Host.Outcome.next (s.scrub k i) = _
      rw [State.scrub, if_pos hk, if_pos hi]
    exact ⟨fun hm => hexec.trans (congrArg Host.Outcome.next (s.scrubWord_leaves k i hm)),
      fun hc hinj hr hu hv hd hb => ⟨_, hexec, s.scrubWord_word k i hc hinj hr hu hv hd hb⟩⟩
  · intro z hk hj ho
    have hexec : exec .mramRowRewrite s = .next (if s.arg 3 = 0 then s.rewriteRow k i v else s.rewritePhysical k i v (s.arg 3 - 1)) := rfl
    refine ⟨fun p hp hl hnew => ⟨s.rowRetired k p, ?_, ?_⟩, ?_⟩
    · rw [hexec, if_neg (by omega), hp, Nat.add_sub_cancel, s.rewritePhysical_idle k i v p hj ho, show (s.tile k).logicalRow p = none from hl]
    · obtain ⟨hraise, htile⟩ := s.rowRetired_raises k p hnew
      exact ⟨hraise.asks, htile⟩
    · intro r hr old hrow hold hv hb
      obtain ⟨hraise, htile⟩ := s.rewriteRow_raises k r hk hrow hj ho hold hb
      refine ⟨s.rewriteRow k r 0, by rw [hexec, s.mramRowRewrite_logical k i r hj ho hr v, hv], hraise.asks, ?_⟩
      rw [htile]
      exact ⟨z.rowMoved_retires r, fun f fs hf => z.rowMoved_free r f fs hf⟩

end Sys2Proof.Machine
end

