-- ==== Sys2Proof/Proofs/AgendaOrder.lean ====
section
/-! SUPPORT. The agenda in the order of its ticks (log 10, DESIGN CHOICE): an entry put in behind those of its tick keeps the order as it was, and so does
what is built of operations that do no more. -/
namespace Sys2Proof.Machine

/-- The entries stand in the order of their ticks. -/
def InOrder (l : List Timed) : Prop := l.Pairwise fun a b => a.tick ≤ b.tick

theorem State.agendaInOrder_iff (s : State) : s.agendaInOrder ↔ InOrder s.agenda := Iff.rfl

theorem inOrder_cons (x : Timed) (xs : List Timed) : InOrder (x :: xs) ↔ (∀ y ∈ xs, x.tick ≤ y.tick) ∧ InOrder xs := List.pairwise_cons

/-- An entry is put in where its tick has its place: the list is then in order exactly where it was. -/
@[simp] theorem inOrder_insertTimed (e : Timed) (l : List Timed) : InOrder (insertTimed e l) ↔ InOrder l := by
  induction l with
  | nil => simp [insertTimed, InOrder]
  | cons x xs ih =>
    unfold insertTimed
    split
    · rename_i h
      simp only [inOrder_cons, List.forall_mem_cons]
      refine ⟨fun h => h.2, fun ⟨hx, hxs⟩ => ⟨⟨h.le, fun y hy => h.le.trans (hx y hy)⟩, hx, hxs⟩⟩
    · rename_i h
      simp only [inOrder_cons, mem_insertTimed, forall_eq_or_imp, ih, not_lt.1 h, true_and]

theorem InOrder.filter {l : List Timed} (h : InOrder l) (p : Timed → Bool) : InOrder (l.filter p) := List.Pairwise.filter p h

theorem InOrder.eraseIdx {l : List Timed} (h : InOrder l) (i : Nat) : InOrder (l.eraseIdx i) := List.Pairwise.sublist (List.eraseIdx_sublist ..) h

theorem InOrder.erase {l : List Timed} (h : InOrder l) (e : Timed) : InOrder (l.erase e) := List.Pairwise.sublist List.erase_sublist h

/-- A new GTICK moves all entries alike; those that were overdue come first. -/
theorem InOrder.retime {l : List Timed} (h : InOrder l) (old new : Nat) : InOrder (Machine.retime old new l) :=
  List.Pairwise.map _ (fun _ _ hab => Nat.add_le_add_left (Nat.sub_le_sub_right hab old) new) h

/-! Branches and folds. -/

@[simp] theorem inOrder_ite (c : Prop) [Decidable c] (a b : State) :
    InOrder (if c then a else b).agenda ↔ if c then InOrder a.agenda else InOrder b.agenda := by split <;> rfl

@[simp] theorem inOrder_ite_fst {α : Type} (c : Prop) [Decidable c] (a b : State × α) :
    InOrder (if c then a else b).1.agenda ↔ if c then InOrder a.1.agenda else InOrder b.1.agenda := by split <;> rfl

@[simp] theorem inOrder_foldl {α : Type} (f : State → α → State) (l : List α) (s : State) (h : ∀ s a, InOrder (f s a).agenda ↔ InOrder s.agenda) :
    InOrder (l.foldl f s).agenda ↔ InOrder s.agenda :=
  Iff.of_eq (foldl_keeps (fun s => InOrder s.agenda) f (fun s a => propext (h s a)) l s)

/-- The same of a fold that collects something beside the state. -/
theorem inOrder_foldl_fst {α β : Type} (f : State × β → α → State × β) (l : List α) (a : State × β)
    (h : ∀ a k, InOrder (f a k).1.agenda ↔ InOrder a.1.agenda) : InOrder (l.foldl f a).1.agenda ↔ InOrder a.1.agenda :=
  Iff.of_eq (foldl_keeps (fun a => InOrder a.1.agenda) f (fun a k => propext (h a k)) l a)

/-! What a meaning answers. -/

/-- A meaning that does not fault leaves the agenda in order exactly where it stands in order before. -/
def State.sameOrder (s : State) (r : Res) : Prop := ∀ u, r = .ok u → (InOrder u.agenda ↔ InOrder s.agenda)

@[simp] theorem State.sameOrder_ok (s u : State) : s.sameOrder (.ok u) ↔ (InOrder u.agenda ↔ InOrder s.agenda) := by
  simp [State.sameOrder]

@[simp] theorem State.sameOrder_error (s : State) (f : FaultInfo) : s.sameOrder (.error f) := by
  simp [State.sameOrder]

@[simp] theorem State.sameOrder_check (s : State) (c : Bool) (f : FaultInfo) (r : Res) : s.sameOrder (check c f r) ↔ (c = true → s.sameOrder r) := by
  cases c <;> simp

@[simp] theorem State.sameOrder_outsideHandler (s u : State) (r : Res) : s.sameOrder (u.outsideHandler r) ↔ (u.me.inHandler = false → s.sameOrder r) := by
  simp [State.outsideHandler]

@[simp] theorem State.sameOrder_ite (s : State) (c : Prop) [Decidable c] (a b : Res) :
    s.sameOrder (if c then a else b) ↔ if c then s.sameOrder a else s.sameOrder b := by split <;> rfl

end Sys2Proof.Machine
end

