-- ==== Sys2Proof/Proofs/AgendaOfWords.lean ====
section
/-! SUPPORT. What the shared operations and the instruction words do to the agenda: they enter happenings at their ticks, and nothing else. -/
namespace Sys2Proof.Machine

/-! Faults, records and results in flight. -/

@[simp] theorem State.modTile_inOrder (s : State) (t : Nat) (f : Tile → Tile) : InOrder (s.modTile t f).agenda ↔ InOrder s.agenda := by
  simp [State.modTile]

@[simp] theorem State.setSeq_inOrder (s : State) (t q : Nat) (y : Seq) : InOrder (s.setSeq t q y).agenda ↔ InOrder s.agenda := by simp [State.setSeq]

@[simp] theorem State.modSeq_inOrder (s : State) (t q : Nat) (f : Seq → Seq) : InOrder (s.modSeq t q f).agenda ↔ InOrder s.agenda := by
  simp [State.modSeq]

@[simp] theorem State.setMe_inOrder (s : State) (y : Seq) : InOrder (s.setMe y).agenda ↔ InOrder s.agenda := by simp [State.setMe]
@[simp] theorem State.modMe_inOrder (s : State) (f : Seq → Seq) : InOrder (s.modMe f).agenda ↔ InOrder s.agenda := by simp [State.modMe]
@[simp] theorem State.modMyTile_inOrder (s : State) (f : Tile → Tile) : InOrder (s.modMyTile f).agenda ↔ InOrder s.agenda := by simp [State.modMyTile]

@[simp] theorem State.modCtx_inOrder (s : State) (x : Nat) (f : Ctx → Ctx) : InOrder (s.modCtx x f).agenda ↔ InOrder s.agenda := by
  simp [State.modCtx]

@[simp] theorem State.tickFree_inOrder (s : State) : InOrder s.tickFree.agenda ↔ InOrder s.agenda := by simp [State.tickFree]

@[simp] theorem State.atTick_inOrder (s : State) (tick : Nat) (op : Instr) (args : List Nat) :
    InOrder (s.at_ tick op args).agenda ↔ InOrder s.agenda := by
  simp [State.at_]

@[simp] theorem State.after_inOrder (s : State) (d : Nat) (op : Instr) (args : List Nat) : InOrder (s.after d op args).agenda ↔ InOrder s.agenda := by
  simp [State.after]

@[simp] theorem State.thread_inOrder (s : State) (q : Nat) (op : Instr) (args : List Nat) (bytes : List Byte) :
    InOrder (s.thread q op args bytes).agenda ↔ InOrder s.agenda := by
  simp [State.thread]

@[simp] theorem State.emitFlight_inOrder (s : State) (f : Flight) : InOrder (s.emitFlight f).agenda ↔ InOrder s.agenda := by simp [State.emitFlight]
@[simp] theorem State.emit_inOrder (s : State) (lat : Nat) (act : Act) : InOrder (s.emit lat act).agenda ↔ InOrder s.agenda := by simp [State.emit]

@[simp] theorem State.emitFlags_inOrder (s : State) (lat : Nat) (act : Act) (fl : BitVec 5) :
    InOrder (s.emitFlags lat act fl).agenda ↔ InOrder s.agenda := by
  simp [State.emitFlags]

@[simp] theorem State.emitG_inOrder (s : State) (lat : Nat) (r : Nat) (v : W64) : InOrder (s.emitG lat r v).agenda ↔ InOrder s.agenda := by
  simp [State.emitG]

@[simp] theorem State.noteReport_inOrder (s : State) (x : Nat) (f : FaultInfo) : InOrder (s.noteReport x f).agenda ↔ InOrder s.agenda := by
  simp [State.noteReport]

@[simp] theorem State.moveRecords_inOrder (s : State) (late : List FaultRecord) : InOrder (s.moveRecords late).agenda ↔ InOrder s.agenda := by
  simp [State.moveRecords]

@[simp] theorem State.record_inOrder (s0 : State) (x : Nat) (r0 : FaultRecord) : InOrder (s0.record x r0).agenda ↔ InOrder s0.agenda := by
  simp [State.record]

@[simp] theorem State.endPartition_inOrder (s : State) (x level code : Nat) : InOrder (s.endPartition x level code).agenda ↔ InOrder s.agenda := by
  unfold State.endPartition
  dsimp only
  (repeat' split) <;> simp

@[simp] theorem State.stopRings_inOrder (s : State) (x : Nat) : InOrder (s.stopRings x).agenda ↔ InOrder s.agenda := by simp [State.stopRings]
@[simp] theorem State.joinRegion_inOrder (s : State) (x t : Nat) : InOrder (s.joinRegion x t).agenda ↔ InOrder s.agenda := by simp [State.joinRegion]

@[simp] theorem State.partitionFault_inOrder (s : State) (x t q : Nat) (f : FaultInfo) (escalated : Bool) :
    InOrder (s.partitionFault x t q f escalated).agenda ↔ InOrder s.agenda := by
  simp [State.partitionFault]

@[simp] theorem State.holdFault_inOrder (s : State) (t q : Nat) (f0 : FaultInfo) : InOrder (s.holdFault t q f0).agenda ↔ InOrder s.agenda := by
  simp [State.holdFault]

@[simp] theorem State.recordOnce_inOrder (s : State) (x : Nat) (r : FaultRecord) (old : Option FaultRecord) :
    InOrder (s.recordOnce x r old).agenda ↔ InOrder s.agenda := by
  unfold State.recordOnce
  split <;> simp

@[simp] theorem State.takeLocal_inOrder (s : State) (t q : Nat) (f : FaultInfo) (due : Nat) (old : Option FaultRecord) :
    InOrder (s.takeLocal t q f due old).agenda ↔ InOrder s.agenda := by
  unfold State.takeLocal
  dsimp only
  (repeat' split) <;> simp

@[simp] theorem State.requestFault_inOrder (s : State) (x slot t q : Nat) (f : FaultInfo) :
    InOrder (s.requestFault x slot t q f).agenda ↔ InOrder s.agenda := by
  simp [State.requestFault]

@[simp] theorem State.takeFault_inOrder (s : State) (t q : Nat) (f : FaultInfo) (due : Nat) :
    InOrder (s.takeFault t q f due).agenda ↔ InOrder s.agenda := by
  unfold State.takeFault
  dsimp only
  (repeat' split) <;> simp

@[simp] theorem State.trapIssue_inOrder (s : State) (f : FaultInfo) : InOrder (s.trapIssue f).agenda ↔ InOrder s.agenda := by simp [State.trapIssue]

@[simp] theorem State.leaveHandler_inOrder (s : State) (t q target : Nat) : InOrder (s.leaveHandler t q target).agenda ↔ InOrder s.agenda := by
  unfold State.leaveHandler
  dsimp only
  split <;> simp

/-! The scratchpad. -/

@[simp] theorem State.countCorrected_inOrder (s : State) (t kind n : Nat) : InOrder (s.countCorrected t kind n).agenda ↔ InOrder s.agenda := by
  simp [State.countCorrected]

@[simp] theorem State.countRebuild_inOrder (s : State) (t bank : Nat) : InOrder (s.countRebuild t bank).agenda ↔ InOrder s.agenda := by
  simp [State.countRebuild]

@[simp] theorem State.noteRebuild_inOrder (s : State) (t k : Nat) : InOrder (s.noteRebuild t k).agenda ↔ InOrder s.agenda := by
  simp [State.noteRebuild]

@[simp] theorem State.noteWord_inOrder (s : State) (t k : Nat) (w : WordLook) : InOrder (s.noteWord t k w).agenda ↔ InOrder s.agenda := by
  simp [State.noteWord]

@[simp] theorem State.readWord_inOrder (s : State) (t rank k : Nat) : InOrder (s.readWord t rank k).1.agenda ↔ InOrder s.agenda := by
  simp [State.readWord]

@[simp] theorem State.readWords_inOrder (s : State) (t rank : Nat) (ks : List Nat) : InOrder (s.readWords t rank ks).1.agenda ↔ InOrder s.agenda := by
  induction ks generalizing s with
  | nil => rfl
  | cons k ks ih => simp [State.readWords, ih]

@[simp] theorem State.readSpad_inOrder (s : State) (t rank a n : Nat) : InOrder (s.readSpad t rank a n).1.agenda ↔ InOrder s.agenda := by
  simp [State.readSpad]

@[simp] theorem State.noteBytes_inOrder (s : State) (t a n : Nat) : InOrder (s.noteBytes t a n).agenda ↔ InOrder s.agenda := by simp [State.noteBytes]

@[simp] theorem State.emitStore_inOrder (s : State) (lat : Nat) (w : LocalWrite) : InOrder (s.emitStore lat w).agenda ↔ InOrder s.agenda := by
  simp [State.emitStore]

/-! Weight MRAM. -/

@[simp] theorem State.retireRow_inOrder (s : State) (t off phys : Nat) : InOrder (s.retireRow t off phys).agenda ↔ InOrder s.agenda := by
  simp [State.retireRow]

@[simp] theorem State.noteBadRow_inOrder (s : State) (t off phys : Nat) (p : Option Poison) :
    InOrder (s.noteBadRow t off phys p).agenda ↔ InOrder s.agenda := by
  unfold State.noteBadRow
  split <;> simp

@[simp] theorem State.noteFixes_inOrder (s : State) (t off phys : Nat) (ws : List (Vec × Option Poison × Nat)) :
    InOrder (s.noteFixes t off phys ws).agenda ↔ InOrder s.agenda := by
  simp [State.noteFixes]

@[simp] theorem State.readMramVia_inOrder (s : State) (t rank phys off n : Nat) :
    InOrder (s.readMramVia t rank phys off n).1.agenda ↔ InOrder s.agenda := by
  simp [State.readMramVia]

@[simp] theorem State.readMram_inOrder (s : State) (t rank off n : Nat) : InOrder (s.readMram t rank off n).1.agenda ↔ InOrder s.agenda := by
  simp [State.readMram]

/-! Translation and memory. -/

@[simp] theorem State.poisonSector_inOrder (s : State) (k : Nat) (p : Poison) : InOrder (s.poisonSector k p).agenda ↔ InOrder s.agenda := by
  simp [State.poisonSector]

@[simp] theorem State.noteDirty_inOrder (s : State) (w : GlobalWrite) : InOrder (s.noteDirty w).agenda ↔ InOrder s.agenda := by simp [State.noteDirty]
@[simp] theorem State.memPut_inOrder (s : State) (w0 : GlobalWrite) : InOrder (s.memPut w0).agenda ↔ InOrder s.agenda := by simp [State.memPut]

theorem State.translate_inOrder {s u : State} {t q va pa : Nat} {w nc : Bool} (h : s.translate t q va w = .ok (u, pa, nc)) :
    InOrder u.agenda ↔ InOrder s.agenda := by
  unfold State.translate at h
  grind [State.setSeq_inOrder]

/-! The L1 and staging. -/

@[simp] theorem State.stageAt_inOrder (s : State) (t q tick : Nat) (w : GlobalWrite) : InOrder (s.stageAt t q tick w).agenda ↔ InOrder s.agenda := by
  simp [State.stageAt]

@[simp] theorem State.stage_inOrder (s : State) (t q : Nat) (w : GlobalWrite) : InOrder (s.stage t q w).agenda ↔ InOrder s.agenda := by
  simp [State.stage]

@[simp] theorem State.stageAll_inOrder (s : State) (t q : Nat) (w : GlobalWrite) : InOrder (s.stageAll t q w).agenda ↔ InOrder s.agenda := by
  simp [State.stageAll]

@[simp] theorem State.countSectors_inOrder (s : State) (t : Nat) (ks : List Nat) : InOrder (s.countSectors t ks).agenda ↔ InOrder s.agenda := by
  unfold State.countSectors
  split
  · rfl
  · refine inOrder_foldl _ _ _ fun s k => ?_
    dsimp only
    split <;> simp

@[simp] theorem State.arrive_inOrder (s : State) (e : ExternalWrite) : InOrder (s.arrive e).agenda ↔ InOrder s.agenda := by simp [State.arrive]

@[simp] theorem State.putLine_inOrder (s : State) (t q : Nat) (l : Line) : InOrder (s.putLine t q l).agenda ↔ InOrder s.agenda := by
  unfold State.putLine
  dsimp only
  split <;> simp

@[simp] theorem State.l1Write_inOrder (s : State) (t q : Nat) (w : GlobalWrite) : InOrder (s.l1Write t q w).agenda ↔ InOrder s.agenda := by
  simp [State.l1Write]

@[simp] theorem State.l1Read_inOrder (s : State) (t q pa : Nat) : InOrder (s.l1Read t q pa).1.agenda ↔ InOrder s.agenda := by simp [State.l1Read]

@[simp] theorem State.apertureWrite_inOrder (s : State) (t q owner : Nat) (w : GlobalWrite) (cmd : Option (Nat × Nat × Nat)) :
    InOrder (s.apertureWrite t q owner w cmd).agenda ↔ InOrder s.agenda := by
  simp [State.apertureWrite]

@[simp] theorem State.globalStore_inOrder (s : State) (t q : Nat) (w0 : GlobalWrite) (nc : Bool) (cmd : Option (Nat × Nat × Nat)) :
    InOrder (s.globalStore t q w0 nc cmd).agenda ↔ InOrder s.agenda := by
  unfold State.globalStore
  dsimp only
  (repeat' split) <;> simp

@[simp] theorem State.wordStore_inOrder (s : State) (t q : Nat) (w : GlobalWrite) (nc : Bool) :
    InOrder (s.wordStore t q w nc).agenda ↔ InOrder s.agenda := by
  simp [State.wordStore]

/-! Scalar words. -/

@[simp] theorem State.srOp_inOrder (s : State) (d a b : BitVec 5) (m : BitVec 3) (lat : Nat) (f : Nat → Nat → Nat → Int) :
    InOrder (s.srOp d a b m lat f).agenda ↔ InOrder s.agenda := by
  simp [State.srOp]

@[simp] theorem State.srUnary_inOrder (s : State) (d a : BitVec 5) (m : BitVec 3) (f : Nat → Nat → Int) :
    InOrder (s.srUnary d a m f).agenda ↔ InOrder s.agenda := by
  simp [State.srUnary]

@[simp] theorem State.loadScratch_inOrder (s : State) (g a : BitVec 5) (sz : BitVec 2) (o : BitVec 9) : s.sameOrder (s.loadScratch g a sz o) := by
  unfold State.loadScratch
  dsimp only
  split <;> simp

@[simp] theorem State.storeScratch_inOrder (s : State) (g a : BitVec 5) (sz : BitVec 2) (o : BitVec 9) : s.sameOrder (s.storeScratch g a sz o) := by
  unfold State.storeScratch
  dsimp only
  split <;> simp

@[simp] theorem State.loadMram_inOrder (s : State) (g a : BitVec 5) (sz : BitVec 2) (o : BitVec 9) : s.sameOrder (s.loadMram g a sz o) := by
  unfold State.loadMram
  dsimp only
  split <;> simp

@[simp] theorem State.storeGlobal_inOrder (s : State) (g a : BitVec 5) (k : BitVec 3) (sz : BitVec 2) (o : BitVec 6) : s.sameOrder (s.storeGlobal g a k sz o) := by
  unfold State.storeGlobal
  dsimp only
  split
  · simp
  · rename_i h; simp [State.translate_inOrder h]

@[simp] theorem State.requestSlot_inOrder (s : State) (l arrival ready : Nat) (data : Vec) (p : Option Poison) (source : Nat) :
    InOrder (s.requestSlot l arrival ready data p source).agenda ↔ InOrder s.agenda := by
  simp [State.requestSlot]

@[simp] theorem State.loadSector_inOrder (s : State) (t q pa n : Nat) (nc hit : Bool) :
    InOrder (s.loadSector t q pa n nc hit).1.agenda ↔ InOrder s.agenda := by
  unfold State.loadSector
  split <;> simp

@[simp] theorem State.loadSlot_inOrder (s : State) (l : BitVec 4) (addr n : Nat) (a8 : BitVec 8) : s.sameOrder (s.loadSlot l addr n a8) := by
  unfold State.loadSlot
  dsimp only
  split
  · simp
  · rename_i h; simp [State.translate_inOrder h]

@[simp] theorem State.consume_inOrder (s : State) (l : Nat) : InOrder (s.consume l).agenda ↔ InOrder s.agenda := by simp [State.consume]

@[simp] theorem State.readSlot_inOrder (s : State) (d : BitVec 5) (l : BitVec 4) (sz : BitVec 2) (o : BitVec 6) (keep : Bool) :
    s.sameOrder (s.readSlot d l sz o keep) := by
  simp [State.readSlot]

/-! Control transfer and control registers. -/

@[simp] theorem State.branch_inOrder {s u : State} (h : InOrder u.agenda ↔ InOrder s.agenda) (target : Nat) : s.sameOrder (u.branch target) := by
  simp [State.branch, h]

@[simp] theorem State.push_inOrder (s : State) : InOrder s.push.agenda ↔ InOrder s.agenda := by simp [State.push]

@[simp] theorem State.callTo_inOrder (s : State) (target : Nat) : s.sameOrder (s.callTo target) := by
  simp [State.callTo, State.branch_inOrder]

@[simp] theorem State.returnTo_inOrder (s : State) : s.sameOrder s.returnTo := by
  unfold State.returnTo
  split
  · simp
  · exact State.branch_inOrder (by simp) _

@[simp] theorem State.branchIf_inOrder {s u : State} (h : InOrder u.agenda ↔ InOrder s.agenda) (c : Bool) (o : BitVec 16) : s.sameOrder (u.branchIf c o) := by
  simp [State.branchIf, State.branch_inOrder, h]

@[simp] theorem State.branchUniform_inOrder (s : State) (p : BitVec 3) (o : BitVec 16) : s.sameOrder (s.branchUniform p o) := by
  simp [State.branchUniform]

@[simp] theorem State.loopUpdates_inOrder (s : State) (l : BitVec 2) (r : BitVec 2) (c : Nat) :
    InOrder (s.loopUpdates l r c).agenda ↔ InOrder s.agenda := by
  simp [State.loopUpdates]

@[simp] theorem State.flushL1_inOrder (s : State) (t q : Nat) : InOrder (s.flushL1 t q).agenda ↔ InOrder s.agenda := by simp [State.flushL1]
@[simp] theorem State.moveToCtl_inOrder (s : State) (g : BitVec 5) (c : BitVec 8) : s.sameOrder (s.moveToCtl g c) := by simp [State.moveToCtl]

@[simp] theorem State.writeCtl_inOrder (s : State) (t q c : Nat) (v : W64) : InOrder (s.writeCtl t q c v).agenda ↔ InOrder s.agenda := by
  simp [State.writeCtl]

@[simp] theorem State.emitP_inOrder (s : State) (lat : Nat) (d : BitVec 3) (v : W64) : InOrder (s.emitP lat d v).agenda ↔ InOrder s.agenda := by
  simp [State.emitP]

/-! Vector integer words. -/

@[simp] theorem State.emitV_inOrder (s : State) (lat : Nat) (d : BitVec 6) (mask : BitVec 64) (v : Vec) :
    InOrder (s.emitV lat d mask v).agenda ↔ InOrder s.agenda := by
  simp [State.emitV]

@[simp] theorem State.laneOp_inOrder (s : State) (lat : Nat) (e : BitVec 2) (d : BitVec 6) (p : BitVec 3) (f : Nat → Nat) :
    InOrder (s.laneOp lat e d p f).agenda ↔ InOrder s.agenda := by
  simp [State.laneOp]

@[simp] theorem State.vecOp_inOrder (s : State) (e : BitVec 2) (d a b : BitVec 6) (p : BitVec 3) (lat : Nat) (f : Nat → Nat → Nat → Int) :
    InOrder (s.vecOp e d a b p lat f).agenda ↔ InOrder s.agenda := by
  simp [State.vecOp]

@[simp] theorem State.vecFunnel_inOrder (s : State) (e : BitVec 2) (d a b : BitVec 6) (p : BitVec 3) (f : Nat → Nat → Nat → Nat → Nat) :
    InOrder (s.vecFunnel e d a b p f).agenda ↔ InOrder s.agenda := by
  simp [State.vecFunnel]

@[simp] theorem State.emitCompare_inOrder (s : State) (e : BitVec 2) (d p : BitVec 3) (f : Nat → Bool) :
    InOrder (s.emitCompare e d p f).agenda ↔ InOrder s.agenda := by
  simp [State.emitCompare]

@[simp] theorem State.vecCompare_inOrder (s : State) (e : BitVec 2) (d : BitVec 3) (a b : BitVec 6) (p : BitVec 3) (f : Nat → Nat → Nat → Bool) :
    InOrder (s.vecCompare e d a b p f).agenda ↔ InOrder s.agenda := by
  simp [State.vecCompare]

/-! Vector floating words. -/

@[simp] theorem State.fLanes_inOrder (s : State) (lat : Nat) (eb : Nat) (d : BitVec 6) (p : BitVec 3) (op : Option (Nat × Nat × Vec × Vec × Vec)) (f : Nat → Nat × FFlags) :
    InOrder (s.fLanes lat eb d p op f).agenda ↔ InOrder s.agenda := by
  simp [State.fLanes]

@[simp] theorem State.fOp_inOrder (s : State) (e : BitVec 2) (d a b : BitVec 6) (p : BitVec 3) (op : Option Nat) (f : Fmt → Nat → Nat → Nat → Nat → Nat × FFlags) :
    InOrder (s.fOp e d a b p op f).agenda ↔ InOrder s.agenda := by
  simp [State.fOp]

@[simp] theorem State.fCompare_inOrder (s : State) (e : BitVec 2) (d : BitVec 3) (a b : BitVec 6) (p : BitVec 3) (f : Fmt → Nat → Nat → Bool × FFlags) :
    InOrder (s.fCompare e d a b p f).agenda ↔ InOrder s.agenda := by
  simp [State.fCompare]

@[simp] theorem State.narrow_inOrder (s : State) (d a : BitVec 6) (q : BitVec 3) (m : BitVec 3) (p : BitVec 3) :
    InOrder (s.narrow d a q m p).agenda ↔ InOrder s.agenda := by
  simp [State.narrow]

@[simp] theorem State.emitReduced_inOrder (s : State) (eb : Nat) (d : BitVec 6) (r : Nat) (fl : FFlags) (shadow : Option (Nat × Nat × Vec × Vec × Vec × BitVec 64)) :
    InOrder (s.emitReduced eb d r fl shadow).agenda ↔ InOrder s.agenda := by
  simp [State.emitReduced]

@[simp] theorem State.fReduce_inOrder (s : State) (e : BitVec 2) (d a : BitVec 6) (p : BitVec 3) (empty : Nat) (shadowed : Bool) (f : Nat → Nat → Nat × FFlags) :
    InOrder (s.fReduce e d a p empty shadowed f).agenda ↔ InOrder s.agenda := by
  simp [State.fReduce]

/-! Vector memory words. -/

@[simp] theorem State.vecLoad_inOrder (s : State) (e : BitVec 2) (v : BitVec 6) (addr align : Nat) (p : BitVec 3) :
    s.sameOrder (s.vecLoad e v addr align p) := by
  unfold State.vecLoad
  split <;> simp

@[simp] theorem State.vecStore_inOrder (s : State) (e : BitVec 2) (v : BitVec 6) (addr align : Nat) (p : BitVec 3) :
    s.sameOrder (s.vecStore e v addr align p) := by
  unfold State.vecStore
  split <;> simp

@[simp] theorem State.vecLoadMram_inOrder (s : State) (e : BitVec 2) (v : BitVec 6) (addr : Nat) (p : BitVec 3) :
    s.sameOrder (s.vecLoadMram e v addr p) := by
  unfold State.vecLoadMram
  split <;> simp

@[simp] theorem State.vecGather_inOrder (s : State) (e : BitVec 2) (v : BitVec 6) (a : BitVec 5) (o : BitVec 7) (p : BitVec 3) :
    s.sameOrder (s.vecGather e v a o p) := by
  unfold State.vecGather
  split <;> simp

@[simp] theorem State.vecScatter_inOrder (s : State) (e : BitVec 2) (v : BitVec 6) (a : BitVec 5) (o : BitVec 7) (p : BitVec 3) :
    s.sameOrder (s.vecScatter e v a o p) := by
  unfold State.vecScatter
  split <;> simp

@[simp] theorem State.vecReadSlot_inOrder (s : State) (d : BitVec 6) (l : BitVec 4) (keep : Bool) : s.sameOrder (s.vecReadSlot d l keep) := by
  simp [State.vecReadSlot]

@[simp] theorem State.vecStoreGlobal_inOrder (s : State) (e : BitVec 2) (v : BitVec 6) (a : BitVec 5) (sc p : BitVec 3) : s.sameOrder (s.vecStoreGlobal e v a sc p) := by
  unfold State.vecStoreGlobal
  dsimp only
  split
  · simp
  · rename_i h; simp [State.translate_inOrder h]

/-! Tile registers and the array. -/

@[simp] theorem State.tshape_inOrder (s : State) (t e : BitVec 3) (r : BitVec 6) (c : BitVec 8) : s.sameOrder (s.tshape t e r c) := by
  simp [State.tshape]

@[simp] theorem State.emitRow_inOrder (s : State) (lat t row : Nat) (bs : List Byte) (p : Option Poison) :
    InOrder (s.emitRow lat t row bs p).agenda ↔ InOrder s.agenda := by
  simp [State.emitRow]

@[simp] theorem State.tld_inOrder (s : State) (t : BitVec 3) (a b : BitVec 5) : s.sameOrder (s.tld t a b) := by
  unfold State.tld
  split <;> simp

@[simp] theorem State.tldm_inOrder (s : State) (t : BitVec 3) (a b : BitVec 5) : s.sameOrder (s.tldm t a b) := by
  unfold State.tldm
  dsimp only
  split <;> simp

@[simp] theorem State.tst_inOrder (s : State) (t : BitVec 3) (a b : BitVec 5) : s.sameOrder (s.tst t a b) := by
  unfold State.tst
  split <;> simp

@[simp] theorem State.ttr_inOrder (s : State) (t : BitVec 3) : s.sameOrder (s.ttr t) := by simp [State.ttr]

@[simp] theorem State.mma_inOrder (s : State) (a : BitVec 2) (wa wb : Nat) (x y : BitVec 3) (tm : Option (BitVec 3)) (z r k o : BitVec 1) (b : BitVec 3) :
    s.sameOrder (s.mma a wa wb x y tm z r k o b) := by
  simp [State.mma]

@[simp] theorem State.accscl_inOrder (s : State) (a : BitVec 2) (o : BitVec 1) (x y b : BitVec 3) : s.sameOrder (s.accscl a o x y b) := by
  simp [State.accscl]

@[simp] theorem State.emitRows_inOrder (s : State) (v n : Nat) (f : Nat → Vec) : InOrder (s.emitRows v n f).agenda ↔ InOrder s.agenda := by
  simp [State.emitRows]

/-! Copy commands at issue. -/

@[simp] theorem State.queueCommand_inOrder (s : State) (c : Command) : s.sameOrder (s.queueCommand c) := by simp [State.queueCommand]
@[simp] theorem State.redc_inOrder (s : State) (a b c : BitVec 5) (sc f : BitVec 3) : s.sameOrder (s.redc a b c sc f) := by simp [State.redc]
@[simp] theorem State.cget_inOrder (s : State) (l : BitVec 4) (x : BitVec 1) : s.sameOrder (s.cget l x) := by simp [State.cget]

/-! Boundaries, fences, atomics. -/

@[simp] theorem State.boundary_inOrder (s : State) (kind : Nat) (sc : BitVec 3) (lv : BitVec 1) (lvl : BitVec 3) :
    s.sameOrder (s.boundary kind sc lv lvl) := by
  unfold State.boundary
  split <;> simp

@[simp] theorem State.fence_inOrder (s : State) (sc : BitVec 3) (lv : BitVec 1) (lvl : BitVec 3) : s.sameOrder (s.fence sc lv lvl) := by
  simp [State.fence]

@[simp] theorem State.wgo_inOrder (s : State) (sc : BitVec 3) (lv : BitVec 1) : s.sameOrder (s.wgo sc lv) := by simp [State.wgo]

@[simp] theorem State.atomic_inOrder (s : State) (d a b : BitVec 5) (sz : BitVec 2) (f : Nat → Nat → Nat → Nat → Nat) :
    s.sameOrder (s.atomic d a b sz f) := by
  unfold State.atomic
  dsimp only
  split <;> simp

/-! Serving words. -/

@[simp] theorem State.rqcommit_inOrder (s : State) (d a b : BitVec 5) : s.sameOrder (s.rqcommit d a b) := by simp [State.rqcommit]
@[simp] theorem State.rqflt_inOrder (s : State) (a b : BitVec 5) : s.sameOrder (s.rqflt a b) := by simp [State.rqflt]

/-! The weight journal. -/

@[simp] theorem State.modJournal_inOrder (s : State) (t : Nat) (f : Journal → Journal) : InOrder (s.modJournal t f).agenda ↔ InOrder s.agenda := by
  simp [State.modJournal]

@[simp] theorem State.journalDue_inOrder (s : State) (t tick : Nat) : InOrder (s.journalDue t tick).agenda ↔ InOrder s.agenda := by
  simp [State.journalDue]

@[simp] theorem State.journalStart_inOrder (s : State) (t : Nat) : InOrder (s.journalStart t).agenda ↔ InOrder s.agenda := by
  unfold State.journalStart
  dsimp only
  (repeat' split) <;> simp

@[simp] theorem State.journalTell_inOrder (s : State) (t : Nat) : InOrder (s.journalTell t).agenda ↔ InOrder s.agenda := by
  unfold State.journalTell
  split <;> simp

@[simp] theorem State.journalOpen_inOrder (s : State) (t owner ctx n : Nat) (queue : Option Nat) :
    InOrder (s.journalOpen t owner ctx n queue).agenda ↔ InOrder s.agenda := by
  simp [State.journalOpen]

@[simp] theorem State.journalPut_inOrder (s : State) (t : Nat) (p : Put) (addr : Nat) :
    InOrder (s.journalPut t p addr).agenda ↔ InOrder s.agenda := by
  simp [State.journalPut]

@[simp] theorem State.journalCommit_inOrder (s : State) (t : Nat) : InOrder (s.journalCommit t).agenda ↔ InOrder s.agenda := by
  simp [State.journalCommit]

@[simp] theorem State.journalAbort_inOrder (s : State) (t : Nat) : InOrder (s.journalAbort t).agenda ↔ InOrder s.agenda := by
  simp [State.journalAbort]

@[simp] theorem State.journalFail_inOrder (s : State) (t : Nat) : InOrder (s.journalFail t).agenda ↔ InOrder s.agenda := by simp [State.journalFail]
@[simp] theorem State.journalCommand_inOrder (s : State) : InOrder s.journalCommand.agenda ↔ InOrder s.agenda := by simp [State.journalCommand]
@[simp] theorem State.wjopen_inOrder (s : State) (a : BitVec 5) : s.sameOrder (s.wjopen a) := by simp [State.wjopen]

@[simp] theorem State.wjput_inOrder (s : State) (d a b : BitVec 5) : s.sameOrder (s.wjput d a b) := by
  unfold State.wjput
  dsimp only
  split
  · simp
  · simp only [State.sameOrder_outsideHandler, State.sameOrder_check, State.sameOrder_ok]
    intros
    rw [State.journalPut_inOrder, State.journalCommand_inOrder]
    exact inOrder_foldl_fst _ _ (s, [], []) fun a k => by simp

@[simp] theorem State.wjstat_inOrder (s : State) (d a : BitVec 5) : s.sameOrder (s.wjstat d a) := by simp [State.wjstat]

@[simp] theorem State.noteBase_inOrder (s : State) (t : Nat) (p : Put) (ws : List (Vec × Option Poison × Nat)) :
    InOrder (s.noteBase t p ws).agenda ↔ InOrder s.agenda := by
  simp [State.noteBase]

@[simp] theorem State.journalPulse_inOrder (s : State) (t : Nat) : InOrder (s.journalPulse t).agenda ↔ InOrder s.agenda := by
  unfold State.journalPulse
  dsimp only
  (repeat' split) <;> simp

@[simp] theorem State.commitMap_inOrder (s : State) (t : Nat) : InOrder (s.commitMap t).agenda ↔ InOrder s.agenda := by
  unfold State.commitMap
  dsimp only
  split <;> simp

@[simp] theorem State.verifyPassed_inOrder (s : State) (t : Nat) : InOrder (s.verifyPassed t).agenda ↔ InOrder s.agenda := by
  unfold State.verifyPassed
  dsimp only
  split <;> simp

@[simp] theorem State.verifyFailed_inOrder (s : State) (t : Nat) : InOrder (s.verifyFailed t).agenda ↔ InOrder s.agenda := by
  unfold State.verifyFailed
  dsimp only
  (repeat' split) <;> simp

@[simp] theorem State.journalVerify_inOrder (s : State) (t : Nat) : InOrder (s.journalVerify t).agenda ↔ InOrder s.agenda := by
  simp [State.journalVerify]

@[simp] theorem State.journalResume_inOrder (s : State) (t : Nat) : InOrder (s.journalResume t).agenda ↔ InOrder s.agenda := by
  simp [State.journalResume]

@[simp] theorem State.journalDiscard_inOrder (s : State) (t : Nat) : InOrder (s.journalDiscard t).1.agenda ↔ InOrder s.agenda := by
  simp [State.journalDiscard]

/-! Containment and diagnostics. -/

@[simp] theorem State.cropen_inOrder (s : State) (i : BitVec 3) (o : BitVec 16) : s.sameOrder (s.cropen i o) := by simp [State.cropen]
@[simp] theorem State.crclose_inOrder (s : State) (i : BitVec 3) : s.sameOrder (s.crclose i) := by simp [State.crclose]
@[simp] theorem State.fret_inOrder (s : State) (next : Bool) : s.sameOrder (s.fret next) := by simp [State.fret]

theorem State.diagTarget_inOrder {s u : State} {a : Nat} {w : Bool} {k : DiagTarget} (h : s.diagTarget a w = .ok (u, k)) :
    InOrder u.agenda ↔ InOrder s.agenda := by
  unfold State.diagTarget at h
  grind [State.translate_inOrder]

theorem State.diagStore_inOrder {s u : State} (h : InOrder u.agenda ↔ InOrder s.agenda) (a : Nat) (k : DiagTarget) (v : Vec) (bs : List Byte) :
    s.sameOrder (u.diagStore a k v bs) := by
  unfold State.diagStore
  split <;> simp [h]

@[simp] theorem State.diagst_inOrder (s : State) (a b : BitVec 5) : s.sameOrder (s.diagst a b) := by
  unfold State.diagst
  split
  · simp
  · rename_i h
    split
    · simp
    · simp [State.diagStore_inOrder, State.diagTarget_inOrder h]

@[simp] theorem State.diagRead_inOrder (s : State) (k : DiagTarget) : InOrder (s.diagRead k).1.agenda ↔ InOrder s.agenda := by
  unfold State.diagRead
  split <;> simp

@[simp] theorem State.diagld_inOrder (s : State) (d a b : BitVec 5) : s.sameOrder (s.diagld d a b) := by
  unfold State.diagld
  split
  · simp
  · rename_i h
    split <;> simp [State.diagTarget_inOrder h]

end Sys2Proof.Machine
end

