-- ==== Sys2Proof/Proofs/AgendaOfTiles.lean ====
section
/-! SUPPORT. The same of a tile's landings, engines, ports, phase boundaries and power states. -/
namespace Sys2Proof.Machine

/-! Landings. -/

@[simp] theorem State.refuseRow_inOrder (s : State) (t q : Nat) (f : Flight) (addr : Nat) :
    InOrder (s.refuseRow t q f addr).1.agenda ↔ InOrder s.agenda := by
  simp [State.refuseRow]

@[simp] theorem State.fetchRow_inOrder (s : State) (t q : Nat) (f : Flight) (r row n src : Nat) (phys : Option Nat) :
    InOrder (s.fetchRow t q f r row n src phys).1.agenda ↔ InOrder s.agenda := by
  unfold State.fetchRow
  split <;> simp

@[simp] theorem State.performLocal_inOrder (s : State) (t q : Nat) (f : Flight) (w : LocalWrite) :
    InOrder (s.performLocal t q f w).1.agenda ↔ InOrder s.agenda := by
  simp [State.performLocal]

@[simp] theorem State.performParity_inOrder (s : State) (t q : Nat) (f : Flight) (g w : Nat) (v : Vec) (c : BitVec 64) :
    InOrder (s.performParity t q f g w v c).agenda ↔ InOrder s.agenda := by
  simp [State.performParity]

@[simp] theorem State.mapack_inOrder (s : State) (x : Nat) (v : W64) : InOrder (s.mapack x v).agenda ↔ InOrder s.agenda := by simp [State.mapack]

@[simp] theorem State.condWrite_inOrder (s : State) (x : Nat) (mask val : BitVec 32) :
    InOrder (s.condWrite x mask val).agenda ↔ InOrder s.agenda := by
  simp [State.condWrite]

@[simp] theorem State.landAct_inOrder (s : State) (t q : Nat) (f : Flight) : InOrder (s.landAct t q f).1.agenda ↔ InOrder s.agenda := by
  cases h : f.act with
  | ctl | tileFetch | store | parity | overlay | global | cond | mapack | diagDesc | wjOpen | wjCommit => simp [State.landAct, h]
  | g | v | p | narrow | tileRow | tileAll | mma | accz | accscl | ozero | orow | regionPush | regionPop | seed =>
    simp only [State.landAct, h]
    exact State.setSeq_inOrder ..

@[simp] theorem State.land_inOrder (s : State) (t q : Nat) (f : Flight) : InOrder (s.land t q f).1.agenda ↔ InOrder s.agenda := by simp [State.land]

@[simp] theorem State.takeDue_inOrder (s : State) (t q : Nat) (fs : List FaultInfo) : InOrder (s.takeDue t q fs).agenda ↔ InOrder s.agenda := by
  simp [State.takeDue]

@[simp] theorem State.landNext_inOrder (s : State) (t q : Nat) : InOrder (s.landNext t q).agenda ↔ InOrder s.agenda := by
  unfold State.landNext
  split <;> simp

@[simp] theorem State.landingArrival_inOrder (s : State) (t q l ticket : Nat) :
    InOrder (s.landingArrival t q l ticket).agenda ↔ InOrder s.agenda := by
  simp [State.landingArrival]

@[simp] theorem State.landingDue_inOrder (s : State) (t q l : Nat) : InOrder (s.landingDue t q l).agenda ↔ InOrder s.agenda := by
  simp [State.landingDue]

@[simp] theorem State.freezeTimeout_inOrder (s : State) (t : Nat) : InOrder (s.freezeTimeout t).agenda ↔ InOrder s.agenda := by
  simp [State.freezeTimeout]

/-! The copy engines. -/

@[simp] theorem State.modQueue_inOrder (s : State) (t q c : Nat) (f : CopyQueue → CopyQueue) :
    InOrder (s.modQueue t q c f).agenda ↔ InOrder s.agenda := by
  simp [State.modQueue]

@[simp] theorem State.flagQueue_inOrder (s : State) (t q c : Nat) : InOrder (s.flagQueue t q c).agenda ↔ InOrder s.agenda := by simp [State.flagQueue]

@[simp] theorem State.noteEngineBytes_inOrder (s : State) (t pa n : Nat) : InOrder (s.noteEngineBytes t pa n).agenda ↔ InOrder s.agenda := by
  unfold State.noteEngineBytes
  split <;> simp

theorem State.translatePages_inOrder {t q : Nat} {w : Bool} {ks : List (Nat × Nat)} {s u : State} {m : Map Nat} (h : s.translatePages t q w ks = .ok (u, m)) :
    InOrder u.agenda ↔ InOrder s.agenda := by
  induction ks generalizing s u m with
  | nil => simp_all [State.translatePages]
  | cons e ks ih =>
    unfold State.translatePages at h
    grind [State.translate_inOrder]

theorem State.framePages_inOrder {t q list held : Nat} {w : Bool} {ks : List Nat} {s u : State} {m : Map Nat} (h : s.framePages t q list held w ks = .ok (u, m)) :
    InOrder u.agenda ↔ InOrder s.agenda := by
  induction ks generalizing s u m with
  | nil => simp_all [State.framePages]
  | cons e ks ih =>
    unfold State.framePages at h
    split at h
    · cases h
    split at h
    · cases h
    rename_i hlist
    dsimp only at h
    split at h
    · cases h
    rename_i hframe
    split at h
    · cases h
    · rename_i hrest
      cases h
      rw [ih hrest, State.translate_inOrder hframe, State.translate_inOrder hlist]

theorem State.commandPages_inOrder {s u : State} {t q : Nat} {k : Command} {m : Map Nat} (h : s.commandPages t q k = .ok (u, m)) :
    InOrder u.agenda ↔ InOrder s.agenda := by
  unfold State.commandPages at h
  grind [State.translatePages_inOrder, State.framePages_inOrder]

@[simp] theorem State.noteBeats_inOrder (s : State) (t : Nat) (k : Command) (pages : Map Nat) :
    InOrder (s.noteBeats t k pages).agenda ↔ InOrder s.agenda := by
  simp [State.noteBeats]

@[simp] theorem State.endCommand_inOrder (s : State) (t q c i : Nat) (z : CopyQueue) :
    InOrder (s.endCommand t q c i z).agenda ↔ InOrder s.agenda := by
  simp [State.endCommand]

@[simp] theorem State.copyStart_inOrder (s : State) (t q c i : Nat) (k : Command) : InOrder (s.copyStart t q c i k).1.agenda ↔ InOrder s.agenda := by
  unfold State.copyStart
  split
  · simp
  · rename_i h; simp [State.commandPages_inOrder h]

@[simp] theorem State.refuseBeat_inOrder (s : State) (t q c : Nat) (k : Command) (off : Nat) :
    InOrder (s.refuseBeat t q c k off).1.agenda ↔ InOrder s.agenda := by
  simp [State.refuseBeat]

@[simp] theorem State.beatRead_inOrder (s : State) (t q c i : Nat) (k : Command) : InOrder (s.beatRead t q c i k).1.agenda ↔ InOrder s.agenda := by
  simp [State.beatRead]

@[simp] theorem State.inboundTo_inOrder (s : State) (m issuer : Nat) (multicast : Bool) (w : LocalWrite) (cmd : Option (Nat × Nat × Nat)) :
    InOrder (s.inboundTo m issuer multicast w cmd).agenda ↔ InOrder s.agenda := by
  simp [State.inboundTo]

@[simp] theorem State.beatStaged_inOrder (s : State) (t q c : Nat) (k : Command) (j va : Nat) (bs : List Byte) (p : Option Poison) :
    InOrder (s.beatStaged t q c k j va bs p).agenda ↔ InOrder s.agenda := by
  simp [State.beatStaged]

@[simp] theorem State.apertureArrival_inOrder (s : State) (me owner at0 : Nat) (cells : Map Byte) (p : Option Poison) :
    InOrder (s.apertureArrival me owner at0 cells p).agenda ↔ InOrder s.agenda := by
  simp [State.apertureArrival]

@[simp] theorem State.beatSent_inOrder (s : State) (t q c i : Nat) (k : Command) (j : Nat) (bs : List Byte) (p : Option Poison) :
    InOrder (s.beatSent t q c i k j bs p).agenda ↔ InOrder s.agenda := by
  unfold State.beatSent
  dsimp only
  split <;> simp

@[simp] theorem State.beatWrite_inOrder (s : State) (t q c i : Nat) (k : Command) (j : Nat) (bs : List Byte) (p : Option Poison) :
    InOrder (s.beatWrite t q c i k j bs p).agenda ↔ InOrder s.agenda := by
  unfold State.beatWrite
  dsimp only
  (repeat' split) <;> simp

@[simp] theorem State.beatPerform_inOrder (s : State) (t q c i : Nat) (k : Command) :
    InOrder (s.beatPerform t q c i k).1.agenda ↔ InOrder s.agenda := by
  unfold State.beatPerform
  dsimp only
  split <;> simp

@[simp] theorem State.foldBeat_inOrder (s : State) (t q c i : Nat) (k : Command) : InOrder (s.foldBeat t q c i k).1.agenda ↔ InOrder s.agenda := by
  unfold State.foldBeat
  split <;> simp

@[simp] theorem State.copyComplete_inOrder (s : State) (t q c i : Nat) (k : Command) :
    InOrder (s.copyComplete t q c i k).1.agenda ↔ InOrder s.agenda := by
  simp [State.copyComplete]

@[simp] theorem State.engineStep_inOrder (s : State) (t q c : Nat) : InOrder (s.engineStep t q c).1.agenda ↔ InOrder s.agenda := by
  unfold State.engineStep
  (repeat' split) <;> simp

@[simp] theorem State.engineEvent_inOrder (s : State) (t q c : Nat) : InOrder (s.engineEvent t q c).agenda ↔ InOrder s.agenda := by
  simp [State.engineEvent]

@[simp] theorem State.cpyxAck_inOrder (s : State) (t q c : Nat) : InOrder (s.cpyxAck t q c).1.agenda ↔ InOrder s.agenda := by
  unfold State.cpyxAck
  split <;> simp

@[simp] theorem State.ackEvent_inOrder (s : State) (t q c : Nat) : InOrder (s.ackEvent t q c).agenda ↔ InOrder s.agenda := by simp [State.ackEvent]

@[simp] theorem State.queueStep_inOrder (s : State) (t q c : Nat) : InOrder (s.queueStep t q c).1.agenda ↔ InOrder s.agenda := by
  simp [State.queueStep]

@[simp] theorem State.runQueue_inOrder (s : State) (t q c n : Nat) : InOrder (s.runQueue t q c n).1.agenda ↔ InOrder s.agenda := by
  induction n generalizing s with
  | zero => rfl
  | succ n ih => simp [State.runQueue, ih]

@[simp] theorem State.startPassed_inOrder (s : State) (t q c n : Nat) : InOrder (s.startPassed t q c n).agenda ↔ InOrder s.agenda := by
  induction n generalizing s with
  | zero => rfl
  | succ n ih =>
    unfold State.startPassed
    split <;> simp [ih]

@[simp] theorem State.absorbSlip_inOrder (s : State) (t q : Nat) : InOrder (s.absorbSlip t q).agenda ↔ InOrder s.agenda := by simp [State.absorbSlip]

/-! Ports. -/

@[simp] theorem State.noteConflicts_inOrder (s : State) (t : Nat) : InOrder (s.noteConflicts t).agenda ↔ InOrder s.agenda := by
  simp [State.noteConflicts]

@[simp] theorem State.serveConflict_inOrder (s : State) (t : Nat) : InOrder (s.serveConflict t).agenda ↔ InOrder s.agenda := by
  simp [State.serveConflict]

@[simp] theorem State.pauseTimeout_inOrder (s : State) (t : Nat) : InOrder (s.pauseTimeout t).agenda ↔ InOrder s.agenda := by
  simp [State.pauseTimeout]

/-! Phase boundaries. -/

@[simp] theorem State.releaseEntry_inOrder (s : State) (e : StagingEntry) : InOrder (s.releaseEntry e).agenda ↔ InOrder s.agenda := by
  simp [State.releaseEntry]

@[simp] theorem State.releaseNow_inOrder (s : State) (w : GlobalWrite) : InOrder (s.releaseNow w).agenda ↔ InOrder s.agenda := by
  simp [State.releaseNow]

@[simp] theorem State.aperturePerform_inOrder (s : State) (t : Nat) : InOrder (s.aperturePerform t).agenda ↔ InOrder s.agenda := by
  simp [State.aperturePerform]

@[simp] theorem State.drain_inOrder (s : State) : InOrder s.drain.agenda ↔ InOrder s.agenda := by
  unfold State.drain
  split <;> simp

@[simp] theorem State.discardFault_inOrder (s : State) (e : StagingEntry) : InOrder (s.discardFault e).agenda ↔ InOrder s.agenda := by
  simp [State.discardFault]

@[simp] theorem State.releaseWhere_inOrder (s : State) (sel : StagingEntry → Bool) : InOrder (s.releaseWhere sel).agenda ↔ InOrder s.agenda := by
  simp [State.releaseWhere]

@[simp] theorem State.releaseIngress_inOrder (s : State) (x sig : Nat) : InOrder (s.releaseIngress x sig).agenda ↔ InOrder s.agenda := by
  simp [State.releaseIngress]

@[simp] theorem State.cutover_inOrder (s : State) (x scope sig first : Nat) : InOrder (s.cutover x scope sig first).agenda ↔ InOrder s.agenda := by
  simp [State.cutover]

@[simp] theorem State.holdWriteBack_inOrder (s : State) (t q : Nat) : InOrder (s.holdWriteBack t q).agenda ↔ InOrder s.agenda := by
  unfold State.holdWriteBack
  dsimp only
  (repeat' split) <;> simp

@[simp] theorem State.signal_inOrder (s : State) (t q : Nat) : InOrder (s.signal t q).agenda ↔ InOrder s.agenda := by
  unfold State.signal
  dsimp only
  split <;> simp

@[simp] theorem State.endHold_inOrder (s : State) (t q : Nat) (h : Hold) : InOrder (s.endHold t q h).agenda ↔ InOrder s.agenda := by
  simp [State.endHold]

@[simp] theorem State.drainRange_inOrder (s : State) (a n : Nat) : InOrder (s.drainRange a n).agenda ↔ InOrder s.agenda := by simp [State.drainRange]
@[simp] theorem State.drainPage_inOrder (s : State) (m : Migration) : InOrder (s.drainPage m).agenda ↔ InOrder s.agenda := by simp [State.drainPage]
@[simp] theorem State.openWindows_inOrder (s : State) : InOrder s.openWindows.agenda ↔ InOrder s.agenda := by simp [State.openWindows]

@[simp] theorem State.performStores_inOrder (s : State) (t q : Nat) (h : Hold) : InOrder (s.performStores t q h).agenda ↔ InOrder s.agenda := by
  refine inOrder_foldl _ _ _ fun s k => ?_
  dsimp only
  split <;> simp

@[simp] theorem State.phaseRelease_inOrder (s : State) : InOrder s.phaseRelease.agenda ↔ InOrder s.agenda := by simp [State.phaseRelease]

/-! Power states. -/

@[simp] theorem State.enter_inOrder (s : State) (t d : Nat) : InOrder (s.enter t d).agenda ↔ InOrder s.agenda := by simp [State.enter]

@[simp] theorem State.gapEnter_inOrder (s : State) (t span deepest : Nat) : InOrder (s.gapEnter t span deepest).agenda ↔ InOrder s.agenda := by
  unfold State.gapEnter
  (repeat' split) <;> simp

@[simp] theorem State.refreshPower_inOrder (s : State) : InOrder s.refreshPower.agenda ↔ InOrder s.agenda := by simp [State.refreshPower]

@[simp] theorem State.entryComplete_inOrder (s : State) (t : Nat) : InOrder (s.entryComplete t).agenda ↔ InOrder s.agenda := by
  simp [State.entryComplete]

@[simp] theorem State.wake_inOrder (s : State) (t : Nat) : InOrder (s.wake t).agenda ↔ InOrder s.agenda := by
  unfold State.wake
  dsimp only
  (repeat' split) <;> simp

@[simp] theorem State.tileWake_inOrder (s : State) (t x : Nat) (declared : Nat → Nat → List Nat) :
    InOrder (s.tileWake t x declared).agenda ↔ InOrder s.agenda := by
  unfold State.tileWake
  dsimp only
  (repeat' split) <;> simp

@[simp] theorem State.discardJournal_inOrder (s : State) (t : Nat) : InOrder (s.discardJournal t).agenda ↔ InOrder s.agenda := by
  unfold State.discardJournal
  dsimp only
  split <;> simp

@[simp] theorem State.wakeComplete_inOrder (s : State) (t : Nat) : InOrder (s.wakeComplete t).agenda ↔ InOrder s.agenda := by
  unfold State.wakeComplete
  dsimp only
  split <;> simp

end Sys2Proof.Machine
end

