-- ==== Sys2Proof/Proofs/AgendaOfContexts.lean ====
section
/-! SUPPORT. The same of the host's memory, Winnow, timetables and partitions. -/
namespace Sys2Proof.Machine

/-! Completions. -/

@[simp] theorem State.modQ_inOrder (s : State) (q : Nat) (f : Queue → Queue) : InOrder (s.modQ q f).agenda ↔ InOrder s.agenda := by simp [State.modQ]

@[simp] theorem State.busWrite_inOrder (s : State) (a : Nat) (bs : List Byte) : InOrder (s.busWrite a bs).agenda ↔ InOrder s.agenda := by
  simp [State.busWrite]

@[simp] theorem State.wakeWait_inOrder (s : State) (q : Nat) : InOrder (s.wakeWait q).agenda ↔ InOrder s.agenda := by simp [State.wakeWait]
@[simp] theorem State.wakeWaits_inOrder (s : State) : InOrder s.wakeWaits.agenda ↔ InOrder s.agenda := by simp [State.wakeWaits]

@[simp] theorem State.postRecord_inOrder (s : State) (q : Nat) (bs : List Byte) : InOrder (s.postRecord q bs).agenda ↔ InOrder s.agenda := by
  simp [State.postRecord]

@[simp] theorem State.completion_inOrder (s : State) (q tag op status : Nat) (silent : Bool) :
    InOrder (s.completion q tag op status silent).agenda ↔ InOrder s.agenda := by
  simp [State.completion]

@[simp] theorem State.finishPacket_inOrder (s : State) (q tag op status : Nat) (silent : Option Bool) :
    InOrder (s.finishPacket q tag op status silent).agenda ↔ InOrder s.agenda := by
  unfold State.finishPacket
  dsimp only
  (repeat' split) <;> simp

@[simp] theorem State.queueError_inOrder (s : State) (q code : Nat) : InOrder (s.queueError q code).agenda ↔ InOrder s.agenda := by
  simp [State.queueError]

@[simp] theorem State.blockQueue_inOrder (s : State) (q : Nat) : InOrder (s.blockQueue q).agenda ↔ InOrder s.agenda := by simp [State.blockQueue]

@[simp] theorem State.inHand_inOrder (s : State) (q from_ : Nat) (p : List Byte) : InOrder (s.inHand q from_ p).agenda ↔ InOrder s.agenda := by
  simp [State.inHand]

@[simp] theorem State.lookForWork_inOrder (s : State) (q : Nat) : InOrder (s.look_ q).agenda ↔ InOrder s.agenda := by
  unfold State.look_
  dsimp only
  (repeat' split) <;> simp

@[simp] theorem State.takePacket_inOrder (s : State) (q from_ : Nat) : InOrder (s.takePacket q from_).agenda ↔ InOrder s.agenda := by
  simp [State.takePacket]

@[simp] theorem State.goOn_inOrder (s : State) (q : Nat) : InOrder (s.goOn q).agenda ↔ InOrder s.agenda := by simp [State.goOn]

@[simp] theorem State.answer_inOrder (s : State) (q : Nat) (p : List Byte) (status : Nat) :
    InOrder (s.answer q p status).agenda ↔ InOrder s.agenda := by
  simp [State.answer]

@[simp] theorem State.opened_inOrder (s : State) (q : Nat) (p : List Byte) : InOrder (s.opened q p).agenda ↔ InOrder s.agenda := by
  simp [State.opened]

/-! Request records. -/

@[simp] theorem State.devWrite_inOrder (s : State) (w : GlobalWrite) : InOrder (s.devWrite w).agenda ↔ InOrder s.agenda := by
  unfold State.devWrite
  split <;> simp

@[simp] theorem State.ctxPut_inOrder (s : State) (x va : Nat) (bs : List Byte) : InOrder (s.ctxPut x va bs).agenda ↔ InOrder s.agenda := by
  simp [State.ctxPut]

@[simp] theorem State.modWinnow_inOrder (s : State) (x : Nat) (f : Winnow → Winnow) : InOrder (s.modWinnow x f).agenda ↔ InOrder s.agenda := by
  simp [State.modWinnow]

@[simp] theorem State.writeRecord_inOrder (s : State) (x k : Nat) : InOrder (s.writeRecord x k).agenda ↔ InOrder s.agenda := by
  simp [State.writeRecord]

@[simp] theorem State.writeRing_inOrder (s : State) (x k : Nat) : InOrder (s.writeRing x k).agenda ↔ InOrder s.agenda := by simp [State.writeRing]

@[simp] theorem State.interruptAll_inOrder (s : State) (x : Nat) : InOrder (s.interruptAll x).agenda ↔ InOrder s.agenda := by
  simp [State.interruptAll]

@[simp] theorem State.requestRecord_inOrder (s : State) (x k : Nat) (f : SlotFault) : InOrder (s.requestRecord x k f).agenda ↔ InOrder s.agenda := by
  simp [State.requestRecord]

@[simp] theorem State.winnowFault_inOrder (s : State) (x k code : Nat) : InOrder (s.winnowFault x k code).agenda ↔ InOrder s.agenda := by
  simp [State.winnowFault]

@[simp] theorem State.stampDeadline_inOrder (s : State) (x k seq deadline : Nat) :
    InOrder (s.stampDeadline x k seq deadline).agenda ↔ InOrder s.agenda := by
  simp [State.stampDeadline]

@[simp] theorem State.admitRecord_inOrder (s : State) (x k class_ : Nat) (b : List Byte) :
    InOrder (s.admitRecord x k class_ b).agenda ↔ InOrder s.agenda := by
  simp [State.admitRecord]

theorem State.trySubmit_inOrder {s u : State} {x k c n : Nat} {stamp : Option Nat} (h : s.trySubmit x k c stamp = some (u, n)) :
    InOrder u.agenda ↔ InOrder s.agenda := by
  unfold State.trySubmit at h
  grind [State.stampDeadline_inOrder, State.admitRecord_inOrder]

/-! External writes and fault rings. -/

@[simp] theorem State.ingressWrite_inOrder (s : State) (x g pa : Nat) (bs : List Byte) :
    InOrder (s.ingressWrite x g pa bs).agenda ↔ InOrder s.agenda := by
  simp [State.ingressWrite]

@[simp] theorem State.stageExternal_inOrder (s : State) (x g pa : Nat) (bs : List Byte) :
    InOrder (s.stageExternal x g pa bs).agenda ↔ InOrder s.agenda := by
  unfold State.stageExternal
  (repeat' split) <;> simp

@[simp] theorem State.peerRelease_inOrder (s : State) (pa : Nat) (bs : List Byte) : InOrder (s.peerRelease pa bs).agenda ↔ InOrder s.agenda := by
  unfold State.peerRelease
  (repeat' split) <;> simp

@[simp] theorem State.granaryWrite_inOrder (s : State) (x pa : Nat) (bs : List Byte) :
    InOrder (s.granaryWrite x pa bs).agenda ↔ InOrder s.agenda := by
  unfold State.granaryWrite
  split <;> simp

@[simp] theorem State.ringPut_inOrder (s : State) (x off : Nat) (bs : List Byte) : InOrder (s.ringPut x off bs).agenda ↔ InOrder s.agenda := by
  unfold State.ringPut
  split <;> simp

@[simp] theorem State.putLost_inOrder (s : State) (x : Nat) : InOrder (s.putLost x).agenda ↔ InOrder s.agenda := by simp [State.putLost]
@[simp] theorem State.takeIndex_inOrder (s : State) (x : Nat) : InOrder (s.takeIndex x).agenda ↔ InOrder s.agenda := by simp [State.takeIndex]

@[simp] theorem State.writeFaultRecord_inOrder (s0 : State) (x : Nat) : InOrder (s0.writeFaultRecord x).agenda ↔ InOrder s0.agenda := by
  unfold State.writeFaultRecord
  dsimp only
  split <;> simp

@[simp] theorem State.recordWrite_inOrder (s0 : State) (x : Nat) : InOrder (s0.recordWrite x).agenda ↔ InOrder s0.agenda := by
  simp [State.recordWrite]

@[simp] theorem State.discardRecords_inOrder (s : State) (x : Nat) : InOrder (s.discardRecords x).agenda ↔ InOrder s.agenda := by
  simp [State.discardRecords]

/-! Timetables. -/

@[simp] theorem State.wakeFor_inOrder (s : State) (x tick : Nat) (ts : List Nat) : InOrder (s.wakeFor x tick ts).agenda ↔ InOrder s.agenda := by
  simp [State.wakeFor]

@[simp] theorem State.walkNode_inOrder (s : State) (x : Nat) : InOrder (s.walkNode x).agenda ↔ InOrder s.agenda := by
  unfold State.walkNode
  dsimp only
  split <;> simp

@[simp] theorem State.walkTo_inOrder (s : State) (x n : Nat) : InOrder (s.walkTo x n).agenda ↔ InOrder s.agenda := by simp [State.walkTo]
@[simp] theorem State.walkCond_inOrder (s : State) (x : Nat) : InOrder (s.walkCond x).agenda ↔ InOrder s.agenda := by simp [State.walkCond]
@[simp] theorem State.walkWhile_inOrder (s : State) (x : Nat) : InOrder (s.walkWhile x).agenda ↔ InOrder s.agenda := by simp [State.walkWhile]

@[simp] theorem State.tileFreed_inOrder (s : State) (t deepest : Nat) : InOrder (s.tileFreed t deepest).agenda ↔ InOrder s.agenda := by
  simp [State.tileFreed]

@[simp] theorem State.freeTiles_inOrder (s : State) (x : Nat) : InOrder (s.freeTiles x).agenda ↔ InOrder s.agenda := by simp [State.freeTiles]

@[simp] theorem State.finishLaunch_inOrder (s : State) (x code : Nat) : InOrder (s.finishLaunch x code).agenda ↔ InOrder s.agenda := by
  unfold State.finishLaunch
  dsimp only
  (repeat' split) <;> simp

@[simp] theorem State.walkEnd_inOrder (s : State) (x : Nat) : InOrder (s.walkEnd x).agenda ↔ InOrder s.agenda := by simp [State.walkEnd]

@[simp] theorem State.segmentStart_inOrder (s : State) (x : Nat) : InOrder (s.segmentStart x).agenda ↔ InOrder s.agenda := by
  unfold State.segmentStart
  dsimp only
  split <;> simp

@[simp] theorem State.taskStart_inOrder (s : State) (x i : Nat) : InOrder (s.taskStart x i).agenda ↔ InOrder s.agenda := by
  unfold State.taskStart
  dsimp only
  (repeat' split) <;> simp

@[simp] theorem State.ackAtEnd_inOrder (s : State) (x : Nat) : InOrder (s.ackAtEnd x).agenda ↔ InOrder s.agenda := by
  unfold State.ackAtEnd
  dsimp only
  split <;> simp

@[simp] theorem State.beginBoundary_inOrder (s : State) (x k : Nat) : InOrder (s.beginBoundary x k).agenda ↔ InOrder s.agenda := by
  simp [State.beginBoundary]

@[simp] theorem State.segmentEnd_inOrder (s : State) (x : Nat) : InOrder (s.segmentEnd x).agenda ↔ InOrder s.agenda := by
  unfold State.segmentEnd
  dsimp only
  split <;> simp

/-! Winnow's boundary. -/

@[simp] theorem State.copyWords_inOrder (s : State) (a b n : Nat) : InOrder (s.copyWords a b n).agenda ↔ InOrder s.agenda :=
  inOrder_foldl _ _ _ fun _ _ => State.devWrite_inOrder _ _

@[simp] theorem State.spillOne_inOrder (s : State) (x : Nat) : InOrder (s.spillOne x).agenda ↔ InOrder s.agenda := by
  have hcopy (a b : Except Nat Nat) (n : Nat) :
      InOrder (match a, b with | .ok pa, .ok pb => s.copyWords pa pb n | _, _ => s).agenda ↔ InOrder s.agenda := by
    cases a <;> cases b <;> simp
  unfold State.spillOne
  dsimp only
  split
  · rfl
  split
  · exact State.modWinnow_inOrder ..
  · exact (State.modWinnow_inOrder ..).trans (hcopy ..)

@[simp] theorem State.writePage_inOrder (s : State) (x k i frame : Nat) : InOrder (s.writePage x k i frame).agenda ↔ InOrder s.agenda := by
  simp [State.writePage]

@[simp] theorem State.writePages_inOrder (s : State) (x k from_ : Nat) : InOrder (s.writePages x k from_).agenda ↔ InOrder s.agenda := by
  simp [State.writePages]

@[simp] theorem State.evict_inOrder (s : State) (x k : Nat) : InOrder (s.evict x k).agenda ↔ InOrder s.agenda := by simp [State.evict]
@[simp] theorem State.snapshot_inOrder (s : State) (x : Nat) : InOrder (s.snapshot x).agenda ↔ InOrder s.agenda := by simp [State.snapshot]
@[simp] theorem State.recheck_inOrder (s : State) (x : Nat) : InOrder (s.recheck x).agenda ↔ InOrder s.agenda := by simp [State.recheck]
@[simp] theorem State.retire_inOrder (s : State) (x : Nat) : InOrder (s.retire x).agenda ↔ InOrder s.agenda := by simp [State.retire]
@[simp] theorem State.give_inOrder (s : State) (x k n : Nat) : InOrder (s.give x k n).agenda ↔ InOrder s.agenda := by simp [State.give]
@[simp] theorem State.allocate_inOrder (s : State) (x k : Nat) : InOrder (s.allocate x k).agenda ↔ InOrder s.agenda := by simp [State.allocate]

@[simp] theorem State.writeTables_inOrder (s : State) (x : Nat) (bs : List Byte) : InOrder (s.writeTables x bs).agenda ↔ InOrder s.agenda := by
  simp [State.writeTables]

@[simp] theorem State.publish_inOrder (s : State) (x k : Nat) : InOrder (s.publish x k).agenda ↔ InOrder s.agenda := by simp [State.publish]

@[simp] theorem State.forcedSnapshot_inOrder (s : State) (x : Nat) : InOrder (s.forcedSnapshot x).agenda ↔ InOrder s.agenda := by
  simp [State.forcedSnapshot]

@[simp] theorem State.winnowBoundary_inOrder (s : State) (x : Nat) : InOrder (s.winnowBoundary x).agenda ↔ InOrder s.agenda := by
  unfold State.winnowBoundary
  dsimp only
  split <;> simp

/-! Partitions. -/

@[simp] theorem State.writeBind_inOrder (s : State) (b x class_ record : Nat) (r : Bind) :
    InOrder (s.writeBind b x class_ record r).agenda ↔ InOrder s.agenda := by
  simp [State.writeBind]

@[simp] theorem State.beginLaunch_inOrder (s : State) (x : Nat) : InOrder (s.beginLaunch x).agenda ↔ InOrder s.agenda := by
  unfold State.beginLaunch
  dsimp only
  split <;> simp

@[simp] theorem State.toSuspended_inOrder (s : State) (x : Nat) : InOrder (s.toSuspended x).agenda ↔ InOrder s.agenda := by
  unfold State.toSuspended
  split <;> simp

@[simp] theorem State.retake_inOrder (s : State) (b x : Nat) (l : Launch) : InOrder (s.retake b x l).agenda ↔ InOrder s.agenda := by
  simp [State.retake]

@[simp] theorem State.bindTake_inOrder (s : State) (b : Nat) : InOrder (s.bindTake b).agenda ↔ InOrder s.agenda := by
  unfold State.bindTake
  dsimp only
  (repeat' split) <;> simp

@[simp] theorem State.bindEnd_inOrder (s : State) (b : Nat) : InOrder (s.bindEnd b).agenda ↔ InOrder s.agenda := by simp [State.bindEnd]

@[simp] theorem State.discardStaging_inOrder (s : State) (ts : List Nat) : InOrder (s.discardStaging ts).agenda ↔ InOrder s.agenda := by
  simp [State.discardStaging]

@[simp] theorem State.clampBeats_inOrder (s : State) (x : Nat) : InOrder (s.clampBeats x).agenda ↔ InOrder s.agenda := by simp [State.clampBeats]

@[simp] theorem State.endLaunch_inOrder (s : State) (x code : Nat) : InOrder (s.endLaunch x code).agenda ↔ InOrder s.agenda := by
  simp [State.endLaunch]

@[simp] theorem State.deviceEnd_inOrder (s : State) (x : Nat) : InOrder (s.deviceEnd x).agenda ↔ InOrder s.agenda := by simp [State.deviceEnd]

@[simp] theorem State.partitionHalt_inOrder (s : State) (x : Nat) : InOrder (s.partitionHalt x).agenda ↔ InOrder s.agenda := by
  unfold State.partitionHalt
  dsimp only
  split <;> simp

@[simp] theorem State.swapL1_inOrder (s : State) (t q : Nat) : InOrder (s.swapL1 t q).agenda ↔ InOrder s.agenda := by simp [State.swapL1]

@[simp] theorem State.contextSwap_inOrder (s : State) (x : Nat) : InOrder (s.contextSwap x).agenda ↔ InOrder s.agenda := by
  unfold State.contextSwap
  dsimp only
  (repeat' split) <;> simp

@[simp] theorem State.imageLost_inOrder (s : State) (x : Nat) : InOrder (s.imageLost x).agenda ↔ InOrder s.agenda := by simp [State.imageLost]

@[simp] theorem State.moveImages_inOrder (s : State) (x : Nat) (old new : List Nat) (l : Launch) :
    InOrder (s.moveImages x old new l).agenda ↔ InOrder s.agenda := by
  simp [State.moveImages]

@[simp] theorem State.restoreFails_inOrder (s : State) (x code : Nat) : InOrder (s.restoreFails x code).agenda ↔ InOrder s.agenda := by
  simp [State.restoreFails]

@[simp] theorem State.rebind_inOrder (s : State) (b x : Nat) (l : Launch) (k : Bind) : InOrder (s.rebind b x l k).agenda ↔ InOrder s.agenda := by
  simp [State.rebind]

@[simp] theorem State.restoreLater_inOrder (s : State) (x : Nat) (own : Bool) : InOrder (s.restoreLater x own).agenda ↔ InOrder s.agenda := by
  simp [State.restoreLater]

@[simp] theorem State.moveBind_inOrder (s : State) (b x : Nat) (l : Launch) : InOrder (s.moveBind b x l).agenda ↔ InOrder s.agenda := by
  unfold State.moveBind
  dsimp only
  split <;> simp

@[simp] theorem State.bindAgain_inOrder (s : State) (b x : Nat) (l : Launch) : InOrder (s.bindAgain b x l).agenda ↔ InOrder s.agenda := by
  unfold State.bindAgain
  dsimp only
  (repeat' split) <;> simp

@[simp] theorem State.placeAgain_inOrder (s : State) (b x : Nat) (l : Launch) : InOrder (s.placeAgain b x l).agenda ↔ InOrder s.agenda := by
  unfold State.placeAgain
  split <;> simp

@[simp] theorem State.restoreOwn_inOrder (s : State) (b x : Nat) (l : Launch) : InOrder (s.restoreOwn b x l).agenda ↔ InOrder s.agenda := by
  simp [State.restoreOwn]

@[simp] theorem State.contextRestore_inOrder (s : State) (x : Nat) (ownFirst : Bool) :
    InOrder (s.contextRestore x ownFirst).agenda ↔ InOrder s.agenda := by
  unfold State.contextRestore
  dsimp only
  split <;> simp

@[simp] theorem State.askAck_inOrder (s : State) (x : Nat) : InOrder (s.askAck x).agenda ↔ InOrder s.agenda := by simp [State.askAck]

@[simp] theorem State.loseCommands_inOrder (s : State) (t q c p n : Nat) : InOrder (s.loseCommands t q c p n).agenda ↔ InOrder s.agenda := by
  induction n generalizing s with
  | zero => rfl
  | succ n ih =>
    unfold State.loseCommands
    dsimp only
    split <;> simp [ih]

@[simp] theorem State.loseAll_inOrder (s : State) (t p : Nat) : InOrder (s.loseAll t p).agenda ↔ InOrder s.agenda := by simp [State.loseAll]

@[simp] theorem State.partitionResume_inOrder (s : State) (x : Nat) : InOrder (s.partitionResume x).agenda ↔ InOrder s.agenda := by
  unfold State.partitionResume
  dsimp only
  split
  · rfl
  split
  · simp
  split
  · simp
  · rw [State.askAck_inOrder, State.modCtx_inOrder]
    refine inOrder_foldl _ _ _ fun s t => ?_
    split <;> simp

@[simp] theorem State.mapackMissed_inOrder (s : State) (x atEnd : Nat) : InOrder (s.mapackMissed x atEnd).agenda ↔ InOrder s.agenda := by
  unfold State.mapackMissed
  dsimp only
  split <;> simp

end Sys2Proof.Machine
end

