-- ==== Sys2Proof/Proofs/AgendaOfHost.lean ====
section
/-! SUPPORT. The same of packets, rings, device registers and interfaces; the watchdog takes an entry off the agenda and puts it in again. -/
namespace Sys2Proof.Machine

/-! Packets. -/

@[simp] theorem State.dropHand_inOrder (s : State) (q : Nat) : InOrder (s.dropHand q).agenda ↔ InOrder s.agenda := by simp [State.dropHand]

@[simp] theorem State.onPacket_inOrder (s : State) (f : Queue → State) (q k : Nat) (p : List Byte) (h : ∀ x, InOrder (f x).agenda ↔ InOrder s.agenda) :
    InOrder (s.onPacket q k p f).agenda ↔ InOrder s.agenda := by
  simp [State.onPacket, h]

@[simp] theorem State.keepSubmit_inOrder (s : State) (q x : Nat) : InOrder (s.keepSubmit q x).agenda ↔ InOrder s.agenda := by simp [State.keepSubmit]

@[simp] theorem State.submit_inOrder (s : State) (q k : Nat) (p : List Byte) : InOrder (s.submit q k p).agenda ↔ InOrder s.agenda := by
  refine State.onPacket_inOrder _ _ q k p fun x => ?_
  dsimp only
  split
  · simp
  · rename_i h; simp [State.trySubmit_inOrder h]

@[simp] theorem State.submitRetry_inOrder (s : State) (q : Nat) : InOrder (s.submitRetry q).agenda ↔ InOrder s.agenda := by simp [State.submitRetry]

@[simp] theorem State.cancelPacket_inOrder (s : State) (q from_ : Nat) (p : List Byte) :
    InOrder (s.cancelPacket q from_ p).agenda ↔ InOrder s.agenda := by
  simp [State.cancelPacket]

@[simp] theorem State.acceptLaunch_inOrder (s : State) (x q : Nat) (l : Launch) (r : Bind) :
    InOrder (s.acceptLaunch x q l r).agenda ↔ InOrder s.agenda := by
  simp [State.acceptLaunch]

@[simp] theorem State.launch_inOrder (s : State) (q k : Nat) (p : List Byte) : InOrder (s.launch q k p).agenda ↔ InOrder s.agenda := by
  refine State.onPacket_inOrder _ _ q k p fun x => ?_
  split
  · simp
  · split <;> simp

@[simp] theorem State.finishFirst_inOrder (s : State) (q op status : Nat) : InOrder (s.finishFirst q op status).agenda ↔ InOrder s.agenda := by
  unfold State.finishFirst
  split <;> simp

@[simp] theorem State.blockOn_inOrder (s : State) (q from_ : Nat) (p : List Byte) (w : Nat × Nat × Nat) :
    InOrder (s.blockOn q from_ p w).agenda ↔ InOrder s.agenda := by
  simp [State.blockOn]

@[simp] theorem State.waitPacket_inOrder (s : State) (q from_ : Nat) (p : List Byte) :
    InOrder (s.waitPacket q from_ p).agenda ↔ InOrder s.agenda := by
  simp [State.waitPacket]

@[simp] theorem State.waitEnds_inOrder (s : State) (q : Nat) : InOrder (s.waitEnds q).agenda ↔ InOrder s.agenda := by simp [State.waitEnds]
@[simp] theorem State.waitTimeout_inOrder (s : State) (q : Nat) : InOrder (s.waitTimeout q).agenda ↔ InOrder s.agenda := by simp [State.waitTimeout]

@[simp] theorem State.fencePacket_inOrder (s : State) (q phase : Nat) (p : List Byte) :
    InOrder (s.fencePacket q phase p).agenda ↔ InOrder s.agenda := by
  simp [State.fencePacket]

@[simp] theorem State.turnWheel_inOrder (s : State) : InOrder s.turnWheel.agenda ↔ InOrder s.agenda := by simp [State.turnWheel]

@[simp] theorem State.armTimer_inOrder (s : State) (q from_ : Nat) (p : List Byte) : InOrder (s.armTimer q from_ p).agenda ↔ InOrder s.agenda := by
  simp [State.armTimer]

@[simp] theorem State.inOrder_disarm (s : State) (q from_ : Nat) (p : List Byte) : InOrder (s.disarm q from_ p).agenda ↔ InOrder s.agenda := by
  simp [State.disarm]

@[simp] theorem State.deliver_inOrder (s : State) (k : Nat) : InOrder (s.deliver k).agenda ↔ InOrder s.agenda := by
  unfold State.deliver
  dsimp only
  split <;> simp

@[simp] theorem State.wheelTick_inOrder (s : State) : InOrder s.wheelTick.agenda ↔ InOrder s.agenda := by simp [State.wheelTick]

@[simp] theorem State.feedWrite_inOrder (s : State) (w : WeightWrite) : InOrder (s.feedWrite w).1.agenda ↔ InOrder s.agenda := by
  simp [State.feedWrite]

@[simp] theorem State.endWrite_inOrder (s : State) (q : Nat) (w : WeightWrite) (status : Nat) :
    InOrder (s.endWrite q w status).agenda ↔ InOrder s.agenda := by
  simp [State.endWrite]

@[simp] theorem State.stepWrite_inOrder (s : State) (q : Nat) (w : WeightWrite) : InOrder (s.stepWrite q w).1.agenda ↔ InOrder s.agenda := by
  unfold State.stepWrite
  split <;> simp

@[simp] theorem State.stepWrites_inOrder (s : State) (q : Nat) : InOrder (s.stepWrites q).agenda ↔ InOrder s.agenda := by
  unfold State.stepWrites
  rw [State.modQ_inOrder]
  exact inOrder_foldl_fst _ _ (s, []) fun a w => by simp

@[simp] theorem State.weightWrite_inOrder (s : State) (q phase : Nat) (p : List Byte) :
    InOrder (s.weightWrite q phase p).agenda ↔ InOrder s.agenda := by
  simp [State.weightWrite]

@[simp] theorem State.tailWrite_inOrder (s : State) (f q v : Nat) : InOrder (s.tailWrite f q v).agenda ↔ InOrder s.agenda := by simp [State.tailWrite]

@[simp] theorem State.queueEnable_inOrder (s : State) (f q : Nat) : InOrder (s.queueEnable f q).agenda ↔ InOrder s.agenda := by
  simp [State.queueEnable]

@[simp] theorem State.queueDisable_inOrder (s : State) (f q : Nat) : InOrder (s.queueDisable f q).agenda ↔ InOrder s.agenda := by
  simp [State.queueDisable]

@[simp] theorem State.queueMap_inOrder (s : State) (q : Nat) : InOrder (s.queueMap q).agenda ↔ InOrder s.agenda := by simp [State.queueMap]
@[simp] theorem State.recoverQcb_inOrder (s : State) (q : Nat) : InOrder (s.recoverQcb q).agenda ↔ InOrder s.agenda := by simp [State.recoverQcb]

@[simp] theorem State.giveUpHead_inOrder (s : State) (q : Nat) (e : Timed) : InOrder (s.giveUpHead q e).agenda ↔ InOrder s.agenda := by
  simp [State.giveUpHead]

@[simp] theorem State.giveUp_inOrder (s : State) (q : Nat) (e : Timed) : InOrder (s.giveUp q e).agenda ↔ InOrder s.agenda := by
  unfold State.giveUp
  split <;> simp

theorem State.watchdog_inOrder {s : State} (q : Nat) (h : InOrder s.agenda) : InOrder (s.watchdog q).agenda := by
  unfold State.watchdog
  split
  · exact h
  · rename_i e _
    dsimp only
    split <;> simp [h.erase e]

/-! Rings and PTP. -/

@[simp] theorem State.ptpEvent_inOrder (s : State) (tm : Nat) : InOrder (s.ptpEvent tm).agenda ↔ InOrder s.agenda := by simp [State.ptpEvent]
@[simp] theorem State.ptpLost_inOrder (s : State) : InOrder s.ptpLost.agenda ↔ InOrder s.agenda := by simp [State.ptpLost]
@[simp] theorem State.ptpRenew_inOrder (s : State) : InOrder s.ptpRenew.agenda ↔ InOrder s.agenda := by simp [State.ptpRenew]
@[simp] theorem State.gtrefRead_inOrder (s : State) : InOrder s.gtrefRead.agenda ↔ InOrder s.agenda := by simp [State.gtrefRead]

@[simp] theorem State.modRing_inOrder (s : State) (r : Nat) (f : Ring → Ring) : InOrder (s.modRing r f).agenda ↔ InOrder s.agenda := by
  simp [State.modRing]

@[simp] theorem State.ringStart_inOrder (s : State) (r : Nat) : InOrder (s.ringStart r).agenda ↔ InOrder s.agenda := by simp [State.ringStart]
@[simp] theorem State.ringStop_inOrder (s : State) (r : Nat) : InOrder (s.ringStop r).agenda ↔ InOrder s.agenda := by simp [State.ringStop]

@[simp] theorem State.writeSlot_inOrder (s : State) (r n tm : Nat) (bs : List Byte) (k : Nat) :
    InOrder (s.writeSlot r n tm bs k).agenda ↔ InOrder s.agenda := by
  simp [State.writeSlot]

@[simp] theorem State.ringError_inOrder (s : State) (r i : Nat) : InOrder (s.ringError r i).agenda ↔ InOrder s.agenda := by simp [State.ringError]

@[simp] theorem State.ringFrame_inOrder (s : State) (r tm : Nat) (bs : List Byte) : InOrder (s.ringFrame r tm bs).agenda ↔ InOrder s.agenda := by
  simp [State.ringFrame]

@[simp] theorem State.frame_inOrder (s : State) (port ty tm : Nat) (bs : List Byte) : InOrder (s.frame port ty tm bs).agenda ↔ InOrder s.agenda := by
  unfold State.frame
  (repeat' split) <;> simp

@[simp] theorem State.ringRepair_inOrder (s : State) (r : Nat) (report : Option (Nat × Nat)) (second : Bool) :
    InOrder (s.ringRepair r report second).agenda ↔ InOrder s.agenda := by
  unfold State.ringRepair
  split <;> simp

/-! Device registers and TDISP. -/

@[simp] theorem State.modTdi_inOrder (s : State) (f : Nat) (g : Tdi → Tdi) : InOrder (s.modTdi f g).agenda ↔ InOrder s.agenda := by
  simp [State.modTdi]

@[simp] theorem State.suspend_inOrder (s : State) (x : Nat) : InOrder (s.suspend x).agenda ↔ InOrder s.agenda := by
  unfold State.suspend
  dsimp only
  (repeat' split) <;> simp

@[simp] theorem State.tdiFail_inOrder (s : State) (f : Nat) : InOrder (s.tdiFail f).agenda ↔ InOrder s.agenda := by simp [State.tdiFail]
@[simp] theorem State.featureLock_inOrder (s : State) : InOrder s.featureLock.agenda ↔ InOrder s.agenda := by simp [State.featureLock]

@[simp] theorem State.qcbWrite_inOrder (s : State) (f q o : Nat) (bs : List Byte) : InOrder (s.qcbWrite f q o bs).agenda ↔ InOrder s.agenda := by
  simp [State.qcbWrite]

@[simp] theorem State.ringWrite_inOrder (s : State) (r o : Nat) (bs : List Byte) : InOrder (s.ringWrite r o bs).agenda ↔ InOrder s.agenda := by
  simp [State.ringWrite]

@[simp] theorem State.barWrite_inOrder (s : State) (f o v n : Nat) : InOrder (s.barWrite f o v n).agenda ↔ InOrder s.agenda := by
  simp [State.barWrite]

@[simp] theorem State.tell_inOrder (s : State) (f : Nat) (bs : List Byte) : InOrder (s.tell f bs).agenda ↔ InOrder s.agenda := by simp [State.tell]

@[simp] theorem State.request_inOrder (s k : State) (f : Nat) (h : InOrder k.agenda ↔ InOrder s.agenda) : InOrder (s.request f k).agenda ↔ InOrder s.agenda := by
  simp [State.request, h]

@[simp] theorem State.lockInterface_inOrder (s : State) (f : Nat) : InOrder (s.lockInterface f).agenda ↔ InOrder s.agenda := by
  simp [State.lockInterface]

@[simp] theorem State.interfaceState_inOrder (s : State) (f : Nat) : InOrder (s.interfaceState f).agenda ↔ InOrder s.agenda := by
  simp [State.interfaceState]

@[simp] theorem State.startInterface_inOrder (s : State) (f : Nat) : InOrder (s.startInterface f).agenda ↔ InOrder s.agenda := by
  simp [State.startInterface]

@[simp] theorem State.wipeFrame_inOrder (s : State) (x va : Nat) : InOrder (s.wipeFrame x va).agenda ↔ InOrder s.agenda := by
  unfold State.wipeFrame
  (repeat' split) <;> simp

@[simp] theorem State.wipeContext_inOrder (s : State) (x : Nat) : InOrder (s.wipeContext x).agenda ↔ InOrder s.agenda := by simp [State.wipeContext]
@[simp] theorem State.lockRegions_inOrder (s : State) (x : Nat) : InOrder (s.lockRegions x).agenda ↔ InOrder s.agenda := by simp [State.lockRegions]
@[simp] theorem State.settleOwed_inOrder (s : State) (q : Nat) : InOrder (s.settleOwed q).agenda ↔ InOrder s.agenda := by simp [State.settleOwed]

@[simp] theorem State.stopInterface_inOrder (s : State) (f : Nat) : InOrder (s.stopInterface f).agenda ↔ InOrder s.agenda := by
  simp [State.stopInterface]

end Sys2Proof.Machine
end

