-- ==== Sys2Proof/Proofs/AgendaOfDevice.lean ====
section
/-! SUPPORT. The same of the Sheaf, migration, boot and a tick's own work. -/
namespace Sys2Proof.Machine

/-! The Sheaf's changes. -/

@[simp] theorem State.raiseSheaf_inOrder (s : State) : InOrder s.raiseSheaf.agenda ↔ InOrder s.agenda := by simp [State.raiseSheaf]

@[simp] theorem State.changeSheaf_inOrder (s : State) (f : Sheaf → Sheaf) : InOrder (s.changeSheaf f).agenda ↔ InOrder s.agenda := by
  simp [State.changeSheaf]

@[simp] theorem State.haltHolder_inOrder (s : State) (t : Nat) : InOrder (s.haltHolder t).agenda ↔ InOrder s.agenda := by
  unfold State.haltHolder
  split <;> simp

@[simp] theorem State.tileFails_inOrder (s : State) (t v : Nat) (also : Sheaf → Sheaf) :
    InOrder (s.tileFails t v also).agenda ↔ InOrder s.agenda := by
  unfold State.tileFails
  dsimp only
  (repeat' split) <;> simp

@[simp] theorem State.bankRetired_inOrder (s : State) (t bank : Nat) : InOrder (s.bankRetired t bank).agenda ↔ InOrder s.agenda := by
  simp [State.bankRetired]

@[simp] theorem State.countsChange_inOrder (s : State) (n v : Nat) : InOrder (s.countsChange n v).agenda ↔ InOrder s.agenda := by
  simp [State.countsChange]

@[simp] theorem State.rowRetired_inOrder (s : State) (t row : Nat) : InOrder (s.rowRetired t row).agenda ↔ InOrder s.agenda := by
  simp [State.rowRetired]

@[simp] theorem State.turnSector_inOrder (s : State) (k : Nat) (bits : List Nat) : InOrder (s.turnSector k bits).agenda ↔ InOrder s.agenda := by
  simp [State.turnSector]

@[simp] theorem State.turnShadow_inOrder (s : State) (t : Nat) (bits : List Nat) : InOrder (s.turnShadow t bits).agenda ↔ InOrder s.agenda := by
  simp [State.turnShadow]

@[simp] theorem State.turnL1_inOrder (s : State) (t q pa : Nat) : InOrder (s.turnL1 t q pa).agenda ↔ InOrder s.agenda := by
  unfold State.turnL1
  dsimp only
  split <;> simp

@[simp] theorem State.cellError_inOrder (s : State) (k i place : Nat) (bits : List Nat) :
    InOrder (s.cellError k i place bits).agenda ↔ InOrder s.agenda := by
  unfold State.cellError
  split <;> simp

@[simp] theorem State.createContext_inOrder (s : State) (x root : Nat) (b : List Byte) :
    InOrder (s.createContext x root b).agenda ↔ InOrder s.agenda := by
  simp [State.createContext]

@[simp] theorem State.endContext_inOrder (s : State) (x : Nat) : InOrder (s.endContext x).agenda ↔ InOrder s.agenda := by simp [State.endContext]

@[simp] theorem State.tagRegion_inOrder (s : State) (region tag : Nat) : InOrder (s.tagRegion region tag).agenda ↔ InOrder s.agenda := by
  unfold State.tagRegion
  dsimp only
  (repeat' split) <;> simp

@[simp] theorem State.sheafEvent_inOrder (s : State) (k i v : Nat) : InOrder (s.sheafEvent k i v).agenda ↔ InOrder s.agenda := by
  unfold State.sheafEvent
  split <;> simp

@[simp] theorem State.weightsLost_inOrder (s : State) (t row : Nat) (injected : Bool) :
    InOrder (s.weightsLost t row injected).agenda ↔ InOrder s.agenda := by
  unfold State.weightsLost
  split <;> simp

@[simp] theorem State.replaceTile_inOrder (s : State) (t : Nat) : InOrder (s.replaceTile t).agenda ↔ InOrder s.agenda := by simp [State.replaceTile]

@[simp] theorem State.rewriteRow_inOrder (s : State) (t row v : Nat) : InOrder (s.rewriteRow t row v).agenda ↔ InOrder s.agenda := by
  simp [State.rewriteRow]

@[simp] theorem State.rewritePhysical_inOrder (s : State) (t row v phys : Nat) :
    InOrder (s.rewritePhysical t row v phys).agenda ↔ InOrder s.agenda := by
  unfold State.rewritePhysical
  dsimp only
  (repeat' split) <;> simp

@[simp] theorem State.scrubWord_inOrder (s : State) (t k : Nat) : InOrder (s.scrubWord t k).agenda ↔ InOrder s.agenda := by simp [State.scrubWord]

@[simp] theorem State.scrubParity_inOrder (s : State) (t key : Nat) : InOrder (s.scrubParity t key).agenda ↔ InOrder s.agenda := by
  unfold State.scrubParity
  dsimp only
  split <;> simp

@[simp] theorem State.scrubSector_inOrder (s : State) (k : Nat) : InOrder (s.scrubSector k).agenda ↔ InOrder s.agenda := by simp [State.scrubSector]
@[simp] theorem State.scrub_inOrder (s : State) (t w : Nat) : InOrder (s.scrub t w).agenda ↔ InOrder s.agenda := by simp [State.scrub]

@[simp] theorem State.linkRetrain_inOrder (s : State) (l v : Nat) : InOrder (s.linkRetrain l v).agenda ↔ InOrder s.agenda := by
  simp [State.linkRetrain]

@[simp] theorem State.loseBeats_inOrder (s : State) (p : Nat) : InOrder (s.loseBeats p).agenda ↔ InOrder s.agenda := by simp [State.loseBeats]
@[simp] theorem State.losePeer_inOrder (s0 : State) (p : Nat) : InOrder (s0.losePeer p).agenda ↔ InOrder s0.agenda := by simp [State.losePeer]
@[simp] theorem State.linkLoss_inOrder (s : State) (l p : Nat) : InOrder (s.linkLoss l p).agenda ↔ InOrder s.agenda := by simp [State.linkLoss]

@[simp] theorem State.dropChannel_inOrder (s : State) (c : Nat) (ks : List Nat) : InOrder (s.dropChannel c ks).agenda ↔ InOrder s.agenda := by
  simp [State.dropChannel]

@[simp] theorem State.channelLoss_inOrder (s : State) (c : Nat) (ks : List Nat) : InOrder (s.channelLoss c ks).agenda ↔ InOrder s.agenda := by
  simp [State.channelLoss]

/-! Shootdowns and migration. -/

@[simp] theorem State.beginMigration_inOrder (s : State) (x va : Nat) (new : Option Nat) :
    InOrder (s.beginMigration x va new).agenda ↔ InOrder s.agenda := by
  unfold State.beginMigration
  split <;> simp

@[simp] theorem State.shootdown_inOrder (s : State) (x a b : Nat) (new : Option Nat) : InOrder (s.shootdown x a b new).agenda ↔ InOrder s.agenda := by
  simp [State.shootdown]

@[simp] theorem State.shootdownDue_inOrder (s : State) (x a b sent : Nat) (new : Option Nat) :
    InOrder (s.shootdownDue x a b sent new).agenda ↔ InOrder s.agenda := by
  simp [State.shootdownDue]

@[simp] theorem State.copySector_inOrder (s : State) (m : Migration) (k : Nat) : InOrder (s.copySector m k).agenda ↔ InOrder s.agenda := by
  simp [State.copySector]

@[simp] theorem State.copyDirty_inOrder (s : State) (m : Migration) : InOrder (s.copyDirty m).agenda ↔ InOrder s.agenda := by simp [State.copyDirty]

@[simp] theorem State.rewriteLeaf_inOrder (s : State) (m : Migration) : InOrder (s.rewriteLeaf m).agenda ↔ InOrder s.agenda := by
  simp [State.rewriteLeaf]

@[simp] theorem State.copyPass_inOrder (s : State) (old : Nat) : InOrder (s.copyPass old).agenda ↔ InOrder s.agenda := by
  unfold State.copyPass
  split <;> simp

@[simp] theorem State.redrain_inOrder (s : State) (m : Migration) : InOrder (s.redrain m).agenda ↔ InOrder s.agenda := by simp [State.redrain]

@[simp] theorem State.windowEnd_inOrder (s : State) (old : Nat) : InOrder (s.windowEnd old).agenda ↔ InOrder s.agenda := by
  unfold State.windowEnd
  split <;> simp

/-! Supply and boot. -/

@[simp] theorem State.lossRecords_inOrder (s : State) : InOrder s.lossRecords.agenda ↔ InOrder s.agenda := by
  unfold State.lossRecords
  split <;> simp

@[simp] theorem State.supplyLost_inOrder (s : State) : InOrder s.supplyLost.agenda ↔ InOrder s.agenda := by
  unfold State.supplyLost
  simp only [State.tickFree_inOrder, State.after_inOrder, State.lossRecords_inOrder]
  refine inOrder_foldl _ _ _ fun s e => ?_
  split <;> simp

@[simp] theorem State.park_inOrder (s : State) : InOrder s.park.agenda ↔ InOrder s.agenda := by simp [State.park]

@[simp] theorem State.powerLossEvent_inOrder (s : State) (phase : Nat) : InOrder (s.powerLossEvent phase).agenda ↔ InOrder s.agenda := by
  simp [State.powerLossEvent]

@[simp] theorem State.bootOutcome_inOrder (s : State) (k outcome attempts : Nat) :
    InOrder (s.bootOutcome k outcome attempts).agenda ↔ InOrder s.agenda := by
  simp [State.bootOutcome]

@[simp] theorem State.stepBegins_inOrder (s : State) (k : Nat) : InOrder (s.stepBegins k).agenda ↔ InOrder s.agenda := by simp [State.stepBegins]

@[simp] theorem State.bootWork_inOrder (s : State) (k : Nat) (alternate : Bool) : InOrder (s.bootWork k alternate).agenda ↔ InOrder s.agenda := by
  unfold State.bootWork
  split <;> simp

@[simp] theorem State.bootGoesOn_inOrder (s : State) (k : Nat) : InOrder (s.bootGoesOn k).agenda ↔ InOrder s.agenda := by simp [State.bootGoesOn]
@[simp] theorem State.bootFails_inOrder (s : State) (k : Nat) : InOrder (s.bootFails k).agenda ↔ InOrder s.agenda := by simp [State.bootFails]

@[simp] theorem State.bootPasses_inOrder (s : State) (k before : Nat) : InOrder (s.bootPasses k before).agenda ↔ InOrder s.agenda := by
  simp [State.bootPasses]

@[simp] theorem State.bootBegins_inOrder (s0 : State) : InOrder s0.bootBegins.agenda ↔ InOrder s0.agenda := by
  unfold State.bootBegins
  split <;> simp

/-! Fetch. -/

@[simp] theorem State.take_inOrder (s : State) (t q next : Nat) (ws : List (Nat × Instr)) :
    InOrder (s.take t q next ws).agenda ↔ InOrder s.agenda := by
  simp [State.take]

@[simp] theorem State.useUnits_inOrder (s : State) (t q : Nat) (ws : List (Nat × Instr)) : InOrder (s.useUnits t q ws).agenda ↔ InOrder s.agenda := by
  simp [State.useUnits]

@[simp] theorem State.noteText_inOrder (s : State) (t a n : Nat) : InOrder (s.noteText t a n).agenda ↔ InOrder s.agenda := by simp [State.noteText]

@[simp] theorem State.fetch_inOrder (s : State) (t q : Nat) : InOrder (s.fetch t q).agenda ↔ InOrder s.agenda := by
  unfold State.fetch
  dsimp only
  (repeat' split) <;> simp

/-! Parity of what a word reads. -/

theorem State.reportParity_inOrder {s u v : State} (h : s.reportParity u = some v) : InOrder v.agenda ↔ InOrder u.agenda := by
  unfold State.reportParity at h
  dsimp only at h
  split at h
  · cases h; exact State.modMe_inOrder _ _
  · cases h

/-! Issue. -/

theorem State.afterWord_inOrder {s u : State} (i : Instr) (hs : InOrder s.agenda) (hu : InOrder u.agenda) : InOrder (s.afterWord u i).agenda := by
  unfold State.afterWord
  split
  · split
    · rename_i hr; exact (State.reportParity_inOrder hr).2 hu
    · exact (State.trapIssue_inOrder ..).2 hs
  · exact hu

/-! The decision of a tick. -/

@[simp] theorem State.landAll_inOrder (s : State) (t q : Nat) (fs : List Flight) : InOrder (s.landAll t q fs).1.agenda ↔ InOrder s.agenda := by
  induction fs generalizing s with
  | nil => rfl
  | cons f fs ih => simp [State.landAll, ih]

@[simp] theorem State.landFaulting_inOrder (s : State) (t q : Nat) (f : Flight) : InOrder (s.landFaulting t q f).agenda ↔ InOrder s.agenda := by
  simp [State.landFaulting]

@[simp] theorem State.faultingOnly_inOrder (s : State) (t : Nat) (k : StepLook) : InOrder (s.faultingOnly t k).agenda ↔ InOrder s.agenda := by
  simp [State.faultingOnly]

@[simp] theorem State.takeStep_inOrder (s : State) (t : Nat) (k : StepLook) : InOrder (s.takeStep t k).agenda ↔ InOrder s.agenda := by
  simp [State.takeStep]

/-- The look-ahead lands results and runs queues, and takes no fault. -/
@[simp] theorem State.look_inOrder (s : State) (t : Nat) : InOrder (s.look t).after.agenda ↔ InOrder s.agenda := by
  unfold State.look
  dsimp only
  rw [inOrder_foldl_fst _ _ _ fun a k => by simp]
  simp

@[simp] theorem State.tickEnd_inOrder (s : State) (t q : Nat) : InOrder (s.tickEnd t q).agenda ↔ InOrder s.agenda := by simp [State.tickEnd]

theorem State.settleTrap_inOrder (s : State) (t : Nat) (k : StepLook) (h : InOrder k.after.agenda ↔ InOrder s.agenda) :
    InOrder (s.settleTrap t k).agenda ↔ InOrder s.agenda := by
  simp [State.settleTrap, h]

@[simp] theorem State.foreseeAtomics_inOrder (s : State) (t : Nat) : InOrder (s.foreseeAtomics t).agenda ↔ InOrder s.agenda := by
  simp [State.foreseeAtomics]

@[simp] theorem State.foreseeHandler_inOrder (s : State) (t : Nat) : InOrder (s.foreseeHandler t).agenda ↔ InOrder s.agenda := by
  unfold State.foreseeHandler
  split <;> simp

@[simp] theorem State.foreseeOthers_inOrder (s : State) (t : Nat) : InOrder (s.foreseeOthers t).agenda ↔ InOrder s.agenda := by
  simp [State.foreseeOthers]

@[simp] theorem State.freezeFor_inOrder (s : State) (t q : Nat) : InOrder (s.freezeFor t q).agenda ↔ InOrder s.agenda := by simp [State.freezeFor]

@[simp] theorem State.settle_inOrder (s : State) (t : Nat) : InOrder (s.settle t).agenda ↔ InOrder s.agenda := by
  unfold State.settle
  rw [State.modTile_inOrder, ← s.foreseeOthers_inOrder t]
  generalize s.foreseeOthers t = s
  dsimp only
  split
  · simp
  split
  · rfl
  split
  · simp
  split
  · simp
  split
  · simp
  · rw [State.settleTrap_inOrder _ _ _ (State.look_inOrder _ _), State.foreseeAtomics_inOrder]

/-! The end of a tick. -/

@[simp] theorem State.leave_inOrder (s : State) (t q : Nat) : InOrder (s.leave t q).agenda ↔ InOrder s.agenda := by
  unfold State.leave
  split <;> simp

@[simp] theorem State.endTile_inOrder (s : State) (t : Nat) : InOrder (s.endTile t).agenda ↔ InOrder s.agenda := by simp [State.endTile]
@[simp] theorem State.countShares_inOrder (s : State) : InOrder s.countShares.agenda ↔ InOrder s.agenda := by simp [State.countShares]
@[simp] theorem State.endTick_inOrder (s : State) : InOrder s.endTick.agenda ↔ InOrder s.agenda := by simp [State.endTick]

/-! What is foreseen. -/

@[simp] theorem State.foreseen_inOrder (s : State) (op : Instr) (args : List Nat) : InOrder (s.foreseen op args).agenda ↔ InOrder s.agenda := by
  unfold State.foreseen
  split <;> simp

end Sys2Proof.Machine
end

