-- ==== Sys2Proof/Proofs/AgendaKeepsItsOrder.lean ====
section
/-! O58: the agenda keeps its order. -/
namespace Sys2Proof.Machine

/-! What takes entries off the agenda, or changes their ticks: an order that was there stays. -/

theorem State.collapse_inOrder {s : State} (h : InOrder s.agenda) : InOrder s.collapse.agenda := by
  unfold State.collapse
  split
  · exact h
  · exact h.filter _

theorem State.coldReset_inOrder {s : State} (h : InOrder s.agenda) : InOrder s.coldReset.agenda := by
  simp only [State.coldReset, inOrder_insertTimed]
  exact (h.filter _).retime ..

theorem State.lifeCycle_inOrder {s : State} (v : Nat) (h : InOrder s.agenda) : InOrder (s.lifeCycle v).agenda := by
  unfold State.lifeCycle
  split
  · exact h
  · exact State.coldReset_inOrder h

theorem State.supplyBack_inOrder {s : State} (h : InOrder s.agenda) : InOrder s.supplyBack.agenda := by
  unfold State.supplyBack
  split
  · exact State.coldReset_inOrder h
  · exact h

theorem State.loadGtick_inOrder {s : State} (v : Nat) (h : InOrder s.agenda) : InOrder (s.loadGtick v).agenda := h.retime ..

theorem State.stepEnds_inOrder {s : State} (k before n : Nat) (h : InOrder s.agenda) : InOrder (s.stepEnds k before n).agenda := by
  unfold State.stepEnds
  split
  · exact h
  split
  · simp [h]
  split
  · split
    · rename_i p _
      rw [State.bootPasses_inOrder, State.after_inOrder]
      exact State.loadGtick_inOrder _ h
    · exact h
  · simp [h]

theorem State.bootEvent_inOrder {s : State} (args : List Nat) (h : InOrder s.agenda) : InOrder (s.bootEvent args).agenda := by
  unfold State.bootEvent
  split
  · exact h
  split
  · simp [h]
  · simp [h]
  · exact State.stepEnds_inOrder _ _ _ h
  · exact h

theorem State.bootTimeout_inOrder {s : State} (k n : Nat) (h : InOrder s.agenda) : InOrder (s.bootTimeout k n).agenda := by
  unfold State.bootTimeout
  split
  · exact h
  split
  · rw [State.bootPasses_inOrder, State.after_inOrder]
    exact State.loadGtick_inOrder _ h
  · simp [h]

/-! Operations. -/

/-- After an operation that goes on the agenda stands in order, if it did before. -/
def State.keepsOrder (s : State) (o : Host.Outcome State Fault Refusal) : Prop := ∀ u, o = .next u → InOrder s.agenda → InOrder u.agenda

theorem State.next_orders {s u : State} (h : InOrder s.agenda → InOrder u.agenda) : s.keepsOrder (.next u) := by
  rintro _ ⟨⟩
  exact h

theorem State.next_keepsOrder {s u : State} (h : InOrder u.agenda ↔ InOrder s.agenda) : s.keepsOrder (.next u) := State.next_orders h.2

theorem State.finish_keepsOrder {s : State} {r : Res} (h : s.sameOrder r) : s.keepsOrder (s.finish r) := by
  cases r with
  | ok v => exact State.next_keepsOrder (h v rfl)
  | error f => exact State.next_keepsOrder (State.trapIssue_inOrder s f)

theorem execShootdownEffect_keepsOrder (s : State) : s.keepsOrder (execShootdownEffect s) := by
  refine State.next_keepsOrder ?_
  split <;> simp

/-- Words and events by what they answer: a next state that enters happenings, a meaning that may fault, and the few that take entries off the agenda. -/
theorem exec_keepsOrder (s : State) (i : Instr) : s.keepsOrder (exec i s) := by
  cases i with
  | nop => exact State.next_keepsOrder Iff.rfl
  | add | sub | and | or | xor | andn | shl | shr | shra | rotr | mul | mulh | mulhu | div | divu | rem | remu | min | max | minu
    | maxu | slt | sltu | seq | sne | clz | ctz | popc | sext | zext | fshl | fshr | addi | andi | ori | xori | shli | shri | shrai | slti
    | sltui | muli | li | lih1 | lih2 | lih3 | skip | trap | time | step | pcnt | pmov | psetg | pand | por | pxor | pnot | vadd | vsub
    | vadds | vsubs | vmul | vmulh | vmin | vmax | vminu | vmaxu | vabsd | vand | vor | vxor | vandn | vshl | vshr | vshra | vshli | vshri
    | vfshl | vfshr | vcmpeq | vcmplt | vcmpltu | vsel | vsplat | vperm | vsldn | vslup | vdelta | vpsum | vfadd | vfsub | vfmul | vfma
    | vfmax | vfmin | vfcmplt | vfcmpeq | vfrcp | vfexp2 | vfcvtH | vfcvtW | vcvtif | vcvtfi | vnarrow | vbscale | vrmax | vrsum | vgmax
    | vclz | vfrsum | vfrmax | vhash | tzero | accz | ozero | ord | owr | accrd | maprd | pwrhint | fltrd | bundleIssue | resultLanding
    | mmaLanding | accsclLanding | bankConflictServe | deferredInboundWrite | apertureWritePerform | landingDataArrival | landingDue
    | freezeTimeout | copyCommandStart | copyBeat | copyCommandComplete | cpyxAcknowledgment | segmentStart | taskStart | segmentEnd
    | graphWalkCond | graphWalkWhile | graphWalkEnd | boundarySignal | phaseRelease | winnowBoundary | tileWake | tileWakeComplete
    | tileEntryComplete | submit | submitRetry | cancel | wait | waitConditionMet | waitUnmapTimeout | armTimer | timerDisarm | weightWrite
    | fencePacket | tailWrite | queueEnable | queueDisable | queueMap | featureLock | gtrefRead | deviceRegisterWrite | ringStart
    | ringStop | timerWheelTick | bindTakePartition | bindEnd | partitionHalt | contextSwap | partitionResume | contextRestore
    | migrationCopyPass | migrationWindowEnd | sheafChange | mapackMissed | tileReplaced | externalWrite | ethernetFrame | ptpEventMessage
    | ptpReferenceRenewal | ringRepair | journalPulse | journalVerify | faultRecordWrite | trapPauseTimeout | scrub | mramRowRewrite
    | lpddrChannelLoss | linkRetrain | linkLoss | powerLoss | getTdispVersion | getTdispCapabilities | lockInterfaceRequest
    | getDeviceInterfaceReport | getDeviceInterfaceState | startInterfaceRequest | stopInterfaceRequest | ideFailure | ptpTimeLost
    | stagingEntryDrain | spillCopyPerform | launch => exact State.next_keepsOrder (by simp)
  | lds | sts | ldm | stx | ldx | getl | getlPk | call | callr | ret | beqz | bnez | bltz | bgez | bpu | beng | halt | waitt | mfc | mtc
    | vld | vst | vldu | vstu | vldm | vldx | vstx | vgetl | vgath | vscat | tshape | tld | tldm | tst | ttr | mma44 | mma46 | mma48
    | mma64 | mma66 | mma68 | mma84 | mma86 | mma88 | mmas44 | mmas48 | mmas84 | mmas88 | accscl | cpy | cpym | cpyg | cpyw | cpymc | cpyx
    | gath | scat | redc | cseed | cget | phase | fence | sstep | wgo | aadd | amin | amax | aor | aand | axchg | acas | rqld | rqcommit
    | rqend | condw | mapack | wjopen | wjput | wjcommit | wjabort | wjstat | cropen | crclose | fret | fretN | diagst | diagld | rqflt =>
    exact State.finish_keepsOrder (by simp)
  | j | jr => exact State.finish_keepsOrder (State.branch_inOrder Iff.rfl _)
  | loop => exact State.finish_keepsOrder (State.branchIf_inOrder (by simp) _ _)
  | shootdownEffect => exact execShootdownEffect_keepsOrder s
  | granaryWatchdogExpiry => exact State.next_orders (State.watchdog_inOrder _)
  | supplyGood => exact State.next_orders State.supplyBack_inOrder
  | supplyCollapse => exact State.next_orders State.collapse_inOrder
  | coldReset => exact State.next_orders State.coldReset_inOrder
  | lifeCycleChange => exact State.next_orders (State.lifeCycle_inOrder _)
  | boot => exact State.next_orders (State.bootEvent_inOrder _)
  | bootStepTimeout => exact State.next_orders (State.bootTimeout_inOrder _ _)

/-! Steps. -/

/-- A bundle's words one after another; where one faults, the trap is taken on the state before them. -/
theorem State.issueWords_inOrder {pre u : State} (hp : InOrder pre.agenda) (ws : List (Nat × Instr)) {s : State} {k : Nat} (hs : InOrder s.agenda)
    (h : State.issueWords pre s k ws = .next u) : InOrder u.agenda := by
  induction ws generalizing s k with
  | nil => cases h; exact hs
  | cons w ws ih =>
    unfold State.issueWords at h
    split at h
    · rename_i r hr
      have hr : InOrder r.agenda := exec_keepsOrder (s.atWord k w.1) w.2 r hr hs
      have hw : InOrder ((s.atWord k w.1).afterWord r w.2).agenda := State.afterWord_inOrder _ hs hr
      dsimp only at h
      split at h
      · exact ih hw h
      · cases h
        split
        · exact hw
        · exact (State.trapIssue_inOrder ..).2 hp
    · cases h
    · cases h

theorem State.perform_keepsOrder (s : State) (n : Next) : s.keepsOrder (s.perform n) := by
  intro u h hs
  cases n with
  | agenda i e => exact exec_keepsOrder { s.dropEntry i with cur := { args := e.args, bytes := e.bytes } } e.op u h (hs.eraseIdx i)
  | due op args => exact exec_keepsOrder { s.foreseen op args with cur := { args := args } } op u h ((s.foreseen_inOrder op args).2 hs)
  | issue t q =>
    have hf : InOrder (({ s with cur := { args := [t, q] } } : State).fetch t q).agenda := (State.fetch_inOrder ..).2 hs
    exact State.issueWords_inOrder hf _ hf h
  | settle t => cases h; exact (s.settle_inOrder t).2 hs
  | tick => cases h; exact s.endTick_inOrder.2 hs

/-- Settles O58: nothing that a step performs disturbs the order. -/
theorem agendaKeepsItsOrder : Obligations.AgendaKeepsItsOrder := by
  unfold Obligations.AgendaKeepsItsOrder
  intro s u hs hstep
  unfold step at hstep
  split at hstep
  · cases hstep
  · exact u.agendaInOrder_iff.2 (s.perform_keepsOrder _ u hstep (s.agendaInOrder_iff.1 hs))

end Sys2Proof.Machine
end

