-- ==== Sys2Proof/Proofs/Fetches.lean ====
section
/-! O4, O5, O6: the step of a sequencer that issues (R49, R163, R203, R359 to R361). -/
namespace Sys2Proof.Machine

/-! The parts of a step that issues. -/

theorem step_alive {s : State} (h : s.dead = false) : step s = s.perform s.next := by simp [step, h]

/-- A step that issues fetches the bundle and then runs the words that the fetch has left at the cursor. -/
theorem step_issue {s s0 : State} {t q : Nat} (h : s.dead = false) (hn : s.next = .issue t q) (h0 : { s with cur := { args := [t, q] } } = s0) :
    step s = State.issueWords (s0.fetch t q) (s0.fetch t q) 0 (s0.fetch t q).cur.words := by
  rw [step_alive h, hn, ← h0]; rfl

@[simp] theorem State.useUnits_cur (s : State) (t q : Nat) (ws : List (Nat × Instr)) : (s.useUnits t q ws).cur = s.cur := by
  unfold State.useUnits
  dsimp only
  split
  · rfl
  · exact foldl_keeps State.cur _ (by intros; rfl) _ _

/-! A fault leaves the cursor. -/

@[simp] theorem State.record_cur (s : State) (x : Nat) (r : FaultRecord) : (s.record x r).cur = s.cur := by rw [State.record_eq]

@[simp] theorem State.endPartition_cur (s : State) (x level code : Nat) : (s.endPartition x level code).cur = s.cur := by
  obtain ⟨cs, ag, fr, h, -⟩ := s.endPartition_eq x level code
  rw [h]

@[simp] theorem State.joinRegion_cur (s : State) (x t : Nat) : (s.joinRegion x t).cur = s.cur := by
  unfold State.joinRegion
  dsimp only
  split <;> rfl

@[simp] theorem State.partitionFault_cur (s : State) (x t q : Nat) (f : FaultInfo) (e : Bool) : (s.partitionFault x t q f e).cur = s.cur := by
  simp [State.partitionFault]

@[simp] theorem State.recordOnce_cur (s : State) (x : Nat) (r : FaultRecord) (old : Option FaultRecord) : (s.recordOnce x r old).cur = s.cur := by
  cases old with
  | none => exact s.record_cur x r
  | some o => rfl

@[simp] theorem State.takeLocal_cur (s : State) (t q : Nat) (f : FaultInfo) (due : Nat) (old : Option FaultRecord) :
    (s.takeLocal t q f due old).cur = s.cur := by
  unfold State.takeLocal
  dsimp only
  split
  · exact State.recordOnce_cur ..
  · split
    · exact State.recordOnce_cur ..
    · split
      · exact (State.endPartition_cur ..).trans (State.recordOnce_cur ..)
      · exact State.recordOnce_cur ..

@[simp] theorem State.takeFault_cur (s : State) (t q : Nat) (f : FaultInfo) (due : Nat) : (s.takeFault t q f due).cur = s.cur := by
  unfold State.takeFault
  dsimp only
  split
  · split <;> rfl
  · split
    · exact State.partitionFault_cur ..
    · split <;> simp

@[simp] theorem State.trapIssue_cur (s : State) (f : FaultInfo) : (s.trapIssue f).cur = { s.cur with raised := some f } :=
  State.takeFault_cur ..

/-! What the fetch leaves (R48, R163, R359 to R361). -/

section
variable {s : State} {t q : Nat} {e : List Nat} {p : Option Poison} (hb : (s.tile t).bundleWords (s.seq t q).pc = (e, p))
include hb

theorem State.fetch_ends (he : textEnds e = true) : s.fetch t q = ((s.noteText t (s.seq t q).pc e.length).take t q ((s.seq t q).pc + 4 * e.length) []).trapIssue
    { step := (s.seq t q).clock, bundle := (s.seq t q).pc, code := 0x0203 } := by
  simp only [State.fetch, hb, he, if_true]

theorem State.fetch_skips (he : textEnds e = false) (hk : 0 < (s.seq t q).skipLeft) :
    s.fetch t q = ((s.noteText t (s.seq t q).pc e.length).take t q ((s.seq t q).pc + 4 * e.length) []).modSeq t q
      fun y => { y with skipLeft := y.skipLeft - 1 } := by
  simp only [State.fetch, hb, he, gt_iff_lt, hk, if_true, Bool.false_eq_true, if_false]

theorem State.fetch_refuses (he : textEnds e = false) (hk : (s.seq t q).skipLeft = 0) {f : FaultInfo}
    (hf : (s.noteText t (s.seq t q).pc e.length).bundleOf t (s.seq t q).pc e p = .error f) :
    s.fetch t q = ((s.noteText t (s.seq t q).pc e.length).take t q ((s.seq t q).pc + 4 * e.length) []).trapIssue
      { f with step := (s.seq t q).clock, bundle := (s.seq t q).pc } := by
  simp only [State.fetch, hb, he, hk, hf, gt_iff_lt, Nat.lt_irrefl, Bool.false_eq_true, if_false]

theorem State.fetch_takes (he : textEnds e = false) (hk : (s.seq t q).skipLeft = 0) {ws : List (Nat × Instr)}
    (hf : (s.noteText t (s.seq t q).pc e.length).bundleOf t (s.seq t q).pc e p = .ok ws) :
    s.fetch t q = ((s.noteText t (s.seq t q).pc e.length).take t q ((s.seq t q).pc + 4 * e.length) ws).useUnits t q ws := by
  simp only [State.fetch, hb, he, hk, hf, gt_iff_lt, Nat.lt_irrefl, Bool.false_eq_true, if_false]

end

theorem State.bundleOf_locked {s : State} {t a : Nat} {e : List Nat} (p : Option Poison) (h : s.textLocked t a e.length = true) :
    s.bundleOf t a e p = .error { code := 0x0C03, addr := a } := by
  simp [State.bundleOf, h]

theorem State.bundleOf_poisoned {s : State} {t a : Nat} {e : List Nat} (k : Poison) (h : s.textLocked t a e.length = false) :
    s.bundleOf t a e (some k) = .error { code := 0x0502, addr := k.addr, injected := k.injected, aux0 := k.syndrome } := by
  simp [State.bundleOf, h]

theorem State.bundleOf_decodes {s : State} {t a : Nat} {e : List Nat} {ps : List Placed} (h : s.textLocked t a e.length = false)
    (hd : decodeBundle ((a - 0x8000000) / 4) e = .ok ps) : s.bundleOf t a e none = .ok (ps.map fun p => (p.unit, p.instr)) := by
  simp [State.bundleOf, h, hd]

theorem State.bundleOf_malformed {s : State} {t a : Nat} {e : List Nat} (h : s.textLocked t a e.length = false)
    (hd : decodeBundle ((a - 0x8000000) / 4) e = .error .malformed) : s.bundleOf t a e none = .error { code := 0x0202 } := by
  simp [State.bundleOf, h, hd]

theorem State.bundleOf_noInstruction {s : State} {t a u : Nat} {e : List Nat} (h : s.textLocked t a e.length = false)
    (hd : decodeBundle ((a - 0x8000000) / 4) e = .error (.notInstruction u)) : s.bundleOf t a e none = .error { code := 0x0201, unit := u } := by
  simp [State.bundleOf, h, hd]

/-- A bundle that is not taken up has left no words to run. -/
theorem State.issueWords_trapped (s : State) (f : FaultInfo) (h : s.cur.words = []) :
    State.issueWords (s.trapIssue f) (s.trapIssue f) 0 (s.trapIssue f).cur.words = .next (s.trapIssue f) := by
  rw [State.trapIssue_cur]
  simp only [h]
  rfl

/-! The steps of a bundle that is skipped, refused or taken (R48, R361, R334, R348, R360). -/

section
variable {s s0 : State} {t q : Nat} {e : List Nat} {p : Option Poison} (h : s.dead = false) (hn : s.next = .issue t q)
  (h0 : { s with cur := { args := [t, q] } } = s0) (hb : (s0.tile t).bundleWords (s0.seq t q).pc = (e, p))
include h hn h0 hb

theorem step_skips (he : textEnds e = false) (hk : 0 < (s0.seq t q).skipLeft) :
    step s = .next (((s0.noteText t (s0.seq t q).pc e.length).take t q ((s0.seq t q).pc + 4 * e.length) []).modSeq t q
      fun y => { y with skipLeft := y.skipLeft - 1 }) := by
  rw [step_issue h hn h0, State.fetch_skips hb he hk]
  rfl

theorem step_textEnds (he : textEnds e = true) :
    step s = .next (((s0.noteText t (s0.seq t q).pc e.length).take t q ((s0.seq t q).pc + 4 * e.length) []).trapIssue
      { step := (s0.seq t q).clock, bundle := (s0.seq t q).pc, code := 0x0203 }) := by
  rw [step_issue h hn h0, State.fetch_ends hb he, State.issueWords_trapped _ _ rfl]

theorem step_refuses (he : textEnds e = false) (hk : (s0.seq t q).skipLeft = 0) {f : FaultInfo}
    (hf : (s0.noteText t (s0.seq t q).pc e.length).bundleOf t (s0.seq t q).pc e p = .error f) :
    step s = .next (((s0.noteText t (s0.seq t q).pc e.length).take t q ((s0.seq t q).pc + 4 * e.length) []).trapIssue
      { f with step := (s0.seq t q).clock, bundle := (s0.seq t q).pc }) := by
  rw [step_issue h hn h0, State.fetch_refuses hb he hk hf, State.issueWords_trapped _ _ rfl]

theorem step_takes (he : textEnds e = false) (hk : (s0.seq t q).skipLeft = 0) {ws : List (Nat × Instr)}
    (hf : (s0.noteText t (s0.seq t q).pc e.length).bundleOf t (s0.seq t q).pc e p = .ok ws) {pre : State}
    (hp : ((s0.noteText t (s0.seq t q).pc e.length).take t q ((s0.seq t q).pc + 4 * e.length) ws).useUnits t q ws = pre) :
    step s = State.issueWords pre pre 0 ws := by
  have hw : pre.cur.words = ws := by rw [← hp, State.useUnits_cur]; rfl
  rw [step_issue h hn h0, State.fetch_takes hb he hk hf, hp, hw]

end

/-- Settles O6: the branches of the fetch, none of which leaves a word to run. -/
theorem skippedAndRefusedBundles : Obligations.SkippedAndRefusedBundles := by
  unfold Obligations.SkippedAndRefusedBundles
  refine ⟨fun s t q e p halive hnext hskip hb he => step_skips halive hnext rfl hb he hskip, ?_⟩
  intro s t q e p halive hnext hb
  refine ⟨fun he => step_textEnds halive hnext rfl hb he, fun he hk hl => ?_, fun he hk hl => ⟨?_, ?_, ?_⟩⟩
  · exact step_refuses halive hnext rfl hb he hk (State.bundleOf_locked p hl)
  · rintro k rfl
    exact step_refuses halive hnext rfl hb he hk (State.bundleOf_poisoned k hl)
  · rintro rfl hd
    exact step_refuses halive hnext rfl hb he hk (State.bundleOf_malformed hl hd)
  · rintro u rfl hd
    exact step_refuses halive hnext rfl hb he hk (State.bundleOf_noInstruction hl hd)

/-! The words of a bundle (R49, R345, R347). -/

/-- The only word of a bundle: its own state stands, also where it has raised a fault. -/
theorem State.issueWords_single (pre s : State) (u : Nat) (i : Instr) :
    State.issueWords pre s 0 [(u, i)] = match exec i (s.atWord 0 u) with | .next r => .next ((s.atWord 0 u).afterWord r i) | o => o := by
  simp only [State.issueWords]
  cases exec i (s.atWord 0 u) with
  | next r => dsimp only; split <;> rfl
  | fault f => rfl
  | refused r => rfl

theorem Seq.readsWrong_sound {y : Seq} (h : y.parityErrors = []) (i : Instr) : y.readsWrong i = false := by simp [Seq.readsWrong, h]

theorem State.afterWord_sound {s : State} (h : s.me.parityErrors = []) (r : State) (i : Instr) : s.afterWord r i = r := by
  simp [State.afterWord, Seq.readsWrong_sound h]

theorem State.noteText_sound {s : State} {t : Nat} (h : (s.tile t).cellErrors = []) (a n : Nat) : s.noteText t a n = s := by
  simp [State.noteText, h]

/-- Settles O4: the fetch takes the bundle, and its only word runs. -/
theorem stepRunsTheDecodedInstruction : Obligations.StepRunsTheDecodedInstruction := by
  unfold Obligations.StepRunsTheDecodedInstruction
  intro s t q u i e halive hnext hskip hb he s0 hl hd p
  have hstep : step s = match exec i p with | .next r => .next (p.afterWord r i) | o => o :=
    (step_takes halive hnext rfl hb he hskip (State.bundleOf_decodes hl hd) rfl).trans (State.issueWords_single ..)
  refine ⟨hstep, fun hp => ?_, fun hc => State.noteText_sound (s := { s with cur := { args := [t, q] } }) hc ..⟩
  rw [hstep]
  cases exec i p with
  | next r => exact congrArg Host.Outcome.next (State.afterWord_sound hp r i)
  | fault f => rfl
  | refused r => rfl

/-! A tick that goes to a conflict. -/

/-- Tile 0 owes a tick to a conflict; tile 1, frozen in this tick, has a beat of tile 0 at its inbound port and still shows the bank that an atomic of
its step before reserved. -/
def State.conflictBefore : State :=
  { tiles := [(0, { a := { run := .running }, owed := 1 }),
      (1, { a := { run := .running }, frozen := true, atomicNow := [3],
            inbound := [{ due := 0, issuer := 0, multicast := false, write := { bytes := [] } }] })] }

theorem State.conflictBefore_next : State.conflictBefore.next = .due .bankConflictServe [0] := rfl

/-- Refutes O5: before BANK_CONFLICT_SERVE the step foresees anew the atomics that the tile's beats meet in other tiles (`State.foreseen`), so that it is
more than exec of the operation with its arguments: tile 1, frozen, issues no atomic in this tick, and bank 3 is no longer held. -/
theorem not_stepRunsAWholeBundleAndHappenings : ¬ Obligations.StepRunsAWholeBundleAndHappenings := by
  unfold Obligations.StepRunsAWholeBundleAndHappenings
  rintro ⟨-, hdue, -⟩
  obtain ⟨-, hdue, -⟩ := hdue State.conflictBefore rfl
  have heq := hdue _ _ State.conflictBefore_next
  rw [step_alive rfl, State.conflictBefore_next] at heq
  have htile (u v : State) (h : (Host.Outcome.next u : Host.Outcome State Fault Refusal) = .next v) : (u.tile 1).atomicNow = (v.tile 1).atomicNow := by
    injection h with h; rw [h]
  exact absurd (htile _ _ heq) (by decide)

end Sys2Proof.Machine
end

