-- ==== Sys2Proof/Proofs/BoundariesHold.lean ====
section
/-! O29: PHASE and SSTEP. -/
namespace Sys2Proof.Machine

theorem State.outsideHandler_inside (s : State) (k : Res) (h : s.me.inHandler = true) : s.outsideHandler k = .error (s.fault 0x0311) := by
  simp [State.outsideHandler, h]

/-- The scope check in the statements' words: a level of the launch, or a code within its limit (R367). -/
theorem State.scopeValid_iff (s : State) (sc : BitVec 3) (lv : BitVec 1) (lvl : BitVec 3) (most : Nat) :
    s.scopeValid sc lv lvl most = true ↔
      if lv = 1 then ∃ l, (s.ctx s.myCtx).launch = some l ∧ lvl.toNat < l.levels.length else sc.toNat ≤ most := by
  unfold State.scopeValid Ctx.levelCount
  cases (s.ctx s.myCtx).launch <;> split <;> simp

theorem phaseLatency_of_lt {z : Nat} (h : z < 6) : phaseLatency z = [1, 4, 40, 160, 600, 2400].getD z 0 := by
  interval_cases z <;> rfl

/-- The hold that a boundary word leaves. -/
def State.holdFor (s : State) (kind : Nat) (b : Boundary) : Hold :=
  let code := (s.ctx s.myCtx).scopeOf b.scope
  { g := b.g, lat := phaseLatency code, scope := code, phase := kind == 0, issued := s.gtick, step := s.me.clock }

section
variable {s : State} {sc : BitVec 3} {lv : BitVec 1} {lvl : BitVec 3} {kind : Nat} (h : s.me.inHandler = false)
include h

theorem State.boundary_wrongScope (hs : ¬ s.scopeValid sc lv lvl 5 = true) : s.boundary kind sc lv lvl = .error (s.fault 0x030A) := by
  rw [State.boundary, s.outsideHandler_of _ h, Bool.eq_false_iff.2 hs, check_false]

theorem State.boundary_noneLeft (hs : s.scopeValid sc lv lvl 5 = true) (hb : s.me.bounds = []) :
    s.boundary kind sc lv lvl = .error (s.fault 0x030B) := by
  rw [State.boundary, s.outsideHandler_of _ h, hs, check_true, hb]

theorem State.boundary_other (hs : s.scopeValid sc lv lvl 5 = true) {b : Boundary} {bs : List Boundary} (hb : s.me.bounds = b :: bs)
    (hne : b.kind ≠ kind ∨ b.scope ≠ phaseRaw sc lv lvl) : s.boundary kind sc lv lvl = .error (s.fault 0x030B) := by
  have : (b.kind == kind && b.scope == phaseRaw sc lv lvl) = false := by simpa [Decidable.imp_iff_not_or] using hne
  simp only [State.boundary, s.outsideHandler_of _ h, hs, check_true, hb, this, check_false]

theorem State.boundary_holds (hs : s.scopeValid sc lv lvl 5 = true) {b : Boundary} {bs : List Boundary} (hb : s.me.bounds = b :: bs)
    (hk : b.kind = kind) (hn : b.scope = phaseRaw sc lv lvl) :
    s.boundary kind sc lv lvl = .ok (s.modMe fun y => { y with bounds := bs, hold := some (s.holdFor kind b) }) := by
  have : (b.kind == kind && b.scope == phaseRaw sc lv lvl) = true := by simp [hk, hn]
  simp only [State.boundary, s.outsideHandler_of _ h, hs, check_true, hb, this]
  rfl

end

/-- Settles O29: both words are one meaning, by the kind of the boundary that they match. -/
theorem boundariesHold : Obligations.BoundariesHold := by
  unfold Obligations.BoundariesHold
  intro sc lv lvl s c named scopeOk i kind hi
  have hexec : exec i s = s.finish (s.boundary kind sc lv lvl) := by
    simp only [List.mem_cons, List.not_mem_nil, or_false, Prod.mk.injEq] at hi
    obtain ⟨rfl, rfl⟩ | ⟨rfl, rfl⟩ := hi <;> rfl
  have hvalid : s.scopeValid sc lv lvl 5 = true ↔ scopeOk := s.scopeValid_iff sc lv lvl 5
  rw [hexec]
  refine ⟨fun hin => ?_, fun hout hs => ?_, fun hout hs hb => ?_, fun hout hs b bs hb hne => ?_, fun hout hs b bs hb hk hn => ?_⟩
  · rw [State.boundary, s.outsideHandler_inside _ hin, State.finish_error]
  · rw [State.boundary_wrongScope hout (hvalid.not.2 hs), State.finish_error]
  · rw [State.boundary_noneLeft hout (hvalid.2 hs) hb, State.finish_error]
  · rw [State.boundary_other hout (hvalid.2 hs) hb hne, State.finish_error]
  · rw [State.boundary_holds hout (hvalid.2 hs) hb hk hn, State.finish_ok]
    refine ⟨s.holdFor kind b, rfl, rfl, rfl, rfl, rfl, ?_, fun z hz hc => ?_⟩
    · exact congrArg c.scopeOf hn
    · show phaseLatency (c.scopeOf b.scope) = _
      rw [show b.scope = named from hn, hc, phaseLatency_of_lt hz]

end Sys2Proof.Machine
end

