-- ==== Sys2Proof/Proofs/Fences.lean ====
section
/-! O30: FENCE and WGO. -/
namespace Sys2Proof.Machine

/-! Lines and their sectors (R116, R132, R135). -/

/-- The lines that a FENCE of scope `code` writes back. -/
def Line.fenced (code : Nat) (l : Line) : Bool := l.isDirty && (l.scope < code || (l.scope == 6 && code == 6))

theorem Line.fenced_iff (code : Nat) (l : Line) : l.fenced code = true ↔ l.dirty ≠ 0 ∧ (l.scope < code ∨ (l.scope = 6 ∧ code = 6)) := by
  simp [Line.fenced, Line.isDirty]

theorem Line.length_dirtySectors_le (l : Line) (scope : Nat) : (l.dirtySectors scope).length ≤ 4 := List.length_filterMap_le _ _

theorem length_flatMap_dirtySectors_le (ls : List Line) (scope : Nat) : (ls.flatMap fun l => l.dirtySectors scope).length ≤ 4 * ls.length := by
  induction ls with
  | nil => simp
  | cons l ls ih =>
    have := l.length_dirtySectors_le scope
    simp only [List.flatMap_cons, List.length_append, List.length_cons]
    omega

theorem Seq.writeBacks_eq (y : Seq) (sel : Line → Bool) (code : Nat) :
    y.writeBacks sel (fun _ => code) = (y.l1.filter sel).flatMap fun l => l.dirtySectors code := by
  unfold Seq.writeBacks
  induction y.l1 with
  | nil => rfl
  | cons l ls ih => by_cases h : sel l = true <;> simp [h, ih]

/-- Bit `i` of a mask that a fold builds from the bits of some numbers. -/
theorem getLsbD_foldl_or {n : Nat} (c : Nat → Bool) (ks : List Nat) (m : BitVec n) {i : Nat} (hi : i < n) :
    (ks.foldl (fun (m : BitVec n) k => if c k then m ||| (1#n <<< k) else m) m).getLsbD i = (m.getLsbD i || ks.any fun k => k == i && c k) := by
  induction ks generalizing m with
  | nil => simp
  | cons k ks ih =>
    rw [List.foldl_cons, ih, List.any_cons, ← Bool.or_assoc]
    congr 1
    have hbit : (1#n <<< k).getLsbD i = (k == i) := by
      rw [BitVec.getLsbD_shiftLeft, BitVec.getLsbD_one, beq_eq_decide]
      rcases Nat.lt_trichotomy i k with h | rfl | h
      · simp [hi, h, h.ne']
      · simp [Nat.zero_lt_of_lt hi, hi]
      · simp [hi, h.ne, Nat.not_lt.2 h.le, Nat.sub_ne_zero_of_lt h]
    by_cases hc : c k = true
    · simp [hc, hbit]
    · simp [hc]

/-- A line after a FENCE: cleaned where it is written back, and then without its clean sectors. -/
def Line.afterFence (code : Nat) (l : Line) : Line :=
  let z := if l.fenced code then { l with dirty := 0, scope := code } else l
  { z with valid := z.valid &&& (List.range 4).foldl (fun (m : BitVec 4) i =>
      if true && (List.range 64).any (fun k => z.dirty.getLsbD (64 * i + k)) then m ||| (1#4 <<< i) else m) 0 }

theorem Line.afterFence_fenced {code : Nat} {l : Line} (h : l.fenced code = true) : (l.afterFence code).dirty = 0 ∧ (l.afterFence code).scope = code := by
  simp [Line.afterFence, h]

theorem Line.afterFence_other {code : Nat} {l : Line} (h : ¬ l.fenced code = true) :
    (l.afterFence code).dirty = l.dirty ∧ (l.afterFence code).scope = l.scope := by
  simp [Line.afterFence, h]

theorem Line.afterFence_keeps (code : Nat) (l : Line) : (l.afterFence code).tag = l.tag ∧ (l.afterFence code).data = l.data := by
  simp only [Line.afterFence]
  split <;> exact ⟨rfl, rfl⟩

theorem Line.afterFence_valid (code : Nat) (l : Line) {i : Nat} (hi : i < 4) : (l.afterFence code).valid.getLsbD i =
    (l.valid.getLsbD i && (List.range 64).any fun b => (l.afterFence code).dirty.getLsbD (64 * i + b)) := by
  have hany (c : Nat → Bool) : ((List.range 4).any fun k => k == i && c k) = c i := by
    interval_cases i <;> simp [List.range_succ]
  have hv : (if l.fenced code = true then { l with dirty := 0, scope := code } else l).valid = l.valid := by split <;> rfl
  simp only [Line.afterFence, Bool.true_and, BitVec.getLsbD_and, getLsbD_foldl_or _ _ _ hi, hany, hv]
  simp

theorem Seq.l1_fence (y : Seq) (code : Nat) : (y.cleanLines (Line.fenced code) (fun _ => code)).invalidate true = { y with l1 := y.l1.map (Line.afterFence code) } := by
  simp only [Seq.cleanLines, Seq.invalidate, List.map_map]
  rfl

/-! The staging buffer (R118). -/

theorem State.stagedOn_room {s : State} {d : Nat} (h : (s.die d).staging.length + s.forward.length < 65536) : s.stagedOn d = 0 := by
  have := List.length_filter_le (fun e => dieOf (StagingEntry.party e / 2) == d) s.forward
  unfold State.stagedOn
  exact if_pos (by omega)

theorem State.stageAt_room {s : State} {t : Nat} (h : (s.die (dieOf t)).staging.length + s.forward.length < 65536) (q tick : Nat) (w : GlobalWrite) :
    s.stageAt t q tick w = s.setDie (dieOf t) { s.die (dieOf t) with
      staging := (s.die (dieOf t)).staging ++ [{ party := seqNumber t q, tick := tick, write := w }] } := by
  unfold State.stageAt
  have h0 : ¬ s.stagedOn (dieOf t) ≥ 65536 := by rw [State.stagedOn_room h]; omega
  simp only [h0, decide_false, Bool.false_and, Bool.false_eq_true, if_false]

theorem State.foldl_stageAt_room (ws : List (GlobalWrite × Nat)) {s : State} {t q g : Nat} (ht : s.cur.tile = t) (hq : s.cur.seq = q)
    (hg : s.gtick = g) (h : (s.die (dieOf t)).staging.length + s.forward.length + ws.length ≤ 65536) :
    ws.foldl (fun v w => v.stageAt v.cur.tile v.cur.seq (v.gtick + 1 + w.2) w.1) s = ws.foldl (fun v w => v.setDie (dieOf t) { v.die (dieOf t) with
      staging := (v.die (dieOf t)).staging ++ [{ party := seqNumber t q, tick := g + 1 + w.2, write := w.1 }] }) s := by
  induction ws generalizing s with
  | nil => rfl
  | cons w ws ih =>
    rw [List.length_cons] at h
    rw [List.foldl_cons, List.foldl_cons, ht, hq, hg, State.stageAt_room (by omega)]
    refine ih ht hq hg ?_
    simp only [State.die_setDie, State.setDie_forward, if_true, List.length_append, List.length_singleton]
    omega

/-! FENCE. -/

/-- A FENCE outside handler mode, within its scopes. -/
theorem State.fence_eq (s : State) (sc : BitVec 3) (lv : BitVec 1) (lvl : BitVec 3) (h : s.me.inHandler = false) (hs : s.scopeValid sc lv lvl 6 = true) {code : Nat}
    (hc : (s.ctx s.myCtx).scopeOf (phaseRaw sc lv lvl) = code) {out : List GlobalWrite}
    (ho : (s.me.l1.filter (Line.fenced code)).flatMap (fun l => l.dirtySectors code) = out) :
    s.fence sc lv lvl = .ok ((out.zipIdx.foldl (fun (v : State) w => v.stageAt v.cur.tile v.cur.seq (v.gtick + 1 + w.2) w.1)
      (s.modMe fun y => { y with l1 := y.l1.map (Line.afterFence code) })).modMyTile fun x => { x with owed := x.owed + out.length }) := by
  rw [State.fence, s.outsideHandler_of _ h, hs, check_true, hc, ← ho, ← Seq.writeBacks_eq]
  simp only [← Seq.l1_fence]
  rfl

theorem State.fence_wrongScope (s : State) (sc : BitVec 3) (lv : BitVec 1) (lvl : BitVec 3) (h : s.me.inHandler = false)
    (hs : ¬ s.scopeValid sc lv lvl 6 = true) : s.fence sc lv lvl = .error (s.fault 0x030A) := by
  rw [State.fence, s.outsideHandler_of _ h, Bool.eq_false_iff.2 hs, check_false]

/-- A sequencer with nothing to write back only loses its clean sectors. -/
theorem Seq.invalidate_of_none_fenced {y : Seq} {code : Nat} (h : ∀ l ∈ y.l1, ¬ l.fenced code = true) :
    y.invalidate true = { y with l1 := y.l1.map (Line.afterFence code) } := by
  rw [← Seq.l1_fence]
  congr 1
  have : y.l1.map (fun l => if l.fenced code then { l with dirty := 0, scope := code } else l) = y.l1.map id :=
    List.map_congr_left fun l hl => if_neg (h l hl)
  simp only [Seq.cleanLines, this, List.map_id]

/-! WGO. -/

theorem State.mem_waitedOn (s : State) (whole : Bool) (k n : Nat) : (k, n) ∈ s.waitedOn whole ↔
    k < 4 ∧ n = (((if k < 2 then s.myTile.a else s.myTile.b).queue (k % 2)).cmds.filter fun (c : Command) => c.tick < s.gtick).length ∧ 0 < n ∧
      (whole = true ∨ k / 2 = s.cur.seq) := by
  have hall (k : Nat) (c : CopyQueue) : (k, c) ∈ [(0, s.myTile.a.c0), (1, s.myTile.a.c1), (2, s.myTile.b.c0), (3, s.myTile.b.c1)] ↔
      k < 4 ∧ c = (if k < 2 then s.myTile.a else s.myTile.b).queue (k % 2) := by
    constructor
    · simp only [List.mem_cons, List.not_mem_nil, or_false, Prod.mk.injEq]
      rintro (⟨rfl, rfl⟩ | ⟨rfl, rfl⟩ | ⟨rfl, rfl⟩ | ⟨rfl, rfl⟩) <;> exact ⟨by decide, rfl⟩
    · rintro ⟨hk, rfl⟩
      interval_cases k <;> simp [Seq.queue]
  simp only [State.waitedOn, List.mem_filter, List.mem_map, Prod.exists, Prod.mk.injEq, hall, Bool.or_eq_true, beq_iff_eq, decide_eq_true_iff]
  constructor
  · rintro ⟨⟨k, c, ⟨⟨hk, hc⟩, hw⟩, rfl, rfl⟩, hn⟩
    exact ⟨hk, by rw [hc], hn, hw⟩
  · rintro ⟨hk, rfl, hn, hw⟩
    exact ⟨⟨k, _, ⟨⟨hk, rfl⟩, hw⟩, rfl, rfl⟩, hn⟩

theorem State.wgo_wrongScope (s : State) (sc : BitVec 3) (lv : BitVec 1) (h : s.me.inHandler = false) (hs : lv = 1 ∨ 1 < sc.toNat) :
    s.wgo sc lv = .error (s.fault 0x030A) := by
  have : (lv = 0 && sc.toNat ≤ 1 : Bool) = false := by
    rcases hs with rfl | hs
    · rfl
    · simp [Nat.not_le.2 hs]
  rw [State.wgo, s.outsideHandler_of _ h, this, check_false]

theorem State.wgo_eq (s : State) (sc : BitVec 3) (h : s.me.inHandler = false) (hs : sc.toNat ≤ 1) :
    s.wgo sc 0 = .ok (s.modMe fun y => { y with waitGo := s.waitedOn (sc = 1) }) := by
  simp [State.wgo, s.outsideHandler_of _ h, hs]

/-- Settles O30. -/
theorem fencesWriteBackAndWaits : Obligations.FencesWriteBackAndWaits := by
  unfold Obligations.FencesWriteBackAndWaits
  intro sc lv lvl s c code scopeOk picked d room out queues earlier waits
  have hvalid : s.scopeValid sc lv lvl 6 = true ↔ scopeOk := s.scopeValid_iff sc lv lvl 6
  have hpicked (l : Line) : l.fenced code = true ↔ picked l := l.fenced_iff code
  have hout : (s.me.l1.filter (Line.fenced code)).flatMap (fun l => l.dirtySectors code) = out := by
    have : (fun l => decide (picked l)) = Line.fenced code := funext fun l => by rw [← Bool.decide_coe (l.fenced code)]; exact decide_eq_decide.2 (hpicked l).symm
    simp only [out, this]
  have hfence (h : s.me.inHandler = false) (hs : scopeOk) := s.fence_eq sc lv lvl h (hvalid.2 hs) (code := code) rfl hout
  have hlength : out.length ≤ 4 * s.me.l1.length :=
    hout ▸ (length_flatMap_dirtySectors_le _ _).trans (Nat.mul_le_mul_left 4 (List.length_filter_le _ _))
  refine ⟨fun hin i hi => ?_, fun h hs => ?_, fun h hs => ?_, fun h hs hnone => ?_, fun h hs hroom => ?_, fun h hw => ?_, fun h hl hw => ?_⟩
  · simp only [List.mem_cons, List.not_mem_nil, or_false] at hi
    obtain rfl | rfl := hi
    · show s.finish (s.fence sc lv lvl) = _
      rw [State.fence, s.outsideHandler_inside _ hin, State.finish_error]
    · show s.finish (s.wgo sc lv) = _
      rw [State.wgo, s.outsideHandler_inside _ hin, State.finish_error]
  · show s.finish (s.fence sc lv lvl) = _
    rw [s.fence_wrongScope sc lv lvl h (hvalid.not.2 hs), State.finish_error]
  · exact ⟨_, (congrArg s.finish (hfence h hs)).trans (State.finish_ok ..)⟩
  · have hclean (l : Line) (hl : l ∈ s.me.l1) : ¬ l.fenced code = true := (hpicked l).not.2 (hnone l hl)
    have hnil : out = [] := by rw [← hout, List.filter_eq_nil_iff.2 hclean]; rfl
    show s.finish (s.fence sc lv lvl) = _
    rw [hfence h hs, State.finish_ok, hnil, State.modMe, State.modMe, Seq.invalidate_of_none_fenced hclean]
    rfl
  · refine ⟨{ s.me with l1 := s.me.l1.map (Line.afterFence code) }, ?_, rfl, List.length_map _, fun k l l' hk hk' => ?_⟩
    · show s.finish (s.fence sc lv lvl) = _
      rw [hfence h hs, State.finish_ok, State.foldl_stageAt_room _ rfl rfl rfl]
      · rfl
      · rw [List.length_zipIdx]
        show (s.die d).staging.length + s.forward.length + _ ≤ _
        omega
    · simp only [List.getElem?_map, hk, Option.map_some, Option.some.injEq] at hk'
      subst hk'
      obtain ⟨htag, hdata⟩ := l.afterFence_keeps code
      exact ⟨htag, hdata, fun hp => Line.afterFence_fenced ((hpicked l).2 hp), fun hp => Line.afterFence_other ((hpicked l).not.2 hp),
        fun i hi => l.afterFence_valid code hi⟩
  · show s.finish (s.wgo sc lv) = _
    rw [s.wgo_wrongScope sc lv h hw, State.finish_error]
  · subst hl
    have hwgo : exec (.wgo sc 0 lvl) s = _ := (congrArg s.finish (s.wgo_eq sc h hw)).trans (State.finish_ok ..)
    have hmem (k n : Nat) : (k, n) ∈ s.waitedOn (sc = 1) ↔ k < 4 ∧ n = earlier k ∧ 0 < n ∧ waits k := by
      rw [s.mem_waitedOn, decide_eq_true_iff]
    refine ⟨fun hz => ?_, _, hwgo, hmem⟩
    have hnil : s.waitedOn (sc = 1) = [] := List.eq_nil_iff_forall_not_mem.2 fun ⟨k, n⟩ hk => by
      obtain ⟨hlt, rfl, hn, hkw⟩ := (hmem k n).1 hk
      exact hn.ne' (hz k hlt hkw)
    rw [hwgo, hnil]

end Sys2Proof.Machine
end

