-- ==== Sys2Proof/Proofs/Landings.lean ====
section
/-! O10: results in flight and their landing (R49, R50, R344). -/
namespace Sys2Proof.Machine

/-! Sorting by a key: a permutation, in ascending order. -/

theorem insertKey_perm {α : Type} (k : Nat) (v : α) (es : List (Nat × α)) : (insertKey k v es).Perm ((k, v) :: es) := by
  induction es with
  | nil => exact .refl _
  | cons e es ih =>
    rw [insertKey]
    split
    · exact .refl _
    · exact (ih.cons e).trans (.swap ..)

theorem insertKey_sorted {α : Type} (k : Nat) (v : α) {es : List (Nat × α)} (h : es.Pairwise fun d e => d.1 ≤ e.1) :
    (insertKey k v es).Pairwise fun d e => d.1 ≤ e.1 := by
  induction es with
  | nil => exact List.pairwise_singleton ..
  | cons e es ih =>
    obtain ⟨he, hes⟩ := List.pairwise_cons.1 h
    rw [insertKey]
    split
    next hk => exact List.pairwise_cons.2 ⟨fun d hd => (List.mem_cons.1 hd).elim (fun h => h ▸ hk.le) fun hd => hk.le.trans (he d hd), h⟩
    next hk => exact List.pairwise_cons.2 ⟨fun d hd => (List.mem_cons.1 ((insertKey_perm k v es).mem_iff.1 hd)).elim
        (fun h => h ▸ Nat.le_of_not_lt hk) (he d), ih hes⟩

theorem sortKey_perm {α : Type} (acc es : List (Nat × α)) : (sortKey acc es).Perm (acc ++ es) := by
  induction es generalizing acc with
  | nil => rw [sortKey, List.append_nil]
  | cons e es ih => exact (ih _).trans (((insertKey_perm e.1 e.2 acc).append_right es).trans List.perm_middle.symm)

theorem sortKey_sorted {α : Type} {acc : List (Nat × α)} (h : acc.Pairwise fun d e => d.1 ≤ e.1) (es : List (Nat × α)) :
    (sortKey acc es).Pairwise fun d e => d.1 ≤ e.1 := by
  induction es generalizing acc with
  | nil => exact h
  | cons e es ih => exact ih (insertKey_sorted _ _ h)

/-- Sorting `xs` by `key` gives its elements in ascending order of their keys. -/
theorem sortKey_by {α : Type} (key : α → Nat) (xs : List α) :
    ((sortKey [] (xs.map fun x => (key x, x))).map (·.2)).Perm xs ∧
      ((sortKey [] (xs.map fun x => (key x, x))).map (·.2)).Pairwise fun x y => key x ≤ key y := by
  have hperm := sortKey_perm [] (xs.map fun x => (key x, x))
  have hkey (e : Nat × α) (he : e ∈ sortKey [] (xs.map fun x => (key x, x))) : e.1 = key e.2 := by
    obtain ⟨x, -, rfl⟩ := List.mem_map.1 (hperm.mem_iff.1 he)
    rfl
  refine ⟨?_, ?_⟩
  · simpa [List.map_map, Function.comp_def] using hperm.map (·.2)
  · rw [List.pairwise_map]
    refine (sortKey_sorted List.Pairwise.nil _).imp_of_mem fun {d e} hd he h => ?_
    rwa [hkey d hd, hkey e he] at h

/-! The order of the results that are due (R50). -/

theorem Seq.dueFlights_perm (y : Seq) : y.dueFlights.Perm ((if y.inHandler then y.hflights else y.flights).filter fun f => decide (f.step ≤ y.now)) :=
  (sortKey_by Flight.place _).1

theorem Flight.place_le {f g : Flight} (hf : f.issue < 2 ^ 64 ∧ f.unit < 8) (hg : g.issue < 2 ^ 64 ∧ g.unit < 8) (h : f.place ≤ g.place) :
    f.step < g.step ∨ (f.step = g.step ∧ ((f.first = true ∧ g.first = false) ∨
      (f.first = g.first ∧ (f.issue < g.issue ∨ (f.issue = g.issue ∧ f.unit ≤ g.unit))))) := by
  obtain ⟨hfi, hfu⟩ := hf
  obtain ⟨hgi, hgu⟩ := hg
  unfold Flight.place at h
  cases hf1 : f.first <;> cases hg1 : g.first <;> simp only [hf1, hg1, if_true, if_false, Bool.false_eq_true] at h <;> simp <;> omega

theorem Seq.dueFlights_sorted (y : Seq) (h : ∀ f ∈ (if y.inHandler then y.hflights else y.flights), f.issue < 2 ^ 64 ∧ f.unit < 8) :
    y.dueFlights.Pairwise fun f g => f.step < g.step ∨ (f.step = g.step ∧ ((f.first = true ∧ g.first = false) ∨
      (f.first = g.first ∧ (f.issue < g.issue ∨ (f.issue = g.issue ∧ f.unit ≤ g.unit))))) := by
  have hb (f : Flight) (hf : f ∈ y.dueFlights) := h f (List.mem_of_mem_filter (y.dueFlights_perm.mem_iff.1 hf))
  exact (sortKey_by Flight.place _).2.imp_of_mem fun hf hg hp => Flight.place_le (hb _ hf) (hb _ hg) hp

/-! Nothing is due where a sequencer issues. -/

theorem Seq.dueFlights_of_landingNext {y : Seq} {t q : Nat} (h : y.landingNext t q = none) : y.dueFlights = [] := by
  simpa [Seq.landingNext] using h

/-- The part of a schedule that never is the issue of a bundle. -/
structure NoIssue (o : Option Next) : Prop where
  ne : ∀ u r, o ≠ some (.issue u r)

theorem NoIssue.none : NoIssue none := ⟨fun _ _ => nofun⟩

theorem NoIssue.due (op : Instr) (args : List Nat) : NoIssue (some (.due op args)) := ⟨fun _ _ => nofun⟩

theorem NoIssue.agenda (i : Nat) (e : Timed) : NoIssue (some (.agenda i e)) := ⟨fun _ _ => nofun⟩

theorem NoIssue.map {α : Type} {o : Option α} {f : α → Next} (h : ∀ x, NoIssue (some (f x))) : NoIssue (o.map f) := by
  cases o with
  | none => exact .none
  | some x => exact h x

theorem NoIssue.or {o p : Option Next} (ho : NoIssue o) (hp : NoIssue p) : NoIssue (o.or p) := by
  cases o with
  | none => exact hp
  | some n => exact ho

theorem NoIssue.findSome {α : Type} {f : α → Option Next} (xs : List α) (h : ∀ x, NoIssue (f x)) : NoIssue (xs.findSome? f) := by
  refine ⟨fun u r he => ?_⟩
  obtain ⟨x, -, hx⟩ := List.exists_of_findSome?_eq_some he
  exact (h x).ne u r hx

/-- Where the first of two parts is not it, the second one issues. -/
theorem or_issue {o p : Option Next} {u r : Nat} (ho : NoIssue o) (h : o.or p = some (.issue u r)) : o = none ∧ p = some (.issue u r) := by
  cases o with
  | none => exact ⟨rfl, h⟩
  | some n => exact absurd h (ho.ne u r)

theorem Seq.landingNext_noIssue (y : Seq) (t q : Nat) : NoIssue (y.landingNext t q) := .map fun _ => .due ..

theorem State.agendaNext_noIssue (s : State) : NoIssue s.agendaNext := .map fun _ => .agenda ..

theorem State.ackNext_noIssue (s : State) (t : Nat) : NoIssue (s.ackNext t) :=
  .findSome _ fun _ => .or (.map fun _ => .due ..) (.or (.map fun _ => .due ..) (.map fun _ => .due ..))

theorem State.engineNext_noIssue (s : State) (t : Nat) : NoIssue (s.engineNext t) := .findSome _ fun k => by
  split
  · exact .due ..
  · exact .map fun _ => .due ..

theorem State.settleNext_noIssue (s : State) (t : Nat) : NoIssue (some (s.settleNext t)) := by
  unfold State.settleNext
  dsimp only
  repeat' split
  all_goals exact ⟨fun _ _ => nofun⟩

theorem Tile.powerNext_noIssue (x : Tile) (t tick : Nat) : NoIssue (x.powerNext t tick) := by
  unfold Tile.powerNext
  repeat' split
  all_goals exact ⟨fun _ _ => nofun⟩

theorem Ctx.next_noIssue (c : Ctx) (x tick : Nat) : NoIssue (c.next x tick) := by
  unfold Ctx.next
  repeat' split
  all_goals exact ⟨fun _ _ => nofun⟩

theorem State.frontNext_noIssue (s : State) : NoIssue s.frontNext := by
  refine .or (.map fun _ => .due ..) (.or (.map fun _ => .due ..) ?_)
  split
  · exact .none
  · exact .map fun _ => .due ..

theorem State.earlyNext_noIssue (s : State) : NoIssue s.earlyNext := by
  unfold State.earlyNext
  split
  · exact .none
  split
  next n hn => exact hn ▸ .findSome _ fun _ => Tile.powerNext_noIssue ..
  next => split
          · exact .due ..
          · exact .or (.findSome _ fun _ => Ctx.next_noIssue ..) s.frontNext_noIssue

theorem State.lateNext_noIssue (s : State) : NoIssue s.lateNext := by
  refine .or (.findSome _ fun e => ?_) (.findSome _ fun e => ?_)
  · unfold Tile.signalNext
    repeat' split
    all_goals exact ⟨fun _ _ => nofun⟩
  · unfold Tile.deferredNext
    split <;> exact ⟨fun _ _ => nofun⟩

theorem State.handlerNext_issue {s : State} {t u q : Nat} (h : s.handlerNext t = some (.issue u q)) : (s.seq u q).dueFlights = [] := by
  unfold State.handlerNext at h
  cases hq : s.handlerSteps t with
  | none => simp [hq] at h
  | some r =>
    cases hl : (s.seq t r).landingNext t r with
    | some n => simp only [hq, hl] at h; exact absurd (hl.trans h) ((Seq.landingNext_noIssue ..).ne u q)
    | none =>
      simp only [hq, hl, Option.ite_none_right_eq_some, Option.some.injEq, Next.issue.injEq] at h
      obtain ⟨-, rfl, rfl⟩ := h
      exact Seq.dueFlights_of_landingNext hl

theorem State.runNext_issue {s : State} {t u q : Nat} (h : s.runNext t = some (.issue u q)) : (s.seq u q).dueFlights = [] := by
  obtain ⟨hl, h⟩ := or_issue (.or (Seq.landingNext_noIssue ..) (Seq.landingNext_noIssue ..)) h
  obtain ⟨-, h⟩ := or_issue (s.engineNext_noIssue t) h
  obtain ⟨ha, hb⟩ := Option.or_eq_none_iff.1 hl
  split at h
  · cases h
    exact Seq.dueFlights_of_landingNext ha
  · split at h <;> cases h
    exact Seq.dueFlights_of_landingNext hb

theorem State.tileNext_issue {s : State} {t u q : Nat} (h : s.tileNext t = some (.issue u q)) : (s.seq u q).dueFlights = [] := by
  unfold State.tileNext at h
  dsimp only at h
  split at h
  · cases h
  split at h
  · exact absurd h ((s.settleNext_noIssue t).ne u q)
  split at h
  · exact State.handlerNext_issue h
  split at h
  · exact absurd h ((s.ackNext_noIssue t).ne u q)
  · exact State.runNext_issue h

theorem State.next_issue {s : State} {t q : Nat} (h : s.next = .issue t q) : (s.seq t q).dueFlights = [] := by
  have h : s.agendaNext.or (s.earlyNext.or ((s.tiles.findSome? fun e => s.tileNext e.1).or s.lateNext)) = some (.issue t q) := by
    unfold State.next at h
    cases ho : s.agendaNext.or (s.earlyNext.or ((s.tiles.findSome? fun e => s.tileNext e.1).or s.lateNext)) with
    | none => rw [ho] at h; cases h
    | some n => rw [ho] at h; exact congrArg some h
  obtain ⟨-, h⟩ := or_issue s.agendaNext_noIssue h
  obtain ⟨-, h⟩ := or_issue s.earlyNext_noIssue h
  obtain h | ⟨-, h⟩ := Option.or_eq_some_iff.1 h
  · obtain ⟨e, -, he⟩ := List.exists_of_findSome?_eq_some h
    exact State.tileNext_issue he
  · exact absurd h (s.lateNext_noIssue.ne t q)

/-! Putting a result into flight. -/

theorem Tile.setSeq_others (x : Tile) (q : Nat) (y : Seq) : { x.setSeq q y with a := x.a, b := x.b } = x := by
  unfold Tile.setSeq
  split <;> rfl

/-! A result lands. -/

theorem Seq.repair_eq (y : Seq) (a : Act) : y.repair a = { y with parityErrors := y.parityErrors.filter fun e => !a.repairs e.1 e.2 } := by
  unfold Seq.repair
  split
  next h =>
    have h : y.parityErrors = [] := List.isEmpty_iff.1 h
    rw [h, List.filter_nil, ← h]
  next => rfl

/-- A register result without a fault lands: nothing but its sequencer changes. -/
theorem State.landNext_reg {s : State} {t q : Nat} {f : Flight} {rest : List Flight} {z : Seq} (h : (s.seq t q).dueFlights = f :: rest)
    (hact : ∀ s : State, s.landAct t q f = (let (y, fs) := (s.seq t q).landReg f; (s.setSeq t q ({ y with fpflags := y.fpflags ||| f.flags }.repair f.act), fs)))
    (hp : f.parity = false) (hz : ((s.seq t q).removeFlight f).landReg f = (z, [])) :
    s.landNext t q = (s.setSeq t q ((s.seq t q).removeFlight f)).setSeq t q
      { z with fpflags := z.fpflags ||| f.flags, parityErrors := z.parityErrors.filter fun e => !f.act.repairs e.1 e.2 } := by
  simp only [State.landNext, h, State.land, hact, State.seq_modSeq_same, hz, hp, Bool.false_and, Bool.false_eq_true, if_false, Seq.repair_eq]
  rfl

theorem getElem_leBytes {n v k : Nat} (h : k < (leBytes n v).length) : (leBytes n v)[k] = BitVec.ofNat 8 (v / 256 ^ k) := by
  induction n generalizing v k with
  | zero => simp at h
  | succ n ih =>
    cases k with
    | zero => simp [leBytes]
    | succ k =>
      have h' : k < (leBytes n (v / 256)).length := by simpa [leBytes] using h
      simp only [leBytes, List.getElem_cons_succ, ih h', Nat.div_div_eq_div_mul, pow_succ']

theorem vecBytes_getElem (v : Vec) {k : Nat} (h : k < (vecBytes v).length) : (vecBytes v)[k] = v.extractLsb' (8 * k) 8 := by
  rw [show (vecBytes v)[k] = _ from getElem_leBytes h]
  apply BitVec.eq_of_toNat_eq
  simp [BitVec.extractLsb'_toNat, Nat.shiftRight_eq_div_pow, pow_mul]

/-- The bytes of a merged register. -/
theorem extract_mergeBytes (mask : BitVec 64) (new old : Vec) {k : Nat} (hk : k < 64) :
    (mergeBytes mask new old).extractLsb' (8 * k) 8 = if mask.getLsbD k then new.extractLsb' (8 * k) 8 else old.extractLsb' (8 * k) 8 := by
  have hlen : k < (vecBytes (mergeBytes mask new old)).length := by rwa [length_vecBytes]
  have hbytes : vecBytes (mergeBytes mask new old) = (List.range 64).map fun k =>
      if mask.getLsbD k then new.extractLsb' (8 * k) 8 else old.extractLsb' (8 * k) 8 := vecBytes_bytesVec _ (by simp)
  rw [← vecBytes_getElem _ hlen]
  simp only [hbytes, List.getElem_map, List.getElem_range]

theorem Seq.removeFlight_keeps (y : Seq) (f : Flight) : (y.removeFlight f).g = y.g ∧ (y.removeFlight f).v = y.v ∧ (y.removeFlight f).p = y.p ∧
    (y.removeFlight f).fpflags = y.fpflags ∧ (y.removeFlight f).parityErrors = y.parityErrors := by
  unfold Seq.removeFlight
  split <;> exact ⟨rfl, rfl, rfl, rfl, rfl⟩

/-- Settles O10. -/
theorem resultsFlyAndLand : Obligations.ResultsFlyAndLand := by
  unfold Obligations.ResultsFlyAndLand
  refine ⟨⟨fun y => ⟨y.dueFlights_perm, y.dueFlights_sorted⟩, fun s t q h => State.next_issue h⟩, fun s lat act => ?_, ?_, ?_⟩
  · refine ⟨?_, fun x q h => ?_, fun x => ?_, rfl⟩
    · exact State.me_emitFlight ..
    · exact State.seq_modMe_other _ _ _ _ fun ⟨hx, hq⟩ => h ⟨hx.symm, hq.symm⟩
    · show ({ (s.setSeq _ _ _).tile x with a := _, b := _ } : Tile) = _
      rw [State.tile_setSeq]
      split
      · exact Tile.setSeq_others ..
      · rfl
  · intro s f rest r v t q y hdue hact hu hp hpar
    obtain ⟨hg, hv, hp', hfl, hpe⟩ := y.removeFlight_keeps f
    have hz : (y.removeFlight f).landReg f = ((y.removeFlight f).writeG r v, []) := by simp [Seq.landReg, hact, hu, Flight.poisonFaults, hp]
    refine ⟨_, congrArg _ (State.landNext_reg hdue (fun s => by rw [State.landAct, hact]) hpar hz), fun k => ?_, ?_, ?_, ?_⟩
    · show ((y.removeFlight f).writeG r v).readG k = _
      rw [Seq.readG_writeG, Seq.readG, Seq.readG, hg]
      simp only [eq_comm]
    · rw [← hfl]; unfold Seq.writeG; split <;> rfl
    · rw [← hpe]; unfold Seq.writeG; split <;> rfl
    · rw [← hg, ← hfl, ← hpe]; unfold Seq.writeG; split <;> rfl
  · intro s f rest t q y hdue hu hp hsh hpar
    obtain ⟨hg, hv, hpred, hfl, hpe⟩ := y.removeFlight_keeps f
    refine ⟨fun r mask v hact => ?_, fun r v hact => ?_⟩
    · have hz : (y.removeFlight f).landReg f = ((y.removeFlight f).landV r mask v, []) := by
        simp [Seq.landReg, hact, hu, Flight.poisonFaults, Flight.shadowFaults, Flight.badLanes, hp, hsh]
      refine ⟨_, congrArg _ (State.landNext_reg hdue (fun s => by rw [State.landAct, hact]) hpar hz), fun k hk => ?_, fun k hk => ?_, ?_, ?_, ?_⟩
      · rw [← hv]
        simp only [Seq.landV, mget_mset_same]
        exact extract_mergeBytes _ _ _ hk
      · rw [← hv]
        exact mget_mset_other _ _ _ hk.symm
      · rw [← hfl]; rfl
      · rw [← hpe]; rfl
      · rw [← hv, ← hfl, ← hpe]; rfl
    · have hz : (y.removeFlight f).landReg f = (if r = 0 then y.removeFlight f else { y.removeFlight f with p := mset 0 (y.removeFlight f).p r v }, []) := by
        simp [Seq.landReg, hact]
      refine ⟨_, congrArg _ (State.landNext_reg hdue (fun s => by rw [State.landAct, hact]) hpar hz), fun k hk => ?_, rfl, ?_, ?_, ?_⟩
      · rw [← hpred]
        by_cases hr : r = 0
        · subst hr; simp [hk]
        · simp [hr, mget_mset, eq_comm]
      · rw [← hfl]; split <;> rfl
      · rw [← hpe]; split <;> rfl
      · rw [← hpred, ← hfl, ← hpe]; split <;> rfl

end Sys2Proof.Machine
end

