-- ==== Sys2Proof/Proofs/Boots.lean ====
section
/-! O55: boot and its steps (R41, R306, R333, R401). -/
namespace Sys2Proof.Machine

/-! The record of boot. -/

theorem State.bootEntry_setBoot (s : State) (k j : Nat) (f : BootEntry → BootEntry) :
    (s.setBoot k f).bootEntry j = if k = j then f (s.bootEntry k) else s.bootEntry j := by
  simp [State.bootEntry, State.setBoot, mget_mset]

theorem State.bootEntry_bootOutcome (s : State) (k j outcome attempts : Nat) : (s.bootOutcome k outcome attempts).bootEntry j =
    if k = j then { outcome := outcome, attempts := attempts, tick := s.gtick % 2 ^ 32, boot := s.boots } else s.bootEntry j :=
  s.bootEntry_setBoot k j _

@[simp] theorem State.bootEntry_bootOutcome_same (s : State) (k outcome attempts : Nat) : (s.bootOutcome k outcome attempts).bootEntry k =
    { outcome := outcome, attempts := attempts, tick := s.gtick % 2 ^ 32, boot := s.boots } := by
  rw [State.bootEntry_bootOutcome, if_pos rfl]

@[simp] theorem State.bootEntry_after (s : State) (n : Nat) (op : Instr) (l : List Nat) (k : Nat) : (s.after n op l).bootEntry k = s.bootEntry k := rfl
/-- Boot goes on behind step `k`: the next step is due at once, or boot is over. -/
def State.bootedPast (u : State) (k : Nat) : Prop := if k < 9 then u.planned .boot [k + 1] u.gtick u.gtick else u.regs.bootstep = 0xFF

theorem State.bootGoesOn_bootedPast (s : State) (k : Nat) : (s.bootGoesOn k).bootedPast k := by
  unfold State.bootedPast State.bootGoesOn
  split
  · exact s.planned_after 0 .boot [k + 1]
  · rfl

@[simp] theorem State.bootGoesOn_bootEntry (s : State) (k j : Nat) : (s.bootGoesOn k).bootEntry j = s.bootEntry j := by
  unfold State.bootGoesOn
  split <;> rfl

theorem State.bootGoesOn_keeps (s : State) (k : Nat) : (s.bootGoesOn k).gtick = s.gtick ∧ (s.bootGoesOn k).sheaf = s.sheaf ∧
    (s.bootGoesOn k).portsUp = s.portsUp := by
  unfold State.bootGoesOn
  split <;> exact ⟨rfl, rfl, rfl⟩

/-! The work of a step that passes. -/

theorem State.changeSheaf_gtick (s : State) (f : Sheaf → Sheaf) : (s.changeSheaf f).gtick = s.gtick := by
  unfold State.changeSheaf
  split
  · rfl
  · exact State.raiseSheaf_gtick _

theorem State.changeSheaf_device (s : State) (f : Sheaf → Sheaf) : (s.changeSheaf f).boot = s.boot ∧ (s.changeSheaf f).regs = s.regs := by
  unfold State.changeSheaf
  split
  · exact ⟨rfl, rfl⟩
  · obtain ⟨cs, ag, h, -⟩ := State.raiseSheaf_eq { s with sheaf := f s.sheaf }
    rw [h]
    exact ⟨rfl, rfl⟩

/-- What the new record holds, but for its version. -/
theorem State.changeSheaf_becomes_upto (s : State) (f : Sheaf → Sheaf) : ∃ v, (s.changeSheaf f).sheaf = { f s.sheaf with version := v } := by
  by_cases h : f s.sheaf = s.sheaf
  · exact ⟨(f s.sheaf).version, by rw [s.changeSheaf_same f h, h]⟩
  · exact ⟨_, s.changeSheaf_sheaf f h⟩

theorem State.discardJournals_keep (s : State) (ts : List Nat) : (ts.foldl (fun s t => s.discardJournal t) s).gtick = s.gtick := by
  refine foldl_keeps State.gtick _ (fun s t => ?_) ts s
  obtain ⟨f, lg, ds, -, h⟩ := s.discardJournal_eq t
  rw [h]; rfl

theorem State.bootWork_gtick (s : State) (k : Nat) (alternate : Bool) : (s.bootWork k alternate).gtick = s.gtick := by
  unfold State.bootWork
  split
  · split
    · exact State.changeSheaf_gtick ..
    · rfl
  · rw [State.changeSheaf_gtick, State.discardJournals_keep]
  · exact State.changeSheaf_gtick ..
  · rfl
  · rfl

/-! Steps that end. -/

/-- What the failure of step `k` leaves. -/
def State.failedBoot (s : State) (k : Nat) (u : State) : Prop :=
  (u.bootEntry k).outcome = 3 ∧ (u.bootEntry k).attempts = (s.bootEntry k).attempts + 1 ∧
    (bootMandatory k = false → u.bootedPast k) ∧
    (bootMandatory k = true → (s.bootEntry k).attempts + 1 < 3 → ∃ e ∈ u.agenda, e.op = .coldReset ∧ e.args = [] ∧ u.gtick < e.tick) ∧
    (bootMandatory k = true → 3 ≤ (s.bootEntry k).attempts + 1 → u.agenda = s.agenda ∧ u.regs = s.regs)

theorem State.bootFails_failedBoot (s : State) (k : Nat) : s.failedBoot k (s.bootFails k) := by
  have hentry : ((s.bootOutcome k 3 ((s.bootEntry k).attempts + 1)).bootEntry k) =
    { outcome := 3, attempts := (s.bootEntry k).attempts + 1, tick := s.gtick % 2 ^ 32, boot := s.boots } := State.bootEntry_bootOutcome_same ..
  unfold State.bootFails
  cases hm : bootMandatory k
  · have he := (State.bootGoesOn_bootEntry (s.bootOutcome k 3 ((s.bootEntry k).attempts + 1)) k k).trans hentry
    exact ⟨congrArg BootEntry.outcome he, congrArg BootEntry.attempts he, fun _ => State.bootGoesOn_bootedPast .., by simp [hm], by simp [hm]⟩
  · dsimp only
    by_cases hn : 3 ≤ (s.bootEntry k).attempts + 1
    · rw [if_neg (by decide), if_pos hn]
      exact ⟨congrArg BootEntry.outcome hentry, congrArg BootEntry.attempts hentry, by simp [hm], fun _ h => absurd hn (Nat.not_le.2 h), fun _ _ => ⟨rfl, rfl⟩⟩
    · rw [if_neg (by decide), if_neg hn]
      refine ⟨congrArg BootEntry.outcome hentry, congrArg BootEntry.attempts hentry, by simp [hm], fun _ _ => ?_, fun _ h => absurd h hn⟩
      exact ⟨_, (mem_insertTimed ..).2 (.inl rfl), rfl, rfl, by show s.gtick < s.gtick + (1 + _); omega⟩

theorem State.bootPasses_entry (s : State) (k before : Nat) : ((s.bootPasses k before).bootEntry k).attempts = 0 ∧
    ((s.bootPasses k before).bootEntry k).outcome = if k = 3 ∧ before = 3 then 5 else 2 := by
  simp [State.bootPasses]

theorem State.bootPasses_bootedPast (s : State) (k before : Nat) : (s.bootPasses k before).bootedPast k := State.bootGoesOn_bootedPast ..

theorem State.bootPasses_work (s : State) (k before : Nat) : (s.bootPasses k before).gtick = s.gtick ∧
    (s.bootPasses k before).sheaf = (s.bootWork k (k == 3 && before == 3)).sheaf ∧
    (s.bootPasses k before).portsUp = (s.bootWork k (k == 3 && before == 3)).portsUp := by
  obtain ⟨hg, hs, hp⟩ := State.bootGoesOn_keeps ((s.bootWork k (k == 3 && before == 3)).bootOutcome k (if (k == 3 && before == 3) then 5 else 2) 0) k
  exact ⟨hg.trans (s.bootWork_gtick ..), hs, hp⟩

/-! Steps that begin. -/

def State.begunBoot (s : State) (k : Nat) (u : State) : Prop :=
  u.regs.bootstep = k ∧ (u.bootEntry k).outcome = 1 ∧ (u.bootEntry k).boot = u.boots ∧
    ((s.bootEntry k).boot + 1 = u.boots → (u.bootEntry k).attempts = (s.bootEntry k).attempts) ∧
    (¬ (s.bootEntry k).boot + 1 = u.boots → (u.bootEntry k).attempts = 0) ∧
    u.planned .bootStepTimeout [k, u.boots] (s.gtick + bootLimit k) (s.gtick + bootLimit k) ∧
    ∃ e ∈ u.agenda, e.op = .boot ∧ e.args = [k, 1, if (s.bootEntry k).boot + 1 = u.boots then (s.bootEntry k).outcome else 0, u.boots] ∧ s.gtick < e.tick

def State.atStep (s : State) (k : Nat) : State := { s with regs := { s.regs with bootstep := k } }

/-- What step `k` was in the boot before; an older entry says nothing. -/
def State.bootBefore (s : State) (k : Nat) : Nat := if (s.bootEntry k).boot + 1 = s.boots then (s.bootEntry k).outcome else 0

theorem State.stepBegins_eq (s : State) (k : Nat) (h : ¬ (s.bootBefore k = 3 ∧ bootMandatory k = false)) : s.stepBegins k =
    (((((s.atStep k).bootOutcome k 1 (if (s.bootEntry k).boot + 1 = s.boots then (s.bootEntry k).attempts else 0)).after
      (1 + Config.serviceDelay s.free) .boot [k, 1, s.bootBefore k, s.boots]).tickFree).after (bootLimit k) .bootStepTimeout [k, s.boots]) := by
  unfold State.bootBefore at h ⊢
  unfold State.stepBegins
  simp only [beq_iff_eq]
  rw [if_neg (by simpa using h)]
  rfl

theorem State.stepBegins_begunBoot (s : State) (k : Nat) (h : ¬ (s.bootBefore k = 3 ∧ bootMandatory k = false)) :
    s.begunBoot k (s.stepBegins k) ∧ (s.stepBegins k).boots = s.boots ∧ (s.stepBegins k).portsUp = s.portsUp ∧
      ∀ j, j ≠ k → (s.stepBegins k).bootEntry j = s.bootEntry j := by
  rw [s.stepBegins_eq k h]
  generalize hv : ((s.atStep k).bootOutcome k 1
    (if (s.bootEntry k).boot + 1 = s.boots then (s.bootEntry k).attempts else 0)) = v
  have hk : v.bootEntry k = _ := hv ▸ State.bootEntry_bootOutcome_same ..
  have hr : v.regs.bootstep = k ∧ v.boots = s.boots ∧ v.gtick = s.gtick ∧ v.portsUp = s.portsUp := by subst hv; exact ⟨rfl, rfl, rfl, rfl⟩
  obtain ⟨hstep, hboots, hgtick, hports⟩ := hr
  refine ⟨⟨hstep, congrArg BootEntry.outcome hk, (congrArg BootEntry.boot hk).trans hboots.symm, fun hl => ?_, fun hl => ?_, ?_, ?_⟩, hboots, hports, fun j hj => ?_⟩
  · exact (congrArg BootEntry.attempts hk).trans (if_pos (hl.trans hboots))
  · exact (congrArg BootEntry.attempts hk).trans (if_neg fun h => hl (h.trans hboots.symm))
  · rw [← hgtick, ← hboots]
    exact State.planned_after (State.tickFree _) ..
  · refine ⟨_, (mem_insertTimed ..).2 (.inr ((mem_insertTimed ..).2 (.inl rfl))), rfl, ?_, ?_⟩
    · rw [State.bootBefore, ← hboots]; rfl
    · show s.gtick < v.gtick + (1 + _)
      omega
  · show v.bootEntry j = _
    subst hv
    exact (State.bootEntry_bootOutcome _ k j _ _).trans (if_neg hj.symm)

theorem State.stepBegins_leavesOut (s : State) (k : Nat) (h : s.bootBefore k = 3) (hm : bootMandatory k = false) :
    ((s.stepBegins k).bootEntry k).outcome = 4 ∧ (s.stepBegins k).regs.bootstep = k ∧
      (s.stepBegins k).planned .boot [k + 1] (s.stepBegins k).gtick (s.stepBegins k).gtick ∧ (k = 7 → (s.stepBegins k).sheaf.links = 0) := by
  have hu : s.stepBegins k = (if k = 7 then ((s.atStep k).bootOutcome k 4 (s.bootEntry k).attempts).changeSheaf
      (fun h => { h with links := 0 }) else ((s.atStep k).bootOutcome k 4 (s.bootEntry k).attempts)).after 0 .boot [k + 1] := by
    unfold State.bootBefore at h
    unfold State.stepBegins
    simp only [beq_iff_eq]
    rw [if_pos (by simp [h, hm])]
    rfl
  rw [hu]
  generalize hv : ((s.atStep k).bootOutcome k 4 (s.bootEntry k).attempts) = v
  have ho : (v.bootEntry k).outcome = 4 := by rw [← hv, State.bootEntry_bootOutcome_same]
  have hr : v.regs.bootstep = k := by rw [← hv]; rfl
  refine ⟨?_, ?_, State.planned_after .., fun hk => ?_⟩
  · rw [State.bootEntry_after]
    split
    · rw [State.bootEntry, (v.changeSheaf_device _).1]; exact ho
    · exact ho
  · show (if k = 7 then _ else _ : State).regs.bootstep = k
    split
    · rw [(v.changeSheaf_device _).2, hr]
    · exact hr
  · rw [if_pos hk]
    obtain ⟨n, hn⟩ := v.changeSheaf_becomes_upto fun h => { h with links := 0 }
    exact congrArg Sheaf.links hn

/-! A boot begins. -/

/-- An entry that still reads started counts as failed. -/
def State.cut (s : State) (e : Nat × BootEntry) : State :=
  if e.2.outcome = 1 then s.setBoot e.1 fun b => { b with outcome := 3, attempts := b.attempts + 1 } else s

theorem State.foldl_cut_eq (s : State) (es : List (Nat × BootEntry)) : ∃ b, es.foldl State.cut s = { s with boot := b } := by
  refine List.foldlRecOn (motive := fun u : State => ∃ b, u = { s with boot := b }) es _ ⟨_, rfl⟩ ?_
  rintro _ ⟨b, rfl⟩ e -
  unfold State.cut
  split <;> exact ⟨_, rfl⟩

theorem State.cut_outcome_stays (s : State) (e : Nat × BootEntry) {j : Nat} (h : (s.bootEntry j).outcome = 3) : ((s.cut e).bootEntry j).outcome = 3 := by
  unfold State.cut
  split
  · rw [State.bootEntry_setBoot]
    split
    · rfl
    · exact h
  · exact h

theorem State.foldl_cut_outcome {es : List (Nat × BootEntry)} {e : Nat × BootEntry} (he : e ∈ es) (ho : e.2.outcome = 1) (s : State) :
    ((es.foldl State.cut s).bootEntry e.1).outcome = 3 := by
  obtain ⟨as, bs, rfl⟩ := List.append_of_mem he
  rw [List.foldl_append, List.foldl_cons]
  refine List.foldlRecOn (motive := fun u : State => (u.bootEntry e.1).outcome = 3) bs _ ?_ fun u hu d _ => u.cut_outcome_stays d hu
  rw [State.cut, if_pos ho, State.bootEntry_setBoot, if_pos rfl]

theorem State.foldl_cut_none {es : List (Nat × BootEntry)} (h : ∀ e ∈ es, e.2.outcome ≠ 1) (s : State) : es.foldl State.cut s = s := by
  induction es with
  | nil => rfl
  | cons e es ih =>
    rw [List.foldl_cons, State.cut, if_neg (h e (.head _)), ih fun d hd => h d (.tail _ hd)]

theorem State.foldl_cut_one {es : List (Nat × BootEntry)} {e : Nat × BootEntry} (hd : (es.map (·.1)).Nodup) (h : ∀ d ∈ es, d.2.outcome = 1 → d.1 = e.1)
    (he : e ∈ es) (ho : e.2.outcome = 1) (s : State) :
    es.foldl State.cut s = s.setBoot e.1 fun b => { b with outcome := 3, attempts := b.attempts + 1 } := by
  obtain ⟨as, bs, rfl⟩ := List.append_of_mem he
  rw [List.map_append, List.map_cons, List.nodup_append, List.nodup_cons] at hd
  obtain ⟨-, ⟨hbs, -⟩, has⟩ := hd
  have hbefore : ∀ d ∈ as, d.2.outcome ≠ 1 := fun d hd hd1 =>
    has d.1 (List.mem_map_of_mem hd) e.1 (.head _) (h d (List.mem_append_left _ hd) hd1)
  have hbehind : ∀ d ∈ bs, d.2.outcome ≠ 1 := fun d hd hd1 =>
    hbs (h d (List.mem_append_right _ (.tail _ hd)) hd1 ▸ List.mem_map_of_mem hd)
  rw [List.foldl_append, State.foldl_cut_none hbefore, List.foldl_cons, State.foldl_cut_none hbehind, State.cut, if_pos ho]

/-- The state in which a boot begins. -/
def State.nextBoot (s : State) : State := { s.boot.foldl State.cut s with boots := (s.boot.foldl State.cut s).boots + 1, portsUp := false }

theorem State.nextBoot_eq (s : State) : ∃ b, s.nextBoot = { s with boot := b, boots := s.boots + 1, portsUp := false } := by
  obtain ⟨b, hb⟩ := s.foldl_cut_eq s.boot
  exact ⟨b, by rw [State.nextBoot, hb]⟩

theorem State.nextBoot_bootEntry (s : State) (k : Nat) : s.nextBoot.bootEntry k = (s.boot.foldl State.cut s).bootEntry k := rfl

theorem State.bootBegins_cut {s : State} {k : Nat} (h : s.bootCut = some k) :
    s.bootBegins = (s.nextBoot.atStep k).setBoot k fun b => { b with boot := s.nextBoot.boots } := by
  unfold State.bootBegins
  rw [h]
  rfl

theorem State.bootBegins_uncut {s : State} (h : s.bootCut = none) : s.bootBegins = s.nextBoot.stepBegins 1 := by
  unfold State.bootBegins
  rw [h]
  rfl

theorem State.bootEntry_started {s : State} {k : Nat} (h : (s.bootEntry k).outcome = 1) : (k, s.bootEntry k) ∈ s.boot :=
  mem_keys_of_mget_ne ({} : BootEntry) s.boot k fun h0 => by rw [State.bootEntry, h0] at h; cases h

/-- A boot that goes no further: the third failure in a row of a mandatory step shows. -/
theorem State.bootBegins_third {s : State} {k : Nat} (hd : (s.boot.map (·.1)).Nodup) (h : ∀ e ∈ s.boot, e.2.outcome = 1 → e.1 = k)
    (ho : (s.bootEntry k).outcome = 1) (hm : bootMandatory k = true) (h2 : 2 ≤ (s.bootEntry k).attempts) :
    s.bootBegins.boots = s.boots + 1 ∧ s.bootBegins.portsUp = false ∧ s.bootBegins.regs.bootstep = k ∧ (s.bootBegins.bootEntry k).outcome = 3 ∧
      (s.bootBegins.bootEntry k).attempts = (s.bootEntry k).attempts + 1 ∧ s.bootBegins.agenda = s.agenda := by
  have hmem := State.bootEntry_started ho
  have hcut : s.bootCut = some k := by
    unfold State.bootCut
    cases hf : s.boot.find? fun e => e.2.outcome == 1 && bootMandatory e.1 && decide (2 ≤ e.2.attempts) with
    | none => exact absurd (List.find?_eq_none.1 hf _ hmem) (by simp [ho, hm, h2])
    | some e =>
      have hp := List.find?_some hf
      simp only [Bool.and_eq_true, beq_iff_eq] at hp
      exact congrArg some (h e (List.mem_of_find?_eq_some hf) hp.1.1)
  have hentry : s.nextBoot.bootEntry k = { s.bootEntry k with outcome := 3, attempts := (s.bootEntry k).attempts + 1 } := by
    rw [State.nextBoot_bootEntry, State.foldl_cut_one (e := (k, s.bootEntry k)) hd h hmem ho, State.bootEntry_setBoot, if_pos rfl]
  have hlast : s.bootBegins.bootEntry k = { s.nextBoot.bootEntry k with boot := s.nextBoot.boots } := by
    rw [State.bootBegins_cut hcut, State.bootEntry_setBoot, if_pos rfl]
    rfl
  obtain ⟨b, hb⟩ := s.nextBoot_eq
  refine ⟨?_, ?_, ?_, ?_, ?_, ?_⟩
  · rw [State.bootBegins_cut hcut, hb]; rfl
  · rw [State.bootBegins_cut hcut, hb]; rfl
  · rw [State.bootBegins_cut hcut]; rfl
  · rw [hlast, hentry]
  · rw [hlast, hentry]
  · rw [State.bootBegins_cut hcut, hb]; rfl

/-- A boot that begins at step 1. -/
theorem State.bootBegins_first {s : State} (h : ∀ e ∈ s.boot, e.2.outcome = 1 → bootMandatory e.1 = true → e.2.attempts < 2) :
    s.bootBegins = s.nextBoot.stepBegins 1 := by
  have hcut : s.bootCut = none := by
    rw [State.bootCut, Option.map_eq_none_iff, List.find?_eq_none]
    intro e he hp
    simp only [Bool.and_eq_true, beq_iff_eq, decide_eq_true_iff] at hp
    obtain ⟨⟨ho, hm⟩, h2⟩ := hp
    exact absurd (h e he ho hm) (Nat.not_lt.2 h2)
  exact State.bootBegins_uncut hcut

/-! Settling O55. -/

theorem State.stepEnds_over {s : State} {k n : Nat} (before : Nat) (h : (s.bootEntry k).outcome ≠ 1 ∨ s.boots ≠ n ∨ s.regs.bootstep ≠ k) :
    s.stepEnds k before n = s := by
  unfold State.stepEnds
  exact if_pos (by simpa using h.elim (fun h => Or.inl (Or.inl h)) (fun h => h.elim (fun h => .inl (.inr h)) .inr))

theorem State.stepEnds_eq {s : State} {k n : Nat} (before : Nat) (ho : (s.bootEntry k).outcome = 1) (hn : s.boots = n) (hk : s.regs.bootstep = k) :
    s.stepEnds k before n = if !stepPasses n k then s.bootFails k
      else if k = 2 then match Config.bootTime n with
        | some p => ((s.lockGtick p).after (2 ^ 20) .ptpReferenceRenewal).bootPasses 2 before
        | none => s
      else s.bootPasses k before := by
  unfold State.stepEnds
  exact if_neg (by simp [ho, hn, hk])

theorem stepPasses_verifies {n k : Nat} (h : stepPasses n k = true) (hk : k = 1 ∨ k = 6) : imageVerifies (Config.firmwareImage n k) = true := by
  simp only [stepPasses, Bool.and_eq_true, Bool.or_eq_true, Bool.not_eq_true', Bool.or_eq_false_iff, beq_eq_false_iff_ne] at h
  exact h.2.resolve_left fun h => hk.elim h.1 h.2

theorem execBoot_off {s : State} (h : s.powerLost = true) : exec .boot s = .next s ∧ exec .bootStepTimeout s = .next s :=
  ⟨congrArg Host.Outcome.next (if_pos h), congrArg Host.Outcome.next (if_pos (by simp [h]))⟩

section
variable {s : State} (h : s.powerLost = false)
include h

theorem execBoot_begins (ha : s.cur.args = []) : exec .boot s = .next s.bootBegins := by
  show Host.Outcome.next (s.bootEvent s.cur.args) = _
  rw [ha]
  exact congrArg Host.Outcome.next (if_neg (by simp [h]))

theorem execBoot_step {k : Nat} (ha : s.cur.args = [k]) : exec .boot s = .next (s.stepBegins k) := by
  show Host.Outcome.next (s.bootEvent s.cur.args) = _
  rw [ha]
  exact congrArg Host.Outcome.next (if_neg (by simp [h]))

theorem execBoot_ends {k before n : Nat} (ha : s.cur.args = [k, 1, before, n]) : exec .boot s = .next (s.stepEnds k before n) := by
  show Host.Outcome.next (s.bootEvent s.cur.args) = _
  rw [ha]
  exact congrArg Host.Outcome.next (if_neg (by simp [h]))

theorem execBootStepTimeout_eq (ho : (s.bootEntry (s.arg 0)).outcome = 1) (hn : s.boots = s.arg 1) (hk : s.regs.bootstep = s.arg 0) :
    exec .bootStepTimeout s = .next (if s.arg 0 = 2 then (s.unlockedGtick.after (2 ^ 20) .ptpReferenceRenewal).bootPasses 2 0 else s.bootFails (s.arg 0)) :=
  congrArg Host.Outcome.next (if_neg (by simp [ho, hn, hk, h]))

end

theorem execBootStepTimeout_over {s : State} (h : (s.bootEntry (s.arg 0)).outcome ≠ 1 ∨ s.boots ≠ s.arg 1 ∨ s.regs.bootstep ≠ s.arg 0) :
    exec .bootStepTimeout s = .next s :=
  congrArg Host.Outcome.next (if_pos (by
    obtain h | h | h := h <;> simp [h]))

/-- Settles O55. -/
theorem bootRunsItsSteps : Obligations.BootRunsItsSteps := by
  unfold Obligations.BootRunsItsSteps
  intro s k entry next fails last starts
  refine ⟨execBoot_off, fun hp => ⟨?_, ?_, ?_, ?_, ?_, ?_, ?_⟩⟩
  · intro ha hd h ho hm h2
    exact ⟨_, execBoot_begins hp ha, State.bootBegins_third hd h ho hm h2⟩
  · intro ha h
    obtain ⟨b, hb⟩ := s.nextBoot_eq
    obtain ⟨hstarts, hboots, hports, hother⟩ := s.nextBoot.stepBegins_begunBoot 1 fun h => by cases h.2
    refine ⟨_, (execBoot_begins hp ha).trans (congrArg _ (State.bootBegins_first h)), hboots.trans (by rw [hb]), hports.trans (by rw [hb]),
      hstarts.1, hstarts.2.1, fun j hj hs => ?_, fun hn => ?_⟩
    · show ((s.nextBoot.stepBegins 1).bootEntry j).outcome = 3
      rw [hother j hj]
      exact State.foldl_cut_outcome (State.bootEntry_started hs) hs s
    · have hsame (k : Nat) : s.nextBoot.bootEntry k = s.bootEntry k := by rw [State.nextBoot_bootEntry, State.foldl_cut_none hn]
      have hgtick : s.nextBoot.gtick = s.gtick := by rw [hb]
      unfold State.begunBoot at hstarts
      rwa [hsame, hgtick] at hstarts
  · intro ha h
    obtain ⟨hstarts, hboots, -, -⟩ := s.stepBegins_begunBoot k fun ⟨hb, hm⟩ => by
      have hl : (s.bootEntry k).boot + 1 = s.boots := by
        by_contra hl
        rw [State.bootBefore, if_neg hl] at hb
        cases hb
      rw [State.bootBefore, if_pos hl] at hb
      exact h.elim (fun h => h hl) fun h => h.elim (fun h => h hb) fun h => by rw [hm] at h; cases h
    exact ⟨_, execBoot_step hp ha, hstarts, hboots⟩
  · intro ha hl ho hm
    exact ⟨_, execBoot_step hp ha, s.stepBegins_leavesOut k (by rw [State.bootBefore, if_pos hl]; exact ho) hm⟩
  · intro before n ha
    have hexec := execBoot_ends hp ha
    refine ⟨fun h => ?_, fun ho hn hk => ⟨stepPasses_verifies, fun hpass hk2 hb => ?_, fun hpass => ?_, fun hpass hk2 => ?_, fun p hpass hk2 hb => ?_⟩⟩
    · rw [hexec, State.stepEnds_over before h]
    all_goals rw [hexec, State.stepEnds_eq before ho hn hk]
    · rw [if_neg (by simp [hpass]), if_pos hk2, hb]
    · rw [if_pos (by simp [hpass])]
      exact ⟨_, rfl, s.bootFails_failedBoot k⟩
    · rw [if_neg (by simp [hpass]), if_neg hk2]
      obtain ⟨hatt, hout⟩ := s.bootPasses_entry k before
      obtain ⟨hg, hs, hu⟩ := s.bootPasses_work k before
      refine ⟨_, rfl, hatt, hg, hout, s.bootPasses_bootedPast k before, fun h4 => ?_, fun h7 => ?_, fun h8 => ?_⟩
      · rw [hs, h4]
        obtain ⟨v, hv⟩ := State.changeSheaf_becomes_upto ((s.tiles.map (·.1)).foldl (fun (s : State) t => s.discardJournal t) s)
          fun h => { h with package := Config.packageNumber % 16 }
        exact congrArg Sheaf.package hv
      · rw [hs, h7, ← hn]
        obtain ⟨v, hv⟩ := s.changeSheaf_becomes_upto fun h => { h with links := Config.linksTrained s.boots }
        exact congrArg Sheaf.links hv
      · rw [hu, h8]; rfl
    · rw [if_neg (by simp [hpass]), if_pos hk2, hb]
      obtain ⟨hg, -, -⟩ := ((s.lockGtick p).after (2 ^ 20) .ptpReferenceRenewal).bootPasses_work 2 before
      obtain ⟨-, hout⟩ := ((s.lockGtick p).after (2 ^ 20) .ptpReferenceRenewal).bootPasses_entry 2 before
      exact ⟨_, rfl, hg, hout, rfl, rfl, State.bootPasses_bootedPast ..⟩
  · intro ho hn hk
    rw [execBootStepTimeout_eq hp ho hn hk]
    refine ⟨fun hk2 => ⟨_, rfl, ?_⟩, fun hk2 => ⟨_, rfl, ?_⟩⟩
    · rw [if_neg hk2]
      exact s.bootFails_failedBoot k
    · rw [if_pos hk2]
      obtain ⟨hg, -, -⟩ := (s.unlockedGtick.after (2 ^ 20) .ptpReferenceRenewal).bootPasses_work 2 0
      obtain ⟨-, hout⟩ := (s.unlockedGtick.after (2 ^ 20) .ptpReferenceRenewal).bootPasses_entry 2 0
      exact ⟨hg, hout, rfl, rfl, rfl, State.bootPasses_bootedPast ..⟩
  · exact execBootStepTimeout_over

end Sys2Proof.Machine
end

