-- ==== Sys2Proof/Proofs/QueueRules.lean ====
section
/-! SUPPORT. Rules for the queues of the host (R309 to R317, R391): what a thread's look for work, a completion and the consumption of a packet
leave unchanged. -/
namespace Sys2Proof.Machine

theorem State.queue_modQ (s : State) (q : Nat) (f : Queue → Queue) : (s.modQ q f).queue q = f (s.queue q) :=
  (s.queue_setQueue q q _).trans (if_pos rfl)

/-! A thread goes on. -/

/-- From `s` to `u` a queue's thread has looked for work, blocked the queue, or stopped: of the machine only queues and what is still to be done
change, and what the queue has consumed and completed stands. -/
structure State.GoesOn (s : State) (q : Nat) (u : State) : Prop where
  rest : ∃ qs ag n, u = { s with queues := qs, agenda := ag, free := n }
  agenda : s.agenda ⊆ u.agenda
  head : (u.queue q).head = (s.queue q).head
  lane : (u.queue q).lane = (s.queue q).lane
  open_ : (u.queue q).open_ = (s.queue q).open_
  completed : (u.queue q).completed = (s.queue q).completed
  wait : (s.queue q).wait = none → (u.queue q).wait = none

theorem State.GoesOn.refl (s : State) (q : Nat) : s.GoesOn q s := ⟨⟨_, _, _, rfl⟩, List.Subset.refl _, rfl, rfl, rfl, rfl, id⟩

theorem State.GoesOn.trans {s t u : State} {q : Nat} (h : s.GoesOn q t) (h' : t.GoesOn q u) : s.GoesOn q u := by
  obtain ⟨qs, ag, n, rfl⟩ := h.rest
  obtain ⟨qs', ag', n', rfl⟩ := h'.rest
  exact ⟨⟨_, _, _, rfl⟩, fun _ hx => h'.agenda (h.agenda hx), h'.head.trans h.head, h'.lane.trans h.lane, h'.open_.trans h.open_,
    h'.completed.trans h.completed, fun hw => h'.wait (h.wait hw)⟩

theorem State.GoesOn.after {s u : State} {q : Nat} (h : s.GoesOn q u) (n : Nat) (op : Instr) (l : List Nat) : s.GoesOn q (u.after n op l) := by
  refine h.trans ⟨⟨_, _, _, rfl⟩, u.agenda_subset_after n op l, rfl, rfl, rfl, rfl, id⟩

theorem State.GoesOn.setQueue (s : State) (q : Nat) (x : Queue) (hh : x.head = (s.queue q).head) (hl : x.lane = (s.queue q).lane)
    (ho : x.open_ = (s.queue q).open_) (hc : x.completed = (s.queue q).completed) (hw : (s.queue q).wait = none → x.wait = none) :
    s.GoesOn q (s.setQueue q x) := by
  have hx : (s.setQueue q x).queue q = x := (s.queue_setQueue q q x).trans (if_pos rfl)
  exact ⟨⟨_, _, _, rfl⟩, List.Subset.refl _, by rw [hx, hh], by rw [hx, hl], by rw [hx, ho], by rw [hx, hc], by rw [hx]; exact hw⟩

theorem State.GoesOn.thread (s : State) (q k : Nat) (op : Instr) (args : List Nat) (bs : List Byte) : s.GoesOn q (s.thread k op args bs) :=
  ⟨⟨_, _, _, rfl⟩, subset_insertTimed _ _, rfl, rfl, rfl, rfl, id⟩

theorem State.GoesOn.wakeWait (s : State) (q k : Nat) : s.GoesOn q (s.wakeWait k) := by
  unfold State.wakeWait
  dsimp only
  split
  · exact .thread ..
  · exact .refl ..

theorem State.GoesOn.wakeWaits (s : State) (q : Nat) : s.GoesOn q s.wakeWaits :=
  List.foldlRecOn (motive := fun u => s.GoesOn q u) s.queues _ (.refl ..) fun u hu e _ => hu.trans (.wakeWait u q e.1)

theorem State.GoesOn.blockQueue (s : State) (q : Nat) : s.GoesOn q (s.blockQueue q) := by
  unfold State.blockQueue
  dsimp only
  split
  · exact .setQueue _ _ _ rfl rfl rfl rfl id
  · refine State.GoesOn.after ?_ _ _ _
    exact .setQueue _ _ _ rfl rfl rfl rfl id

theorem State.GoesOn.queueError (s : State) (q code : Nat) : s.GoesOn q (s.queueError q code) :=
  .setQueue _ _ _ rfl rfl rfl rfl fun _ => rfl

theorem State.GoesOn.inHand (s : State) (q from_ : Nat) (p : List Byte) : s.GoesOn q (s.inHand q from_ p) := by
  unfold State.inHand
  dsimp only
  split
  · exact .trans (.setQueue _ _ { s.queue q with busy := true } rfl rfl rfl rfl id) (.thread ..)
  · exact .queueError ..

theorem State.GoesOn.look_ (s : State) (q : Nat) : s.GoesOn q (s.look_ q) := by
  unfold State.look_
  dsimp only
  split
  · exact .setQueue _ _ _ rfl rfl rfl rfl id
  split
  · exact .refl ..
  split
  · exact .trans (.blockQueue ..) (.wakeWait ..)
  split
  · exact .queueError ..
  split
  · exact .inHand ..
  split
  · split <;> exact .setQueue _ _ _ rfl rfl rfl rfl id
  · refine .trans ?_ (.inHand ..)
    split <;> exact .setQueue _ _ _ rfl rfl rfl rfl id

theorem State.GoesOn.goOn (s : State) (q : Nat) : s.GoesOn q (s.goOn q) := by
  unfold State.goOn
  dsimp only
  split
  · exact .setQueue _ _ _ rfl rfl rfl rfl id
  split
  · exact .setQueue _ _ _ rfl rfl rfl rfl id
  · exact .look_ ..

/-! A packet completes. -/

/-- What a completion leaves of the queue, and of the machine beside it. -/
structure State.Completes (s : State) (q tag op status : Nat) (silent : Bool) (u : State) : Prop where
  record : s.completedWith q tag op status silent u
  ctxs : u.ctxs = s.ctxs
  mem : u.mem = s.mem
  head : (u.queue q).head = (s.queue q).head
  lane : (u.queue q).lane = (s.queue q).lane
  open_ : (u.queue q).open_ = (s.queue q).open_
  wait : (u.queue q).wait = (s.queue q).wait

/-- A write that is released as it is made, no add, stands behind what has been released before; of the machine only what is still to be done and the dirty
bits of pages in migration change beside. -/
theorem State.releaseNow_eq (s : State) (w : GlobalWrite) (h : w.add = false) : ∃ ms ag n, s.releaseNow w =
    { s with migrations := ms, agenda := ag, free := n, forward := s.forward ++
        [{ party := 768, tick := s.gtick, write := { w with bytes := w.bytes.map fun b => (s.homeAddr b.1, b.2) } }] } ∧
    (s.migrations = [] → ms = []) := by
  have hn (v : GlobalWrite) : ∃ ms, s.noteDirty v = { s with migrations := ms } ∧ (s.migrations = [] → ms = []) := by
    unfold State.noteDirty
    split
    · exact ⟨_, rfl, id⟩
    · next hm => exact ⟨_, rfl, fun h => absurd (by rw [h]; rfl) hm⟩
  obtain ⟨ms, hms, hnil⟩ := hn { w with bytes := w.bytes.map fun b => (s.homeAddr b.1, b.2) }
  have hw (v : GlobalWrite) (hv : v.add = false) : s.addReleased v = v := if_pos (by simp [hv])
  unfold State.releaseNow State.releaseEntry
  simp only [List.isEmpty_nil, if_true]
  rw [hw _ (by exact h), hms]
  exact ⟨ms, _, _, rfl, hnil⟩

/-- A record is posted, and counted. -/
theorem State.postRecord_eq (s : State) (q : Nat) (bs : List Byte) : ∃ x, (s.postRecord q bs).queue q = x ∧
    x.completed = ((s.queue q).completed + 1) % 2 ^ 32 ∧ x.head = (s.queue q).head ∧ x.lane = (s.queue q).lane ∧ x.open_ = (s.queue q).open_ ∧
    x.wait = (s.queue q).wait ∧ (s.postRecord q bs).ctxs = s.ctxs ∧
    s.posts ((s.queue q).ring + 16 * ((s.queue q).completed % (s.queue q).size)) bs (s.postRecord q bs) := by
  obtain ⟨ms, ag, n, h, -⟩ := s.releaseNow_eq
    { bytes := cellsFrom (busAddr ((s.queue q).ring + 16 * ((s.queue q).completed % (s.queue q).size))) bs } rfl
  exact ⟨_, (State.queue_setQueue ..).trans (if_pos rfl), rfl, rfl, rfl, rfl, rfl, (congrArg State.ctxs h :),
    (congrArg State.mem h :), (congrArg State.sectors h :), _, (congrArg State.forward h :), rfl, rfl, rfl⟩

theorem State.completes (s : State) (q tag op status : Nat) (silent : Bool) : s.Completes q tag op status silent (s.completion q tag op status silent) := by
  unfold State.completion
  dsimp only
  cases silent with
  | true => exact ⟨by unfold State.completedWith; exact ⟨rfl, rfl, rfl⟩, rfl, rfl, rfl, rfl, rfl, rfl⟩
  | false =>
    rw [if_neg (by decide)]
    generalize hv : s.setQueue q _ = v
    have hq : v.queue q = _ := hv ▸ (s.queue_setQueue q q _).trans (if_pos rfl)
    have hposts (a : Nat) (bs : List Byte) (u : State) (h : v.posts a bs u) : s.posts a bs u := by subst hv; exact h
    have hctxs : v.ctxs = s.ctxs := by subst hv; rfl
    obtain ⟨x, hx, hcount, hhead, hlane, hopen, hwait, hc, hp⟩ := v.postRecord_eq q (leBytes 4 tag ++ leBytes 2 status ++ leBytes 1 op ++ leBytes 1 0 ++ leBytes 8 s.gtick)
    rw [hq] at hcount hhead hlane hopen hwait hp
    refine ⟨?_, hc.trans hctxs, (hposts _ _ _ hp).1, by rw [hx, hhead], by rw [hx, hlane], by rw [hx, hopen], by rw [hx, hwait]⟩
    unfold State.completedWith
    exact ⟨hposts _ _ _ hp, by rw [hx, hcount]⟩

/-- A completion counts from the state before, where only what it does not go by has changed since, and stands where a thread goes on. -/
theorem State.completedWith.between {s s' t u : State} {q tag op status : Nat} {silent : Bool} (h : s'.completedWith q tag op status silent t)
    (hs : ∃ qs, s' = { s with queues := qs }) (hr : (s'.queue q).ring = (s.queue q).ring) (hc : (s'.queue q).completed = (s.queue q).completed)
    (hz : (s'.queue q).size = (s.queue q).size) (hu : t.GoesOn q u) : s.completedWith q tag op status silent u := by
  obtain ⟨qs, ag, n, hrest⟩ := hu.rest
  have hmem : u.mem = t.mem ∧ u.forward = t.forward ∧ u.sectors = t.sectors := by rw [hrest]; exact ⟨rfl, rfl, rfl⟩
  obtain ⟨hm, hf, hsec⟩ := hmem
  have hcount := hu.completed
  obtain ⟨qs', rfl⟩ := hs
  unfold State.completedWith at h ⊢
  dsimp only at h ⊢
  split
  next hsil =>
    rw [if_pos hsil] at h
    obtain ⟨h1, h2, h3⟩ := h
    exact ⟨hm.trans h1, hf.trans h2, hcount.trans (h3.trans hc)⟩
  next hsil =>
    rw [if_neg hsil, hr, hc, hz] at h
    obtain ⟨⟨h1, h2, e, h3, h4⟩, h5⟩ := h
    exact ⟨⟨hm.trans h1, hsec.trans h2, e, hf.trans h3, h4⟩, hcount.trans h5⟩

/-! A packet is consumed. -/

/-- What a packet's consumption leaves of its queue. -/
theorem State.takePacket_queue (s : State) (q from_ : Nat) : ∃ x, (s.takePacket q from_).queue q = x ∧
    x.head = (if from_ = 2 then (s.queue q).head else ((s.queue q).head + 1) % 2 ^ 32) ∧ x.lane = (if from_ = 2 then none else (s.queue q).lane) ∧
    x.ring = (s.queue q).ring ∧ x.completed = (s.queue q).completed ∧ x.size = (s.queue q).size ∧ x.open_ = (s.queue q).open_ ∧
    x.class_ = (s.queue q).class_ ∧ x.blockedAt = none := by
  refine ⟨_, s.queue_modQ q _, ?_⟩
  by_cases h : from_ = 2
  · subst h; exact ⟨rfl, rfl, rfl, rfl, rfl, rfl, rfl, rfl⟩
  · simp [h, Queue.seal]

/-- A packet that is consumed and completes at once. -/
theorem State.answer_answered (s : State) (q from_ : Nat) (p : List Byte) (status : Nat) :
    s.answered q from_ p status ((s.takePacket q from_).answer q p status) ∧ ((s.takePacket q from_).answer q p status).ctxs = s.ctxs := by
  obtain ⟨x, hx, hhead, hlane, hring, hcount, hsize, -⟩ := s.takePacket_queue q from_
  have hdone := (s.takePacket q from_).completes q (packetTag p) (packetOp p) status (packetSilent p)
  have hgoes := (State.GoesOn.wakeWaits ((s.takePacket q from_).completion q (packetTag p) (packetOp p) status (packetSilent p)) q).trans (.goOn _ q)
  refine ⟨⟨⟨?_, ?_⟩, hdone.record.between ⟨_, rfl⟩ (by rw [hx, hring]) (by rw [hx, hcount]) (by rw [hx, hsize]) hgoes⟩, ?_⟩
  · exact hgoes.head.trans (hdone.head.trans (by rw [hx, hhead]))
  · exact hgoes.lane.trans (hdone.lane.trans (by rw [hx, hlane]))
  · obtain ⟨qs, ag, n, hrest⟩ := hgoes.rest
    exact (congrArg State.ctxs hrest).trans hdone.ctxs

end Sys2Proof.Machine
end

