-- ==== Sys2Proof/Proofs/LaunchesAndWaits.lean ====
section
/-! O47: LAUNCH, WAIT and the fence packet (R37, R313, R314, R317). -/
namespace Sys2Proof.Machine

/-- A packet in hand of a queue in service, its features there. -/
theorem State.onPacket_eq {s : State} {q from_ : Nat} {p : List Byte} (f : Queue → State) (hs : s.inService q = true)
    (hf : s.featuresOk (s.queue q) p = true) : s.onPacket q from_ p f = f (s.queue q) := by
  simp [State.onPacket, hs, hf]

/-- What a packet that is consumed and completes later leaves of its queue. -/
theorem State.opened_queue (s : State) (q from_ : Nat) (p : List Byte) : ∃ x, ((s.takePacket q from_).opened q p).queue q = x ∧
    x.head = (if from_ = 2 then (s.queue q).head else ((s.queue q).head + 1) % 2 ^ 32) ∧ x.lane = (if from_ = 2 then none else (s.queue q).lane) ∧
    x.open_ = (s.queue q).open_ ++ [(packetTag p, packetOp p, packetSilent p)] ∧ x.class_ = (s.queue q).class_ ∧ x.blockedAt = none := by
  obtain ⟨x, hx, hhead, hlane, -, -, -, hopen, hclass, hblock⟩ := s.takePacket_queue q from_
  refine ⟨_, State.queue_modQ .., ?_⟩
  rw [hx]
  exact ⟨hhead, hlane, by rw [hopen], hclass, hblock⟩

/-! Blocks. -/

/-- What a block leaves: the packet is consumed, its queue waits for `w`, and 1 ms is its limit. -/
def State.blockedBy (s : State) (q from_ : Nat) (p : List Byte) (w : Nat × Nat × Nat) (u : State) : Prop :=
  s.consumed q from_ u ∧ (u.queue q).wait = some w ∧ (u.queue q).blockedAt = some s.gtick ∧
    (u.queue q).open_ = (s.queue q).open_ ++ [(packetTag p, packetOp p, packetSilent p)] ∧ u.mem = s.mem ∧ u.ctxs = s.ctxs ∧
    u.planned .waitUnmapTimeout [q] (s.gtick + 1200000) (s.gtick + 1200000)

theorem State.blockQueue_unblocked {s : State} {q : Nat} (h : (s.queue q).blockedAt = none) :
    s.blockQueue q = (s.setQueue q { s.queue q with blockedAt := some s.gtick, busy := false }).after 1200000 .waitUnmapTimeout [q] := by
  unfold State.blockQueue
  exact if_neg (by simp [h])

theorem State.wakeWait_eq (s : State) (q : Nat) : ∃ ag n, s.wakeWait q = { s with agenda := ag, free := n } ∧ s.agenda ⊆ ag := by
  unfold State.wakeWait
  dsimp only
  split
  · exact ⟨_, _, rfl, subset_insertTimed _ _⟩
  · exact ⟨_, _, rfl, List.Subset.refl _⟩

theorem State.blockOn_blockedBy (s : State) (q from_ : Nat) (p : List Byte) (w : Nat × Nat × Nat) : s.blockedBy q from_ p w (s.blockOn q from_ p w) := by
  obtain ⟨x, hx, hhead, hlane, hopen, -, hblock⟩ := s.opened_queue q from_ p
  unfold State.blockOn
  dsimp only
  generalize hv : (s.takePacket q from_).opened q p = v at hx
  have hrest : v.mem = s.mem ∧ v.ctxs = s.ctxs ∧ v.gtick = s.gtick := by subst hv; exact ⟨rfl, rfl, rfl⟩
  obtain ⟨hmem, hctxs, hgtick⟩ := hrest
  have hq : (v.modQ q fun x => { x with wait := some w }).queue q = { x with wait := some w } := (v.queue_modQ ..).trans (by rw [hx])
  rw [State.blockQueue_unblocked (by rw [hq]; exact hblock), hq]
  generalize hu : State.after _ 1200000 .waitUnmapTimeout [q] = u
  have huq : u.queue q = { x with wait := some w, blockedAt := some s.gtick, busy := false } := by
    rw [← hu, ← hgtick]
    exact (State.queue_setQueue ..).trans (if_pos rfl)
  have hurest : u.mem = s.mem ∧ u.ctxs = s.ctxs := by subst hu; exact ⟨hmem, hctxs⟩
  have hplan : u.planned .waitUnmapTimeout [q] (s.gtick + 1200000) (s.gtick + 1200000) := by
    rw [← hu, ← hgtick]
    exact State.planned_after ..
  obtain ⟨ag, n, hwake, hsub⟩ := u.wakeWait_eq q
  rw [hwake]
  unfold State.blockedBy State.consumed
  have hsame : ({ u with agenda := ag, free := n } : State).queue q = u.queue q := rfl
  rw [hsame, huq]
  exact ⟨⟨hhead, hlane⟩, rfl, rfl, hopen, hurest.1, hurest.2, hplan.elim fun e he => ⟨e, hsub he.1, he.2⟩⟩

/-- The block stands while something else is put on the agenda. -/
theorem State.blockedBy.at_ {s u : State} {q from_ : Nat} {p : List Byte} {w : Nat × Nat × Nat} (h : s.blockedBy q from_ p w u) (k : Nat) (op : Instr)
    (l : List Nat) : s.blockedBy q from_ p w (u.at_ k op l).tickFree := by
  obtain ⟨hcon, hwait, hblock, hopen, hmem, hctxs, hplan⟩ := h
  exact ⟨hcon, hwait, hblock, hopen, hmem, hctxs, State.planned_mono (subset_insertTimed _ _) hplan⟩

/-! Ends of blocks and launches. -/

/-- The first open packet completes. -/
theorem State.finishPacket_first {s : State} {q tag op status : Nat} {sil : Option Bool} {silent : Bool} {rest : List (Nat × Nat × Bool)}
    (hp : s.powerLost = false) (ht : s.tdiError (s.queue q).ctx = false) (ho : (s.queue q).open_ = (tag, op, silent) :: rest)
    (hsil : sil = none ∨ sil = some silent) :
    s.finishPacket q tag op status sil = ((s.modQ q fun x => { x with open_ := rest }).completion q tag op status silent).wakeWaits := by
  have hall : sil.all (· == silent) = true := by obtain rfl | rfl := hsil <;> simp
  unfold State.finishPacket
  simp only [hp, ht, ho, Bool.false_eq_true, if_false, List.find?_cons, beq_self_eq_true, hall, Bool.and_self]
  congr 2
  simp [State.modQ, ho]

/-! The condition of a block (R313, R317). -/

section
variable {s : State} {x : Queue} {m w : Nat}

theorem State.waitMet_tick (h : x.wait = some (0, m, w)) : s.waitMet x = true ↔ w ≤ s.gtick := by simp [State.waitMet, h]
theorem State.waitMet_count (h : x.wait = some (1, m, w)) : s.waitMet x = true ↔ w ≤ (s.queue m).completed := by simp [State.waitMet, h]
theorem State.waitMet_iteration (h : x.wait = some (2, m, w)) : s.waitMet x = true ↔ w ≤ (s.ctx m).winnow.iteration := by simp [State.waitMet, h]
theorem State.waitMet_fence (h : x.wait = some (3, m, w)) : s.waitMet x = ((x.open_.head?.map (·.2.1)) == some 7) := by simp [State.waitMet, h]

theorem Queue.wakeOp_wait {k : Nat} (h : x.wait = some (k, m, w)) (hk : k < 3) : x.wakeOp.1 = .waitConditionMet := by
  interval_cases k <;> simp [Queue.wakeOp, h]
theorem Queue.wakeOp_fence (h : x.wait = some (3, m, w)) : x.wakeOp.1 = .fencePacket := by simp [Queue.wakeOp, h]

end

/-- A block ends: the first open packet completes, and the thread goes on. -/
def State.endedBlock (s : State) (q op tag : Nat) (rest : List (Nat × Nat × Bool)) (u : State) : Prop :=
  (u.queue q).wait = none ∧ (u.queue q).open_ = rest ∧ s.completedWith q tag op 0 false u

theorem State.endBlock {s : State} {q op tag : Nat} {rest : List (Nat × Nat × Bool)} (hs : s.inService q = true)
    (ho : (s.queue q).open_ = (tag, op, false) :: rest) :
    s.endedBlock q op tag rest (((s.modQ q fun x => { x with wait := none, blockedAt := none }).finishFirst q op 0).goOn q) := by
  obtain ⟨-, -, hp, ht⟩ : (s.queue q).state = 1 ∧ (s.queue q).mapped = true ∧ s.powerLost = false ∧ s.tdiError (s.queue q).ctx = false := by
    
    simpa [State.inService, State.serves, and_assoc] using hs
  have hq : (s.modQ q fun x => { x with wait := none, blockedAt := none }).queue q = { s.queue q with wait := none, blockedAt := none } := s.queue_modQ ..
  have hfirst : ((s.modQ q fun x => { x with wait := none, blockedAt := none }).queue q).open_ = (tag, op, false) :: rest := by rw [hq, ← ho]
  generalize hv : s.modQ q (fun x => { x with wait := none, blockedAt := none }) = v at hq hfirst
  have hvs : ∃ qs, v = { s with queues := qs } := ⟨_, hv.symm⟩
  have hfin : v.finishFirst q op 0 = ((v.modQ q fun x => { x with open_ := rest }).completion q tag op 0 false).wakeWaits := by
    unfold State.finishFirst
    simp only [hfirst, List.find?_cons, beq_self_eq_true]
    exact State.finishPacket_first (by obtain ⟨qs, rfl⟩ := hvs; exact hp) (by rw [hq]; obtain ⟨qs, rfl⟩ := hvs; exact ht) hfirst (.inr rfl)
  have hw : (v.modQ q fun x => { x with open_ := rest }).queue q = { s.queue q with wait := none, blockedAt := none, open_ := rest } :=
    (v.queue_modQ ..).trans (by rw [hq])
  rw [hfin]
  generalize hww : v.modQ q (fun x => { x with open_ := rest }) = w at hw
  have hws : ∃ qs, w = { s with queues := qs } := by
    obtain ⟨qs, rfl⟩ := hvs
    exact ⟨_, hww.symm⟩
  have hdone := w.completes q tag op 0 false
  have hgoes := (State.GoesOn.wakeWaits (w.completion q tag op 0 false) q).trans (.goOn _ q)
  exact ⟨hgoes.wait (hdone.wait.trans (by rw [hw])), hgoes.open_.trans (hdone.open_.trans (by rw [hw])),
    hdone.record.between hws (by rw [hw]) (by rw [hw]) (by rw [hw]) hgoes⟩

/-! A launch is accepted. -/

theorem State.gtick_le_bindStart (s : State) (x : Nat) (ts : List Nat) : s.gtick ≤ s.bindStart x ts := by
  have hready : s.gtick ≤ ts.foldl (fun m t => max m ((s.tile t).readyTick s.gtick)) s.gtick :=
    List.foldlRecOn (motive := fun m => s.gtick ≤ m) ts _ le_rfl fun m hm t _ => hm.trans (le_max_left ..)
  unfold State.bindStart
  dsimp only
  split
  · exact hready
  · exact hready.trans (le_max_left ..)

/-- The record that the Granary writes for a place. -/
def State.bindWritten (s : State) (x class_ record : Nat) (r : Bind) : Bind :=
  { r with
    valid := true, active := false, acted := false, class_ := class_, ctx := x, policy := Config.bindPolicy s.free % 3, record := record,
    start := s.bindStart x r.tiles,
    end_ := if s.bindLength class_ = 0 then 2 ^ 64 - 1 else s.bindStart x r.tiles + s.bindLength class_,
    deadline := Config.bindDeadline s.free }

/-- The state with that record, before its tiles are woken. -/
def State.boundBy (s : State) (b x class_ record : Nat) (r : Bind) : State :=
  ((s.modBind b fun _ => s.bindWritten x class_ record r).modCtx x fun c => { c with bind := some b, tiles := r.tiles }).tickFree

/-- A bind record is written: it holds the place, and its tiles are woken for the start. -/
theorem State.writeBind_eq (s : State) (b x class_ record : Nat) (r : Bind) : ∃ v ag n,
    s.writeBind b x class_ record r = { ((s.modBind b fun _ => v).modCtx x fun c => { c with bind := some b, tiles := r.tiles }) with agenda := ag, free := n } ∧
      v.valid = true ∧ v.active = false ∧ v.ctx = x ∧ v.class_ = class_ ∧ v.tiles = r.tiles ∧ s.gtick ≤ v.start := by
  obtain ⟨ag, hag⟩ : ∃ ag, s.writeBind b x class_ record r = { s.boundBy b x class_ record r with agenda := ag } := by
    refine List.foldlRecOn (motive := fun u : State => ∃ ag, u = { s.boundBy b x class_ record r with agenda := ag }) r.tiles _ ⟨_, rfl⟩ ?_
    rintro _ ⟨ag, rfl⟩ t -
    dsimp only
    split <;> exact ⟨_, rfl⟩
  exact ⟨s.bindWritten x class_ record r, ag, _, hag, rfl, rfl, rfl, rfl, rfl, s.gtick_le_bindStart x r.tiles⟩

/-- An accepted launch of context `x` on a place. -/
structure State.Launched (u : State) (x class_ now : Nat) (l : Launch) (r : Bind) (b : Nat) : Prop where
  launch : (u.ctx x).launch = some l
  node : (u.ctx x).node = l.first
  part : (u.ctx x).part = .unbound
  tiles : (u.ctx x).tiles = r.tiles
  bind : (u.ctx x).bind = some b
  valid : (u.bind b).valid = true
  idle : (u.bind b).active = false
  ctx : (u.bind b).ctx = x
  place : (u.bind b).tiles = r.tiles
  class_ : (u.bind b).class_ = class_
  start : now ≤ (u.bind b).start

theorem State.acceptLaunch_launched (s : State) (x q : Nat) (l : Launch) (r : Bind) : (∃ b, (s.acceptLaunch x q l r).Launched x (s.queue q).class_ s.gtick l r b) ∧
    ∃ cs bs ag n, s.acceptLaunch x q l r = { s with ctxs := cs, binds := bs, agenda := ag, free := n } := by
  unfold State.acceptLaunch
  dsimp only
  generalize hu : s.modCtx x _ = u
  obtain ⟨v, ag, n, hw, hvalid, hidle, hctx, hclass, htiles, hstart⟩ := u.writeBind_eq u.freeBind x (u.queue q).class_ l.record r
  have hb : (u.writeBind u.freeBind x (u.queue q).class_ l.record r).bind u.freeBind = v := by
    rw [hw]
    exact (u.bind_modBind u.freeBind u.freeBind fun _ => v).trans (if_pos rfl)
  have hc : (u.writeBind u.freeBind x (u.queue q).class_ l.record r).ctx x = { u.ctx x with bind := some u.freeBind, tiles := r.tiles } := by
    rw [hw]
    exact (u.modBind u.freeBind fun _ => v).ctx_modCtx_same x fun c => { c with bind := some u.freeBind, tiles := r.tiles }
  obtain ⟨hlaunch, hnode, hpart⟩ : (u.ctx x).launch = some l ∧ (u.ctx x).node = l.first ∧ (u.ctx x).part = .unbound := by
    rw [← hu, State.ctx_modCtx_same]
    exact ⟨rfl, rfl, rfl⟩
  have hgtick : u.gtick = s.gtick := by subst hu; rfl
  have hqueue : u.queue q = s.queue q := by subst hu; rfl
  refine ⟨⟨u.freeBind, ?_⟩, ?_⟩
  · exact ⟨by rw [hc]; exact hlaunch, by rw [hc]; exact hnode, by rw [hc]; exact hpart, by rw [hc], by rw [hc], by rw [hb, hvalid], by rw [hb, hidle],
      by rw [hb, hctx], by rw [hb, htiles], by rw [hb, hclass, hqueue], by rw [hb, ← hgtick]; exact hstart⟩
  · rw [hw]
    subst hu
    exact ⟨_, _, _, _, rfl⟩

theorem State.blockQueue_blockedAt (s : State) (q : Nat) : ((s.blockQueue q).queue q).blockedAt = some ((s.queue q).blockedAt.getD s.gtick) := by
  cases hb : (s.queue q).blockedAt with
  | none =>
    rw [State.blockQueue_unblocked hb]
    exact congrArg Queue.blockedAt ((State.queue_setQueue ..).trans (if_pos rfl))
  | some b =>
    have : s.blockQueue q = s.setQueue q { s.queue q with busy := false } := if_pos (by simp [hb])
    rw [this, State.queue_setQueue, if_pos rfl]
    exact hb

theorem getD_map_late {o : Option Nat} {b : Nat} (h : o = some b) (n g : Nat) : (o.map fun b => decide (b + n ≤ g)).getD false = decide (b + n ≤ g) := by
  rw [h]; rfl

theorem State.waitTimeout_late {s : State} {q b : Nat} (hm : (s.queue q).mapped = true) (hb : (s.queue q).blockedAt = some b)
    (h : b + 1200000 ≤ s.gtick) : s.waitTimeout q = s.setQueue q (s.queue q).unmap := by
  unfold State.waitTimeout
  exact if_pos (by rw [getD_map_late hb, decide_eq_true h, hm]; rfl)

theorem State.waitTimeout_early {s : State} {q b : Nat} (hb : (s.queue q).blockedAt = some b)
    (h : ¬ b + 1200000 ≤ s.gtick) : s.waitTimeout q = s := by
  unfold State.waitTimeout
  exact if_neg (by rw [getD_map_late hb, decide_eq_false h, Bool.and_false]; decide)

/-- Settles O47. -/
theorem launchAndWaitPackets : Obligations.LaunchAndWaitPackets := by
  unfold Obligations.LaunchAndWaitPackets
  intro s q from_ p x opened kind n v blocks ends
  refine ⟨fun hs hf => ⟨?_, ?_, ?_, ?_, ?_⟩, ?_, ?_, ?_, ?_⟩
  · intro hfrom hopen
    have he : exec .launch s = .next (s.blockQueue q) := by
      show Host.Outcome.next (if s.arg 1 = 1 then _ else s.launch q from_ p) = _
      rw [if_neg hfrom, State.launch, s.onPacket_eq _ hs hf, if_pos hopen]
    have hgoes := State.GoesOn.blockQueue s q
    obtain ⟨qs, ag, n, hrest⟩ := hgoes.rest
    exact ⟨_, he, hgoes.head, hgoes.lane, s.blockQueue_blockedAt q, by rw [hrest], by rw [hrest]⟩
  · intro hfrom hopen r
    have he : exec .launch s = .next (s.launch q from_ p) := by
      show Host.Outcome.next (if s.arg 1 = 1 then _ else s.launch q from_ p) = _
      rw [if_neg hfrom]
    rw [he, State.launch, s.onPacket_eq _ hs hf, if_neg (by rw [show (s.queue q).ctx = x.ctx from rfl, hopen]; decide)]
    refine ⟨fun hc => ?_, fun code hr => ?_, fun l k hr => ?_⟩
    · show s.checkLaunch _ _ _ _ _ = _
      exact if_pos (by rw [hc]; simp)
    · rw [show s.checkLaunch (s.queue q).ctx (field p 0x10 8) q (packetTag p) (packetSilent p) = _ from hr]
      exact ⟨_, rfl, s.answer_answered q from_ p code⟩
    · rw [show s.checkLaunch (s.queue q).ctx (field p 0x10 8) q (packetTag p) (packetSilent p) = _ from hr]
      obtain ⟨y, hy, hhead, hlane, hopen', hclass, -⟩ := s.opened_queue q from_ p
      generalize hv : (s.takePacket q from_).opened q p = v at hy
      have hvs : v.mem = s.mem ∧ v.gtick = s.gtick := by subst hv; exact ⟨rfl, rfl⟩
      obtain ⟨⟨b, hl⟩, cs, bs, ag, n, hacc⟩ := v.acceptLaunch_launched x.ctx q l k
      have hgoes := State.GoesOn.goOn (v.acceptLaunch x.ctx q l k) q
      have hq : (v.acceptLaunch x.ctx q l k).queue q = y := by rw [hacc]; exact hy
      obtain ⟨qs, ag', n', hrest⟩ := hgoes.rest
      have hmem : ((v.acceptLaunch x.ctx q l k).goOn q).mem = s.mem := by rw [hrest, hacc]; exact hvs.1
      have hctx : ((v.acceptLaunch x.ctx q l k).goOn q).ctx x.ctx = (v.acceptLaunch x.ctx q l k).ctx x.ctx := by rw [hrest]; rfl
      have hbind : ((v.acceptLaunch x.ctx q l k).goOn q).bind b = (v.acceptLaunch x.ctx q l k).bind b := by rw [hrest]; rfl
      refine ⟨_, b, rfl, ⟨hgoes.head.trans (by rw [hq, hhead]), hgoes.lane.trans (by rw [hq, hlane])⟩, hgoes.open_.trans (by rw [hq, hopen']), hmem, ?_⟩
      rw [show (s.queue q).ctx = x.ctx from rfl, hctx, hbind]
      exact ⟨hl.launch, hl.node, hl.part, hl.tiles, hl.bind, hl.valid, hl.idle, hl.ctx, hl.place, hl.class_.trans (by rw [hy, hclass]), hvs.2 ▸ hl.start⟩
  · intro ha
    have he : exec .wait s = .next (if kind = 0 && (s.blockOn q from_ p (kind, n, v)).gtick < v then
        ((s.blockOn q from_ p (kind, n, v)).at_ (v + Config.serviceDelay (s.blockOn q from_ p (kind, n, v)).free % 240000) .waitConditionMet [q]).tickFree
        else s.blockOn q from_ p (kind, n, v)) := by
      show Host.Outcome.next (s.onPacket q from_ p _) = _
      rw [s.onPacket_eq _ hs hf]
      exact congrArg Host.Outcome.next (if_pos ha)
    refine ⟨_, he, ?_⟩
    have hb := s.blockOn_blockedBy q from_ p (kind, n, v)
    split
    · exact hb.at_ ..
    · exact hb
  · intro ha
    have he : exec .wait s = .next ((((s.takePacket q from_).completion q (packetTag p) 4 0x0903 (packetSilent p)).wakeWaits).queueError q 0x0903) := by
      show Host.Outcome.next (s.onPacket q from_ p _) = _
      rw [s.onPacket_eq _ hs hf, if_neg (by rw [show s.waitAllowed (s.queue q) _ _ = false from ha]; decide)]
    obtain ⟨y, hy, hhead, hlane, hring, hcount, hsize, -⟩ := s.takePacket_queue q from_
    have hdone := (s.takePacket q from_).completes q (packetTag p) 4 0x0903 (packetSilent p)
    have hgoes := (State.GoesOn.wakeWaits ((s.takePacket q from_).completion q (packetTag p) 4 0x0903 (packetSilent p)) q).trans (.queueError _ q 0x0903)
    refine ⟨_, he, ⟨hgoes.head.trans (hdone.head.trans (by rw [hy, hhead])), hgoes.lane.trans (hdone.lane.trans (by rw [hy, hlane]))⟩, ?_, ?_,
      hdone.record.between ⟨_, rfl⟩ (by rw [hy, hring]) (by rw [hy, hcount]) (by rw [hy, hsize]) hgoes⟩
    · exact congrArg Queue.state (State.queue_modQ ..)
    · exact congrArg Queue.error (State.queue_modQ ..)
  · intro hfrom
    have he : exec .fencePacket s = .next (s.blockOn q from_ p (3, 0, 0)) := by
      show Host.Outcome.next (if s.arg 1 = 1 then _ else s.onPacket q from_ p _) = _
      rw [if_neg hfrom, s.onPacket_eq _ hs hf]
    exact ⟨_, he, s.blockOn_blockedBy q from_ p (3, 0, 0)⟩
  · intro tag silent rest hp ht hfrom htag ho
    have he : exec .launch s = .next (s.finishPacket q tag 3 (s.arg 3)) := by
      show Host.Outcome.next (if s.arg 1 = 1 then s.finishPacket q (s.arg 2) 3 (s.arg 3) else _) = _
      rw [if_pos hfrom, htag]
    rw [he, State.finishPacket_first hp ht ho (.inl rfl)]
    have hw : (s.modQ q fun x => { x with open_ := rest }).queue q = { x with open_ := rest } := s.queue_modQ ..
    have hdone := (s.modQ q fun x => { x with open_ := rest }).completes q tag 3 (s.arg 3) silent
    have hgoes := State.GoesOn.wakeWaits ((s.modQ q fun x => { x with open_ := rest }).completion q tag 3 (s.arg 3) silent) q
    obtain ⟨qs, ag, n, hrest⟩ := hgoes.rest
    exact ⟨_, rfl, hgoes.open_.trans (hdone.open_.trans (by rw [hw])),
      hdone.record.between ⟨_, rfl⟩ (by rw [hw]) (by rw [hw]) (by rw [hw]) hgoes, (congrArg State.ctxs hrest).trans hdone.ctxs⟩
  · intro k m w tag rest hs hw hk ho
    have hin : (s.inService q && s.waitMet x && x.wakeOp.1 == .waitConditionMet) = s.waitMet x := by simp [hs, Queue.wakeOp_wait hw hk]
    have hcase (met : Prop) (hmet : s.waitMet x = true ↔ met) :
        (met → ∃ u, exec .waitConditionMet s = .next u ∧ ends u 4 tag rest) ∧ (¬ met → exec .waitConditionMet s = .next s) := by
      refine ⟨fun hm => ?_, fun hm => ?_⟩
      · have he : exec .waitConditionMet s = .next (((s.modQ q fun x => { x with wait := none, blockedAt := none }).finishFirst q 4 0).goOn q) :=
          congrArg Host.Outcome.next (if_pos (hin.trans (hmet.2 hm)))
        exact ⟨_, he, State.endBlock hs ho⟩
      · exact congrArg Host.Outcome.next (if_neg (by rw [show (_ && _ && _) = _ from hin]; exact hmet.not.2 hm))
    match k, hk with
    | 0, _ => exact hcase _ (State.waitMet_tick hw)
    | 1, _ => exact hcase _ (State.waitMet_count hw)
    | 2, _ => exact hcase _ (State.waitMet_iteration hw)
  · intro a b op tag rest hs hfrom hw ho
    have hexec : exec .fencePacket s = .next (if s.inService q && s.waitMet x && x.wakeOp.1 == .fencePacket then
        ((s.modQ q fun x => { x with wait := none, blockedAt := none }).finishFirst q 7 0).goOn q else s) := congrArg Host.Outcome.next (if_pos hfrom)
    have hin : (s.inService q && s.waitMet x && x.wakeOp.1 == .fencePacket) = (op == 7) := by
      simp [hs, Queue.wakeOp_fence hw, State.waitMet_fence hw, ho]
    refine ⟨fun hop => ?_, fun hop => ?_⟩
    · subst hop
      have he : exec .fencePacket s = .next (((s.modQ q fun x => { x with wait := none, blockedAt := none }).finishFirst q 7 0).goOn q) :=
        hexec.trans (congrArg _ (if_pos hin))
      exact ⟨_, he, State.endBlock hs ho⟩
    · exact hexec.trans (congrArg _ (if_neg (by rw [show (_ && _ && _) = _ from hin]; simpa using hop)))
  · intro b hm hb
    show Host.Outcome.next (s.waitTimeout q) = _
    split
    next h => rw [State.waitTimeout_late hm hb h]; rfl
    next h => rw [State.waitTimeout_early hb h]

end Sys2Proof.Machine
end

