-- ==== Sys2Proof/Proofs/Timeouts.lean ====
section
/-! SUPPORT. Faults that time brings: the record of a fault at partition level (R337, R339, R340) and of one that its sequencer takes (R343), and what both
leave of its tile. -/
namespace Sys2Proof.Machine

/-! The record. -/

/-- The fault's record is the last of the log, whoever it stands for. -/
theorem State.partitionFault_record (s : State) (x t q : Nat) (f : FaultInfo) (escalated : Bool) :
    ∃ r, (s.partitionFault x t q f escalated).log.getLast? = some r ∧ r.info = f ∧ r.level = 4 ∧ r.escalated = escalated ∧ r.tile = t ∧ r.seq = q := by
  unfold State.partitionFault
  rw [State.endPartition_log]
  have hl := s.record_last x { info := f, level := 4, escalated := escalated, tick := s.gtick, tile := t, seq := q, depth := (s.seq t q).regions.length }
  obtain h | h := State.joinRegion_log (s.record x _) x t
  · exact ⟨_, by rw [h]; exact hl, rfl, rfl, rfl, rfl, rfl⟩
  · exact ⟨_, by rw [h, List.getLast?_map, hl]; rfl, by simp [FaultRecord.joined], by simp [FaultRecord.joined], by simp [FaultRecord.joined],
      by simp [FaultRecord.joined], by simp [FaultRecord.joined]⟩

theorem State.endPartition_ends (s : State) (x level code : Nat) (h : (s.ctx x).part = .running) :
    ((s.endPartition x level code).ctx x).ending.isSome = true := by
  unfold State.endPartition
  dsimp only
  split
  · next he =>
    split
    · rw [State.ctx_setCtx, if_pos rfl]; rfl
    · rw [he]; rfl
  · rw [h]
    show ((s.setCtx x _).ctx x).ending.isSome = true
    rw [State.ctx_setCtx, if_pos rfl]
    rfl

/-- It ends a partition that runs. -/
theorem State.partitionFault_ends (s : State) (x t q : Nat) (f : FaultInfo) (escalated : Bool) (h : (s.ctx x).part = .running) :
    ((s.partitionFault x t q f escalated).ctx x).ending.isSome = true := by
  refine State.endPartition_ends _ _ _ _ ?_
  obtain ⟨rs, hj⟩ := State.joinRegion_ctx (s.record x _) x t x
  obtain ⟨rs', hr⟩ := s.record_ctx x _
  rw [hj, hr]
  exact h

/-! The wait that a tile freezes for. -/

/-- A fault leaves a tile's count of the ticks it has been frozen for, and whether a sequencer's wait has timed out. -/
structure Tile.WaitStands (q : Nat) (x z : Tile) : Prop where
  frozenFor : z.frozenFor = x.frozenFor
  timedOut : (z.seq q).timedOut = (x.seq q).timedOut

theorem Tile.WaitStands.refl (q : Nat) (x : Tile) : x.WaitStands q x := ⟨rfl, rfl⟩

theorem Tile.WaitStands.trans {q : Nat} {x y z : Tile} (h : x.WaitStands q y) (h' : y.WaitStands q z) : x.WaitStands q z :=
  ⟨h'.frozenFor.trans h.frozenFor, h'.timedOut.trans h.timedOut⟩

theorem Tile.WaitStands.setSeq {q : Nat} {x z : Tile} (h : x.WaitStands q z) (p : Nat) (y : Seq) (hy : y.timedOut = (x.seq p).timedOut) :
    x.WaitStands q (z.setSeq p y) := by
  refine ⟨?_, ?_⟩
  · rw [← h.frozenFor]
    unfold Tile.setSeq
    split <;> rfl
  · rw [Tile.seq_setSeq]
    split
    · next hpq => rw [hy]; simp only [Tile.seq, hpq]
    · exact h.timedOut

theorem Tile.WaitStands.movedRecords (q : Nat) (x : Tile) (late : List FaultRecord) : x.WaitStands q (x.movedRecords late) := by
  refine ⟨rfl, ?_⟩
  unfold Tile.seq Tile.movedRecords
  split <;> rfl

theorem Tile.WaitStands.stopEntered (q : Nat) (x : Tile) (p n : Nat) : x.WaitStands q (x.stopEntered p n) := by
  unfold Tile.stopEntered
  split
  · split
    · next hd _ _ =>
      have h := (Tile.WaitStands.refl q x).setSeq p { (x.seq p).stopTask with pc := hd.due } rfl
      exact ⟨h.frozenFor, h.timedOut⟩
    · exact .refl ..
  · exact .refl ..

theorem State.record_waitStands (s : State) (x : Nat) (r : FaultRecord) (t q : Nat) : (s.tile t).WaitStands q ((s.record x r).tile t) := by
  obtain ⟨late, h⟩ := s.record_tile x r
  rw [h]
  exact .movedRecords ..

theorem State.joinRegion_waitStands (s : State) (x t j q : Nat) : (s.tile j).WaitStands q ((s.joinRegion x t).tile j) := by
  have hp : (s.tile j).WaitStands q ((s.modTile t fun z => { z with partTick := some s.gtick }).tile j) := by
    rw [State.tile_modTile]
    split
    · next h => subst h; exact ⟨rfl, rfl⟩
    · exact .refl ..
  unfold State.joinRegion
  dsimp only
  split
  · exact hp
  · rw [State.tile_modTile]
    split
    · next h =>
      subst h
      exact hp.trans ((Tile.WaitStands.stopEntered q _ 0 s.gtick).trans (.stopEntered ..))
    · exact hp

theorem State.partitionFault_waitStands (s : State) (x t p : Nat) (f : FaultInfo) (escalated : Bool) (j q : Nat) :
    (s.tile j).WaitStands q ((s.partitionFault x t p f escalated).tile j) := by
  unfold State.partitionFault
  rw [State.endPartition_tile]
  exact (s.record_waitStands ..).trans (State.joinRegion_waitStands ..)

/-! A fault that its sequencer takes (R343 to R346). -/

/-- The machine with the record of a fault of sequencer `q` of tile `t` at the end of its log, and the wait of that tile as it was. -/
structure State.FaultTaken (s : State) (t q code : Nat) (u : State) : Prop where
  record : ∃ r, u.log.getLast? = some r ∧ r.info.code = code ∧ r.tile = t ∧ r.seq = q
  tile : (s.tile t).WaitStands q (u.tile t)

theorem State.FaultTaken.ofRecord (s : State) (x t q code : Nat) (r : FaultRecord) (hc : r.info.code = code) (ht : r.tile = t) (hq : r.seq = q) :
    s.FaultTaken t q code (s.record x r) := ⟨⟨_, s.record_last x r, hc, ht, hq⟩, s.record_waitStands ..⟩

/-- What else it changes of the tile, and what beside the tiles and the log. -/
theorem State.FaultTaken.modTile {s u : State} {t q code : Nat} (h : s.FaultTaken t q code u) (g : Tile → Tile)
    (hg : (s.tile t).WaitStands q (g (u.tile t))) : s.FaultTaken t q code (u.modTile t g) :=
  ⟨h.record, by rw [State.tile_modTile_same]; exact hg⟩

theorem State.FaultTaken.same {s u v : State} {t q code : Nat} (h : s.FaultTaken t q code u) (hl : v.log = u.log) (ht : v.tiles = u.tiles) :
    s.FaultTaken t q code v :=
  have htile : v.tile t = u.tile t := congrArg (fun ts => mget ({} : Tile) ts t) ht
  ⟨by rw [hl]; exact h.record, by rw [htile]; exact h.tile⟩

theorem State.takeLocal_taken (s : State) (t q : Nat) (f : FaultInfo) (due : Nat) : s.FaultTaken t q f.code (s.takeLocal t q f due) := by
  unfold State.takeLocal
  dsimp only [State.recordOnce]
  split
  · generalize hv : s.record _ _ = v
    have h : s.FaultTaken t q f.code v := hv ▸ .ofRecord s _ t q _ _ rfl rfl rfl
    have hz := h.tile.setSeq q { (v.seq t q).stopTask with pc := ((s.seq t q).handler.map (·.due)).getD due } h.tile.timedOut
    exact h.modTile _ ⟨hz.frozenFor, hz.timedOut⟩
  split
  · generalize hv : s.record _ _ = v
    have h : s.FaultTaken t q f.code v := hv ▸ .ofRecord s _ t q _ _ rfl rfl rfl
    generalize hy : ({ s.seq t q with regions := _, record := _, fstep := _, fresume := _, pc := _, taken := _, skipLeft := _, handler := _ } : Seq) = y
    have hz := h.tile.setSeq q y (by rw [← hy]; rfl)
    exact h.modTile _ ⟨hz.frozenFor, hz.timedOut⟩
  · generalize hv : s.record _ _ = v
    have h : s.FaultTaken t q f.code v := hv ▸ .ofRecord s _ t q _ _ rfl rfl rfl
    generalize hy : ite (α := Seq) ((s.ctx (s.ctxOf t)).thirdFault = true) _ _ = y
    have hz := h.tile.setSeq q y (by rw [← hy]; split <;> rfl)
    have h' : s.FaultTaken t q f.code (v.modTile t fun z => { z.setSeq q y with trap := leaveTrap z.trap q v.gtick }) :=
      h.modTile _ ⟨hz.frozenFor, hz.timedOut⟩
    split
    · exact h'.same (State.endPartition_log ..) (State.endPartition_tiles ..)
    · exact h'.same rfl rfl

/-! A wait that has timed out (R57, R340, R383). -/

theorem Seq.settleRegions_timedOut (y : Seq) : y.settleRegions.timedOut = y.timedOut := by
  unfold Seq.settleRegions
  refine List.foldlRecOn (motive := fun z : Seq => z.timedOut = y.timedOut) _ _ rfl fun z hz f hf => ?_
  have hremoved : (z.removeFlight f).timedOut = z.timedOut := by
    unfold Seq.removeFlight
    split <;> rfl
  have hregion : f.region = true := (List.mem_filter.1 hf).2
  unfold Flight.region at hregion
  refine Eq.trans ?_ (hremoved.trans hz)
  unfold Seq.landReg
  split at hregion
  · next ha =>
    rw [ha]
    dsimp only
    split <;> rfl
  · next ha => rw [ha]
  · exact absurd hregion Bool.false_ne_true

/-- The machine as its freeze ends with the timeout of its wait. -/
def State.thawed (s : State) (t q : Nat) : State := (s.modTile t fun x => { x with frozenFor := 0 }).modSeq t q (·.settleRegions)

theorem State.thawed_tile (s : State) (t q : Nat) : ((s.thawed t q).tile t).frozenFor = 0 ∧ ((s.thawed t q).seq t q).timedOut = (s.seq t q).timedOut := by
  refine ⟨?_, ?_⟩
  · unfold State.thawed State.modSeq
    rw [State.tile_setSeq, if_pos rfl, State.tile_modTile_same]
    unfold Tile.setSeq
    split <;> rfl
  · unfold State.thawed
    rw [State.seq_modSeq_same, Seq.settleRegions_timedOut, State.seq_modTile, if_pos rfl]
    rfl

theorem State.thawed_rest (s : State) (t q : Nat) : (s.thawed t q).ctxOf t = s.ctxOf t ∧ (s.thawed t q).ctxs = s.ctxs := by
  refine ⟨?_, rfl⟩
  unfold State.thawed State.ctxOf State.modSeq
  rw [State.tile_setSeq, if_pos rfl, State.tile_modTile_same]
  unfold Tile.setSeq
  split <;> rfl

/-- 0x0108 is taken at the level of the task that it meets (R337, R369). -/
theorem State.takeFault_timeout (s : State) (t q due : Nat) (f : FaultInfo) (h : f.code = 0x0108) : s.takeFault t q f due = s.takeLocal t q f due := by
  unfold State.takeFault
  dsimp only
  rw [h, if_neg (by decide), if_neg (by decide), if_neg (by decide)]

/-- What a freeze's timeout comes to: 0x0108, the second time on one wait at partition level. -/
theorem State.freezeTimeout_eq (s : State) (t q : Nat) (hq : (s.tile t).frozenBy = q) : s.freezeTimeout t =
    if (s.seq t q).timedOut then (s.thawed t q).partitionFault (s.ctxOf t) t q { code := 0x0108, unit := 255, step := (s.seq t q).clock } true
    else ((s.thawed t q).modSeq t q fun y => { y with timedOut := true }).takeLocal t q
      { code := 0x0108, unit := 255, step := (s.seq t q).clock } (s.seq t q).pc := by
  subst hq
  by_cases h : (s.seq t (s.tile t).frozenBy).timedOut = true
  · rw [if_pos h, ← (s.thawed_rest t (s.tile t).frozenBy).1]
    exact if_pos h
  · rw [if_neg h, ← State.takeFault_timeout _ _ _ _ _ rfl]
    exact if_neg h

/-- FREEZE_TIMEOUT, as its obligation says it. -/
theorem State.freezeTimeout_timesOut (s : State) (t q : Nat) (hq : (s.tile t).frozenBy = q) :
    ∃ u r, s.freezeTimeout t = u ∧ (u.tile t).frozenFor = 0 ∧ u.log.getLast? = some r ∧ r.info.code = 0x0108 ∧ r.tile = t ∧
      r.seq = q ∧ (u.seq t q).timedOut = true ∧
      ((s.seq t q).timedOut = true → r.level = 4 ∧ ((s.ctx (s.ctxOf t)).part = .running → (u.ctx (s.ctxOf t)).ending.isSome = true)) := by
  obtain ⟨hfor, hout⟩ := s.thawed_tile t q
  rw [s.freezeTimeout_eq t q hq]
  by_cases h : (s.seq t q).timedOut = true
  · rw [if_pos h]
    generalize hf : ({ code := 0x0108, unit := 255, step := (s.seq t q).clock } : FaultInfo) = f
    obtain ⟨r, hr, hinfo, hlevel, -, htile, hseq⟩ := (s.thawed t q).partitionFault_record (s.ctxOf t) t q f true
    have hw := (s.thawed t q).partitionFault_waitStands (s.ctxOf t) t q f true t q
    refine ⟨_, r, rfl, hw.frozenFor.trans hfor, hr, by rw [hinfo, ← hf], htile, hseq, hw.timedOut.trans (hout.trans h), fun _ => ⟨hlevel, fun hp => ?_⟩⟩
    exact State.partitionFault_ends _ _ _ _ _ _ hp
  · rw [if_neg h]
    generalize hf : ({ code := 0x0108, unit := 255, step := (s.seq t q).clock } : FaultInfo) = f
    generalize hv : (s.thawed t q).modSeq t q (fun y => { y with timedOut := true }) = v
    have hvout : (v.seq t q).timedOut = true := by rw [← hv, State.seq_modSeq_same]
    have hvfor : (v.tile t).frozenFor = 0 := by
      rw [← hv, State.modSeq, State.tile_setSeq, if_pos rfl, ← hfor]
      unfold Tile.setSeq
      split <;> rfl
    obtain ⟨⟨r, hr, hcode, htile, hseq⟩, hw⟩ := v.takeLocal_taken t q f (s.seq t q).pc
    exact ⟨_, r, rfl, hw.frozenFor.trans hvfor, hr, by rw [hcode, ← hf], htile, hseq, hw.timedOut.trans hvout, fun hy => absurd hy h⟩

/-- TRAP_PAUSE_TIMEOUT, as its obligation says it. -/
theorem State.pauseTimeout_timesOut (s : State) (t : Nat) :
    ∃ u r, s.pauseTimeout t = u ∧ u.log.getLast? = some r ∧ r.info.code = 0x0108 ∧ r.level = 4 ∧ r.escalated = true ∧
      r.tile = t ∧ ((s.ctx (s.ctxOf t)).part = .running → (u.ctx (s.ctxOf t)).ending.isSome = true) := by
  unfold State.pauseTimeout
  dsimp only
  generalize hf : ({ code := 0x0108, unit := 255, step := _ } : FaultInfo) = f
  generalize hv : s.modTile t (fun x => { x with trap := _ }) = v
  have hctx : v.ctxOf t = s.ctxOf t := by rw [← hv, State.ctxOf, State.tile_modTile_same]; rfl
  have hctxs (x : Nat) : v.ctx x = s.ctx x := by rw [← hv]; rfl
  rw [hctx]
  obtain ⟨r, hr, hinfo, hlevel, hesc, htile, -⟩ := v.partitionFault_record (s.ctxOf t) t _ f true
  exact ⟨_, r, rfl, hr, by rw [hinfo, ← hf], hlevel, hesc, htile, fun hp => v.partitionFault_ends _ _ _ _ _ (by rw [hctxs]; exact hp)⟩

end Sys2Proof.Machine
end

