-- ==== Sys2Proof/Proofs/TileHappenings.lean ====
section
/-! O40: conflicts, inbound writes, landing slots and timeouts of a tile. -/
namespace Sys2Proof.Machine

/-! Bytes from an address on. -/

theorem lookup_cellsFrom (a : Nat) (bs : List Byte) (k : Nat) :
    (cellsFrom a bs).lookup k = if a ≤ k ∧ k < a + bs.length then some (bs.getD (k - a) 0) else none := by
  induction bs generalizing a with
  | nil => simp [cellsFrom]
  | cons b bs ih =>
    rw [cellsFrom, List.lookup_cons, ih]
    by_cases h : k = a
    · subst h; simp
    · simp only [beq_false_of_ne h, List.length_cons]
      by_cases h1 : a + 1 ≤ k ∧ k < a + 1 + bs.length
      · rw [if_pos h1, if_pos (by omega), show k - a = (k - (a + 1)) + 1 by omega, List.getD_cons_succ]
      · rw [if_neg h1, if_neg (by omega)]

theorem getD_lookup_cellsFrom (a : Nat) (bs : List Byte) (k : Nat) (b : Byte) :
    ((cellsFrom a bs).lookup k).getD b = if a ≤ k ∧ k < a + bs.length then bs.getD (k - a) 0 else b := by
  rw [lookup_cellsFrom]
  split <;> rfl

theorem keys_cellsFrom_nodup (a : Nat) (bs : List Byte) : ((cellsFrom a bs).map (·.1)).Nodup := by
  have hle (a : Nat) (bs : List Byte) (k : Nat) (h : k ∈ (cellsFrom a bs).map (·.1)) : a ≤ k := by
    induction bs generalizing a with
    | nil => cases h
    | cons b bs ih =>
      rw [cellsFrom, List.map_cons, List.mem_cons] at h
      exact h.elim (fun h => h.ge) fun h => (Nat.le_succ a).trans (ih (a + 1) h)
  induction bs generalizing a with
  | nil => exact List.nodup_nil
  | cons b bs ih => exact List.nodup_cons.2 ⟨fun h => Nat.lt_irrefl a (hle (a + 1) bs a h), ih (a + 1)⟩

/-! A write into words that hold what was stored. -/

theorem Tile.undefAt_iff (x : Tile) (a : Nat) : x.undefAt a = true ↔ Sys2Proof.Machine.covers x.undef a := by
  simp [Tile.undefAt, Sys2Proof.Machine.covers]

theorem Tile.writeMark_clean (x : Tile) (w : LocalWrite) (old : Vec) (k : Nat) (h : (x.mark k).checks = none ∧ (x.mark k).wrong = 0) :
    (x.writeMark w old k).spad = x.spad ∧ (x.writeMark w old k).undef = x.undef ∧ ∀ j, k ≠ j → (x.writeMark w old k).mark j = x.mark j := by
  unfold Tile.writeMark
  dsimp only
  have hother (m : WordMark) (j : Nat) (hj : k ≠ j) : mget {} (mset {} x.marks k m) j = mget {} x.marks j := mget_mset_other _ _ _ hj
  split
  · exact ⟨rfl, rfl, hother _⟩
  split
  · exact ⟨rfl, rfl, hother _⟩
  · rw [if_pos (by simp [h])]
    exact ⟨rfl, rfl, hother _⟩

theorem Tile.foldl_writeMark_clean (w : LocalWrite) (old : Nat → Vec) {ks : List Nat} (hn : ks.Nodup) (x : Tile)
    (h : ∀ k ∈ ks, (x.mark k).checks = none ∧ (x.mark k).wrong = 0) :
    (ks.foldl (fun z k => z.writeMark w (old k) k) x).spad = x.spad ∧ (ks.foldl (fun z k => z.writeMark w (old k) k) x).undef = x.undef := by
  induction ks generalizing x with
  | nil => exact ⟨rfl, rfl⟩
  | cons k ks ih =>
    obtain ⟨hk, hn⟩ := List.nodup_cons.1 hn
    obtain ⟨hs, hu, hm⟩ := x.writeMark_clean w (old k) k (h k (.head _))
    obtain ⟨hs', hu'⟩ := ih hn (x.writeMark w (old k) k) fun j hj => by
      rw [hm j fun e => hk (e ▸ hj)]
      exact h j (.tail _ hj)
    exact ⟨hs'.trans hs, hu'.trans hu⟩

/-- A store of consecutive bytes, as it is read. -/
theorem Tile.spadByte_applyWrite (x : Tile) (w : LocalWrite) (off : Nat) (bs : List Byte) (ha : w.add = false) (hb : w.bytes = cellsFrom off bs)
    (h : ∀ k ∈ wordsIn w.bytes, (x.mark k).checks = none ∧ (x.mark k).wrong = 0) (a : Nat) :
    (x.applyWrite w).spadByte a = if off ≤ a ∧ a < off + bs.length then bs.getD (a - off) 0 else x.spadByte a := by
  have hadd : w.added x = w := by simp [LocalWrite.added, ha]
  obtain ⟨p, d, hp⟩ := x.keptParity_eq w
  have hwake : (x.applyWrite w).wake = x.wake := by rw [(x.applyWrite_wrote w).rest]
  obtain ⟨hspad, hundef⟩ : (x.applyWrite w).spad = putCells x.spad w.bytes ∧
      (x.applyWrite w).undef = if x.undef.isEmpty then [] else (w.bytes.map (·.1)).foldl carve x.undef := by
    rw [Tile.applyWrite_eq, hadd, hp]
    exact Tile.foldl_writeMark_clean w x.spadWord (List.nodup_dedup _) (Tile.putWrite { x with parity := p, parityDue := d } w) h
  have hcov : Sys2Proof.Machine.covers (x.applyWrite w).undef a ↔ Sys2Proof.Machine.covers x.undef a ∧ w.bytes.lookup a = none := by
    rw [hundef, lookup_eq_none_iff_notMem_keys]
    split
    next he => simp [Sys2Proof.Machine.covers, List.isEmpty_iff.1 he]
    next => exact covers_foldl_carve ..
  have hbyte : byteAt (x.applyWrite w).spad a = (w.bytes.lookup a).getD (byteAt x.spad a) := by
    rw [hspad, byteAt_putCells _ _ (hb ▸ keys_cellsFrom_nodup off bs)]
  unfold Tile.spadByte
  rw [hwake, hbyte, hb, getD_lookup_cellsFrom]
  rw [hb, lookup_cellsFrom] at hcov
  by_cases hin : off ≤ a ∧ a < off + bs.length
  · have hnot : (x.applyWrite w).undefAt a = false := by
      rw [← Bool.not_eq_true, Tile.undefAt_iff, hcov, if_pos hin]
      simp
    simp [hnot, hin]
  · have hsame : (x.applyWrite w).undefAt a = x.undefAt a := by
      rw [Bool.eq_iff_iff, Tile.undefAt_iff, Tile.undefAt_iff, hcov, if_neg hin]
      simp
    simp [hsame, hin]

/-! The writes of a tick. -/

/-- What the parity has to do with the rest of a tile: nothing. -/
structure Tile.ParityOnly (x z : Tile) : Prop where
  rest : z = { x with parity := z.parity, parityDue := z.parityDue, owed := z.owed }

theorem Tile.ParityOnly.refl (x : Tile) : x.ParityOnly x := ⟨rfl⟩

theorem Tile.ParityOnly.trans {x y z : Tile} (h : x.ParityOnly y) (h' : y.ParityOnly z) : x.ParityOnly z := ⟨by
  have hz := h'.rest
  rw [h.rest] at hz
  exact hz⟩

theorem Tile.foldl_updateParity_only (es : Map (BitVec 64)) (x : Tile) : x.ParityOnly (es.foldl (fun (z : Tile) e => z.updateParity e.1 e.2) x) :=
  List.foldlRecOn (motive := x.ParityOnly) es _ (.refl x) fun _ hz _ _ => hz.trans ⟨rfl⟩

theorem Tile.foldl_putParity_only (es : List (Nat × Nat × Vec × BitVec 64)) (x : Tile) :
    x.ParityOnly (es.foldl (fun (z : Tile) e => z.putParity e.1 e.2.1 e.2.2.1 e.2.2.2) x) :=
  List.foldlRecOn (motive := x.ParityOnly) es _ (.refl x) fun _ hz _ _ => hz.trans ⟨rfl⟩

theorem Tile.healParity_only (x : Tile) (free : Nat → Bool) : x.ParityOnly (x.healParity free) := by
  refine List.foldlRecOn (motive := x.ParityOnly) _ _ (.refl x) fun z hz g _ => hz.trans ?_
  split
  · exact ⟨rfl⟩
  · exact .refl z

/-- The tile before its writes of the tick: its parity is brought up to date. -/
def Tile.beforeWrites (x : Tile) (stepped : Bool) : Tile :=
  let x := if stepped then { (if x.parity.isEmpty then x else x.healParity x.groupFree) with owed := x.owed + x.conflictTicks } else x
  if stepped then x.parityDue.foldl (fun (z : Tile) e => z.updateParity e.1 e.2) { x with parityDue := [] } else x

theorem Tile.beforeWrites_only (x : Tile) (stepped : Bool) : x.ParityOnly (x.beforeWrites stepped) := by
  cases stepped with
  | false => exact .refl x
  | true =>
    have hheal : x.ParityOnly { (if x.parity.isEmpty then x else x.healParity x.groupFree) with owed := x.owed + x.conflictTicks } := by
      refine .trans (y := if x.parity.isEmpty then x else x.healParity x.groupFree) ?_ ⟨rfl⟩
      split
      · exact .refl x
      · exact x.healParity_only _
    exact hheal.trans (.trans (y := { ({ (if x.parity.isEmpty then x else x.healParity x.groupFree) with owed := x.owed + x.conflictTicks } : Tile) with parityDue := [] })
      ⟨rfl⟩ (Tile.foldl_updateParity_only ..))

/-- One inbound write that is due, its banks free, in a tick without another access. -/
theorem Tile.inboundSplit_one {x : Tile} {e : Inbound} {tick : Nat} (hoff : x.goesOff = false) (hat : x.atomicNow = []) (hin : x.inbound = [e])
    (hdue : e.due ≤ tick) (hres : ∀ r ∈ x.reservations, r.left = 0) : x.inboundSplit tick = ([e], []) := by
  have hfree (b : Nat) : (x.reservations.any fun r => r.bank == b && 0 < r.left) = false := by
    rw [List.any_eq_false]
    intro r hr
    simp [hres r hr]
  unfold Tile.inboundSplit
  cases hm : e.multicast <;> simp [hin, hdue, Tile.heldInbound, hoff, hm, sortKey, insertKey, hat, hfree]

/-- Writes perform, and the accesses of the tick are over. -/
def Tile.settleWrites (x : Tile) (ws : List LocalWrite) (rest : List Inbound) : Tile :=
  let z := ({ x with writes := [] } : Tile).applyWrites ws
  z.parityNow.foldl (fun (z : Tile) (e : Nat × Nat × Vec × BitVec 64) => z.putParity e.1 e.2.1 e.2.2.1 e.2.2.2)
    { z with inbound := rest, uses := [], atomicNow := [], parityNow := [], written := true }

theorem Tile.memoryTick_eq {x : Tile} {tick : Nat} {stepped : Bool} {now rest : List Inbound} (h : x.written = false)
    (hs : (x.beforeWrites stepped).inboundSplit tick = (now, rest)) : x.memoryTick tick stepped =
      (x.beforeWrites stepped).settleWrites (now.foldl (fun ws e => placeInbound ws e.write) ((sortKey [] (x.beforeWrites stepped).writes).map (·.2))) rest := by
  have hm : x.memoryTick tick stepped = if x.written then x else match (x.beforeWrites stepped).inboundSplit tick with
      | (now, rest) => (x.beforeWrites stepped).settleWrites (now.foldl (fun ws e => placeInbound ws e.write) ((sortKey [] (x.beforeWrites stepped).writes).map (·.2))) rest := rfl
  rw [hm, hs, if_neg (by simp [h])]

theorem Tile.settleWrites_only (x : Tile) (ws : List LocalWrite) (rest : List Inbound) : Tile.ParityOnly
    { ({ x with writes := [] } : Tile).applyWrites ws with inbound := rest, uses := [], atomicNow := [], parityNow := [], written := true }
    (x.settleWrites ws rest) := Tile.foldl_putParity_only ..

/-- That write performs, and no other. -/
theorem Tile.memoryTick_one {x : Tile} {e : Inbound} {tick : Nat} (stepped : Bool) (hoff : x.goesOff = false) (hwr : x.written = false) (hat : x.atomicNow = [])
    (hws : x.writes = []) (hin : x.inbound = [e]) (hdue : e.due ≤ tick) (hadd : e.write.add = false) (hres : ∀ r ∈ x.reservations, r.left = 0) :
    x.memoryTick tick stepped = (x.beforeWrites stepped).settleWrites [e.write] [] := by
  have h := (x.beforeWrites_only stepped).rest
  have hsplit : (x.beforeWrites stepped).inboundSplit tick = ([e], []) :=
    Tile.inboundSplit_one ((congrArg Tile.goesOff h).trans hoff) ((congrArg Tile.atomicNow h).trans hat) ((congrArg Tile.inbound h).trans hin) hdue
      fun r hr => hres r ((congrArg Tile.reservations h) ▸ hr)
  have hwrites : (x.beforeWrites stepped).writes = [] := (congrArg Tile.writes h).trans hws
  have hone : placeInbound [] e.write = [e.write] := by simp [placeInbound, hadd]
  rw [Tile.memoryTick_eq hwr hsplit, hwrites]
  exact congrArg (fun ws => (x.beforeWrites stepped).settleWrites ws []) hone

/-- The bytes of the tile after it. -/
theorem Tile.spadByte_settleWrites (x : Tile) (stepped : Bool) (w : LocalWrite) (off : Nat) (bs : List Byte) (ha : w.add = false) (hb : w.bytes = cellsFrom off bs)
    (h : ∀ k ∈ wordsIn w.bytes, (x.mark k).checks = none ∧ (x.mark k).wrong = 0) (a : Nat) :
    ((x.beforeWrites stepped).settleWrites [w] []).spadByte a = if off ≤ a ∧ a < off + bs.length then bs.getD (a - off) 0 else x.spadByte a := by
  have hx := (x.beforeWrites_only stepped).rest
  have hmark (k : Nat) : (x.beforeWrites stepped).mark k = x.mark k := (congrArg (fun z : Tile => z.mark k) hx).trans rfl
  have hbyte : (x.beforeWrites stepped).spadByte a = x.spadByte a := (congrArg (fun z : Tile => z.spadByte a) hx).trans rfl
  have hz := congrArg (fun z : Tile => z.spadByte a) ((x.beforeWrites stepped).settleWrites_only [w] []).rest
  have hw := Tile.spadByte_applyWrite { x.beforeWrites stepped with writes := [] } w off bs ha hb (fun k hk => by
    have := h k hk
    rw [← hmark] at this
    exact this) a
  rw [← hbyte]
  exact hz.trans hw

/-! The aperture (R266, R412). -/

/-- Writes for peers' tiles are released, and stand behind what has been released before. -/
theorem State.foldl_releaseNow_keeps (es : List (Nat × Inbound)) (s : State) : ∃ ms ag n fw,
    es.foldl (fun (s : State) e => s.releaseNow { bytes := e.2.write.bytes, poison := e.2.write.poison }) s =
      { s with migrations := ms, agenda := ag, free := n, forward := fw } := by
  induction es generalizing s with
  | nil => exact ⟨_, _, _, _, rfl⟩
  | cons e es ih =>
    obtain ⟨ms, ag, n, h, -⟩ := s.releaseNow_eq { bytes := e.2.write.bytes, poison := e.2.write.poison } rfl
    obtain ⟨ms', ag', n', fw', h'⟩ := ih (s.releaseNow { bytes := e.2.write.bytes, poison := e.2.write.poison })
    rw [h] at h'
    exact ⟨ms', ag', n', fw', by rw [List.foldl_cons, h, h']⟩

theorem State.homeAddr_unmoved (s : State) (hm : s.migrations = []) (hf : s.forwarding = []) (a : Nat) : s.homeAddr a = a := by
  simp [State.homeAddr, hm, hf]

theorem State.physByte_unmoved (s : State) (hm : s.migrations = []) (hf : s.forwarding = []) (hc : s.codesClean = true) (a : Nat) :
    s.physByte a = s.forward.foldl (fun b e => (e.write.bytes.lookup a).getD b) (byteAt s.mem a) := by
  unfold State.physByte
  rw [s.homeAddr_unmoved hm hf]
  exact if_pos hc

/-- What such a write does to the bytes that a read of memory gives. -/
theorem State.physByte_releaseNow (s : State) (a : Nat) (bs : List Byte) (p : Option Poison) (hm : s.migrations = []) (hf : s.forwarding = [])
    (hc : s.codesClean = true) (k : Nat) : (s.releaseNow { bytes := cellsFrom a bs, poison := p }).physByte k =
      if a ≤ k ∧ k < a + bs.length then bs.getD (k - a) 0 else s.physByte k := by
  obtain ⟨ms, ag, n, h, hnil⟩ := s.releaseNow_eq { bytes := cellsFrom a bs, poison := p } rfl
  have hbytes : (cellsFrom a bs).map (fun b => (s.homeAddr b.1, b.2)) = cellsFrom a bs := by
    simp only [s.homeAddr_unmoved hm hf, Prod.mk.eta, List.map_id']
  have hclean : (s.releaseNow { bytes := cellsFrom a bs, poison := p }).codesClean = true := by
    rw [h]
    simpa [State.codesClean] using hc
  rw [State.physByte_unmoved _ (by rw [h]; exact hnil hm) (by rw [h]; exact hf) hclean, s.physByte_unmoved hm hf hc, h]
  simp only [List.foldl_append, List.foldl_cons, List.foldl_nil, hbytes]
  exact getD_lookup_cellsFrom ..

/-! The requests of landing slots (R53). -/

theorem State.requester_of_requested (s : State) (t q l k : Nat) (h : (s.seq t q).requested l k = true) : s.requester t q l k = t := if_pos h

theorem Seq.requested_iff (y : Seq) (l k : Nat) : y.requested l k = true ↔ (y.landing l).st = .pending ∧ (y.landing l).ticket = k := by
  simp [Seq.requested]

/-- A request that its context has taken to another tile. -/
theorem State.requester_elsewhere (s : State) (t q l k j : Nat) (h : (s.seq t q).requested l k = false)
    (he : ∃ e ∈ s.tiles, (e.2.seq q).requested l k = true) (hj : ∀ e ∈ s.tiles, (e.2.seq q).requested l k = true → e.1 = j) :
    s.requester t q l k = j := by
  obtain ⟨e, hm, hr⟩ := he
  obtain ⟨e', hf⟩ := Option.isSome_iff_exists.1 (List.find?_isSome (p := fun e : Nat × Tile => (e.2.seq q).requested l k).2 ⟨e, hm, hr⟩)
  unfold State.requester
  rw [if_neg (by simp [h]), hf]
  exact hj e' (List.mem_of_find?_eq_some hf) (List.find?_some (p := fun e : Nat × Tile => (e.2.seq q).requested l k) hf)

/-- The tiles of the machine as the data of a request arrives in their shadow images. -/
def State.shadowsArrive (s : State) (q l ticket : Nat) : State :=
  { s with tiles := s.tiles.map fun e => (e.1, { e.2 with shadow := e.2.shadow.map fun h => h.arrive q l ticket }) }

theorem State.shadowsArrive_seq (s : State) (q l k j p : Nat) : (s.shadowsArrive q l k).seq j p = s.seq j p := by
  unfold State.seq State.tile State.shadowsArrive
  rw [mget_map {} (fun z : Tile => { z with shadow := z.shadow.map fun h => h.arrive q l k }) rfl]
  rfl

theorem Seq.arrive_landing (y : Seq) (l k : Nat) : (y.arrive l k).landing l =
    (y.landing l).arrive k (if (y.landing l).handler then y.now else y.clock) := by
  unfold Seq.arrive
  rw [Seq.landing_setLanding, if_pos rfl]

/-- The writes that an aperture no longer holds are the tile's that were due. -/
theorem State.aperturePerform_aperture (s : State) (t : Nat) (e : Nat × Inbound) :
    e ∈ (s.aperturePerform t).aperture ↔ e ∈ s.aperture ∧ ¬ (e.1 = t ∧ e.2.due ≤ s.gtick) := by
  have h : (s.aperturePerform t).aperture = s.aperture.filter fun e => !(e.1 == t && e.2.due ≤ s.gtick) := by
    unfold State.aperturePerform
    dsimp only
    split
    · obtain ⟨ms, ag, n, fw, h⟩ := State.foldl_releaseNow_keeps (s.aperture.filter fun e => e.1 == t && e.2.due ≤ s.gtick)
        { s with aperture := s.aperture.filter fun e => !(e.1 == t && e.2.due ≤ s.gtick) }
      rw [h]
    · rfl
  rw [h, List.mem_filter]
  simp only [Bool.not_eq_true', Bool.and_eq_false_imp, beq_iff_eq, decide_eq_false_iff_not, not_and]

theorem State.aperturePerform_others (s : State) (t : Nat) : (∀ j, t ≠ j → (s.aperturePerform t).tile j = s.tile j) ∧ (s.aperturePerform t).mem = s.mem := by
  unfold State.aperturePerform
  dsimp only
  split
  · obtain ⟨ms, ag, n, fw, h⟩ := State.foldl_releaseNow_keeps (s.aperture.filter fun e => e.1 == t && e.2.due ≤ s.gtick)
      { s with aperture := s.aperture.filter fun e => !(e.1 == t && e.2.due ≤ s.gtick) }
    rw [h]
    exact ⟨fun _ _ => rfl, rfl⟩
  · exact ⟨fun j hj => State.tile_modTile_other _ _ hj, rfl⟩

theorem State.aperturePerform_inbound (s : State) (t : Nat) (h : t ≠ 384) : ((s.aperturePerform t).tile t).inbound.map (·.write) =
    (s.tile t).inbound.map (·.write) ++ (s.aperture.filter fun e => e.1 == t && e.2.due ≤ s.gtick).map fun e => e.2.write := by
  unfold State.aperturePerform
  dsimp only
  rw [if_neg h, State.tile_modTile_same]
  simp only [List.map_append, List.map_map]
  rfl

/-- The data of a request arrives in its slot, and changes no other sequencer. -/
theorem State.landingArrival_seq (s : State) (t q l k j p : Nat) : (s.landingArrival t q l k).seq j p =
    if s.requester t q l k = j ∧ (q = 0 ↔ p = 0) then (s.seq (s.requester t q l k) q).arrive l k else s.seq j p := by
  show ((s.shadowsArrive q l k).modSeq (s.requester t q l k) q fun y => y.arrive l k).seq j p = _
  rw [State.modSeq, State.seq_setSeq, State.shadowsArrive_seq, State.shadowsArrive_seq]

/-- One write performs in a tick of the tile. -/
theorem Tile.memoryTick_performs {x : Tile} {e : Inbound} {tick : Nat} (stepped : Bool) {off : Nat} {bs : List Byte} (hoff : x.goesOff = false)
    (hwr : x.written = false) (hat : x.atomicNow = []) (hws : x.writes = []) (hin : x.inbound = [e]) (hdue : e.due ≤ tick) (hadd : e.write.add = false)
    (hb : e.write.bytes = cellsFrom off bs) (hres : ∀ r ∈ x.reservations, r.left = 0)
    (hwords : ∀ k ∈ wordsIn e.write.bytes, (x.mark k).checks = none ∧ (x.mark k).wrong = 0) :
    (x.memoryTick tick stepped).inbound = [] ∧
      ∀ a, (x.memoryTick tick stepped).spadByte a = if off ≤ a ∧ a < off + bs.length then bs.getD (a - off) 0 else x.spadByte a := by
  rw [Tile.memoryTick_one stepped hoff hwr hat hws hin hdue hadd hres]
  exact ⟨congrArg Tile.inbound ((x.beforeWrites stepped).settleWrites_only [e.write] []).rest, fun a => x.spadByte_settleWrites stepped _ _ _ hadd hb hwords a⟩

theorem State.landingDue_pending (s : State) (t q l : Nat) (h : ((s.seq t q).landing l).st = .pending) (hg : ((s.seq t q).landing l).given = false) :
    s.landingDue t q l = s.modTile t fun x => { x with frozen := true, waiting := true, frozenBy := q } := by
  unfold State.landingDue
  simp [h, hg]

/-- Settles O40. -/
theorem tileHappenings : Obligations.TileHappenings := by
  unfold Obligations.TileHappenings
  intro s t q l x d requested r dr frame
  refine ⟨?_, ?_, ?_, ?_, ?_, ?_, ?_, ?_, ?_, ?_⟩
  · refine ⟨s.serveConflict t, rfl, ⟨fun j hj => State.tile_modTile_other _ _ hj, rfl⟩, ?_⟩
    rw [State.serveConflict, State.tile_modTile_same]
    exact ⟨rfl, rfl, rfl, rfl, rfl⟩
  · obtain ⟨hothers, hmem⟩ := s.aperturePerform_others t
    refine ⟨s.aperturePerform t, rfl, hothers, hmem, s.aperturePerform_aperture t, s.aperturePerform_inbound t, ?_⟩
    intro e a bs h384 hdue hb hm hf hc k
    have hone : s.aperturePerform t = State.releaseNow { s with aperture := s.aperture.filter fun e => !(e.1 == t && e.2.due ≤ s.gtick) }
        { bytes := cellsFrom a bs, poison := e.write.poison } := by
      unfold State.aperturePerform
      dsimp only
      rw [if_pos h384, hdue, ← hb]
      rfl
    rw [hone]
    exact State.physByte_releaseNow { s with aperture := s.aperture.filter fun e => !(e.1 == t && e.2.due ≤ s.gtick) } a bs _ hm hf hc k
  · intro e off bs hoff hwr huses hat hws hin hdue hadd hb hres hwords
    have hnote : s.noteConflicts t = s := if_pos (by simp [show (s.tile t).uses = [] from huses])
    have hu : exec .deferredInboundWrite s = .next (s.modTile t fun z => z.memoryTick s.gtick (s.steps t)) :=
      congrArg (fun v : State => Host.Outcome.next (v.modTile t fun z => z.memoryTick s.gtick (s.steps t))) hnote
    refine ⟨_, hu, ⟨fun j hj => State.tile_modTile_other _ _ hj, rfl⟩, ?_⟩
    rw [State.tile_modTile_same]
    exact Tile.memoryTick_performs (s.steps t) hoff hwr hat hws hin hdue hadd hb hres hwords
  · have hown : (s.landingArrival t q l (s.arg 3)).seq r q = (s.seq r q).arrive l (s.arg 3) := by
      rw [State.landingArrival_seq, if_pos ⟨rfl, Iff.rfl⟩]
    refine ⟨s.landingArrival t q l (s.arg 3), rfl, rfl, fun j p h => ?_, ?_, fun h => ?_, fun h => ?_⟩
    · rw [State.landingArrival_seq, if_neg h]
    · rw [hown]; rfl
    · rw [hown, Seq.arrive_landing]
      exact if_neg (by simpa [requested] using h)
    · rw [hown, Seq.arrive_landing]
      exact if_pos (by simpa [requested] using h)
  · exact fun h => s.requester_of_requested t q l _ ((Seq.requested_iff ..).2 h)
  · intro j hn he hj
    exact s.requester_elsewhere t q l _ j (by rw [← Bool.not_eq_true, Seq.requested_iff]; exact hn) (he.imp fun e => And.imp_right (Seq.requested_iff ..).2)
      fun e hm h => hj e hm ((Seq.requested_iff ..).1 h)
  · exact fun h => congrArg Host.Outcome.next (if_pos h)
  · exact fun h hg => congrArg Host.Outcome.next (s.landingDue_pending t q l h hg)
  · obtain ⟨u, r, hu, h⟩ := s.freezeTimeout_timesOut t x.frozenBy rfl
    exact ⟨u, r, congrArg Host.Outcome.next hu, h⟩
  · obtain ⟨u, r, hu, h⟩ := s.pauseTimeout_timesOut t
    exact ⟨u, r, congrArg Host.Outcome.next hu, h⟩

end Sys2Proof.Machine
end

