-- ==== Sys2Proof/Proofs/Boundaries.lean ====
section
/-! SUPPORT. Phase boundaries (R29, R56, R132): the migrations that the end of a hold leaves as they are, the clock that takes in the slip, and the release
of one staged entry. -/
namespace Sys2Proof.Machine

/-! Migrations: none begins or ends with a fault, a copy command that starts, or the end of a hold. -/

@[simp] theorem State.modTile_migrations (s : State) (t : Nat) (f : Tile → Tile) : (s.modTile t f).migrations = s.migrations := rfl
@[simp] theorem State.setSeq_migrations (s : State) (t q : Nat) (y : Seq) : (s.setSeq t q y).migrations = s.migrations := rfl
@[simp] theorem State.modSeq_migrations (s : State) (t q : Nat) (f : Seq → Seq) : (s.modSeq t q f).migrations = s.migrations := rfl
@[simp] theorem State.record_migrations (s : State) (x : Nat) (r : FaultRecord) : (s.record x r).migrations = s.migrations := by rw [State.record_eq]

@[simp] theorem State.endPartition_migrations (s : State) (x level code : Nat) : (s.endPartition x level code).migrations = s.migrations := by
  obtain ⟨cs, ag, fr, h, -⟩ := s.endPartition_eq x level code
  rw [h]

@[simp] theorem State.joinRegion_migrations (s : State) (x t : Nat) : (s.joinRegion x t).migrations = s.migrations := by
  unfold State.joinRegion
  dsimp only
  split <;> rfl

@[simp] theorem State.partitionFault_migrations (s : State) (x t q : Nat) (f : FaultInfo) (e : Bool) :
    (s.partitionFault x t q f e).migrations = s.migrations := by
  simp [State.partitionFault]

@[simp] theorem State.recordOnce_migrations (s : State) (x : Nat) (r : FaultRecord) (old : Option FaultRecord) :
    (s.recordOnce x r old).migrations = s.migrations := by
  cases old with
  | none => exact s.record_migrations x r
  | some o => rfl

@[simp] theorem State.takeLocal_migrations (s : State) (t q : Nat) (f : FaultInfo) (due : Nat) (old : Option FaultRecord) :
    (s.takeLocal t q f due old).migrations = s.migrations := by
  unfold State.takeLocal
  dsimp only
  split
  · exact State.recordOnce_migrations ..
  split
  · exact State.recordOnce_migrations ..
  split
  · exact (State.endPartition_migrations ..).trans (State.recordOnce_migrations ..)
  · exact State.recordOnce_migrations ..

@[simp] theorem State.takeFault_migrations (s : State) (t q : Nat) (f : FaultInfo) (due : Nat) : (s.takeFault t q f due).migrations = s.migrations := by
  unfold State.takeFault
  dsimp only
  split
  · split <;> rfl
  split
  · exact State.partitionFault_migrations ..
  split <;> simp

@[simp] theorem State.holdFault_migrations (s : State) (t q : Nat) (f : FaultInfo) : (s.holdFault t q f).migrations = s.migrations := by
  unfold State.holdFault
  exact (State.modSeq_migrations ..).trans (State.record_migrations ..)

@[simp] theorem State.takeDue_migrations (s : State) (t q : Nat) (fs : List FaultInfo) : (s.takeDue t q fs).migrations = s.migrations := by
  unfold State.takeDue
  split
  · rfl
  · refine (foldl_keeps State.migrations _ (fun u f => ?_) fs _).trans rfl
    dsimp only
    split
    · exact u.holdFault_migrations t q f
    · exact u.takeFault_migrations t q f _

theorem State.translate_migrations {s u : State} {t q va pa : Nat} {w nc : Bool} (h : s.translate t q va w = .ok (u, pa, nc)) :
    u.migrations = s.migrations := by
  unfold State.translate at h
  grind [State.setSeq_migrations]

theorem State.translatePages_migrations {t q : Nat} {w : Bool} {ks : List (Nat × Nat)} {s u : State} {m : Map Nat}
    (h : s.translatePages t q w ks = .ok (u, m)) : u.migrations = s.migrations := by
  induction ks generalizing s u m with
  | nil => simp_all [State.translatePages]
  | cons e ks ih =>
    unfold State.translatePages at h
    grind [State.translate_migrations]

theorem State.framePages_migrations {t q list held : Nat} {w : Bool} {ks : List Nat} {s u : State} {m : Map Nat}
    (h : s.framePages t q list held w ks = .ok (u, m)) : u.migrations = s.migrations := by
  induction ks generalizing s u m with
  | nil => simp_all [State.framePages]
  | cons e ks ih =>
    unfold State.framePages at h
    split at h
    · cases h
    split at h
    · cases h
    rename_i hlist
    dsimp only at h
    split at h
    · cases h
    rename_i hframe
    split at h
    · cases h
    · rename_i hrest
      cases h
      rw [ih hrest, State.translate_migrations hframe, State.translate_migrations hlist]

theorem State.commandPages_migrations {s u : State} {t q : Nat} {k : Command} {m : Map Nat} (h : s.commandPages t q k = .ok (u, m)) :
    u.migrations = s.migrations := by
  unfold State.commandPages at h
  grind [State.translatePages_migrations, State.framePages_migrations]

@[simp] theorem State.countCorrected_migrations (s : State) (t kind n : Nat) : (s.countCorrected t kind n).migrations = s.migrations := by
  unfold State.countCorrected
  dsimp only
  split
  · exact State.record_migrations ..
  · rfl

@[simp] theorem State.poisonSector_migrations (s : State) (k : Nat) (p : Poison) : (s.poisonSector k p).migrations = s.migrations := by
  unfold State.poisonSector
  dsimp only
  split <;> rfl

@[simp] theorem State.countSectors_migrations (s : State) (t : Nat) (ks : List Nat) : (s.countSectors t ks).migrations = s.migrations := by
  unfold State.countSectors
  split
  · rfl
  · refine foldl_keeps State.migrations _ (fun u k => ?_) ks s
    have hcount (c : Prop) [Decidable c] (n : Nat) : (if c then u else u.countCorrected t 2 n).migrations = u.migrations := by
      split <;> simp
    dsimp only
    split
    · exact (State.poisonSector_migrations ..).trans (hcount ..)
    · exact hcount ..

@[simp] theorem State.countRebuild_migrations (s : State) (t bank : Nat) : (s.countRebuild t bank).migrations = s.migrations := by
  unfold State.countRebuild
  dsimp only
  split <;> rfl

@[simp] theorem State.noteRebuild_migrations (s : State) (t k : Nat) : (s.noteRebuild t k).migrations = s.migrations := by
  unfold State.noteRebuild
  dsimp only
  simp only [apply_ite State.migrations, State.countCorrected_migrations, State.modTile_migrations, ite_self]

@[simp] theorem State.noteWord_migrations (s : State) (t k : Nat) (w : WordLook) : (s.noteWord t k w).migrations = s.migrations := by
  unfold State.noteWord
  dsimp only
  simp only [apply_ite State.migrations, State.countCorrected_migrations, State.countRebuild_migrations, State.noteRebuild_migrations,
    State.modTile_migrations, ite_self]

@[simp] theorem State.noteBytes_migrations (s : State) (t a n : Nat) : (s.noteBytes t a n).migrations = s.migrations :=
  foldl_keeps State.migrations _ (fun _ _ => State.noteWord_migrations ..) _ s

@[simp] theorem State.noteEngineBytes_migrations (s : State) (t pa n : Nat) : (s.noteEngineBytes t pa n).migrations = s.migrations := by
  unfold State.noteEngineBytes
  split <;> simp

@[simp] theorem State.noteBeats_migrations (s : State) (t : Nat) (k : Command) (pages : Map Nat) : (s.noteBeats t k pages).migrations = s.migrations := by
  unfold State.noteBeats
  split
  · exact foldl_keeps State.migrations _ (fun _ _ => foldl_keeps State.migrations _ (fun _ _ => State.noteEngineBytes_migrations ..) _ _) _ s
  · rfl

@[simp] theorem State.copyStart_migrations (s : State) (t q c i : Nat) (k : Command) : (s.copyStart t q c i k).1.migrations = s.migrations := by
  unfold State.copyStart
  split
  · rfl
  · next h =>
    have hpages := State.commandPages_migrations h
    exact (State.noteBeats_migrations ..).trans hpages

@[simp] theorem State.startPassed_migrations (s : State) (t q c n : Nat) : (s.startPassed t q c n).migrations = s.migrations := by
  induction n generalizing s with
  | zero => rfl
  | succ n ih =>
    unfold State.startPassed
    split
    · rfl
    · exact (ih _).trans ((State.takeDue_migrations ..).trans (State.copyStart_migrations ..))

@[simp] theorem State.endHold_migrations (s : State) (t q : Nat) (h : Hold) : (s.endHold t q h).migrations = s.migrations := by
  refine (State.modSeq_migrations ..).trans ?_
  unfold State.absorbSlip
  exact (foldl_keeps State.migrations _ (fun _ _ => State.startPassed_migrations ..) _ _).trans rfl

theorem State.endHolds_migrations (es : List (Nat × Nat × Hold)) (s : State) :
    (es.foldl (fun (u : State) e => u.endHold e.1 e.2.1 e.2.2) s).migrations = s.migrations :=
  foldl_keeps State.migrations _ (fun _ _ => State.endHold_migrations ..) es s

/-- Without a page in migration no cutover window opens. -/
theorem State.openWindows_unmoved (s : State) (h : s.migrations = []) : s.openWindows = s := by
  cases s
  subst h
  rfl

/-! The signal (R56, R132). -/

/-- A hold whose lines are clean, and whose party has no cached store still to perform: nothing of it is written back, and nothing is late. -/
structure Seq.HoldClean (y : Seq) (h : Hold) : Prop where
  hold : y.hold = some h
  lines : h.phase = true → ∀ l ∈ y.l1, l.dirty = 0
  stores : h.phase = true → ∀ f ∈ y.flights, ∀ w b, f.act ≠ .global w false b
  scope : h.phase = true → h.scope < 4

theorem Line.writeBack_clean (l : Line) (scope i : Nat) (h : l.dirty = 0) : l.writeBack scope i = none := by
  unfold Line.writeBack
  simp [h]

theorem Seq.nextWriteBack_clean (y : Seq) (b : Nat) (h : ∀ l ∈ y.l1, l.dirty = 0) : y.nextWriteBack b = none := by
  unfold Seq.nextWriteBack
  refine List.findSome?_eq_none_iff.2 fun l hl => ?_
  simp [Line.writeBack_clean _ _ _ (h l hl)]

theorem State.holdWriteBack_clean (s : State) (t q : Nat) (h : Hold) (hc : (s.seq t q).HoldClean h) : s.holdWriteBack t q = s := by
  unfold State.holdWriteBack
  dsimp only
  rw [hc.hold]
  dsimp only
  split
  · next hp =>
    simp only [Bool.and_eq_true] at hp
    rw [Seq.nextWriteBack_clean _ _ (hc.lines hp.1.1)]
  · rfl

theorem Seq.notLate (y : Seq) (h : Hold) (hc : y.HoldClean h) :
    (h.phase && (y.l1.any (boundaryLine h.scope) || y.flights.any fun f => ((f.heldStore h).map fun w => !w.2).getD false)) = false := by
  cases hp : h.phase with
  | false => rfl
  | true =>
    have hline : y.l1.any (boundaryLine h.scope) = false := by
      rw [List.any_eq_false]
      intro l hl
      simp [boundaryLine, Line.isDirty, hc.lines hp l hl]
    have hstore : (y.flights.any fun f => ((f.heldStore h).map fun w => !w.2).getD false) = false := by
      rw [List.any_eq_false]
      intro f hf
      have hact := hc.stores hp f hf
      unfold Flight.heldStore
      split
      · next w nc b ha =>
        cases nc with
        | false => exact absurd ha (hact w b)
        | true => split <;> simp
      · simp
    rw [hline, hstore]
    rfl

theorem State.signal_clean (s : State) (t q : Nat) (h : Hold) (hc : (s.seq t q).HoldClean h) :
    s.signal t q = s.setSeq t q { s.seq t q with hold := some { h with signalled := true } } := by
  unfold State.signal
  rw [s.holdWriteBack_clean t q h hc]
  dsimp only
  rw [hc.hold]
  dsimp only
  rw [(s.seq t q).notLate h hc, if_neg (by decide)]
  split
  · next hp => exact if_pos (hc.scope hp)
  · rfl

/-- A signal that finds its party in no hold is the boundary missed. -/
theorem State.signal_missed (s : State) (t q : Nat) (h : (s.seq t q).hold = none) :
    ∃ u r, s.signal t q = u ∧ u.log.getLast? = some r ∧ r.info.code = 0x0103 ∧ r.level = 4 ∧ r.tile = t ∧ r.seq = q ∧
      ((s.ctx (s.ctxOf t)).part = .running → (u.ctx (s.ctxOf t)).ending.isSome = true) := by
  have hw : s.holdWriteBack t q = s := by
    unfold State.holdWriteBack
    dsimp only
    rw [h]
  unfold State.signal
  rw [hw]
  dsimp only
  rw [h]
  dsimp only
  generalize hv : s.setSeq t q _ = v
  generalize hf : ({ code := 0x0103, unit := 255, step := _ } : FaultInfo) = f
  have hctxs (x : Nat) : v.ctx x = s.ctx x := by rw [← hv]; rfl
  obtain ⟨r, hr, hinfo, hlevel, -, htile, hseq⟩ := v.partitionFault_record (s.ctxOf t) t q f false
  exact ⟨_, r, rfl, hr, by rw [hinfo, ← hf], hlevel, htile, hseq, fun hp => v.partitionFault_ends _ _ _ _ _ (by rw [hctxs]; exact hp)⟩

/-! The end of a hold (R56, R132). -/

theorem State.startPassed_none (s : State) (t q c n : Nat)
    (h : ∀ k ∈ (s.queueOf t q c).cmds, k.pages = none → (s.seq t q).clock ≤ k.start) : s.startPassed t q c n = s := by
  cases n with
  | zero => rfl
  | succ n =>
    have hnone : ((s.queueOf t q c).cmds.zipIdx.find? fun e => e.1.pages.isNone && e.1.start < (s.seq t q).clock) = none := by
      rw [List.find?_eq_none]
      intro e he
      have := h e.1 (List.fst_mem_of_mem_zipIdx he)
      simp only [Bool.and_eq_true, Option.isNone_iff_eq_none, decide_eq_true_eq, not_and, not_lt]
      exact this
    unfold State.startPassed
    rw [hnone]

/-- The sequencer with its flags sampled for the steps passed over. -/
def State.sampled (s : State) (t q : Nat) : Seq := (s.passedFlags t q).foldl Seq.sample (s.seq t q)

theorem Seq.foldl_sample_eq (fs : List (BitVec 16)) (y : Seq) : ∃ a b, fs.foldl Seq.sample y = { y with flags1 := a, flags2 := b } := by
  induction fs generalizing y with
  | nil => exact ⟨_, _, rfl⟩
  | cons f fs ih =>
    obtain ⟨a, b, h⟩ := ih (y.sample f)
    exact ⟨a, b, by rw [List.foldl_cons, h]; rfl⟩

/-- Where the clock passes over the start of no copy command, it takes in the slip and nothing starts. -/
theorem State.absorbSlip_plain (s : State) (t q : Nat) (h : ∀ c < 2, ∀ k ∈ (s.queueOf t q c).cmds, k.pages = none → (s.seq t q).clock + (s.seq t q).slip ≤ k.start) :
    s.absorbSlip t q = s.setSeq t q { s.sampled t q with clock := (s.seq t q).clock + (s.seq t q).slip, slip := 0 } := by
  obtain ⟨a, b, hy⟩ := Seq.foldl_sample_eq (s.passedFlags t q) (s.seq t q)
  have hstart (c : Nat) (hc : c < 2) (n : Nat) :
      (s.setSeq t q { s.sampled t q with clock := (s.seq t q).clock + (s.seq t q).slip, slip := 0 }).startPassed t q c n = s.setSeq t q _ :=
    State.startPassed_none _ _ _ _ _ (by
      unfold State.queueOf
      rw [State.seq_setSeq_same, State.sampled, hy]
      exact h c hc)
  unfold State.absorbSlip
  simp only [List.foldl_cons, List.foldl_nil]
  rw [show (s.passedFlags t q).foldl Seq.sample (s.seq t q) = s.sampled t q from rfl, hstart 0 (by decide), hstart 1 (by decide)]

/-! One staged entry. -/

theorem splitStaging_one (sel : StagingEntry → Bool) (e : StagingEntry) (hs : e.spent = false) :
    splitStaging sel [e] = if sel e then ([e], []) else ([], [e]) := by
  simp [splitStaging, hs]

/-- What a die whose staging buffer holds one entry, or none, releases. -/
theorem releaseOrder_one (e : StagingEntry) (d : Nat) (hd : d < 4) : releaseOrder ((List.range 4).map fun j => if j = d then [e] else []) = [e] := by
  have hflat : ((List.range 4).map fun j => if j = d then [e] else []).flatMap
      (fun out => (sortKey [] (out.map fun e => (e.tick * 1024 + e.party, e))).map (·.2)) = [e] := by
    interval_cases d <;> rfl
  unfold releaseOrder
  dsimp only
  rw [hflat]
  cases hhost : decide (0x8000000000000 ≤ 64 * e.write.sector) <;> simp [hhost, sortKey, insertKey]

/-- An entry without a wrong bit, no add, is released as it stands. -/
theorem State.releaseEntry_plain (s : State) (e : StagingEntry) (hw : e.wrong = []) (ha : e.write.add = false) (hm : s.migrations = []) :
    ∃ ag n, s.releaseEntry e = { s with agenda := ag, free := n, forward := s.forward ++ [e] } := by
  have hadd : s.addReleased e.write = e.write := if_pos (by simp [ha])
  have hdirty : s.noteDirty e.write = s := if_pos (by simp [hm])
  unfold State.releaseEntry
  simp only [hw, List.isEmpty_nil, if_true, hadd, hdirty]
  rw [← hw]
  exact ⟨_, _, rfl⟩

/-- What a release finds where one die's buffer holds one entry. -/
theorem State.split_one (s : State) (sel : StagingEntry → Bool) (d : Nat) (e : StagingEntry) (he : (s.die d).staging = [e])
    (hne : ∀ j < 4, j ≠ d → (s.die j).staging = []) : ((List.range 4).map fun j => (j, splitStaging sel (s.die j).staging)) =
      (List.range 4).map fun j => if j = d then (j, splitStaging sel [e]) else (j, [], []) := by
  refine List.map_congr_left fun j hj => ?_
  split
  · next h => rw [h, he]
  · next h => rw [hne j (List.mem_range.1 hj) h]; rfl

/-- A release that selects nothing of the one entry staged. -/
theorem State.releaseWhere_one_kept (s : State) (sel : StagingEntry → Bool) (d : Nat) (e : StagingEntry) (hd : d < 4) (he : (s.die d).staging = [e])
    (hne : ∀ j < 4, j ≠ d → (s.die j).staging = []) (hs : e.spent = false) (hsel : sel e = false) : s.releaseWhere sel = s := by
  have hnone : ((List.range 4).map fun j => (j, splitStaging sel (s.die j).staging)) =
      (List.range 4).map fun j => if j = d then (j, [], [e]) else (j, [], []) := by
    rw [s.split_one sel d e he hne, splitStaging_one sel e hs, if_neg (by simp [hsel])]
  have hput : ((List.range 4).map fun j => if j = d then (j, ([] : List StagingEntry), [e]) else (j, [], [])).foldl
      (fun (s : State) d => if d.2.1.isEmpty then s else s.setDie d.1 { s.die d.1 with staging := d.2.2 }) s = s := by
    interval_cases d <;> rfl
  have hout : (((List.range 4).map fun j => if j = d then (j, ([] : List StagingEntry), [e]) else (j, [], [])).map fun d => d.2.1) =
      (List.range 4).map fun _ => [] := by
    interval_cases d <;> rfl
  have horder : releaseOrder ((List.range 4).map fun _ => []) = [] := rfl
  unfold State.releaseWhere
  dsimp only
  rw [hnone, hput, hout, horder]
  rfl

/-- A release that finds one entry staged, for the package itself or a peer that is there, and takes it. -/
theorem State.releaseWhere_one (s : State) (sel : StagingEntry → Bool) (d : Nat) (e : StagingEntry) (hd : d < 4) (he : (s.die d).staging = [e])
    (hne : ∀ j < 4, j ≠ d → (s.die j).staging = []) (hs : e.spent = false) (hp : s.peerLost e.write = false) (hw : e.wrong = [])
    (ha : e.write.add = false) (hm : s.migrations = []) (hsel : sel e = true) : ∃ ag n, s.releaseWhere sel =
      { s.setDie d { s.die d with staging := [] } with agenda := ag, free := n, forward := s.forward ++ [e] } := by
  have hone : ((List.range 4).map fun j => (j, splitStaging sel (s.die j).staging)) =
      (List.range 4).map fun j => if j = d then (j, [e], []) else (j, [], []) := by
    rw [s.split_one sel d e he hne, splitStaging_one sel e hs, if_pos hsel]
  have hput : ((List.range 4).map fun j => if j = d then (j, [e], ([] : List StagingEntry)) else (j, [], [])).foldl
      (fun (s : State) d => if d.2.1.isEmpty then s else s.setDie d.1 { s.die d.1 with staging := d.2.2 }) s =
        s.setDie d { s.die d with staging := [] } := by
    interval_cases d <;> rfl
  have hout : (((List.range 4).map fun j => if j = d then (j, [e], ([] : List StagingEntry)) else (j, [], [])).map fun d => d.2.1) =
      (List.range 4).map fun j => if j = d then [e] else [] := by
    interval_cases d <;> rfl
  obtain ⟨ag, n, hr⟩ := State.releaseEntry_plain (s.setDie d { s.die d with staging := [] }) e hw ha hm
  refine ⟨ag, n, ?_⟩
  have hlost : (s.setDie d { s.die d with staging := [] }).peerLost e.write = false := hp
  unfold State.releaseWhere
  dsimp only
  rw [hone, hput, hout, releaseOrder_one e d hd]
  simp only [List.filter_cons, List.filter_nil, hlost, Bool.not_false, if_true, Bool.false_eq_true, if_false, List.foldl_cons, List.foldl_nil,
    List.map_nil, List.dedup_nil, List.filterMap_nil]
  exact hr

/-! PHASE_RELEASE (R119, R132). -/

theorem State.performStores_none (s : State) (t q : Nat) (h : Hold) (hf : ∀ f ∈ (s.seq t q).flights, f.heldStore h = none) : s.performStores t q h = s := by
  have hdue : ((s.seq t q).flights.filter fun f => ((f.heldStore h).map (·.2)).getD false) = [] := by
    rw [List.filter_eq_nil_iff]
    intro f hm
    simp [hf f hm]
  unfold State.performStores
  dsimp only
  rw [hdue]
  rfl

theorem State.performAll_none (s : State) (es : List (Nat × Nat × Hold)) (h : ∀ e ∈ es, ∀ f ∈ (s.seq e.1 e.2.1).flights, f.heldStore e.2.2 = none) :
    es.foldl (fun (u : State) e => u.performStores e.1 e.2.1 e.2.2) s = s := by
  induction es with
  | nil => rfl
  | cons e es ih => rw [List.foldl_cons, s.performStores_none _ _ _ (h e (.head _)), ih fun e' he => h e' (.tail _ he)]

theorem State.releaseIngress_none (s : State) (x sig : Nat) (h : s.ingress = []) : s.releaseIngress x sig = s := by
  cases s
  subst h
  rfl

theorem State.releaseIngresses_none (s : State) (es : List (Nat × Nat × Hold)) (h : s.ingress = []) :
    es.foldl (fun (s : State) e => s.releaseIngress (s.ctxOf e.1) ((s.seq e.1 e.2.1).signalTick e.2.2.g)) s = s := by
  induction es with
  | nil => rfl
  | cons e es ih => rw [List.foldl_cons, s.releaseIngress_none _ _ h, ih]

/-- The boundary scope of a party that holds over, of those in the list. -/
def scopeOver (phases : List (Nat × Nat × Hold)) (p : Nat) : Option Nat := (phases.find? fun e => seqNumber e.1 e.2.1 == p).map fun e => e.2.2.scope

/-- What the phases that are over release. -/
def phaseSelects (phases : List (Nat × Nat × Hold)) (e : StagingEntry) : Bool :=
  match scopeOver phases e.party with
  | some b => releases b e.write.scope
  | none => false

/-- PHASE_RELEASE where nothing waits from outside and no page migrates: the release, then the holds that end. -/
theorem State.phaseRelease_quiet (s u : State) (hi : s.ingress = []) (hm : s.migrations = [])
    (hf : ∀ e ∈ s.holdsOver, ∀ f ∈ (s.seq e.1 e.2.1).flights, f.heldStore e.2.2 = none)
    (hu : s.releaseWhere (phaseSelects (s.holdsOver.filter fun e => e.2.2.phase)) = u) (hui : u.ingress = s.ingress) (hum : u.migrations = s.migrations) :
    s.phaseRelease = s.holdsOver.foldl (fun (u : State) e => u.endHold e.1 e.2.1 e.2.2) u := by
  have hstores := s.performAll_none (s.holdsOver.filter fun e => e.2.2.phase) fun e he => hf e (List.mem_of_mem_filter he)
  have hrel : s.phaseRelease = (s.holdsOver.foldl (fun (u : State) e => u.endHold e.1 e.2.1 e.2.2)
      (((s.holdsOver.filter fun e => e.2.2.phase).filter fun e => e.2.2.scope ≥ 4).foldl
        (fun (s : State) e => s.releaseIngress (s.ctxOf e.1) ((s.seq e.1 e.2.1).signalTick e.2.2.g))
        (((s.holdsOver.filter fun e => e.2.2.phase).foldl (fun (u : State) e => u.performStores e.1 e.2.1 e.2.2) s).releaseWhere
          (phaseSelects (s.holdsOver.filter fun e => e.2.2.phase))))).openWindows := rfl
  rw [hrel, hstores, hu, u.releaseIngresses_none _ (hui.trans hi), State.openWindows_unmoved _ ((State.endHolds_migrations ..).trans (hum.trans hm))]

end Sys2Proof.Machine
end

