-- ==== Sys2Proof/Proofs/DeviceWrites.lean ====
section
/-! SUPPORT. Writes of the device itself (R72, R87, R126; log 44, DEDUCED): what a write in a context's address space leaves unchanged. -/
namespace Sys2Proof.Machine

/-- From `s` to `u` only writes of no sequencer have been made: they wait at the inbound ports of tiles or stand released in front of memory. -/
structure State.Writes (s u : State) : Prop where
  rest : ∃ ts ms ag n fw, u = { s with tiles := ts, migrations := ms, agenda := ag, free := n, forward := fw }
  tile : ∀ t, ∃ ib, u.tile t = { s.tile t with inbound := ib }

theorem State.Writes.refl (s : State) : s.Writes s := ⟨⟨_, _, _, _, _, rfl⟩, fun _ => ⟨_, rfl⟩⟩

theorem State.Writes.trans {s u v : State} (h : s.Writes u) (h' : u.Writes v) : s.Writes v := by
  obtain ⟨ts, ms, ag, n, fw, hu⟩ := h.rest
  obtain ⟨ts', ms', ag', n', fw', hv⟩ := h'.rest
  refine ⟨⟨ts', ms', ag', n', fw', by rw [hv, hu]⟩, fun t => ?_⟩
  obtain ⟨ib, hi⟩ := h.tile t
  obtain ⟨ib', hi'⟩ := h'.tile t
  exact ⟨ib', by rw [hi', hi]⟩

theorem State.Writes.foldl {α : Type} (f : State → α → State) (h : ∀ (s : State) e, s.Writes (f s e)) (l : List α) (s : State) : s.Writes (l.foldl f s) :=
  List.foldlRecOn (motive := s.Writes) l f (.refl s) fun u hu e _ => hu.trans (h u e)

section
variable {s u : State} (h : s.Writes u)
include h

theorem State.Writes.ctxs : u.ctxs = s.ctxs := by
  obtain ⟨ts, ms, ag, n, fw, hu⟩ := h.rest
  rw [hu]

theorem State.Writes.ctx (x : Nat) : u.ctx x = s.ctx x := by rw [State.ctx, h.ctxs]; rfl

theorem State.Writes.winnow (x : Nat) : u.winnow x = s.winnow x := by rw [State.winnow, h.ctx]; rfl

theorem State.Writes.gtick : u.gtick = s.gtick := by
  obtain ⟨ts, ms, ag, n, fw, hu⟩ := h.rest
  rw [hu]

theorem State.Writes.mem : u.mem = s.mem := by
  obtain ⟨ts, ms, ag, n, fw, hu⟩ := h.rest
  rw [hu]

theorem State.Writes.dies : u.dies = s.dies := by
  obtain ⟨ts, ms, ag, n, fw, hu⟩ := h.rest
  rw [hu]

theorem State.Writes.log : u.log = s.log := by
  obtain ⟨ts, ms, ag, n, fw, hu⟩ := h.rest
  rw [hu]

end

theorem State.Writes.inbound (s : State) (t : Nat) (f : Tile → Tile) (h : ∃ ib, f (s.tile t) = { s.tile t with inbound := ib }) : s.Writes (s.modTile t f) := by
  refine ⟨⟨_, _, _, _, _, rfl⟩, fun j => ?_⟩
  rw [State.tile_modTile]
  split
  · next ht => subst ht; exact h
  · exact ⟨_, rfl⟩

theorem State.Writes.devWrite (s : State) (w : GlobalWrite) (h : w.add = false) : s.Writes (s.devWrite w) := by
  unfold State.devWrite
  split
  · exact .inbound _ _ _ ⟨_, rfl⟩
  · obtain ⟨ms, ag, n, hr, -⟩ := s.releaseNow_eq w h
    exact ⟨⟨_, ms, ag, n, _, hr⟩, fun t => ⟨(s.tile t).inbound, by rw [hr]; rfl⟩⟩

theorem State.Writes.ctxPut (s : State) (x va : Nat) (bs : List Byte) : s.Writes (s.ctxPut x va bs) := by
  unfold State.ctxPut
  dsimp only
  split
  · exact .refl s
  · exact .devWrite s _ rfl

theorem State.Writes.copyWords (s : State) (from_ dest n : Nat) : s.Writes (s.copyWords from_ dest n) :=
  .foldl _ (fun u _ => .devWrite u _ rfl) _ s

theorem State.Writes.writePages (s : State) (x k from_ : Nat) : s.Writes (s.writePages x k from_) :=
  .foldl _ (fun u _ => .ctxPut u x _ _) _ s

theorem State.Writes.writeRing (s : State) (x k : Nat) : s.Writes (s.writeRing x k) :=
  ((State.Writes.foldl _ (fun u _ => .ctxPut u x _ _) _ s).trans (.ctxPut ..)).trans (.ctxPut ..)

theorem State.Writes.writeRecord (s : State) (x k : Nat) : s.Writes (s.writeRecord x k) :=
  .foldl _ (fun u _ => .ctxPut u x _ _) _ s

theorem State.Writes.writeTables (s : State) (x : Nat) (bs : List Byte) : s.Writes (s.writeTables x bs) :=
  .foldl _ (fun _ _ => .inbound _ _ _ ⟨_, rfl⟩) _ s

end Sys2Proof.Machine
end

