-- ==== Sys2Proof/Proofs/BoundaryLedger.lean ====
section
/-! SUPPORT. Winnow's boundary (R78): what its steps leave of the iteration's number, its commits, faults and cancels, and of the task-level faults. -/
namespace Sys2Proof.Machine

/-- What of an iteration goes from one boundary to the next: its number, its commits and faults, and the CANCEL packets that have come. -/
def Winnow.ledger (w : Winnow) : Nat × List Commit × List SlotFault × List Nat := (w.iteration, w.commits, w.faults, w.cancels)

theorem Winnow.foldl_ledger {α : Type} (f : Winnow → α → Winnow) (h : ∀ w a, (f w a).ledger = w.ledger) (l : List α) (w : Winnow) :
    (l.foldl f w).ledger = w.ledger := foldl_keeps Winnow.ledger f h l w

@[simp] theorem Winnow.setReq_ledger (w : Winnow) (k : Nat) (r : Request) : (w.setReq k r).ledger = w.ledger := rfl
@[simp] theorem Winnow.release_ledger (w : Winnow) (k : Nat) : (w.release k).ledger = w.ledger := rfl
@[simp] theorem Winnow.finish_ledger (w : Winnow) (k state end_ code : Nat) : (w.finish k state end_ code).ledger = w.ledger := rfl

@[simp] theorem Winnow.retire_ledger (w : Winnow) (maxPos : Nat) (discard : Bool) (slot k : Nat) : (w.retire maxPos discard slot k).ledger = w.ledger := by
  unfold Winnow.retire
  split
  · rfl
  · simp only [apply_ite Winnow.ledger, Winnow.finish_ledger, Winnow.setReq_ledger, ite_self]

@[simp] theorem Winnow.takeIn_ledger (slots rows n : Nat) (w : Winnow) : (w.takeIn slots rows n).ledger = w.ledger := by
  induction n generalizing w with
  | zero => rfl
  | succ n ih =>
    unfold Winnow.takeIn
    split
    · rfl
    split
    · rfl
    · exact (ih _).trans rfl

@[simp] theorem Winnow.allocateRows_ledger (w : Winnow) (rows : Nat) : (w.allocateRows rows).ledger = w.ledger := by
  refine foldl_keeps (fun a : Winnow × Nat => a.1.ledger) _ (fun _ _ => ?_) _ _
  rfl

theorem Winnow.assign_ledger (w : Winnow) : w.assign.ledger = w.ledger := by
  refine foldl_keeps (fun a : Winnow × Nat => a.1.ledger) _ (fun _ _ => ?_) _ _
  rfl

theorem Winnow.mark_ledger (w : Winnow) (tick : Nat) : (w.mark tick).ledger = w.ledger := by
  refine (Winnow.foldl_ledger _ (fun _ _ => ?_) _ _).trans (Winnow.foldl_ledger _ (fun _ _ => ?_) _ _)
  · rfl
  · rfl

/-- The CANCEL packets are taken. -/
theorem Winnow.takeCancels_ledger (w : Winnow) : w.takeCancels.ledger = (w.iteration, w.commits, w.faults, []) := by
  unfold Winnow.takeCancels
  refine (Winnow.foldl_ledger _ (fun v k => ?_) _ _).trans rfl
  dsimp only
  split <;> rfl

/-! The machine. -/

/-- The ledger of a context's Winnow, with the time and the task-level faults that count against the context (R340). -/
def State.ledger (s : State) (x : Nat) : Nat × (Nat × List Commit × List SlotFault × List Nat) × Option Nat × Nat :=
  (s.gtick, (s.winnow x).ledger, (s.ctx x).taskFault, (s.ctx x).taskFaults)

@[simp] theorem State.winnow_modWinnow (s : State) (x : Nat) (f : Winnow → Winnow) : (s.modWinnow x f).winnow x = f (s.winnow x) := by
  simp [State.winnow, State.modWinnow]

theorem State.ledger_modWinnow (s : State) (x : Nat) (f : Winnow → Winnow) :
    (s.modWinnow x f).ledger x = (s.gtick, (f (s.winnow x)).ledger, (s.ctx x).taskFault, (s.ctx x).taskFaults) := by
  simp only [State.ledger, State.winnow_modWinnow]
  simp [State.modWinnow]
  rfl

theorem State.ledger_modWinnow_same (s : State) (x : Nat) (f : Winnow → Winnow) (h : (f (s.winnow x)).ledger = (s.winnow x).ledger) :
    (s.modWinnow x f).ledger x = s.ledger x := by
  rw [State.ledger_modWinnow, h]
  rfl

theorem State.Writes.ledger {s u : State} (h : s.Writes u) (x : Nat) : u.ledger x = s.ledger x := by
  simp only [State.ledger, State.winnow, h.ctx, h.gtick]

theorem State.record_ledger (s : State) (x y : Nat) (r : FaultRecord) : (s.record y r).ledger x = s.ledger x := by
  obtain ⟨rs, h⟩ := s.record_ctx_any y r x
  simp only [State.ledger, State.winnow, h, State.record_gtick]

theorem State.winnowFault_ledger (s : State) (x k code : Nat) : (s.winnowFault x k code).ledger x = s.ledger x := State.record_ledger ..

theorem State.foldl_ledger {α : Type} (x : Nat) (f : State → α → State) (h : ∀ s a, (f s a).ledger x = s.ledger x) (l : List α) (s : State) :
    (l.foldl f s).ledger x = s.ledger x := foldl_keeps (fun s => s.ledger x) f h l s

theorem State.recheck_ledger (s : State) (x : Nat) : (s.recheck x).ledger x = s.ledger x := by
  unfold State.recheck
  dsimp only
  split
  · rfl
  · refine (State.foldl_ledger x _ (fun u k => ?_) _ _).trans (s.ledger_modWinnow_same x _ rfl)
    exact (State.winnowFault_ledger ..).trans (u.ledger_modWinnow_same x _ (Winnow.finish_ledger ..))

/-- After the snapshot no CANCEL packet is left to take. -/
theorem State.snapshot_ledger (s : State) (x : Nat) : (s.snapshot x).ledger x =
    (s.gtick, ((s.winnow x).iteration, (s.winnow x).commits, (s.winnow x).faults, []), (s.ctx x).taskFault, (s.ctx x).taskFaults) := by
  have hlive (ks : List Nat) (f : Winnow → Nat → Winnow) (hf : ∀ w k, (f w k).ledger = w.ledger) :
      ((ks.foldl f (s.winnow x)).takeCancels).ledger = ((s.winnow x).iteration, (s.winnow x).commits, (s.winnow x).faults, []) := by
    have h := Winnow.foldl_ledger f hf ks (s.winnow x)
    simp only [Winnow.ledger, Prod.mk.injEq] at h
    rw [Winnow.takeCancels_ledger, h.1, h.2.1, h.2.2.1]
  unfold State.snapshot
  dsimp only
  rw [State.ledger_modWinnow, hlive]
  intro w k
  split <;> rfl

/-- After the retirement the commits and faults of the iteration are gone. -/
theorem State.retire_ledger (s : State) (x : Nat) : (s.retire x).ledger x =
    (s.gtick, ((s.winnow x).iteration, [], [], (s.winnow x).cancels), (s.ctx x).taskFault, (s.ctx x).taskFaults) := by
  unfold State.retire
  dsimp only
  refine (State.foldl_ledger x _ (fun u e => State.record_ledger ..) _ _).trans ?_
  rw [State.ledger_modWinnow]
  generalize hv : List.foldl (fun (w : Winnow) (e : Nat × Nat) => w.retire _ _ e.1 e.2) _ _ = v
  have h : v.ledger = (s.winnow x).ledger := by
    rw [← hv]
    refine (Winnow.foldl_ledger _ (fun _ _ => Winnow.retire_ledger ..) _ _).trans (Winnow.foldl_ledger _ (fun _ _ => ?_) _ _)
    rfl
  simp only [Winnow.ledger, Prod.mk.injEq] at h ⊢
  simp only [h, and_self]

theorem State.give_ledger (s : State) (x k n : Nat) : (s.give x k n).ledger x = s.ledger x :=
  (State.Writes.ledger (.writePages ..) x).trans (s.ledger_modWinnow_same x _ rfl)

theorem State.spillOne_ledger (s : State) (x : Nat) : (s.spillOne x).ledger x = s.ledger x := by
  unfold State.spillOne
  dsimp only
  split
  · rfl
  split
  · exact s.ledger_modWinnow_same x _ rfl
  · refine (State.ledger_modWinnow_same _ x _ rfl).trans ?_
    split
    · exact State.Writes.ledger (.copyWords ..) x
    · rfl

theorem State.evict_ledger (s : State) (x k : Nat) : (s.evict x k).ledger x = s.ledger x := by
  unfold State.evict
  dsimp only
  split
  · exact s.ledger_modWinnow_same x _ ((Winnow.setReq_ledger ..).trans ((Winnow.release_ledger ..).trans (Winnow.setReq_ledger ..)))
  · refine (State.foldl_ledger x _ (fun u _ => u.spillOne_ledger x) _ _).trans ?_
    exact (State.Writes.ledger (.writePages ..) x).trans (s.ledger_modWinnow_same x _ rfl)

theorem State.allocate_ledger (s : State) (x k : Nat) : (s.allocate x k).ledger x = s.ledger x := by
  unfold State.allocate
  dsimp only
  split
  · rfl
  split
  · exact (State.winnowFault_ledger ..).trans (s.ledger_modWinnow_same x _ (Winnow.finish_ledger ..))
  split
  · exact s.give_ledger x k _
  · generalize hu : State.give (List.foldl _ _ _) x k _ = u
    have h : u.ledger x = s.ledger x := by
      rw [← hu]
      exact (State.give_ledger ..).trans ((State.foldl_ledger x _ (fun v j => v.evict_ledger x j) _ _).trans (s.give_ledger x k _))
    split
    · exact h
    split
    · exact (u.evict_ledger x k).trans h
    · exact (u.ledger_modWinnow_same x _ rfl).trans h

end Sys2Proof.Machine
end

