-- ==== Sys2Proof/Proofs/WinnowPublish.lean ====
section
/-! SUPPORT. Winnow's publish (R87): what is written, and what the context keeps of the iteration. -/
namespace Sys2Proof.Machine

/-- The requests that a publish is to write. -/
def Winnow.changed (w : Winnow) : List Nat := (w.reqs.filter fun e => e.2.changed).map (·.1)

/-- The machine as a publish begins: its batch is described. -/
def State.described (s : State) (x : Nat) : State := s.modWinnow x fun w => (w.assign.mark s.gtick).describe s.gtick

/-- The machine when the rings and the records are written. -/
def State.recordsOut (s : State) (x : Nat) : State :=
  let ks := ((s.described x).winnow x).changed
  ks.foldl (fun u r => u.writeRecord x r) (ks.foldl (fun u r => u.writeRing x r) (s.described x))

/-- The machine when the tables are written too. -/
def State.tablesOut (s : State) (x k : Nat) : State :=
  let u := s.recordsOut x
  u.writeTables x ((u.winnow x).tableBytes (u.ctx x).maxSlots (u.newCond x k) u.gtick)

/-- The requests as the publish leaves them. -/
def Winnow.settled (w : Winnow) (ks : List Nat) : Winnow :=
  ks.foldl (fun (w : Winnow) r => w.setReq r { w.req r with changed := false, tokens := [] }) { w with closing := none, copied := 0 }

/-- The context as the publish leaves it. -/
def Ctx.published (c : Ctx) (cond : W64) : Ctx :=
  { c with cond := cond, taskFaults := if c.taskFault.isSome then c.taskFaults + 1 else 0, taskFault := none }

theorem State.publish_eq (s : State) (x k : Nat) : s.publish x k =
    ((s.tablesOut x k).modWinnow x fun w => w.settled ((s.described x).winnow x).changed).modCtx x
      fun c => c.published ((s.recordsOut x).newCond x k) := rfl

theorem State.recordsOut_writes (s : State) (x : Nat) : (s.described x).Writes (s.recordsOut x) :=
  (State.Writes.foldl _ (fun u r => .writeRing u x r) _ _).trans (.foldl _ (fun u r => .writeRecord u x r) _ _)

theorem State.tablesOut_writes (s : State) (x k : Nat) : (s.described x).Writes (s.tablesOut x k) := (s.recordsOut_writes x).trans (.writeTables ..)

theorem State.ctx_described (s : State) (x : Nat) :
    (s.described x).ctx x = { s.ctx x with winnow := ((s.winnow x).assign.mark s.gtick).describe s.gtick } := State.ctx_modCtx_same ..

/-- The context after a publish. -/
theorem State.publish_ctx (s : State) (x k : Nat) : ∃ ks cond, (s.publish x k).ctx x =
    ({ s.ctx x with winnow := (((s.winnow x).assign.mark s.gtick).describe s.gtick).settled ks } : Ctx).published cond := by
  rw [s.publish_eq, State.ctx_modCtx_same, State.modWinnow, State.ctx_modCtx_same, (s.tablesOut_writes x k).ctx, s.ctx_described]
  exact ⟨_, _, rfl⟩

theorem Winnow.settled_keeps (w : Winnow) (ks : List Nat) : (w.settled ks).ledger = w.ledger ∧ (w.settled ks).published = w.published ∧
    (w.settled ks).publishTick = w.publishTick ∧ (w.settled ks).closing = none := by
  have hkeep {α : Type} (g : Winnow → α) (hg : ∀ (v : Winnow) k r, g (v.setReq k r) = g v) :
      g (w.settled ks) = g { w with closing := none, copied := 0 } := foldl_keeps g _ (fun _ _ => hg ..) ks _
  exact ⟨hkeep Winnow.ledger fun _ _ _ => rfl, hkeep Winnow.published fun _ _ _ => rfl, hkeep Winnow.publishTick fun _ _ _ => rfl,
    hkeep Winnow.closing fun _ _ _ => rfl⟩

/-- The description of a batch is the next iteration's. -/
theorem Winnow.describe_ledger (w : Winnow) (tick : Nat) : (w.describe tick).ledger = (w.iteration + 1, w.commits, w.faults, w.cancels) ∧
    (w.describe tick).published = w.iteration + 1 ∧ (w.describe tick).publishTick = tick := ⟨rfl, rfl, rfl⟩

/-- Only the task-level fault is counted, and gone. -/
theorem Ctx.published_fields (c : Ctx) (w : Winnow) (cond : W64) : (({ c with winnow := w } : Ctx).published cond).winnow = w ∧
    (({ c with winnow := w } : Ctx).published cond).taskFault = none ∧
    (({ c with winnow := w } : Ctx).published cond).taskFaults = if c.taskFault.isSome then c.taskFaults + 1 else 0 := ⟨rfl, rfl, rfl⟩

/-- What a publish makes of the iteration: the next one, with nothing closing. -/
theorem State.publish_ledger (s : State) (x k : Nat) :
    let c := (s.publish x k).ctx x
    c.winnow.ledger = ((s.winnow x).iteration + 1, (s.winnow x).commits, (s.winnow x).faults, (s.winnow x).cancels) ∧
      c.winnow.published = (s.winnow x).iteration + 1 ∧ c.winnow.publishTick = s.gtick ∧ c.winnow.closing = none ∧
      c.taskFault = none ∧ c.taskFaults = if (s.ctx x).taskFault.isSome then (s.ctx x).taskFaults + 1 else 0 := by
  intro c
  obtain ⟨ks, cond, hc⟩ := s.publish_ctx x k
  have hmark : ((s.winnow x).assign.mark s.gtick).ledger = (s.winnow x).ledger := (Winnow.mark_ledger ..).trans (Winnow.assign_ledger _)
  generalize (s.winnow x).assign.mark s.gtick = v at hc hmark
  obtain ⟨hdescribed, hpub, htick⟩ := v.describe_ledger s.gtick
  generalize v.describe s.gtick = d at hc hdescribed hpub htick
  obtain ⟨hledger, hpubd, htickd, hclosing⟩ := d.settled_keeps ks
  obtain ⟨hw, hf, hfs⟩ := (s.ctx x).published_fields (d.settled ks) cond
  simp only [Winnow.ledger, Prod.mk.injEq] at hmark
  obtain ⟨hit, hcom, hflt, hcan⟩ := hmark
  rw [hit, hcom, hflt, hcan] at hdescribed
  rw [hit] at hpub
  rw [← hc] at hw hf hfs
  rw [← hw] at hledger hpubd htickd hclosing
  exact ⟨hledger.trans hdescribed, hpubd.trans hpub, htickd.trans htick, hclosing, hf, hfs⟩

/-! The boundary as a whole (R78). -/

/-- The machine as the boundary of a LAUNCH comes to its publish. -/
def State.allocated (s : State) (x : Nat) (l : Launch) : State :=
  let s := (((s.recheck x).snapshot x).retire x).modWinnow x fun w => (w.takeIn l.slots l.rows w.reqs.length).allocateRows l.rows
  (s.winnow x).passTwo.foldl (fun (s : State) r => s.allocate x r) s

theorem State.allocated_ledger (s : State) (x : Nat) (l : Launch) : (s.allocated x l).ledger x =
    (s.gtick, ((s.winnow x).iteration, [], [], []), (s.ctx x).taskFault, (s.ctx x).taskFaults) := by
  have hrecheck := s.recheck_ledger x
  have hsnapshot := (s.recheck x).snapshot_ledger x
  have hretire := ((s.recheck x).snapshot x).retire_ledger x
  simp only [State.ledger, Winnow.ledger, Prod.mk.injEq] at hrecheck hsnapshot
  obtain ⟨h1, ⟨h2, -, -, -⟩, h6, h7⟩ := hrecheck
  obtain ⟨k1, ⟨k2, -, -, k5⟩, k6, k7⟩ := hsnapshot
  refine (State.foldl_ledger x _ (fun u k => u.allocate_ledger x k) _ _).trans ?_
  refine (State.ledger_modWinnow_same _ x _ ((Winnow.allocateRows_ledger ..).trans (Winnow.takeIn_ledger ..))).trans (hretire.trans ?_)
  rw [k1, k2, k5, k6, k7, h1, h2, h6, h7]

theorem State.wakeWaits_ctx (s : State) (x : Nat) : s.wakeWaits.ctx x = s.ctx x := by
  obtain ⟨qs, ag, n, h⟩ := (State.GoesOn.wakeWaits s 0).rest
  rw [h]
  rfl

/-- The walk goes on, and a halt that waited for the boundary is to come. -/
def State.boundaryOver (s : State) (x : Nat) : State :=
  let s := s.wakeWaits.walkNode x
  if (s.ctx x).part = .halting then s.after 0 .partitionHalt [x] else s

theorem State.boundaryOver_ctx (s : State) (x : Nat) : ∃ ch ns pr nd, (s.boundaryOver x).ctx x =
    { s.ctx x with chosen := ch, nextStart := ns, prev := pr, node := nd } := by
  obtain ⟨ch, ns, pr, nd, h⟩ := s.wakeWaits.walkNode_ctx x
  rw [s.wakeWaits_ctx] at h
  refine ⟨ch, ns, pr, nd, ?_⟩
  rw [← h]
  unfold State.boundaryOver
  dsimp only
  split <;> rfl

/-- WINNOW_BOUNDARY is the publish, and then the walk goes on. -/
theorem State.winnowBoundary_eq (s : State) (x k : Nat) (l : Launch) (hk : (s.ctx x).winnow.closing = some k) (hl : (s.ctx x).launch = some l) :
    s.winnowBoundary x = ((s.allocated x l).publish x k).boundaryOver x := by
  unfold State.winnowBoundary
  dsimp only
  rw [hk, hl]
  rfl

end Sys2Proof.Machine
end

