-- ==== Sys2Proof/Proofs/BoundariesReleaseAndPublish.lean ====
section
/-! O42: boundary signals, phase releases and Winnow's boundary. -/
namespace Sys2Proof.Machine

/-! The end of a phase's hold. -/

theorem Seq.invalidate_valid (y : Seq) : ∀ l ∈ (y.invalidate false).l1, l.valid = 0 := by
  intro l hl
  obtain ⟨k, -, rfl⟩ := List.mem_map.1 hl
  simp

/-- The sequencer goes on in the new phase. -/
theorem State.endHold_phase (s : State) (t q : Nat) (h : Hold) (hp : h.phase = true)
    (hc : ∀ c < 2, ∀ k ∈ (s.queueOf t q c).cmds, k.pages = none → (s.seq t q).clock + (s.seq t q).slip ≤ k.start) :
    ∃ y z, s.endHold t q h = (s.setSeq t q y).setSeq t q z ∧ z.hold = none ∧ z.clock = (s.seq t q).clock + (s.seq t q).slip ∧ z.slip = 0 ∧
      ∀ l ∈ z.l1, l.valid = 0 := by
  unfold State.endHold State.modSeq
  rw [s.absorbSlip_plain t q hc, State.seq_setSeq_same]
  dsimp only
  rw [if_pos hp]
  exact ⟨_, _, rfl, rfl, rfl, rfl, Seq.invalidate_valid _⟩

/-- PHASE_RELEASE of one phase that is over, with one entry staged. -/
theorem State.phaseRelease_one (s : State) (t q : Nat) (h : Hold) (d : Nat) (e : StagingEntry) (ho : s.holdsOver = [(t, q, h)]) (hp : h.phase = true) (hd : d < 4)
    (he : (s.die d).staging = [e]) (hne : ∀ j < 4, j ≠ d → (s.die j).staging = []) (hparty : e.party = 2 * t + q) (ha : e.write.add = false)
    (hl : s.peerLost e.write = false) (hw : e.wrong = []) (hset : e.write.settled = []) (hf : ∀ f ∈ (s.seq t q).flights, f.heldStore h = none)
    (hc : ∀ c < 2, ∀ k ∈ (s.queueOf t q c).cmds, k.pages = none → (s.seq t q).clock + (s.seq t q).slip ≤ k.start) (hb : e.write.bytes ≠ [])
    (hi : s.ingress = []) (hm : s.migrations = []) :
    s.phaseRelease.mem = s.mem ∧ (s.phaseRelease.seq t q).hold = none ∧
      (s.phaseRelease.seq t q).clock = (s.seq t q).clock + (s.seq t q).slip ∧ (s.phaseRelease.seq t q).slip = 0 ∧
      (∀ l ∈ (s.phaseRelease.seq t q).l1, l.valid = 0) ∧
      if e.write.scope ≤ h.scope ∨ (e.write.scope = 6 ∧ 4 ≤ h.scope) then s.phaseRelease.forward = s.forward ++ [e] ∧ (s.phaseRelease.die d).staging = []
      else s.phaseRelease.forward = s.forward ∧ (s.phaseRelease.die d).staging = [e] := by
  have hspent : e.spent = false := by
    obtain ⟨b, bs, hbs⟩ := List.exists_cons_of_ne_nil hb
    simp [StagingEntry.spent, hset, hbs]
  have hphases : s.holdsOver.filter (fun e => e.2.2.phase) = [(t, q, h)] := by simp [ho, hp]
  have hsel : phaseSelects (s.holdsOver.filter fun e => e.2.2.phase) e = true ↔ (e.write.scope ≤ h.scope ∨ (e.write.scope = 6 ∧ 4 ≤ h.scope)) := by
    rw [hphases]
    simp [phaseSelects, scopeOver, hparty, seqNumber, releases]
  have hstores : ∀ k ∈ s.holdsOver, ∀ f ∈ (s.seq k.1 k.2.1).flights, f.heldStore k.2.2 = none := by
    rw [ho]
    rintro k hk
    cases List.mem_singleton.1 hk
    exact hf
  by_cases hscope : e.write.scope ≤ h.scope ∨ (e.write.scope = 6 ∧ 4 ≤ h.scope)
  · obtain ⟨ag, n, hu⟩ := s.releaseWhere_one _ d e hd he hne hspent hl hw ha hm (hsel.2 hscope)
    obtain ⟨y, z, hend, hhold, hclock, hslip, hl1⟩ := State.endHold_phase
      { s.setDie d { s.die d with staging := [] } with agenda := ag, free := n, forward := s.forward ++ [e] } t q h hp hc
    have hrel := s.phaseRelease_quiet _ hi hm hstores hu rfl rfl
    rw [ho, List.foldl_cons, List.foldl_nil, hend] at hrel
    rw [if_pos hscope, hrel, State.seq_setSeq_same]
    refine ⟨rfl, hhold, hclock, hslip, hl1, rfl, ?_⟩
    show ((s.setDie d { s.die d with staging := [] }).die d).staging = []
    rw [State.die_setDie, if_pos rfl]
  · have hu := s.releaseWhere_one_kept (phaseSelects (s.holdsOver.filter fun e => e.2.2.phase)) d e hd he hne hspent (by rw [← Bool.not_eq_true, hsel]; exact hscope)
    obtain ⟨y, z, hend, hhold, hclock, hslip, hl1⟩ := s.endHold_phase t q h hp hc
    have hrel := s.phaseRelease_quiet _ hi hm hstores hu rfl rfl
    rw [ho, List.foldl_cons, List.foldl_nil, hend] at hrel
    rw [if_neg hscope, hrel, State.seq_setSeq_same]
    exact ⟨rfl, hhold, hclock, hslip, hl1, rfl, he⟩

/-! Winnow's boundary (R78, R87). -/

/-- What Winnow's boundary leaves of the iteration that ends. -/
theorem State.boundary_publishes (s : State) (x k : Nat) (l : Launch) :
    let u := ((s.allocated x l).publish x k).boundaryOver x
    let w := (u.ctx x).winnow
    w.iteration = (s.ctx x).winnow.iteration + 1 ∧ w.published = (s.ctx x).winnow.iteration + 1 ∧ w.publishTick = s.gtick ∧
      w.closing = none ∧ w.commits = [] ∧ w.faults = [] ∧ w.cancels = [] ∧ (u.ctx x).taskFault = none ∧
      (u.ctx x).taskFaults = if (s.ctx x).taskFault.isSome then (s.ctx x).taskFaults + 1 else 0 := by
  have hall := s.allocated_ledger x l
  generalize s.allocated x l = v at hall
  obtain ⟨hledger, hpub, htick, hclosing, hfault, hfaults⟩ := v.publish_ledger x k
  generalize v.publish x k = p at hledger hpub htick hclosing hfault hfaults
  obtain ⟨ch, ns, pr, nd, hc⟩ := p.boundaryOver_ctx x
  simp only [State.ledger, Winnow.ledger, Prod.mk.injEq] at hall hledger
  obtain ⟨h1, ⟨h2, h3, h4, h5⟩, h6, h7⟩ := hall
  obtain ⟨k2, k3, k4, k5⟩ := hledger
  rw [h6, h7] at hfaults
  dsimp only
  rw [hc]
  exact ⟨k2.trans (congrArg (· + 1) h2), hpub.trans (congrArg (· + 1) h2), htick.trans h1, hclosing, k3.trans h3, k4.trans h4, k5.trans h5, hfault, hfaults⟩

/-- Settles O42. -/
theorem boundariesReleaseAndPublish : Obligations.BoundariesReleaseAndPublish := by
  unfold Obligations.BoundariesReleaseAndPublish
  intro s t q y
  refine ⟨fun h hh hc => ?_, fun h => ?_, fun hst hi hm hf => ?_, ?_, ?_⟩
  · refine congrArg Host.Outcome.next (s.signal_clean t q h ?_)
    obtain hp | ⟨hs, hl, hf⟩ := hc
    · exact ⟨hh, fun h => absurd h (by simp [hp]), fun h => absurd h (by simp [hp]), fun h => absurd h (by simp [hp])⟩
    · exact ⟨hh, fun _ => hl, fun _ => hf, fun _ => hs⟩
  · obtain ⟨u, r, hu, hr⟩ := s.signal_missed t q h
    exact ⟨u, r, congrArg Host.Outcome.next hu, hr⟩
  · exact congrArg Host.Outcome.next (s.phaseRelease_quiet s hi hm hf (s.releaseWhere_nothing _ hst) rfl rfl)
  · intro t q h d e ho hp hd he hne hparty ha hl hw hset hf hc hb hi hm
    exact ⟨_, rfl, s.phaseRelease_one t q h d e ho hp hd he hne hparty ha hl hw hset hf hc hb hi hm⟩
  · intro x k l hx hk hl
    subst hx
    exact ⟨_, congrArg Host.Outcome.next (s.winnowBoundary_eq _ k l hk hl), s.boundary_publishes _ k l⟩

end Sys2Proof.Machine
end

