-- ==== Sys2Proof/Proofs/WinnowRows.lean ====
section
/-! SUPPORT. Winnow's orders, rows and quantities (R44, R81, R82, R86). -/
namespace Sys2Proof.Machine

theorem nbit_eq_testBit (v k : Nat) : nbit v k = v.testBit k := by
  rw [Nat.testBit_eq_decide_div_mod_eq]
  rfl

/-! Sorting by a key. -/

/-- What is sorted by a key, the values alone: a permutation of them, in the order of their keys where the value tells the key. -/
theorem sortKey_values {α β : Type} (key : α → Nat) (val : α → β) (g : β → Nat) (xs : List α) (hg : ∀ x ∈ xs, g (val x) = key x) :
    ((sortKey [] (xs.map fun x => (key x, val x))).map (·.2)).Perm (xs.map val) ∧
      ((sortKey [] (xs.map fun x => (key x, val x))).map (·.2)).Pairwise fun a b => g a ≤ g b := by
  have hperm : (sortKey [] (xs.map fun x => (key x, val x))).Perm (xs.map fun x => (key x, val x)) := sortKey_perm [] _
  have hkey (e : Nat × β) (he : e ∈ sortKey [] (xs.map fun x => (key x, val x))) : e.1 = g e.2 := by
    obtain ⟨x, hx, rfl⟩ := List.mem_map.1 (hperm.mem_iff.1 he)
    exact (hg x hx).symm
  refine ⟨?_, ?_⟩
  · simpa [List.map_map, Function.comp_def] using hperm.map (·.2)
  · rw [List.pairwise_map]
    refine (sortKey_sorted List.Pairwise.nil _).imp_of_mem fun {d e} hd he h => ?_
    rwa [hkey d hd, hkey e he] at h

/-! The requests. -/

theorem mget_of_mem {α : Type} (d : α) {m : Map α} (hn : (m.map (·.1)).Nodup) {e : Nat × α} (he : e ∈ m) : mget d m e.1 = e.2 := by
  induction m with
  | nil => cases he
  | cons f m ih =>
    obtain ⟨hf, hn⟩ := List.nodup_cons.1 hn
    cases he with
    | head => simp [mget]
    | tail _ he =>
      have hne : f.1 ≠ e.1 := fun h => hf (List.mem_map.2 ⟨e, he, h.symm⟩)
      simp [mget, hne, ih hn he]

/-- The requests in a slot, with their records. -/
def Winnow.actives (w : Winnow) : List (Nat × Request) := w.reqs.filter fun e => e.2.active

theorem Winnow.req_of_active {w : Winnow} (hn : (w.reqs.map (·.1)).Nodup) {e : Nat × Request} (he : e ∈ w.actives) : w.req e.1 = e.2 :=
  mget_of_mem ({} : Request) hn (List.mem_of_mem_filter he)

theorem Winnow.req_setReq (w : Winnow) (k j : Nat) (r : Request) : (w.setReq k r).req j = if k = j then r else w.req j := by
  simp [Winnow.req, Winnow.setReq, mget_mset]

theorem Winnow.actives_nodup {w : Winnow} (hn : (w.reqs.map (·.1)).Nodup) : (w.actives.map (·.1)).Nodup :=
  hn.sublist (List.filter_sublist.map _)

/-! Slots (R81). -/

theorem Winnow.bySlot_perm (w : Winnow) : w.bySlot.Perm (w.actives.map fun e => (e.2.slot, e.1)) := sortKey_perm [] _

theorem Winnow.bySlot_sorted (w : Winnow) : w.bySlot.Pairwise fun a b => a.1 ≤ b.1 := sortKey_sorted List.Pairwise.nil _

theorem Winnow.bySlot_records (w : Winnow) : (w.bySlot.map (·.2)).Perm (w.actives.map (·.1)) := by
  simpa [List.map_map, Function.comp_def] using w.bySlot_perm.map (·.2)

theorem Winnow.bySlot_slot {w : Winnow} (hn : (w.reqs.map (·.1)).Nodup) {e : Nat × Nat} (he : e ∈ w.bySlot) : e.1 = (w.req e.2).slot := by
  obtain ⟨k, hk, rfl⟩ := List.mem_map.1 (w.bySlot_perm.mem_iff.1 he)
  rw [Winnow.req_of_active hn hk]

/-- The order of pass 2: class, then slot. -/
theorem Winnow.passTwo_order {w : Winnow} (hn : (w.reqs.map (·.1)).Nodup) (hs : ∀ e ∈ w.actives, e.2.slot < 2 ^ 16) :
    w.passTwo.Perm (w.actives.map (·.1)) ∧ w.passTwo.Pairwise fun a b => (w.req a).class_ < (w.req b).class_ ∨
      ((w.req a).class_ = (w.req b).class_ ∧ (w.req a).slot ≤ (w.req b).slot) := by
  obtain ⟨hperm, hsorted⟩ := sortKey_values (fun e : Nat × Nat => (w.req e.2).class_ * 65536 + e.1) (·.2)
    (fun k => (w.req k).class_ * 65536 + (w.req k).slot) w.bySlot fun e he => by rw [Winnow.bySlot_slot hn he]
  have hall : w.passTwo.Perm (w.actives.map (·.1)) := hperm.trans w.bySlot_records
  have hslot (k : Nat) (hk : k ∈ w.passTwo) : (w.req k).slot < 65536 := by
    obtain ⟨e, he, rfl⟩ := List.mem_map.1 (hall.mem_iff.1 hk)
    rw [Winnow.req_of_active hn he]
    exact hs e he
  refine ⟨hall, List.Pairwise.imp_of_mem (fun {a b} ha hb h => ?_) hsorted⟩
  have := hslot a ha
  have := hslot b hb
  omega

/-! Rows (R81). -/

/-- One request gets its row, and of the budget what it still needs. -/
def Winnow.giveRows (a : Winnow × Nat) (k : Nat) : Winnow × Nat :=
  (a.1.setReq k { a.1.req k with rows := 1 + min ((a.1.req k).rowNeed - 1) a.2 }, a.2 - min ((a.1.req k).rowNeed - 1) a.2)

theorem Winnow.allocateRows_eq (w : Winnow) (rows : Nat) : w.allocateRows rows = (w.passTwo.foldl Winnow.giveRows (w, rows - w.passTwo.length)).1 := rfl

theorem Winnow.foldl_giveRows_other {k : Nat} {ks : List Nat} (hk : k ∉ ks) (a : Winnow × Nat) : (ks.foldl Winnow.giveRows a).1.req k = a.1.req k := by
  induction ks generalizing a with
  | nil => rfl
  | cons j ks ih =>
    have hne : j ≠ k := fun h => hk (h ▸ List.mem_cons_self)
    rw [List.foldl_cons, ih fun h => hk (.tail _ h), Winnow.giveRows, Winnow.req_setReq, if_neg hne]

theorem Winnow.foldl_giveRows {ks : List Nat} (hn : ks.Nodup) (a : Winnow × Nat) (i k : Nat) (hi : ks[i]? = some k) :
    (ks.foldl Winnow.giveRows a).1.req k = { a.1.req k with
      rows := 1 + min ((a.1.req k).rowNeed - 1) (a.2 - ((List.range i).map fun j => ((ks.foldl Winnow.giveRows a).1.req (ks.getD j 0)).rows - 1).sum) } := by
  induction ks generalizing a i with
  | nil => cases hi
  | cons j ks ih =>
    obtain ⟨hj, hn⟩ := List.nodup_cons.1 hn
    have hfirst : (ks.foldl Winnow.giveRows (Winnow.giveRows a j)).1.req j = { a.1.req j with rows := 1 + min ((a.1.req j).rowNeed - 1) a.2 } := by
      rw [Winnow.foldl_giveRows_other hj, Winnow.giveRows, Winnow.req_setReq, if_pos rfl]
    rw [List.foldl_cons]
    cases i with
    | zero =>
      cases hi
      simpa using hfirst
    | succ i =>
      have hi : ks[i]? = some k := hi
      have hne : j ≠ k := fun h => hj (h ▸ List.mem_of_getElem? hi)
      have hsame : (Winnow.giveRows a j).1.req k = a.1.req k := by rw [Winnow.giveRows, Winnow.req_setReq, if_neg hne]
      rw [ih hn _ i hi, hsame, List.range_succ_eq_map, List.map_cons, List.map_map, List.sum_cons, List.getD_cons_zero, hfirst]
      simp only [Winnow.giveRows, Function.comp_def, Nat.succ_eq_add_one, List.getD_cons_succ, Nat.add_sub_cancel_left, Nat.sub_sub]

theorem Winnow.passTwo_nodup {w : Winnow} (hn : (w.reqs.map (·.1)).Nodup) (hs : ∀ e ∈ w.actives, e.2.slot < 2 ^ 16) : w.passTwo.Nodup :=
  (w.passTwo_order hn hs).1.nodup_iff.2 (Winnow.actives_nodup hn)

/-! The eviction order (R82). -/

theorem Request.evictKey_le {r q : Request} {a b : Nat} (hr : r.id < 2 ^ 64 ∧ r.deadline < 2 ^ 64 ∧ a < 2 ^ 16 ∧ r.class_ < 4 ∧ r.frames.length ≤ 2 ^ 26)
    (hq : q.id < 2 ^ 64 ∧ q.deadline < 2 ^ 64 ∧ b < 2 ^ 16 ∧ q.class_ < 4 ∧ q.frames.length ≤ 2 ^ 26) (hab : a ≠ b)
    (h : r.evictKey a ≤ q.evictKey b) :
    let due (r : Request) : Nat := if r.deadline = 0 then 2 ^ 64 - 1 else r.deadline
    q.class_ < r.class_ ∨ (r.class_ = q.class_ ∧ (due q < due r ∨ (due r = due q ∧ (q.frames.length < r.frames.length ∨
      (r.frames.length = q.frames.length ∧ (q.id < r.id ∨ (r.id = q.id ∧ b < a))))))) := by
  intro due
  have hdue (r : Request) (h : r.deadline < 2 ^ 64) : due r < 2 ^ 64 := by
    show (if r.deadline = 0 then 2 ^ 64 - 1 else r.deadline) < 2 ^ 64
    split <;> omega
  have hrd := hdue r hr.2.1
  have hqd := hdue q hq.2.1
  unfold Request.evictKey at h
  rw [Nat.min_eq_left hr.2.2.2.2, Nat.min_eq_left hq.2.2.2.2] at h
  change (3 - r.class_) * 2 ^ 180 + (2 ^ 64 - 1 - due r) * 2 ^ 112 + (2 ^ 26 - r.frames.length) * 2 ^ 84 + (2 ^ 64 - 1 - r.id) * 2 ^ 18 + (65535 - a) ≤
    (3 - q.class_) * 2 ^ 180 + (2 ^ 64 - 1 - due q) * 2 ^ 112 + (2 ^ 26 - q.frames.length) * 2 ^ 84 + (2 ^ 64 - 1 - q.id) * 2 ^ 18 + (65535 - b) at h
  generalize due r = x at *
  generalize due q = y at *
  omega

theorem Winnow.evictOrder_order {w : Winnow} (hn : (w.reqs.map (·.1)).Nodup)
    (hs : ∀ e ∈ w.actives, e.2.id < 2 ^ 64 ∧ e.2.deadline < 2 ^ 64 ∧ e.1 < 2 ^ 16 ∧ e.2.class_ < 4 ∧ e.2.frames.length ≤ 2 ^ 26) :
    let due (r : Request) : Nat := if r.deadline = 0 then 2 ^ 64 - 1 else r.deadline
    w.evictOrder.Perm (w.actives.map (·.1)) ∧ w.evictOrder.Pairwise fun a b =>
      (w.req b).class_ < (w.req a).class_ ∨ ((w.req a).class_ = (w.req b).class_ ∧ (due (w.req b) < due (w.req a) ∨ (due (w.req a) = due (w.req b) ∧
        ((w.req b).frames.length < (w.req a).frames.length ∨ ((w.req a).frames.length = (w.req b).frames.length ∧
          ((w.req b).id < (w.req a).id ∨ ((w.req a).id = (w.req b).id ∧ b < a))))))) := by
  intro due
  obtain ⟨hperm, hsorted⟩ := sortKey_values (fun e : Nat × Request => e.2.evictKey e.1) (·.1) (fun k => (w.req k).evictKey k) w.actives
    fun e he => by rw [Winnow.req_of_active hn he]
  have hperm : w.evictOrder.Perm (w.actives.map (·.1)) := hperm
  have hreq (k : Nat) (hk : k ∈ w.evictOrder) : (w.req k).id < 2 ^ 64 ∧ (w.req k).deadline < 2 ^ 64 ∧ k < 2 ^ 16 ∧ (w.req k).class_ < 4 ∧
      (w.req k).frames.length ≤ 2 ^ 26 := by
    obtain ⟨e, he, rfl⟩ := List.mem_map.1 (hperm.mem_iff.1 hk)
    rw [Winnow.req_of_active hn he]
    exact hs e he
  have hne : w.evictOrder.Pairwise (· ≠ ·) := hperm.nodup_iff.2 (Winnow.actives_nodup hn)
  refine ⟨hperm, List.Pairwise.imp_of_mem (fun {a b} ha hb h => ?_) (hsorted.and hne)⟩
  exact Request.evictKey_le (hreq a ha) (hreq b hb) h.2 h.1

theorem Request.rowNeed_eq (r : Request) : r.rowNeed =
    if r.state = 2 then min 64 ((if 0 < r.generated then r.prompt - 1 + r.generated else r.prompt) - r.position)
    else if r.flags.testBit 1 then r.width + 1 else 1 := by
  unfold Request.rowNeed Request.spec
  rw [nbit_eq_testBit]
  rfl

/-! Row starts (R86). -/

/-- A request with its start, its kind and what it is to do, from row `n` on. -/
def Request.assigned (r : Request) (n : Nat) : Request :=
  let kind := if r.state = 2 then 1 else if r.spec && 1 < r.rows then 3 else 2
  let sample := kind != 1 || (r.generated == 0 && r.position + r.rows == r.target)
  { r with rowStart := n, kind := kind, used := if kind = 3 then r.rows - 1 else 0,
           entryFlags := (if sample then 1 else 0) + (if r.first then 2 else 0), first := false, changed := true }

/-- One slot is assigned. -/
def Winnow.assignSlot (a : Winnow × Nat) (e : Nat × Nat) : Winnow × Nat :=
  (a.1.setReq e.2 ((a.1.req e.2).assigned a.2), a.2 + (a.1.req e.2).rows)

theorem Winnow.assign_eq (w : Winnow) : w.assign = (w.bySlot.foldl Winnow.assignSlot (w, 0)).1 := rfl

theorem Winnow.foldl_assignSlot_other {k : Nat} {es : List (Nat × Nat)} (hk : k ∉ es.map (·.2)) (a : Winnow × Nat) :
    (es.foldl Winnow.assignSlot a).1.req k = a.1.req k := by
  induction es generalizing a with
  | nil => rfl
  | cons e es ih =>
    rw [List.map_cons, List.mem_cons, not_or] at hk
    rw [List.foldl_cons, ih hk.2, Winnow.assignSlot, Winnow.req_setReq, if_neg (Ne.symm hk.1)]

theorem Winnow.foldl_assignSlot {es : List (Nat × Nat)} (hn : (es.map (·.2)).Nodup) (a : Winnow × Nat) (i : Nat) (e : Nat × Nat) (hi : es[i]? = some e) :
    (es.foldl Winnow.assignSlot a).1.req e.2 = (a.1.req e.2).assigned (a.2 + ((es.take i).map fun f => (a.1.req f.2).rows).sum) := by
  induction es generalizing a i with
  | nil => cases hi
  | cons f es ih =>
    rw [List.map_cons, List.nodup_cons] at hn
    obtain ⟨hf, hn⟩ := hn
    rw [List.foldl_cons]
    cases i with
    | zero =>
      cases hi
      rw [Winnow.foldl_assignSlot_other hf, Winnow.assignSlot, Winnow.req_setReq, if_pos rfl]
      rfl
    | succ i =>
      have hi : es[i]? = some e := hi
      have hsame (g : Nat × Nat) (hg : g ∈ es) : (Winnow.assignSlot a f).1.req g.2 = a.1.req g.2 := by
        have hne : f.2 ≠ g.2 := fun h => hf (h ▸ List.mem_map_of_mem hg)
        rw [Winnow.assignSlot, Winnow.req_setReq, if_neg hne]
      have htake : ((es.take i).map fun g => ((Winnow.assignSlot a f).1.req g.2).rows) = (es.take i).map fun g => (a.1.req g.2).rows :=
        List.map_congr_left fun g hg => by rw [hsame g (List.mem_of_mem_take hg)]
      rw [ih hn _ i hi, hsame e (List.mem_of_getElem? hi), htake, List.take_succ_cons, List.map_cons, List.sum_cons, ← Nat.add_assoc]
      rfl

theorem Winnow.bySlot_nodup {w : Winnow} (hn : (w.reqs.map (·.1)).Nodup) : (w.bySlot.map (·.2)).Nodup :=
  w.bySlot_records.nodup_iff.2 (Winnow.actives_nodup hn)

/-- Distinct slots stand in ascending order. -/
theorem Winnow.bySlot_strict {w : Winnow} (h : (w.actives.map (·.2.slot)).Nodup) : w.bySlot.Pairwise fun a b => a.1 < b.1 := by
  have hkeys : (w.bySlot.map (·.1)).Nodup := by
    refine (w.bySlot_perm.map (·.1)).nodup_iff.2 ?_
    rw [List.map_map]
    exact h
  exact (w.bySlot_sorted.and (List.pairwise_map.1 hkeys)).imp fun h => Nat.lt_of_le_of_ne h.1 h.2

theorem Request.assigned_eq (r : Request) (n : Nat) :
    let kind := if r.state = 2 then 1 else if r.flags.testBit 1 = true ∧ 1 < r.rows then 3 else 2
    let target := if 0 < r.generated then r.prompt - 1 + r.generated else r.prompt
    let sample : Bool := kind != 1 || (r.generated == 0 && r.position + r.rows == target)
    r.assigned n = { r with
      rowStart := n, kind := kind, used := if kind = 3 then r.rows - 1 else 0, first := false, changed := true,
      entryFlags := (if sample then 1 else 0) + (if r.first then 2 else 0) } := by
  intro kind target sample
  unfold Request.assigned Request.spec
  simp only [nbit_eq_testBit, Bool.and_eq_true, decide_eq_true_eq]
  rfl

/-! The batch's quantities (R44). -/

theorem foldl_add_eq_sum (xs : List Nat) : xs.foldl (· + ·) 0 = xs.sum := List.sum_eq_foldl.symm

theorem sum_map_ite {α : Type} (p : α → Bool) (f : α → Nat) (xs : List α) : (xs.map fun x => if p x then f x else 0).sum = ((xs.filter p).map f).sum := by
  induction xs with
  | nil => rfl
  | cons x xs ih => cases h : p x <;> simp [h, ih]

theorem foldl_max (xs : List Nat) (n : Nat) : n ≤ xs.foldl max n ∧ (∀ x ∈ xs, x ≤ xs.foldl max n) ∧ (xs.foldl max n = n ∨ xs.foldl max n ∈ xs) := by
  induction xs generalizing n with
  | nil => exact ⟨Nat.le_refl n, fun x h => absurd h List.not_mem_nil, Or.inl rfl⟩
  | cons a xs ih =>
    obtain ⟨h1, h2, h3⟩ := ih (max n a)
    refine ⟨(Nat.le_max_left n a).trans h1, fun x hx => ?_, ?_⟩
    · rcases List.mem_cons.1 hx with rfl | hx
      · exact (Nat.le_max_right n x).trans h1
      · exact h2 x hx
    · rw [List.foldl_cons]
      rcases h3 with h3 | h3
      · rw [h3]
        rcases Nat.le_total n a with h | h
        · exact .inr (by rw [Nat.max_eq_right h]; exact List.mem_cons_self)
        · exact .inl (Nat.max_eq_left h)
      · exact .inr (.tail _ h3)

/-- The largest value over a list of requests. -/
theorem foldl_max_attained {α : Type} (f : α → Nat) (xs : List α) : (∀ x ∈ xs, f x ≤ (xs.map f).foldl max 0) ∧ (xs = [] → (xs.map f).foldl max 0 = 0) ∧
    (xs ≠ [] → ∃ x ∈ xs, f x = (xs.map f).foldl max 0) := by
  obtain ⟨-, h2, h3⟩ := foldl_max (xs.map f) 0
  refine ⟨fun x hx => h2 _ (List.mem_map_of_mem hx), fun h => by rw [h]; rfl, fun h => ?_⟩
  rcases h3 with h3 | h3
  · obtain ⟨x, ys, rfl⟩ := List.exists_cons_of_ne_nil h
    exact ⟨x, .head _, Nat.le_antisymm (h2 _ List.mem_cons_self) (by rw [h3]; exact Nat.zero_le _)⟩
  · obtain ⟨x, hx, he⟩ := List.mem_map.1 h3
    exact ⟨x, hx, he⟩

/-- What the descriptor of the batch says of the requests in its slots. -/
theorem Winnow.describe_quantities (w : Winnow) (tick : Nat) :
    let u := w.describe tick
    let rs := w.bySlot.map fun e => w.req e.2
    u.q0 = w.bySlot.length ∧ u.q1 = (rs.map (·.rows)).sum ∧ u.q3 = ((rs.filter fun r => r.kind == 1).map (·.rows)).sum ∧
      (∀ r ∈ rs, r.position ≤ u.q2 ∧ r.used ≤ u.q4) ∧ (rs = [] → u.q2 = 0 ∧ u.q4 = 0) ∧
      (rs ≠ [] → (∃ r ∈ rs, r.position = u.q2) ∧ ∃ r ∈ rs, r.used = u.q4) ∧ u.iteration = w.iteration + 1 ∧ u.published = w.iteration + 1 ∧
      u.publishTick = tick ∧ u.slots = w.bySlot.map fun e => (e.1, e.2, w.req e.2) := by
  intro u rs
  have hmap (f : Request → Nat) : ((w.bySlot.map fun e => (e.1, e.2, w.req e.2)).map fun e => f e.2.2) = rs.map f := by
    simp only [rs, List.map_map, Function.comp_def]
  have hsum (f : Request → Nat) : ((w.bySlot.map fun e => (e.1, e.2, w.req e.2)).map fun e => f e.2.2).foldl (· + ·) 0 = (rs.map f).sum := by
    rw [hmap, foldl_add_eq_sum]
  have htop (f : Request → Nat) : ((w.bySlot.map fun e => (e.1, e.2, w.req e.2)).map fun e => f e.2.2).foldl max 0 = (rs.map f).foldl max 0 := by
    rw [hmap]
  have hq2 : u.q2 = (rs.map (·.position)).foldl max 0 := htop _
  have hq4 : u.q4 = (rs.map (·.used)).foldl max 0 := htop _
  obtain ⟨hle2, hnil2, hatt2⟩ := foldl_max_attained (·.position) rs
  obtain ⟨hle4, hnil4, hatt4⟩ := foldl_max_attained (·.used) rs
  rw [← hq2] at hle2 hnil2 hatt2
  rw [← hq4] at hle4 hnil4 hatt4
  have hq3 : u.q3 = (rs.map fun r => if r.kind = 1 then r.rows else 0).sum := hsum fun r => if r.kind = 1 then r.rows else 0
  refine ⟨List.length_map .., hsum (·.rows), hq3.trans ?_, fun r hr => ⟨hle2 r hr, hle4 r hr⟩, fun h => ⟨hnil2 h, hnil4 h⟩, fun h => ⟨hatt2 h, hatt4 h⟩, rfl, rfl, rfl, rfl⟩
  rw [← sum_map_ite]
  simp only [beq_iff_eq]

end Sys2Proof.Machine
end

