-- ==== Sys2Proof/Proofs/WinnowFrames.lean ====
section
/-! SUPPORT. Winnow's frames (R82, R83): what a request is given, what an eviction frees or sets aside, and whom a shortage evicts. -/
namespace Sys2Proof.Machine

/-- Entries of a request's page list are written from `from_` on. -/
def State.pagesWritten (u : State) (x pageList from_ : Nat) (fs : List Nat) : State :=
  (fs.zipIdx from_).foldl (fun u e => u.ctxPut x (pageList + 8 * e.2) (leBytes 8 e.1)) u

theorem drop_zipIdx {α : Type} (xs : List α) (n k : Nat) : (xs.zipIdx k).drop n = (xs.drop n).zipIdx (k + n) := by
  induction n generalizing xs k with
  | zero => rfl
  | succ n ih =>
    cases xs with
    | nil => rfl
    | cons x xs => rw [List.zipIdx_cons, List.drop_succ_cons, List.drop_succ_cons, ih, Nat.add_right_comm, Nat.add_assoc]

theorem State.writePage_eq (s : State) (x k i frame : Nat) :
    s.writePage x k i frame = s.ctxPut x (((s.winnow x).req k).pageList + 8 * i) (leBytes 8 frame) := rfl

theorem State.foldl_writePage (x k p : Nat) (es : List (Nat × Nat)) (s : State) (h : ((s.winnow x).req k).pageList = p) :
    es.foldl (fun (v : State) e => v.writePage x k e.2 e.1) s = es.foldl (fun v e => v.ctxPut x (p + 8 * e.2) (leBytes 8 e.1)) s := by
  induction es generalizing s with
  | nil => rw [List.foldl_nil, List.foldl_nil]
  | cons e es ih =>
    have hw : (s.writePage x k e.2 e.1).winnow x = s.winnow x := State.Writes.winnow (.ctxPut ..) x
    have hput : s.writePage x k e.2 e.1 = s.ctxPut x (p + 8 * e.2) (leBytes 8 e.1) := h ▸ s.writePage_eq x k e.2 e.1
    refine (ih (s.writePage x k e.2 e.1) ((congrArg (fun w => (Winnow.req w k).pageList) hw).trans h)).trans ?_
    rw [List.foldl_cons, hput]

/-- The writes go by the page list that the request has throughout. -/
theorem State.writePages_eq (s : State) (x k from_ : Nat) : s.writePages x k from_ =
    s.pagesWritten x ((s.winnow x).req k).pageList from_ (((s.winnow x).req k).frames.drop from_) := by
  unfold State.writePages State.pagesWritten
  rw [s.foldl_writePage x k _ _ rfl, drop_zipIdx, Nat.zero_add]

/-- A request takes free pool frames, in list order. -/
theorem State.give_eq (s : State) (x k n : Nat) :
    let v := s.winnow x
    let r := v.req k
    s.give x k n = (s.modWinnow x fun v =>
      { v.setReq k { r with frames := r.frames ++ v.freePool.take n, pages := (r.frames ++ v.freePool.take n).length, changed := true } with
        freePool := v.freePool.drop n }).pagesWritten x r.pageList r.frames.length (v.freePool.take n) := by
  intro v r
  unfold State.give
  dsimp only
  rw [State.writePages_eq, State.winnow_modWinnow]
  have hreq : Winnow.req { v.setReq k { r with frames := r.frames ++ v.freePool.take n, pages := (r.frames ++ v.freePool.take n).length, changed := true } with
      freePool := v.freePool.drop n } k = { r with frames := r.frames ++ v.freePool.take n, pages := (r.frames ++ v.freePool.take n).length, changed := true } :=
    (Winnow.req_setReq ..).trans (if_pos rfl)
  rw [hreq, List.drop_left]
  rfl

/-! Evictions (R83). -/

theorem State.modWinnow_congr (s : State) (x : Nat) (f g : Winnow → Winnow) (h : f (s.winnow x) = g (s.winnow x)) : s.modWinnow x f = s.modWinnow x g := by
  unfold State.modWinnow State.modCtx
  exact congrArg (fun w => s.setCtx x { s.ctx x with winnow := w }) h

/-- A request as its eviction leaves it, but for its frames and flags. -/
def Request.away (r : Request) : Request := { r with state := 5, slot := 0xFFFF, rank := 0xFFFF, rows := 0, kind := 0, used := 0, changed := true }

/-- The frames of a request that are no spill frames. -/
def Winnow.poolFrames (w : Winnow) (r : Request) : List Nat := r.frames.filter fun f => !w.spills.contains f

theorem Winnow.req_release (w : Winnow) (k : Nat) : (w.release k).req k = { w.req k with frames := [], spilling := [] } :=
  (Winnow.req_setReq ..).trans (if_pos rfl)

/-- Flags whose END is taken away, with LATE and SPILLED anew. -/
theorem Request.withFlags_bits (r : Request) (late spilled : Bool) :
    (r.withFlags 0 late spilled).flags % 256 = r.flags % 256 ∧ (r.withFlags 0 late spilled).flags.testBit 12 = spilled := by
  have hflags : (r.withFlags 0 late spilled).flags = r.flags % 256 + 256 * 0 + (if late then 2048 else 0) + (if spilled then 4096 else 0) := rfl
  rw [hflags, Nat.testBit_eq_decide_div_mod_eq]
  have := Nat.mod_lt r.flags (by decide : 0 < 256)
  cases late <;> cases spilled <;> simp <;> omega

/-- An evicted request that no spill frames take gives its frames back. -/
theorem State.evict_frees (s : State) (x k : Nat)
    (h : (s.winnow x).spills = [] ∨ (s.winnow x).freeSpill.length < ((s.winnow x).poolFrames ((s.winnow x).req k)).length) :
    let v := s.winnow x
    let r := v.req k
    let u := s.evict x k
    let q := (u.winnow x).req k
    { u with ctxs := s.ctxs } = s ∧ q.state = 5 ∧ q.slot = 0xFFFF ∧ q.position = 0 ∧ q.pages = 0 ∧ q.frames = [] ∧ q.flags.testBit 12 = false ∧
      (u.winnow x).freePool = v.pool.filter (fun f => decide (f ∈ v.freePool ∨ f ∈ r.frames ∨ f ∈ r.spilling.map (·.1))) := by
  intro v r u q
  have hu : u = s.modWinnow x fun _ =>
      let w := (v.setReq k r.away).release k
      w.setReq k { (w.req k).withFlags 0 r.away.late false with position := 0, pages := 0 } :=
    if_pos (by simpa [Winnow.poolFrames] using h)
  have hw : u.winnow x = ((v.setReq k r.away).release k).setReq k
      { (((v.setReq k r.away).release k).req k).withFlags 0 r.away.late false with position := 0, pages := 0 } := by
    rw [hu, State.winnow_modWinnow]
  have haway : ((v.setReq k r.away).release k).req k = { r.away with frames := [], spilling := [] } := by
    rw [Winnow.req_release, Winnow.req_setReq, if_pos rfl]
  have hq : q = { ({ r.away with frames := [], spilling := [] } : Request).withFlags 0 r.away.late false with position := 0, pages := 0 } := by
    show (u.winnow x).req k = _
    rw [hw, Winnow.req_setReq, if_pos rfl, haway]
  refine ⟨by rw [hu]; rfl, (congrArg Request.state hq :), (congrArg Request.slot hq :), (congrArg Request.position hq :),
    (congrArg Request.pages hq :), (congrArg Request.frames hq :), ?_, ?_⟩
  · rw [hq]
    exact (Request.withFlags_bits _ _ false).2
  · rw [hw]
    show v.pool.filter (fun f => v.freePool.contains f || (((v.setReq k r.away).req k).frames ++ ((v.setReq k r.away).req k).spilling.map (·.1)).contains f) = _
    rw [Winnow.req_setReq, if_pos rfl]
    refine List.filter_congr fun f _ => ?_
    rw [List.contains_eq_mem, List.contains_eq_mem, ← Bool.decide_or]
    exact decide_eq_decide.2 (or_congr Iff.rfl List.mem_append)

/-! Spill frames. -/

/-- Each pool frame gets the next free spill frame; the others stay. -/
theorem spillPlan_pairs (spills fs free : List Nat) (h : (fs.filter fun f => !spills.contains f).length ≤ free.length) :
    (spillPlan spills fs free).2 = (fs.filter fun f => !spills.contains f).zip free ∧ (spillPlan spills fs free).1.length = fs.length ∧
      ∀ i f, fs[i]? = some f → (spillPlan spills fs free).1[i]? = if spills.contains f then some f
        else free[((fs.take i).filter fun g => !spills.contains g).length]? := by
  induction fs generalizing free with
  | nil => exact ⟨rfl, rfl, fun i f h => by simp at h⟩
  | cons a fs ih =>
    by_cases ha : spills.contains a = true
    · have hplan : spillPlan spills (a :: fs) free = (a :: (spillPlan spills fs free).1, (spillPlan spills fs free).2) := by
        rw [spillPlan, if_pos ha]
      have hfilter (l : List Nat) : (a :: l).filter (fun f => !spills.contains f) = l.filter fun f => !spills.contains f :=
        List.filter_cons_of_neg (by rw [ha]; decide)
      rw [hfilter] at h ⊢
      obtain ⟨h1, h2, h3⟩ := ih free h
      rw [hplan]
      refine ⟨h1, congrArg (· + 1) h2, fun i f hi => ?_⟩
      cases i with
      | zero => cases hi; exact (if_pos ha).symm
      | succ i =>
        rw [List.take_succ_cons, hfilter]
        exact h3 i f hi
    · have hfilter (l : List Nat) : (a :: l).filter (fun f => !spills.contains f) = a :: l.filter fun f => !spills.contains f :=
        List.filter_cons_of_pos (by rw [Bool.eq_false_iff.2 ha]; rfl)
      rw [hfilter] at h ⊢
      cases free with
      | nil => exact absurd h (Nat.not_succ_le_zero _)
      | cons b free =>
        have hplan : spillPlan spills (a :: fs) (b :: free) = (b :: (spillPlan spills fs free).1, (a, b) :: (spillPlan spills fs free).2) := by
          rw [spillPlan, if_neg ha]
          rfl
        obtain ⟨h1, h2, h3⟩ := ih free (Nat.le_of_succ_le_succ h)
        rw [hplan]
        refine ⟨congrArg ((a, b) :: ·) h1, congrArg (· + 1) h2, fun i f hi => ?_⟩
        cases i with
        | zero => cases hi; exact (if_neg ha).symm
        | succ i =>
          rw [List.take_succ_cons, hfilter, List.length_cons, List.getElem?_cons_succ, List.getElem?_cons_succ]
          exact h3 i f hi

/-- A request that spill frames take, as its eviction leaves it. -/
def Winnow.spilled (w : Winnow) (r : Request) : Request :=
  { r.away.withFlags 0 r.away.late true with
    frames := (spillPlan w.spills r.frames w.freeSpill).1, spilling := (spillPlan w.spills r.frames w.freeSpill).2 }

/-- Winnow's state once spill frames take a request. -/
def Winnow.setAside (w : Winnow) (k : Nat) : Winnow :=
  { w.setReq k (w.spilled (w.req k)) with
    freeSpill := w.freeSpill.drop (w.poolFrames (w.req k)).length,
    spillQueue := w.spillQueue ++ (if (w.spilled (w.req k)).spilling.isEmpty then [] else [k]) }

theorem Winnow.req_setAside (w : Winnow) (k : Nat) : (w.setAside k).req k = w.spilled (w.req k) := (Winnow.req_setReq ..).trans (if_pos rfl)

theorem State.evict_setAside (s : State) (x k : Nat) (hs : (s.winnow x).spills ≠ [])
    (hn : ((s.winnow x).poolFrames ((s.winnow x).req k)).length ≤ (s.winnow x).freeSpill.length) :
    s.evict x k = (List.range (32 - (s.winnow x).copied)).foldl (fun (u : State) _ => u.spillOne x)
      ((s.modWinnow x fun _ => (s.winnow x).setAside k).pagesWritten x ((s.winnow x).req k).pageList 0 ((s.winnow x).spilled ((s.winnow x).req k)).frames) := by
  have hguard : ¬ ((s.winnow x).spills.isEmpty || decide ((s.winnow x).freeSpill.length < ((s.winnow x).poolFrames ((s.winnow x).req k)).length)) = true := by
    rw [Bool.or_eq_true, not_or, decide_eq_true_iff]
    exact ⟨by simpa using hs, Nat.not_lt.2 hn⟩
  refine (if_neg hguard).trans (congrArg (fun u => (List.range (32 - (s.winnow x).copied)).foldl (fun (u : State) _ => u.spillOne x) u) ?_)
  refine (State.writePages_eq (s.modWinnow x fun _ => (s.winnow x).setAside k) x k 0).trans ?_
  rw [State.winnow_modWinnow, Winnow.req_setAside, List.drop_zero]
  rfl

/-- An evicted request whose pool frames spill frames take. -/
theorem State.evict_spills (s : State) (x k : Nat) (hs : (s.winnow x).spills ≠ [])
    (hn : ((s.winnow x).poolFrames ((s.winnow x).req k)).length ≤ (s.winnow x).freeSpill.length) :
    let v := s.winnow x
    let r := v.req k
    let n := (v.poolFrames r).length
    ∃ fs flags, s.evict x k = (List.range (32 - v.copied)).foldl (fun (u : State) _ => u.spillOne x) ((s.modWinnow x fun v =>
        { v.setReq k { r.away with flags := flags, frames := fs, spilling := (v.poolFrames r).zip v.freeSpill } with
          freeSpill := v.freeSpill.drop n, spillQueue := v.spillQueue ++ (if n = 0 then [] else [k]) }).pagesWritten x r.pageList 0 fs) ∧
      flags % 256 = r.flags % 256 ∧ flags.testBit 12 = true ∧ fs.length = r.frames.length ∧
      ∀ i f, r.frames[i]? = some f → fs[i]? = if v.spills.contains f then some f
        else v.freeSpill[((r.frames.take i).filter fun g => !v.spills.contains g).length]? := by
  intro v r n
  obtain ⟨hpairs, hlen, hframes⟩ := spillPlan_pairs v.spills r.frames v.freeSpill hn
  obtain ⟨hlow, hbit⟩ := r.away.withFlags_bits r.away.late true
  have hempty : ((v.poolFrames r).zip v.freeSpill).isEmpty = true ↔ n = 0 := by
    rw [List.isEmpty_iff, ← List.length_eq_zero_iff, List.length_zip, Nat.min_eq_left hn]
  refine ⟨(spillPlan v.spills r.frames v.freeSpill).1, (r.away.withFlags 0 r.away.late true).flags, ?_, hlow, hbit, hlen, hframes⟩
  rw [s.evict_setAside x k hs hn]
  refine congrArg (fun u : State => (List.range (32 - v.copied)).foldl (fun (u : State) _ => u.spillOne x)
    (u.pagesWritten x r.pageList 0 (spillPlan v.spills r.frames v.freeSpill).1)) (State.modWinnow_congr s x _ _ ?_)
  have hspilling : (v.spilled r).spilling = (v.poolFrames r).zip v.freeSpill := hpairs
  unfold Winnow.setAside
  rw [hspilling]
  unfold Winnow.spilled
  rw [hpairs]
  by_cases h0 : n = 0
  · rw [if_pos h0, if_pos (hempty.2 h0)]
    rfl
  · rw [if_neg h0, if_neg (mt hempty.1 h0)]
    rfl

end Sys2Proof.Machine
end

