-- ==== Sys2Proof/Proofs/WinnowAllocation.lean ====
section
/-! SUPPORT. A request's pages at the boundary (R82): the frames it takes, and the requests that a shortage evicts. -/
namespace Sys2Proof.Machine

/-- Victims are taken in order until their frames cover the shortage. -/
theorem Winnow.victims_eq (w : Winnow) (vs rest : List Nat) (left : Nat) (hlt : ∀ n < vs.length, ((vs.take n).map w.poolHeld).sum < left)
    (hend : rest = [] ∨ left ≤ (vs.map w.poolHeld).sum) : w.victims (vs ++ rest) left = vs := by
  induction vs generalizing left with
  | nil =>
    rcases hend with rfl | hend
    · rfl
    · cases rest with
      | nil => rfl
      | cons j rest => exact if_pos (Nat.le_zero.1 hend)
  | cons j vs ih =>
    have hpos : left ≠ 0 := (hlt 0 (Nat.zero_lt_succ _)).ne'
    refine (if_neg hpos).trans (congrArg (j :: ·) (ih _ (fun n hn => ?_) ?_))
    · have := hlt (n + 1) (Nat.succ_lt_succ hn)
      have hfirst := hlt 1
      simp only [List.take_succ_cons, List.map_cons, List.sum_cons] at this
      omega
    · refine hend.imp_right fun h => ?_
      simp only [List.map_cons, List.sum_cons] at h
      omega

/-- What an allocation does once its evictions are done: it takes the frames there are, and its rows are cut to them. -/
def State.allocationEnds (s : State) (x k left tpp : Nat) : State :=
  let u := s.give x k (min left (s.winnow x).freePool.length)
  let q := (u.winnow x).req k
  let room := q.frames.length * tpp - q.position
  if q.rows ≤ room then u else if room = 0 then u.evict x k else u.modWinnow x fun v => v.setReq k { q with rows := room }

/-- The frames that a request in a slot lacks. -/
def Winnow.pagesShort (w : Winnow) (r : Request) : Nat := ceilDiv (r.position + r.rows) w.tpp - r.frames.length

/-- The requests that go before a request in the eviction order. -/
def Winnow.ahead (w : Winnow) (k : Nat) : List Nat := w.evictOrder.takeWhile fun j => j != k

def Winnow.poolHeldBy (w : Winnow) (ks : List Nat) : Nat := (ks.map w.poolHeld).sum

/-- Whether evictions are worth their while: all of them would cover the shortage, or leave the requester a row. -/
def Winnow.evictionsFit (w : Winnow) (r : Request) (k left tpp : Nat) : Prop :=
  left ≤ w.poolHeldBy (w.ahead k) ∨ r.position < ((w.req k).frames.length + w.poolHeldBy (w.ahead k)) * tpp

theorem Request.active_iff (r : Request) : r.active = true ↔ r.state = 2 ∨ r.state = 3 := by
  unfold Request.active
  rw [Bool.or_eq_true, beq_iff_eq, beq_iff_eq]

theorem State.give_tpp (s : State) (x k n : Nat) : ((s.give x k n).winnow x).tpp = (s.winnow x).tpp := by
  have hw : (s.give x k n).winnow x = _ := State.Writes.winnow (.writePages ..) x
  rw [hw, State.winnow_modWinnow]
  rfl

theorem State.allocate_inactive (s : State) (x k : Nat) (h : ((s.winnow x).req k).active = false) : s.allocate x k = s :=
  if_pos (by rw [h]; rfl)

theorem State.allocate_overCapacity (s : State) (x k : Nat) (h : ((s.winnow x).req k).active = true)
    (hc : ((s.winnow x).req k).capacity < ceilDiv (((s.winnow x).req k).position + ((s.winnow x).req k).rows) (s.winnow x).tpp) :
    s.allocate x k = (s.modWinnow x fun v => v.finish k 6 5 0x0804).winnowFault x k 0x0804 :=
  (if_neg (by rw [h]; decide)).trans (if_pos hc)

section
variable (s : State) (x k : Nat) (h : ((s.winnow x).req k).active = true)
  (hc : ceilDiv (((s.winnow x).req k).position + ((s.winnow x).req k).rows) (s.winnow x).tpp ≤ ((s.winnow x).req k).capacity)
include h hc

theorem State.allocate_free (hl : (s.winnow x).pagesShort ((s.winnow x).req k) - (s.winnow x).freePool.length = 0) :
    s.allocate x k = s.give x k (min ((s.winnow x).pagesShort ((s.winnow x).req k)) (s.winnow x).freePool.length) :=
  (if_neg (by rw [h]; decide)).trans ((if_neg (Nat.not_lt.2 hc)).trans (if_pos hl))

theorem State.allocate_short (hl : 0 < (s.winnow x).pagesShort ((s.winnow x).req k) - (s.winnow x).freePool.length) :
    let left := (s.winnow x).pagesShort ((s.winnow x).req k) - (s.winnow x).freePool.length
    let s1 := s.give x k (min ((s.winnow x).pagesShort ((s.winnow x).req k)) (s.winnow x).freePool.length)
    let w := s1.winnow x
    (¬ w.evictionsFit ((s.winnow x).req k) k left w.tpp → s.allocate x k = s1.allocationEnds x k left w.tpp) ∧
    (w.evictionsFit ((s.winnow x).req k) k left w.tpp →
      s.allocate x k = ((w.victims (w.ahead k) left).foldl (fun u j => u.evict x j) s1).allocationEnds x k left w.tpp) := by
  intro left s1 w
  have hstart : s.allocate x k = ((if left ≤ ((w.ahead k).map w.poolHeld).foldl (· + ·) 0 ||
      ((s.winnow x).req k).position < ((w.req k).frames.length + ((w.ahead k).map w.poolHeld).foldl (· + ·) 0) * w.tpp
      then w.victims (w.ahead k) left else []).foldl (fun u j => u.evict x j) s1).allocationEnds x k left w.tpp :=
    (if_neg (by rw [h]; decide)).trans ((if_neg (Nat.not_lt.2 hc)).trans (if_neg hl.ne'))
  rw [foldl_add_eq_sum, ← Bool.decide_or] at hstart
  refine ⟨fun hfit => hstart.trans ?_, fun hfit => hstart.trans ?_⟩
  · split
    · next e => exact absurd (of_decide_eq_true e) hfit
    · rfl
  · split
    · rfl
    · next e => exact (e (decide_eq_true hfit)).elim

/-- A shortage that no evictions can help. -/
theorem State.allocate_unfit (hl : 0 < (s.winnow x).pagesShort ((s.winnow x).req k) - (s.winnow x).freePool.length)
    (hfit : ¬ ((s.give x k (min ((s.winnow x).pagesShort ((s.winnow x).req k)) (s.winnow x).freePool.length)).winnow x).evictionsFit
      ((s.winnow x).req k) k ((s.winnow x).pagesShort ((s.winnow x).req k) - (s.winnow x).freePool.length) (s.winnow x).tpp) :
    s.allocate x k = (s.give x k (min ((s.winnow x).pagesShort ((s.winnow x).req k)) (s.winnow x).freePool.length)).allocationEnds x k
      ((s.winnow x).pagesShort ((s.winnow x).req k) - (s.winnow x).freePool.length) (s.winnow x).tpp := by
  rw [(s.allocate_short x k h hc hl).1 (by rwa [State.give_tpp]), State.give_tpp]

/-- A shortage that evicts `vs`, the first requests ahead whose frames cover it. -/
theorem State.allocate_evicts (hl : 0 < (s.winnow x).pagesShort ((s.winnow x).req k) - (s.winnow x).freePool.length) (vs rest : List Nat) :
    let left := (s.winnow x).pagesShort ((s.winnow x).req k) - (s.winnow x).freePool.length
    let s1 := s.give x k (min ((s.winnow x).pagesShort ((s.winnow x).req k)) (s.winnow x).freePool.length)
    let w := s1.winnow x
    w.evictionsFit ((s.winnow x).req k) k left (s.winnow x).tpp → w.ahead k = vs ++ rest → (∀ n < vs.length, w.poolHeldBy (vs.take n) < left) →
      (rest = [] ∨ left ≤ w.poolHeldBy vs) →
      s.allocate x k = (vs.foldl (fun u j => u.evict x j) s1).allocationEnds x k left (s.winnow x).tpp := by
  intro left s1 w hfit hvs hlt hend
  have htpp : w.tpp = (s.winnow x).tpp := s.give_tpp ..
  rw [(s.allocate_short x k h hc hl).2 (htpp ▸ hfit), hvs, Winnow.victims_eq _ vs rest _ hlt hend, htpp]

end

end Sys2Proof.Machine
end

