-- ==== Sys2Proof/Proofs/WinnowTables.lean ====
section
/-! SUPPORT. What Winnow writes at a publish (R69, R71, R85 to R87): rings, records, and the segment table in every tile. -/
namespace Sys2Proof.Machine

/-! A ring and a record. -/

/-- Byte strings written at their offsets from an address of a context, in order. -/
def State.puts (s : State) (x a : Nat) (es : List (Nat × List Byte)) : State := es.foldl (fun u e => u.ctxPut x (a + e.1) e.2) s

/-- The completion word of a ring (R71). -/
def Request.completion (r : Request) : Nat := if r.state = 4 ∨ 6 ≤ r.state then r.state + 256 * (r.flags / 256 % 8) + 65536 * r.fault else 0

theorem Request.completion_eq (r : Request) : (if r.final then r.state + 256 * r.endCode + 65536 * r.fault else 0) = r.completion := by
  have hfinal : r.final = true ↔ r.state = 4 ∨ 6 ≤ r.state := by
    rw [Request.final, Bool.or_eq_true, beq_iff_eq, decide_eq_true_iff]
  simp only [hfinal]
  rfl

theorem State.writeRing_eq (s : State) (x k : Nat) :
    let r := (s.winnow x).req k
    s.writeRing x k = s.puts x r.ring ((r.tokens.map fun e => (0x40 + 4 * e.1, leBytes 4 e.2)) ++
      [(0, leBytes 4 (r.prompt + r.generated)), (8, leBytes 4 r.completion)]) := by
  intro r
  rw [State.puts, List.foldl_append, List.foldl_map, ← Request.completion_eq]
  simp only [← Nat.add_assoc]
  rfl

theorem State.writeRecord_eq (s : State) (x k : Nat) :
    s.writeRecord x k = s.puts x ((s.winnow x).table + 128 * k) ((s.winnow x).req k).deviceFields := rfl

/-! A write of bytes that a context's addresses give as one run. -/

/-- One byte of a write, at its physical address; none where its page does not translate. -/
def State.cellOf (s : State) (x va : Nat) (b : Byte × Nat) : Option (Nat × Byte) :=
  match s.ctxAddr x (va + b.2) with
  | .ok pa => some (pa, b.1)
  | .error _ => none

theorem State.ctxPut_eq (s : State) (x va : Nat) (bs : List Byte) : s.ctxPut x va bs =
    if (bs.zipIdx.filterMap (s.cellOf x va)).isEmpty then s else s.devWrite { bytes := bs.zipIdx.filterMap (s.cellOf x va) } := rfl

theorem State.cellOf_run (s : State) (x va pa n : Nat) (bs : List Byte) (h : ∀ j < bs.length, s.ctxAddr x (va + (n + j)) = .ok (pa + (n + j))) :
    (bs.zipIdx n).filterMap (s.cellOf x va) = cellsFrom (pa + n) bs := by
  induction bs generalizing n with
  | nil => rfl
  | cons b bs ih =>
    have hfirst : s.cellOf x va (b, n) = some (pa + n, b) := by
      have h0 := h 0 (Nat.zero_lt_succ _)
      rw [Nat.add_zero] at h0
      unfold State.cellOf
      rw [h0]
    have hrest : (bs.zipIdx (n + 1)).filterMap (s.cellOf x va) = cellsFrom (pa + (n + 1)) bs := by
      refine ih (n + 1) fun j hj => ?_
      rw [Nat.add_assoc, Nat.add_comm 1]
      exact h (j + 1) (Nat.succ_lt_succ hj)
    rw [List.zipIdx_cons, List.filterMap_cons, hfirst, hrest]
    rfl

theorem State.ctxPut_run (s : State) (x va pa : Nat) (bs : List Byte) (hbs : bs ≠ []) (h : ∀ j < bs.length, s.ctxAddr x (va + j) = .ok (pa + j)) :
    s.ctxPut x va bs = s.devWrite { bytes := cellsFrom pa bs } := by
  rw [s.ctxPut_eq, s.cellOf_run x va pa 0 bs fun j hj => by rw [Nat.zero_add]; exact h j hj]
  cases bs with
  | nil => exact absurd rfl hbs
  | cons b bs => rfl

/-- A run that no scratchpad backs is written to memory. -/
theorem State.devWrite_released (s : State) (pa : Nat) (bs : List Byte) (hbs : bs ≠ []) (h : s.place pa = .ok .lpddr ∨ s.place pa = .ok .host) :
    s.devWrite { bytes := cellsFrom pa bs } = s.releaseNow { bytes := cellsFrom pa bs } := by
  have hhead : (((cellsFrom pa bs).head?.map (·.1)).getD 0) = pa := by
    cases bs with
    | nil => exact absurd rfl hbs
    | cons b bs => rfl
  unfold State.devWrite
  dsimp only
  rw [hhead]
  rcases h with h | h <;> rw [h]

/-! Fields of a byte string. -/

theorem field_append_right (xs ys : List Byte) (o n : Nat) : field (xs ++ ys) (xs.length + o) n = field ys o n := by
  rw [field, List.drop_append, List.drop_of_length_le (Nat.le_add_right ..), List.nil_append, Nat.add_sub_cancel_left]
  rfl

theorem field_append_left {xs : List Byte} (ys : List Byte) {o n : Nat} (h : o + n ≤ xs.length) : field (xs ++ ys) o n = field xs o n := by
  rw [field, List.drop_append_of_le_length (by omega), List.take_append_of_le_length (by rw [List.length_drop]; omega)]
  rfl

theorem field_leBytes_skip {m o : Nat} (v : Nat) (ys : List Byte) (n : Nat) (h : m ≤ o) : field (leBytes m v ++ ys) o n = field ys (o - m) n := by
  have := field_append_right (leBytes m v) ys (o - m) n
  rwa [length_leBytes, Nat.add_sub_cancel' h] at this

theorem field_leBytes_append (n v : Nat) (ys : List Byte) : field (leBytes n v ++ ys) 0 n = v % 256 ^ n := by
  rw [field_append_left _ (by rw [length_leBytes, Nat.zero_add]), field, List.drop_zero, List.take_of_length_le (length_leBytes n v).le, leNat_leBytes]

theorem field_leBytes (n v : Nat) : field (leBytes n v) 0 n = v % 256 ^ n := by
  rw [field, List.drop_zero, List.take_of_length_le (length_leBytes n v).le, leNat_leBytes]

/-- A field of one of a run of entries of one length. -/
theorem field_flatMap (f : Nat → List Byte) (m n i c l : Nat) (hf : ∀ i, (f i).length = m) (hi : i < n) (hc : c + l ≤ m) :
    field ((List.range n).flatMap f) (m * i + c) l = field (f i) c l := by
  have hlen (k : Nat) : ((List.range k).flatMap f).length = m * k := by
    rw [List.length_flatMap]
    simp [hf, Nat.mul_comm]
  have hsplit : (List.range n).flatMap f = ((List.range i).flatMap f) ++ (f i ++ (List.range (n - (i + 1))).flatMap fun j => f (i + 1 + j)) := by
    have hrange : List.range n = List.range i ++ (i :: (List.range (n - (i + 1))).map fun j => i + 1 + j) := by
      rw [show n = i + 1 + (n - (i + 1)) by omega, List.range_add, List.range_succ, Nat.add_sub_cancel_left, List.append_assoc]
      rfl
    rw [hrange, List.flatMap_append, List.flatMap_cons, List.flatMap_map]
  rw [hsplit, ← hlen i, field_append_right, field_append_left _ (by rw [hf]; exact hc)]

/-! The segment table (R85, R86). -/

/-- The 64 bytes before the entries. -/
def Winnow.tableHeader (w : Winnow) (slots : Nat) (cond : W64) (tick : Nat) : List Byte :=
  leBytes 8 w.iteration ++ leBytes 2 w.q0 ++ leBytes 2 0 ++ leBytes 4 w.q1 ++ leBytes 4 w.q2 ++ leBytes 4 w.q3 ++ leBytes 2 w.q4 ++ leBytes 2 slots ++
  leBytes 4 0 ++ leBytes 8 cond.toNat ++ leBytes 8 tick ++ leBytes 16 0

theorem Winnow.tableHeader_length (w : Winnow) (n : Nat) (cond : W64) (tick : Nat) : (w.tableHeader n cond tick).length = 64 := by
  simp only [Winnow.tableHeader, List.length_append, length_leBytes]

theorem Winnow.tableBytes_eq (w : Winnow) (n : Nat) (cond : W64) (tick : Nat) :
    w.tableBytes n cond tick = w.tableHeader n cond tick ++ (List.range n).flatMap w.tableEntry := rfl

theorem Winnow.tableEntry_length (w : Winnow) (i : Nat) : (w.tableEntry i).length = 32 := by
  unfold Winnow.tableEntry
  split <;> simp only [List.length_append, length_leBytes]

theorem Winnow.tableBytes_length (w : Winnow) (n : Nat) (cond : W64) (tick : Nat) : (w.tableBytes n cond tick).length = 64 + 32 * n := by
  rw [w.tableBytes_eq, List.length_append, w.tableHeader_length, List.length_flatMap]
  simp [w.tableEntry_length, Nat.mul_comm]

theorem Winnow.field_tableHeader (w : Winnow) (n : Nat) (cond : W64) (tick : Nat) {o l : Nat} (h : o + l ≤ 64) :
    field (w.tableBytes n cond tick) o l = field (w.tableHeader n cond tick) o l :=
  field_append_left (xs := w.tableHeader n cond tick) _ (by rw [w.tableHeader_length]; exact h)

theorem Winnow.field_tableEntry (w : Winnow) (n : Nat) (cond : W64) (tick : Nat) {i : Nat} (c l : Nat) (hi : i < n) (h : c + l ≤ 32) :
    field (w.tableBytes n cond tick) (64 + 32 * i + c) l = field (w.tableEntry i) c l := by
  have hstart := field_append_right (w.tableHeader n cond tick) ((List.range n).flatMap w.tableEntry) (32 * i + c) l
  rw [w.tableHeader_length, ← Nat.add_assoc] at hstart
  exact hstart.trans (field_flatMap _ _ _ _ _ _ w.tableEntry_length hi h)

theorem Winnow.tableHeader_fields (w : Winnow) (n : Nat) (cond : W64) (tick : Nat) : let b := w.tableHeader n cond tick
    field b 0 8 = w.iteration % 2 ^ 64 ∧ field b 8 2 = w.q0 % 2 ^ 16 ∧ field b 0x0A 2 = 0 ∧ field b 0x0C 4 = w.q1 % 2 ^ 32 ∧
      field b 0x10 4 = w.q2 % 2 ^ 32 ∧ field b 0x14 4 = w.q3 % 2 ^ 32 ∧ field b 0x18 2 = w.q4 % 2 ^ 16 ∧ field b 0x1A 2 = n % 2 ^ 16 ∧
      field b 0x1C 4 = 0 ∧ field b 0x20 8 = cond.toNat ∧ field b 0x28 8 = tick % 2 ^ 64 ∧ field b 0x30 16 = 0 := by
  intro b
  have hcond : cond.toNat < 18446744073709551616 := cond.isLt
  simp only [b, Winnow.tableHeader, List.append_assoc]
  refine ⟨?_, ?_, ?_, ?_, ?_, ?_, ?_, ?_, ?_, ?_, ?_, ?_⟩ <;>
    simp [field_leBytes_skip, field_leBytes_append, field_leBytes, hcond]

theorem Winnow.tableEntry_none (w : Winnow) {i : Nat} (h : w.slots.lookup i = none) : let b := w.tableEntry i
    field b 0 8 = 0 ∧ field b 8 4 = 0xFFFFFFFF ∧ field b 12 20 = 0 := by
  intro b
  have hb : b = leBytes 8 0 ++ leBytes 4 0xFFFFFFFF ++ leBytes 20 0 := by simp only [b, Winnow.tableEntry, h]
  rw [hb, List.append_assoc]
  refine ⟨?_, ?_, ?_⟩ <;> simp [field_leBytes_skip, field_leBytes_append, field_leBytes]

theorem Winnow.tableEntry_some (w : Winnow) {i k : Nat} {r : Request} (h : w.slots.lookup i = some (k, r)) : let b := w.tableEntry i
    field b 0 2 = r.rowStart % 2 ^ 16 ∧ field b 2 1 = r.rows % 2 ^ 8 ∧ field b 3 1 = r.kind % 2 ^ 8 ∧ field b 4 4 = r.position % 2 ^ 32 ∧
      field b 8 4 = k % 2 ^ 32 ∧ field b 0x0C 2 = r.used % 2 ^ 16 ∧ field b 0x0E 2 = r.entryFlags % 2 ^ 16 ∧ field b 0x10 8 = r.pageList % 2 ^ 64 ∧
      field b 0x18 4 = r.pages % 2 ^ 32 ∧ field b 0x1C 4 = 0 := by
  intro b
  have hb : b = leBytes 2 r.rowStart ++ leBytes 1 r.rows ++ leBytes 1 r.kind ++ leBytes 4 r.position ++ leBytes 4 k ++ leBytes 2 r.used ++
      leBytes 2 r.entryFlags ++ leBytes 8 r.pageList ++ leBytes 4 r.pages ++ leBytes 4 0 := by simp only [b, Winnow.tableEntry, h]
  rw [hb]
  simp only [List.append_assoc]
  refine ⟨?_, ?_, ?_, ?_, ?_, ?_, ?_, ?_, ?_, ?_⟩ <;> simp [field_leBytes_skip, field_leBytes_append, field_leBytes]

end Sys2Proof.Machine
end

