-- ==== Sys2Proof/Proofs/WinnowRules.lean ====
section
/-! SUPPORT. Winnow's words at the tiles (R85, R101), the condition word (R46) and the rules (R45, R46). -/
namespace Sys2Proof.Machine

/-! Words at the inbound port. -/

theorem cellsFrom_append (a : Nat) (xs ys : List Byte) : cellsFrom a (xs ++ ys) = cellsFrom a xs ++ cellsFrom (a + xs.length) ys := by
  induction xs generalizing a with
  | nil => rfl
  | cons x xs ih =>
    refine congrArg ((a, x) :: ·) ((ih (a + 1)).trans ?_)
    rw [List.length_cons, Nat.add_assoc, Nat.add_comm 1]
    rfl

theorem inboundWords_bytes (issuer due off : Nat) (bs : List Byte) (p : Option Poison) :
    (inboundWords issuer due off bs p).flatMap (·.write.bytes) = cellsFrom off bs := by
  have hwords (n : Nat) : ((List.range n).flatMap fun i => cellsFrom (off + 64 * i) ((bs.drop (64 * i)).take 64)) = cellsFrom off (bs.take (64 * n)) := by
    induction n with
    | zero => rfl
    | succ n ih =>
      rw [List.range_succ, List.flatMap_append, ih, List.flatMap_singleton, Nat.mul_succ, List.take_add, cellsFrom_append, List.length_take]
      rcases Nat.le_total (64 * n) bs.length with h | h
      · rw [Nat.min_eq_left h]
      · rw [List.drop_of_length_le h]
        rfl
  have hall : bs.length ≤ 64 * ceilDiv bs.length 64 := by
    unfold ceilDiv
    omega
  have h := hwords (ceilDiv bs.length 64)
  rw [List.take_of_length_le hall] at h
  rw [inboundWords, List.flatMap_map]
  exact h

theorem inboundWords_plain (issuer due off : Nat) (bs : List Byte) : ∀ e ∈ inboundWords issuer due off bs none,
    e.due = due ∧ e.issuer = issuer ∧ e.write.add = false ∧ e.write.poison = none ∧ e.write.checks = none := by
  intro e he
  obtain ⟨i, -, rfl⟩ := List.mem_map.1 he
  exact ⟨rfl, rfl, rfl, rfl, rfl⟩

/-- Words for a run of bytes take the place of those held for bytes within the run. -/
theorem Tile.winnowWords_run (z : Tile) (ws : List Inbound) (off : Nat) (bs : List Byte) (h : ws.flatMap (·.write.bytes) = cellsFrom off bs) :
    z.winnowWords ws = { z with inbound :=
      (z.inbound.filter fun e => !(z.heldInbound e && e.write.bytes.all fun b => decide (off ≤ b.1 ∧ b.1 < off + bs.length))) ++ ws } := by
  have hin (k : Nat) : ((cellsFrom off bs).lookup k).isSome = decide (off ≤ k ∧ k < off + bs.length) := by
    rw [lookup_cellsFrom]
    split
    · next h => exact (decide_eq_true h).symm
    · next h => exact (decide_eq_false h).symm
  unfold Tile.winnowWords
  simp only [h, hin]

/-- The table goes into every tile of the partition, once, and nowhere else. -/
theorem State.writeTables_tiles (s : State) (x : Nat) (bs : List Byte) (hn : (s.ctx x).tiles.Nodup) :
    (s.writeTables x bs).mem = s.mem ∧ (s.writeTables x bs).ctxs = s.ctxs ∧ ∀ t, (s.writeTables x bs).tile t =
      if t ∈ (s.ctx x).tiles then (s.tile t).winnowWords (inboundWords winnowIssuer s.gtick (s.winnow x).segOffset bs none) else s.tile t := by
  have hall (ts : List Nat) (hn : ts.Nodup) (u : State) (off : Nat) :
      let v := ts.foldl (fun (u : State) t => u.modTile t fun z => z.winnowWords (inboundWords winnowIssuer u.gtick off bs none)) u
      v.mem = u.mem ∧ v.ctxs = u.ctxs ∧ ∀ t, v.tile t =
        if t ∈ ts then (u.tile t).winnowWords (inboundWords winnowIssuer u.gtick off bs none) else u.tile t := by
    induction ts generalizing u with
    | nil => exact ⟨rfl, rfl, fun t => (if_neg List.not_mem_nil).symm⟩
    | cons j ts ih =>
      obtain ⟨hj, hn⟩ := List.nodup_cons.1 hn
      obtain ⟨hmem, hctxs, htile⟩ := ih hn (u.modTile j fun z => z.winnowWords (inboundWords winnowIssuer u.gtick off bs none))
      refine ⟨hmem, hctxs, fun t => (htile t).trans ?_⟩
      rw [State.tile_modTile]
      by_cases h : j = t
      · subst h
        rw [if_neg hj, if_pos rfl, if_pos List.mem_cons_self]
      · rw [if_neg h]
        refine ite_congr (propext ⟨.tail _, fun hm => (List.mem_cons.1 hm).resolve_left (Ne.symm h)⟩) (fun _ => rfl) fun _ => rfl
  exact hall _ hn s _

/-! The condition word (R33, R46). -/

theorem State.newCond_bit (s : State) (x k b : Nat) (hb : b < 64) : (s.newCond x k).getLsbD b =
    ((decide (b < 32) && (s.ctx x).cond.getLsbD b) ||
      (List.range (s.segField x k 6 2)).any fun i => s.ruleHolds x (s.segField x k 8 4 + i) && s.ruleField x (s.segField x k 8 4 + i) 2 1 == b) := by
  have hrules (ns : List Nat) (c : W64) :
      (ns.foldl (fun (c : W64) n => if s.ruleHolds x n then c ||| (1#64 <<< s.ruleField x n 2 1) else c) c).getLsbD b =
        (c.getLsbD b || ns.any fun n => s.ruleHolds x n && s.ruleField x n 2 1 == b) := by
    induction ns generalizing c with
    | nil => simp
    | cons n ns ih =>
      rw [List.foldl_cons, ih, List.any_cons]
      have hone : (1#64 <<< s.ruleField x n 2 1).getLsbD b = (s.ruleField x n 2 1 == b) := by
        rw [BitVec.getLsbD_shiftLeft, BitVec.getLsbD_one]
        generalize s.ruleField x n 2 1 = m
        rw [Bool.eq_iff_iff]
        simp only [Bool.and_eq_true, decide_eq_true_eq, Bool.not_eq_true', decide_eq_false_iff_not, beq_iff_eq]
        omega
      cases s.ruleHolds x n with
      | false => simp
      | true => simp [hone, Bool.or_assoc]
  have hlow : ((s.ctx x).cond &&& 0xFFFFFFFF).getLsbD b = (decide (b < 32) && (s.ctx x).cond.getLsbD b) := by
    have hmask : (0xFFFFFFFF : W64).getLsbD b = decide (b < 32) := by
      have h : ∀ c : Fin 64, (0xFFFFFFFF : W64).getLsbD c.val = decide (c.val < 32) := by decide
      exact h ⟨b, hb⟩
    rw [BitVec.getLsbD_and, hmask, Bool.and_comm]
  refine (hrules _ _).trans ?_
  rw [hlow, List.any_map]
  rfl

/-! Rules (R45, R46). -/

theorem clampI_eq (v top : Int) (h : 0 ≤ top) : clampI v 0 top = max 0 (min top v) := by
  unfold clampI
  split
  · omega
  · split <;> omega

theorem countValue_eq (q a : Nat) (b : Int) (d top : Nat) :
    (countValue q a b d top : Int) = max 0 (min (top : Int) ⌈(((q * a : Nat) : ℚ) + (b : ℚ)) / (d : ℚ)⌉) := by
  have hceil : ⌈(((q * a : Nat) : ℚ) + (b : ℚ)) / (d : ℚ)⌉ = -((-((q * a : Nat) + b)) / (d : Int)) := by
    have h := Rat.ceil_intCast_div_natCast (((q * a : Nat) : Int) + b) d
    push_cast at h ⊢
    exact h
  have hclamp := clampI_eq (-((-((q * a : Nat) + b)) / (d : Int))) top (Int.natCast_nonneg top)
  rw [hceil, countValue, hclamp, Int.toNat_of_nonneg (Int.le_max_left ..)]

theorem State.ruleHolds_iff (s : State) (x k : Nat) : let f := s.ruleField x k
    let q := (s.winnow x).quantity (f 1 1)
    s.ruleHolds x k = true ↔ [q < f 0x0C 4, q ≤ f 0x0C 4, q = f 0x0C 4, q ≠ f 0x0C 4, f 0x0C 4 ≤ q].getD (f 3 1) (f 0x0C 4 < q) := by
  intro f q
  unfold State.ruleHolds
  show (match f 3 1 with
    | 0 => decide (q < f 0x0C 4)
    | 1 => decide (q ≤ f 0x0C 4)
    | 2 => q == f 0x0C 4
    | 3 => q != f 0x0C 4
    | 4 => decide (f 0x0C 4 ≤ q)
    | _ => decide (f 0x0C 4 < q)) = true ↔ _
  generalize f 3 1 = op
  match op with
  | 0 | 1 | 4 | _ + 5 => exact decide_eq_true_iff
  | 2 => exact beq_iff_eq
  | 3 => exact bne_iff_ne

end Sys2Proof.Machine
end

