-- ==== Sys2Proof/Proofs/WinnowAllocatesAndPublishes.lean ====
section
/-! O9: Winnow's rows, frames and evictions, and what it publishes. -/
namespace Sys2Proof.Machine

/-- Each request of pass 2 gets its row, and of the budget left what it needs. -/
theorem Winnow.allocateRows_req {w : Winnow} (hn : (w.reqs.map (·.1)).Nodup) (hs : ∀ e ∈ w.actives, e.2.slot < 2 ^ 16) (rows i k : Nat)
    (hi : w.passTwo[i]? = some k) : (w.allocateRows rows).req k = { w.req k with
      rows := 1 + min ((w.req k).rowNeed - 1)
        (rows - w.passTwo.length - ((List.range i).map fun j => ((w.allocateRows rows).req (w.passTwo.getD j 0)).rows - 1).sum) } := by
  rw [Winnow.allocateRows_eq]
  exact Winnow.foldl_giveRows (w.passTwo_nodup hn hs) (w, rows - w.passTwo.length) i k hi

/-- A slot of the assignment, from row 0 on. -/
theorem Winnow.assign_req {w : Winnow} (hn : (w.reqs.map (·.1)).Nodup) (i : Nat) (e : Nat × Nat) (hi : w.bySlot[i]? = some e) :
    w.assign.req e.2 = (w.req e.2).assigned ((w.bySlot.take i).map fun f => (w.req f.2).rows).sum := by
  have h := Winnow.foldl_assignSlot (Winnow.bySlot_nodup hn) (w, 0) i e hi
  rwa [Nat.zero_add, ← Winnow.assign_eq] at h

/-- A publish is what its writes leave, but for the contexts; of them it publishes the condition word. -/
theorem State.publish_rest (s : State) (x k : Nat) : { s.publish x k with ctxs := (s.tablesOut x k).ctxs } = s.tablesOut x k ∧
    ((s.publish x k).ctx x).cond = (s.recordsOut x).newCond x k := by
  rw [s.publish_eq]
  generalize s.tablesOut x k = u
  refine ⟨rfl, ?_⟩
  rw [State.ctx_modCtx_same]
  rfl

theorem State.tablesOut_eq (s : State) (x k : Nat) : s.tablesOut x k = (s.recordsOut x).writeTables x
    (((s.recordsOut x).winnow x).tableBytes ((s.recordsOut x).ctx x).maxSlots ((s.recordsOut x).newCond x k) s.gtick) := by
  have htick : (s.recordsOut x).gtick = s.gtick := (s.recordsOut_writes x).gtick
  rw [← htick]
  rfl

/-- Settles O9: each conjunct is what the lemmas about its function say. -/
theorem winnowAllocatesAndPublishes : Obligations.WinnowAllocatesAndPublishes := by
  intro s x w unique active pool pages
  refine ⟨fun hn hs => ?rows, fun hn hs => w.evictOrder_order hn hs, s.give_eq x, fun k => ⟨s.evict_frees x k, s.evict_spills x k⟩, fun k => ?allocate,
    fun hn hs hd => ?assign, fun k => ?publish, fun k => ⟨?ring, s.writeRecord_eq x k⟩, fun va pa bs hbs ha hm hf hc hp k => ?put,
    fun n bits tick => ?table, fun bs hn => ?tiles, s.newCond_bit x, fun k l hl => ⟨fun _ => ?count, s.ruleHolds_iff x k⟩⟩
  case rows =>
    refine ⟨w.passTwo_order hn fun e he => (hs e he).1, fun rows i k hi => ?_⟩
    dsimp only
    rw [← Request.rowNeed_eq]
    exact w.allocateRows_req hn (fun e he => (hs e he).1) rows i k hi
  case allocate =>
    refine ⟨fun h2 h3 => s.allocate_inactive x k (Bool.eq_false_iff.2 fun h => (Request.active_iff _).1 h |>.elim h2 h3), fun hact => ?_⟩
    have hact := (Request.active_iff _).2 hact
    refine ⟨s.allocate_overCapacity x k hact, s.allocate_free x k hact, s.allocate_unfit x k hact,
      fun vs rest hc hl => s.allocate_evicts x k hact hc hl vs rest⟩
  case assign =>
    refine ⟨w.bySlot_perm, Winnow.bySlot_strict hd, fun i e hi => ?_, fun tick => w.describe_quantities tick⟩
    exact (w.assign_req hn i e hi).trans (Request.assigned_eq ..)
  case publish =>
    have h := s.publish_rest x k
    rw [s.tablesOut_eq] at h
    exact h
  case ring => exact s.writeRing_eq x k
  case put =>
    rw [s.ctxPut_run x va pa bs hbs ha, s.devWrite_released pa bs hbs hp]
    exact s.physByte_releaseNow pa bs none hm hf hc k
  case table =>
    obtain ⟨f0, f1, f2, f3, f4, f5, f6, f7, f8, f9, f10, f11⟩ := w.tableHeader_fields n bits tick
    have hheader (o l : Nat) (h : o + l ≤ 64) := w.field_tableHeader n bits tick h
    refine ⟨w.tableBytes_length .., (hheader 0 8 (by decide)).trans f0, (hheader 8 2 (by decide)).trans f1, (hheader 0x0A 2 (by decide)).trans f2,
      (hheader 0x0C 4 (by decide)).trans f3, (hheader 0x10 4 (by decide)).trans f4, (hheader 0x14 4 (by decide)).trans f5,
      (hheader 0x18 2 (by decide)).trans f6, (hheader 0x1A 2 (by decide)).trans f7, (hheader 0x1C 4 (by decide)).trans f8,
      (hheader 0x20 8 (by decide)).trans f9, (hheader 0x28 8 (by decide)).trans f10, (hheader 0x30 16 (by decide)).trans f11, fun i hi => ?_⟩
    have hentry (c l : Nat) (h : c + l ≤ 32) := w.field_tableEntry n bits tick c l hi h
    refine ⟨fun hnone => ?_, fun k r hsome => ?_⟩
    · obtain ⟨g0, g1, g2⟩ := w.tableEntry_none hnone
      exact ⟨(hentry 0 8 (by decide)).trans g0, (hentry 8 4 (by decide)).trans g1, (hentry 12 20 (by decide)).trans g2⟩
    · obtain ⟨g0, g1, g2, g3, g4, g5, g6, g7, g8, g9⟩ := w.tableEntry_some hsome
      exact ⟨(hentry 0 2 (by decide)).trans g0, (hentry 2 1 (by decide)).trans g1, (hentry 3 1 (by decide)).trans g2,
        (hentry 4 4 (by decide)).trans g3, (hentry 8 4 (by decide)).trans g4, (hentry 0x0C 2 (by decide)).trans g5,
        (hentry 0x0E 2 (by decide)).trans g6, (hentry 0x10 8 (by decide)).trans g7, (hentry 0x18 4 (by decide)).trans g8,
        (hentry 0x1C 4 (by decide)).trans g9⟩
  case tiles =>
    obtain ⟨hmem, hctxs, htile⟩ := s.writeTables_tiles x bs hn
    refine ⟨hmem, hctxs, fun t ht => (htile t).trans (if_neg ht), fun t ht => ?_⟩
    have hbytes := inboundWords_bytes winnowIssuer s.gtick (s.winnow x).segOffset bs none
    refine ⟨_, ?_, hbytes, inboundWords_plain _ _ _ bs⟩
    rw [htile, if_pos ht]
    exact Tile.winnowWords_run _ _ _ bs hbytes
  case count =>
    refine (countValue_eq ..).trans ?_
    have hmost : (((s.ctx x).launch.map fun l => countValue (l.quantity (s.ruleField x k 1 1)) (s.ruleField x k 8 4)
        (signExt (s.ruleField x k 0x0C 4) 32) (s.ruleField x k 6 2) (2 ^ 32 - 1)).getD 0 : Nat) =
        countValue (l.quantity (s.ruleField x k 1 1)) (s.ruleField x k 8 4) (signExt (s.ruleField x k 0x0C 4) 32) (s.ruleField x k 6 2) (2 ^ 32 - 1) := by
      rw [hl]
      rfl
    rw [hmost, countValue_eq]
    rfl

end Sys2Proof.Machine
end

