-- ==== Sys2Proof/Proofs/PartitionHalts.lean ====
section
/-! SUPPORT. PARTITION_HALT (R60, R61, R94, R329, R382): the tiles stop, the state block is written, the beats in flight arrive, and what a halt at partition level ends. -/
namespace Sys2Proof.Machine

/-! Folds over tiles. -/

/-- A fold whose step changes its own tile alone, always in the same way, one that is no further change when made again. -/
theorem State.tile_foldl (f : State → Nat → State) (g : Tile → Tile) (hg : ∀ z, g (g z) = g z)
    (hf : ∀ s t j, (f s t).tile j = if t = j then g (s.tile t) else s.tile j) (ts : List Nat) (s : State) (t : Nat) :
    (ts.foldl f s).tile t = if t ∈ ts then g (s.tile t) else s.tile t := by
  induction ts generalizing s with
  | nil => simp
  | cons u ts ih =>
    rw [List.foldl_cons, ih, hf]
    by_cases hu : u = t
    · subst hu; simp [hg]
    · simp [hu, Ne.symm hu]

/-- What a step leaves of all but the tiles, a fold of it leaves. -/
theorem State.foldl_tilesOnly {α : Type} (f : State → α → State) (hf : ∀ s a, ∃ m, f s a = { s with tiles := m }) (l : List α) (s : State) :
    ∃ m, l.foldl f s = { s with tiles := m } := by
  refine List.foldlRecOn (motive := fun u : State => ∃ m, u = { s with tiles := m }) l f ⟨_, rfl⟩ ?_
  rintro _ ⟨m, rfl⟩ a -
  obtain ⟨m', h⟩ := hf { s with tiles := m } a
  exact ⟨m', h⟩

/-! The tiles stop. -/

/-- A transaction of a context's pauses. -/
def Journal.pausedFor (x : Nat) (j : Journal) : Journal := if j.owner < 2 && j.ctx = x then { j with paused := true, due := none } else j

theorem Journal.pausedFor_again (x : Nat) (j : Journal) : (j.pausedFor x).pausedFor x = j.pausedFor x := by
  by_cases h : (j.owner < 2 && j.ctx = x) = true
  · rw [show j.pausedFor x = { j with paused := true, due := none } from if_pos h]
    exact if_pos h
  · rw [show j.pausedFor x = j from if_neg h]
    exact if_neg h

/-- A tile that stops at a tick. -/
def Tile.stoppedAt (x tick : Nat) (z : Tile) : Tile := { z with halt := some tick, journal := z.journal.pausedFor x }

theorem Tile.stoppedAt_again (x tick : Nat) (z : Tile) : (z.stoppedAt x tick).stoppedAt x tick = z.stoppedAt x tick :=
  congrArg (fun j => { z with halt := some tick, journal := j }) (z.journal.pausedFor_again x)

/-- The machine with the tiles of a partition stopped. -/
def State.stopTiles (s : State) (x : Nat) : State := (s.ctx x).tiles.foldl (fun (u : State) t => u.modTile t (Tile.stoppedAt x u.gtick)) s

theorem State.foldl_modTile_tick (g : Nat → Tile → Tile) (ts : List Nat) (s : State) :
    ts.foldl (fun (u : State) t => u.modTile t (g u.gtick)) s = ts.foldl (fun (u : State) t => u.modTile t (g s.gtick)) s := by
  induction ts generalizing s with
  | nil => rw [List.foldl_nil, List.foldl_nil]
  | cons t ts ih => exact ih (s.modTile t (g s.gtick))

theorem State.stopTiles_tile (s : State) (x t : Nat) :
    (s.stopTiles x).tile t = if t ∈ (s.ctx x).tiles then (s.tile t).stoppedAt x s.gtick else s.tile t := by
  rw [State.stopTiles, State.foldl_modTile_tick]
  exact s.tile_foldl_modTile _ (Tile.stoppedAt_again x s.gtick) _ t

theorem State.stopTiles_rest (s : State) (x : Nat) : ∃ m, s.stopTiles x = { s with tiles := m } :=
  State.foldl_tilesOnly _ (fun _ _ => ⟨_, rfl⟩) _ s

/-! The state block (R94). -/

/-- A write of bytes at a context's address releases one write at most, and of those bytes alone. -/
theorem State.ctxPut_forward (s : State) (x va : Nat) (bs : List Byte) : ∃ es, (s.ctxPut x va bs).forward = s.forward ++ es ∧ es.length ≤ 1 ∧
    ∀ e ∈ es, ∀ b ∈ e.write.bytes, ∃ i < bs.length, ∃ pa, s.ctxAddr x (va + i) = .ok pa ∧ b.1 = s.homeAddr pa := by
  rw [s.ctxPut_eq]
  have hcell (c : Nat × Byte) (hc : c ∈ bs.zipIdx.filterMap (s.cellOf x va)) : ∃ i < bs.length, s.ctxAddr x (va + i) = .ok c.1 := by
    obtain ⟨b, hb, he⟩ := List.mem_filterMap.1 hc
    obtain ⟨-, hlt, -⟩ := List.mem_zipIdx hb
    refine ⟨b.2, by simpa using hlt, ?_⟩
    unfold State.cellOf at he
    split at he
    · next pa h => cases he; exact h
    · cases he
  generalize bs.zipIdx.filterMap (s.cellOf x va) = cs at hcell
  split
  · exact ⟨[], (List.append_nil _).symm, Nat.zero_le _, fun e he => absurd he List.not_mem_nil⟩
  unfold State.devWrite
  split
  · exact ⟨[], (List.append_nil _).symm, Nat.zero_le _, fun e he => absurd he List.not_mem_nil⟩
  · obtain ⟨ms, ag, n, h, -⟩ := s.releaseNow_eq { bytes := cs } rfl
    refine ⟨_, by rw [h], Nat.le_refl _, fun e he b hb => ?_⟩
    cases List.mem_singleton.1 he
    obtain ⟨c, hc, rfl⟩ := List.mem_map.1 hb
    obtain ⟨i, hi, ha⟩ := hcell c hc
    exact ⟨i, hi, c.1, ha, rfl⟩

/-- The forced snapshot is one write of the state block; of a LAUNCH without slots nothing. -/
theorem State.forcedSnapshot_eq (s : State) (x : Nat) : s.forcedSnapshot x = s ∨
    (((s.ctx x).launch.map (·.slots)).getD 0 ≠ 0 ∧
      ∃ bs, bs.length = 65536 ∧ s.forcedSnapshot x = (s.ctxPut x (s.winnow x).stateBlock bs).tickFree) := by
  by_cases h : ((s.ctx x).launch.map (·.slots)).getD 0 = 0
  · exact .inl (if_pos h)
  · exact .inr ⟨h, _, (List.length_map ..).trans List.length_range, if_neg h⟩

theorem State.Writes.forcedSnapshot (s : State) (x : Nat) : s.Writes (s.forcedSnapshot x) := by
  obtain h | ⟨-, bs, -, h⟩ := s.forcedSnapshot_eq x
  · rw [h]
    exact .refl s
  · rw [h]
    exact (State.Writes.ctxPut s x _ _).trans ⟨⟨_, _, _, _, _, rfl⟩, fun _ => ⟨_, rfl⟩⟩

/-- The forced snapshot writes into the state block alone, and without slots nothing. -/
theorem State.forcedSnapshot_forward (s : State) (x : Nat) : ∃ es, (s.forcedSnapshot x).forward = s.forward ++ es ∧ es.length ≤ 1 ∧
    (∀ l, (s.ctx x).launch = some l → l.slots = 0 → es = []) ∧
    ∀ e ∈ es, ∀ b ∈ e.write.bytes, ∃ i < 65536, ∃ pa, s.ctxAddr x ((s.winnow x).stateBlock + i) = .ok pa ∧ b.1 = s.homeAddr pa := by
  obtain h | ⟨hslots, bs, hbs, h⟩ := s.forcedSnapshot_eq x
  · rw [h]
    exact ⟨[], (List.append_nil _).symm, Nat.zero_le _, fun _ _ _ => rfl, fun e he => absurd he List.not_mem_nil⟩
  · rw [h]
    obtain ⟨es, hf, hlen, hb⟩ := s.ctxPut_forward x (s.winnow x).stateBlock bs
    rw [hbs] at hb
    exact ⟨es, hf, hlen, fun l hl hs => absurd (by rw [hl]; exact hs) hslots, hb⟩

/-! Beats in flight (R329). -/

/-- Acknowledgments come by a tick at the latest. -/
def CopyQueue.clamped (limit : Nat) (z : CopyQueue) : CopyQueue :=
  { z with cmds := z.cmds.map fun k => { k with acks := k.acks.map fun a => (min a.1 limit, a.2) } }
def Seq.clamped (limit : Nat) (y : Seq) : Seq := { y with c0 := y.c0.clamped limit, c1 := y.c1.clamped limit }
def Tile.clamped (limit : Nat) (z : Tile) : Tile := { z with a := z.a.clamped limit, b := z.b.clamped limit }

theorem CopyQueue.clamped_again (limit : Nat) (z : CopyQueue) : (z.clamped limit).clamped limit = z.clamped limit := by
  simp [CopyQueue.clamped, List.map_map, Function.comp_def]

theorem CopyQueue.clamped_empty (limit : Nat) (z : CopyQueue) (h : z.cmds.isEmpty = true) : z.clamped limit = z := by
  have : z.cmds = [] := List.isEmpty_iff.1 h
  unfold CopyQueue.clamped
  rw [this, List.map_nil, ← this]

theorem Tile.clamped_again (limit : Nat) (z : Tile) : (z.clamped limit).clamped limit = z.clamped limit := by
  simp only [Tile.clamped, Seq.clamped, CopyQueue.clamped_again]

/-- One queue's acknowledgments come by a tick at the latest. -/
def State.clampQueue (s : State) (t limit : Nat) (e : Nat × Nat) : State :=
  if (s.queueOf t e.1 e.2).cmds.isEmpty then s
  else s.modQueue t e.1 e.2 fun z => { z with cmds := z.cmds.map fun k => { k with acks := k.acks.map fun a => (min a.1 limit, a.2) } }

/-- The queues of one tile. -/
def State.clampTile (s : State) (limit t : Nat) : State := tileQueues.foldl (fun (u : State) e => u.clampQueue t limit e) s

theorem State.clampQueue_rest (s : State) (t limit : Nat) (e : Nat × Nat) : ∃ m, s.clampQueue t limit e = { s with tiles := m } := by
  unfold State.clampQueue
  split <;> exact ⟨_, rfl⟩

theorem State.clampTile_rest (s : State) (limit t : Nat) : ∃ m, s.clampTile limit t = { s with tiles := m } :=
  State.foldl_tilesOnly _ (fun u e => u.clampQueue_rest t limit e) _ s

/-- A tile with one of its queues clamped. -/
def Tile.clampedQueue (limit : Nat) (e : Nat × Nat) (z : Tile) : Tile :=
  z.setSeq e.1 ((z.seq e.1).setQueue e.2 (((z.seq e.1).queue e.2).clamped limit))

theorem Tile.setSeq_setQueue_self (z : Tile) (q c : Nat) : z.setSeq q ((z.seq q).setQueue c ((z.seq q).queue c)) = z := by
  unfold Tile.setSeq Tile.seq Seq.setQueue Seq.queue
  split <;> split <;> rfl

theorem State.clampQueue_tile (s : State) (t limit : Nat) (e : Nat × Nat) (j : Nat) :
    (s.clampQueue t limit e).tile j = if t = j then (s.tile t).clampedQueue limit e else s.tile j := by
  unfold State.clampQueue
  split
  · next h =>
    split
    · next ht =>
      subst ht
      have hsame : (((s.tile t).seq e.1).queue e.2).clamped limit = ((s.tile t).seq e.1).queue e.2 := CopyQueue.clamped_empty limit _ h
      rw [Tile.clampedQueue, hsame, Tile.setSeq_setQueue_self]
    · rfl
  · exact State.tile_modTile ..

theorem Tile.clampedQueue_all (limit : Nat) (z : Tile) :
    (((z.clampedQueue limit (0, 0)).clampedQueue limit (0, 1)).clampedQueue limit (1, 0)).clampedQueue limit (1, 1) = z.clamped limit := by
  have ha0 (z : Tile) : z.clampedQueue limit (0, 0) = { z with a := { z.a with c0 := z.a.c0.clamped limit } } := rfl
  have ha1 (z : Tile) : z.clampedQueue limit (0, 1) = { z with a := { z.a with c1 := z.a.c1.clamped limit } } := rfl
  have hb0 (z : Tile) : z.clampedQueue limit (1, 0) = { z with b := { z.b with c0 := z.b.c0.clamped limit } } := rfl
  have hb1 (z : Tile) : z.clampedQueue limit (1, 1) = { z with b := { z.b with c1 := z.b.c1.clamped limit } } := rfl
  rw [ha0, ha1, hb0, hb1]
  rfl

theorem State.clampTile_tile (s : State) (limit t j : Nat) : (s.clampTile limit t).tile j = if t = j then (s.tile t).clamped limit else s.tile j := by
  have hfold (es : List (Nat × Nat)) (u : State) : (es.foldl (fun (u : State) e => u.clampQueue t limit e) u).tile j =
      if t = j then es.foldl (fun z e => z.clampedQueue limit e) (u.tile t) else u.tile j := by
    induction es generalizing u with
    | nil => split <;> simp_all
    | cons e es ih =>
      rw [List.foldl_cons, ih, State.clampQueue_tile, State.clampQueue_tile, if_pos rfl, List.foldl_cons]
      split <;> rfl
  exact (hfold tileQueues s).trans (ite_congr rfl (fun _ => Tile.clampedQueue_all limit (s.tile t)) fun _ => rfl)

/-- The beats of a partition that travel arrive before a tick. -/
def State.beatsIn (s : State) (ts : List Nat) (limit : Nat) : State :=
  let mine (n : Nat) : Bool := ts.contains (n / 2) && n < 768
  let near (e : ExternalWrite) : ExternalWrite := if 1000 ≤ e.agent && mine (e.agent - 1000) then { e with arrived := min e.arrived (limit - 1) } else e
  let beat (e : Nat × Inbound) : Bool := e.2.arrival && mine e.2.issuer
  { s with ingress := (s.ingress.map near).foldl (fun l e => insertArrival e l) [],
           aperture := s.aperture.map fun e => if beat e then (e.1, { e.2 with due := min e.2.due (limit - 1) }) else e }

/-- The machine with the queues of a partition's tiles clamped. -/
def State.clampTiles (s : State) (x : Nat) : State := (s.ctx x).tiles.foldl (fun u t => u.clampTile (s.gtick + 1260) t) s

theorem State.clampTiles_rest (s : State) (x : Nat) : ∃ m, s.clampTiles x = { s with tiles := m } :=
  State.foldl_tilesOnly _ (fun u t => u.clampTile_rest (s.gtick + 1260) t) _ s

theorem State.clampTiles_tile (s : State) (x t : Nat) :
    (s.clampTiles x).tile t = if t ∈ (s.ctx x).tiles then (s.tile t).clamped (s.gtick + 1260) else s.tile t :=
  State.tile_foldl _ (Tile.clamped (s.gtick + 1260)) (Tile.clamped_again _) (fun u t j => u.clampTile_tile (s.gtick + 1260) t j) _ s t

theorem State.clampBeats_eq (s : State) (x : Nat) : ∃ ag,
    s.clampBeats x = { (s.clampTiles x).beatsIn (s.ctx x).tiles (s.gtick + 1260) with agenda := ag } := by
  refine List.foldlRecOn (motive := fun u : State => ∃ ag, u = { (s.clampTiles x).beatsIn (s.ctx x).tiles (s.gtick + 1260) with agenda := ag })
    _ _ ⟨((s.clampTiles x).beatsIn (s.ctx x).tiles (s.gtick + 1260)).agenda, rfl⟩ ?_
  rintro _ ⟨ag, rfl⟩ o -
  exact ⟨_, rfl⟩

theorem State.beatsIn_aperture (s : State) (ts : List Nat) (limit : Nat) : ∀ e ∈ (s.beatsIn ts limit).aperture, e.2.arrival = true → e.2.issuer < 768 →
    e.2.issuer / 2 ∈ ts → e.2.due ≤ limit - 1 := by
  intro e he ha hi ht
  obtain ⟨d, -, rfl⟩ := List.mem_map.1 he
  dsimp only at ha hi ht ⊢
  split
  · exact Nat.min_le_right ..
  · next h =>
    rw [if_neg h] at ha hi ht
    exact absurd (by simp [ha, hi, ht]) h

/-- What a clamped queue keeps, and by when its acknowledgments come. -/
theorem Tile.clamped_queues (limit : Nat) (z : Tile) (q : Nat) :
    { (z.clamped limit).seq q with c0 := (z.seq q).c0, c1 := (z.seq q).c1 } = z.seq q ∧
      ∀ c, (((z.clamped limit).seq q).queue c).cmds.length = ((z.seq q).queue c).cmds.length ∧
        ∀ k ∈ (((z.clamped limit).seq q).queue c).cmds, ∀ a ∈ k.acks, a.1 ≤ limit := by
  have hseq : (z.clamped limit).seq q = (z.seq q).clamped limit := by
    unfold Tile.seq Tile.clamped
    split <;> rfl
  have hqueue (c : Nat) : ((z.seq q).clamped limit).queue c = ((z.seq q).queue c).clamped limit := by
    unfold Seq.queue Seq.clamped
    split <;> rfl
  rw [hseq]
  refine ⟨rfl, fun c => ?_⟩
  rw [hqueue]
  refine ⟨List.length_map .., fun k hk a ha => ?_⟩
  obtain ⟨k, -, rfl⟩ := List.mem_map.1 hk
  obtain ⟨a, -, rfl⟩ := List.mem_map.1 ha
  exact Nat.min_le_right ..

/-! PARTITION_HALT. -/

/-- The machine as its partition stands: tiles stopped, state block written, beats at their ends. -/
def State.stands (s : State) (x : Nat) : State := ((s.stopTiles x).forcedSnapshot x).clampBeats x

/-- What of the machine a halt changes before the partition counts as halted. -/
theorem State.stands_spec (s : State) (x : Nat) :
    (s.stands x).ctxs = s.ctxs ∧ (s.stands x).mem = s.mem ∧ (s.stands x).gtick = s.gtick ∧ (s.stands x).forward = ((s.stopTiles x).forcedSnapshot x).forward ∧
    (∀ e ∈ (s.stands x).aperture, e.2.arrival = true → e.2.issuer < 768 → e.2.issuer / 2 ∈ (s.ctx x).tiles → e.2.due ≤ s.gtick + 1259) ∧
    ∀ t ∈ (s.ctx x).tiles, ∃ ib, (s.stands x).tile t = ({ (s.tile t).stoppedAt x s.gtick with inbound := ib } : Tile).clamped (s.gtick + 1260) := by
  obtain ⟨m, hm⟩ := s.stopTiles_rest x
  have hstop (t : Nat) := s.stopTiles_tile x t
  unfold State.stands
  generalize s.stopTiles x = a at *
  have hw := State.Writes.forcedSnapshot a x
  generalize a.forcedSnapshot x = b at *
  have hctxs : b.ctxs = s.ctxs := by rw [hw.ctxs, hm]
  have hctx : b.ctx x = s.ctx x := by rw [State.ctx, hctxs]; rfl
  have htick : b.gtick = s.gtick := by rw [hw.gtick, hm]
  obtain ⟨m', hm'⟩ := b.clampTiles_rest x
  have hclamp (t : Nat) := b.clampTiles_tile x t
  obtain ⟨ag, hb⟩ := b.clampBeats_eq x
  rw [hb, hctx, htick]
  rw [hctx, htick] at hclamp
  generalize b.clampTiles x = c at *
  refine ⟨by rw [← hctxs, hm']; rfl, ?_, ?_, ?_, c.beatsIn_aperture _ _, fun t ht => ?_⟩
  · show c.mem = s.mem
    rw [hm', hw.mem, hm]
  · show c.gtick = s.gtick
    rw [hm', htick]
  · show c.forward = b.forward
    rw [hm']
  · obtain ⟨ib, hib⟩ := hw.tile t
    refine ⟨ib, ?_⟩
    show c.tile t = _
    rw [hclamp, if_pos ht, hib, hstop, if_pos ht]

/-- What is taken for a swap: 1261 ticks at the least, the bound of R64 at the most. -/
theorem State.saveTicks_bounds (s : State) (x : Nat) :
    1261 ≤ s.saveTicks x ∧ s.saveTicks x ≤ 21600 + 600 * (((s.ctx x).tiles.length + 31) / 32 - 1) := by
  have hbound : s.swapBound x = 21600 + 600 * (((s.ctx x).tiles.length + 31) / 32 - 1) := rfl
  unfold State.saveTicks
  rw [hbound]
  have := Nat.mod_lt (Config.serviceDelay s.free) (show 0 < 21600 + 600 * (((s.ctx x).tiles.length + 31) / 32 - 1) - 1260 by omega)
  omega

/-- The end of a halt below partition level. -/
theorem State.partitionHalt_eq (s : State) (x level code : Nat) (hp : (s.ctx x).part = .halting) (he : (s.ctx x).ending = some (level, code))
    (h4 : level ≠ 4) (h5 : level ≠ 5) (hc : (s.ctx x).winnow.closing = none) : ∃ n,
    s.partitionHalt x = (((s.stands x).modCtx x fun c => { c with part := .halted }).after n .contextSwap [x]).tickFree ∧
      1261 ≤ n ∧ n ≤ 21600 + 600 * (((s.ctx x).tiles.length + 31) / 32 - 1) := by
  have hctx : (s.stands x).ctx x = s.ctx x := by rw [State.ctx, s.stands_spec x |>.1]; rfl
  refine ⟨(s.stands x).saveTicks x, ?_, ?_⟩
  · unfold State.partitionHalt
    dsimp only
    rw [he]
    dsimp only
    rw [if_neg (by rw [hp]; decide), if_neg h4, if_neg h5, if_neg (by rw [hc]; decide)]
    rfl
  · rw [← hctx]
    exact (s.stands x).saveTicks_bounds x

theorem State.stands_forward (s : State) (x : Nat) : ∃ es, (s.stands x).forward = s.forward ++ es ∧ es.length ≤ 1 ∧
    (∀ l, (s.ctx x).launch = some l → l.slots = 0 → es = []) ∧
    ∀ e ∈ es, ∀ b ∈ e.write.bytes, ∃ i < 65536, ∃ pa, s.ctxAddr x ((s.winnow x).stateBlock + i) = .ok pa ∧ b.1 = s.homeAddr pa := by
  obtain ⟨-, -, -, hf, -⟩ := s.stands_spec x
  obtain ⟨m, hm⟩ := s.stopTiles_rest x
  have himage : s.SameImage (s.stopTiles x) x := by
    rw [hm]
    exact ⟨rfl, rfl, rfl⟩
  have hhome : (s.stopTiles x).homeAddr = s.homeAddr := by rw [hm]; rfl
  obtain ⟨es, he, hlen, hslots, hbytes⟩ := (s.stopTiles x).forcedSnapshot_forward x
  rw [← hf, show (s.stopTiles x).forward = s.forward by rw [hm]] at he
  rw [show (s.stopTiles x).ctx x = s.ctx x by rw [hm]; rfl] at hslots
  simp only [himage.ctxAddr, hhome, show (s.stopTiles x).winnow x = s.winnow x by rw [hm]; rfl] at hbytes
  exact ⟨es, he, hlen, hslots, hbytes⟩

/-- A partition that stands counts as halted, and its swap is planned. -/
theorem State.halted_spec (v : State) (x n : Nat) : let u := ((v.modCtx x fun c => { c with part := .halted }).after n .contextSwap [x]).tickFree
    u.ctx x = { v.ctx x with part := .halted } ∧ (∀ t, u.tile t = v.tile t) ∧ u.mem = v.mem ∧ u.forward = v.forward ∧ u.aperture = v.aperture ∧
      u.planned .contextSwap [x] (v.gtick + n) (v.gtick + n) :=
  ⟨v.ctx_modCtx_same x fun c => { c with part := .halted }, fun _ => rfl, rfl, rfl, rfl, State.planned_after (v.modCtx x fun c => { c with part := .halted }) ..⟩

/-- A halt below partition level: the partition stands, and its swap is to come. -/
theorem State.partitionHalt_halts (s : State) (x level code : Nat) (hp : (s.ctx x).part = .halting) (he : (s.ctx x).ending = some (level, code))
    (h4 : level ≠ 4) (h5 : level ≠ 5) (hc : (s.ctx x).winnow.closing = none) :
    let u := s.partitionHalt x
    (u.ctx x).part = .halted ∧ (u.ctx x).winnow = (s.ctx x).winnow ∧ u.mem = s.mem ∧
      (∃ es, u.forward = s.forward ++ es ∧ es.length ≤ 1 ∧ (∀ l, (s.ctx x).launch = some l → l.slots = 0 → es = []) ∧
        ∀ e ∈ es, ∀ b ∈ e.write.bytes, ∃ i < 65536, ∃ pa, s.ctxAddr x ((s.ctx x).winnow.stateBlock + i) = .ok pa ∧ b.1 = s.homeAddr pa) ∧
      (∀ e ∈ u.aperture, e.2.arrival = true → e.2.issuer < 768 → e.2.issuer / 2 ∈ (s.ctx x).tiles → e.2.due ≤ s.gtick + 1259) ∧
      u.planned .contextSwap [x] (s.gtick + 1261) (s.gtick + 21600 + 600 * (((s.ctx x).tiles.length + 31) / 32 - 1)) ∧
      ∀ t ∈ (s.ctx x).tiles, (u.tile t).halt = some s.gtick ∧ (u.tile t).spad = (s.tile t).spad ∧ ∀ q,
        { u.seq t q with c0 := (s.seq t q).c0, c1 := (s.seq t q).c1 } = s.seq t q ∧
        ∀ c < 2, (u.queueOf t q c).cmds.length = (s.queueOf t q c).cmds.length ∧ ∀ k ∈ (u.queueOf t q c).cmds, ∀ a ∈ k.acks, a.1 ≤ s.gtick + 1260 := by
  intro u
  obtain ⟨n, hu, hlo, hhi⟩ := s.partitionHalt_eq x level code hp he h4 h5 hc
  obtain ⟨hctxs, hmem, htick, -, hap, htile⟩ := s.stands_spec x
  have hforward := s.stands_forward x
  have hctx : (s.stands x).ctx x = s.ctx x := by rw [State.ctx, hctxs]; rfl
  generalize s.stands x = v at *
  obtain ⟨huctx, hutile, humem, hufw, huap, hplan⟩ := v.halted_spec x n
  rw [← hu] at huctx hutile humem hufw huap hplan
  rw [hctx] at huctx
  rw [htick] at hplan
  rw [← hufw] at hforward
  rw [← huap] at hap
  refine ⟨by rw [huctx], by rw [huctx], humem.trans hmem, hforward, hap, State.planned_widen hplan (by omega) (by omega), fun t ht => ?_⟩
  · obtain ⟨ib, h⟩ := htile t ht
    have hz : u.tile t = _ := (hutile t).trans h
    refine ⟨by rw [hz]; rfl, by rw [hz]; rfl, fun q => ?_⟩
    obtain ⟨hseq, hqueue⟩ := Tile.clamped_queues (s.gtick + 1260) { (s.tile t).stoppedAt x s.gtick with inbound := ib } q
    have hsame : ({ (s.tile t).stoppedAt x s.gtick with inbound := ib } : Tile).seq q = s.seq t q := rfl
    rw [hsame] at hseq hqueue
    simp only [State.queueOf, State.seq, hz]
    exact ⟨hseq, fun c _ => hqueue c⟩

/-! The end at partition level (R382). -/

/-- The entries of some tiles in one die's buffer are discarded. -/
def State.discardDie (s : State) (ts : List Nat) (d : Nat) : State :=
  if (s.die d).staging.isEmpty then s else s.setDie d { s.die d with staging := (s.die d).staging.filter fun e => !ts.contains (e.party / 2) }

theorem State.discardStaging_eq (s : State) (ts : List Nat) : s.discardStaging ts = (List.range 4).foldl (fun u d => u.discardDie ts d) s := rfl

theorem State.discardDie_staging (s : State) (ts : List Nat) (d j : Nat) :
    ∀ e ∈ ((s.discardDie ts d).die j).staging, e ∈ (s.die j).staging ∧ (d = j → e.party / 2 ∉ ts) := by
  intro e he
  unfold State.discardDie at he
  split at he
  · next hempty => exact ⟨he, fun h => absurd he (by rw [← h, List.isEmpty_iff.1 hempty]; exact List.not_mem_nil)⟩
  · rw [State.die_setDie] at he
    split at he
    · next h =>
      obtain ⟨hm, ht⟩ := List.mem_filter.1 he
      exact ⟨h ▸ hm, fun _ => by simpa using ht⟩
    · next h => exact ⟨he, fun h' => absurd h' h⟩

/-- No entry of the tiles is staged any more. -/
theorem State.discardStaging_spec (s : State) (ts : List Nat) : (∃ ds, s.discardStaging ts = { s with dies := ds }) ∧
    ∀ d < 4, ∀ e ∈ ((s.discardStaging ts).die d).staging, e.party / 2 ∉ ts := by
  rw [s.discardStaging_eq]
  refine ⟨?_, fun d hd => ?_⟩
  · refine List.foldlRecOn (motive := fun u : State => ∃ ds, u = { s with dies := ds }) _ _ ⟨_, rfl⟩ ?_
    rintro _ ⟨ds, rfl⟩ d -
    unfold State.discardDie
    split <;> exact ⟨_, rfl⟩
  · have hall (ds : List Nat) (u : State) (h : d ∈ ds ∨ ∀ e ∈ (u.die d).staging, e.party / 2 ∉ ts) :
        ∀ e ∈ ((ds.foldl (fun u d => u.discardDie ts d) u).die d).staging, e.party / 2 ∉ ts := by
      induction ds generalizing u with
      | nil => exact h.resolve_left List.not_mem_nil
      | cons j ds ih =>
        refine ih _ ?_
        rcases h with h | h
        · exact (List.mem_cons.1 h).symm.imp_right fun hj e he => (u.discardDie_staging ts j d e he).2 hj.symm
        · exact .inr fun e he => h e (u.discardDie_staging ts j d e he).1
    exact hall (List.range 4) s (.inl (List.mem_range.2 hd))

theorem State.freeTiles_rest (s : State) (x : Nat) : ∃ m ag, s.freeTiles x = { s with tiles := m, agenda := ag } := by
  have hfreed (u : State) (t d : Nat) : ∃ m ag, u.tileFreed t d = { u with tiles := m, agenda := ag } := by
    unfold State.tileFreed
    split
    · split <;> exact ⟨_, _, rfl⟩
    · obtain h | ⟨mv, h⟩ := u.gapEnter_eq t (2 ^ 64) d
      · exact ⟨_, _, h⟩
      · exact ⟨_, _, h⟩
  rw [State.freeTiles_eq]
  refine List.foldlRecOn (motive := fun u : State => ∃ m ag, u = { s with tiles := m, agenda := ag }) _ _ ⟨_, _, rfl⟩ ?_
  rintro _ ⟨m, ag, rfl⟩ t -
  unfold State.freeTile
  dsimp only
  split
  · obtain ⟨m', ag', h⟩ := hfreed ((({ s with tiles := m, agenda := ag } : State).modTile t (·.withoutImage x)).modTile t (·.givenBack x)) t 3
    exact ⟨m', ag', h⟩
  · exact ⟨_, _, rfl⟩

/-- The end of a LAUNCH leaves what is staged and the log. -/
theorem State.finishLaunch_leaves (s : State) (x code : Nat) : (s.finishLaunch x code).dies = s.dies ∧ (s.finishLaunch x code).log = s.log := by
  cases hl : (s.ctx x).launch with
  | none =>
    have : s.finishLaunch x code = s := by
      unfold State.finishLaunch
      dsimp only
      rw [hl]
    rw [this]
    exact ⟨rfl, rfl⟩
  | some l =>
    obtain ⟨ag, n, h⟩ := s.finishLaunch_eq x code l hl
    obtain ⟨m, ag', hfree⟩ := (s.dropBind x).freeTiles_rest x
    have hdrop : (s.dropBind x).dies = s.dies ∧ (s.dropBind x).log = s.log := by
      unfold State.dropBind
      split <;> exact ⟨rfl, rfl⟩
    rw [h, hfree]
    exact hdrop

theorem State.ctx_modWinnow (s : State) (x : Nat) (f : Winnow → Winnow) : (s.modWinnow x f).ctx x = { s.ctx x with winnow := f (s.winnow x) } :=
  State.ctx_modCtx_same ..

/-- Requests that are interrupted: Winnow's state of the context changes, and writes go out. -/
theorem State.interruptAll_spec (s : State) (x : Nat) : (∃ w, (s.interruptAll x).ctx x = { s.ctx x with winnow := w }) ∧
    (∀ t, ∃ ib, (s.interruptAll x).tile t = { s.tile t with inbound := ib }) ∧ (s.interruptAll x).dies = s.dies ∧ (s.interruptAll x).log = s.log := by
  unfold State.interruptAll
  dsimp only
  generalize hv : State.modWinnow s x _ = v
  have hctx : ∃ w, v.ctx x = { s.ctx x with winnow := w } := hv ▸ ⟨_, s.ctx_modWinnow x _⟩
  have hrest : v.tiles = s.tiles ∧ v.dies = s.dies ∧ v.log = s.log := hv ▸ ⟨rfl, rfl, rfl⟩
  generalize List.map _ _ = ks
  have hw : v.Writes (ks.foldl (fun (s : State) k => s.writeRecord x k) (ks.foldl (fun (s : State) k => s.writeRing x k) v)) :=
    (State.Writes.foldl _ (fun u k => .writeRing u x k) _ _).trans (.foldl _ (fun u k => .writeRecord u x k) _ _)
  generalize ks.foldl (fun (s : State) k => s.writeRecord x k) _ = u at *
  obtain ⟨w, hc⟩ := hctx
  refine ⟨?_, fun t => ?_, hw.dies.trans hrest.2.1, hw.log.trans hrest.2.2⟩
  · rw [State.ctx_modWinnow, hw.ctx, hc]
    exact ⟨_, rfl⟩
  · obtain ⟨ib, h⟩ := hw.tile t
    exact ⟨ib, h.trans (by rw [State.tile, hrest.1]; rfl)⟩

/-- The end at partition level: no launch is left, its tiles are free, and nothing of theirs is staged. -/
theorem State.endLaunch_ends (s : State) (x code : Nat) (l : Launch) (hl : (s.ctx x).launch = some l) :
    let u := s.endLaunch x code
    (u.ctx x).launch = none ∧ (u.ctx x).part = .unbound ∧ (∀ t ∈ (s.ctx x).tiles, (s.tile t).ctx = some x → (u.tile t).ctx = none) ∧
      (∀ d < 4, ∀ e ∈ (u.die d).staging, ∀ t ∈ (s.ctx x).tiles, (s.tile t).ctx = some x → e.party / 2 ≠ t) ∧ u.log = s.log := by
  intro u
  obtain ⟨⟨ds, hds⟩, hstaged⟩ := s.discardStaging_spec ((s.ctx x).tiles.filter fun t => (s.tile t).ctx == some x)
  have hu : u = ((s.discardStaging ((s.ctx x).tiles.filter fun t => (s.tile t).ctx == some x)).finishLaunch x code).interruptAll x := rfl
  generalize s.discardStaging _ = a at *
  have hctx : a.ctx x = s.ctx x := by rw [hds]; rfl
  have htile (t : Nat) : a.tile t = s.tile t := by rw [hds]; rfl
  obtain ⟨hlaunch, hpart, -, hfree⟩ := a.finishLaunch_ends x code l (by rw [hctx, hl])
  obtain ⟨hdies, hlog⟩ := a.finishLaunch_leaves x code
  generalize a.finishLaunch x code = b at *
  obtain ⟨⟨w, hw⟩, hib, hdies', hlog'⟩ := b.interruptAll_spec x
  rw [← hu] at hw hib hdies' hlog'
  refine ⟨by rw [hw]; exact hlaunch, by rw [hw]; exact hpart, fun t ht hx => ?_, fun d hd e he t ht hx hp => ?_, ?_⟩
  · obtain ⟨ib, h⟩ := hib t
    rw [h]
    exact hfree t (by rw [hctx]; exact ht) (by rw [htile]; exact hx)
  · have hmem : e ∈ (a.die d).staging := by rwa [State.die, hdies', hdies] at he
    exact hstaged d hd e hmem (List.mem_filter.2 ⟨hp ▸ ht, by rw [hp, hx]; exact beq_self_eq_true _⟩)
  · rw [hlog', hlog, hds]

theorem State.partitionHalt_ends (s : State) (x code : Nat) (hp : (s.ctx x).part = .halting) (he : (s.ctx x).ending = some (4, code)) :
    s.partitionHalt x = s.endLaunch x code := by
  unfold State.partitionHalt
  dsimp only
  rw [he]
  dsimp only
  rw [if_neg (by rw [hp]; decide), if_pos rfl]

end Sys2Proof.Machine
end

