-- ==== Sys2Proof/Proofs/ContextSwaps.lean ====
section
/-! SUPPORT. CONTEXT_SWAP (R63, R64): the L1 goes back, what is staged is released, and every tile's image is saved. -/
namespace Sys2Proof.Machine

/-! The L1 goes back (R64). -/

/-- What a sequencer is to write back. -/
def Seq.backs (y : Seq) : List GlobalWrite := y.writeBacks (fun _ => true) id

theorem Seq.backs_plain (y : Seq) : ∀ w ∈ y.backs, w.add = false := by
  intro w hw
  obtain ⟨l, -, hw⟩ := List.mem_flatMap.1 hw
  obtain ⟨i, -, hw⟩ := List.mem_filterMap.1 (show w ∈ (List.range 4).filterMap (l.writeBack (id l.scope)) from hw)
  unfold Line.writeBack at hw
  dsimp only at hw
  split at hw
  · cases hw
  · cases hw; rfl

/-- A sequencer whose lines are all clean writes nothing back. -/
theorem Seq.backs_clean (y : Seq) : ({ y.cleanLines (fun _ => true) id with tlb := [] } : Seq).backs = [] := by
  refine List.flatMap_eq_nil_iff.2 fun l hl => ?_
  obtain ⟨l, -, rfl⟩ := List.mem_map.1 hl
  refine List.filterMap_eq_nil_iff.2 fun i _ => ?_
  simp [Line.writeBack]

/-- A sequencer but for its L1. -/
def Seq.withoutL1 (y : Seq) : Seq := { y with l1 := [], tlb := [] }

/-- From `s` to `u` sequencers of some tiles have written lines back into the staging buffers. -/
structure State.WrittenBack (s u : State) (ts : List Nat) : Prop where
  rest : ∃ m ds, u = { s with tiles := m, dies := ds }
  tile : ∀ t, ∃ a b, u.tile t = { s.tile t with a := a, b := b }
  seq : ∀ t q, (u.seq t q).withoutL1 = (s.seq t q).withoutL1
  less : ∀ t q, ∀ w ∈ (u.seq t q).backs, w ∈ (s.seq t q).backs
  staged : ∀ t, ∀ q < 2, ∀ w ∈ (s.seq t q).backs, w ∈ (u.seq t q).backs ∨
    ∃ e ∈ (u.die (dieOf t)).staging, e.party = seqNumber t q ∧ e.write = w ∧ e.wrong = []
  old : ∀ d, ∀ e ∈ (s.die d).staging, e ∈ (u.die d).staging
  new : ∀ d, ∀ e ∈ (u.die d).staging, e ∈ (s.die d).staging ∨ ∃ t ∈ ts, ∃ q < 2, e.party = seqNumber t q ∧ e.write ∈ (s.seq t q).backs

theorem State.WrittenBack.refl (s : State) (ts : List Nat) : s.WrittenBack s ts where
  rest := ⟨_, _, rfl⟩
  tile _ := ⟨_, _, rfl⟩
  seq _ _ := rfl
  less _ _ _ h := h
  staged _ _ _ _ h := .inl h
  old _ _ h := h
  new _ _ h := .inl h

/-- The entries that a sequencer's write-back stages. -/
def State.backEntries (s : State) (t q : Nat) : List StagingEntry := (s.seq t q).backs.map fun w => { party := seqNumber t q, tick := s.gtick, write := w }

theorem State.swapL1_rest (s : State) (t q : Nat) : ∃ m ds, s.swapL1 t q = { s with tiles := m, dies := ds } := by
  unfold State.swapL1
  dsimp only
  split <;> exact ⟨_, _, rfl⟩

theorem State.swapL1_die (s : State) (t q d : Nat) :
    ((s.swapL1 t q).die d).staging = if d = dieOf t then (s.die d).staging ++ s.backEntries t q else (s.die d).staging := by
  show (State.die (if (s.backEntries t q).isEmpty then _ else _) d).staging = _
  split
  · next h => rw [List.isEmpty_iff.1 h, List.append_nil, ite_self]; rfl
  · rw [State.die_setDie]
    split
    · next h => rw [if_pos h.symm, ← h]; rfl
    · next h => rw [if_neg (Ne.symm h)]; rfl

theorem State.swapL1_tile (s : State) (t q j : Nat) : (s.swapL1 t q).tile j =
    if t = j then (s.tile t).setSeq q { (s.seq t q).cleanLines (fun _ => true) id with tlb := [] } else s.tile j := by
  have h : (s.swapL1 t q).tile j = (s.setSeq t q { (s.seq t q).cleanLines (fun _ => true) id with tlb := [] }).tile j := by
    unfold State.swapL1
    dsimp only
    split <;> rfl
  rw [h]
  exact State.tile_modTile ..

theorem State.swapL1_seq (s : State) (t q j p : Nat) : (s.swapL1 t q).seq j p =
    if t = j ∧ (q = 0 ↔ p = 0) then { (s.seq t q).cleanLines (fun _ => true) id with tlb := [] } else s.seq j p := by
  rw [State.seq, State.swapL1_tile]
  by_cases ht : t = j
  · subst ht
    rw [if_pos rfl, Tile.seq_setSeq]
    exact ite_congr (propext ⟨fun h => ⟨rfl, h⟩, (·.2)⟩) (fun _ => rfl) fun _ => rfl
  · rw [if_neg ht, if_neg fun h => ht h.1]
    rfl

theorem State.seq_congr (s : State) (t : Nat) {p q : Nat} (h : q = 0 ↔ p = 0) : s.seq t q = s.seq t p := by
  unfold State.seq Tile.seq
  simp only [h]

/-- One sequencer's write-back is a step of that kind. -/
theorem State.WrittenBack.swapL1 {s u : State} {ts : List Nat} (h : s.WrittenBack u ts) {t q : Nat} (ht : t ∈ ts) (hq : q < 2) :
    s.WrittenBack (u.swapL1 t q) ts where
  rest := by
    obtain ⟨m, ds, hu⟩ := h.rest
    obtain ⟨m', ds', hv⟩ := u.swapL1_rest t q
    exact ⟨m', ds', by rw [hv, hu]⟩
  tile j := by
    obtain ⟨a, b, hj⟩ := h.tile j
    rw [State.swapL1_tile]
    split
    · next hj' =>
      subst hj'
      rw [hj, Tile.setSeq]
      split <;> exact ⟨_, _, rfl⟩
    · exact ⟨a, b, hj⟩
  seq j p := by
    rw [State.swapL1_seq]
    split
    · next hj =>
      obtain ⟨rfl, hp⟩ := hj
      rw [← s.seq_congr t hp]
      exact h.seq t q
    · exact h.seq j p
  less j p w hw := by
    rw [State.swapL1_seq] at hw
    split at hw
    · rw [Seq.backs_clean] at hw
      cases hw
    · exact h.less j p w hw
  staged j p hp w hw := by
    rcases h.staged j p hp w hw with hback | ⟨e, he, hr⟩
    · rw [State.swapL1_seq, State.swapL1_die]
      by_cases hj : t = j ∧ (q = 0 ↔ p = 0)
      · obtain ⟨rfl, hqp⟩ := hj
        obtain rfl : q = p := by omega
        exact .inr ⟨_, by rw [if_pos rfl]; exact List.mem_append_right _ (List.mem_map_of_mem hback), rfl, rfl, rfl⟩
      · rw [if_neg hj]
        exact .inl hback
    · refine .inr ⟨e, ?_, hr⟩
      rw [State.swapL1_die]
      split
      · exact List.mem_append_left _ he
      · exact he
  old d e he := by
    rw [State.swapL1_die]
    split
    · exact List.mem_append_left _ (h.old d e he)
    · exact h.old d e he
  new d e he := by
    rw [State.swapL1_die] at he
    split at he
    · rcases List.mem_append.1 he with he | he
      · exact h.new d e he
      · obtain ⟨w, hw, rfl⟩ := List.mem_map.1 he
        exact .inr ⟨t, ht, q, hq, rfl, h.less t q w hw⟩
    · exact h.new d e he

/-- The machine with every L1 of some tiles written back. -/
def State.linesBack (s : State) (ts : List Nat) : State := ts.foldl (fun u t => (u.swapL1 t 0).swapL1 t 1) s

/-- Every line of the tiles is written back. -/
theorem State.linesBack_spec (s : State) (ts : List Nat) : s.WrittenBack (s.linesBack ts) ts ∧
    ∀ t ∈ ts, ∀ q < 2, ((s.linesBack ts).seq t q).backs = [] := by
  have hclean (u : State) (j q : Nat) (hq : q < 2) (t : Nat) : j = t ∨ (u.seq t q).backs = [] → (((u.swapL1 j 0).swapL1 j 1).seq t q).backs = [] := by
    intro h
    rw [State.swapL1_seq]
    split
    · exact Seq.backs_clean _
    · next hne =>
      rw [State.swapL1_seq]
      split
      · exact Seq.backs_clean _
      · next hne' => exact h.resolve_left fun hj => by omega
  have hall (us : List Nat) (u : State) (hsub : us ⊆ ts) (h : s.WrittenBack u ts) : s.WrittenBack (u.linesBack us) ts ∧
      ∀ t, ∀ q < 2, t ∈ us ∨ (u.seq t q).backs = [] → ((u.linesBack us).seq t q).backs = [] := by
    induction us generalizing u with
    | nil => exact ⟨h, fun t q _ ht => ht.resolve_left List.not_mem_nil⟩
    | cons j us ih =>
      have hj : j ∈ ts := hsub List.mem_cons_self
      obtain ⟨hw, hb⟩ := ih ((u.swapL1 j 0).swapL1 j 1) (fun _ hm => hsub (.tail _ hm)) ((h.swapL1 hj (by decide)).swapL1 hj (by decide))
      refine ⟨hw, fun t q hq ht => hb t q hq ?_⟩
      rcases ht with ht | ht
      · rcases List.mem_cons.1 ht with rfl | ht
        · exact .inr (hclean u t q hq t (.inl rfl))
        · exact .inl ht
      · exact .inr (hclean u j q hq t (.inr ht))
  obtain ⟨hw, hb⟩ := hall ts s (List.Subset.refl ts) (.refl s ts)
  exact ⟨hw, fun t ht q hq => hb t q hq (.inl ht)⟩

end Sys2Proof.Machine
end

