-- ==== Sys2Proof/Proofs/Releases.lean ====
section
/-! SUPPORT. Releases of staged entries (R118, R119): what they leave of the machine, and what they add to what has been released. -/
namespace Sys2Proof.Machine

/-! Corrected errors (R341, R347). -/

theorem FaultRecord.before_of_seq {r : FaultRecord} (h : 2 ≤ r.seq) : r.before = fun _ => false := by
  funext e
  simp [FaultRecord.before, Nat.not_lt.2 h]

/-- A record of no sequencer's moves no other. -/
theorem State.record_tiles (s : State) (x : Nat) (r : FaultRecord) (h : 2 ≤ r.seq) : (s.record x r).tiles = s.tiles := by
  obtain ⟨ag, fr, hn⟩ := s.noteReport_eq x r.info
  have hlate : (s.noteReport x r.info).lateRecords x r = [] := by
    unfold State.lateRecords
    rw [FaultRecord.before_of_seq h]
    simp
  have hmove : (s.noteReport x r.info).moveRecords [] = s.noteReport x r.info := if_pos rfl
  unfold State.record
  dsimp only
  rw [hlate, hmove]
  simp only [State.tickFree_tiles, State.after_tiles, State.setCtx_tiles, hn]

/-- From `s` to `u` entries have been released: writes stand behind those released before, corrected errors are counted, records may wait. -/
structure State.Released (s u : State) : Prop where
  rest : ∃ ts cs l ms ag n fw, u = { s with tiles := ts, ctxs := cs, log := l, migrations := ms, agenda := ag, free := n, forward := fw }
  tile : ∀ t, ∃ c, u.tile t = { s.tile t with corrected := c }
  ctx : ∀ y, ∃ rs, u.ctx y = { s.ctx y with records := rs }
  forward : ∀ e ∈ s.forward, e ∈ u.forward

theorem State.Released.refl (s : State) : s.Released s := ⟨⟨_, _, _, _, _, _, _, rfl⟩, fun _ => ⟨_, rfl⟩, fun _ => ⟨_, rfl⟩, fun _ h => h⟩

theorem State.Released.trans {s u v : State} (h : s.Released u) (h' : u.Released v) : s.Released v := by
  obtain ⟨ts, cs, l, ms, ag, n, fw, hu⟩ := h.rest
  obtain ⟨ts', cs', l', ms', ag', n', fw', hv⟩ := h'.rest
  refine ⟨⟨ts', cs', l', ms', ag', n', fw', by rw [hv, hu]⟩, fun t => ?_, fun y => ?_, fun e he => h'.forward e (h.forward e he)⟩
  · obtain ⟨c, hc⟩ := h.tile t
    obtain ⟨c', hc'⟩ := h'.tile t
    exact ⟨c', by rw [hc', hc]⟩
  · obtain ⟨rs, hr⟩ := h.ctx y
    obtain ⟨rs', hr'⟩ := h'.ctx y
    exact ⟨rs', by rw [hr', hr]⟩

theorem State.Released.record (s : State) (x : Nat) (r : FaultRecord) (h : 2 ≤ r.seq) : s.Released (s.record x r) := by
  obtain ⟨l, ts, rs, ag, fr, hr, -⟩ := s.record_spec x r
  refine ⟨⟨_, _, l, _, ag, fr, _, hr⟩, fun t => ⟨(s.tile t).corrected, ?_⟩, s.record_ctx_any x r, fun e he => by rw [hr]; exact he⟩
  rw [State.tile, s.record_tiles x r h]
  rfl

theorem State.Released.countCorrected (s : State) (t kind n : Nat) : s.Released (s.countCorrected t kind n) := by
  have hset (c : Map Nat) : s.Released (s.setTile t { s.tile t with corrected := c }) := by
    refine ⟨⟨_, _, _, _, _, _, _, rfl⟩, fun j => ?_, fun y => ⟨(s.ctx y).records, rfl⟩, fun e he => he⟩
    rw [State.tile_setTile]
    split
    · next h => subst h; exact ⟨c, rfl⟩
    · exact ⟨(s.tile j).corrected, rfl⟩
  unfold State.countCorrected
  dsimp only
  split
  · exact (hset _).trans (.record _ _ _ (by decide : 2 ≤ 255))
  · exact hset _

/-- One entry is released, as it is where it holds no wrong bit and is no add. -/
theorem State.releaseEntry_spec (s : State) (e : StagingEntry) : s.Released (s.releaseEntry e) ∧
    (e.wrong = [] → e.write.add = false → e ∈ (s.releaseEntry e).forward) := by
  have hrest (u : State) (w : GlobalWrite) (f : StagingEntry) : let v : State := { u.noteDirty w with forward := (u.noteDirty w).forward ++ [f] }
      u.Released ((v.after (1 + Config.drainDelay v.free) .stagingEntryDrain).tickFree) ∧ f ∈ ((v.after (1 + Config.drainDelay v.free) .stagingEntryDrain).tickFree).forward := by
    intro v
    obtain ⟨ms, hms⟩ : ∃ ms, u.noteDirty w = { u with migrations := ms } := by
      unfold State.noteDirty
      split <;> exact ⟨_, rfl⟩
    have hv : v = { u with migrations := ms, forward := u.forward ++ [f] } := by simp only [v, hms]
    rw [hv]
    exact ⟨⟨⟨_, _, _, _, _, _, _, rfl⟩, fun _ => ⟨_, rfl⟩, fun _ => ⟨_, rfl⟩, fun e he => List.mem_append_left _ he⟩, List.mem_append_right _ (List.mem_singleton.2 rfl)⟩
  refine ⟨?_, fun hw ha => ?_⟩
  · unfold State.releaseEntry
    dsimp only
    refine State.Released.trans ?_ (hrest _ _ _).1
    split
    · exact .refl s
    · split
      · exact .refl s
      · exact .countCorrected ..
  · obtain ⟨party, tick, w, wrong⟩ := e
    obtain rfl : wrong = [] := hw
    have hadd : s.addReleased w = w := if_pos (by simp [show w.add = false from ha])
    unfold State.releaseEntry
    simp only [List.isEmpty_nil, if_true]
    rw [hadd]
    exact (hrest s w { party := party, tick := tick, write := w }).2

theorem State.Released.foldl (es : List StagingEntry) (s : State) : s.Released (es.foldl (fun (u : State) e => u.releaseEntry e) s) ∧
    ∀ e ∈ es, e.wrong = [] → e.write.add = false → e ∈ (es.foldl (fun (u : State) e => u.releaseEntry e) s).forward := by
  induction es generalizing s with
  | nil => exact ⟨.refl s, fun e he => absurd he List.not_mem_nil⟩
  | cons a es ih =>
    obtain ⟨h, hm⟩ := ih (s.releaseEntry a)
    obtain ⟨ha, hma⟩ := s.releaseEntry_spec a
    refine ⟨ha.trans h, fun e he hw hadd => ?_⟩
    rcases List.mem_cons.1 he with rfl | he
    · exact h.forward _ (hma hw hadd)
    · exact hm e he hw hadd

/-! Which entries a release takes. -/

theorem StagingEntry.without_party (e r : StagingEntry) : (e.without r).party = e.party := by
  unfold StagingEntry.without
  dsimp only
  split
  · split <;> rfl
  · rfl

/-- Of a die's entries those that are selected go; what stays keeps its party. -/
theorem splitStaging_spec (sel : StagingEntry → Bool) (es : List StagingEntry) : (splitStaging sel es).1 = es.filter sel ∧
    ∀ e ∈ (splitStaging sel es).2, ∃ f ∈ es, sel f = false ∧ e.party = f.party := by
  induction es with
  | nil => exact ⟨rfl, fun e he => absurd he List.not_mem_nil⟩
  | cons a es ih =>
    obtain ⟨hout, hkeep⟩ := ih
    by_cases ha : sel a = true
    · have hs : splitStaging sel (a :: es) = (a :: (splitStaging sel es).1, (splitStaging sel es).2) := if_pos ha
      rw [hs, List.filter_cons_of_pos ha, hout]
      exact ⟨rfl, fun e he => (hkeep e he).imp fun f hf => ⟨.tail _ hf.1, hf.2⟩⟩
    · have hs : splitStaging sel (a :: es) = ((splitStaging sel es).1,
          if ((splitStaging sel es).1.foldl StagingEntry.without a).spent then (splitStaging sel es).2
          else (splitStaging sel es).1.foldl StagingEntry.without a :: (splitStaging sel es).2) := if_neg ha
      rw [hs, List.filter_cons_of_neg ha]
      refine ⟨hout, fun e he => ?_⟩
      have hparty : ((splitStaging sel es).1.foldl StagingEntry.without a).party = a.party :=
        foldl_keeps StagingEntry.party _ StagingEntry.without_party _ a
      have hstays : e ∈ (splitStaging sel es).2 → ∃ f ∈ a :: es, sel f = false ∧ e.party = f.party :=
        fun h => (hkeep e h).imp fun f hf => ⟨.tail _ hf.1, hf.2⟩
      dsimp only at he
      split at he
      · exact hstays he
      · rcases List.mem_cons.1 he with rfl | he
        · exact ⟨a, .head _, Bool.eq_false_iff.2 ha, hparty⟩
        · exact hstays he

theorem mem_releaseOrder (byDie : List (List StagingEntry)) (e : StagingEntry) : e ∈ releaseOrder byDie ↔ ∃ out ∈ byDie, e ∈ out := by
  have hsorted (f : StagingEntry → Nat) (es : List StagingEntry) : e ∈ (sortKey [] (es.map fun e => (f e, e))).map (·.2) ↔ e ∈ es := by
    have hperm := (sortKey_perm [] (es.map fun e => (f e, e))).map (·.2)
    rw [hperm.mem_iff]
    simp
  unfold releaseOrder
  dsimp only
  rw [List.mem_append, hsorted, List.mem_filter, List.mem_filter, ← and_or_left, List.mem_flatMap]
  simp only [hsorted]
  exact ⟨And.left, fun h => ⟨h, by cases decide (0x8000000000000 ≤ 64 * e.write.sector) <;> simp⟩⟩

/-! A release (R119). -/

/-- One die's buffer with what a split leaves, where it takes anything. -/
def State.takeDie (s : State) (d : Nat × List StagingEntry × List StagingEntry) : State :=
  if d.2.1.isEmpty then s else s.setDie d.1 { s.die d.1 with staging := d.2.2 }

/-- The machine with the selected entries taken from the buffers. -/
def State.takeStaged (s : State) (sel : StagingEntry → Bool) : State :=
  ((List.range 4).map fun d => (d, splitStaging sel (s.die d).staging)).foldl (fun u d => u.takeDie d) s

/-- The selected entries in the order of their release. -/
def State.staged (s : State) (sel : StagingEntry → Bool) : List StagingEntry :=
  releaseOrder (((List.range 4).map fun d => (d, splitStaging sel (s.die d).staging)).map fun d => d.2.1)

theorem State.mem_staged (s : State) (sel : StagingEntry → Bool) (e : StagingEntry) :
    e ∈ s.staged sel ↔ ∃ d < 4, e ∈ (s.die d).staging ∧ sel e = true := by
  unfold State.staged
  rw [mem_releaseOrder]
  simp only [List.map_map, List.mem_map, List.mem_range, Function.comp_def, splitStaging_spec, exists_exists_and_eq_and, List.mem_filter]

theorem State.takeStaged_rest (s : State) (sel : StagingEntry → Bool) : ∃ ds, s.takeStaged sel = { s with dies := ds } := by
  refine List.foldlRecOn (motive := fun u : State => ∃ ds, u = { s with dies := ds }) _ _ ⟨_, rfl⟩ ?_
  rintro _ ⟨ds, rfl⟩ d -
  unfold State.takeDie
  split <;> exact ⟨_, rfl⟩

theorem State.takeDie_die (s : State) (d : Nat × List StagingEntry × List StagingEntry) (j : Nat) :
    ((s.takeDie d).die j).staging = if d.1 = j ∧ d.2.1 ≠ [] then d.2.2 else (s.die j).staging := by
  unfold State.takeDie
  split
  · next h => rw [if_neg fun hj => hj.2 (List.isEmpty_iff.1 h)]
  · next h =>
    have hne : d.2.1 ≠ [] := fun hnil => h (List.isEmpty_iff.2 hnil)
    rw [State.die_setDie]
    by_cases hj : d.1 = j
    · rw [if_pos hj, if_pos ⟨hj, hne⟩]
    · rw [if_neg hj, if_neg fun h => hj h.1]

/-- What stays in a buffer was not selected, and keeps its party. -/
theorem State.takeStaged_stays (s : State) (sel : StagingEntry → Bool) (j : Nat) (hj : j < 4) :
    ∀ e ∈ ((s.takeStaged sel).die j).staging, ∃ f ∈ (s.die j).staging, sel f = false ∧ e.party = f.party := by
  obtain ⟨hout, hkeep⟩ := splitStaging_spec sel (s.die j).staging
  have hempty : (splitStaging sel (s.die j).staging).1 = [] → ∀ e ∈ (s.die j).staging, ∃ f ∈ (s.die j).staging, sel f = false ∧ e.party = f.party :=
    fun h e he => ⟨e, he, Bool.eq_false_iff.2 ((List.filter_eq_nil_iff.1 (hout ▸ h)) e he), rfl⟩
  have hall (ds : List Nat) (u : State) (h : (j ∈ ds ∧ (u.die j).staging = (s.die j).staging) ∨
      ∀ e ∈ (u.die j).staging, ∃ f ∈ (s.die j).staging, sel f = false ∧ e.party = f.party) :
      ∀ e ∈ (((ds.map fun d => (d, splitStaging sel (s.die d).staging)).foldl (fun u d => u.takeDie d) u).die j).staging,
        ∃ f ∈ (s.die j).staging, sel f = false ∧ e.party = f.party := by
    induction ds generalizing u with
    | nil => exact h.resolve_left fun h => List.not_mem_nil h.1
    | cons d ds ih =>
      refine ih _ ?_
      rw [State.takeDie_die]
      by_cases hd : d = j
      · subst hd
        refine .inr ?_
        by_cases hnil : (splitStaging sel (s.die d).staging).1 = []
        · rw [if_neg fun h => h.2 hnil]
          exact h.elim (fun h => h.2 ▸ hempty hnil) id
        · rw [if_pos ⟨rfl, hnil⟩]
          exact hkeep
      · rw [if_neg fun h => hd h.1]
        exact h.imp_left fun h => ⟨(List.mem_cons.1 h.1).resolve_left (Ne.symm hd), h.2⟩
  exact hall (List.range 4) s (.inl ⟨List.mem_range.2 hj, rfl⟩)

/-- Where nothing selected is for a lost peer, a release takes the entries and releases them. -/
theorem State.releaseWhere_eq (s : State) (sel : StagingEntry → Bool) (h : ∀ e ∈ s.staged sel, s.peerLost e.write = false) :
    s.releaseWhere sel = (s.staged sel).foldl (fun (u : State) e => u.releaseEntry e) (s.takeStaged sel) := by
  obtain ⟨ds, hds⟩ := s.takeStaged_rest sel
  have hkept : ((s.staged sel).filter fun e => !(s.takeStaged sel).peerLost e.write) = s.staged sel := by
    rw [hds]
    exact List.filter_eq_self.2 fun e he => by rw [show State.peerLost { s with dies := ds } e.write = s.peerLost e.write from rfl, h e he]; rfl
  have hlost : ((s.staged sel).filter fun e => (s.takeStaged sel).peerLost e.write) = [] := by
    rw [hds]
    exact List.filter_eq_nil_iff.2 fun e he => by rw [show State.peerLost { s with dies := ds } e.write = s.peerLost e.write from rfl, h e he]; decide
  show ((((s.staged sel).filter fun e => (s.takeStaged sel).peerLost e.write).map (·.party)).dedup.filterMap fun p =>
      ((s.staged sel).filter fun e => (s.takeStaged sel).peerLost e.write).find? fun e => e.party == p).foldl (fun (u : State) e => u.discardFault e)
    (((s.staged sel).filter fun e => !(s.takeStaged sel).peerLost e.write).foldl (fun (u : State) e => u.releaseEntry e) (s.takeStaged sel)) = _
  rw [hkept, hlost]
  rfl

/-- A release of entries none of which is for a lost peer. -/
theorem State.releaseWhere_spec (s : State) (sel : StagingEntry → Bool) (h : ∀ d < 4, ∀ e ∈ (s.die d).staging, sel e = true → s.peerLost e.write = false) :
    ∃ ds, State.Released { s with dies := ds } (s.releaseWhere sel) ∧
      (∀ d < 4, ∀ e ∈ (s.die d).staging, sel e = true → e.wrong = [] → e.write.add = false → e ∈ (s.releaseWhere sel).forward) ∧
      ∀ d < 4, ∀ e ∈ ((s.releaseWhere sel).die d).staging, ∃ f ∈ (s.die d).staging, sel f = false ∧ e.party = f.party := by
  obtain ⟨ds, hds⟩ := s.takeStaged_rest sel
  have hstays := s.takeStaged_stays sel
  rw [s.releaseWhere_eq sel fun e he => by obtain ⟨d, hd, hm, hs⟩ := (s.mem_staged sel e).1 he; exact h d hd e hm hs]
  obtain ⟨hr, hf⟩ := State.Released.foldl (s.staged sel) (s.takeStaged sel)
  refine ⟨ds, hds ▸ hr, fun d hd e he hs => hf e ((s.mem_staged sel e).2 ⟨d, hd, he, hs⟩), fun d hd e he => ?_⟩
  obtain ⟨ts, cs, l, ms, ag, n, fw, hu⟩ := hr.rest
  rw [hu] at he
  exact hstays d hd e he

end Sys2Proof.Machine
end

