-- ==== Sys2Proof/Proofs/SavedImages.lean ====
section
/-! SUPPORT. What CONTEXT_SWAP saves of a tile (R63, R64), and the partition swapped out. -/
namespace Sys2Proof.Machine

/-! A tile's image (R63). -/

/-- What waits at the inbound port performs in the scratchpad alone. -/
theorem Tile.flushInbound_eq (z : Tile) : ∃ sp un le ms pa du ib,
    z.flushInbound = { z with spad := sp, undef := un, left := le, marks := ms, parity := pa, parityDue := du, inbound := ib } := by
  have h := z.applyWrites_wrote ((z.inbound.filter fun e => !(e.write.banks.any fun b => z.reservations.any fun r => r.bank == b && 0 < r.left)).foldl
    (fun ws e => placeInbound ws e.write) [])
  unfold Tile.flushInbound
  dsimp only
  unfold Tile.applyWrites at h
  rw [h.rest]
  exact ⟨_, _, _, _, _, _, _, rfl⟩

theorem Tile.flushInbound_empty (z : Tile) (h : z.inbound = []) : z.flushInbound = { z with inbound := [] } := by
  unfold Tile.flushInbound
  rw [h]
  rfl

theorem Tile.holdImage_eq (z : Tile) (h : Option Shadow) (tick : Nat) : ∃ mv, z.holdImage h tick = { z with shadow := h, move := mv } := by
  unfold Tile.holdImage
  dsimp only
  split
  · exact ⟨_, rfl⟩
  · split
    · exact ⟨_, rfl⟩
    · split
      · exact ⟨_, rfl⟩
      · exact ⟨_, rfl⟩
    · exact ⟨_, rfl⟩

/-- A tile that its context leaves, its image saved. -/
def Tile.swappedOut (x : Nat) (l : Launch) (tick : Nat) (z : Tile) : Tile := z.flushInbound.vacate (z.flushInbound.image x l) tick

/-- The tile is free; its image has the declared registers and what R63 lists of the tile. -/
theorem Tile.swappedOut_spec (x : Nat) (l : Launch) (tick : Nat) (z : Tile) :
    (z.swappedOut x l tick).ctx = none ∧ (z.swappedOut x l tick).halt = none ∧ (z.swappedOut x l tick).shadow = some (z.flushInbound.image x l) ∧
      (z.flushInbound.image x l).haltTick = z.halt.getD 0 ∧ (z.flushInbound.image x l).trap = z.trap ∧ (z.flushInbound.image x l).mxmode = z.mxmode ∧
      (z.flushInbound.image x l).a = z.a.saved l ∧ (z.flushInbound.image x l).b = z.b.saved l ∧
      (z.flushInbound.image x l).reservations = z.reservations := by
  obtain ⟨sp, un, le, ms, pa, du, ib, h⟩ := z.flushInbound_eq
  obtain ⟨mv, hm⟩ := Tile.holdImage_eq ({ z.flushInbound with
    ctx := none, a := {}, b := {}, halt := none, trap := none, frozen := false, owed := 0, frozenFor := 0, reservations := [], inbound := [],
    left := z.flushInbound.leftTo x } : Tile) (some (z.flushInbound.image x l)) tick
  have hout : z.swappedOut x l tick = _ := hm
  refine ⟨by rw [hout], by rw [hout], by rw [hout], ?_⟩
  rw [h]
  exact ⟨rfl, rfl, rfl, rfl, rfl, rfl⟩

theorem mem_wordsOf_run (k n j : Nat) (h : j < n) : k + j ∈ wordsOf (64 * k) (64 * n) := by
  unfold wordsOf
  rw [if_neg (by omega), Nat.mul_div_cancel_left _ (by decide)]
  exact List.mem_map.2 ⟨j, List.mem_range.2 (by omega), rfl⟩

/-- The window's words as they are stored, where they are sound and nothing waits at the port. -/
theorem Tile.image_window (z : Tile) (x : Nat) (l : Launch) (hi : z.inbound = []) (hw : l.window % 64 = 0) (hn : l.windowLen % 64 = 0)
    (hp : z.plain l.window l.windowLen) (i : Nat) (h : i < l.windowLen) :
    (z.flushInbound.image x l).window.lookup (l.window + i) = some (z.spadByte (l.window + i)) := by
  obtain ⟨k, hk⟩ : ∃ k, l.window = 64 * k := ⟨l.window / 64, by omega⟩
  obtain ⟨n, hlen⟩ : ∃ n, l.windowLen = 64 * n := ⟨l.windowLen / 64, by omega⟩
  have hword (j : Nat) (hj : j < n) : vecBytes (z.lookWord (k + j)).val = z.spadBytes (64 * (k + j)) 64 := by
    obtain ⟨h1, h2⟩ := hp (k + j) (by rw [hk, hlen]; exact mem_wordsOf_run k n j hj)
    rw [z.lookWord_plain _ h1 h2]
    exact vecBytes_bytesVec _ (z.spadBytes_length ..)
  have hbytes : (((List.range n).map fun j => (k + j, z.lookWord (k + j))).flatMap fun w => vecBytes w.2.val) = z.spadBytes (64 * k) (64 * n) := by
    rw [← z.spadBytes_words, List.flatMap_map, List.flatMap_map]
    exact List.flatMap_congr fun j hj => hword j (List.mem_range.1 hj)
  have hwindow : (z.flushInbound.image x l).window = cellsFrom (64 * k) (z.spadBytes (64 * k) (64 * n)) := by
    rw [z.flushInbound_empty hi, ← hbytes]
    unfold Tile.image
    rw [hk, hlen, Nat.mul_div_cancel_left _ (by decide), Nat.mul_div_cancel_left _ (by decide)]
    rfl
  rw [hwindow, lookup_cellsFrom, hk, if_pos ⟨Nat.le_add_right .., by rw [z.spadBytes_length]; omega⟩]
  rw [Nat.add_sub_cancel_left, Tile.spadBytes, List.getD_eq_getElem _ _ (by rw [List.length_map, List.length_range]; omega), List.getElem_map, List.getElem_range]

/-! The partition swapped out. -/

theorem State.tile_foldl_modTile_count (g : Tile → Tile) (ts : List Nat) (s : State) (t : Nat) :
    (ts.foldl (fun u t => u.modTile t g) s).tile t = g^[ts.count t] (s.tile t) := by
  induction ts generalizing s with
  | nil => rfl
  | cons j ts ih =>
    rw [List.foldl_cons, ih, State.tile_modTile]
    by_cases h : j = t
    · subst h
      rw [if_pos rfl, List.count_cons_self, Function.iterate_succ_apply]
    · rw [if_neg h, List.count_cons_of_ne h]

/-- The machine with the tiles of a partition swapped out. -/
def State.swapTilesOut (s : State) (x : Nat) (l : Launch) (ts : List Nat) : State :=
  ts.foldl (fun (u : State) t => u.modTile t (Tile.swappedOut x l u.gtick)) s

theorem State.swapTilesOut_rest (s : State) (x : Nat) (l : Launch) (ts : List Nat) : ∃ m, s.swapTilesOut x l ts = { s with tiles := m } :=
  State.foldl_tilesOnly _ (fun _ _ => ⟨_, rfl⟩) _ s

theorem State.swapTilesOut_tile (s : State) (x : Nat) (l : Launch) (ts : List Nat) (t : Nat) (h : ts.count t = 1) :
    (s.swapTilesOut x l ts).tile t = (s.tile t).swappedOut x l s.gtick := by
  rw [State.swapTilesOut, State.foldl_modTile_tick, State.tile_foldl_modTile_count, h]
  rfl

/-- The bind record and the context as the swap leaves them. -/
def State.swapRecords (s : State) (bind : Option Nat) (x level : Nat) : State :=
  (match bind with
    | some b => s.modBind b fun r => { r with active := false, valid := level == 0 }
    | none => s).modCtx x fun c => { c with part := if level = 3 then .suspended else .swapped, ending := none, blocked := false, ackDue := [] }

/-- The tiles that a next bind waits for are kept awake, or woken. -/
def State.keepAwake (s : State) (ts : List Nat) : State := ts.foldl (fun (u : State) t => if u.bindAwaits t then u.tileFreed t 0 else u) s

theorem State.keepAwake_rest (s : State) (ts : List Nat) : ∃ ag, s.keepAwake ts = { s with agenda := ag } := by
  refine List.foldlRecOn (motive := fun u : State => ∃ ag, u = { s with agenda := ag }) _ _ ⟨_, rfl⟩ ?_
  rintro _ ⟨ag, rfl⟩ t -
  split
  · next h =>
    unfold State.tileFreed
    rw [if_pos h]
    split <;> exact ⟨_, rfl⟩
  · exact ⟨_, rfl⟩

/-- The machine with a partition swapped out. -/
def State.swappedOut (s : State) (x level : Nat) (l : Launch) : State :=
  let ts := (s.ctx x).tiles
  ((((s.linesBack ts).releaseWhere fun e => ts.contains (e.party / 2)).swapTilesOut x l ts).swapRecords (s.ctx x).bind x level).keepAwake ts

theorem State.contextSwap_eq (s : State) (x level code : Nat) (l : Launch) (hp : (s.ctx x).part = .halted) (he : (s.ctx x).ending = some (level, code))
    (h5 : level ≠ 5) (hl : (s.ctx x).launch = some l) : s.contextSwap x = if code = 0x0C02 then s.swappedOut x level l
      else ((s.swappedOut x level l).after (1 + Config.serviceDelay (s.swappedOut x level l).free) .contextRestore [x, if code = 0x0B02 then 1 else 0]).tickFree := by
  unfold State.contextSwap
  dsimp only
  rw [he]
  dsimp only
  rw [if_neg (by rw [hp]; simpa using h5), hl]
  rfl

theorem Seq.saved_withoutL1 {y z : Seq} (l : Launch) (h : y.withoutL1 = z.withoutL1) : y.saved l = z.saved l :=
  show y.withoutL1.saved l = z.withoutL1.saved l from congrArg (fun y : Seq => y.saved l) h

theorem State.swapRecords_spec (s : State) (bind : Option Nat) (x level : Nat) :
    (∃ bs cs, s.swapRecords bind x level = { s with binds := bs, ctxs := cs }) ∧
      (s.swapRecords bind x level).ctx x = { s.ctx x with part := if level = 3 then .suspended else .swapped, ending := none, blocked := false, ackDue := [] } := by
  unfold State.swapRecords
  split
  · exact ⟨⟨_, _, rfl⟩, State.ctx_modCtx_same ..⟩
  · exact ⟨⟨_, _, rfl⟩, State.ctx_modCtx_same ..⟩

/-- After the release all but the tiles' images is as the swap leaves it. -/
theorem State.swappedOut_rest (s : State) (x level : Nat) (l : Launch) :
    let b := (s.linesBack (s.ctx x).tiles).releaseWhere fun e => (s.ctx x).tiles.contains (e.party / 2)
    let u := s.swappedOut x level l
    u.forward = b.forward ∧ u.mem = b.mem ∧ u.dies = b.dies ∧ u.gtick = b.gtick ∧
      u.ctx x = { b.ctx x with part := if level = 3 then .suspended else .swapped, ending := none, blocked := false, ackDue := [] } ∧
      ∀ t, (s.ctx x).tiles.count t = 1 → u.tile t = (b.tile t).swappedOut x l b.gtick := by
  intro b u
  have hu : u = ((b.swapTilesOut x l (s.ctx x).tiles).swapRecords (s.ctx x).bind x level).keepAwake (s.ctx x).tiles := rfl
  clear_value b u
  have htile := b.swapTilesOut_tile x l (s.ctx x).tiles
  obtain ⟨m, hm⟩ := b.swapTilesOut_rest x l (s.ctx x).tiles
  generalize b.swapTilesOut x l (s.ctx x).tiles = v at *
  obtain ⟨⟨bs, cs, hr⟩, hctx⟩ := v.swapRecords_spec (s.ctx x).bind x level
  generalize v.swapRecords (s.ctx x).bind x level = w at *
  obtain ⟨ag, ha⟩ := w.keepAwake_rest (s.ctx x).tiles
  rw [← hu] at ha
  have huctx : u.ctx x = w.ctx x := (congrArg (fun u : State => u.ctx x) ha :)
  have hutile (t : Nat) : u.tile t = v.tile t := (congrArg (fun u : State => u.tile t) ha :).trans (congrArg (fun w : State => w.tile t) hr :)
  have hvctx : v.ctx x = b.ctx x := (congrArg (fun v : State => v.ctx x) hm :)
  rw [hctx, hvctx] at huctx
  exact ⟨((congrArg State.forward ha :).trans (congrArg State.forward hr :)).trans (congrArg State.forward hm :),
    ((congrArg State.mem ha :).trans (congrArg State.mem hr :)).trans (congrArg State.mem hm :),
    ((congrArg State.dies ha :).trans (congrArg State.dies hr :)).trans (congrArg State.dies hm :),
    ((congrArg State.gtick ha :).trans (congrArg State.gtick hr :)).trans (congrArg State.gtick hm :), huctx, fun t ht => (hutile t).trans (htile t ht)⟩

/-- The release of a swap: what the tiles have staged and written back is released, and nothing of theirs stays. -/
theorem State.swapRelease (s : State) (ts : List Nat)
    (h1 : ∀ d < 4, ∀ e ∈ (s.die d).staging, e.party / 2 ∈ ts → s.peerLost e.write = false)
    (h2 : ∀ t ∈ ts, ∀ q < 2, ∀ w ∈ (s.seq t q).backs, s.peerLost w = false) :
    let b := (s.linesBack ts).releaseWhere fun e => ts.contains (e.party / 2)
    b.mem = s.mem ∧ b.gtick = s.gtick ∧ (∀ y, ∃ rs, b.ctx y = { s.ctx y with records := rs }) ∧ (∀ d < 4, ∀ e ∈ (b.die d).staging, e.party / 2 ∉ ts) ∧
      (∀ e ∈ s.forward, e ∈ b.forward) ∧
      (∀ d < 4, ∀ e ∈ (s.die d).staging, e.party / 2 ∈ ts → e.wrong = [] → e.write.add = false → e ∈ b.forward) ∧
      (∀ t ∈ ts, t < 384 → ∀ q < 2, ∀ w ∈ (s.seq t q).backs, ∃ e ∈ b.forward, e.party = seqNumber t q ∧ e.write = w) ∧
      ∀ t, ∃ c y z, b.tile t = { s.tile t with corrected := c, a := y, b := z } ∧ y.withoutL1 = (s.seq t 0).withoutL1 ∧ z.withoutL1 = (s.seq t 1).withoutL1 := by
  intro b
  have hb : b = (s.linesBack ts).releaseWhere fun e => ts.contains (e.party / 2) := rfl
  obtain ⟨hback, hclean⟩ := s.linesBack_spec ts
  generalize s.linesBack ts = a at *
  have hpart (t q : Nat) (hq : q < 2) : seqNumber t q / 2 = t := by unfold seqNumber; omega
  obtain ⟨m, ds, ha⟩ := hback.rest
  have hlost (w : GlobalWrite) : a.peerLost w = s.peerLost w := by rw [ha]; rfl
  obtain ⟨ds', hr, hgo, hstay⟩ := a.releaseWhere_spec (fun e => ts.contains (e.party / 2)) fun d hd e he hs => by
    rw [hlost]
    have hs : e.party / 2 ∈ ts := by simpa using hs
    rcases hback.new d e he with he | ⟨t, ht, q, hq, hp, hw⟩
    · exact h1 d hd e he hs
    · exact h2 t ht q hq _ hw
  rw [← hb] at hr hgo hstay
  obtain ⟨ts', cs, lg, ms, ag, n, fw, hbr⟩ := hr.rest
  refine ⟨by rw [hbr, ha], by rw [hbr, ha], fun y => ?_, fun d hd e he => ?_, fun e he => hr.forward e (by rw [ha]; exact he),
    fun d hd e he hp hw hadd => hgo d hd e (hback.old d e he) (by simpa using hp) hw hadd, fun t ht h384 q hq w hw => ?_, fun t => ?_⟩
  · obtain ⟨rs, hrs⟩ := hr.ctx y
    exact ⟨rs, by rw [hrs, ha]; rfl⟩
  · obtain ⟨f, hf, hs, hp⟩ := hstay d hd e he
    rw [hp]
    simpa using hs
  · obtain ⟨e, he, hp, hew, hwrong⟩ := (hback.staged t q hq w hw).resolve_left (by rw [hclean t ht q hq]; exact List.not_mem_nil)
    refine ⟨e, hgo (dieOf t) (by unfold dieOf; omega) e he (by rw [hp, hpart t q hq]; simpa using ht) hwrong ?_, hp, hew⟩
    rw [hew]
    exact (s.seq t q).backs_plain w hw
  · obtain ⟨c, hc⟩ := hr.tile t
    obtain ⟨y, z, hyz⟩ := hback.tile t
    have hat : b.tile t = { s.tile t with corrected := c, a := y, b := z } := by
      rw [hc, show State.tile { a with dies := ds' } t = a.tile t from rfl, hyz]
    have hy := hback.seq t 0
    have hz := hback.seq t 1
    rw [State.seq, hyz] at hy hz
    exact ⟨c, y, z, hat, hy, hz⟩

/-- CONTEXT_SWAP (R64), in full. -/
theorem State.contextSwap_spec (s : State) (x level code : Nat) (l : Launch) (hp : (s.ctx x).part = .halted)
    (he : (s.ctx x).ending = some (level, code)) (h5 : level ≠ 5) (hl : (s.ctx x).launch = some l)
    (h1 : ∀ d < 4, ∀ e ∈ (s.die d).staging, e.party / 2 ∈ (s.ctx x).tiles → s.peerLost e.write = false)
    (h2 : ∀ t ∈ (s.ctx x).tiles, ∀ q < 2, ∀ w ∈ (s.seq t q).backs, s.peerLost w = false) :
    let ts := (s.ctx x).tiles
    let u := s.contextSwap x
    (u.ctx x).part = (if level = 3 then .suspended else .swapped) ∧ (u.ctx x).ending = none ∧ u.mem = s.mem ∧
      (∀ d < 4, ∀ e ∈ (u.die d).staging, e.party / 2 ∉ ts) ∧ (∀ e ∈ s.forward, e ∈ u.forward) ∧
      (∀ d < 4, ∀ e ∈ (s.die d).staging, e.party / 2 ∈ ts → e.wrong = [] → e.write.add = false → e ∈ u.forward) ∧
      (∀ t ∈ ts, t < 384 → ∀ q < 2, ∀ w ∈ (s.seq t q).backs, ∃ e ∈ u.forward, e.party = seqNumber t q ∧ e.write = w) ∧
      (code ≠ 0x0C02 → ∃ e ∈ u.agenda, e.op = .contextRestore ∧ e.args = [x, if code = 0x0B02 then 1 else 0] ∧ s.gtick < e.tick) ∧
      ∀ t, ts.count t = 1 → (u.tile t).ctx = none ∧ (u.tile t).halt = none ∧ ∃ h, (u.tile t).shadow = some h ∧ h.ctx = x ∧
        h.haltTick = (s.tile t).halt.getD 0 ∧ h.trap = (s.tile t).trap ∧ h.mxmode = (s.tile t).mxmode ∧
        h.a = (s.seq t 0).saved l ∧ h.b = (s.seq t 1).saved l ∧ h.reservations = (s.tile t).reservations ∧
        ((s.tile t).inbound = [] → l.window % 64 = 0 → l.windowLen % 64 = 0 → (s.tile t).plain l.window l.windowLen →
          ∀ i < l.windowLen, h.window.lookup (l.window + i) = some ((s.tile t).spadByte (l.window + i))) := by
  intro ts u
  obtain ⟨hmem, htick, hctx, hstaging, hold, hstaged, hbacks, htile⟩ := s.swapRelease ts h1 h2
  obtain ⟨hf, hm, hd, hg, hc, ht⟩ := s.swappedOut_rest x level l
  have heq := s.contextSwap_eq x level code l hp he h5 hl
  generalize (s.linesBack ts).releaseWhere (fun e => ts.contains (e.party / 2)) = b at *
  generalize s.swappedOut x level l = v at *
  have hu : (∃ ag n, u = { v with agenda := ag, free := n }) ∧
      (code ≠ 0x0C02 → ∃ e ∈ u.agenda, e.op = .contextRestore ∧ e.args = [x, if code = 0x0B02 then 1 else 0] ∧ v.gtick < e.tick) := by
    show (∃ ag n, s.contextSwap x = _) ∧ (_ → ∃ e ∈ (s.contextSwap x).agenda, _)
    rw [heq]
    by_cases hcode : code = 0x0C02
    · rw [if_pos hcode]
      exact ⟨⟨_, _, rfl⟩, fun h => absurd hcode h⟩
    · rw [if_neg hcode]
      refine ⟨⟨_, _, rfl⟩, fun _ => ⟨_, (mem_insertTimed _ _ _).2 (.inl rfl), rfl, rfl, ?_⟩⟩
      show v.gtick < v.gtick + (1 + _)
      omega
  obtain ⟨⟨ag, n, hu⟩, hagenda⟩ := hu
  obtain ⟨rs, hrs⟩ := hctx x
  have hforward : u.forward = b.forward := (congrArg State.forward hu).trans hf
  have huctx : u.ctx x = v.ctx x := by rw [hu]; rfl
  refine ⟨by rw [huctx, hc], by rw [huctx, hc], (congrArg State.mem hu).trans (hm.trans hmem), fun d hd' e he' => ?_, hforward ▸ hold, hforward ▸ hstaged,
    hforward ▸ hbacks, fun hcode => ?_, fun t hcount => ?_⟩
  · have hdie : u.die d = b.die d := by
      rw [State.die, show u.dies = v.dies from (congrArg State.dies hu :), hd]
      rfl
    exact hstaging d hd' e (hdie ▸ he')
  · rw [hg, htick] at hagenda
    exact hagenda hcode
  · obtain ⟨cr, y, z, hbt, hy, hz⟩ := htile t
    have hut : u.tile t = (b.tile t).swappedOut x l b.gtick := (show u.tile t = v.tile t by rw [hu]; rfl).trans (ht t hcount)
    obtain ⟨k1, k2, k3, k4, k5, k6, k7, k8, k9⟩ := Tile.swappedOut_spec x l b.gtick (b.tile t)
    rw [← hut] at k1 k2 k3
    have hwindow := (b.tile t).image_window x l
    refine ⟨k1, k2, _, k3, rfl, k4.trans (by rw [hbt]), k5.trans (by rw [hbt]), k6.trans (by rw [hbt]), k7.trans ?_, k8.trans ?_, k9.trans (by rw [hbt]),
      fun hi hw hn hplain i hlt => ?_⟩
    · rw [hbt]
      exact Seq.saved_withoutL1 l hy
    · rw [hbt]
      exact Seq.saved_withoutL1 l hz
    · rw [hwindow (by rw [hbt]; exact hi) hw hn (by rw [hbt]; exact hplain) i hlt, hbt]
      rfl

end Sys2Proof.Machine
end

