-- ==== Sys2Proof/Proofs/PartitionResumes.lean ====
section
/-! SUPPORT. PARTITION_RESUME (R35, R62, R63): every tile takes up its image, and the timetable is later by the pause. -/
namespace Sys2Proof.Machine

/-- A tile that has taken up an image at a tick. -/
structure Tile.Resumed (z : Tile) (h : Shadow) (tick : Nat) : Prop where
  shadow : z.shadow = none
  halt : z.halt = none
  mxmode : z.mxmode = h.mxmode
  a : z.a = h.a.resume (tick - h.haltTick)
  b : z.b = h.b.resume (tick - h.haltTick)

theorem Tile.restoreWindow_wrote (z : Tile) (h : Shadow) : z.WroteFrom (z.restoreWindow h) := by
  refine List.foldlRecOn (motive := z.WroteFrom) _ _ (z.applyWrite_wrote _) fun y hy e _ => hy.trans ?_
  exact .intro y y.spad y.undef y.left _ y.parity y.parityDue

theorem Tile.resume_resumed (z : Tile) (h : Shadow) (tick : Nat) : (z.resume h tick).Resumed h tick := by
  have hw : Tile.WroteFrom _ (z.resume h tick) := Tile.restoreWindow_wrote _ h
  exact ⟨(congrArg Tile.shadow hw.rest :), (congrArg Tile.halt hw.rest :), (congrArg Tile.mxmode hw.rest :), (congrArg Tile.a hw.rest :), (congrArg Tile.b hw.rest :)⟩

/-- A journal that goes on changes nothing of its tile but itself, and of the rest the agenda alone. -/
theorem State.journalResume_eq (s : State) (t : Nat) : (∃ m ag, s.journalResume t = { s with tiles := m, agenda := ag }) ∧
    ∃ k, ∀ j, (s.journalResume t).tile j = if t = j then { s.tile t with journal := k } else s.tile j := by
  have hmod (u : State) (f : Journal → Journal) (j : Nat) :
      (u.modJournal t f).tile j = if t = j then { u.tile t with journal := f (u.tile t).journal } else u.tile j := State.tile_modTile ..
  have hdue (u : State) (n j : Nat) : (u.journalDue t n).tile j =
      if t = j then { u.tile t with journal := { (u.tile t).journal with due := some n } } else u.tile j :=
    hmod u (fun j => { j with due := some n }) j
  have htwice (n j : Nat) : ((s.modJournal t fun j => { j with paused := false }).journalDue t n).tile j =
      if t = j then { s.tile t with journal := { (s.tile t).journal with paused := false, due := some n } } else s.tile j := by
    rw [hdue, hmod, hmod, if_pos rfl]
    split <;> rfl
  unfold State.journalResume State.journalStart
  dsimp only
  split
  · exact ⟨⟨_, _, rfl⟩, _, hmod s _⟩
  · split
    · exact ⟨⟨_, _, rfl⟩, _, htwice _⟩
    · split
      · exact ⟨⟨_, _, rfl⟩, _, htwice _⟩
      · exact ⟨⟨_, _, rfl⟩, _, hmod s _⟩

/-- One tile of the partition goes on. -/
def State.resumeTile (s : State) (x t : Nat) : State :=
  match (s.tile t).shadow with
  | some h =>
    let u := h.lost.foldl (fun (u : State) p => u.loseAll t p) (s.modTile t fun z => z.resume h s.gtick)
    if (u.journal t).owner < 2 && (u.journal t).ctx = x then u.journalResume t else u
  | none => s

theorem State.resumeTile_none (s : State) (x t : Nat) (h : (s.tile t).shadow = none) : s.resumeTile x t = s := by
  unfold State.resumeTile
  rw [h]

theorem State.resumeTile_some (s : State) (x t : Nat) (h : Shadow) (hs : (s.tile t).shadow = some h) (hl : h.lost = []) :
    (∃ m ag, s.resumeTile x t = { s with tiles := m, agenda := ag }) ∧ ((s.resumeTile x t).tile t).Resumed h s.gtick ∧
      ∀ j, j ≠ t → (s.resumeTile x t).tile j = s.tile j := by
  have htile (j : Nat) : (s.modTile t fun z => z.resume h s.gtick).tile j = if t = j then (s.tile t).resume h s.gtick else s.tile j := State.tile_modTile ..
  have hrest : ∃ m ag, (s.modTile t fun z => z.resume h s.gtick) = { s with tiles := m, agenda := ag } := ⟨_, _, rfl⟩
  have hstep : s.resumeTile x t = if ((s.modTile t fun z => z.resume h s.gtick).journal t).owner < 2 && ((s.modTile t fun z => z.resume h s.gtick).journal t).ctx = x
      then (s.modTile t fun z => z.resume h s.gtick).journalResume t else s.modTile t fun z => z.resume h s.gtick := by
    unfold State.resumeTile
    rw [hs]
    dsimp only
    rw [hl, List.foldl_nil]
  rw [hstep]
  generalize s.modTile t (fun z => z.resume h s.gtick) = u at *
  have hu := (s.tile t).resume_resumed h s.gtick
  split
  · obtain ⟨⟨m, ag, hj⟩, k, hk⟩ := u.journalResume_eq t
    obtain ⟨m', ag', hr⟩ := hrest
    refine ⟨⟨m, ag, by rw [hj, hr]⟩, ?_, fun j hj => ?_⟩
    · rw [hk, if_pos rfl, htile, if_pos rfl]
      exact ⟨hu.shadow, hu.halt, hu.mxmode, hu.a, hu.b⟩
    · rw [hk, if_neg (Ne.symm hj), htile, if_neg (Ne.symm hj)]
  · refine ⟨hrest, ?_, fun j hj => ?_⟩
    · rw [htile, if_pos rfl]
      exact hu
    · rw [htile, if_neg (Ne.symm hj)]

/-- Every tile of a partition whose images are whole takes up its own. -/
theorem State.resumeTiles_spec (s : State) (x : Nat) (ts : List Nat) (hl : ∀ t ∈ ts, ∀ h, (s.tile t).shadow = some h → h.lost = []) :
    (∃ m ag, ts.foldl (fun u t => u.resumeTile x t) s = { s with tiles := m, agenda := ag }) ∧
      ∀ t ∈ ts, ∀ h, (s.tile t).shadow = some h → ((ts.foldl (fun u t => u.resumeTile x t) s).tile t).Resumed h s.gtick := by
  have hall (us : List Nat) (hsub : us ⊆ ts) (u : State) (hr : ∃ m ag, u = { s with tiles := m, agenda := ag })
      (h : ∀ t, u.tile t = s.tile t ∨ ∃ h, (s.tile t).shadow = some h ∧ (u.tile t).Resumed h s.gtick) :
      (∃ m ag, us.foldl (fun u t => u.resumeTile x t) u = { s with tiles := m, agenda := ag }) ∧
        ∀ t, (t ∈ us ∨ u.tile t ≠ s.tile t) → ∀ h, (s.tile t).shadow = some h → ((us.foldl (fun u t => u.resumeTile x t) u).tile t).Resumed h s.gtick := by
    induction us generalizing u with
    | nil =>
      refine ⟨hr, fun t ht k hk => ?_⟩
      obtain ⟨k', hk', hres⟩ := (h t).resolve_left (ht.resolve_left List.not_mem_nil)
      cases hk.symm.trans hk'
      exact hres
    | cons j us ih =>
      have hj : j ∈ ts := hsub List.mem_cons_self
      have hsub : us ⊆ ts := fun _ hm => hsub (.tail _ hm)
      rw [List.foldl_cons]
      cases hs : (u.tile j).shadow with
      | none =>
        rw [u.resumeTile_none x j hs]
        obtain ⟨hr', hres⟩ := ih hsub u hr h
        refine ⟨hr', fun t ht k hk => hres t ?_ k hk⟩
        rcases ht with ht | ht
        · refine (List.mem_cons.1 ht).symm.imp_right fun htj hsame => ?_
          rw [htj] at hsame hk
          rw [← hsame, hs] at hk
          cases hk
        · exact .inr ht
      | some k =>
        have hsame : u.tile j = s.tile j := (h j).resolve_right fun ⟨_, _, hres⟩ => by rw [hres.shadow] at hs; cases hs
        have hk : (s.tile j).shadow = some k := hsame ▸ hs
        obtain ⟨⟨m', ag', hstep⟩, hres, hother⟩ := u.resumeTile_some x j k hs (hl j hj k hk)
        obtain ⟨m, ag, hu⟩ := hr
        have htick : u.gtick = s.gtick := by rw [hu]
        rw [htick] at hres
        have hchanged : (u.resumeTile x j).tile j ≠ s.tile j := fun he => by
          have := hres.shadow
          rw [he, hk] at this
          cases this
        obtain ⟨hr', hall⟩ := ih hsub (u.resumeTile x j) ⟨m', ag', by rw [hstep, hu]⟩ fun t => by
          by_cases htj : t = j
          · exact .inr ⟨k, htj ▸ hk, htj ▸ hres⟩
          · rw [hother t htj]
            exact h t
        refine ⟨hr', fun t ht => hall t ?_⟩
        by_cases htj : t = j
        · exact .inr (htj ▸ hchanged)
        · rw [hother t htj]
          exact ht.imp_left fun hm => (List.mem_cons.1 hm).resolve_left htj
  obtain ⟨hr, hres⟩ := hall ts (List.Subset.refl ts) s ⟨_, _, rfl⟩ fun t => .inl rfl
  exact ⟨hr, fun t ht => hres t (.inl ht)⟩

/-! PARTITION_RESUME. -/

/-- The context's timetable, later by a pause. -/
def Ctx.resumed (c : Ctx) (n tick : Nat) : Ctx :=
  { c with part := .running, ending := none, blocked := false, segEnd := c.segEnd + n, nextStart := c.nextStart + n, resumeTick := tick,
           tasks := c.tasks.map fun (k : TaskRun) => if k.started then k else { k with start := k.start + n } }

/-- The pause of a partition, by the image of its first tile. -/
def State.pause (s : State) (x : Nat) : Nat :=
  s.gtick - ((((s.ctx x).tiles.head?.bind fun t => (s.tile t).shadow).map (·.haltTick))).getD s.gtick

/-- The machine with every tile of a partition gone on. -/
def State.resumeTiles (s : State) (x : Nat) : State := (s.ctx x).tiles.foldl (fun u t => u.resumeTile x t) s

theorem State.partitionResume_eq (s : State) (x : Nat) (hp : (s.ctx x).part = .halted) (hpow : s.powerLost = false) (he : (s.ctx x).ending = none)
    (hi : ∀ t ∈ (s.ctx x).tiles, s.hasImage x t = true) : s.partitionResume x =
      ((s.resumeTiles x).modCtx x fun c => c.resumed (s.pause x) (s.resumeTiles x).gtick).askAck x := by
  unfold State.partitionResume
  dsimp only
  rw [if_neg (by simp [hp, hpow]), he, if_neg (by decide), if_neg (by simpa using hi)]
  rfl

/-- A deadline for the Sheaf's version changes that alone. -/
theorem State.askAck_spec (s : State) (x : Nat) : (∃ ds, (s.askAck x).ctx x = { s.ctx x with ackDue := ds }) ∧ ∀ t, (s.askAck x).tile t = s.tile t := by
  unfold State.askAck
  dsimp only
  split
  · exact ⟨⟨_, (State.ctx_setCtx ..).trans (if_pos rfl)⟩, fun _ => rfl⟩
  · exact ⟨⟨_, rfl⟩, fun _ => rfl⟩

/-- PARTITION_RESUME of a partition whose images are whole (R35, R62). -/
theorem State.partitionResume_spec (s : State) (x : Nat) (hp : (s.ctx x).part = .halted) (hpow : s.powerLost = false) (he : (s.ctx x).ending = none)
    (hi : ∀ t ∈ (s.ctx x).tiles, s.hasImage x t = true) (hl : ∀ t ∈ (s.ctx x).tiles, ∀ h, (s.tile t).shadow = some h → h.lost = []) :
    (∃ ds, (s.partitionResume x).ctx x = { (s.ctx x).resumed (s.pause x) s.gtick with ackDue := ds }) ∧
      ∀ t ∈ (s.ctx x).tiles, ∀ h, (s.tile t).shadow = some h → ((s.partitionResume x).tile t).Resumed h s.gtick := by
  obtain ⟨⟨m, ag, hr⟩, htile⟩ := s.resumeTiles_spec x (s.ctx x).tiles hl
  have heq := s.partitionResume_eq x hp hpow he hi
  have hv : s.resumeTiles x = { s with tiles := m, agenda := ag } := hr
  have htile : ∀ t ∈ (s.ctx x).tiles, ∀ h, (s.tile t).shadow = some h → ((s.resumeTiles x).tile t).Resumed h s.gtick := htile
  generalize s.resumeTiles x = v at *
  have hctx : v.ctx x = s.ctx x := by rw [hv]; rfl
  have htick : v.gtick = s.gtick := by rw [hv]
  obtain ⟨⟨ds, hds⟩, hask⟩ := (v.modCtx x fun c => c.resumed (s.pause x) v.gtick).askAck_spec x
  rw [heq]
  refine ⟨⟨ds, ?_⟩, fun t ht h hs => ?_⟩
  · rw [hds, State.ctx_modCtx_same, hctx, htick]
  · rw [hask]
    exact htile t ht h hs

theorem State.pause_eq (s : State) (x t : Nat) (h : Shadow) (ht : (s.ctx x).tiles.head? = some t) (hs : (s.tile t).shadow = some h) :
    s.pause x = s.gtick - h.haltTick := by
  rw [State.pause, ht, Option.bind_some, hs]
  rfl

end Sys2Proof.Machine
end

