-- ==== Sys2Proof/Proofs/ContextRestores.lean ====
section
/-! SUPPORT. CONTEXT_RESTORE (R65, R319, R354, R355, R397) and MAPACK_MISSED (R354). -/
namespace Sys2Proof.Machine

/-! Images move (R65). -/

/-- A saved image as another tile holds it. -/
def Shadow.placed (h : Shadow) (x : Nat) (l : Launch) (version : Nat) : Shadow :=
  { h with ctx := x, a := h.a.restored l version, b := h.b.restored l version }

/-- An image goes to a tile. -/
def State.placeImage (s : State) (x : Nat) (l : Launch) (e : Nat × Option Shadow) : State :=
  s.modTile e.1 fun z => z.holdImage (e.2.map fun h => h.placed x l s.sheaf.version) s.gtick

theorem State.placeImage_shadow (s : State) (x : Nat) (l : Launch) (e : Nat × Option Shadow) (t : Nat) :
    ((s.placeImage x l e).tile t).shadow = if e.1 = t then e.2.map fun h => h.placed x l s.sheaf.version else (s.tile t).shadow := by
  rw [State.placeImage, State.tile_modTile]
  split
  · obtain ⟨mv, h⟩ := (s.tile e.1).holdImage_eq (e.2.map fun h => h.placed x l s.sheaf.version) s.gtick
    rw [h]
  · rfl

/-- Images that go to distinct tiles stand there. -/
theorem State.foldl_placeImage (x : Nat) (l : Launch) (es : List (Nat × Option Shadow)) (hn : (es.map (·.1)).Nodup) (s : State) (t : Nat) :
    (∀ e ∈ es, ((es.foldl (fun u e => u.placeImage x l e) s).tile e.1).shadow = e.2.map fun h => h.placed x l s.sheaf.version) ∧
      (t ∉ es.map (·.1) → ((es.foldl (fun u e => u.placeImage x l e) s).tile t).shadow = (s.tile t).shadow) := by
  induction es generalizing s t with
  | nil => exact ⟨fun e he => absurd he List.not_mem_nil, fun _ => rfl⟩
  | cons a es ih =>
    rw [List.map_cons, List.nodup_cons] at hn
    obtain ⟨ha, hn⟩ := hn
    refine ⟨fun e he => ?_, fun ht => ?_⟩
    · rcases List.mem_cons.1 he with rfl | he
      · rw [List.foldl_cons, (ih hn (s.placeImage x l e) e.1).2 ha, State.placeImage_shadow, if_pos rfl]
      · exact (ih hn (s.placeImage x l a) t).1 e he
    · rw [List.map_cons, List.mem_cons, not_or] at ht
      rw [List.foldl_cons, (ih hn (s.placeImage x l a) t).2 ht.2, State.placeImage_shadow, if_neg (Ne.symm ht.1)]

theorem zip_keys_sublist {α β : Type} (xs : List α) (ys : List β) : ((xs.zip ys).map (·.1)).Sublist xs := by
  induction xs generalizing ys with
  | nil => exact List.Sublist.slnil
  | cons x xs ih =>
    cases ys with
    | nil => exact List.nil_sublist _
    | cons y ys => exact (ih ys).cons_cons x

/-- By place, every image of the old partition stands in the new. -/
theorem State.moveImages_spec (s : State) (x : Nat) (old new : List Nat) (l : Launch) (hn : new.Nodup) :
    (∃ m, s.moveImages x old new l = { s with tiles := m }) ∧
      ∀ (i t t' : Nat) (h : Shadow), old[i]? = some t → new[i]? = some t' → (s.tile t).shadow = some h →
        ((s.moveImages x old new l).tile t').shadow = some (h.placed x l s.sheaf.version) := by
  obtain ⟨m, hm⟩ := State.foldl_tilesOnly (fun (u : State) t => u.modTile t fun z => { z with shadow := none }) (fun _ _ => ⟨_, rfl⟩) old s
  have heq : s.moveImages x old new l = (new.zip (old.map fun t => (s.tile t).shadow)).foldl (fun u e => u.placeImage x l e)
    (old.foldl (fun (u : State) t => u.modTile t fun z => { z with shadow := none }) s) := rfl
  rw [heq, hm]
  obtain ⟨m', hm'⟩ := State.foldl_tilesOnly (fun u e => u.placeImage x l e) (fun _ _ => ⟨_, rfl⟩) (new.zip (old.map fun t => (s.tile t).shadow))
    { s with tiles := m }
  refine ⟨⟨m', hm'⟩, fun i t t' h ht ht' hs => ?_⟩
  have hmem : (t', some h) ∈ new.zip (old.map fun t => (s.tile t).shadow) := by
    refine List.mem_of_getElem? (i := i) ?_
    rw [List.getElem?_zip_eq_some]
    exact ⟨ht', by rw [List.getElem?_map, ht]; exact congrArg some hs⟩
  exact (State.foldl_placeImage x l _ ((zip_keys_sublist _ _).nodup hn) { s with tiles := m } t).1 _ hmem

/-- What a bind record that is written leaves of its context, and the record itself. -/
theorem State.writeBind_spec (s : State) (b x class_ record : Nat) (r : Bind) :
    let u := s.writeBind b x class_ record r
    u.ctx x = { s.ctx x with bind := some b, tiles := r.tiles } ∧ (u.bind b).valid = true ∧ (u.bind b).active = false ∧ (u.bind b).ctx = x ∧
      (u.bind b).tiles = r.tiles ∧ ∀ t, u.tile t = s.tile t := by
  intro u
  obtain ⟨v, ag, n, hw, hvalid, hactive, hctx, -, htiles, -⟩ := s.writeBind_eq b x class_ record r
  have hbind : u.bind b = v := (congrArg (fun u : State => u.bind b) hw).trans ((State.bind_modBind s b b fun _ => v).trans (if_pos rfl))
  have huctx : u.ctx x = { s.ctx x with bind := some b, tiles := r.tiles } := (congrArg (fun u : State => u.ctx x) hw).trans
    (State.ctx_modCtx_same (s.modBind b fun _ => v) x fun c => { c with bind := some b, tiles := r.tiles })
  exact ⟨huctx, by rw [hbind, hvalid], by rw [hbind, hactive], by rw [hbind, hctx], by rw [hbind, htiles], fun t => (congrArg (fun u : State => u.tile t) hw :)⟩

/-- A context bound anew on a place: it waits there, and its images with it. -/
theorem State.rebind_spec (s : State) (b x : Nat) (l : Launch) (k : Bind) :
    let u := s.rebind b x l k
    (u.ctx x).part = .swapped ∧ (u.ctx x).tiles = k.tiles ∧ (u.bind b).valid = true ∧ (u.bind b).active = false ∧ (u.bind b).ctx = x ∧
      ∀ (i t t' : Nat) (h : Shadow), (s.ctx x).tiles[i]? = some t → k.tiles[i]? = some t' → (s.tile t).shadow = some h →
        (u.tile t').shadow = some { h with ctx := x, a := h.a.restored l s.sheaf.version, b := h.b.restored l s.sheaf.version } := by
  intro u
  obtain ⟨-, hmove⟩ := s.moveImages_spec x (s.ctx x).tiles k.tiles l k.tiles_nodup
  obtain ⟨c', hu, hpart⟩ : ∃ c' : Ctx, u = ((s.moveImages x (s.ctx x).tiles k.tiles l).setCtx x c').writeBind b x (s.bind b).class_ (s.bind b).record k ∧
    c'.part = .swapped := ⟨_, rfl, rfl⟩
  generalize s.moveImages x (s.ctx x).tiles k.tiles l = a at *
  obtain ⟨huctx, hvalid, hactive, hctx, -, htile⟩ := (a.setCtx x c').writeBind_spec b x (s.bind b).class_ (s.bind b).record k
  rw [← hu] at huctx hvalid hactive hctx htile
  rw [State.ctx_setCtx, if_pos rfl] at huctx
  exact ⟨by rw [huctx]; exact hpart, by rw [huctx], hvalid, hactive, hctx, fun i t t' h ht ht' hs => (congrArg Tile.shadow (htile t')).trans (hmove i t t' h ht ht' hs)⟩

/-! The other ends of a restore. -/

/-- A restore that is tried again later. -/
theorem State.restoreLater_spec (s : State) (x : Nat) (own : Bool) : let u := s.restoreLater x own
    u.tiles = s.tiles ∧ u.ctxs = s.ctxs ∧ ∃ e ∈ u.agenda, e.op = .contextRestore ∧ e.args = (if own then [x, 1] else [x]) ∧ s.gtick < e.tick := by
  refine ⟨rfl, rfl, _, (mem_insertTimed _ _ _).2 (.inl rfl), rfl, rfl, ?_⟩
  show s.gtick < s.gtick + (1 + _)
  omega

/-- A context whose image is lost ends, with a record. -/
theorem State.imageLost_spec (s : State) (x : Nat) (l : Launch) (hl : (s.ctx x).launch = some l) : let u := s.imageLost x
    (u.ctx x).launch = none ∧ ∃ f, u.log.getLast? = some f ∧ f.info.code = 0x0508 ∧ f.level = 4 := by
  intro u
  have hu : u = (((s.record x { info := { code := 0x0508, unit := 255 }, level := 4, tick := s.gtick }).modCtx x fun c => { c with ending := none }).endLaunch x
    0x0508).stopRings x := rfl
  have hlog := s.record_last x { info := { code := 0x0508, unit := 255 }, level := 4, tick := s.gtick }
  obtain ⟨rs, hrs⟩ := s.record_ctx x { info := { code := 0x0508, unit := 255 }, level := 4, tick := s.gtick }
  generalize s.record x { info := { code := 0x0508, unit := 255 }, level := 4, tick := s.gtick } = a at *
  have hctx : (a.modCtx x fun c => { c with ending := none }).ctx x = { s.ctx x with records := rs, ending := none } := by
    rw [State.ctx_modCtx_same, hrs]
  obtain ⟨hlaunch, -, -, -, hend⟩ := (a.modCtx x fun c => { c with ending := none }).endLaunch_ends x 0x0508 l (by rw [hctx]; exact hl)
  generalize (a.modCtx x fun c => { c with ending := none }).endLaunch x 0x0508 = v at *
  have hulog : u.log = a.log := (congrArg State.log hu).trans hend
  exact ⟨(congrArg (fun u : State => (u.ctx x).launch) hu).trans hlaunch, _, (congrArg List.getLast? hulog).trans hlog, rfl, rfl⟩

/-- A context that no partition can receive stays suspended, with a record. -/
theorem State.restoreFails_spec (s : State) (x code : Nat) (h : (s.ctx x).ending ≠ some (3, code)) : let u := s.restoreFails x code
    (u.ctx x).part = .suspended ∧ (u.ctx x).ending = some (3, code) ∧ ∃ f, u.log.getLast? = some f ∧ f.info.code = code ∧ f.level = 3 := by
  intro u
  have hlog := s.record_last x { info := { code := code, unit := 255 }, level := 3, tick := s.gtick }
  have hu : u = ((((s.record x { info := { code := code, unit := 255 }, level := 3, tick := s.gtick }).modCtx x fun c =>
      { c with ending := some (3, code) }).modCtx x fun c => { c with part := .suspended }).after (1 + Config.serviceDelay (s.record x
      { info := { code := code, unit := 255 }, level := 3, tick := s.gtick }).free) .contextRestore [x]).tickFree := by
    show s.restoreFails x code = _
    unfold State.restoreFails
    dsimp only
    rw [if_neg h]
    rfl
  generalize s.record x { info := { code := code, unit := 255 }, level := 3, tick := s.gtick } = a at *
  have hctx : u.ctx x = ((a.modCtx x fun c => { c with ending := some (3, code) }).modCtx x fun c => { c with part := .suspended }).ctx x := by
    rw [hu]
    rfl
  rw [State.ctx_modCtx_same, State.ctx_modCtx_same] at hctx
  have hulog : u.log = a.log := by
    rw [hu]
    rfl
  exact ⟨by rw [hctx], by rw [hctx], _, (congrArg List.getLast? hulog).trans hlog, rfl, rfl⟩

/-! CONTEXT_RESTORE by its cases. -/

section
variable (s : State) (x : Nat) (own : Bool) (l : Launch) (b : Nat) (hl : (s.ctx x).launch = some l) (hb : (s.ctx x).bind = some b)
  (ha : (s.bind b).active = false) (hpow : s.powerLost = false) (htdi : s.tdiError x = false)
include hl hb ha hpow htdi

/-- A context not yet begun. -/
theorem State.contextRestore_unbound (hp : (s.ctx x).part = .unbound) :
    s.contextRestore x own = if (s.bind b).valid then s else s.placeAgain b x l := by
  unfold State.contextRestore
  dsimp only
  rw [hl, hb]
  dsimp only
  rw [if_neg (by simp [ha, hpow, htdi]), if_pos (by rw [hp]; rfl)]

/-- A context that has been saved. -/
theorem State.contextRestore_saved (hp : (s.ctx x).part = .swapped ∨ (s.ctx x).part = .suspended) : s.contextRestore x own =
    if own && (s.ctx x).tiles.any (fun t => (s.tile t).failed) then s.restoreLater x true
    else if !(s.ctx x).tiles.all (s.hasImage x) then s.imageLost x
    else if (s.bind b).valid then (if (s.bind b).policy = 2 then s.moveBind b x l else s)
    else if own && s.tilesTake l (s.ctx x).tiles then s.restoreOwn b x l
    else s.bindAgain b x l := by
  unfold State.contextRestore
  dsimp only
  rw [hl, hb]
  dsimp only
  rw [if_neg (by simp [ha, hpow, htdi]), if_neg (by rcases hp with hp | hp <;> rw [hp] <;> decide), if_neg (by rcases hp with hp | hp <;> rw [hp] <;> decide)]

section
variable (hp : (s.ctx x).part = .swapped ∨ (s.ctx x).part = .suspended)
include hp

/-- A spare is still to stand. -/
theorem State.contextRestore_spare (ho : own = true) {t : Nat} (ht : t ∈ (s.ctx x).tiles) (hf : (s.tile t).failed = true) :
    s.contextRestore x own = s.restoreLater x true := by
  have hany : (s.ctx x).tiles.any (fun t => (s.tile t).failed) = true := List.any_eq_true.2 ⟨t, ht, hf⟩
  exact (s.contextRestore_saved x own l b hl hb ha hpow htdi hp).trans (if_pos (by rw [hany, ho]; rfl))

section
variable (hr : own = false ∨ ∀ t ∈ (s.ctx x).tiles, (s.tile t).failed = false)
include hr

/-- No spare is awaited. -/
theorem State.contextRestore_ready : s.contextRestore x own =
    if !(s.ctx x).tiles.all (s.hasImage x) then s.imageLost x
    else if (s.bind b).valid then (if (s.bind b).policy = 2 then s.moveBind b x l else s)
    else if own && s.tilesTake l (s.ctx x).tiles then s.restoreOwn b x l
    else s.bindAgain b x l := by
  refine (s.contextRestore_saved x own l b hl hb ha hpow htdi hp).trans (if_neg (Bool.eq_false_iff.1 ?_))
  rw [Bool.and_eq_false_iff, List.any_eq_false]
  exact hr.imp_right fun h t ht => by rw [h t ht]; decide

theorem State.contextRestore_lost {t : Nat} (ht : t ∈ (s.ctx x).tiles) (hi : s.hasImage x t = false) : s.contextRestore x own = s.imageLost x := by
  refine (s.contextRestore_ready x own l b hl hb ha hpow htdi hp hr).trans (if_pos ?_)
  rw [Bool.not_eq_true', List.all_eq_false]
  exact ⟨t, ht, by rw [hi]; decide⟩

variable (hi : ∀ t ∈ (s.ctx x).tiles, s.hasImage x t = true)
include hi

/-- A bind that is still valid waits, or under MOVE moves. -/
theorem State.contextRestore_valid (hv : (s.bind b).valid = true) :
    s.contextRestore x own = if (s.bind b).policy = 2 then s.moveBind b x l else s :=
  (s.contextRestore_ready x own l b hl hb ha hpow htdi hp hr).trans ((if_neg (by simpa using hi)).trans (if_pos hv))

variable (hv : (s.bind b).valid = false)
include hv

theorem State.contextRestore_own (ho : own = true) (htake : s.tilesTake l (s.ctx x).tiles = true) : s.contextRestore x own = s.restoreOwn b x l :=
  (s.contextRestore_ready x own l b hl hb ha hpow htdi hp hr).trans
    ((if_neg (by simpa using hi)).trans ((if_neg (Bool.eq_false_iff.1 hv)).trans (if_pos (by rw [ho, htake]; rfl))))

theorem State.contextRestore_again (h : own = false ∨ s.tilesTake l (s.ctx x).tiles = false) : s.contextRestore x own = s.bindAgain b x l :=
  (s.contextRestore_ready x own l b hl hb ha hpow htdi hp hr).trans
    ((if_neg (by simpa using hi)).trans ((if_neg (Bool.eq_false_iff.1 hv)).trans (if_neg (Bool.eq_false_iff.1 (Bool.and_eq_false_iff.2 h)))))

end
end
end

theorem State.restoreOwn_open (s : State) (b x : Nat) (l : Launch) (h : ∀ t ∈ (s.ctx x).tiles, s.tileOpen t = true) :
    s.restoreOwn b x l = s.rebind b x l (s.bind b) := if_pos (List.all_eq_true.2 h)

theorem State.restoreOwn_closed (s : State) (b x : Nat) (l : Launch) {t : Nat} (ht : t ∈ (s.ctx x).tiles) (h : s.tileOpen t = false) :
    s.restoreOwn b x l = s.restoreLater x true :=
  if_neg fun hall => by rw [List.all_eq_true.1 hall t ht] at h; cases h

theorem State.placeAgain_placed (s : State) (b x : Nat) (l : Launch) (k : Bind) (h : s.placeLaunch l (shapes (l.size / 2)) (fun _ => false) = .ok k) :
    s.placeAgain b x l = s.writeBind b x (s.bind b).class_ (s.bind b).record k := by
  unfold State.placeAgain
  rw [h]

theorem State.placeAgain_refused (s : State) (b x : Nat) (l : Launch) (code : Nat)
    (h : s.placeLaunch l (shapes (l.size / 2)) (fun _ => false) = .error code) : s.placeAgain b x l = s.finishLaunch x code := by
  unfold State.placeAgain
  rw [h]

/-- The places that a pre-empted MOVE bind may go to. -/
def State.openPlaces (s : State) (b x : Nat) (l : Launch) : List Bind :=
  (s.restorePlaces x (s.bind b)).filter fun k => levelsOk l.levels k.tiles && s.tilesTake l k.tiles && k.tiles.all s.tileOpen

theorem State.moveBind_waits (s : State) (b x : Nat) (l : Launch)
    (h : s.openPlaces b x l = [] ∨ ∃ k ∈ s.openPlaces b x l, k.tiles = (s.ctx x).tiles) : s.moveBind b x l = s.restoreLater x false := by
  have hany (k : Bind) (ks : List Bind) (hks : s.openPlaces b x l = k :: ks) : ((k :: ks).any fun k => k.tiles == (s.ctx x).tiles) = true := by
    obtain ⟨j, hj, ht⟩ := h.resolve_left (by rw [hks]; exact List.cons_ne_nil _ _)
    exact List.any_eq_true.2 ⟨j, hks ▸ hj, beq_iff_eq.2 ht⟩
  unfold State.moveBind
  dsimp only
  change (match s.openPlaces b x l with
    | [] => s.restoreLater x false
    | k :: _ => if (s.openPlaces b x l).any fun k => k.tiles == (s.ctx x).tiles then s.restoreLater x false else s.rebind b x l k) = _
  generalize s.openPlaces b x l = ks at *
  cases ks with
  | nil => rfl
  | cons k ks => exact if_pos (hany k ks rfl)

theorem State.moveBind_moves (s : State) (b x : Nat) (l : Launch) (k : Bind) (h : (s.openPlaces b x l).head? = some k)
    (hne : ∀ k ∈ s.openPlaces b x l, k.tiles ≠ (s.ctx x).tiles) : s.moveBind b x l = s.rebind b x l k := by
  unfold State.moveBind
  dsimp only
  change (match s.openPlaces b x l with
    | [] => s.restoreLater x false
    | k :: _ => if (s.openPlaces b x l).any fun k => k.tiles == (s.ctx x).tiles then s.restoreLater x false else s.rebind b x l k) = _
  generalize s.openPlaces b x l = ks at *
  cases ks with
  | nil => cases h
  | cons j ks =>
    cases h
    exact if_neg (by simpa using hne)

/-- The Granary may choose among equal partitions: for a suspended context and under MOVE (R319). -/
def State.chooses (s : State) (b x : Nat) : Bool := (s.ctx x).part == .suspended || (s.bind b).policy == 2

theorem State.bindAgain_refused (s : State) (b x : Nat) (l : Launch) (code : Nat)
    (h : s.placeLaunch l (s.restorePlaces x (s.bind b)) (fun _ => false) = .error code) : s.bindAgain b x l = s.restoreFails x code := by
  unfold State.bindAgain
  dsimp only
  rw [h]

theorem State.bindAgain_first (s : State) (b x : Nat) (l : Launch) (k : Bind)
    (h : s.placeLaunch l (s.restorePlaces x (s.bind b)) (fun _ => false) = .ok k) (hk : s.chooses b x = false ∨ k.tiles.all s.tileOpen = true) :
    s.bindAgain b x l = s.rebind b x l k := by
  unfold State.bindAgain
  dsimp only
  rw [h]
  exact if_pos (by unfold State.chooses at hk; rcases hk with hk | hk <;> simp [hk])

theorem State.bindAgain_open (s : State) (b x : Nat) (l : Launch) (k : Bind)
    (h : s.placeLaunch l (s.restorePlaces x (s.bind b)) (fun _ => false) = .ok k) (hw : s.chooses b x = true) (hk : k.tiles.all s.tileOpen = false) :
    (∀ j, s.placeLaunch l ((s.restorePlaces x (s.bind b)).filter fun k => k.tiles.all s.tileOpen) (fun _ => false) = .ok j →
      s.bindAgain b x l = s.rebind b x l j) ∧
    ∀ code, s.placeLaunch l ((s.restorePlaces x (s.bind b)).filter fun k => k.tiles.all s.tileOpen) (fun _ => false) = .error code →
      s.bindAgain b x l = s.restoreLater x false := by
  unfold State.chooses at hw
  unfold State.bindAgain
  dsimp only
  rw [h]
  dsimp only
  rw [if_neg (by simp only [hw, hk]; decide)]
  refine ⟨fun j hj => by rw [hj], fun code hc => by rw [hc]⟩

/-! MAPACK_MISSED (R354). -/

theorem State.mapackMissed_none (s : State) (x atEnd : Nat) (h : (s.ctx x).ackDue = []) : s.mapackMissed x atEnd = s := by
  unfold State.mapackMissed
  dsimp only
  rw [h]

/-- The deadline missed: a record, and the context halts. -/
theorem State.mapackMissed_spec (s : State) (x atEnd : Nat) (d : Nat × Nat) (ds : List (Nat × Nat)) (hd : (s.ctx x).ackDue = d :: ds)
    (hv : (s.ctx x).ackVersion < s.sheaf.version) (hdue : d.2 ≤ s.gtick ∨ atEnd = 1) (hp : (s.ctx x).part = .running)
    (he : (s.ctx x).ending = none) : let u := s.mapackMissed x atEnd
    (∃ f, u.log.getLast? = some f ∧ f.info.code = 0x0B01 ∧ f.level = 3) ∧ (u.ctx x).ending = some (3, 0x0B01) ∧ (u.ctx x).part = .halting ∧
      (u.ctx x).ackDue = [] := by
  intro u
  have hu : u = ((s.record x { info := { code := 0x0B01, unit := 255 }, level := 3, tick := s.gtick }).modCtx x fun c => { c with ackDue := [] }).endPartition x 3
      0x0B01 := by
    show s.mapackMissed x atEnd = _
    unfold State.mapackMissed
    dsimp only
    rw [hd]
    exact if_pos (by simpa [hv, hp, he] using hdue)
  have hlog := s.record_last x { info := { code := 0x0B01, unit := 255 }, level := 3, tick := s.gtick }
  obtain ⟨rs, hrs⟩ := s.record_ctx x { info := { code := 0x0B01, unit := 255 }, level := 3, tick := s.gtick }
  generalize s.record x { info := { code := 0x0B01, unit := 255 }, level := 3, tick := s.gtick } = a at *
  have hctx : (a.modCtx x fun c => { c with ackDue := [] }).ctx x = { s.ctx x with records := rs, ackDue := [] } := by
    rw [State.ctx_modCtx_same, hrs]
  have hlog' : (a.modCtx x fun c => { c with ackDue := [] }).log = a.log := rfl
  generalize a.modCtx x (fun c => { c with ackDue := [] }) = v at *
  obtain ⟨hpart, hending, -⟩ := v.endPartition_toHalt x 3 0x0B01 (by rw [hctx]; exact hp) (by rw [hctx]; exact he)
  obtain ⟨p, e, hpe⟩ := v.endPartition_ctx x 3 0x0B01 x
  have hack : ((v.endPartition x 3 0x0B01).ctx x).ackDue = [] := by rw [hpe, hctx]
  rw [← hu] at hpart hending hack
  have hulog : u.log = a.log := by rw [hu, State.endPartition_log, hlog']
  exact ⟨⟨_, (congrArg List.getLast? hulog).trans hlog, rfl, rfl⟩, hending, hpart, hack⟩

end Sys2Proof.Machine
end

