-- ==== Sys2Proof/Proofs/PartitionsHaltSwapAndResume.lean ====
section
/-! O44: halt, swap, resume and restore of a partition. -/
namespace Sys2Proof.Machine

/-- Settles O44: each operation by the lemmas about its parts; CONTEXT_RESTORE by its cases. -/
theorem partitionsHaltSwapAndResume : Obligations.PartitionsHaltSwapAndResume := by
  intro s x c again lost
  refine ⟨fun level code hp he => ⟨fun h4 h5 hc => ?halt, fun l h4 hl => ?ends⟩, fun level code l hp he h5 hl h1 h2 => ?swap,
    fun hp hpow he hi hlost => ?resume, fun l b hl hb hp ha hpow htdi => ?saved, fun l b hl hb hp ha hpow htdi => ?unbound,
    fun d ds hd hv hdue hp he => ?missed, fun h => ?notMissed⟩
  case halt => exact ⟨_, rfl, s.partitionHalt_halts x level code hp he h4 h5 hc⟩
  case ends =>
    have hu : exec .partitionHalt s = .next (s.endLaunch x code) := by
      subst h4
      exact congrArg Host.Outcome.next (s.partitionHalt_ends x code hp he)
    obtain ⟨hlaunch, hpart, hfree, hstaged, -⟩ := s.endLaunch_ends x code l hl
    exact ⟨_, hu, hlaunch, hpart, hfree, hstaged⟩
  case swap => exact ⟨_, rfl, s.contextSwap_spec x level code l hp he h5 hl h1 h2⟩
  case resume =>
    obtain ⟨⟨ds, hctx⟩, htile⟩ := s.partitionResume_spec x hp hpow he hi hlost
    refine ⟨s.partitionResume x, rfl, by rw [hctx]; rfl, by rw [hctx]; rfl, by rw [hctx]; rfl, fun t h ht hs => ?_, fun t h hcount hs => ?_⟩
    · rw [hctx, s.pause_eq x t h ht hs]
      rfl
    · have hres := htile t (List.count_pos_iff.1 (by rw [hcount]; decide)) h hs
      exact ⟨hres.shadow, hres.halt, hres.mxmode, hres.a, hres.b, by rw [State.seq, Tile.seq, if_pos rfl, hres.a]; rfl,
        by rw [State.seq, Tile.seq, if_pos rfl, hres.a]; rfl⟩
  case saved =>
    have hexec (u : State) (h : s.contextRestore x (decide (s.arg 1 = 1)) = u) : exec .contextRestore s = .next u := congrArg Host.Outcome.next h
    intro places own ready wide open_ moved
    have hnot (h : ¬ own) : decide (s.arg 1 = 1) = false := decide_eq_false h
    have hready (h : ready) : decide (s.arg 1 = 1) = false ∨ ∀ t ∈ c.tiles, (s.tile t).failed = false := h.imp_left hnot
    have hwide : s.chooses b x = true ↔ wide := by
      rw [State.chooses, Bool.or_eq_true, beq_iff_eq, beq_iff_eq]
    have hrebind (k : Bind) (h : s.contextRestore x (decide (s.arg 1 = 1)) = s.rebind b x l k) : moved k := ⟨_, hexec _ h, s.rebind_spec b x l k⟩
    have hlater (o : Bool) (h : s.contextRestore x (decide (s.arg 1 = 1)) = s.restoreLater x o) :
        ∃ u, exec .contextRestore s = .next u ∧ again (if o then [x, 1] else [x]) u := ⟨_, hexec _ h, s.restoreLater_spec x o⟩
    refine ⟨fun h => ?spare, fun hr ⟨t, ht, hi⟩ => ?lost, fun hr hi hv hpol => ?waits, fun hr hi hv hpol => ?moves,
      fun hr hown hi hv htake => ?own, fun hr hcond hi hv => ?again⟩
    case spare =>
      obtain ⟨hown, t, ht, hf⟩ : own ∧ ∃ t ∈ c.tiles, (s.tile t).failed = true := by simpa [ready, not_or] using h
      exact hlater true (s.contextRestore_spare x _ l b hl hb ha hpow htdi hp (decide_eq_true hown) ht hf)
    case lost =>
      exact ⟨_, hexec _ (s.contextRestore_lost x _ l b hl hb ha hpow htdi hp (hready hr) ht hi), s.imageLost_spec x l hl⟩
    case waits =>
      exact hexec _ ((s.contextRestore_valid x _ l b hl hb ha hpow htdi hp (hready hr) hi hv).trans (if_neg hpol))
    case moves =>
      have heq := (s.contextRestore_valid x _ l b hl hb ha hpow htdi hp (hready hr) hi hv).trans (if_pos hpol)
      exact ⟨fun h => hlater false (heq.trans (s.moveBind_waits b x l h)), fun k hk hne => hrebind k (heq.trans (s.moveBind_moves b x l k hk hne))⟩
    case own =>
      have heq := s.contextRestore_own x _ l b hl hb ha hpow htdi hp (hready hr) hi hv (decide_eq_true hown) htake
      exact ⟨fun h => hrebind _ (heq.trans (s.restoreOwn_open b x l h)), fun ⟨t, ht, h⟩ => hlater true (heq.trans (s.restoreOwn_closed b x l ht h))⟩
    case again =>
      have heq := s.contextRestore_again x _ l b hl hb ha hpow htdi hp (hready hr) hi hv (hcond.imp_left hnot)
      refine ⟨fun k hk => ⟨fun h => ?_, fun hw hno => ?_⟩, fun code hcode hne => ?_⟩
      · exact hrebind k (heq.trans (s.bindAgain_first b x l k hk (h.imp_left fun h => Bool.eq_false_iff.2 fun hc => h (hwide.1 hc))))
      · obtain ⟨hopen, hnone⟩ := s.bindAgain_open b x l k hk (hwide.2 hw) hno
        exact ⟨fun j hj => hrebind j (heq.trans (hopen j hj)), fun code hcode => hlater false (heq.trans (hnone code hcode))⟩
      · exact ⟨_, hexec _ (heq.trans (s.bindAgain_refused b x l code hcode)), s.restoreFails_spec x code hne⟩
  case unbound =>
    have heq := s.contextRestore_unbound x (decide (s.arg 1 = 1)) l b hl hb ha hpow htdi hp
    refine ⟨fun hv => congrArg Host.Outcome.next (heq.trans (if_pos hv)), fun hv => ?_⟩
    rw [if_neg (by rw [hv]; decide)] at heq
    refine ⟨fun k hk => ?_, fun code hcode => ?_⟩
    · rw [s.placeAgain_placed b x l k hk] at heq
      obtain ⟨hctx, hvalid, hactive, hx, htiles, -⟩ := s.writeBind_spec b x (s.bind b).class_ (s.bind b).record k
      exact ⟨_, congrArg Host.Outcome.next heq, by rw [hctx]; exact hl, by rw [hctx]; exact hp, by rw [hctx], hvalid, hactive, hx, htiles⟩
    · rw [s.placeAgain_refused b x l code hcode] at heq
      exact ⟨_, congrArg Host.Outcome.next heq, (s.finishLaunch_ends x code l hl).1⟩
  case missed => exact ⟨_, rfl, s.mapackMissed_spec x (s.arg 1) d ds hd hv hdue hp he⟩
  case notMissed => exact congrArg Host.Outcome.next (s.mapackMissed_none x (s.arg 1) h)

end Sys2Proof.Machine
end

