-- ==== Sys2Proof/Proofs/MemoryWrites.lean ====
section
/-! SUPPORT. Writes that perform in memory (R118, R348): the bytes that memory holds after them, where no sector stands under a stored code. -/
namespace Sys2Proof.Machine

/-- No sector stands under a code that differs from its data's. -/
def State.uncoded (s : State) : Prop := ∀ k, (s.sectorMark k).code = none

theorem State.uncoded_of_codesClean {s : State} (h : s.codesClean = true) : s.uncoded ∧ ∀ e ∈ s.forward, e.write.code = none := by
  simp only [State.codesClean, Bool.and_eq_true, List.isEmpty_iff, Bool.not_eq_true', List.any_eq_false, Option.isSome_iff_ne_none, ne_eq,
    not_not] at h
  exact ⟨fun k => by rw [State.sectorMark, h.1]; rfl, h.2⟩

/-- A byte of a register made from 64 bytes. -/
theorem extract_bytesVec {bs : List Byte} (h : bs.length = 64) {i : Nat} (hi : i < 64) : (bytesVec bs).extractLsb' (8 * i) 8 = bs.getD i 0 := by
  have hb := vecBytes_bytesVec bs h
  rw [← vecBytes_getElem _ (by simpa using hi)]
  simp only [hb, List.getD_eq_getElem _ _ (h ▸ hi)]

theorem getD_vecBytes (v : Vec) {i : Nat} (hi : i < 64) : (vecBytes v).getD i 0 = v.extractLsb' (8 * i) 8 := by
  rw [List.getD_eq_getElem _ _ (by simpa using hi), vecBytes_getElem]

/-- The mask of the bytes that a write brings to sector `k`. -/
theorem getLsbD_sectorMask (k : Nat) (bytes : Map Byte) (m : BitVec 64) {i : Nat} (hi : i < 64) :
    (bytes.foldl (fun (m : BitVec 64) b => if b.1 / 64 = k then m ||| (1#64 <<< (b.1 % 64)) else m) m).getLsbD i =
      (m.getLsbD i || bytes.any fun b => b.1 == 64 * k + i) := by
  induction bytes generalizing m with
  | nil => simp
  | cons b bs ih =>
    have hbit : (1#64 <<< (b.1 % 64)).getLsbD i = (b.1 % 64 == i) := by
      have := getLsbD_foldl_or (fun _ => true) [b.1 % 64] (0 : BitVec 64) hi
      simpa using this
    rw [List.foldl_cons, ih, List.any_cons, ← Bool.or_assoc]
    congr 1
    by_cases hb : b.1 / 64 = k
    · rw [if_pos hb, BitVec.getLsbD_or, hbit]
      congr 1
      rw [Bool.eq_iff_iff, beq_iff_eq, beq_iff_eq]
      omega
    · rw [if_neg hb, beq_false_of_ne (by omega), Bool.or_false]

theorem mergeSector_plain (d new : Vec) (mask : BitVec 64) : mergeSector d none new mask = (mergeBytes mask new d, none) := rfl

/-- A sector after a plain write: the bytes written, the others as before, and no code. -/
theorem sectorWrite_plain (k : Nat) (x : Vec × SectorMark) (w : GlobalWrite) (hw : w.code = none) (hx : x.2.code = none) :
    (sectorWrite k x w).2.code = none ∧
      ∀ i < 64, (sectorWrite k x w).1.extractLsb' (8 * i) 8 = (w.bytes.lookup (64 * k + i)).getD (x.1.extractLsb' (8 * i) 8) := by
  have hnone (i : Nat) (h : (w.bytes.any fun b => b.1 == 64 * k + i) = false) : w.bytes.lookup (64 * k + i) = none := by
    rw [lookup_eq_none_iff_notMem_keys, List.mem_map]
    rintro ⟨b, hb, he⟩
    exact absurd (List.any_eq_false.1 h b hb) (by simp [he])
  unfold sectorWrite
  split
  next h =>
    refine ⟨hx, fun i hi => ?_⟩
    rw [hnone i (List.any_eq_false.2 fun b hb => ?_), Option.getD_none]
    have := List.any_eq_false.1 (Bool.not_eq_true' _ ▸ h) b hb
    simp only [beq_iff_eq] at this ⊢
    omega
  next =>
    rw [hw]
    dsimp only
    rw [hx, mergeSector_plain]
    refine ⟨rfl, fun i hi => ?_⟩
    dsimp only
    rw [extract_mergeBytes _ _ _ hi, getLsbD_sectorMask k w.bytes 0 hi, extract_bytesVec (by simp) hi]
    cases h : w.bytes.any fun b => b.1 == 64 * k + i with
    | true => simp [hi]
    | false => simp [hnone i h]

/-- A write as it performs: at the addresses where its bytes stand. -/
def State.homed (s : State) (w : GlobalWrite) : GlobalWrite := { w with bytes := w.bytes.map fun b => (s.homeAddr b.1, b.2) }

theorem State.homed_unmoved {s : State} (hm : s.migrations = []) (hf : s.forwarding = []) (w : GlobalWrite) : s.homed w = w := by
  simp only [State.homed, s.homeAddr_unmoved hm hf, Prod.mk.eta, List.map_id']

/-- One sector of a write performs. -/
def State.putSector (s : State) (w : GlobalWrite) (k : Nat) : State :=
  { s with mem := putBytes s.mem (64 * k) (vecBytes (sectorWrite k (bytesVec (bytesAt s.mem (64 * k) 64), s.sectorMark k) w).1),
           sectors := mset {} s.sectors k (sectorWrite k (bytesVec (bytesAt s.mem (64 * k) 64), s.sectorMark k) w).2 }

theorem State.memPut_eq (s : State) (w : GlobalWrite) :
    s.memPut w = ((s.homed w).sectors.foldl (fun (u : State) k => u.putSector (s.homed w) k) s).noteDirty (s.homed w) := rfl

theorem State.putSector_plain (s : State) (w : GlobalWrite) (k : Nat) (hw : w.code = none) (hs : s.uncoded) : (s.putSector w k).uncoded ∧
    ∀ a, byteAt (s.putSector w k).mem a = if a / 64 = k then (w.bytes.lookup a).getD (byteAt s.mem a) else byteAt s.mem a := by
  obtain ⟨hcode, hbyte⟩ := sectorWrite_plain k (bytesVec (bytesAt s.mem (64 * k) 64), s.sectorMark k) w hw (hs k)
  unfold State.putSector State.uncoded
  generalize sectorWrite k (bytesVec (bytesAt s.mem (64 * k) 64), s.sectorMark k) w = v at hcode hbyte
  refine ⟨fun j => ?_, fun a => ?_⟩
  · rw [State.sectorMark, mget_mset]
    split
    · exact hcode
    · exact hs j
  · rw [byteAt_putBytes, length_vecBytes]
    by_cases h : a / 64 = k
    · have ha : 64 * k + (a - 64 * k) = a := by omega
      rw [if_pos (by omega), if_pos h, getD_vecBytes _ (by omega), hbyte _ (by omega), extract_bytesVec (by simp) (by omega),
        getD_bytesAt _ _ _ _ (by omega), ha]
    · rw [if_neg (by omega), if_neg h]

theorem State.foldl_putSector (w : GlobalWrite) (hw : w.code = none) {ks : List Nat} (hn : ks.Nodup) (s : State) (hs : s.uncoded) :
    (ks.foldl (fun (u : State) k => u.putSector w k) s).uncoded ∧ ∀ a, byteAt (ks.foldl (fun (u : State) k => u.putSector w k) s).mem a =
      if a / 64 ∈ ks then (w.bytes.lookup a).getD (byteAt s.mem a) else byteAt s.mem a := by
  induction ks generalizing s with
  | nil => exact ⟨hs, fun a => (if_neg List.not_mem_nil).symm⟩
  | cons k ks ih =>
    obtain ⟨hk, hks⟩ := List.nodup_cons.1 hn
    obtain ⟨hcode, hbyte⟩ := s.putSector_plain w k hw hs
    obtain ⟨hcodes, hbytes⟩ := ih hks (s.putSector w k) hcode
    rw [List.foldl_cons]
    refine ⟨hcodes, fun a => ?_⟩
    rw [hbytes, hbyte]
    by_cases h : a / 64 = k
    · simp [h, hk]
    · simp [h]

theorem State.noteDirty_unmoved {s : State} (h : s.migrations = []) (w : GlobalWrite) : s.noteDirty w = s := if_pos (by rw [h]; rfl)

theorem State.foldl_putSector_rest (w : GlobalWrite) (ks : List Nat) (s : State) :
    ∃ m sm, ks.foldl (fun (u : State) k => u.putSector w k) s = { s with mem := m, sectors := sm } :=
  List.foldlRecOn (motive := fun u => ∃ m sm, u = { s with mem := m, sectors := sm }) ks _ ⟨_, _, rfl⟩ (by rintro _ ⟨m, sm, rfl⟩ k -; exact ⟨_, _, rfl⟩)

/-- A write that performs changes memory, the sectors' marks and the dirty bits of pages in migration alone. -/
theorem State.memPut_rest (s : State) (w : GlobalWrite) : ∃ m sm ms, s.memPut w = { s with mem := m, sectors := sm, migrations := ms } ∧
    (s.migrations = [] → ms = []) := by
  obtain ⟨m, sm, h⟩ := State.foldl_putSector_rest (s.homed w) (s.homed w).sectors s
  rw [s.memPut_eq, h]
  unfold State.noteDirty
  split
  · exact ⟨m, sm, s.migrations, rfl, id⟩
  next hm => exact ⟨m, sm, _, rfl, fun h => absurd (by rw [h]; rfl) hm⟩

theorem GlobalWrite.sectors_nodup (w : GlobalWrite) : w.sectors.Nodup := List.nodup_dedup _

/-- The bytes of memory after a plain write has performed. -/
theorem State.byteAt_memPut {s : State} (hm : s.migrations = []) (hf : s.forwarding = []) (hs : s.uncoded) {w : GlobalWrite} (hw : w.code = none) :
    (s.memPut w).uncoded ∧ ∀ a, byteAt (s.memPut w).mem a = (w.bytes.lookup a).getD (byteAt s.mem a) := by
  obtain ⟨hcode, hbyte⟩ := State.foldl_putSector w hw w.sectors_nodup s hs
  obtain ⟨m, sm, h⟩ := State.foldl_putSector_rest w w.sectors s
  rw [s.memPut_eq, State.homed_unmoved hm hf, State.noteDirty_unmoved (by rw [h]; exact hm)]
  refine ⟨hcode, fun a => ?_⟩
  rw [hbyte]
  split
  · rfl
  next ha =>
    rw [(lookup_eq_none_iff_notMem_keys _ _).2, Option.getD_none]
    exact fun hmem => ha (by
      obtain ⟨b, hb, rfl⟩ := List.mem_map.1 hmem
      exact List.mem_dedup.2 (List.mem_map.2 ⟨b, hb, rfl⟩))

/-- The bytes of memory after released entries have performed in their order. -/
theorem State.byteAt_foldl_memPut (es : List StagingEntry) {s : State} (hm : s.migrations = []) (hf : s.forwarding = []) (hs : s.uncoded)
    (he : ∀ e ∈ es, e.write.code = none) (a : Nat) : byteAt (es.foldl (fun (u : State) e => u.memPut e.write) s).mem a =
      es.foldl (fun b e => (e.write.bytes.lookup a).getD b) (byteAt s.mem a) := by
  induction es generalizing s with
  | nil => rfl
  | cons e es ih =>
    obtain ⟨hcode, hbyte⟩ := State.byteAt_memPut hm hf hs (he e List.mem_cons_self)
    obtain ⟨m, sm, ms, h, hnil⟩ := s.memPut_rest e.write
    rw [List.foldl_cons, List.foldl_cons, ih (by rw [h]; exact hnil hm) (by rw [h]; exact hf) hcode fun e h => he e (List.mem_cons_of_mem _ h), hbyte]

theorem StagingEntry.lookup_of_not_names {e : StagingEntry} {a n k : Nat} (h : e.names a n = false) (hk : a ≤ k ∧ k < a + n) :
    e.write.bytes.lookup k = none := by
  rw [lookup_eq_none_iff_notMem_keys, List.mem_map]
  rintro ⟨b, hb, rfl⟩
  exact absurd (List.any_eq_false.1 h b hb) (by simp [hk])

/-- What has been released to a range stands in its memory after a drain of the range. -/
theorem State.byteAt_drainRange {s : State} (hm : s.migrations = []) (hf : s.forwarding = []) (hc : s.codesClean = true) {a n k : Nat}
    (hk : a ≤ k ∧ k < a + n) : byteAt (s.drainRange a n).mem k = s.physByte k := by
  obtain ⟨hs, hcodes⟩ := State.uncoded_of_codesClean hc
  have hdrain : s.drainRange a n = (s.forward.filter (·.names a n)).foldl (fun (u : State) e => u.memPut e.write)
      { s with forward := s.forward.filter fun e => !e.names a n } := rfl
  rw [hdrain, State.byteAt_foldl_memPut _ (by exact hm) (by exact hf) (by exact hs) fun e he => hcodes e (List.mem_filter.1 he).1,
    s.physByte_unmoved hm hf hc, List.foldl_filter]
  congr 1
  funext b e
  cases hn : e.names a n with
  | true => rfl
  | false => rw [StagingEntry.lookup_of_not_names hn hk]; rfl

end Sys2Proof.Machine
end

