-- ==== Sys2Proof/Proofs/SupplyLoss.lean ====
section
/-! O54: loss and return of supply, cold reset, life-cycle changes (R137, R334, R335, R339, R342, R399, R400, R401). -/
namespace Sys2Proof.Machine

/-! What is not the package's (R137). -/

theorem mget_filter {α : Type} (d : α) (p : Nat → Bool) (m : Map α) {k : Nat} (h : p k = true) : mget d (m.filter fun e => p e.1) k = mget d m k := by
  induction m with
  | nil => rfl
  | cons e m ih =>
    obtain ⟨a, v⟩ := e
    by_cases hk : a = k
    · subst hk; simp [h, mget]
    · rw [List.filter_cons]
      split <;> simp [mget, hk, ih]

/-- Of memory `u` holds what is not the package's, with what `s` had released to it. -/
def State.keepsOutside (s u : State) : Prop := (∀ c ∈ u.mem, 0x1000000000000 ≤ c.1) ∧ (s.forward = [] → ∀ c ∈ u.mem, c ∈ s.mem) ∧
  (s.codesClean = true → s.migrations = [] → s.forwarding = [] → ∀ a, 0x1000000000000 ≤ a → a < 2 ^ 60 → byteAt u.mem a = s.physByte a)

theorem State.posted_unreleased {s : State} (h : s.forward = []) : s.posted = { s with forward := [] } := by
  simp [State.posted, State.drainRange, h]

theorem State.keepsOutside_of_mem {s u : State} (h : u.mem = outside s.posted.mem) : s.keepsOutside u := by
  unfold State.keepsOutside
  rw [h]
  refine ⟨fun c hc => ?_, fun hf c hc => ?_, fun hc hm hf a ha hlt => ?_⟩
  · simpa using (List.mem_filter.1 hc).2
  · have := (List.mem_filter.1 hc).1
    rwa [State.posted_unreleased hf] at this
  · have hdrain : byteAt s.posted.mem a = s.physByte a := State.byteAt_drainRange hm hf hc ⟨ha, by omega⟩
    rw [← hdrain]
    exact mget_filter 0 (fun k => decide (0x1000000000000 ≤ k)) s.posted.mem (by simpa using ha)

theorem State.staging_cleared (s : State) (f : Die → Die) (hf : ∀ z, (f z).staging = []) (hd : f {} = {}) (ds : Map Die)
    (h : ds = s.dies.map fun e => (e.1, f e.2)) (d : Nat) : (mget {} ds d).staging = [] := by
  rw [h, mget_map {} f hd, hf]

/-! Wiping (R334, R401). -/

/-- The package after a wipe: SRAM and LPDDR-6 are gone, its partitions and queues too, and boot is to begin at GTICK 0. -/
def State.wipedTo (s u : State) : Prop := u.gtick = 0 ∧ s.keepsOutside u ∧ u.powerLost = false ∧
  u.forward = [] ∧ u.ingress = [] ∧ (∀ d, (u.die d).staging = []) ∧ u.ctxs = [] ∧ u.queues = [] ∧ u.regs.lock = false ∧
  u.planned .boot [] 0 0 ∧ ∀ t, (u.tile t).spad = [] ∧ (u.tile t).power = .off ∧ (u.tile t).ctx = none ∧ (u.tile t).shadow = none ∧
    (u.tile t).rowMap = (s.tile t).rowMap ∧ (u.tile t).wear = (s.tile t).wear ∧ (u.tile t).retiredRows = (s.tile t).retiredRows ∧
    ∀ q, u.seq t q = {}

theorem State.coldReset_tile (s : State) (t : Nat) : s.coldReset.tile t = (s.tile t).kept := by
  have he : s.coldReset.tiles = s.tiles.map fun e => (e.1, e.2.kept) := rfl
  rw [State.tile, he]
  exact mget_map {} Tile.kept rfl s.tiles t

theorem State.lifeCycle_tile {s : State} {v : Nat} (h : ¬ (3 < v ∨ v = s.regs.lcs)) (t : Nat) : (s.lifeCycle v).tile t = (s.tile t).wiped := by
  have he : (s.lifeCycle v).tiles = s.coldReset.tiles.map fun e => (e.1, e.2.wiped) := by
    rw [State.lifeCycle, if_neg (by simpa using h)]
  rw [State.tile, he]
  refine (mget_map {} Tile.wiped rfl s.coldReset.tiles t).trans ?_
  rw [show mget {} s.coldReset.tiles t = (s.tile t).kept from s.coldReset_tile t]
  rfl

theorem Tile.seq_fresh {z : Tile} (ha : z.a = {}) (hb : z.b = {}) (q : Nat) : z.seq q = {} := by
  unfold Tile.seq
  split
  · exact ha
  · exact hb

theorem State.coldReset_wipedTo (s : State) : s.wipedTo s.coldReset := by
  have hplan : s.coldReset.planned .boot [] 0 0 := ⟨_, (mem_insertTimed _ _ _).2 (.inl rfl), rfl, rfl, le_rfl, le_rfl⟩
  refine ⟨rfl, State.keepsOutside_of_mem rfl, rfl, rfl, rfl, fun d => ?_, rfl, rfl, rfl, hplan, fun t => ?_⟩
  · exact s.staging_cleared (fun z => { commitLog := z.commitLog }) (fun _ => rfl) rfl _ rfl d
  · rw [s.coldReset_tile t]
    refine ⟨rfl, rfl, rfl, rfl, rfl, rfl, rfl, fun q => ?_⟩
    rw [State.seq, s.coldReset_tile t]
    exact Tile.seq_fresh rfl rfl q

/-- A cold reset keeps MRAM, the log, the Sheaf and the life cycle, and locks every region. -/
theorem State.coldReset_keeps (s : State) : s.coldReset.log = s.log ∧ s.coldReset.sheaf = s.sheaf ∧ s.coldReset.boot = s.boot ∧
    s.coldReset.regs.lcs = s.regs.lcs ∧ (∀ e ∈ s.coldReset.owners, e.2.2 = none) ∧ ∀ t, (s.coldReset.tile t).mram = (s.tile t).mram := by
  refine ⟨rfl, rfl, rfl, rfl, fun e he => ?_, fun t => ?_⟩
  · obtain ⟨o, -, rfl⟩ := List.mem_map.1 he
    rfl
  · rw [s.coldReset_tile t]
    rfl

theorem State.lifeCycle_wipedTo {s : State} {v : Nat} (h : ¬ (3 < v ∨ v = s.regs.lcs)) : s.wipedTo (s.lifeCycle v) := by
  obtain ⟨hg, hout, hp, hf, hi, hd, hc, hq, hl, hplan, -⟩ := s.coldReset_wipedTo
  have he : s.lifeCycle v = _ := if_neg (by simpa using h)
  have htile := State.lifeCycle_tile h
  rw [he] at htile ⊢
  refine ⟨hg, hout, hp, hf, hi, hd, hc, hq, hl, hplan, fun t => ?_⟩
  rw [htile t]
  refine ⟨rfl, rfl, rfl, rfl, rfl, rfl, rfl, fun q => ?_⟩
  rw [State.seq, htile t]
  exact Tile.seq_fresh rfl rfl q

/-! What a loss of supply does to each context (R339, R399). -/

section
variable {s u : State}

/-- From `s` to `u` a context has met its end by power loss: what was planned stays planned, and no other context changes. -/
structure State.EndsContext (s : State) (x : Nat) (u : State) : Prop where
  agenda : s.agenda ⊆ u.agenda
  gtick : u.gtick = s.gtick
  powerLost : u.powerLost = s.powerLost
  others : ∀ y, x ≠ y → u.ctx y = s.ctx y

theorem State.EndsContext.refl (s : State) (x : Nat) : s.EndsContext x s := ⟨List.Subset.refl _, rfl, rfl, fun _ _ => rfl⟩

theorem State.EndsContext.trans {s u v : State} {x : Nat} (h : s.EndsContext x u) (h' : u.EndsContext x v) : s.EndsContext x v :=
  ⟨fun _ he => h'.agenda (h.agenda he), h'.gtick.trans h.gtick, h'.powerLost.trans h.powerLost, fun y hy => (h'.others y hy).trans (h.others y hy)⟩

theorem State.EndsContext.modCtx (s : State) (x : Nat) (f : Ctx → Ctx) : s.EndsContext x (s.modCtx x f) :=
  ⟨List.Subset.refl _, rfl, rfl, fun y hy => by rw [State.ctx_modCtx, if_neg hy]⟩

theorem State.EndsContext.modTile (s : State) (x t : Nat) (f : Tile → Tile) : s.EndsContext x (s.modTile t f) :=
  ⟨List.Subset.refl _, rfl, rfl, fun _ _ => rfl⟩

theorem State.EndsContext.foldl {α : Type} {x : Nat} (f : State → α → State) (h : ∀ (s : State) e, s.EndsContext x (f s e)) (l : List α) (s : State) :
    s.EndsContext x (l.foldl f s) :=
  List.foldlRecOn (motive := fun u => s.EndsContext x u) l f (.refl s x) fun u hu e _ => hu.trans (h u e)

end

theorem State.releaseNow_agenda (s : State) (w : GlobalWrite) : s.agenda ⊆ (s.releaseNow w).agenda := by
  have hn (u : State) (v : GlobalWrite) : (u.noteDirty v).agenda = u.agenda := by unfold State.noteDirty; split <;> rfl
  unfold State.releaseNow State.releaseEntry
  simp only [List.isEmpty_nil, if_true]
  refine List.Subset.trans ?_ (subset_insertTimed _ _)
  dsimp only
  rw [hn]
  exact List.Subset.refl _

/-- Writes of the device in its memory leave what is planned. -/
theorem State.ctxPut_agenda (s : State) (x va : Nat) (bs : List Byte) : s.agenda ⊆ (s.ctxPut x va bs).agenda := by
  unfold State.ctxPut
  dsimp only
  split
  · exact List.Subset.refl _
  · unfold State.devWrite
    split
    · exact List.Subset.refl _
    · exact s.releaseNow_agenda _

theorem State.EndsContext.ctxPut (s : State) (x y va : Nat) (bs : List Byte) : s.EndsContext x (s.ctxPut y va bs) := by
  have hw := State.Writes.ctxPut s y va bs
  obtain ⟨ts, ms, ag, n, fw, h⟩ := hw.rest
  exact ⟨s.ctxPut_agenda y va bs, hw.gtick, by rw [h], fun z _ => hw.ctx z⟩

theorem State.EndsContext.writeRing (s : State) (x k : Nat) : s.EndsContext x (s.writeRing x k) :=
  ((State.EndsContext.foldl _ (fun u _ => .ctxPut u x x _ _) _ s).trans (.ctxPut ..)).trans (.ctxPut ..)

theorem State.EndsContext.writeRecord (s : State) (x k : Nat) : s.EndsContext x (s.writeRecord x k) :=
  .foldl _ (fun u _ => .ctxPut u x x _ _) _ s

theorem State.EndsContext.interruptAll (s : State) (x : Nat) : s.EndsContext x (s.interruptAll x) := by
  unfold State.interruptAll
  dsimp only
  generalize hm : s.modWinnow x _ = m
  have hm : s.EndsContext x m := hm ▸ .modCtx ..
  generalize List.map _ _ = ks
  have hrings : m.EndsContext x (ks.foldl (fun (u : State) k => u.writeRing x k) m) := .foldl _ (fun u k => .writeRing u x k) ks m
  generalize ks.foldl (fun (u : State) k => u.writeRing x k) m = r at *
  exact ((hm.trans hrings).trans (.foldl _ (fun u k => .writeRecord u x k) ks r)).trans (.modCtx _ x _)

theorem State.EndsContext.deviceEnd (s : State) (x : Nat) : s.EndsContext x (s.deviceEnd x) := by
  unfold State.deviceEnd
  dsimp only
  generalize hv : (s.ctx x).tiles.foldl _ s = v
  have hv : s.EndsContext x v := by
    subst hv
    exact .foldl _ (fun u t => .modTile u x t _) _ s
  generalize List.filter _ _ = ts
  obtain ⟨ds, h⟩ := (v.discardStaging_spec ts).1
  have hd : v.EndsContext x (v.discardStaging ts) := h ▸ ⟨List.Subset.refl _, rfl, rfl, fun _ _ => rfl⟩
  exact ((hv.trans hd).trans (.interruptAll _ x)).trans (.modCtx _ x _)

theorem State.EndsContext.endPartition (s : State) (x level code : Nat) : s.EndsContext x (s.endPartition x level code) := by
  obtain ⟨cs, ag, n, h, hag⟩ := s.endPartition_eq x level code
  refine ⟨by rw [h]; exact hag, by simp, by rw [h], fun y hy => s.endPartition_ctx_other level code hy⟩

/-- The end of context `x` by power loss, as its partition stands. -/
def State.lossEnds (s : State) (x : Nat) : State :=
  match (s.ctx x).part with
  | .running => s.endPartition x 5 0x0A01
  | .halting => s.endPartition x 5 0x0A01
  | .halted => (s.modCtx x fun c => { c with ending := some (5, 0x0A01) }).deviceEnd x
  | _ => (s.interruptAll x).modCtx x fun c => { c with winnow := { c.winnow with closing := none } }

theorem State.lossEnds_endsContext (s : State) (x : Nat) : s.EndsContext x (s.lossEnds x) := by
  unfold State.lossEnds
  split
  · exact .endPartition ..
  · exact .endPartition ..
  · exact .trans (.modCtx ..) (.deviceEnd ..)
  · exact .trans (.interruptAll ..) (.modCtx ..)

/-- A partition that is to halt for the loss stays so, whatever context ends next. -/
theorem State.toHalt.lossEnds {u : State} {y now : Nat} (h : u.toHalt y 5 0x0A01 now) (x : Nat) : (u.lossEnds x).toHalt y 5 0x0A01 now := by
  by_cases hx : x = y
  · subst hx
    have he : u.lossEnds x = u.endPartition x 5 0x0A01 := by rw [State.lossEnds, h.1]
    rw [he]
    exact h.endPartition x le_rfl _
  · have hc := (u.lossEnds_endsContext x).others y hx
    obtain ⟨hp, he, ha⟩ := h
    exact ⟨by rw [hc, hp], by rw [hc, he], State.planned_mono (u.lossEnds_endsContext x).agenda ha⟩

/-- Of a loss of supply every running partition that has no end under way is to halt. -/
theorem State.foldl_lossEnds_toHalt (s : State) (xs : List Nat) {y : Nat} (hy : y ∈ xs) (hp : (s.ctx y).part = .running) (he : (s.ctx y).ending = none) :
    (xs.foldl State.lossEnds s).toHalt y 5 0x0A01 s.gtick := by
  obtain ⟨as, bs, rfl, has⟩ := List.eq_append_cons_of_mem hy
  have hbefore : (as.foldl State.lossEnds s).ctx y = s.ctx y ∧ (as.foldl State.lossEnds s).gtick = s.gtick :=
    List.foldlRecOn (motive := fun u : State => u.ctx y = s.ctx y ∧ u.gtick = s.gtick) as _ ⟨rfl, rfl⟩ fun u hu x hx =>
      have hends := u.lossEnds_endsContext x
      ⟨(hends.others y fun h => has (h ▸ hx)).trans hu.1, hends.gtick.trans hu.2⟩
  obtain ⟨hc, hg⟩ := hbefore
  rw [List.foldl_append, List.foldl_cons]
  refine List.foldlRecOn (motive := fun u : State => u.toHalt y 5 0x0A01 s.gtick) bs _ ?_ fun u hu x _ => hu.lossEnds x
  generalize as.foldl State.lossEnds s = v at hc hg
  have hv : v.lossEnds y = v.endPartition y 5 0x0A01 := by rw [State.lossEnds, hc, hp]
  rw [hv, ← hg]
  exact v.endPartition_toHalt y 5 0x0A01 (by rw [hc, hp]) (by rw [hc, he])

/-- The contexts of a device that has lost its supply, each at its end. -/
def State.contextsLost (s : State) : State := (s.ctxs.map (·.1)).foldl State.lossEnds { s with powerLost := true }

theorem State.supplyLost_eq (s : State) : s.supplyLost =
    (s.contextsLost.lossRecords.after (48001 + Config.serviceDelay s.contextsLost.free % 48000) .powerLoss [1]).tickFree := by
  rw [State.contextsLost, List.foldl_map]
  rfl

theorem State.contextsLost_keeps (s : State) : s.contextsLost.gtick = s.gtick ∧ s.contextsLost.powerLost = true := by
  unfold State.contextsLost
  exact List.foldlRecOn (motive := fun u : State => u.gtick = s.gtick ∧ u.powerLost = true) _ State.lossEnds ⟨rfl, rfl⟩ fun u hu x _ =>
    have hends := u.lossEnds_endsContext x
    ⟨hends.gtick.trans hu.1, hends.powerLost.trans hu.2⟩

theorem State.contextsLost_toHalt (s : State) (x : Nat) (hp : (s.ctx x).part = .running) (he : (s.ctx x).ending = none) :
    s.contextsLost.toHalt x 5 0x0A01 s.gtick :=
  State.foldl_lossEnds_toHalt { s with powerLost := true } _
    (List.mem_map_of_mem (f := fun e : Nat × Ctx => e.1) (s.mem_ctxs_of_part x (by rw [hp]; decide))) hp he

/-- The record of the loss, as the log holds it last. -/
structure State.RecordsLoss (s u : State) : Prop where
  last : ∃ f, u.log.getLast? = some f ∧ f.info.code = 0x0A01 ∧ f.level = 5
  agenda : s.agenda ⊆ u.agenda
  gtick : u.gtick = s.gtick
  powerLost : u.powerLost = s.powerLost
  ctxs : ∀ y, ∃ rs, u.ctx y = { s.ctx y with records := rs }

theorem State.RecordsLoss.record {r : FaultRecord} (hc : r.info.code = 0x0A01) (hl : r.level = 5) (s : State) (x : Nat) : s.RecordsLoss (s.record x r) :=
  ⟨⟨_, s.record_last x r, hc, hl⟩, s.record_agenda x r, s.record_gtick x r, by rw [State.record_eq], s.record_ctx_any x r⟩

theorem State.RecordsLoss.logged {r : FaultRecord} (hc : r.info.code = 0x0A01) (hl : r.level = 5) (s : State) :
    s.RecordsLoss { s with log := (s.log ++ [r]).drop (s.log.length + 1 - 4096) } := by
  refine ⟨⟨r, ?_, hc, hl⟩, List.Subset.refl _, rfl, rfl, fun y => ⟨_, rfl⟩⟩
  dsimp only
  exact getLast?_record s.log r

theorem State.RecordsLoss.then {s u v : State} (h : s.RecordsLoss u) (h' : u.RecordsLoss v) : s.RecordsLoss v := by
  refine ⟨h'.last, fun _ he => h'.agenda (h.agenda he), h'.gtick.trans h.gtick, h'.powerLost.trans h.powerLost, fun y => ?_⟩
  obtain ⟨rs, hr⟩ := h.ctxs y
  obtain ⟨rs', hr'⟩ := h'.ctxs y
  exact ⟨rs', by rw [hr', hr]⟩

theorem State.lossRecords_recordsLoss (s : State) : s.RecordsLoss s.lossRecords := by
  unfold State.lossRecords
  dsimp only
  cases s.holders with
  | nil => exact .logged rfl rfl s
  | cons x xs =>
    dsimp only
    rw [List.foldl_cons]
    exact List.foldlRecOn (motive := fun u => s.RecordsLoss u) xs _ (.record rfl rfl s x) fun u hu y _ => hu.then (.record rfl rfl u y)

/-- The loss of supply. -/
theorem State.supplyLost_spec (s : State) : s.supplyLost.powerLost = true ∧
    (∃ f, s.supplyLost.log.getLast? = some f ∧ f.info.code = 0x0A01 ∧ f.level = 5) ∧
    (∃ e ∈ s.supplyLost.agenda, e.op = .powerLoss ∧ e.args = [1] ∧ s.gtick + 48000 < e.tick ∧ e.tick ≤ s.gtick + 96000) ∧
    ∀ x, (s.ctx x).part = .running → (s.ctx x).ending = none →
      (s.supplyLost.ctx x).ending = some (5, 0x0A01) ∧ s.supplyLost.planned .partitionHalt [x] s.gtick (s.gtick + 180) := by
  obtain ⟨hg, hp⟩ := s.contextsLost_keeps
  have hr := s.contextsLost.lossRecords_recordsLoss
  rw [s.supplyLost_eq]
  refine ⟨hr.powerLost.trans hp, hr.last, ?_, fun x hx he => ?_⟩
  · refine ⟨_, (mem_insertTimed _ _ _).2 (.inl rfl), rfl, rfl, ?_, ?_⟩
    · show s.gtick + 48000 < s.contextsLost.lossRecords.gtick + _
      rw [hr.gtick, hg]
      omega
    · show s.contextsLost.lossRecords.gtick + _ ≤ s.gtick + 96000
      rw [hr.gtick, hg]
      omega
  · obtain ⟨-, hend, hplan⟩ := s.contextsLost_toHalt x hx he
    obtain ⟨rs, hc⟩ := hr.ctxs x
    refine ⟨?_, State.planned_mono (List.Subset.trans hr.agenda (State.agenda_subset_after ..)) hplan⟩
    show (s.contextsLost.lossRecords.ctx x).ending = _
    rw [hc]
    exact hend

/-! Parking, collapse and return (R335, R399, R400). -/

theorem State.powerLossEvent_detects {s : State} {n : Nat} (h : n ≠ 1) : s.powerLossEvent n = if s.powerLost then s else s.supplyLost := if_neg h

theorem State.powerLossEvent_parks {s : State} {n : Nat} (h : n = 1) :
    s.powerLossEvent n = if s.powerLost && s.power != .unpowered then s.park else s := if_pos h

theorem State.collapse_kept {s : State} (h : s.powerLost = false) : s.collapse = s := if_pos (by rw [h]; rfl)

/-- A device whose hold-up has collapsed. -/
theorem State.collapse_spec {s : State} (h : s.powerLost = true) : s.collapse.power = .unpowered ∧ s.keepsOutside s.collapse ∧ s.collapse.log = s.log ∧
    ∀ t, s.collapse.tile t = (s.tile t).lose := by
  have he : s.collapse = _ := if_neg (by rw [h]; decide)
  refine ⟨by rw [he], State.keepsOutside_of_mem (by rw [he]), by rw [he], fun t => ?_⟩
  rw [he]
  exact mget_map {} Tile.lose rfl s.tiles t

/-- Settles O54. -/
theorem supplyIsLostAndReturns : Obligations.SupplyIsLostAndReturns := by
  unfold Obligations.SupplyIsLostAndReturns
  intro s outside wiped coldReset
  have hreset : coldReset s.coldReset := ⟨s.coldReset_wipedTo, s.coldReset_keeps⟩
  refine ⟨fun h1 hp => ?_, fun h1 hp => ?_, fun h1 hp hu => ?_, fun h1 hp => ?_, fun hp => ?_, fun hp => ?_, fun hp => ?_, fun hp => ?_,
    ⟨_, rfl, hreset⟩, fun h3 hne => ?_, fun h => ?_⟩
  · have he : exec .powerLoss s = .next s.supplyLost :=
      congrArg Host.Outcome.next ((State.powerLossEvent_detects h1).trans (if_neg (by rw [hp]; decide)))
    obtain ⟨hlost, ⟨f, hlast, hcode, hlevel⟩, hpark, hhalt⟩ := s.supplyLost_spec
    exact ⟨_, f, he, hlost, hlast, hcode, hlevel, hpark, hhalt⟩
  · exact congrArg Host.Outcome.next ((State.powerLossEvent_detects h1).trans (if_pos hp))
  · have he : exec .powerLoss s = .next s.park :=
      congrArg Host.Outcome.next ((State.powerLossEvent_parks h1).trans (if_pos (by simp [hp, hu])))
    exact ⟨_, he, rfl, rfl, s.staging_cleared (fun z => { z with staging := [] }) (fun _ => rfl) rfl _ rfl, rfl, rfl⟩
  · refine congrArg Host.Outcome.next ((State.powerLossEvent_parks h1).trans (if_neg ?_))
    rcases hp with hp | hp <;> simp [hp]
  · exact congrArg Host.Outcome.next (State.collapse_kept hp)
  · obtain ⟨hpower, hout, hlog, htile⟩ := State.collapse_spec hp
    refine ⟨_, rfl, hpower, hout, hlog, fun t => ?_⟩
    rw [htile t]
    exact ⟨rfl, rfl, rfl⟩
  · exact ⟨_, congrArg Host.Outcome.next (if_pos (by simpa using hp)), hreset⟩
  · exact congrArg Host.Outcome.next (if_neg (by rcases hp with hp | hp <;> simp [hp]))
  · have hin : ¬ (3 < s.arg 0 ∨ s.arg 0 = s.regs.lcs) := not_or.2 ⟨Nat.not_lt.2 h3, hne⟩
    have he : s.lifeCycle (s.arg 0) = _ := if_neg (by simpa using hin)
    refine ⟨_, rfl, State.lifeCycle_wipedTo hin, by rw [he], by rw [he], by rw [he], fun t => ?_⟩
    rw [State.lifeCycle_tile hin]
    rfl
  · exact congrArg Host.Outcome.next (if_pos (by simpa using h))

end Sys2Proof.Machine
end

