-- ==== Sys2Proof/Proofs/RequestPackets.lean ====
section
/-! O46: SUBMIT, its retry and CANCEL (R70, R307, R309, R313, R314). -/
namespace Sys2Proof.Machine

/-! A packet in hand. -/

theorem State.onPacket_dropped {s : State} {q from_ : Nat} {p : List Byte} (f : Queue → State) (h : s.inService q = false) :
    s.onPacket q from_ p f = s.dropHand q := by
  simp [State.onPacket, h]

theorem State.onPacket_lacking {s : State} {q from_ : Nat} {p : List Byte} (f : Queue → State) (hs : s.inService q = true)
    (hf : s.featuresOk (s.queue q) p = false) : s.onPacket q from_ p f = (s.takePacket q from_).answer q p 0x0906 := by
  simp [State.onPacket, hs, hf]

/-- Each operation that has a packet in hand serves it as one of its queue. -/
theorem exec_onPacket (s : State) (op : Instr)
    (h : op ∈ ([.submit, .cancel, .wait, .armTimer, .timerDisarm] ++ if s.arg 1 = 1 then [] else [.launch, .weightWrite, .fencePacket] : List Instr)) :
    ∃ f, exec op s = .next (s.onPacket (s.arg 0) (s.arg 1) s.cur.bytes f) := by
  rcases List.mem_append.1 h with h | h
  · simp only [List.mem_cons, List.not_mem_nil, or_false] at h
    rcases h with rfl | rfl | rfl | rfl | rfl <;> exact ⟨_, rfl⟩
  · split at h
    · exact absurd h List.not_mem_nil
    next hfrom =>
      simp only [List.mem_cons, List.not_mem_nil, or_false] at h
      rcases h with rfl | rfl | rfl <;> exact ⟨_, congrArg Host.Outcome.next (if_neg hfrom)⟩

theorem State.featuresOk_learning {s : State} {x : Queue} (p : List Byte) (hc : x.class_ = 2) (hf : s.regs.feature 7 = false) :
    s.featuresOk x p = false := by
  simp [State.featuresOk, hc, hf]

/-! A completion leaves the log. -/

theorem State.postRecord_log (s : State) (q : Nat) (bs : List Byte) : (s.postRecord q bs).log = s.log := by
  obtain ⟨ms, ag, n, h, -⟩ := s.releaseNow_eq
    { bytes := cellsFrom (busAddr ((s.queue q).ring + 16 * ((s.queue q).completed % (s.queue q).size))) bs } rfl
  exact (congrArg State.log h :)

theorem State.completion_log (s : State) (q tag op status : Nat) (silent : Bool) : (s.completion q tag op status silent).log = s.log := by
  unfold State.completion
  dsimp only
  split
  · rfl
  · exact State.postRecord_log ..

theorem State.answer_log (s : State) (q : Nat) (p : List Byte) (status : Nat) : (s.answer q p status).log = s.log := by
  obtain ⟨qs, ag, n, h⟩ := ((State.GoesOn.wakeWaits (s.completion q (packetTag p) (packetOp p) status (packetSilent p)) q).trans (.goOn _ q)).rest
  exact (congrArg State.log h).trans (s.completion_log ..)

/-! What a record's admission writes. -/

theorem State.Writes.queues {s u : State} (h : s.Writes u) : u.queues = s.queues := by
  obtain ⟨ts, ms, ag, n, fw, hu⟩ := h.rest
  rw [hu]

theorem State.Writes.stampDeadline (s : State) (x k seq deadline : Nat) : s.Writes (s.stampDeadline x k seq deadline) :=
  ((State.Writes.ctxPut ..).trans (.ctxPut ..)).trans (.ctxPut ..)

theorem State.consumed_of_queues {s t u : State} {q from_ : Nat} (h : t.queues = s.queues) (hc : t.consumed q from_ u) : s.consumed q from_ u := by
  unfold State.consumed State.queue at *
  rwa [h] at hc

/-- The request that a record's bytes give, of the class of its packet's queue. -/
def State.admitted (s : State) (class_ : Nat) (b : List Byte) : Request :=
  { parseRequest b with position := 0, pages := 0, arrival := s.gtick, class_ := class_ }

/-- Request `k` of context `x` becomes `r`, and its ring and its record are written. -/
def State.putRequest (s : State) (x k : Nat) (r : Request) : State :=
  ((s.modWinnow x fun w => w.setReq k r).writeRing x k).writeRecord x k

theorem State.putRequest_spec (s : State) (x k : Nat) (r : Request) :
    (s.putRequest x k r).queues = s.queues ∧ ((s.putRequest x k r).winnow x).req k = r := by
  have hw : (s.modWinnow x fun w => w.setReq k r).Writes (s.putRequest x k r) := (State.Writes.writeRing ..).trans (.writeRecord ..)
  exact ⟨hw.queues, by rw [hw.winnow, State.winnow_modWinnow, Winnow.req_setReq, if_pos rfl]⟩

theorem State.admitRecord_valid {s : State} {x : Nat} (k class_ : Nat) {b : List Byte}
    (h : (parseRequest b).valid (field b 0x58 1) (s.ctx x).maxPos (s.ctx x).maxDraft = true) :
    s.admitRecord x k class_ b = s.putRequest x k { s.admitted class_ b with state := 1 } := if_pos h

theorem Request.endCode_withFlags (r : Request) {n : Nat} (hn : n < 8) (late spilled : Bool) : (r.withFlags n late spilled).endCode = n := by
  unfold Request.endCode Request.withFlags nbits
  dsimp only
  split <;> split <;> omega

/-- A record that is not valid is FAULTED, with its fault in the log. -/
theorem State.admitRecord_invalid {s : State} {x : Nat} (k class_ : Nat) {b : List Byte}
    (h : (parseRequest b).valid (field b 0x58 1) (s.ctx x).maxPos (s.ctx x).maxDraft = false) : let u := s.admitRecord x k class_ b
    u.queues = s.queues ∧ ((u.winnow x).req k).state = 6 ∧ ((u.winnow x).req k).fault = 0x0803 ∧ ((u.winnow x).req k).endCode = 5 ∧
      ∃ f, u.log.getLast? = some f ∧ f.info.code = 0x0803 ∧ f.level = 0 ∧ f.info.rindex = k := by
  have he : s.admitRecord x k class_ b = (s.putRequest x k { (s.admitted class_ b).withFlags 5 false false with
      position := (parseRequest b).position, pages := (parseRequest b).pages, state := 6, fault := 0x0803 }).winnowFault x k 0x0803 :=
    if_neg (by rw [h]; decide)
  obtain ⟨hq, hr⟩ := s.putRequest_spec x k { (s.admitted class_ b).withFlags 5 false false with
      position := (parseRequest b).position, pages := (parseRequest b).pages, state := 6, fault := 0x0803 }
  intro u
  obtain ⟨f, hf⟩ : ∃ f : FaultRecord, u = (s.putRequest x k _).record x f ∧ f.info.code = 0x0803 ∧ f.level = 0 ∧ f.info.rindex = k := ⟨_, he, rfl, rfl, rfl⟩
  generalize s.putRequest x k _ = v at *
  obtain ⟨hu, hcode, hlevel, hindex⟩ := hf
  obtain ⟨rs, hc⟩ := v.record_ctx_any x f x
  have hreq : (u.winnow x).req k = (v.winnow x).req k := by rw [hu, State.winnow, hc]; rfl
  rw [hreq, hr]
  refine ⟨?_, rfl, rfl, ?_, { f with ring := v.ringFor x f }, by rw [hu]; exact v.record_last x f, hcode, hlevel, hindex⟩
  · rw [hu, State.record_eq]
    exact hq
  · exact Request.endCode_withFlags (s.admitted class_ b) (by decide) false false

/-! SUBMIT. -/

theorem State.keepSubmit_spec (s : State) (q x : Nat) : let u := s.keepSubmit q x
    (u.queue q).head = (s.queue q).head ∧ (u.queue q).retry = true ∧ u.ctxs = s.ctxs ∧ u.mem = s.mem := by
  have hq := s.queue_modQ q fun y => { y with busy := false, retry := true }
  unfold State.keepSubmit
  dsimp only
  split <;> exact ⟨(congrArg Queue.head hq :), (congrArg Queue.retry hq :), rfl, rfl⟩

/-- The state in which a SUBMIT's record is read for good: its deadline stands there, if the packet stamps one. -/
def State.stamped (s : State) (x : Nat) (p : List Byte) : State :=
  let k := field p 0x10 4
  if nbit (field p 1 1) 1 then s.stampDeadline x k (field (s.ctxBytes x ((s.winnow x).recordAt k) 128) 0 4) ((field p 8 8 + field p 0x18 8) % 2 ^ 64) else s

theorem State.Writes.stamped (s : State) (x : Nat) (p : List Byte) : s.Writes (s.stamped x p) := by
  unfold State.stamped
  dsimp only
  split
  · exact .stampDeadline ..
  · exact .refl s

/-- SUBMIT of a packet in hand of queue `q`, for the context and with the class of that queue. -/
theorem State.submit_eq {s : State} {q : Nat} (from_ : Nat) {p : List Byte} (hs : s.inService q = true) (hf : s.featuresOk (s.queue q) p = true) :
    let x := (s.queue q).ctx
    let k := field p 0x10 4
    let a := (s.winnow x).recordAt k
    let b := (s.stamped x p).ctxBytes x a 128
    s.submit q from_ p =
      if field (s.ctxBytes x a 128) 0 4 % 2 = 1 then s.keepSubmit q x
      else if field b 4 1 ≠ 0 then ((s.stamped x p).takePacket q from_).answer q p 0x0905
      else (((s.stamped x p).admitRecord x k (s.queue q).class_ b).takePacket q from_).answer q p 0 := by
  intro x k a b
  have htry : s.trySubmit x k (s.queue q).class_ (if nbit (field p 1 1) 1 then some ((field p 8 8 + field p 0x18 8) % 2 ^ 64) else none) =
      if field (s.ctxBytes x a 128) 0 4 % 2 = 1 then none
      else if field b 4 1 ≠ 0 then some (s.stamped x p, 0x0905) else some ((s.stamped x p).admitRecord x k (s.queue q).class_ b, 0) := by
    unfold b State.stamped
    cases nbit (field p 1 1) 1 <;> rfl
  unfold State.submit
  rw [s.onPacket_eq _ hs hf]
  dsimp only
  rw [htry]
  by_cases hodd : field (s.ctxBytes x a 128) 0 4 % 2 = 1
  · rw [if_pos hodd, if_pos hodd]
  rw [if_neg hodd, if_neg hodd]
  by_cases hfree : field b 4 1 ≠ 0
  · rw [if_pos hfree, if_pos hfree]
  · rw [if_neg hfree, if_neg hfree]

theorem State.submit_submits {s : State} {q : Nat} (from_ : Nat) {p : List Byte} (hs : s.inService q = true) (hf : s.featuresOk (s.queue q) p = true) :
    s.submits q from_ p (s.submit q from_ p) := by
  unfold State.submits
  intro x k a seq s1 b r0 r ok
  have he : s.submit q from_ p = if seq % 2 = 1 then s.keepSubmit q x
      else if field b 4 1 ≠ 0 then (s1.takePacket q from_).answer q p 0x0905
      else ((s1.admitRecord x k (s.queue q).class_ b).takePacket q from_).answer q p 0 := State.submit_eq from_ hs hf
  rw [he]
  have hw : s.Writes s1 := .stamped s x p
  have hadmit : r = s1.admitted (s.queue q).class_ b := by
    unfold r State.admitted
    rw [hw.gtick]
  have hok : ok = r0.valid (field b 0x58 1) (s1.ctx x).maxPos (s1.ctx x).maxDraft := by rw [hw.ctx]
  refine ⟨fun hodd => ?_, fun heven hfree => ?_, fun heven hfree hvalid => ?_, fun heven hfree hvalid => ?_⟩
  · rw [if_pos hodd]
    exact s.keepSubmit_spec q x
  · rw [if_neg (by omega), if_pos hfree]
    obtain ⟨⟨hc, hdone⟩, hctxs⟩ := s1.answer_answered q from_ p 0x0905
    exact ⟨State.consumed_of_queues hw.queues hc, hdone, hctxs⟩
  · rw [if_neg (by omega), if_neg (by simpa using hfree), State.admitRecord_valid k (s.queue q).class_ (hok ▸ hvalid)]
    obtain ⟨hq, hr⟩ := s1.putRequest_spec x k { s1.admitted (s.queue q).class_ b with state := 1 }
    obtain ⟨⟨hc, -⟩, hctxs⟩ := (s1.putRequest x k { s1.admitted (s.queue q).class_ b with state := 1 }).answer_answered q from_ p 0
    refine ⟨State.consumed_of_queues (hq.trans hw.queues) hc, ?_⟩
    rw [State.winnow, State.ctx, hctxs, hadmit]
    exact hr
  · rw [if_neg (by omega), if_neg (by simpa using hfree)]
    have hbad := State.admitRecord_invalid k (s.queue q).class_ (hok.symm.trans hvalid)
    dsimp only at hbad
    generalize s1.admitRecord x k (s.queue q).class_ b = v at *
    obtain ⟨hq, hstate, hfault, hend, hlog⟩ := hbad
    obtain ⟨⟨hc, -⟩, hctxs⟩ := v.answer_answered q from_ p 0
    rw [State.winnow, State.ctx, hctxs, State.answer_log]
    exact ⟨State.consumed_of_queues (hq.trans hw.queues) hc, hstate, hfault, hend, hlog⟩

/-! A change of queues, and writes. -/

theorem State.SameImage.queues (s : State) (qs : Map Queue) (x : Nat) : s.SameImage { s with queues := qs } x := ⟨rfl, rfl, rfl⟩

theorem State.devWrite_queues (s : State) (qs : Map Queue) (w : GlobalWrite) :
    ({ s with queues := qs } : State).devWrite w = { s.devWrite w with queues := qs } := by
  have hp : ({ s with queues := qs } : State).place = s.place := by rw [← State.place_memCore, ← s.place_memCore]; rfl
  have hn (u : State) (v : GlobalWrite) : ({ u with queues := qs } : State).noteDirty v = { u.noteDirty v with queues := qs } := by
    unfold State.noteDirty
    dsimp only
    split <;> rfl
  have hr : ({ s with queues := qs } : State).releaseNow w = { s.releaseNow w with queues := qs } := by
    unfold State.releaseNow State.releaseEntry
    have ha (v : GlobalWrite) : ({ s with queues := qs } : State).addReleased v = s.addReleased v := rfl
    simp only [List.isEmpty_nil, if_true]
    rw [ha, hn]
    rfl
  unfold State.devWrite
  rw [hp, hr]
  split <;> rfl

theorem State.ctxPut_queues (s : State) (qs : Map Queue) (x va : Nat) (bs : List Byte) :
    ({ s with queues := qs } : State).ctxPut x va bs = { s.ctxPut x va bs with queues := qs } := by
  have ha : ({ s with queues := qs } : State).ctxAddr x = s.ctxAddr x := funext (State.SameImage.queues s qs x).ctxAddr
  unfold State.ctxPut
  rw [ha]
  dsimp only
  split
  · rfl
  · exact s.devWrite_queues qs _

theorem State.stamped_queues (s : State) (qs : Map Queue) (x : Nat) (p : List Byte) :
    ({ s with queues := qs } : State).stamped x p = { s.stamped x p with queues := qs } := by
  have hb : ({ s with queues := qs } : State).ctxBytes x = s.ctxBytes x :=
    funext fun va => funext ((State.SameImage.queues s qs x).ctxBytes va)
  unfold State.stamped State.stampDeadline
  simp only [State.ctxPut_queues, hb]
  split <;> rfl

/-- What a SUBMIT does, said with the state in which its record is read. -/
theorem State.submits_iff (s : State) (q from_ : Nat) (p : List Byte) (u : State) : s.submits q from_ p u ↔
    let x := (s.queue q).ctx
    let k := field p 0x10 4
    let a := (s.winnow x).recordAt k
    let seq := field (s.ctxBytes x a 128) 0 4
    let b := (s.stamped x p).ctxBytes x a 128
    let ok := (parseRequest b).valid (field b 0x58 1) (s.ctx x).maxPos (s.ctx x).maxDraft
    (seq % 2 = 1 → (u.queue q).head = (s.queue q).head ∧ (u.queue q).retry = true ∧ u.ctxs = s.ctxs ∧ u.mem = s.mem) ∧
    (seq % 2 = 0 → field b 4 1 ≠ 0 → s.consumed q from_ u ∧ (s.stamped x p).completedWith q (packetTag p) (packetOp p) 0x0905 (packetSilent p) u ∧
      u.ctxs = (s.stamped x p).ctxs) ∧
    (seq % 2 = 0 → field b 4 1 = 0 → ok = true → s.consumed q from_ u ∧ (u.winnow x).req k = { s.admitted (s.queue q).class_ b with state := 1 }) ∧
    (seq % 2 = 0 → field b 4 1 = 0 → ok = false → s.consumed q from_ u ∧ ((u.winnow x).req k).state = 6 ∧
      ((u.winnow x).req k).fault = 0x0803 ∧ ((u.winnow x).req k).endCode = 5 ∧ ∃ f, u.log.getLast? = some f ∧ f.info.code = 0x0803 ∧
      f.level = 0 ∧ f.info.rindex = k) := Iff.rfl

/-- What a SUBMIT does is said of the queue's packets alone: whether a retry is due plays no part. -/
theorem State.submits_setQueue {s u : State} {q from_ : Nat} {p : List Byte} (b : Bool)
    (h : (s.setQueue q { s.queue q with retry := b }).submits q from_ p u) : s.submits q from_ p u := by
  generalize hv : s.setQueue q { s.queue q with retry := b } = v at h
  have hq : v.queue q = { s.queue q with retry := b } := hv ▸ (s.queue_setQueue q q _).trans (if_pos rfl)
  have hrest : v = { s with queues := v.queues } := by subst hv; rfl
  have hctxs : v.ctxs = s.ctxs := by subst hv; rfl
  have hctx (x : Nat) : v.ctx x = s.ctx x := by rw [State.ctx, hctxs]; rfl
  have hwin (x : Nat) : v.winnow x = s.winnow x := by rw [State.winnow, hctx]; rfl
  have htick : v.gtick = s.gtick := by subst hv; rfl
  have hmem : v.mem = s.mem := by subst hv; rfl
  have hst (x : Nat) : v.stamped x p = { s.stamped x p with queues := v.queues } := by
    conv_lhs => rw [hrest]
    exact s.stamped_queues v.queues x p
  have hbytes (x va n : Nat) : v.ctxBytes x va n = s.ctxBytes x va n := by
    conv_lhs => rw [hrest]
    exact (State.SameImage.queues s v.queues x).ctxBytes va n
  have hstbytes (x va n : Nat) : (v.stamped x p).ctxBytes x va n = (s.stamped x p).ctxBytes x va n := by
    rw [hst]
    exact (State.SameImage.queues _ v.queues x).ctxBytes va n
  have hcons : v.consumed q from_ u ↔ s.consumed q from_ u := by
    unfold State.consumed
    rw [hq]
  have hdone (x tag op st : Nat) (silent : Bool) (hd : (v.stamped x p).completedWith q tag op st silent u) :
      (s.stamped x p).completedWith q tag op st silent u := by
    have hsq : (s.stamped x p).queue q = s.queue q := by rw [State.queue, (State.Writes.stamped s x p).queues]; rfl
    have hvq : (v.stamped x p).queue q = v.queue q := by rw [State.queue, (State.Writes.stamped v x p).queues]; rfl
    exact hd.between ⟨_, hst x⟩ (by rw [hvq, hsq, hq]) (by rw [hvq, hsq, hq]) (by rw [hvq, hsq, hq]) (.refl u q)
  have hstctxs (x : Nat) : (v.stamped x p).ctxs = (s.stamped x p).ctxs := by rw [hst]
  have hadm (c : Nat) (bs : List Byte) : v.admitted c bs = s.admitted c bs := by rw [State.admitted, htick]; rfl
  rw [State.submits_iff] at h ⊢
  simp only [hq, hwin, hbytes, hmem, hctxs, hctx, hstbytes, hstctxs, hcons, hadm] at h
  obtain ⟨h1, h2, h3, h4⟩ := h
  refine ⟨h1, fun heven hfree => ?_, h3, h4⟩
  obtain ⟨hc, hd, hu⟩ := h2 heven hfree
  exact ⟨hc, hdone _ _ _ _ _ hd, hu⟩

/-- A retry that finds a SUBMIT at the head, or in the lane, tries it. -/
theorem State.submitRetry_submit {s : State} {q : Nat} (hr : (s.queue q).retry = true) :
    let x := s.queue q
    let p := x.lane.getD (s.headPacket x)
    packetOp p = 1 → s.packetOk x p x.lane.isNone = true →
      s.submitRetry q = (s.setQueue q { x with retry := false }).submit q (if x.lane.isSome then 2 else 0) p := by
  intro x p hop hok
  have hhead : (s.setQueue q { x with retry := false }).headPacket x = s.headPacket x := rfl
  have hpacket (p : List Byte) (b : Bool) : (s.setQueue q { x with retry := false }).packetOk x p b = s.packetOk x p b := rfl
  unfold State.submitRetry
  rw [if_neg (by rw [hr]; decide), show s.modQ q (fun x => { x with retry := false }) = s.setQueue q { x with retry := false } from rfl]
  rw [show s.queue q = x from rfl]
  generalize s.setQueue q _ = v at *
  dsimp only
  rw [hhead]
  have hp : p = x.lane.getD (s.headPacket x) := rfl
  cases hl : x.lane with
  | none =>
    rw [hl] at hp hok
    rw [Option.getD_none] at hp
    dsimp only
    rw [← hp]
    exact if_pos (by rw [hpacket, hop]; exact hok)
  | some l =>
    rw [hl] at hp hok
    rw [Option.getD_some] at hp
    dsimp only
    rw [← hp]
    exact if_pos (by rw [hpacket, hop]; exact hok)

/-- Settles O46. -/
theorem requestPackets : Obligations.RequestPackets := by
  unfold Obligations.RequestPackets
  intro s q from_ p x
  refine ⟨fun op hop => ?_, fun hs hf => ⟨⟨_, rfl, State.submit_submits from_ hs hf⟩, ?_⟩, s.featuresOk_learning p, fun hr => ?_, fun hr hs => ?_⟩
  · obtain ⟨f, he⟩ := exec_onPacket s op hop
    refine ⟨fun hs => ?_, fun hs hf => ?_⟩
    · rw [he, State.onPacket_dropped f hs]
      rfl
    · rw [he, State.onPacket_lacking f hs hf]
      exact ⟨_, rfl, s.answer_answered q from_ p 0x0906⟩
  · have he : exec .cancel s = .next _ := congrArg Host.Outcome.next (s.onPacket_eq (q := q) (from_ := from_) (p := p) _ hs hf)
    obtain ⟨hans, hctxs⟩ := (s.modWinnow x.ctx fun w => { w with cancels := w.cancels ++ [field p 0x10 4] }).answer_answered q from_ p 0
    refine ⟨_, he, hans, ?_⟩
    rw [State.winnow, State.ctx, hctxs]
    exact congrArg Winnow.cancels (s.winnow_modWinnow x.ctx _)
  · exact congrArg Host.Outcome.next (if_pos (by rw [show (s.queue q).retry = false from hr]; rfl))
  · intro p hop hok hf
    have hq : (s.setQueue q { x with retry := false }).queue q = { x with retry := false } := (s.queue_setQueue q q _).trans (if_pos rfl)
    refine ⟨_, congrArg Host.Outcome.next (State.submitRetry_submit hr hop hok), State.submits_setQueue false (State.submit_submits _ ?_ ?_)⟩
    · unfold State.inService
      rw [hq]
      exact hs
    · rw [hq]
      exact hf

end Sys2Proof.Machine
end

