-- ==== Sys2Proof/Proofs/ServingWords.lean ====
section
/-! O32: serving words, and the landings of CONDW and MAPACK (R281 to R286, R295, R368, R377, R379). -/
namespace Sys2Proof.Machine

/-! Words under checks made in order. -/

theorem State.checked_check {s t : State} {ok : Bool} {P : Prop} {code a : Nat} {r : Res} {cs : List (Prop × Nat × Nat)} (hp : ok = true ↔ P)
    (h : P → s.checked (s.finish r) t cs) : s.checked (s.finish (check ok (s.fault code a) r)) t ((P, code, a) :: cs) := by
  refine ⟨fun hn => ?_, fun hy => ?_⟩
  · rw [check, if_neg fun hok => hn (hp.1 hok)]
    rfl
  · rw [check, if_pos (hp.2 hy)]
    exact h hy

/-- A word that handler mode refuses. -/
theorem State.checked_outsideHandler {s t : State} {r : Res} {cs : List (Prop × Nat × Nat)} (h : s.checked (s.finish r) t cs) :
    s.checked (s.finish (s.outsideHandler r)) t ((s.me.inHandler = false, 0x0311, 0) :: cs) :=
  State.checked_check (by simp) fun _ => h

/-! RQLD (R281). -/

/-- The fields of a slot as RQLD numbers them: the stop tokens stand between those before and those behind them. -/
theorem getD_fields {as : List Nat} {m : Nat} (hm : as.length = m) (bs : List Nat) (stops : Nat → Nat) (n : Nat) :
    (as ++ (List.range 6).map stops ++ bs).getD n 0 =
      if m ≤ n ∧ n < m + 6 then stops (n - m) else (as ++ List.replicate 6 0 ++ bs).getD n 0 := by
  by_cases h : n < m
  · rw [if_neg (by omega), List.append_assoc, List.append_assoc, List.getD_append _ _ _ _ (by omega), List.getD_append _ _ _ _ (by omega)]
  by_cases h' : n < m + 6
  · rw [if_pos ⟨by omega, h'⟩, List.append_assoc, List.getD_append_right _ _ _ _ (by omega), List.getD_append _ _ _ _ (by simp; omega)]
    simp [List.getD_eq_getElem?_getD, hm, show n - m < 6 by omega]
  · rw [if_neg (by omega), List.getD_append_right _ _ _ _ (by simp; omega), List.getD_append_right _ _ _ _ (by simp; omega)]
    simp

/-- Field `f` of a slot that holds `record`, as the numbers of R281. -/
theorem Ctx.slotField_some {c : Ctx} {k record : Nat} {r : Request} (h : c.winnow.slots.lookup k = some (record, r)) (f : Nat) :
    c.slotField k f = BitVec.ofNat 64
      (([record, r.id, r.state, r.class_, r.position, r.prompt, r.maxNew, r.generated, r.deadline, r.priority, r.flags, r.draw, r.seed,
        r.mode, r.topK, r.topP, r.temperature, r.width, r.depth, r.stops.length] ++ (List.range 6).map (fun j => r.stops.getD j 0) ++
        [r.ring, r.pageList, r.pages, r.rowStart, r.rows, r.kind, r.used, r.entryFlags]).getD f 0) := by
  rw [getD_fields (m := 20) rfl, Ctx.slotField, h]
  by_cases hf : 20 ≤ f ∧ f < 20 + 6
  · rw [if_pos hf]
    exact congrArg (BitVec.ofNat 64) (if_pos (by simp; omega))
  · rw [if_neg hf]
    exact congrArg (BitVec.ofNat 64) (if_neg (by simp; omega))

/-- Of a slot that is not active field 0 reads all ones, every other 0. -/
theorem Ctx.slotField_none {c : Ctx} {k : Nat} (h : c.winnow.slots.lookup k = none) (f : Nat) :
    c.slotField k f = if f = 0 then BitVec.allOnes 64 else 0 := by
  rw [Ctx.slotField, h]

/-! RQCOMMIT (R282, R379). -/

theorem Ctx.commitOk_iff {c : Ctx} {k record : Nat} {r : Request} (h : c.winnow.slots.lookup k = some (record, r)) {n : Nat} (hn : n < 2) :
    c.commitOk k (decide (n = 1)) = true ↔
      let had := c.winnow.commits.filter fun e => e.slot == k
      if r.kind = 3 then (∀ e ∈ had, e.draft = true) ∧ had.length < 64 ∧ had.length < (if n = 1 then r.used else r.used + 1)
      else n = 0 ∧ had = [] ∧ (r.kind = 2 ∨ (r.kind = 1 ∧ r.entryFlags % 2 = 1)) := by
  unfold Ctx.commitOk
  rw [h]
  dsimp only
  generalize c.winnow.commits.filter _ = had
  have hbit : nbit r.entryFlags 0 = decide (r.entryFlags % 2 = 1) := by simp [nbit, Bool.beq_eq_decide_eq]
  split
  · simp only [decide_eq_true_eq, Bool.and_eq_true, List.any_eq_false, Bool.not_eq_eq_eq_not, Bool.not_true, Bool.not_eq_false]
    constructor
    · rintro ⟨⟨h1, h2⟩, h3⟩
      exact ⟨h1, h3, h2⟩
    · rintro ⟨h1, h2, h3⟩
      exact ⟨⟨h1, h3⟩, h2⟩
  · rw [hbit]
    have : (¬ n = 1) ↔ n = 0 := by omega
    simp [this, and_assoc]

theorem Ctx.slotActive_iff {c : Ctx} {k : Nat} :
    c.slotActive k = true ↔ k < (c.launch.map (·.slots)).getD 0 ∧ (c.winnow.slots.lookup k).isSome = true := by
  rw [Ctx.slotActive, Bool.and_eq_true, decide_eq_true_eq]
  rfl

theorem Ctx.commit_permitted {c : Ctx} {k d b : Nat} : (c.slotActive k && d < 2 && b < 2 ^ 32 && c.commitOk k (d = 1)) = true ↔
    k < (c.launch.map (·.slots)).getD 0 ∧ d < 2 ∧ b < 2 ^ 32 ∧ ∃ record r, c.winnow.slots.lookup k = some (record, r) ∧
      let had := c.winnow.commits.filter fun e => e.slot == k
      if r.kind = 3 then (∀ e ∈ had, e.draft = true) ∧ had.length < 64 ∧ had.length < (if d = 1 then r.used else r.used + 1)
      else d = 0 ∧ had = [] ∧ (r.kind = 2 ∨ (r.kind = 1 ∧ r.entryFlags % 2 = 1)) := by
  simp only [Bool.and_eq_true, Ctx.slotActive_iff, decide_eq_true_eq, Option.isSome_iff_exists]
  constructor
  · rintro ⟨⟨⟨⟨hk, ⟨record, r⟩, hslot⟩, hd⟩, hb⟩, hok⟩
    exact ⟨hk, hd, hb, record, r, hslot, (Ctx.commitOk_iff hslot hd).1 hok⟩
  · rintro ⟨hk, hd, hb, record, r, hslot, hok⟩
    exact ⟨⟨⟨⟨hk, ⟨record, r⟩, hslot⟩, hd⟩, hb⟩, (Ctx.commitOk_iff hslot hd).2 hok⟩

/-! RQFLT (R377, R379, R380). -/

theorem State.rqflt_refused {s : State} (a b : BitVec 5)
    (h : ¬ (s.N a < ((s.ctx s.myCtx).launch.map (·.slots)).getD 0 ∧ ((s.ctx s.myCtx).winnow.slots.lookup (s.N a)).isSome = true)) :
    exec (.rqflt a b) s = .next (s.trapIssue (s.fault 0x030C)) :=
  congrArg s.finish (if_neg fun hok => h (Ctx.slotActive_iff.1 hok) : s.rqflt a b = .error (s.fault 0x030C))

/-- The faults of Winnow's ledger with one more attributed to slot `k`: the first of the slot stands, later ones are counted. -/
def Winnow.attributed (w : Winnow) (k : Nat) (e : SlotFault) : List SlotFault :=
  if w.faults.any (·.slot == k) then w.faults.map fun e => if e.slot == k then { e with more := min 0xFFFF (e.more + 1) } else e
  else w.faults ++ [e]

theorem Winnow.mem_attributed {w : Winnow} {k : Nat} (e : SlotFault) {g : SlotFault} (hg : g ∈ w.faults) (hk : g.slot ≠ k) :
    g ∈ w.attributed k e := by
  unfold Winnow.attributed
  split
  · exact List.mem_map.2 ⟨g, hg, if_neg (by simpa using hk)⟩
  · exact List.mem_append_left _ hg

theorem Winnow.attributed_first {w : Winnow} {k : Nat} (e : SlotFault) (h : ∀ g ∈ w.faults, g.slot ≠ k) : w.attributed k e = w.faults ++ [e] :=
  if_neg (by simpa using h)

theorem State.rqflt_accepted {s : State} {a : BitVec 5} (b : BitVec 5) {record : Nat} {r : Request}
    (hk : s.N a < ((s.ctx s.myCtx).launch.map (·.slots)).getD 0) (hs : (s.ctx s.myCtx).winnow.slots.lookup (s.N a) = some (record, r)) :
    exec (.rqflt a b) s = .next (s.modCtx s.myCtx fun c => { c with winnow := { c.winnow with
      faults := (s.ctx s.myCtx).winnow.attributed (s.N a)
        { slot := s.N a, info := { s.fault 0x0802 with detail := s.N b % 65536, rindex := record },
          tick := s.gtick, tile := s.cur.tile, seq := s.cur.seq } } }) := by
  have hok : s.rqflt a b = .ok (s.requestFault s.myCtx (s.N a) s.cur.tile s.cur.seq
      { s.fault 0x0802 with detail := s.N b % 65536, rindex := (((s.ctx s.myCtx).winnow.slots.lookup (s.N a)).map (·.1)).getD 0 }) :=
    if_pos (Ctx.slotActive_iff.2 ⟨hk, by rw [hs]; rfl⟩)
  rw [hs] at hok
  exact congrArg s.finish hok

/-! Landings. -/

/-- A landing whose flight has no parity error and raises no fault. -/
theorem State.landNext_quiet {s v : State} {t q : Nat} {f : Flight} {rest : List Flight} (h : (s.seq t q).dueFlights = f :: rest) (hp : f.parity = false)
    (hact : (s.setSeq t q ((s.seq t q).removeFlight f)).landAct t q f = (v, [])) : s.landNext t q = v := by
  have hmod : s.modSeq t q (·.removeFlight f) = s.setSeq t q ((s.seq t q).removeFlight f) := rfl
  simp only [State.landNext, h, State.land, hmod, hact, hp, Bool.false_and, Bool.false_eq_true, if_false]
  rfl

theorem getLsbD_condWrite (c : W64) (m v : BitVec 32) {i : Nat} (hi : i < 64) :
    ((c &&& ~~~ (m.setWidth 64)) ||| ((v &&& m).setWidth 64)).getLsbD i = if m.getLsbD i then v.getLsbD i else c.getLsbD i := by
  simp only [BitVec.getLsbD_or, BitVec.getLsbD_and, BitVec.getLsbD_not, BitVec.getLsbD_setWidth, hi, decide_true, Bool.true_and]
  cases m.getLsbD i <;> simp

/-- Both sequencers of a tile read version `v`. -/
def Tile.acknowledged (v : W64) (z : Tile) : Tile := { z with a := { z.a with mapver := v }, b := { z.b with mapver := v } }

theorem Tile.seq_acknowledged (v : W64) (z : Tile) (p : Nat) : (z.acknowledged v).seq p = { z.seq p with mapver := v } := by
  unfold Tile.seq
  split <;> rfl

theorem State.foldl_modTile_rest (g : Tile → Tile) (ts : List Nat) (s : State) : ∃ m, ts.foldl (fun s t => s.modTile t g) s = { s with tiles := m } :=
  List.foldlRecOn (motive := fun u : State => ∃ m, u = { s with tiles := m }) ts _ ⟨_, rfl⟩ fun u hu t _ => by
    obtain ⟨m, rfl⟩ := hu
    exact ⟨_, rfl⟩

theorem State.mapack_spec (s : State) (x : Nat) (v : W64) : let u := s.mapack x v
    u.ctx x = { s.ctx x with ackVersion := v.toNat, ackDue := (s.ctx x).ackDue.filter fun d => v.toNat < d.1 } ∧
    (∀ j, x ≠ j → u.ctx j = s.ctx j) ∧ (∀ j, j ∉ (s.ctx x).tiles → u.tile j = s.tile j) ∧
    (∀ j p, j ∈ (s.ctx x).tiles → u.seq j p = { s.seq j p with mapver := v }) ∧ { u with tiles := s.tiles, ctxs := s.ctxs } = s := by
  intro u
  have hu : u = (s.ctx x).tiles.foldl (fun s t => s.modTile t (Tile.acknowledged v))
      (s.setCtx x { s.ctx x with ackVersion := v.toNat, ackDue := (s.ctx x).ackDue.filter fun d => v.toNat < d.1 }) := rfl
  generalize hw : s.setCtx x _ = w at hu
  have hwt (j : Nat) : w.tile j = s.tile j := hw ▸ rfl
  have htile (j : Nat) : u.tile j = if j ∈ (s.ctx x).tiles then (w.tile j).acknowledged v else w.tile j :=
    hu ▸ State.tile_foldl_modTile (Tile.acknowledged v) (fun _ => rfl) _ w j
  obtain ⟨m, hm⟩ := State.foldl_modTile_rest (Tile.acknowledged v) (s.ctx x).tiles w
  have hctx (j : Nat) : u.ctx j = w.ctx j := by rw [hu, hm]; rfl
  refine ⟨?_, fun j hj => ?_, fun j hj => ?_, fun j p hj => ?_, ?_⟩
  · rw [hctx, ← hw, State.ctx_setCtx, if_pos rfl]
  · rw [hctx, ← hw, State.ctx_setCtx, if_neg hj]
  · rw [htile, if_neg hj, hwt]
  · rw [State.seq, htile, if_pos hj, Tile.seq_acknowledged, hwt]
    rfl
  · rw [hu, hm, ← hw]
    rfl

/-- Settles O32. -/
theorem servingAndTheirLandings : Obligations.ServingAndTheirLandings := by
  unfold Obligations.ServingAndTheirLandings
  refine ⟨fun d a b i h s => ?_, fun s f rest => ?_⟩
  · intro x c k slots slot value had permitted
    refine ⟨?_, State.checked_outsideHandler (State.checked_check Ctx.commit_permitted fun _ => rfl), State.checked_outsideHandler rfl,
      State.checked_outsideHandler ?_, rfl, State.checked_outsideHandler (State.checked_check beq_iff_eq fun _ => rfl),
      State.rqflt_refused a b, fun record r hk hs => ?_, rfl⟩
    · refine State.checked_check (by rw [Bool.and_eq_true, decide_eq_true_eq, decide_eq_true_eq, Nat.lt_succ_iff]; rfl) fun _ => ?_
      have hv : c.slotField k i.toNat = match slot with
          | none => if i = 0 then BitVec.allOnes 64 else 0
          | some (record, r) => BitVec.ofNat 64 (value record r) := by
        unfold slot
        cases hs : c.winnow.slots.lookup k with
        | none => exact (Ctx.slotField_none hs _).trans (if_congr (BitVec.toNat_inj (y := 0)) rfl rfl)
        | some e => exact Ctx.slotField_some hs _
      exact congrArg (fun v => Host.Outcome.next (s.emit 4 (.g d.toNat v))) hv
    · show Host.Outcome.next (s.emit 1 (.cond ((s.G b).setWidth 32) ((s.G a).setWidth 32))) = .next _
      unfold State.N
      rw [BitVec.ofNat_toNat, BitVec.ofNat_toNat]
    · refine ⟨_, State.rqflt_accepted b hk hs, fun e he hn => Winnow.mem_attributed _ he hn, rfl, fun hn => ?_⟩
      exact ⟨_, Winnow.attributed_first _ hn, rfl, rfl, rfl, rfl⟩
  · intro t q w x hdue hp
    refine ⟨fun m v hact => ?_, fun v hact => ?_⟩
    · have hl : w.landAct t q f = (w.condWrite x m v, []) := by rw [State.landAct, hact]
      exact ⟨_, congrArg Host.Outcome.next (State.landNext_quiet hdue hp hl), fun i hi => getLsbD_condWrite _ m v hi⟩
    · have hl : w.landAct t q f = (w.mapack x v, []) := by rw [State.landAct, hact]
      obtain ⟨h1, h2, h3, h4, h5⟩ := w.mapack_spec x v
      refine ⟨_, congrArg Host.Outcome.next (State.landNext_quiet hdue hp hl), h1, h2, h3, h4, ?_⟩
      exact (congrArg (fun z : State => { z with tiles := s.tiles, ctxs := s.ctxs }) h5 :)

end Sys2Proof.Machine
end

