-- ==== Sys2Proof/Proofs/WinnowBoundary.lean ====
section
/-! O14: Winnow's boundary: its order of steps, the queues, the snapshot, the end of requests and their admission (R74 to R80, R87, R339, R378). -/
namespace Sys2Proof.Machine

/-! The admission queues (R75). -/

/-- The requests that wait in a class. -/
def Winnow.waiting (w : Winnow) (c : Nat) : List (Nat × Request) := w.reqs.filter fun e => e.2.queued && e.2.class_ == c

/-- Place of a request in the queue of class `c`, behind the mark of an evicted one and before its arrival. -/
def Request.placeIn (r : Request) (c : Nat) : Nat :=
  if c = 0 then (if r.deadline = 0 then 2 ^ 64 - 1 else r.deadline) else if c = 3 then 0 else 2 ^ 16 - 1 - r.priority

theorem Request.placeIn_lt {r : Request} (h : r.deadline < 2 ^ 64) (c : Nat) : r.placeIn c < 2 ^ 64 := by
  unfold Request.placeIn
  split
  · split <;> omega
  · split <;> omega

theorem Request.queueKey_eq {r : Request} (hc : r.class_ < 4) (k : Nat) :
    r.queueKey k = (if r.state = 5 then 0 else 2 ^ 168) + r.placeIn r.class_ * 2 ^ 100 + r.arrival * 2 ^ 20 + k := by
  have hplace : (if r.class_ = 0 then (if r.deadline = 0 then 2 ^ 64 - 1 else r.deadline) else if r.class_ < 3 then 65535 - r.priority else 0) =
      r.placeIn r.class_ := by
    unfold Request.placeIn
    split
    · rfl
    · split <;> split <;> omega
  unfold Request.queueKey
  rw [hplace]

/-- The order that the keys of two requests of a class give. -/
theorem Request.queueKey_le {r q : Request} {a b c : Nat} (hc : c < 4) (hr : r.class_ = c ∧ a < 2 ^ 16 ∧ r.deadline < 2 ^ 64 ∧ r.arrival < 2 ^ 64)
    (hq : q.class_ = c ∧ b < 2 ^ 16 ∧ q.deadline < 2 ^ 64 ∧ q.arrival < 2 ^ 64) (hab : a ≠ b) (h : r.queueKey a ≤ q.queueKey b) :
    (r.state = 5 ∧ q.state ≠ 5) ∨ ((r.state = 5 ↔ q.state = 5) ∧ (r.placeIn c < q.placeIn c ∨ (r.placeIn c = q.placeIn c ∧
      (r.arrival < q.arrival ∨ (r.arrival = q.arrival ∧ a < b))))) := by
  obtain ⟨hrc, ha, hrd, hra⟩ := hr
  obtain ⟨hqc, hb, hqd, hqa⟩ := hq
  have hrp := Request.placeIn_lt hrd c
  have hqp := Request.placeIn_lt hqd c
  rw [Request.queueKey_eq (hrc ▸ hc), Request.queueKey_eq (hqc ▸ hc), hrc, hqc] at h
  generalize r.placeIn c = x at *
  generalize q.placeIn c = y at *
  by_cases h1 : r.state = 5 <;> by_cases h2 : q.state = 5
  · rw [if_pos h1, if_pos h2] at h
    exact .inr ⟨iff_of_true h1 h2, by omega⟩
  · exact .inl ⟨h1, h2⟩
  · rw [if_neg h1, if_pos h2] at h
    omega
  · rw [if_neg h1, if_neg h2] at h
    exact .inr ⟨iff_of_false h1 h2, by omega⟩

theorem Winnow.queueOf_perm (w : Winnow) (c : Nat) : (w.queueOf c).Perm ((w.waiting c).map (·.1)) := by
  have h := (sortKey_perm [] ((w.waiting c).map fun e => (e.2.queueKey e.1, e.1))).map (·.2)
  simp only [List.nil_append, List.map_map, Function.comp_def] at h
  exact h

theorem Winnow.req_of_mem {w : Winnow} (hn : (w.reqs.map (·.1)).Nodup) {e : Nat × Request} (he : e ∈ w.reqs) : w.req e.1 = e.2 := mget_of_mem _ hn he

theorem Winnow.queueOf_order {w : Winnow} (hn : (w.reqs.map (·.1)).Nodup)
    (hs : ∀ e ∈ w.reqs, e.1 < 2 ^ 16 ∧ e.2.deadline < 2 ^ 64 ∧ e.2.priority < 2 ^ 16 ∧ e.2.arrival < 2 ^ 64) {c : Nat} (hc : c < 4) :
    (w.queueOf c).Pairwise fun a b =>
      let r := w.req a
      let q := w.req b
      (r.state = 5 ∧ q.state ≠ 5) ∨ ((r.state = 5 ↔ q.state = 5) ∧ (r.placeIn c < q.placeIn c ∨ (r.placeIn c = q.placeIn c ∧
        (r.arrival < q.arrival ∨ (r.arrival = q.arrival ∧ a < b))))) := by
  have hreq {e : Nat × Request} (he : e ∈ w.waiting c) : w.req e.1 = e.2 := Winnow.req_of_mem hn (List.mem_filter.1 he).1
  obtain ⟨-, hsorted⟩ := sortKey_values (fun e : Nat × Request => e.2.queueKey e.1) (·.1) (fun k => (w.req k).queueKey k) (w.waiting c)
    fun e he => by rw [hreq he]
  have hne : (w.queueOf c).Pairwise (· ≠ ·) := (w.queueOf_perm c).nodup_iff.2 (hn.sublist (List.filter_sublist.map _))
  have hsmall {k : Nat} (hk : k ∈ w.queueOf c) : (w.req k).class_ = c ∧ k < 2 ^ 16 ∧ (w.req k).deadline < 2 ^ 64 ∧ (w.req k).arrival < 2 ^ 64 := by
    obtain ⟨e, he, rfl⟩ := List.mem_map.1 ((w.queueOf_perm c).mem_iff.1 hk)
    rw [hreq he]
    obtain ⟨hmem, hwait⟩ := List.mem_filter.1 he
    obtain ⟨h1, h2, -, h3⟩ := hs e hmem
    rw [Bool.and_eq_true, beq_iff_eq] at hwait
    exact ⟨hwait.2, h1, h2, h3⟩
  refine List.Pairwise.imp_of_mem (fun {a b} ha hb h => ?_) (hsorted.and hne)
  exact Request.queueKey_le hc (hsmall ha) (hsmall hb) h.2 h.1

/-! The snapshot (R70, R79). -/

theorem Request.live_live (r : Request) (b : List Byte) : (r.live b).live b = r.live b := by
  have hflags (n : Nat) (c : Bool) : (n / 2 * 2 + (if c then 1 else 0)) / 2 * 2 + (if c then 1 else 0) = n / 2 * 2 + (if c then 1 else 0) := by
    split <;> omega
  unfold Request.live
  simp only [hflags]

theorem Request.live_eq (r : Request) (b : List Byte) : r.live b =
    { r with maxNew := field b 0x18 4, deadline := field b 0x20 8, priority := field b 0x28 2,
             stops := (List.range (min 6 (field b 0x58 1))).map fun i => field b (0x40 + 4 * i) 4,
             flags := r.flags / 2 * 2 + field b 0x2E 1 % 2 } := by
  have hbit : (if nbit (field b 0x2E 1) 0 then 1 else 0) = field b 0x2E 1 % 2 := by
    unfold nbit
    rcases Nat.mod_two_eq_zero_or_one (field b 0x2E 1) with h | h <;> simp [h]
  rw [Request.live, hbit]

/-- One request of the snapshot is read, as the bytes of its record `b` stand. -/
def Winnow.readLive (b : Nat → List Byte) (w : Winnow) (k : Nat) : Winnow :=
  if field (b k) 0 4 % 2 = 1 then w else w.setReq k ((w.req k).live (b k))

theorem Winnow.readLive_table (b : Nat → List Byte) (w : Winnow) (k : Nat) : (w.readLive b k).table = w.table := by
  unfold Winnow.readLive
  split <;> rfl

theorem Winnow.req_readLive (b : Nat → List Byte) (w : Winnow) (j k : Nat) :
    (w.readLive b j).req k = if j = k ∧ field (b k) 0 4 % 2 ≠ 1 then (w.req k).live (b k) else w.req k := by
  unfold Winnow.readLive
  by_cases h : j = k
  · subst h
    by_cases ho : field (b j) 0 4 % 2 = 1 <;> simp [ho, Winnow.req_setReq]
  · split <;> simp [h, Winnow.req_setReq]

/-- Reads of many: each that is named and stable takes its live fields once and for all. -/
theorem Winnow.req_foldl_readLive (b : Nat → List Byte) (ks : List Nat) (w : Winnow) (k : Nat) :
    (ks.foldl (Winnow.readLive b) w).req k = if k ∈ ks ∧ field (b k) 0 4 % 2 ≠ 1 then (w.req k).live (b k) else w.req k := by
  induction ks generalizing w with
  | nil => simp
  | cons j ks ih =>
    rw [List.foldl_cons, ih, Winnow.req_readLive]
    by_cases ho : field (b k) 0 4 % 2 = 1
    · simp [ho]
    by_cases hj : j = k
    · subst hj
      simp [ho, Request.live_live]
    · simp [hj, Ne.symm hj]

theorem Winnow.mem_actives_iff {w : Winnow} (hn : (w.reqs.map (·.1)).Nodup) {k : Nat} : k ∈ w.actives.map (·.1) ↔ (w.req k).active = true := by
  constructor
  · intro hk
    obtain ⟨e, he, rfl⟩ := List.mem_map.1 hk
    rw [Winnow.req_of_active hn he]
    exact (List.mem_filter.1 he).2
  · intro ha
    have hne : w.req k ≠ {} := fun h => by rw [h] at ha; exact absurd ha (by decide)
    exact List.mem_map.2 ⟨_, List.mem_filter.2 ⟨mem_keys_of_mget_ne ({} : Request) w.reqs k hne, ha⟩, rfl⟩

/-- The requests whose records the snapshot reads. -/
def Winnow.picked (w : Winnow) : List Nat := w.bySlot.map (·.2) ++ (List.range 4).flatMap fun c => (w.queueOf c).take 64

theorem Winnow.mem_picked {w : Winnow} (hn : (w.reqs.map (·.1)).Nodup) {k : Nat} :
    k ∈ w.picked ↔ (w.req k).state = 2 ∨ (w.req k).state = 3 ∨ ∃ c < 4, k ∈ (w.queueOf c).take 64 := by
  rw [Winnow.picked, List.mem_append, w.bySlot_records.mem_iff, Winnow.mem_actives_iff hn, Request.active_iff, or_assoc]
  simp only [List.mem_flatMap, List.mem_range]

/-! CANCEL packets (R79). -/

/-- A request that is queued, evicted or in a slot. -/
def Request.open_ (r : Request) : Bool := r.queued || r.active

/-- One CANCEL packet is taken. -/
def Winnow.takeCancel (w : Winnow) (k : Nat) : Winnow :=
  if (w.req k).open_ && !nbit (w.req k).flags 0 then w.setReq k { w.req k with flags := (w.req k).flags + 1 } else w

theorem Winnow.takeCancels_eq (w : Winnow) : w.takeCancels = w.cancels.foldl Winnow.takeCancel { w with cancels := [] } := rfl

theorem Winnow.req_takeCancel (w : Winnow) (j k : Nat) : (w.takeCancel j).req k =
    if j = k ∧ ((w.req k).open_ && !nbit (w.req k).flags 0) = true then { w.req k with flags := (w.req k).flags + 1 } else w.req k := by
  unfold Winnow.takeCancel
  by_cases h : j = k
  · subst h
    by_cases hc : ((w.req j).open_ && !nbit (w.req j).flags 0) = true
    · rw [if_pos hc, if_pos ⟨rfl, hc⟩, Winnow.req_setReq, if_pos rfl]
    · rw [if_neg hc, if_neg fun h => hc h.2]
  · rw [if_neg (c := j = k ∧ _) fun hj => h hj.1]
    split
    · rw [Winnow.req_setReq, if_neg h]
    · rfl

/-- Its CANCEL flag, once it stands, stays. -/
theorem Winnow.foldl_takeCancel_flagged (ks : List Nat) (w : Winnow) (k : Nat) (h : nbit (w.req k).flags 0 = true) :
    (ks.foldl Winnow.takeCancel w).req k = w.req k :=
  List.foldlRecOn (motive := fun v : Winnow => v.req k = w.req k) ks _ rfl fun v hv j _ => by
    rw [Winnow.req_takeCancel, if_neg (by rw [hv, h]; simp), hv]

theorem nbit_succ {n : Nat} (h : nbit n 0 = false) : nbit (n + 1) 0 = true := by
  simp only [nbit, pow_zero, Nat.div_one, beq_iff_eq, beq_eq_false_iff_ne] at h ⊢
  omega

/-- A packet for an open request sets its CANCEL flag. -/
theorem Winnow.foldl_takeCancel_sets (ks : List Nat) (w : Winnow) {k : Nat} (hk : k ∈ ks) (ho : (w.req k).open_ = true) :
    nbit ((ks.foldl Winnow.takeCancel w).req k).flags 0 = true := by
  induction ks generalizing w with
  | nil => cases hk
  | cons j ks ih =>
    rw [List.foldl_cons]
    cases hf : nbit (w.req k).flags 0 with
    | true =>
      have hj : (w.takeCancel j).req k = w.req k := Winnow.foldl_takeCancel_flagged [j] w k hf
      rw [Winnow.foldl_takeCancel_flagged ks _ k (hj ▸ hf), hj, hf]
    | false =>
      have hj := w.req_takeCancel j k
      by_cases hjk : j = k
      · rw [if_pos ⟨hjk, by rw [ho, hf]; rfl⟩] at hj
        have hn : nbit ((w.takeCancel j).req k).flags 0 = true := hj ▸ nbit_succ hf
        rw [Winnow.foldl_takeCancel_flagged ks _ k hn, hn]
      · rw [if_neg fun h => hjk h.1] at hj
        exact ih _ ((List.mem_cons.1 hk).resolve_left (Ne.symm hjk)) (hj ▸ ho)

/-! The snapshot as a whole. -/

/-- The bytes of a request's record. -/
def State.recordBytes (s : State) (x table k : Nat) : List Byte := s.ctxBytes x (table + 128 * k) 128

theorem State.snapshot_eq (s : State) (x : Nat) : s.snapshot x = s.modWinnow x fun _ =>
    ((s.winnow x).picked.foldl (Winnow.readLive (s.recordBytes x (s.winnow x).table)) (s.winnow x)).takeCancels := by
  have h := foldl_fixed Winnow.table (fun t (w : Winnow) k => w.readLive (s.recordBytes x t) k) (fun t w k => w.readLive_table _ k)
    (s.winnow x).picked (s.winnow x)
  exact congrArg (fun w : Winnow => s.modWinnow x fun _ => w.takeCancels) h

theorem Winnow.foldl_readLive_cancels (b : Nat → List Byte) (ks : List Nat) (w : Winnow) : (ks.foldl (Winnow.readLive b) w).cancels = w.cancels :=
  foldl_keeps Winnow.cancels _ (fun w k => by unfold Winnow.readLive; split <;> rfl) ks w

/-- The snapshot of a request. -/
theorem State.snapshot_req (s : State) (x k : Nat) :
    let v := s.winnow x
    let r := v.req k
    let b := s.recordBytes x v.table k
    let q := ((s.snapshot x).winnow x).req k
    (v.cancels = [] → q = if k ∈ v.picked ∧ field b 0 4 % 2 ≠ 1 then r.live b else r) ∧
    (k ∈ v.cancels → r.state = 1 ∨ r.state = 5 ∨ r.state = 2 ∨ r.state = 3 → nbit q.flags 0 = true) := by
  intro v r b q
  let t := v.picked.foldl (Winnow.readLive (s.recordBytes x v.table)) v
  have hread : t.req k = _ := Winnow.req_foldl_readLive (s.recordBytes x v.table) v.picked v k
  have hq : q = (v.cancels.foldl Winnow.takeCancel { t with cancels := [] }).req k := by
    rw [show q = t.takeCancels.req k from (by rw [show q = ((s.snapshot x).winnow x).req k from rfl, s.snapshot_eq, State.winnow_modWinnow]),
      Winnow.takeCancels_eq, show t.cancels = v.cancels from Winnow.foldl_readLive_cancels _ _ _]
  refine ⟨fun hc => ?_, fun hk hs => ?_⟩
  · rw [hq, hc]
    exact hread
  · rw [hq]
    refine Winnow.foldl_takeCancel_sets v.cancels _ hk ?_
    have hstate : (t.req k).state = r.state := by
      rw [hread]
      split <;> rfl
    have : (t.req k).open_ = true := by simpa [Request.open_, Request.queued, Request.active, hstate, or_assoc] using hs
    exact this

/-! The end of a request (R74, R80). -/

theorem Winnow.req_finish (w : Winnow) (k state end_ code j : Nat) : (w.finish k state end_ code).req j = if k = j then
    { ({ w.req k with frames := [], spilling := [] } : Request).withFlags end_ (w.req k).late false with
      state := state, slot := 0xFFFF, rank := 0xFFFF, fault := code, pages := 0, kind := 0, rows := 0, changed := true } else w.req j := by
  have hj : (w.release k).req j = if k = j then { w.req k with frames := [], spilling := [] } else w.req j := Winnow.req_setReq ..
  have hk : (w.release k).req k = { w.req k with frames := [], spilling := [] } := w.req_release k
  unfold Winnow.finish
  dsimp only
  rw [Winnow.req_setReq, hk, hj]
  split <;> rfl

theorem Request.withFlags_low (r : Request) (end_ : Nat) (late spilled : Bool) : (r.withFlags end_ late spilled).flags % 256 = r.flags % 256 := by
  unfold Request.withFlags
  dsimp only
  split <;> split <;> omega

/-! Retirement (R80, R339, R378). -/

theorem State.record_winnow (s : State) (x : Nat) (r : FaultRecord) (y : Nat) : (s.record x r).winnow y = s.winnow y := by
  obtain ⟨rs, h⟩ := s.record_ctx_any x r y
  rw [State.winnow, h]
  rfl

theorem State.retire_winnow (s : State) (x : Nat) :
    let c := s.ctx x
    let gone := (c.winnow.reqs.filter fun e => e.2.queued && nbit e.2.flags 0).map (·.1)
    let v := gone.foldl (fun (v : Winnow) k => v.finish k 7 4 0) c.winnow
    (s.retire x).winnow x =
      { c.winnow.bySlot.foldl (fun (v : Winnow) e => v.retire c.maxPos c.taskFault.isSome e.1 e.2) v with commits := [], faults := [] } := by
  intro c gone v
  have hrecord (u : State) (k : Nat) (f : SlotFault) : (u.requestRecord x k f).winnow x = u.winnow x :=
    u.record_winnow x _ x
  unfold State.retire
  dsimp only
  rw [foldl_keeps (fun u : State => u.winnow x) (fun (u : State) (e : Nat × SlotFault) => u.requestRecord x e.1 e.2) fun u e => hrecord u e.1 e.2]
  exact State.winnow_modWinnow ..

/-- Of the tokens of a slot, applied in order: the END that the one at place `j` brings (R378). -/
def Request.endAt (r : Request) (maxPos : Nat) (ts : List Nat) (j : Nat) : Nat :=
  if ts.getD j 0 ∈ r.stops then 1 else if r.maxNew ≤ r.generated + j + 1 then 2
  else if maxPos < (r.position + if r.kind = 1 then r.rows else j + 1) + 1 then 3 else 0

/-- The END that the first `m` tokens leave. -/
def Request.endAfter (r : Request) (maxPos : Nat) (ts : List Nat) (m : Nat) : Nat := if m = 0 then 0 else r.endAt maxPos ts (m - 1)

/-- The request with the first `m` tokens of its slot. -/
def Request.appended (r : Request) (ts : List Nat) (m : Nat) : Request :=
  { r with generated := r.generated + m, draw := r.draw + m,
           tokens := r.tokens ++ (List.range m).map fun j => (r.prompt + r.generated + j, ts.getD j 0) }

theorem commitToken_stopped (maxPos : Nat) (r : Request) (n : Nat) {e : Nat} (he : e ≠ 0) (ts : List Nat) :
    ts.foldl (commitToken maxPos) (r, n, e) = (r, n, e) :=
  List.foldlRecOn (motive := fun a => a = (r, n, e)) ts _ rfl fun a ha t _ => by
    rw [ha]
    exact if_pos he

theorem commitToken_appended (maxPos : Nat) (r : Request) (ts : List Nat) (m : Nat) :
    commitToken maxPos (r.appended ts m, m, 0) (ts.getD m 0) = (r.appended ts (m + 1), m + 1, r.endAt maxPos ts m) := by
  have hr : (let q := r.appended ts m
      { q with tokens := q.tokens ++ [(q.prompt + q.generated, ts.getD m 0)], generated := q.generated + 1, draw := q.draw + 1 }) =
      r.appended ts (m + 1) := by
    simp [Request.appended, List.range_succ, Nat.add_assoc]
  have he : (if (r.stops.contains (ts.getD m 0)) = true then 1 else if r.maxNew ≤ r.generated + m + 1 then 2
      else if maxPos < (r.position + if r.kind = 1 then r.rows else m + 1) + 1 then 3 else 0) = r.endAt maxPos ts m := by
    simp [Request.endAt]
  unfold commitToken
  dsimp only
  rw [if_neg (by simp)]
  exact Prod.ext hr (Prod.ext rfl he)

/-- Tokens are applied up to the first that stops the slot. -/
theorem foldl_commitToken_take (maxPos : Nat) (r : Request) (ts : List Nat) {m : Nat} (hm : m ≤ ts.length) (h : ∀ j, j + 1 < m → r.endAt maxPos ts j = 0) :
    (ts.take m).foldl (commitToken maxPos) (r, 0, 0) = (r.appended ts m, m, r.endAfter maxPos ts m) := by
  induction m with
  | zero => simp [Request.appended, Request.endAfter]
  | succ m ih =>
    have hlast : ts.take (m + 1) = ts.take m ++ [ts.getD m 0] := by
      rw [List.take_add_one, List.getElem?_eq_getElem (by omega), List.getD_eq_getElem _ _ (by omega)]
      rfl
    have hzero : r.endAfter maxPos ts m = 0 := by
      unfold Request.endAfter
      split
      · rfl
      · exact h (m - 1) (by omega)
    rw [hlast, List.foldl_append, ih (by omega) fun j hj => h j (by omega), hzero]
    exact commitToken_appended maxPos r ts m

theorem foldl_commitToken (maxPos : Nat) (r : Request) (ts : List Nat) {m : Nat} (hm : m ≤ ts.length) (h : ∀ j, j + 1 < m → r.endAt maxPos ts j = 0)
    (hend : m = ts.length ∨ (0 < m ∧ r.endAt maxPos ts (m - 1) ≠ 0)) :
    ts.foldl (commitToken maxPos) (r, 0, 0) = (r.appended ts m, m, r.endAfter maxPos ts m) := by
  conv_lhs => rw [← List.take_append_drop m ts, List.foldl_append, foldl_commitToken_take maxPos r ts hm h]
  rcases hend with rfl | ⟨hpos, hne⟩
  · rw [List.drop_length]
    rfl
  · exact commitToken_stopped _ _ _ (by rw [Request.endAfter, if_neg (by omega)]; exact hne) _

theorem merase_merase {α : Type} (m : Map α) (k : Nat) : merase (merase m k) k = merase m k := by
  induction m with
  | nil => rfl
  | cons e m ih =>
    obtain ⟨j, v⟩ := e
    by_cases h : j = k <;> simp [merase, h, ih]

/-- Of two writes at a key the second stands, where the first is listed. -/
theorem mset_mset {α : Type} [DecidableEq α] {d v : α} (hv : v ≠ d) (m : Map α) (k : Nat) (v' : α) : mset d (mset d m k v) k v' = mset d m k v' := by
  induction m with
  | nil => simp [mset, hv, merase]
  | cons e m ih =>
    obtain ⟨j, u⟩ := e
    by_cases hj : j = k
    · subst hj
      simp [mset, hv, merase_merase]
    · by_cases hlt : k < j
      · simp [mset, hv, hj, hlt, merase, merase_merase]
      · simp [mset, hj, hlt, ih]

theorem Winnow.setReq_setReq (w : Winnow) (k : Nat) {r : Request} (h : r.changed = true) (r' : Request) : (w.setReq k r).setReq k r' = w.setReq k r' := by
  have hne : r ≠ {} := fun he => by rw [he] at h; cases h
  unfold Winnow.setReq
  rw [mset_mset hne]

/-- A slot without a fault is retired: `m` of its tokens stand, none where `d` discards them. -/
theorem Winnow.retire_eq {w : Winnow} (maxPos : Nat) {i k m : Nat} {d : Bool} (hf : w.faults.find? (·.slot == i) = none) :
    let r := w.req k
    let ts := (w.commits.filter fun c => c.slot == i).map (·.token)
    m ≤ ts.length → (d = true → m = 0) → (∀ j, j + 1 < m → r.endAt maxPos ts j = 0) →
    (d = true ∨ m = ts.length ∨ (0 < m ∧ r.endAt maxPos ts (m - 1) ≠ 0)) →
    let p := r.position + if d then 0 else if r.kind = 1 then (if m = 0 ∧ r.entryFlags % 2 = 1 then 0 else r.rows) else m
    let q := { r.appended ts m with position := p, changed := true }
    w.retire maxPos d i k =
      if r.endAfter maxPos ts m ≠ 0 then (w.setReq k q).finish k 4 (r.endAfter maxPos ts m) 0
      else if r.flags % 2 = 1 then (w.setReq k q).finish k 7 4 0
      else w.setReq k (if r.state = 2 ∧ q.target ≤ p then { q with state := 3 } else q) := by
  intro r ts hm hd hstop hend p q
  have hfold : (if d then [] else ts).foldl (commitToken maxPos) (r, 0, 0) = (r.appended ts m, m, r.endAfter maxPos ts m) := by
    cases d with
    | true =>
      have h0 := hd rfl
      subst h0
      simp [Request.appended, Request.endAfter]
    | false => exact foldl_commitToken maxPos r ts hm hstop (hend.resolve_left (by decide))
  have hadv : (if d then 0 else (r.appended ts m).advance m) =
      if d then 0 else if r.kind = 1 then (if m = 0 ∧ r.entryFlags % 2 = 1 then 0 else r.rows) else m := by
    simp [Request.advance, Request.appended, nbit]
  unfold Winnow.retire
  rw [hf]
  dsimp only
  rw [hfold]
  dsimp only
  rw [hadv]
  change (if r.endAfter maxPos ts m ≠ 0 then (w.setReq k q).finish k 4 (r.endAfter maxPos ts m) 0
    else if nbit r.flags 0 then (w.setReq k q).finish k 7 4 0
    else if (r.state == 2 && decide (q.target ≤ p)) = true then (w.setReq k q).setReq k { q with state := 3 } else w.setReq k q) = _
  rw [Winnow.setReq_setReq w k (show q.changed = true from rfl)]
  refine if_congr Iff.rfl rfl (if_congr (by simp [nbit]) rfl ?_)
  rw [apply_ite (w.setReq k)]
  exact if_congr (by simp) rfl rfl

/-! Admission (R76). -/

theorem Winnow.takeIn_none {w : Winnow} (h : ∀ c < 4, w.queueOf c = []) (slots rows n : Nat) : w.takeIn slots rows n = w := by
  have hnone : ((List.range 4).findSome? fun c => (w.queueOf c).head?) = none := by
    rw [List.findSome?_eq_none_iff]
    intro c hc
    rw [h c (List.mem_range.1 hc)]
    rfl
  cases n with
  | zero => rfl
  | succ n => rw [Winnow.takeIn, hnone]

/-- The head of the first class that has one. -/
theorem Winnow.findSome_queueOf {w : Winnow} {c k : Nat} {ks : List Nat} (hc : c < 4) (hb : ∀ b < c, w.queueOf b = []) (hk : w.queueOf c = k :: ks) :
    ((List.range 4).findSome? fun c => (w.queueOf c).head?) = some k := by
  have hsplit : List.range 4 = List.range c ++ c :: (List.range (3 - c)).map (c + 1 + ·) := by
    have h4 : 4 = c + (1 + (3 - c)) := by omega
    conv_lhs => rw [h4, List.range_add, List.range_add]
    simp [Function.comp_def, Nat.add_assoc]
  have hnone : ((List.range c).findSome? fun c => (w.queueOf c).head?) = none := by
    rw [List.findSome?_eq_none_iff]
    intro b hm
    rw [hb b (List.mem_range.1 hm)]
    rfl
  rw [hsplit, List.findSome?_append, hnone, List.findSome?_cons, hk]
  rfl

/-- A slot, a row and its frames are there for request `k`. -/
def Winnow.fits (w : Winnow) (slots rows k : Nat) : Prop :=
  w.actives.length < slots ∧ w.actives.length < rows ∧
    if (w.req k).state = 5 ∧ (w.req k).spilled = true then (w.req k).spilling = []
    else ((w.req k).position + w.tpp) / w.tpp - (w.req k).pages ≤ w.freePool.length

theorem Winnow.bySlot_slots (w : Winnow) : (w.bySlot.map (·.1)).Perm (w.actives.map (·.2.slot)) := by
  have h := w.bySlot_perm.map (·.1)
  rwa [List.map_map] at h

theorem Winnow.canAdmit_eq (w : Winnow) (slots rows k : Nat) [Decidable (w.fits slots rows k)] : w.canAdmit slots rows k =
    if w.fits slots rows k then (List.range slots).find? fun i => !(w.bySlot.map (·.1)).contains i else none := by
  have hlen : (w.bySlot.map (·.1)).length = w.actives.length := by rw [w.bySlot_slots.length_eq, List.length_map]
  unfold Winnow.canAdmit
  dsimp only
  rw [hlen]
  refine if_congr ?_ rfl rfl
  unfold Winnow.fits ceilDiv
  rw [Bool.and_eq_true, Bool.and_eq_true, decide_eq_true_eq, decide_eq_true_eq, and_assoc]
  refine and_congr Iff.rfl (and_congr Iff.rfl ?_)
  by_cases h : (w.req k).state = 5 ∧ (w.req k).spilled = true
  · simp [h]
  · rw [if_neg h, if_neg (by simpa using h), decide_eq_true_eq, show (w.req k).position + 1 + w.tpp - 1 = (w.req k).position + w.tpp by omega]

theorem Winnow.takeIn_unfit {w : Winnow} {slots rows c k : Nat} {ks : List Nat} (hc : c < 4) (hb : ∀ b < c, w.queueOf b = []) (hk : w.queueOf c = k :: ks)
    (h : ¬ w.fits slots rows k) (n : Nat) : w.takeIn slots rows n = w := by
  classical
  have hnone : w.canAdmit slots rows k = none := by rw [w.canAdmit_eq, if_neg h]
  cases n with
  | zero => rfl
  | succ n =>
    rw [Winnow.takeIn, Winnow.findSome_queueOf hc hb hk]
    dsimp only
    rw [hnone]

theorem Winnow.takeIn_fit {w : Winnow} {slots rows c k i : Nat} {ks : List Nat} (hc : c < 4) (hb : ∀ b < c, w.queueOf b = []) (hk : w.queueOf c = k :: ks)
    (h : w.fits slots rows k) (hi : i < slots) (hfree : i ∉ w.actives.map (·.2.slot)) (hlow : ∀ j < i, j ∈ w.actives.map (·.2.slot)) (n : Nat) :
    w.takeIn slots rows (n + 1) = (w.setReq k
      { w.req k with
        slot := i, first := true, changed := true,
        state := if (w.req k).position < (w.req k).target then 2 else 3 }).takeIn slots rows n := by
  classical
  have hfind : ((List.range slots).find? fun i => !(w.bySlot.map (·.1)).contains i) = some i := by
    rw [List.find?_range_eq_some]
    refine ⟨?_, List.mem_range.2 hi, fun j hj => ?_⟩
    · simpa [w.bySlot_slots.mem_iff] using hfree
    · simpa [w.bySlot_slots.mem_iff] using hlow j hj
  rw [Winnow.takeIn, Winnow.findSome_queueOf hc hb hk]
  dsimp only
  rw [w.canAdmit_eq, if_pos h, hfind]

/-- Settles O14. -/
theorem winnowSnapshotsRetiresAndAdmits : Obligations.WinnowSnapshotsRetiresAndAdmits := by
  unfold Obligations.WinnowSnapshotsRetiresAndAdmits
  intro s x w unique small filtered
  refine ⟨fun k l hx hk hl => ?_, fun hn hs c hc => ⟨w.queueOf_perm c, Winnow.queueOf_order hn hs hc⟩, fun k hn => ?_, fun k state end_ code he => ?_,
    s.retire_winnow x, fun maxPos i k => ⟨fun d f hf => ?_, fun m d hf => Winnow.retire_eq maxPos hf⟩, fun slots rows n => ?_⟩
  · subst hx
    exact congrArg Host.Outcome.next (s.winnowBoundary_eq (s.arg 0) k l hk hl)
  · obtain ⟨hlive, hflag⟩ := s.snapshot_req x k
    refine ⟨?_, rfl, fun y hy => State.ctx_modCtx .. |>.trans (if_neg hy), fun hc => ⟨fun hp he => ?_, fun h => ?_⟩, fun hk hs => ?_⟩
    · show ((s.snapshot x).winnow x).cancels = []
      rw [s.snapshot_eq, State.winnow_modWinnow]
      exact (congrArg (fun l : Nat × List Commit × List SlotFault × List Nat => l.2.2.2) (Winnow.takeCancels_ledger _) :)
    · rw [hlive hc, if_pos ⟨(Winnow.mem_picked hn).2 hp, fun h => absurd (he.symm.trans h) (by decide)⟩]
      exact Request.live_eq ..
    · refine (hlive hc).trans (if_neg fun hp => ?_)
      rcases h with h | h
      · exact h ((Winnow.mem_picked hn).1 hp.1)
      · exact hp.2 h
    · simpa [nbit] using hflag hk hs
  · intro r u q
    have hq : q = _ := (w.req_finish k state end_ code k).trans (if_pos rfl)
    have hfree (list free back : List Nat) : (list.filter fun f => free.contains f || back.contains f) = filtered list free back := by
      simp [filtered, ← Bool.decide_or]
    rw [hq]
    exact ⟨rfl, Request.endCode_withFlags _ he _ _, rfl, rfl, rfl, rfl, rfl, rfl, rfl, rfl, rfl, rfl, Request.withFlags_low .., hfree .., hfree ..,
      fun j hj => (w.req_finish ..).trans (if_neg hj)⟩
  · unfold Winnow.retire
    rw [hf]
  · refine ⟨fun h => Winnow.takeIn_none h slots rows n, fun c k ks hc hb hk => ?_⟩
    intro r fits
    have hf : fits ↔ w.fits slots rows k := by
      unfold fits Winnow.fits
      rw [List.length_map]
      rfl
    exact ⟨fun h => Winnow.takeIn_unfit hc hb hk (fun h' => h (hf.2 h')) n,
      fun i h hi hfree hlow => Winnow.takeIn_fit hc hb hk (hf.1 h) hi hfree hlow n⟩

end Sys2Proof.Machine
end

