-- ==== Sys2Proof/Proofs/MemoryCopies.lean ====
section
/-! O52, first part: drains and spill copies (R83, R118). -/
namespace Sys2Proof.Machine

/-! A sector as a reader gets it (R118, R348). -/

/-- A sector with plain writes in front of it. -/
theorem foldl_sectorWrite (k : Nat) (es : List StagingEntry) (x : Vec × SectorMark) (hx : x.2.code = none) (he : ∀ e ∈ es, e.write.code = none) :
    (es.foldl (fun x e => sectorWrite k x e.write) x).2.code = none ∧ ∀ i < 64, (es.foldl (fun x e => sectorWrite k x e.write) x).1.extractLsb' (8 * i) 8 =
      es.foldl (fun b e => (e.write.bytes.lookup (64 * k + i)).getD b) (x.1.extractLsb' (8 * i) 8) := by
  induction es generalizing x with
  | nil => exact ⟨hx, fun _ _ => rfl⟩
  | cons e es ih =>
    obtain ⟨hcode, hbyte⟩ := sectorWrite_plain k x e.write (he e List.mem_cons_self) hx
    obtain ⟨hc, hb⟩ := ih _ hcode fun g hg => he g (List.mem_cons_of_mem _ hg)
    exact ⟨hc, fun i hi => by rw [List.foldl_cons, hb i hi, List.foldl_cons, hbyte i hi]⟩

theorem State.sector_byte {s : State} (hm : s.migrations = []) (hf : s.forwarding = []) (hc : s.codesClean = true) (k : Nat) {i : Nat} (hi : i < 64) :
    (s.sector k).1.extractLsb' (8 * i) 8 = s.physByte (64 * k + i) := by
  obtain ⟨hs, hcodes⟩ := State.uncoded_of_codesClean hc
  have hraw : s.rawSector k = s.forward.foldl (fun x e => sectorWrite k x e.write) (bytesVec (bytesAt s.mem (64 * k) 64), s.sectorMark k) := by
    unfold State.rawSector
    rw [s.homeAddr_unmoved hm hf, Nat.mul_div_cancel_left k (by decide)]
  obtain ⟨hcode, hbyte⟩ := foldl_sectorWrite k s.forward (bytesVec (bytesAt s.mem (64 * k) 64), s.sectorMark k) (hs k) hcodes
  rw [← hraw] at hcode hbyte
  have hsector : (s.sector k).1 = (s.rawSector k).1 := by
    unfold State.sector
    dsimp only
    rw [hcode]
    rfl
  rw [hsector, hbyte i hi, s.physByte_unmoved hm hf hc]
  dsimp only
  rw [extract_bytesVec (by simp) hi, getD_bytesAt _ _ _ _ hi]

theorem State.place_unmoved {s u : State} (hs : s.migrations = [] ∧ s.forwarding = []) (hu : u.migrations = [] ∧ u.forwarding = []) (h : u.sheaf = s.sheaf) :
    u.place = s.place := by
  have ho : u.ownAddr = s.ownAddr := by
    funext a
    rw [State.ownAddr, State.ownAddr, u.homeAddr_unmoved hu.1 hu.2, s.homeAddr_unmoved hs.1 hs.2, h]
  funext a
  rw [State.place, State.place, ho, h]

/-! Copies of words (R83). -/

/-- One word of a copy. -/
def State.copyWord (s : State) (from_ dest i : Nat) : State :=
  s.devWrite { bytes := cellsFrom (dest + 64 * i) (vecBytes (s.devWord (from_ + 64 * i)).1), poison := (s.devWord (from_ + 64 * i)).2 }

theorem State.copyWords_succ (s : State) (from_ dest n : Nat) : s.copyWords from_ dest (n + 1) = (s.copyWords from_ dest n).copyWord from_ dest n := by
  unfold State.copyWords
  rw [List.range_succ, List.foldl_append]
  rfl

/-- The machine has no page on the move, and no sector under a stored code. -/
structure State.Still (s : State) : Prop where
  migrations : s.migrations = []
  forwarding : s.forwarding = []
  clean : s.codesClean = true

theorem State.copyWord_still {s : State} (h : s.Still) {from_ dest i : Nat} (hp : s.place (from_ + 64 * i) = .ok .lpddr)
    (hd : s.place (dest + 64 * i) = .ok .lpddr) (ha : from_ % 64 = 0) :
    (s.copyWord from_ dest i).Still ∧ (s.copyWord from_ dest i).sheaf = s.sheaf ∧ ∀ k, (s.copyWord from_ dest i).physByte k =
      if dest + 64 * i ≤ k ∧ k < dest + 64 * (i + 1) then s.physByte (from_ + (k - dest)) else s.physByte k := by
  have hword : s.devWord (from_ + 64 * i) = s.sector ((from_ + 64 * i) / 64) := by
    unfold State.devWord
    rw [hp]
  obtain ⟨b, bs, hbs⟩ : ∃ b bs, vecBytes (s.devWord (from_ + 64 * i)).1 = b :: bs := by
    cases hv : vecBytes (s.devWord (from_ + 64 * i)).1 with
    | nil => exact absurd (congrArg List.length hv) (by simp)
    | cons b bs => exact ⟨b, bs, rfl⟩
  have hwrite : s.copyWord from_ dest i = s.releaseNow
      { bytes := cellsFrom (dest + 64 * i) (vecBytes (s.devWord (from_ + 64 * i)).1), poison := (s.devWord (from_ + 64 * i)).2 } := by
    have hhead : (((cellsFrom (dest + 64 * i) (vecBytes (s.devWord (from_ + 64 * i)).1)).head?.map (·.1)).getD 0) = dest + 64 * i := by
      rw [hbs]
      rfl
    unfold State.copyWord State.devWrite
    dsimp only
    rw [hhead, hd]
  obtain ⟨ms, ag, n, he, hnil⟩ := s.releaseNow_eq
    { bytes := cellsFrom (dest + 64 * i) (vecBytes (s.devWord (from_ + 64 * i)).1), poison := (s.devWord (from_ + 64 * i)).2 } rfl
  rw [hwrite]
  refine ⟨⟨by rw [he]; exact hnil h.migrations, by rw [he]; exact h.forwarding, ?_⟩, by rw [he], fun k => ?_⟩
  · rw [he]
    simpa [State.codesClean] using h.clean
  · rw [s.physByte_releaseNow _ _ _ h.migrations h.forwarding h.clean, length_vecBytes]
    by_cases hk : dest + 64 * i ≤ k ∧ k < dest + 64 * (i + 1)
    · rw [if_pos (by omega), if_pos hk, getD_vecBytes _ (by omega), hword, State.sector_byte h.migrations h.forwarding h.clean _ (by omega)]
      congr 1
      omega
    · rw [if_neg (by omega), if_neg hk]

/-- A copy of words reads at its destination as its source did. -/
theorem State.copyWords_reads {s : State} (h : s.Still) {pa pb : Nat} (ha : pa % 64 = 0) {n : Nat} (hp : ∀ i < n, s.place (pa + 64 * i) = .ok .lpddr)
    (hd : ∀ i < n, s.place (pb + 64 * i) = .ok .lpddr) (hapart : pa + 64 * n ≤ pb ∨ pb + 64 * n ≤ pa) :
    (s.copyWords pa pb n).Still ∧ (s.copyWords pa pb n).sheaf = s.sheaf ∧
      ∀ k, (s.copyWords pa pb n).physByte k = if pb ≤ k ∧ k < pb + 64 * n then s.physByte (pa + (k - pb)) else s.physByte k := by
  induction n with
  | zero => exact ⟨h, rfl, fun k => (if_neg (by omega)).symm⟩
  | succ n ih =>
    obtain ⟨hstill, hsheaf, hreads⟩ := ih (fun i hi => hp i (by omega)) (fun i hi => hd i (by omega)) (by omega)
    have hplace : (s.copyWords pa pb n).place = s.place :=
      State.place_unmoved ⟨h.migrations, h.forwarding⟩ ⟨hstill.migrations, hstill.forwarding⟩ hsheaf
    obtain ⟨hstill', hsheaf', hreads'⟩ := State.copyWord_still hstill (from_ := pa) (dest := pb) (i := n) (by rw [hplace]; exact hp n (by omega))
      (by rw [hplace]; exact hd n (by omega)) ha
    rw [State.copyWords_succ]
    refine ⟨hstill', hsheaf'.trans hsheaf, fun k => ?_⟩
    rw [hreads', hreads, hreads]
    by_cases hk : pb + 64 * n ≤ k ∧ k < pb + 64 * (n + 1)
    · rw [if_pos hk, if_neg (by omega), if_pos (by omega)]
    · rw [if_neg hk]
      exact if_congr (by omega) rfl rfl

/-! Drains (R118). -/

theorem State.putSector_forward (s : State) (w : GlobalWrite) (k : Nat) (fs : List StagingEntry) :
    ({ s with forward := fs } : State).putSector w k = { s.putSector w k with forward := fs } := by
  have hmark : ({ s with forward := fs } : State).sectorMark k = s.sectorMark k := rfl
  unfold State.putSector
  rw [hmark]

theorem State.foldl_putSector_forward (w : GlobalWrite) (ks : List Nat) (s : State) (fs : List StagingEntry) :
    ks.foldl (fun (u : State) k => u.putSector w k) { s with forward := fs } = { ks.foldl (fun (u : State) k => u.putSector w k) s with forward := fs } := by
  induction ks generalizing s with
  | nil => rfl
  | cons k ks ih =>
    rw [List.foldl_cons, List.foldl_cons, ← ih, State.putSector_forward]

/-- What stands released plays no part in what a write does to memory. -/
theorem State.memPut_forward (s : State) (fs : List StagingEntry) (w : GlobalWrite) :
    ({ s with forward := fs } : State).memPut w = { s.memPut w with forward := fs } := by
  have hn (u : State) (v : GlobalWrite) : ({ u with forward := fs } : State).noteDirty v = { u.noteDirty v with forward := fs } := by
    unfold State.noteDirty
    dsimp only
    split <;> rfl
  rw [State.memPut_eq, State.memPut_eq, ← hn, ← State.foldl_putSector_forward]
  rfl

theorem State.drain_oldest {s : State} {e : StagingEntry} {es : List StagingEntry} (hf : s.forward = e :: es) (hm : s.migrations = []) :
    s.drain = { s.memPut e.write with forward := es } := by
  have hheld : s.drainHeld e = false := by simp [State.drainHeld, hm]
  unfold State.drain
  rw [hf, List.find?_cons_of_pos (by rw [hheld]; rfl)]
  dsimp only
  rw [List.erase_cons_head]
  exact s.memPut_forward es e.write

theorem State.drain_none {s : State} (hf : s.forward = []) : s.drain = s := by
  unfold State.drain
  rw [hf]
  rfl

/-! Spill copies (R83). -/

theorem State.spillOne_none {s : State} {x : Nat} (h : (s.winnow x).spillQueue = []) : s.spillOne x = s := by
  unfold State.spillOne
  dsimp only
  rw [h]

/-- What a spill copy leaves of Winnow's state: frame `a` of request `k`, the first of its queue, is free. -/
def Winnow.spilledOne (w : Winnow) (k a : Nat) (rest : List (Nat × Nat)) (ks : List Nat) : Winnow :=
  let v := (w.setReq k { w.req k with spilling := rest }).freed [a]
  { v with spillQueue := if rest.isEmpty then ks else k :: ks, copied := v.copied + 1 }

theorem State.spillOne_copies {s : State} {x k a b pa pb : Nat} {ks : List Nat} {rest : List (Nat × Nat)} (hq : (s.winnow x).spillQueue = k :: ks)
    (hr : ((s.winnow x).req k).spilling = (a, b) :: rest) (ha : s.ctxAddr x a = .ok pa) (hb : s.ctxAddr x b = .ok pb) :
    s.spillOne x = (s.copyWords pa pb 512).modWinnow x fun w => w.spilledOne k a rest ks := by
  unfold State.spillOne
  dsimp only
  rw [hq]
  dsimp only
  rw [hr]
  dsimp only
  rw [ha, hb]
  rfl

end Sys2Proof.Machine
end

