-- ==== Sys2Proof/Proofs/PageMigration.lean ====
section
/-! O52, second part: shootdowns and pages in migration (R112, R384 to R387). -/
namespace Sys2Proof.Machine

/-! Shootdowns (R112). -/

/-- Both TLBs of a tile without the entries of a range. -/
def Tile.shot (a b : Nat) (z : Tile) : Tile := { z with a := z.a.shoot a b, b := z.b.shoot a b }

theorem Seq.shoot_shoot (y : Seq) (a b : Nat) : (y.shoot a b).shoot a b = y.shoot a b := by
  unfold Seq.shoot
  dsimp only
  rw [List.filter_filter]
  simp only [Bool.and_self]

theorem Tile.shot_shot (a b : Nat) (z : Tile) : (z.shot a b).shot a b = z.shot a b := by
  unfold Tile.shot
  dsimp only
  rw [Seq.shoot_shoot, Seq.shoot_shoot]

theorem Tile.seq_shot (a b : Nat) (z : Tile) (q : Nat) : (z.shot a b).seq q = (z.seq q).shoot a b := by
  unfold Tile.seq
  split <;> rfl

/-- The TLBs of one tile of context `x` drop a range. -/
def State.shootTile (x a b : Nat) (s : State) (t : Nat) : State := if (s.tile t).ctx = some x then s.modTile t (Tile.shot a b) else s

theorem State.tile_shootTile (x a b : Nat) (s : State) (t j : Nat) :
    (s.shootTile x a b t).tile j = if t = j ∧ (s.tile j).ctx = some x then (s.tile j).shot a b else s.tile j := by
  unfold State.shootTile
  by_cases h : t = j
  · subst h
    by_cases hc : (s.tile t).ctx = some x
    · rw [if_pos hc, if_pos ⟨rfl, hc⟩, State.tile_modTile, if_pos rfl]
    · rw [if_neg hc, if_neg fun h => hc h.2]
  · rw [if_neg (c := t = j ∧ _) fun hj => h hj.1]
    split
    · rw [State.tile_modTile, if_neg h]
    · rfl

theorem State.shootTiles_tile (x a b : Nat) (ts : List Nat) (s : State) (j : Nat) :
    (ts.foldl (State.shootTile x a b) s).tile j = if j ∈ ts ∧ (s.tile j).ctx = some x then (s.tile j).shot a b else s.tile j := by
  induction ts generalizing s with
  | nil => simp
  | cons t ts ih =>
    rw [List.foldl_cons, ih, State.tile_shootTile]
    by_cases hc : (s.tile j).ctx = some x
    · have hs : ((s.tile j).shot a b).ctx = some x := hc
      by_cases ht : t = j
      · simp [ht, hc, hs, Tile.shot_shot]
      · simp [ht, hc, Ne.symm ht]
    · simp [hc]

theorem State.shootTiles_rest (x a b : Nat) (ts : List Nat) (s : State) : ∃ m, ts.foldl (State.shootTile x a b) s = { s with tiles := m } :=
  List.foldlRecOn (motive := fun u : State => ∃ m, u = { s with tiles := m }) ts _ ⟨_, rfl⟩ fun u hu t _ => by
    obtain ⟨m, rfl⟩ := hu
    unfold State.shootTile
    split <;> exact ⟨_, rfl⟩

/-! A page begins to migrate (R384). -/

theorem State.drainRange_rest (s : State) (a n : Nat) : ∃ m sm ms, s.drainRange a n =
    { s with mem := m, sectors := sm, migrations := ms, forward := s.forward.filter fun e => !e.names a n } ∧
    (s.migrations = [] → ms = []) ∧ ((∀ e ∈ s.forward, e.names a n = false) → m = s.mem) := by
  have hdrain : s.drainRange a n = (s.forward.filter (·.names a n)).foldl (fun (u : State) e => u.memPut e.write)
      { s with forward := s.forward.filter fun e => !e.names a n } := rfl
  rw [hdrain]
  generalize hv : ({ s with forward := s.forward.filter fun e => !e.names a n } : State) = v
  have hrest (es : List StagingEntry) : ∃ m sm ms, es.foldl (fun (u : State) e => u.memPut e.write) v = { v with mem := m, sectors := sm, migrations := ms } ∧
      (v.migrations = [] → ms = []) :=
    List.foldlRecOn (motive := fun u : State => ∃ m sm ms, u = { v with mem := m, sectors := sm, migrations := ms } ∧ (v.migrations = [] → ms = [])) es _
      ⟨_, _, _, rfl, id⟩ fun u hu e _ => by
        obtain ⟨m, sm, ms, rfl, hnil⟩ := hu
        obtain ⟨m', sm', ms', h, hnil'⟩ := State.memPut_rest { v with mem := m, sectors := sm, migrations := ms } e.write
        exact ⟨m', sm', ms', h, fun hv => hnil' (hnil hv)⟩
  by_cases hnone : ∀ e ∈ s.forward, e.names a n = false
  · have hempty : s.forward.filter (·.names a n) = [] := List.filter_eq_nil_iff.2 fun e he => by rw [hnone e he]; decide
    rw [hempty, List.foldl_nil, ← hv]
    exact ⟨s.mem, s.sectors, s.migrations, rfl, id, fun _ => rfl⟩
  · obtain ⟨m, sm, ms, h, hnil⟩ := hrest (s.forward.filter (·.names a n))
    rw [h, ← hv]
    exact ⟨m, sm, ms, rfl, fun hm => hnil (by rw [← hv]; exact hm), fun hn => absurd hn hnone⟩

/-- The start of a migration leaves every tile; memory too, where nothing stands released. -/
theorem State.beginMigration_rest (s : State) (x va : Nat) (new : Option Nat) :
    (s.beginMigration x va new).tiles = s.tiles ∧ (s.forward = [] → (s.beginMigration x va new).forward = [] ∧ (s.beginMigration x va new).mem = s.mem) := by
  unfold State.beginMigration
  split
  · exact ⟨rfl, fun h => ⟨h, rfl⟩⟩
  · dsimp only
    generalize hv : (if new.isNone = true then s.tickFree else s) = v
    have hfacts : v.tiles = s.tiles ∧ v.forward = s.forward ∧ v.mem = s.mem := by
      subst hv
      split <;> exact ⟨rfl, rfl, rfl⟩
    obtain ⟨ht, hf, hm⟩ := hfacts
    split
    · generalize new.getD _ = frame
      obtain ⟨m, sm, ms, h, -, hmem⟩ := v.drainRange_rest frame _
      rw [h]
      refine ⟨ht, fun hnil => ⟨?_, (hmem fun e he => ?_).trans hm⟩⟩
      · show v.forward.filter _ = []
        rw [hf, hnil]
        rfl
      · rw [hf, hnil] at he
        cases he
    · exact ⟨ht, fun hnil => ⟨hf.trans hnil, hm⟩⟩

theorem State.leafAt_memCore (s : State) (va : Nat) (levels : List (Nat × Nat × Bool × Nat)) (table : Nat) :
    s.memCore.leafAt va levels table = s.leafAt va levels table := by
  induction levels generalizing table with
  | nil => rfl
  | cons l rest ih =>
    unfold State.leafAt
    rw [show s.memCore.physBytes = s.physBytes from rfl]
    simp only [ih]

/-- A page marked MIG begins to migrate into the frame that is named. -/
theorem State.beginMigration_starts {s : State} {x va new leaf e : Nat} (hleaf : s.leafAt va walkLevels (s.ctx x).root = some (leaf, 32768, e))
    (hmig : nbit e 4 = true) (hal : nbits e 9 43 * 512 % 32768 = 0) (hin : nbits e 9 43 * 512 + 32768 ≤ s.sheaf.populated) (hnone : s.migrations = [])
    (hfit : s.frameFit new 32768 = true) (hne : new ≠ nbits e 9 43 * 512) : let u := s.beginMigration x va (some new)
    u.forward = s.forward.filter (fun g => !g.names new 32768) ∧ ((∀ g ∈ s.forward, g.names new 32768 = false) → u.mem = s.mem) ∧
      u.migrations = [{ ctx := x, old := nbits e 9 43 * 512, new := new, size := 32768, leaf := leaf,
                        dirty := (List.range 512).map (nbits e 9 43 * 512 / 64 + ·) }] ∧
      ∃ t ∈ u.agenda, t.op = .migrationCopyPass ∧ t.args = [nbits e 9 43 * 512] ∧ s.gtick < t.tick := by
  intro u
  generalize hold : nbits e 9 43 * 512 = old at *
  obtain ⟨m, sm, ms, hdrain, hnil, hmem⟩ := s.drainRange_rest new 32768
  have hu : u = (((({ s.drainRange new 32768 with migrations := (s.drainRange new 32768).migrations ++
      [{ ctx := x, old := old, new := new, size := 32768, leaf := leaf, dirty := (List.range (32768 / 64)).map (old / 64 + ·) }] } : State)).after
      (1 + Config.serviceDelay (s.drainRange new 32768).free) .migrationCopyPass [old]).tickFree) := by
    show s.beginMigration x va (some new) = _
    unfold State.beginMigration
    rw [hleaf]
    dsimp only
    rw [hold, if_neg (c := (some new).isNone = true) (by simp), Option.getD_some, if_pos (by simp [hmig, hal, hin, hnone, hfit, hne])]
  rw [hu, hdrain]
  refine ⟨rfl, hmem, ?_, _, (mem_insertTimed _ _ _).2 (.inl rfl), rfl, rfl, ?_⟩
  · show ms ++ _ = _
    rw [hnil hnone]
    rfl
  · show s.gtick < s.gtick + (1 + _)
    omega

/-- The migrations of a shootdown begin where its TLBs have dropped the range. -/
theorem State.shootdown_eq (s : State) (x a b : Nat) (new : Option Nat) : s.shootdown x a b new =
    (List.range ((b - a + 32767) / 32768)).foldl (fun (s : State) i => s.beginMigration x (a + 32768 * i) (if i = 0 then new else none))
      ((s.ctx x).tiles.foldl (State.shootTile x a b) s) := rfl

theorem State.shootdown_leaves (s : State) (x a b : Nat) (new : Option Nat) : (s.forward = [] → (s.shootdown x a b new).mem = s.mem) ∧
    ∀ t ∈ (s.ctx x).tiles, (s.tile t).ctx = some x → ∀ q, (s.shootdown x a b new).seq t q = (s.seq t q).shoot a b := by
  obtain ⟨m, hm⟩ := State.shootTiles_rest x a b (s.ctx x).tiles s
  have htile := State.shootTiles_tile x a b (s.ctx x).tiles s
  rw [s.shootdown_eq]
  generalize (s.ctx x).tiles.foldl (State.shootTile x a b) s = v at *
  refine ⟨fun hf => ?_, fun t ht hc q => ?_⟩
  · have hv : v.forward = [] ∧ v.mem = s.mem := by rw [hm]; exact ⟨hf, rfl⟩
    refine (List.foldlRecOn (motive := fun u : State => u.forward = [] ∧ u.mem = s.mem) _ _ hv fun u hu i _ => ?_).2
    obtain ⟨hf', hm'⟩ := (u.beginMigration_rest x (a + 32768 * i) (if i = 0 then new else none)).2 hu.1
    exact ⟨hf', hm'.trans hu.2⟩
  · have hts := foldl_keeps State.tiles (fun (s : State) i => s.beginMigration x (a + 32768 * i) (if i = 0 then new else none))
      (fun u i => (u.beginMigration_rest x _ _).1) (List.range ((b - a + 32767) / 32768)) v
    rw [State.seq, State.tile, hts]
    show (v.tile t).seq q = _
    rw [htile, if_pos ⟨ht, hc⟩, Tile.seq_shot]
    rfl

/-- A shootdown of one page that is marked MIG lets it begin to migrate. -/
theorem State.shootdown_starts {s : State} {x a b new leaf e : Nat} (hab : a < b) (hb : b ≤ a + 32768)
    (hleaf : s.leafAt a walkLevels (s.ctx x).root = some (leaf, 32768, e))
    (hmig : nbit e 4 = true) (hal : nbits e 9 43 * 512 % 32768 = 0) (hin : nbits e 9 43 * 512 + 32768 ≤ s.sheaf.populated) (hnone : s.migrations = [])
    (hfit : s.frameFit new 32768 = true) (hne : new ≠ nbits e 9 43 * 512) : let u := s.shootdown x a b (some new)
    u.forward = s.forward.filter (fun g => !g.names new 32768) ∧ ((∀ g ∈ s.forward, g.names new 32768 = false) → u.mem = s.mem) ∧
      u.migrations = [{ ctx := x, old := nbits e 9 43 * 512, new := new, size := 32768, leaf := leaf,
                        dirty := (List.range 512).map (nbits e 9 43 * 512 / 64 + ·) }] ∧
      ∃ t ∈ u.agenda, t.op = .migrationCopyPass ∧ t.args = [nbits e 9 43 * 512] ∧ s.gtick < t.tick := by
  obtain ⟨m, hm⟩ := State.shootTiles_rest x a b (s.ctx x).tiles s
  have hone : (b - a + 32767) / 32768 = 1 := by omega
  have hu : s.shootdown x a b (some new) = ({ s with tiles := m } : State).beginMigration x a (some new) := by
    rw [s.shootdown_eq, hone, hm]
    rfl
  have hleaf' : ({ s with tiles := m } : State).leafAt a walkLevels (s.ctx x).root = some (leaf, 32768, e) := by
    rw [← State.leafAt_memCore, ← hleaf, ← s.leafAt_memCore]
    rfl
  rw [hu]
  exact State.beginMigration_starts (s := { s with tiles := m }) hleaf' hmig hal hin hnone hfit hne

/-! Copies of sectors (R384). -/

/-- The frames of a page in migration are sectors apart, and what is to be copied lies in the old one. -/
def Migration.fits (m : Migration) : Prop := m.old % 64 = 0 ∧ m.new % 64 = 0 ∧ m.size % 64 = 0 ∧ (m.old + m.size ≤ m.new ∨ m.new + m.size ≤ m.old) ∧
  ∀ k ∈ m.dirty, m.old ≤ 64 * k ∧ 64 * k < m.old + m.size

theorem State.byteAt_copySector {s : State} {m : Migration} (hold : m.old % 64 = 0) (hnew : m.new % 64 = 0) {k : Nat} (hk : m.old ≤ 64 * k) (a : Nat) :
    byteAt (s.copySector m k).mem a = if m.new ≤ a ∧ (m.old + (a - m.new)) / 64 = k then byteAt s.mem (m.old + (a - m.new)) else byteAt s.mem a := by
  unfold State.copySector
  dsimp only
  rw [byteAt_putBytes, length_bytesAt]
  by_cases h : m.new ≤ a ∧ (m.old + (a - m.new)) / 64 = k
  · rw [if_pos h, if_pos (by omega), getD_bytesAt _ _ _ _ (by omega)]
    congr 1
    omega
  · rw [if_neg h, if_neg (by omega)]

theorem State.sectorMark_copySector (s : State) (m : Migration) (k j : Nat) :
    (s.copySector m k).sectorMark j = if m.new / 64 + (k - m.old / 64) = j then s.sectorMark k else s.sectorMark j := mget_mset ..

/-- Sectors of the old frame are copied, each as it stands. -/
theorem State.foldl_copySector {m : Migration} (hold : m.old % 64 = 0) (hnew : m.new % 64 = 0) (hsize : m.size % 64 = 0)
    (hapart : m.old + m.size ≤ m.new ∨ m.new + m.size ≤ m.old) (ks : List Nat) (hks : ∀ k ∈ ks, m.old ≤ 64 * k ∧ 64 * k < m.old + m.size) (s : State) :
    let u := ks.foldl (fun (s : State) k => s.copySector m k) s
    (∀ a, byteAt u.mem a = if m.new ≤ a ∧ a < m.new + m.size ∧ (m.old + (a - m.new)) / 64 ∈ ks then byteAt s.mem (m.old + (a - m.new)) else byteAt s.mem a) ∧
      (∀ k, m.old ≤ 64 * k ∧ 64 * k < m.old + m.size → u.sectorMark (m.new / 64 + (k - m.old / 64)) =
        if k ∈ ks then s.sectorMark k else s.sectorMark (m.new / 64 + (k - m.old / 64))) := by
  induction ks generalizing s with
  | nil => exact ⟨fun a => (if_neg fun h => List.not_mem_nil h.2.2).symm, fun k _ => (if_neg List.not_mem_nil).symm⟩
  | cons k ks ih =>
    obtain ⟨hk, hks⟩ := List.forall_mem_cons.1 hks
    obtain ⟨hbyte, hmark⟩ := ih hks (s.copySector m k)
    refine ⟨fun a => ?_, fun j hj => ?_⟩
    · rw [List.foldl_cons, hbyte, State.byteAt_copySector hold hnew hk.1, State.byteAt_copySector hold hnew hk.1]
      by_cases hin : m.new ≤ a ∧ a < m.new + m.size
      · obtain ⟨h1, h2⟩ := hin
        by_cases hmem : (m.old + (a - m.new)) / 64 ∈ ks
        · rw [if_pos ⟨h1, h2, hmem⟩, if_neg (by omega), if_pos ⟨h1, h2, List.mem_cons_of_mem _ hmem⟩]
        · rw [if_neg fun h => hmem h.2.2]
          simp [h1, h2, hmem]
      · rw [if_neg fun h => hin ⟨h.1, h.2.1⟩, if_neg (by omega), if_neg fun h => hin ⟨h.1, h.2.1⟩]
    · rw [List.foldl_cons, hmark j hj, s.sectorMark_copySector, s.sectorMark_copySector,
        if_neg (c := m.new / 64 + (k - m.old / 64) = j) (by omega)]
      by_cases hmem : j ∈ ks
      · rw [if_pos hmem, if_pos (List.mem_cons_of_mem _ hmem)]
      · by_cases hkj : k = j
        · subst hkj
          rw [if_neg hmem, if_pos rfl, if_pos List.mem_cons_self]
        · rw [if_neg hmem, if_neg (by omega), if_neg (by simp [hmem, Ne.symm hkj])]

theorem State.foldl_copySector_rest (m : Migration) (ks : List Nat) (s : State) :
    ∃ mm sm, ks.foldl (fun (s : State) k => s.copySector m k) s = { s with mem := mm, sectors := sm } ∧ (s.sectors = [] → sm = []) :=
  List.foldlRecOn (motive := fun u : State => ∃ mm sm, u = { s with mem := mm, sectors := sm } ∧ (s.sectors = [] → sm = [])) ks _ ⟨_, _, rfl, id⟩
    fun u hu k _ => by
      obtain ⟨mm, sm, rfl, hnil⟩ := hu
      refine ⟨_, _, rfl, fun h => ?_⟩
      rw [State.sectorMark, hnil h]
      rfl

/-- What a copy pass leaves in memory. -/
def State.copiedBy (s : State) (m : Migration) (u : State) : Prop := u.mem = (s.copyDirty m).mem ∧ (m.fits →
  (∀ a, byteAt u.mem a = if m.new ≤ a ∧ a < m.new + m.size ∧ (m.old + (a - m.new)) / 64 ∈ m.dirty then byteAt s.mem (m.old + (a - m.new))
    else byteAt s.mem a) ∧ ∀ k ∈ m.dirty, u.sectorMark (m.new / 64 + (k - m.old / 64)) = s.sectorMark k)

theorem State.copiedBy_of_eq {s u : State} {m : Migration} (hm : u.mem = (s.copyDirty m).mem) (hs : u.sectors = (s.copyDirty m).sectors) : s.copiedBy m u := by
  refine ⟨hm, fun hfit => ?_⟩
  obtain ⟨hold, hnew, hsize, hapart, hdirty⟩ := hfit
  obtain ⟨hbyte, hmark⟩ := State.foldl_copySector hold hnew hsize hapart m.dirty hdirty s
  refine ⟨fun a => by rw [hm]; exact hbyte a, fun k hk => ?_⟩
  rw [State.sectorMark, hs]
  exact (hmark k (hdirty k hk)).trans (if_pos hk)

/-- A copy changes memory, marks, and what is still to copy. -/
theorem State.copyDirty_rest (s : State) (m : Migration) : ∃ mm sm, s.copyDirty m =
    { s with mem := mm, sectors := sm, migrations := s.migrations.map fun (n : Migration) => if n.old = m.old then { n with dirty := [] } else n } ∧
    (s.sectors = [] → sm = []) := by
  obtain ⟨mm, sm, h, hnil⟩ := State.foldl_copySector_rest m m.dirty s
  refine ⟨mm, sm, ?_, hnil⟩
  unfold State.copyDirty
  rw [h]
  rfl

theorem State.migration_some {s : State} {old : Nat} {m : Migration} (h : s.migration old = some m) : m.old = old := by
  simpa using List.find?_some h

/-! The leaf (R384). -/

/-- Outside the new frame of the one page that moves an address stands for itself. -/
theorem State.homeAddr_outside {s : State} {m : Migration} (hm : s.migrations = [m]) (hf : s.forwarding = []) {a : Nat}
    (ha : a < m.new ∨ m.new + m.size ≤ a) : s.homeAddr a = a ∧ (s.copyDirty m).homeAddr a = a := by
  have hout : ¬ (m.new ≤ a ∧ a < m.new + m.size) := by omega
  obtain ⟨mm, sm, h, -⟩ := s.copyDirty_rest m
  exact ⟨by simp [State.homeAddr, hm, hf, hout], by rw [h]; simp [State.homeAddr, hm, hf, hout]⟩

theorem cellsFrom_key {a : Nat} {bs : List Byte} {b : Nat × Byte} (hb : b ∈ cellsFrom a bs) : a ≤ b.1 ∧ b.1 < a + bs.length := by
  induction bs generalizing a with
  | nil => cases hb
  | cons c bs ih =>
    rw [List.length_cons]
    rcases List.mem_cons.1 hb with rfl | hb
    · exact ⟨le_rfl, by dsimp only; omega⟩
    · have := ih hb
      omega

/-- A copy leaves what reads outside the new frame. -/
theorem State.physByte_copyDirty {s : State} {m : Migration} (hfit : m.fits) (hc : s.codesClean = true) (hm : s.migrations = [m]) (hf : s.forwarding = [])
    {a : Nat} (ha : a < m.new ∨ m.new + m.size ≤ a) : (s.copyDirty m).physByte a = s.physByte a := by
  obtain ⟨mm, sm, h, hnil⟩ := s.copyDirty_rest m
  obtain ⟨hsectors, hforward⟩ : s.sectors = [] ∧ (s.forward.any fun e => e.write.code.isSome) = false := by
    simpa only [State.codesClean, Bool.and_eq_true, List.isEmpty_iff, Bool.not_eq_true'] using hc
  have hbyte : byteAt (s.copyDirty m).mem a = byteAt s.mem a := by
    rw [((State.copiedBy_of_eq (s := s) (m := m) rfl rfl).2 hfit).1 a, if_neg (by omega)]
  have hclean : (s.copyDirty m).codesClean = true := by
    rw [h]
    simp [State.codesClean, hnil hsectors, hforward]
  obtain ⟨hhome, hhome'⟩ := State.homeAddr_outside hm hf ha
  have hfwd : (s.copyDirty m).forward = s.forward := by rw [h]
  unfold State.physByte
  dsimp only
  rw [if_pos hclean, if_pos hc, hhome, hhome', hbyte, hfwd]

/-- The leaf's new value is released as a write: the new frame, and bits 0 to 3 as they stood. -/
theorem State.rewriteLeaf_releases {s : State} {m : Migration} (hfit : m.fits) (hc : s.codesClean = true) (hm : s.migrations = [m]) (hf : s.forwarding = [])
    (hleaf : m.leaf + 8 ≤ m.new ∨ m.new + m.size ≤ m.leaf) : ∃ g, ((s.copyDirty m).rewriteLeaf m).forward = s.forward ++ [g] ∧ g.write.poison = none ∧
      g.write.bytes = cellsFrom m.leaf (leBytes 8 (m.new + nbits (leNat (s.physBytes m.leaf 8)) 0 4)) := by
  obtain ⟨mm, sm, h, -⟩ := s.copyDirty_rest m
  have hbytes : (s.copyDirty m).physBytes m.leaf 8 = s.physBytes m.leaf 8 := List.map_congr_left fun k hk => by
    have := List.mem_range.1 hk
    exact State.physByte_copyDirty hfit hc hm hf (by omega)
  have hhome : (cellsFrom m.leaf (leBytes 8 (m.new + nbits (leNat (s.physBytes m.leaf 8)) 0 4))).map (fun b => ((s.copyDirty m).homeAddr b.1, b.2)) =
      cellsFrom m.leaf (leBytes 8 (m.new + nbits (leNat (s.physBytes m.leaf 8)) 0 4)) := by
    refine (List.map_congr_left (g := id) fun b hb => ?_).trans (List.map_id _)
    have hkey := cellsFrom_key hb
    rw [length_leBytes] at hkey
    rw [(State.homeAddr_outside hm hf (by omega)).2]
    rfl
  obtain ⟨ms, ag, n, hr, -⟩ := (s.copyDirty m).releaseNow_eq { bytes := cellsFrom m.leaf (leBytes 8 (m.new + nbits (leNat (s.physBytes m.leaf 8)) 0 4)) } rfl
  unfold State.rewriteLeaf
  rw [hbytes]
  dsimp only
  rw [hr, hhome, h]
  exact ⟨_, rfl, rfl, rfl⟩

/-! Copy passes (R384, R385). -/

theorem State.copyPass_none {s : State} {old : Nat} (h : s.migration old = none) : s.copyPass old = s := by
  unfold State.copyPass
  rw [h]

/-- A copy pass after the copies: the first rewrites the leaf. -/
def State.copyRewrites (s : State) (m : Migration) : State :=
  if m.ready = 0 then ((s.copyDirty m).rewriteLeaf m).modMigration m.old fun n => { n with ready := s.gtick + 2400 } else s.copyDirty m

theorem State.copyPass_some {s : State} {old : Nat} {m : Migration} (h : s.migration old = some m) (hs : m.state = 0) (hp : s.powerLost = false) :
    s.copyPass old = (((s.copyRewrites m).after (1 + Config.serviceDelay (s.copyRewrites m).free) .migrationCopyPass [old]).tickFree) := by
  obtain ⟨mm, sm, hc, -⟩ := s.copyDirty_rest m
  have hgtick : (s.copyDirty m).gtick = s.gtick := by rw [hc]
  unfold State.copyPass State.copyRewrites
  rw [h]
  dsimp only
  rw [if_neg (by simp [hs, hp]), ← State.migration_some h, hgtick]

theorem State.copyRewrites_rest (s : State) (m : Migration) : (s.copyRewrites m).mem = (s.copyDirty m).mem ∧
    (s.copyRewrites m).sectors = (s.copyDirty m).sectors ∧ (s.copyRewrites m).gtick = s.gtick := by
  obtain ⟨mm, sm, hc, -⟩ := s.copyDirty_rest m
  unfold State.copyRewrites State.rewriteLeaf
  split
  · obtain ⟨ms, ag, n, hr, -⟩ := (s.copyDirty m).releaseNow_eq { bytes := cellsFrom m.leaf (leBytes 8 (m.new + nbits (leNat ((s.copyDirty m).physBytes m.leaf 8)) 0 4)) } rfl
    dsimp only
    rw [hr, hc]
    exact ⟨rfl, rfl, rfl⟩
  · rw [hc]
    exact ⟨rfl, rfl, rfl⟩

/-! The end of the window (R386, R387). -/

theorem State.windowEnd_none {s : State} {old : Nat} (h : s.migration old = none) : s.windowEnd old = s := by
  unfold State.windowEnd
  rw [h]

theorem State.redrain_rest (s : State) (m : Migration) : ∃ ag n, s.redrain m = { s with agenda := ag, free := n } := by
  unfold State.redrain
  generalize List.filter _ s.forward = es
  exact List.foldlRecOn (motive := fun u : State => ∃ ag n, u = { s with agenda := ag, free := n }) es _ ⟨_, _, rfl⟩ fun u hu e _ => by
    obtain ⟨ag, n, rfl⟩ := hu
    exact ⟨_, _, rfl⟩

/-- A page that leaves the list leaves it as it was, whatever had become of that page. -/
theorem filter_map_old (l : List Migration) (old : Nat) (f : Migration → Migration) (hf : ∀ n, (f n).old = n.old) :
    (l.map fun n => if n.old = old then f n else n).filter (·.old != old) = l.filter (·.old != old) := by
  induction l with
  | nil => rfl
  | cons n l ih =>
    by_cases h : n.old = old
    · rw [List.map_cons, if_pos h, List.filter_cons_of_neg (by simp [hf, h]), List.filter_cons_of_neg (by simp [h]), ih]
    · rw [List.map_cons, if_neg h, List.filter_cons_of_pos (by simp [h]), List.filter_cons_of_pos (by simp [h]), ih]

/-- The machine at the end of a page's window, before its released entries go on waiting. -/
theorem State.windowEnd_redrains {s : State} {m : Migration} (h : s.migration m.old = some m) (hs : m.state = 1) (hp : s.powerLost = false) :
    ∃ z : State, s.windowEnd m.old = z.redrain m ∧ z.migrations = (s.copyDirty m).migrations.filter (·.old != m.old) ∧
      z.forwarding.head? = some (m.old, m.new, m.size) ∧ z.mem = (s.copyDirty m).mem ∧ z.sectors = (s.copyDirty m).sectors ∧
      z.tiles = (s.copyDirty m).tiles.map fun e => (e.1, e.2.moved m) := by
  unfold State.windowEnd
  rw [h]
  dsimp only
  rw [if_neg (by simp [hs, hp])]
  exact ⟨_, rfl, rfl, rfl, rfl, rfl, rfl⟩

theorem State.windowEnd_some {s : State} {old : Nat} {m : Migration} (h : s.migration old = some m) (hs : m.state = 1) (hp : s.powerLost = false) :
    let u := s.windowEnd old
    u.migrations = s.migrations.filter (·.old != old) ∧ u.forwarding.head? = some (old, m.new, m.size) ∧ u.mem = (s.copyDirty m).mem ∧
      u.sectors = (s.copyDirty m).sectors ∧ ∀ t, u.tile t = (s.tile t).moved m := by
  have hold := State.migration_some h
  subst hold
  obtain ⟨z, he, hmig, hfwd, hmem, hsec, htiles⟩ := State.windowEnd_redrains h hs hp
  obtain ⟨ag, n, hz⟩ := z.redrain_rest m
  obtain ⟨mm, sm, hc, -⟩ := s.copyDirty_rest m
  intro u
  have hu : u = { z with agenda := ag, free := n } := he.trans hz
  rw [hu]
  refine ⟨hmig.trans ?_, hfwd, hmem, hsec, fun t => ?_⟩
  · rw [hc]
    exact filter_map_old s.migrations m.old (fun n => { n with dirty := [] }) fun _ => rfl
  · rw [hc] at htiles
    show mget {} z.tiles t = _
    rw [htiles]
    exact mget_map {} (fun z : Tile => z.moved m) rfl s.tiles t

theorem Tile.seq_moved (z : Tile) (m : Migration) (q : Nat) : (z.moved m).seq q = (z.seq q).moved m := by
  unfold Tile.seq
  split <;> rfl

/-- A copy pass of a page that migrates. -/
theorem State.copyPass_spec {s : State} {old : Nat} {m : Migration} (h : s.migration old = some m) (hs : m.state = 0) (hp : s.powerLost = false) :
    let u := s.copyPass old
    ((s.copyDirty m).migrations = s.migrations.map fun (n : Migration) => if n.old = old then { n with dirty := [] } else n) ∧ s.copiedBy m u ∧
      (m.ready ≠ 0 → u.migrations = (s.copyDirty m).migrations ∧ u.forward = s.forward) ∧
      (m.ready = 0 → (u.migrations = ((s.copyDirty m).rewriteLeaf m).migrations.map fun (n : Migration) =>
          if n.old = old then { n with ready := s.gtick + 2400 } else n) ∧ u.forward = ((s.copyDirty m).rewriteLeaf m).forward) ∧
      ∃ t ∈ u.agenda, t.op = .migrationCopyPass ∧ t.args = [old] ∧ s.gtick < t.tick := by
  have hold := State.migration_some h
  subst hold
  obtain ⟨hmem, hsec, hgtick⟩ := s.copyRewrites_rest m
  obtain ⟨mm, sm, hc, -⟩ := s.copyDirty_rest m
  dsimp only
  rw [State.copyPass_some h hs hp]
  refine ⟨by rw [hc], State.copiedBy_of_eq hmem hsec, fun hr => ?_, fun hr => ?_, ?_⟩
  · have he : s.copyRewrites m = s.copyDirty m := if_neg hr
    rw [he]
    exact ⟨rfl, by rw [hc]; rfl⟩
  · have he : s.copyRewrites m = _ := if_pos hr
    rw [he]
    exact ⟨rfl, rfl⟩
  · refine ⟨_, (mem_insertTimed _ _ _).2 (.inl rfl), rfl, rfl, ?_⟩
    show s.gtick < (s.copyRewrites m).gtick + (1 + _)
    omega

/-- A frame that is copied reads at its destination as it did. -/
theorem State.copyWords_frame {s : State} (h : s.Still) {pa pb : Nat} (ha : pa % 64 = 0) (hapart : pa + 32768 ≤ pb ∨ pb + 32768 ≤ pa)
    (hplace : ∀ j < 32768, s.place (pa + j) = .ok .lpddr ∧ s.place (pb + j) = .ok .lpddr) {j : Nat} (hj : j < 32768) :
    (s.copyWords pa pb 512).physByte (pb + j) = s.physByte (pa + j) := by
  obtain ⟨-, -, hread⟩ := State.copyWords_reads h ha (n := 512) (fun i hi => (hplace (64 * i) (by omega)).1)
    (fun i hi => (hplace (64 * i) (by omega)).2) (by omega)
  rw [hread, if_pos (by omega), Nat.add_sub_cancel_left]

/-- Writes, and then a change of Winnow's state. -/
theorem State.Writes.modWinnow {s v : State} (hw : s.Writes v) (x : Nat) (f : Winnow → Winnow) : (v.modWinnow x f).mem = s.mem ∧
    (v.modWinnow x f).forward = v.forward ∧ (v.modWinnow x f).tiles = v.tiles ∧ (v.modWinnow x f).physByte = v.physByte ∧
      (v.modWinnow x f).winnow x = f (s.winnow x) :=
  ⟨hw.mem, rfl, rfl, rfl, by rw [State.winnow_modWinnow, hw.winnow]⟩

/-- A spill copy of frame `a` into frame `b`. -/
theorem State.spillOne_spec {s : State} {x k a b pa pb : Nat} {ks : List Nat} {rest : List (Nat × Nat)} (hq : (s.winnow x).spillQueue = k :: ks)
    (hr : ((s.winnow x).req k).spilling = (a, b) :: rest) (ha : s.ctxAddr x a = .ok pa) (hb : s.ctxAddr x b = .ok pb) :
    (s.spillOne x).mem = s.mem ∧ (s.spillOne x).forward = (s.copyWords pa pb 512).forward ∧ (s.spillOne x).tiles = (s.copyWords pa pb 512).tiles ∧
      (s.spillOne x).physByte = (s.copyWords pa pb 512).physByte ∧ (s.spillOne x).winnow x = (s.winnow x).spilledOne k a rest ks := by
  rw [State.spillOne_copies hq hr ha hb]
  exact (State.Writes.copyWords s pa pb 512).modWinnow x fun w => w.spilledOne k a rest ks

theorem Winnow.spilledOne_spec (w : Winnow) (k a : Nat) (rest : List (Nat × Nat)) (ks : List Nat) : let v := w.spilledOne k a rest ks
    (v.req k).spilling = rest ∧ v.copied = w.copied + 1 ∧ v.spillQueue = (if rest.isEmpty then ks else k :: ks) ∧ (a ∈ w.pool → a ∈ v.freePool) :=
  ⟨congrArg Request.spilling ((Winnow.req_setReq ..).trans (if_pos rfl)), rfl, rfl, fun hp => List.mem_filter.2 ⟨hp, by simp⟩⟩

/-! SHOOTDOWN_EFFECT (R112). -/

theorem State.shootdown_late {s : State} {n : Nat} (hn : s.cur.args[3]? = some n) (hlate : s.gtick < n + 2400) : exec .shootdownEffect s =
    .next (s.at_ (n + 2400) .shootdownEffect ([s.arg 0, s.arg 1, s.arg 2, n] ++ s.cur.args[4]?.toList)) := by
  show execShootdownEffect s = _
  unfold execShootdownEffect
  rw [hn]
  exact congrArg Host.Outcome.next (if_pos hlate)

theorem State.shootdown_now {s : State} (h : ∀ n, s.cur.args[3]? = some n → n + 2400 ≤ s.gtick) : exec .shootdownEffect s =
    .next (s.shootdown (s.arg 0) (s.arg 1) (s.arg 2) (s.cur.args[3]?.bind fun _ => s.cur.args[4]?)) := by
  show execShootdownEffect s = _
  unfold execShootdownEffect
  cases hn : s.cur.args[3]? with
  | none => rfl
  | some n => exact congrArg Host.Outcome.next (if_neg (Nat.not_lt.2 (h n hn)))

/-- Settles O52. -/
theorem memoryDrainsSpillsAndMigrates : Obligations.MemoryDrainsSpillsAndMigrates := by
  unfold Obligations.MemoryDrainsSpillsAndMigrates
  intro s x c apart fits copied
  refine ⟨fun hf => congrArg Host.Outcome.next (State.drain_none hf), fun e es hf hm => ?_, fun hq => congrArg Host.Outcome.next (State.spillOne_none hq),
    fun k ks a b rest pa pb hq hr ha hb => ?_, ⟨fun n hn hlate => ⟨_, State.shootdown_late hn hlate, rfl, rfl, rfl, ?_⟩, fun hdue => ?_⟩,
    fun m hm hs hp => ?_, fun m hm hs hp => ?_,
    fun hm => ⟨congrArg Host.Outcome.next (State.copyPass_none hm), congrArg Host.Outcome.next (State.windowEnd_none hm)⟩⟩
  · obtain ⟨mm, sm, ms, hput, -⟩ := s.memPut_rest e.write
    exact ⟨_, congrArg Host.Outcome.next (State.drain_oldest hf hm), rfl, rfl, rfl, by rw [hput]⟩
  · obtain ⟨hmem, hfwd, htiles, hreads, hwin⟩ := State.spillOne_spec hq hr ha hb
    refine ⟨_, rfl, hmem, hfwd, htiles, fun hc hm hf hpa _ hapart hplace j hj => ?_, ?_⟩
    · rw [hreads]
      exact State.copyWords_frame ⟨hm, hf, hc⟩ hpa hapart hplace hj
    rw [hwin]
    exact Winnow.spilledOne_spec ..
  · exact ⟨_, (mem_insertTimed _ _ _).2 (.inl rfl), rfl, rfl, le_rfl, le_rfl⟩
  · obtain ⟨hmem, hseq⟩ := s.shootdown_leaves x (s.arg 1) (s.arg 2) (s.cur.args[3]?.bind fun _ => s.cur.args[4]?)
    refine ⟨_, State.shootdown_now hdue, hmem, hseq, fun leaf size e n new hargs hab hb hleaf hmig hsize hal hin hnone hfit hne => ?_⟩
    subst hsize
    have hnew : (s.cur.args[3]?.bind fun _ => s.cur.args[4]?) = some new := by rw [hargs]; rfl
    rw [hnew]
    exact State.shootdown_starts hab hb hleaf hmig hal hin hnone hfit hne
  · obtain ⟨hmig, hcopied, hlater, hfirst, hplan⟩ := State.copyPass_spec hm hs hp
    refine ⟨_, rfl, hmig, hcopied, hlater, fun hr => ⟨(hfirst hr).1, fun hf hc hone hfwd hleaf => ?_⟩, hplan⟩
    rw [(hfirst hr).2]
    exact State.rewriteLeaf_releases hf hc hone hfwd hleaf
  · obtain ⟨hmig, hfwd, hmem, hsec, htile⟩ := State.windowEnd_some hm hs hp
    refine ⟨_, rfl, hmig, hfwd, State.copiedBy_of_eq hmem hsec, htile, fun t q => ?_⟩
    rw [State.seq, htile, Tile.seq_moved]
    exact ⟨rfl, rfl⟩

end Sys2Proof.Machine
end

