-- ==== Sys2Proof/Proofs/CopyStarts.lean ====
section
/-! SUPPORT. A copy command starts (R261, R264 to R266): what the reads of its data leave as it was, the ticks of their arrival, and the pages of each
kind. -/
namespace Sys2Proof.Machine

/-! Reads that are only counted, and translations, leave memory and the queues (R110, R347). -/

/-- What no count of a read and no translation changes: memory, the tick and the copy queues. -/
structure State.SameEngine (s u : State) : Prop where
  mem : u.mem = s.mem
  gtick : u.gtick = s.gtick
  queues : u.queueOf = s.queueOf

theorem State.SameEngine.refl (s : State) : s.SameEngine s := ⟨rfl, rfl, rfl⟩
theorem State.SameEngine.trans {s u v : State} (h : s.SameEngine u) (h' : u.SameEngine v) : s.SameEngine v :=
  ⟨h'.mem.trans h.mem, h'.gtick.trans h.gtick, h'.queues.trans h.queues⟩

theorem State.SameEngine.foldl {α : Type} {f : State → α → State} (h : ∀ (s : State) (a : α), s.SameEngine (f s a)) (l : List α) (s : State) :
    s.SameEngine (l.foldl f s) :=
  List.foldlRecOn (motive := fun u : State => s.SameEngine u) l f (.refl s) fun u hu a _ => hu.trans (h u a)

theorem State.SameEngine.branch {s u v : State} {p : Prop} [Decidable p] (hu : s.SameEngine u) (hv : s.SameEngine v) :
    s.SameEngine (if p then u else v) := by
  split
  · exact hu
  · exact hv

theorem State.SameEngine.branchNext {s u v : State} {p : Prop} [Decidable p] (hu : s.SameEngine u) (huv : u.SameEngine v) :
    s.SameEngine (if p then v else u) := .branch (hu.trans huv) hu

/-- A change of a tile that leaves its sequencers' copy queues. -/
theorem State.SameEngine.modTile (s : State) (t : Nat) {f : Tile → Tile}
    (h : ∀ q c, ((f (s.tile t)).seq q).queue c = ((s.tile t).seq q).queue c) : s.SameEngine (s.modTile t f) := by
  refine ⟨rfl, rfl, ?_⟩
  funext j q c
  unfold State.queueOf
  rw [State.seq_modTile]
  split
  · next hj => exact hj ▸ h q c
  · rfl

theorem State.SameEngine.record (s : State) (x : Nat) (r : FaultRecord) : s.SameEngine (s.record x r) := by
  refine ⟨by rw [State.record_eq], State.record_gtick .., ?_⟩
  obtain ⟨late, h⟩ := s.record_seq x r
  funext j q c
  unfold State.queueOf
  rw [h]
  rfl

theorem State.SameEngine.countCorrected (s : State) (t kind n : Nat) : s.SameEngine (s.countCorrected t kind n) := by
  have hcount : s.SameEngine (s.modTile t fun x => { x with corrected := mset 0 x.corrected kind (mget 0 x.corrected kind + n) }) :=
    .modTile s t fun _ _ => rfl
  unfold State.countCorrected
  exact .branch (hcount.trans (.record ..)) hcount

theorem State.SameEngine.poisonSector (s : State) (k : Nat) (p : Poison) : s.SameEngine (s.poisonSector k p) := by
  unfold State.poisonSector
  exact .branch ⟨rfl, rfl, rfl⟩ ⟨rfl, rfl, rfl⟩

theorem State.SameEngine.countSectors (s : State) (t : Nat) (ks : List Nat) : s.SameEngine (s.countSectors t ks) := by
  unfold State.countSectors
  refine .branch (.refl s) (.foldl (fun u k => ?_) ks s)
  have hcount (p : Prop) [Decidable p] (n : Nat) : u.SameEngine (if p then u else u.countCorrected t 2 n) := .branch (.refl u) (.countCorrected ..)
  dsimp only
  split
  · exact (hcount ..).trans (.poisonSector ..)
  · exact hcount ..

theorem State.SameEngine.countRebuild (s : State) (t bank : Nat) : s.SameEngine (s.countRebuild t bank) := by
  have hcount : s.SameEngine (s.modTile t fun x => { x with rebuilds := mset 0 x.rebuilds bank (mget 0 x.rebuilds bank + 1) }) :=
    .modTile s t fun _ _ => rfl
  unfold State.countRebuild
  exact .branch (hcount.trans ⟨rfl, rfl, rfl⟩) hcount

theorem State.SameEngine.noteRebuild (s : State) (t k : Nat) : s.SameEngine (s.noteRebuild t k) := by
  have hfind : s.SameEngine (s.modTile t fun x => x.findParity k) := .modTile s t fun _ _ => by
    unfold Tile.findParity
    dsimp only
    split <;> rfl
  have hcount {u : State} (hu : s.SameEngine u) (p : Prop) [Decidable p] (kind n : Nat) :
      s.SameEngine (if p then u else u.countCorrected t kind n) := .branch hu (hu.trans (.countCorrected ..))
  unfold State.noteRebuild
  exact hcount (hcount (.branch (.refl s) hfind) ..) ..

theorem State.SameEngine.noteWord (s : State) (t k : Nat) (w : WordLook) : s.SameEngine (s.noteWord t k w) := by
  unfold State.noteWord
  dsimp only
  generalize hv : ite (α := State) (w.rebuild = true) _ _ = v
  have hall : s.SameEngine v := hv ▸ .branchNext (.branchNext (.branchNext (.refl s) (.countCorrected ..)) (.countRebuild ..)) (.noteRebuild ..)
  exact .branch hall (hall.trans (.modTile _ t fun _ _ => rfl))

theorem State.SameEngine.noteEngineBytes (s : State) (t pa n : Nat) : s.SameEngine (s.noteEngineBytes t pa n) := by
  unfold State.noteEngineBytes
  split
  · exact .foldl (fun _ _ => .noteWord ..) _ s
  · exact .countSectors ..

theorem State.SameEngine.noteBeats (s : State) (t : Nat) (k : Command) (pages : Map Nat) : s.SameEngine (s.noteBeats t k pages) := by
  unfold State.noteBeats
  exact .branch (.foldl (fun u _ => .foldl (fun _ _ => .noteEngineBytes ..) _ u) _ s) (.refl s)

theorem State.SameEngine.setTlb (s : State) (t q : Nat) (l : List TlbEntry) : s.SameEngine (s.setSeq t q { s.seq t q with tlb := l }) := by
  refine .modTile s t fun r c => ?_
  rw [Tile.seq_setSeq]
  split
  · next h =>
    have hq : s.seq t q = (s.tile t).seq r := by simp only [State.seq, Tile.seq, h]
    rw [hq]
    rfl
  · rfl

theorem State.translate_sameEngine {s u : State} {t q va pa : Nat} {w nc : Bool} (h : s.translate t q va w = .ok (u, pa, nc)) :
    s.SameEngine u := by
  unfold State.translate at h
  grind [State.SameEngine.setTlb]

theorem State.translatePages_sameEngine {t q : Nat} {w : Bool} {ks : List (Nat × Nat)} {s u : State} {m : Map Nat}
    (h : s.translatePages t q w ks = .ok (u, m)) : s.SameEngine u := by
  induction ks generalizing s u m with
  | nil =>
    cases h
    exact .refl s
  | cons e ks ih =>
    unfold State.translatePages at h
    split at h
    · cases h
    rename_i hfirst
    split at h
    · cases h
    rename_i hrest
    cases h
    exact (State.translate_sameEngine hfirst).trans (ih hrest)

theorem State.framePages_sameEngine {t q list held : Nat} {w : Bool} {ks : List Nat} {s u : State} {m : Map Nat}
    (h : s.framePages t q list held w ks = .ok (u, m)) : s.SameEngine u := by
  induction ks generalizing s u m with
  | nil =>
    cases h
    exact .refl s
  | cons e ks ih =>
    unfold State.framePages at h
    split at h
    · cases h
    split at h
    · cases h
    rename_i hlist
    dsimp only at h
    split at h
    · cases h
    rename_i hframe
    split at h
    · cases h
    · rename_i hrest
      cases h
      exact (State.translate_sameEngine hlist).trans ((State.translate_sameEngine hframe).trans (ih hrest))

/-! The ticks of arrival (log 5, DESIGN CHOICE). -/

theorem arrivalTicks_length (now free n : Nat) : (arrivalTicks now free n).length = n := by
  induction n with
  | zero => rfl
  | succ n ih => simp [arrivalTicks, ih]

theorem arrivalTicks_later (now free n : Nat) : ∀ a ∈ arrivalTicks now free n, now < a := by
  induction n with
  | zero => exact fun a ha => absurd ha List.not_mem_nil
  | succ n ih =>
    intro a ha
    rw [arrivalTicks, List.mem_append, List.mem_singleton] at ha
    obtain ha | rfl := ha
    · exact ih a ha
    · omega

/-- No element of a rising list is above its last. -/
theorem le_getLastD_of_pairwise {l : List Nat} (h : l.Pairwise (· ≤ ·)) {a : Nat} (ha : a ∈ l) : a ≤ l.getLastD 0 := by
  obtain ⟨init, last, rfl⟩ := List.eq_nil_or_concat l |>.resolve_left (List.ne_nil_of_mem ha)
  rw [List.concat_eq_append] at *
  rw [List.getLastD_concat]
  rw [List.mem_append, List.mem_singleton] at ha
  obtain ha | rfl := ha
  · exact (List.pairwise_append.1 h).2.2 a ha last (List.mem_singleton.2 rfl)
  · exact le_rfl

theorem arrivalTicks_inOrder (now free n : Nat) : (arrivalTicks now free n).Pairwise (· ≤ ·) := by
  induction n with
  | zero => exact .nil
  | succ n ih =>
    rw [arrivalTicks, List.pairwise_append]
    refine ⟨ih, List.pairwise_singleton .., fun a ha b hb => ?_⟩
    rw [List.mem_singleton.1 hb]
    exact (le_getLastD_of_pairwise ih ha).trans (le_max_left ..)

/-! The happening that a queue has due, and its faults. -/

theorem State.engineEvent_of_step {s u : State} {t q c : Nat} {fs : List FaultInfo} (h : s.engineStep t q c = (u, fs)) :
    s.engineEvent t q c = u.takeDue t q fs := by
  rw [State.engineEvent, h]

/-- Without a fault nothing is taken. -/
theorem State.engineEvent_of_quiet {s u : State} {t q c : Nat} (h : s.engineStep t q c = (u, [])) : s.engineEvent t q c = u :=
  State.engineEvent_of_step h

section
variable {s : State} {t q c i : Nat} {k : Command} (hf : (s.tile t).frozen = false)
include hf

theorem State.engineStep_start (hn : s.queueNext t q c = some (0, i, k)) : s.engineStep t q c = s.copyStart t q c i k := by
  simp [State.engineStep, hf, hn]
theorem State.engineStep_read (hn : s.queueNext t q c = some (1, i, k)) : s.engineStep t q c = s.beatRead t q c i k := by
  simp [State.engineStep, hf, hn]
theorem State.engineStep_perform (hn : s.queueNext t q c = some (2, i, k)) : s.engineStep t q c = s.beatPerform t q c i k := by
  simp [State.engineStep, hf, hn]
theorem State.engineStep_fold (hn : s.queueNext t q c = some (4, i, k)) : s.engineStep t q c = s.foldBeat t q c i k := by
  simp [State.engineStep, hf, hn]
theorem State.engineStep_complete (hn : s.queueNext t q c = some (3, i, k)) : s.engineStep t q c = s.copyComplete t q c i k := by
  simp [State.engineStep, hf, hn]

end

/-! The start (R261, R264). -/

/-- The `i`-th command of a queue lets its beats begin: with its pages, the data under way and the ticks at which it arrives, and its beats read. -/
def State.beginBeats (u : State) (t q c i : Nat) (ps : Map Nat) (moving : List (Nat × List Byte × Option Poison)) (arr : List Nat) (read : Nat) : State :=
  u.modQueue t q c fun z => z.modCmd i fun k => { k with pages := some ps, moving := moving, arrivals := arr, read := read }

/-- The data of the beats, as the party reads it. -/
def State.beatData (u : State) (t q : Nat) (k : Command) (ps : Map Nat) : List (Nat × List Byte × Option Poison) :=
  (List.range k.beats).map fun j => (j, (k.pieces ps j).flatMap fun (p : Nat × Nat) => (u.engineBytes t q p.1 p.2).1,
    (k.pieces ps j).findSome? fun (p : Nat × Nat) => (u.engineBytes t q p.1 p.2).2)

theorem State.startBeats_eq_beatData {u : State} {t q : Nat} {k : Command} {ps : Map Nat} (hk : k.kind = .cpyg ∨ k.kind = .gath) :
    u.startBeats t q k ps = u.beatData t q k ps := by
  unfold State.startBeats State.beatData
  rw [if_pos (by simpa using hk)]
  refine List.map_congr_left fun j _ => ?_
  dsimp only
  rw [List.flatMap_map, List.findSome?_map]
  rfl

theorem State.copyStart_here {s u : State} {t q c i : Nat} {k : Command} {ps : Map Nat} (h : s.commandPages t q k = .ok (u, ps))
    (hg : k.kind ≠ .cpyg) (hh : k.kind ≠ .gath) : s.copyStart t q c i k = (u.beginBeats t q c i ps [] [] 0, []) := by
  simp only [State.copyStart, h, State.startBeats, State.noteBeats, hg, hh, decide_false, Bool.or_self, Bool.false_eq_true, if_false]
  rfl

theorem State.copyStart_there {s u : State} {t q c i : Nat} {k : Command} {ps : Map Nat} (h : s.commandPages t q k = .ok (u, ps))
    (hk : k.kind = .cpyg ∨ k.kind = .gath) : s.copyStart t q c i k =
      ((({ u with free := u.free + k.beats } : State).noteBeats t k ps).modQueue t q c fun z => z.modCmd i fun k' =>
        { k' with pages := some ps, moving := u.beatData t q k ps, arrivals := arrivalTicks u.gtick u.free k.beats, read := k'.beats }, []) := by
  have hr : (decide (k.kind = .cpyg) || decide (k.kind = .gath)) = true := by simpa using hk
  simp only [State.copyStart, h, State.startBeats_eq_beatData hk, hr, if_true]

/-- The command that the queue names is the one that begins. -/
theorem State.beginBeats_of_cmd {u : State} {t q c i : Nat} {k : Command} (h : (u.queueOf t q c).cmds[i]? = some k) (ps : Map Nat)
    (moving : List (Nat × List Byte × Option Poison)) (arr : List Nat) :
    (u.modQueue t q c fun z => z.modCmd i fun k' => { k' with pages := some ps, moving := moving, arrivals := arr, read := k'.beats }) =
      u.beginBeats t q c i ps moving arr k.beats := by
  have hz : (u.queueOf t q c).modCmd i (fun k' => { k' with pages := some ps, moving := moving, arrivals := arr, read := k'.beats }) =
      (u.queueOf t q c).modCmd i (fun k' => { k' with pages := some ps, moving := moving, arrivals := arr, read := k.beats }) := by
    unfold CopyQueue.modCmd
    congr 1
    refine List.ext_getElem? fun j => ?_
    rw [List.getElem?_modify, List.getElem?_modify]
    by_cases hj : i = j
    · subst hj
      rw [h]
      rfl
    · simp [hj]
  exact congrArg (fun z => u.setSeq t q ((u.seq t q).setQueue c z)) hz

/-- What a queue has due is one of its commands, at the place that it names. -/
theorem State.queueNext_cmd {s : State} {t q c kind i : Nat} {k : Command} (h : s.queueNext t q c = some (kind, i, k)) :
    (s.queueOf t q c).cmds[i]? = some k := by
  have hof {n : Nat} {p : Command × Nat → Bool}
      (hfind : (((s.queueOf t q c).cmds.zipIdx.find? p).map fun e => (n, e.2, e.1)) = some (kind, i, k)) :
      (s.queueOf t q c).cmds[i]? = some k := by
    obtain ⟨e, he, heq⟩ := Option.map_eq_some_iff.1 hfind
    cases heq
    exact List.mk_mem_zipIdx_iff_getElem?.1 (List.mem_of_find?_eq_some he)
  simp only [State.queueNext, Option.or_eq_some_iff] at h
  obtain (h | ⟨_, h⟩) | ⟨_, (h | ⟨_, h | ⟨_, h⟩⟩)⟩ := h <;> exact hof h

/-- The machine after a start that failed: the command is over, and its fault falls on the queue. -/
def State.startFails (s : State) (t q c i : Nat) (k : Command) (code addr : Nat) (record : Option Nat) : State :=
  ((s.endCommand t q c i { s.queueOf t q c with fault := true }).modSeq t q fun y => y.raiseFlag (2 + c)).takeDue t q
    [{ k.faultOf c (s.seq t q) code addr with rindex := record.getD 0xFFFFFFFF }]

section
variable {s u : State} {t q c i : Nat} {k : Command} {ps : Map Nat} (hf : (s.tile t).frozen = false)
  (hn : s.queueNext t q c = some (0, i, k))
include hf hn

theorem State.engineEvent_begins (h : s.commandPages t q k = .ok (u, ps)) (hg : k.kind ≠ .cpyg) (hh : k.kind ≠ .gath) :
    s.engineEvent t q c = u.beginBeats t q c i ps [] [] 0 :=
  State.engineEvent_of_quiet ((State.engineStep_start hf hn).trans (State.copyStart_here h hg hh))

theorem State.engineEvent_fails {code addr : Nat} {record : Option Nat} (h : s.commandPages t q k = .error (code, addr, record)) :
    s.engineEvent t q c = s.startFails t q c i k code addr record := by
  refine State.engineEvent_of_step ((State.engineStep_start hf hn).trans ?_)
  simp only [State.copyStart, h]

/-- A command that brings its data from elsewhere (R264). -/
theorem State.engineEvent_brings (h : s.commandPages t q k = .ok (u, ps)) (hk : k.kind = .cpyg ∨ k.kind = .gath)
    (hu : s.SameEngine u) : ∃ (w : State) (arr : List Nat), w.mem = s.mem ∧ arr.length = k.beats ∧
      arr.Pairwise (· ≤ ·) ∧ (∀ n ∈ arr, s.gtick < n) ∧
      s.engineEvent t q c = w.beginBeats t q c i ps (u.beatData t q k ps) arr k.beats := by
  have hnote : s.SameEngine (({ u with free := u.free + k.beats } : State).noteBeats t k ps) :=
    hu.trans (.trans (u := { u with free := u.free + k.beats }) ⟨rfl, rfl, rfl⟩ (.noteBeats ..))
  have hcmd : ((({ u with free := u.free + k.beats } : State).noteBeats t k ps).queueOf t q c).cmds[i]? = some k := by
    rw [hnote.queues]
    exact State.queueNext_cmd hn
  refine ⟨_, arrivalTicks u.gtick u.free k.beats, hnote.mem, arrivalTicks_length .., arrivalTicks_inOrder ..,
    fun n hn' => hu.gtick ▸ arrivalTicks_later _ _ _ n hn', ?_⟩
  rw [State.engineEvent_of_quiet ((State.engineStep_start hf hn).trans (State.copyStart_there h hk)), State.beginBeats_of_cmd hcmd]

end

/-! The pages of each kind (R261, R264 to R266). -/

/-- The kinds whose destination is an address of the context's own space. -/
def Command.stores (k : Command) : Prop := k.kind = .cpyw ∨ k.kind = .cpyx ∨ (k.kind = .redc ∧ redcLocal k.dst = false)

/-- A translation that failed, as the command's fault: of a request's address it is the request's (R110). -/
def Ctx.pageFault (x : Ctx) (code a : Nat) : Nat × Nat × Option Nat :=
  match x.slotOf a with
  | some (_, record) => (0x0801, a, some record)
  | none => (code, a, none)

/-- The request in the slot that an operand names; without one, a request without pages. -/
def Winnow.named (w : Winnow) (operand : Nat) : Request := match w.slots.lookup (operand % 65536) with | some e => e.2 | none => {}

/-- The frames that an operand names (R265). -/
def State.operandFrames (s : State) (t q operand len : Nat) (write : Bool) : Except Nat (State × Map Nat) :=
  s.framePages t q ((s.ctx (s.ctxOf t)).winnow.named operand).pageList ((s.ctx (s.ctxOf t)).winnow.named operand).pages write
    ((pagesOf (operand / 65536) len).map (·.1))

section
variable {s u : State} {t q : Nat} {k : Command} {ps : Map Nat}

theorem State.commandPages_local (hk : k.kind = .cpy ∨ k.kind = .cpymc ∨ (k.kind = .redc ∧ redcLocal k.dst = true)) :
    s.commandPages t q k = .ok (s, []) := by
  obtain hk | hk | ⟨hk, hd⟩ := hk
  · simp [State.commandPages, hk]
  · simp [State.commandPages, hk]
  · simp [State.commandPages, hk, Command.isGlobal, hd]

theorem State.commandPages_rows (hk : k.kind = .cpym) :
    s.commandPages t q k = .ok (s, (State.commandPages.rowsOf k).map fun row => (row, (s.tile t).physRow row)) := by
  simp [State.commandPages, hk]

theorem State.commandPages_stores (hk : k.stores) (h : s.translatePages t q true (pagesOf k.dst k.len) = .ok (u, ps))
    (hw : k.kind ≠ .cpyx ∨ u.inWindows t q ((pagesOf k.dst k.len).map (·.2)) = true) : s.commandPages t q k = .ok (u, ps) := by
  obtain hk | hk | ⟨hk, hd⟩ := hk
  · simp [State.commandPages, hk, h]
  · have hwin := hw.resolve_left (fun hne => hne hk)
    simp [State.commandPages, hk, h, hwin]
  · simp [State.commandPages, hk, h, Command.isGlobal, hd]

theorem State.commandPages_outside (hk : k.kind = .cpyx) (h : s.translatePages t q true (pagesOf k.dst k.len) = .ok (u, ps))
    (hw : u.inWindows t q ((pagesOf k.dst k.len).map (·.2)) = false) : s.commandPages t q k = .error (0x040B, k.dst, none) := by
  simp [State.commandPages, hk, h, hw]

theorem State.commandPages_fetches (hk : k.kind = .cpyg) (h : s.translatePages t q false (pagesOf k.src k.len) = .ok (u, ps)) :
    s.commandPages t q k = .ok (u, ps) := by
  simp [State.commandPages, hk, h]

theorem State.commandPages_untranslated {code a : Nat}
    (h : (k.stores ∧ s.translatePages t q true (pagesOf k.dst k.len) = .error (code, a)) ∨
      (k.kind = .cpyg ∧ s.translatePages t q false (pagesOf k.src k.len) = .error (code, a))) :
    s.commandPages t q k = .error ((s.ctx (s.ctxOf t)).pageFault code a) := by
  unfold Ctx.pageFault
  obtain ⟨hk | hk | ⟨hk, hd⟩, h⟩ | ⟨hk, h⟩ := h
  · simp only [State.commandPages, hk, h]
    cases (s.ctx (s.ctxOf t)).slotOf a <;> rfl
  · simp only [State.commandPages, hk, h]
    cases (s.ctx (s.ctxOf t)).slotOf a <;> rfl
  · simp only [State.commandPages, hk, h, Command.isGlobal, hd, Bool.not_false, if_true]
    cases (s.ctx (s.ctxOf t)).slotOf a <;> rfl
  · simp only [State.commandPages, hk, h]
    cases (s.ctx (s.ctxOf t)).slotOf a <;> rfl

theorem Winnow.named_eq (w : Winnow) (operand : Nat) : ((w.slots.lookup (operand % 65536)).map (·.2)).getD {} = w.named operand := by
  unfold Winnow.named
  cases w.slots.lookup (operand % 65536) <;> rfl

/-- The frames of a GATH's source or a SCAT's destination, or the request's fault. -/
theorem State.commandPages_frames {operand : Nat} {write : Bool}
    (hk : (k.kind = .gath ∧ operand = k.src ∧ write = false) ∨ (k.kind = .scat ∧ operand = k.dst ∧ write = true)) :
    s.commandPages t q k = match s.operandFrames t q operand k.len write with
      | .ok r => .ok r
      | .error a => .error (0x0801, a, ((s.ctx (s.ctxOf t)).winnow.slots.lookup (operand % 65536)).map (·.1)) := by
  obtain ⟨hk, rfl, rfl⟩ | ⟨hk, rfl, rfl⟩ := hk <;>
    simp only [State.commandPages, hk, Winnow.named_eq, State.operandFrames] <;> rfl

end

theorem lookup_map_of_mem (f : Nat → Nat) {row : Nat} {rows : List Nat} (h : row ∈ rows) :
    (rows.map fun row => (row, f row)).lookup row = some (f row) := by
  induction rows with
  | nil => exact absurd h List.not_mem_nil
  | cons r rs ih =>
    rw [List.map_cons, List.lookup_cons]
    by_cases hr : row = r
    · simp [hr]
    · rw [beq_false_of_ne hr]
      exact ih ((List.mem_cons.1 h).resolve_left hr)

/-- Every row that a CPYM reads has the physical row that the map names at its start. -/
theorem lookup_rowsOf {k : Command} (f : Nat → Nat) {row : Nat} (hlo : (k.src - 0x8000000) / 1024 ≤ row)
    (hhi : row ≤ (k.src - 0x8000000 + k.len - 1) / 1024) :
    ((State.commandPages.rowsOf k).map fun row => (row, f row)).lookup row = some (f row) := by
  have hmem : row ∈ State.commandPages.rowsOf k := by
    refine List.mem_map.2 ⟨row - (k.src - 0x8000000) / 1024, List.mem_range.2 ?_, ?_⟩ <;> omega
  exact lookup_map_of_mem f hmem

end Sys2Proof.Machine
end

