-- ==== Sys2Proof/Proofs/CopyBeats.lean ====
section
/-! SUPPORT. The beats of a copy command and its end (R129, R261, R264 to R272): what a happening of a queue leaves of its tile, the bytes that a beat reads
and writes, the beats still on their way, and the command that is over. -/
namespace Sys2Proof.Machine

/-! What the happenings of a queue leave as it was. -/

/-- Of tile `t` only ports, writes and what belongs to copy commands have changed, and nothing elsewhere. -/
structure State.EngineOnly (s u : State) (t q : Nat) : Prop where
  tiles : ∀ j, t ≠ j → u.tile j = s.tile j
  mem : u.mem = s.mem
  spad : (u.tile t).spad = (s.tile t).spad
  g : (u.seq t q).g = (s.seq t q).g

theorem State.EngineOnly.refl (s : State) (t q : Nat) : s.EngineOnly s t q := ⟨fun _ _ => rfl, rfl, rfl, rfl⟩
theorem State.EngineOnly.trans {s u v : State} {t q : Nat} (h : s.EngineOnly u t q) (h' : u.EngineOnly v t q) : s.EngineOnly v t q :=
  ⟨fun j hj => (h'.tiles j hj).trans (h.tiles j hj), h'.mem.trans h.mem, h'.spad.trans h.spad, h'.g.trans h.g⟩

theorem State.EngineOnly.modTile (s : State) (t q : Nat) {f : Tile → Tile} (hs : (f (s.tile t)).spad = (s.tile t).spad)
    (hg : ((f (s.tile t)).seq q).g = (s.seq t q).g) : s.EngineOnly (s.modTile t f) t q :=
  ⟨fun _ hj => s.tile_modTile_other f hj, rfl, by rw [State.tile_modTile_same]; exact hs, by
    rw [State.seq_modTile, if_pos rfl]
    exact hg⟩

theorem Tile.setSeq_spad (x : Tile) (q : Nat) (y : Seq) : (x.setSeq q y).spad = x.spad := by
  unfold Tile.setSeq
  split <;> rfl
theorem Tile.setSeq_writes (x : Tile) (q : Nat) (y : Seq) : (x.setSeq q y).writes = x.writes := by
  unfold Tile.setSeq
  split <;> rfl
theorem Tile.setSeq_inbound (x : Tile) (q : Nat) (y : Seq) : (x.setSeq q y).inbound = x.inbound := by
  unfold Tile.setSeq
  split <;> rfl
theorem Tile.rowMeets_setSeq (x : Tile) (q : Nat) (y : Seq) (handler : Bool) (ks : List Nat) :
    (x.setSeq q y).rowMeets handler ks = x.rowMeets handler ks := by
  unfold Tile.setSeq
  split <;> rfl
theorem Tile.plain_setSeq {x : Tile} {a n : Nat} (h : x.plain a n) (q : Nat) (y : Seq) : (x.setSeq q y).plain a n := by
  unfold Tile.setSeq
  split <;> exact h
theorem Tile.spadBytes_setSeq (x : Tile) (q : Nat) (y : Seq) (a n : Nat) : (x.setSeq q y).spadBytes a n = x.spadBytes a n := by
  unfold Tile.setSeq
  split <;> rfl
theorem Seq.g_setQueue (y : Seq) (c : Nat) (z : CopyQueue) : (y.setQueue c z).g = y.g := by
  unfold Seq.setQueue
  split <;> rfl
theorem Seq.clock_setQueue (y : Seq) (c : Nat) (z : CopyQueue) : (y.setQueue c z).clock = y.clock := by
  unfold Seq.setQueue
  split <;> rfl

theorem State.EngineOnly.modSeq (s : State) (t q : Nat) {f : Seq → Seq} (hg : (f (s.seq t q)).g = (s.seq t q).g) : s.EngineOnly (s.modSeq t q f) t q :=
  .modTile s t q (f := (·.setSeq q (f (s.seq t q)))) (Tile.setSeq_spad ..) (by rw [Tile.seq_setSeq_same]; exact hg)

theorem State.EngineOnly.modQueue (s : State) (t q c : Nat) (f : CopyQueue → CopyQueue) : s.EngineOnly (s.modQueue t q c f) t q :=
  .modSeq s t q (Seq.g_setQueue ..)

theorem State.EngineOnly.useWords (t q rank : Nat) (ks : List Nat) (s : State) : s.EngineOnly (s.useWords t rank ks) t q :=
  List.foldlRecOn (motive := fun u : State => s.EngineOnly u t q) ks _ (.refl s t q) fun u hu _ _ => hu.trans (.modTile u t q rfl rfl)

@[simp] theorem State.queueOf_modQueue (s : State) (t q c : Nat) (f : CopyQueue → CopyQueue) :
    (s.modQueue t q c f).queueOf t q c = f (s.queueOf t q c) := by
  simp [State.queueOf, State.modQueue, Seq.queue_setQueue]

theorem State.tile_modQueue (s : State) (t q c : Nat) (f : CopyQueue → CopyQueue) :
    (s.modQueue t q c f).tile t = (s.tile t).setSeq q ((s.seq t q).setQueue c (f (s.queueOf t q c))) := by
  unfold State.modQueue State.modSeq
  rw [State.tile_setSeq, if_pos rfl]
  rfl

theorem State.modQueue_congr {s : State} {t q c : Nat} {f g : CopyQueue → CopyQueue} (h : f (s.queueOf t q c) = g (s.queueOf t q c)) :
    s.modQueue t q c f = s.modQueue t q c g :=
  congrArg (fun z => s.setSeq t q ((s.seq t q).setQueue c z)) h

/-! A beat is read (R264, R268). -/

theorem State.beatRead_plain {s : State} {t q c i : Nat} {k : Command} (hk : k.kind ≠ .cpym)
    (hp : (s.tile t).plain ((spadOffset k.src k.len).getD 0 + 64 * k.read) (k.beatLen k.read))
    (hm : (s.tile t).rowMeets false (wordsOf ((spadOffset k.src k.len).getD 0 + 64 * k.read) (k.beatLen k.read)) = false) :
    ∃ u, s.beatRead t q c i k = (u, []) ∧ s.EngineOnly u t q ∧
      u.queueOf t q c = { s.queueOf t q c with cmds := (s.queueOf t q c).cmds.modify i fun k' =>
        { k' with read := k.read + 1,
                  moving := k'.moving ++ [(k.read, (s.tile t).spadBytes ((spadOffset k.src k.len).getD 0 + 64 * k.read) (k.beatLen k.read), none)] } } := by
  generalize hoff : (spadOffset k.src k.len).getD 0 + 64 * k.read = off at hp hm ⊢
  have htile := s.tile_modQueue t q c fun z => z.modCmd i fun k' => { k' with read := k.read + 1 }
  have hmeets := (congrArg (fun x => x.rowMeets false (wordsOf off (k.beatLen k.read))) htile).trans ((Tile.rowMeets_setSeq ..).trans hm)
  have hread := State.readSpad_plain (s.modQueue t q c fun z => z.modCmd i fun k' => { k' with read := k.read + 1 }) t (engineRank q c) off
    (k.beatLen k.read) (htile ▸ Tile.plain_setSeq hp _ _)
  unfold State.beatRead
  dsimp only
  rw [if_neg hk, hoff, hmeets, if_neg Bool.false_ne_true, hread, htile, Tile.spadBytes_setSeq]
  refine ⟨_, rfl, (State.EngineOnly.modQueue ..).trans ((State.EngineOnly.useWords ..).trans (.modQueue ..)), ?_⟩
  rw [State.queueOf_modQueue, State.queueOf, State.useWords_seq, ← State.queueOf, State.queueOf_modQueue]
  simp only [CopyQueue.modCmd, List.modify_modify_eq, Function.comp_def]

/-! Beats on their way (R128, R412). -/

theorem mem_of_mem_merase {α : Type} {m : Map α} {k : Nat} {e : Nat × α} (h : e ∈ merase m k) : e ∈ m := by
  induction m with
  | nil => exact h
  | cons a m ih =>
    unfold merase at h
    split at h
    · exact .tail _ (ih h)
    · obtain _ | ⟨_, h⟩ := h
      · exact .head _
      · exact .tail _ (ih h)

theorem mem_of_mem_mset {α : Type} [DecidableEq α] {d v : α} {m : Map α} {k : Nat} {e : Nat × α} (h : e ∈ mset d m k v) : e = (k, v) ∨ e ∈ m := by
  induction m with
  | nil =>
    unfold mset at h
    split at h
    · exact absurd h List.not_mem_nil
    · exact .inl (List.mem_singleton.1 h)
  | cons a m ih =>
    unfold mset at h
    have herase (hm : e ∈ merase m k) : e ∈ a :: m := .tail _ (mem_of_mem_merase hm)
    split at h
    · split at h
      · exact .inr (herase h)
      · exact (List.mem_cons.1 h).imp id herase
    split at h
    · split at h
      · exact .inr ((List.mem_cons.1 h).elim (fun he => List.mem_cons.2 (.inl he)) herase)
      · exact (List.mem_cons.1 h).imp id fun h => (List.mem_cons.1 h).elim (fun he => List.mem_cons.2 (.inl he)) herase
    · obtain h | h := List.mem_cons.1 h
      · exact .inr (h ▸ .head _)
      · exact (ih h).imp id (.tail _)

theorem mget_eq_or_mem {α : Type} (d : α) (m : Map α) (k : Nat) : mget d m k = d ∨ (k, mget d m k) ∈ m := by
  induction m with
  | nil => exact .inl rfl
  | cons e m ih =>
    unfold mget
    split
    · next h => exact .inr (h ▸ .head _)
    · exact ih.imp id (.tail _)

/-- No write of sequencer number `me` that waits, at an inbound port or for an aperture, has the name `n`. -/
structure State.NotOnItsWay (s : State) (me : Nat) (n : Option (Nat × Nat × Nat)) : Prop where
  aperture : ∀ e ∈ s.aperture, e.2.issuer = me → e.2.cmd ≠ n
  inbound : ∀ e ∈ s.tiles, ∀ b ∈ e.2.inbound, b.issuer = me → b.cmd ≠ n

/-- What leaves the inbound port of its tile leaves the writes on their way. -/
theorem State.NotOnItsWay.modTile {s : State} {me : Nat} {n : Option (Nat × Nat × Nat)} (h : s.NotOnItsWay me n) {t : Nat} {f : Tile → Tile}
    (hf : (f (s.tile t)).inbound = (s.tile t).inbound) : (s.modTile t f).NotOnItsWay me n := by
  refine ⟨h.aperture, fun e he b hb => ?_⟩
  obtain rfl | he := mem_of_mem_mset he
  · rw [hf] at hb
    obtain hd | hm := mget_eq_or_mem ({} : Tile) s.tiles t
    · rw [State.tile, hd] at hb
      exact absurd hb List.not_mem_nil
    · exact h.inbound _ hm b hb
  · exact h.inbound e he b hb

theorem State.NotOnItsWay.modQueue {s : State} {me : Nat} {n : Option (Nat × Nat × Nat)} (h : s.NotOnItsWay me n) (t q c : Nat)
    (f : CopyQueue → CopyQueue) : (s.modQueue t q c f).NotOnItsWay me n :=
  h.modTile (f := (·.setSeq q ((s.seq t q).setQueue c (f (s.queueOf t q c))))) (Tile.setSeq_inbound ..)

/-- A write that has to wait at its port is one of those that were there. -/
theorem Tile.inboundSplit_waiting (x : Tile) (tick : Nat) (ahead : List Nat) {b : Inbound} (hb : b ∈ (x.inboundSplit tick ahead).2) :
    ∃ e ∈ x.inbound, b.issuer = e.issuer ∧ b.cmd = e.cmd := by
  revert b
  unfold Tile.inboundSplit
  dsimp only
  refine List.foldlRecOn (motive := fun acc : List Inbound × List Inbound × List Nat => ∀ {b : Inbound}, b ∈ acc.2.1 →
    ∃ e ∈ x.inbound, b.issuer = e.issuer ∧ b.cmd = e.cmd) _ _ ?_ fun acc hacc e he b hb => ?_
  · exact fun {b} hb => ⟨b, (List.mem_filter.1 hb).1, rfl, rfl⟩
  · have hin : e ∈ x.inbound :=
      (List.mem_filter.1 (List.mem_filter.1 ((sortKey_by Inbound.issuer _).1.mem_iff.1 he)).1).1
    split at hb
    · obtain hb | hb := List.mem_append.1 hb
      · exact hacc hb
      · exact ⟨e, hin, List.mem_singleton.1 hb ▸ ⟨rfl, rfl⟩⟩
    · exact hacc hb

/-- The beat that a write on its way is, of a command of queue `c` that starts at step `start`. -/
theorem State.not_mem_beatsLeft {s : State} {t q c j : Nat} {k : Command} (h : s.NotOnItsWay (seqNumber t q) (k.name c j)) : j ∉ s.beatsLeft t q c k := by
  have hmine {e : Inbound} (he : e.issuer = seqNumber t q → e.cmd ≠ k.name c j) :
      (match e.cmd with
        | some (c', start, j') => if e.issuer = seqNumber t q ∧ c' = c ∧ start = k.start then some j' else none
        | none => none : Option Nat) ≠ some j := by
    intro hj
    split at hj
    · next hcmd =>
      split at hj
      · next hc =>
        cases hj
        exact he hc.1 (by rw [hcmd, hc.2.1, hc.2.2]; rfl)
      · cases hj
    · cases hj
  intro hj
  unfold State.beatsLeft at hj
  obtain hj | hj := List.mem_append.1 hj
  · obtain ⟨e, he, hj⟩ := List.mem_filterMap.1 hj
    exact hmine (h.aperture e he) hj
  · obtain ⟨e, he, hj⟩ := List.mem_flatMap.1 hj
    split at hj
    · obtain ⟨b, hb, hj⟩ := List.mem_filterMap.1 hj
      obtain ⟨b', hb', hissuer, hcmd⟩ := Tile.inboundSplit_waiting _ _ _ hb
      exact hmine (hissuer ▸ hcmd ▸ h.inbound e he b' hb') hj
    · exact absurd hj List.not_mem_nil

/-! A beat performs in the own scratchpad (R127, R129, R268). -/

/-- The kinds that write the own scratchpad where their destination lies in it. -/
def Command.staysHere (k : Command) : Prop :=
  (k.kind = .cpy ∨ k.kind = .cpym ∨ k.kind = .cpyg ∨ k.kind = .gath ∨ k.kind = .redc) ∧ k.dst < 0x200000

theorem Command.staysHere.spec {k : Command} (h : k.staysHere) :
    k.kind ≠ .cpyx ∧ k.kind ≠ .scat ∧ k.kind ≠ .cpymc ∧ k.isGlobal = false ∧ k.toMember = false := by
  obtain ⟨hk, hd⟩ := h
  have hlow : ¬ (0x1000000 ≤ k.dst) := by omega
  obtain hk | hk | hk | hk | hk := hk <;> simp [hk, Command.isGlobal, Command.toMember, redcLocal, hd, hlow]

/-- The write of a beat, and the ports that it uses. -/
def Tile.beatWritten (x : Tile) (q c key : Nat) (ks : List Nat) (w : LocalWrite) : Tile :=
  let z := ks.foldl (fun (x : Tile) b => x.use { port := b % 16, write := true, rank := engineRank q c }) x
  { z with writes := z.writes ++ [(key, w)] }

theorem Tile.beatWritten_eq (x : Tile) (q c key : Nat) (ks : List Nat) (w : LocalWrite) :
    ∃ us, x.beatWritten q c key ks w = { x with uses := us, writes := x.writes ++ [(key, w)] } := by
  have huse : ∃ us, ks.foldl (fun (x : Tile) b => x.use { port := b % 16, write := true, rank := engineRank q c }) x = { x with uses := us } :=
    List.foldlRecOn (motive := fun z : Tile => ∃ us, z = { x with uses := us }) ks _ ⟨x.uses, rfl⟩ fun z hz b _ => by
      obtain ⟨us, rfl⟩ := hz
      exact ⟨_, rfl⟩
  obtain ⟨us, h⟩ := huse
  exact ⟨us, by rw [Tile.beatWritten, h]⟩

theorem State.beatWrite_here {s : State} {t q c i j : Nat} {k : Command} {bs : List Byte} {p : Option Poison} (h : k.staysHere) :
    s.beatWrite t q c i k j bs p = s.modTile t fun x => x.beatWritten q c (writeKey ((s.seq t q).clock - (k.start + k.base + j)) (engineRank q c))
      (wordsOf ((spadOffset k.dst k.len).getD 0 + 64 * j) bs.length)
      { bytes := cellsFrom ((spadOffset k.dst k.len).getD 0 + 64 * j) bs, poison := p, add := k.kind = .redc, issuer := seqNumber t q } := by
  obtain ⟨hx, hs, hm, hg, ht⟩ := h.spec
  unfold State.beatWrite
  dsimp only
  rw [if_neg hx, if_neg hs, hg, if_neg Bool.false_ne_true, if_neg hm, ht, if_neg Bool.false_ne_true]
  rfl

/-- The command after its beat `j` has performed. -/
def Command.afterBeat (k : Command) (j : Nat) : Command :=
  { k with done := j + 1, moving := k.moving.filter (·.1 != j), arrivals := k.arrivals.tail }

/-- A beat whose banks no atomic holds performs, and folds where nothing of its command is still on its way. -/
theorem State.beatPerform_folds {s v : State} {t q c i : Nat} {k : Command} {bs : List Byte} (hx : k.kind ≠ .cpyx)
    (hb : k.moving.lookup k.done = some (bs, none)) (hu : k.unfolded = [])
    (hm : ((s.modQueue t q c fun z => z.modCmd i fun k' => k'.afterBeat k.done).tile t).rowMeets false
      (wordsOf ((spadOffset k.dst k.len).getD 0 + 64 * k.done) bs.length) = false)
    (hv : (s.modQueue t q c fun z => z.modCmd i fun k' => k'.afterBeat k.done).beatWrite t q c i k k.done bs none = v)
    (hleft : k.done ∉ v.beatsLeft t q c k) :
    s.beatPerform t q c i k = (if k.fold then v.modQueue t q c fun z => z.foldBytes k bs else v, []) := by
  unfold Command.afterBeat at hm hv
  unfold State.beatPerform
  dsimp only
  rw [hb]
  dsimp only
  rw [hm, Bool.and_false, if_neg Bool.false_ne_true, hv, hu]
  cases k.fold <;> simp [hx, hleft]

/-- The tile after the write of a beat into its scratchpad. -/
theorem State.beatWrite_leaves {s v : State} {t q c i j : Nat} {k : Command} {bs : List Byte} (h : k.staysHere)
    (hv : s.beatWrite t q c i k j bs none = v) : s.EngineOnly v t q ∧ v.queueOf t q c = s.queueOf t q c ∧
      (v.tile t).writes = (s.tile t).writes ++ [(writeKey ((s.seq t q).clock - (k.start + k.base + j)) (engineRank q c),
        { bytes := cellsFrom ((spadOffset k.dst k.len).getD 0 + 64 * j) bs, add := decide (k.kind = .redc), issuer := seqNumber t q })] ∧
      ∀ {me n}, s.NotOnItsWay me n → v.NotOnItsWay me n := by
  rw [State.beatWrite_here h] at hv
  obtain ⟨us, hwritten⟩ := (s.tile t).beatWritten_eq q c (writeKey ((s.seq t q).clock - (k.start + k.base + j)) (engineRank q c))
    (wordsOf ((spadOffset k.dst k.len).getD 0 + 64 * j) bs.length)
    { bytes := cellsFrom ((spadOffset k.dst k.len).getD 0 + 64 * j) bs, add := decide (k.kind = .redc), issuer := seqNumber t q }
  subst hv
  refine ⟨.modTile s t q ?_ ?_, ?_, ?_, fun hn => hn.modTile ?_⟩
  · rw [hwritten]
  · rw [hwritten]
    rfl
  · unfold State.queueOf
    rw [State.seq_modTile, if_pos rfl, hwritten]
    rfl
  · rw [State.tile_modTile_same, hwritten]
  · rw [hwritten]

theorem State.beatPerform_here {s : State} {t q c i : Nat} {k : Command} {bs : List Byte} (h : k.staysHere)
    (hb : k.moving.lookup k.done = some (bs, none)) (hu : k.unfolded = [])
    (hm : (s.tile t).rowMeets false (wordsOf ((spadOffset k.dst k.len).getD 0 + 64 * k.done) bs.length) = false)
    (hw : s.NotOnItsWay (seqNumber t q) (k.name c k.done)) : ∃ u, s.beatPerform t q c i k = (u, []) ∧ s.EngineOnly u t q ∧
      (u.tile t).writes = (s.tile t).writes ++ [(writeKey ((s.seq t q).clock - (k.start + k.base + k.done)) (engineRank q c),
        { bytes := cellsFrom ((spadOffset k.dst k.len).getD 0 + 64 * k.done) bs, add := decide (k.kind = .redc), issuer := seqNumber t q })] ∧
      u.queueOf t q c = { s.queueOf t q c with
        cmds := (s.queueOf t q c).cmds.modify i fun k' => k'.afterBeat k.done,
        run := if k.fold then BitVec.ofNat 32 (bs.foldl crcByte (s.queueOf t q c).run.toNat) else (s.queueOf t q c).run } := by
  obtain ⟨s', hs'⟩ : ∃ s', (s.modQueue t q c fun z => z.modCmd i fun k' => k'.afterBeat k.done) = s' := ⟨_, rfl⟩
  have htile := hs' ▸ s.tile_modQueue t q c fun z => z.modCmd i fun k' => k'.afterBeat k.done
  have hclock : (s'.seq t q).clock = (s.seq t q).clock := by
    rw [← hs', State.modQueue, State.seq_modSeq_same, Seq.clock_setQueue]
  obtain ⟨v, hv⟩ : ∃ v, s'.beatWrite t q c i k k.done bs none = v := ⟨_, rfl⟩
  obtain ⟨honly, hqueue, hwrites, hway⟩ := State.beatWrite_leaves h hv
  have hperform := State.beatPerform_folds (v := v) (i := i) h.spec.1 hb hu
    (by rw [hs', htile, Tile.rowMeets_setSeq]; exact hm) (by rw [hs']; exact hv)
    (State.not_mem_beatsLeft (hway (hs' ▸ hw.modQueue ..)))
  replace honly : s.EngineOnly v t q := .trans (hs' ▸ .modQueue ..) honly
  replace hqueue : v.queueOf t q c = (s.queueOf t q c).modCmd i fun k' => k'.afterBeat k.done := by
    rw [hqueue, ← hs', State.queueOf_modQueue]
  rw [hclock, htile, Tile.setSeq_writes] at hwrites
  refine ⟨_, hperform, ?_⟩
  cases hf : k.fold with
  | false => exact ⟨honly, hwrites, by rw [if_neg Bool.false_ne_true, if_neg Bool.false_ne_true, hqueue]; rfl⟩
  | true =>
    rw [if_pos rfl, if_pos rfl]
    refine ⟨honly.trans (.modQueue ..), ?_, ?_⟩
    · rw [State.tile_modQueue, Tile.setSeq_writes, hwrites]
    · rw [State.queueOf_modQueue, hqueue, CopyQueue.foldBytes, if_pos hf]
      rfl

end Sys2Proof.Machine
end

