-- ==== Sys2Proof/Proofs/CopyEnds.lean ====
section
/-! SUPPORT. A copy command is over (R201, R261, R270, R272), the fault of a running value that differs (R339, R343), acknowledgments (R266, R270), and the
obligation. -/
namespace Sys2Proof.Machine

/-! The command leaves its queue. -/

/-- A queue without its `i`-th command. -/
def CopyQueue.without (z : CopyQueue) (i : Nat) : CopyQueue := { z with cmds := z.cmds.eraseIdx i, recent := z.recent && i + 1 != z.cmds.length }

/-- A queue as the `i`-th command leaves it: both values cleared under .LAST (R270). -/
def CopyQueue.ended (z : CopyQueue) (k : Command) : CopyQueue :=
  { z with run := if k.last then 0 else z.run, expect := if k.last then 0 else z.expect }

theorem State.endCommand_seq (s : State) (t q c i : Nat) (z : CopyQueue) : ∃ w l,
    (s.endCommand t q c i z).seq t q = { (s.seq t q).setQueue c (z.without i) with l := l, waitGo := w } := by
  unfold State.endCommand
  dsimp only
  rw [State.seq_modTile, if_pos rfl]
  unfold State.modSeq
  rw [State.tile_setSeq, if_pos rfl]
  by_cases hq : q = 0
  · simp only [Tile.seq, Tile.setSeq, hq, if_true]
    exact ⟨_, _, rfl⟩
  · simp only [Tile.seq, Tile.setSeq, hq, if_false]
    exact ⟨_, _, rfl⟩

theorem State.queueOf_endCommand (s : State) (t q c i : Nat) (z : CopyQueue) : (s.endCommand t q c i z).queueOf t q c = z.without i := by
  obtain ⟨w, l, h⟩ := s.endCommand_seq t q c i z
  have hqueue (y : Seq) : ({ y with l := l, waitGo := w } : Seq).queue c = y.queue c := rfl
  rw [State.queueOf, h, hqueue, Seq.queue_setQueue, if_pos Iff.rfl]

theorem State.endCommand_handler (s : State) (t q c i : Nat) (z : CopyQueue) : ((s.endCommand t q c i z).seq t q).handler = (s.seq t q).handler := by
  obtain ⟨w, l, h⟩ := s.endCommand_seq t q c i z
  rw [h]
  unfold Seq.setQueue
  split <;> rfl

theorem State.EngineOnly.endCommand (s : State) (t q c i : Nat) (z : CopyQueue) : s.EngineOnly (s.endCommand t q c i z) t q := by
  obtain ⟨w, l, h⟩ := s.endCommand_seq t q c i z
  have hg : ((s.endCommand t q c i z).seq t q).g = (s.seq t q).g := by
    rw [h]
    exact Seq.g_setQueue ..
  refine ⟨fun j hj => ?_, rfl, ?_, hg⟩
  · unfold State.endCommand State.modSeq
    rw [State.tile_modTile_other _ _ hj, State.tile_setSeq, if_neg hj]
  · unfold State.endCommand State.modSeq
    rw [State.tile_modTile_same, State.tile_setSeq, if_pos rfl]
    exact Tile.setSeq_spad ..

/-- The fault of a running value that differs from what was expected (R270). -/
def CopyQueue.differs (z : CopyQueue) (c : Nat) (y : Seq) (k : Command) : FaultInfo :=
  { k.faultOf c y 0x0602 0 with aux0 := z.run.toNat, aux1 := z.expect.toNat }

theorem State.copyComplete_agrees {s : State} {t q c i : Nat} {k : Command}
    (h : k.compare = false ∨ (s.queueOf t q c).run = (s.queueOf t q c).expect) :
    s.copyComplete t q c i k = (s.endCommand t q c i ((s.queueOf t q c).ended k), []) := by
  have hbad : (k.compare && (s.queueOf t q c).run != (s.queueOf t q c).expect) = false := by
    obtain h | h := h <;> simp [h]
  unfold State.copyComplete
  simp only [hbad, Bool.or_false, Bool.false_eq_true, if_false]
  rfl

theorem State.copyComplete_differs {s : State} {t q c i : Nat} {k : Command} (hc : k.compare = true)
    (h : (s.queueOf t q c).run ≠ (s.queueOf t q c).expect) :
    s.copyComplete t q c i k = ((s.endCommand t q c i { (s.queueOf t q c).ended k with fault := true }).modSeq t q fun y => y.raiseFlag (2 + c),
      [(s.queueOf t q c).differs c (s.seq t q) k]) := by
  have hbad : (k.compare && (s.queueOf t q c).run != (s.queueOf t q c).expect) = true := by simp [hc, h]
  unfold State.copyComplete
  simp only [hbad, Bool.or_true, if_true]
  rfl

/-! A fault that is taken leaves its record and the queue's fault flag (R201, R339, R342). -/

/-- The fault `f` is the last of the log, and the queue's fault flag stands. -/
structure State.Flagged (u : State) (t q c : Nat) (f : FaultInfo) : Prop where
  record : ∃ r, u.log.getLast? = some r ∧ r.info.code = f.code ∧ r.info.aux0 = f.aux0 ∧ r.info.aux1 = f.aux1
  fault : (u.queueOf t q c).fault = true

section
variable {s u v : State} {t q c : Nat} {f : FaultInfo}

theorem State.Flagged.ofRecord (h : (s.queueOf t q c).fault = true) (x : Nat) (r : FaultRecord) (hc : r.info.code = f.code)
    (h0 : r.info.aux0 = f.aux0) (h1 : r.info.aux1 = f.aux1) : (s.record x r).Flagged t q c f := by
  refine ⟨⟨_, s.record_last x r, hc, h0, h1⟩, ?_⟩
  rw [(State.SameEngine.record s x r).queues]
  exact h

theorem State.Flagged.modTile (h : u.Flagged t q c f) {g : Tile → Tile} (hg : (((g (u.tile t)).seq q).queue c).fault = true) :
    (u.modTile t g).Flagged t q c f := by
  refine ⟨h.record, ?_⟩
  rw [State.queueOf, State.seq_modTile, if_pos rfl]
  exact hg

theorem State.Flagged.same (h : u.Flagged t q c f) (hl : v.log = u.log) (ht : v.tiles = u.tiles) : v.Flagged t q c f := by
  refine ⟨by rw [hl]; exact h.record, ?_⟩
  have hq : v.queueOf t q c = u.queueOf t q c := congrArg (fun ts => (Tile.seq (mget ({} : Tile) ts t) q).queue c) ht
  rw [hq]
  exact h.fault

end

theorem Seq.stopTask_fault (y : Seq) (c : Nat) : (y.stopTask.queue c).fault = (y.queue c).fault := by
  unfold Seq.stopTask Seq.queue
  split <;> rfl

theorem State.takeLocal_flagged {s : State} {t q c : Nat} (f : FaultInfo) (due : Nat) (h : (s.queueOf t q c).fault = true) :
    (s.takeLocal t q f due).Flagged t q c f := by
  have hstop (v : State) (hv : (v.queueOf t q c).fault = true) (pc : Nat) : (({ (v.seq t q).stopTask with pc := pc } : Seq).queue c).fault = true :=
    (Seq.stopTask_fault ..).trans hv
  have hset (z : Tile) {y : Seq} (hy : (y.queue c).fault = true) : (((z.setSeq q y).seq q).queue c).fault = true := by
    rw [Tile.seq_setSeq_same]
    exact hy
  unfold State.takeLocal
  dsimp only [State.recordOnce]
  split
  · generalize hv : s.record _ _ = v
    have hr : v.Flagged t q c f := hv ▸ .ofRecord h _ _ rfl rfl rfl
    exact hr.modTile (hset _ (hstop _ hr.fault _))
  split
  · generalize hv : s.record _ _ = v
    have hr : v.Flagged t q c f := hv ▸ .ofRecord h _ _ rfl rfl rfl
    generalize hy : ({ s.seq t q with regions := _, record := _, fstep := _, fresume := _, pc := _, taken := _, skipLeft := _, handler := _ } : Seq) = y
    have hyf : (y.queue c).fault = true := hy ▸ h
    exact hr.modTile (hset _ hyf)
  · generalize hv : s.record _ _ = v
    have hr : v.Flagged t q c f := hv ▸ .ofRecord h _ _ rfl rfl rfl
    generalize hy : ite (α := Seq) ((s.ctx (s.ctxOf t)).thirdFault = true) _ _ = y
    have hyf : (y.queue c).fault = true := by
      rw [← hy]
      split <;> exact (Seq.stopTask_fault (s.seq t q) c).trans h
    have hset : (v.modTile t fun z => { z.setSeq q y with trap := leaveTrap z.trap q v.gtick }).Flagged t q c f := hr.modTile (hset _ hyf)
    split
    · exact hset.same (State.endPartition_log ..) (State.endPartition_tiles ..)
    · exact hset.same rfl rfl

/-- The stack of regions and the results in flight are all that a settling changes (R371, R372). -/
theorem Seq.settleRegions_eq (y : Seq) : ∃ fl hfl rs, y.settleRegions = { y with flights := fl, hflights := hfl, regions := rs } := by
  unfold Seq.settleRegions
  refine List.foldlRecOn (motive := fun z : Seq => ∃ fl hfl rs, z = { y with flights := fl, hflights := hfl, regions := rs }) _ _
    ⟨_, _, _, rfl⟩ fun z hz f hf => ?_
  have hremoved : ∃ fl hfl rs, z.removeFlight f = { y with flights := fl, hflights := hfl, regions := rs } := by
    obtain ⟨fl, hfl, rs, rfl⟩ := hz
    unfold Seq.removeFlight
    split
    · exact ⟨_, _, _, rfl⟩
    · exact ⟨_, _, _, rfl⟩
  obtain ⟨fl, hfl, rs, hz⟩ := hremoved
  have hregion : f.region = true := (List.mem_filter.1 hf).2
  unfold Flight.region at hregion
  rw [hz]
  unfold Seq.landReg
  split at hregion
  · next ha =>
    rw [ha]
    dsimp only
    split
    · exact ⟨_, _, _, rfl⟩
    · exact ⟨_, _, _, rfl⟩
  · next ha =>
    rw [ha]
    exact ⟨_, _, _, rfl⟩
  · exact absurd hregion Bool.false_ne_true

/-- A fault that its sequencer takes outside a handler, at the level of its task (R337, R343). -/
theorem State.takeDue_flagged {s : State} {t q c : Nat} {f : FaultInfo} (h : (s.queueOf t q c).fault = true) (hh : (s.seq t q).handler = none)
    (hcode : f.code ≠ 0x0801 ∧ partitionCode f.code = false ∧ f.code ≠ 0x0C03) : (s.takeDue t q [f]).Flagged t q c f := by
  obtain ⟨hrequest, hpart, hplan⟩ := hcode
  obtain ⟨fl, hfl, rs, hy⟩ := (s.seq t q).settleRegions_eq
  have hseq : (s.modSeq t q (·.settleRegions)).seq t q = { s.seq t q with flights := fl, hflights := hfl, regions := rs } := by
    rw [State.seq_modSeq_same, hy]
  have hfault : ((s.modSeq t q (·.settleRegions)).queueOf t q c).fault = true := by
    rw [State.queueOf, hseq]
    exact h
  have hnow : ((s.modSeq t q (·.settleRegions)).seq t q).handler = none := by
    rw [hseq]
    exact hh
  have htake : s.takeDue t q [f] = (s.modSeq t q (·.settleRegions)).takeLocal t q f ((s.modSeq t q (·.settleRegions)).seq t q).pc := by
    unfold State.takeDue
    simp only [List.isEmpty_cons, Bool.false_eq_true, if_false, List.foldl_cons, List.foldl_nil, hnow, Option.any_none, Bool.false_and]
    unfold State.takeFault
    dsimp only
    rw [if_neg hrequest, hpart, if_neg Bool.false_ne_true, if_neg hplan]
  rw [htake]
  exact State.takeLocal_flagged f _ hfault

/-! Acknowledgments (R266, R270). -/

/-- The oldest acknowledgment of a command is counted, and the bytes that the target wrote are folded. -/
theorem State.cpyxAck_counts {s : State} {t q c i back : Nat} {k : Command} {bs : List Byte} {rest : List (Nat × List Byte)}
    (hd : (s.queueOf t q c).ackDue s.gtick = some (k, i)) (hk : k.kind = .cpyx) (ha : k.acks = (back, bs) :: rest) (hn : k.acked + 1 < k.beats) :
    s.cpyxAck t q c = (s.modQueue t q c fun z => { z with
      cmds := z.cmds.modify i fun _ => { k with acks := rest, acked := k.acked + 1 },
      run := if k.fold then BitVec.ofNat 32 (bs.foldl crcByte z.run.toNat) else z.run }, []) := by
  have hmore : (({ k with acks := rest, acked := k.acked + 1 } : Command).complete) = false := by
    have hne : (k.acked + 1 == k.beats) = false := beq_false_of_ne (Nat.ne_of_lt hn)
    show (_ && (k.kind != .cpyx || k.acked + 1 == k.beats)) = false
    simp [hk, hne]
  have hfold (z : CopyQueue) : (z.foldBytes k bs).modCmd i (fun _ => { k with acks := rest, acked := k.acked + 1 }) = { z with
      cmds := z.cmds.modify i fun _ => { k with acks := rest, acked := k.acked + 1 },
      run := if k.fold then BitVec.ofNat 32 (bs.foldl crcByte z.run.toNat) else z.run } := by
    unfold CopyQueue.foldBytes CopyQueue.modCmd
    split <;> rfl
  unfold State.cpyxAck
  simp only [hd, ha, List.head?_cons, Option.map_some, Option.getD_some, List.tail_cons, hmore, Bool.false_eq_true, if_false, hfold]

theorem modify_append_cons {α : Type} (f : α → α) (pre post : List α) (a : α) : (pre ++ a :: post).modify pre.length f = pre ++ f a :: post := by
  induction pre with
  | nil => rfl
  | cons b pre ih => rw [List.cons_append, List.length_cons, List.modify_succ_cons, ih, List.cons_append]

/-- The first command with an acknowledgment to come has what the target wrote for its oldest beat. -/
theorem CopyQueue.targetWrote_first {z : CopyQueue} {pre post : List Command} {k : Command} {back : Nat} {bs new : List Byte}
    {rest : List (Nat × List Byte)} (hz : z.cmds = pre ++ k :: post) (hpre : ∀ j ∈ pre, j.acks = []) (ha : k.acks = (back, bs) :: rest)
    (hlen : new.length = bs.length) : z.targetWrote new = { z with cmds := pre ++ { k with acks := (back, new) :: rest } :: post } := by
  have hfind : z.cmds.findIdx? (fun k => !k.acks.isEmpty) = some pre.length := by
    rw [hz, List.findIdx?_append, List.findIdx?_eq_none_iff.2 fun j hj => by rw [hpre j hj]; rfl, List.findIdx?_cons, ha]
    simp
  have hnew : k.targetWrote new = { k with acks := (back, new) :: rest } := by
    unfold Command.targetWrote
    rw [ha]
    dsimp only
    rw [← hlen, List.take_length, hlen, List.drop_length, List.append_nil]
  unfold CopyQueue.targetWrote
  rw [hfind]
  simp only [CopyQueue.modCmd, hz, modify_append_cons, hnew]

/-! The command's happenings together. -/

theorem State.EngineOnly.all {s u : State} {t q : Nat} (h : s.EngineOnly u t q) :
    (∀ j, t ≠ j → u.tile j = s.tile j) ∧ u.mem = s.mem ∧ (u.tile t).spad = (s.tile t).spad ∧ (u.seq t q).g = (s.seq t q).g :=
  ⟨h.tiles, h.mem, h.spad, h.g⟩

theorem Command.stores.notFetched {k : Command} (h : k.stores) : k.kind ≠ .cpyg ∧ k.kind ≠ .gath := by
  obtain h | h | ⟨h, -⟩ := h <;> simp [h]

theorem Ctx.pageFault_some {x : Ctx} {a slot record : Nat} (h : x.slotOf a = some (slot, record)) (code : Nat) :
    x.pageFault code a = (0x0801, a, some record) := by
  rw [Ctx.pageFault, h]

theorem Ctx.pageFault_none {x : Ctx} {a : Nat} (h : x.slotOf a = none) (code : Nat) : x.pageFault code a = (code, a, none) := by
  rw [Ctx.pageFault, h]

section
variable {s u : State} {t q operand a : Nat} {k : Command} {ps : Map Nat} {write : Bool}
  (hk : (k.kind = .gath ∧ operand = k.src ∧ write = false) ∨ (k.kind = .scat ∧ operand = k.dst ∧ write = true))
include hk

theorem State.commandPages_framed (h : s.operandFrames t q operand k.len write = .ok (u, ps)) : s.commandPages t q k = .ok (u, ps) := by
  rw [State.commandPages_frames hk, h]

theorem State.commandPages_unframed (h : s.operandFrames t q operand k.len write = .error a) :
    s.commandPages t q k = .error (0x0801, a, ((s.ctx (s.ctxOf t)).winnow.slots.lookup (operand % 65536)).map (·.1)) := by
  rw [State.commandPages_frames hk, h]

end

/-- A running value that differs leaves its record and the queue's fault flag (R201, R270). -/
theorem State.engineEvent_differs {s : State} {t q c i : Nat} {k : Command} (hf : (s.tile t).frozen = false)
    (hn : s.queueNext t q c = some (3, i, k)) (hc : k.compare = true) (hne : (s.queueOf t q c).run ≠ (s.queueOf t q c).expect)
    (hh : (s.seq t q).handler = none) : (s.engineEvent t q c).Flagged t q c ((s.queueOf t q c).differs c (s.seq t q) k) := by
  rw [State.engineEvent_of_step ((State.engineStep_complete hf hn).trans (State.copyComplete_differs hc hne))]
  refine State.takeDue_flagged ?_ ?_ ⟨(by decide : 0x0602 ≠ 0x0801), (by decide : partitionCode 0x0602 = false), (by decide : 0x0602 ≠ 0x0C03)⟩
  · have hraise (y : Seq) (e : Nat) : (y.raiseFlag e).queue c = y.queue c := rfl
    rw [State.queueOf, State.seq_modSeq_same, hraise, ← State.queueOf, State.queueOf_endCommand]
    rfl
  · rw [State.seq_modSeq_same]
    exact (State.endCommand_handler ..).trans hh

theorem State.exec_acknowledgment_due {s u : State} (hb : s.cur.bytes = []) (h : s.cpyxAck (s.arg 0) (s.arg 1) (s.arg 2) = (u, [])) :
    exec .cpyxAcknowledgment s = .next u := by
  show execCpyxAcknowledgment s = _
  rw [execCpyxAcknowledgment, hb, List.isEmpty_nil, if_pos rfl, State.ackEvent, h]
  rfl

theorem State.exec_acknowledgment_input {s : State} (hb : s.cur.bytes ≠ []) :
    exec .cpyxAcknowledgment s = .next (s.modQueue (s.arg 0) (s.arg 1) (s.arg 2) fun z => z.targetWrote s.cur.bytes) := by
  show execCpyxAcknowledgment s = _
  rw [execCpyxAcknowledgment, if_neg (by simpa using hb)]

/-- Settles O39: each happening of a queue by the lemma about it; the bytes of a fetched beat are read at the start, and a beat is folded at once where none of
its command's is still on its way. -/
theorem copiesStartMoveAndComplete : Obligations.CopiesStartMoveAndComplete := by
  unfold Obligations.CopiesStartMoveAndComplete
  intro s i k t q c z x others begins starts brings fails ctx slot named frames storing
  refine ⟨fun hf hn => ?_, fun hf hn hk => ?_, fun bs hf hn hk hd hb => ?_, fun j bs rest hf hn hu hfold => ?_,
    fun hf hn hagree => ?_, fun hf hn hc hne hh => ?_, fun back bs rest hb hd hk ha hmore => ?_, fun pre post back bs rest hb hlen hz hpre ha => ?_⟩
  · have hbegins {u : State} {ps : Map Nat} (h : s.commandPages t q k = .ok (u, ps)) (hk : k.kind ≠ .cpyg ∧ k.kind ≠ .gath) : starts u ps :=
      congrArg Host.Outcome.next (State.engineEvent_begins hf hn h hk.1 hk.2)
    have hbrings {u : State} {ps : Map Nat} (h : s.commandPages t q k = .ok (u, ps)) (hk : k.kind = .cpyg ∨ k.kind = .gath)
        (hu : s.SameEngine u) : brings u ps := by
      obtain ⟨w, arr, hmem, hlen, horder, hlater, hevent⟩ := State.engineEvent_brings hf hn h hk hu
      exact ⟨w, arr, hmem, hlen, horder, hlater, congrArg Host.Outcome.next hevent⟩
    have hfails {code a : Nat} {record : Option Nat} (h : s.commandPages t q k = .error (code, a, record)) : fails code a record :=
      congrArg Host.Outcome.next (State.engineEvent_fails hf hn h)
    refine ⟨fun hk => ?_, fun hk => ?_, fun u ps hk h => ⟨fun hw => ?_, fun hx hw => ?_⟩, fun u ps hk h => ?_, fun code a h => ?_,
      fun u ps hk h => ?_, fun u ps hk h => ?_, fun a hk h => ?_, fun a hk h => ?_⟩
    · exact hbegins (State.commandPages_local hk) (by obtain h | h | ⟨h, -⟩ := hk <;> simp [h])
    · exact ⟨_, hbegins (State.commandPages_rows hk) (by simp [hk]), fun row hlo hhi => lookup_rowsOf _ hlo hhi⟩
    · exact hbegins (State.commandPages_stores hk h hw) (Command.stores.notFetched hk)
    · exact hfails (State.commandPages_outside hx h hw)
    · exact hbrings (State.commandPages_fetches hk h) (.inl hk) (State.translatePages_sameEngine h)
    · have hpages : s.commandPages t q k = .error (ctx.pageFault code a) := State.commandPages_untranslated h
      cases hs : ctx.slotOf a with
      | none => exact hfails (hpages.trans (congrArg _ (Ctx.pageFault_none hs code)))
      | some e => exact hfails (hpages.trans (congrArg _ (Ctx.pageFault_some hs code)))
    · exact hbrings (State.commandPages_framed (.inl ⟨hk, rfl, rfl⟩) h) (.inr hk) (State.framePages_sameEngine h)
    · exact hbegins (State.commandPages_framed (.inr ⟨hk, rfl, rfl⟩) h) (by simp [hk])
    · exact hfails (State.commandPages_unframed (.inl ⟨hk, rfl, rfl⟩) h)
    · exact hfails (State.commandPages_unframed (.inr ⟨hk, rfl, rfl⟩) h)
  · intro off m hp hm
    obtain ⟨u, hu, honly, hqueue⟩ := State.beatRead_plain hk hp hm
    exact ⟨u, congrArg Host.Outcome.next (State.engineEvent_of_quiet ((State.engineStep_read hf hn).trans hu)), honly.all, hqueue⟩
  · intro off hm hu hap hin
    obtain ⟨u, hstep, honly, hwrites, hqueue⟩ := State.beatPerform_here (i := i) (c := c) ⟨hk, hd⟩ hb hu hm ⟨hap, hin⟩
    exact ⟨u, congrArg Host.Outcome.next (State.engineEvent_of_quiet ((State.engineStep_perform hf hn).trans hstep)), honly.all, hwrites, hqueue⟩
  · refine congrArg Host.Outcome.next (State.engineEvent_of_quiet ((State.engineStep_fold hf hn).trans ?_))
    rw [State.foldBeat, hu]
    simp only [CopyQueue.foldBytes, hfold, if_true]
    rfl
  · refine ⟨_, congrArg Host.Outcome.next (State.engineEvent_of_quiet ((State.engineStep_complete hf hn).trans (State.copyComplete_agrees hagree))),
      (State.EngineOnly.endCommand ..).all, State.queueOf_endCommand ..⟩
  · obtain ⟨⟨r, hlast, hr⟩, hfault⟩ := State.engineEvent_differs hf hn hc hne hh
    exact ⟨_, r, rfl, hfault, hlast, hr⟩
  · exact State.exec_acknowledgment_due hb (State.cpyxAck_counts hd hk ha hmore)
  · exact (State.exec_acknowledgment_input hb).trans
      (congrArg Host.Outcome.next (State.modQueue_congr (CopyQueue.targetWrote_first hz hpre ha hlen)))

end Sys2Proof.Machine
end
